-- ==== Sys2Proof/Word.lean ====
section
/-!
DEFINITION. The word types of the part (spec/00_scope.md R1): bit 0 is the least significant bit, several
bytes in memory are little-endian.
-/
namespace Sys2Proof

/-- A scalar register, an address value, a state register. -/
abbrev Word := BitVec 64

/-- One byte of memory. -/
abbrev Byte := BitVec 8

/-- An instruction word; a packet index. -/
abbrev W32 := BitVec 32

/-- The content of one 16-byte granule (spec/11_ordering_machine.md R184). -/
abbrev Gran := BitVec 128

/-- A 64-byte block as one number, byte 0 the least significant (spec/07_number_formats.md R119). -/
abbrev Block := BitVec 512

/-- Bits `hi..lo` of a number, as the number they spell (spec/00_scope.md, x[hi:lo]). -/
def bits (x hi lo : Nat) : Nat := x / 2 ^ lo % 2 ^ (hi + 1 - lo)

/-- `sext(x, n)` of spec/00_scope.md Table 0-2. -/
def sextInt (x n : Nat) : Int :=
  if x % 2 ^ n < 2 ^ (n - 1) then (x % 2 ^ n : Nat) else (x % 2 ^ n : Nat) - (2 ^ n : Nat)

/-- The word that holds the low 64 bits of an integer (spec/00_scope.md R7). -/
def wordOfInt (x : Int) : Word := BitVec.ofInt 64 x

end Sys2Proof
end

