-- ==== Sys2Proof/Syntax.lean ====
section
/-!
DEFINITION. The steps of the part, one constructor per row of spec/opcode_table.json: the 112 instruction
words (spec/05_formats_opcodes.md Tables 5-3 to 5-12, fields named as the table names them) and the 111
events of the package (spec/95_what_each_step_holds.md), whose operands are the choices that their rules
leave to the agent, to the host or to other packages.
-/

namespace Sys2Proof

/-- The fields C [31] and G [27:25] that every word has (Table 5-1). -/
structure Hd where
  c : Bool
  g : BitVec 3
deriving DecidableEq, Repr, Inhabited

/-- A pool bank, core or optical port whose errors a die counts (spec/19_system.md R276). -/
inductive ErrSite where
  | core (core : Nat)
  | bank (core bank : Nat)
  | port (port : Nat)
deriving DecidableEq, Repr

/-- The alarm conditions of spec/19_system.md Table 19-10. -/
inductive AlarmCause where
  | temperature | supply | clock | mesh
deriving DecidableEq, Repr

/-- A partition or owner setting of spec/19_system.md Table 19-1 that has no event of its own. -/
inductive Setting where
  | slice | hbudget | recall | gangto | gangset | gangcnt | mirw | mbase | sigreq | fwdpkt
deriving DecidableEq, Repr

/-- What a host register write names (spec/14_bilvel_fabric.md R217, spec/17_traps_preemption.md R242, R257,
spec/18_program_remote_stream.md R260, spec/19_system.md R264, R266, R269, R270). -/
inductive HostReg where
  /-- the register at an offset of a virtual function's block (Table 19-3) -/
  | vf (vf off : Nat)
  /-- a partition setting of Table 19-1, written by PF0 -/
  | part (part : Nat) (s : Setting)
  /-- bits 64·i to 64·i + 63 of LENDTO of a partition, written by PF0 -/
  | lendto (part i : Nat)
  /-- WEIGHT of an owner, written by PF0 -/
  | weight (owner : Nat)
  /-- CLASS of an owner, written by PF0 -/
  | cls (owner : Nat)
  /-- an action-table entry (R242) -/
  | action (part cause : Nat)
  /-- the owner a virtual function is bound to (R264): value 256 unbinds -/
  | bind (vf : Nat)
  /-- the fabric number (R217) -/
  | fabricNumber
  /-- base, size and owner of one of the 8 HDM ranges (R269) -/
  | hdmBase (i : Nat) | hdmSize (i : Nat) | hdmOwner (i : Nat)
deriving DecidableEq, Repr

/-- Why a cancel, a recall, a park, the scan or the host asks a context to stop (spec/17_traps_preemption.md R251). -/
inductive PreSrc where
  | slice | recall | park | host | scan
deriving DecidableEq, Repr

/-- A request that a remote source sends to this package, or its answer comes back with
(spec/14_bilvel_fabric.md R219, R223): who sent it, its number there, the target PA, and its data. -/
structure RemoteReq where
  /-- fabric number of the source -/
  src : Nat
  /-- package index of the source core; 0xFFFF for a combine unit (R34) -/
  srcCore : Nat
  /-- number of the request at its source -/
  id : Nat
  /-- target physical address at this package -/
  pa : Nat
  /-- bytes read or written -/
  len : Nat
  /-- bytes carried, lowest address first -/
  data : List Byte
  /-- RBARF of Table 14-3: 0 none, k barrier k - 1 of the target core -/
  rbarf : Nat
  /-- handler flag and index -/
  hnd : Bool
  hidx : Nat
  /-- partition the request acts for (TPART) -/
  tpart : Nat
  /-- KIND of the window it went through: 1 HBM, 2 a pool (spec/08_pool_memory.md R156) -/
  kind : Nat
  /-- R234: a mirror write -/
  mirror : Bool
deriving DecidableEq, Repr, Inhabited

/-- What an acknowledgement says (spec/14_bilvel_fabric.md R219, spec/12_engines.md R207): a cause, 0 for none, and the
blocks written. -/
structure Answer where
  cause : Nat
  wrote : Nat
deriving DecidableEq, Repr, Inhabited

/-- A gang launch as two packages name it (spec/14_bilvel_fabric.md R233): its coordinator, its number there. -/
structure GangName where
  coordinator : Nat
  number : Nat
deriving DecidableEq, Repr, Inhabited

/-- What the outside says of one entry of a spare's fill (spec/19_system.md R279): the gang, the entry, did its source fail? -/
structure FillReport where
  gang : Nat
  entry : Nat
  failed : Bool
deriving DecidableEq, Repr, Inhabited

/-- One contribution of a rank to a reduction group (spec/14_bilvel_fabric.md R228). -/
structure Contribution where
  /-- partition whose group table names the group, and the group's number -/
  part : Nat
  group : Nat
  src : Nat
  srcCore : Nat
  id : Nat
  /-- FMT of the source blocks -/
  fmt : Nat
  nblk : Nat
  cmp : Bool
  /-- the element codes, widened to FP32, or INT32 -/
  vals : List W32
  /-- the ranks combined into it, where it comes from a combine unit of a lower level: `srcCore` is then the rank at whose
  package it was combined, `id` its round; 0 for one rank's own -/
  mask : BitVec 64 := 0
  /-- the contributions combined into it: fabric number, core, number -/
  parts : List (Nat × Nat × Nat) := []
deriving DecidableEq, Repr, Inhabited

/-- The result of a closed round on its way to a package (spec/14_bilvel_fabric.md R230): fabric number of the root,
round, status and mask of the record, where it is written, the handler, the blocks, and the cores that contributed. -/
structure RoundResult where
  root : Nat
  round : Nat
  status : Nat
  mask : BitVec 64
  raddr : Word
  rrec : Word
  hnd : Bool
  hidx : Nat
  blocks : List Block
  cores : List Nat := []
deriving DecidableEq, Repr, Inhabited

/-- The steps. Where a reduction group is named by one number, it is 1,024 × partition + group. -/
inductive Instr where
  /-- X_NOP (R391). -/
  | xNop (h : Hd)
  /-- X_ADD (R378). -/
  | xAdd (h : Hd) (d a : BitVec 6) (i : Bool) (b : BitVec 6)
  /-- X_SUB (R402). -/
  | xSub (h : Hd) (d a : BitVec 6) (i : Bool) (b : BitVec 6)
  /-- X_MUL (R389). -/
  | xMul (h : Hd) (d a : BitVec 6) (i : Bool) (b : BitVec 6)
  /-- X_MULH (R390). -/
  | xMulh (h : Hd) (d a : BitVec 6) (i : Bool) (b : BitVec 6)
  /-- X_DIV (R383). -/
  | xDiv (h : Hd) (d a : BitVec 6) (i : Bool) (b : BitVec 6)
  /-- X_REM (R397). -/
  | xRem (h : Hd) (d a : BitVec 6) (i : Bool) (b : BitVec 6)
  /-- X_AND (R379). -/
  | xAnd (h : Hd) (d a : BitVec 6) (i : Bool) (b : BitVec 6)
  /-- X_OR (R392). -/
  | xOr (h : Hd) (d a : BitVec 6) (i : Bool) (b : BitVec 6)
  /-- X_XOR (R403). -/
  | xXor (h : Hd) (d a : BitVec 6) (i : Bool) (b : BitVec 6)
  /-- X_SHL (R400). -/
  | xShl (h : Hd) (d a : BitVec 6) (i : Bool) (b : BitVec 6)
  /-- X_SHR (R401). -/
  | xShr (h : Hd) (d a : BitVec 6) (i : Bool) (b : BitVec 6)
  /-- X_SAR (R398). -/
  | xSar (h : Hd) (d a : BitVec 6) (i : Bool) (b : BitVec 6)
  /-- X_MIN (R388). -/
  | xMin (h : Hd) (d a : BitVec 6) (i : Bool) (b : BitVec 6)
  /-- X_MAX (R388). -/
  | xMax (h : Hd) (d a : BitVec 6) (i : Bool) (b : BitVec 6)
  /-- X_CLZ (R381). -/
  | xClz (h : Hd) (d a : BitVec 6)
  /-- X_PCNT (R394). -/
  | xPcnt (h : Hd) (d a : BitVec 6)
  /-- X_SEXT (R399). -/
  | xSext (h : Hd) (d a : BitVec 6) (i : Bool) (b : BitVec 6)
  /-- X_CMP (R382). -/
  | xCmp (h : Hd) (p k : BitVec 3) (a : BitVec 6) (i : Bool) (b : BitVec 6)
  /-- X_PAND (R393). -/
  | xPand (h : Hd) (p : BitVec 3) (n : Bool) (a b : BitVec 3) (m : Bool)
  /-- X_POR (R395). -/
  | xPor (h : Hd) (p : BitVec 3) (n : Bool) (a b : BitVec 3) (m : Bool)
  /-- X_PXOR (R396). -/
  | xPxor (h : Hd) (p : BitVec 3) (n : Bool) (a b : BitVec 3) (m : Bool)
  /-- X_FADD (R384). -/
  | xFadd (h : Hd) (d a b : BitVec 6)
  /-- X_FMUL (R387). -/
  | xFmul (h : Hd) (d a b : BitVec 6)
  /-- X_FMAX (R386). -/
  | xFmax (h : Hd) (d a b : BitVec 6)
  /-- X_FCVT (R385). -/
  | xFcvt (h : Hd) (d a k : BitVec 6)
  /-- X_CHK (R380). -/
  | xChk (h : Hd) (a : BitVec 6)
  /-- L_LD (R321). -/
  | lLd (h : Hd) (d a : BitVec 6) (s : BitVec 3) (p : Bool) (i : BitVec 3)
  /-- L_ST (R328). -/
  | lSt (h : Hd) (d a : BitVec 6) (s i : BitVec 3)
  /-- L_VLD (R330). -/
  | lVld (h : Hd) (t : BitVec 2) (r a : BitVec 6) (o : BitVec 3)
  /-- L_VST (R331). -/
  | lVst (h : Hd) (t : BitVec 2) (r a : BitVec 6) (o : BitVec 3) (f : BitVec 2)
  /-- L_CAS (R317). -/
  | lCas (h : Hd) (d a b : BitVec 6) (z : Bool)
  /-- L_RADD (R323). -/
  | lRadd (h : Hd) (t : BitVec 2) (r a : BitVec 6) (o : BitVec 3)
  /-- L_ALLOC (R315). -/
  | lAlloc (h : Hd) (d a b : BitVec 6)
  /-- L_FREE (R319). -/
  | lFree (h : Hd) (a : BitVec 6)
  /-- L_RENEW (R324). -/
  | lRenew (h : Hd) (a b : BitVec 6)
  /-- L_COPY (R318). -/
  | lCopy (h : Hd) (d a b : BitVec 6)
  /-- L_GATH (R320). -/
  | lGath (h : Hd) (d a b : BitVec 6)
  /-- L_RLD (R325). -/
  | lRld (h : Hd) (d a b : BitVec 6)
  /-- L_RST (R327). -/
  | lRst (h : Hd) (d a b : BitVec 6)
  /-- L_RRED (R326). -/
  | lRred (h : Hd) (d a b : BitVec 6)
  /-- L_MCAST (R322). -/
  | lMcast (h : Hd) (d a b : BitVec 6)
  /-- L_STASH (R329). -/
  | lStash (h : Hd) (t : BitVec 2) (a b : BitVec 6)
  /-- L_WIN (R332). -/
  | lWin (h : Hd) (d a b : BitVec 6)
  /-- L_AMO_ADD (R316). -/
  | lAmoAdd (h : Hd) (d a b : BitVec 6) (z : Bool)
  /-- L_AMO_AND (R316). -/
  | lAmoAnd (h : Hd) (d a b : BitVec 6) (z : Bool)
  /-- L_AMO_OR (R316). -/
  | lAmoOr (h : Hd) (d a b : BitVec 6) (z : Bool)
  /-- L_AMO_XOR (R316). -/
  | lAmoXor (h : Hd) (d a b : BitVec 6) (z : Bool)
  /-- L_AMO_MIN (R316). -/
  | lAmoMin (h : Hd) (d a b : BitVec 6) (z : Bool)
  /-- L_AMO_MAX (R316). -/
  | lAmoMax (h : Hd) (d a b : BitVec 6) (z : Bool)
  /-- L_AMO_SWAP (R316). -/
  | lAmoSwap (h : Hd) (d a b : BitVec 6) (z : Bool)
  /-- V_ADD (R350). -/
  | vAdd (h : Hd) (t : BitVec 2) (d a b : BitVec 6)
  /-- V_SUB (R372). -/
  | vSub (h : Hd) (t : BitVec 2) (d a b : BitVec 6)
  /-- V_MUL (R362). -/
  | vMul (h : Hd) (t : BitVec 2) (d a b : BitVec 6)
  /-- V_FMA (R356). -/
  | vFma (h : Hd) (t : BitVec 2) (d a b : BitVec 6)
  /-- V_MAX (R359). -/
  | vMax (h : Hd) (t : BitVec 2) (d a b : BitVec 6)
  /-- V_MIN (R360). -/
  | vMin (h : Hd) (t : BitVec 2) (d a b : BitVec 6)
  /-- V_NEG (R363). -/
  | vNeg (h : Hd) (t : BitVec 2) (d a : BitVec 6)
  /-- V_ABS (R349). -/
  | vAbs (h : Hd) (t : BitVec 2) (d a : BitVec 6)
  /-- V_EXP2 (R355). -/
  | vExp2 (h : Hd) (t : BitVec 2) (d a : BitVec 6)
  /-- V_LOG2 (R358). -/
  | vLog2 (h : Hd) (t : BitVec 2) (d a : BitVec 6)
  /-- V_RCP (R367). -/
  | vRcp (h : Hd) (t : BitVec 2) (d a : BitVec 6)
  /-- V_RSQRT (R369). -/
  | vRsqrt (h : Hd) (t : BitVec 2) (d a : BitVec 6)
  /-- V_CVT (R354). -/
  | vCvt (h : Hd) (t : BitVec 2) (d a k : BitVec 6)
  /-- V_CMP_LT (R353). -/
  | vCmpLt (h : Hd) (t : BitVec 2) (d a b : BitVec 6)
  /-- V_CMP_LE (R353). -/
  | vCmpLe (h : Hd) (t : BitVec 2) (d a b : BitVec 6)
  /-- V_CMP_EQ (R353). -/
  | vCmpEq (h : Hd) (t : BitVec 2) (d a b : BitVec 6)
  /-- V_SEL (R371). -/
  | vSel (h : Hd) (t : BitVec 2) (d a b : BitVec 6)
  /-- V_RMAX (R368). -/
  | vRmax (h : Hd) (t : BitVec 2) (d a : BitVec 6)
  /-- V_RSUM (R370). -/
  | vRsum (h : Hd) (t : BitVec 2) (d a : BitVec 6)
  /-- V_BCAST (R352). -/
  | vBcast (h : Hd) (t : BitVec 2) (d a : BitVec 6)
  /-- V_GET (R357). -/
  | vGet (h : Hd) (t : BitVec 2) (d a b : BitVec 6)
  /-- V_PUT (R366). -/
  | vPut (h : Hd) (t : BitVec 2) (d a b : BitVec 6)
  /-- V_MOV (R361). -/
  | vMov (h : Hd) (t : BitVec 2) (d a u : BitVec 6)
  /-- V_PERM (R365). -/
  | vPerm (h : Hd) (t : BitVec 2) (d a b : BitVec 6)
  /-- V_AND (R351). -/
  | vAnd (h : Hd) (t : BitVec 2) (d a b : BitVec 6)
  /-- V_OR (R364). -/
  | vOr (h : Hd) (t : BitVec 2) (d a b : BitVec 6)
  /-- V_XOR (R373). -/
  | vXor (h : Hd) (t : BitVec 2) (d a b : BitVec 6)
  /-- M_NOP (R337). -/
  | mNop (h : Hd)
  /-- M_PREC (R338). -/
  | mPrec (h : Hd) (t : BitVec 2) (a : BitVec 6) (k : Bool)
  /-- M_SHAPE (R340). -/
  | mShape (h : Hd) (sh : BitVec 3) (a : BitVec 6)
  /-- M_PUSH (R339). -/
  | mPush (h : Hd) (sh : BitVec 3) (a : BitVec 6) (w : Bool) (p : BitVec 4) (r : Bool) (s : BitVec 2)
  /-- M_SWAP (R341). -/
  | mSwap (h : Hd)
  /-- M_FEED (R336). -/
  | mFeed (h : Hd) (t : BitVec 2) (sh : BitVec 3) (a : BitVec 6) (w : Bool) (x y : BitVec 4) (r : Bool)
  /-- M_DRAIN (R335). -/
  | mDrain (h : Hd) (t : BitVec 2) (n e hi : Bool)
  /-- M_CLEAR (R334). -/
  | mClear (h : Hd)
  /-- B_SAFE (R303). -/
  | bSafe (h : Hd)
  /-- B_JMP (R294). -/
  | bJmp (h : Hd) (k : BitVec 3)
  /-- B_CALL (R289). -/
  | bCall (h : Hd) (k : BitVec 3)
  /-- B_LADDER (R295). -/
  | bLadder (h : Hd) (p q u v k : BitVec 3)
  /-- B_LOOP (R297). -/
  | bLoop (h : Hd) (n b : BitVec 6) (e p : BitVec 4)
  /-- B_TGT (R306). -/
  | bTgt (h : Hd) (k : BitVec 3) (o : BitVec 17)
  /-- B_FENCE (R293). -/
  | bFence (h : Hd) (p s : BitVec 5) (x : BitVec 3)
  /-- B_OPEN (R298). -/
  | bOpen (h : Hd) (a b : BitVec 6)
  /-- B_SHUT (R304). -/
  | bShut (h : Hd) (d a : BitVec 6)
  /-- B_TWAIT (R308). -/
  | bTwait (h : Hd) (e : BitVec 2) (a : BitVec 6)
  /-- B_ARM (R286). -/
  | bArm (h : Hd) (b : BitVec 4) (a : BitVec 6)
  /-- B_BWAIT (R288). -/
  | bBwait (h : Hd) (b : BitVec 4)
  /-- B_POP (R299). -/
  | bPop (h : Hd) (d a : BitVec 6) (n : Bool) (p : BitVec 3)
  /-- B_PUSH (R301). -/
  | bPush (h : Hd) (a b : BitVec 6) (l : Bool) (p : BitVec 3)
  /-- B_LAUNCH (R296). -/
  | bLaunch (h : Hd) (d a : BitVec 6)
  /-- B_POST (R300). -/
  | bPost (h : Hd) (s : BitVec 4) (k : BitVec 2) (a : BitVec 6)
  /-- B_SUSP (R305). -/
  | bSusp (h : Hd) (k : BitVec 3) (a b : BitVec 6) (j : BitVec 3)
  /-- B_EXIT (R292). -/
  | bExit (h : Hd)
  /-- B_TRAP (R307). -/
  | bTrap (h : Hd) (k : BitVec 8)
  /-- B_RDST (R302). -/
  | bRdst (h : Hd) (d : BitVec 6) (s : BitVec 10)
  /-- B_WRST (R310). -/
  | bWrst (h : Hd) (a : BitVec 6) (s : BitVec 10)
  /-- B_CANCEL (R290). -/
  | bCancel (h : Hd) (l : BitVec 3)
  /-- B_BRK (R287). -/
  | bBrk (h : Hd)
  /-- B_WAIT (R309). -/
  | bWait (h : Hd) (k : BitVec 3) (a b : BitVec 6)
  /-- B_ERET (R291). -/
  | bEret (h : Hd)
  /-- K_IMM (R311). -/
  | kImm (k : BitVec 25)
  /-- PACKAGE_RESET (R16). -/
  | packageReset
  /-- TAIL_WRITE (R45). -/
  | tailWrite (vf ring : Nat) (val : W32)
  /-- LAUNCH (R46): the hive consumes the entry at the head of a ring. -/
  | launch (vf ring : Nat)
  /-- JOB (R46). -/
  | job (vf ring : Nat)
  /-- PUSH (R46). -/
  | push (vf ring : Nat)
  /-- CLOSE (R46). -/
  | close (vf ring : Nat)
  /-- POST (R46). -/
  | post (vf ring : Nat)
  /-- CANCEL (R46). -/
  | cancel (vf ring : Nat)
  /-- RBASE_WRITE (R271). -/
  | rbaseWrite (vf ring : Nat) (val : Word)
  /-- RSIZE_WRITE (R271). -/
  | rsizeWrite (vf ring : Nat) (val : W32)
  /-- EQLOST_READ (R270). -/
  | eqlostRead (vf : Nat)
  /-- POST_SLICE_END_NOW (R259): a write of DPOST. -/
  | postSliceEndNow (vf : Nat) (val : Word)
  /-- POST_SLICE_END_AT_EISS (R259): a write of DPOST. -/
  | postSliceEndAtEiss (vf : Nat) (val : Word)
  /-- POSTED_SLICE_END_TRIGGER (R259). -/
  | postedSliceEndTrigger (core ctx : Nat)
  /-- RELEASE (R247): a write of RELEASE. -/
  | release (vf : Nat) (va : Word)
  /-- CATCH (R261): a write of DCATCH. -/
  | catchRecords (vf : Nat) (val : Word)
  /-- GO (R261): a write of DCATCH. -/
  | go (vf : Nat) (val : Word)
  /-- SINGLE_STEP (R257): a write of DCTL. -/
  | singleStep (vf : Nat) (val : W32)
  /-- ENGINE_FREEZE (R257): a write of DCTL. -/
  | engineFreeze (vf : Nat) (val : W32)
  /-- REGISTER_WRITE (R270, R266). -/
  | registerWrite (r : HostReg) (val : Word)
  /-- SET_ROOT (R266). -/
  | setRoot (part : Nat) (pa : Word)
  /-- SET_OWNER (R264). -/
  | setOwner (part : Nat) (owner : Option Byte)
  /-- LEND (R272): a write of LENDTO, not zero. -/
  | lend (vf part : Nat) (mask : BitVec 256)
  /-- RECALL (R272): a write of LENDTO = 0. -/
  | recallLend (vf part : Nat)
  /-- SET_RECAREA (R268). -/
  | setRecarea (part : Nat) (va : Word) (imgcnt reccnt : Nat)
  /-- KEY_INSTALL (R281). -/
  | keyInstall (owner slot : Nat) (id : Word) (key : Nat)
  /-- GET_VERSION (R280). -/
  | getVersion
  /-- GET_CAPABILITIES (R280). -/
  | getCapabilities
  /-- NEGOTIATE_ALGORITHMS (R280): does the requester offer SHAKE256 and Falcon-1024? -/
  | negotiateAlgorithms (offered : Bool)
  /-- GET_DIGESTS (R280). -/
  | getDigests
  /-- GET_CERTIFICATE (R280). -/
  | getCertificate (slot : Nat)
  /-- CHALLENGE (R280). -/
  | challenge (nonce : Nat)
  /-- GET_MEASUREMENTS (R280). -/
  | getMeasurements (index nonce : Nat)
  /-- KEY_EXCHANGE (R280). -/
  | keyExchange (data : Nat)
  /-- FINISH (R280). -/
  | finish (data : Nat)
  /-- HOST_MEM_READ (R269): the history position that an HBM granule is read at is the agent's choice (R188). -/
  | hostMemRead (hdm : Nat) (pa size pos : Nat)
  /-- HOST_MEM_WRITE (R269). -/
  | hostMemWrite (hdm : Nat) (pa size : Nat) (data : Gran)
  /-- UNIT_PLACE (R55). -/
  | unitPlace
  /-- ZEROING_COMPLETE (R144). -/
  | zeroingComplete (core : Nat)
  /-- SLICE_END (R56). -/
  | sliceEnd (core ctx : Nat)
  /-- RECORD_TAKE_UP (R24). -/
  | recordTakeUp
  /-- PHASE_EVALUATION (R51). -/
  | phaseEvaluation (job : Nat)
  /-- NODE_CONSIDER (R52). -/
  | nodeConsider (graph node : Nat)
  /-- UNIT_END (R22). -/
  | unitEnd (core ctx : Nat)
  /-- RECALL_HANDLER_KILL (R59). -/
  | recallHandlerKill (core ctx : Nat)
  /-- RECALL_RETURN (R59). -/
  | recallReturn (part : Nat)
  /-- USAGE_FORWARD (R60). -/
  | usageForward
  /-- SCAN_PASS_START (R274). -/
  | scanPassStart (cluster : Nat)
  /-- SCAN_PASS_END (R274): did the patterns pass? -/
  | scanPassEnd (core : Nat) (pass : Bool)
  /-- CORRECTED_ERROR (R276). -/
  | correctedError (site : ErrSite)
  /-- RETIREMENT (R276). -/
  | retirement (site : ErrSite)
  /-- WEAR_WARNING (R277): the monitor's new prediction. -/
  | wearWarning (die : Nat) (hours : W32)
  /-- SCRUB_GRANULE (R278): is the granule uncorrectable? -/
  | scrubGranule (pa : Nat) (bad : Bool)
  /-- MEMBER_DOWN (R279). -/
  | memberDown (pkg : Nat)
  /-- SPARE_FILL_DONE (R279): an entry of the fill of a gang's spare; did its source fail? -/
  | spareFillDone (fill : FillReport)
  /-- SECURITY_ALARM (R282). -/
  | securityAlarm (cause : AlarmCause)
  /-- THERMAL_THROTTLE (R282). -/
  | thermalThrottle (on : Bool)
  /-- POWER_LOSS (R273). -/
  | powerLoss
  /-- ARM (R233): the coordinator's message to this package, with its LPB. -/
  | arm (src : Nat) (gang : Nat) (lpb : List Byte)
  /-- ARMED (R233): a member's answer. -/
  | armed (pkg gang : Nat)
  /-- REFUSE (R233): a member's answer. -/
  | refuse (pkg gang : Nat)
  /-- COMMIT (R233): the coordinator's message to this package. -/
  | commit (src gang : Nat)
  /-- COMMITTED (R233): a member's answer. -/
  | committed (pkg gang : Nat)
  /-- GANGTO_EXPIRY (R233). -/
  | gangtoExpiry (gang : Nat)
  /-- FLIT_RECEIVE (R218): on an optical port, its sequence number and whether its CRC holds. -/
  | flitReceive (port seq : Nat) (crcOk : Bool)
  /-- REPLAY_REQUEST (R218): the receiver at the far end asks for a flit again. -/
  | replayRequest (port seq : Nat)
  /-- REMOTE_LOAD_REQUEST (R223): positions that HBM granules are read at (R188). -/
  | remoteLoadRequest (r : RemoteReq) (blk : Nat)
  /-- REMOTE_STORE_REQUEST (R223). -/
  | remoteStoreRequest (r : RemoteReq)
  /-- DIRECT_REDUCTION_REQUEST (R225): operation and target elements. -/
  | directReductionRequest (r : RemoteReq) (op : Nat) (vals : List W32)
  /-- GROUP_CONTRIBUTION (R228): reaches this package, the root of the group or the site of a level of its tree. -/
  | groupContribution (x : Contribution)
  /-- MIRROR_WRITE (R234): the collective engine of a core sends the next mirror. -/
  | mirrorWrite (core : Nat)
  /-- LOAD_RESPONSE (R220): the answer to an l.rld request, or its refusal's cause. -/
  | loadResponse (core id cause : Nat) (data : List Byte)
  /-- ACKNOWLEDGEMENT (R219): of a remote write, with the refusal's cause or 0, and the blocks written before it. -/
  | acknowledgement (core id : Nat) (answer : Answer)
  /-- MOVED_NACK (R226). -/
  | movedNack (core id : Nat)
  /-- REQUEST_TIMEOUT (R220). -/
  | requestTimeout (core id : Nat)
  /-- RANK_EXCLUSION (R229). -/
  | rankExclusion (group rank : Nat)
  /-- ROUND_CLOSE (R229). -/
  | roundClose (group : Nat)
  /-- ROUND_TIMEOUT (R229). -/
  | roundTimeout (group : Nat)
  /-- RESULT_WRITE (R230): the result of a group's round reaches this package for one of its cores. -/
  | resultWrite (group core : Nat) (r : RoundResult)
  /-- MULTICAST_REPLICA (R223): a replica reaches this package. -/
  | multicastReplica (r : RemoteReq)
  /-- HANDLER_START (R33). -/
  | handlerStart (core : Nat)
  /-- WAIT_SATISFIED (R29). -/
  | waitSatisfied (core ctx : Nat)
  /-- SCOREBOARD_LAND (R70). -/
  | scoreboardLand (core ctx tag : Nat)
  /-- RESULT_LAND (R67). -/
  | resultLand (core ctx : Nat)
  /-- TRAP_REPLAY (R243). -/
  | trapReplay (core ctx : Nat)
  /-- PREEMPT_REQUEST (R251). -/
  | preemptRequest (core ctx : Nat) (src : PreSrc)
  /-- STOP_POINT_REACHED (R79, R251). -/
  | stopPointReached (core ctx : Nat)
  /-- ENGINE_STOP_ACK (R252). -/
  | engineStopAck (core ctx e : Nat)
  /-- COLLECTIVE_STOP_EXPIRY (R252). -/
  | collectiveStopExpiry (core ctx : Nat)
  /-- WEIR_COMPLETE (R251). -/
  | weirComplete (core ctx : Nat)
  /-- PIN_RENEWAL (R253). -/
  | pinRenewal (core : Nat)
  /-- RILL_SWEEP (R154). -/
  | rillSweep (core : Nat)
  /-- ISSUE_QUEUE_LEAVE (R185): the action at an index of the agent's issue queue. -/
  | issueQueueLeave (agent idx : Nat)
  /-- PENDING_COMMIT (R186). -/
  | pendingCommit (agent idx : Nat)
  /-- PORT_APPLY (R187). -/
  | portApply (pool : Nat)
  /-- LOAD_BIND (R188): at a history position. -/
  | loadBind (agent idx pos : Nat)
  /-- ATOMIC_APPLY (R191). -/
  | atomicApply (agent idx : Nat)
  /-- RADD_BLOCK_APPLY (R191): the entry at an index of an adder's queue. -/
  | raddBlockApply (die idx : Nat)
  /-- FENCE_COMPLETE (R193). -/
  | fenceComplete (agent idx : Nat)
  /-- SHUT_COMMIT (R196). -/
  | shutCommit (agent idx : Nat)
  /-- PAGE_WALK (R158): serves an entry of a cluster's miss queue. -/
  | pageWalk (cluster idx : Nat)
  /-- INVALIDATION (R161): the host or the hive invalidates a partition's translations of one page. -/
  | invalidation (part : Nat) (page : Word)
  /-- INVALIDATION_ACK (R161): one of the five destinations. -/
  | invalidationAck (dest : Nat)
  /-- PAGE_MIGRATION (R160): the hive's next step of moving the page at a VA to a new frame. -/
  | pageMigration (part : Nat) (va newPa : Word)
  /-- ENGINE_COMMAND_START (R203). -/
  | engineCommandStart (core e num : Nat)
  /-- ENGINE_BLOCK_APPLY (R207): the next block read (at positions) or block write of a command. -/
  | engineBlockApply (core e num : Nat) (pos : List Nat)
  /-- ENGINE_COMMAND_END (R206). -/
  | engineCommandEnd (core e num : Nat)
  /-- OPERAND_FILL_DONE (R169, R170). -/
  | operandFillDone (core ctx : Nat)
  /-- SAVE_IMAGE_WRITTEN (R253). -/
  | saveImageWritten (core ctx : Nat)
  /-- RESTORE_COMPLETE (R255). -/
  | restoreComplete (core ctx : Nat)
  /-- GANG_CANCEL_MESSAGE (R40). -/
  | gangCancelMessage (src : Nat) (gang : GangName)
deriving DecidableEq, Repr

end Sys2Proof
end

