-- ==== Sys2Proof/Decode.lean ====
section
/-!
DEFINITION. Decoding and encoding of the 112 instruction words (spec/05_formats_opcodes.md R84, R87, R90, R91,
R93 to R95, Tables 5-1 to 5-12, with spec/02 Table 2-9, spec/03 Table 3-2, spec/04 Table 4-6). Decoding is
total and reads the layout: the pipe, the op and the fields marked zero. The values of named fields that
Table 5-14 makes illegal are the checks of WellFormed.lean. The encoder follows the same tables.
-/

namespace Sys2Proof

/-- Why a word is no instruction (Table 5-14). -/
inductive Reject where
  /-- PIPE 110 or 111 -/
  | reservedPipe
  /-- a reserved op value of Tables 5-5, 5-7, 5-9, 5-10, 5-12 -/
  | reservedOp
  /-- a non-zero bit in a field marked zero -/
  | zeroField
  /-- a K word with C = 0, the last word of its bundle (R63) -/
  | kLast
  /-- a K word with a guard (R66) -/
  | kGuard
deriving DecidableEq, Repr

/-- Bit `i` of a word as a flag. -/
def flag (w i : Nat) : Bool := w / 2 ^ i % 2 == 1

/-- The field that begins at bit `lo` of a word. -/
def fld (n w lo : Nat) : BitVec n := BitVec.ofNat n (w / 2 ^ lo)

/-- C and G of a word (Table 5-1). -/
def hdOf (w : Nat) : Hd := ⟨flag w 31, fld 3 w 25⟩

/-- The value of a one-bit field. -/
def bitVal (b : Bool) : Nat := if b then 1 else 0

/-- C, PIPE and G of a word, in their places (Table 5-1). -/
def hdBits (h : Hd) (pipe : Nat) : Nat := bitVal h.c * 2147483648 + pipe * 268435456 + h.g.toNat * 33554432

/-- Accept the word if its zero fields are zero. -/
def ifZero (z : Nat) (i : Instr) : Except Reject Instr := if z = 0 then .ok i else .error .zeroField

/-- The X words, by their op (PIPE = 000). -/
def decodeX (w op : Nat) : Except Reject Instr :=
  match op with
  | 0 => ifZero (bits w 18 0) (.xNop (hdOf w))
  | 1 => .ok (.xAdd (hdOf w) (fld 6 w 13) (fld 6 w 7) (flag w 6) (fld 6 w 0))
  | 2 => .ok (.xSub (hdOf w) (fld 6 w 13) (fld 6 w 7) (flag w 6) (fld 6 w 0))
  | 3 => .ok (.xMul (hdOf w) (fld 6 w 13) (fld 6 w 7) (flag w 6) (fld 6 w 0))
  | 4 => .ok (.xMulh (hdOf w) (fld 6 w 13) (fld 6 w 7) (flag w 6) (fld 6 w 0))
  | 5 => .ok (.xDiv (hdOf w) (fld 6 w 13) (fld 6 w 7) (flag w 6) (fld 6 w 0))
  | 6 => .ok (.xRem (hdOf w) (fld 6 w 13) (fld 6 w 7) (flag w 6) (fld 6 w 0))
  | 7 => .ok (.xAnd (hdOf w) (fld 6 w 13) (fld 6 w 7) (flag w 6) (fld 6 w 0))
  | 8 => .ok (.xOr (hdOf w) (fld 6 w 13) (fld 6 w 7) (flag w 6) (fld 6 w 0))
  | 9 => .ok (.xXor (hdOf w) (fld 6 w 13) (fld 6 w 7) (flag w 6) (fld 6 w 0))
  | 10 => .ok (.xShl (hdOf w) (fld 6 w 13) (fld 6 w 7) (flag w 6) (fld 6 w 0))
  | 11 => .ok (.xShr (hdOf w) (fld 6 w 13) (fld 6 w 7) (flag w 6) (fld 6 w 0))
  | 12 => .ok (.xSar (hdOf w) (fld 6 w 13) (fld 6 w 7) (flag w 6) (fld 6 w 0))
  | 13 => .ok (.xMin (hdOf w) (fld 6 w 13) (fld 6 w 7) (flag w 6) (fld 6 w 0))
  | 14 => .ok (.xMax (hdOf w) (fld 6 w 13) (fld 6 w 7) (flag w 6) (fld 6 w 0))
  | 15 => ifZero (bits w 6 0) (.xClz (hdOf w) (fld 6 w 13) (fld 6 w 7))
  | 16 => ifZero (bits w 6 0) (.xPcnt (hdOf w) (fld 6 w 13) (fld 6 w 7))
  | 17 => .ok (.xSext (hdOf w) (fld 6 w 13) (fld 6 w 7) (flag w 6) (fld 6 w 0))
  | 18 => .ok (.xCmp (hdOf w) (fld 3 w 16) (fld 3 w 13) (fld 6 w 7) (flag w 6) (fld 6 w 0))
  | 19 => ifZero (bits w 1 0 + bits w 9 6 + bits w 14 13) (.xPand (hdOf w) (fld 3 w 16) (flag w 15) (fld 3 w 10) (fld 3 w 3) (flag w 2))
  | 20 => ifZero (bits w 1 0 + bits w 9 6 + bits w 14 13) (.xPor (hdOf w) (fld 3 w 16) (flag w 15) (fld 3 w 10) (fld 3 w 3) (flag w 2))
  | 21 => ifZero (bits w 1 0 + bits w 9 6 + bits w 14 13) (.xPxor (hdOf w) (fld 3 w 16) (flag w 15) (fld 3 w 10) (fld 3 w 3) (flag w 2))
  | 22 => ifZero (bits w 6 6) (.xFadd (hdOf w) (fld 6 w 13) (fld 6 w 7) (fld 6 w 0))
  | 23 => ifZero (bits w 6 6) (.xFmul (hdOf w) (fld 6 w 13) (fld 6 w 7) (fld 6 w 0))
  | 24 => ifZero (bits w 6 6) (.xFmax (hdOf w) (fld 6 w 13) (fld 6 w 7) (fld 6 w 0))
  | 25 => ifZero (bits w 6 6) (.xFcvt (hdOf w) (fld 6 w 13) (fld 6 w 7) (fld 6 w 0))
  | 26 => ifZero (bits w 6 0 + bits w 18 13) (.xChk (hdOf w) (fld 6 w 7))
  | _ => .error .reservedOp

/-- The L words, by their op (PIPE = 001). DEDUCED (log 68): op 28 is l.amo.min and op 29 l.amo.max, as Table 5-7 and Table 21-3
order them; the sentence after Table 5-7 gives l.amo.max op 28. -/
def decodeL (w op : Nat) : Except Reject Instr :=
  match op with
  | 0 => .ok (.lLd (hdOf w) (fld 6 w 13) (fld 6 w 7) (fld 3 w 4) (flag w 3) (fld 3 w 0))
  | 1 => ifZero (bits w 3 3) (.lSt (hdOf w) (fld 6 w 13) (fld 6 w 7) (fld 3 w 4) (fld 3 w 0))
  | 2 => ifZero (bits w 1 0) (.lVld (hdOf w) (fld 2 w 17) (fld 6 w 11) (fld 6 w 5) (fld 3 w 2))
  | 3 => .ok (.lVst (hdOf w) (fld 2 w 17) (fld 6 w 11) (fld 6 w 5) (fld 3 w 2) (fld 2 w 0))
  | 4 => .ok (.lCas (hdOf w) (fld 6 w 13) (fld 6 w 7) (fld 6 w 1) (flag w 0))
  | 5 => ifZero (bits w 1 0) (.lRadd (hdOf w) (fld 2 w 17) (fld 6 w 11) (fld 6 w 5) (fld 3 w 2))
  | 6 => ifZero (bits w 0 0) (.lAlloc (hdOf w) (fld 6 w 13) (fld 6 w 7) (fld 6 w 1))
  | 7 => ifZero (bits w 6 0 + bits w 18 13) (.lFree (hdOf w) (fld 6 w 7))
  | 8 => ifZero (bits w 0 0 + bits w 18 13) (.lRenew (hdOf w) (fld 6 w 7) (fld 6 w 1))
  | 9 => ifZero (bits w 0 0) (.lCopy (hdOf w) (fld 6 w 13) (fld 6 w 7) (fld 6 w 1))
  | 10 => ifZero (bits w 0 0) (.lGath (hdOf w) (fld 6 w 13) (fld 6 w 7) (fld 6 w 1))
  | 11 => ifZero (bits w 0 0) (.lRld (hdOf w) (fld 6 w 13) (fld 6 w 7) (fld 6 w 1))
  | 12 => ifZero (bits w 0 0) (.lRst (hdOf w) (fld 6 w 13) (fld 6 w 7) (fld 6 w 1))
  | 13 => ifZero (bits w 0 0) (.lRred (hdOf w) (fld 6 w 13) (fld 6 w 7) (fld 6 w 1))
  | 14 => ifZero (bits w 0 0) (.lMcast (hdOf w) (fld 6 w 13) (fld 6 w 7) (fld 6 w 1))
  | 15 => ifZero (bits w 4 0) (.lStash (hdOf w) (fld 2 w 17) (fld 6 w 11) (fld 6 w 5))
  | 16 => ifZero (bits w 0 0) (.lWin (hdOf w) (fld 6 w 13) (fld 6 w 7) (fld 6 w 1))
  | 24 => .ok (.lAmoAdd (hdOf w) (fld 6 w 13) (fld 6 w 7) (fld 6 w 1) (flag w 0))
  | 25 => .ok (.lAmoAnd (hdOf w) (fld 6 w 13) (fld 6 w 7) (fld 6 w 1) (flag w 0))
  | 26 => .ok (.lAmoOr (hdOf w) (fld 6 w 13) (fld 6 w 7) (fld 6 w 1) (flag w 0))
  | 27 => .ok (.lAmoXor (hdOf w) (fld 6 w 13) (fld 6 w 7) (fld 6 w 1) (flag w 0))
  | 28 => .ok (.lAmoMin (hdOf w) (fld 6 w 13) (fld 6 w 7) (fld 6 w 1) (flag w 0))
  | 29 => .ok (.lAmoMax (hdOf w) (fld 6 w 13) (fld 6 w 7) (fld 6 w 1) (flag w 0))
  | 30 => .ok (.lAmoSwap (hdOf w) (fld 6 w 13) (fld 6 w 7) (fld 6 w 1) (flag w 0))
  | _ => .error .reservedOp

/-- The V words, by their op (PIPE = 010). -/
def decodeV (w op : Nat) : Except Reject Instr :=
  match op with
  | 0 => .ok (.vAdd (hdOf w) (fld 2 w 18) (fld 6 w 12) (fld 6 w 6) (fld 6 w 0))
  | 1 => .ok (.vSub (hdOf w) (fld 2 w 18) (fld 6 w 12) (fld 6 w 6) (fld 6 w 0))
  | 2 => .ok (.vMul (hdOf w) (fld 2 w 18) (fld 6 w 12) (fld 6 w 6) (fld 6 w 0))
  | 3 => .ok (.vFma (hdOf w) (fld 2 w 18) (fld 6 w 12) (fld 6 w 6) (fld 6 w 0))
  | 4 => .ok (.vMax (hdOf w) (fld 2 w 18) (fld 6 w 12) (fld 6 w 6) (fld 6 w 0))
  | 5 => .ok (.vMin (hdOf w) (fld 2 w 18) (fld 6 w 12) (fld 6 w 6) (fld 6 w 0))
  | 6 => ifZero (bits w 5 0) (.vNeg (hdOf w) (fld 2 w 18) (fld 6 w 12) (fld 6 w 6))
  | 7 => ifZero (bits w 5 0) (.vAbs (hdOf w) (fld 2 w 18) (fld 6 w 12) (fld 6 w 6))
  | 8 => ifZero (bits w 5 0) (.vExp2 (hdOf w) (fld 2 w 18) (fld 6 w 12) (fld 6 w 6))
  | 9 => ifZero (bits w 5 0) (.vLog2 (hdOf w) (fld 2 w 18) (fld 6 w 12) (fld 6 w 6))
  | 10 => ifZero (bits w 5 0) (.vRcp (hdOf w) (fld 2 w 18) (fld 6 w 12) (fld 6 w 6))
  | 11 => ifZero (bits w 5 0) (.vRsqrt (hdOf w) (fld 2 w 18) (fld 6 w 12) (fld 6 w 6))
  | 12 => .ok (.vCvt (hdOf w) (fld 2 w 18) (fld 6 w 12) (fld 6 w 6) (fld 6 w 0))
  | 13 => .ok (.vCmpLt (hdOf w) (fld 2 w 18) (fld 6 w 12) (fld 6 w 6) (fld 6 w 0))
  | 14 => .ok (.vCmpLe (hdOf w) (fld 2 w 18) (fld 6 w 12) (fld 6 w 6) (fld 6 w 0))
  | 15 => .ok (.vCmpEq (hdOf w) (fld 2 w 18) (fld 6 w 12) (fld 6 w 6) (fld 6 w 0))
  | 16 => .ok (.vSel (hdOf w) (fld 2 w 18) (fld 6 w 12) (fld 6 w 6) (fld 6 w 0))
  | 17 => ifZero (bits w 5 0) (.vRmax (hdOf w) (fld 2 w 18) (fld 6 w 12) (fld 6 w 6))
  | 18 => ifZero (bits w 5 0) (.vRsum (hdOf w) (fld 2 w 18) (fld 6 w 12) (fld 6 w 6))
  | 19 => ifZero (bits w 5 0) (.vBcast (hdOf w) (fld 2 w 18) (fld 6 w 12) (fld 6 w 6))
  | 20 => .ok (.vGet (hdOf w) (fld 2 w 18) (fld 6 w 12) (fld 6 w 6) (fld 6 w 0))
  | 21 => .ok (.vPut (hdOf w) (fld 2 w 18) (fld 6 w 12) (fld 6 w 6) (fld 6 w 0))
  | 22 => .ok (.vMov (hdOf w) (fld 2 w 18) (fld 6 w 12) (fld 6 w 6) (fld 6 w 0))
  | 23 => .ok (.vPerm (hdOf w) (fld 2 w 18) (fld 6 w 12) (fld 6 w 6) (fld 6 w 0))
  | 24 => .ok (.vAnd (hdOf w) (fld 2 w 18) (fld 6 w 12) (fld 6 w 6) (fld 6 w 0))
  | 25 => .ok (.vOr (hdOf w) (fld 2 w 18) (fld 6 w 12) (fld 6 w 6) (fld 6 w 0))
  | 26 => .ok (.vXor (hdOf w) (fld 2 w 18) (fld 6 w 12) (fld 6 w 6) (fld 6 w 0))
  | _ => .error .reservedOp

/-- The M words, by their op (PIPE = 011). -/
def decodeM (w op : Nat) : Except Reject Instr :=
  match op with
  | 0 => ifZero (bits w 20 0) (.mNop (hdOf w))
  | 1 => ifZero (bits w 11 0) (.mPrec (hdOf w) (fld 2 w 19) (fld 6 w 13) (flag w 12))
  | 2 => ifZero (bits w 11 0) (.mShape (hdOf w) (fld 3 w 18) (fld 6 w 12))
  | 3 => ifZero (bits w 3 0) (.mPush (hdOf w) (fld 3 w 18) (fld 6 w 12) (flag w 11) (fld 4 w 7) (flag w 6) (fld 2 w 4))
  | 4 => ifZero (bits w 20 0) (.mSwap (hdOf w))
  | 5 => .ok (.mFeed (hdOf w) (fld 2 w 19) (fld 3 w 16) (fld 6 w 10) (flag w 9) (fld 4 w 5) (fld 4 w 1) (flag w 0))
  | 6 => ifZero (bits w 15 0) (.mDrain (hdOf w) (fld 2 w 19) (flag w 18) (flag w 17) (flag w 16))
  | 7 => ifZero (bits w 20 0) (.mClear (hdOf w))
  | _ => .error .reservedOp

/-- The B words, by their op (PIPE = 100). -/
def decodeB (w op : Nat) : Except Reject Instr :=
  match op with
  | 0 => ifZero (bits w 19 0) (.bSafe (hdOf w))
  | 1 => ifZero (bits w 16 0) (.bJmp (hdOf w) (fld 3 w 17))
  | 2 => ifZero (bits w 16 0) (.bCall (hdOf w) (fld 3 w 17))
  | 3 => ifZero (bits w 4 0) (.bLadder (hdOf w) (fld 3 w 17) (fld 3 w 14) (fld 3 w 11) (fld 3 w 8) (fld 3 w 5))
  | 4 => .ok (.bLoop (hdOf w) (fld 6 w 14) (fld 6 w 8) (fld 4 w 4) (fld 4 w 0))
  | 5 => .ok (.bTgt (hdOf w) (fld 3 w 17) (fld 17 w 0))
  | 6 => ifZero (bits w 6 0) (.bFence (hdOf w) (fld 5 w 15) (fld 5 w 10) (fld 3 w 7))
  | 7 => ifZero (bits w 7 0) (.bOpen (hdOf w) (fld 6 w 14) (fld 6 w 8))
  | 8 => ifZero (bits w 7 0) (.bShut (hdOf w) (fld 6 w 14) (fld 6 w 8))
  | 9 => ifZero (bits w 11 0) (.bTwait (hdOf w) (fld 2 w 18) (fld 6 w 12))
  | 10 => ifZero (bits w 9 0) (.bArm (hdOf w) (fld 4 w 16) (fld 6 w 10))
  | 11 => ifZero (bits w 15 0) (.bBwait (hdOf w) (fld 4 w 16))
  | 12 => ifZero (bits w 1 0 + bits w 6 5) (.bPop (hdOf w) (fld 6 w 14) (fld 6 w 8) (flag w 7) (fld 3 w 2))
  | 13 => ifZero (bits w 1 0 + bits w 6 5) (.bPush (hdOf w) (fld 6 w 14) (fld 6 w 8) (flag w 7) (fld 3 w 2))
  | 14 => ifZero (bits w 7 0) (.bLaunch (hdOf w) (fld 6 w 14) (fld 6 w 8))
  | 15 => ifZero (bits w 7 0) (.bPost (hdOf w) (fld 4 w 16) (fld 2 w 14) (fld 6 w 8))
  | 16 => ifZero (bits w 1 0) (.bSusp (hdOf w) (fld 3 w 17) (fld 6 w 11) (fld 6 w 5) (fld 3 w 2))
  | 17 => ifZero (bits w 19 0) (.bExit (hdOf w))
  | 18 => ifZero (bits w 11 0) (.bTrap (hdOf w) (fld 8 w 12))
  | 19 => ifZero (bits w 3 0) (.bRdst (hdOf w) (fld 6 w 14) (fld 10 w 4))
  | 20 => ifZero (bits w 3 0) (.bWrst (hdOf w) (fld 6 w 14) (fld 10 w 4))
  | 21 => ifZero (bits w 16 0) (.bCancel (hdOf w) (fld 3 w 17))
  | 22 => ifZero (bits w 19 0) (.bBrk (hdOf w))
  | 23 => ifZero (bits w 4 0) (.bWait (hdOf w) (fld 3 w 17) (fld 6 w 11) (fld 6 w 5))
  | 24 => ifZero (bits w 19 0) (.bEret (hdOf w))
  | _ => .error .reservedOp

/-- Decoding of a word, total: the instruction it lays out, or why there is none. -/
def decodeNat (w : Nat) : Except Reject Instr :=
  match bits w 30 28 with
  | 0 => decodeX w (bits w 24 19)
  | 1 => decodeL w (bits w 24 19)
  | 2 => decodeV w (bits w 24 20)
  | 3 => decodeM w (bits w 24 21)
  | 4 => decodeB w (bits w 24 20)
  | 5 =>
    if flag w 31 = false then .error .kLast
    else if bits w 27 25 ≠ 0 then .error .kGuard
    else .ok (.kImm (fld 25 w 0))
  | _ => .error .reservedPipe

/-- Decoding of a 32-bit word. -/
def decode (w : W32) : Except Reject Instr := decodeNat w.toNat

/-- The word at the head of a string of bytes, little-endian (R1). -/
def wordOfBytes (bs : List Byte) : Nat :=
  (bs.take 4).foldr (fun b acc => b.toNat + 256 * acc) 0

/-- Decoding of the word at the head of a string of bytes, and the bytes after it. -/
def decodeBytes (bs : List Byte) : Except Reject (Instr × List Byte) :=
  match decodeNat (wordOfBytes bs) with
  | .ok i => .ok (i, bs.drop 4)
  | .error e => .error e

/-- The `n` bytes of a number, the lowest first (R1). -/
def bytesOfNat : Nat → Nat → List Byte
  | 0, _ => []
  | n + 1, w => BitVec.ofNat 8 w :: bytesOfNat n (w / 256)

/-- The instruction the decoder reads from the bytes of an instruction whose bits are `w`, numbered as
spec/opcode_table.json numbers them; every bit above `nbits` is 0. -/
def decodeTableWord (nbits w : Nat) : Option Instr :=
  match decodeBytes (bytesOfNat 4 (w % 2 ^ nbits)) with
  | .ok (i, _) => some i
  | .error _ => none

/-- The word of an instruction, as a number; an event has none. -/
def encodeNat : Instr → Option Nat
  | .xNop h => some (hdBits h 0)
  | .xAdd h d a i b => some (hdBits h 0 + 524288 + d.toNat * 8192 + a.toNat * 128 + bitVal i * 64 + b.toNat)
  | .xSub h d a i b => some (hdBits h 0 + 1048576 + d.toNat * 8192 + a.toNat * 128 + bitVal i * 64 + b.toNat)
  | .xMul h d a i b => some (hdBits h 0 + 1572864 + d.toNat * 8192 + a.toNat * 128 + bitVal i * 64 + b.toNat)
  | .xMulh h d a i b => some (hdBits h 0 + 2097152 + d.toNat * 8192 + a.toNat * 128 + bitVal i * 64 + b.toNat)
  | .xDiv h d a i b => some (hdBits h 0 + 2621440 + d.toNat * 8192 + a.toNat * 128 + bitVal i * 64 + b.toNat)
  | .xRem h d a i b => some (hdBits h 0 + 3145728 + d.toNat * 8192 + a.toNat * 128 + bitVal i * 64 + b.toNat)
  | .xAnd h d a i b => some (hdBits h 0 + 3670016 + d.toNat * 8192 + a.toNat * 128 + bitVal i * 64 + b.toNat)
  | .xOr h d a i b => some (hdBits h 0 + 4194304 + d.toNat * 8192 + a.toNat * 128 + bitVal i * 64 + b.toNat)
  | .xXor h d a i b => some (hdBits h 0 + 4718592 + d.toNat * 8192 + a.toNat * 128 + bitVal i * 64 + b.toNat)
  | .xShl h d a i b => some (hdBits h 0 + 5242880 + d.toNat * 8192 + a.toNat * 128 + bitVal i * 64 + b.toNat)
  | .xShr h d a i b => some (hdBits h 0 + 5767168 + d.toNat * 8192 + a.toNat * 128 + bitVal i * 64 + b.toNat)
  | .xSar h d a i b => some (hdBits h 0 + 6291456 + d.toNat * 8192 + a.toNat * 128 + bitVal i * 64 + b.toNat)
  | .xMin h d a i b => some (hdBits h 0 + 6815744 + d.toNat * 8192 + a.toNat * 128 + bitVal i * 64 + b.toNat)
  | .xMax h d a i b => some (hdBits h 0 + 7340032 + d.toNat * 8192 + a.toNat * 128 + bitVal i * 64 + b.toNat)
  | .xClz h d a => some (hdBits h 0 + 7864320 + d.toNat * 8192 + a.toNat * 128)
  | .xPcnt h d a => some (hdBits h 0 + 8388608 + d.toNat * 8192 + a.toNat * 128)
  | .xSext h d a i b => some (hdBits h 0 + 8912896 + d.toNat * 8192 + a.toNat * 128 + bitVal i * 64 + b.toNat)
  | .xCmp h p k a i b => some (hdBits h 0 + 9437184 + p.toNat * 65536 + k.toNat * 8192 + a.toNat * 128 + bitVal i * 64 + b.toNat)
  | .xPand h p n a b m => some (hdBits h 0 + 9961472 + p.toNat * 65536 + bitVal n * 32768 + a.toNat * 1024 + b.toNat * 8 + bitVal m * 4)
  | .xPor h p n a b m => some (hdBits h 0 + 10485760 + p.toNat * 65536 + bitVal n * 32768 + a.toNat * 1024 + b.toNat * 8 + bitVal m * 4)
  | .xPxor h p n a b m => some (hdBits h 0 + 11010048 + p.toNat * 65536 + bitVal n * 32768 + a.toNat * 1024 + b.toNat * 8 + bitVal m * 4)
  | .xFadd h d a b => some (hdBits h 0 + 11534336 + d.toNat * 8192 + a.toNat * 128 + b.toNat)
  | .xFmul h d a b => some (hdBits h 0 + 12058624 + d.toNat * 8192 + a.toNat * 128 + b.toNat)
  | .xFmax h d a b => some (hdBits h 0 + 12582912 + d.toNat * 8192 + a.toNat * 128 + b.toNat)
  | .xFcvt h d a k => some (hdBits h 0 + 13107200 + d.toNat * 8192 + a.toNat * 128 + k.toNat)
  | .xChk h a => some (hdBits h 0 + 13631488 + a.toNat * 128)
  | .lLd h d a s p i => some (hdBits h 1 + d.toNat * 8192 + a.toNat * 128 + s.toNat * 16 + bitVal p * 8 + i.toNat)
  | .lSt h d a s i => some (hdBits h 1 + 524288 + d.toNat * 8192 + a.toNat * 128 + s.toNat * 16 + i.toNat)
  | .lVld h t r a o => some (hdBits h 1 + 1048576 + t.toNat * 131072 + r.toNat * 2048 + a.toNat * 32 + o.toNat * 4)
  | .lVst h t r a o f => some (hdBits h 1 + 1572864 + t.toNat * 131072 + r.toNat * 2048 + a.toNat * 32 + o.toNat * 4 + f.toNat)
  | .lCas h d a b z => some (hdBits h 1 + 2097152 + d.toNat * 8192 + a.toNat * 128 + b.toNat * 2 + bitVal z)
  | .lRadd h t r a o => some (hdBits h 1 + 2621440 + t.toNat * 131072 + r.toNat * 2048 + a.toNat * 32 + o.toNat * 4)
  | .lAlloc h d a b => some (hdBits h 1 + 3145728 + d.toNat * 8192 + a.toNat * 128 + b.toNat * 2)
  | .lFree h a => some (hdBits h 1 + 3670016 + a.toNat * 128)
  | .lRenew h a b => some (hdBits h 1 + 4194304 + a.toNat * 128 + b.toNat * 2)
  | .lCopy h d a b => some (hdBits h 1 + 4718592 + d.toNat * 8192 + a.toNat * 128 + b.toNat * 2)
  | .lGath h d a b => some (hdBits h 1 + 5242880 + d.toNat * 8192 + a.toNat * 128 + b.toNat * 2)
  | .lRld h d a b => some (hdBits h 1 + 5767168 + d.toNat * 8192 + a.toNat * 128 + b.toNat * 2)
  | .lRst h d a b => some (hdBits h 1 + 6291456 + d.toNat * 8192 + a.toNat * 128 + b.toNat * 2)
  | .lRred h d a b => some (hdBits h 1 + 6815744 + d.toNat * 8192 + a.toNat * 128 + b.toNat * 2)
  | .lMcast h d a b => some (hdBits h 1 + 7340032 + d.toNat * 8192 + a.toNat * 128 + b.toNat * 2)
  | .lStash h t a b => some (hdBits h 1 + 7864320 + t.toNat * 131072 + a.toNat * 2048 + b.toNat * 32)
  | .lWin h d a b => some (hdBits h 1 + 8388608 + d.toNat * 8192 + a.toNat * 128 + b.toNat * 2)
  | .lAmoAdd h d a b z => some (hdBits h 1 + 12582912 + d.toNat * 8192 + a.toNat * 128 + b.toNat * 2 + bitVal z)
  | .lAmoAnd h d a b z => some (hdBits h 1 + 13107200 + d.toNat * 8192 + a.toNat * 128 + b.toNat * 2 + bitVal z)
  | .lAmoOr h d a b z => some (hdBits h 1 + 13631488 + d.toNat * 8192 + a.toNat * 128 + b.toNat * 2 + bitVal z)
  | .lAmoXor h d a b z => some (hdBits h 1 + 14155776 + d.toNat * 8192 + a.toNat * 128 + b.toNat * 2 + bitVal z)
  | .lAmoMin h d a b z => some (hdBits h 1 + 14680064 + d.toNat * 8192 + a.toNat * 128 + b.toNat * 2 + bitVal z)
  | .lAmoMax h d a b z => some (hdBits h 1 + 15204352 + d.toNat * 8192 + a.toNat * 128 + b.toNat * 2 + bitVal z)
  | .lAmoSwap h d a b z => some (hdBits h 1 + 15728640 + d.toNat * 8192 + a.toNat * 128 + b.toNat * 2 + bitVal z)
  | .vAdd h t d a b => some (hdBits h 2 + t.toNat * 262144 + d.toNat * 4096 + a.toNat * 64 + b.toNat)
  | .vSub h t d a b => some (hdBits h 2 + 1048576 + t.toNat * 262144 + d.toNat * 4096 + a.toNat * 64 + b.toNat)
  | .vMul h t d a b => some (hdBits h 2 + 2097152 + t.toNat * 262144 + d.toNat * 4096 + a.toNat * 64 + b.toNat)
  | .vFma h t d a b => some (hdBits h 2 + 3145728 + t.toNat * 262144 + d.toNat * 4096 + a.toNat * 64 + b.toNat)
  | .vMax h t d a b => some (hdBits h 2 + 4194304 + t.toNat * 262144 + d.toNat * 4096 + a.toNat * 64 + b.toNat)
  | .vMin h t d a b => some (hdBits h 2 + 5242880 + t.toNat * 262144 + d.toNat * 4096 + a.toNat * 64 + b.toNat)
  | .vNeg h t d a => some (hdBits h 2 + 6291456 + t.toNat * 262144 + d.toNat * 4096 + a.toNat * 64)
  | .vAbs h t d a => some (hdBits h 2 + 7340032 + t.toNat * 262144 + d.toNat * 4096 + a.toNat * 64)
  | .vExp2 h t d a => some (hdBits h 2 + 8388608 + t.toNat * 262144 + d.toNat * 4096 + a.toNat * 64)
  | .vLog2 h t d a => some (hdBits h 2 + 9437184 + t.toNat * 262144 + d.toNat * 4096 + a.toNat * 64)
  | .vRcp h t d a => some (hdBits h 2 + 10485760 + t.toNat * 262144 + d.toNat * 4096 + a.toNat * 64)
  | .vRsqrt h t d a => some (hdBits h 2 + 11534336 + t.toNat * 262144 + d.toNat * 4096 + a.toNat * 64)
  | .vCvt h t d a k => some (hdBits h 2 + 12582912 + t.toNat * 262144 + d.toNat * 4096 + a.toNat * 64 + k.toNat)
  | .vCmpLt h t d a b => some (hdBits h 2 + 13631488 + t.toNat * 262144 + d.toNat * 4096 + a.toNat * 64 + b.toNat)
  | .vCmpLe h t d a b => some (hdBits h 2 + 14680064 + t.toNat * 262144 + d.toNat * 4096 + a.toNat * 64 + b.toNat)
  | .vCmpEq h t d a b => some (hdBits h 2 + 15728640 + t.toNat * 262144 + d.toNat * 4096 + a.toNat * 64 + b.toNat)
  | .vSel h t d a b => some (hdBits h 2 + 16777216 + t.toNat * 262144 + d.toNat * 4096 + a.toNat * 64 + b.toNat)
  | .vRmax h t d a => some (hdBits h 2 + 17825792 + t.toNat * 262144 + d.toNat * 4096 + a.toNat * 64)
  | .vRsum h t d a => some (hdBits h 2 + 18874368 + t.toNat * 262144 + d.toNat * 4096 + a.toNat * 64)
  | .vBcast h t d a => some (hdBits h 2 + 19922944 + t.toNat * 262144 + d.toNat * 4096 + a.toNat * 64)
  | .vGet h t d a b => some (hdBits h 2 + 20971520 + t.toNat * 262144 + d.toNat * 4096 + a.toNat * 64 + b.toNat)
  | .vPut h t d a b => some (hdBits h 2 + 22020096 + t.toNat * 262144 + d.toNat * 4096 + a.toNat * 64 + b.toNat)
  | .vMov h t d a u => some (hdBits h 2 + 23068672 + t.toNat * 262144 + d.toNat * 4096 + a.toNat * 64 + u.toNat)
  | .vPerm h t d a b => some (hdBits h 2 + 24117248 + t.toNat * 262144 + d.toNat * 4096 + a.toNat * 64 + b.toNat)
  | .vAnd h t d a b => some (hdBits h 2 + 25165824 + t.toNat * 262144 + d.toNat * 4096 + a.toNat * 64 + b.toNat)
  | .vOr h t d a b => some (hdBits h 2 + 26214400 + t.toNat * 262144 + d.toNat * 4096 + a.toNat * 64 + b.toNat)
  | .vXor h t d a b => some (hdBits h 2 + 27262976 + t.toNat * 262144 + d.toNat * 4096 + a.toNat * 64 + b.toNat)
  | .mNop h => some (hdBits h 3)
  | .mPrec h t a k => some (hdBits h 3 + 2097152 + t.toNat * 524288 + a.toNat * 8192 + bitVal k * 4096)
  | .mShape h sh a => some (hdBits h 3 + 4194304 + sh.toNat * 262144 + a.toNat * 4096)
  | .mPush h sh a w p r s => some (hdBits h 3 + 6291456 + sh.toNat * 262144 + a.toNat * 4096 + bitVal w * 2048 + p.toNat * 128 + bitVal r * 64 + s.toNat * 16)
  | .mSwap h => some (hdBits h 3 + 8388608)
  | .mFeed h t sh a w x y r => some (hdBits h 3 + 10485760 + t.toNat * 524288 + sh.toNat * 65536 + a.toNat * 1024 + bitVal w * 512 + x.toNat * 32 + y.toNat * 2 + bitVal r)
  | .mDrain h t n e hi => some (hdBits h 3 + 12582912 + t.toNat * 524288 + bitVal n * 262144 + bitVal e * 131072 + bitVal hi * 65536)
  | .mClear h => some (hdBits h 3 + 14680064)
  | .bSafe h => some (hdBits h 4)
  | .bJmp h k => some (hdBits h 4 + 1048576 + k.toNat * 131072)
  | .bCall h k => some (hdBits h 4 + 2097152 + k.toNat * 131072)
  | .bLadder h p q u v k => some (hdBits h 4 + 3145728 + p.toNat * 131072 + q.toNat * 16384 + u.toNat * 2048 + v.toNat * 256 + k.toNat * 32)
  | .bLoop h n b e p => some (hdBits h 4 + 4194304 + n.toNat * 16384 + b.toNat * 256 + e.toNat * 16 + p.toNat)
  | .bTgt h k o => some (hdBits h 4 + 5242880 + k.toNat * 131072 + o.toNat)
  | .bFence h p s x => some (hdBits h 4 + 6291456 + p.toNat * 32768 + s.toNat * 1024 + x.toNat * 128)
  | .bOpen h a b => some (hdBits h 4 + 7340032 + a.toNat * 16384 + b.toNat * 256)
  | .bShut h d a => some (hdBits h 4 + 8388608 + d.toNat * 16384 + a.toNat * 256)
  | .bTwait h e a => some (hdBits h 4 + 9437184 + e.toNat * 262144 + a.toNat * 4096)
  | .bArm h b a => some (hdBits h 4 + 10485760 + b.toNat * 65536 + a.toNat * 1024)
  | .bBwait h b => some (hdBits h 4 + 11534336 + b.toNat * 65536)
  | .bPop h d a n p => some (hdBits h 4 + 12582912 + d.toNat * 16384 + a.toNat * 256 + bitVal n * 128 + p.toNat * 4)
  | .bPush h a b l p => some (hdBits h 4 + 13631488 + a.toNat * 16384 + b.toNat * 256 + bitVal l * 128 + p.toNat * 4)
  | .bLaunch h d a => some (hdBits h 4 + 14680064 + d.toNat * 16384 + a.toNat * 256)
  | .bPost h s k a => some (hdBits h 4 + 15728640 + s.toNat * 65536 + k.toNat * 16384 + a.toNat * 256)
  | .bSusp h k a b j => some (hdBits h 4 + 16777216 + k.toNat * 131072 + a.toNat * 2048 + b.toNat * 32 + j.toNat * 4)
  | .bExit h => some (hdBits h 4 + 17825792)
  | .bTrap h k => some (hdBits h 4 + 18874368 + k.toNat * 4096)
  | .bRdst h d s => some (hdBits h 4 + 19922944 + d.toNat * 16384 + s.toNat * 16)
  | .bWrst h a s => some (hdBits h 4 + 20971520 + a.toNat * 16384 + s.toNat * 16)
  | .bCancel h l => some (hdBits h 4 + 22020096 + l.toNat * 131072)
  | .bBrk h => some (hdBits h 4 + 23068672)
  | .bWait h k a b => some (hdBits h 4 + 24117248 + k.toNat * 131072 + a.toNat * 2048 + b.toNat * 32)
  | .bEret h => some (hdBits h 4 + 25165824)
  | .kImm k => some (3489660928 + k.toNat)
  | _ => none

/-- The 32-bit word of an instruction; an event has none. -/
def encode (i : Instr) : Option W32 := (encodeNat i).map (BitVec.ofNat 32)

end Sys2Proof
end

