-- ==== Sys2Proof/Config.lean ====
section
/-!
DEFINITION. What the spec leaves to the part: free values, applied to the counter `fresh` of the state
(spec/00_scope.md R5), and the results of the trust die's cryptography (spec/01_package.md R16,
spec/19_system.md R280, R281), of which the spec gives no bits. None of them has a body: nothing can be
proved of the value of any of them.
-/

namespace Sys2Proof.Config

/-- UNVERIFIED (log 5). An undefined scalar value (R5, R67, R81). -/
opaque freeWord : Nat → BitVec 64

/-- UNVERIFIED (log 5). An undefined predicate value (R67). -/
opaque freeBit : Nat → Bool

/-- UNVERIFIED (log 5). An undefined branch target (R67). -/
opaque freePacket : Nat → BitVec 32

/-- UNVERIFIED (log 5). The undefined data bytes of a tile row (R25, R67). -/
opaque freeRow : Nat → BitVec 1920

/-- UNVERIFIED (log 5). The undefined exponent bytes of a tile row (R25, R67). -/
opaque freeExps : Nat → BitVec 32

/-- UNVERIFIED (log 53). Content of a pool granule past its retention (spec/08_pool_memory.md R148). -/
opaque freeGran : Nat → BitVec 128

/-- UNVERIFIED (log 5). An index the spec does not fix: the entry a full translation cache gives up (R161). -/
opaque freeIndex : Nat → Nat

/-- UNVERIFIED (log 8). The Falcon-1024 check of a signature over a digest under a key (R16, R118). -/
opaque falconVerify : Nat → Nat → Nat → Bool

/-- UNVERIFIED (log 8). The Falcon-1024 signature of the trust die over a digest (R280). -/
opaque falconSign : Nat → Nat

/-- UNVERIFIED (log 8). The SHAKE256 digest of a string of bytes (R16, R117, R280). -/
opaque shake256 : List (BitVec 8) → Nat

/-- UNVERIFIED (log 8). The body of an SPDM response whose bytes the spec does not give (R280): the
request's number and its operand. -/
opaque spdmBody : Nat → Nat → Nat

/-- UNVERIFIED (log 8). A new memory-encryption key made inside the trust die (R265, R281). -/
opaque freshKey : Nat → Nat

end Sys2Proof.Config
end

