-- ==== Sys2Proof/Machine/SMap.lean ====
section
/-!
DEFINITION. Sparse maps from numbers: a list of (key, value) pairs in one canonical form, the keys rising
strictly and no value equal to the value `d` that an unlisted key reads as. Memory and every numbered set of
registers of the machine is one of these.
-/

namespace Sys2Proof.Machine

/-- A sparse map. -/
abbrev SMap (α : Type) := List (Nat × α)

/-- The value at a key; `d` where the map lists none. -/
def smGet {α : Type} (d : α) : SMap α → Nat → α
  | [], _ => d
  | e :: m, k => if e.1 = k then e.2 else smGet d m k

/-- List a value at a key, in place of any it had. -/
def smIns {α : Type} : SMap α → Nat → α → SMap α
  | [], k, v => [(k, v)]
  | e :: m, k, v =>
    if k < e.1 then (k, v) :: e :: m
    else if e.1 = k then (k, v) :: m
    else e :: smIns m k v

/-- Unlist a key. -/
def smDel {α : Type} (m : SMap α) (k : Nat) : SMap α := m.filter (fun e => e.1 != k)

/-- Write a value at a key; writing `d` unlists it. -/
def smPut {α : Type} [DecidableEq α] (d : α) (m : SMap α) (k : Nat) (v : α) : SMap α :=
  if v = d then smDel m k else smIns m k v

/-- The canonical form. -/
def smWf {α : Type} [DecidableEq α] (d : α) : SMap α → Bool
  | [] => true
  | [e] => e.2 != d
  | e :: f :: m => (e.2 != d) && (Nat.blt e.1 f.1) && smWf d (f :: m)

/-- The values at `n` keys from `lo`. -/
def smDense {α : Type} (d : α) : SMap α → Nat → Nat → List α
  | _, _, 0 => []
  | [], lo, n + 1 => d :: smDense d [] (lo + 1) n
  | e :: m, lo, n + 1 =>
    if e.1 = lo then e.2 :: smDense d m (lo + 1) n else d :: smDense d (e :: m) (lo + 1) n

/-- The map that holds a list of values at the keys from `lo`. -/
def smOfList {α : Type} [DecidableEq α] (d : α) : Nat → List α → SMap α
  | _, [] => []
  | lo, x :: xs => if x = d then smOfList d (lo + 1) xs else (lo, x) :: smOfList d (lo + 1) xs

end Sys2Proof.Machine
end

