-- ==== Sys2Proof/Machine/State.lean ====
section
/-!
DEFINITION. Everything the spec gives the machine, as plain data: one package FX-WB1152. INVENTORY.md, under
State, lists each piece with the rule that names it. `Mach` is the machine itself, `Trust` the trust die.
-/

namespace Sys2Proof.Machine

/-- Who raises it: `step`, when the list of moves names an instruction word as an event; a word runs only when
it is fetched (spec/04_core_model.md R62). SAFE: the part has no such list (log 4). -/
inductive Fault where
  | badSchedule
deriving DecidableEq, Repr

/-- Who raises it: an arm of `exec` that has no meaning yet. SAFE: the model stops. -/
inductive Refusal where
  | notModelled (mnemonic : String)
deriving DecidableEq, Repr

/-! ### Contexts -/

/-- A scalar register (spec/04_core_model.md Table 4-3). -/
structure Scalar where
  val : Word := 0
  pois : Bool := false
  cause : Byte := 0
deriving DecidableEq, Repr, Inhabited

/-- A register of a context that a word writes (spec/05_formats_opcodes.md Table 5-13). -/
inductive Dst where
  | s (n : BitVec 6)
  | p (n : BitVec 3)
  | b (n : BitVec 3)
deriving DecidableEq, Repr

/-- A result in flight (R67, R69): a read before `landAt` is undefined; `dead` when a word issued later writes
the same register. -/
structure Flight where
  dst : Dst
  issued : Nat
  landAt : Nat
  v : Scalar
  dead : Bool
deriving DecidableEq, Repr

/-- A row result in flight (R67, R69; spec/07 R138): row 64 × tile + row, its data bytes, and on an AXB tile its exponent
bytes (spec/22 R342). `ctx` is 16 more once it stands for its own context already (R71). -/
structure RowFlight where
  row : Nat
  ctx : Nat
  issued : Nat
  landAt : Nat
  data : BitVec 1920
  exps : BitVec 32
  axb : Bool
deriving DecidableEq, Repr

/-- A fault that is due at a later bundle of the context (R71, R151, R206, R213). -/
structure Due where
  cause : Byte
  faddr : Word
  finfo : Word
  notBefore : Nat
  /-- the assist record that the fault writes when it is raised (spec/07 R140): bytes and content -/
  assist : Option (Nat × Nat) := none
deriving DecidableEq, Repr

/-- What a scoreboarded word does with what comes back (R70). -/
inductive PendUse where
  /-- registers take values -/
  | regs
  /-- l.ld: `size` bytes from `lo` of the first granule -/
  | load (lo size : Nat)
  /-- l.vld: blocks into row 64 × tile + row -/
  | row (row : Nat)
  /-- l.win and b.wrst to WINBASE: window index (4,096 for WINBASE); is the invalidation sent (R157, R310)? -/
  | win (idx : Nat) (sent : Bool)
deriving DecidableEq, Repr

/-- A scoreboarded result (R70): the word's number in program order, the registers it holds pending, the
granules still to bind and those bound, and its values when they are known. -/
structure Pend where
  tag : Nat
  use : PendUse
  dst : List Dst
  need : Nat
  got : SMap Gran
  vals : List Scalar
  known : Bool
  spec : Bool
  /-- refused: cause and address -/
  bad : Option (Byte × Word)
  va : Word
  finfo : Word
deriving DecidableEq, Repr

/-- Reads that an M word waits for before its bundle completes (spec/09 R167, R169 to R171, R176). -/
structure Fill where
  tag : Nat
  /-- granules asked for, by address -/
  want : List Nat
  got : SMap Gran
  /-- refused: cause and address -/
  bad : Option (Byte × Word)
  /-- all bound: the bundle may issue again -/
  done : Bool
deriving DecidableEq, Repr

/-- How a unit or handler ends (spec/02 R38, R40, spec/17 R244). -/
inductive Ending where
  | ok
  | failed (cause : Byte)
  | cancelled
deriving DecidableEq, Repr

/-- The record that b.susp writes when its wait ends (spec/02 R39). -/
structure Susp where
  resume : Nat
  wkind : Nat
  wobj : Nat
  wval : Word
  frame : Word
  cs1 : Word
deriving DecidableEq, Repr

/-- What holds a Waiting context (R29). -/
inductive Wait where
  | sluice (n : Nat) (ver : Word)
  | timeline (core e : Nat) (n : Nat)
  | barrier (core k : Nat)
  | queue (q : Nat)
  /-- b.exit, b.cancel or a kill: the steps of R38 -/
  | ending
  /-- b.susp (R39) -/
  | susp
  /-- held for the control core or the host (R246) -/
  | held
  /-- waits out a replay (R243) -/
  | replay
deriving DecidableEq, Repr

/-- A request of a collective command (spec/14 R220, R223), kept until it is answered: what was sent, for a
direct reduction its operation and elements, the address value it went to (R226), its offset in the command. -/
structure Req where
  r : RemoteReq
  op : Option Nat := none
  vals : List W32 := []
  va : Word
  pkg : Nat
  off : Nat
  /-- source bytes of each of its blocks (R222) -/
  blkBytes : List Nat := []
  sentAt : Nat
  /-- a replica of a multicast -/
  replica : Bool := false
  /-- an l.rld request, which holds a slot -/
  slot : Bool := false
  /-- reissued (R226) -/
  again : Bool := false
  answered : Bool := false
  cause : Nat := 0
  /-- blocks written, as its acknowledgement says (R207) -/
  wrote : Nat := 0
deriving DecidableEq, Repr

/-- An engine command in its queue (spec/12 R203, R205, R206). -/
structure Cmd where
  num : Nat
  ctx : Nat
  /-- 0 l.copy, 1 l.gath, 2 l.rld, 3 l.rst, 4 l.rred, 5 l.mcast -/
  kind : Nat
  a : Word
  b : Word
  /-- VA of the completion word, if it has one (spec/21 R314) -/
  cw : Option Word
  opt : BitVec 25
  area : Nat
  /-- MIRW and MBASE in force for its unit (spec/19 R266) -/
  mirw : Option Nat := none
  mbase : Nat := 0
  started : Bool := false
  /-- RNF lifetime (R209) and the base of the allocation renewed -/
  life : Nat := 0
  renewed : Bool := false
  /-- copies in decreasing order (R208) -/
  down : Bool := false
  /-- blocks there are, blocks read so far, blocks applied -/
  total : Nat := 0
  next : Nat := 0
  wrote : Nat := 0
  /-- the number of its word in program order (R193) -/
  tag : Nat := 0
  /-- FINFO of its word -/
  finfo : Word := 0
  /-- granules read of the block that is to be written next -/
  buf : SMap Gran := []
  /-- l.rld: the bytes of the response, to be written at the destination (R223) -/
  fetched : Option (List Byte) := none
  /-- the first block of `buf`'s unit that was refused, and the cause: the blocks before it are used first (R207) -/
  cut : Option (Nat × Nat) := none
  /-- parts of block writes not yet applied, by block -/
  parts : SMap Nat := []
  /-- gather: descriptor (32 bytes), list entries read, in order -/
  desc : BitVec 256 := 0
  list : List Nat := []
  /-- first failure: STATUS and CAUSE (R207) -/
  bad : Option (Nat × Nat) := none
  /-- a stop asked for: by a cancel (R40) or by the weir (R251) -/
  stop : Bool := false
  cancel : Bool := false
  /-- collective: requests sent, bytes acknowledged -/
  reqs : List Req := []
  doneBytes : Nat := 0
  /-- direct reduction: elements read and not yet sent, the index of the first, the source bytes of each 15 of them; the
  cause that ends the command after what it has sent (R207) -/
  later : List W32 := []
  laterAt : Nat := 0
  laterBytes : List Nat := []
  laterBad : Option Nat := none
  /-- compressed reduction: the residual blocks still to be written, by group, the number of the next one, and the format of
  the contribution (R232) -/
  resid : List (List (BitVec 512)) := []
  residAt : Nat := 0
  cfmt : Nat := 0
  /-- group contribution: refused, result arrived, mask complete (R230) -/
  gstat : Nat := 0
  gcause : Nat := 0
  closed : Bool := false
  /-- its completion word stands in the queue of a pool's port (spec/11 R187) -/
  cwSent : Bool := false
  /-- it ends short, which its barrier is told when it completes (R212) -/
  short : Bool := false
  ended : Bool := false
deriving DecidableEq, Repr

/-- Who released a parked unit's frame (R248): whose tables and owner its reads go by, its views at the release, and its
virtual function when it is the host. -/
structure Releaser where
  core : Nat
  part : Nat
  owner : Nat
  view : SMap Nat := []
  vf : Option Nat := none
deriving DecidableEq, Repr, Inhabited

/-- A pre-emption under way (R251). -/
structure PreEmpt where
  src : PreSrc
  /-- the context has acknowledged to the weir, at this cycle -/
  stopped : Option Nat
  /-- engine contexts 0 to 3 that have acknowledged -/
  acks : BitVec 4
  /-- the save image is written -/
  saved : Bool
  /-- image slot and record slot of the record area -/
  slot : Option (Nat × Nat) := none
  /-- number of the record to be written -/
  recId : Nat := 0
  /-- WKIND and WOBJ of the record, taken at the stop point -/
  wkind : Nat := 0
  wobj : Nat := 0
  /-- remainders of the stopped commands, with their engine contexts -/
  rest : List (Nat × Cmd) := []
  /-- who released the frame of the held context while the weir waited (R248) -/
  released : Option Releaser := none
deriving DecidableEq, Repr

/-- A held or parked context (R246, R248). -/
structure Hold where
  frame : Word
  cause : Byte
  park : Bool
  /-- forwarded to the control core (else to the host) -/
  cc : Bool
  /-- the frame is still to be written, with this tile: pending loads have yet to land (R70, R79) -/
  owed : Option (Option Nat) := none
  /-- it has a frame (a control core's context has none, log 13) -/
  framed : Bool := true
deriving DecidableEq, Repr

/-- The unit that a context runs (spec/02 R23, R26; spec/03 R59). -/
structure UnitInfo where
  launch : Nat
  u : Nat
  prio : Nat
  pclass : Nat
  owner : Nat
  /-- the partition whose record area takes its records (spec/19 R268) -/
  area : Nat
  lent : Bool
  cost : Nat
  beats : Nat
  /-- cores and numbers under which commands and writes go on that it left when it was suspended or pre-empted (R22) -/
  orphans : List (Nat × Nat) := []
  /-- the settings of its partition when it was placed (spec/19 R266): FWDPKT, MIRW, MBASE -/
  fwdpkt : Word := 0
  mirw : Option Nat := none
  mbase : Nat := 0
deriving DecidableEq, Repr

/-- Context states (spec/02 Table 2-7). -/
inductive CtxState where
  | free | dormant | ready | stalled | waiting
deriving DecidableEq, Repr, Inhabited

/-- One hardware context (Tables 4-3 to 4-5, 7-4, 9-3, 17-2, 19-2). -/
structure Ctx where
  st : CtxState := .free
  /-- CTXID.ARR -/
  arr : Bool := false
  pc : W32 := 0
  /-- word position 0 to 2 of the next bundle's first word -/
  wpos : Nat := 0
  sregs : SMap Scalar := []
  preds : BitVec 8 := 0
  bregs : SMap W32 := []
  unitid : Word := 0
  launchid : Word := 0
  gidx0 : Word := 0
  gidx1 : Word := 0
  gidx2 : Word := 0
  csb : Word := 0
  maxgap : Word := 0
  /-- MAXGAP of the LPB, the limit of b.wrst (R75, R33) -/
  gapLimit : Word := 0
  gapcnt : Word := 0
  lc : Word := 0
  lstart : Word := 0
  lend : Word := 0
  lepi : Word := 0
  lpro : Word := 0
  lsave : Word := 0
  /-- count register of the active loop, and what a forced end left to do (R78) -/
  lreg : BitVec 6 := 0
  lrem : Word := 0
  prec0 : Word := 0
  prec1 : Word := 0
  prec2 : Word := 0
  prec3 : Word := 0
  cause : Word := 0
  epc : Word := 0
  faddr : Word := 0
  finfo : Word := 0
  trapbase : Word := 0
  fmto0 : Word := 0x780050
  fmto1 : Word := 0x780050
  ownerReg : Word := 0
  flight : List Flight := []
  pend : List Pend := []
  due : List Due := []
  wait : Option Wait := none
  ending : Option Ending := none
  susp : Option Susp := none
  pre : Option PreEmpt := none
  /-- a cancel of its node has reached the core (R40) -/
  cancelled : Bool := false
  hold : Option Hold := none
  /-- cycle at which the replay wait ends (R243) -/
  replayAt : Nat := 0
  sliceStart : Nat := 0
  /-- SLICE and HBUDGET in force for it (spec/03 Table 3-6, spec/02 R32, spec/19 R266) -/
  slice : Word := 0x3D090
  hbudget : Word := 4
  /-- R259: engine context and EISS value of a posted slice end -/
  posted : Option (Nat × Nat) := none
  unit : Option UnitInfo := none
  /-- rows written and barriers armed since it started or last resumed (R253, R255) -/
  rowMark : BitVec 256 := 0
  armMark : BitVec 16 := 0
  /-- rows of the core written since it started: the others read undefined (R25) -/
  rowsKnown : BitVec 256 := 0
  /-- the partition whose tables, windows, action table and record area serve it -/
  area : Nat := 0
  /-- last command number issued per engine context, and the timeline map E0, H of R255 -/
  lastCmd : SMap Nat := []
  mapE0 : SMap Nat := []
  mapH : SMap Nat := []
  /-- the frame that started a control-core context: VA, held core, held context (R246) -/
  started : Option (Word × Nat × Nat) := none
  fill : Option Fill := none
  /-- commit step at its start or last resumption (R405) -/
  since : Nat := 0
  /-- cycles the next bundle has spent Stalled (R260) -/
  stallCycles : Nat := 0
  /-- the stalled bundle has yet to try again in this cycle (R28) -/
  retry : Bool := false
  /-- the bundle at the PC issues once without breakpoint match (R257) -/
  skipBp : Bool := false
  /-- the cycle by which the row results in flight at its last trap have landed: no bundle of it issues, and no frame is
  written, before (R71) -/
  landBy : Nat := 0
  /-- the restore of this record's image is under way; the frame to apply after it (R248, R255) -/
  restoring : Option (Nat × Option Word) := none
deriving DecidableEq, Repr, Inhabited

/-! ### The array and the pool of a core -/

/-- An exact scale, m × 2^e in lowest form. -/
structure Dyad where
  m : Int
  e : Int
deriving DecidableEq, Repr, Inhabited

/-- A shape slot (spec/09 R163, R167): the 32 bytes of its record as a number, its cursor. -/
structure Slot where
  empty : Bool := true
  record : BitVec 256 := 0
  cursor : Word := 0
deriving DecidableEq, Repr, Inhabited

/-- A stationary set (Table 9-1). `planes` lists the valid planes; bit k of entry r of a plane is
element k of row or column r. `pos` lists the sparsity positions of each column. -/
structure StatSet where
  planes : SMap (List (BitVec 60)) := []
  sigma : List (Option Dyad) := []
  orient : Bool := false
  sp : BitVec 2 := 0
  pos : List (List Nat) := []
  wb : Nat := 0
  sb : Bool := false
  xb : Nat := 0
deriving DecidableEq, Repr, Inhabited

/-- A partial set (Table 9-1): partials by 60 × lane + column, scale records, undrained mark (R166). -/
structure PartialSet where
  parts : SMap (BitVec 48) := []
  sa : SMap (Option Dyad) := []
  sw : SMap (Option Dyad) := []
  undrained : Bool := false
deriving DecidableEq, Repr, Inhabited

/-- A held operand with its key (R170): base, slot, PREC, REV, and the logical extent or the sparsity code. -/
structure Stage where
  base : Word
  slot : Nat
  prec : Word
  rev : Bool
  ext : Nat
  /-- per row: the integers and the row's scale (R169) -/
  rows : List (List Int × Option Dyad)
  /-- sparsity positions per column (R171) -/
  pos : List (List Nat)
deriving DecidableEq, Repr

/-- The matrix array of a core (R162, R163). -/
structure Arr where
  holder : Option Nat := none
  slots : SMap Slot := []
  active : StatSet := {}
  shadow : StatSet := {}
  sets : SMap PartialSet := []
  aStage : Option Stage := none
  wStage : Option Stage := none
deriving DecidableEq, Repr, Inhabited

/-- An allocation-table entry (spec/08 Table 8-6); `pinned` with its remaining life (spec/17 R253). -/
structure Alloc where
  used : Bool := false
  base : Nat := 0
  nblk : Nat := 0
  sw : Nat := 0
  life : Nat := 0
  exp : Nat := 0
  ctx : Nat := 0
  freeing : Bool := false
  pinned : Option Nat := none
  /-- the record that holds the pin -/
  pinRec : Nat := 0
deriving DecidableEq, Repr, Inhabited

/-- A start notice (spec/12 Table 12-8). -/
structure Notice where
  haddr : Word
  paddr : Word
  len : Nat
  src : Nat
  /-- granules of the payload with their positions (spec/11 R201) -/
  payload : List (Nat × Nat)
  /-- the fields of a forwarded trap (R246, R258): s1, s2, s3, held core and context -/
  fwd : Option (Word × Word × Word × Option (Nat × Nat))
deriving DecidableEq, Repr

/-! ### The ordering machine -/

/-- What an action does (spec/11 Table 11-1). -/
inductive ActKind where
  | ld
  /-- a later block of an l.vld, whose place in program order it keeps until the format is known (R185, spec/21
  R330) -/
  | more
  | st
  /-- compare and swap: byte offset, size, expected, new -/
  | cas (lo size : Nat) (old new : Gran)
  /-- l.amo: kind, byte offset, size, operand -/
  | amo (op lo size : Nat) (x : Word)
  /-- one block of l.radd: 15 FP32 lanes -/
  | radd (lanes : BitVec 480)
  | fence (pred succ : BitVec 5) (scope : Nat)
  | shut (sluice : Nat)
  /-- an open, a timeline wait or a barrier wait that has ended (R185) -/
  | sync
  /-- an engine command (R192) -/
  | cmd (e : Nat) (a b : Word) (cw : Option Word) (opt : BitVec 25) (kind : Nat)
  | alloc (n sw life : Nat)
  | free (base : Nat)
  | renew (base life exp : Nat)
  /-- b.launch, b.post: the hive acts after the earlier writes (spec/03 R49) -/
  | launch (lpb : Word)
  | post (slot kind : Nat) (v : Word)
deriving DecidableEq, Repr, Inhabited

/-- An action in program order: its word's number, its part, the granule with the bytes it takes. -/
structure Act where
  tag : Nat
  part : Nat := 0
  kind : ActKind
  gran : Nat := 0
  mask : BitVec 16 := 0
  data : Gran := 0
  va : Word := 0
  finfo : Word := 0
  /-- number of the engine command and block it belongs to -/
  cmd : Nat := 0
  blk : Nat := 0
  /-- partition whose settings govern it, and mirror it if MIR is set (spec/14 R234) -/
  area : Nat := 0
  mir : Bool := false
  /-- MIRW and MBASE in force for its unit -/
  mirw : Option Nat := none
  mbase : Nat := 0
  /-- speculative (R81) -/
  spec : Bool := false
  /-- commit steps of a fence or shut: number of arr notices to wait for, and so on -/
  aux : Nat := 0
deriving DecidableEq, Repr, Inhabited

/-- An agent (Table 11-2). -/
structure Agent where
  iq : List Act := []
  pend : List Act := []
  view : SMap Nat := []
  seen : Nat := 0
  /-- position of the agent's last committed write to each granule (spec/03 R49) -/
  own : SMap Nat := []
deriving DecidableEq, Repr, Inhabited

/-- A committed write in the history of a granule (R184): its step, its bytes, the content before it. -/
structure Hist where
  step : Nat
  /-- tick of the write (spec/08 R148) -/
  tick : Nat
  mask : BitVec 16
  before : Gran
deriving DecidableEq, Repr

/-- A sluice (R195, R196). -/
structure Sluice where
  declared : Bool := false
  version : Word := 0
  recd : SMap Nat := []
deriving DecidableEq, Repr, Inhabited

/-- A region of the binding table (R195). -/
structure Region where
  base : Nat
  size : Nat
  sluice : Nat
deriving DecidableEq, Repr

/-! ### Engines -/

/-- A write of an engine command in history (spec/11 R198). -/
structure EngWrite where
  e : Nat
  num : Nat
  gran : Nat
  pos : Nat
deriving DecidableEq, Repr

/-- An arrival write counted against a barrier (spec/11 R199). -/
structure BarWrite where
  bar : Nat
  gran : Nat
  pos : Nat
deriving DecidableEq, Repr

/-- A cached translation, or the fault a walk found and no one has met yet (spec/08 R158 to R161): the
partition, page number or window index, the page-table entry or the 32 bytes of the window. -/
structure Tr where
  part : Nat
  win : Bool
  page : Nat
  ok : Bool
  raw : Nat
  level : Nat
  /-- FINFO[15:8] of the fault -/
  code : Nat
  /-- the walk has met an entry with V = 0 (translation-miss) -/
  miss : Bool
  /-- the walk has met an uncorrectable granule (spec/19 R278, R282) -/
  chk : Bool := false
deriving DecidableEq, Repr

/-- A miss that waits for a walk (R161). -/
structure Miss where
  part : Nat
  win : Bool
  page : Nat
deriving DecidableEq, Repr

/-- The scan of a core (spec/19 R274). -/
structure Scan where
  draining : Bool := false
  began : Nat := 0
  /-- number of the model's step in which it began (R275) -/
  beganStep : Nat := 0
  due : Bool := false
  /-- tick at which the last passed pass began -/
  lastBegan : Nat := 0
deriving DecidableEq, Repr, Inhabited

/-- What the LPB that set HCTX gives to arrival contexts (R28, R33). -/
structure HSet where
  maxgap : Word
  prec0 : Word
  prec1 : Word
  prec2 : Word
  prec3 : Word
  owner : Nat
deriving DecidableEq, Repr

/-- One core: 0 to 1,151 compute cores, 1,152 + c the control core of cluster c. -/
structure Core where
  partw : Word := 0
  ctxs : SMap Ctx := []
  hctx : Nat := 0
  /-- the LPB that set HCTX: MAXGAP, PREC0 to PREC3, CSB, partition (R28, R33) -/
  hset : Option HSet := none
  rrUnit : Nat := 0
  rrArr : Nat := 0
  arrRun : Nat := 0
  /-- the cycle in which a bundle last issued, plus one -/
  turn : Nat := 0
  tiles : SMap (BitVec 1920) := []
  exps : SMap (BitVec 32) := []
  rowFlight : List RowFlight := []
  arr : Arr := {}
  alloc : SMap Alloc := []
  /-- R148: tick at which the pool was last zeroed, and renewals: pool offset, bytes, tick, oldest first -/
  zeroTick : Nat := 0
  renews : List (Nat × Nat × Nat) := []
  bars : SMap (BitVec 40) := []
  barWrites : List BarWrite := []
  /-- R212, R286: the cycle, plus one, in which a count last came to zero -/
  barZeroAt : SMap Nat := []
  etl : SMap Nat := []
  eiss : SMap Nat := []
  cmds : SMap (List Cmd) := []
  engWrites : List EngWrite := []
  reqSeq : Nat := 0
  rqDest : Nat := 0
  /-- request slots taken, by destination package (R220) -/
  rqUsed : SMap Nat := []
  notices : List Notice := []
  spilled : List Notice := []
  /-- R214: notices ever spilled, the place of the next in the ring -/
  spillSeq : Nat := 0
  /-- R201: payloads of notices that have entered the queue -/
  arrived : List (Nat × Nat) := []
  port : List (Nat × Act) := []
  /-- writes to MIR pages that the collective engine has yet to send (R234): the context and the write -/
  mirrors : List (Nat × Act) := []
  /-- mirrors sent: request number, context, the write, was it reissued -/
  mirrorsOut : List (Nat × Nat × Act × Bool) := []
  /-- R276: the core is to retire at its next drain; banks that are -/
  retireDue : Bool := false
  banksDue : List Nat := []
  tc : List Tr := []
  stepMask : BitVec 16 := 0
  freeze : Bool := false
  zeroUntil : Option Nat := none
  scan : Scan := {}
  scanTick : Nat := 0
  scanPasses : Nat := 0
  /-- ticks of corrected errors of the core and of each bank (R276) -/
  errs : List Nat := []
  bankErrs : SMap (List Nat) := []
  spareBanks : Nat := 0
  rillTick : Nat := 0
  pinTick : Nat := 0
deriving DecidableEq, Repr, Inhabited

/-- A cluster: its shared translations and its miss queue (R161). -/
structure Cluster where
  tlb : List Tr := []
  miss : List Miss := []
  /-- next core to scan, tick the last pass started (R274) -/
  scanNext : Nat := 0
  scanStart : Option Nat := none
deriving DecidableEq, Repr, Inhabited

/-! ### The hive -/

/-- STATE of a completion record (spec/02 Table 2-2). -/
inductive NodeSt where
  | pending | running | done | cancelled | failed
deriving DecidableEq, Repr, Inhabited

/-- A launch parameter block (spec/02 Table 2-6). -/
structure Lpb where
  csb : Word := 0
  entry : W32 := 0
  maxgap : W32 := 0
  dim0 : Nat := 0
  dim1 : Nat := 0
  dim2 : Nat := 0
  trav : Nat := 0
  swz : Nat := 0
  partw : BitVec 16 := 0
  cmask : Word := 0
  prec0 : W32 := 0
  prec1 : W32 := 0
  prec2 : W32 := 0
  prec3 : W32 := 0
  beats : Nat := 0
  crec : Word := 0
  argp : Word := 0
  qid : Nat := 0
  prio : Nat := 0
  pclass : Nat := 0
  gang : Bool := false
  hctx : Nat := 0
deriving DecidableEq, Repr, Inhabited

/-- A job descriptor in force (spec/03 Table 3-4). -/
structure JobInfo where
  jrec : Word
  phrec : Word
  res : Word
  ng : Nat
  maxph : Nat
  gtab : Word
  phases : Nat
  /-- the phase in force -/
  cur : Option Nat := none
deriving DecidableEq, Repr

/-- A graph instance in force (Table 3-4): its node table, and per node whether it was considered and skipped. -/
structure GraphInfo where
  ntab : Word
  nn : Nat
  considered : BitVec 32
  skipped : BitVec 32
  /-- node number to the launch it became -/
  nodes : SMap Nat
deriving DecidableEq, Repr

/-- Where a unit of a launch ran: core, and the number of the model's step in which the last one there ended
(spec/19 R275). -/
structure RanOn where
  core : Nat
  step : Nat
  cleared : Bool
deriving DecidableEq, Repr

/-- A unit whose record was discarded and that counts as ended once what it left behind is done (R22, R40): cores and
numbers of its commands and writes, and how it ended. -/
structure Owed where
  orphans : List (Nat × Nat)
  failed : Bool
  cause : Byte
deriving DecidableEq, Repr

/-- A node of the work tree above the unit level (spec/02 R19 to R21). -/
structure Node where
  live : Bool := false
  level : Nat := 0
  parent : Option Nat := none
  owner : Nat := 0
  recVa : Word := 0
  ended : Nat := 0
  total : Nat := 0
  st : NodeSt := .pending
  final : Bool := false
  tainted : Bool := false
  cause : Byte := 0
  cancelled : Bool := false
  childFailed : Bool := false
  lpb : Lpb := {}
  /-- next unit to place (R27, R55); may its units be placed (R233)? -/
  nextU : Nat := 0
  placeable : Bool := true
  /-- the core whose b.launch submitted it (spec/17 R257) -/
  byCore : Option Nat := none
  gang : Option Nat := none
  ran : List RanOn := []
  owed : List Owed := []
  /-- positions past which the views of its units start (R49, R45) -/
  views : SMap Nat := []
  /-- a record of it failed R24: its terminal STATE is FAILED -/
  badRecord : Bool := false
  job : Option JobInfo := none
  graph : Option GraphInfo := none
deriving DecidableEq, Repr, Inhabited

/-- A hardware queue (spec/03 R47): owner, kind, depth; LPB launches (node numbers) or words. -/
structure Queue where
  declared : Bool := false
  owner : Nat := 0
  work : Bool := false
  depth : Nat := 0
  entries : List Word := []
  closed : Bool := false
  /-- contexts of blocking pops, in the order in which they began to wait: core, context -/
  waiters : List (Nat × Nat) := []
deriving DecidableEq, Repr, Inhabited

/-- A continuation record the hive knows of (spec/02 R23, Table 2-4; spec/17 R251, R255). -/
structure Record where
  id : Nat
  va : Word
  part : Nat
  launch : Nat
  /-- tick order in which it became ready; none while it waits -/
  ready : Option Nat
  home : Nat
  homeCtx : Nat
  portable : Bool
  withheld : Bool
  slot : Nat
  image : Option Nat
  /-- frame to apply when a parked record resumes, and who released it (R248) -/
  frame : Option Word
  rel : Option Releaser := none
  unit : UnitInfo
  wkind : Nat := 0
  wobj : Nat := 0
  wval : Word := 0
  /-- an image that has lost its pins resumes on a core of this index (R256) -/
  kcore : Option Nat := none
  /-- its 64 bytes as the hive wrote them: a record changed by another writer fails its check (spec/19 R268) -/
  bytes : Nat
deriving DecidableEq, Repr

/-- What a save image holds (spec/17 R253). Its bytes in the record area are not laid out by the spec; the
model keeps the image itself. -/
structure Image where
  ctx : Ctx
  rows : SMap (BitVec 1920 × BitVec 32)
  arr : Option Arr := none
  rest : List (Nat × Cmd) := []
  /-- allocations that have lost their pins (R256) -/
  allocs : List Alloc := []
  /-- number under which its commands that are not stopped go on, and its allocations being freed (R252) -/
  orphan : Nat := 0
  /-- who released the frame that its restore applies (R248) -/
  rel : Option Releaser := none
deriving DecidableEq, Repr

/-- A tracepoint record (spec/18 R260): core, context, packet, cycles Stalled, and the state of the core, its contexts'
registers among it, of which a tracepoint names any part; EISS3, ETL3 and RQSLOT.FREE as a read gives them; and the state
registers that stand outside the core: NOWT, TRET, WINBASE, HARVMAP. -/
structure Trace where
  core : Nat
  ctx : Nat
  pkt : Nat
  stalled : Nat
  eiss3 : Nat
  etl3 : Nat
  free : Nat
  nowt : Word
  tret : Word
  winbase : Word
  harvmap : Word
  state : Core
deriving DecidableEq, Repr

/-- An owner (spec/03 R54, R60; spec/19 Table 19-1). -/
structure Owner where
  weight : Nat := 0
  cls : Nat := 0
  deficit : Nat := 0
  cycles : Nat := 0
  beats : Nat := 0
  lentIn : Nat := 0
  lentOut : Nat := 0
deriving DecidableEq, Repr, Inhabited

/-- A partition (spec/19 Table 19-1; spec/17 R242; spec/06 R115, R118). -/
structure Part where
  owner : Option Nat := none
  root : Nat := 0
  winbase : Word := 0
  slice : Nat := 250000
  hbudget : Nat := 4
  recallTmo : Nat := 1000
  gangto : Nat := 15625
  gangset : Word := 0
  gangcnt : Nat := 0
  mirw : Option Nat := none
  mbase : Nat := 0
  sigreq : Bool := false
  fwdpkt : Word := 0
  recarea : Option Word := none
  imgcnt : Nat := 288
  reccnt : Nat := 65536
  imgUsed : List Nat := []
  recUsed : List Nat := []
  /-- entries written by system software; an unlisted cause has its default entry (R240) -/
  actions : SMap (Option W32) := []
  lendto : BitVec 256 := 0
  lent : Bool := false
  /-- cycle of the recall under way -/
  recallAt : Option Nat := none
  sluices : SMap Sluice := []
  regions : List Region := []
  /-- hardware queues that images placed in the partition declare (spec/06 R115) -/
  queues : List Nat := []
  /-- handler packets: VA of the packet and CSB of its code section -/
  handlers : List (Word × Word) := []
  catching : Bool := false
  /-- tracepoint records (R260), and those dropped -/
  traces : List Trace := []
  tracesLost : Nat := 0
deriving DecidableEq, Repr, Inhabited

/-! ### Host interface, fabric -/

/-- A submission ring (spec/19 Table 19-3). -/
structure Ring where
  base : Word := 0
  size : Nat := 0
  tail : Nat := 0
  head : Nat := 0
deriving DecidableEq, Repr, Inhabited

/-- A virtual function's registers (Table 19-3). -/
structure Vf where
  owner : Option Nat := none
  rings : SMap Ring := []
  eqbase : Word := 0
  eqsize : Nat := 0
  eqhead : Nat := 0
  eqtail : Nat := 0
  eqlost : W32 := 0
  /-- events that a MOVING page of the ring holds back (spec/08 R160), in order -/
  evDue : List Nat := []
  bp : SMap Word := []
  dctl : W32 := 0
  dpost : Word := 0
  dcatch : Word := 0
  /-- last frame address written into RELEASE -/
  release : Word := 0
deriving DecidableEq, Repr, Inhabited

/-- One of the 8 HDM ranges (spec/19 R269). -/
structure Hdm where
  base : Nat := 0
  size : Nat := 0
  owner : Nat := 0
deriving DecidableEq, Repr, Inhabited

/-- What this package sends to another (spec/14 R219), to the host, or to its own combine units. -/
inductive Msg where
  | load (dst : Nat) (r : RemoteReq)
  | store (dst : Nat) (r : RemoteReq)
  | direct (dst : Nat) (r : RemoteReq) (op : Nat) (vals : List W32)
  | contrib (dst : Nat) (x : Contribution)
  | replica (dst : Nat) (r : RemoteReq)
  | loadResp (dst core id cause : Nat) (data : List Byte)
  | ack (dst core id cause wrote : Nat)
  | moved (dst core id : Nat)
  | arm (dst gang : Nat) (lpb : List Byte)
  | armed (dst gang : Nat)
  | refuse (dst gang : Nat)
  | commit (dst gang : Nat)
  | committed (dst gang : Nat)
  /-- to a member, or to the coordinator, of a gang: its coordinator and its number there -/
  | cancelGang (dst coordinator gang : Nat)
  /-- a hive reports a rank excluded (R229): key of the group, rank -/
  | exclude (dst group rank : Nat)
  /-- result of a closed round for one contributor -/
  | result (dst core group : Nat) (r : RoundResult)
  /-- CXL response of the host port: data, or unsupported request, or poison -/
  | host (ok poison : Bool) (data : Gran)
  /-- a flit sent again, and a request for one -/
  | flit (port seq : Nat)
  | askReplay (port seq : Nat)
deriving DecidableEq, Repr

/-- A link (spec/14 R218): the next number expected, the flits whose replay was asked for and the replays that have failed
in a row; at the sender, the replay buffer's flits that are known to be in it, those sent again, and the failures in a row;
down. The bytes of flits are not modelled: what they carry arrives as the requests and responses. -/
structure Link where
  rxSeq : Nat := 0
  asked : List Nat := []
  rxFails : Nat := 0
  buffer : List Nat := []
  resent : List Nat := []
  txFails : Nat := 0
  down : Bool := false
  /-- it is to retire (spec/19 R276) -/
  retireDue : Bool := false
  /-- ticks of replays -/
  replays : List Nat := []
deriving DecidableEq, Repr, Inhabited

/-- A reduction round at its root (spec/14 R228, R229). -/
structure Round where
  isOpen : Bool := false
  round : Nat := 0
  entry : BitVec 512 := 0
  /-- R228: writes to the entry when its ranks' counts began -/
  entPos : Nat := 0
  began : Nat := 0
  got : SMap (Option Contribution) := []
  order : List Nat := []
  excl : BitVec 64 := 0
  cmp : Bool := false
  fmt : Nat := 0
deriving DecidableEq, Repr, Inhabited

/-- What the root keeps of a group's last closed round (spec/15 R235). -/
structure Closed where
  round : Nat := 0
  status : Nat := 0
  mask : BitVec 64 := 0
  order : List Nat := []
deriving DecidableEq, Repr, Inhabited

/-- An entry of the runtime's fill table (spec/19 R279): the tensor range, the method, 0 mirror or 1 parity, the source
package; whether the other method has been tried, and whether it is filled. -/
structure SpareFill where
  base : Nat
  size : Nat
  method : Nat
  src : Nat
  tried : Bool := false
  filled : Bool := false
deriving DecidableEq, Repr

/-- A gang launch at its coordinator or at a member (R233). -/
structure Gang where
  live : Bool := false
  coordinator : Bool := false
  src : Nat := 0
  launch : Nat := 0
  members : List Nat := []
  armed : List Nat := []
  committed : List Nat := []
  sentCommit : Bool := false
  since : Nat := 0
  limit : Nat := 0
  /-- a member is down: held until its spare is filled (spec/19 R279), from these entries -/
  hold : Option Nat := none
  fills : List SpareFill := []
  /-- further members that went down while it was held -/
  alsoDown : List Nat := []
deriving DecidableEq, Repr, Inhabited

/-- An invalidation under way (spec/08 R161): what it names, who has acknowledged. -/
structure Inval where
  part : Nat
  win : Bool
  page : Nat
  all : Bool
  acks : BitVec 5
deriving DecidableEq, Repr

/-- A remote request, a replica or a result that is being applied (R190, R200, R223, R231): the message, the agent whose
views and writes it has, the block that is under way, its parts not yet applied, the bytes read by granule, the
granules written with their positions, and the first refusal. -/
structure Landing where
  id : Nat
  msg : Msg
  agent : Nat
  blk : Nat := 0
  left : Nat := 0
  bytes : SMap Gran := []
  grans : List (Nat × Nat) := []
  cause : Nat := 0
deriving DecidableEq, Repr

/-- A completion record, or a spilled start notice, that the hive has yet to write, its page being MOVING (R160): for whom,
where, how many bytes, the bytes. -/
structure RecWrite where
  core : Nat
  part : Nat
  owner : Nat
  va : Word
  n : Nat
  x : Nat
deriving DecidableEq, Repr

/-- A page migration under way (R160, R226): partition, page, old and new frame, and how far it is. -/
structure Migration where
  part : Nat
  va : Nat
  pte : Nat
  oldPa : Nat
  newPa : Nat
  size : Nat
  stage : Nat
  /-- windows rewritten -/
  windows : List Nat := []
  /-- remote writes refused at the frozen frame, whose MOVED NACKs are due: source, core, number (R226) -/
  nacks : List (Nat × Nat × Nat)
deriving DecidableEq, Repr

/-! ### The machine -/

/-- Package phases (spec/01 R16, spec/19 R283). -/
inductive Phase where
  | inReset | failed | running
deriving DecidableEq, Repr, Inhabited

/-- The issue frame: the bundle being issued (log 6). The model's own. -/
structure Iss where
  core : Nat := 0
  ctx : Nat := 0
  /-- the context as it stood when the bundle issued (R64) -/
  snap : Ctx := {}
  /-- bodies of the K words before the word (R87) -/
  ks : List (BitVec 25) := []
  /-- packet and position of the word, of the bundle's first word, and of the bundle after -/
  pkt : Nat := 0
  pos : Nat := 0
  /-- place of the word in its bundle, 0 to 7 -/
  idx : Nat := 0
  /-- the number that the bundle's first action takes: lower ones are earlier bundles' -/
  tag0 : Nat := 0
  /-- the engine context to which the bundle has issued a command -/
  issuedTo : Option Nat := none
  pkt0 : Nat := 0
  pos0 : Nat := 0
  nextPkt : Nat := 0
  nextPos : Nat := 0
  /-- the packet after the one that holds the last word: N of R75, q of R76 -/
  afterPkt : Nat := 0
  trapped : Bool := false
  held : Bool := false
  taken : Bool := false
  /-- the bundle has returned from trap mode: its loop registers stay (R249) -/
  eret : Bool := false
  /-- the frame that the bundle's b.eret releases when it completes (R291): VA, held core, held context -/
  rel : Option (Word × Nat × Nat) := none
  /-- the array as it stood when the bundle issued (R64) -/
  arr : Arr := {}
  safe : Bool := false
  looped : Bool := false
  ended : Bool := false
  /-- traps to take after completion, in the order of R239: cause and FINFO -/
  post : List (Byte × Word) := []
  /-- the M word's drained rows that a V word of the bundle reads after it (R138) -/
  drained : List RowFlight := []
deriving DecidableEq, Repr, Inhabited

/-- A move of an agent: an event of the table, the issue of a core's next bundle, a cycle of the clock, or the
host's loader placing an image in a partition (spec/06 R118), each section at frames from an address. -/
inductive Move where
  | event (i : Instr)
  | issue (core : Nat)
  | clock
  | load (part : Nat) (frames : List Nat) (file : List Byte)
deriving DecidableEq, Repr

/-- The machine. -/
structure Mach where
  phase : Phase := .inReset
  cycle : Nat := 0
  /-- NOWT, and cycles of the core clock since its last tick (spec/00 R2) -/
  nowt : Nat := 0
  sub : Nat := 0
  throttled : Bool := false
  step : Nat := 0
  /-- memory: the newest content of every byte (R184), by physical address -/
  mem : List Host.Cell := []
  hist : SMap (List Hist) := []
  agents : SMap Agent := []
  adders : SMap (List (Nat × Act)) := []
  poisoned : List Nat := []
  /-- memory-encryption keys (spec/19 R281): the generation of each partition's key, as delivered to the memory
  controllers, and the key under which the content of a granule of HBM was last written through a page -/
  memGen : SMap Nat := []
  keyed : SMap Nat := []
  erased : Bool := false
  scrubPos : Nat := 0
  cores : SMap Core := []
  clusters : SMap Cluster := []
  invals : List Inval := []
  migration : Option Migration := none
  queues : SMap Queue := []
  nodes : SMap Node := []
  nodeSeq : Nat := 1
  owners : SMap Owner := []
  parts : SMap Part := []
  records : List Record := []
  recSeq : Nat := 0
  images : SMap (Option Image) := []
  wdrr : Nat := 0
  noPlace : Bool := false
  vfs : SMap Vf := []
  hdms : SMap Hdm := []
  /-- reports to PF0 through the management mailbox: KIND and ID -/
  mailbox : List (Nat × Nat) := []
  number : Nat := 0
  links : SMap Link := []
  out : List Msg := []
  landings : List Landing := []
  rounds : SMap Round := []
  /-- contributions of a rank so far: by 64 × key of the round + rank -/
  counts : SMap Nat := []
  /-- ranks excluded from a round that has not opened: by 2^32 × key + round -/
  exclNext : SMap (BitVec 64) := []
  closedRounds : SMap Closed := []
  gangs : SMap Gang := []
  gangSeq : Nat := 1
  downPkgs : List Nat := []
  /-- the runtime's fill table (spec/19 R279) -/
  fillTable : List SpareFill := []
  /-- units that ended FAILED or CANCELLED away from their cores, whose ranks are to be excluded: partition, home core
  (spec/14 R229) -/
  exclDue : List (Nat × Nat) := []
  /-- writes of completion records and spilled notices held by a MOVING page (spec/08 R160), in order -/
  recDue : List RecWrite := []
  /-- remainders of cancelled commands that have yet to end CANCELLED (spec/02 R40, spec/17 R256): core, engine context, and
  the command, under the number of its context or of what its unit left behind -/
  restDue : List (Nat × Nat × Cmd) := []
  /-- what the trust die's store says of the cores (spec/01 R17): retention, retired cores and ports -/
  tret : SMap Nat := []
  /-- trims of the dies, loaded as each was checked (R16) -/
  trims : SMap (List Byte) := []
  retired : SMap Bool := []
  portsDown : SMap Bool := []
  tag : Nat := 1
  fresh : Nat := 0
  iss : Iss := {}
  sched : List Move := []
deriving DecidableEq, Repr, Inhabited

/-! ### The trust die -/

/-- Usage counters of an owner (spec/19 R273). -/
structure Usage where
  cycles : Nat := 0
  beats : Nat := 0
  lentIn : Nat := 0
  lentOut : Nat := 0
deriving DecidableEq, Repr, Inhabited

/-- An image-verification key (spec/19 R281). -/
structure ImageKey where
  id : Word
  key : Nat
deriving DecidableEq, Repr

/-- The trust die (spec/01 R16, spec/19 R273, R276 to R282). -/
structure Trust where
  /-- the switch die and compute dies 0 to 3 whose measurement and signature held at the last package reset (R16) -/
  dieOk : BitVec 5 := 0
  /-- the key of the firmware signatures; of the switch die and compute dies 0 to 3 the measurement that the store expects
  and the signature (R16) -/
  makerKey : Nat := 0
  expected : SMap Nat := []
  signatures : SMap Nat := []
  /-- firmware images and trims of the switch die and compute dies 0 to 3, and the boot ROM's bytes (R16, R280) -/
  firmware : SMap (List Byte) := []
  trims : SMap (List Byte) := []
  bootRom : List Byte := []
  /-- optical ports that fail to train (R283) -/
  portFails : BitVec 64 := 0
  released : Bool := false
  imageKeys : SMap (Option ImageKey) := []
  /-- memory-encryption keys of the partitions, each by the number of its generation (R265, R281) -/
  memKeys : SMap Nat := []
  keySeq : Nat := 0
  usage : SMap Usage := []
  alarm : Option AlarmCause := none
  life : SMap (Option W32) := []
  wearSent : SMap Bool := []
  /-- retirements written to the store (R276) -/
  retirements : List ErrSite := []
  /-- SPDM: how far the connection is, whether a session stands, responses given -/
  spdm : Nat := 0
  session : Bool := false
  responses : List (Nat × List Nat) := []
  /-- dies that failed their check (R16) -/
  reports : List Nat := []
deriving DecidableEq, Repr, Inhabited

/-- The state of the package. -/
structure State where
  m : Mach := {}
  trust : Trust := {}
deriving DecidableEq, Repr, Inhabited

/-- The package right after reset: only the trust die runs (spec/01 R16); every field holds the value that
INVENTORY.md names for it, of the spec or of log entries 1 to 6. -/
def State.reset : State := {}

end Sys2Proof.Machine
end

