-- ==== Sys2Proof/Machine/Mem.lean ====
section
/-!
DEFINITION. Physical memory, its granules and their histories (spec/01_package.md R9 to R13,
spec/11_ordering_machine.md R184 to R189), and access to the parts of the machine by their numbers.
-/

namespace Sys2Proof.Machine

/-! ### Parts of the machine by number -/

def getCore (m : Mach) (c : Nat) : Core := smGet {} m.cores c
def setCore (m : Mach) (c : Nat) (x : Core) : Mach := { m with cores := smPut {} m.cores c x }
def modCore (m : Mach) (c : Nat) (f : Core → Core) : Mach := setCore m c (f (getCore m c))
def getCtx (m : Mach) (c i : Nat) : Ctx := smGet {} (getCore m c).ctxs i
def setCtxOf (k : Core) (i : Nat) (x : Ctx) : Core := { k with ctxs := smPut {} k.ctxs i x }
def setCtx (m : Mach) (c i : Nat) (x : Ctx) : Mach := modCore m c (fun k => setCtxOf k i x)
def modCtx (m : Mach) (c i : Nat) (f : Ctx → Ctx) : Mach := setCtx m c i (f (getCtx m c i))
def getCluster (m : Mach) (c : Nat) : Cluster := smGet {} m.clusters c
def setCluster (m : Mach) (c : Nat) (x : Cluster) : Mach := { m with clusters := smPut {} m.clusters c x }
def getPart (m : Mach) (p : Nat) : Part := smGet {} m.parts p
def setPart (m : Mach) (p : Nat) (x : Part) : Mach := { m with parts := smPut {} m.parts p x }
def modPart (m : Mach) (p : Nat) (f : Part → Part) : Mach := setPart m p (f (getPart m p))
def getOwner (m : Mach) (o : Nat) : Owner := smGet {} m.owners o
def setOwnerOf (m : Mach) (o : Nat) (x : Owner) : Mach := { m with owners := smPut {} m.owners o x }
def getNode (m : Mach) (n : Nat) : Node := smGet {} m.nodes n
def setNode (m : Mach) (n : Nat) (x : Node) : Mach := { m with nodes := smPut {} m.nodes n x }
def modNode (m : Mach) (n : Nat) (f : Node → Node) : Mach := setNode m n (f (getNode m n))
def getQueue (m : Mach) (q : Nat) : Queue := smGet {} m.queues q
def setQueue (m : Mach) (q : Nat) (x : Queue) : Mach := { m with queues := smPut {} m.queues q x }
def getVf (m : Mach) (v : Nat) : Vf := smGet {} m.vfs v
def setVf (m : Mach) (v : Nat) (x : Vf) : Mach := { m with vfs := smPut {} m.vfs v x }
def getAgent (m : Mach) (a : Nat) : Agent := smGet {} m.agents a
def setAgent (m : Mach) (a : Nat) (x : Agent) : Mach := { m with agents := smPut {} m.agents a x }
def modAgent (m : Mach) (a : Nat) (f : Agent → Agent) : Mach := setAgent m a (f (getAgent m a))

/-! ### Numbers (spec/01_package.md R10)

Core 18 · c + k is compute core k of cluster c; core 1,152 + c is the control core of cluster c. -/

def isControl (c : Nat) : Bool := 1152 ≤ c
def clusterOf (c : Nat) : Nat := if 1152 ≤ c then c - 1152 else c / 18
def dieOf (c : Nat) : Nat := clusterOf c / 16
/-- Core k within its cluster. -/
def kOf (c : Nat) : Nat := c % 18
/-- The compute cores of a cluster and its control core: the cores of partition p (spec/19 R264). -/
def partCores (p : Nat) : List Nat := (List.range 18).map (18 * p + ·) ++ [1152 + p]

/-! Agents (spec/11_ordering_machine.md Table 11-1): the contexts and engine contexts of each core, the host,
the hives, the combine units. -/

def ctxAgent (c i : Nat) : Nat := c * 32 + i
def engAgent (c e : Nat) : Nat := c * 32 + 16 + e
def hostAgent : Nat := 40000
def hiveAgent : Nat := 40001
def combineAgent : Nat := 40002
/-- The releaser of a frame while the frame is applied at a resumption (spec/17 R248). -/
def releaserAgent : Nat := 40003
/-- What a pre-empted unit has left behind under a number: its writes are still its own (spec/17 R251, R252). -/
def orphanAgent (c j : Nat) : Nat := 2 ^ 60 * (c + 1) + j
def agentIsOrphan (a : Nat) : Bool := 2 ^ 60 ≤ a
/-- The parts of a remote request that is being applied (spec/11 R190, R200). -/
def landAgent (n : Nat) : Nat := 2 ^ 50 + n
def agentIsLanding (a : Nat) : Bool := 2 ^ 50 ≤ a && a < 2 ^ 60
def agentCore (a : Nat) : Nat := if agentIsOrphan a then a / 2 ^ 60 - 1 else a / 32
def agentIsEngine (a : Nat) : Bool := a < 40000 && 16 ≤ a % 32
def agentIsCtx (a : Nat) : Bool := a < 40000 && a % 32 < 16
def agentSub (a : Nat) : Nat := a % 16
/-- The number of a context or of what a unit left behind. -/
def agentNum (a : Nat) : Nat := if agentIsOrphan a then a % 2 ^ 60 else agentSub a

/-! ### Physical addresses (Table 1-3)

The local memories of the control cores stand at 2^52 + 2^20 · cluster, outside the 52-bit space, since no
physical address reaches them (spec/08 R143). -/

inductive Target where
  | hbm
  | pool (core : Nat)
  | none
deriving DecidableEq, Repr

def poolBase : Nat := 0x8000000000000
def localBase : Nat := 0x10000000000000

/-- What holds a physical address (R11, R12; R17 for a retired core). -/
def targetOf (m : Mach) (pa : Nat) : Target :=
  if pa < 0x8000000000 then .hbm
  else if pa < poolBase then .none
  else if pa < poolBase + 0x200000000 then
    let k := pa / 0x400000 % 32
    let core := 18 * ((pa - poolBase) / 0x8000000) + k
    if k < 18 && !(smGet false m.retired core) then .pool core else .none
  else if pa < localBase then .none
  else if pa < localBase + 0x4000000 then .pool (1152 + (pa - localBase) / 0x100000)
  else .none

/-- The address of a pool offset of a core. -/
def poolPa (core off : Nat) : Nat :=
  if isControl core then localBase + (core - 1152) * 0x100000 + off % 0x100000
  else poolBase + clusterOf core * 0x8000000 + kOf core * 0x400000 + off

/-- The pool offset of an address. -/
def poolOff (pa : Nat) : Nat := if localBase ≤ pa then pa % 0x100000 else pa % 0x400000

/-- SPBASE (spec/08 R145). -/
def spbase (partw : Word) : Nat :=
  2048 * (partw.toNat % 16 + 1) + 16384 * (partw.toNat / 16 % 4 + 1)

/-! ### Bytes and granules -/

/-- `Memory.wf`: the canonical form. -/
def memWf (mem : List Host.Cell) : Bool := smWf (0 : Byte) mem

def readByte (mem : List Host.Cell) (a : Nat) : Byte := smGet (0 : Byte) mem a

/-- `n` bytes from an address, as one number, the byte at the lowest address least significant (R1). -/
def readNat (mem : List Host.Cell) (a : Nat) : Nat → Nat
  | 0 => 0
  | n + 1 => (readByte mem a).toNat + 256 * readNat mem (a + 1) n

/-- Write the bytes of a number that a mask names, the lowest first. -/
def writeNat (mem : List Host.Cell) (a : Nat) : Nat → (mask x : Nat) → List Host.Cell
  | 0, _, _ => mem
  | n + 1, mask, x =>
    writeNat (if mask % 2 = 1 then smPut (0 : Byte) mem a (BitVec.ofNat 8 x) else mem) (a + 1) n (mask / 2) (x / 256)

def readGran (mem : List Host.Cell) (g : Nat) : Gran := BitVec.ofNat 128 (readNat mem g 16)

/-- Merge bytes into a granule. -/
def mergeGran (old new : Gran) (mask : BitVec 16) : Gran :=
  BitVec.ofNat 128 ((List.range 16).foldr
    (fun i acc => (if mask.getLsbD i then new.toNat else old.toNat) / 256 ^ i % 256 * 256 ^ i + acc) 0)

/-- The bytes of a granule from `lo`, `n` of them. -/
def granBytes (g : Gran) (lo n : Nat) : Nat := g.toNat / 256 ^ lo % 256 ^ n

/-- A mask of `n` bytes from `lo`. -/
def byteMask (lo n : Nat) : BitVec 16 := BitVec.ofNat 16 ((2 ^ n - 1) * 2 ^ lo)

/-! ### History (spec/11 R184, R186, R188) -/

def histOf (m : Mach) (g : Nat) : List Hist := smGet [] m.hist g

/-- The newest history position of a granule. -/
def newestPos (m : Mach) (g : Nat) : Nat := (histOf m g).length

/-- The newest position whose step is at most `k`. -/
def posAtStep (m : Mach) (g k : Nat) : Nat := ((histOf m g).filter (fun h => h.step ≤ k)).length

/-- The content of a granule at a history position. -/
def contentAt (m : Mach) (g p : Nat) : Gran :=
  match (histOf m g).drop ((histOf m g).length - 1 - p) with
  | h :: _ => if p < (histOf m g).length then h.before else readGran m.mem g
  | [] => readGran m.mem g

/-- Raise an agent's view of a granule (R188, R193). -/
def raiseView (m : Mach) (a g p : Nat) : Mach :=
  modAgent m a (fun x => { x with view := smPut 0 x.view g (max (smGet 0 x.view g) p) })

def viewOf (m : Mach) (a g : Nat) : Nat := smGet 0 (getAgent m a).view g

/-- Append a write to the history of its granule, at the next commit step; the writing agent's view moves to it
(R186). A write of the whole granule clears an uncorrectable mark (spec/19 R278), and the key of what stood there. -/
def commitWrite (m : Mach) (a g : Nat) (mask : BitVec 16) (data : Gran) : Mach :=
  let h : Hist := { step := m.step + 1, tick := m.nowt, mask := mask, before := readGran m.mem g }
  let m1 := { m with
    step := m.step + 1
    hist := smPut [] m.hist g (h :: histOf m g)
    mem := writeNat m.mem g 16 mask.toNat data.toNat
    poisoned := if mask = 0xFFFF then m.poisoned.filter (· != g) else m.poisoned
    keyed := if mask = 0xFFFF then smDel m.keyed g else m.keyed }
  modAgent (raiseView m1 a g (newestPos m1 g)) a (fun x => { x with own := smPut 0 x.own g (newestPos m1 g) })

/-- Does a read of a granule find it uncorrectable, or the keys erased (spec/19 R278, R282)? -/
def granBad (m : Mach) (g : Nat) : Bool := m.poisoned.contains g || (m.erased && g < 0x8000000000)

/-! ### Retention (spec/08 R148) -/

/-- The compute core in whose pool an address lies. -/
def poolCore (pa : Nat) : Option Nat :=
  if poolBase ≤ pa && pa < poolBase + 0x200000000 then some (18 * ((pa - poolBase) / 0x8000000) + pa / 0x400000 % 32)
  else none

/-- TRET of a core: the measured retention, at least 1,000 ticks (R147). -/
def tretOf (m : Mach) (core : Nat) : Nat := smGet 1000 m.tret core

/-- The tick up to which renewals have carried a byte that was written at tick `w`: one that comes after the byte has
lost its value carries it no further. -/
def carriedTo (tret off : Nat) (w : Nat) : List (Nat × Nat × Nat) → Nat
  | [] => w
  | r :: rs =>
    carriedTo tret off (if r.1 ≤ off && off < r.1 + r.2.1 && w ≤ r.2.2 && r.2.2 ≤ w + tret then r.2.2 else w) rs

/-- Has byte `i` of a pool granule lost its value? -/
def byteLost (m : Mach) (core g i : Nat) : Bool :=
  let k := getCore m core
  let w := max k.zeroTick (match (histOf m g).find? (fun h => h.mask.getLsbD i) with | some h => h.tick | none => 0)
  carriedTo (tretOf m core) (poolOff g + i) w k.renews + tretOf m core < m.nowt

/-- The newest content of a granule, as a read finds it now: a byte of a pool past its retention is undefined (R148). -/
def granNow (m : Mach) (g : Nat) : Gran :=
  match poolCore g with
  | none => readGran m.mem g
  | some core =>
    mergeGran (readGran m.mem g) (Config.freeGran (m.fresh * 2 ^ 64 + g))
      (BitVec.ofNat 16 ((List.range 16).foldl (fun a i => if byteLost m core g i then a + 2 ^ i else a) 0))

/-- `n` bytes from an address inside one granule, as a read finds them now. -/
def readNow (m : Mach) (pa n : Nat) : Nat := granBytes (granNow m (pa / 16 * 16)) (pa % 16) n

/-- Split a write of `n` bytes of a number at an address into one write per granule. -/
def granParts (pa n x : Nat) : Nat → List (Nat × BitVec 16 × Gran)
  | 0 => []
  | fuel + 1 =>
    if n = 0 then []
    else
      let lo := pa % 16
      let k := min n (16 - lo)
      (pa - lo, byteMask lo k, BitVec.ofNat 128 (x % 256 ^ k * 256 ^ lo)) :: granParts (pa + k) (n - k) (x / 256 ^ k) fuel

/-- Commit `n` bytes of a number at an address, one history entry per granule. -/
def commitNat (m : Mach) (a pa n x : Nat) : Mach :=
  (granParts pa n x (n + 1)).foldl (fun m w => commitWrite m a w.1 w.2.1 w.2.2) m

/-- The number that a string of bytes spells, the lowest first. -/
def natOfBytes (bs : List Byte) : Nat := bs.foldr (fun b acc => b.toNat + 256 * acc) 0

end Sys2Proof.Machine
end

