-- ==== Sys2Proof/Machine/Xlat.lean ====
section
/-!
DEFINITION. Address values, page tables, windows, translation caches and the allocation check
(spec/08_pool_memory.md R142, R143, R151, R155 to R161).
-/

namespace Sys2Proof.Machine

/-- What an access does (R156, R160). -/
structure Acc where
  rd : Bool := false
  wr : Bool := false
  red : Bool := false
  ex : Bool := false
  hnd : Bool := false
deriving DecidableEq, Repr, Inhabited

def accRead : Acc := { rd := true }
def accWrite : Acc := { wr := true }
def accAtomic : Acc := { rd := true, wr := true }
def accRadd : Acc := { red := true }
def accFetch : Acc := { ex := true }

/-- What translation answers. -/
inductive XRes where
  /-- a physical address; is the page mirrored, is it a tensor page? -/
  | ok (pa : Nat) (mir tensor : Bool)
  | fault (cause : Byte) (finfo : Word)
  /-- not cached: it waits for a walk (R161) -/
  | miss (q : Miss)
  /-- a write that meets a MOVING leaf (R160) -/
  | moving
  /-- an address at which nothing is, whose access its target refuses (R12) -/
  | absent (pa : Nat)
  /-- a window of KIND 1 or 2: fabric number, target PA, KIND, TPART -/
  | remote (pkg pa kind tpart : Nat)
deriving DecidableEq, Repr

/-- FINFO form T (spec/17 Table 17-3). -/
def finfoT (level code : Nat) : Word := BitVec.ofNat 64 (level + code * 256)

def causeMiss : Byte := 0x08
def causePerm : Byte := 0x09

/-! ### Page tables (R158, R159) -/

def pteBit (raw i : Nat) : Bool := raw / 2 ^ i % 2 == 1

/-- The index into the table of a level (Table 8-12) of a normal-space address value. -/
def pteIndex (x level : Nat) : Nat :=
  match level with
  | 0 => x / 2 ^ 60 % 16 * 256 + x / 2 ^ 52 % 256
  | 1 => x / 2 ^ 43 % 512
  | 2 => x / 2 ^ 34 % 512
  | 3 => x / 2 ^ 25 % 512
  | _ => x / 2 ^ 16 % 512

/-- log2 of the page size of a leaf at a level. -/
def pageShift (level : Nat) : Nat :=
  match level with
  | 2 => 34
  | 3 => 25
  | _ => 16

/-- The frame of a leaf: [57:22] hold PA[51:16]. -/
def leafPa (raw : Nat) : Nat := raw / 2 ^ 22 % 2 ^ 36 * 65536

/-- Is an entry malformed at its level (R158, R159)? -/
def pteMalformed (raw level : Nat) : Bool :=
  raw / 2 ^ 62 != 0
    || (if pteBit raw 1 then level < 2 || raw / 2 ^ 58 % 16 != 0 || leafPa raw % 2 ^ pageShift level != 0
        else level == 4)

/-- The walk of a normal-space address value (R158, R160), reading the tables as they stand; `part` and `page`
name the result. -/
def walkFrom (m : Mach) (part x table level : Nat) : Nat → Tr
  | 0 => { part := part, win := false, page := x / 65536, ok := false, raw := 0, level := level, code := 1, miss := true }
  | fuel + 1 =>
    let pa := table + 8 * pteIndex x level
    let out (ok : Bool) (raw code : Nat) (miss : Bool) : Tr :=
      { part := part, win := false, page := x / 65536, ok := ok, raw := raw, level := level, code := code, miss := miss }
    if 0x8000000000 ≤ pa then out false 0 3 false
    else if granBad m (pa / 16 * 16) then { out false 0 0 false with chk := true }
    else
      let raw := readNat m.mem pa 8
      if !(pteBit raw 0) then out false raw 0 true
      else if pteMalformed raw level then out false raw 1 true
      else if pteBit raw 1 then out true raw 0 false
      else walkFrom m part x (raw / 2 ^ 22 % 2 ^ 40 * 4096) (level + 1) fuel

/-- The page-table walk of a partition; a partition whose ROOT is 0 maps nothing (Table 19-1). -/
def walkPage (m : Mach) (part x : Nat) : Tr :=
  let root := (getPart m part).root
  if root = 0 then
    { part := part, win := false, page := x / 65536, ok := false, raw := 0, level := 0, code := 0, miss := true }
  else walkFrom m part x root 0 5

/-- The entry at which the walk of an address value ends, a leaf or one that is not valid: its address and level. None where
the partition has no tables (Table 19-1), or one on the way is malformed, uncorrectable or not in HBM (spec/01 R12). -/
def lastEntry (m : Mach) (x table level : Nat) : Nat → Option (Nat × Nat)
  | 0 => none
  | fuel + 1 =>
    let pa := table + 8 * pteIndex x level
    let raw := readNat m.mem pa 8
    if 0x8000000000 ≤ pa || granBad m (pa / 16 * 16) then none
    else if !(pteBit raw 0) then some (pa, level)
    else if pteMalformed raw level then none
    else if pteBit raw 1 then some (pa, level)
    else lastEntry m x (raw / 2 ^ 22 % 2 ^ 40 * 4096) (level + 1) fuel

/-- The entry at which the walk of an address value in a partition's tables ends. -/
def partEntry (m : Mach) (part x : Nat) : Option (Nat × Nat) :=
  if (getPart m part).root = 0 then none else lastEntry m x (getPart m part).root 0 5

/-- The leaf that maps an address value of a partition: its entry's address and level. Window and local-pool space have none. -/
def partLeaf (m : Mach) (part x : Nat) : Option (Nat × Nat) :=
  if 14 ≤ x / 2 ^ 60 then none else (partEntry m part x).filter (fun e => pteBit (readNat m.mem e.1 8) 0)

/-! ### Windows (R155, R156) -/

/-- The address of window `i` of a partition's table. -/
def winAddr (m : Mach) (part i : Nat) : Nat :=
  (getPart m part).winbase.toNat / 2 ^ 17 % 2 ^ 35 * 2 ^ 17 + 32 * i

def winTbase (raw : Nat) : Nat := raw % 2 ^ 64
def winSize (raw : Nat) : Nat := raw / 2 ^ 64 % 2 ^ 64
def winPkg (raw : Nat) : Nat := raw / 2 ^ 128 % 2 ^ 16
def winFlag (raw i : Nat) : Bool := raw / 2 ^ (160 + i) % 2 == 1
def winKind (raw : Nat) : Nat := raw / 2 ^ 168 % 256
def winTpart (raw : Nat) : Nat := raw / 2 ^ 176 % 64

/-- Are the zero fields of a window entry zero (Table 8-11)? -/
def winZero (raw : Nat) : Bool :=
  raw / 2 ^ 52 % 2 ^ 12 == 0 && raw / 2 ^ 144 % 2 ^ 16 == 0 && raw / 2 ^ 165 % 8 == 0 && raw / 2 ^ 182 % 4 == 0 && raw / 2 ^ 184 == 0

/-- Does a window entry break Table 8-11, or reach outside the range of its KIND (R156)? -/
def winInvalid (raw : Nat) : Bool :=
  let lo := winTbase raw
  let hi := winTbase raw + winSize raw
  let inHbm := hi ≤ 0x8000000000
  let inPools := poolBase ≤ lo && hi ≤ poolBase + 0x200000000
  !(winZero raw) || lo % 64 != 0 || winSize raw % 64 != 0 || 2 ^ 48 < winSize raw || 2 < winKind raw
    || !(match winKind raw with
         | 0 => inHbm || inPools
         | 1 => inHbm
         | _ => inPools)

/-- The window entry as the table holds it; a table outside HBM is refused (R12, R155), and an uncorrectable
granule raises check (spec/19 R278). -/
def walkWindow (m : Mach) (part i : Nat) : Tr :=
  let pa := winAddr m part i
  let raw := readNat m.mem pa 32
  let bad : Tr := { part := part, win := true, page := i, ok := false, raw := 0, level := 7, code := 3, miss := false }
  if targetOf m pa ≠ .hbm then bad
  else if granBad m pa || granBad m (pa + 16) then { bad with code := 0, chk := true }
  else { bad with ok := winFlag raw 0, raw := raw, code := 0, miss := true }

/-- The fault of a walk that found no entry to use (R156, R160; check where it met an uncorrectable granule). -/
def walkFault (t : Tr) : XRes :=
  .fault (if t.chk then 0x19 else if t.miss then causeMiss else causePerm) (finfoT t.level t.code)

/-! ### The decision (R156, R160) -/

/-- Does another owner hold the partition that KEY names? -/
def keyForeign (m : Mach) (raw owner : Nat) : Bool :=
  match (getPart m (raw / 2 ^ 16 % 64)).owner with
  | some o => o != owner
  | none => false

/-- An access through a page-table leaf. -/
def pageDecide (m : Mach) (t : Tr) (x owner : Nat) (acc : Acc) : XRes :=
  if !t.ok then walkFault t
  else
    let raw := t.raw
    let allowed := (!acc.rd || pteBit raw 2) && (!acc.wr || pteBit raw 3) && (!acc.ex || pteBit raw 4)
      && (!acc.red || (pteBit raw 2 && pteBit raw 3))
    if !allowed || raw / 2 ^ 8 % 256 != owner || keyForeign m raw owner then
      .fault causePerm (finfoT t.level 2)
    else if (acc.wr || acc.red) && pteBit raw 7 then .moving
    else
      let s := pageShift t.level
      let pa := leafPa raw / 2 ^ s * 2 ^ s + x % 2 ^ s
      match targetOf m pa with
      | .none => .absent pa
      | _ => .ok pa (pteBit raw 6) (pteBit raw 5)

/-- An access through a window at offset `f`. -/
def winDecide (m : Mach) (t : Tr) (f size : Nat) (acc : Acc) : XRes :=
  let raw := t.raw
  if !t.ok then walkFault t
  else if winInvalid raw then .fault causePerm (finfoT 7 1)
  else if winSize raw < f + size
      || (acc.rd && !winFlag raw 1) || (acc.wr && !winFlag raw 2) || (acc.red && !winFlag raw 3)
      || (acc.hnd && !winFlag raw 4) || acc.ex then .fault causePerm (finfoT 7 2)
  else if winKind raw = 0 then
    match targetOf m (winTbase raw + f) with
    | .none => .absent (winTbase raw + f)
    | _ => .ok (winTbase raw + f) false false
  else .remote (winPkg raw) (winTbase raw + f) (winKind raw) (winTpart raw)

/-- A local-pool address value of a core (Table 8-1, R143). -/
def poolDecide (m : Mach) (core x : Nat) : XRes :=
  let k := x / 2 ^ 23 % 32
  let bad : XRes := .fault causePerm (finfoT 7 4)
  if x / 2 ^ 28 % 2 ^ 32 ≠ 0 ∨ x / 2 ^ 22 % 2 = 1 then bad
  else if 18 ≤ k then
    if isControl core ∧ k = 31 ∧ x / 2 ^ 20 % 8 = 0 then .ok (poolPa core (x % 2 ^ 20)) false false else bad
  else
    let c := 18 * clusterOf core + k
    if smGet false m.retired c then .absent (poolPa c (x % 2 ^ 22))
    else .ok (poolPa c (x % 2 ^ 22)) false false

/-- An access through a local-pool address value. Nothing there is mapped as executable code (spec/04 R65); a value that breaks
its space is refused as such, a fetch's too (R142). -/
def poolAccess (m : Mach) (core x : Nat) (acc : Acc) : XRes :=
  match acc.ex, poolDecide m core x with
  | true, .ok .. => .fault causePerm (finfoT 7 2)
  | true, .absent _ => .fault causePerm (finfoT 7 2)
  | _, r => r

/-! ### Memory encryption (spec/19 R281)

The KEY field of a page selects the key of what is written and read through it. What a read finds that was written under
another key is a free value; an access without a page is taken to have the key of what stands there (UNVERIFIED, log 75). -/

/-- The key of a partition, by its generation. -/
def keyNum (m : Mach) (part : Nat) : Nat := 64 * smGet 0 m.memGen part + part + 1

/-- The key that covers the page at an address value of a partition. -/
def pageKey (m : Mach) (part : Nat) (va : Word) : Option Nat :=
  if 14 ≤ va.toNat / 2 ^ 60 then none
  else
    let t := walkPage m part va.toNat
    if t.ok then some (keyNum m (t.raw / 2 ^ 16 % 64)) else none

/-- Was a granule of HBM last written under another key than the one that covers a page? -/
def keyDiffers (m : Mach) (key : Option Nat) (g : Nat) : Bool :=
  match key with
  | some k => g < 0x8000000000 && smGet 0 m.keyed g != 0 && smGet 0 m.keyed g != k
  | none => false

/-- The content of a granule as a read through a page finds it. -/
def seenGran (m : Mach) (key : Option Nat) (g : Nat) (x : Gran) : Gran :=
  if keyDiffers m key g then Config.freeGran (m.fresh * 2 ^ 64 + 2 ^ 63 + g) else x

/-- Commit a write that goes through a page: it stands under the page's key, and what else stood in the granule under
another key is lost. -/
def commitKeyed (m : Mach) (a : Nat) (key : Option Nat) (g : Nat) (mask : BitVec 16) (data : Gran) : Mach :=
  let m1 :=
    if keyDiffers m key g && mask != 0xFFFF then
      commitWrite m a g 0xFFFF (mergeGran (Config.freeGran (m.fresh * 2 ^ 64 + 2 ^ 63 + g)) data mask)
    else commitWrite m a g mask data
  match key with
  | some k => if g < 0x8000000000 then { m1 with keyed := smPut 0 m1.keyed g k } else m1
  | none => m1

/-- Write a string of bytes through a page, one commit per granule touched. -/
def commitBytes (m : Mach) (a : Nat) (key : Option Nat) (pa : Nat) (bs : List Byte) : Mach :=
  (granParts pa bs.length (natOfBytes bs) (bs.length + 1)).foldl (fun m w => commitKeyed m a key w.1 w.2.1 w.2.2) m

/-! ### Caches (R161) -/

/-- The cached translation a core finds, in its own cache or its cluster's. -/
def findTr (m : Mach) (core part : Nat) (win : Bool) (page : Nat) : Option Tr :=
  let hit (t : Tr) : Bool := t.part == part && t.win == win && t.page == page
  match (getCore m core).tc.find? hit with
  | some t => some t
  | none => (getCluster m (clusterOf core)).tlb.find? hit

/-- Keep a translation in a core's 32-entry cache; which entry a full cache gives up the spec does not say. -/
def noteTr (m : Mach) (core : Nat) (t : Tr) : Mach :=
  if !t.ok || (getCore m core).tc.contains t then m
  else modCore m core (fun k =>
    { k with tc := t :: (if k.tc.length < 32 then k.tc else k.tc.eraseIdx (Config.freeIndex m.fresh % 32)) })

/-- Drop a fault result that a bundle has now met, so that a later access walks again. -/
def dropTr (m : Mach) (core : Nat) (t : Tr) : Mach :=
  if t.ok then m
  else
    let c := clusterOf core
    let k := getCluster m c
    setCluster m c { k with tlb := k.tlb.filter (· != t) }

/-- Keep the result of a walk in a cluster's 2,048-entry cache. -/
def fillTr (m : Mach) (c : Nat) (t : Tr) : Mach :=
  let k := getCluster m c
  setCluster m c { k with
    tlb := t :: (if k.tlb.length < 2048 then k.tlb else k.tlb.eraseIdx (Config.freeIndex m.fresh % 2048)) }

/-- Enter a miss, unless one for the same page waits already; a full queue takes none (R161). -/
def enterMiss (m : Mach) (core : Nat) (q : Miss) : Mach :=
  let c := clusterOf core
  let k := getCluster m c
  if k.miss.contains q || 64 ≤ k.miss.length then m else setCluster m c { k with miss := k.miss ++ [q] }

/-- Who translates: the core, the partition whose tables serve it, the owner it acts for. -/
structure Who where
  core : Nat
  part : Nat
  owner : Nat
deriving DecidableEq, Repr

/-- Translation of an address value through the caches (R142, R156, R160, R161), with the cached entry met. -/
def xlate (m : Mach) (w : Who) (v : Word) (size : Nat) (acc : Acc) : XRes × Option Tr :=
  let x := v.toNat
  if x / 2 ^ 60 = 15 then (poolAccess m w.core x acc, none)
  else if x / 2 ^ 60 = 14 then
    match findTr m w.core w.part true (x / 2 ^ 48 % 4096) with
    | none => (.miss ⟨w.part, true, x / 2 ^ 48 % 4096⟩, none)
    | some t => (winDecide m t (x % 2 ^ 48) size acc, some t)
  else
    match findTr m w.core w.part false (x / 65536) with
    | none => (.miss ⟨w.part, false, x / 65536⟩, none)
    | some t => (pageDecide m t x w.owner acc, some t)

/-- Is an invalidation of the page at an address value under way, whose leaf stands at a level? -/
def invalNames (m : Mach) (part x level : Nat) : Bool :=
  m.invals.any (fun v => v.part == part && !v.win && !v.all && v.page * 65536 / 2 ^ pageShift level == x / 2 ^ pageShift level)

/-- Translation without a cache, by a walk made now: the hive, the host, combine units, the engines, and the later blocks of
l.vld. That the last two take no part in the caches and the miss queue of R161 is a DESIGN CHOICE (log 106). A write goes
through a page only when no invalidation of it is under way: one that MOVING has held goes on after the new entry stands and
the old one is invalidated everywhere (R160). -/
def xlateNow (m : Mach) (w : Who) (v : Word) (size : Nat) (acc : Acc) : XRes :=
  let x := v.toNat
  if x / 2 ^ 60 = 15 then poolAccess m w.core x acc
  else if x / 2 ^ 60 = 14 then winDecide m (walkWindow m w.part (x / 2 ^ 48 % 4096)) (x % 2 ^ 48) size acc
  else
    let t := walkPage m w.part x
    match pageDecide m t x w.owner acc with
    | .fault c f => .fault c f
    | r => if (acc.wr || acc.red) && invalNames m w.part x t.level then .moving else r

/-! ### The allocation check (R151) -/

/-- The LIVE or FREEING entry of a core that holds a range of pool offsets; pinned entries can not be addressed
(spec/17 R253). -/
def findAlloc (k : Core) (off size : Nat) : Option (Nat × Alloc) :=
  k.alloc.find? (fun e => e.2.used && e.2.pinned.isNone && e.2.base ≤ off && off + size ≤ e.2.base + 64 * e.2.nblk)

/-- The cause for which an access to a pool is refused, or none (R151); the local memory of a control core has
no allocations (R143). -/
def allocCheck (m : Mach) (core off size : Nat) (reads : Bool) : Option Byte :=
  if isControl core then none
  else
    let k := getCore m core
    if off < spbase k.partw then some 0x11
    else
      match findAlloc k off size with
      | none => some 0x11
      | some (_, a) =>
        if a.freeing then some 0x11
        else if reads && a.exp ≤ m.nowt then some 0x10
        else none

end Sys2Proof.Machine
end

