-- ==== Sys2Proof/Machine/Ops.lean ====
section
/-!
DEFINITION. The named operations over registers, the record area and events of the host, and TAKING A TRAP
(spec/17_traps_preemption.md R239 to R248) as one shared operation, with the returns from one beside it
(R247, R249).
-/

namespace Sys2Proof.Machine

/-! ### Registers in the issue frame (spec/04_core_model.md R64, R67, R69, R72) -/

/-- Is a result for the register still in flight, so that a read of it is undefined (R67, R69)? -/
def inFlight (c : Ctx) (d : Dst) (now : Nat) : Bool :=
  c.flight.any (fun f => f.dst == d && now < f.landAt)

/-- The index of a free value: one for each step, word of the bundle, operand and register. -/
def freeIx (m : Mach) (role n : Nat) : Nat := m.fresh * 65536 + m.iss.idx * 4096 + role * 256 + n

/-- A scalar of a context at a cycle. s0 reads zero (Table 4-3); a result in flight reads undefined and not
poisoned (R67). -/
def scalarOf (c : Ctx) (now ix : Nat) (n : BitVec 6) : Scalar :=
  if n = 0 then {}
  else if inFlight c (.s n) now then { val := Config.freeWord ix }
  else smGet {} c.sregs n.toNat

/-- A predicate of a context; p0 is true. -/
def predOf (c : Ctx) (now ix : Nat) (n : BitVec 3) : Bool :=
  if n = 0 then true
  else if inFlight c (.p n) now then Config.freeBit ix
  else c.preds.getLsbD n.toNat

/-- A branch target of a context. -/
def targetReg (c : Ctx) (now ix : Nat) (n : BitVec 3) : W32 :=
  if inFlight c (.b n) now then Config.freePacket ix
  else smGet 0 c.bregs n.toNat

/-- Source scalar of the word being issued, as it stood when the bundle issued (R64). -/
def rdS (m : Mach) (role : Nat) (n : BitVec 6) : Scalar := scalarOf m.iss.snap m.cycle (freeIx m role n.toNat) n

/-- Source predicate of the word being issued. -/
def rdP (m : Mach) (role : Nat) (n : BitVec 3) : Bool := predOf m.iss.snap m.cycle (freeIx m role n.toNat) n

/-- Source branch target of the word being issued. -/
def rdB (m : Mach) (role : Nat) (n : BitVec 3) : W32 := targetReg m.iss.snap m.cycle (freeIx m role n.toNat) n

/-- The guard predicate of the word at a place of the bundle being issued, read once for the word: two words that
name one undefined predicate need not agree (spec/00_scope.md R5). -/
def guardVal (m : Mach) (idx : Nat) (g : BitVec 3) : Bool :=
  predOf m.iss.snap m.cycle (m.fresh * 65536 + idx * 4096 + 3840 + g.toNat) g

/-- Does the word's guard hold (R66)? -/
def guardTrue (m : Mach) (h : Hd) : Bool := guardVal m m.iss.idx h.g

/-- Is a destination discarded (s0, p0)? -/
def discarded : Dst → Bool
  | .s n => n == 0
  | .p n => n == 0
  | .b _ => false

/-- A later word writes these registers: what is in flight for them will not be their value (R69). -/
def supersede (c : Ctx) (ds : List Dst) : Ctx :=
  { c with flight := c.flight.map (fun f => if ds.contains f.dst then { f with dead := true } else f) }

/-- Send a result on its way to a register, to be read from `lat` cycles on (R67, R68). -/
def putFlight (c : Ctx) (now lat : Nat) (d : Dst) (v : Scalar) : Ctx :=
  if discarded d then c
  else
    let c := supersede c [d]
    { c with flight := c.flight ++ [{ dst := d, issued := now, landAt := now + lat, v := v, dead := false }] }

/-- Store a value into a register. -/
def storeReg (c : Ctx) (d : Dst) (v : Scalar) : Ctx :=
  if discarded d then c
  else
    match d with
    | .s n => { c with sregs := smPut {} c.sregs n.toNat v }
    | .p n => { c with preds :=
        if v.val.getLsbD 0 then c.preds ||| BitVec.ofNat 8 (2 ^ n.toNat)
        else c.preds &&& ~~~(BitVec.ofNat 8 (2 ^ n.toNat)) }
    | .b n => { c with bregs := smPut 0 c.bregs n.toNat (v.val.setWidth 32) }

/-- Land the results whose cycle has come, in order of issue. -/
def landDue (c : Ctx) (now : Nat) : Ctx :=
  let due := c.flight.filter (fun f => f.landAt ≤ now)
  due.foldl (fun c f => if f.dead then c else storeReg c f.dst f.v)
    { c with flight := c.flight.filter (fun f => now < f.landAt) }

/-- Land every exposed result, before a trap action, a save or a handler reads the registers (R71). -/
def landAll (c : Ctx) : Ctx :=
  c.flight.foldl (fun c f => if f.dead then c else storeReg c f.dst f.v) { c with flight := [] }

/-- Change the issuing context. -/
def onIss (m : Mach) (f : Ctx → Ctx) : Mach := modCtx m m.iss.core m.iss.ctx f

/-- The issuing context as it is now. -/
def issCtx (m : Mach) : Ctx := getCtx m m.iss.core m.iss.ctx

/-- A scalar result of the word being issued (R67). -/
def putS (m : Mach) (lat : Nat) (d : BitVec 6) (v : Scalar) : Mach :=
  onIss m (fun c => putFlight c m.cycle lat (.s d) v)

/-- A predicate result. -/
def putP (m : Mach) (lat : Nat) (d : BitVec 3) (v : Bool) : Mach :=
  onIss m (fun c => putFlight c m.cycle lat (.p d) { val := if v then 1 else 0 })

/-- A branch-target result. -/
def putB (m : Mach) (lat : Nat) (d : BitVec 3) (v : W32) : Mach :=
  onIss m (fun c => putFlight c m.cycle lat (.b d) { val := v.setWidth 64 })

/-- The PREC register of a tile. -/
def precOf (c : Ctx) (t : Nat) : Word :=
  match t with
  | 0 => c.prec0
  | 1 => c.prec1
  | 2 => c.prec2
  | _ => c.prec3

def setPrec (c : Ctx) (t : Nat) (w : Word) : Ctx :=
  match t with
  | 0 => { c with prec0 := w }
  | 1 => { c with prec1 := w }
  | 2 => { c with prec2 := w }
  | _ => { c with prec3 := w }

/-! ### Landing of rows (spec/22_reference_v.md R348, spec/04 R69) -/

/-- Insert a row result behind those that land no later. -/
def insFlight (f : RowFlight) : List RowFlight → List RowFlight
  | [] => [f]
  | g :: gs => if f.landAt < g.landAt then f :: g :: gs else g :: insFlight f gs

/-- A row takes a value; exponent bytes only on an AXB tile (spec/22 R342). -/
def landRow (k : Core) (f : RowFlight) : Core :=
  { k with tiles := smPut 0 k.tiles f.row f.data, exps := if f.axb then smPut 0 k.exps f.row f.exps else k.exps }

/-- Bytes are written into a row directly; the results in flight for it land over them. -/
def pokeRow (k : Core) (key : Nat) (data : BitVec 1920) (exps : BitVec 32) : Core :=
  { k with tiles := smPut 0 k.tiles key data, exps := smPut 0 k.exps key exps }

/-- Land the row results whose cycle has come; the list is kept in order of landing, ties in order of issue. -/
def landRowsDue (k : Core) (now : Nat) : Core :=
  (k.rowFlight.filter (fun f => f.landAt ≤ now)).foldl landRow
    { k with rowFlight := k.rowFlight.filter (fun f => now < f.landAt) }

/-- The cycle by which every row result of a context has landed: the rows belong to the whole core, so that each lands in its
own cycle, and what reads them after a trap waits for it (R71). -/
def rowsLandBy (k : Core) (i : Nat) : Nat := (k.rowFlight.filter (fun f => f.ctx == i)).foldl (fun a f => max a f.landAt) 0

/-- A context that has ended leaves its row results to land without it. -/
def disownRows (k : Core) (i : Nat) : Core :=
  { k with rowFlight := k.rowFlight.map (fun f => if f.ctx = i then { f with ctx := 16 } else f) }

/-- Send a row result on its way. A row that the same context has in flight already keeps the later word's
result (R69), so that result lands no sooner than the earlier one. -/
def putRow (k : Core) (f : RowFlight) : Core :=
  let late := (k.rowFlight.filter (fun g => g.row == f.row && g.ctx == f.ctx)).foldl (fun a g => max a g.landAt) f.landAt
  { k with rowFlight := insFlight { f with landAt := late } k.rowFlight }

/-- Every exposed result for a context's registers lands, and it waits for those for its rows (R71). -/
def settle (m : Mach) (core i : Nat) : Mach :=
  modCtx m core i (fun c => { landAll c with landBy := rowsLandBy (getCore m core) i })

/-! ### Who a context is -/

/-- Owner number of a context's unit (spec/19 Table 19-2). -/
def ctxOwner (c : Ctx) : Nat := c.ownerReg.toNat % 256

/-- Translation for a context. -/
def whoOf (m : Mach) (core i : Nat) : Who :=
  let c := getCtx m core i
  { core := core, part := c.area, owner := ctxOwner c }

/-- The lowest-numbered partition of an owner (spec/19 R268). -/
def ownerPartFrom (m : Mach) (o : Nat) : Nat → Nat → Option Nat
  | 0, _ => none
  | fuel + 1, p => if (getPart m p).owner = some o then some p else ownerPartFrom m o fuel (p + 1)

def ownerPart (m : Mach) (o : Nat) : Option Nat := ownerPartFrom m o 64 0

/-- Translation for the hive on behalf of an owner. -/
def whoOwner (m : Mach) (o : Nat) : Who :=
  let p := (ownerPart m o).getD 0
  { core := 18 * p, part := p, owner := o }

/-! ### Memory by address value, for the hive, the host and combine units -/

/-- Does the check of R151 refuse an access to `n` bytes at a physical address, made now? -/
def poolRefuses (m : Mach) (pa n : Nat) (reads : Bool) : Option Byte :=
  match targetOf m pa with
  | .pool q => allocCheck m q (poolOff pa) n reads
  | .none => some causePerm
  | .hbm => if reads && granBad m (pa / 16 * 16) then some 0x19 else none

/-- The position that an agent reads a granule at: the newest in a pool, elsewhere one that the spec leaves open, at or
after its view (spec/11_ordering_machine.md R187, R188). -/
def readPos (m : Mach) (a g ix : Nat) : Nat :=
  if g < 0x8000000000 then viewOf m a g + Config.freeIndex ix % (newestPos m g - viewOf m a g + 1) else newestPos m g

/-- `n` bytes inside one granule as a reader finds them through a page of a key: the newest content, or for an agent with
views the content at the position that it reads. -/
def readAs (m : Mach) (ag : Option Nat) (key : Option Nat) (pa n ix : Nat) : Nat :=
  let g := pa / 16 * 16
  match ag with
  | some a =>
    if g < 0x8000000000 then granBytes (seenGran m key g (contentAt m g (readPos m a g ix))) (pa % 16) n else readNow m pa n
  | none => granBytes (seenGran m key g (granNow m g)) (pa % 16) n

/-- The free choice of the position that a read at an address value is made at. -/
def readIx (m : Mach) (va : Word) : Nat := m.fresh * 2 ^ 64 + va.toNat

/-- Read `n` bytes at an address value, granule by granule, each checked under R151; the first refusal. -/
def vaRead (m : Mach) (ag : Option Nat) (w : Who) (va : Word) : Nat → Nat → Except (Byte × Word) Nat
  | 0, _ => .ok 0
  | fuel + 1, n =>
    if n = 0 then .ok 0
    else
      let k := min n (16 - va.toNat % 16)
      match xlateNow m w va k accRead with
      | .ok pa _ _ =>
        match poolRefuses m pa k true with
        | some c => .error (c, va)
        | none =>
          match vaRead m ag w (va + BitVec.ofNat 64 k) fuel (n - k) with
          | .ok x => .ok (readAs m ag (pageKey m w.part va) pa k (readIx m va) + 256 ^ k * x)
          | .error e => .error e
      | .fault c _ => .error (c, va)
      | _ => .error (0x09, va)

/-- Read `n` bytes at an address value, from the newest content. -/
def readVa (m : Mach) (w : Who) (va : Word) (n : Nat) : Except (Byte × Word) Nat := vaRead m none w va (n + 1) n

/-- Read `n` bytes at an address value with the views of an agent. -/
def readVaAs (m : Mach) (ag : Nat) (w : Who) (va : Word) (n : Nat) : Except (Byte × Word) Nat :=
  vaRead m (some ag) w va (n + 1) n

/-- The views of an agent after such a read: at the positions read (R188). -/
def vaViews (m : Mach) (a : Nat) (w : Who) (va : Word) : Nat → Nat → Mach
  | 0, _ => m
  | fuel + 1, n =>
    if n = 0 then m
    else
      let k := min n (16 - va.toNat % 16)
      match xlateNow m w va k accRead with
      | .ok pa _ _ =>
        let g := pa / 16 * 16
        vaViews (raiseView m a g (readPos m a g (readIx m va))) a w (va + BitVec.ofNat 64 k) fuel (n - k)
      | _ => m

/-- FINFO form T of a read that was refused with translation-miss or translation-permission at an address value. -/
def refusedT (m : Mach) (w : Who) (va : Word) : Word :=
  match xlateNow m w va 1 accRead with
  | .fault _ f => f
  | .absent _ => finfoT 7 3
  | _ => finfoT 7 2

/-- Write `n` bytes of a number at an address value, one history entry per granule; the first refusal. -/
def vaWrite (m : Mach) (a : Nat) (w : Who) (va : Word) (x : Nat) : Nat → Nat → Except (Byte × Word) Mach
  | 0, _ => .ok m
  | fuel + 1, n =>
    if n = 0 then .ok m
    else
      let k := min n (16 - va.toNat % 16)
      match xlateNow m w va k accWrite with
      | .ok pa _ _ =>
        match poolRefuses m pa k false with
        | some c => .error (c, va)
        | none =>
          vaWrite (commitKeyed m a (pageKey m w.part va) (pa / 16 * 16) (byteMask (pa % 16) k)
              (BitVec.ofNat 128 (x % 256 ^ k * 256 ^ (pa % 16)))) a w (va + BitVec.ofNat 64 k) (x / 256 ^ k) fuel (n - k)
      | .fault c _ => .error (c, va)
      | _ => .error (0x09, va)

def writeVa (m : Mach) (a : Nat) (w : Who) (va : Word) (n x : Nat) : Except (Byte × Word) Mach :=
  vaWrite m a w va x (n + 1) n

/-- Is a write at an address value held: by a MOVING page (spec/08 R160), or by what has reached the port of a pool before it,
behind which the port applies it (spec/11 R187)? Ranges that the hive writes lie in at most two pages. -/
def heldWrite (m : Mach) (w : Who) (va : Word) (n : Nat) : Bool :=
  let held (x : Word) : Bool := match xlateNow m w x 1 accWrite with
    | .moving => true
    | .ok pa _ _ => (match targetOf m pa with | .pool q => !(getCore m q).port.isEmpty | _ => false)
    | _ => false
  held va || held (va + BitVec.ofNat 64 (n - 1))

/-! ### Events of the host (spec/19_system.md R271, Table 19-4) -/

/-- The lowest-numbered virtual function of an owner that has an event ring. -/
def ownerVf (m : Mach) (o : Nat) : Option Nat :=
  (m.vfs.find? (fun e => e.2.owner == some o && e.2.eqbase != 0)).map (·.1)

/-- Put the 32 bytes of an event into the ring of a virtual function, or count it as lost (R271). A MOVING page holds the
write (spec/08 R160), and later events follow it. -/
def putEvent (m : Mach) (v x : Nat) : Mach :=
  let f := getVf m v
  let size := 2 ^ f.eqsize
  let w := whoOwner m (f.owner.getD 0)
  let va := f.eqbase + BitVec.ofNat 64 (32 * (f.eqtail % size))
  if !f.evDue.isEmpty || heldWrite m w va 32 then setVf m v { f with evDue := f.evDue ++ [x] }
  else if (f.eqtail + 1) % size = f.eqhead % size then setVf m v { f with eqlost := f.eqlost + 1 }
  else
    match writeVa m hiveAgent w va 32 x with
    | .ok m => setVf m v { f with eqtail := (f.eqtail + 1) % size }
    | .error _ => setVf m v { f with eqlost := f.eqlost + 1 }

/-- An event for the ring of a virtual function (R271). -/
def eventVf (m : Mach) (v : Nat) (kind cause part id va1 : Nat) : Mach :=
  putEvent m v (kind + cause * 256 + part * 65536 + id % 2 ^ 32 * 2 ^ 32 + va1 * 2 ^ 64 + m.nowt % 2 ^ 64 * 2 ^ 128)

/-- Report an ignored register write or refused entry of a virtual function (R271). -/
def report (m : Mach) (vf owner kind cause id va : Nat) : Mach := eventVf m vf kind cause ((ownerPart m owner).getD 0) id va

/-- Write the events of a virtual function that are held no longer. -/
def payEvents (m : Mach) (v : Nat) : Mach :=
  (getVf m v).evDue.foldl (fun m x => putEvent m v x) (setVf m v { getVf m v with evDue := [] })

/-- Report an event to an owner; one without a virtual function gets none. -/
def hostEvent (m : Mach) (o kind cause part id va1 : Nat) : Mach :=
  match ownerVf m o with
  | some v => eventVf m v kind cause part id va1
  | none => m

/-- Report an event to PF0: through the mailbox, and to the operator, owner 0 (spec/19 R264, R266). -/
def pf0Event (m : Mach) (kind part id : Nat) : Mach :=
  hostEvent { m with mailbox := m.mailbox ++ [(kind, id)] } 0 kind 0 part id 0

/-! ### The action table (R242, Table 17-4) -/

/-- The default entry of a cause (R240, Table 17-1). -/
def defaultAction (cause : Byte) : W32 :=
  match cause.toNat with
  | 0x1B => 0x7
  | 0x21 => 0x3
  | 0x39 => 0x8
  | 0x40 => 0x3
  | 0x41 => 0xB
  | 0x42 => 0xB
  | _ => 0

def actionEntry (m : Mach) (part : Nat) (cause : Byte) : Nat :=
  ((smGet none (getPart m part).actions cause.toNat).getD (defaultAction cause)).toNat

/-- What an entry makes of a trap. -/
inductive TrapAct where
  | kill | replay | park (tgt : Nat) | forward (tgt : Nat)
deriving DecidableEq, Repr

/-- The action of an entry for a bundle replayed `rcnt` times; a reserved value acts as kill (R242, R243). -/
def trapAct (entry rcnt : Nat) : TrapAct :=
  let tgt := entry / 4 % 4
  if 1024 ≤ entry ∨ tgt = 3 ∨ entry / 256 % 4 = 1 then .kill
  else
    match entry % 4 with
    | 0 => .kill
    | 1 =>
      if rcnt < entry / 16 % 16 then .replay
      else
        match entry / 256 % 4 with
        | 2 => .park tgt
        | 3 => .forward tgt
        | _ => .kill
    | 2 => .park tgt
    | _ => .forward tgt

/-- CAUSE.RCNT and CAUSE.TM (Table 17-2). -/
def causeRcnt (w : Word) : Nat := w.toNat / 256 % 16
def causeTm (w : Word) : Bool := w.getLsbD 12
def causeWord (tm : Bool) (rcnt : Nat) (code : Byte) : Word :=
  BitVec.ofNat 64 ((if tm then 4096 else 0) + rcnt * 256 + code.toNat)

/-- EPC (Table 17-2), and FINFO form W (Table 17-3). -/
def placeWord (pkt pos : Nat) : Word := BitVec.ofNat 64 (pkt % 2 ^ 32 + pos * 2 ^ 32)

/-! ### Ending, holding -/

/-- A context becomes Waiting; GAPCNT is set to 0 (R80). -/
def toWaiting (c : Ctx) (w : Wait) : Ctx := { c with st := .waiting, wait := some w, gapcnt := 0 }

/-- The slots and the image of a pre-emption that comes to nothing are freed (spec/19 R268). -/
def dropPre (m : Mach) (area : Nat) (pre : Option PreEmpt) : Mach :=
  match pre.bind (·.slot) with
  | some x =>
    { modPart m area (fun q => { q with imgUsed := q.imgUsed.filter (· != x.1), recUsed := q.recUsed.filter (· != x.2) }) with
      images := smDel m.images ((pre.map (·.recId)).getD 0) }
  | none => m

/-- The remainders of commands are to end CANCELLED, for a number of a core (spec/02 R40, spec/17 R256). -/
def dueRest (m : Mach) (core j : Nat) (rest : List (Nat × Cmd)) : Mach :=
  { m with restDue := m.restDue ++ rest.map (fun x => (core, x.1, { x.2 with ctx := j })) }

/-- A unit or handler begins to end with a status (spec/02 R38, spec/17 R244): the steps of R38 follow. What the weir has
stopped of its commands ends CANCELLED (R40). -/
def beginEnd (m : Mach) (core i : Nat) (e : Ending) : Mach :=
  let c := getCtx m core i
  modCtx (dueRest (dropPre m c.area c.pre) core i ((c.pre.map (·.rest)).getD [])) core i (fun c =>
    { toWaiting { c with hold := none } .ending with ending := some e, susp := none, due := [], pre := none, fill := none })

/-- Index of a context's frame and assist area in the record area (spec/19 R268). -/
def areaIndex (core i : Nat) : Nat := 16 * kOf core + i

/-- The VA of a context's trap frame; control cores have none (log 13). -/
def frameVa (m : Mach) (core i : Nat) : Option Word :=
  if isControl core then none
  else (getPart m (getCtx m core i).area).recarea.map (· + BitVec.ofNat 64 (17408 * areaIndex core i))

/-- The VA of a context's assist area (spec/07 R140). -/
def assistVa (m : Mach) (core i : Nat) : Option Word :=
  (getPart m (getCtx m core i).area).recarea.map (· + BitVec.ofNat 64 (0x4C8000 + 4096 * areaIndex core i))

/-- A number made of fields, each with its first byte. -/
def fields (xs : List (Nat × Nat)) : Nat := xs.foldl (fun acc f => acc + f.2 * 256 ^ f.1) 0

/-- Bytes 0 to 703 of the trap frame (Table 17-5); `tile` is the tile copied into it (TILEV). -/
def frameHead (c : Ctx) (tile : Option Nat) : Nat :=
  let s (n : Nat) : Scalar := if n = 0 then {} else smGet {} c.sregs n
  fields ((List.range 64).map (fun n => (8 * n, (s n).val.toNat))
    ++ [(512, (List.range 64).foldl (fun a n => if (s n).pois then a + 2 ^ n else a) 0)]
    ++ (List.range 64).map (fun n => (520 + n, (s n).cause.toNat))
    ++ [(584, (c.preds ||| 1).toNat)]
    ++ (List.range 8).map (fun n => (592 + 4 * n, (smGet 0 c.bregs n).toNat))
    ++ [(624, c.epc.toNat), (632, c.cause.toNat), (640, c.faddr.toNat), (648, c.finfo.toNat)]
    ++ [(657, match tile with | some t => 1 + 2 * t | none => 0)]
    ++ [(688, c.fmto0.toNat), (696, c.fmto1.toNat)])

/-- Data and exponent bytes of a row: undefined where no word has written the row since the unit started (R25) or a
result for it is in flight (R67). -/
def rowBytes (k : Core) (known : BitVec 256) (ix key : Nat) : BitVec 1920 × BitVec 32 :=
  if !(known.getLsbD key) || k.rowFlight.any (fun f => f.row == key) then
    (Config.freeRow ix, Config.freeExps ix)
  else (smGet 0 k.tiles key, smGet 0 k.exps key)

/-- A row of a core as a context finds it outside the issue of a bundle. -/
def rowOf (m : Mach) (core i key : Nat) : BitVec 1920 × BitVec 32 :=
  rowBytes (landRowsDue (getCore m core) m.cycle) (getCtx m core i).rowsKnown (m.fresh * 65536 + 49152 + key) key

/-- Bytes of a tile (Table 8-3): data, then exponent bytes. -/
def tileBytes (m : Mach) (core i t : Nat) : Nat :=
  fields ((List.range 64).map (fun r => (240 * r, (rowOf m core i (64 * t + r)).1.toNat))
    ++ (List.range 64).map (fun r => (15360 + 4 * r, (rowOf m core i (64 * t + r)).2.toNat)))

/-- Write a context's trap frame (R246). -/
def writeFrame (m : Mach) (core i : Nat) (va : Word) (tile : Option Nat) : Except (Byte × Word) Mach :=
  let c := getCtx m core i
  match writeVa m hiveAgent (whoOf m core i) va 1024 (frameHead c tile) with
  | .error e => .error e
  | .ok m =>
    match tile with
    | none => .ok m
    | some t => writeVa m hiveAgent (whoOf m core i) (va + 1024) 15616 (tileBytes m core i t)

/-- Bytes of a spilled start notice (spec/12 Table 12-8): PADDR, LEN and SRC hold what the context finds in s1, s2
and s3. -/
def noticeBytes (n : Notice) : Nat :=
  let x : Nat × Nat × Nat := match n.fwd with
    | some (a, b, c, _) => (a.toNat, b.toNat, c.toNat)
    | none => (n.paddr.toNat, n.len, n.src)
  n.haddr.toNat + x.1 * 2 ^ 64 + x.2.1 % 2 ^ 32 * 2 ^ 128 + x.2.2 % 2 ^ 32 * 2 ^ 160

/-- Append a start notice; a full queue spills it, a full overflow area or a core without arrival contexts
discards it (spec/02 R33, R35): the second result says whether it was discarded. DESIGN CHOICE (log 58): Table 19-1A
has no ring for a control core, so a notice that finds its queue full is discarded. -/
def pushNotice (m : Mach) (core : Nat) (n : Notice) : Mach × Bool :=
  let k := getCore m core
  if !isControl core && k.hctx = 0 then (m, true)
  else if k.notices.length < 32 && k.spilled.isEmpty then
    (setCore m core { k with notices := k.notices ++ [n], arrived := k.arrived ++ n.payload }, false)
  else if isControl core || 4096 ≤ k.spilled.length then (m, true)
  else
    let p := clusterOf core
    match (getPart m p).recarea with
    | none => (m, true)
    | some ra =>
      let va := ra + BitVec.ofNat 64 (0x5E8000 + 131072 * kOf core + 32 * (k.spillSeq % 4096))
      let w : Who := { core := core, part := p, owner := ((getPart m p).owner).getD 0 }
      let kept (m : Mach) : Mach := modCore m core (fun k => { k with spilled := k.spilled ++ [n], spillSeq := k.spillSeq + 1 })
      if heldWrite m w va 32 then
        (kept { m with recDue := m.recDue ++ [{ core := core, part := p, owner := w.owner, va := va, n := 32, x := noticeBytes n }] },
          false)
      else
        match writeVa m hiveAgent w va 32 (noticeBytes n) with
        | .ok m => (kept m, false)
        | .error _ => (m, true)

/-- The source of spec/02 R34, for a core of this package: a control core has its number of Table 1-2, 0 to 63. -/
def srcOf (m : Mach) (core : Nat) : Nat := m.number * 65536 + (if isControl core then core - 1152 else core)

/-- An asynchronous trap (R258). A notice for the control core that is discarded for a full queue is reported like any
other, and starts nothing more (log 58). -/
def asyncTrap (m : Mach) (part owner cl : Nat) (cause : Byte) (src : Nat) : Mach :=
  let m := hostEvent m owner 3 cause.toNat part src 0
  let e := actionEntry m part cause
  let p := getPart m part
  if e < 1024 ∧ e / 256 ≠ 1 ∧ e / 4 % 4 = 1 ∧ p.fwdpkt ≠ 0 then
    match pushNotice m (1152 + cl)
      { haddr := p.fwdpkt, paddr := 0, len := 0, src := 0, payload := [],
        fwd := some (0, cause.setWidth 64, BitVec.ofNat 64 src, none) } with
    | (m, true) => hostEvent m (((getPart m cl).owner).getD 0) 3 0x39 cl src 0
    | (m, false) => m
  else m

/-- A notice for a control core from one of its cluster's cores; a discarded one raises the queue trap (R35). -/
def notifyControl (m : Mach) (core : Nat) (n : Notice) : Mach :=
  let cl := clusterOf core
  match pushNotice m (1152 + cl) n with
  | (m, true) => asyncTrap m cl (((getPart m cl).owner).getD 0) cl 0x39 (srcOf m core)
  | (m, false) => m

/-- FWDPKT for a context: that of its unit's placement, a handler's as it stands (spec/19 R266). -/
def fwdOf (m : Mach) (c : Ctx) : Word := match c.unit with | some u => u.fwdpkt | none => (getPart m c.area).fwdpkt

/-- Tell the target of a forward or a park: the control core starts a context at FWDPKT with s1 = frame VA,
s2 = cause and s3 = the held core (R246); the host gets an event of KIND 2 (R271). -/
def notifyTarget (m : Mach) (core i : Nat) (cc : Bool) (va : Word) (cause : Byte) : Mach :=
  let c := getCtx m core i
  if cc then
    notifyControl m core
      { haddr := fwdOf m c, paddr := 0, len := 0, src := 0, payload := [],
        fwd := some (va, cause.setWidth 64, BitVec.ofNat 64 (srcOf m core % 65536), some (core, i)) }
  else hostEvent m (ctxOwner c) 2 cause.toNat c.area 0 va.toNat

/-- A write into the record area was refused: the unit ends FAILED with its cause, reported with KIND 2 (R268). -/
def areaRefused (m : Mach) (core i : Nat) (cause : Byte) (va : Word) : Mach :=
  let c := getCtx m core i
  beginEnd (hostEvent m (ctxOwner c) 2 cause.toNat c.area 0 va.toNat) core i (.failed cause)

/-- Write the frame that a held context owes and tell its target (R246), once its results and pending loads have landed, as at
every stop point (R70, R71, R79); a MOVING page holds the write (spec/08 R160). -/
def payFrame (m : Mach) (core i : Nat) : Mach :=
  let c := getCtx m core i
  match c.hold with
  | some h =>
    match h.owed with
    | some tile =>
      if m.cycle < c.landBy ∨ !c.pend.isEmpty ∨ heldWrite m (whoOf m core i) h.frame 16640 then m
      else
        match writeFrame m core i h.frame tile with
        | .error (x, a) => areaRefused m core i x a
        | .ok m => notifyTarget (modCtx m core i (fun c => { c with hold := some { h with owed := none } })) core i h.cc h.frame h.cause
    | none => m
  | none => m

/-- No queue holds a context as a waiter any longer (R42). -/
def leaveQueues (m : Mach) (core i : Nat) : Mach :=
  { m with queues := m.queues.map (fun e => (e.1, { e.2 with waiters := e.2.waiters.filter (· != (core, i)) })) }

/-- A request reaches an active loop: the current iteration is the last (R78). In the epilogue, where LC is 0, nothing
remains (DEDUCED, log 33). -/
def clampLoop (c : Ctx) : Ctx :=
  if c.lepi.getLsbD 63 then
    { c with lrem := if c.lc = 0 then 0 else c.lc - 1, lc := 1, lepi := c.lepi ||| BitVec.ofNat 64 (2 ^ 62) }
  else c

/-- A park is a request of pre-emption (R248, R251), unless one is pending, which then parks the context (R250). -/
def parkRequest (c : Ctx) : Ctx :=
  if c.pre.isSome then c
  else { clampLoop c with pre := some { src := .park, stopped := none, acks := 0, saved := false } }

/-- Hold a context for the control core or the host (R246), or park it (R248). A context of a control core has no
place for a frame in the record area (Table 19-1A): it is held without one (DESIGN CHOICE, log 13). -/
def holdCtx (m : Mach) (core i : Nat) (cause : Byte) (cc park : Bool) (tile : Option Nat) : Mach :=
  let hold (h : Hold) : Mach :=
    modCtx m core i (fun c =>
      let c := { toWaiting c .held with hold := some h }
      if h.park then parkRequest c else c)
  match frameVa m core i with
  | none =>
    if isControl core then notifyTarget (hold { frame := 0, cause := cause, park := false, cc := cc, framed := false }) core i cc 0 cause
    else beginEnd m core i (.failed cause)
  | some va =>
    payFrame (hold { frame := va, cause := cause, park := park && !(getCtx m core i).arr, cc := cc, owed := some tile }) core i

/-- Forward to the own trap context (R245): trap mode, PC at TRAPBASE; kill without TRAPBASE or in trap mode. -/
def forwardOwn (m : Mach) (core i : Nat) (cause : Byte) : Mach :=
  let c := getCtx m core i
  if c.trapbase.toNat % 2 ^ 32 = 0 ∨ causeTm c.cause then beginEnd m core i (.failed cause)
  else
    modCtx m core i (fun c =>
      { c with cause := causeWord true (causeRcnt c.cause) cause, pc := c.trapbase.setWidth 32, wpos := 0, st := .ready, wait := none })

/-- TAKING A TRAP (R239, R241, R242): the exposed results land (R71), and the context waits in no queue any longer (R42);
CAUSE.CODE, EPC, FADDR and FINFO are set;
then the action table of the context's partition kills, replays, parks or forwards. EPC names the bundle at
`pkt`, `pos`, from which the context goes on. -/
def trapEnter (m : Mach) (core i : Nat) (cause : Byte) (faddr finfo : Word) (pkt pos : Nat) (tile : Option Nat) : Mach :=
  let m := modCtx (leaveQueues (settle m core i) core i) core i (fun c =>
    { c with
      cause := causeWord (causeTm c.cause) (causeRcnt c.cause) cause
      epc := placeWord pkt pos
      faddr := faddr
      finfo := finfo
      pc := BitVec.ofNat 32 pkt
      wpos := pos
      fill := none
      skipBp := false
      stallCycles := 0 })
  let c := getCtx m core i
  match trapAct (actionEntry m c.area cause) (causeRcnt c.cause) with
  | .kill => beginEnd m core i (.failed cause)
  | .replay =>
    modCtx m core i (fun c =>
      { toWaiting c .replay with
        cause := causeWord (causeTm c.cause) (causeRcnt c.cause + 1) cause
        replayAt := m.cycle + 256 })
  | .forward 0 => forwardOwn m core i cause
  | .forward t =>
    if t = 1 ∧ fwdOf m c = 0 then beginEnd m core i (.failed cause)
    else holdCtx m core i cause (decide (t = 1)) false tile
  | .park t => holdCtx m core i cause (decide (t = 1) && fwdOf m c != 0) true tile

/-- The word being issued raises a trap (R8, R239): its bundle does not complete. -/
def trapAt (m : Mach) (cause : Byte) (faddr finfo : Word) (tile : Option Nat) : Mach :=
  let m := trapEnter m m.iss.core m.iss.ctx cause faddr finfo m.iss.pkt0 m.iss.pos0 tile
  { m with iss := { m.iss with trapped := true } }

/-- FINFO of the word being issued, form W. -/
def finfoHere (m : Mach) : Word := placeWord m.iss.pkt m.iss.pos

/-- A trap of the word being issued with FINFO form W and no address. -/
def trapW (m : Mach) (cause : Byte) : Mach := trapAt m cause 0 (finfoHere m) none

/-- A trap of the word being issued with FINFO form W and an address. -/
def trapA (m : Mach) (cause : Byte) (addr : Word) : Mach := trapAt m cause addr (finfoHere m) none

/-- poison-consumed (0x20), FINFO form P. -/
def trapPoison (m : Mach) (s : Scalar) : Mach := trapAt m 0x20 0 (s.cause.setWidth 64) none

/-- Hold the bundle being issued: it issues again from its first word. -/
def holdBundle (m : Mach) (f : Ctx → Ctx) : Mach :=
  let m := onIss m (fun c => f { c with pc := BitVec.ofNat 32 m.iss.pkt0, wpos := m.iss.pos0 })
  { m with iss := { m.iss with held := true } }

/-- The bundle stalls (R28, R70). -/
def stallBundle (m : Mach) : Mach := holdBundle m (fun c => { c with st := .stalled, retry := false })

/-- The bundle waits (R29). -/
def waitBundle (m : Mach) (w : Wait) : Mach := holdBundle m (fun c => toWaiting c w)

/-! ### Returns from a trap (R247, R249) -/

/-- b.eret in trap mode: CAUSE.TM := 0, the next bundle begins at EPC. -/
def eretOwn (c : Ctx) : Ctx :=
  { c with
    cause := causeWord false (causeRcnt c.cause) (c.cause.setWidth 8)
    pc := c.epc.setWidth 32
    wpos := c.epc.toNat / 2 ^ 32 % 4 }

/-- The defined bits of FMTO (spec/07 Table 7-4). -/
def fmtoMask : Word := 0xFFFF07FF

/-- The registers that a release reloads from bytes 0 to 703 of a frame (R247). -/
def reloadFrame (c : Ctx) (x : Nat) : Ctx :=
  let at8 (o : Nat) : Nat := x / 256 ^ o % 2 ^ 64
  let s (n : Nat) : Scalar :=
    { val := BitVec.ofNat 64 (at8 (8 * n))
      pois := at8 512 / 2 ^ n % 2 == 1
      cause := BitVec.ofNat 8 (if at8 512 / 2 ^ n % 2 = 1 then x / 256 ^ (520 + n) % 256 else 0) }
  { c with
    sregs := (List.range 63).foldl (fun r n => smPut {} r (n + 1) (s (n + 1))) []
    preds := BitVec.ofNat 8 (x / 256 ^ 584 % 256)
    bregs := (List.range 8).foldl (fun r n => smPut 0 r n (BitVec.ofNat 32 (x / 256 ^ (592 + 4 * n)))) []
    fmto0 := BitVec.ofNat 64 (at8 688) &&& fmtoMask
    fmto1 := BitVec.ofNat 64 (at8 696) &&& fmtoMask
    flight := [] }

/-- Does a type of a tile have 120 lanes (spec/07 Table 7-5)? -/
def acct (prec : Word) : Nat := bits prec.toNat 18 16
def isA16 (prec : Word) : Bool := acct prec == 3 || acct prec == 4
def laneCount (prec : Word) : Nat := if isA16 prec then 120 else 60
def laneWidth (prec : Word) : Nat := if isA16 prec then 16 else 32

/-- Replace one lane of a row's data. -/
def setLaneBits (row : BitVec 1920) (w lane x : Nat) : BitVec 1920 :=
  let old := row.toNat / 2 ^ (w * lane) % 2 ^ w
  BitVec.ofNat 1920 (row.toNat - old * 2 ^ (w * lane) + x % 2 ^ w * 2 ^ (w * lane))

/-- Mark rows as written by a context, and as known to every context of the core (R253, R25). -/
def markRows (k : Core) (i : Nat) (rows : BitVec 256) : Core :=
  { k with ctxs := k.ctxs.map (fun e =>
      (e.1, { e.2 with rowsKnown := e.2.rowsKnown ||| rows
                       rowMark := if e.1 = i then e.2.rowMark ||| rows else e.2.rowMark })) }

/-- Apply one patch entry (R247): false when it names a lane or tile that is not there. -/
def patchLane (m : Mach) (core i : Nat) (x : Nat) : Mach × Bool :=
  let c := getCtx m core i
  let k := getCore m core
  let lane := x / 2 ^ 32 % 128
  let row := x / 2 ^ 40 % 64
  let t := x / 2 ^ 46 % 4
  if k.partw.toNat / 16 % 4 < t ∨ laneCount (precOf c t) ≤ lane then (m, false)
  else
    let key := 64 * t + row
    let r := rowOf m core i key
    let k := pokeRow (landRowsDue k m.cycle) key (setLaneBits r.1 (laneWidth (precOf c t)) lane (x % 2 ^ 32)) r.2
    (setCore m core (markRows k i (BitVec.ofNat 256 (2 ^ key))), true)

/-- Apply patch entries in list order, up to the first that is bad. -/
def patchAll (m : Mach) (core i : Nat) (x : Nat) : Nat → Mach × Bool
  | 0 => (m, true)
  | n + 1 =>
    match patchLane m core i (x % 2 ^ 64) with
    | (m, true) => patchAll m core i (x / 2 ^ 64) n
    | (m, false) => (m, false)

/-- Was a context stopped before a bundle by a hardware breakpoint, whose FINFO names that bundle (R257)? -/
def bpStopped (c : Ctx) : Bool := c.cause.toNat % 256 == 0x41 && c.finfo == c.epc

/-- Resume as RSEL directs (R247): 0 the EPC bundle, 1 the bundle after it, 2 packet RPKT, 3 kill. The bundle
after a faulting one is found when the context next fetches; `after` is its place. A hardware breakpoint does not
match the bundle that its release issues (R257). -/
def resumeSel (m : Mach) (core i : Nat) (rsel rpkt : Nat) (after : Nat × Nat) : Mach :=
  let c := getCtx m core i
  let cause := c.cause.setWidth 8
  let m := modCtx (dropPre m c.area c.pre) core i (fun c =>
    { c with st := .ready, wait := none, hold := none, pre := none, since := m.step, skipBp := false, stallCycles := 0 })
  match rsel with
  | 0 => modCtx m core i (fun c =>
      { c with pc := c.epc.setWidth 32, wpos := c.epc.toNat / 2 ^ 32 % 4, skipBp := bpStopped c })
  | 1 => modCtx m core i (fun c => { c with pc := BitVec.ofNat 32 after.1, wpos := after.2 })
  | 2 => modCtx m core i (fun c => { c with pc := BitVec.ofNat 32 rpkt, wpos := 0 })
  | _ => beginEnd m core i (.failed cause)

/-- A release (R247) of the context held with a frame: reads the frame and its patch list with the releasing
agent's translation and views, as its loads do, and then checks RSEL; a refusal leaves the context held and answers its
cause and address. `after` finds the bundle after the one at EPC. -/
def releaseFrame (m : Mach) (ag : Nat) (w : Who) (core i : Nat) (va : Word) (after : Mach → Nat × Nat) :
    Except (Byte × Word) Mach :=
  match readVaAs m ag w va 704 with
  | .error e => .error e
  | .ok x =>
    let rsel := x / 256 ^ 656 % 256
    let count := min (x / 256 ^ 680 % 2 ^ 32) 7680
    let plist : Word := BitVec.ofNat 64 (x / 256 ^ 672 % 2 ^ 64)
    let m := vaViews m ag w va 705 704
    match readVaAs m ag w plist (8 * count) with
    | .error e => .error e
    | .ok ps =>
      if 4 ≤ rsel then .error (0x1A, 0)
      else
        let m := vaViews m ag w plist (8 * count + 1) (8 * count)
        let m := modCtx m core i (fun c => reloadFrame c x)
        match patchAll m core i ps count with
        | (m, false) => .ok (beginEnd (modCtx m core i (fun c => { c with hold := none })) core i (.failed 0x1A))
        | (m, true) => .ok (resumeSel m core i rsel (x / 256 ^ 664 % 2 ^ 32) (after m))

end Sys2Proof.Machine
end

