-- ==== Sys2Proof/WellFormed.lean ====
section
/-!
DEFINITION. The values of named fields that spec/05_formats_opcodes.md Table 5-14 makes illegal, whatever the
context: a word that breaks one raises illegal-encoding (0x01) at step 3 of R85. What depends on the bundle
(K words, b.call and b.loop ending their packet) or on the core (R9) is checked in Machine/Fetch.lean.
-/

namespace Sys2Proof

/-- The numbers of the state-register map (spec/04_core_model.md R73, Table 4-4). -/
def isStateRegister (n : Nat) : Bool :=
  n ≤ 6 || (8 ≤ n && n ≤ 0xB) || (0x10 ≤ n && n ≤ 0x13) || (0x18 ≤ n && n ≤ 0x1F)
    || (0x20 ≤ n && n ≤ 0x25) || (0x30 ≤ n && n ≤ 0x34) || (0x40 ≤ n && n ≤ 0x42) || n == 0x48
    || n == 0x50 || n == 0x60 || n == 0x61 || (0x70 ≤ n && n ≤ 0x72)

/-- Is a scalar number even (the pairs of a 16-byte access, R91)? -/
def isEven (r : BitVec 6) : Bool := r.toNat % 2 == 0

/-- The checks of Table 5-14 on the named fields of one word. An event has no encoding to check. -/
def wellFormed : Instr → Bool
  | .xCmp _ _ k _ _ _ => k.toNat != 7
  | .xFcvt _ _ _ k => k.toNat ≤ 4
  | .lLd _ d _ s _ _ => s.toNat ≤ 4 && (s.toNat != 4 || isEven d)
  | .lSt _ d _ s _ => s.toNat ≤ 4 && (s.toNat != 4 || isEven d)
  | .lVst _ _ _ _ _ f => f.toNat != 3
  | .lCas _ d _ b z => !z || (isEven d && isEven b)
  | .vMov _ _ _ _ u => u.toNat < 4
  | .vCvt _ _ _ _ k => k.toNat ≤ 5
  | .bFence _ p s x => p.toNat != 0 && s.toNat != 0 && x.toNat ≤ 4
  | .bLadder _ _ _ _ _ k => k.toNat ≤ 4
  | .bLoop _ n b _ p => n.toNat != 0 && b.toNat != 0 && p.toNat != 0
  | .bPush _ _ b l _ => !l || b.toNat == 0
  | .bSusp _ k _ _ _ => k.toNat ≤ 4
  | .bCancel _ l => l.toNat ≤ 4
  | .bWait _ k _ _ => 1 ≤ k.toNat && k.toNat ≤ 4
  | .bRdst _ _ s => isStateRegister s.toNat
  | .bWrst _ _ s => isStateRegister s.toNat
  | _ => true

end Sys2Proof
end

