-- ==== Sys2Proof/Machine/Fetch.lean ====
section
/-!
DEFINITION. Fetching a bundle (spec/04_core_model.md R62, R65, spec/11_ordering_machine.md R405), its checks in
the order of spec/05_formats_opcodes.md R85 (with R9, R63, R66, R73, R86, R87, R98, R99, R284), and the
registers its words read and write (R70, R98).
-/

namespace Sys2Proof.Machine

/-- A fetched word and its place. -/
structure FWord where
  raw : Nat
  pkt : Nat
  pos : Nat
deriving DecidableEq, Repr

/-- The address of a word of a context's code: 12-byte packets from CSB (R62). -/
def wordVa (c : Ctx) (pkt pos : Nat) : Word := c.csb + BitVec.ofNat 64 (12 * pkt + 4 * pos)

/-- The place after a word. -/
def nextPlace (pkt pos : Nat) : Nat × Nat := if pos = 2 then ((pkt + 1) % 2 ^ 32, 0) else (pkt, pos + 1)

/-- The history position a fetch reads a granule at: any from the newest one that the start or last resumption
of the context found, up to the newest now (R405). -/
def fetchPos (m : Mach) (c : Ctx) (g ix : Nat) : Nat :=
  let lo := posAtStep m g c.since
  let hi := newestPos m g
  if hi ≤ lo then hi else lo + Config.freeIndex ix % (hi - lo + 1)

/-- The free choice of the position at which the fetch of a packet reads a granule: the words of the packet in it are
read at one (R405). -/
def fetchIx (m : Mach) (pkt g : Nat) : Nat := m.fresh * 65536 + 61440 + pkt % 64 * 64 + g / 16 % 64

/-- What fetching a bundle gives, with the cached translations it met. -/
inductive FetchRes where
  | ok (ws : List FWord)
  | fault (cause : Byte) (faddr finfo : Word)
  | miss (q : Miss)
deriving DecidableEq, Repr

/-- Fetch one word. A refused fetch raises translation-permission with the packet's address (R65); an
uncorrectable granule raises check (spec/19_system.md R278). -/
def fetchWord (m : Mach) (core i pkt pos : Nat) : Except FetchRes Nat × Option Tr :=
  let c := getCtx m core i
  match xlate m (whoOf m core i) (wordVa c pkt pos) 4 accFetch with
  | (.ok pa _ _, t) =>
    let g := pa / 16 * 16
    match poolRefuses m pa 4 true with
    | some cause => (.error (.fault cause (wordVa c pkt 0) (if cause = causePerm then finfoT 7 3 else placeWord pkt pos)), t)
    | none =>
      if g < 0x8000000000 then
        (.ok (granBytes (seenGran m (pageKey m c.area (wordVa c pkt pos)) g (contentAt m g (fetchPos m c g (fetchIx m pkt g)))) (pa % 16) 4), t)
      else (.ok (readNow m pa 4), t)
  | (.miss q, t) => (.error (.miss q), t)
  | (.fault cause f, t) =>
    (.error (if cause = 0x19 then .fault 0x19 (wordVa c pkt 0) (placeWord pkt pos) else .fault causePerm (wordVa c pkt 0) f), t)
  | (.absent _, t) => (.error (.fault causePerm (wordVa c pkt 0) (finfoT 7 3)), t)
  | (_, t) => (.error (.fault causePerm (wordVa c pkt 0) (finfoT 7 2)), t)

/-- Fetch words up to the one with C = 0, at most nine (R63). -/
def fetchFrom (m : Mach) (core i : Nat) : Nat → Nat → Nat → FetchRes × List Tr
  | 0, _, _ => (.ok [], [])
  | fuel + 1, pkt, pos =>
    let (r, t) := fetchWord m core i pkt pos
    match r with
    | .error e => (e, t.toList)
    | .ok w =>
      if w / 2 ^ 31 % 2 = 0 then (.ok [⟨w, pkt, pos⟩], t.toList)
      else
        let (p', q') := nextPlace pkt pos
        let (rest, ts) := fetchFrom m core i fuel p' q'
        match rest with
        | .ok ws => (.ok (⟨w, pkt, pos⟩ :: ws), t.toList ++ ts)
        | e => (e, t.toList ++ ts)

/-- The bundle at a context's PC. -/
def fetchBundle (m : Mach) (core i : Nat) : FetchRes × List Tr :=
  let c := getCtx m core i
  fetchFrom m core i 9 c.pc.toNat c.wpos

/-! ### R85, checks 1 and 2 -/

def pipeOf (w : Nat) : Nat := bits w 30 28

/-- How many words of a pipe stand before index `k`. -/
def pipeBefore (ws : List FWord) (pipe k : Nat) : Nat := ((ws.take k).filter (fun w => pipeOf w.raw == pipe)).length

/-- Check 2 for the word at an index (R63): the ninth word, a third X or K word, a second of L, V, M or B, a K
word as the last. Of a bundle of more than eight words it is the ninth that R63 names, whatever stands before it
(DEDUCED, log 59: R85 says that FINFO names the first word that fails). -/
def slotBad (ws : List FWord) (k : Nat) (w : FWord) : Bool :=
  let p := pipeOf w.raw
  if 8 < ws.length then k == 8
  else (if p = 0 ∨ p = 5 then 2 ≤ pipeBefore ws p k else 1 ≤ pipeBefore ws p k) || (p == 5 && (k + 1 == ws.length))

/-- The first word that fails a check. -/
def firstBad (ws : List FWord) (bad : Nat → FWord → Bool) : Option FWord :=
  (ws.zipIdx.find? (fun e => bad e.2 e.1)).map (·.1)

/-! ### R85, check 3 -/

/-- The number of K words that stand right before an index. -/
def kRun (ws : List FWord) (k : Nat) : Nat :=
  ((ws.take k).reverse.takeWhile (fun w => pipeOf w.raw == 5)).length

/-- The host of a K word at an index: the first word after it that is no K word. -/
def kHost (ws : List FWord) (k : Nat) : Option FWord := (ws.drop k).find? (fun w => pipeOf w.raw != 5)

/-- Does a word accept K words (Table 5-3): an X word marked K in Table 5-5 with I = 1, b.tgt, an engine command? Its
other fields do not count: a bad one is the word's own fault. -/
def acceptsK (w : Nat) : Bool :=
  match pipeOf w with
  | 0 => bits w 6 6 == 1 && [1, 2, 3, 4, 5, 6, 7, 8, 9, 13, 14, 18].contains (bits w 24 19)
  | 1 => 9 ≤ bits w 24 19 && bits w 24 19 ≤ 14
  | 4 => bits w 24 20 == 5
  | _ => false

/-- The engine commands, which take exactly one K word (R89). -/
def isEngineWord : Instr → Bool
  | .lCopy .. | .lGath .. | .lRld .. | .lRst .. | .lRred .. | .lMcast .. => true
  | _ => false

/-- The L words that a control core refuses (spec/21_reference_l_m.md Table 21-1, R313). -/
def controlRefuses : Instr → Bool
  | .lVld .. | .lVst .. | .lRadd .. | .lAlloc .. | .lFree .. | .lRenew .. | .lRld .. | .lRst .. | .lRred ..
  | .lMcast .. | .lStash .. => true
  | .bWrst _ _ s => 0x10 ≤ s.toNat && s.toNat ≤ 0x13
  | _ => false

/-- Does a word have to end its packet (R75, R76)? -/
def endsPacket : Instr → Bool
  | .bCall .. | .bLoop .. => true
  | _ => false

/-- Check 3 for the word at an index. A K word before a word that does not accept it fails itself (R87). -/
def bodyBad (control : Bool) (ws : List FWord) (k : Nat) (w : FWord) : Bool :=
  match decodeNat w.raw with
  | .error _ => true
  | .ok i =>
    !wellFormed i
      || (control && (pipeOf w.raw == 2 || pipeOf w.raw == 3 || controlRefuses i))
      || (match i with
          | .kImm _ =>
            match kHost ws k with
            | some h => !(acceptsK h.raw)
            | none => true
          | .bTgt _ _ o => kRun ws k != 0 && bits o.toNat 16 6 != 0
          | j =>
            (isEngineWord j && kRun ws k != 1)
              || (endsPacket j && (match ws.getLast? with | some l => l.pos != 2 | none => true)))

/-! ### R85, check 4: Table 5-13 -/

/-- What a word writes, for the check of duplicate destinations (R86, R98). -/
inductive Dest where
  | reg (d : Dst)
  | row (key : Nat)
  | sreg (n : Nat)
deriving DecidableEq, Repr

/-- A tile row as one number. -/
def rowKey (t : BitVec 2) (r : BitVec 6) : Nat := 64 * t.toNat + r.toNat

/-- A scalar destination, unless it is s0. -/
def dS (d : BitVec 6) : List Dest := if d = 0 then [] else [.reg (.s d)]
def dP (p : BitVec 3) : List Dest := if p = 0 then [] else [.reg (.p p)]

/-- Table 5-13. -/
def dests : Instr → List Dest
  | .xAdd _ d _ _ _ | .xSub _ d _ _ _ | .xMul _ d _ _ _ | .xMulh _ d _ _ _ | .xDiv _ d _ _ _ | .xRem _ d _ _ _
  | .xAnd _ d _ _ _ | .xOr _ d _ _ _ | .xXor _ d _ _ _ | .xShl _ d _ _ _ | .xShr _ d _ _ _ | .xSar _ d _ _ _
  | .xMin _ d _ _ _ | .xMax _ d _ _ _ | .xSext _ d _ _ _ => dS d
  | .xClz _ d _ | .xPcnt _ d _ => dS d
  | .xFadd _ d _ _ | .xFmul _ d _ _ | .xFmax _ d _ _ | .xFcvt _ d _ _ => dS d
  | .xCmp _ p _ _ _ _ => dP p
  | .xPand _ p _ _ _ _ | .xPor _ p _ _ _ _ | .xPxor _ p _ _ _ _ => dP p
  | .lLd _ d _ s _ _ => dS d ++ (if s = 4 then dS (d + 1) else [])
  | .lCas _ d _ _ z => dS d ++ (if z then dS (d + 1) else [])
  | .lAmoAdd _ d _ _ _ | .lAmoAnd _ d _ _ _ | .lAmoOr _ d _ _ _ | .lAmoXor _ d _ _ _ | .lAmoMin _ d _ _ _
  | .lAmoMax _ d _ _ _ | .lAmoSwap _ d _ _ _ => dS d
  | .lAlloc _ d _ _ | .lWin _ d _ _ | .lCopy _ d _ _ | .lGath _ d _ _ | .lRld _ d _ _ | .lRst _ d _ _
  | .lRred _ d _ _ | .lMcast _ d _ _ => dS d
  | .lVld _ t r _ _ => [.row (rowKey t r)]
  | .vAdd _ t d _ _ | .vSub _ t d _ _ | .vMul _ t d _ _ | .vFma _ t d _ _ | .vMax _ t d _ _ | .vMin _ t d _ _
  | .vCvt _ t d _ _ | .vCmpLt _ t d _ _ | .vCmpLe _ t d _ _ | .vCmpEq _ t d _ _ | .vSel _ t d _ _
  | .vGet _ t d _ _ | .vPut _ t d _ _ | .vMov _ t d _ _ | .vPerm _ t d _ _ | .vAnd _ t d _ _ | .vOr _ t d _ _
  | .vXor _ t d _ _ => [.row (rowKey t d)]
  | .vNeg _ t d _ | .vAbs _ t d _ | .vExp2 _ t d _ | .vLog2 _ t d _ | .vRcp _ t d _ | .vRsqrt _ t d _
  | .vRmax _ t d _ | .vRsum _ t d _ | .vBcast _ t d _ => [.row (rowKey t d)]
  | .bCall _ _ => [.reg (.b 0)]
  | .bTgt _ k _ => [.reg (.b k)]
  | .bRdst _ d _ | .bLaunch _ d _ | .bShut _ d _ => dS d
  | .bPop _ d _ _ p => dS d ++ dP p
  | .bPush _ _ _ _ p => dP p
  | .mPrec _ t _ _ => [.sreg (0x10 + t.toNat)]
  | .bWrst _ _ s => [.sreg s.toNat]
  | _ => []

/-- What the words before an index write. -/
def destsBefore (ws : List FWord) (k : Nat) : List Dest :=
  ((ws.take k).map (fun w => match decodeNat w.raw with | .ok i => dests i | .error _ => [])).flatten

/-- Check 4 for the word at an index. -/
def destBad (ws : List FWord) (k : Nat) (w : FWord) : Bool :=
  match decodeNat w.raw with
  | .ok i => (dests i).any (fun d => (destsBefore ws k).contains d)
  | .error _ => false

/-! ### R85, check 5 -/

/-- The state registers that a unit or arrival context may write (R73). -/
def writableState (n : Nat) : Bool :=
  n == 0xA || (0x10 ≤ n && n ≤ 0x13) || n == 0x34 || n == 0x41 || n == 0x42

/-- The state registers that a control core's context may write (R284). -/
def writableControl (n : Nat) : Bool := n == 0xA || n == 0x34 || n == 0x41 || n == 0x42 || n == 0x50

/-- The guard of an instruction word; a K word follows its host. -/
def guardOf (raw : Nat) : BitVec 3 := if pipeOf raw = 5 then 0 else fld 3 raw 25

/-- Check 5: does a word lack the privilege it needs? -/
def privBad (control : Bool) (i : Instr) : Bool :=
  match i with
  | .lWin .. => !control
  | .bRdst _ _ s => !control && s.toNat == 0x50
  | .bWrst _ _ s => if control then !writableControl s.toNat else !writableState s.toNat
  | _ => false

/-- Check 5: the first word that lacks a privilege, its guard true or still pending, and which of the two. `guard` is the
guard of the word at a place, none while it is pending (R70). -/
def privFirst (control : Bool) (ws : List FWord) (guard : Nat → BitVec 3 → Option Bool) : Option (FWord × Bool) :=
  (ws.zipIdx.find? (fun e =>
      guard e.2 (guardOf e.1.raw) != some false
        && (match decodeNat e.1.raw with | .ok i => privBad control i | .error _ => false))).map
    (fun e => (e.1, guard e.2 (guardOf e.1.raw) == some true))

/-- Can check 5 not be made yet, for a pending guard? The bundle stalls before it (R70). -/
def privWaits (control : Bool) (ws : List FWord) (guard : Nat → BitVec 3 → Option Bool) : Bool :=
  match privFirst control ws guard with | some (_, known) => !known | none => false

/-- The fault of the first failing check of R85, as its cause and the word that FINFO names. -/
def bundleFault (control : Bool) (ws : List FWord) (guard : Nat → BitVec 3 → Option Bool) : Option (Byte × FWord) :=
  match firstBad ws (fun _ w => 6 ≤ pipeOf w.raw) with
  | some w => some (0x01, w)
  | none =>
    match firstBad ws (slotBad ws) with
    | some w => some (0x02, w)
    | none =>
      match firstBad ws (bodyBad control ws) with
      | some w => some (0x01, w)
      | none =>
        match firstBad ws (destBad ws) with
        | some w => some (0x02, w)
        | none =>
          match privFirst control ws guard with
          | some (w, true) => some (0x03, w)
          | _ => none

/-! ### What words read (R70) -/

/-- Source scalars and predicates of a word whose guard is true. -/
def sources : Instr → List Dst
  | .xAdd _ _ a i b | .xSub _ _ a i b | .xMul _ _ a i b | .xMulh _ _ a i b | .xDiv _ _ a i b | .xRem _ _ a i b
  | .xAnd _ _ a i b | .xOr _ _ a i b | .xXor _ _ a i b | .xShl _ _ a i b | .xShr _ _ a i b | .xSar _ _ a i b
  | .xMin _ _ a i b | .xMax _ _ a i b | .xSext _ _ a i b => .s a :: (if i then [] else [.s b])
  | .xCmp _ _ _ a i b => .s a :: (if i then [] else [.s b])
  | .xClz _ _ a | .xPcnt _ _ a | .xFcvt _ _ a _ | .xChk _ a => [.s a]
  | .xFadd _ _ a b | .xFmul _ _ a b | .xFmax _ _ a b => [.s a, .s b]
  | .xPand _ _ _ a b _ | .xPor _ _ _ a b _ | .xPxor _ _ _ a b _ => [.p a, .p b]
  | .lLd _ _ a _ _ _ | .lVld _ _ _ a _ | .lVst _ _ _ a _ _ | .lRadd _ _ _ a _ | .lFree _ a => [.s a]
  | .lSt _ d a s _ => [.s a, .s d] ++ (if s = 4 then [.s (d + 1)] else [])
  | .lCas _ d a b z => [.s a, .s d, .s b] ++ (if z then [.s (d + 1), .s (b + 1)] else [])
  | .lAlloc _ _ a b | .lRenew _ a b | .lStash _ _ a b | .lWin _ _ a b => [.s a, .s b]
  | .lCopy _ d a b | .lGath _ d a b | .lRld _ d a b | .lRst _ d a b | .lRred _ d a b | .lMcast _ d a b =>
    [.s a, .s b, .s d]
  | .lAmoAdd _ _ a b _ | .lAmoAnd _ _ a b _ | .lAmoOr _ _ a b _ | .lAmoXor _ _ a b _ | .lAmoMin _ _ a b _
  | .lAmoMax _ _ a b _ | .lAmoSwap _ _ a b _ => [.s a, .s b]
  | .vBcast _ _ _ a => [.s a]
  | .vGet _ _ _ _ b => [.s b]
  | .vPut _ _ _ a b => [.s a, .s b]
  | .mPrec _ _ a _ | .mShape _ _ a => [.s a]
  | .mPush _ _ a w _ _ _ => if w then [] else [.s a]
  | .mFeed _ _ _ a w _ _ _ => if w then [] else [.s a]
  | .bLadder _ p q u v _ => [.p p, .p q, .p u, .p v]
  | .bLoop _ n _ _ _ => [.s n]
  | .bOpen _ a b => [.s a, .s b]
  | .bShut _ _ a | .bTwait _ _ a | .bArm _ _ a | .bPop _ _ a _ _ | .bLaunch _ _ a | .bPost _ _ _ a | .bWrst _ a _ => [.s a]
  | .bPush _ a b l _ => .s a :: (if l then [] else [.s b])
  | .bSusp _ k a b _ => [.s a, .s 1, .s 63] ++ (if k = 1 ∨ k = 2 then [.s b] else [])
  | .bWait _ k a b => .s a :: (if k = 1 ∨ k = 2 then [.s b] else [])
  | _ => []

/-- All rows of a tile. -/
def tileRows (t : BitVec 2) : List Nat := (List.range 64).map (fun r => 64 * t.toNat + r)

/-- Tile rows that a word reads. -/
def rowSources : Instr → List Nat
  | .vAdd _ t _ a b | .vSub _ t _ a b | .vMul _ t _ a b | .vMax _ t _ a b | .vMin _ t _ a b | .vCmpLt _ t _ a b
  | .vCmpLe _ t _ a b | .vCmpEq _ t _ a b | .vPerm _ t _ a b | .vAnd _ t _ a b | .vOr _ t _ a b
  | .vXor _ t _ a b => [rowKey t a, rowKey t b]
  | .vFma _ t d a b | .vSel _ t d a b => [rowKey t d, rowKey t a, rowKey t b]
  | .vNeg _ t _ a | .vAbs _ t _ a | .vExp2 _ t _ a | .vLog2 _ t _ a | .vRcp _ t _ a | .vRsqrt _ t _ a
  | .vRmax _ t _ a | .vRsum _ t _ a => [rowKey t a]
  | .vCvt _ t _ a _ | .vGet _ t _ a _ => [rowKey t a]
  | .vPut _ t d _ _ => [rowKey t d]
  | .vMov _ _ _ a u => [rowKey (u.setWidth 2) a]
  | .lVst _ t r _ _ _ | .lRadd _ t r _ _ => [rowKey t r]
  | .lStash _ t _ _ => tileRows t
  | .mDrain _ t _ _ _ => tileRows t
  | _ => []

/-- Does a pending result of the context hold the registers or rows that a word touches (R70)? -/
def pendHolds (c : Ctx) (regs : List Dst) (rows : List Nat) : Bool :=
  c.pend.any (fun p => p.dst.any regs.contains || (match p.use with | .row r => rows.contains r | _ => false))

/-- Must a decoded word wait for a pending result (R70)? A false guard reads and writes nothing (R66). -/
def wordStalls (c : Ctx) (guard : BitVec 3 → Bool) (raw : Nat) (i : Instr) : Bool :=
  let g := guardOf raw
  pendHolds c (if g = 0 then [] else [.p g]) []
    || (guard g && pendHolds c
        (sources i ++ (dests i).filterMap (fun d => match d with | .reg r => some r | _ => none))
        (rowSources i ++ (dests i).filterMap (fun d => match d with | .row r => some r | _ => none)))

end Sys2Proof.Machine
end

