-- ==== Sys2Proof/Machine/Num.lean ====
section
/-!
DEFINITION. Exact values, rounding and conversion (spec/07_number_formats.md R121 to R124, R128, R129;
spec/00_scope.md R7, R8; the functions of spec/07 R139). A finite value is held exactly as ±(p/q) × 2^e.
-/

namespace Sys2Proof.Machine

/-- An exact value. A NaN carries its sign and its payload, left-aligned in 23 bits (R128). -/
inductive Val where
  | nan (neg : Bool) (payload : Nat)
  | inf (neg : Bool)
  | num (neg : Bool) (p q : Nat) (e : Int)
deriving DecidableEq, Repr, Inhabited

/-- 2^k for k ≥ 0, else 1. -/
def pow2 (k : Int) : Nat := 2 ^ k.toNat

/-- n / d to the nearest integer, ties to even (R8). -/
def rneDiv (n d : Nat) : Nat :=
  let k := n / d
  let r := n % d
  if d < 2 * r ∨ (2 * r = d ∧ k % 2 = 1) then k + 1 else k

/-- (p/q) × 2^e as numerator and denominator. -/
def ratio (p q : Nat) (e : Int) : Nat × Nat := (p * pow2 e, q * pow2 (-e))

/-- floor(log2((p/q) × 2^e)) for p > 0. -/
def ilog2 (p q : Nat) (e : Int) : Int :=
  let l : Int := (Nat.log2 p : Int) - (Nat.log2 q : Int)
  let (n, d) := ratio p q (-l)
  if d ≤ n then l + e else l - 1 + e

/-- The finite value of an integer times 2^e. -/
def valOfInt (x : Int) (e : Int) : Val := .num (decide (x < 0)) x.natAbs 1 e

/-- The sign of a value. -/
def valNeg : Val → Bool
  | .nan s _ => s
  | .inf s => s
  | .num s _ _ _ => s

def valIsZero : Val → Bool
  | .num _ p _ _ => p == 0
  | _ => false

def valIsNan : Val → Bool
  | .nan _ _ => true
  | _ => false

/-- −x. -/
def valNegate : Val → Val
  | .nan s p => .nan (!s) p
  | .inf s => .inf (!s)
  | .num s p q e => .num (!s) p q e

def valAbs : Val → Val
  | .nan _ p => .nan false p
  | .inf _ => .inf false
  | .num _ p q e => .num false p q e

/-- The exact sum of two finite values, as a signed ratio: numerator, denominator, exponent. -/
def sumParts (s1 : Bool) (p1 q1 : Nat) (e1 : Int) (s2 : Bool) (p2 q2 : Nat) (e2 : Int) : Int × Nat × Int :=
  let e := min e1 e2
  let a : Int := (p1 * pow2 (e1 - e) * q2 : Nat)
  let b : Int := (p2 * pow2 (e2 - e) * q1 : Nat)
  ((if s1 then -a else a) + (if s2 then -b else b), q1 * q2, e)

/-- x + y exactly. NaN for a NaN source and for ∞ − ∞ (R139); a zero sum is −0 only of two −0. -/
def valAdd (x y : Val) : Val :=
  match x, y with
  | .nan s p, _ => .nan s p
  | _, .nan s p => .nan s p
  | .inf s, .inf t => if s = t then .inf s else .nan false 0x400000
  | .inf s, _ => .inf s
  | _, .inf s => .inf s
  | .num s1 p1 q1 e1, .num s2 p2 q2 e2 =>
    let (n, q, e) := sumParts s1 p1 q1 e1 s2 p2 q2 e2
    if n = 0 then .num (s1 && s2) 0 1 0 else .num (decide (n < 0)) n.natAbs q e

/-- x × y exactly. NaN for a NaN source and for 0 × ∞ (R139). -/
def valMul (x y : Val) : Val :=
  match x, y with
  | .nan s p, _ => .nan s p
  | _, .nan s p => .nan s p
  | .inf s, .inf t => .inf (s != t)
  | .inf s, .num t p _ _ => if p = 0 then .nan false 0x400000 else .inf (s != t)
  | .num t p _ _, .inf s => if p = 0 then .nan false 0x400000 else .inf (s != t)
  | .num s1 p1 q1 e1, .num s2 p2 q2 e2 => .num (s1 != s2) (p1 * p2) (q1 * q2) (e1 + e2)

/-- x × 2^k. -/
def valScale (x : Val) (k : Int) : Val :=
  match x with
  | .num s p q e => .num s p q (e + k)
  | y => y

/-- x < y for values that are no NaN; −0 and +0 are equal. -/
def valLt (x y : Val) : Bool :=
  match x, y with
  | .nan _ _, _ => false
  | _, .nan _ _ => false
  | .inf s, .inf t => s && !t
  | .inf s, _ => s
  | _, .inf t => !t
  | .num s1 p1 q1 e1, .num s2 p2 q2 e2 =>
    let (n, _, _) := sumParts s1 p1 q1 e1 (!s2) p2 q2 e2
    decide (n < 0)

def valEq (x y : Val) : Bool :=
  match x, y with
  | .nan _ _, _ => false
  | _, .nan _ _ => false
  | .inf s, .inf t => s == t
  | .inf _, _ => false
  | _, .inf _ => false
  | .num s1 p1 q1 e1, .num s2 p2 q2 e2 =>
    let (n, _, _) := sumParts s1 p1 q1 e1 (!s2) p2 q2 e2
    decide (n = 0)

/-- The larger of two values that are no NaN, −0 below +0 (R139). -/
def valMax (x y : Val) : Val :=
  if valLt x y then y
  else if valLt y x then x
  else if valNeg x then y else x

/-- The smaller of two values that are no NaN, −0 below +0 (R139). -/
def valMin (x y : Val) : Val :=
  if valLt x y then x
  else if valLt y x then y
  else if valNeg x then x else y

/-- The larger and the smaller of two values; the canonical NaN of a NaN (R139, R359, R360). -/
def laneMax (x y : Val) : Val :=
  if valIsNan x || valIsNan y then .nan false 0x400000 else valMax x y

def laneMin (x y : Val) : Val :=
  if valIsNan x || valIsNan y then .nan false 0x400000 else valMin x y

/-! ### Formats (R122, Table 7-3) -/

/-- How a floating format uses its top exponent. -/
inductive FpStyle where
  | ieee | e4m3 | e2m1
deriving DecidableEq, Repr

/-- A floating format. -/
structure FpFmt where
  eb : Nat
  mb : Nat
  bias : Int
  style : FpStyle
deriving DecidableEq, Repr

def fp32 : FpFmt := ⟨8, 23, 127, .ieee⟩
def bf16 : FpFmt := ⟨8, 7, 127, .ieee⟩
def fp16 : FpFmt := ⟨5, 10, 15, .ieee⟩
def e5m2 : FpFmt := ⟨5, 2, 15, .ieee⟩
def e4m3 : FpFmt := ⟨4, 3, 7, .e4m3⟩
def e2m1 : FpFmt := ⟨2, 1, 1, .e2m1⟩

def fpWidth (f : FpFmt) : Nat := 1 + f.eb + f.mb

/-- The largest exponent field of a finite value. -/
def fpTop (f : FpFmt) : Nat :=
  match f.style with
  | .ieee => 2 ^ f.eb - 2
  | _ => 2 ^ f.eb - 1

/-- The value of a floating code (R122). -/
def fpDecode (f : FpFmt) (code : Nat) : Val :=
  let s := code / 2 ^ (f.eb + f.mb) % 2 == 1
  let ex := code / 2 ^ f.mb % 2 ^ f.eb
  let man := code % 2 ^ f.mb
  if f.style = .ieee ∧ ex = 2 ^ f.eb - 1 then
    if man = 0 then .inf s else .nan s (man * 2 ^ (23 - f.mb))
  else if f.style = .e4m3 ∧ ex = 15 ∧ man = 7 then .nan s 0x700000
  else if ex = 0 then .num s man 1 (1 - f.bias - f.mb)
  else .num s (2 ^ f.mb + man) 1 (ex - f.bias - f.mb)

/-- The code with sign, exponent field and mantissa. -/
def fpPack (f : FpFmt) (s : Bool) (ex man : Nat) : Nat :=
  (if s then 2 ^ (f.eb + f.mb) else 0) + ex * 2 ^ f.mb + man

/-- The largest finite magnitude's code, without sign. -/
def fpMaxCode (f : FpFmt) : Nat :=
  match f.style with
  | .e4m3 => 15 * 8 + 6
  | _ => fpTop f * 2 ^ f.mb + (2 ^ f.mb - 1)

/-- The canonical NaN (Table 7-3); E2M1 has none. -/
def fpNan (f : FpFmt) : Nat :=
  match f.style with
  | .ieee => (2 ^ f.eb - 1) * 2 ^ f.mb + (if f.mb = 0 then 0 else 2 ^ (f.mb - 1))
  | .e4m3 => 0x7F
  | .e2m1 => 0

/-- The exponent of the unit in which a finite magnitude is rounded, and the rounded multiple of it. -/
def fpRound (f : FpFmt) (p q : Nat) (e : Int) : Nat × Int :=
  if p = 0 then (0, 1 - f.bias - f.mb)
  else
    let u := max (ilog2 p q e) (1 - f.bias) - f.mb
    let (n, d) := ratio p q (e - u)
    (rneDiv n d, u)

/-- Does a finite magnitude p / q × 2^e lie beyond the largest finite value of a format? R128 names x itself, so that it is
judged before x is rounded (DEDUCED, log 95). -/
def fpBeyond (f : FpFmt) (p q : Nat) (e : Int) : Bool :=
  let top := if f.style = .e4m3 then 14 else 2 ^ (f.mb + 1) - 1
  let (n, d) := ratio p q (e - ((fpTop f : Int) - f.bias - f.mb))
  decide (top * d < n)

/-- What a finite magnitude beyond the largest gives (R128). -/
def fpOverflow (f : FpFmt) (sat s : Bool) : Nat :=
  if sat then fpPack f s 0 0 + fpMaxCode f
  else
    match f.style with
    | .ieee => fpPack f s (2 ^ f.eb - 1) 0
    | .e4m3 => fpPack f s 15 7
    | .e2m1 => fpPack f s 0 0 + fpMaxCode f

/-- conv of a value into a floating format (R128), E2M1 here with AUX = 0. -/
def fpConv (f : FpFmt) (sat : Bool) (x : Val) : Nat :=
  match x with
  | .nan s pl =>
    match f.style with
    | .ieee =>
      let man := pl / 2 ^ (23 - f.mb) % 2 ^ f.mb
      fpPack f s (2 ^ f.eb - 1) (if man = 0 then 2 ^ (f.mb - 1) else man)
    | .e4m3 => fpPack f s 15 7
    | .e2m1 => 0
  | .inf s =>
    match f.style with
    | .ieee => fpPack f s (2 ^ f.eb - 1) 0
    | _ => fpOverflow f sat s
  | .num s p q e =>
    if fpBeyond f p q e then fpOverflow f sat s
    else
      let (n, u) := fpRound f p q e
      if n < 2 ^ f.mb then fpPack f s 0 n
      else
        let (n, u) := if n = 2 ^ (f.mb + 1) then (2 ^ f.mb, u + 1) else (n, u)
        fpPack f s (u + f.mb + f.bias).toNat (n - 2 ^ f.mb)

/-- conv of a sum or another arithmetic result with sat = 0: a NaN result is the canonical NaN (R139; log 12). -/
def fpResult (f : FpFmt) (x : Val) : Nat := if valIsNan x then fpNan f else fpConv f false x

/-- Would the result be subnormal in the format (R139, R131): not zero, below the least normal? -/
def fpIsSub (f : FpFmt) (code : Nat) : Bool :=
  code / 2 ^ f.mb % 2 ^ f.eb == 0 && code % 2 ^ f.mb != 0

/-- rne of a value to an integer (R8). -/
def valRne : Val → Int
  | .num s p q e => let (n, d) := ratio p q e; if s then -(rneDiv n d : Int) else rneDiv n d
  | _ => 0

/-- A value rounded toward zero. -/
def valTrunc : Val → Int
  | .num s p q e => let (n, d) := ratio p q e; if s then -((n / d : Nat) : Int) else (n / d : Nat)
  | _ => 0

/-- conv of a value into a signed integer of `w` bits, as its code (R128). -/
def intConv (w : Nat) (sat : Bool) (x : Val) : Nat :=
  let hi : Int := 2 ^ (w - 1) - 1
  let lo : Int := -(2 ^ (w - 1))
  let code (v : Int) : Nat := (v % 2 ^ w).toNat
  match x with
  | .nan _ _ => 0
  | .inf s => code (if s then lo else hi)
  | y =>
    let v := valRne y
    if sat then code (max lo (min hi v)) else code v

/-! ### Correctly rounded functions (R139)

exp2, log2 and rsqrt answer a value that rounds as the exact result does: they are carried to 256 fraction
bits, and an inexact result is never given as a value that lies on a rounding boundary (log 9). -/

/-- floor(sqrt n), by Newton's steps from above. -/
def isqrtIter (n : Nat) : Nat → Nat → Nat
  | 0, x => x
  | fuel + 1, x =>
    let y := (x + n / x) / 2
    if x ≤ y then x else isqrtIter n fuel y

def isqrt (n : Nat) : Nat :=
  if n = 0 then 0 else isqrtIter n (Nat.log2 n + 2) (2 ^ (Nat.log2 n / 2 + 1))

/-- ln 2 × 2^256, rounded down. -/
def ln2Fix : Nat := 80260960185991308862233904206310070533990667611589946606122867505419956976171

/-- Σ y^k / k! for k < fuel, in fixed point with 256 fraction bits. -/
def expSeries (y : Nat) : Nat → Nat → Nat → Nat
  | 0, _, _ => 0
  | fuel + 1, k, term => term + expSeries y fuel (k + 1) (term * y / 2 ^ 256 / (k + 1))

/-- 2^x: exact for an integer x, else carried to 256 bits. -/
def valExp2 : Val → Val
  | .nan s p => .nan s p
  | .inf s => if s then .num false 0 1 0 else .inf false
  | .num s p q e =>
    if p = 0 then .num false 1 1 0
    else if 16 ≤ ilog2 p q e then (if s then .num false 1 1 (-100000) else .num false 1 1 100000)
    else
      let (n, d) := ratio p q e
      let i : Int := Int.ofNat (n / d)
      let r := n % d
      if r = 0 then .num false 1 1 (if s then -i else i)
      else
        -- x = i + f with 0 < f < 1
        let (i, r) := if s then (-i - 1, d - r) else (i, r)
        let y := r * ln2Fix / d
        .num false (expSeries y 64 0 (2 ^ 256)) 1 (i - 256)

/-- Σ t^(2k+1)/(2k+1) in fixed point, t given with 320 fraction bits. -/
def atanhSeries (t2 : Nat) : Nat → Nat → Nat → Nat
  | 0, _, _ => 0
  | fuel + 1, k, term => term / (2 * k + 1) + atanhSeries t2 fuel (k + 1) (term * t2 / 2 ^ 320)

/-- log2 x: exact for a power of two, else carried to 256 bits. −∞ of a zero; NaN of a negative (R139, R237). -/
def valLog2 : Val → Val
  | .nan s p => .nan s p
  | .inf s => if s then .nan false 0x400000 else .inf false
  | .num s p q e =>
    if p = 0 then .inf true
    else if s then .nan false 0x400000
    else
      let l := ilog2 p q e
      let (n, d) := ratio p q (e - l)
      if n = d then valOfInt l 0
      else
        -- 1 < n/d < 2; ln(n/d) = 2 atanh((n - d)/(n + d))
        let t := (n - d) * 2 ^ 320 / (n + d)
        let ln : Nat := 2 * atanhSeries (t * t / 2 ^ 320) 120 0 t / 2 ^ 64
        let lg : Nat := ln * 2 ^ 256 / ln2Fix
        valOfInt (l * 2 ^ 256 + Int.ofNat lg) (-256)

/-- 1/x; ±∞ of ±0, ±0 of ±∞ (R139). -/
def valRcp : Val → Val
  | .nan s p => .nan s p
  | .inf s => .num s 0 1 0
  | .num s p q e => if p = 0 then .inf s else .num s q p (-e)

/-- 1/sqrt x: exact where it is a fraction of 192 bits, else between the two neighbours. +∞ of +0, −∞ of −0,
NaN of a negative (R139). -/
def valRsqrt : Val → Val
  | .nan s p => .nan s p
  | .inf s => if s then .nan false 0x400000 else .num false 0 1 0
  | .num s p q e =>
    if p = 0 then .inf s
    else if s then .nan false 0x400000
    else
      let e2 := e / 2
      -- 1/sqrt(p/q 2^e) = sqrt(q / (p 2^(e - 2 e2))) 2^(-e2)
      let d := p * 2 ^ (e - 2 * e2).toNat
      let n := q * 2 ^ 384
      let r := isqrt (n / d)
      if r * r * d = n then .num false r 1 (-192 - e2) else .num false (2 * r + 1) 1 (-193 - e2)

end Sys2Proof.Machine
end

