-- ==== Sys2Proof/Machine/Block.lean ====
section
/-!
DEFINITION. Blocks, their checks and their elements (spec/07_number_formats.md R119 to R131). A block is held
as a number of 64 bytes, byte 0 least significant.
-/

namespace Sys2Proof.Machine

/-- Element formats (Table 7-3). -/
inductive ElKind where
  /-- an unsigned bit -/
  | bin
  /-- a two's-complement integer -/
  | int
  | fp (f : FpFmt)
deriving DecidableEq, Repr

/-- A block format: element count and width, kind. -/
structure BlkFmt where
  n : Nat
  w : Nat
  kind : ElKind
deriving DecidableEq, Repr

/-- Table 7-3. -/
def blkFmt (fmt : Nat) : Option BlkFmt :=
  match fmt with
  | 0x60 => some ⟨480, 1, .bin⟩
  | 0x62 => some ⟨240, 2, .int⟩
  | 0x10 => some ⟨120, 4, .int⟩
  | 0x21 => some ⟨120, 4, .fp e2m1⟩
  | 0x30 => some ⟨60, 8, .int⟩
  | 0x31 => some ⟨60, 8, .fp e4m3⟩
  | 0x32 => some ⟨60, 8, .fp e5m2⟩
  | 0x40 => some ⟨30, 16, .int⟩
  | 0x41 => some ⟨30, 16, .fp bf16⟩
  | 0x42 => some ⟨30, 16, .fp fp16⟩
  | 0x50 => some ⟨15, 32, .fp fp32⟩
  | 0x51 => some ⟨15, 32, .int⟩
  | _ => none

def isFloatFmt (f : BlkFmt) : Bool :=
  match f.kind with
  | .fp _ => true
  | _ => false

/-- FP32, BF16 or FP16. -/
def isWideFloat (fmt : Nat) : Bool := fmt == 0x50 || fmt == 0x41 || fmt == 0x42

def blkByte (b : Block) (i : Nat) : Nat := b.toNat / 256 ^ i % 256
def blkFMT (b : Block) : Nat := blkByte b 0
def blkSCL (b : Block) : Nat := blkByte b 1
def blkAUX (b : Block) : Nat := blkByte b 2
def blkCHK (b : Block) : Nat := blkByte b 3

/-- The code of element `i` (R120). -/
def blkElem (b : Block) (f : BlkFmt) (i : Nat) : Nat := b.toNat / 2 ^ (32 + i * f.w) % 2 ^ f.w

/-! ### The check byte (R125) -/

def crc8Bit (c : Nat) : Nat := if c / 128 % 2 = 1 then Nat.xor (c * 2) 7 % 256 else c * 2 % 256

def crc8Byte (c x : Nat) : Nat :=
  (List.range 8).foldl (fun c _ => crc8Bit c) (Nat.xor c x)

/-- CRC-8 over a list of bytes. -/
def crc8 (bs : List Nat) : Nat := bs.foldl crc8Byte 0

/-- CHK of a block: over bytes 0 to 2 and 4 to 63. -/
def blkCheck (b : Block) : Nat :=
  crc8 ((List.range 64).filterMap (fun i => if i = 3 then none else some (blkByte b i)))

/-! ### Scales (R121) -/

/-- The value of a scale code other than 0x00 and 0xFF, as m × 2^e. -/
def sclVal (c : Nat) : Nat × Int :=
  let e := c / 8
  let m := c % 8
  if e = 0 then (m, -17) else (8 + m, (e : Int) - 18)

/-! ### Reading (R123, R124, R126, R129) -/

/-- AUX values that would repeat a regular code (R123). -/
def auxRefused (q : Int) : Bool :=
  [1, 2, 3, 4, 6, 8, 12].contains q.natAbs && q != 0

/-- AUX as a signed byte. -/
def auxInt (x : Nat) : Int := sextInt x 8

/-- The check of a block reader (R126): the cause of its first failure. -/
def blkFault (b : Block) : Option Byte :=
  if blkCheck b ≠ blkCHK b then some 0x19
  else
    match blkFmt (blkFMT b) with
    | none => some 0x18
    | some f =>
      if (if f.kind = .fp e2m1 then auxRefused (auxInt (blkAUX b)) else blkAUX b != 0) then some 0x18
      else if blkSCL b = 0xFF ∧ !isFloatFmt f then some 0x18
      else none

/-- The decoded value of an element before scaling (R122, R123). -/
def elemRaw (b : Block) (f : BlkFmt) (i : Nat) : Val :=
  let c := blkElem b f i
  match f.kind with
  | .bin => .num false c 1 0
  | .int => valOfInt (sextInt c f.w) 0
  | .fp g =>
    if g = e2m1 ∧ c = 8 ∧ blkAUX b ≠ 0 then valOfInt (auxInt (blkAUX b)) (-1)
    else fpDecode g c

/-- The value of an element (R124); the NaN of the zero and invalid scales is canonical. -/
def elemVal (b : Block) (f : BlkFmt) (i : Nat) : Val :=
  let v := elemRaw b f i
  if blkSCL b = 0xFF then .nan false 0x400000
  else if blkSCL b = 0 then
    match v with
    | .num _ _ _ _ => .num false 0 1 0
    | _ => if f.kind = .fp e4m3 then .nan false 0x700000 else .nan false 0x400000
  else
    match v with
    | .num s p q e => let (m, k) := sclVal (blkSCL b); .num s (p * m) q (e + k)
    | x => x

/-! ### Writing (R130, R131) -/

/-- The fields of FMTO0 or FMTO1 (Table 7-4). -/
structure Fmto where
  fmt : Nat
  smode : Nat
  sat : Bool
  scl : Nat
  aux : Nat
deriving DecidableEq, Repr

def fmtoOf (w : Word) : Fmto :=
  { fmt := bits w.toNat 7 0, smode := bits w.toNat 9 8, sat := bits w.toNat 10 10 == 1,
    scl := bits w.toNat 23 16, aux := bits w.toNat 31 24 }

/-- Does a store with these fields raise format (R130)? -/
def fmtoBad (o : Fmto) : Bool :=
  (blkFmt o.fmt).isNone || 2 ≤ o.smode || (o.smode == 0 && o.scl == 0xFF)
    || (o.aux != 0 && o.fmt != 0x21) || (o.fmt == 0x21 && auxRefused (auxInt o.aux))

/-- The distance of x to c/2, scaled by the common denominator of both. -/
def distHalf (s : Bool) (n d : Nat) (c : Int) : Nat :=
  ((if s then -(2 * n : Int) else 2 * n) - c * d).natAbs

/-- conv into E2M1 with AUX = q (R128). -/
def e2m1Conv (q : Int) (sat : Bool) (x : Val) : Nat :=
  if q = 0 then fpConv e2m1 sat x
  else
    match x with
    | .nan _ _ => 0
    | .inf s => if 12 < q.natAbs ∧ decide (q < 0) = s then 8 else fpPack e2m1 s 3 1
    | .num s p d e =>
      let (n, d) := ratio p d e
      let r := fpConv e2m1 sat x
      let rv : Int := match fpDecode e2m1 r with
        | .num t a _ k => let v : Int := (a * pow2 (k + 1) : Nat); if t then -v else v
        | _ => 0
      if distHalf s n d q < distHalf s n d rv then 8
      else if r = 8 then 0 else r

/-- conv into an element format, as its code (R128). Integer block formats always saturate. -/
def elemConv (f : BlkFmt) (aux : Int) (sat : Bool) (x : Val) : Nat :=
  match f.kind with
  | .bin =>
    match x with
    | .nan _ _ => 0
    | .inf s => if s then 0 else 1
    | y => (max 0 (min 1 (valRne y))).toNat
  | .int => intConv f.w true x
  | .fp g => if g = e2m1 then e2m1Conv aux sat x else fpConv g sat x

/-- The largest finite magnitude of a format, in halves (R131). -/
def elemLargest (f : BlkFmt) (aux : Int) : Nat × Int :=
  match f.kind with
  | .bin => (1, 0)
  | .int => (2 ^ (f.w - 1) - 1, 0)
  | .fp g =>
    if g = e2m1 then (max 12 aux.natAbs, -1)
    else
      match fpDecode g (fpMaxCode g) with
      | .num _ p _ e => (p, e)
      | _ => (0, 0)

/-- The smallest scale code from `c` on whose value times `l` reaches `mx` (R131). -/
def scaleSearch (l : Nat × Int) (mx : Val) : Nat → Nat → Nat
  | 0, _ => 0xFE
  | fuel + 1, c =>
    let (m, k) := sclVal c
    if valLt (.num false (m * l.1) 1 (k + l.2)) mx then scaleSearch l mx fuel (c + 1) else c

/-- The largest finite magnitude among values. -/
def maxFinite (xs : List Val) : Val :=
  xs.foldl (fun a x => match x with
    | .num _ p q e => if valLt a (.num false p q e) then .num false p q e else a
    | _ => a) (.num false 0 1 0)

/-- The scale code of a block that is written (R131). -/
def chooseScale (o : Fmto) (f : BlkFmt) (xs : List Val) : Nat :=
  if o.smode = 0 then o.scl
  else if isWideFloat o.fmt then 0x78
  else
    let mx := maxFinite xs
    if valIsZero mx then 0x78
    else scaleSearch (elemLargest f (auxInt o.aux)) mx 254 1

/-- x / value(c). -/
def unscale (x : Val) (c : Nat) : Val :=
  match x with
  | .num s p q e => let (m, k) := sclVal c; .num s p (q * m) (e - k)
  | y => y

/-- The codes of a block's elements under a scale (R131). -/
def blockCodes (o : Fmto) (f : BlkFmt) (c : Nat) (xs : List Val) : List Nat :=
  xs.map (fun x => if c = 0 then 0 else elemConv f (auxInt o.aux) o.sat (unscale x c))

/-- Pack element codes above the header. -/
def packCodes (w : Nat) (codes : List Nat) : Nat := codes.foldr (fun c acc => c % 2 ^ w + 2 ^ w * acc) 0

/-- The block with a header and element codes, its CHK computed (R125). -/
def mkBlock (fmt scl aux : Nat) (w : Nat) (codes : List Nat) : Block :=
  let b : Block := BitVec.ofNat 512 (fmt + scl * 256 + aux * 65536 + packCodes w codes * 2 ^ 32)
  BitVec.ofNat 512 (b.toNat + blkCheck b * 2 ^ 24)

/-- A converting store of values into one block (R131): the block, and whether a result is subnormal in a wide
floating format. -/
def writeBlock (o : Fmto) (xs : List Val) : Block × Bool :=
  match blkFmt o.fmt with
  | none => (0, false)
  | some f =>
    let c := chooseScale o f xs
    let codes := blockCodes o f c xs
    let sub := match f.kind with
      | .fp g => isWideFloat o.fmt && codes.any (fpIsSub g)
      | _ => false
    (mkBlock o.fmt c o.aux f.w codes, sub)

/-- The four granules of a block, the lowest first. -/
def blockGrans (b : Block) : List Gran :=
  (List.range 4).map (fun i => BitVec.ofNat 128 (b.toNat / 2 ^ (128 * i)))

/-- The block that four granules make. -/
def blockOf (gs : List Gran) : Block :=
  BitVec.ofNat 512 (gs.foldr (fun g acc => g.toNat + 2 ^ 128 * acc) 0)

end Sys2Proof.Machine
end

