-- ==== Sys2Proof/Machine/Operands.lean ====
section
/-!
DEFINITION. Every operand form: immediates and K words (spec/05_formats_opcodes.md R88, R89), the second operand
of X words (spec/23_reference_x.md R374), address offsets of L words (spec/05 R91), guards (spec/04 R66) and how
a word meets the issue frame.
-/

namespace Sys2Proof.Machine

/-- What a step answers. -/
abbrev Out := Host.Outcome State Fault Refusal

/-- Change the machine and go on. -/
def onMach (s : State) (f : Mach → Mach) : Out := .next { s with m := f s.m }

/-- Execute a word under its guard (R66): a word whose guard is false does nothing. -/
def runWord (s : State) (h : Hd) (f : Mach → Mach) : Out :=
  onMach s (fun m => if guardTrue m h then f m else m)

/-- The immediate of a host word: its field of width `w`, or its low six bits below one or two K bodies (R88). -/
def immValue (w field : Nat) (ks : List (BitVec 25)) : Word :=
  match ks with
  | [] => wordOfInt (sextInt field w)
  | [k1] => wordOfInt (sextInt (k1.toNat * 2 ^ 6 + field % 64) 31)
  | k1 :: k2 :: _ => wordOfInt (sextInt (k2.toNat * 2 ^ 31 + k1.toNat * 2 ^ 6 + field % 64) 56)

/-- The second operand of an X word that accepts K (R374). -/
def opBK (m : Mach) (i : Bool) (b : BitVec 6) : Scalar :=
  if i then { val := immValue 6 b.toNat m.iss.ks } else rdS m 1 b

/-- The second operand of a shift or x.sext: an immediate is zero-extended (R374). -/
def opBZ (m : Mach) (i : Bool) (b : BitVec 6) : Scalar :=
  if i then { val := b.setWidth 64 } else rdS m 1 b

/-- The first poisoned source, in the order a, b (R375). -/
def firstPoison (x y : Scalar) : Option Scalar :=
  if x.pois then some x else if y.pois then some y else none

/-- A result that carries poison: its value is undefined (R375). -/
def poisonedResult (m : Mach) (p : Scalar) : Scalar :=
  { val := Config.freeWord (freeIx m 14 0), pois := true, cause := p.cause }

/-- The result of an X word: poisoned when a source is, else computed (R375). -/
def xResult (m : Mach) (x y : Scalar) (f : Word → Word → Word) : Scalar :=
  match firstPoison x y with
  | some p => poisonedResult m p
  | none => { val := f x.val y.val }

/-- An X word with a scalar destination (R374, R375). -/
def xBin (m : Mach) (lat : Nat) (d a : BitVec 6) (y : Scalar) (f : Word → Word → Word) : Mach :=
  putS m lat d (xResult m (rdS m 0 a) y f)

/-- The bytes that a size code of l.ld and l.st names (R91). -/
def sizeOf (s : BitVec 3) : Nat := 2 ^ s.toNat

/-- The byte offset of l.ld and l.st: sext(imm3, 3) × size (R91). -/
def offImm3 (i : BitVec 3) (size : Nat) : Word := wordOfInt (sextInt i.toNat 3 * size)

/-- The byte offset of l.vld, l.vst and l.radd: zext(off3, 3) × 256 (R91). -/
def offOff3 (o : BitVec 3) : Word := BitVec.ofNat 64 (o.toNat * 256)

/-- The option field of an engine command: its one K body (R89). -/
def optField (m : Mach) : BitVec 25 := m.iss.ks.headD 0

/-- The next register of a pair (R91). -/
def pairOf (d : BitVec 6) : BitVec 6 := d + 1

end Sys2Proof.Machine
end

