-- ==== Sys2Proof/Machine/Rows.lean ====
section
/-!
DEFINITION. Tile rows as lanes: reading, writing, the AXB exponent rule and the subnormal assist
(spec/07_number_formats.md R135 to R140, spec/22_reference_v.md R342 to R348, spec/09_matrix_array.md R163).
-/

namespace Sys2Proof.Machine

/-! ### Types of a tile (Table 7-5) -/

def satOf (prec : Word) : Bool := prec.getLsbD 19
def isFloatTile (a : Nat) : Bool := a == 0 || a == 3
def isAxb (a : Nat) : Bool := a == 2
def isIntTile (a : Nat) : Bool := a == 1 || a == 4
def lanesOf (a : Nat) : Nat := if a == 3 || a == 4 then 120 else 60
def laneW (a : Nat) : Nat := if a == 3 || a == 4 then 16 else 32
def floatOf (a : Nat) : FpFmt := if a == 3 then bf16 else fp32

/-- The type of a tile under the PREC that the issuing context had when its bundle issued (R342, R64). -/
def tileType (m : Mach) (t : Nat) : Nat := acct (precOf m.iss.snap t)
def tileSat (m : Mach) (t : Nat) : Bool := satOf (precOf m.iss.snap t)

/-- Tiles of the issuing core (R144). -/
def tilesOf (m : Mach) : Nat := (getCore m m.iss.core).partw.toNat / 16 % 4 + 1

/-! ### Reading a row -/

/-- A row's bytes: data and group exponents. -/
structure Row where
  data : BitVec 1920
  exps : BitVec 32
deriving DecidableEq, Repr

/-- A row once everything now in flight for it has landed, in the order of landing. -/
def rowFinal (k : Core) (key : Nat) : Row :=
  let fs := k.rowFlight.filter (fun f => f.row == key)
  ⟨(fs.getLast?.map (·.data)).getD (smGet 0 k.tiles key), ((fs.filter (·.axb)).getLast?.map (·.exps)).getD (smGet 0 k.exps key)⟩

/-- A row as a word that issues now reads it: undefined while a result of an earlier bundle for it is in flight (R348)
and where no word has written it since the unit started (R25). What the bundle itself writes is not read (R64). -/
def rowAt (m : Mach) (role key : Nat) : Row :=
  let k := getCore m m.iss.core
  let free : Row := ⟨Config.freeRow (freeIx m role key), Config.freeExps (freeIx m role key)⟩
  if k.rowFlight.any (fun f =>
      f.row == key && m.cycle < f.landAt && !(f.issued == m.cycle && f.ctx == m.iss.ctx)) then free
  else if !(m.iss.snap.rowsKnown.getLsbD key) then free
  else ⟨smGet 0 k.tiles key, smGet 0 k.exps key⟩

/-- A source row of a V word on tile `t`: a row that the bundle drains on that tile reads after the drain (R138). -/
def rowV (m : Mach) (role t key : Nat) : Row :=
  match m.iss.drained.find? (fun f => f.row == key && f.row / 64 == t) with
  | some f => ⟨f.data, f.exps⟩
  | none => rowAt m role key

/-- The bits of a lane. -/
def laneBits (r : Row) (a j : Nat) : Nat := r.data.toNat / 2 ^ (laneW a * j) % 2 ^ laneW a

/-- A group's exponent (R135). -/
def groupExp (r : Row) (g : Nat) : Int := sextInt (r.exps.toNat / 256 ^ g) 8

/-- v(x): the value of a lane (R344). -/
def laneVal (r : Row) (a j : Nat) : Val :=
  if isFloatTile a then fpDecode (floatOf a) (laneBits r a j)
  else if isAxb a then valOfInt (sextInt (laneBits r a j) 32) (groupExp r (j / 15))
  else valOfInt (sextInt (laneBits r a j) (laneW a)) 0

/-- All lane values of a row. -/
def laneVals (r : Row) (a : Nat) : List Val := (List.range (lanesOf a)).map (laneVal r a)

/-- All lanes' bits. -/
def laneCodes (r : Row) (a : Nat) : List Nat := (List.range (lanesOf a)).map (laneBits r a)

/-- The data bytes that lane codes make. -/
def packRow (a : Nat) (codes : List Nat) : BitVec 1920 := BitVec.ofNat 1920 (packCodes (laneW a) codes)

/-! ### AXB (R137) -/

/-- rne(M / 2^k). -/
def rneShift (x : Int) (k : Nat) : Int := valRne (valOfInt x (-(k : Int)))

/-- What an AXB lane becomes at growth k: the old mantissa shifted plus the value at the grown exponent. -/
def axbLane (g : Int) (k : Nat) (e : Int × Val) : Int := rneShift e.1 k + valRne (valScale e.2 (-(g + k)))

def isInfVal : Val → Bool
  | .inf _ => true
  | _ => false

def axbFits (g : Int) (k : Nat) (es : List (Int × Val)) : Bool :=
  es.all (fun e => !isInfVal e.2 && (axbLane g k e).natAbs ≤ 2 ^ 31 - 1)

/-- The smallest growth at which a group fits, or the growth that takes g to 127. -/
def axbGrow (g : Int) (es : List (Int × Val)) : Nat → Nat → Nat
  | 0, k => k
  | fuel + 1, k => if axbFits g k es then k else axbGrow g es fuel (k + 1)

/-- A lane clamped where it does not fit at g = 127. -/
def axbClamp (e : Int × Val) (x : Int) : Int :=
  match e.2 with
  | .inf s => if s then -(2 ^ 31 - 1) else 2 ^ 31 - 1
  | _ => max (-(2 ^ 31 - 1)) (min (2 ^ 31 - 1) x)

/-- A group written under R137: its exponent and mantissas. A NaN writes 0. -/
def axbGroup (g : Int) (es : List (Int × Val)) : Int × List Int :=
  let es := es.map (fun e => match e.2 with | .nan _ _ => (e.1, valOfInt 0 0) | _ => e)
  let k := axbGrow g es (127 - g).toNat 0
  (g + k, es.map (fun e => axbClamp e (axbLane g k e)))

/-- The bytes of an AXB row from its groups' exponents and mantissas. -/
def axbPack (done : List (Int × List Int)) : Row :=
  { data := packRow 2 ((done.map (fun x => x.2.map (fun i => (i % 2 ^ 32).toNat))).flatten)
    exps := BitVec.ofNat 32 (packCodes 8 (done.map (fun x => (x.1 % 256).toNat))) }

/-- A whole AXB row from, for each group, its starting exponent and its lanes. -/
def axbRow (groups : List (Int × List (Int × Val))) : Row := axbPack (groups.map (fun x => axbGroup x.1 x.2))

/-- Write values into some lanes of an AXB row: a group of which a lane is written grows where it must, and its other
lanes shift; a group of which none is written stays (R137, R366). -/
def axbMix (old : Row) (ws : List (Option Val)) : Row :=
  axbPack ((List.range 4).map (fun j =>
    let es := (List.range 15).map (fun i => (sextInt (laneBits old 2 (15 * j + i)) 32, ws.getD (15 * j + i) none))
    if es.all (fun e => e.2.isNone) then (groupExp old j, es.map (·.1))
    else axbGroup (groupExp old j) (es.map (fun e =>
      match e.2 with | some r => ((0 : Int), r) | none => (e.1, valOfInt 0 0)))))

/-- Write values into every lane of an AXB row, each group growing from its old exponent. -/
def axbWriteAll (old : Row) (rs : List Val) : Row :=
  axbRow ((List.range 4).map (fun j => (groupExp old j, ((rs.drop (15 * j)).take 15).map (fun r => ((0 : Int), r)))))

/-! ### Writing a row -/

/-- conv of a value into a lane of a type that is not AXB (R128). -/
def laneConv (a : Nat) (sat : Bool) (x : Val) : Nat :=
  if isFloatTile a then fpConv (floatOf a) sat x else intConv (laneW a) sat x

/-- Cycle at which a V word of the bundle on tile `t` lands: after a drain of the same tile in its bundle, with
the drain (R138). -/
def vLandAt (m : Mach) (t lat : Nat) : Nat :=
  m.cycle + (if m.iss.drained.any (fun f => f.row / 64 == t) then max lat 12 else lat)

/-- Send a row result of the word being issued on its way (R342), and mark the row (R253). -/
def putRowAt (m : Mach) (key landAt : Nat) (r : Row) : Mach :=
  modCore m m.iss.core (fun k =>
    markRows (putRow k { row := key, ctx := m.iss.ctx, issued := m.cycle, landAt := landAt, data := r.data, exps := r.exps,
                         axb := isAxb (tileType m (key / 64)) })
      m.iss.ctx (BitVec.ofNat 256 (2 ^ key)))

/-- A row of lane codes, with the group exponents left as they are. -/
def codesRow (m : Mach) (key a : Nat) (codes : List Nat) : Row :=
  ⟨packRow a codes, (rowFinal (getCore m m.iss.core) key).exps⟩

/-! ### Subnormal assist (R140, R346) -/

/-- A lane of an arithmetic word on a float tile: its code, and its DIR when it is flagged. -/
def arithLane (f : FpFmt) (sat : Bool) (r : Val) : Nat × Option Nat :=
  match r with
  | .nan _ _ => (fpNan f, none)
  | .num s p q e =>
    if p = 0 then (fpConv f sat r, none)
    else if !(valLt (.num false p q e) (.num false 1 1 (-126))) then (fpConv f sat r, none)
    else if !(valLt (.num false 1 1 (if f = fp32 then -150 else -134)) (.num false p q e)) then (fpPack f s 0 0, none)
    else
      let x : Val := .num s p q (e + 192)
      let c := fpConv f sat x
      let w := valAbs (fpDecode f c)
      (c, some (if valLt w (valAbs x) then 1 else if valLt (valAbs x) w then 2 else 0))
  | x => (fpConv f sat x, none)

/-- The assist record (Table 7-7) for rows from `row0`, each with the DIR of its flagged lanes. DIR is 00 for a lane that is not
flagged, and above the lane count: DESIGN CHOICE (log 105), the table gives it for wrapped lanes alone. -/
def assistRecord (kind tile row0 type : Nat) (rows : List (List (Option Nat))) : Nat × Nat :=
  let head := kind + tile * 256 + row0 * 2 ^ 16 + rows.length * 2 ^ 24 + type * 2 ^ 32
  let one (r : List (Option Nat)) : Nat :=
    packCodes 1 (r.map (fun d => if d.isSome then 1 else 0)) + 2 ^ 128 * packCodes 2 (r.map (fun d => d.getD 0))
  (16 + 48 * rows.length, head + 2 ^ 128 * packCodes 384 (rows.map one))

/-- A fault that is due when a result's bound has passed (R71). -/
def pushDue (m : Mach) (core i : Nat) (d : Due) : Mach := modCtx m core i (fun c => { c with due := c.due ++ [d] })

/-- Raise subnormal-assist for rows of the word being issued once its bound has passed. -/
def pushAssist (m : Mach) (kind tile row0 type lat : Nat) (rows : List (List (Option Nat))) : Mach :=
  if rows.any (fun r => r.any Option.isSome) then
    pushDue m m.iss.core m.iss.ctx
      { cause := 0x1B, faddr := (assistVa m m.iss.core m.iss.ctx).getD 0, finfo := finfoHere m,
        notBefore := m.cycle + lat, assist := some (assistRecord kind tile row0 type rows) }
  else m

/-! ### The shape of a V word -/

/-- The checks of R347 in their order, then the word. -/
def vCheck (m : Mach) (ts : List Nat) (ss : List Scalar) (ok : Bool) (f : Mach → Mach) : Mach :=
  if ts.any (fun t => tilesOf m ≤ t) then trapW m 0x11
  else
    match ss.find? (fun x => x.pois) with
    | some p => trapPoison m p
    | none => if ok then f m else trapW m 0x1A

/-- Land lane codes in a row. -/
def vCodes (m : Mach) (t : BitVec 2) (d : BitVec 6) (lat : Nat) (codes : List Nat) : Mach :=
  putRowAt m (rowKey t d) (vLandAt m t.toNat lat) (codesRow m (rowKey t d) (tileType m t.toNat) codes)
where
  rowKey (t : BitVec 2) (r : BitVec 6) : Nat := 64 * t.toNat + r.toNat

/-- Write exact results under R345 and R346; `flag` says whether the word is an arithmetic one, whose
subnormal lanes are flagged. -/
def vWrite (m : Mach) (t : BitVec 2) (d : BitVec 6) (lat : Nat) (flag : Bool) (rs : List Val) : Mach :=
  let a := tileType m t.toNat
  let sat := tileSat m t.toNat
  let key := 64 * t.toNat + d.toNat
  if isAxb a then putRowAt m key (vLandAt m t.toNat lat) (axbWriteAll (rowV m 13 t.toNat key) rs)
  else if isFloatTile a && flag then
    let ls := rs.map (arithLane (floatOf a) sat)
    let m := vCodes m t d lat (ls.map (·.1))
    pushAssist m 1 t.toNat d.toNat (if a = 3 then 1 else 0) (vLandAt m t.toNat lat - m.cycle) [ls.map (·.2)]
  else
    vCodes m t d lat (rs.map (fun r =>
      if isFloatTile a && valIsNan r then fpNan (floatOf a) else laneConv a sat r))

end Sys2Proof.Machine
end

