-- ==== Sys2Proof/Machine/Access.lean ====
section
/-!
DEFINITION. How a word reaches memory: the checks of spec/21_reference_l_m.md R312, fences that hold a word back
(spec/11_ordering_machine.md R193, R194), actions added to the issue queue (R185), and the own core's view of its
allocation table (spec/08_pool_memory.md R149, R151, R152).
-/

namespace Sys2Proof.Machine

/-! ### The own core's allocation table, with the releases and renewals that its contexts have issued -/

/-- Actions of a core's contexts that have not been applied at its port: those in the port, then those in the
issue queues. -/
def ownActs (m : Mach) (core : Nat) : List Act :=
  (getCore m core).port.map (·.2)
    ++ ((List.range 16).map (fun i => (getAgent m (ctxAgent core i)).iq)).flatten

/-- An allocation as the own core's later words find it (R319, R324): a release or renewal already issued counts. -/
def overlayAlloc (acts : List Act) (a : Alloc) : Alloc :=
  acts.foldl (fun a x =>
    match x.kind with
    | .free base => if a.used && a.base == base then { a with freeing := true } else a
    | .renew base life exp => if a.used && a.base == base then { a with life := life, exp := exp } else a
    | _ => a) a

/-- The core with its table as its own words find it. -/
def ownTable (m : Mach) (core : Nat) : Core :=
  let k := getCore m core
  let acts := (ownActs m core).filter (fun x => match x.kind with | .free _ => true | .renew .. => true | _ => false)
  { k with alloc := k.alloc.map (fun e => (e.1, overlayAlloc acts e.2)) }

/-- The allocation check of a word on its own core's pool, at issue (R151). -/
def ownCheck (m : Mach) (core off size : Nat) (reads : Bool) : Option Byte :=
  allocCheck (setCore m core (ownTable m core)) core off size reads

/-! ### R312 -/

/-- What the checks of an access give. -/
inductive MemRes where
  | ok (pa : Nat) (mir : Bool)
  | fail (cause : Byte) (finfo : Word)
  | stall
deriving DecidableEq, Repr

/-- Keep or drop the cached translation that an access met (R161). -/
def metTr (m : Mach) (core : Nat) (t : Option Tr) : Mach :=
  match t with
  | some t => if t.ok then noteTr m core t else dropTr m core t
  | none => m

/-- Translation of `size` bytes at an address value, for the issuing context (R142, R156, R160). An address at which nothing
is gets refused at its target, later (R12, step 5 of R312). -/
def reachX (m : Mach) (va : Word) (size : Nat) (acc : Acc) : Mach × MemRes :=
  let core := m.iss.core
  let (r, t) := xlate m (whoOf m core m.iss.ctx) va size acc
  let m := metTr m core t
  match r with
  | .fault c f => (m, .fail c (if c = 0x19 then finfoHere m else f))
  | .miss q => (enterMiss m core q, .stall)
  | .moving => (m, .stall)
  | .remote .. => (m, .fail causePerm (finfoT 7 2))
  | .ok pa mir _ => (m, .ok pa mir)
  | .absent pa => (m, .ok pa false)

/-- Steps 3 and 4 of R312: translation, and the allocation check of the own pool (R151). -/
def reach (m : Mach) (va : Word) (size : Nat) (acc : Acc) (reads : Bool) : Mach × MemRes :=
  match reachX m va size acc with
  | (m, .ok pa mir) =>
    if targetOf m pa = .pool m.iss.core then
      match ownCheck m m.iss.core (poolOff pa) size reads with
      | some c => (m, .fail c (finfoHere m))
      | none => (m, .ok pa mir)
    else (m, .ok pa mir)
  | r => r

/-- Steps 2 to 4 of R312. -/
def access (m : Mach) (va : Word) (align size : Nat) (acc : Acc) (reads : Bool) : Mach × MemRes :=
  if va.toNat % align ≠ 0 then (m, .fail 0x0A (finfoHere m)) else reach m va size acc reads

/-! ### Fences (R193, R194) -/

/-- Does a scope cover the memory at a physical address, for a context of a core? -/
def covers (m : Mach) (scope core pa : Nat) : Bool :=
  match targetOf m pa with
  | .hbm => 3 ≤ scope
  | .none => 3 ≤ scope
  | .pool c =>
    3 ≤ scope || c == core || (scope == 1 && clusterOf c == clusterOf core) || (scope == 2 && dieOf c == dieOf core)

/-- Does a scope cover the memory that an address value of an engine command names, for a partition's tables
(log 20)? A page may map HBM or a pool. -/
def coversVa (m : Mach) (scope core area : Nat) (va : Word) : Bool :=
  4 ≤ scope ||
    (if va.toNat / 2 ^ 60 = 15 then
      match poolDecide m core va.toNat with
      | .ok pa _ _ => covers m scope core pa
      | _ => 3 ≤ scope
     else if va.toNat / 2 ^ 60 = 14 then
      let raw := (walkWindow m area (va.toNat / 2 ^ 48 % 4096)).raw
      winKind raw == 0 && covers m scope core (winTbase raw + va.toNat % 2 ^ 48)
     else
      let t := walkPage m area va.toNat
      if t.ok then covers m scope core (leafPa t.raw / 2 ^ pageShift t.level * 2 ^ pageShift t.level + va.toNat % 2 ^ pageShift t.level)
      else 3 ≤ scope)

/-- Does an unfinished fence of an earlier bundle of the issuing context hold back an action of these classes on
covered memory? -/
def heldByFence (m : Mach) (classes : BitVec 5) (cov : Nat → Bool) : Bool :=
  (getAgent m (ctxAgent m.iss.core m.iss.ctx)).iq.any (fun a =>
    match a.kind with
    | .fence _ succ scope => a.tag < m.iss.tag0 && succ &&& classes != 0 && cov scope
    | _ => false)

/-! ### Adding actions and pending results -/

/-- MIRW and MBASE that govern a context's writes: those of its unit's placement (spec/19 R266). -/
def mirrorTo (m : Mach) (core i : Nat) : Option Nat × Nat :=
  let c := getCtx m core i
  match c.unit with
  | some u => (u.mirw, u.mbase)
  | none => ((getPart m c.area).mirw, (getPart m c.area).mbase)

/-- Append the parts of one word to the issuing context's issue queue, under the next number. -/
def addActs (m : Mach) (acts : List Act) : Mach :=
  let area := (getCtx m m.iss.core m.iss.ctx).area
  let mt := mirrorTo m m.iss.core m.iss.ctx
  let m := modAgent m (ctxAgent m.iss.core m.iss.ctx) (fun a =>
    { a with iq := a.iq ++ acts.map (fun x => { x with
      tag := m.tag, area := area, finfo := finfoHere m, mirw := if x.mir then mt.1 else none, mbase := if x.mir then mt.2 else 0 }) })
  { m with tag := m.tag + 1 }

/-- Mark registers or a row pending for the word numbered `tag` (R70). A register written later supersedes what
is in flight for it (R69). -/
def addPend (m : Mach) (p : Pend) : Mach :=
  onIss m (fun c => { supersede c p.dst with pend := c.pend ++ [p] })

/-- Scalar destinations that are not s0. -/
def sDst (ds : List (BitVec 6)) : List Dst := (ds.filter (· != 0)).map .s

/-- The granule part of `n` bytes at a physical address (R189). -/
def partAct (kind : ActKind) (pa n : Nat) (data : Nat) (va : Word) (mir : Bool) (part : Nat) : Act :=
  { tag := 0, part := part, kind := kind, gran := pa / 16 * 16, mask := byteMask (pa % 16) n,
    data := BitVec.ofNat 128 (data * 256 ^ (pa % 16)), va := va, mir := mir }

/-- The four granule parts of a block (R190). -/
def blockActs (kind : ActKind) (pa : Nat) (b : Block) (va : Word) (mir : Bool) (part : Nat) : List Act :=
  (blockGrans b).zipIdx.map (fun e =>
    { tag := 0, part := part + e.2, kind := kind, gran := pa + 16 * e.2, mask := 0xFFFF, data := e.1,
      va := va, mir := mir })

/-- The first poisoned of some operands. -/
def poisonOf (xs : List Scalar) : Option Scalar := xs.find? (fun x => x.pois)

/-- Step 1 of R312, then the rest. -/
def noPoison (m : Mach) (xs : List Scalar) (f : Mach → Mach) : Mach :=
  match poisonOf xs with
  | some p => trapPoison m p
  | none => f m

/-- Steps 2 to 4 of R312 for a word that traps on a failure, then a fence's hold, then the word. -/
def accessing (m : Mach) (va : Word) (align size : Nat) (acc : Acc) (reads : Bool) (classes : BitVec 5)
    (f : Mach → Nat → Bool → Mach) : Mach :=
  match access m va align size acc reads with
  | (m, .fail c i) => trapAt m c va i none
  | (m, .stall) => stallBundle m
  | (m, .ok pa mir) =>
    if heldByFence m classes (fun s => covers m s m.iss.core pa) then stallBundle m else f m pa mir

/-- Reach every block of a range: their physical addresses, or what stops the word. -/
def reachAll (m : Mach) (acc : Acc) (reads : Bool) : List Word → Mach × Except (Word × MemRes) (List (Word × Nat × Bool))
  | [] => (m, .ok [])
  | va :: vas =>
    match reach m va 64 acc reads with
    | (m, .ok pa mir) =>
      match reachAll m acc reads vas with
      | (m, .ok xs) => (m, .ok ((va, pa, mir) :: xs))
      | r => r
    | (m, r) => (m, .error (va, r))

/-- Addresses of `n` consecutive blocks. -/
def blockVas (va : Word) (n : Nat) : List Word := (List.range n).map (fun i => va + BitVec.ofNat 64 (64 * i))

/-- Steps 3 and 4 for every block, a fence's hold, then the word with the blocks' places. -/
def accessingAll (m : Mach) (vas : List Word) (acc : Acc) (reads : Bool) (classes : BitVec 5)
    (f : Mach → List (Word × Nat × Bool) → Mach) : Mach :=
  match reachAll m acc reads vas with
  | (m, .error (va, .fail c i)) => trapAt m c va i none
  | (m, .error _) => stallBundle m
  | (m, .ok xs) =>
    if heldByFence m classes (fun s => xs.any (fun x => covers m s m.iss.core x.2.1)) then stallBundle m else f m xs

end Sys2Proof.Machine
end

