-- ==== Sys2Proof/Machine/LWords.lean ====
section
/-!
DEFINITION. The L words (spec/21_reference_l_m.md R312 to R332, spec/08_pool_memory.md R150 to R157,
spec/12_engines.md R205, R213, spec/14_bilvel_fabric.md R222).
-/

namespace Sys2Proof.Machine

/-! ### Loads, stores and atomics of scalars -/

/-- The loads of a word, at one part, and its pending result. -/
def startLoad (m : Mach) (va : Word) (pa size : Nat) (ds : List (BitVec 6)) (spec : Bool) : Mach :=
  let m1 := addPend m
    { tag := m.tag, use := .load (pa % 16) size, dst := sDst ds, need := 1, got := [], vals := [], known := false,
      spec := spec, bad := none, va := va, finfo := finfoHere m }
  addActs m1 [{ partAct .ld pa size 0 va false 0 with spec := spec }]

/-- A speculative load that fails poisons its destination (R81). -/
def specPoison (m : Mach) (va : Word) (ds : List (BitVec 6)) (cause : Byte) : Mach :=
  let m1 := addPend m
    { tag := m.tag, use := .regs, dst := sDst ds, need := 0, got := [], vals := [], known := true, spec := true,
      bad := some (cause, va), va := va, finfo := finfoHere m }
  { m1 with tag := m1.tag + 1 }

/-- The registers of a load: one, or a pair for 16 bytes. -/
def loadDst (d : BitVec 6) (size : Nat) : List (BitVec 6) := if size = 16 then [d, pairOf d] else [d]

/-- l.ld (R321). -/
def execLLd (h : Hd) (d a : BitVec 6) (sz : BitVec 3) (p : Bool) (i : BitVec 3) (s : State) : Out :=
  runWord s h (fun m =>
    let size := sizeOf sz
    let base := rdS m 0 a
    let va := base.val + offImm3 i size
    let ds := loadDst d size
    if p then
      if base.pois then specPoison m va ds base.cause
      else
        match access m va size size accRead true with
        | (m, .fail c _) => specPoison m va ds c
        | (m, .stall) => stallBundle m
        | (m, .ok pa _) =>
          if heldByFence m 1 (fun x => covers m x m.iss.core pa) then stallBundle m
          else startLoad m va pa size ds true
    else noPoison m [base] (fun m =>
      accessing m va size size accRead true 1 (fun m pa _ => startLoad m va pa size ds false)))

/-- The bytes of a store: the low bytes of a register, or a pair. -/
def pairVal (lo hi : Scalar) (size : Nat) : Nat :=
  if size = 16 then lo.val.toNat + hi.val.toNat * 2 ^ 64 else lo.val.toNat % 256 ^ size

/-- l.st (R328). -/
def execLSt (h : Hd) (d a : BitVec 6) (sz i : BitVec 3) (s : State) : Out :=
  runWord s h (fun m =>
    let size := sizeOf sz
    let base := rdS m 0 a
    let lo := rdS m 1 d
    let hi := rdS m 2 (pairOf d)
    let va := base.val + offImm3 i size
    noPoison m ([base, lo] ++ (if size = 16 then [hi] else [])) (fun m =>
      accessing m va size size accWrite false 2 (fun m pa mir =>
        addActs m [partAct .st pa size (pairVal lo hi size) va mir 0])))

/-- An atomic: one action, its old value in the destinations (R191). -/
def startAtomic (m : Mach) (va : Word) (pa size : Nat) (mir : Bool) (ds : List (BitVec 6)) (kind : ActKind) : Mach :=
  let m1 := addPend m
    { tag := m.tag, use := .load (pa % 16) size, dst := sDst ds, need := 1, got := [], vals := [], known := false,
      spec := false, bad := none, va := va, finfo := finfoHere m }
  addActs m1 [partAct kind pa size 0 va mir 0]

/-- The expected value of an l.cas: s(d), or the pair; with d = 0 it is 0 (R317). -/
def casWant (d : BitVec 6) (lo hi : Scalar) (size : Nat) : Nat := if d = 0 then 0 else pairVal lo hi size

/-- l.cas (R317). -/
def execLCas (h : Hd) (d a b : BitVec 6) (z : Bool) (s : State) : Out :=
  runWord s h (fun m =>
    let size := if z then 16 else 8
    let base := rdS m 0 a
    let o0 := rdS m 1 d
    let o1 := rdS m 2 (pairOf d)
    let n0 := rdS m 3 b
    let n1 := rdS m 4 (pairOf b)
    noPoison m (if z then [base, o0, o1, n0, n1] else [base, o0, n0]) (fun m =>
      accessing m base.val size size accAtomic true 3 (fun m pa mir =>
        startAtomic m base.val pa size mir (loadDst d size)
          (.cas (pa % 16) size (BitVec.ofNat 128 (casWant d o0 o1 size)) (BitVec.ofNat 128 (pairVal n0 n1 size))))))

/-- The shared form of l.amo (R316). -/
def amoWord (m : Mach) (op : Nat) (d a b : BitVec 6) (z : Bool) : Mach :=
  let size := if z then 4 else 8
  let base := rdS m 0 a
  let v := rdS m 1 b
  noPoison m [base, v] (fun m =>
    accessing m base.val size size accAtomic true 3 (fun m pa mir =>
      startAtomic m base.val pa size mir [d]
        (.amo op (pa % 16) size (BitVec.ofNat 64 (v.val.toNat % 256 ^ size)))))

/-- l.amo.add (Table 21-3). -/
def execLAmoAdd (h : Hd) (d a b : BitVec 6) (z : Bool) (s : State) : Out := runWord s h (fun m => amoWord m 0 d a b z)
/-- l.amo.and. -/
def execLAmoAnd (h : Hd) (d a b : BitVec 6) (z : Bool) (s : State) : Out := runWord s h (fun m => amoWord m 1 d a b z)
/-- l.amo.or. -/
def execLAmoOr (h : Hd) (d a b : BitVec 6) (z : Bool) (s : State) : Out := runWord s h (fun m => amoWord m 2 d a b z)
/-- l.amo.xor. -/
def execLAmoXor (h : Hd) (d a b : BitVec 6) (z : Bool) (s : State) : Out := runWord s h (fun m => amoWord m 3 d a b z)
/-- l.amo.min. -/
def execLAmoMin (h : Hd) (d a b : BitVec 6) (z : Bool) (s : State) : Out := runWord s h (fun m => amoWord m 4 d a b z)
/-- l.amo.max. -/
def execLAmoMax (h : Hd) (d a b : BitVec 6) (z : Bool) (s : State) : Out := runWord s h (fun m => amoWord m 5 d a b z)
/-- l.amo.swap. -/
def execLAmoSwap (h : Hd) (d a b : BitVec 6) (z : Bool) (s : State) : Out := runWord s h (fun m => amoWord m 6 d a b z)

/-! ### Rows -/

/-- The places in program order that an l.vld keeps for the blocks after its first, until its format says how many
there are: those that can be reached (R185, R330). -/
def vldRest (m : Mach) (prec : Word) (va : Word) : List Act :=
  ((List.range (if isA16 prec then 8 else 4)).drop 1).filterMap (fun b =>
    match xlateNow m (whoOf m m.iss.core m.iss.ctx) (va + BitVec.ofNat 64 (64 * b)) 64 accRead with
    | .ok pa _ _ | .absent pa => some { tag := 0, part := 4 * b, kind := .more, gran := pa, va := va + BitVec.ofNat 64 (64 * b) }
    | _ => none)

/-- l.vld (R330): the block at EA; the later blocks follow when its format is known. -/
def execLVld (h : Hd) (t : BitVec 2) (r a : BitVec 6) (o : BitVec 3) (s : State) : Out :=
  runWord s h (fun m =>
    let base := rdS m 0 a
    let va := base.val + offOff3 o
    if tilesOf m ≤ t.toNat then trapW m 0x11
    else noPoison m [base] (fun m =>
      accessing m va 64 64 accRead true 1 (fun m pa mir =>
        let m1 := addPend m
          { tag := m.tag, use := .row (64 * t.toNat + r.toNat), dst := [], need := 4, got := [],
            vals := [{ val := precOf m.iss.snap t.toNat }], known := false, spec := false, bad := none, va := va,
            finfo := finfoHere m }
        addActs m1 (blockActs .ld pa 0 va mir 0 ++ vldRest m (precOf m.iss.snap t.toNat) va))))

/-- Lists of `k` values, `n` of them. -/
def chunks {α : Type} (n k : Nat) (xs : List α) : List (List α) := (List.range n).map (fun i => (xs.drop (i * k)).take k)

/-- ceil(x / y). -/
def ceilDiv (x y : Nat) : Nat := (x + y - 1) / y

/-- Elements per block of a format. -/
def epbOf (fmt : Nat) : Nat := match blkFmt fmt with | some f => f.n | none => 1

/-- The blocks that a converting store of one row writes, and whether a result is subnormal (R131). -/
def rowBlocks (o : Fmto) (xs : List Val) : List Block × Bool :=
  let bs := (chunks (ceilDiv xs.length (epbOf o.fmt)) (epbOf o.fmt) xs).map (writeBlock o)
  (bs.map (·.1), bs.any (·.2))

/-- The four blocks of a row in its tile's own type (Table 7-6), and whether a result is subnormal. -/
def tileBlocks (a : Nat) (sat : Bool) (r : Row) : List Block × Bool :=
  let fmt := match a with | 0 => 0x50 | 1 => 0x51 | 2 => 0x50 | 3 => 0x41 | _ => 0x40
  let codes := if isAxb a then (laneVals r a).map (fpConv fp32 sat) else laneCodes r a
  ((chunks 4 (lanesOf a / 4) codes).map (mkBlock fmt 0x78 0 (laneW a)), isAxb a && codes.any (fpIsSub fp32))

/-- The stores of blocks at their places. -/
def storeBlocks (m : Mach) (places : List (Word × Nat × Bool)) (bs : List Block) : Mach :=
  addActs m (((places.zip bs).zipIdx.map (fun e => blockActs .st e.1.1.2.1 e.1.2 e.1.1.1 e.1.1.2.2 (4 * e.2))).flatten)

/-- l.vst (R331). -/
def execLVst (h : Hd) (t : BitVec 2) (r a : BitVec 6) (o : BitVec 3) (f : BitVec 2) (s : State) : Out :=
  runWord s h (fun m =>
    let base := rdS m 0 a
    let va := base.val + offOff3 o
    let ty := tileType m t.toNat
    let fo := fmtoOf (if f = 1 then m.iss.snap.fmto0 else m.iss.snap.fmto1)
    if tilesOf m ≤ t.toNat then trapW m 0x11
    else noPoison m [base] (fun m =>
      if f ≠ 0 ∧ fmtoBad fo then trapW m 0x18
      else if va.toNat % 64 ≠ 0 then trapA m 0x0A va
      else
        let row := rowAt m 2 (64 * t.toNat + r.toNat)
        let (bs, sub) := if f = 0 then tileBlocks ty (tileSat m t.toNat) row else rowBlocks fo (laneVals row ty)
        accessingAll m (blockVas va bs.length) accWrite false 2 (fun m ps =>
          if sub then trapAt m 0x1B 0 (finfoHere m) (some t.toNat) else storeBlocks m ps bs)))

/-- l.stash (R177, R329). FMTO1 counts with SMODE 01, in its check too. -/
def execLStash (h : Hd) (t : BitVec 2) (a b : BitVec 6) (s : State) : Out :=
  runWord s h (fun m =>
    let va := rdS m 0 a
    let vb := rdS m 1 b
    let ty := tileType m t.toNat
    let f0 := fmtoOf m.iss.snap.fmto0
    let f1 := fmtoOf m.iss.snap.fmto1
    if tilesOf m ≤ t.toNat then trapW m 0x11
    else noPoison m [va, vb] (fun m =>
      if fmtoBad f0 ∨ fmtoBad { f1 with smode := 1 } then trapW m 0x18
      else if va.val.toNat % 64 ≠ 0 then trapA m 0x0A va.val
      else if vb.val.toNat % 64 ≠ 0 then trapA m 0x0A vb.val
      else
        let rows := (List.range 64).map (fun r => laneVals (rowAt m 2 (64 * t.toNat + r)) ty)
        let plain := rows.map (rowBlocks f0)
        let turned := (List.range 60).map (fun n =>
          rowBlocks { f1 with smode := 1 } ((rows.take 60).map (fun r => r.getD n (.num false 0 1 0))))
        let bs := ((plain ++ turned).map (·.1)).flatten
        let na := (plain.map (fun x => x.1.length)).foldl (· + ·) 0
        accessingAll m (blockVas va.val na ++ blockVas vb.val (bs.length - na)) accWrite false 2 (fun m ps =>
          if (plain ++ turned).any (·.2) then trapAt m 0x1B 0 (finfoHere m) (some t.toNat)
          else storeBlocks m ps bs)))

/-- The places of the blocks of an l.radd: HBM alone (R213). -/
def raddReach (m : Mach) : List Word → Mach × Except (Word × MemRes) (List (Word × Nat × Bool))
  | [] => (m, .ok [])
  | va :: vas =>
    match xlate m (whoOf m m.iss.core m.iss.ctx) va 64 accRadd with
    | (.ok pa mir _, tr) =>
      let m := metTr m m.iss.core tr
      if targetOf m pa = .hbm then
        match raddReach m vas with
        | (m, .ok xs) => (m, .ok ((va, pa, mir) :: xs))
        | r => r
      else (m, .error (va, .fail causePerm (finfoT 7 2)))
    | (.absent pa, tr) =>
      match raddReach (metTr m m.iss.core tr) vas with
      | (m, .ok xs) => (m, .ok ((va, pa, false) :: xs))
      | r => r
    | (.fault c f, tr) => (metTr m m.iss.core tr, .error (va, .fail c (if c = 0x19 then finfoHere m else f)))
    | (.miss q, _) => (enterMiss m m.iss.core q, .error (va, .stall))
    | (.moving, tr) => (metTr m m.iss.core tr, .error (va, .stall))
    | (.remote .., tr) => (metTr m m.iss.core tr, .error (va, .fail causePerm (finfoT 7 2)))

/-- l.radd (R213, R323). -/
def execLRadd (h : Hd) (t : BitVec 2) (r a : BitVec 6) (o : BitVec 3) (s : State) : Out :=
  runWord s h (fun m =>
    let base := rdS m 0 a
    let va := base.val + offOff3 o
    if tilesOf m ≤ t.toNat then trapW m 0x11
    else noPoison m [base] (fun m =>
      if va.toNat % 64 ≠ 0 then trapA m 0x0A va
      else if tileType m t.toNat ≠ 0 then trapW m 0x1A
      else
        let row := rowAt m 2 (64 * t.toNat + r.toNat)
        match raddReach m (blockVas va 4) with
        | (m, .error (va, .fail c i)) => trapAt m c va i none
        | (m, .error _) => stallBundle m
        | (m, .ok ps) =>
          if heldByFence m 2 (fun x => ps.any (fun q => covers m x m.iss.core q.2.1)) then stallBundle m
          else
            addActs m (ps.zipIdx.map (fun e =>
              { tag := 0, part := e.2, kind := .radd (BitVec.ofNat 480 (row.data.toNat / 2 ^ (480 * e.2))),
                gran := e.1.2.1, mask := 0xFFFF, va := e.1.1, mir := e.1.2.2 }))))

/-! ### The allocation table (R150, R152, R153) -/

/-- The address value of an own pool offset (R142). -/
def ownPoolVa (core off : Nat) : Word := BitVec.ofNat 64 (15 * 2 ^ 60 + kOf core * 2 ^ 23 + off)

/-- The LIVE entry of the issuing context with a base address value. -/
def ownEntry (m : Mach) (va : Word) : Option Alloc :=
  (((ownTable m m.iss.core).alloc.map (·.2)).find? (fun e =>
    e.used && !e.freeing && e.pinned.isNone && e.ctx == m.iss.ctx && ownPoolVa m.iss.core e.base == va))

/-- l.alloc (R150, R315). -/
def execLAlloc (h : Hd) (d a b : BitVec 6) (s : State) : Out :=
  runWord s h (fun m =>
    let x := rdS m 0 a
    let y := rdS m 1 b
    noPoison m [x, y] (fun m =>
      let n := x.val.toNat % 2 ^ 17
      let sw := x.val.toNat / 2 ^ 17 % 8
      let life := y.val.toNat % 2 ^ 32
      if x.val.toNat / 2 ^ 20 ≠ 0 ∨ y.val.toNat / 2 ^ 32 ≠ 0 then trapW m 0x1A
      else if sw = 7 then trapW m 0x18
      else if n = 0 ∨ 2 ^ 22 - spbase (getCore m m.iss.core).partw < 64 * n then trapW m 0x11
      else if life = 0 ∨ tretOf m m.iss.core < life then trapW m 0x12
      else
        let m1 := addPend m
          { tag := m.tag, use := .regs, dst := sDst [d], need := 0, got := [], vals := [], known := false, spec := false,
            bad := none, va := 0, finfo := finfoHere m }
        addActs m1 [{ tag := 0, kind := .alloc n sw life }]))

/-- l.free (R153, R319). -/
def execLFree (h : Hd) (a : BitVec 6) (s : State) : Out :=
  runWord s h (fun m =>
    let x := rdS m 0 a
    noPoison m [x] (fun m =>
      match ownEntry m x.val with
      | none => trapA m 0x11 x.val
      | some e => addActs m [{ tag := 0, kind := .free e.base }]))

/-- l.renew (R152, R324). -/
def execLRenew (h : Hd) (a b : BitVec 6) (s : State) : Out :=
  runWord s h (fun m =>
    let x := rdS m 0 a
    let y := rdS m 1 b
    noPoison m [x, y] (fun m =>
      if y.val.toNat / 2 ^ 32 ≠ 0 then trapW m 0x1A
      else
        match ownEntry m x.val with
        | none => trapA m 0x11 x.val
        | some e =>
          if y.val = 0 ∨ tretOf m m.iss.core < y.val.toNat then trapW m 0x12
          else if e.exp ≤ m.nowt then trapA m 0x10 x.val
          else addActs m [{ tag := 0, kind := .renew e.base y.val.toNat (m.nowt + y.val.toNat) }]))

/-! ### l.win (R157, R332) -/

/-- l.win: the entry is read as a load of two granules; the context stays Stalled until s(d) lands. -/
def execLWin (h : Hd) (d a b : BitVec 6) (s : State) : Out :=
  runWord s h (fun m =>
    let x := rdS m 0 a
    let y := rdS m 1 b
    noPoison m [x, y] (fun m =>
      if x.val.toNat / 2 ^ 12 ≠ 0 then trapW m 0x1A
      else
        accessing m y.val 32 32 accRead true 0 (fun m pa mir =>
          let m1 := addPend m
            { tag := m.tag, use := .win x.val.toNat false, dst := sDst [d], need := 2, got := [], vals := [],
              known := false, spec := false, bad := none, va := y.val, finfo := finfoHere m }
          addActs m1 ([partAct .ld pa 16 0 y.val mir 0, partAct .ld (pa + 16) 16 0 y.val mir 1].map (fun a => { a with aux := 2 })))))

/-! ### Engine commands (R205, R222, R314) -/

/-- The fields of option words (Tables 12-5, 12-6, 14-3), by kind: 0 l.copy, 1 l.gath, 2 l.rld, 3 l.rst,
4 l.rred, 5 l.mcast. -/
def optRnf (kind opt : Nat) : Bool := (kind == 0 && opt / 2 ^ 23 % 2 == 1) || (kind == 1 && opt / 2 ^ 22 % 2 == 1)
def optVer (kind opt : Nat) : Bool := (kind == 0 && opt / 2 ^ 22 % 2 == 1) || (kind == 1 && opt / 2 ^ 21 % 2 == 1)
def optBarf (kind opt : Nat) : Nat :=
  match kind with
  | 0 => opt / 2 ^ 17 % 32
  | 1 => opt / 2 ^ 16 % 32
  | 2 => opt / 2 ^ 17 % 32
  | _ => 0
def optRbarf (kind opt : Nat) : Nat := if kind = 3 ∨ kind = 5 then opt / 2 ^ 11 % 32 else 0
def optDirect (opt : Nat) : Bool := opt / 2 ^ 24 % 2 == 1
def optHnd (kind opt : Nat) : Bool :=
  ((kind == 3 || kind == 5) && opt / 2 ^ 24 % 2 == 1) || (kind == 4 && optDirect opt && opt / 2 ^ 19 % 2 == 1)
def optHidx (kind opt : Nat) : Nat := if kind = 4 then opt / 2 ^ 11 % 256 else opt / 2 ^ 16 % 256
def optNblk (kind opt : Nat) : Nat :=
  match kind with
  | 0 => opt % 2 ^ 16 + 1
  | 2 => opt % 4 + 1
  | _ => opt % 256 + 1
def optOp (opt : Nat) : Nat := opt / 2 ^ 21 % 8
def optCmp (opt : Nat) : Bool := opt / 2 ^ 10 % 2 == 1

/-- Does an option field, or the form of s(a), hold a refused value (R205, R222, R314)? -/
def optRefused (kind opt : Nat) (a : Nat) (noWord : Bool) : Bool :=
  match kind with
  | 0 => 17 ≤ optBarf 0 opt || opt / 2 ^ 16 % 2 == 1 || (noWord && optRnf 0 opt)
  | 1 => 2 ≤ opt / 2 ^ 23 || 17 ≤ optBarf 1 opt || opt % 2 ^ 16 != 0 || (noWord && optRnf 1 opt)
  | 2 => opt / 2 ^ 22 != 0 || 17 ≤ optBarf 2 opt || opt / 4 % 2 ^ 15 != 0
  | 3 => 17 ≤ optRbarf 3 opt || opt / 2 ^ 8 % 8 != 0
  | 4 =>
    opt / 2 ^ 20 % 2 == 1 || opt / 2 ^ 8 % 4 != 0 || (optCmp opt && optNblk 4 opt % 4 != 0)
      || (if optDirect opt then 5 ≤ optOp opt
          else optOp opt != 0 || opt / 2 ^ 11 % 512 != 0 || a / 2 ^ 10 != 0)
  | _ =>
    17 ≤ optRbarf 5 opt || opt / 2 ^ 8 % 8 != 0 || a / 2 ^ 20 % 16 != 0 || a / 2 ^ 48 != 0
      || 4096 ≤ a % 4096 + a / 2 ^ 12 % 256

/-- The fence classes of a command (Table 11-3): copy and gather, remote, and handler-flagged sends. -/
def cmdClasses (kind opt : Nat) : BitVec 5 :=
  (if kind ≤ 1 then 4 else 8) ||| (if optHnd kind opt then 16 else 0)

/-- The source rows of a gather from its list, the entries read first: base addresses. -/
def gathRows (m : Mach) (w : Who) (walk : Bool) (list : Word) (src : Word) (rstr n : Nat) (read : List Nat) : List Word :=
  let size := if walk then 8 else 4
  let entry (g : Nat) : List Nat :=
    match read[g]? with
    | some x => [x]
    | none => match readVa m w (list + BitVec.ofNat 64 (size * g)) size with | .ok x => [x] | .error _ => []
  (((List.range n).map entry).flatten.map (fun x =>
    if walk then (List.range (min 64 (x / 2 ^ 32))).map (fun i => src + BitVec.ofNat 64 ((x % 2 ^ 32 + i) * rstr))
    else [src + BitVec.ofNat 64 (x * rstr)])).flatten

/-- The ranges of address values that a command names: sources, destinations, list, descriptor, completion word. -/
def cmdRanges (m : Mach) (w : Who) (kind opt : Nat) (a b : Word) (cw : Option Word) (desc : BitVec 256) (read : List Nat) :
    List (Word × Nat) :=
  let n := 64 * optNblk kind opt
  let cwr := cw.toList.map (fun v => (v, 8))
  match kind with
  | 0 => cwr ++ [(a, n), (b, n)]
  | 1 =>
    let d : Nat := if desc ≠ 0 then desc.toNat else match readVa m w b 32 with | .ok x => x | .error _ => 0
    let f (o k : Nat) : Nat := d / 256 ^ o % 256 ^ k
    let walk : Bool := opt / 2 ^ 23 % 4 == 1
    let rows := gathRows m w walk (BitVec.ofNat 64 (f 0 8)) (BitVec.ofNat 64 (f 8 8)) (f 20 4) (min 65536 (f 16 4)) read
    let out := if walk then min 64 rows.length else f 16 4
    cwr ++ [(b, 32), (BitVec.ofNat 64 (f 0 8), (if walk then 8 else 4) * f 16 4), (a, 64 * (out * f 24 2))]
      ++ rows.map (fun v => (v, 64 * f 24 2))
  | 2 => cwr ++ [(a, n)]
  | _ => cwr ++ [(b, n)]

/-- The addresses of a range that stand for the pages it meets. -/
def rangeVas (r : Word × Nat) : List Word :=
  if r.2 = 0 then [] else (List.range (r.2 / 65536 + 2)).map (fun i => r.1 + BitVec.ofNat 64 (min (65536 * i) (r.2 - 1)))

/-- Does a scope cover every memory that a command touches (R194), a gather's rows among it? `desc` and `read` are the
descriptor and the list entries that the command has read. -/
def coversCmd (m : Mach) (scope core area owner kind opt : Nat) (a b : Word) (cw : Option Word) (desc : BitVec 256)
    (read : List Nat) : Bool :=
  let n := 64 * optNblk kind opt
  let ranges := match kind with
    | 1 => cmdRanges m { core := core, part := area, owner := owner } 1 opt a b cw desc read
    | _ => cw.toList.map (fun v => (v, 8)) ++ [(a, n), (b, n)]
  let vas := (ranges.map rangeVas).flatten
  4 ≤ scope || (kind != 5 && !(kind == 4 && !(optDirect opt)) && vas.all (coversVa m scope core area))

/-- Slots counted free toward a package (R220). -/
def slotsFree (m : Mach) (core pkg : Nat) : Nat := 8 - smGet 0 (getCore m core).rqUsed pkg

/-- How many l.rld commands toward a package a core has issued whose request is not sent yet: each will take a slot. -/
def rldUnsent (m : Mach) (core pkg : Nat) : Nat :=
  let toward (area : Nat) (b : Word) (opt : BitVec 25) : Bool :=
    match xlateNow m { core := core, part := area, owner := ((getPart m area).owner).getD 0 } b
        (64 * optNblk 2 opt.toNat) accRead with
    | .remote p _ _ _ => p == pkg
    | _ => false
  ((smGet [] (getCore m core).cmds 3).filter (fun c =>
      c.kind == 2 && c.reqs.isEmpty && c.fetched.isNone && !c.ended && c.bad.isNone && toward c.area c.b c.opt)).length
    + ((List.range 16).map (fun i => ((getAgent m (ctxAgent core i)).iq.filter (fun x =>
        match x.kind with | .cmd _ _ b _ opt 2 => toward x.area b opt | _ => false)).length)).sum

/-- What l.rld finds of its source window at issue (R325): a miss to wait for, a refusal, or no free slot. -/
def rldSource (m : Mach) (b : Word) (nblk : Nat) : Mach × Option MemRes :=
  if b.toNat / 2 ^ 60 ≠ 14 then (m, none)
  else
    let core := m.iss.core
    match xlate m (whoOf m core m.iss.ctx) b (64 * nblk) accRead with
    | (.miss q, _) => (enterMiss m core q, some .stall)
    | (.remote pkg _ _ _, t) => (metTr m core t, if slotsFree m core pkg ≤ rldUnsent m core pkg then some .stall else none)
    | (_, t) =>
      let m := metTr m core t
      match t with
      | some t =>
        if t.ok && !winInvalid t.raw && (winKind t.raw == 0 || !winFlag t.raw 1) then
          (m, some (.fail causePerm (finfoT 7 2)))
        else (m, none)
      | none => (m, none)

/-- Assign the command's number and queue it behind the context's earlier actions (R192, R205). -/
def issueCommand (m : Mach) (kind e : Nat) (d : BitVec 6) (a b : Word) (cw : Option Word) : Mach :=
  let k := getCore m m.iss.core
  let n := smGet 0 k.eiss e + 1
  let c := issCtx m
  let seen := BitVec.ofNat 64 (n + smGet 0 c.mapE0 e - smGet 0 c.mapH e)
  let m := setCore { m with iss := { m.iss with issuedTo := some e } } m.iss.core { k with eiss := smPut 0 k.eiss e n }
  let m := onIss m (fun c => { c with lastCmd := smPut 0 c.lastCmd e seen.toNat })
  let m := if d = 0 then m else
    addPend m
      { tag := m.tag, use := .regs, dst := [.s d], need := 0, got := [], vals := [{ val := seen }], known := false,
        spec := false, bad := none, va := 0, finfo := finfoHere m }
  addActs m [{ tag := 0, kind := .cmd e a b cw (optField m) kind, cmd := n }]

/-- The issue steps of R205, in their order, of a command for engine context `e`. -/
def engineWord (m : Mach) (kind : Nat) (d a b : BitVec 6) : Mach :=
  let sa := rdS m 0 a
  let sb := rdS m 1 b
  let sd := rdS m 2 d
  let opt := (optField m).toNat
  let e := if kind = 0 then opt / 2 ^ 24 % 2 else if kind = 1 then 2 else 3
  let core := m.iss.core
  noPoison m [sa, sb, sd] (fun m =>
    if sd.val.toNat % 8 ≠ 0 then trapA m 0x0A sd.val
    else
      let cw : Option Word := if d = 0 then none else some sd.val
      let (m, t) := if d = 0 then (m, MemRes.ok 0 false) else reachX m sd.val 8 accWrite
      match t with
      | .fail c i => trapAt m c sd.val i none
      | .stall => stallBundle m
      | .ok _ _ =>
        if optRefused kind opt sa.val.toNat (d == 0) then trapW m 0x1A
        else
          let (m, r) := if kind = 2 then rldSource m sb.val (optNblk 2 opt) else (m, none)
          match r with
          | some (.fail c i) => trapAt m c sb.val i none
          | some _ => stallBundle m
          | none =>
            let c := issCtx m
            if heldByFence m (cmdClasses kind opt)
                (fun x => coversCmd m x core c.area (ctxOwner c) kind opt sa.val sb.val cw 0 []) then stallBundle m
            else if 32 ≤ smGet 0 (getCore m core).eiss e - smGet 0 (getCore m core).etl e then stallBundle m
            else issueCommand m kind e d sa.val sb.val cw)

/-- l.copy (R318). -/
def execLCopy (h : Hd) (d a b : BitVec 6) (s : State) : Out := runWord s h (fun m => engineWord m 0 d a b)
/-- l.gath (R320). -/
def execLGath (h : Hd) (d a b : BitVec 6) (s : State) : Out := runWord s h (fun m => engineWord m 1 d a b)
/-- l.rld (R325). -/
def execLRld (h : Hd) (d a b : BitVec 6) (s : State) : Out := runWord s h (fun m => engineWord m 2 d a b)
/-- l.rst (R327). -/
def execLRst (h : Hd) (d a b : BitVec 6) (s : State) : Out := runWord s h (fun m => engineWord m 3 d a b)
/-- l.rred (R326). -/
def execLRred (h : Hd) (d a b : BitVec 6) (s : State) : Out := runWord s h (fun m => engineWord m 4 d a b)
/-- l.mcast (R322). -/
def execLMcast (h : Hd) (d a b : BitVec 6) (s : State) : Out := runWord s h (fun m => engineWord m 5 d a b)

end Sys2Proof.Machine
end

