-- ==== Sys2Proof/Machine/MWords.lean ====
section
/-!
DEFINITION. The M words: claiming the array, shape records, operand fills and expansion, pushes, feeds and drains
(spec/09_matrix_array.md R162 to R177, spec/07_number_formats.md R133 to R138, spec/21_reference_l_m.md R333 to
R341).
-/

namespace Sys2Proof.Machine

/-! ### The hold (R162) -/

def arrOf (m : Mach) : Arr := (getCore m m.iss.core).arr

/-- The word waits Stalled while another context holds the array; its tile must exist; its registers must be
unpoisoned (R333). -/
def mHold (m : Mach) (ts : List Nat) (ss : List Scalar) (f : Mach → Mach) : Mach :=
  match (arrOf m).holder with
  | some i => if i = m.iss.ctx then go m else stallBundle m
  | none => go m
where
  go (m : Mach) : Mach :=
    if ts.any (fun t => tilesOf m ≤ t) then trapW m 0x11 else noPoison m ss f

/-- Change the array, and hold it. -/
def onArr (m : Mach) (f : Arr → Arr) : Mach :=
  modCore m m.iss.core (fun k => { k with arr := { f k.arr with holder := some m.iss.ctx } })

/-- Both operand stages emptied (R170). -/
def emptyStages (a : Arr) : Arr := { a with aStage := none, wStage := none }

/-! ### Precision registers (R165, R166) -/

def precWA (p : Word) : Nat := bits p.toNat 3 0 + 1
def precWB (p : Word) : Nat := bits p.toNat 7 4 + 1
def precSA (p : Word) : Bool := p.getLsbD 8
def precSB (p : Word) : Bool := p.getLsbD 9
def precXA (p : Word) : Nat := bits p.toNat 11 10
def precXB (p : Word) : Nat := bits p.toNat 13 12

/-- A PREC value that Table 9-3 does not allow. -/
def precBad (p : Word) : Bool :=
  p.toNat / 2 ^ 20 != 0 || bits p.toNat 15 14 != 0 || 5 ≤ acct p || 2 ≤ precXA p || 2 ≤ precXB p

/-- Dyadic scales in lowest form. -/
def dyadNorm : Nat → Int → Int → Dyad
  | 0, m, e => ⟨m, e⟩
  | fuel + 1, m, e => if m = 0 then ⟨0, 0⟩ else if m % 2 = 0 then dyadNorm fuel (m / 2) (e + 1) else ⟨m, e⟩

def dyad (m : Int) (e : Int) : Dyad := dyadNorm 64 m e
def dyadShift (d : Dyad) (k : Int) : Dyad := if d.m = 0 then d else { d with e := d.e + k }

/-- An undrained partial set under a new width (R166). -/
def setWiden (s : PartialSet) (p q : Word) : PartialSet :=
  let da : Int := if precXA p = 1 then (precWA q : Int) - precWA p else 0
  let db : Int := if precXB p = 1 then (precWB q : Int) - precWB p else 0
  let d := da + db
  { s with
    parts := smOfList 0 0 ((smDense 0 s.parts 0 3840).map (fun x => BitVec.ofInt 48 (valRne (valOfInt x.toInt d))))
    sa := s.sa.map (fun e => (e.1, e.2.map (dyadShift · (-da))))
    sw := s.sw.map (fun e => (e.1, e.2.map (dyadShift · (-db)))) }

/-- Set PREC of a tile: m.prec, and b.wrst to PREC0 to PREC3, without `keep` (R166, R75). `arr` is the array whose set the
word finds: as it stood when the bundle issued (R64). -/
def precWord (m : Mach) (arr : Arr) (t : Nat) (a : Scalar) (keep : Bool) : Mach :=
  mHold m [t] [a] (fun m =>
    let p := precOf m.iss.snap t
    let q := a.val
    let s := smGet {} arr.sets t
    let differs := precSA p != precSA q || precSB p != precSB q || precXA p != precXA q || precXB p != precXB q
      || acct p != acct q
    if precBad q then trapW m 0x1A
    else if s.undrained ∧ (!keep ∨ differs) then trapW m 0x1D
    else
      let m := onArr m (fun a => emptyStages
        (if s.undrained then { a with sets := smPut {} a.sets t (setWiden s p q) } else a))
      onIss m (fun c => setPrec c t q))

/-- m.nop (R337). -/
def execMNop (h : Hd) (s : State) : Out := runWord s h (fun m => m)

/-- m.prec (R338). -/
def execMPrec (h : Hd) (t : BitVec 2) (a : BitVec 6) (k : Bool) (s : State) : Out :=
  runWord s h (fun m => precWord m (arrOf m) t.toNat (rdS m 0 a) k)

/-! ### Reads of the own pool by M words (R167, R168, R176) -/

/-- The place of a block or record in the own pool, or why it can not be read. -/
def ownRead (m : Mach) (va : Word) (align size : Nat) : Except (Byte × Word × Word) Nat :=
  let core := m.iss.core
  if va.toNat % align ≠ 0 then .error (0x0A, va, finfoHere m)
  else if va.toNat / 2 ^ 60 ≠ 15 then .error (causePerm, va, finfoT 7 2)
  else
    match poolDecide m core va.toNat with
    | .ok pa _ _ =>
      if targetOf m pa ≠ .pool core then .error (causePerm, va, finfoT 7 2)
      else
        match ownCheck m core (poolOff pa) size true with
        | some c => .error (c, va, finfoHere m)
        | none => .ok pa
    | .fault c f => .error (c, va, f)
    | _ => .error (causePerm, va, finfoT 7 2)

/-- The places of several reads, or the first that fails. -/
def ownReads (m : Mach) (align size : Nat) : List Word → Except (Byte × Word × Word) (List (Word × Nat))
  | [] => .ok []
  | va :: vas =>
    match ownRead m va align size with
    | .error e => .error e
    | .ok pa =>
      match ownReads m align size vas with
      | .error e => .error e
      | .ok xs => .ok ((va, pa) :: xs)

/-- The fill that the bundle being issued has under way. -/
def fillOf (m : Mach) : Fill := ((issCtx m).fill).getD { tag := 0, want := [], got := [], bad := none, done := true }

/-- The context that issues an M word is the array's holder (R162). -/
def claimArr (m : Mach) : Mach :=
  modCore m m.iss.core (fun k => { k with arr := { k.arr with holder := some m.iss.ctx } })

/-- Ask for `n` granules at each of some places, and stall the bundle until they are bound (R169). The word has
issued, so it claims the array (R162): DEDUCED (log 62), with a trap that follows leaving the context the holder. -/
def askFill (m : Mach) (ps : List (Word × Nat)) (n : Nat) : Mach :=
  if heldByFence m 1 (fun s => covers m s m.iss.core (poolPa m.iss.core 0)) then stallBundle m
  else
    let gs := (ps.map (fun p => (List.range n).map (fun i => (p.1, p.2 + 16 * i)))).flatten
    let f := fillOf m
    let m1 := onIss (claimArr m) (fun c => { c with
      fill := some { f with tag := m.tag, want := f.want ++ gs.map (·.2), done := false } })
    stallBundle (addActs m1 (gs.zipIdx.map (fun e => partAct .ld e.1.2 16 0 e.1.1 false e.2)))

/-- Ask for what the fill does not hold yet, or go on with it. -/
def filling (m : Mach) (vas : List Word) (align size : Nat) (f : Mach → Mach) : Mach :=
  let fl := fillOf m
  if !fl.done then stallBundle m
  else
    let place (va : Word) : Nat := poolPa m.iss.core (va.toNat % 2 ^ 22)
    let missing := vas.filter (fun va => !(ownPoolVa m.iss.core (va.toNat % 2 ^ 22) == va && fl.want.contains (place va)))
    if missing.isEmpty then f m
    else
      match ownReads m align size missing with
      | .error (c, a, i) => trapAt m c a i none
      | .ok ps => askFill m ps (size / 16)

/-- A block that the fill has read. -/
def fillBlock (m : Mach) (va : Word) : Block :=
  let pa := poolPa m.iss.core (va.toNat % 2 ^ 22)
  blockOf ((List.range 4).map (fun i => smGet 0 (fillOf m).got (pa + 16 * i)))

/-- The word is complete: the array is held and the fill is used up. -/
def mDone (m : Mach) (f : Arr → Arr) : Mach := onIss (onArr m f) (fun c => { c with fill := none })

/-! ### Shape records (Table 9-4) -/

def recByte (r : BitVec 256) (i n : Nat) : Nat := r.toNat / 256 ^ i % 256 ^ n
def recNK (r : BitVec 256) : Nat := recByte r 0 2
def recNROW (r : BitVec 256) : Nat := recByte r 2 1
def recESTR (r : BitVec 256) : Nat := recByte r 3 1
def recEOFF (r : BitVec 256) : Nat := recByte r 4 1
def recPT (r : BitVec 256) : Nat := recByte r 5 1
def recKC (r : BitVec 256) : Nat := recByte r 6 2
def recRSTR (r : BitVec 256) : Nat := recByte r 8 4
def recTSTR (r : BitVec 256) : Nat := recByte r 12 4
def recSTEP (r : BitVec 256) : Nat := recByte r 16 8
def recMOFF (r : BitVec 256) : Nat := recByte r 24 4

def recBad (r : BitVec 256) : Bool :=
  recNK r == 0 || 480 < recNK r || recNROW r == 0 || 64 < recNROW r || recESTR r == 0 || 8 < recESTR r
    || 7 < recEOFF r || 3 < recPT r || recKC r == 0 || 480 < recKC r || recRSTR r % 64 != 0 || recTSTR r % 64 != 0
    || recSTEP r % 64 != 0 || recMOFF r % 64 != 0 || recByte r 28 4 != 0

/-- m.shape (R167, R340). A record that traps empties the slot; the read has made the context the holder, which it
stays (log 62). -/
def execMShape (h : Hd) (sh : BitVec 3) (a : BitVec 6) (s : State) : Out :=
  runWord s h (fun m =>
    let x := rdS m 0 a
    mHold m [] [x] (fun m =>
      let own : Bool := x.val.toNat / 2 ^ 60 == 15 &&
        (match poolDecide m m.iss.core x.val.toNat with
         | .ok pa _ _ => decide (targetOf m pa = .pool m.iss.core)
         | _ => false)
      if !own then trapAt m causePerm x.val
        (match poolDecide m m.iss.core x.val.toNat with
         | .fault _ f => if x.val.toNat / 2 ^ 60 = 15 then f else finfoT 7 2
         | _ => finfoT 7 2) none
      else
        filling m [x.val] 32 32 (fun m =>
          let pa := poolPa m.iss.core (x.val.toNat % 2 ^ 22)
          let r : BitVec 256 := BitVec.ofNat 256
            ((smGet 0 (fillOf m).got pa).toNat + (smGet 0 (fillOf m).got (pa + 16)).toNat * 2 ^ 128)
          if recBad r then
            trapW (onArr m (fun a => { a with slots := smPut {} a.slots sh.toNat {} })) 0x1A
          else
            let drop (st : Option Stage) : Option Stage := st.filter (fun x => x.slot != sh.toNat)
            mDone m (fun a => { a with
              slots := smPut {} a.slots sh.toNat { empty := false, record := r, cursor := 0 }
              aStage := drop a.aStage
              wStage := drop a.wStage }))))

/-! ### Operand fills (R168, R169, R133, R134) -/

/-- The block address and element number of element `k` of row `r` (R168). -/
def elemPlace (rc : BitVec 256) (base : Word) (epb r k : Nat) : Word × Nat :=
  let t := k / recKC rc
  let i := recEOFF rc + recESTR rc * (k % recKC rc)
  (base + BitVec.ofNat 64 (r * recRSTR rc + t * recTSTR rc + 64 * (i / epb)), i % epb)

/-- The places of every element of a row. -/
def rowPlaces (rc : BitVec 256) (base : Word) (epb r : Nat) : List (Word × Nat) :=
  (List.range (recNK rc)).map (elemPlace rc base epb r)

/-- The first blocks of the rows. -/
def firstBlocks (rc : BitVec 256) (base : Word) : List Word :=
  (List.range (recNROW rc)).map (fun r => base + BitVec.ofNat 64 (r * recRSTR rc))

/-- The distinct blocks of some places, in order. -/
def blocksOf (ps : List (Word × Nat)) : List Word :=
  ps.foldl (fun acc p => if acc.contains p.1 then acc else acc ++ [p.1]) []

/-- The first block of a list that fails R126. -/
def badBlock (m : Mach) (vas : List Word) : Option (Byte × Word) :=
  vas.findSome? (fun va => (blkFault (fillBlock m va)).map (fun c => (c, va)))

/-- Expansion of a group in aligned-float mode (R133); none where it raises operand-range. -/
def alignGroup (w scl : Nat) (raw vals : List Val) (signed : Bool) : Option (List Int × Option Dyad) :=
  if w = 1 ∨ vals.any (fun v => match v with | .num .. => false | _ => true) then none
  else if !signed ∧ vals.any (fun v => valNeg v && !valIsZero v) then none
  else if scl = 0 ∨ raw.all valIsZero then some (raw.map (fun _ => 0), none)
  else
    let e0 : Int := raw.foldl (fun a v => match v with
      | .num _ p q e => if p = 0 then a else max a (ilog2 p q e)
      | _ => a) (-1000)
    let at_ (e : Int) : List Int := raw.map (fun v => valRne (valScale v (w - 2 - e)))
    let fits (e : Int) : Bool := (at_ e).all (fun n => n ≤ 2 ^ (w - 1) - 1)
    let e := if fits e0 then e0 else e0 + 1
    let (sm, se) := sclVal scl
    let ns := at_ e
    some (ns, if ns.all (· == 0) then none else some (dyad sm (se + e - w + 2)))

/-- Expansion of a group in native-integer mode (R134). -/
def nativeGroup (w : Nat) (b : Block) (f : BlkFmt) (codes : List Nat) (raw : List Val) (signed : Bool) :
    Option (List Int × Option Dyad) :=
  let scl := blkSCL b
  let (sm, se) := if scl = 0 then (0, (0 : Int)) else sclVal scl
  let fits (n : Int) : Bool :=
    if signed then decide (-(2 ^ (w - 1) : Int) ≤ n ∧ n ≤ 2 ^ (w - 1) - 1) else decide (0 ≤ n ∧ n ≤ 2 ^ w - 1)
  let out (ns : List Int) (s : Dyad) : Option (List Int × Option Dyad) :=
    if ns.all fits then some (ns, if ns.all (· == 0) then none else some s) else none
  match f.kind with
  | .bin => out (codes.map Int.ofNat) (dyad sm se)
  | .int => out (codes.map (fun c => if signed then sextInt c f.w else (c : Int))) (dyad sm se)
  | .fp g =>
    if g = e2m1 ∧ scl ≠ 0xFF then out (raw.map (fun v => valRne (valScale v 1))) (dyad sm (se - 1)) else none

/-- One row of a fill (R169): the cause and address that stop it, or its integers and scale. -/
def expandRow (m : Mach) (ps : List (Word × Nat)) (w x : Nat) (signed : Bool) :
    Except (Byte × Word) (List Int × Option Dyad) :=
  let blocks := (blocksOf ps).map (fun va => (va, fillBlock m va))
  match badBlock m (blocksOf ps), blocks with
  | some e, _ => .error e
  | none, [] => .ok ([], none)
  | none, (_, b) :: _ =>
    match blkFmt (blkFMT b) with
    | none => .error (0x18, 0)
    | some f =>
      if blocks.any (fun e => blkFMT e.2 != blkFMT b || blkSCL e.2 != blkSCL b) then .error (0x1A, 0)
      else
        let el (p : Word × Nat) : Block := ((blocks.find? (fun e => e.1 == p.1)).map (·.2)).getD 0
        let raw := ps.map (fun p => elemRaw (el p) f p.2)
        let r :=
          if x = 1 then alignGroup w (blkSCL b) raw (ps.map (fun p => elemVal (el p) f p.2)) signed
          else nativeGroup w b f (ps.map (fun p => blkElem (el p) f p.2)) raw signed
        match r with
        | some y => .ok y
        | none => .error (0x1A, 0)

/-- All rows of a fill, in order. -/
def expandRows (m : Mach) (w x : Nat) (signed : Bool) :
    List (List (Word × Nat)) → Except (Byte × Word) (List (List Int × Option Dyad))
  | [] => .ok []
  | ps :: rest =>
    match expandRow m ps w x signed with
    | .error e => .error e
    | .ok r =>
      match expandRows m w x signed rest with
      | .error e => .error e
      | .ok rs => .ok (r :: rs)

/-- Elements per block of a row's first block. -/
def rowEpb (m : Mach) (va : Word) : Nat := epbOf (blkFMT (fillBlock m va))

/-- A trap of a fill: 0x1A names no address. -/
def fillTrap (m : Mach) (e : Byte × Word) : Mach := trapA m e.1 e.2

/-- Fill the rows of a record at a base, then go on with the expanded rows. -/
def fillRows (m : Mach) (rc : BitVec 256) (base : Word) (w x : Nat) (signed : Bool)
    (f : Mach → List (List Int × Option Dyad) → Mach) : Mach :=
  filling m (firstBlocks rc base) 64 64 (fun m =>
    match badBlock m (firstBlocks rc base) with
    | some e => fillTrap m e
    | none =>
      let rows := (firstBlocks rc base).zipIdx.map (fun e => rowPlaces rc base (rowEpb m e.1) e.2)
      filling m (rows.map blocksOf).flatten 64 64 (fun m =>
        match expandRows m w x signed rows with
        | .error e => fillTrap m e
        | .ok rs => f m rs))

/-! ### Pushes (R171) -/

/-- Reduction elements per group of eight, or none if dense. -/
def spN (sp : BitVec 2) : Option Nat := match sp.toNat with | 0 => none | 1 => some 1 | 2 => some 2 | _ => some 4

/-- The encoded sp: dense, 1:8, 2:8, 4:8 (Table 5-10). -/
def spKf (sp : BitVec 2) : Nat := match spN sp with | none => 60 | some n => 60 * 8 / n

/-- Sparsity positions of a column, or none where they raise operand-range (R171). -/
def positions (b : Block) (n nk : Nat) : Option (List Nat) :=
  let ps := (List.range nk).map (fun k => sextInt (blkElem b ⟨60, 8, .int⟩ k) 8)
  let rising := (List.range nk).all (fun k => k % n == 0 || ps.getD (k - 1) 0 < ps.getD k 0)
  if ps.all (fun p => 0 ≤ p ∧ p ≤ 7) ∧ rising then some (ps.map Int.toNat) else none

/-- The fault of a column's position block: R126, then its FMT. -/
def positionFault (b : Block) : Option Byte := (blkFault b).or (if blkFMT b = 0x30 then none else some 0x1A)

/-- All columns' positions: every block is read and checked, column by column, before any position is (R171, R339). -/
def allPositions (m : Mach) (n nk : Nat) (vas : List Word) : Except (Byte × Word) (List (List Nat)) :=
  match vas.findSome? (fun va => (positionFault (fillBlock m va)).map (fun c => (c, if c = 0x1A then 0 else va))) with
  | some e => .error e
  | none =>
    match vas.mapM (fun va => positions (fillBlock m va) n nk) with
    | some ps => .ok ps
    | none => .error (0x1A, 0)

/-- Positions of a push: none when it is dense. -/
def pushPositions (m : Mach) (sp : BitVec 2) (nk : Nat) (vas : List Word) : Except (Byte × Word) (List (List Nat)) :=
  match spN sp with
  | none => .ok []
  | some n => allPositions m n nk vas

/-- Pad a list to a length. -/
def padTo {α : Type} (n : Nat) (d : α) (xs : List α) : List α := xs ++ List.replicate (n - xs.length) d

/-- Bit `p` of the codes of a row's integers (R164). -/
def planeBits (p : Nat) (ns : List Int) : BitVec 60 :=
  BitVec.ofNat 60 (packCodes 1 (ns.map (fun n => (n % 65536).toNat / 2 ^ p % 2)))

/-- Load a plane of the held W-stage into SHADOW. -/
def loadShadow (a : Arr) (st : Stage) (p : Nat) (rev : Bool) (sp : BitVec 2) (g : Word) : Arr :=
  let rows := padTo 60 ([], none) st.rows
  let sigma := rows.map (·.2)
  let o := a.shadow
  let same := o.orient == rev && o.sp == sp && o.sigma == sigma && o.wb == precWB g && o.sb == precSB g
    && o.xb == precXB g
  let keep := if same then o.planes else []
  { a with shadow :=
    { planes := smIns keep p (rows.map (fun r => planeBits p r.1)), sigma := sigma, orient := rev, sp := sp,
      pos := st.pos, wb := precWB g, sb := precSB g, xb := precXB g } }

/-- m.push (R171, R339). -/
def execMPush (h : Hd) (sh : BitVec 3) (a : BitVec 6) (w : Bool) (p : BitVec 4) (r : Bool) (sp : BitVec 2) (s : State) : Out :=
  runWord s h (fun m =>
    let slot := smGet {} (arrOf m).slots sh.toNat
    let rc := slot.record
    let x := rdS m 0 a
    mHold m (if slot.empty then [] else [recPT rc]) (if w then [] else [x]) (fun m =>
      let g := precOf m.iss.snap (recPT rc)
      if slot.empty ∨ 60 < recNK rc ∨ 60 < recNROW rc ∨ precWB g ≤ p.toNat ∨ (r ∧ sp ≠ 0) then trapW m 0x1A
      else
        let base := if w then slot.cursor else x.val
        let finish (m : Mach) (st : Stage) : Mach :=
          mDone m (fun a => loadShadow { a with
            wStage := some st
            slots := smPut {} a.slots sh.toNat { slot with cursor := base + BitVec.ofNat 64 (recSTEP rc) } } st p.toNat r sp g)
        let hit := (arrOf m).wStage.filter (fun st =>
          st.base == base && st.slot == sh.toNat && st.prec == g && st.rev == r && st.ext == sp.toNat)
        match hit with
        | some st => finish m st
        | none =>
          let posVas := if sp = 0 then [] else
            (List.range (recNROW rc)).map (fun i => base + BitVec.ofNat 64 (i * recRSTR rc + recMOFF rc))
          fillRows m rc base (precWB g) (precXB g) (precSB g) (fun m rows =>
            filling m posVas 64 64 (fun m =>
              match pushPositions m sp (recNK rc) posVas with
              | .error e => fillTrap m e
              | .ok pos => finish m
                { base := base, slot := sh.toNat, prec := g, rev := r, ext := sp.toNat, rows := rows, pos := pos }))))

/-- m.swap (R172, R341). -/
def execMSwap (h : Hd) (s : State) : Out :=
  runWord s h (fun m => mHold m [] [] (fun m => mDone m (fun a => { a with active := a.shadow, shadow := a.active })))

/-! ### Feeds (R164, R173) -/

/-- Element (k, n) of a stationary plane. -/
def statBit (o : Bool) (plane : List (BitVec 60)) (k n : Nat) : Bool :=
  if o then (plane.getD k 0).getLsbD n else (plane.getD n 0).getLsbD k

/-- Weight bits of output `o` over the 60 physical reduction elements. -/
def outBits (st : StatSet) (plane : List (BitVec 60)) (rev : Bool) (o : Nat) : List Bool :=
  (List.range 60).map (fun k => if rev then statBit st.orient plane o k else statBit st.orient plane k o)

/-- Reduction index of physical element `k` of column `o` (R171). -/
def redIndex (st : StatSet) (o k : Nat) : Nat :=
  match spN st.sp with
  | none => k
  | some n => 8 * (k / n) + (st.pos.getD o []).getD k 0

/-- Reduction indexes at which output `o` has a weight bit. -/
def outIndexes (st : StatSet) (plane : List (BitVec 60)) (rev : Bool) (o : Nat) : List Nat :=
  ((outBits st plane rev o).zipIdx.filter (·.1)).map (fun e => redIndex st o e.2)

/-- Activation bit j of a lane's integers, as one number over the reduction index. -/
def actBits (j : Nat) (ns : List Int) : Nat := packCodes 1 (ns.map (fun n => (n % 65536).toNat / 2 ^ j % 2))

/-- The scale of each output; none where the feed raises operand-range (R173). -/
def outScales (st : StatSet) (rev : Bool) : Option (List (Option Dyad)) :=
  if st.orient = rev then some (padTo 60 none st.sigma)
  else
    match st.sigma.filterMap id with
    | [] => some (List.replicate 60 none)
    | v :: vs => if vs.all (· == v) then some (List.replicate 60 (some v)) else none

/-- Do recorded scales differ from the new ones, at a lane and output that both have scales (R173)? -/
def scaleClash (old : SMap (Option Dyad)) (new : List (Option Dyad)) : Bool :=
  new.zipIdx.any (fun e => match e.1, smGet none old e.2 with
    | some v, some w => v != w
    | _, _ => false)

/-- Record scales where there were none. -/
def recordScales (old : SMap (Option Dyad)) (new : List (Option Dyad)) : SMap (Option Dyad) :=
  smOfList none 0 (new.zipIdx.map (fun e => match smGet none old e.2 with | none => e.1 | some v => some v))

/-- One beat into a partial set (R164). -/
def beat (s : PartialSet) (lanes : List Nat) (outs : List (List Nat)) (neg : Bool) (shift : Nat) : PartialSet :=
  let add := (lanes.map (fun x => outs.map (fun ix =>
    let c : Nat := (ix.filter (fun k => x.testBit k)).length
    let v : Int := (c * 2 ^ shift : Nat)
    if neg then -v else v))).flatten
  { s with
    parts := smOfList 0 0 (List.zipWith (fun p v => p + BitVec.ofInt 48 v) (smDense 0 s.parts 0 3840) add)
    undrained := true }

/-- A beat counts for the owner's metering and against the unit's cost (spec/03 R59, R60). -/
def meterBeat (m : Mach) : Mach :=
  let o := ctxOwner (issCtx m)
  let m := setOwnerOf m o { getOwner m o with beats := (getOwner m o).beats + 1 }
  onIss m (fun c => { c with unit := c.unit.map (fun u => { u with beats := u.beats + 1 }) })

/-- m.feed (R173, R336). -/
def execMFeed (h : Hd) (t : BitVec 2) (sh : BitVec 3) (a : BitVec 6) (w : Bool) (x y : BitVec 4) (r : Bool) (s : State) : Out :=
  runWord s h (fun m =>
    let slot := smGet {} (arrOf m).slots sh.toNat
    let rc := slot.record
    let sa := rdS m 0 a
    mHold m [t.toNat] (if w then [] else [sa]) (fun m =>
      let p := precOf m.iss.snap t.toNat
      let st := (arrOf m).active
      let plane := smGet [] st.planes y.toNat
      let kf := if r then 60 else spKf st.sp
      if slot.empty ∨ precWA p ≤ x.toNat ∨ precWB p ≤ y.toNat ∨ plane.isEmpty
          ∨ st.wb ≠ precWB p ∨ st.sb ≠ precSB p ∨ st.xb ≠ precXB p then trapW m 0x1A
      else if (r ∧ st.sp ≠ 0) ∨ kf < recNK rc then trapW m 0x1A
      else
        let base := if w then slot.cursor else sa.val
        let finish (m : Mach) (sg : Stage) : Mach :=
          let rows := padTo 64 ([], none) sg.rows
          let lanes := rows.map (·.2)
          let set := smGet {} (arrOf m).sets t.toNat
          match outScales st r with
          | none => trapW m 0x1A
          | some outs =>
            if (outs.any Option.isSome && scaleClash set.sa lanes) || (lanes.any Option.isSome && scaleClash set.sw outs) then
              trapW m 0x1A
            else
              let neg := (y.toNat + 1 == precWB p && precSB p) != (x.toNat + 1 == precWA p && precSA p)
              let set1 := beat set (rows.map (fun e => actBits x.toNat e.1)) ((List.range 60).map (outIndexes st plane r))
                neg (x.toNat + y.toNat)
              mDone (meterBeat m) (fun a => { a with
                aStage := some sg
                slots := smPut {} a.slots sh.toNat { slot with cursor := base + BitVec.ofNat 64 (recSTEP rc) }
                sets := smPut {} a.sets t.toNat
                  { set1 with sa := recordScales set.sa lanes, sw := recordScales set.sw outs } })
        let hit := (arrOf m).aStage.filter (fun sg =>
          sg.base == base && sg.slot == sh.toNat && sg.prec == p && sg.rev == r && sg.ext == kf)
        match hit with
        | some sg => finish m sg
        | none =>
          fillRows m rc base (precWA p) (precXA p) (precSA p) (fun m rows =>
            finish m { base := base, slot := sh.toNat, prec := p, rev := r, ext := kf, rows := rows, pos := [] })))

/-! ### Drains (R136, R137, R174) -/

/-- partial × sa × sw; a NONE scale gives 0. -/
def drainTerm (neg : Bool) (p : BitVec 48) (sa sw : Option Dyad) : Val :=
  match sa, sw with
  | some x, some y =>
    let v := p.toInt * x.m * y.m
    valOfInt (if neg then -v else v) (x.e + y.e)
  | _, _ => valOfInt 0 0

/-- A row with everything in flight for it landed; undefined where no word has written it (R25, R174). -/
def rowOld (m : Mach) (key : Nat) : Row :=
  let k := getCore m m.iss.core
  if k.rowFlight.any (fun f => f.row == key) || m.iss.snap.rowsKnown.getLsbD key then rowFinal k key
  else ⟨Config.freeRow (freeIx m 12 key), Config.freeExps (freeIx m 12 key)⟩

/-- One row of a drain: its new bytes, and the DIR of its flagged lanes. Which A16F lanes are subnormal is decided before
rounding, as spec/22 R346 decides it for V words (spec/07 R140; DEDUCED, log 83). -/
def drainRow (a : Nat) (sat accd hi : Bool) (old : Row) (ts : List Val) : Row × List (Option Nat) :=
  if isAxb a then
    let group (j : Nat) : Int × List (Int × Val) :=
      (if accd then -128 else groupExp old j,
        ((ts.drop (15 * j)).take 15).zipIdx.map (fun e =>
          (if accd then 0 else sextInt (laneBits old a (15 * j + e.2)) 32, e.1)))
    (axbRow ((List.range 4).map group), [])
  else
    let lo := if hi then 60 else 0
    let one (j : Nat) (t : Val) : Nat × Option Nat :=
      let r := if accd then t else valAdd (laneVal old a (lo + j)) t
      if a = 3 then arithLane bf16 sat r
      else if isFloatTile a && valIsNan r then (fpNan (floatOf a), none)
      else (laneConv a sat r, none)
    let new := ts.zipIdx.map (fun e => one e.2 e.1)
    let codes := laneCodes old a
    let all := codes.take lo ++ new.map (·.1) ++ codes.drop (lo + 60)
    (⟨packRow a all, old.exps⟩, List.replicate lo none ++ new.map (·.2))

/-- m.drain (R174, R335). -/
def execMDrain (h : Hd) (t : BitVec 2) (n e hi : Bool) (s : State) : Out :=
  runWord s h (fun m =>
    mHold m [t.toNat] [] (fun m =>
      let p := precOf m.iss.snap t.toNat
      let a := acct p
      let set := smGet {} (arrOf m).sets t.toNat
      if hi ∧ lanesOf a = 60 then trapW m 0x1A
      else
        let parts := smDense 0 set.parts 0 3840
        let sw := smDense none set.sw 0 60
        let terms (r : Nat) : List Val :=
          List.zipWith (fun p w => drainTerm n p (smGet none set.sa r) w) ((parts.drop (60 * r)).take 60) sw
        let rows := (List.range 64).map (fun r => drainRow a (satOf p) e hi (rowOld m (64 * t.toNat + r)) (terms r))
        let m := rows.zipIdx.foldl (fun m x => putRowAt m (64 * t.toNat + x.2) (m.cycle + 12) x.1.1) m
        let m := { m with iss := { m.iss with drained := rows.zipIdx.map (fun x =>
          { row := 64 * t.toNat + x.2, ctx := m.iss.ctx, issued := m.cycle, landAt := m.cycle + 12,
            data := x.1.1.data, exps := x.1.1.exps, axb := isAxb a }) } }
        let m := pushAssist m 2 t.toNat 0 1 12 (rows.map (·.2))
        mDone m (fun a => { a with sets := smPut {} a.sets t.toNat {} })))

/-- m.clear (R175, R334). -/
def execMClear (h : Hd) (s : State) : Out :=
  runWord s h (fun m => mHold m [] [] (fun m => mDone m (fun a => emptyStages { a with sets := [] })))

end Sys2Proof.Machine
end

