-- ==== Sys2Proof/Machine/Tree.lean ====
section
/-!
DEFINITION. The work tree: completion records, ends of children, cancels, launch parameter blocks and the
submission of a launch (spec/02_execution_model.md R19 to R26, R40, spec/03_hive_scheduler.md R47, R49,
spec/14_bilvel_fabric.md R233).
-/

namespace Sys2Proof.Machine

/-! ### Contexts between units -/

/-- Stalled contexts of a core may try again (R28). -/
def wakeCore (m : Mach) (core : Nat) : Mach :=
  modCore m core (fun k => { k with ctxs := k.ctxs.map (fun e =>
    (e.1, if e.2.st = .stalled then { e.2 with retry := true } else e.2)) })

/-- Stalled contexts of a cluster may try again. -/
def wakeCluster (m : Mach) (cl : Nat) : Mach :=
  ((1152 + cl) :: (List.range 18).map (18 * cl + ·)).foldl (fun m c =>
    if (getCore m c).ctxs.any (fun e => e.2.st == .stalled) then wakeCore m c else m) m

/-- A context with no handler or unit; the marks of its rows stay with the core. -/
def idleCtx (c : Ctx) : Ctx :=
  { st := if c.arr then .dormant else .free, arr := c.arr, rowsKnown := c.rowsKnown }

/-- The array without its holder: both stages are emptied; b.susp discards all of it (R162, R170). -/
def releaseArr (a : Arr) (i : Nat) (discard : Bool) : Arr :=
  if a.holder = some i then
    if discard then {} else emptyStages { a with holder := none }
  else a

/-- A context becomes Free or Dormant (R36, R38). -/
def freeCtx (m : Mach) (core i : Nat) (discard : Bool) : Mach :=
  let m := leaveQueues m core i
  let m := modCore m core (fun k => { disownRows k i with arr := releaseArr k.arr i discard })
  wakeCore (modCtx m core i idleCtx) core

/-! ### What a unit still has under way (R22, R38, R39) -/

/-- Have all the actions of an agent been done, but those that need not? -/
def actsDone (m : Mach) (agent : Nat) (spared : Act → Bool) : Bool :=
  let a := getAgent m agent
  (a.iq ++ a.pend).all spared
    && m.cores.all (fun e => e.2.port.all (fun p => p.1 != agent || spared p.2))
    && m.adders.all (fun e => e.2.all (fun p => p.1 != agent || spared p.2))

/-- Have all the actions of an agent numbered below `tag` been done? -/
def agentQuiet (m : Mach) (agent tag : Nat) : Bool := actsDone m agent (fun x => tag ≤ x.tag)

/-- Does an action neither write memory nor give a result that b.susp waits for (R39)? It goes on when its unit is suspended. -/
def outlives (k : ActKind) : Bool :=
  match k with
  | .ld => true
  | .more => true
  | .fence .. => true
  | .sync => true
  | .cmd .. => true
  | .free _ => true
  | .renew .. => true
  | _ => false

/-- Commands of a context on a core that are not complete. -/
def ctxCmds (k : Core) (i : Nat) : Bool := k.cmds.any (fun e => e.2.any (fun c => c.ctx == i && !c.ended))

/-- Is an action an engine command that has not left its issue queue? -/
def isCmd (k : ActKind) : Bool := match k with | .cmd .. => true | _ => false

/-- Commands that a unit left behind under a number, issued and not complete, those in the issue queue among them. -/
def orphanCmds (m : Mach) (core j : Nat) : Bool :=
  ctxCmds (getCore m core) j || (getAgent m (orphanAgent core j)).iq.any (fun a => isCmd a.kind)

/-- Remainders of commands of a number on a core that have yet to end CANCELLED (R40). -/
def restOpen (m : Mach) (core j : Nat) : Bool := m.restDue.any (fun x => x.1 == core && x.2.2.ctx == j)

/-- Mirror writes of a context, of words numbered below `tag`, that are not acknowledged (spec/14 R234). -/
def ctxMirrors (k : Core) (i tag : Nat) : Bool :=
  k.mirrors.any (fun x => x.1 == i && x.2.tag < tag) || k.mirrorsOut.any (fun x => x.2.1 == i && x.2.2.1.tag < tag)

/-- Have all the writes of a context's words numbered below `tag` committed, and its remote writes been acknowledged? -/
def ctxQuiet (m : Mach) (core i tag : Nat) : Bool :=
  agentQuiet m (ctxAgent core i) tag && !(ctxMirrors (getCore m core) i tag)

/-- Is b.susp's wait over for a context's words numbered below `tag`: their writes have committed and its remote writes been
acknowledged (R39)? It waits for no engine command, and so for no fence either, which may wait for one (log 33). -/
def suspQuiet (m : Mach) (core i tag : Nat) : Bool :=
  actsDone m (ctxAgent core i) (fun x => tag ≤ x.tag || outlives x.kind) && !(ctxMirrors (getCore m core) i tag)

/-- Is everything done that a unit left on a core under a number, when it was suspended or pre-empted? -/
def orphanDone (m : Mach) (x : Nat × Nat) : Bool :=
  let k := getCore m x.1
  !(ctxCmds k x.2) && !(restOpen m x.1 x.2) && !(ctxMirrors k x.2 m.tag) && agentQuiet m (orphanAgent x.1 x.2) m.tag

/-! ### Completion records (R20 to R22) -/

def nodeStCode : NodeSt → Nat
  | .pending => 0 | .running => 1 | .done => 2 | .cancelled => 3 | .failed => 4

def nodeTerminal (n : Node) : Bool :=
  match n.st with
  | .pending => false
  | .running => false
  | _ => true

/-- Table 2-2. -/
def recordOf (n : Node) : Nat :=
  fields [(0, n.ended), (8, n.total % 2 ^ 32), (12, nodeStCode n.st),
    (13, (if n.final then 1 else 0) + (if n.tainted then 2 else 0)), (14, n.cause.toNat)]

/-- The hive writes `n` bytes, as one access. A MOVING page holds the write (spec/08 R160), and a later one to the same place
follows it. -/
def putBytes (m : Mach) (w : Who) (va : Word) (n x : Nat) : Mach :=
  if heldWrite m w va n || m.recDue.any (fun d => d.part == w.part && d.va == va) then
    { m with recDue := m.recDue ++ [{ core := w.core, part := w.part, owner := w.owner, va := va, n := n, x := x }] }
  else
    match writeVa m hiveAgent w va n x with
    | .ok m => m
    | .error _ => m

/-- The hive writes a completion record: one granule (R20). -/
def putRec (m : Mach) (w : Who) (va : Word) (x : Nat) : Mach := putBytes m w va 16 x

/-- Write the records that are held no longer. -/
def payRecs (m : Mach) : Mach :=
  m.recDue.foldl (fun m d => putBytes m { core := d.core, part := d.part, owner := d.owner } d.va d.n d.x) { m with recDue := [] }

/-- Write a node's completion record (R20). -/
def writeRec (m : Mach) (i : Nat) : Mach :=
  let n := getNode m i
  putRec m (whoOwner m n.owner) n.recVa (recordOf n)

/-- Change a node and write its record. -/
def bumpNode (m : Mach) (i : Nat) (f : Node → Node) : Mach := writeRec (modNode m i f) i

/-- R21: the terminal STATE of a node whose children have all ended. -/
def endState (n : Node) : NodeSt :=
  if n.badRecord then .failed else if n.cancelled then .cancelled else if n.childFailed then .failed else .done

/-- A child of a node has ended (R21). -/
def countChild (n : Node) (failed : Bool) (cause : Byte) : Node :=
  { n with ended := n.ended + 1, childFailed := n.childFailed || failed, cause := if n.cause = 0 then cause else n.cause }

/-- A node whose children have all ended becomes terminal, and counts in its parent; a phase counts in its job
at the next evaluation (R51). -/
def settleNode (m : Mach) (i : Nat) : Nat → Mach
  | 0 => m
  | fuel + 1 =>
    let n := getNode m i
    if !n.live || nodeTerminal n || n.ended < n.total then m
    else
      let m := bumpNode m i (fun n => { n with
        st := endState n, final := n.level == 1 && !n.tainted && n.ran.all (fun r => r.cleared) })
      let n := getNode m i
      match n.parent with
      | some p =>
        if n.level = 3 then m
        else settleNode (bumpNode m p (fun q => countChild q (n.st == .failed) n.cause)) p fuel
      | none => m

/-- A node's first child starts (R21). -/
def startNode (m : Mach) (i : Nat) : Nat → Mach
  | 0 => m
  | fuel + 1 =>
    let n := getNode m i
    if n.st = .pending then
      let m := bumpNode m i (fun n => { n with st := .running })
      match n.parent with
      | some p => startNode m p fuel
      | none => m
    else m

/-- A unit of a launch is counted as ended (R22). -/
def countUnit (m : Mach) (launch : Nat) (failed : Bool) (cause : Byte) : Mach :=
  settleNode (bumpNode m launch (fun n => countChild n failed cause)) launch 5

/-- Count the units of discarded records whose commands and writes are done by now (R22, R40). -/
def countOwed (m : Mach) : Mach :=
  (m.nodes.filter (fun e => !e.2.owed.isEmpty)).foldl (fun m e =>
    let done := e.2.owed.filter (fun o => o.orphans.all (orphanDone m))
    let m := modNode m e.1 (fun n => { n with owed := n.owed.filter (fun o => !(o.orphans.all (orphanDone m))) })
    done.foldl (fun m o => countUnit m e.1 o.failed o.cause) m) m

/-! ### Cancelling (R40) -/

/-- Is node `d` the node `a`, or beneath it? -/
def isUnder (m : Mach) (a : Nat) : Nat → Nat → Bool
  | 0, _ => false
  | fuel + 1, d =>
    d == a || (match (getNode m d).parent with | some p => isUnder m a fuel p | none => false)

/-- Free the pinned allocations of a record on its home core (spec/17 R253); while commands of its unit are not complete,
they stay for them, as R39 says of a suspended unit's. -/
def freePins (m : Mach) (r : Record) : Mach :=
  let j := match smGet none m.images r.id with | some im => im.orphan | none => 0
  modCore m r.home (fun k =>
    let pinned (a : Alloc) : Bool := a.pinned.isSome && a.pinRec == r.id
    if orphanCmds m r.home j || restOpen m r.home j then
      { k with alloc := k.alloc.map (fun e =>
          (e.1, if pinned e.2 then { e.2 with pinned := none, ctx := j, exp := m.nowt + (e.2.pinned).getD 0 } else e.2)) }
    else { k with alloc := k.alloc.filter (fun e => !(pinned e.2)) })

/-- Forget a record: its slots and pins are freed (spec/19 R268). -/
def dropRecord (m : Mach) (r : Record) : Mach :=
  let m := { m with records := m.records.filter (fun x => x.id != r.id), images := smDel m.images r.id }
  modPart m r.part (fun p => { p with
    recUsed := p.recUsed.filter (· != r.slot)
    imgUsed := match r.image with | some s => p.imgUsed.filter (· != s) | none => p.imgUsed })

/-- The remainders of commands that a record's image holds end CANCELLED (R40, spec/17 R256). -/
def cancelRest (m : Mach) (r : Record) : Mach :=
  match smGet none m.images r.id with
  | some im => dueRest m r.home im.orphan im.rest
  | none => m

def discardRecord (m : Mach) (r : Record) : Mach := dropRecord (freePins (cancelRest m r) r) r

/-- Ask the commands of a context to stop; group contributions are not stopped (R40, spec/17 R252). -/
def stopCmds (m : Mach) (core i : Nat) (cancel : Bool) : Mach :=
  modCore m core (fun k => { k with cmds := k.cmds.map (fun e => (e.1, e.2.map (fun c =>
    if c.ctx == i && !c.ended && !(c.kind == 4 && !(optDirect c.opt.toNat)) then
      { c with stop := true, cancel := c.cancel || cancel } else c))) })

/-- Ask what a unit left behind to stop (R40). -/
def stopOrphans (m : Mach) (os : List (Nat × Nat)) : Mach := os.foldl (fun m x => stopCmds m x.1 x.2 true) m

/-- A record is discarded, and its unit ends (R40, spec/17 R253, spec/19 R275): it is owed to its launch until what it
left behind is done. -/
def endRecord (m : Mach) (r : Record) (failed : Bool) (cause : Byte) : Mach :=
  let m := { m with exclDue := m.exclDue ++ [(r.part, r.home)] }
  modNode (discardRecord (stopOrphans m r.unit.orphans) r) r.launch (fun n =>
    { n with owed := n.owed ++ [{ orphans := r.unit.orphans, failed := failed, cause := cause }] })

/-- A cancel reaches a context that runs a unit of a cancelled launch: one that is held or parked ends at once
(spec/17 R250), every other at its next stop point. The commands of a unit whose b.exit has completed before it stop too, with
status CANCELLED, although the unit ends OK: DEDUCED (log 98), R40 stops a cancelled node's commands and R41 speaks of the
unit's status alone. -/
def cancelCtx (m : Mach) (core i : Nat) : Mach :=
  let c := getCtx m core i
  let m := stopOrphans (stopCmds m core i true) ((c.unit.map (·.orphans)).getD [])
  if c.hold.isSome then beginEnd m core i .cancelled
  else modCtx m core i (fun c => { c with cancelled := true })

/-- The contexts that run units of a launch: core, context. -/
def ctxsOf (m : Mach) (launch : Nat) : List (Nat × Nat) :=
  (m.cores.map (fun e => (e.2.ctxs.filter (fun x =>
    (match x.2.unit with | some u => u.launch == launch | none => false) && x.2.st != .free)).map (fun x => (e.1, x.1)))).flatten

/-- Cancel one launch: its unplaced units and its records count as ended. It leaves its queue at once, since it has no
unit left to place: DEDUCED from R40 and R47 (log 56). -/
def cancelLaunch (m : Mach) (i : Nat) : Mach :=
  let n := getNode m i
  let rs := m.records.filter (fun r => r.launch == i)
  let m := rs.foldl (fun m r => endRecord m r false 0) m
  let m := (ctxsOf m i).foldl (fun m e => cancelCtx m e.1 e.2) m
  let m := modNode m i (fun n => { n with ended := n.ended + (n.total - n.nextU), nextU := n.total })
  let m := setQueue m n.lpb.qid
    { getQueue m n.lpb.qid with entries := (getQueue m n.lpb.qid).entries.filter (fun w => w.toNat != i || (getQueue m n.lpb.qid).work) }
  let m := match n.gang with
    | some g =>
      { m with out := m.out ++ ((smGet {} m.gangs g).members.map (fun p => Msg.cancelGang p (smGet {} m.gangs g).src (g % 2 ^ 32)))
               gangs := smPut {} m.gangs g { smGet {} m.gangs g with live := false } }
    | none => m
  countOwed (writeRec m i)

/-- The VA of an entry of a node table (Table 3-4). -/
def nodeEntryVa (g : GraphInfo) (n : Nat) : Word := g.ntab + BitVec.ofNat 64 (32 * n)

/-- Skip a node of a graph instance: its launch record is written CANCELLED, and it counts as ended (R52). -/
def skipGraphNode (m : Mach) (gi n : Nat) : Mach :=
  let gn := getNode m gi
  match gn.graph with
  | none => m
  | some g =>
    let w := whoOwner m gn.owner
    let m := match readVa m w (nodeEntryVa g n) 8 with
      | .ok lpb =>
        match readVa m w (BitVec.ofNat 64 lpb + 64) 8 with
        | .ok crec => putRec m w (BitVec.ofNat 64 crec) (fields [(12, 3)])
        | .error _ => m
      | .error _ => m
    bumpNode m gi (fun x => { countChild x false 0 with
      graph := some { g with considered := g.considered ||| BitVec.ofNat 32 (2 ^ n)
                             skipped := g.skipped ||| BitVec.ofNat 32 (2 ^ n) } })

/-- Cancel a node and every node beneath it (R19, R40); one that is terminal stays as it is. -/
def cancelNode (m : Mach) (a : Nat) : Mach :=
  if !(getNode m a).live || nodeTerminal (getNode m a) then m
  else
    let ids := (m.nodes.map (·.1)).filter (fun d => isUnder m a 5 d && (getNode m d).live && !(nodeTerminal (getNode m d)))
    let m := ids.foldl (fun m d => modNode m d (fun n => { n with cancelled := true })) m
    let m := (ids.filter (fun d => (getNode m d).level == 1)).foldl cancelLaunch m
    let m := (ids.filter (fun d => (getNode m d).level == 2)).foldl (fun m d =>
      match (getNode m d).graph with
      | some g => ((List.range g.nn).filter (fun n => !(g.considered.getLsbD n))).foldl (fun m n => skipGraphNode m d n) m
      | none => m) m
    [1, 2, 3].foldl (fun m l => (ids.filter (fun d => (getNode m d).level == l)).foldl (fun m d => settleNode m d 5) m) m

/-- The node at a level that contains a launch; missing levels act at the launch (spec/20 R290). -/
def nodeAtLevel (m : Mach) (launch level : Nat) : Nat :=
  if (getNode m launch).parent.isNone then launch else climb launch 4
where
  climb (n : Nat) : Nat → Nat
    | 0 => n
    | fuel + 1 =>
      if (getNode m n).level = level then n
      else match (getNode m n).parent with | some p => climb p fuel | none => n

/-! ### Launch parameter blocks (Table 2-6) -/

def lpbOf (x : Nat) : Lpb :=
  let f (o n : Nat) : Nat := x / 256 ^ o % 256 ^ n
  { csb := BitVec.ofNat 64 (f 0 8), entry := BitVec.ofNat 32 (f 8 4), maxgap := BitVec.ofNat 32 (f 12 4)
    dim0 := f 16 4, dim1 := f 20 4, dim2 := f 24 4, trav := f 28 1 % 4, swz := f 29 1 % 16
    partw := BitVec.ofNat 16 (f 30 2), cmask := BitVec.ofNat 64 (f 32 8)
    prec0 := BitVec.ofNat 32 (f 40 4), prec1 := BitVec.ofNat 32 (f 44 4), prec2 := BitVec.ofNat 32 (f 48 4)
    prec3 := BitVec.ofNat 32 (f 52 4), beats := f 56 8, crec := BitVec.ofNat 64 (f 64 8)
    argp := BitVec.ofNat 64 (f 72 8), qid := f 80 2 % 4096, prio := f 82 1, pclass := f 83 1
    gang := f 84 1 % 2 == 1, hctx := f 85 1 % 16 }

/-- The partition that governs a gang launch: the lowest bit of CMASK that names one of the owner (R233). -/
def governing (m : Mach) (owner : Nat) (cmask : Word) : Option Nat :=
  (List.range 64).find? (fun p => cmask.getLsbD p && (getPart m p).owner == some owner)

/-- Are the zero fields of an LPB zero (Table 2-6)? -/
def lpbZero (x : Nat) : Bool :=
  let f (o n : Nat) : Nat := x / 256 ^ o % 256 ^ n
  f 28 1 / 4 == 0 && f 29 1 / 16 == 0 && f 80 2 / 4096 == 0 && f 84 1 / 2 == 0 && f 85 1 / 16 == 0 && f 86 42 == 0

/-- The refusals of R26 that an LPB's bytes show. -/
def lpbBad (m : Mach) (owner x : Nat) : Bool :=
  let l := lpbOf x
  !(lpbZero x) || l.csb.toNat % 64 != 0 || (2 ≤ l.trav && l.swz != 0) || 2 ^ 32 ≤ l.dim0 * l.dim1 * l.dim2
    || l.partw.toNat % 16 + 1 ≤ l.hctx
    || [l.prec0, l.prec1, l.prec2, l.prec3].any (fun p => precBad (p.setWidth 64))
    || (l.gang && (match governing m owner l.cmask with
        | some p => (getPart m p).gangcnt == 0
        | none => true))

/-- May a completion record lie at an address (R20): in a page, one that is MOVING among them, without T? -/
def recAddrOk (m : Mach) (w : Who) (va : Word) : Bool :=
  va.toNat % 16 == 0 && va.toNat / 2 ^ 60 < 14 &&
    (match xlateNow m w va 16 accWrite with
     | .ok _ _ tensor => !tensor
     | .moving => !(pteBit (walkPage m w.part va.toNat).raw 5)
     | _ => false)

/-- A refused launch writes its record, when that record's address is valid (R26). -/
def refuseRec (m : Mach) (w : Who) (va : Word) (cause : Byte) : Mach :=
  if recAddrOk m w va then putRec m w va (fields [(12, 4), (14, cause.toNat)]) else m

/-- The two-byte fabric numbers of a partition's gang set, without this package's own (R233); none where the list can not be
read (DESIGN CHOICE, log 90). -/
def gangMembers (m : Mach) (p : Nat) : List Nat :=
  match readVa m (whoOwner m (((getPart m p).owner).getD 0)) (getPart m p).gangset (2 * (getPart m p).gangcnt) with
  | .ok x => ((List.range (getPart m p).gangcnt).map (fun i => x / 65536 ^ i % 65536)).filter (· != m.number)
  | .error _ => []

/-- A gang launch is armed: ARM goes to every member (R233 step 1). -/
def armGang (m : Mach) (launch owner x : Nat) : Mach :=
  match governing m owner (lpbOf x).cmask with
  | none => m
  | some p =>
    let g := m.gangSeq
    let ms := gangMembers m p
    let bytes := (List.range 128).map (fun i => BitVec.ofNat 8 (x / 256 ^ i))
    let gang : Gang := { live := true, coordinator := true, src := m.number, launch := launch, members := ms,
                         since := m.nowt, limit := (getPart m p).gangto, sentCommit := ms.isEmpty }
    let m := { m with gangSeq := g + 1, gangs := smPut {} m.gangs g gang, out := m.out ++ ms.map (fun d => Msg.arm d g bytes) }
    modNode m launch (fun n => { n with gang := some g, placeable := ms.isEmpty })

/-- What a submission gives: a launch id, or the cause of its refusal. -/
inductive Submitted where
  | id (n : Nat)
  | refused (cause : Byte)
deriving DecidableEq, Repr

/-- Does a queue take a launch of an owner (R26, R47)? -/
def queueTakes (q : Queue) (owner : Nat) : Bool := q.declared && q.owner == owner && !q.work && q.entries.length < q.depth

/-- Submit a launch that was read: it joins its launch queue and its graph (R26, R47, Table 3-3). One with no unit that joins a
cancelled graph becomes CANCELLED, not DONE: DEDUCED (log 96), R21 gives it both. -/
def enqueueLaunch (m : Mach) (owner x : Nat) (parent : Option Nat) (views : SMap Nat) : Mach × Nat :=
  let l := lpbOf x
  let i := m.nodeSeq
  let total := l.dim0 * l.dim1 * l.dim2
  let dead := match parent with | some p => (getNode m p).cancelled | none => false
  let n : Node := { live := true, level := 1, parent := parent, owner := owner, recVa := l.crec, total := total,
                    ended := if dead then total else 0, nextU := if dead then total else 0, cancelled := dead,
                    lpb := l, views := views }
  let m := setNode { m with nodeSeq := i + 1 } i n
  let m := if total = 0 ∨ dead then m else
    setQueue m l.qid { getQueue m l.qid with entries := (getQueue m l.qid).entries ++ [BitVec.ofNat 64 i] }
  (writeRec m i, i)

/-- Submit the LPB at an address for an owner (R26, R47). A node of a graph instance is counted in its graph
already; a child launch makes the graph's TOTAL grow. A gang launch that joins a cancelled graph starts on no package (R40):
it is not armed. -/
def submitLaunch (m : Mach) (w : Who) (va : Word) (parent : Option Nat) (child : Bool) (views : SMap Nat) : Mach × Submitted :=
  match readVa m w va 128 with
  | .error (c, _) => (m, .refused c)
  | .ok x =>
    let l := lpbOf x
    if lpbBad m w.owner x then (refuseRec m w l.crec 0x01, .refused 0x01)
    else if !(recAddrOk m w l.crec) then (m, .refused 0x01)
    else if !(queueTakes (getQueue m l.qid) w.owner) then (refuseRec m w l.crec 0x39, .refused 0x39)
    else
      let m := match parent with
        | some p => if child then bumpNode m p (fun n => { n with total := n.total + 1 }) else m
        | none => m
      let (m, i) := enqueueLaunch m w.owner x parent views
      let m := if l.gang && !(getNode m i).cancelled then armGang m i w.owner x else m
      (settleNode m i 5, .id i)

end Sys2Proof.Machine
end

