-- ==== Sys2Proof/Machine/BWords.lean ====
section
/-!
DEFINITION. The B words: branches and loops (spec/04_core_model.md R74 to R80), state registers (R73, spec/20
R302, R310), ordering and waiting (spec/11 R193 to R199, spec/12 R212), queues, launches and posts (spec/02 R42,
spec/03 Table 3-3), ends (R38 to R40) and traps (spec/17 R249); one entry each in spec/20_reference_b_k.md.
-/

namespace Sys2Proof.Machine

/-- An arrival context, control-core contexts included (R284). -/
def isArrival (m : Mach) : Bool := isControl m.iss.core || (issCtx m).arr

/-- A word that an arrival context may not issue (R285). -/
def notArrival (m : Mach) (f : Mach → Mach) : Mach := if isArrival m then trapW m 0x01 else f m

/-! ### Branches -/

/-- A taken branch (R75). -/
def branchTo (m : Mach) (pkt : W32) : Mach :=
  let m := onIss m (fun c => { c with pc := pkt, wpos := 0 })
  { m with iss := { m.iss with taken := true } }

/-- b.safe (R303): a safe bundle when no loop is active. -/
def execBSafe (h : Hd) (s : State) : Out :=
  runWord s h (fun m =>
    if m.iss.snap.lepi.getLsbD 63 then m else { m with iss := { m.iss with safe := true } })

/-- b.jmp (R294). -/
def execBJmp (h : Hd) (k : BitVec 3) (s : State) : Out := runWord s h (fun m => branchTo m (rdB m 0 k))

/-- b.call (R289): b0 := N, bound 1. -/
def execBCall (h : Hd) (k : BitVec 3) (s : State) : Out :=
  runWord s h (fun m => putB (branchTo m (rdB m 0 k)) 1 0 (BitVec.ofNat 32 m.iss.afterPkt))

/-- b.ladder (R295): the first true slot. -/
def execBLadder (h : Hd) (p q u v k : BitVec 3) (s : State) : Out :=
  runWord s h (fun m =>
    if rdP m 0 p then branchTo m (rdB m 0 k)
    else if rdP m 1 q then branchTo m (rdB m 1 (k + 1))
    else if rdP m 2 u then branchTo m (rdB m 2 (k + 2))
    else if rdP m 3 v then branchTo m (rdB m 3 (k + 3))
    else m)

/-- b.loop (R76, R297). -/
def execBLoop (h : Hd) (n b : BitVec 6) (e p : BitVec 4) (s : State) : Out :=
  runWord s h (fun m =>
    let x := rdS m 0 n
    let q : W32 := BitVec.ofNat 32 m.iss.afterPkt
    if m.iss.snap.lepi.getLsbD 63 then trapW m 0x01
    else noPoison m [x] (fun m =>
      if x.val.toNat / 2 ^ 32 ≠ 0 then trapW m 0x1A
      else if x.val = 0 then
        onIss m (fun c => { c with pc := q + BitVec.ofNat 32 (b.toNat + e.toNat), wpos := 0 })
      else
        let m := onIss m (fun c => { c with
          lc := x.val
          lstart := q.setWidth 64
          lend := (q + BitVec.ofNat 32 (b.toNat - 1)).setWidth 64
          lepi := BitVec.ofNat 64 (2 ^ 63 + e.toNat)
          lpro := (q - BitVec.ofNat 32 p.toNat).setWidth 64
          lreg := n
          pc := q
          wpos := 0 })
        { m with iss := { m.iss with looped := true } }))

/-- b.tgt: P + off, with P the packet of the word itself (R88, R306). -/
def execBTgt (h : Hd) (k : BitVec 3) (o : BitVec 17) (s : State) : Out :=
  runWord s h (fun m =>
    putB m 1 k (BitVec.ofNat 32 m.iss.pkt + (immValue 17 o.toNat m.iss.ks).setWidth 32))

/-! ### State registers (R73, Table 4-4) -/

/-- RQSLOT (spec/14 Table 14-2). -/
def rqslot (m : Mach) (core : Nat) : Word :=
  BitVec.ofNat 64 ((getCore m core).rqDest * 2 ^ 32 + slotsFree m core (getCore m core).rqDest)

/-- HARVMAP (spec/19 Table 19-8). -/
def harvmap (m : Mach) (core : Nat) : Word :=
  let down := ((List.range 64).filter (fun p => smGet false m.portsDown p || (smGet {} m.links p).down)).length
  let cl := clusterOf core
  let rc := (List.range 18).foldl (fun a k => if smGet false m.retired (18 * cl + k) then a + 2 ^ k else a) 0
  BitVec.ofNat 64 (down * 2 ^ 40 + (getCore m core).spareBanks % 4 * 2 ^ 32 + rc)

/-- SCANSEQ (Table 19-5). -/
def scanseq (m : Mach) (core : Nat) : Word :=
  BitVec.ofNat 64 ((getCore m core).scanTick % 2 ^ 32 * 2 ^ 32 + (getCore m core).scanPasses % 2 ^ 32)

/-- The numbers that read zero on a control core (R284). -/
def controlZero (n : Nat) : Bool :=
  n == 0 || (2 ≤ n && n ≤ 6) || n == 9 || (0x10 ≤ n && n ≤ 0x13) || n == 0x48 || n == 0x60 || n == 0x61 || n == 0x71

/-- EISS of an engine context as it stood when the bundle issued: a command of the bundle itself does not count (R64). -/
def eissAt (m : Mach) (e : Nat) : Nat :=
  smGet 0 (getCore m m.iss.core).eiss e - (if m.iss.issuedTo = some e then 1 else 0)

/-- The value of a state register for the issuing context, at issue (R302). -/
def readState (m : Mach) (n : Nat) : Word :=
  let c := m.iss.snap
  let core := m.iss.core
  let k := getCore m core
  if isControl core && controlZero n then 0
  else
    match n with
    | 0x00 => k.partw
    | 0x01 => BitVec.ofNat 64 (m.iss.ctx + (if c.arr then 16 else 0))
    | 0x02 => c.unitid
    | 0x03 => c.launchid
    | 0x04 => c.gidx0
    | 0x05 => c.gidx1
    | 0x06 => c.gidx2
    | 0x08 => BitVec.ofNat 64 m.nowt
    | 0x09 => BitVec.ofNat 64 (tretOf m core)
    | 0x0A => c.maxgap
    | 0x0B => c.gapcnt
    | 0x10 => c.prec0
    | 0x11 => c.prec1
    | 0x12 => c.prec2
    | 0x13 => c.prec3
    | 0x18 => BitVec.ofNat 64 (smGet 0 k.etl 0)
    | 0x19 => BitVec.ofNat 64 (smGet 0 k.etl 1)
    | 0x1A => BitVec.ofNat 64 (smGet 0 k.etl 2)
    | 0x1B => BitVec.ofNat 64 (smGet 0 k.etl 3)
    | 0x1C => BitVec.ofNat 64 (eissAt m 0)
    | 0x1D => BitVec.ofNat 64 (eissAt m 1)
    | 0x1E => BitVec.ofNat 64 (eissAt m 2)
    | 0x1F => BitVec.ofNat 64 (eissAt m 3)
    | 0x20 => c.lc
    | 0x21 => c.lstart
    | 0x22 => c.lend
    | 0x23 => c.lepi
    | 0x24 => c.lpro
    | 0x25 => c.lsave
    | 0x30 => c.cause
    | 0x31 => c.epc
    | 0x32 => c.faddr
    | 0x33 => c.finfo
    | 0x34 => c.trapbase
    | 0x40 => c.csb
    | 0x41 => c.fmto0
    | 0x42 => c.fmto1
    | 0x48 => rqslot m core
    | 0x50 => (getPart m (clusterOf core)).winbase
    | 0x60 => harvmap m core
    | 0x61 => scanseq m core
    | 0x70 => c.ownerReg
    | 0x71 => c.slice
    | 0x72 => c.hbudget
    | _ => 0

/-- b.rdst (R302). -/
def execBRdst (h : Hd) (d : BitVec 6) (sr : BitVec 10) (s : State) : Out :=
  runWord s h (fun m => putS m 2 d { val := readState m sr.toNat })

/-- b.wrst (R310): reserved fields are ignored (R4). -/
def execBWrst (h : Hd) (a : BitVec 6) (sr : BitVec 10) (s : State) : Out :=
  runWord s h (fun m =>
    let x := rdS m 0 a
    let n := sr.toNat
    if 0x10 ≤ n ∧ n ≤ 0x13 then noPoison m [x] (fun m => precWord m m.iss.arr (n - 0x10) x false)
    else noPoison m [x] (fun m =>
      match n with
      | 0x0A =>
        if !(isControl m.iss.core) ∧ (issCtx m).gapLimit.toNat % 2 ^ 32 < x.val.toNat % 2 ^ 32 then trapW m 0x03
        else onIss m (fun c => { c with maxgap := x.val &&& 0xFFFFFFFF })
      | 0x34 => onIss m (fun c => { c with trapbase := x.val &&& 0xFFFFFFFF })
      | 0x41 => onIss m (fun c => { c with fmto0 := x.val &&& fmtoMask })
      | 0x42 => onIss m (fun c => { c with fmto1 := x.val &&& fmtoMask })
      | 0x50 =>
        let p := clusterOf m.iss.core
        let m := modPart m p (fun q => { q with winbase := BitVec.ofNat 64 (x.val.toNat / 2 ^ 17 % 2 ^ 35 * 2 ^ 17) })
        let m1 := addPend m
          { tag := m.tag, use := .win 4096 true, dst := [], need := 0, got := [], vals := [], known := false,
            spec := false, bad := none, va := 0, finfo := finfoHere m }
        { m1 with tag := m1.tag + 1, invals := m1.invals ++ [{ part := p, win := true, page := 0, all := true, acks := 0 }] }
      | _ => m))

/-! ### Fences, sluices, timelines, barriers -/

/-- b.fence (R193, R293): an action; a fence that waits for arrivals counts those that entered the queue before. -/
def execBFence (h : Hd) (p sc : BitVec 5) (x : BitVec 3) (s : State) : Out :=
  runWord s h (fun m =>
    addActs m [{ tag := 0, kind := .fence p sc x.toNat, aux := (getCore m m.iss.core).arrived.length }])

/-- A wait has ended: every later action leaves after it (R185). -/
def addSync (m : Mach) : Mach := addActs m [{ tag := 0, kind := .sync }]

def sluiceOf (m : Mach) (p n : Nat) : Sluice := smGet {} (getPart m p).sluices n

/-- Is a sluice number malformed or undeclared in the partition (R196)? -/
def sluiceBad (m : Mach) (p : Nat) (x : Word) : Bool :=
  x.toNat / 2 ^ 16 != 0 || !(sluiceOf m p x.toNat).declared

/-- Raise views of the issuing context to positions by granule. -/
def raiseViews (m : Mach) (a : Nat) (ps : List (Nat × Nat)) : Mach := ps.foldl (fun m e => raiseView m a e.1 e.2) m

/-- b.open (R197, R298). -/
def execBOpen (h : Hd) (a b : BitVec 6) (s : State) : Out :=
  runWord s h (fun m =>
    let x := rdS m 0 a
    let y := rdS m 1 b
    noPoison m [x, y] (fun m =>
      let p := (issCtx m).area
      if sluiceBad m p x.val then trapW m 0x38
      else
        let sl := sluiceOf m p x.val.toNat
        if BitVec.ult sl.version y.val then waitBundle m (.sluice x.val.toNat y.val)
        else addSync (raiseViews m (ctxAgent m.iss.core m.iss.ctx) sl.recd)))

/-- b.shut (R196, R304): s(d) is scoreboarded. -/
def execBShut (h : Hd) (d a : BitVec 6) (s : State) : Out :=
  runWord s h (fun m =>
    let x := rdS m 0 a
    noPoison m [x] (fun m =>
      let p := (issCtx m).area
      if sluiceBad m p x.val ∨ (sluiceOf m p x.val.toNat).version = -1 then trapW m 0x38
      else
        let m1 := addPend m
          { tag := m.tag, use := .regs, dst := sDst [d], need := 0, got := [], vals := [], known := false, spec := false,
            bad := none, va := 0, finfo := finfoHere m }
        addActs m1 [{ tag := 0, kind := .shut x.val.toNat }]))

/-- The core's command number that a wait on `n` names, under the timeline map (spec/17 R255). -/
def mapCmd (c : Ctx) (e n : Nat) : Nat :=
  let e0 := smGet 0 c.mapE0 e
  let hh := smGet 0 c.mapH e
  if hh = 0 ∧ e0 = 0 then n else if n ≤ e0 then hh else n + hh - e0

/-- b.twait (R198, R308). -/
def execBTwait (h : Hd) (e : BitVec 2) (a : BitVec 6) (s : State) : Out :=
  runWord s h (fun m =>
    let x := rdS m 0 a
    noPoison m [x] (fun m =>
      let k := getCore m m.iss.core
      let n := mapCmd (issCtx m) e.toNat x.val.toNat
      if x.val ≠ 0 ∧ smGet 0 k.etl e.toNat < n then waitBundle m (.timeline m.iss.core e.toNat n)
      else
        addSync (raiseViews m (ctxAgent m.iss.core m.iss.ctx)
          ((k.engWrites.filter (fun w => w.e == e.toNat && w.num ≤ n && x.val != 0)).map (fun w => (w.gran, w.pos))))))

/-- A barrier's count as it is kept, modulo 2^40 (R212). The updates of one cycle are summed: a count that comes to
zero and leaves it in one cycle has not stood at zero, and the writes counted so far stay (R199, R286). -/
def barAdd (k : Core) (now bar : Nat) (x : Int) : Core :=
  let old := smGet 0 k.bars bar
  let new := old + BitVec.ofInt 40 x
  let stood := old == 0 && smGet 0 k.barZeroAt bar ≤ now
  { k with
    barWrites := if stood && new != 0 then k.barWrites.filter (fun w => w.bar != bar) else k.barWrites
    barZeroAt := if old != 0 && new == 0 then smPut 0 k.barZeroAt bar (now + 1) else k.barZeroAt
    bars := smPut 0 k.bars bar new }

/-- Does a barrier's count stand at zero at the end of a cycle (R286)? -/
def barStands (k : Core) (now bar : Nat) : Bool := smGet 0 k.bars bar == 0 && smGet 0 k.barZeroAt bar ≤ now

/-- b.arm (R286). -/
def execBArm (h : Hd) (b : BitVec 4) (a : BitVec 6) (s : State) : Out :=
  runWord s h (fun m =>
    let x := rdS m 0 a
    noPoison m [x] (fun m =>
      if 2 ^ 39 ≤ x.val.toNat then trapW m 0x1A
      else
        let m := modCore m m.iss.core (fun k => barAdd k m.cycle b.toNat x.val.toNat)
        onIss m (fun c => { c with armMark := if x.val = 0 then c.armMark else c.armMark ||| BitVec.ofNat 16 (2 ^ b.toNat) })))

/-- b.bwait (R199, R288). -/
def execBBwait (h : Hd) (b : BitVec 4) (s : State) : Out :=
  runWord s h (fun m =>
    let k := getCore m m.iss.core
    if smGet 0 k.bars b.toNat ≠ 0 then waitBundle m (.barrier m.iss.core b.toNat)
    else
      addSync (raiseViews m (ctxAgent m.iss.core m.iss.ctx)
        ((k.barWrites.filter (fun w => w.bar == b.toNat)).map (fun w => (w.gran, w.pos)))))

/-! ### Queues, launches, posts -/

/-- A pending result whose values are known already. -/
def knownPend (m : Mach) (rs : List (Dst × Scalar)) : Mach :=
  let rs := rs.filter (fun r => !(discarded r.1))
  let m1 := addPend m
    { tag := m.tag, use := .regs, dst := rs.map (·.1), need := 0, got := [], vals := rs.map (·.2), known := true,
      spec := false, bad := none, va := 0, finfo := finfoHere m }
  { m1 with tag := m1.tag + 1 }

/-- Does a queue operand raise queue (0x39): malformed, undeclared, a launch queue, or another owner's? -/
def queueBad (m : Mach) (owner : Nat) (x : Word) : Bool :=
  let q := getQueue m (x.toNat % 4096)
  x.toNat / 4096 != 0 || !q.declared || !q.work || q.owner != owner

/-- The results of a pop (Table 2-10). -/
def popResult (m : Mach) (d : BitVec 6) (p : BitVec 3) (v : Word) (got : Bool) : Mach :=
  knownPend m [(.s d, { val := v }), (.p p, { val := if got then 1 else 0 })]

/-- The entry that a pop may take: a waiter its own place, any other context what the waiters leave. -/
def popPlace (q : Queue) (who : Nat × Nat) : Nat := (q.waiters.idxOf? who).getD q.waiters.length

/-- b.pop (R42, R299). -/
def execBPop (h : Hd) (d a : BitVec 6) (n : Bool) (p : BitVec 3) (s : State) : Out :=
  runWord s h (fun m =>
    let x := rdS m 0 a
    noPoison m [x] (fun m =>
      if queueBad m (ctxOwner (issCtx m)) x.val then trapW m 0x39
      else
        let id := x.val.toNat
        let q := getQueue m id
        let me := (m.iss.core, m.iss.ctx)
        let j := popPlace q me
        let left : Queue := { q with waiters := q.waiters.filter (· != me) }
        match q.entries[j]? with
        | some v => popResult (setQueue m id { left with entries := q.entries.eraseIdx j }) d p v true
        | none =>
          if q.closed then popResult (setQueue m id left) d p 1 false
          else if n then popResult m d p 0 false
          else
            waitBundle (setQueue m id { q with waiters := if q.waiters.contains me then q.waiters else q.waiters ++ [me] })
              (.queue id)))

/-- b.push (Table 3-3, R301). -/
def execBPush (h : Hd) (a b : BitVec 6) (l : Bool) (p : BitVec 3) (s : State) : Out :=
  runWord s h (fun m =>
    let x := rdS m 0 a
    let y := rdS m 1 b
    noPoison m (if l then [x] else [x, y]) (fun m =>
      if queueBad m (ctxOwner (issCtx m)) x.val then trapW m 0x39
      else
        let q := getQueue m x.val.toNat
        let ok := !q.closed && q.entries.length < q.depth
        let m := if ok then
            setQueue m x.val.toNat (if l then { q with closed := true } else { q with entries := q.entries ++ [y.val] })
          else m
        knownPend m [(.p p, { val := if ok then 1 else 0 })]))

/-- b.launch (R49, R296): the hive reads the LPB once the earlier writes have committed. -/
def execBLaunch (h : Hd) (d a : BitVec 6) (s : State) : Out :=
  runWord s h (fun m =>
    notArrival m (fun m =>
      let x := rdS m 0 a
      noPoison m [x] (fun m =>
        if x.val.toNat % 64 ≠ 0 then trapA m 0x0A x.val
        else
          let m1 := addPend m
            { tag := m.tag, use := .regs, dst := sDst [d], need := 0, got := [], vals := [], known := false, spec := false,
              bad := none, va := 0, finfo := finfoHere m }
          addActs m1 [{ tag := 0, kind := .launch x.val }])))

/-- b.post (R49, R300): applied once the earlier writes have committed. -/
def execBPost (h : Hd) (sl : BitVec 4) (k : BitVec 2) (a : BitVec 6) (s : State) : Out :=
  runWord s h (fun m =>
    notArrival m (fun m =>
      let x := rdS m 0 a
      noPoison m [x] (fun m => addActs m [{ tag := 0, kind := .post sl.toNat k.toNat x.val }])))

/-! ### Waiting in place, suspending, ending -/

/-- Is WOBJ malformed for its kind (Table 2-4)? -/
def wobjBad (kind : Nat) (w : Nat) : Bool :=
  match kind with
  | 0 => w != 0
  | 1 => w / 2 ^ 16 != 0
  | 2 => w % 2 ^ 11 != 0
  | 3 => w / 2 ^ 4 % 2 ^ 9 != 0
  | 4 => w / 2 ^ 12 != 0
  | _ => true

/-- Does a core belong to a partition of an owner? -/
def coreOfOwner (m : Mach) (core owner : Nat) : Bool :=
  core < 1152 && (getPart m (clusterOf core)).owner == some owner

/-- Does a wait condition of Table 2-4 hold, for a partition? -/
def waitHolds (m : Mach) (part kind wobj : Nat) (wval : Word) : Bool :=
  match kind with
  | 1 => !(BitVec.ult (sluiceOf m part (wobj % 2 ^ 16)).version wval)
  | 2 => decide (wval.toNat ≤ smGet 0 (getCore m (wobj / 2 ^ 13)).etl (wobj / 2 ^ 11 % 4))
  | 3 => barStands (getCore m (wobj / 2 ^ 13)) m.cycle (wobj % 16)
  | 4 => !(getQueue m (wobj % 4096)).entries.isEmpty || (getQueue m (wobj % 4096)).closed
  | _ => true

/-- Is the object of a b.wait undeclared or foreign (R309)? -/
def wobjForeign (m : Mach) (part owner kind wobj : Nat) : Bool :=
  match kind with
  | 1 => !(sluiceOf m part wobj).declared
  | 2 => !(coreOfOwner m (wobj / 2 ^ 13) owner)
  | 3 => !(coreOfOwner m (wobj / 2 ^ 13) owner)
  | _ => queueBad m owner (BitVec.ofNat 64 wobj)

/-- The wait of a b.wait. -/
def waitOf (kind wobj : Nat) (wval : Word) : Wait :=
  match kind with
  | 1 => .sluice (wobj % 2 ^ 16) wval
  | 2 => .timeline (wobj / 2 ^ 13) (wobj / 2 ^ 11 % 4) wval.toNat
  | 3 => .barrier (wobj / 2 ^ 13) (wobj % 16)
  | _ => .queue (wobj % 4096)

/-- b.wait (R309). -/
def execBWait (h : Hd) (k : BitVec 3) (a b : BitVec 6) (s : State) : Out :=
  runWord s h (fun m =>
    let x := rdS m 0 a
    let y := rdS m 1 b
    let kind := k.toNat
    let wval := if kind ≤ 2 then y.val else 0
    noPoison m (if kind ≤ 2 then [x, y] else [x]) (fun m =>
      let c := issCtx m
      if x.val.toNat / 2 ^ 24 ≠ 0 ∨ wobjBad kind x.val.toNat ∨ wobjForeign m c.area (ctxOwner c) kind x.val.toNat then
        trapW m (if kind = 1 then 0x38 else 0x39)
      else if waitHolds m c.area kind x.val.toNat wval then addSync m
      else waitBundle m (waitOf kind x.val.toNat wval)))

/-- The unit or handler ends, or suspends, when its bundle has completed. -/
def markEnd (m : Mach) (f : Ctx → Ctx) : Mach :=
  let m := onIss m f
  { m with iss := { m.iss with ended := true } }

/-- Is a record slot of a partition's area free (spec/19 R268)? -/
def freeRecSlot (m : Mach) (p : Nat) : Option Nat :=
  let q := getPart m p
  ((List.range (q.recUsed.length + 1)).find? (fun n => !(q.recUsed.contains n))).filter (fun n => n < q.reccnt)

/-- Is b.susp's wait over: the earlier bundles' writes have committed and been acknowledged, and there is a record slot
(R39, spec/19 R268)? -/
def suspReady (m : Mach) (core i tag : Nat) : Bool :=
  suspQuiet m core i tag && (freeRecSlot m (getCtx m core i).area).isSome

/-- b.susp (R39, R305): it waits under R29, holding its bundle, for the writes of earlier bundles; its record is written
once those of its own bundle are done too. -/
def execBSusp (h : Hd) (k : BitVec 3) (a b : BitVec 6) (j : BitVec 3) (s : State) : Out :=
  runWord s h (fun m =>
    notArrival m (fun m =>
      let x := rdS m 0 a
      let y := rdS m 1 b
      let s1 := rdS m 2 1
      let s63 := rdS m 3 63
      let kind := k.toNat
      let uses := kind = 1 ∨ kind = 2
      noPoison m ([x, s1, s63] ++ (if uses then [y] else [])) (fun m =>
        if x.val.toNat / 2 ^ 24 ≠ 0 ∨ wobjBad kind x.val.toNat then trapW m (if kind = 1 then 0x38 else 0x39)
        else if !(suspReady m m.iss.core m.iss.ctx m.iss.tag0) then waitBundle m .susp
        else
          let r : Susp := { resume := (rdB m 0 j).toNat, wkind := kind, wobj := x.val.toNat,
                            wval := if uses then y.val else 0, frame := s63.val, cs1 := s1.val }
          markEnd m (fun c => { c with susp := some r }))))

/-- b.exit (R38, R292): a waiting word, and so a safe point, at which a unit that a cancel has reached ends CANCELLED (R41). -/
def execBExit (h : Hd) (s : State) : Out :=
  runWord s h (fun m => markEnd m (fun c => { c with ending := some (if c.cancelled then .cancelled else .ok) }))

/-- b.cancel (R40, R290): at level 0 the node that is cancelled is the unit, and its commands stop. -/
def execBCancel (h : Hd) (l : BitVec 3) (s : State) : Out :=
  runWord s h (fun m =>
    notArrival m (fun m =>
      let m := match (issCtx m).unit with
        | some u =>
          if l = 0 then stopOrphans (stopCmds m m.iss.core m.iss.ctx true) u.orphans
          else cancelNode m (nodeAtLevel m u.launch l.toNat)
        | none => m
      markEnd m (fun c => { c with ending := some .cancelled, cancelled := true })))

/-! ### Traps -/

/-- A trap that follows the bundle's completion. -/
def postTrap (m : Mach) (cause : Byte) (finfo : Word) : Mach :=
  { m with iss := { m.iss with post := m.iss.post ++ [(cause, finfo)] } }

/-- b.trap (R307). -/
def execBTrap (h : Hd) (k : BitVec 8) (s : State) : Out := runWord s h (fun m => postTrap m 0x40 (k.setWidth 64))

/-- b.brk (R287): FINFO names the b.brk bundle. -/
def execBBrk (h : Hd) (s : State) : Out :=
  runWord s h (fun m => postTrap m 0x41 (placeWord m.iss.pkt0 m.iss.pos0))

/-- The place after the bundle at a place of a context's code, from the newest content (R247); the place itself
where the code can not be read. -/
def afterFrom (m : Mach) (w : Who) (c : Ctx) : Nat → Nat → Nat → Option (Nat × Nat)
  | 0, _, _ => none
  | fuel + 1, pkt, pos =>
    match xlateNow m w (wordVa c pkt pos) 4 accFetch with
    | .ok pa _ _ =>
      if readNat m.mem pa 4 / 2 ^ 31 % 2 = 0 then some (nextPlace pkt pos)
      else afterFrom m w c fuel (nextPlace pkt pos).1 (nextPlace pkt pos).2
    | _ => none

/-- The place after the bundle that EPC names. -/
def afterEpc (core i : Nat) (m : Mach) : Nat × Nat :=
  let c := getCtx m core i
  let pkt := c.epc.toNat % 2 ^ 32
  let pos := c.epc.toNat / 2 ^ 32 % 4
  (afterFrom m (whoOf m core i) c 9 pkt pos).getD (pkt, pos)

/-- Does a context hold a frame that has been written? -/
def holdsFrame (c : Ctx) (va : Word) : Bool :=
  match c.hold with | some x => x.frame == va && x.owed.isNone && x.framed | none => false

/-- The parked record that a frame belongs to becomes ready; one that the weir has yet to write will be (R248). `mine` tells
the unit meant, by the core and the context that were held and the owner. The releaser is kept for the resumption, which reads
the frame with its views as they are now. -/
def readyParked (m : Mach) (va : Word) (z : Releaser) (mine : Nat → Nat → Nat → Bool) : Mach :=
  { m with
    recSeq := m.recSeq + 1
    cores := m.cores.map (fun e => (e.1, { e.2 with ctxs := e.2.ctxs.map (fun x =>
      (x.1, if holdsFrame x.2 va && mine e.1 x.1 (ctxOwner x.2) then
          { x.2 with pre := x.2.pre.map (fun p => { p with released := some z }) } else x.2)) }))
    records := m.records.map (fun r =>
      if r.frame == some va && r.ready.isNone && mine r.home r.homeCtx r.unit.owner then
        { r with ready := some m.recSeq, rel := some z } else r) }

/-- A context as the releaser of a frame. -/
def releaserCtx (m : Mach) (core i : Nat) : Releaser :=
  let w := whoOf m core i
  { core := w.core, part := w.part, owner := w.owner, view := (getAgent m (ctxAgent core i)).view }

/-- A frame-started context releases its frame, with its own translation and views (R247): the held context's, or the record's
that the frame belongs to (R248). -/
def frameRelease (m : Mach) (core i : Nat) (va : Word) (hc hi : Nat) : Except (Byte × Word) Mach :=
  if holdsFrame (getCtx m hc hi) va && (getCtx m hc hi).pre.isNone then
    releaseFrame m (ctxAgent core i) (whoOf m core i) hc hi va (afterEpc hc hi)
  else .ok (readyParked m va (releaserCtx m core i) (fun c x _ => c == hc && x == hi))

/-- b.eret (R249, R291): leave trap mode, or release the frame that started the context, when the bundle completes: one that
traps releases nothing; the stores of earlier bundles come before the release. A return is no branch of a loop: its registers stay (R245, log 55). DEDUCED (log 60): 0x03
here depends on the trap mode and the start of the context, not on the access of Table 4-4 that check 5 of R85 tests,
and is an execution fault of the word (R239, item 6). -/
def execBEret (h : Hd) (s : State) : Out :=
  runWord s h (fun m =>
    let c := issCtx m
    if causeTm c.cause then
      let m := onIss m eretOwn
      { m with iss := { m.iss with taken := true, eret := true } }
    else
      match c.started with
      | none => trapW m 0x03
      | some (va, hc, hi) =>
        if !(agentQuiet m (ctxAgent m.iss.core m.iss.ctx) m.iss.tag0) then stallBundle m
        else
          match frameRelease m m.iss.core m.iss.ctx va hc hi with
          | .error (cause, a) =>
            trapAt m cause a
              (if cause = causeMiss ∨ cause = causePerm then refusedT m (whoOf m m.iss.core m.iss.ctx) a else finfoHere m) none
          | .ok _ => { m with iss := { m.iss with ended := true, rel := some (va, hc, hi) } })

end Sys2Proof.Machine
end

