-- ==== Sys2Proof/Machine/Order.lean ====
section
/-!
DEFINITION. The events of the ordering machine: actions leave, commit, bind and are applied, fences and shuts
complete, scoreboarded results land (spec/11_ordering_machine.md R185 to R202, spec/08_pool_memory.md R149 to
R153, spec/04_core_model.md R67, R70, R81, spec/12_engines.md R213).
-/

namespace Sys2Proof.Machine

/-- An event of a part that runs (spec/01 R16, spec/19 R283): before the release nothing else happens. -/
def whenRunning (s : State) (f : Mach → Mach) : Out :=
  onMach s (fun m => if m.phase = .running then f m else m)

/-! ### Actions -/

def isLoad (k : ActKind) : Bool := match k with | .ld => true | _ => false
/-- A load, or the place of one that is still to come. -/
def isLoadPlace (k : ActKind) : Bool := match k with | .ld => true | .more => true | _ => false
def isStore (k : ActKind) : Bool := match k with | .st => true | .radd _ => true | _ => false
def isAtomic (k : ActKind) : Bool := match k with | .cas .. => true | .amo .. => true | _ => false
/-- Does the action write memory? -/
def isWrite (k : ActKind) : Bool := isStore k || isAtomic k
/-- Is it checked as a read (R151)? -/
def isRead (k : ActKind) : Bool := isLoad k || isAtomic k

/-- The lowest byte and the number of bytes that an action takes of its granule. -/
def actLo (a : Act) : Nat := ((List.range 16).find? (fun i => a.mask.getLsbD i)).getD 0
def actLen (a : Act) : Nat := ((List.range 16).filter (fun i => a.mask.getLsbD i)).length

def isFence (k : ActKind) : Bool := match k with | .fence .. => true | _ => false

/-- Does an action stand for a whole block? -/
def isBlock (k : ActKind) : Bool := match k with | .radd _ => true | .more => true | _ => false

/-- Do two actions meet on a granule? -/
def sameGran (a b : Act) : Bool :=
  if isBlock a.kind || isBlock b.kind then a.gran / 64 == b.gran / 64 else a.gran == b.gran

/-- May action `a` leave before the earlier `x`, when nothing that orders stands between (R185)? An action that
depends on a load does not stand in the queue before that load has bound (spec/04 R70). -/
def mayPass (x a : Act) : Bool :=
  (isLoadPlace x.kind || isStore x.kind) && (isLoadPlace a.kind || isStore a.kind) && !(sameGran x a)

/-- The fence classes of an action (Table 11-3); the reads of l.win, which `aux` marks, have none (spec/21 Table 21-1). -/
def actClasses (a : Act) : BitVec 5 :=
  match a.kind with
  | .ld => if a.aux = 2 then 0 else 1
  | .more => 1
  | .st => 2
  | .radd _ => 2
  | .cas .. => 3
  | .amo .. => 3
  | .cmd _ _ _ _ opt kind => cmdClasses kind opt.toNat
  | _ => 0

/-- The owner of the partition whose tables serve an action or a command. -/
def areaOwner (m : Mach) (area : Nat) : Nat := ((getPart m area).owner).getD 0

/-- Does a scope cover what an action of a core touches (R194)? -/
def actCovered (m : Mach) (core scope : Nat) (a : Act) : Bool :=
  match a.kind with
  | .cmd _ x y cw opt kind => coversCmd m scope core a.area (areaOwner m a.area) kind opt.toNat x y cw 0 []
  | _ => covers m scope core a.gran

/-- Does an action between two others keep them in order (R185)? A fence constrains nothing about memory that its scope
does not cover (R194). -/
def keepsOrder (m : Mach) (core : Nat) (x a f : Act) : Bool :=
  match f.kind with
  | .fence _ _ scope => actCovered m core scope x && actCovered m core scope a
  | .shut _ => true
  | .sync => true
  | _ => false

/-- May an action leave past those before it in its queue (R185, R193)? -/
def passes (m : Mach) (core : Nat) (a : Act) : List Act → Bool
  | [] => true
  | x :: xs =>
    (match x.kind with
     | .fence _ succ scope => !(succ &&& actClasses a != 0 && actCovered m core scope a)
     | _ => mayPass x a && !(xs.any (keepsOrder m core x a)))
      && passes m core a xs

/-- May the action at an index leave? -/
def canLeave (m : Mach) (agent : Nat) (iq : List Act) (idx : Nat) : Bool :=
  match iq[idx]? with
  | none => false
  | some a => passes m (agentCore agent) a (iq.take idx)

/-- Drop the waits that have ended from the head of an issue queue. -/
def dropSyncs : List Act → List Act
  | [] => []
  | a :: as => match a.kind with | .sync => dropSyncs as | _ => a :: as

/-- An agent's action leaves its issue queue. -/
def leaves (m : Mach) (agent idx : Nat) : Mach :=
  modAgent m agent (fun x => { x with iq := dropSyncs (x.iq.eraseIdx idx) })

/-- Actions of an agent that stand in pool ports. -/
def portActs (m : Mach) (agent : Nat) : List Act :=
  (m.cores.map (fun e => (e.2.port.filter (fun p => p.1 == agent)).map (·.2))).flatten

/-- Actions of an agent that stand at the HBM reduction adders. -/
def adderActs (m : Mach) (agent : Nat) : List Act :=
  (m.adders.map (fun e => (e.2.filter (fun p => p.1 == agent)).map (·.2))).flatten

/-- Actions of an agent that have left and are not done. -/
def flying (m : Mach) (agent : Nat) : List Act := (getAgent m agent).pend ++ portActs m agent ++ adderActs m agent

/-- Has every write of the agent made before the word numbered `tag` committed (R192, spec/03 R49)? -/
def writesDone (m : Mach) (agent tag : Nat) : Bool := (flying m agent).all (fun a => !(a.tag < tag && isWrite a.kind))

/-- The compute die whose controller serves an HBM address (spec/01 R13). -/
def dieOfPa (pa : Nat) : Nat := pa / 2 ^ 36 % 8 / 2

/-! ### Remote requests that are being applied (R190, R200) -/

def landingOf (m : Mach) (id : Nat) : Option Landing := m.landings.find? (fun l => l.id == id)
def modLanding (m : Mach) (id : Nat) (f : Landing → Landing) : Mach :=
  { m with landings := m.landings.map (fun l => if l.id = id then f l else l) }

/-- The agent whose views and writes an agent's are: a landing's parts are those of the engine context, or the combine
unit, that sent the request. -/
def realAgent (m : Mach) (agent : Nat) : Nat :=
  if agentIsLanding agent then ((landingOf m (agent - landAgent 0)).map (·.agent)).getD combineAgent else agent

/-- The pool core of an address, if it lies in a pool. -/
def poolOf (m : Mach) (pa : Nat) : Option Nat := match targetOf m pa with | .pool c => some c | _ => none

/-- The granules of a range, each with the newest position. -/
def granPositions (m : Mach) (pa len : Nat) : List (Nat × Nat) :=
  (List.range ((pa % 16 + len + 15) / 16)).map (fun i => (pa / 16 * 16 + 16 * i, newestPos m (pa / 16 * 16 + 16 * i)))

/-- Count landed blocks against a barrier of the target core (spec/12 R212, spec/14 R224). -/
def remoteBarrier (m : Mach) (rbarf pa len : Nat) : Mach :=
  match poolOf m pa with
  | some c =>
    if rbarf = 0 then m
    else modCore m c (fun k =>
      let k := barAdd k m.cycle (rbarf - 1) (-(64 * (len / 64) : Nat))
      { k with barWrites := k.barWrites ++ (granPositions m pa len).map (fun p => { bar := rbarf - 1, gran := p.1, pos := p.2 }) })
  | none => m

/-- The barrier field, the address and the length of the block that a remote write is landing. -/
def landBlock (l : Landing) : Nat × Nat × Nat :=
  match l.msg with
  | .store _ r => (r.rbarf, r.pa + 64 * l.blk, min 64 (r.len - 64 * l.blk))
  | .replica _ r => (r.rbarf, r.pa + 64 * l.blk, min 64 (r.len - 64 * l.blk))
  | _ => (0, 0, 0)

/-- The command of a core's collective engine that sent a request not yet answered. -/
def reqOwner (m : Mach) (core id : Nat) : Option (Cmd × Req) :=
  (smGet [] (getCore m core).cmds 3).findSome? (fun c =>
    (c.reqs.find? (fun q => q.r.id == id && !q.answered)).map (fun q => (c, q)))

/-- A write of a remote command that lands on this package itself is its command's write (R198). -/
def noteRemote (m : Mach) (r : RemoteReq) (gs : List Nat) : Mach :=
  if r.src = m.number ∧ !r.mirror then
    match reqOwner m r.srcCore r.id with
    | some (c, _) => modCore m r.srcCore (fun k => { k with
        engWrites := k.engWrites ++ gs.map (fun g => { e := 3, num := c.num, gran := g, pos := newestPos m g }) })
    | none => m
  else m

/-- The request that a landing writes for an engine context. -/
def landReq (l : Landing) : Option RemoteReq :=
  match l.msg with | .store _ r => some r | .direct _ r _ _ => some r | _ => none

/-- A part of a landing has been applied; `g` is what a read part has bound. The last part of a block of a remote write
counts the block against its barrier. -/
def landedPart (m : Mach) (agent : Nat) (a : Act) (g : Option Gran) : Mach :=
  let m := modLanding m (agent - landAgent 0) (fun l => { l with
    left := l.left - 1
    bytes := match g with | some x => smIns l.bytes a.part x | none => l.bytes
    grans := if g.isSome ∨ a.cmd ≠ 0 then l.grans else l.grans ++ [(a.gran, newestPos m a.gran)] })
  let m := match (landingOf m (agent - landAgent 0)).bind landReq, g with
    | some r, none => noteRemote m r [a.gran]
    | _, _ => m
  match landingOf m (agent - landAgent 0) with
  | some l => if l.left = 0 ∧ l.cause = 0 then remoteBarrier m (landBlock l).1 (landBlock l).2.1 (landBlock l).2.2 else m
  | none => m

/-- A part of a landing has been refused. -/
def refusedPart (m : Mach) (agent cause : Nat) : Mach :=
  modLanding m (agent - landAgent 0) (fun l => { l with left := l.left - 1, cause := if l.cause = 0 then cause else l.cause })

/-! ### Refusals at a port or a controller (R151, R258) -/

/-- A context that has ended, or runs the steps of its end. -/
def ctxEnded (c : Ctx) : Bool :=
  c.st == .free || c.st == .dormant || c.wait == some .ending || c.susp.isSome

/-- Raise a cause at a context's next bundle, once for one access (R151); asynchronously for one that has ended. -/
def raiseLater (m : Mach) (core i area : Nat) (cause : Byte) (faddr finfo : Word) : Mach :=
  let c := getCtx m core i
  if ctxEnded c then
    asyncTrap m area (((getPart m area).owner).getD 0) (clusterOf core) cause (srcOf m core)
  else
    let d : Due := { cause := cause, faddr := faddr, finfo := finfo, notBefore := m.cycle }
    if c.due.any (fun x => x.cause == cause && x.faddr == faddr && x.finfo == finfo) then m
    else setCtx m core i { c with due := c.due ++ [d], st := if c.st = .stalled ∧ c.restoring.isNone then .ready else c.st }

/-- STATUS of a completion word for a cause (spec/12 Table 12-4, R151). -/
def statusOf (cause : Nat) : Nat :=
  match cause with
  | 0x10 => 1 | 0x18 => 2 | 0x1A => 2 | 0x19 => 3 | 0x30 => 5 | 0x31 => 6 | 0x32 => 7 | _ => 4

def modCmd (m : Mach) (core e num : Nat) (f : Cmd → Cmd) : Mach :=
  modCore m core (fun k =>
    { k with cmds := smPut [] k.cmds e ((smGet [] k.cmds e).map (fun c => if c.num = num then f c else c)) })

/-- A command meets its first failure (R207). -/
def cmdFail (m : Mach) (core e num cause : Nat) : Mach :=
  modCmd m core e num (fun c => if c.bad.isSome then c else { c with bad := some (statusOf cause, cause) })

/-- The places that an l.vld kept in program order are given up. -/
def clearMore (m : Mach) (core i tag : Nat) : Mach :=
  modAgent m (ctxAgent core i) (fun a =>
    { a with iq := a.iq.filter (fun x => !(x.tag == tag && (match x.kind with | .more => true | _ => false))) })

/-- A pending result that a refusal has removed. -/
def dropPend (m : Mach) (core i tag : Nat) : Mach :=
  clearMore (modCtx m core i (fun c => { c with pend := c.pend.filter (fun p => p.tag != tag) })) core i tag

/-- An action is refused where it is applied: a speculative load poisons, an engine command fails, any other word
raises the cause later (R81, R151, R207), and so does a completion word (R206), which `aux` marks. -/
def refuseAct (m : Mach) (agent : Nat) (a : Act) (cause : Byte) (finfo : Word) : Mach :=
  let core := agentCore agent
  if agentIsEngine agent ∧ a.aux = 1 then raiseLater m core a.part a.area cause a.va finfo
  else if agentIsEngine agent then cmdFail m core (agentSub agent) a.cmd cause.toNat
  else if agentIsLanding agent then refusedPart m agent cause.toNat
  else if agentIsOrphan agent then asyncTrap m a.area (((getPart m a.area).owner).getD 0) (clusterOf core) cause (srcOf m core)
  else
    let i := agentSub agent
    match (getCtx m core i).pend.find? (fun p => p.tag == a.tag) with
    | some p =>
      if p.spec then
        modCtx m core i (fun c => { c with pend := c.pend.map (fun q =>
          if q.tag = a.tag then { q with bad := some (cause, p.va), known := true } else q) })
      else payFrame (raiseLater (dropPend m core i a.tag) core i a.area cause a.va finfo) core i
    | none => if isLoad a.kind then m else raiseLater m core i a.area cause a.va finfo

/-! ### Results -/

/-- The values of a load of `n` bytes from `lo` of a granule, for its destinations: an odd register of a pair
takes the high half. -/
def loadVals (g : Gran) (lo n : Nat) (ds : List Dst) : List Scalar :=
  let x := granBytes g lo n
  ds.map (fun d => match d with
    | .s r => { val := BitVec.ofNat 64 (if n = 16 ∧ r.toNat % 2 = 1 then x / 2 ^ 64 else x) }
    | _ => {})

/-- A granule has been bound for a word's part: its pending result or fill takes it (R70, spec/09 R169). -/
def bindTo (m : Mach) (agent : Nat) (a : Act) (g : Gran) : Mach :=
  if agentIsLanding agent then landedPart m agent a (some g) else
  modCtx m (agentCore agent) (agentSub agent) (fun c =>
    { c with
      pend := c.pend.map (fun p =>
        if p.tag = a.tag then
          match p.use with
          | .load lo n => { p with got := smIns p.got a.part g, vals := loadVals g lo n p.dst, known := true }
          | _ => { p with got := smIns p.got a.part g }
        else p)
      fill := c.fill.map (fun f => if f.tag = a.tag then { f with got := smIns f.got a.gran g } else f) })

/-- The new bytes of an atomic, or none where l.cas does not match (spec/21 R316, R317): as the granule's new
content. -/
def atomicNew (a : Act) (old : Gran) : Option Gran :=
  match a.kind with
  | .cas lo n want new =>
    if granBytes old lo n = granBytes want 0 n then
      some (mergeGran old (BitVec.ofNat 128 (granBytes new 0 n * 256 ^ lo)) (byteMask lo n))
    else none
  | .amo op lo n v =>
    let w := 8 * n
    let x := granBytes old lo n
    let y := v.toNat % 2 ^ w
    let new : Nat :=
      match op with
      | 0 => (x + y) % 2 ^ w
      | 1 => Nat.land x y
      | 2 => Nat.lor x y
      | 3 => Nat.xor x y
      | 4 => if sextInt x w ≤ sextInt y w then x else y
      | 5 => if sextInt x w ≤ sextInt y w then y else x
      | _ => y
    some (mergeGran old (BitVec.ofNat 128 (new * 256 ^ lo)) (byteMask lo n))
  | _ => none

/-! ### Mirrors and engine writes -/

/-- A write that commits to a MIR page is to be mirrored by the collective engine of its core (spec/14 R234);
`i` is the context it counts for. -/
def noteMirror (m : Mach) (agent i : Nat) (a : Act) : Mach :=
  if a.mir then modCore m (agentCore agent) (fun k => { k with mirrors := k.mirrors ++ [(i, a)] }) else m

/-- The pieces of a range within pages of 64 KiB: address values and bytes. -/
def rangePieces (r : Word × Nat) : List (Word × Nat) :=
  let lo := r.1.toNat % 65536
  (List.range ((lo + r.2 + 65535) / 65536)).map (fun i =>
    let a := max lo (65536 * i)
    (r.1 + BitVec.ofNat 64 (a - lo), min (lo + r.2) (65536 * (i + 1)) - a))

/-- The LIVE allocation that holds a piece of a destination: core, table entry. -/
def rnfPiece (m : Mach) (w : Who) (p : Word × Nat) : Option (Nat × Nat × Alloc) :=
  match xlateNow m w p.1 p.2 {} with
  | .ok pa _ _ =>
    match targetOf m pa with
    | .pool q => ((findAlloc (getCore m q) (poolOff pa) p.2).filter (fun e => !e.2.freeing)).map (fun e => (q, e))
    | _ => none
  | _ => none

/-- The core and the LIVE allocation that a destination of `n` blocks lies in, every page of it (R209); one of no blocks is
where its address is (DEDUCED, log 65). -/
def rnfAlloc (m : Mach) (w : Who) (a : Word) (n : Nat) : Option (Nat × Alloc) :=
  match (if n = 0 then [(a, 0)] else rangePieces (a, 64 * n)).mapM (rnfPiece m w) with
  | some (x :: xs) => if xs.all (fun y => y.1 == x.1 && y.2.1 == x.2.1) then some (x.1, x.2.2) else none
  | _ => none

/-- An engine translates with the tables and the owner of the partition that its command acts for. -/
def engWho (m : Mach) (core : Nat) (c : Cmd) : Who :=
  { core := core, part := c.area, owner := ((getPart m c.area).owner).getD 0 }

/-! Gather descriptors (spec/12 Table 12-6). -/

def dList (d : BitVec 256) : Word := BitVec.ofNat 64 (recByte d 0 8)
def dSrc (d : BitVec 256) : Word := BitVec.ofNat 64 (recByte d 8 8)
def dN (d : BitVec 256) : Nat := recByte d 16 4
def dRstr (d : BitVec 256) : Nat := recByte d 20 4
def dRblk (d : BitVec 256) : Nat := recByte d 24 2
def descBad (d : BitVec 256) : Bool :=
  recByte d 0 8 % 8 != 0 || recByte d 8 8 % 64 != 0 || 65536 < dN d || dRstr d % 64 != 0 || dRblk d == 0 || 64 < dRblk d
    || recByte d 26 6 != 0

/-- Group walk (MODE = 01)? -/
def isWalk (c : Cmd) : Bool := c.opt.toNat / 2 ^ 23 % 4 == 1

/-- Rows that a group walk writes: from the entries read, and from the others as they stand; only the rows named by the
entries before one whose read is refused (R212), and whether none is. -/
def walkRows (m : Mach) (ag : Nat) (w : Who) (d : BitVec 256) (read : List Nat) : Nat → Nat → Nat → Nat × Bool
  | 0, _, sum => (min 64 sum, true)
  | fuel + 1, g, sum =>
    if dN d ≤ g ∨ 64 ≤ sum then (min 64 sum, true)
    else
      match (match read[g]? with | some x => Except.ok x | none => readVaAs m ag w (dList d + BitVec.ofNat 64 (8 * g)) 8) with
      | .ok x => walkRows m ag w d read fuel (g + 1) (sum + x / 2 ^ 32)
      | .error _ => (min 64 sum, false)

/-- The rows of a command's group walk. -/
def cmdRows (m : Mach) (core e : Nat) (c : Cmd) (d : BitVec 256) : Nat × Bool :=
  walkRows m (engAgent core e) (engWho m core c) d c.list 65537 0 0

/-- Blocks of a gather under its descriptor (R212). -/
def gathBlocks (m : Mach) (core e : Nat) (c : Cmd) (d : BitVec 256) : Nat :=
  (if isWalk c then (cmdRows m core e c d).1 else dN d) * dRblk d

/-- All blocks of a command (R212). -/
def cmdBlocks (m : Mach) (core e : Nat) (c : Cmd) : Nat :=
  if c.kind ≠ 1 then optNblk c.kind c.opt.toNat
  else if dRblk c.desc ≠ 0 then gathBlocks m core e c c.desc
  else
    match (if c.b.toNat % 32 = 0 then readVaAs m (engAgent core e) (engWho m core c) c.b 32 else .error (0x0A, 0)) with
    | .error _ => 0
    | .ok x => if descBad (BitVec.ofNat 256 x) then 0 else gathBlocks m core e c (BitVec.ofNat 256 x)

/-- A renewal at the port (R148, R152): EXP counts from `now`, and every granule of the allocation is rewritten. -/
def applyRenew (m : Mach) (core base life exp : Nat) : Mach :=
  modCore m core (fun k =>
    let live (a : Alloc) : Bool := a.used && a.base == base && a.pinned.isNone
    { k with
      alloc := k.alloc.map (fun e => (e.1, if live e.2 then { e.2 with life := life, exp := exp } else e.2))
      renews := k.renews ++ ((k.alloc.map (·.2)).filter live).map (fun a => (a.base, 64 * a.nblk, m.nowt)) })

/-- Has the last block of a command been applied? Not of a walk with a list entry whose read is refused: it ends short. -/
def lastWritten (m : Mach) (core e : Nat) (c : Cmd) : Bool :=
  c.wrote != 0 && c.wrote == cmdBlocks m core e c && (c.kind != 1 || !(isWalk c) || (cmdRows m core e c c.desc).2)

/-- The allocation renewed on fill, when the command's last block has been applied (R209). -/
def renewOnFill (m : Mach) (core e : Nat) (c : Cmd) : Mach :=
  if optRnf c.kind c.opt.toNat && !c.renewed && lastWritten m core e c then
    let m := modCmd m core e c.num (fun c => { c with renewed := true })
    match rnfAlloc m (engWho m core c) c.a c.wrote with
    | some (q, a) => applyRenew m q a.base c.life (m.nowt + c.life)
    | none => m
  else m

/-- A part of a block write of an engine command, or its completion word, has been applied (R198, spec/12 R209, R212). -/
def engWrote (m : Mach) (core e : Nat) (a : Act) : Mach :=
  let m := modCore m core (fun k => { k with engWrites := k.engWrites ++
    [{ e := e, num := a.cmd, gran := a.gran, pos := newestPos m a.gran }] })
  if a.aux = 1 then m else
  match (smGet [] (getCore m core).cmds e).find? (fun c => c.num == a.cmd) with
  | none => m
  | some c =>
    let left := smGet 0 c.parts a.blk - 1
    let m := modCmd m core e a.cmd (fun c =>
      { c with parts := smPut 0 c.parts a.blk left, wrote := if left = 0 then c.wrote + 1 else c.wrote })
    let m := if left = 0 then renewOnFill m core e { c with wrote := c.wrote + 1 } else m
    let bf := optBarf c.kind c.opt.toNat
    if left = 0 ∧ bf ≠ 0 then
      modCore m core (fun k =>
        let ws := (k.engWrites.filter (fun w => w.e == e && w.num == a.cmd && w.gran / 64 == a.gran / 64)).map
          (fun w => ({ bar := bf - 1, gran := w.gran, pos := w.pos } : BarWrite))
        let k := barAdd k m.cycle (bf - 1) (-64)
        { k with barWrites := k.barWrites ++ ws })
    else m

/-- The context that an agent's write counts for. -/
def actCtx (m : Mach) (agent : Nat) (a : Act) : Nat :=
  if agentIsEngine agent then
    ((smGet [] (getCore m (agentCore agent)).cmds (agentSub agent)).find? (fun c => c.num == a.cmd)).elim 0 (·.ctx)
  else if agentIsOrphan agent then agent % 2 ^ 60
  else agentSub agent

/-- The key of the page that an action goes through; a request from the fabric names no page (log 75). -/
def actKey (m : Mach) (a : Act) : Option Nat := pageKey m a.area a.va

/-- A store commits (R186, R187). -/
def commitAct (m : Mach) (agent : Nat) (a : Act) : Mach :=
  let m := commitKeyed m (realAgent m agent) (actKey m a) a.gran a.mask a.data
  if agentIsLanding agent then landedPart m agent a none else
  let m := noteMirror m agent (actCtx m agent a) a
  if agentIsEngine agent then engWrote m (agentCore agent) (agentSub agent) a else m

/-- An atomic is applied as one step (R191): it reads the newest position, and its write is appended next. -/
def applyAtomic (m : Mach) (agent : Nat) (a : Act) : Mach :=
  let old := seenGran m (actKey m a) a.gran (granNow m a.gran)
  let m := raiseView m agent a.gran (newestPos m a.gran)
  let m := match atomicNew a old with
    | some new =>
      let m := commitKeyed m agent (actKey m a) a.gran a.mask new
      noteMirror m agent (actCtx m agent a) { a with kind := .st, data := new }
    | none => m
  bindTo m agent a old

/-! ### Leaving (R185, R186, R187, R192) -/

/-- The pointwise larger of two views. -/
def maxViews (x y : SMap Nat) : SMap Nat := y.foldl (fun v e => smPut 0 v e.1 (max (smGet 0 v e.1) e.2)) x

/-- A pending result gets its values. -/
def setVals (m : Mach) (core i tag : Nat) (vs : List Scalar) : Mach :=
  modCtx m core i (fun c => { c with pend := c.pend.map (fun p =>
    if p.tag = tag then { p with vals := if p.dst.isEmpty then [] else vs, known := true } else p) })

/-- The unit whose actions an agent's are, and has a cancel reached it? What a unit left behind is still its own. -/
def agentUnit (m : Mach) (agent : Nat) : Option (UnitInfo × Bool) :=
  if agentIsOrphan agent then
    let left (u : UnitInfo) : Bool := u.orphans.contains (agentCore agent, agentNum agent)
    match m.records.find? (fun r => left r.unit) with
    | some r => some (r.unit, false)
    | none => m.cores.findSome? (fun e => e.2.ctxs.findSome? (fun c =>
        (c.2.unit.filter left).map (fun u => (u, c.2.cancelled))))
  else
    let c := getCtx m (agentCore agent) (agentSub agent)
    c.unit.map (fun u => (u, c.cancelled))

/-- The launch whose actions an agent's are: that of its unit, which may have ended as a record. -/
def agentLaunch (m : Mach) (agent : Nat) : Option Nat :=
  match agentUnit m agent with
  | some (u, _) => some u.launch
  | none =>
    (m.nodes.find? (fun e => e.2.owed.any (fun o => o.orphans.contains (agentCore agent, agentNum agent)))).map (·.1)

/-- The record of the pre-empted unit that an agent's actions belong to. -/
def orphanRecord (m : Mach) (agent : Nat) : Option Record :=
  m.records.find? (fun r => match smGet none m.images r.id with
    | some im => agentIsOrphan agent && im.orphan == agentNum agent
    | none => false)

/-- Do the engine commands in an agent's issue queue stay there? They stop with its pre-emption, as those do that have left,
and go with the unit (spec/17 R251, R255; DEDUCED, log 33), unless it has lost them (R256). -/
def cmdsStay (m : Mach) (agent : Nat) : Bool :=
  match orphanRecord m agent with
  | some r => !r.portable
  | none => agentIsCtx agent &&
      (match (getCtx m (agentCore agent) (agentSub agent)).pre with | some p => p.stopped.isSome | none => false)

/-- Does a command that leaves end CANCELLED at once: its unit has been cancelled, or has lost its commands (R40, R256)? -/
def cmdLost (m : Mach) (agent : Nat) : Bool :=
  (orphanRecord m agent).isSome ||
    (match agentUnit m agent with | some (_, c) => c | none => agentIsOrphan agent)

/-- A command leaves: it joins its engine queue with the views of R192, and its number is known. -/
def leaveCmd (m : Mach) (agent e : Nat) (a : Act) (x y : Word) (cw : Option Word) (opt : BitVec 25) (kind : Nat) : Mach :=
  let core := agentCore agent
  let i := agentNum agent
  let stop := cmdLost m agent && !(kind == 4 && !(optDirect opt.toNat))
  let mt := match agentUnit m agent with
    | some (u, _) => (u.mirw, u.mbase)
    | none => ((getPart m a.area).mirw, (getPart m a.area).mbase)
  let m := modAgent m (engAgent core e) (fun g => { g with view := maxViews g.view (getAgent m agent).view })
  let m := modCore m core (fun k => { k with cmds := smPut [] k.cmds e (smGet [] k.cmds e ++
    [{ num := a.cmd, ctx := i, kind := kind, a := x, b := y, cw := cw, opt := opt, area := a.area, tag := a.tag,
       finfo := a.finfo, stop := stop, cancel := stop, mirw := mt.1, mbase := mt.2 }]) })
  modCtx m core i (fun c => { c with pend := c.pend.map (fun p => if p.tag = a.tag then { p with known := true } else p) })

/-- The signed maximum, the bitwise OR, the sum or the value itself (spec/03 Table 3-3). -/
def postValue (kind : Nat) (old v : Word) : Word :=
  match kind with
  | 0 => v
  | 1 => if BitVec.slt old v then v else old
  | 2 => old ||| v
  | _ => old + v

/-- A post to a result word of a job (spec/03 Table 3-3, R49). -/
def applyPost (m : Mach) (job slot kind : Nat) (v : Word) : Mach :=
  let n := getNode m job
  match n.job with
  | none => m
  | some j =>
    let w := whoOwner m n.owner
    let va := j.res + BitVec.ofNat 64 (8 * slot)
    match readVa m w va 8 with
    | .error _ => m
    | .ok old =>
      match writeVa m hiveAgent w va 8 (postValue kind (BitVec.ofNat 64 old) v).toNat with
      | .ok m => m
      | .error _ => m

/-- Does a MOVING page hold a post to a result word (spec/08 R160)? -/
def postHeld (m : Mach) (job slot : Nat) : Bool :=
  match (getNode m job).job with
  | some j => heldWrite m (whoOwner m (getNode m job).owner) (j.res + BitVec.ofNat 64 (8 * slot)) 8
  | none => false

/-- The job that contains a launch. -/
def jobOf (m : Mach) (n : Nat) : Nat → Option Nat
  | 0 => none
  | fuel + 1 => if (getNode m n).job.isSome then some n else match (getNode m n).parent with | some p => jobOf m p fuel | none => none

/-- A b.launch reaches the hive (spec/03 Table 3-3): the launch joins the graph of the issuing unit. Every refusal is
reported with an event of KIND 1: DEDUCED (log 64), since R47 names the report for a LAUNCH entry and R296 only for an LPB
that can not be read. -/
def leaveLaunch (m : Mach) (agent : Nat) (a : Act) (lpb : Word) : Mach :=
  let core := agentCore agent
  let i := agentSub agent
  let launch := match (getCtx m core i).unit with | some u => u.launch | none => 0
  let parent := (getNode m launch).parent
  match submitLaunch m (whoOf m core i) lpb parent true (getAgent m agent).own with
  | (m, .id n) => setVals (modNode m n (fun x => { x with byCore := some core })) core i a.tag [{ val := BitVec.ofNat 64 n }]
  | (m, .refused c) =>
    let m := hostEvent m (ctxOwner (getCtx m core i)) 1 c.toNat a.area 0 lpb.toNat
    setVals m core i a.tag [{}]

/-- ISSUE_QUEUE_LEAVE (R185, R186, R187, R192): an action that only leaves; one whose pool has been retired since is
refused (spec/01 R12, R17). Loads and atomics of HBM leave as
they bind and are applied; fences and shuts leave as they complete. -/
def leaveAct (m : Mach) (agent idx : Nat) : Mach :=
  let ag := getAgent m agent
  match ag.iq[idx]? with
  | none => m
  | some a =>
    let core := agentCore agent
    let left := leaves m agent idx
    let toPort (pool : Nat) : Mach := modCore left pool (fun k => { k with port := k.port ++ [(agent, a)] })
    if !(canLeave m agent ag.iq idx) then m
    else if (isRead a.kind || isWrite a.kind) && targetOf m a.gran == .none then refuseAct left agent a causePerm (finfoT 7 3)
    else
      match a.kind, targetOf m a.gran with
      | .ld, .pool p => toPort p
      | .cas .., .pool p => toPort p
      | .amo .., .pool p => toPort p
      | .st, .pool p => toPort p
      | .st, _ => modAgent left agent (fun x => { x with pend := x.pend ++ [a] })
      | .radd _, _ =>
        { left with adders := smPut [] left.adders (dieOfPa a.gran) (smGet [] left.adders (dieOfPa a.gran) ++ [(agent, a)]) }
      | .alloc .., _ => toPort core
      | .free _, _ => toPort core
      | .renew .., _ => toPort core
      | .cmd e x y cw opt kind, _ => if writesDone m agent a.tag && !(cmdsStay m agent) then leaveCmd left agent e a x y cw opt kind else m
      | .launch lpb, _ => if writesDone m agent a.tag then leaveLaunch left agent a lpb else m
      | .post slot kind v, _ =>
        match (agentLaunch m agent).bind (fun n => jobOf m n 5) with
        | some j => if writesDone m agent a.tag && !(postHeld m j slot) then applyPost left j slot kind v else m
        | none => if writesDone m agent a.tag then left else m
      | .sync, _ => left
      | _, _ => m

/-- ISSUE_QUEUE_LEAVE. -/
def execIssueQueueLeave (agent idx : Nat) (s : State) : Out := whenRunning s (fun m => leaveAct m agent idx)

/-- PENDING_COMMIT (R186): a pending write commits; those of one agent to one granule in the order they left, the adds
of an l.radd among them (R191). A write of less than an uncorrectable granule is refused (spec/21 R312, step 5). -/
def execPendingCommit (agent idx : Nat) (s : State) : Out :=
  whenRunning s (fun m =>
    let ag := getAgent m agent
    match ag.pend[idx]? with
    | none => m
    | some a =>
      if (ag.pend.take idx).any (fun x => x.gran == a.gran)
          || (adderActs m agent).any (fun x => x.tag < a.tag && sameGran x a) then m
      else
        let m1 := setAgent m agent { ag with pend := ag.pend.eraseIdx idx }
        if granBad m a.gran && a.mask != 0xFFFF then refuseAct m1 agent a 0x19 a.finfo else commitAct m1 agent a)

/-! ### Binding (R188, R191) -/

/-- The bytes of a granule at a position, under the agent's own pending writes (R188). -/
def overPending (ag : Agent) (g : Nat) (x : Gran) : Gran :=
  (ag.pend.filter (fun a => a.gran == g)).foldl (fun x a => mergeGran x a.data a.mask) x

/-- May an agent read a granule at a position now? -/
def posOk (m : Mach) (agent g p : Nat) : Bool := viewOf m (realAgent m agent) g ≤ p && p ≤ newestPos m g

/-- LOAD_BIND (R188): a load outside the pools leaves and binds at a position. -/
def execLoadBind (agent idx pos : Nat) (s : State) : Out :=
  whenRunning s (fun m =>
    let ag := getAgent m agent
    match ag.iq[idx]? with
    | none => m
    | some a =>
      if !(isLoad a.kind) ∨ targetOf m a.gran ≠ .hbm ∨ !(canLeave m agent ag.iq idx) ∨ !(posOk m agent a.gran pos) then m
      else
        let m1 := leaves m agent idx
        if granBad m a.gran then refuseAct m1 agent a 0x19 a.finfo
        else bindTo (raiseView m1 (realAgent m agent) a.gran pos) agent a
          (overPending (getAgent m (realAgent m agent)) a.gran (seenGran m (actKey m a) a.gran (contentAt m a.gran pos))))

/-- ATOMIC_APPLY (R191): an atomic on HBM, once the agent's own writes to its granule have committed. -/
def execAtomicApply (agent idx : Nat) (s : State) : Out :=
  whenRunning s (fun m =>
    let ag := getAgent m agent
    match ag.iq[idx]? with
    | none => m
    | some a =>
      if !(isAtomic a.kind) ∨ targetOf m a.gran ≠ .hbm ∨ !(canLeave m agent ag.iq idx)
          ∨ (ag.pend ++ adderActs m agent).any (fun x => sameGran x a) then m
      else
        let m1 := leaves m agent idx
        if granBad m a.gran then refuseAct m1 agent a 0x19 a.finfo else applyAtomic m1 agent a)

/-! ### The pool port (R187, R149 to R153) -/

/-- Bytes that an allocation of `n` blocks spans (R150). -/
def allocSpan (n : Nat) : Nat := 512 * ((64 * n + 511) / 512)

/-- The lowest base at or above `b`, in steps of 512, at which no entry meets (R150). -/
def allocFit (k : Core) (u : Nat) : Nat → Nat → Option Nat
  | 0, _ => none
  | fuel + 1, b =>
    if 2 ^ 22 < b + u then none
    else
      match k.alloc.find? (fun e => e.2.used && e.2.base < b + u && b < e.2.base + allocSpan e.2.nblk) with
      | none => some b
      | some e => allocFit k u fuel (e.2.base + allocSpan e.2.nblk)

/-- The lowest-numbered unused entry. -/
def allocSlot (k : Core) : Option Nat := (List.range 64).find? (fun n => !((smGet {} k.alloc n).used))

/-- l.alloc at the port (R150). -/
def applyAlloc (m : Mach) (core i tag n sw life : Nat) : Mach :=
  let k := getCore m core
  match allocFit k (allocSpan n) 65 (spbase k.partw), allocSlot k with
  | some base, some slot =>
    let e : Alloc := { used := true, base := base, nblk := n, sw := sw, life := life, exp := m.nowt + life, ctx := i }
    let m := setCore m core { k with alloc := smPut {} k.alloc slot e }
    setVals m core i tag [{ val := ownPoolVa core base }]
  | _, _ => setVals m core i tag [{}]

/-- Does a piece of a range that a command names meet a range of a core's pool, whatever accesses its page allows? A page that
is MOVING is met where it stands (R160). -/
def meetsPool (m : Mach) (w : Who) (core base size : Nat) (r : Word × Nat) : Bool :=
  match xlateNow m w r.1 1 {} with
  | .ok pa _ _ => targetOf m pa == .pool core && poolOff pa < base + size && base < poolOff pa + r.2
  | _ => false

/-- Does an outstanding command of the core, issued and not complete, name a range of its pool (R153)? -/
def namedByCmd (m : Mach) (core base size : Nat) : Bool :=
  let k := getCore m core
  let who (area : Nat) : Who := { core := core, part := area, owner := ((getPart m area).owner).getD 0 }
  let hits (area : Nat) (r : Word × Nat) : Bool := (rangePieces r).any (meetsPool m (who area) core base size)
  k.cmds.any (fun q => q.2.any (fun c => !c.ended &&
      (cmdRanges m (who c.area) c.kind c.opt.toNat c.a c.b c.cw c.desc c.list).any (hits c.area)))
    || m.agents.any (fun g => (agentIsCtx g.1 || agentIsOrphan g.1) && agentCore g.1 == core && g.2.iq.any (fun x =>
        match x.kind with
        | .cmd _ a b cw opt kind => (cmdRanges m (who x.area) kind opt.toNat a b cw 0 []).any (hits x.area)
        | _ => false))
    || m.restDue.any (fun x => x.1 == core && x.2.2.cw.any (fun va => hits x.2.2.area (va, 8)))

/-- l.free at the port (R153): the entry goes, or waits for the commands that name it. -/
def applyFree (m : Mach) (core base : Nat) : Mach :=
  modCore m core (fun k =>
    if k.alloc.any (fun e => e.2.used && e.2.base == base && namedByCmd m core base (allocSpan e.2.nblk)) then
      { k with alloc := k.alloc.map (fun e =>
          (e.1, if e.2.used && e.2.base == base then { e.2 with freeing := true } else e.2)) }
    else { k with alloc := k.alloc.filter (fun e => !(e.2.used && e.2.base == base)) })

/-- The port of a pool applies an action; the own core's words were checked at issue (R151). The pool of a core that has
been retired since is not there (spec/01 R17). -/
def applyPort (m : Mach) (pool agent : Nat) (a : Act) : Mach :=
  let i := agentSub agent
  let own := (agentIsCtx agent || agentIsOrphan agent) && agentCore agent == pool
  let checked : Option Byte :=
    if !(isRead a.kind || isWrite a.kind) then none
    else if targetOf m a.gran = .none then some causePerm
    else if own then none
    else allocCheck m pool (poolOff a.gran + actLo a) (actLen a) (isRead a.kind)
  match checked with
  | some c => refuseAct m agent a c (if c = causePerm then finfoT 7 3 else a.finfo)
  | none =>
    match a.kind with
    | .ld => bindTo m agent a (granNow m a.gran)
    | .st => commitAct m agent a
    | .cas .. => applyAtomic m agent a
    | .amo .. => applyAtomic m agent a
    | .alloc n sw life => applyAlloc m pool i a.tag n sw life
    | .free base => applyFree m pool base
    | .renew base life exp => applyRenew m pool base life exp
    | _ => m

/-- PORT_APPLY (R187). -/
def execPortApply (pool : Nat) (s : State) : Out :=
  whenRunning s (fun m =>
    let k := getCore m pool
    match k.port with
    | [] => m
    | (agent, a) :: rest => applyPort (setCore m pool { k with port := rest }) pool agent a)

/-! ### The HBM reduction adders (R191, spec/12 R213) -/

/-- The block of an adder's target after the add, or the cause that leaves it unchanged. -/
def raddBlock (m : Mach) (key : Option Nat) (g : Nat) (lanes : BitVec 480) : Except Byte Block :=
  let gs := (List.range 4).map (fun i => g + 16 * i)
  let b := blockOf (gs.map (fun g => seenGran m key g (readGran m.mem g)))
  if gs.any (granBad m) then .error 0x19
  else
    match blkFault b with
    | some c => .error c
    | none =>
      if blkFMT b ≠ 0x50 ∨ blkSCL b ≠ 0x78 then .error 0x18
      else
        .ok (mkBlock 0x50 0x78 0 32 ((List.range 15).map (fun i =>
          fpResult fp32 (valAdd (fpDecode fp32 (blkElem b ⟨15, 32, .fp fp32⟩ i))
            (fpDecode fp32 (lanes.toNat / 2 ^ (32 * i) % 2 ^ 32))))))

/-- Commit the four granules of a block at consecutive steps. -/
def commitBlock (m : Mach) (agent : Nat) (key : Option Nat) (g : Nat) (b : Block) : Mach :=
  (blockGrans b).zipIdx.foldl (fun m e => commitKeyed m agent key (g + 16 * e.2) 0xFFFF e.1) m

/-- RADD_BLOCK_APPLY (R191): adds to one block in the order they reached the adder. -/
def execRaddBlockApply (die idx : Nat) (s : State) : Out :=
  whenRunning s (fun m =>
    let q := smGet [] m.adders die
    match q[idx]? with
    | none => m
    | some (agent, a) =>
      match a.kind with
      | .radd lanes =>
        if (q.take idx).any (fun x => sameGran x.2 a) || (getAgent m agent).pend.any (fun x => x.tag < a.tag && sameGran x a) then m
        else
          let m1 := { m with adders := smPut [] m.adders die (q.eraseIdx idx) }
          match raddBlock m (actKey m a) a.gran lanes with
          | .ok b => noteMirror (commitBlock m1 agent (actKey m a) a.gran b) agent (actCtx m agent a) a
          | .error c => refuseAct m1 agent a c a.finfo
      | _ => m)

/-! ### Fences (R193) -/

/-- The commands of a context, or of what a unit left behind, that the weir has stopped: they are to go on, or to end
CANCELLED (spec/17 R251, R255). -/
def stoppedCmds (m : Mach) (core j : Nat) : List Cmd :=
  ((m.restDue.filter (fun x => x.1 == core && x.2.2.ctx == j)).map (·.2.2))
    ++ (if j < 16 then ((((getCtx m core j).pre.map (·.rest)).getD []).map (·.2))
        else m.images.flatMap (fun e => match e.2 with | some im => if im.orphan = j then im.rest.map (·.2) else [] | none => []))

/-- Commands of a context issued before the word numbered `tag`, of a class, that a scope waits for. -/
def cmdsOpen (m : Mach) (core i tag scope : Nat) (rmt : Bool) : Bool :=
  let waits (c : Cmd) : Bool := c.tag < tag && !c.ended && (decide (2 ≤ c.kind) == rmt)
    && coversCmd m scope core c.area (areaOwner m c.area) c.kind c.opt.toNat c.a c.b c.cw c.desc c.list
  (getCore m core).cmds.any (fun q => q.2.any (fun c => c.ctx == i && waits c)) || (stoppedCmds m core i).any waits

/-- Are all earlier actions of the classes that a fence waits for complete? -/
def fenceReady (m : Mach) (agent tag : Nat) (pred : BitVec 5) (scope : Nat) : Bool :=
  let core := agentCore agent
  let i := agentNum agent
  let fl := (flying m agent).filter (fun a => a.tag < tag && actCovered m core scope a)
  (!(pred.getLsbD 0) || !(fl.any (fun a => (actClasses a).getLsbD 0)))
    && (!(pred.getLsbD 1) || !(fl.any (fun a => (actClasses a).getLsbD 1)))
    && (!(pred.getLsbD 2) || !(cmdsOpen m core i tag scope false))
    && (!(pred.getLsbD 3) || !(cmdsOpen m core i tag scope true
      || (4 ≤ scope && ((getCore m core).mirrors.any (fun x => x.1 == i && x.2.tag < tag)
        || (getCore m core).mirrorsOut.any (fun x => x.2.1 == i && x.2.2.1.tag < tag)))))

/-- Raise the views of an agent of every granule in a scope to the newest position. -/
def raiseCovered (m : Mach) (agent core scope : Nat) : Mach :=
  ((m.hist.map (·.1)).filter (covers m scope core)).foldl (fun m g => raiseView m agent g (newestPos m g)) m

/-- Need a fence not wait for an action that stands before it in the queue? A read without a class, and an access to memory that
its scope does not cover (R194). -/
def fencePasses (m : Mach) (core scope : Nat) (x : Act) : Bool :=
  (isLoad x.kind && actClasses x == 0) || (isLoadPlace x.kind || isWrite x.kind || (match x.kind with | .cmd .. => true | _ => false))
    && !(actCovered m core scope x)

/-- FENCE_COMPLETE (R193): the first fence of an issue queue, behind accesses that it does not constrain alone. With arr in its predecessors, the views move
past the payloads that had arrived when the fence issued (R201). -/
def execFenceComplete (agent idx : Nat) (s : State) : Out :=
  whenRunning s (fun m =>
    let ag := getAgent m agent
    let core := agentCore agent
    match ag.iq[idx]? with
    | none => m
    | some a =>
      match a.kind with
      | .fence pred succ scope =>
        if !((ag.iq.take idx).all (fencePasses m core scope)) ∨ !(fenceReady m agent a.tag pred scope) then m
        else
          let m1 := modAgent (leaves m agent idx) agent (fun x => { x with seen := m.step })
          let m2 := if succ.getLsbD 0 then raiseCovered m1 agent core scope else m1
          let m3 := if pred.getLsbD 4 then
              raiseViews m2 agent (((getCore m core).arrived.take a.aux).filter (fun p => covers m scope core p.1))
            else m2
          wakeCore m3 core
      | _ => m)

/-! ### Sluices (R195, R196) -/

/-- The physical ranges of a region of a partition: base and size. -/
def regionRanges (m : Mach) (p : Nat) (r : Region) : List (Nat × Nat) :=
  if r.base / 2 ^ 60 = 15 then
    match poolDecide m (18 * p) r.base with
    | .ok pa _ _ => [(pa, r.size)]
    | _ => []
  else
    let lo := r.base / 65536
    let hi := (r.base + r.size + 65535) / 65536
    ((List.range (hi - lo)).filterMap (fun i =>
      let t := walkPage m p ((lo + i) * 65536)
      let a := max r.base ((lo + i) * 65536)
      let b := min (r.base + r.size) ((lo + i + 1) * 65536)
      if t.ok then
        let sh := pageShift t.level
        some (leafPa t.raw / 2 ^ sh * 2 ^ sh + a % 2 ^ sh, b - a)
      else none))

/-- Does a granule hold a byte of the regions of a sluice (R195)? -/
def inRegions (rs : List (Nat × Nat)) (g : Nat) : Bool := rs.any (fun r => g < r.1 + r.2 && r.1 < g + 16)

/-- SHUT_COMMIT (R196): the shut at the head of an issue queue, once the context's earlier writes to the sluice's
granules have committed. -/
def execShutCommit (agent idx : Nat) (s : State) : Out :=
  whenRunning s (fun m =>
    let ag := getAgent m agent
    let core := agentCore agent
    let i := agentSub agent
    match ag.iq[idx]? with
    | none => m
    | some a =>
      match a.kind with
      | .shut n =>
        let p := a.area
        let rs := (((getPart m p).regions.filter (fun r => r.sluice == n)).map (regionRanges m p)).flatten
        let open_ := (flying m agent).any (fun x => x.tag < a.tag && isWrite x.kind &&
          (inRegions rs x.gran || (match x.kind with
            | .radd _ => [16, 32, 48].any (fun o => inRegions rs (x.gran + o))
            | _ => false)))
        if idx ≠ 0 ∨ open_ then m
        else
          let pos := ((m.hist.map (·.1)).filter (inRegions rs)).map (fun g => (g, newestPos m g))
          let sl := sluiceOf m p n
          let v := sl.version + 1
          let m1 := modPart (leaves m agent idx) p (fun q =>
            { q with sluices := smPut {} q.sluices n { sl with version := v, recd := pos } })
          setVals { m1 with step := m1.step + 1 } core i a.tag [{ val := v }]
      | _ => m)

/-! ### Landing (R67, R70, R81) -/

/-- The result of a speculative load that failed: poisoned, the value undefined (R81). -/
def poisoned (m : Mach) (cause : Byte) (n : Nat) : Scalar :=
  { val := Config.freeWord (m.fresh * 65536 + 15 * 256 + n), pois := true, cause := cause }

/-- A pending result lands in its registers, and the context may go on. -/
def landPend (m : Mach) (core i : Nat) (p : Pend) : Mach :=
  modCtx m core i (fun c =>
    let vs := match p.bad with
      | some (cause, _) => p.dst.zipIdx.map (fun e => poisoned m cause e.2)
      | none => p.vals
    let c := (p.dst.zip vs).foldl (fun c e => storeReg c e.1 e.2) c
    { c with pend := c.pend.filter (fun q => q.tag != p.tag), st := if c.st = .stalled then .ready else c.st })

/-- Insert actions of the word numbered `tag` where it stands in program order. -/
def insActs (xs : List Act) (tag : Nat) : List Act → List Act
  | [] => xs
  | a :: as => if tag < a.tag then xs ++ (a :: as) else a :: insActs xs tag as

/-- Blocks of an l.vld that have come, in order. -/
def vldBlocks (p : Pend) : List Block :=
  (List.range (p.got.length / 4)).map (fun b => blockOf ((List.range 4).map (fun k => smGet 0 p.got (4 * b + k))))

/-- Read the later blocks of an l.vld (spec/21 R330): each is translated and checked as it is read. -/
def vldMore (m : Mach) (core i : Nat) (p : Pend) (n : Nat) : Mach :=
  let w := whoOf m core i
  let one (b : Nat) : Except (Byte × Word × Word) (List Act) :=
    let va := p.va + BitVec.ofNat 64 (64 * b)
    match xlateNow m w va 64 accRead with
    | .absent pa => .ok ((blockActs .ld pa 0 va false (4 * b)).map (fun a => { a with tag := p.tag, area := w.part, finfo := p.finfo }))
    | .ok pa mir _ =>
      match (if targetOf m pa = .pool core then allocCheck m core (poolOff pa) 64 true else none) with
      | some c => .error (c, va, p.finfo)
      | none => .ok ((blockActs .ld pa 0 va mir (4 * b)).map (fun a => { a with tag := p.tag, area := w.part, finfo := p.finfo }))
    | .fault c f => .error (c, va, if c = 0x19 then p.finfo else f)
    | _ => .error (causePerm, va, finfoT 7 2)
  let rec all : List Nat → Except (Byte × Word × Word) (List Act)
    | [] => .ok []
    | b :: bs => match one b with
      | .error e => .error e
      | .ok xs => match all bs with | .error e => .error e | .ok ys => .ok (xs ++ ys)
  match all ((List.range n).drop 1) with
  | .error (c, va, f) => raiseLater (dropPend m core i p.tag) core i w.part c va f
  | .ok acts =>
    let m := modAgent (clearMore m core i p.tag) (ctxAgent core i) (fun a => { a with iq := insActs acts p.tag a.iq })
    modCtx m core i (fun c => { c with pend := c.pend.map (fun q => if q.tag = p.tag then { q with need := 4 * n } else q) })

/-- The row that an l.vld writes (spec/21 R330, spec/07 R137). -/
def vldRow (prec : Word) (old : Row) (f : BlkFmt) (bs : List Block) : Row :=
  let a := acct prec
  let vs := ((List.range (lanesOf a)).map (fun j => elemVal (bs.getD (j / f.n) 0) f (j % f.n)))
  if isAxb a then axbRow ((List.range 4).map (fun j => (-128, ((vs.drop (15 * j)).take 15).map (fun v => ((0 : Int), v)))))
  else ⟨packRow a (vs.map (laneConv a (satOf prec))), old.exps⟩

/-- An l.vld whose granules have come: check, ask for more, or write the row, after what the context's own earlier words
have in flight for it (R69); other contexts' results land over it in their cycles (spec/22 R348). -/
def landVld (m : Mach) (core i row : Nat) (p : Pend) : Mach :=
  let prec := (p.vals.headD {}).val
  let bs := vldBlocks p
  let fail (c : Byte) (b : Nat) : Mach :=
    raiseLater (dropPend m core i p.tag) core i (getCtx m core i).area c (p.va + BitVec.ofNat 64 (64 * b)) p.finfo
  match bs.zipIdx.findSome? (fun e => (blkFault e.1).map (fun c => (c, e.2))) with
  | some (c, b) => fail c b
  | none =>
    match blkFmt (blkFMT (bs.headD 0)) with
    | none => fail 0x18 0
    | some f =>
      let n := ceilDiv (lanesOf (acct prec)) f.n
      match bs.zipIdx.find? (fun e => blkFMT e.1 != blkFMT (bs.headD 0)) with
      | some (_, b) => fail 0x18 b
      | none =>
        if bs.length < n then vldMore m core i p n
        else
          let k := landRowsDue (getCore m core) m.cycle
          if k.rowFlight.any (fun x => x.row == row && x.ctx == i) then m
          else
            let r := vldRow prec ⟨smGet 0 k.tiles row, smGet 0 k.exps row⟩ f bs
            let k := pokeRow k row r.data r.exps
            landPend (clearMore (setCore m core (markRows k i (BitVec.ofNat 256 (2 ^ row)))) core i p.tag) core i p

/-- An l.win whose entry has come, or whose invalidation is done (spec/08 R157); WINBASE likewise (spec/20 R310). A table
that does not lie in HBM takes no entry: the write is refused (spec/01 R12). -/
def landWin (m : Mach) (core i idx : Nat) (sent : Bool) (p : Pend) : Mach :=
  let part := (getCtx m core i).area
  if sent then
    if m.invals.any (fun v => v.part == part && (v.all || v.win && v.page == idx)) then m
    else landPend m core i { p with vals := p.dst.map (fun _ => {}) }
  else if p.got.length < 2 then m
  else
    let raw := (smGet 0 p.got 0).toNat + (smGet 0 p.got 1).toNat * 2 ^ 128
    if winInvalid raw then landPend m core i { p with vals := p.dst.map (fun _ => { val := 1 }) }
    else if targetOf m (winAddr m part idx) ≠ .hbm then
      raiseLater (dropPend m core i p.tag) core i part causePerm (BitVec.ofNat 64 (winAddr m part idx)) (finfoT 7 3)
    else
      let m := commitNat m (ctxAgent core i) (winAddr m part idx) 32 raw
      let m := modCtx m core i (fun c => { c with pend := c.pend.map (fun q =>
        if q.tag = p.tag then { q with use := .win idx true } else q) })
      { m with invals := m.invals ++ [{ part := part, win := true, page := idx, all := false, acks := 0 }] }

/-- SCOREBOARD_LAND (R70); a held context whose last load has landed writes its frame (R246). -/
def execScoreboardLand (core ctx tag : Nat) (s : State) : Out :=
  whenRunning s (fun m =>
    match (getCtx m core ctx).pend.find? (fun p => p.tag == tag) with
    | none => m
    | some p =>
      payFrame
        (match p.use with
         | .row row => if p.got.length < p.need then m else landVld m core ctx row p
         | .win idx sent => landWin m core ctx idx sent p
         | _ => if p.known then landPend m core ctx p else m) core ctx)

/-- RESULT_LAND (R67, R68, R69): the exposed results whose bound has passed. -/
def execResultLand (core ctx : Nat) (s : State) : Out :=
  whenRunning s (fun m =>
    modCtx (modCore m core (fun k => landRowsDue k m.cycle)) core ctx (fun c => landDue c m.cycle))

/-- OPERAND_FILL_DONE (spec/09 R169, R170): every granule that an M word asked for has been bound. -/
def execOperandFillDone (core ctx : Nat) (s : State) : Out :=
  whenRunning s (fun m =>
    modCtx m core ctx (fun c =>
      match c.fill with
      | some f =>
        if !f.done && f.want.all (fun g => f.got.any (fun e => e.1 == g)) then
          { c with fill := some { f with done := true }, st := if c.st = .stalled then .ready else c.st }
        else c
      | none => c))

/-- Does the condition of a waiting word hold (R29)? -/
def waitDone (m : Mach) (core i : Nat) (w : Wait) : Bool :=
  match w with
  | .sluice n v => !(BitVec.ult (sluiceOf m (getCtx m core i).area n).version v)
  | .timeline k e n => decide (n ≤ smGet 0 (getCore m k).etl e)
  | .barrier k b => barStands (getCore m k) m.cycle b
  | .susp => (getCtx m core i).susp.isNone && suspReady m core i m.tag
  | .queue q =>
    let x := getQueue m q
    x.closed || (match x.waiters.idxOf? (core, i) with | some j => decide (j < x.entries.length) | none => !x.entries.isEmpty)
  | _ => false

/-- WAIT_SATISFIED (R29): the waiting bundle may issue again, unless a cancel or a request of pre-emption has reached the
context: a waiting bundle is a stop point, and it stops there (R40, R41, spec/17 R251). -/
def execWaitSatisfied (core ctx : Nat) (s : State) : Out :=
  whenRunning s (fun m =>
    let c := getCtx m core ctx
    match c.st, c.wait with
    | .waiting, some w => if waitDone m core ctx w ∧ !c.cancelled ∧ c.pre.isNone then setCtx m core ctx { c with st := .ready, wait := none } else m
    | _, _ => m)

/-! ### Walks and invalidations (spec/08 R158, R161) -/

/-- PAGE_WALK (R158, R161): one walk serves a miss. What it found is kept, a fault too, until a bundle meets that fault: DESIGN
CHOICE (log 107), R161 does not say whether a walk without a usable entry is cached. -/
def execPageWalk (cluster idx : Nat) (s : State) : Out :=
  whenRunning s (fun m =>
    let k := getCluster m cluster
    match k.miss[idx]? with
    | none => m
    | some q =>
      let t := if q.win then walkWindow m q.part q.page else walkPage m q.part (q.page * 65536)
      let m := fillTr (setCluster m cluster { k with miss := k.miss.eraseIdx idx }) cluster t
      wakeCluster m cluster)

/-- Does an invalidation name a cached translation? -/
def namesTr (v : Inval) (t : Tr) : Bool :=
  v.part == t.part &&
    (v.all || v.win == t.win && (if t.win then v.page == t.page else v.page * 65536 / 2 ^ pageShift t.level == t.page * 65536 / 2 ^ pageShift t.level))

/-- May an action have used a translation that an invalidation names? The page that a leaf mapped when the action
translated may have had any of the three sizes: every access to the 16 GiB around the page named is waited for. -/
def namesAct (v : Inval) (a : Act) : Bool :=
  let x := a.va.toNat
  v.part == a.area && x / 2 ^ 60 != 15 &&
    (v.all || (if x / 2 ^ 60 = 14 then v.win && x / 2 ^ 48 % 4096 == v.page
     else !v.win && x / 2 ^ 34 == v.page / 2 ^ 18))

/-- The destination that serves a core: its die, 0 to 3. -/
def agentOnDie (d agent : Nat) : Bool := (agent < 40000 || agentIsOrphan agent) && dieOf (agentCore agent) == d

/-- Has a request gone through a window that an invalidation names? -/
def namesWin (v : Inval) (area win : Nat) : Bool := v.part == area && (v.all || v.win && v.page == win)

/-- The requests and mirrors of a core that have gone through such a window and are not answered: destination, number. -/
def winReqs (m : Mach) (core : Nat) (v : Inval) : List (Nat × Nat) :=
  let k := getCore m core
  (smGet [] k.cmds 3).flatMap (fun c =>
      (c.reqs.filter (fun q => !q.answered && q.va.toNat / 2 ^ 60 == 14 && namesWin v c.area (q.va.toNat / 2 ^ 48 % 4096))).map
        (fun q => (q.pkg, q.r.id)))
    ++ (k.mirrorsOut.filter (fun x => (x.2.2.1.mirw.map (namesWin v x.2.2.1.area)).getD false)).map (fun x =>
        (((x.2.2.1.mirw.map (fun i => winPkg (walkWindow m x.2.2.1.area i).raw))).getD 0, x.1))

/-- Has a request of a core reached its ordering point (R13), or been refused at a frozen frame (spec/14 R226)? On this
package it is neither on its way nor being applied; of one to another package that is a free value (log 79). -/
def reqOrdered (m : Mach) (core : Nat) (q : Nat × Nat) : Bool :=
  if q.1 = m.number then
    (match m.migration with | some g => g.nacks.contains (m.number, core, q.2) | none => false)
      || !((m.out ++ m.landings.map (·.msg)).any (fun x =>
        match x with
        | .load _ r | .store _ r | .direct _ r _ _ | .replica _ r => r.src == m.number && r.srcCore == core && r.id == q.2
        | _ => false))
  else Config.freeBit (m.fresh * 2 ^ 40 + core * 2 ^ 20 + q.2)

/-- Have the accesses that used such a translation at a destination reached their ordering points: those of a compute die's
cores; at the switch die the writes of combine units (R13, R161)? -/
def dieQuiet (m : Mach) (d : Nat) (v : Inval) : Bool :=
  m.agents.all (fun e => !(if d < 4 then agentOnDie d e.1 else agentIsLanding e.1) ||
    !((e.2.iq ++ flying m e.1).any (fun a => (isRead a.kind || isWrite a.kind) && namesAct v a)))
    && (4 ≤ d || m.cores.all (fun e => dieOf e.1 != d || (winReqs m e.1 v).all (reqOrdered m e.1)))

/-- Discard the cached translations of a die that an invalidation names. -/
def discardTr (m : Mach) (d : Nat) (v : Inval) : Mach :=
  { m with
    cores := m.cores.map (fun e => (e.1, if dieOf e.1 = d then { e.2 with tc := e.2.tc.filter (fun t => !(namesTr v t)) } else e.2))
    clusters := m.clusters.map (fun e =>
      (e.1, if e.1 / 16 = d then { e.2 with tlb := e.2.tlb.filter (fun t => !(namesTr v t)) } else e.2)) }

/-- INVALIDATION (R161): the host or the hive names one page, or one window, of a partition. -/
def execInvalidation (part : Nat) (page : Word) (s : State) : Out :=
  whenRunning s (fun m =>
    let win : Bool := page.toNat / 2 ^ 60 == 14
    let n := if win then page.toNat / 2 ^ 48 % 4096 else page.toNat / 65536
    { m with invals := m.invals ++ [{ part := part, win := win, page := n, all := false, acks := 0 }] })

/-- INVALIDATION_ACK (R161): a destination, 0 to 3 the compute dies and 4 the switch die, discards what the oldest
invalidation that it has not acknowledged names, waits out the accesses that used it, and acknowledges. With the
fifth acknowledgement the invalidation completes. -/
def execInvalidationAck (dest : Nat) (s : State) : Out :=
  whenRunning s (fun m =>
    if 5 ≤ dest then m
    else
      match m.invals.find? (fun v => !(v.acks.getLsbD dest)) with
      | none => m
      | some v =>
        let m := if dest < 4 then discardTr m dest v else m
        if !(dieQuiet m dest v) then m
        else
          let v' := { v with acks := v.acks ||| BitVec.ofNat 5 (2 ^ dest) }
          { m with invals := (m.invals.map (fun x => if x = v then v' else x)).filter (fun x => x.acks != 31) })

/-- Copy a page to a new frame, granule by granule. -/
def copyPage (m : Mach) (src dst : Nat) : Nat → Mach
  | 0 => m
  | n + 1 =>
    let m := commitWrite m hiveAgent dst 0xFFFF (readGran m.mem src)
    copyPage { m with keyed := smPut 0 m.keyed dst (smGet 0 m.keyed src) } (src + 16) (dst + 16) n

/-- Windows of a partition's table on this package whose target lies in a frame of HBM. -/
def windowsInto (m : Mach) (part base size : Nat) : List Nat :=
  let t := winAddr m part 0
  let ids := ((m.mem.filter (fun c => t ≤ c.1 && c.1 < t + 0x20000)).map (fun c => (c.1 - t) / 32)).eraseDups
  if targetOf m t ≠ .hbm then [] else
  ids.filter (fun i =>
    let raw := readNat m.mem (winAddr m part i) 32
    winFlag raw 0 && (winKind raw == 0 || winKind raw == 1 && winPkg raw == m.number)
      && base ≤ winTbase raw && winTbase raw + winSize raw ≤ base + size)

/-- Does a remote request or a result write or reduce in a frame while it is being applied? -/
def landsIn (m : Mach) (base size : Nat) : Bool :=
  m.landings.any (fun l =>
    let hit (r : RemoteReq) : Bool := base < r.pa + r.len && r.pa < base + size
    (getAgent m (landAgent l.id)).pend.any (fun a => base ≤ a.gran && a.gran < base + size)
      || (match l.msg with
          | .store _ r => hit r
          | .replica _ r => hit r
          | .direct _ r _ _ => hit r
          | _ => false))

/-- PAGE_MIGRATION (R160, spec/14 R226): the hive's next step. 0: set MOVING, commit, invalidate. 1: when that is
done, and what was landing in the frame has landed, copy the frame, write the new entry and the windows that lead to the
frame, and invalidate them all. 2: when that is done on every package of the partition (on the others a free value, log
79), send the MOVED NACKs that are due; the old frame takes no write before. A page moves between frames of HBM that are
there (spec/01 R12). -/
def migrate (m : Mach) (part va newPa : Nat) : Mach :=
  let inval (m : Mach) : Mach :=
    { m with invals := m.invals ++ [{ part := part, win := false, page := va / 65536, all := false, acks := 0 }] }
  let wins := match m.migration with | some g => g.windows | none => []
  let busy := m.invals.any (fun v => v.part == part && (if v.win then wins.contains v.page else v.page == va / 65536))
  match m.migration with
  | none =>
    match partLeaf m part va with
    | none => m
    | some (pte, level) =>
      if newPa % 2 ^ pageShift level ≠ 0 ∨ 0x8000000000 < newPa + 2 ^ pageShift level then m
      else
        let raw := readNat m.mem pte 8
        if pteBit raw 7 ∨ 0x8000000000 < leafPa raw + 2 ^ pageShift level then m
        else
          inval { commitNat m hiveAgent pte 8 (raw + 128) with
            migration := some { part := part, va := va, pte := pte, oldPa := leafPa raw, newPa := newPa,
                                 size := 2 ^ pageShift level, stage := 1, nacks := [] } }
  | some g =>
    if g.part ≠ part ∨ g.va ≠ va ∨ busy ∨ (g.stage = 1 ∧ landsIn m g.oldPa g.size) then m
    else if g.stage = 1 then
      match partLeaf m part va with
      | none => { m with migration := none }
      | some _ =>
        let m := copyPage m g.oldPa g.newPa (g.size / 16)
        let raw := readNat m.mem g.pte 8
        let new := raw % 2 ^ 22 - (if pteBit raw 7 then 128 else 0) + g.newPa / 65536 * 2 ^ 22 + raw / 2 ^ 58 * 2 ^ 58
        let m := commitNat m hiveAgent g.pte 8 new
        let ws := windowsInto m part g.oldPa g.size
        let m := ws.foldl (fun m i =>
          let raw := readNat m.mem (winAddr m part i) 32
          let m := commitNat m hiveAgent (winAddr m part i) 8 (winTbase raw - g.oldPa + g.newPa)
          { m with invals := m.invals ++ [{ part := part, win := true, page := i, all := false, acks := 0 }] }) m
        inval { m with migration := some { g with stage := 2, windows := ws } }
    else if !(Config.freeBit (m.fresh * 65536 + 61439)) then m
    else
      { m with migration := none, out := m.out ++ g.nacks.map (fun n => Msg.moved n.1 n.2.1 n.2.2) }

/-- PAGE_MIGRATION. -/
def execPageMigration (part : Nat) (va newPa : Word) (s : State) : Out :=
  whenRunning s (fun m => migrate m part va.toNat newPa.toNat)

end Sys2Proof.Machine
end

