-- ==== Sys2Proof/Machine/Engine.lean ====
section
/-!
DEFINITION. Engine commands: start, block reads and writes, requests of the collective commands, ends
(spec/12_engines.md R203 to R213, spec/14_bilvel_fabric.md R219 to R225, R232).
-/

namespace Sys2Proof.Machine

/-! ### Reads of an engine context -/

def cmdOf (m : Mach) (core e num : Nat) : Option Cmd := (smGet [] (getCore m core).cmds e).find? (fun c => c.num == num)

/-- A read of at most 16 bytes by an engine context, or the cause that refuses it; an HBM granule is read at a
position that the spec leaves open (R188). -/
def engRead (m : Mach) (core e : Nat) (w : Who) (va : Word) (n ix : Nat) : Except Nat (Mach × Nat) :=
  match xlateNow m w va n accRead with
  | .ok pa _ _ =>
    let g := pa / 16 * 16
    let ag := engAgent core e
    match targetOf m pa with
    | .pool p =>
      match allocCheck m p (poolOff pa) n true with
      | some c => .error c.toNat
      | none => .ok (m, readNow m pa n)
    | _ =>
      if granBad m g then .error 0x19
      else
        let lo := viewOf m ag g
        let p := lo + Config.freeIndex ix % (newestPos m g - lo + 1)
        .ok (raiseView m ag g p,
          granBytes (overPending (getAgent m ag) g (seenGran m (pageKey m w.part va) g (contentAt m g p))) (pa % 16) n)
  | .fault c _ => .error c.toNat
  | _ => .error 0x09

/-- A read of one granule of a block: nothing yet (the position is not one that may be read), the granule, or the
cause of a refusal. -/
inductive GranRes where
  | none
  | ok (m : Mach) (g : Gran)
  | bad (cause : Nat)

def engGran (m : Mach) (core e : Nat) (w : Who) (blk : Word) (k p : Nat) : GranRes :=
  match xlateNow m w blk 64 accRead with
  | .ok pa _ _ =>
    let g := pa + 16 * k
    let ag := engAgent core e
    match targetOf m pa with
    | .pool q =>
      match allocCheck m q (poolOff pa) 64 true with
      | some c => .bad c.toNat
      | Option.none => .ok m (granNow m g)
    | _ =>
      if granBad m g then .bad 0x19
      else if posOk m ag g p then
        .ok (raiseView m ag g p) (overPending (getAgent m ag) g (seenGran m (pageKey m w.part blk) g (contentAt m g p)))
      else .none
  | .fault c _ => .bad c.toNat
  | _ => .bad 0x09

/-! ### Group walks (R211) -/

/-- The source row of a destination row of a group walk, from the entries read (R211). -/
def walkRow : List Nat → Nat → Option Nat
  | [], _ => none
  | x :: xs, r => if r < x / 2 ^ 32 then some (x % 2 ^ 32 + r) else walkRow xs (r - x / 2 ^ 32)

/-- Σ c_g over the entries read. -/
def walkSum (xs : List Nat) : Nat := (xs.map (· / 2 ^ 32)).foldl (· + ·) 0

/-! ### What a command does next -/

inductive Work where
  /-- read a list entry of `n` bytes -/
  | entry (va : Word) (n : Nat)
  /-- read these blocks, then write or send them -/
  | read (blocks : List Word)
  /-- send the request of an l.rld -/
  | send
  /-- write the next block of its response -/
  | place
  /-- write the next residual block of a compressed reduction -/
  | resid
  /-- send the next request of a direct reduction, or the contribution, from the elements read -/
  | flush
  /-- what stands before a refused or bad block is sent or written: the command ends -/
  | fail (cause : Nat)
  | done
  | over

def optIsGroup (c : Cmd) : Bool := c.kind == 4 && !(optDirect c.opt.toNat)

/-- The access that a remote write of a command makes through its window (R156, R224). -/
def remoteAcc (c : Cmd) : Acc :=
  if c.kind = 4 then { red := true, hnd := optHnd 4 c.opt.toNat } else { wr := true, hnd := optHnd c.kind c.opt.toNat }

/-- Does an access go to a remote target? -/
def isRemote : XRes → Bool
  | .remote .. => true
  | _ => false

/-- The address value of a multicast's payload in its `i`-th window (R223). -/
def mcastVa (c : Cmd) (i : Nat) : Word :=
  let a := c.a.toNat
  BitVec.ofNat 64 (14 * 2 ^ 60 + (a % 4096 + i) * 2 ^ 48 + 64 * (a / 2 ^ 24 % 2 ^ 24))

def mcastCount (c : Cmd) : Nat := c.a.toNat / 2 ^ 12 % 256 + 1

/-- The address values at which a remote store, or each replica of a multicast, writes its payload. -/
def remoteVas (c : Cmd) : List Word := if c.kind = 5 then (List.range (mcastCount c)).map (mcastVa c) else [c.a]

/-- Blocks of the next request: at most 4, one where a window does not take them all (R203, R207). -/
def unitBlocks (m : Mach) (core : Nat) (c : Cmd) : Nat :=
  let n := min 4 (c.total - c.next)
  let takes (va : Word) : Bool :=
    isRemote (xlateNow m (engWho m core c) (va + BitVec.ofNat 64 (64 * c.next)) (64 * n) (remoteAcc c))
  if c.kind = 4 ∧ (optIsGroup c ∨ optCmp c.opt.toNat) then c.total - c.next
  else if c.kind = 3 ∨ c.kind = 5 then (if (remoteVas c).all takes then n else 1)
  else n

/-- Is a residual block of a compressed reduction to be written next: before the packet of its group, or, for a contribution
to a group, before the contribution (R232)? -/
def residNext (c : Cmd) : Bool := !c.resid.isEmpty && (optIsGroup c || c.later.length == 60 * c.resid.length)

/-- Block index of the next block of a copy (R208). -/
def copyIndex (c : Cmd) : Nat := if c.down then c.total - 1 - c.next else c.next

def nextWork (m : Mach) (core : Nat) (c : Cmd) : Work :=
  match c.kind with
  | 0 => if c.total ≤ c.next then .done else .read [c.b + BitVec.ofNat 64 (64 * copyIndex c)]
  | 1 =>
    let d := c.desc
    let r := c.next / dRblk d
    let src (x : Nat) : Work := .read [dSrc d + BitVec.ofNat 64 (x * dRstr d + 64 * (c.next % dRblk d))]
    if isWalk c then
      match walkRow c.list r with
      | some x => if 64 ≤ r then .over else src x
      | none =>
        if dN d ≤ c.list.length then .done else .entry (dList d + BitVec.ofNat 64 (8 * c.list.length)) 8
    else if dN d ≤ r then .done
    else
      match c.list[r]? with
      | some x => src x
      | none => .entry (dList d + BitVec.ofNat 64 (4 * c.list.length)) 4
  | 2 =>
    match c.fetched with
    | none => if c.reqs.isEmpty then .send else .done
    | some data =>
      if 64 * c.next < data.length then .place
      else match c.laterBad with | some x => .fail x | none => .done
  | _ =>
    if residNext c then .resid
    else if !c.later.isEmpty then .flush
    else if c.laterBad.isSome then .fail (c.laterBad.getD 0)
    else if c.total ≤ c.next then .done
    else .read ((List.range (unitBlocks m core c)).map (fun i => c.b + BitVec.ofNat 64 (64 * (c.next + i))))

/-! ### Starting (R203, R208 to R210, R223) -/

/-- The lifetime of RNF, or the cause that ends the command at its start (R209). A destination range of no blocks is
checked at its first address (DEDUCED, log 65). -/
def rnfStart (m : Mach) (core e : Nat) (c : Cmd) (n : Nat) : Except Nat (Mach × Nat) :=
  match c.cw with
  | none => .ok (m, 0)
  | some cw =>
    match engRead m core e (engWho m core c) cw 4 (m.fresh * 65536) with
    | .error x => .error x
    | .ok (m, life) =>
      match rnfAlloc m (engWho m core c) c.a n with
      | none => .error 0x11
      | some (q, _) => if life = 0 ∨ tretOf m q < life then .error 0x12 else .ok (m, life)

/-- What a remote destination answers at the start: the cause that ends the command, or none (R224). -/
def remoteStart (m : Mach) (w : Who) (c : Cmd) (va : Word) (size : Nat) : Option Nat :=
  let opt := c.opt.toNat
  let needs2 : Bool := optHnd c.kind opt || optRbarf c.kind opt != 0
  match xlateNow m w va size (remoteAcc c) with
  | .remote _ _ kind _ => if needs2 && kind == 1 then some 0x09 else none
  | .fault x _ => some x.toNat
  | _ => some 0x09

/-- Is a window one for which a multicast ends at its start, with nothing sent: of KIND 0, without WR, or one that does not
take the handler or the barrier asked for (R223, R224)? Any other refusal is that of a replica. -/
def mcastRefused (m : Mach) (c : Cmd) (i : Nat) : Bool :=
  let t := walkWindow m c.area (c.a.toNat % 4096 + i)
  let hnd := optHnd c.kind c.opt.toNat
  t.ok && (winKind t.raw == 0 || !(winFlag t.raw 2) || (hnd && !(winFlag t.raw 4))
    || ((hnd || optRbarf c.kind c.opt.toNat != 0) && winKind t.raw == 1))

/-- The address of a group's table entry on this package (R227). -/
def groupAddr (m : Mach) (part g : Nat) : Nat := winAddr m part 0 + 0x20000 + 64 * g

/-- The bytes of a group's table entry (Table 14-6). -/
def groupEntry (m : Mach) (part g : Nat) : BitVec 512 := BitVec.ofNat 512 (readNat m.mem (groupAddr m part g) 64)

/-- A group's table entry as it is read: refused where the table does not lie in HBM (spec/01 R12) or a granule is
uncorrectable (spec/19 R278). -/
def groupRead (m : Mach) (part g : Nat) : Except Nat (BitVec 512) :=
  if targetOf m (groupAddr m part g) ≠ .hbm then .error 0x09
  else if (List.range 4).any (fun i => granBad m (groupAddr m part g + 16 * i)) then .error 0x19
  else .ok (groupEntry m part g)

def entByte (e : BitVec 512) (i n : Nat) : Nat := e.toNat / 256 ^ i % 256 ^ n
def entNC (e : BitVec 512) : Nat := entByte e 0 2
def entORD (e : BitVec 512) : Bool := entByte e 2 1 % 2 == 1
def entOUTF (e : BitVec 512) : Bool := entByte e 2 1 / 2 % 2 == 1
def entHND (e : BitVec 512) : Bool := entByte e 2 1 / 4 % 2 == 1
def entOP (e : BitVec 512) : Nat := entByte e 3 1 % 8
def entHIDX (e : BitVec 512) : Nat := entByte e 4 1
def entNBLK (e : BitVec 512) : Nat := entByte e 5 1 + 1
def entRANKS (e : BitVec 512) : Word := BitVec.ofNat 64 (entByte e 8 8)
def entTMO (e : BitVec 512) : Nat := entByte e 16 4
def entRADDR (e : BitVec 512) : Word := BitVec.ofNat 64 (entByte e 24 8)
def entRREC (e : BitVec 512) : Word := BitVec.ofNat 64 (entByte e 32 8)

/-- Does an entry break Table 14-6 (R227)? -/
def entBad (e : BitVec 512) : Bool :=
  entNC e < 2 || 64 < entNC e || entByte e 2 1 / 8 != 0 || entByte e 3 1 / 8 != 0 || 5 ≤ entOP e
    || (3 ≤ entOP e && entOUTF e) || entByte e 6 2 != 0 || entTMO e == 0 || entByte e 20 4 != 0 || entByte e 40 24 != 0

/-- The rank entries of a group: fabric number and core; none where the list can not be read (DESIGN CHOICE, log 89). -/
def groupRanks (m : Mach) (part : Nat) (e : BitVec 512) : List (Nat × Nat) :=
  let w : Who := { core := 18 * part, part := part, owner := ((getPart m part).owner).getD 0 }
  match readVa m w (entRANKS e) (4 * entNC e) with
  | .ok x => (List.range (entNC e)).map (fun i => (x / 2 ^ (32 * i + 16) % 65536, x / 2 ^ (32 * i) % 65536))
  | .error _ => []

/-- Does an entry break Table 14-6 on this package: RREC in a page with T among the rest (R227)? -/
def entRefused (m : Mach) (part : Nat) (e : BitVec 512) : Bool :=
  let x := (entRREC e).toNat
  entBad e || (x / 2 ^ 60 < 14 && (walkPage m part x).ok && pteBit (walkPage m part x).raw 5)

/-! Rounds are kept by 65,536 × site + 1,024 × partition + group: the site is rank 0's package for the root, and for an
ordered tree the even rank at whose package a combine unit combines the ranks from its own on (R228). -/

def getRound (m : Mach) (k : Nat) : Round := smGet {} m.rounds k
def setRound (m : Mach) (k : Nat) (x : Round) : Mach := { m with rounds := smPut {} m.rounds k x }

/-- Contributions of a rank so far, exclusions counted (R228, R229). -/
def rankCount (m : Mach) (k rank : Nat) : Nat := smGet 0 m.counts (64 * k + rank)

/-- The entry of an open round of a group on this package that a core has yet to contribute to (R227). -/
def openEntry (m : Mach) (core k : Nat) : Option (BitVec 512) :=
  m.rounds.findSome? (fun e =>
    match e.2.isOpen && e.1 % 65536 == k, (groupRanks m (k / 1024) e.2.entry).idxOf? (m.number, core) with
    | true, some r => if rankCount m e.1 r < e.2.round then some e.2.entry else none
    | _, _ => none)

/-- The entry that governs the next contribution of a core (R227). -/
def groupFor (m : Mach) (core part g : Nat) : Except Nat (BitVec 512) :=
  match openEntry m core (1024 * part + g) with
  | some e => .ok e
  | none => groupRead m part g

/-- A command starts: what it finds before its first block, if it ends there. A copy whose destination lies above its source and
overlaps it goes downwards (R208); the two ranges of address values decide, whatever windows or pages they go through (DEDUCED,
log 86). -/
def startWork (m : Mach) (core e : Nat) (c : Cmd) : Except (Nat × Cmd) (Mach × Cmd) :=
  let w := engWho m core c
  let opt := c.opt.toNat
  let a := c.a.toNat
  let b := c.b.toNat
  match c.kind with
  | 0 =>
    let c := { c with total := optNblk 0 opt }
    if a % 64 ≠ 0 ∨ b % 64 ≠ 0 then .error (0x0A, c)
    else
      let c := { c with down := decide (b < a) && decide (a < b + 64 * c.total) }
      if optRnf 0 opt then
        match rnfStart m core e c c.total with
        | .error x => .error (x, c)
        | .ok (m, life) => .ok (m, { c with life := life })
      else .ok (m, c)
  | 1 =>
    if a % 64 ≠ 0 ∨ b % 32 ≠ 0 then .error (0x0A, c)
    else
      match engRead m core e w c.b 16 (m.fresh * 65536) with
      | .error x => .error (x, c)
      | .ok (m, lo) =>
        match engRead m core e w (c.b + 16) 16 (m.fresh * 65536 + 1) with
        | .error x => .error (x, c)
        | .ok (m, hi) =>
          let d : BitVec 256 := BitVec.ofNat 256 (lo + hi * 2 ^ 128)
          if descBad d then .error (0x1A, c)
          else
            let c := { c with desc := d, total := gathBlocks m core e c d }
            if optRnf 1 opt then
              match rnfStart m core e c c.total with
              | .error x => .error (x, c)
              | .ok (m, life) => .ok (m, { c with life := life })
            else .ok (m, c)
  | 2 =>
    let c := { c with total := optNblk 2 opt }
    if a % 64 ≠ 0 ∨ b % 64 ≠ 0 then .error (0x0A, c)
    else
      match xlateNow m w c.b (64 * c.total) accRead with
      | .remote .. => .ok (m, c)
      | .fault x _ => .error (x.toNat, c)
      | _ => .error (0x09, c)
  | 3 =>
    let c := { c with total := optNblk 3 opt }
    if a % 64 ≠ 0 ∨ b % 64 ≠ 0 then .error (0x0A, c)
    else
      match remoteStart m w c c.a 64 with
      | some x => .error (x, c)
      | none => .ok (m, c)
  | 4 =>
    let c := { c with total := optNblk 4 opt }
    if b % 64 ≠ 0 ∨ (!(optIsGroup c) ∧ a % 64 ≠ 0) then .error (0x0A, c)
    else if optIsGroup c then
      match groupFor m core c.area (a % 1024) with
      | .error x => .error (x, c)
      | .ok g =>
        if entRefused m c.area g then .error (0x1A, c)
        else if optCmp opt ∧ 3 ≤ entOP g then .error (0x18, c)
        else .ok (m, c)
    else if optCmp opt ∧ 3 ≤ optOp opt then .error (0x18, c)
    else
      match remoteStart m w c c.a 64 with
      | some x => .error (x, c)
      | none => .ok (m, c)
  | _ =>
    let c := { c with total := optNblk 5 opt }
    if b % 64 ≠ 0 then .error (0x0A, c)
    else
      if (List.range (mcastCount c)).any (mcastRefused m c) then .error (0x09, c) else .ok (m, c)

/-- Does a read of a pool wait behind what has reached its port before (spec/11 R187)? -/
def portBusy (m : Mach) (w : Who) (va : Word) : Bool :=
  match xlateNow m w va 1 accRead with
  | .ok pa _ _ => (match targetOf m pa with | .pool q => !(getCore m q).port.isEmpty | _ => false)
  | _ => false

/-- ENGINE_COMMAND_START (R203): copies and gathers one at a time in issue order, the collective ones as they
come. -/
def execEngineCommandStart (core e num : Nat) (s : State) : Out :=
  whenRunning s (fun m =>
    match cmdOf m core e num with
    | none => m
    | some c =>
      if c.started ∨ c.ended ∨ (c.stop ∧ !(optIsGroup c)) ∨ (e < 3 ∧ smGet 0 (getCore m core).etl e + 1 ≠ num)
          ∨ (c.kind ≤ 1 ∧ (c.cw.toList ++ [c.b]).any (portBusy m (engWho m core c))) then m
      else
        match startWork m core e c with
        | .ok (m, c) => modCmd m core e num (fun _ => { c with started := true })
        | .error (x, c) => modCmd m core e num (fun _ => { c with started := true, bad := some (statusOf x, x) }))

/-! ### Converted values of reductions (R225, R228, R232) -/

/-- The elements of a source block of a reduction as FP32 or INT32 codes, or the cause that ends the command. -/
def redElems (op : Nat) (b : Block) : Except Nat (List W32) :=
  match blkFault b with
  | some c => .error c.toNat
  | none =>
    match blkFmt (blkFMT b) with
    | none => .error 0x18
    | some f =>
      if op ≤ 2 then
        if blkFMT b = 0x50 ∨ blkFMT b = 0x41 then
          .ok ((List.range f.n).map (fun i => BitVec.ofNat 32 (fpConv fp32 false (elemVal b f i))))
        else .error 0x18
      else if blkFMT b = 0x51 ∧ blkSCL b = 0x78 then .ok ((List.range f.n).map (fun i => BitVec.ofNat 32 (blkElem b f i)))
      else .error 0x18

/-- All elements of a list of blocks, up to the first block that ends the command; the source bytes of each 15. -/
def redAll (op : Nat) : List Block → List W32 × List Nat × Option Nat
  | [] => ([], [], none)
  | b :: bs =>
    match redElems op b with
    | .error c => ([], [], some c)
    | .ok xs =>
      match redAll op bs with
      | (ys, ns, r) => (xs ++ ys, List.replicate (xs.length / 15) (64 / (xs.length / 15)) ++ ns, r)

/-- The E4M3 wire format of a compressed contribution (R232). -/
def wireFmto : Fmto := { fmt := 0x31, smode := 1, sat := true, scl := 0x78, aux := 0 }

/-- One group of 60 values compressed: what the receiver widens, and the residuals (R232). -/
def cmpGroup (xs : List Val) : List Val × List Val :=
  match blkFmt 0x31 with
  | none => (xs, xs)
  | some f =>
    let b := (writeBlock wireFmto xs).1
    let deq := (List.range 60).map (fun i => elemVal b f i)
    (deq, List.zipWith (fun x d => valAdd x (valNegate d)) xs deq)

/-- The groups of 60 values that source blocks make, four FP32 or two BF16 blocks each, and whether blocks are left over
(R232; that left-over blocks end the command is DEDUCED, log 76). -/
def cmpParse : Nat → List Block → List (List Block) × Bool
  | 0, bs => ([], !bs.isEmpty)
  | _, [] => ([], false)
  | n + 1, b :: bs =>
    let k := if blkFMT b = 0x50 then 4 else 2
    let g := (b :: bs).take k
    if g.length < k ∨ g.any (fun x => blkFMT x != blkFMT b) then ([], true)
    else match cmpParse n ((b :: bs).drop k) with | (gs, r) => (g :: gs, r)

/-- The compressed form of a group of blocks: elements on the wire, and the residual blocks (R232). -/
def cmpBlocks (bs : List Block) : List W32 × List Block :=
  let fmt := blkFMT (bs.headD 0)
  match blkFmt fmt with
  | none => ([], bs)
  | some f =>
    let g := cmpGroup ((bs.map (fun b => (List.range f.n).map (elemVal b f))).flatten)
    let ff := if fmt = 0x50 then fp32 else bf16
    (g.1.map (fun v => BitVec.ofNat 32 (fpConv fp32 false v)),
      (chunks bs.length f.n g.2).map (fun r => mkBlock fmt 0x78 0 f.w (r.map (fpConv ff false))))

/-- The cause that the first source block of a compressed contribution raises: unreadable, or of a format other than FP32
and BF16 (R232). -/
def cmpBad (bs : List Block) : Option Nat :=
  bs.findSome? (fun b =>
    match blkFault b with
    | some c => some c.toNat
    | none => if blkFMT b = 0x50 ∨ blkFMT b = 0x41 then none else some 0x18)

/-! ### Writing and sending -/

/-- Hand the four parts of a block write of a command to the issue queue of the engine context, for a pool, or to its
pending pool (spec/11 R190). -/
def putBlock (m : Mach) (core e : Nat) (c : Cmd) (blk pa : Nat) (mir : Bool) (va : Word) (b : Block) : Mach :=
  let acts := (blockActs .st pa b va mir 0).map (fun a => { a with
    tag := c.tag, cmd := c.num, blk := blk, area := c.area, finfo := c.finfo
    mirw := if mir then c.mirw else none, mbase := if mir then c.mbase else 0 })
  let m := modCmd m core e c.num (fun c => { c with parts := smPut 0 c.parts blk 4 })
  match targetOf m pa with
  | .pool _ => modAgent m (engAgent core e) (fun x => { x with iq := x.iq ++ acts })
  | _ => modAgent m (engAgent core e) (fun x => { x with pend := x.pend ++ acts })

/-- Write a block at an address value: a frozen page holds it (R160), a refusal ends the command. -/
def engWrite (m : Mach) (core e : Nat) (c : Cmd) (blk : Nat) (va : Word) (b : Block) : Option Mach :=
  match xlateNow m (engWho m core c) va 64 accWrite with
  | .moving => none
  | .ok pa mir _ => some (putBlock m core e c blk pa mir va b)
  | .fault x _ => some (cmdFail m core e c.num x.toNat)
  | _ => some (cmdFail m core e c.num 0x09)

/-- Is a source block checked under R126 (R208)? -/
def checksBlock (m : Mach) (core : Nat) (c : Cmd) (va : Word) : Bool :=
  optVer c.kind c.opt.toNat ||
    (match xlateNow m (engWho m core c) va 64 accRead with | .ok _ _ tensor => tensor | _ => false)

/-- The blocks that a command's buffer holds. -/
def bufBlocks (c : Cmd) (n : Nat) : List Block :=
  (List.range n).map (fun b => blockOf ((List.range 4).map (fun k => smGet 0 c.buf (4 * b + k))))

def blockBytes (b : Block) : List Byte := (List.range 64).map (fun i => BitVec.ofNat 8 (blkByte b i))

/-- Send a request under the next number of the core, and keep it until it is answered; one that takes a slot names the
destination of RQSLOT (R221, spec/21 R325). -/
def sendReq (m : Mach) (core e num : Nat) (q : Req) (msg : RemoteReq → Msg) : Mach :=
  let k := getCore m core
  let id := k.reqSeq + 1
  let r := { q.r with src := m.number, srcCore := core, id := id }
  let m := setCore m core { k with
    reqSeq := id
    rqDest := if q.slot then q.pkg else k.rqDest
    rqUsed := if q.slot then smPut 0 k.rqUsed q.pkg (smGet 0 k.rqUsed q.pkg + 1) else k.rqUsed }
  let m := modCmd m core e num (fun c => { c with reqs := c.reqs ++ [{ q with r := r, sentAt := m.cycle }] })
  { m with out := m.out ++ [msg r] }

/-- The fields of a request of a command for a window's target. -/
def reqOf (c : Cmd) (pa len kind tpart : Nat) (data : List Byte) : RemoteReq :=
  { src := 0, srcCore := 0, id := 0, pa := pa, len := len, data := data, rbarf := optRbarf c.kind c.opt.toNat,
    hnd := optHnd c.kind c.opt.toNat, hidx := optHidx c.kind c.opt.toNat, tpart := tpart, kind := kind, mirror := false }

/-- The l.rld request goes out when its destination package has a free slot (R220, R223). -/
def sendRld (m : Mach) (core e : Nat) (c : Cmd) : Mach :=
  match xlateNow m (engWho m core c) c.b (64 * c.total) accRead with
  | .remote pkg pa kind tpart =>
    if slotsFree m core pkg = 0 then m
    else
      sendReq m core e c.num
        { r := reqOf c pa (64 * c.total) kind tpart [], va := c.b, pkg := pkg, off := 0, sentAt := 0, slot := true }
        (fun r => .load pkg r)
  | .fault x _ => cmdFail m core e c.num x.toNat
  | _ => cmdFail m core e c.num 0x09

/-- The next block of an l.rld's response is written at the destination, the own pool or this package's HBM, as raw bytes;
a frozen page holds it (R160, R223). -/
def placeBlock (m : Mach) (core e : Nat) (c : Cmd) : Mach :=
  let va := c.a + BitVec.ofNat 64 (64 * c.next)
  match xlateNow m (engWho m core c) va 64 accWrite with
  | .moving => m
  | .ok pa mir _ =>
    if targetOf m pa = .hbm ∨ targetOf m pa = .pool core then
      modCmd (putBlock m core e c c.next pa mir va
          (BitVec.ofNat 512 (natOfBytes ((((c.fetched).getD []).drop (64 * c.next)).take 64))))
        core e c.num (fun c => { c with next := c.next + 1 })
    else cmdFail m core e c.num 0x09
  | .fault x _ => cmdFail m core e c.num x.toNat
  | _ => cmdFail m core e c.num 0x09

/-- The next request of a direct reduction: at most four target blocks of the elements read (R225). -/
def sendDirect (m : Mach) (core e : Nat) (c : Cmd) : Mach :=
  let n := min 4 (c.later.length / 15)
  let va := c.a + BitVec.ofNat 64 (64 * (c.laterAt / 15))
  let k := if isRemote (xlateNow m (engWho m core c) va (64 * n) (remoteAcc c)) then n else 1
  match xlateNow m (engWho m core c) va (64 * k) (remoteAcc c) with
  | .remote pkg pa kind tpart =>
    let op := optOp c.opt.toNat
    let xs := c.later.take (15 * k)
    let m := modCmd m core e c.num (fun c => { c with
      later := c.later.drop (15 * k), laterAt := c.laterAt + 15 * k, laterBytes := c.laterBytes.drop k })
    sendReq m core e c.num
      { r := reqOf c pa (64 * k) kind tpart [], op := some op, vals := xs, va := va, pkg := pkg, off := 64 * (c.laterAt / 15),
        blkBytes := c.laterBytes.take k, sentAt := 0 }
      (fun r => .direct pkg r op xs)
  | .fault x _ => cmdFail m core e c.num x.toNat
  | _ => cmdFail m core e c.num 0x09

/-- Write the next residual block of a compressed reduction (R232); a frozen page holds it (R160), and with the first that is
refused the command ends: nothing later is written or sent (R207). -/
def writeResidual (m : Mach) (core e : Nat) (c : Cmd) : Mach :=
  match c.resid with
  | (b :: bs) :: gs =>
    match engWrite m core e c c.residAt (c.b + BitVec.ofNat 64 (64 * c.residAt)) b with
    | some m => modCmd m core e c.num (fun c => { c with resid := if bs.isEmpty then gs else bs :: gs, residAt := c.residAt + 1 })
    | none => m
  | _ => m

/-- The package to which a contribution of a core goes: that of rank 0, or in an ordered tree that of the even rank of its
pair (R228). -/
def contribTo (m : Mach) (core part : Nat) (ent : BitVec 512) : Option Nat :=
  let ranks := groupRanks m part ent
  match entORD ent, ranks.idxOf? (m.number, core) with
  | true, some r => ranks[r - r % 2]?.map (·.1)
  | _, _ => ranks.head?.map (·.1)

/-- The format of a contribution's blocks, or the mark 0xFF of blocks of several, for which its round refuses it (DEDUCED,
log 76). -/
def blocksFmt (bs : List Block) : Nat := if bs.all (fun b => blkFMT b == blkFMT (bs.headD 0)) then blkFMT (bs.headD 0) else 0xFF

/-- The entry that a contribution of a command goes by, or the cause that ends the command (R227, R228). -/
def groupGoverns (m : Mach) (core : Nat) (c : Cmd) : Except Nat (BitVec 512) :=
  match groupFor m core c.area (c.a.toNat % 1024) with
  | .error x => .error x
  | .ok ent => if entRefused m c.area ent then .error 0x1A else .ok ent

/-- A contribution to a reduction group goes out (R228), of the elements read. -/
def contribute (m : Mach) (core e : Nat) (c : Cmd) : Mach :=
  match groupGoverns m core c with
  | .error x => cmdFail m core e c.num x
  | .ok ent =>
    match contribTo m core c.area ent with
    | none => cmdFail m core e c.num 0x1A
    | some pkg =>
      let cmp := optCmp c.opt.toNat
      let wire := if cmp then 64 * (c.later.length / 60) else 64 * c.total
      let x : Contribution := { part := c.area, group := c.a.toNat % 1024, src := 0, srcCore := core, id := 0, fmt := c.cfmt,
                                nblk := c.total, cmp := cmp, vals := c.later }
      sendReq (modCmd m core e c.num (fun c => { c with later := [], laterBytes := [] })) core e c.num
        { r := reqOf c 0 wire 0 c.area [], va := 0, pkg := pkg, off := 0, sentAt := 0 }
        (fun r => .contrib pkg { x with src := r.src, srcCore := r.srcCore, id := r.id })

/-- Send what a reduction has read: the next request, or the contribution. -/
def sendLater (m : Mach) (core e : Nat) (c : Cmd) : Mach :=
  if optIsGroup c then contribute m core e c else sendDirect m core e c

/-- The blocks before the first one of a unit that was refused (R207). -/
def cutAt (c : Cmd) (n : Nat) : Nat := match c.cut with | some (j, _) => min j n | none => n

/-- Blocks have been read and used: the command goes on behind them, or ends for what stopped it. -/
def usedBlocks (m : Mach) (core e : Nat) (c : Cmd) (n : Nat) (f : Cmd → Cmd) : Mach :=
  modCmd m core e c.num (fun x => f { x with next := x.next + n, buf := [], cut := none, laterBad := c.cut.map (·.2) })

/-- A reduction has read its blocks: widen them, or compress them (R225, R228, R232). The elements are sent, and residuals
written, in the steps that follow. A contribution to a group whose blocks are not all readable is none. A compressed direct
reduction keeps the groups before a block that fails its check (R207); the blocks of another format alone end it before any
packet is formed (R232). -/
def useRred (m : Mach) (core e : Nat) (c : Cmd) (bs : List Block) : Mach :=
  let opt := c.opt.toNat
  let group := optIsGroup c
  match (if group then groupGoverns m core c else .ok 0) with
  | .error x => cmdFail m core e c.num x
  | .ok ent =>
    let cut := if group then c.cut.map (·.2) else none
    if optCmp opt then
      let ck := if group then none else bs.findIdx? (fun b => blkFault b == some 0x19)
      let bs := match ck with | some j => bs.take j | none => bs
      match cmpBad bs, cmpParse bs.length bs with
      | some x, _ => cmdFail m core e c.num x
      | none, (gs, left) =>
        if c.cut.isNone ∧ ck.isNone ∧ left = true then cmdFail m core e c.num 0x18
        else if cut.isSome then cmdFail m core e c.num (cut.getD 0)
        else
          let xs := gs.map cmpBlocks
          usedBlocks m core e c bs.length (fun y => { y with
            later := (xs.map (·.1)).flatten, laterBytes := (gs.map (fun g => List.replicate 4 (16 * g.length))).flatten
            resid := xs.map (·.2), cfmt := blocksFmt bs, laterBad := if ck.isSome then some 0x19 else y.laterBad })
    else
      match redAll (if group then entOP ent else optOp opt) bs with
      | (vals, ns, bad) =>
        if group ∧ (bad.isSome ∨ cut.isSome) then cmdFail m core e c.num ((bad.orElse (fun _ => cut)).getD 0)
        else
          usedBlocks m core e c bs.length (fun y => { y with
            later := vals, laterBytes := ns, laterBad := if bad.isSome then bad else y.laterBad, cfmt := blocksFmt bs })

/-- The blocks that a command has read are written, or sent: those before the first one refused (R207). -/
def useBlocks (m : Mach) (core e : Nat) (c : Cmd) (vas : List Word) : Mach :=
  let n := cutAt c vas.length
  let bs := bufBlocks c n
  let next (m : Mach) : Mach := usedBlocks m core e c n id
  let data := (bs.map blockBytes).flatten
  match c.kind with
  | 3 =>
    let va := c.a + BitVec.ofNat 64 (64 * c.next)
    match xlateNow m (engWho m core c) va (64 * n) (remoteAcc c) with
    | .remote pkg pa kind tpart =>
      sendReq (next m) core e c.num
        { r := reqOf c pa (64 * n) kind tpart data, va := va, pkg := pkg, off := 64 * c.next,
          blkBytes := List.replicate n 64, sentAt := 0 }
        (fun r => .store pkg r)
    | .fault x _ => cmdFail m core e c.num x.toNat
    | _ => cmdFail m core e c.num 0x09
  | 4 => useRred m core e c bs
  | 5 =>
    (List.range (mcastCount c)).foldl (fun m i =>
      let va := mcastVa c i + BitVec.ofNat 64 (64 * c.next)
      match xlateNow m (engWho m core c) va (64 * n) (remoteAcc c) with
      | .remote pkg pa kind tpart =>
        sendReq m core e c.num
          { r := reqOf c pa (64 * n) kind tpart data, va := va, pkg := pkg, off := 64 * c.next,
            blkBytes := List.replicate n 64, sentAt := 0, replica := true }
          (fun r => .replica pkg r)
      | .fault x _ => cmdFail m core e c.num x.toNat
      | _ => cmdFail m core e c.num 0x09) (next m)
  | _ =>
    let src := vas.headD 0
    let b := bs.headD 0
    match (if checksBlock m core c src then blkFault b else none) with
    | some x => cmdFail m core e c.num x.toNat
    | none =>
      let i := if c.kind = 0 then copyIndex c else c.next
      match engWrite m core e c c.next (c.a + BitVec.ofNat 64 (64 * i)) b with
      | some m => next m
      | none => m

/-- Are new blocks and requests of a core held by the debugger (spec/17 R257)? A block that has begun goes on. -/
def engFrozen (k : Core) : Bool := k.freeze && k.ctxs.any (fun e => e.2.hold.isSome)

/-- Have the parts of a command's block writes that can be refused been applied? -/
def partsLanded (m : Mach) (core e : Nat) (c : Cmd) : Bool :=
  let ag := engAgent core e
  !(((getAgent m ag).iq ++ portActs m ag).any (fun a => a.cmd == c.num))

/-- Has the response of an l.rld come, of which blocks are still to be written? -/
def placing (c : Cmd) : Bool :=
  c.kind == 2 && c.bad.isNone && !c.cancel
    && (match c.fetched with | some data => decide (64 * c.next < data.length) || c.laterBad.isSome | none => false)

/-- Is a block, or the blocks of a request, being read? -/
def blockBegun (c : Cmd) : Bool := !c.buf.isEmpty

/-- May a command go on? No later block is read, and no later request sent, before every earlier one is known to be
written (R207). The response of an l.rld is written though the weir waits (Table 12-1). -/
def cmdGoes (m : Mach) (core e : Nat) (c : Cmd) : Bool :=
  c.started && !c.ended && !c.cwSent && c.bad.isNone && (!c.stop || optIsGroup c || placing c)
    && (blockBegun c || !(engFrozen (getCore m core)))
    && (3 ≤ e || smGet 0 (getCore m core).etl e + 1 == c.num)
    && partsLanded m core e c && c.reqs.all (fun q => q.answered)

/-- Granules of its unit that a command reads: those of the blocks before the first one refused (R207). -/
def readGrans (c : Cmd) (n : Nat) : Nat := 4 * cutAt c n

/-- A block of a unit is refused: a command whose unit begins with it ends, another first uses the blocks before it (R207). -/
def cutBlock (m : Mach) (core e num j cause : Nat) : Mach :=
  if j = 0 then cmdFail m core e num cause
  else modCmd m core e num (fun c => { c with cut := some (j, cause) })

/-- ENGINE_BLOCK_APPLY (R207): the command's next step: reading a list entry, one granule of a block (`pos`: its
number, then the history position it is read at outside the pools, R190), or writing or sending what was read. -/
def execEngineBlockApply (core e num : Nat) (pos : List Nat) (s : State) : Out :=
  whenRunning s (fun m =>
    match cmdOf m core e num with
    | none => m
    | some c =>
      if !(cmdGoes m core e c) then m
      else
        match nextWork m core c with
        | .done => m
        | .over => m
        | .send => sendRld m core e c
        | .place => placeBlock m core e c
        | .resid => writeResidual m core e c
        | .flush => sendLater m core e c
        | .fail x => cmdFail m core e num x
        | .entry va n =>
          if portBusy m (engWho m core c) va then m
          else
            match engRead m core e (engWho m core c) va n (m.fresh * 65536) with
            | .ok (m, x) => modCmd m core e num (fun c => { c with list := c.list ++ [x] })
            | .error x => cmdFail m core e num x
        | .read vas =>
          if (List.range (readGrans c vas.length)).all (fun k => c.buf.any (fun x => x.1 == k)) then useBlocks m core e c vas
          else
            let k := pos.headD 0
            let p := (pos.drop 1).headD 0
            let va := vas.getD (k / 4) 0
            if readGrans c vas.length ≤ k ∨ c.buf.any (fun x => x.1 == k) ∨ portBusy m (engWho m core c) va then m
            else
              match engGran m core e (engWho m core c) va (k % 4) p with
              | .none => m
              | .ok m g => modCmd m core e num (fun c => { c with buf := smIns c.buf k g })
              | .bad x => cutBlock m core e num (k / 4) x)

/-! ### Ending (R206, R207, R209, R212, R153) -/

/-- Has everything that a command began been answered or applied? -/
def cmdIdle (m : Mach) (core e : Nat) (c : Cmd) : Bool :=
  partsLanded m core e c && !((getAgent m (engAgent core e)).pend.any (fun a => a.cmd == c.num))
    && c.reqs.all (fun q => q.answered) && !(placing c)

/-- STATUS and CAUSE of a command that can end, or none while it goes on. -/
def cmdResult (m : Mach) (core e : Nat) (c : Cmd) : Option (Nat × Nat) :=
  if c.ended ∨ !(cmdIdle m core e c) then none
  else
    match c.bad with
    | some x => some x
    | none =>
      if optIsGroup c then (if c.closed then some (c.gstat, c.gcause) else none)
      else
        match (if c.started then nextWork m core c else .read []) with
        | .done => some (0, 0)
        | .over => some (8, 0)
        | _ => if c.cancel then some (9, 0) else none

/-- DONE of a completion word (R206, spec/14 R222). -/
def cmdDone (c : Cmd) : Nat :=
  match c.kind with
  | 0 => c.wrote
  | 1 => c.wrote
  | 2 => 64 * c.wrote
  | _ => c.doneBytes

/-- Numbers of an engine context that are issued and not complete; a command that stays with a pre-empted unit counts as
complete (spec/17 R251). -/
def openNums (m : Mach) (core e : Nat) : List Nat :=
  ((smGet [] (getCore m core).cmds e).filter (fun c => !c.ended)).map (·.num)
    ++ ((m.agents.filter (fun g => (agentIsCtx g.1 || agentIsOrphan g.1 && (orphanRecord m g.1).isNone) && agentCore g.1 == core)).map
        (fun g => g.2.iq.filterMap (fun a =>
          match a.kind with | .cmd e' _ _ _ _ _ => if e' = e then some a.cmd else none | _ => none))).flatten

/-- Advance ETL to the largest number up to which all commands are complete (R204), and forget them. -/
def advance (m : Mach) (core e : Nat) : Mach :=
  let k := getCore m core
  let n := match openNums m core e with
    | [] => smGet 0 k.eiss e
    | x :: xs => xs.foldl min x - 1
  let n := max n (smGet 0 k.etl e)
  setCore m core { k with
    etl := smPut 0 k.etl e n
    cmds := smPut [] k.cmds e ((smGet [] k.cmds e).filter (fun c => !c.ended)) }

/-- Remove the FREEING allocations that no command names any longer (R153), and those of units away from their contexts
whose commands are all complete (spec/02 R39). -/
def sweepAllocs (m : Mach) (core : Nat) : Mach :=
  let named (a : Alloc) : Bool := a.freeing && namedByCmd m core a.base (allocSpan a.nblk)
  let left (a : Alloc) : Bool := 16 ≤ a.ctx && a.pinned.isNone && !(orphanCmds m core a.ctx) && !(restOpen m core a.ctx)
  modCore m core (fun k => { k with alloc := k.alloc.filter (fun a => named a.2 || !(a.2.freeing || left a.2)) })

/-- The write of a completion word: held by a frozen page; done, or dropped and raised at its context when it is refused
(R206); or handed to the port of a pool (spec/11 R187). -/
inductive CwRes where
  | held
  | done (m : Mach)
  | sent (m : Mach)

def writeCw (m : Mach) (core e : Nat) (c : Cmd) (x : Nat) : CwRes :=
  match c.cw with
  | none => .done m
  | some va =>
    let drop (cause : Byte) (f : Word) : CwRes := .done (raiseLater m core c.ctx c.area cause va f)
    match xlateNow m (engWho m core c) va 8 accWrite with
    | .moving => .held
    | .ok pa _ _ =>
      let g := pa / 16 * 16
      let a : Act := { tag := c.tag, kind := .st, gran := g, mask := byteMask (pa % 16) 8, data := BitVec.ofNat 128 (x * 256 ^ (pa % 16)),
                       va := va, cmd := c.num, area := c.area, finfo := c.finfo, part := c.ctx, aux := 1 }
      match targetOf m pa with
      | .pool _ => .sent (modAgent m (engAgent core e) (fun y => { y with iq := y.iq ++ [a] }))
      | _ =>
        if granBad m g then drop 0x19 c.finfo
        else .done (engWrote (commitKeyed m (engAgent core e) (pageKey m c.area va) g a.mask a.data) core e a)
    | .fault cause f => drop cause f
    | .absent _ => drop causePerm (finfoT 7 3)
    | _ => drop causePerm (finfoT 7 2)

/-- The blocks that a short command has not written go off its own core's barrier (R212). -/
def shortBarrier (m : Mach) (core e : Nat) (c : Cmd) : Mach :=
  let bf := optBarf c.kind c.opt.toNat
  let left := cmdBlocks m core e c - c.wrote
  if bf ≠ 0 ∧ left ≠ 0 then modCore m core (fun k => barAdd k m.cycle (bf - 1) (-(64 * left : Nat))) else m

/-- A command is complete: ETL advances (R204), and its barrier is told of the blocks it leaves unwritten (R212). -/
def endCmd (m : Mach) (core e num : Nat) : Mach :=
  let m := match cmdOf m core e num with
    | some c => if c.short then shortBarrier m core e c else m
    | none => m
  let m := modCmd m core e num (fun c => { c with ended := true })
  countOwed (wakeCore (sweepAllocs (advance m core e) core) core)

/-- ENGINE_COMMAND_END (R206): the completion word is written, and once it is applied the command is complete. A gather is
only now known to have written its last block, where its list has changed meanwhile (R209). -/
def execEngineCommandEnd (core e num : Nat) (s : State) : Out :=
  whenRunning s (fun m =>
    match cmdOf m core e num with
    | none => m
    | some c =>
      if c.cwSent then (if partsLanded m core e c && !c.ended then endCmd m core e num else m)
      else
        match cmdResult m core e c with
        | none => m
        | some (st, cause) =>
          let whole := st = 0 ∨ st = 8
          let m1 := if whole then renewOnFill m core e c else modCmd m core e num (fun c => { c with short := true })
          match writeCw m1 core e c (cmdDone c % 2 ^ 48 + cause * 2 ^ 48 + st * 2 ^ 56) with
          | .held => m
          | .sent m => modCmd m core e num (fun c => { c with cwSent := true })
          | .done m => endCmd m core e num)

/-- A remainder that was cancelled ends with status CANCELLED, as any command does (R206, R212): it goes on waiting while its
completion word is held by a frozen page or stands at a port. -/
def endRest (m : Mach) (x : Nat × Nat × Cmd) : Mach :=
  let c := x.2.2
  let keep (m : Mach) (c : Cmd) : Mach := { m with restDue := m.restDue ++ [(x.1, x.2.1, c)] }
  if c.cwSent then (if partsLanded m x.1 x.2.1 c then shortBarrier m x.1 x.2.1 c else keep m c)
  else
    match writeCw m x.1 x.2.1 c (cmdDone c % 2 ^ 48 + 9 * 2 ^ 56) with
    | .held => keep m c
    | .sent m => keep m { c with cwSent := true }
    | .done m => shortBarrier m x.1 x.2.1 c

/-- End the remainders that can end, and free what they held. -/
def endRests (m : Mach) : Mach :=
  ((m.restDue.map (·.1)).eraseDups).foldl sweepAllocs (m.restDue.foldl endRest { m with restDue := [] })

end Sys2Proof.Machine
end

