-- ==== Sys2Proof/Machine/Fabric.lean ====
section
/-!
DEFINITION. What reaches the package over the fabric, and the combine units, mirrors and gangs
(spec/14_bilvel_fabric.md R218 to R235, spec/13_program_merge.md R238, spec/11_ordering_machine.md R200, R201).
-/

namespace Sys2Proof.Machine

/-! ### Links (R218) -/

def getLink (m : Mach) (p : Nat) : Link := smGet {} m.links p
def setLink (m : Mach) (p : Nat) (x : Link) : Mach := { m with links := smPut {} m.links p x }

/-- A replay on a link: noted for the count of spec/19 Table 19-7; the sixteenth in a row that fails takes the link down. -/
def noteReplay (m : Mach) (port : Nat) (l : Link) (fails : Nat) : Mach :=
  let ts := m.nowt :: l.replays.filter (fun t => m.nowt < t + 56250000000)
  let m := setLink m port { l with replays := ts, retireDue := l.retireDue || 10000 ≤ ts.length, down := l.down || 16 ≤ fails }
  if 16 ≤ fails then pf0Event { m with portsDown := smPut false m.portsDown port true } 6 0 0 else m

/-- Does a port take no part in traffic: there is none, its link is down, or it has been retired (spec/19 R276)? -/
def linkOff (m : Mach) (port : Nat) : Bool := 64 ≤ port || (getLink m port).down || smGet false m.portsDown port

/-- Ask for a flit again. -/
def askAgain (m : Mach) (port seq : Nat) (l : Link) (fails : Nat) : Mach :=
  let l := { l with asked := if l.asked.contains seq then l.asked else l.asked ++ [seq], rxFails := fails }
  let m := noteReplay m port l fails
  { m with out := m.out ++ [.askReplay port seq] }

/-- The flit that is due has come. With it the far end acknowledges flits of this one's replay buffer: how many the spec
leaves open (a free value, log 91). -/
def flitCame (l : Link) (n : Nat) : Link :=
  let freed := l.buffer.take n
  { l with
    rxSeq := l.rxSeq + 1
    asked := l.asked.filter (fun x => l.rxSeq < x)
    rxFails := if l.asked.contains l.rxSeq then 0 else l.rxFails
    buffer := l.buffer.drop n
    resent := l.resent.filter (fun x => !(freed.contains x))
    txFails := if freed.any l.resent.contains then 0 else l.txFails }

/-- FLIT_RECEIVE (R218): a flit in sequence is delivered once. One whose CRC fails is dropped and asked for again, and if it
was asked for before, the replay has failed. One behind a flit that is missing is dropped, and the missing one is asked for. -/
def execFlitReceive (port seq : Nat) (crcOk : Bool) (s : State) : Out :=
  whenRunning s (fun m =>
    let l := getLink m port
    if linkOff m port ∨ seq < l.rxSeq then m
    else if !crcOk then askAgain m port seq l (if l.asked.contains seq then l.rxFails + 1 else l.rxFails)
    else if seq = l.rxSeq then setLink m port (flitCame l (Config.freeIndex (m.fresh * 65536 + 61438)))
    else if l.asked.contains l.rxSeq then m
    else askAgain m port l.rxSeq l l.rxFails)

/-- REPLAY_REQUEST (R218): the sender sends the same flit again, and flits that it has sent behind it, how many the spec leaves
open (a free value, log 91); no command is formed twice. A request for a flit sent again before says that the replay has
failed. -/
def execReplayRequest (port seq : Nat) (s : State) : Out :=
  whenRunning s (fun m =>
    let l := getLink m port
    if linkOff m port then m
    else
      let again := (List.range (Config.freeIndex (m.fresh * 65536 + 61437) + 1)).map (seq + ·)
      let fails := if l.resent.contains seq then l.txFails + 1 else l.txFails
      let m := noteReplay m port
        { l with resent := (l.resent ++ again).eraseDups, buffer := (l.buffer ++ again).eraseDups, txFails := fails } fails
      { m with out := m.out ++ again.map (Msg.flit port) })

/-! ### Requests at their target (R200, R223, R224, R226) -/

/-- The agent whose writes and views a request's are: the sending engine context. -/
def remoteAgent (m : Mach) (r : RemoteReq) : Nat :=
  if r.src = m.number then engAgent r.srcCore 3 else 100000 + 65536 * r.src + r.srcCore

/-- Does a range meet a frame that a migration has frozen (R226)? -/
def frozenPa (m : Mach) (pa len : Nat) : Bool :=
  match m.migration with
  | some g => g.oldPa < pa + len && pa < g.oldPa + g.size
  | none => false

/-- A message that this package sent to itself is delivered by its event. -/
def dropMsg (m : Mach) (x : Msg) : Mach := { m with out := m.out.erase x }

def sendMsg (m : Mach) (x : Msg) : Mach := { m with out := m.out ++ [x] }

/-- A remote write refused at a frozen frame: its MOVED NACK is due when the migration is done (R226). -/
def nackMoved (m : Mach) (r : RemoteReq) : Mach :=
  { m with migration := m.migration.map (fun g => { g with nacks := g.nacks ++ [(r.src, r.srcCore, r.id)] }) }

/-- The pool port or memory controller that serves an address. -/
def destOf (m : Mach) (pa : Nat) : Nat :=
  match targetOf m pa with
  | .pool q => 16 + q
  | .hbm => dieOfPa pa
  | .none => 15

/-- What keeps messages in order (R200): source, virtual channel (R219), destination. -/
def msgKey (m : Mach) : Msg → Option (Nat × Nat × Nat)
  | .load _ r => some (remoteAgent m r, 0, destOf m r.pa)
  | .store _ r => some (remoteAgent m r, 0, destOf m r.pa)
  | .direct _ r _ _ => some (remoteAgent m r, 0, destOf m r.pa)
  | .replica _ r => some (r.src, 2, destOf m r.pa)
  | .contrib _ x => some (65536 * x.src + x.srcCore, 3, 1024 * x.part + x.group)
  | .result _ core _ r => some (r.root, 2, 2000 + core)
  | _ => none

/-- The package that a message goes to. -/
def msgDst : Msg → Nat
  | .load d _ => d
  | .store d _ => d
  | .direct d _ _ _ => d
  | .contrib d _ => d
  | .replica d _ => d
  | .result d _ _ _ => d
  | _ => 0

/-- May a message be taken now (R200)? Those of one source to one destination on one channel are taken in the order in
which they were sent, each when the one before it has been applied. One of this package's own is in `out`; those of others
come in the order of their events. -/
def mayLand (m : Mach) (x : Msg) (src : Nat) : Bool :=
  let key := msgKey m x
  !(m.landings.any (fun l => msgKey m l.msg == key))
    && (src != m.number || m.out.find? (fun y => msgDst y == m.number && msgKey m y == key) == some x)

/-- A message begins to be applied. -/
def startLanding (m : Mach) (x : Msg) (agent : Nat) : Mach × Landing :=
  let l : Landing := { id := m.fresh, msg := x, agent := agent }
  ({ dropMsg m x with landings := m.landings ++ [l] }, l)

def endLanding (m : Mach) (l : Landing) : Mach :=
  { m with landings := m.landings.filter (fun y => y.id != l.id), agents := smDel m.agents (landAgent l.id) }

/-- The cause for which a target refuses a request whatever its blocks find: its range does not lie in the populated range
that the KIND of its window names (spec/08 R156, spec/01 R9, R12). -/
def kindRefuses (r : RemoteReq) : Bool :=
  !((r.kind == 1 && r.pa + r.len ≤ 0x8000000000)
    || (r.kind == 2 && poolBase ≤ r.pa && r.pa + r.len ≤ poolBase + 0x200000000))

/-- The first address value of the pools' space (spec/08 Table 8-1): no page and no window. -/
def poolSpace : Nat := 15 * 2 ^ 60

/-- Parts of a landing's block: the granule parts of `n` bytes at an address. To the pools they go through the landing's
issue queue and the port; writes of HBM join its pending pool, reads its issue queue (spec/11 R190). `base` is the first
granule of the request; `mark` is not 0 for a write that is no payload; `va` is the address value that a combine unit's
write goes through in a partition, or one of the pools' space for a request, which names none. -/
def landParts (m : Mach) (l : Landing) (kind : ActKind) (base pa n data mark area : Nat) (va : Word) : Mach :=
  match targetOf m pa with
  | .none => modLanding m l.id (fun l => { l with cause := if l.cause = 0 then 0x09 else l.cause })
  | t =>
    let acts : List Act := (granParts pa n data (n + 1)).map (fun w =>
      { tag := 0, part := (w.1 - base) / 16, kind := kind, gran := w.1, mask := w.2.1, data := w.2.2, cmd := mark,
        area := area, va := va })
    let m := modLanding m l.id (fun l => { l with left := acts.length })
    if t = .hbm ∧ isStore kind then modAgent m (landAgent l.id) (fun x => { x with pend := x.pend ++ acts })
    else modAgent m (landAgent l.id) (fun x => { x with iq := x.iq ++ acts })

/-- Blocks of a request of `len` bytes. -/
def reqBlocks (len : Nat) : Nat := (len + 63) / 64

/-- Hand out block `i` of a request that reads, or writes its data. -/
def landBlockAt (m : Mach) (l : Landing) (r : RemoteReq) (kind : ActKind) (i : Nat) : Mach :=
  landParts (modLanding m l.id (fun l => { l with blk := i })) l kind (r.pa / 16 * 16) (r.pa + 64 * i) (min 64 (r.len - 64 * i))
    (natOfBytes ((r.data.drop (64 * i)).take 64)) 0 0 (BitVec.ofNat 64 poolSpace)

/-- A landing's next step: wait for the block under way, hand out the next one, or end with the blocks that have landed:
nothing after one that was refused (spec/12 R207). -/
def landNext (m : Mach) (l : Landing) (r : RemoteReq) (kind : ActKind) (finish : Mach → Landing → Nat → Mach) : Mach :=
  if l.left ≠ 0 then m
  else if l.cause = 0 ∧ l.blk + 1 < reqBlocks r.len then landBlockAt m l r kind (l.blk + 1)
  else finish (endLanding m l) l (if l.cause = 0 then reqBlocks r.len else l.blk)

/-- The bytes that a landing has read in its first `n` blocks. -/
def landBytes (l : Landing) (r : RemoteReq) (n : Nat) : List Byte :=
  let len := min r.len (64 * n)
  let gs := (List.range ((r.pa % 16 + len + 15) / 16)).map (fun i => smGet 0 l.bytes i)
  (((gs.map (fun g => (List.range 16).map (fun i => BitVec.ofNat 8 (g.toNat / 256 ^ i)))).flatten).drop (r.pa % 16)).take len

/-- The landing of a message. -/
def landingFor (m : Mach) (x : Msg) : Option Landing := m.landings.find? (fun l => l.msg == x)

/-- REMOTE_LOAD_REQUEST (R200, R220, R223): taken, its blocks bound one after the other, and answered on VC1 with the bytes
read before a refusal, and its cause. The event is that of one block: of any other than the next it is not. -/
def execRemoteLoadRequest (r : RemoteReq) (blk : Nat) (s : State) : Out :=
  whenRunning s (fun m =>
    let x := Msg.load m.number r
    match landingFor m x with
    | none =>
      if blk ≠ 0 ∨ !(mayLand m x r.src) then m
      else if kindRefuses r then sendMsg (dropMsg m x) (.loadResp r.src r.srcCore r.id 0x09 [])
      else match startLanding m x (remoteAgent m r) with | (m, l) => landBlockAt m l r .ld 0
    | some l =>
      if l.blk ≠ blk then m
      else landNext m l r .ld (fun m l n => sendMsg m (.loadResp r.src r.srcCore r.id l.cause (landBytes l r n))))

/-- A payload has landed with a handler flag (spec/02 R33 to R35, R224): its notice is appended, or discarded with
the queue trap. -/
def notifyHandler (m : Mach) (core part hidx src : Nat) (s1 : Word) (len : Nat) (payload : List (Nat × Nat)) : Mach :=
  let lost (m : Mach) : Mach :=
    let p := clusterOf core
    asyncTrap m p (((getPart m p).owner).getD 0) p 0x39 src
  match (getPart m part).handlers[hidx]? with
  | none => lost m
  | some (va, _) =>
    match pushNotice m core { haddr := va, paddr := s1, len := len, src := src, payload := payload, fwd := none } with
    | (m, true) => lost m
    | (m, false) => m

/-- The notice of a request that has landed whole with its handler flag; `src` is the source that it names (R34, R224). -/
def landNotice (m : Mach) (l : Landing) (r : RemoteReq) (src : Nat) : Mach :=
  match r.hnd && l.cause == 0, poolOf m r.pa with
  | true, some c => notifyHandler m c r.tpart r.hidx src (ownPoolVa c (poolOff r.pa)) r.len l.grans
  | _, _ => m

/-- A remote write: taken, or refused at a frozen frame with a MOVED NACK (R226); its blocks written one after the other;
at the end its notice and its acknowledgement, with the blocks written (R200, R207, R223). -/
def landWrite (m : Mach) (x : Msg) (agent : Nat) (r : RemoteReq) (src : Nat) : Mach :=
  let ack (m : Mach) (c n : Nat) : Mach := sendMsg m (.ack r.src r.srcCore r.id c n)
  match landingFor m x with
  | none =>
    if !(mayLand m x r.src) then m
    else if frozenPa m r.pa r.len then nackMoved (dropMsg m x) r
    else if kindRefuses r then ack (dropMsg m x) 0x09 0
    else match startLanding m x agent with | (m, l) => landBlockAt m l r .st 0
  | some l => landNext m l r .st (fun m l n => ack (landNotice m l r src) l.cause n)

/-- REMOTE_STORE_REQUEST (R223, R226). -/
def execRemoteStoreRequest (r : RemoteReq) (s : State) : Out :=
  whenRunning s (fun m => landWrite m (.store m.number r) (remoteAgent m r) r (r.src * 65536 + r.srcCore))

/-- MULTICAST_REPLICA (R223): a write of the combine unit, acknowledged to the source core. -/
def execMulticastReplica (r : RemoteReq) (s : State) : Out :=
  whenRunning s (fun m => landWrite m (.replica m.number r) combineAgent r (r.src * 65536 + 0xFFFF))

/-- One element of a reduction (R225): FP32 SUM, MAX, MIN, INT32 XOR, SUM. -/
def redOp (op : Nat) (x y : W32) : W32 :=
  let v (a : W32) : Val := fpDecode fp32 a.toNat
  match op with
  | 0 => BitVec.ofNat 32 (fpResult fp32 (valAdd (v x) (v y)))
  | 1 => BitVec.ofNat 32 (fpResult fp32 (laneMax (v x) (v y)))
  | 2 => BitVec.ofNat 32 (fpResult fp32 (laneMin (v x) (v y)))
  | 3 => x ^^^ y
  | _ => x + y

/-- The target block of a direct reduction after its elements, or the cause that leaves it unchanged (R225). -/
def directBlock (m : Mach) (g op : Nat) (xs : List W32) : Except Nat Block :=
  let gs := (List.range 4).map (fun i => g + 16 * i)
  let b := blockOf (gs.map (granNow m))
  let fmt := if op ≤ 2 then 0x50 else 0x51
  match targetOf m g with
  | .none => .error 0x09
  | t =>
    match (match t with | .pool q => allocCheck m q (poolOff g) 64 true | _ => if gs.any (granBad m) then some 0x19 else none) with
    | some c => .error c.toNat
    | none =>
      match blkFault b with
      | some c => .error c.toNat
      | none =>
        if blkFMT b ≠ fmt ∨ blkSCL b ≠ 0x78 then .error 0x18
        else
          .ok (mkBlock fmt 0x78 0 32 ((List.range 15).map (fun i =>
            (redOp op (BitVec.ofNat 32 (blkElem b ⟨15, 32, .int⟩ i)) (xs.getD i 0)).toNat)))

/-- The next target block of a direct reduction, as one indivisible action behind what has reached its port before; the
first that fails ends the request, with the blocks before it applied (R207, R225). -/
def directNext (m : Mach) (l : Landing) (r : RemoteReq) (op : Nat) (vals : List W32) : Mach :=
  let g := r.pa + 64 * l.blk
  let waits : Bool := match targetOf m g with | .pool q => !(getCore m q).port.isEmpty | _ => false
  let finish (m : Mach) (l : Landing) (n : Nat) : Mach :=
    sendMsg (landNotice (endLanding m l) l r (r.src * 65536 + r.srcCore)) (.ack r.src r.srcCore r.id l.cause n)
  if waits then m
  else
    match directBlock m g op ((vals.drop (15 * l.blk)).take 15) with
    | .error c => finish m { l with cause := c } l.blk
    | .ok b =>
      let m := commitBlock m l.agent none g b
      let m := noteRemote m r ((List.range 4).map (fun i => g + 16 * i))
      let l := { l with blk := l.blk + 1, grans := l.grans ++ granPositions m g 64 }
      if l.blk < reqBlocks r.len then modLanding m l.id (fun _ => l) else finish m l l.blk

/-- DIRECT_REDUCTION_REQUEST (R225, R226). -/
def execDirectReductionRequest (r : RemoteReq) (op : Nat) (vals : List W32) (s : State) : Out :=
  whenRunning s (fun m =>
    let x := Msg.direct m.number r op vals
    match landingFor m x with
    | none =>
      if !(mayLand m x r.src) then m
      else if frozenPa m r.pa r.len then nackMoved (dropMsg m x) r
      else if kindRefuses r then sendMsg (dropMsg m x) (.ack r.src r.srcCore r.id 0x09 0)
      else match startLanding m x (remoteAgent m r) with | (m, l) => directNext m l r op vals
    | some l => directNext m l r op vals)

/-! ### Answers (R219, R220, R226) -/

/-- A request is answered; a slot it held is counted free (R220). -/
def answerReq (m : Mach) (core num id cause wrote : Nat) : Mach :=
  let m := match reqOwner m core id with
    | some (_, q) =>
      if q.slot then modCore m core (fun k => { k with rqUsed := smPut 0 k.rqUsed q.pkg (smGet 0 k.rqUsed q.pkg - 1) }) else m
    | none => m
  wakeCore (modCmd m core 3 num (fun c => { c with reqs := c.reqs.map (fun q =>
    if q.r.id = id then { q with answered := true, cause := cause, wrote := wrote } else q) })) core

/-- LOAD_RESPONSE (R219, R220, R223): the response is taken from the fabric at once, into the space reserved for it; its
bytes are written at the destination block by block. A refusal names the first block that the target refused: those before
it have come (R207). A late answer is discarded. -/
def execLoadResponse (core id cause : Nat) (data : List Byte) (s : State) : Out :=
  whenRunning s (fun m =>
    let m0 := dropMsg m (.loadResp m.number core id cause data)
    match reqOwner m core id with
    | none => m0
    | some (c, _) =>
      modCmd (answerReq m0 core c.num id cause 0) core 3 c.num (fun c => { c with
        fetched := some data, next := 0, laterBad := if cause = 0 then none else some cause }))

/-- Source bytes that an acknowledgement counts (R222): those of the blocks written; of a multicast's payload, when all its
replicas are acknowledged, those of the blocks that every replica wrote: none where a window took no replica (R223). -/
def ackBytes (c : Cmd) (q : Req) (wrote : Nat) : Nat :=
  if q.replica then
    let others := c.reqs.filter (fun x => x.off == q.off && x.r.id != q.r.id)
    if others.all (·.answered) && others.length + 1 == mcastCount c then ((q.blkBytes.take (others.foldl (fun n x => min n x.wrote) wrote))).sum else 0
  else (q.blkBytes.take wrote).sum

/-- A mirror write is answered (R234): a refusal is raised at the context it counted for. -/
def answerMirror (m : Mach) (core id cause : Nat) : Mach :=
  match (getCore m core).mirrorsOut.find? (fun x => x.1 == id) with
  | none => m
  | some (_, i, a, _) =>
    let m := modCore m core (fun k => { k with mirrorsOut := k.mirrorsOut.filter (fun x => x.1 != id) })
    countOwed (if cause = 0 then m else raiseLater m core i a.area (BitVec.ofNat 8 cause) a.va a.finfo)

/-- ACKNOWLEDGEMENT (R219): of a remote write or a mirror, or the NACK of a contribution (R228, R230). -/
def execAcknowledgement (core id : Nat) (answer : Answer) (s : State) : Out :=
  whenRunning s (fun m =>
    let ⟨cause, wrote⟩ := answer
    let m0 := dropMsg m (.ack m.number core id cause wrote)
    match reqOwner m core id with
    | none => answerMirror m0 core id cause
    | some (c, q) =>
      let m1 := answerReq m0 core c.num id cause wrote
      if optIsGroup c then
        if cause = 0 then m1
        else modCmd m1 core 3 c.num (fun c => { c with closed := true, gstat := if cause = 0x1A then 2 else 5, gcause := cause })
      else
        let m2 := modCmd m1 core 3 c.num (fun x => { x with doneBytes := x.doneBytes + ackBytes c q wrote })
        if cause = 0 then m2 else cmdFail m2 core 3 c.num cause)

/-- MOVED_NACK (R226): the window is translated again and the request goes out once more; a second refusal ends the
command with NACK. -/
def execMovedNack (core id : Nat) (s : State) : Out :=
  whenRunning s (fun m =>
    let m0 := dropMsg m (.moved m.number core id)
    match reqOwner m core id with
    | none =>
      match (getCore m core).mirrorsOut.find? (fun x => x.1 == id) with
      | none => m0
      | some (_, i, a, again) =>
        let m1 := modCore m0 core (fun k => { k with mirrorsOut := k.mirrorsOut.filter (fun x => x.1 != id) })
        if again then countOwed (raiseLater m1 core i a.area causePerm a.va a.finfo)
        else modCore m1 core (fun k => { k with mirrors := (i, { a with aux := 1 }) :: k.mirrors })
    | some (c, q) =>
      let fail (x : Nat) : Mach := cmdFail (answerReq m0 core c.num id x 0) core 3 c.num x
      if q.again then fail 0x30
      else
        match xlateNow m (engWho m core c) q.va q.r.len (remoteAcc c) with
        | .remote pkg pa kind tpart =>
          let k := getCore m0 core
          let r := { q.r with id := k.reqSeq + 1, pa := pa, kind := kind, tpart := tpart }
          let m1 := setCore m0 core { k with reqSeq := k.reqSeq + 1 }
          let m2 := modCmd m1 core 3 c.num (fun c => { c with reqs := c.reqs.map (fun x =>
            if x.r.id = id then { x with r := r, pkg := pkg, again := true, sentAt := m.cycle } else x) })
          sendMsg m2 (match q.op with
            | some op => .direct pkg r op q.vals
            | none => if q.replica then .replica pkg r else .store pkg r)
        | .fault x _ => fail x.toNat
        | _ => fail 0x09)

/-- REQUEST_TIMEOUT (R220): 2,500,000 cycles without an answer. A contribution waits for its round instead. -/
def execRequestTimeout (core id : Nat) (s : State) : Out :=
  whenRunning s (fun m =>
    match reqOwner m core id with
    | none => m
    | some (c, q) =>
      if optIsGroup c ∨ m.cycle < q.sentAt + 2500000 then m
      else cmdFail (answerReq m core c.num id 0x31 0) core 3 c.num 0x31)

/-! ### Reduction groups (R227 to R230)

The combine unit of rank 0's package is the root. In an ordered tree the combine unit of every even rank's package combines
the ranks from its own on, as many as the largest power of two that divides its rank, and forwards what it has; the spec
does not say when one whose ranks are not all there does so: here after TMO ticks, as at the root (DESIGN CHOICE, log 71). -/

/-- How many ranks a site combines: all at the root, else the largest power of two that divides the rank. -/
def siteSpan (a : Nat) : Nat := if a = 0 then 64 else ((List.range 6).map (2 ^ ·)).foldl (fun s x => if a % x = 0 then x else s) 1

/-- The site to which a rank's contribution goes, or the term of a lower site. -/
def siteAbove (e : BitVec 512) (rank : Nat) (term : Bool) : Nat :=
  if !(entORD e) then 0 else if term then rank - siteSpan rank else rank - rank % 2

/-- The ranks that a round at a site waits for. -/
def siteRanks (k : Nat) (e : BitVec 512) : List Nat :=
  (List.range (entNC e)).filter (fun r => k / 65536 ≤ r && r < k / 65536 + siteSpan (k / 65536))

/-- The group's entry as a round that is not open reads it (R227). -/
def roundEntry (m : Mach) (k : Nat) : Except Nat (BitVec 512) :=
  if (getRound m k).isOpen then .ok (getRound m k).entry else groupRead m (k % 65536 / 1024) (k % 1024)

/-- Number of the round that is open or opens next. -/
def roundNumber (m : Mach) (k : Nat) : Nat := let r := getRound m k; if r.isOpen then r.round else r.round + 1

def bumpRank (m : Mach) (k rank : Nat) : Mach := { m with counts := smPut 0 m.counts (64 * k + rank) (rankCount m k rank + 1) }

/-- Writes to a group's table entry so far. -/
def entryWrites (m : Mach) (k : Nat) : Nat :=
  ((List.range 4).map (fun i => newestPos m (groupAddr m (k % 65536 / 1024) (k % 1024) + 16 * i))).sum

/-- The counts of the ranks start at 1 when the entry is installed (R228): an entry written anew since the last round. -/
def freshCounts (m : Mach) (k : Nat) : Mach :=
  let r := getRound m k
  if r.isOpen ∨ r.entPos = entryWrites m k then m
  else
    setRound { m with counts := m.counts.filter (fun e => e.1 / 64 != k)
                      exclNext := m.exclNext.filter (fun e => e.1 / 2 ^ 32 != k) } k { entPos := entryWrites m k }

/-- Combine in the order of arrival (ORD = 0). -/
def combineList (op : Nat) (xs : List (List W32)) : List W32 :=
  match xs with
  | [] => []
  | x :: rest => rest.foldl (fun a b => List.zipWith (redOp op) a b) x

/-- One level of the ordered tree: a term that is absent passes its partner on. -/
def treeLevel (op : Nat) : List (Option (List W32)) → List (Option (List W32))
  | x :: y :: rest =>
    (match x, y with
     | some a, some b => some (List.zipWith (redOp op) a b)
     | some a, none => some a
     | none, b => b) :: treeLevel op rest
  | xs => xs

def treeAll (op : Nat) : Nat → List (Option (List W32)) → List W32
  | 0, xs => (xs.headD none).getD []
  | n + 1, xs => treeAll op n (treeLevel op xs)

/-- The result blocks (R230). -/
def resultBlocks (e : BitVec 512) (vals : List W32) : List Block :=
  let per := if entOP e ≤ 2 ∧ entOUTF e then 30 else 15
  (chunks (ceilDiv vals.length per) per vals).map (fun xs =>
    if 3 ≤ entOP e then mkBlock 0x51 0x78 0 32 (xs.map (·.toNat))
    else if entOUTF e then mkBlock 0x41 0x78 0 16 (xs.map (fun x => fpConv bf16 false (fpDecode fp32 x.toNat)))
    else mkBlock 0x50 0x78 0 32 (xs.map (·.toNat)))

/-- The ranks that a contribution or a term holds. -/
def rankMask (rank : Nat) (x : Contribution) : BitVec 64 := if x.mask = 0 then BitVec.ofNat 64 (2 ^ rank) else x.mask

/-- The ranks that are combined in a round. -/
def roundMask (r : Round) : BitVec 64 :=
  r.got.foldl (fun a e => a ||| (match e.2 with | some x => rankMask e.1 x | none => 0)) 0

/-- What a round at a site has combined (R228). -/
def roundVals (k : Nat) (r : Round) : List W32 :=
  let a := k / 65536
  let valsOf (i : Nat) : Option (List W32) := (smGet none r.got i).map (·.vals)
  if entORD r.entry then treeAll (entOP r.entry) 6 ((List.range 64).map (fun i => if i < siteSpan a then valsOf (a + i) else none))
  else combineList (entOP r.entry) (r.order.filterMap valsOf)

/-- A combine unit below the root forwards its term (R228). -/
def forwardTerm (m : Mach) (k : Nat) : Mach :=
  let r := getRound m k
  let a := k / 65536
  let e := r.entry
  let x : Contribution :=
    { part := k % 65536 / 1024, group := k % 1024, src := m.number, srcCore := a, id := r.round, fmt := r.fmt, nblk := entNBLK e,
      cmp := r.cmp, vals := roundVals k r, mask := roundMask r
      parts := (r.got.filterMap (·.2)).flatMap (fun y => if y.mask = 0 then [(y.src, y.srcCore, y.id)] else y.parts) }
  let m := setRound m k { round := r.round, entPos := r.entPos }
  let pkg := ((groupRanks m (k % 65536 / 1024) e)[siteAbove e a true]?.map (·.1)).getD m.number
  sendMsg m (.contrib pkg x)

/-- A round closes (R229, R230): one result goes to every package of a contributor, and the root keeps its record (R235). -/
def closeRound (m : Mach) (k : Nat) : Mach :=
  if k / 65536 ≠ 0 then forwardTerm m k
  else
    let r := getRound m k
    let e := r.entry
    let n := entNC e
    let ranks := groupRanks m (k / 1024) e
    let mask := roundMask r
    let got := (List.range n).filter (fun i => mask.getLsbD i)
    let status := if got.length = n then 0 else 7
    let from_ := got.map (fun i => ranks.getD i (0, 0))
    let res : RoundResult :=
      { root := m.number, round := r.round, status := status, mask := mask, raddr := entRADDR e, rrec := entRREC e,
        hnd := entHND e, hidx := entHIDX e, blocks := resultBlocks e (roundVals k r) }
    let m := setRound m k { round := r.round, entPos := r.entPos }
    let kept : Closed :=
      { round := r.round, status := status, mask := mask, order := if entORD e then [] else r.order }
    let m := { m with closedRounds := smPut {} m.closedRounds k kept }
    ((from_.map (·.1)).eraseDups).foldl (fun m p =>
      let cores := (from_.filter (fun x => x.1 == p)).map (·.2)
      sendMsg m (.result p (cores.headD 0) k { res with cores := cores })) m

/-- Has every rank that an open round waits for been combined or excluded (R229)? -/
def roundFull (k : Nat) (r : Round) : Bool :=
  r.isOpen && (siteRanks k r.entry).all (fun i => (roundMask r).getLsbD i || r.excl.getLsbD i)

/-- The rank of a contribution in the list of ranks, or of the site that a term comes from. -/
def rankOf (ranks : List (Nat × Nat)) (x : Contribution) : Option Nat :=
  if x.mask = 0 then ranks.idxOf? (x.src, x.srcCore) else some x.srcCore

/-- The round that a contribution or a term is for, at its site (R227, R228): its number there, the rank and the number that
the contribution has. An open round that it is still due in keeps the entry with which it opened. -/
def contribPlace (m : Mach) (x : Contribution) : Except Nat (Nat × BitVec 512) :=
  let k0 := 1024 * x.part + x.group
  let site (e : BitVec 512) : Option Nat :=
    (rankOf (groupRanks m x.part e) x).map (fun r => 65536 * siteAbove e r (x.mask != 0) + k0)
  match m.rounds.findSome? (fun e =>
      if e.2.isOpen ∧ site e.2.entry = some e.1 then
        match rankOf (groupRanks m x.part e.2.entry) x with
        | some r => if (if x.mask = 0 then rankCount m e.1 r else x.id - 1) < e.2.round then some (e.1, e.2.entry) else none
        | none => none
      else none) with
  | some y => .ok y
  | none =>
    match groupRead m x.part x.group with
    | .error c => .error c
    | .ok e => .ok ((site e).getD k0, e)

/-- A round opens with a contribution: the ranks already excluded from it, and those of packages that are down, are recorded
missing (R229); an exclusion counts as the rank's contribution. -/
def openRound (m : Mach) (k : Nat) (e : BitVec 512) (x : Contribution) (cur : Nat) : Mach × Round :=
  let ranks := groupRanks m x.part e
  let down := (siteRanks k e).filter (fun i => m.downPkgs.contains (ranks.getD i (m.number, 0)).1 && decide (rankCount m k i < cur))
  let excl := down.foldl (fun a i => a ||| BitVec.ofNat 64 (2 ^ i)) (smGet 0 m.exclNext (2 ^ 32 * k + cur))
  ({ m with counts := down.foldl (fun c i => smPut 0 c (64 * k + i) cur) m.counts },
   { isOpen := true, round := cur, entry := e, entPos := (getRound m k).entPos, began := m.nowt, cmp := x.cmp, fmt := x.fmt,
     excl := excl })

/-- GROUP_CONTRIBUTION (R228): combined into its round at its level of the tree or at the root, which it opens if it is the
first; refused, or held until its round is the current one. -/
def execGroupContribution (x : Contribution) (s : State) : Out :=
  whenRunning s (fun m =>
    let msg := Msg.contrib m.number x
    let m0 := dropMsg m msg
    let nack (m : Mach) (c : Nat) : Mach :=
      if x.mask = 0 then sendMsg m (.ack x.src x.srcCore x.id c 0)
      else x.parts.foldl (fun m p => sendMsg m (.ack p.1 p.2.1 p.2.2 c 0)) m
    if !(mayLand m msg x.src) then m
    else
      match contribPlace m x with
      | .error c => nack m0 c
      | .ok (k, e) =>
        if entRefused m x.part e then nack m0 0x1A
        else
          match rankOf (groupRanks m x.part e) x with
          | none => nack m0 0x30
          | some rank =>
            let m0 := freshCounts m0 k
            let n := if x.mask = 0 then rankCount m0 k rank + 1 else x.id
            let cur := roundNumber m0 k
            if cur < n then m
            else
              let m1 := if x.mask = 0 then bumpRank m0 k rank else
                { m0 with counts := ((List.range 64).filter (fun i => x.mask.getLsbD i)).foldl (fun c i => smPut 0 c (64 * k + i) n) m0.counts }
              if n < cur then nack m1 0x30
              else
                let (m2, r) := if (getRound m1 k).isOpen then (m1, getRound m1 k) else openRound m1 k e x cur
                if x.nblk ≠ entNBLK e ∨ x.cmp ≠ r.cmp then nack m1 0x30
                else if x.fmt ≠ r.fmt ∨ x.fmt = 0xFF then nack m1 0x18
                else
                  { setRound m2 k { r with got := smPut none r.got rank (some x), order := r.order ++ [rank] } with
                    exclNext := smDel m2.exclNext (2 ^ 32 * k + cur) })

/-- A rank is recorded missing at a site in the round of its next contribution; of a package that is down, in the round that
is open, though the rank had not come as far (R229). -/
def excludeRank (m : Mach) (k rank : Nat) (down : Bool) : Mach :=
  match roundEntry m k with
  | .error _ => m
  | .ok e =>
    if !((siteRanks k e).contains rank) ∨ entBad e then m
    else
      let m := freshCounts m k
      let n := rankCount m k rank + 1
      let r := getRound m k
      let bit : BitVec 64 := BitVec.ofNat 64 (2 ^ rank)
      let late : Bool := down && r.isOpen && decide (n < r.round)
      let m := if late then { m with counts := smPut 0 m.counts (64 * k + rank) r.round } else bumpRank m k rank
      if r.isOpen ∧ (r.round = n ∨ late = true) then setRound m k { r with excl := r.excl ||| bit }
      else
        let x := smGet 0 m.exclNext (2 ^ 32 * k + n) ||| bit
        if !r.isOpen ∧ n = roundNumber m k ∧ (siteRanks k e).all (fun i => x.getLsbD i) then
          setRound { m with exclNext := smDel m.exclNext (2 ^ 32 * k + n) } k { r with round := n }
        else { m with exclNext := smPut 0 m.exclNext (2 ^ 32 * k + n) x }

/-- The sites that wait for a rank: the root, and in an ordered tree the combine units on its way there. -/
def sitesOf (e : BitVec 512) (rank : Nat) : List Nat :=
  if entORD e then ((List.range 6).map (fun l => rank / 2 ^ (l + 1) * 2 ^ (l + 1))).eraseDups else [0]

/-- Does an entry govern a site's round: the one that is open, or the next (R227)? -/
def governs (m : Mach) (k : Nat) (e : BitVec 512) : Bool := match roundEntry m k with | .ok x => x == e | .error _ => false

/-- A rank of a group under an entry is excluded at every site that waits for it: on this package where the entry governs the
site's round, and, with `report`, by a report to another (R229). -/
def excludeAll (m : Mach) (k : Nat) (e : BitVec 512) (rank : Nat) (report down : Bool) : Mach :=
  let ranks := groupRanks m (k / 1024) e
  (sitesOf e rank).foldl (fun m a =>
    match ranks[a]? with
    | none => m
    | some (pkg, _) =>
      if pkg = m.number then (if governs m (65536 * a + k) e then excludeRank m (65536 * a + k) rank down else m)
      else if report then sendMsg m (.exclude pkg (65536 * a + k) rank) else m) m

/-- The groups of a partition whose entries have been written. -/
def tableGroups (m : Mach) (part : Nat) : List Nat :=
  let t := groupAddr m part 0
  if targetOf m t ≠ .hbm then []
  else (((m.mem.filter (fun c => t ≤ c.1 && c.1 < t + 0x10000)).map (fun c => 1024 * part + (c.1 - t) / 64)).eraseDups).filter
    (fun k => !(entBad (groupEntry m part (k % 1024))))

/-- The entries that govern rounds of a partition's groups: those with which open rounds of this package opened, and those of
its table (R227). -/
def groupsNow (m : Mach) (part : Nat) : List (Nat × BitVec 512) :=
  let open' := (m.rounds.filter (fun e => e.2.isOpen && e.1 % 65536 / 1024 == part)).map (fun e => (e.1 % 65536, e.2.entry))
  (open' ++ (tableGroups m part).map (fun k => (k, groupEntry m part (k % 1024)))).eraseDups

/-- A unit of this package ended FAILED or CANCELLED on a core: its rank is excluded in every group (R229). The other packages
are told the rank that it has under the entry in force here: that of an open round first. -/
def excludeUnit (m : Mach) (part core : Nat) : Mach :=
  let gs := groupsNow m part
  gs.foldl (fun m g =>
    match (groupRanks m part g.2).idxOf? (m.number, core) with
    | some rank => excludeAll m g.1 g.2 rank (gs.find? (fun x => x.1 == g.1) == some g) false
    | none => m) m

/-- A package is declared down: its ranks are excluded in every group, at the sites of this package; every other package
excludes them at its own (R229; DEDUCED, log 92). -/
def excludePackage (m : Mach) (pkg : Nat) : Mach :=
  m.parts.foldl (fun m p => (groupsNow m p.1).foldl (fun m g =>
    ((groupRanks m p.1 g.2).zipIdx.filter (fun x => x.1.1 == pkg)).foldl (fun m x =>
      excludeAll m g.1 g.2 x.2 false true) m) m) m

/-- RANK_EXCLUSION (R229): the hive of another package reports that a rank of it is excluded; the ranks of this package are
excluded as its units end, those of a package that is down as it went down and as rounds open. -/
def execRankExclusion (group rank : Nat) (s : State) : Out :=
  whenRunning s (fun m =>
    match roundEntry m group with
    | .error _ => m
    | .ok e =>
      match (groupRanks m (group % 65536 / 1024) e)[rank]? with
      | none => m
      | some (pkg, _) => if pkg = m.number ∨ m.downPkgs.contains pkg then m else excludeRank m group rank false)

/-- ROUND_CLOSE (R229): every rank has been combined or excluded. -/
def execRoundClose (group : Nat) (s : State) : Out :=
  whenRunning s (fun m => if roundFull group (getRound m group) then closeRound m group else m)

/-- ROUND_TIMEOUT (R229): TMO ticks after the first contribution. -/
def execRoundTimeout (group : Nat) (s : State) : Out :=
  whenRunning s (fun m =>
    let r := getRound m group
    if r.isOpen ∧ r.began + entTMO r.entry ≤ m.nowt then closeRound m group else m)

/-! ### Results (R230, R231, R238) -/

/-- Where a write of a combine unit of `size` bytes goes: none while its page is frozen, a cause, or an address; a pool
checks it at its port. -/
def combinePlace (m : Mach) (core : Nat) (va : Word) (align size : Nat) : Option (Except Nat Nat) :=
  let p := clusterOf core
  let w : Who := { core := core, part := p, owner := ((getPart m p).owner).getD 0 }
  if va.toNat / 2 ^ 60 = 14 then some (.error 0x09)
  else if va.toNat % align ≠ 0 then some (.error 0x0A)
  else
    match xlateNow m w va size accWrite with
    | .moving => none
    | .ok pa _ _ => some (.ok pa)
    | .fault x _ => some (.error x.toNat)
    | _ => some (.error 0x09)

/-- The contribution of a core to a group that waits for its round. -/
def waitingGroup (m : Mach) (core k : Nat) : Option Cmd :=
  (smGet [] (getCore m core).cmds 3).find? (fun c =>
    optIsGroup c && !c.closed && c.bad.isNone && 1024 * c.area + c.a.toNat % 1024 == k && !c.reqs.isEmpty)

/-- A round's results have been written on this package: a contributor's l.rred ends, for the first cause refused, PARTIAL
or OK (R230). -/
def endContrib (m : Mach) (k bad status core : Nat) : Mach :=
  match waitingGroup m core k with
  | none => m
  | some cm =>
    let m := cm.reqs.foldl (fun m q => answerReq m core cm.num q.r.id 0 0) m
    modCmd m core 3 cm.num (fun c => { c with
      closed := true
      doneBytes := 64 * c.total
      gstat := if bad ≠ 0 then 4 else if status = 7 then 7 else 0
      gcause := if bad ≠ 0 then bad else if status = 7 then 0x32 else 0 })

/-- The next write of a round's result on this package: a block, then the round record; those refused are dropped. At the
end the notice, and the contributors' commands end (R230, R231). -/
def resultNext (m : Mach) (l : Landing) (group core : Nat) (r : RoundResult) : Mach :=
  let n := r.blocks.length
  let put (va : Word) (align size data mark : Nat) : Mach :=
    let on (m : Mach) (f : Landing → Landing) : Mach := modLanding m l.id (fun l => f { l with blk := l.blk + 1 })
    match combinePlace m core va align size with
    | none => m
    | some (.error c) => on m (fun l => { l with cause := if l.cause = 0 then c else l.cause })
    | some (.ok pa) => landParts (on m id) l .st (pa / 16 * 16) pa size data mark (clusterOf core) va
  if l.left ≠ 0 then m
  else if l.blk < n then put (r.raddr + BitVec.ofNat 64 (64 * l.blk)) 64 64 (r.blocks.getD l.blk 0).toNat 0
  else if l.blk = n then put r.rrec 16 16 (fields [(0, r.round % 2 ^ 32), (4, r.status), (8, r.mask.toNat)]) 1
  else
    let m := endLanding m l
    let m := if r.hnd && l.cause == 0 then
        notifyHandler m core (clusterOf core) r.hidx (r.root * 65536 + 0xFFFF) r.raddr (64 * n) l.grans
      else m
    (if r.cores.isEmpty then [core] else r.cores).foldl (fun m c => endContrib m group l.cause r.status c) m

/-- RESULT_WRITE (R230, R231, R238): blocks, then the round record, then the notice; the contributors' l.rred end. -/
def execResultWrite (group core : Nat) (r : RoundResult) (s : State) : Out :=
  whenRunning s (fun m =>
    let x := Msg.result m.number core group r
    match landingFor m x with
    | none => if !(mayLand m x r.root) then m else match startLanding m x combineAgent with | (m, l) => resultNext m l group core r
    | some l => resultNext m l group core r)

/-! ### Mirrors (R234) -/

/-- Bytes of a store, in order. -/
def actBytes (a : Act) : List Byte :=
  (List.range (actLen a)).map (fun i => BitVec.ofNat 8 (a.data.toNat / 256 ^ (actLo a + i)))

/-- MIRROR_WRITE (R234): the collective engine of a core sends the next mirror in local commit order, under the settings in
force for the unit, unless a debugger's freeze holds the engines' requests (spec/17 R257); it waits for the answer to an earlier
one of the same granule, which a MOVED NACK may send again. -/
def execMirrorWrite (core : Nat) (s : State) : Out :=
  whenRunning s (fun m =>
    let k := getCore m core
    match k.mirrors with
    | [] => m
    | (i, a) :: rest =>
      if engFrozen k || k.mirrorsOut.any (fun x => sameGran x.2.2.1 a) then m
      else
        let m := setCore m core { k with mirrors := rest }
        let radd : Bool := match a.kind with | .radd _ => true | _ => false
        let pa := if radd then a.gran else a.gran + actLo a
        let len := if radd then 64 else actLen a
        let refuse (m : Mach) (c : Byte) : Mach := countOwed (raiseLater m core i a.area c a.va (finfoT 7 2))
        match a.mirw with
        | none => refuse m causePerm
        | some w =>
          let t := walkWindow m a.area w
          let raw := t.raw
          if t.chk then refuse m 0x19
          else if !t.ok ∨ winInvalid raw ∨ winKind raw ≠ 1 ∨ pa < a.mbase ∨ a.mbase + winSize raw < pa + len
              ∨ !(winFlag raw (if radd then 3 else 2)) then refuse m causePerm
          else
            let id := k.reqSeq + 1
            let r : RemoteReq :=
              { src := m.number, srcCore := core, id := id, pa := winTbase raw + (pa - a.mbase), len := len,
                data := if radd then [] else actBytes a, rbarf := 0, hnd := false, hidx := 0, tpart := winTpart raw,
                kind := 1, mirror := true }
            let m := modCore m core (fun k => { k with reqSeq := id, mirrorsOut := k.mirrorsOut ++ [(id, i, a, a.aux == 1)] })
            sendMsg m (match a.kind with
              | .radd lanes => .direct (winPkg raw) r 0 ((List.range 15).map (fun j => BitVec.ofNat 32 (lanes.toNat / 2 ^ (32 * j))))
              | _ => .store (winPkg raw) r))

/-! ### Gangs (R233, spec/02 R40) -/

def getGang (m : Mach) (k : Nat) : Gang := smGet {} m.gangs k
def setGang (m : Mach) (k : Nat) (g : Gang) : Mach := { m with gangs := smPut {} m.gangs k g }
def modGang (m : Mach) (k : Nat) (f : Gang → Gang) : Mach := setGang m k (f (getGang m k))

/-- The key of a member's part of a gang that another package coordinates. -/
def memberKey (src gang : Nat) : Nat := (src + 1) * 2 ^ 32 + gang

/-- The coordinator cancels a gang's job on every member, though its own part may have ended (R233), and reports it with an
event of a KIND (spec/19 Table 19-4). -/
def cancelGangJob (m : Mach) (gang kind : Nat) : Mach :=
  let g := getGang m gang
  let n := getNode m g.launch
  let m := hostEvent m n.owner kind 0 ((governing m n.owner n.lpb.cmask).getD 0) 0 n.recVa.toNat
  let m := cancelNode m (nodeAtLevel m g.launch 4)
  if (getGang m gang).live then
    setGang { m with out := m.out ++ g.members.map (fun p => Msg.cancelGang p g.src gang) } gang { getGang m gang with live := false }
  else m

/-- ARM (R233): a member checks the LPB and queues the launch unplaceable. -/
def execArm (src gang : Nat) (lpb : List Byte) (s : State) : Out :=
  whenRunning s (fun m =>
    let x := natOfBytes lpb
    let l := lpbOf x
    let owner := (getQueue m l.qid).owner
    if (getGang m (memberKey src gang)).live then m
    else if lpbBad m owner x ∨ !(recAddrOk m (whoOwner m owner) l.crec) ∨ !(queueTakes (getQueue m l.qid) owner) then
      sendMsg m (.refuse src gang)
    else
      let (m, i) := enqueueLaunch m owner x none []
      let m := modNode m i (fun n => { n with gang := some (memberKey src gang), placeable := false })
      let m := setGang m (memberKey src gang) { live := true, src := src, launch := i, members := [src], since := m.nowt }
      sendMsg m (.armed src gang))

/-- ARMED (R233): when every member has answered in time, the coordinator commits. -/
def execArmed (pkg gang : Nat) (s : State) : Out :=
  whenRunning s (fun m =>
    let g := getGang m gang
    if !g.live ∨ !g.coordinator ∨ g.sentCommit ∨ !(g.members.contains pkg) ∨ g.since + g.limit ≤ m.nowt then m
    else
      let armed := if g.armed.contains pkg then g.armed else g.armed ++ [pkg]
      if g.members.all armed.contains then
        let m := setGang m gang { g with armed := armed, sentCommit := true, since := m.nowt }
        let m := modNode m g.launch (fun n => { n with placeable := true })
        { m with out := m.out ++ g.members.map (fun d => Msg.commit d (gang % 2 ^ 32)) }
      else setGang m gang { g with armed := armed })

/-- REFUSE (R233). -/
def execRefuse (pkg gang : Nat) (s : State) : Out :=
  whenRunning s (fun m =>
    let g := getGang m gang
    if g.live ∧ g.coordinator ∧ g.members.contains pkg then cancelGangJob m gang 5 else m)

/-- COMMIT (R233): the member's launch becomes placeable. -/
def execCommit (src gang : Nat) (s : State) : Out :=
  whenRunning s (fun m =>
    let g := getGang m (memberKey src gang)
    if !g.live then m
    else
      let m := modNode (modGang m (memberKey src gang) (fun g => { g with sentCommit := true })) g.launch
        (fun n => { n with placeable := true })
      sendMsg m (.committed src gang))

/-- COMMITTED (R233): counts within GANGTO of the COMMIT. -/
def execCommitted (pkg gang : Nat) (s : State) : Out :=
  whenRunning s (fun m =>
    let g := getGang m gang
    if g.live ∧ g.coordinator ∧ g.sentCommit ∧ m.nowt < g.since + g.limit ∧ g.members.contains pkg ∧ !(g.committed.contains pkg) then
      setGang m gang { g with committed := g.committed ++ [pkg] }
    else m)

/-- GANGTO_EXPIRY (R233): a member has not answered ARM or COMMIT in time. -/
def execGangtoExpiry (gang : Nat) (s : State) : Out :=
  whenRunning s (fun m =>
    let g := getGang m gang
    let waiting := if g.sentCommit then !(g.members.all g.committed.contains) else !(g.members.all g.armed.contains)
    if g.live ∧ g.coordinator ∧ waiting ∧ g.since + g.limit ≤ m.nowt then cancelGangJob m gang 5 else m)

/-- GANG_CANCEL_MESSAGE (spec/02 R40): from the coordinator of a gang to a member, or from a member to the coordinator. -/
def execGangCancelMessage (src : Nat) (gang : GangName) (s : State) : Out :=
  whenRunning s (fun m =>
    let key := if gang.coordinator = m.number then gang.number else memberKey gang.coordinator gang.number
    let g := getGang m key
    if g.live ∧ (if gang.coordinator = m.number then g.coordinator && g.members.contains src else src == gang.coordinator) then
      cancelNode m g.launch
    else m)

end Sys2Proof.Machine
end

