-- ==== Sys2Proof/Machine/Hive.lean ====
section
/-!
DEFINITION. The hive: placement and owner service, slices, records, pre-emption and the weir, ends of units,
phases and graphs, handlers, recalls, sweeps (spec/02_execution_model.md R23 to R43, spec/03_hive_scheduler.md
R50 to R60, spec/17_traps_preemption.md R243, R250 to R262, spec/19_system.md R268, R273).
-/

namespace Sys2Proof.Machine

/-! ### Traversal orders (R27) -/

/-- The even-numbered bits of `d`, `n` of them. -/
def evenBits : Nat → Nat → Nat
  | 0, _ => 0
  | n + 1, d => d % 2 + 2 * evenBits n (d / 4)

/-- Points of the Hilbert curve: `n` halvings from side `s`. -/
def hilbertFrom : Nat → (s x y t : Nat) → Nat × Nat
  | 0, _, x, y, _ => (x, y)
  | n + 1, s, x, y, t =>
    let rx := t / 2 % 2
    let ry := (t + rx) % 2
    let (x, y) : Nat × Nat :=
      if ry = 0 then
        let (x, y) : Nat × Nat := if rx = 1 then (s - 1 - x, s - 1 - y) else (x, y)
        (y, x)
      else (x, y)
    hilbertFrom n (2 * s) (x + s * rx) (y + s * ry) (t / 4)

/-- The point at place `d` of the curve over a square of side 2^k. -/
def curve (hilbert : Bool) (k d : Nat) : Nat × Nat :=
  if hilbert then hilbertFrom k 1 0 0 d else (evenBits k d, evenBits k (d / 2))

/-- The smallest k with 2^k at least `n`. -/
def sideLog (n : Nat) : Nat := if n ≤ 1 then 0 else Nat.log2 (n - 1) + 1

/-- The point of the curve that is number `p` of those inside the plane. -/
def curvePoint (hilbert : Bool) (k dim0 dim1 : Nat) : Nat → Nat → Nat → Nat × Nat
  | 0, _, _ => (0, 0)
  | fuel + 1, d, p =>
    let (x, y) := curve hilbert k d
    if x < dim0 ∧ y < dim1 then
      (match p with
       | 0 => (x, y)
       | p + 1 => curvePoint hilbert k dim0 dim1 fuel (d + 1) p)
    else curvePoint hilbert k dim0 dim1 fuel (d + 1) p

/-- Coordinates of place `p` of the inner plane. -/
def planeCoords (l : Lpb) (p : Nat) : Nat × Nat :=
  if l.trav ≤ 1 then
    let (a, b) : Nat × Nat := if l.trav = 0 then (l.dim0, l.dim1) else (l.dim1, l.dim0)
    let w := 2 ^ l.swz
    let band := p / (w * a)
    let q := p % (w * a)
    let h := min w (b - band * w)
    let fb := band * w + q % h
    let fa := q / h
    if l.trav = 0 then (fa, fb) else (fb, fa)
  else
    let k := max (sideLog l.dim0) (sideLog l.dim1)
    curvePoint (l.trav == 3) k l.dim0 l.dim1 (4 ^ k) 0 p

/-- GIDX0 to GIDX2 of unit `u`. -/
def unitCoords (l : Lpb) (u : Nat) : Nat × Nat × Nat :=
  let (g0, g1) := planeCoords l (u % (l.dim0 * l.dim1))
  (g0, g1, u / (l.dim0 * l.dim1))

/-! ### Costs and bounds (R53, R58, spec/17 R254) -/

def ctxCount (partw : Nat) : Nat := partw % 16 + 1
def tileCount (partw : Nat) : Nat := partw / 16 % 4 + 1

/-- Plane pairs of a PREC value. -/
def planePairs (p : W32) : Nat := (p.toNat % 16 + 1) * (p.toNat / 16 % 16 + 1)

/-- The cost of a unit (R53). -/
def unitCost (l : Lpb) : Nat :=
  if l.beats = 0 then 65536
  else l.beats * (([l.prec0, l.prec1, l.prec2, l.prec3].take (tileCount l.partw.toNat)).map planePairs).foldl max 0

/-- SAVEMAX and RESTMAX (R254). -/
def saveMax (partw : Nat) : Nat := ceilDiv (2048 + 16384 * tileCount partw + 112128) 512 + 128

/-- S of R58. A MAXGAP below 64 counts as 64, as which it acts (spec/04 Table 4-5): DEDUCED (log 100). -/
def stopBound (l : Lpb) : Nat := max 64 l.maxgap.toNat + 20 + saveMax l.partw.toNat + 10000

/-- D of a partition, in cycles (R272). -/
def recallCycles (p : Part) : Nat := 2500 * p.recallTmo

/-! ### Eligible clusters and cores (R55, R58) -/

/-- A lent cluster admits a unit (R58). -/
def admits (m : Mach) (q : Part) (owner : Nat) (l : Lpb) : Bool :=
  q.owner != some owner && q.lendto.getLsbD owner && l.beats != 0 && l.pclass ≤ 1
    && decide (stopBound l + 8192 ≤ recallCycles q)
    && (match ownerPart m owner with | some p => (getPart m p).recarea.isSome | none => false)

/-- May units of a launch of an owner run in a cluster? -/
def clusterTakes (m : Mach) (owner : Nat) (l : Lpb) (p : Nat) : Bool :=
  let q := getPart m p
  l.cmask.getLsbD p && q.recarea.isSome && q.recallAt.isNone
    && (if q.lent then admits m q owner l else q.owner == some owner)

/-- Does the hive place units on a core (R17, spec/19 R274)? -/
def coreTakes (m : Mach) (core : Nat) : Bool :=
  !(smGet false m.retired core) && !((getCore m core).scan.draining)

/-- The eligible cores of a launch. -/
def eligible (m : Mach) (owner : Nat) (l : Lpb) : List Nat :=
  (((List.range 64).filter (clusterTakes m owner l)).map (fun p => (List.range 18).map (18 * p + ·))).flatten.filter (coreTakes m)

/-- The Free unit contexts of a core, for a unit whose launch would set HCTX if none has (R28). -/
def freeCtxs (k : Core) (l : Lpb) : List Nat :=
  let hctx := if k.hset.isSome then k.hctx else l.hctx
  (List.range (ctxCount k.partw.toNat - hctx)).filter (fun i => (smGet {} k.ctxs i).st == .free)

/-- PARTW as a core holds it: [63:6] are reserved (Table 8-2). -/
def partwOf (l : Lpb) : Nat := l.partw.toNat % 64

/-- May a core take a new PARTW (R55)? -/
def takesPartw (k : Core) : Bool :=
  k.zeroUntil.isNone && k.ctxs.all (fun e => e.2.st == .free || e.2.st == .dormant) && !(k.alloc.any (fun e => e.2.used))

/-- The core that a unit goes to of a list in rising order, and whether it takes the unit's PARTW (R55). -/
def pickCore (m : Mach) (l : Lpb) (cores : List Nat) : Option (Nat × Bool) :=
  let free (c : Nat) : Nat := if (getCore m c).partw.toNat = partwOf l then (freeCtxs (getCore m c) l).length else 0
  let best := cores.foldl (fun (b : Nat × Nat) c => if b.2 < free c then (c, free c) else b) (0, 0)
  if best.2 ≠ 0 then some (best.1, false)
  else ((cores.filter (fun c => takesPartw (getCore m c))).head?).map (fun c => (c, true))

/-! ### Work that may be placed (R47, R54) -/

/-- A unit that may be placed. -/
inductive Item where
  | fresh (node : Nat)
  | resumed (r : Record)
deriving DecidableEq, Repr

/-- Does a debugger's freeze hold the children of a core (spec/17 R257)? -/
def childFrozen (m : Mach) (n : Node) : Bool :=
  match n.byCore with | some c => engFrozen (getCore m c) | none => false

/-- Is a launch's job held, a member of its gang set being down (spec/19 R279)? -/
def jobHeld (m : Mach) (launch : Nat) : Bool :=
  m.gangs.any (fun e => e.2.hold.isSome && nodeAtLevel m e.2.launch 4 == nodeAtLevel m launch 4)

/-- May the next unit of a launch be placed (R47, R233, spec/19 R279)? -/
def launchReady (m : Mach) (i : Nat) : Bool :=
  let n := getNode m i
  n.live && n.level == 1 && !n.cancelled && decide (n.nextU < n.total) && n.placeable && !(childFrozen m n)
    && !(jobHeld m i)

def imageOf (m : Mach) (id : Nat) : Option Image := smGet none m.images id

/-- The launches of an owner that stand at the head of their queues. -/
def heads (m : Mach) (owner : Nat) : List Nat :=
  m.queues.filterMap (fun e =>
    if e.2.declared && !e.2.work && e.2.owner == owner then (e.2.entries.head?).map (·.toNat) else none)

/-- Have the writes that a pre-empted unit left behind been done (R251, R252)? Its record is not taken up before (log 33).
What stands in its issue queue goes with a unit that resumes on its home core. -/
def leftQuiet (m : Mach) (r : Record) : Bool :=
  match imageOf m r.id with
  | some im =>
    let a := orphanAgent r.home im.orphan
    (flying m a).isEmpty && ((getAgent m a).iq.isEmpty || !r.portable)
      && !(ctxMirrors (getCore m r.home) im.orphan m.tag)
  | none => true

/-- The placeable units of an owner. -/
def items (m : Mach) (owner : Nat) : List Item :=
  (m.records.filter (fun r => r.unit.owner == owner && r.ready.isSome && !r.withheld && !(childFrozen m (getNode m r.launch))
      && !(jobHeld m r.launch) && leftQuiet m r)).map .resumed
    ++ ((heads m owner).filter (launchReady m)).map .fresh

def itemPrio (m : Mach) (x : Item) : Nat := match x with | .fresh i => (getNode m i).lpb.prio | .resumed r => r.unit.prio

def itemLpb (m : Mach) (x : Item) : Lpb := match x with | .fresh i => (getNode m i).lpb | .resumed r => (getNode m r.unit.launch).lpb

/-- The fresh launches among an owner's placeable units, in order of arrival: their ids rise as they arrive. -/
def freshOf (xs : List Item) : List Nat := xs.filterMap (fun x => match x with | .fresh i => some i | .resumed _ => none)

/-- The first launch in order of arrival that a record of a priority goes before: one of that priority or a lower one; behind
them all when there is none. -/
def recordBefore (m : Mach) (fresh : List Nat) (prio : Nat) : Nat :=
  (fresh.filter (fun i => (getNode m i).lpb.prio ≤ prio)).foldl min m.nodeSeq

/-- The place of a unit in the order within an owner: launches by arrival; a record before every launch of its own priority
or a lower one (R43, R54), and for the rest after those that arrived before these (DEDUCED, log 69); records of one place by
priority, and those of one priority as they became ready. -/
def itemKey (m : Mach) (fresh : List Nat) (x : Item) : Nat × Nat × Nat × Nat :=
  match x with
  | .fresh i => (i, 1, 0, 0)
  | .resumed r => (recordBefore m fresh (itemPrio m x), 0, 255 - itemPrio m x, r.ready.getD 0)

/-- Does one place in the order come before another? -/
def keyLt (a b : Nat × Nat × Nat × Nat) : Bool :=
  a.1 < b.1 || (a.1 == b.1 && (a.2.1 < b.2.1 || (a.2.1 == b.2.1 &&
    (a.2.2.1 < b.2.2.1 || (a.2.2.1 == b.2.2.1 && a.2.2.2 < b.2.2.2)))))

/-- Does a unit of a list come before another (R54)? -/
def goesBefore (m : Mach) (fresh : List Nat) (x y : Item) : Bool := keyLt (itemKey m fresh x) (itemKey m fresh y)

/-- Do allocations meet used ranges of a core, or are there too many (R256)? -/
def allocsFit (k : Core) (as : List Alloc) : Bool :=
  as.all (fun a => !(k.alloc.any (fun e => e.2.used && e.2.base < a.base + allocSpan a.nblk && a.base < e.2.base + allocSpan e.2.nblk)))
    && decide (as.length + (k.alloc.filter (fun e => e.2.used)).length ≤ 64)

/-- The cores that a unit may be placed on, whatever their PARTW (R55, spec/17 R255, R256). -/
def coresOf (m : Mach) (x : Item) : List Nat :=
  match x with
  | .fresh i => eligible m (getNode m i).owner (getNode m i).lpb
  | .resumed r =>
    let cs := eligible m r.unit.owner (getNode m r.unit.launch).lpb
    match r.kcore, imageOf m r.id with
    | some k, some im => cs.filter (fun c => kOf c == k && allocsFit (getCore m c) im.allocs)
    | _, some _ => if r.portable then cs else cs.filter (· == r.home)
    | _, none => cs

/-- The unit of an owner that is placed next, with its place: the first in order that has one. -/
def nextItem (m : Mach) (owner : Nat) : Option (Item × Nat × Bool) :=
  (items m owner).foldl (fun best x =>
    if (match best with | some (y, _) => goesBefore m (freshOf (items m owner)) x y | none => true) then
      match pickCore m (itemLpb m x) (coresOf m x) with
      | some p => some (x, p)
      | none => best
    else best) none

/-! ### Starting a unit (R25, R28, R55) -/

/-- The hive gives a core a new PARTW; its zeroing begins (spec/08 R144). -/
def setPartw (m : Mach) (core pw : Nat) : Mach :=
  modCore m core (fun k => { k with
    partw := BitVec.ofNat 64 pw, ctxs := [], hctx := 0, hset := none, bars := [], barWrites := [], arr := {}, rowFlight := []
    zeroUntil := some (m.cycle + 8192) })

/-- The first launch placed after PARTW was set fixes HCTX and what arrival contexts start with (R28, R33). -/
def setHctx (k : Core) (l : Lpb) (owner : Nat) : Core :=
  if k.hset.isSome then k
  else
    let n := ctxCount k.partw.toNat
    { k with
      hctx := l.hctx
      hset := some { maxgap := l.maxgap.setWidth 64, prec0 := l.prec0.setWidth 64, prec1 := l.prec1.setWidth 64,
                     prec2 := l.prec2.setWidth 64, prec3 := l.prec3.setWidth 64, owner := owner }
      ctxs := (List.range l.hctx).foldl (fun cs i => smPut {} cs (n - l.hctx + i) { st := .dormant, arr := true }) k.ctxs }

/-- OWNER of a context (spec/19 Table 19-2). -/
def ownerWord (m : Mach) (core owner : Nat) (lent : Bool) : Word :=
  BitVec.ofNat 64 (owner + clusterOf core * 2 ^ 8 + (getOwner m owner).cls % 4 * 2 ^ 14 + (if lent then 2 ^ 16 else 0))

/-- The partition whose tables and record area serve an owner's contexts of a cluster (spec/19 R268). -/
def servingPart (m : Mach) (core owner : Nat) : Nat :=
  if (getPart m (clusterOf core)).owner = some owner then clusterOf core else (ownerPart m owner).getD (clusterOf core)

/-- The unit's part of a context, with the settings in force at its placement (spec/19 R266). -/
def unitInfo (m : Mach) (core launch u : Nat) : UnitInfo :=
  let n := getNode m launch
  let q := getPart m (servingPart m core n.owner)
  { launch := launch, u := u, prio := n.lpb.prio, pclass := n.lpb.pclass, owner := n.owner, area := servingPart m core n.owner,
    lent := (getPart m (clusterOf core)).lent, cost := unitCost n.lpb, beats := 0
    fwdpkt := q.fwdpkt, mirw := q.mirw, mbase := q.mbase }

/-- The state of Table 2-5 that comes from the LPB and the unit's index. -/
def unitStart (m : Mach) (core : Nat) (x : UnitInfo) : Ctx :=
  let l := (getNode m x.launch).lpb
  let (g0, g1, g2) := unitCoords l x.u
  { st := .ready
    unitid := BitVec.ofNat 64 x.u
    launchid := BitVec.ofNat 64 (x.launch % 2 ^ 32)
    gidx0 := BitVec.ofNat 64 g0
    gidx1 := BitVec.ofNat 64 g1
    gidx2 := BitVec.ofNat 64 g2
    csb := l.csb
    maxgap := l.maxgap.setWidth 64
    gapLimit := l.maxgap.setWidth 64
    prec0 := l.prec0.setWidth 64
    prec1 := l.prec1.setWidth 64
    prec2 := l.prec2.setWidth 64
    prec3 := l.prec3.setWidth 64
    ownerReg := ownerWord m core x.owner x.lent
    unit := some x
    area := x.area
    since := m.step
    sliceStart := m.cycle
    slice := BitVec.ofNat 64 (max (getPart m (clusterOf core)).slice (2 * saveMax (partwOf l)))
    hbudget := BitVec.ofNat 64 (getPart m (clusterOf core)).hbudget }

/-- A fresh unit's context. -/
def freshCtx (m : Mach) (core : Nat) (x : UnitInfo) : Ctx :=
  let l := (getNode m x.launch).lpb
  { unitStart m core x with
    pc := l.entry
    sregs := smPut {} (smPut {} [] 1 { val := l.argp }) 2 { val := BitVec.ofNat 64 x.u } }

/-- Prepare a core for a unit of a launch: PARTW and HCTX (R28, R55); the context taken, of the Free ones the lowest-numbered:
DESIGN CHOICE (log 99), R55 names the core alone. -/
def prepareCore (m : Mach) (core : Nat) (repart : Bool) (l : Lpb) (owner : Nat) : Mach × Nat :=
  let m := if repart && decide ((getCore m core).partw.toNat ≠ partwOf l) then setPartw m core (partwOf l) else m
  let i := (freeCtxs (getCore m core) l).headD 0
  (modCore m core (fun k => setHctx k l owner), i)

/-- What a unit has written before goes with it to a context: its child launches start past those writes (R49). -/
def joinOwn (m : Mach) (core i : Nat) (v : SMap Nat) : Mach :=
  modAgent m (ctxAgent core i) (fun a => { a with own := maxViews a.own v })

/-- Advance a context's views (R49, R188). -/
def joinViews (m : Mach) (core i : Nat) (v : SMap Nat) : Mach :=
  modAgent m (ctxAgent core i) (fun a => { a with view := maxViews a.view v })

/-- Place the next fresh unit of a launch (R25, R47, R55). -/
def placeFresh (m : Mach) (i core : Nat) (repart : Bool) : Mach :=
  let n := getNode m i
  let (m, c) := prepareCore m core repart n.lpb n.owner
  let x := unitInfo m core i n.nextU
  let m := joinViews (setCtx m core c (freshCtx m core x)) core c n.views
  let m := startNode (modNode m i (fun n => { n with nextU := n.nextU + 1 })) i 5
  if n.nextU + 1 < n.total then m
  else setQueue m n.lpb.qid { getQueue m n.lpb.qid with
    entries := (getQueue m n.lpb.qid).entries.filter (fun w => w.toNat != i) }

/-! ### Owner service (R54) -/

/-- Records whose wait condition holds become ready, in the order of their numbers (Table 2-4). -/
def readyRecords (m : Mach) : Mach :=
  m.records.foldl (fun m r =>
    if r.ready.isNone && !r.withheld && r.wkind != 5 && waitHolds m r.part r.wkind r.wobj r.wval then
      { m with
        recSeq := m.recSeq + 1
        records := m.records.map (fun x => if x.id = r.id then { x with ready := some m.recSeq } else x) }
    else m) m

/-- The owners that are served and have placeable work, in rising order. -/
def workers (m : Mach) : List Nat :=
  (m.owners.filter (fun e => e.2.weight != 0 && !(items m e.1).isEmpty)).map (·.1)

/-- The owner visited after another. -/
def nextOwner (m : Mach) (o : Nat) : Option Nat :=
  match (workers m).find? (fun x => o < x) with
  | some x => some x
  | none => (workers m).head?

/-- The unit that a visit to an owner places next: none when it finds no place or the cost exceeds the deficit. -/
def visitItem (m : Mach) (o : Nat) : Option (Item × Nat × Bool) :=
  if !((workers m).contains o) then none
  else
    match nextItem m o with
    | some (.fresh i, p) => if (getOwner m o).deficit < unitCost (getNode m i).lpb then none else some (.fresh i, p)
    | x => x

/-- The owner service: the unit that the visit in force places next, or else the visit to the next owner, with its credit
(R54). -/
def serve (m : Mach) : Mach × Option (Item × Nat × Bool) :=
  let m := readyRecords m
  let m := { m with owners := m.owners.map (fun e => (e.1, if (items m e.1).isEmpty then { e.2 with deficit := 0 } else e.2)) }
  match visitItem m m.wdrr with
  | some x => (m, some x)
  | none =>
    match nextOwner m m.wdrr with
    | none => (m, none)
    | some o =>
      let x := getOwner m o
      let m := setOwnerOf { m with wdrr := o } o { x with deficit := x.deficit + 65536 * x.weight }
      (m, visitItem m o)

/-- One step of the owner service that places a fresh unit and charges it; a record that comes next waits to be taken up
(R54). -/
def serveOwners (m : Mach) : Mach :=
  if m.noPlace then m
  else
    match serve m with
    | (m, some (.fresh i, core, repart)) =>
      let o := (getNode m i).owner
      placeFresh (setOwnerOf m o { getOwner m o with deficit := (getOwner m o).deficit - unitCost (getNode m i).lpb }) i core repart
    | (m, _) => m

/-- UNIT_PLACE (R54, R55). -/
def execUnitPlace (s : State) : Out := whenRunning s serveOwners

/-- ZEROING_COMPLETE (spec/08 R144): the pool, its tiles and their exponent bytes are zero. -/
def zeroPool (m : Mach) (core : Nat) : Mach :=
  let lo := poolPa core 0
  let size := if isControl core then 0x100000 else 0x400000
  { modCore m core (fun k => { k with tiles := [], exps := [], rowFlight := [], zeroTick := m.nowt, renews := [] }) with
    mem := m.mem.filter (fun c => !(lo ≤ c.1 && c.1 < lo + size)) }

def execZeroingComplete (core : Nat) (s : State) : Out :=
  whenRunning s (fun m =>
    match (getCore m core).zeroUntil with
    | some t => if m.cycle < t then m else wakeCore (modCore (zeroPool m core) core (fun k => { k with zeroUntil := none })) core
    | none => m)

/-! ### Pre-emption requests (R56, R250, R251, R259) -/

/-- Is a context one that a request may reach: it runs a unit that is not ending (R36, R250)? -/
def canPreempt (c : Ctx) : Bool :=
  c.unit.isSome && !c.arr && !(ctxEnded c) && c.pre.isNone && c.restoring.isNone && c.ending.isNone && c.susp.isNone

/-- A request reaches a context: an active loop is clamped (R78). -/
def requestPre (m : Mach) (core i : Nat) (src : PreSrc) (slot : Option (Nat × Nat)) : Mach :=
  modCtx m core i (fun c =>
    { clampLoop c with pre := some { src := src, stopped := none, acks := 0, saved := false, slot := slot } })

/-- A free image slot and a free record slot of a partition (spec/19 R268). -/
def freeSlots (m : Mach) (p : Nat) : Option (Nat × Nat) :=
  let q := getPart m p
  match (List.range (q.imgUsed.length + 1)).find? (fun n => !(q.imgUsed.contains n)),
        (List.range (q.recUsed.length + 1)).find? (fun n => !(q.recUsed.contains n)) with
  | some a, some b => if a < q.imgcnt ∧ b < q.reccnt then some (a, b) else none
  | _, _ => none

def takeSlots (m : Mach) (p : Nat) (x : Nat × Nat) : Mach :=
  modPart m p (fun q => { q with imgUsed := x.1 :: q.imgUsed, recUsed := x.2 :: q.recUsed })

/-- A slice ends with a placeable unit waiting: the request is made, unless no slot is free (spec/19 R268). -/
def sliceRequest (m : Mach) (core i : Nat) : Mach :=
  let c := getCtx m core i
  match freeSlots m c.area with
  | none => modCtx m core i (fun c => { c with sliceStart := m.cycle })
  | some x => requestPre (takeSlots m c.area x) core i .slice (some x)

/-- Does a placeable unit wait for which the core is eligible and that no core of its cluster can take (R56)? -/
def unitWaits (m : Mach) (core : Nat) : Bool :=
  !m.noPlace && ((m.owners.filter (fun e => e.2.weight != 0)).any (fun e => (items m e.1).any (fun x =>
    let cs := coresOf m x
    cs.contains core && (pickCore m (itemLpb m x) (cs.filter (fun c => clusterOf c == clusterOf core))).isNone)))

def pclassOf (c : Ctx) : Nat := match c.unit with | some u => u.pclass | none => 0

/-- SLICE_END (R56). -/
def sliceEnds (m : Mach) (core i : Nat) : Mach :=
  let c := getCtx m core i
  if !(canPreempt c) ∨ m.cycle < c.sliceStart + c.slice.toNat % 2 ^ 32 then m
  else if pclassOf c = 0 ∧ unitWaits m core then sliceRequest m core i
  else modCtx m core i (fun c => { c with sliceStart := m.cycle })

def execSliceEnd (core ctx : Nat) (s : State) : Out := whenRunning s (fun m => sliceEnds m core ctx)

/-- Must a borrower's unit be stopped by the recall under way, now (R59)? -/
def recallStops (m : Mach) (core : Nat) (c : Ctx) : Bool :=
  match c.unit with
  | some u =>
    u.lent && (getPart m (clusterOf core)).recallAt.isSome
      && decide (stopBound (getNode m u.launch).lpb < u.cost - u.beats ∨ u.cost ≤ u.beats)
  | none => false

/-- PREEMPT_REQUEST (R251): from a slice end, a recall, the scan's drain (spec/19 R274), the host, or a park. -/
def execPreemptRequest (core ctx : Nat) (src : PreSrc) (s : State) : Out :=
  whenRunning s (fun m =>
    let c := getCtx m core ctx
    if !(canPreempt c) then m
    else
      match src with
      | .slice => sliceEnds m core ctx
      | .recall => if recallStops m core c then requestPre m core ctx .recall none else m
      | .scan => if (getCore m core).scan.draining ∧ pclassOf c ≤ 1 then requestPre m core ctx .scan none else m
      | .host => requestPre m core ctx .host none
      | .park => match c.hold with | some x => if x.park then requestPre m core ctx .park none else m | none => m)

/-- A posted slice end (R259): as one at which a placeable unit waits; dropped, and reported, for a unit of PCLASS 1 and
above, whatever state it is in. -/
def postedEnd (m : Mach) (core i : Nat) : Mach :=
  let c := getCtx m core i
  if 1 ≤ pclassOf c then hostEvent m (ctxOwner c) 4 0 c.area 0 0
  else if canPreempt c then sliceRequest m core i
  else m

/-- POSTED_SLICE_END_TRIGGER (R259). -/
def execPostedSliceEndTrigger (core ctx : Nat) (s : State) : Out :=
  whenRunning s (fun m =>
    match (getCtx m core ctx).posted with
    | some (e, v) =>
      if smGet 0 (getCore m core).eiss e < v then m
      else postedEnd (modCtx m core ctx (fun c => { c with posted := none })) core ctx
    | none => m)

/-! ### The weir (R251 to R253) -/

/-- Is a context at a stop point (R79), or held? -/
def atStop (c : Ctx) : Bool :=
  c.st == .waiting && !c.arr && c.restoring.isNone && !(ctxEnded c)

/-- No slot is free, or a write of the area is refused: the unit ends FAILED, reported with KIND 2 (spec/19 R268). -/
def noSlot (m : Mach) (core i : Nat) : Mach := areaRefused m core i 0x11 0

/-- The numbers of commands that have not left a context's issue queue: results known since their issue. -/
def queuedNumbers (m : Mach) (core i : Nat) : List Pend :=
  let iq := (getAgent m (ctxAgent core i)).iq
  (getCtx m core i).pend.filter (fun p => iq.any (fun a => a.tag == p.tag && isCmd a.kind))

/-- The context acknowledges to the weir: its results have landed; stop goes to the engines. -/
def ackContext (m : Mach) (core i : Nat) (p : PreEmpt) : Mach :=
  let m := (queuedNumbers m core i).foldl (fun m x => landPend m core i x) m
  let c := getCtx m core i
  match (match p.slot with | some x => some (m, x) | none => (freeSlots m c.area).map (fun x => (takeSlots m c.area x, x))) with
  | none => noSlot m core i
  | some (m, x) =>
    let queue : Option Nat := match c.wait with
      | some (.queue q) => if (getQueue m q).waiters.contains (core, i) then some q else none
      | _ => none
    let kind := if c.hold.isSome then 5 else if queue.isSome then 4 else 0
    let obj := match c.hold with | some h => h.cause.toNat | none => queue.getD 0
    let p := { p with slot := some x, stopped := some m.cycle, recId := m.recSeq + 1, wkind := kind, wobj := obj }
    let m := leaveQueues (settle { m with recSeq := m.recSeq + 1 } core i) core i
    let m := modCtx m core i (fun c => { c with pre := some p, wait := if c.hold.isSome then some .held else none })
    stopCmds m core i false

/-- STOP_POINT_REACHED (R79, R251): at a stop point the context's results and pending loads land; then it ends
CANCELLED, or acknowledges to the weir. It waits for nothing else: what stands in its issue queue, behind a fence it may be,
goes with the unit, and a command there has its number already (DEDUCED, log 33). -/
def execStopPointReached (core ctx : Nat) (s : State) : Out :=
  whenRunning s (fun m =>
    let c := getCtx m core ctx
    if !(atStop c) then m
    else if c.cancelled && (match c.pre with | some p => p.stopped.isNone | none => true) then beginEnd m core ctx .cancelled
    else
      match c.pre with
      | some p =>
        if p.stopped.isSome ∨ m.cycle < rowsLandBy (getCore m core) ctx ∨ !(c.pend.all (queuedNumbers m core ctx).contains) then m
        else ackContext m core ctx p
      | none => m)

/-- The commands of a context on an engine context that a stop stops: all but group contributions (Table 17-7). -/
def stoppable (m : Mach) (core i e : Nat) : List Cmd :=
  (smGet [] (getCore m core).cmds e).filter (fun c => c.ctx == i && !c.ended && !(optIsGroup c))

/-- What is left of a command that stopped short. -/
def remainder (c : Cmd) : Cmd :=
  { c with buf := [], cut := none, parts := [], reqs := [], stop := false, fetched := none
           laterBad := if c.kind = 2 then none else c.laterBad
           next := if c.kind = 2 then 0 else if 3 ≤ c.kind then c.next else c.wrote }

/-- ENGINE_STOP_ACK (R251, R252): an engine context acknowledges when every command of the context has stopped at
its boundary. Those that stop short leave their queue, and count as complete for the timeline. -/
def execEngineStopAck (core ctx e : Nat) (s : State) : Out :=
  whenRunning s (fun m =>
    match (getCtx m core ctx).pre with
    | none => m
    | some p =>
      let cs := stoppable m core ctx e
      if p.stopped.isNone ∨ 4 ≤ e ∨ p.acks.getLsbD e ∨ !(cs.all (fun c => cmdIdle m core e c))
          ∨ cs.any (fun c => c.cwSent || (cmdResult m core e c).isSome) then m
      else
        let nums := cs.map (·.num)
        let m := modCore m core (fun k => { k with
          cmds := smPut [] k.cmds e ((smGet [] k.cmds e).filter (fun c => !(nums.contains c.num))) })
        let m := modCtx m core ctx (fun c => { c with pre := some { p with
          acks := p.acks ||| BitVec.ofNat 4 (2 ^ e), rest := p.rest ++ cs.map (fun c => (e, remainder c)) } })
        wakeCore (advance m core e) core)

/-- COLLECTIVE_STOP_EXPIRY (R252): after 10,000 cycles the outstanding remote loads are abandoned: their slots are
freed, their responses will be discarded, and they are saved as not done. -/
def execCollectiveStopExpiry (core ctx : Nat) (s : State) : Out :=
  whenRunning s (fun m =>
    match (getCtx m core ctx).pre.bind (·.stopped) with
    | none => m
    | some t =>
      if m.cycle < t + 10000 then m
      else
        (stoppable m core ctx 3).foldl (fun m c =>
          if c.kind ≠ 2 then m
          else
            let m := (c.reqs.filter (fun q => !q.answered && q.slot)).foldl (fun m q =>
              modCore m core (fun k => { k with rqUsed := smPut 0 k.rqUsed q.pkg (smGet 0 k.rqUsed q.pkg - 1) })) m
            if c.reqs.any (fun q => !q.answered) then
              wakeCore (modCmd m core 3 c.num (fun c => { c with reqs := c.reqs.filter (·.answered), next := 0 })) core
            else m) m)

/-- The VA of an image slot, and of a record slot (spec/19 Table 19-1A). -/
def imageVa (m : Mach) (p n : Nat) : Word :=
  ((getPart m p).recarea).getD 0 + BitVec.ofNat 64 (0x828000 + 0x40000 * n)
def recordVa (m : Mach) (p n : Nat) : Word :=
  ((getPart m p).recarea).getD 0 + BitVec.ofNat 64 (0x828000 + 0x40000 * (getPart m p).imgcnt + 64 * n)

/-- The first page of an image slot that refuses a write: cause and address. -/
def imageRefused (m : Mach) (w : Who) (va : Word) : Option (Byte × Word) :=
  (List.range 4).findSome? (fun i =>
    let a := va + BitVec.ofNat 64 (0x10000 * i)
    match xlateNow m w a 16 accWrite with
    | .ok .. => none
    | .moving => none
    | .fault c _ => some (c, a)
    | _ => some (causePerm, a))

/-- The rows of a core that a context has marked (R253). -/
def markedRows (k : Core) (c : Ctx) : SMap (BitVec 1920 × BitVec 32) :=
  ((List.range 256).filter (fun r => c.rowMark.getLsbD r)).map (fun r => (r, (smGet 0 k.tiles r, smGet 0 k.exps r)))

/-- Bytes of the image slot that a save writes: those of R254, of which the rows take 256 each. What each of them holds the
spec does not say (log 34). -/
def imageSize (im : Image) : Nat := 2048 + 256 * im.rows.length + (if im.arr.isSome then 112128 else 0)

/-- Write `n` granules of an image slot, of contents that are free. -/
def writeImage (m : Mach) (w : Who) (va : Word) : Nat → Mach
  | 0 => m
  | n + 1 =>
    let m := match xlateNow m w va 16 accWrite with
      | .ok pa _ _ => commitWrite m hiveAgent (pa / 16 * 16) 0xFFFF (Config.freeGran (m.fresh * 2 ^ 64 + 2 ^ 62 + pa))
      | _ => m
    writeImage m w (va + 16) n

/-- Does a MOVING page hold a write of an image slot (spec/08 R160)? -/
def imageHeld (m : Mach) (w : Who) (va : Word) : Bool :=
  (List.range 4).any (fun i => heldWrite m w (va + BitVec.ofNat 64 (0x10000 * i)) 16)

/-- SAVE_IMAGE_WRITTEN (R253): the image is written through the save port. -/
def execSaveImageWritten (core ctx : Nat) (s : State) : Out :=
  whenRunning s (fun m =>
    let c := getCtx m core ctx
    match c.pre with
    | none => m
    | some p =>
      match p.slot with
      | none => m
      | some x =>
        if p.stopped.isNone ∨ p.saved ∨ imageHeld m (whoOf m core ctx) (imageVa m c.area x.1) then m
        else
          match imageRefused m (whoOf m core ctx) (imageVa m c.area x.1) with
          | some (cause, a) => areaRefused m core ctx cause a
          | none =>
            let k := getCore m core
            let im : Image :=
              { ctx := { c with pre := none, wait := none, posted := none, unit := none }
                rows := markedRows (landRowsDue k m.cycle) c
                arr := if k.arr.holder = some ctx then some (emptyStages { k.arr with holder := none }) else none }
            { writeImage (setCtx m core ctx { c with pre := some { p with saved := true } }) (whoOf m core ctx)
                (imageVa m c.area x.1) ((imageSize im + 15) / 16) with
              images := smPut none m.images p.recId (some im) })

/-! ### Continuation records (R23, R24) -/

/-- One bit of the CRC-16. -/
def crcBit (c : Nat) : Nat := if 0x8000 ≤ c then Nat.xor (2 * c % 65536) 0x1021 else 2 * c % 65536

/-- The CRC-16 of bytes (R23). -/
def crc16 (bs : List Nat) : Nat :=
  bs.foldl (fun c b => crcBit (crcBit (crcBit (crcBit (crcBit (crcBit (crcBit (crcBit (Nat.xor c (256 * b)))))))))) 0xFFFF

/-- The first 62 bytes of a number. -/
def recordHead (x : Nat) : List Nat := (List.range 62).map (fun i => x / 256 ^ i % 256)

/-- A record with its CRC. -/
def sealRecord (x : Nat) : Nat := x + crc16 (recordHead x) * 256 ^ 62

/-- Table 2-3. -/
def recordBytes (resume frame : Word) (launch u kind obj : Nat) (wval : Word) (owner prio partw : Nat) (cs1 : Word)
    (flags : Nat) (lsave : Word) : Nat :=
  sealRecord (fields [(0, resume.toNat), (8, frame.toNat), (16, launch % 2 ^ 32), (20, u % 2 ^ 32), (24, kind), (25, obj),
    (32, wval.toNat), (40, owner), (41, prio), (42, partw), (48, cs1.toNat), (56, flags), (58, lsave.toNat % 2 ^ 32)])

/-- Does a record fail the check of R24, for a launch? -/
def recordBad (m : Mach) (launch x : Nat) : Bool :=
  let f (o n : Nat) : Nat := x / 256 ^ o % 256 ^ n
  let n := getNode m launch
  let kind := f 24 1
  let obj := f 25 3
  let zero : Bool := match kind with
    | 0 => obj != 0
    | 5 => obj / 256 != 0
    | k => wobjBad k obj
  f 62 2 != crc16 (recordHead x) || f 56 2 % 2 == 0 || 6 ≤ kind || zero || f 28 4 != 0 || f 44 4 != 0
    || f 56 2 / 8 != 0 || ((kind == 0 || 3 ≤ kind) && f 32 8 != 0)
    || f 40 1 != n.owner || (BitVec.ofNat 64 (f 0 8) - n.lpb.csb).toNat % 12 != 0

/-- A core ran a unit of a launch until now (spec/19 R275). -/
def markRan (m : Mach) (launch core : Nat) : Mach :=
  modNode m launch (fun n => { n with
    ran := n.ran.filter (fun r => r.core != core) ++ [{ core := core, step := m.fresh, cleared := false }] })

/-- A number that stands for a unit away from its context, for the commands and allocations it left (R39, R252). -/
def orphanNumber (m : Mach) (i : Nat) : Nat := 16 * (1 + m.tag) + i

/-- The actions of an agent that are not done go on under another agent, with the agent's views and what it has written (log
33). -/
def renameActs (m : Mach) (a b : Nat) : Mach :=
  let x := getAgent m a
  let y := getAgent m b
  let to_ (p : Nat × Act) : Nat × Act := if p.1 = a then (b, p.2) else p
  let m := setAgent (setAgent m b { y with iq := y.iq ++ x.iq, pend := y.pend ++ x.pend, view := maxViews y.view x.view, own := maxViews y.own x.own }) a
    { x with iq := [], pend := [] }
  { m with
    cores := m.cores.map (fun e => (e.1, { e.2 with port := e.2.port.map to_ }))
    adders := m.adders.map (fun e => (e.1, e.2.map to_)) }

/-- Commands, mirrors and allocations of a context go on under another number. -/
def rename (k : Core) (i j : Nat) : Core :=
  { k with
    mirrors := k.mirrors.map (fun x => if x.1 = i then (j, x.2) else x)
    mirrorsOut := k.mirrorsOut.map (fun x => if x.2.1 = i then (x.1, j, x.2.2) else x)
    cmds := k.cmds.map (fun e => (e.1, e.2.map (fun c => if c.ctx = i then { c with ctx := j } else c)))
    alloc := k.alloc.map (fun e => (e.1, if e.2.ctx = i && e.2.pinned.isNone then { e.2 with ctx := j } else e.2)) }

/-- Pin the allocations of a context for a record (R253, R262). -/
def pinAllocs (k : Core) (i id now : Nat) : Core :=
  { k with alloc := k.alloc.map (fun e =>
      (e.1, if e.2.used && e.2.ctx == i && !e.2.freeing && e.2.pinned.isNone then
          { e.2 with pinned := some (e.2.exp - now), pinRec := id } else e.2)) }

/-- The pinned allocations of a record. -/
def pinsOf (k : Core) (id : Nat) : List Alloc :=
  (k.alloc.filter (fun e => e.2.pinned.isSome && e.2.pinRec == id)).map (·.2)

/-- A recalled borrower image loses its pins (R256): its commands end CANCELLED, its allocations go with it, and it
resumes on a core of the same index. -/
def unpinRecord (m : Mach) (r : Record) : Mach :=
  match imageOf m r.id with
  | none => m
  | some im =>
    let as := pinsOf (getCore m r.home) r.id
    let m := freePins (cancelRest m r) r
    { m with
      images := smPut none m.images r.id (some { im with
        rest := [], allocs := im.allocs ++ as, ctx := { im.ctx with armMark := 0 } })
      records := m.records.map (fun x => if x.id = r.id then { x with portable := true, kcore := some (kOf r.home) } else x) }

/-- The record of a pre-empted context is written: its allocations are pinned in the same step, what it leaves behind goes
on under a number of its own, and the context becomes Free (R251, R252, R253, R256, R262). The next holder of the array finds
it as b.susp leaves it (DEDUCED, log 85: spec/09 R162 speaks of b.susp alone). -/
def writePreRecord (m : Mach) (core i : Nat) (c : Ctx) (u : UnitInfo) (p : PreEmpt) (x : Nat × Nat) (im : Image) : Mach :=
  let n := getNode m u.launch
  let resume := c.csb + BitVec.ofNat 64 (12 * c.pc.toNat)
  let loop := if c.lsave.getLsbD 6 then 2 else 0
  let va := recordVa m c.area x.2
  let bytes := recordBytes resume (imageVa m c.area x.1) u.launch u.u p.wkind p.wobj 0 u.owner u.prio n.lpb.partw.toNat
    (smGet {} c.sregs 1).val (5 + loop) c.lsave
  match writeVa m hiveAgent (whoOf m core i) va 64 bytes with
  | .error (cause, a) => areaRefused m core i cause a
  | .ok m =>
    let j := orphanNumber m i
    let m := modCore { m with tag := m.tag + 1 } core (fun k => rename (pinAllocs k i p.recId m.nowt) i j)
    let m := renameActs m (ctxAgent core i) (orphanAgent core j)
    let u := { u with orphans := u.orphans ++ [(core, j)] }
    let k := getCore m core
    let armed := (List.range 16).any (fun b => c.armMark.getLsbD b && smGet 0 k.bars b != 0)
    let im := { im with rest := p.rest, orphan := j }
    let r : Record :=
      { id := p.recId, va := va, part := c.area, launch := u.launch, ready := none, home := core, homeCtx := i
        portable := (pinsOf k p.recId).isEmpty && p.rest.isEmpty && !(orphanCmds m core j) && !armed
        withheld := (getPart m c.area).catching
        slot := x.2, image := some x.1, frame := c.hold.map (·.frame), rel := p.released, unit := u, wkind := p.wkind, wobj := p.wobj
        bytes := bytes }
    let m := markRan m u.launch core
    let m := freeCtx { m with
      images := smPut none m.images p.recId (some im)
      records := m.records ++ [r] } core i true
    let m := if u.lent && (getPart m (clusterOf core)).recallAt.isSome then unpinRecord m r else m
    let m := sweepAllocs ((List.range 4).foldl (fun m e => advance m core e) m) core
    if p.released.isSome then
      { m with
        recSeq := m.recSeq + 1
        records := m.records.map (fun y => if y.id = r.id then { y with ready := some m.recSeq } else y) }
    else m

/-- WEIR_COMPLETE (R251): all five acknowledgements are in, and the image is written; a unit that a cancel has reached ends
CANCELLED, and so do the commands that the weir stopped (R40). -/
def execWeirComplete (core ctx : Nat) (s : State) : Out :=
  whenRunning s (fun m =>
    let c := getCtx m core ctx
    match c.pre, c.unit with
    | some p, some u =>
      match p.slot, imageOf m p.recId with
      | some x, some im =>
        if p.stopped.isNone ∨ !p.saved ∨ p.acks ≠ 15 then m
        else if c.cancelled then beginEnd m core ctx .cancelled
        else if heldWrite m (whoOf m core ctx) (recordVa m c.area x.2) 64 then m
        else writePreRecord m core ctx c u p x im
      | _, _ => m
    | _, _ => m)

/-! ### Taking up a record (R24, R25, R255) -/

/-- A record fails the check (R24): it counts as ended, and its launch is cancelled and ends FAILED. -/
def failRecord (m : Mach) (r : Record) : Mach :=
  let m := hostEvent m r.unit.owner 3 0x19 r.part (r.launch % 2 ^ 32) r.va.toNat
  let m := modNode (endRecord m r true 0x19) r.launch (fun n => { n with badRecord := true })
  countOwed (settleNode (cancelNode m r.launch) r.launch 5)

/-- Pins return to LIVE with the rest of their life (R255); allocations without pins are restored expired (R256). -/
def unpinAllocs (k : Core) (i : Nat) (id now : Nat) (lost : List Alloc) : Core :=
  let k := { k with alloc := k.alloc.map (fun e =>
    (e.1, match e.2.pinned with
      | some r => if e.2.pinRec = id then { e.2 with pinned := none, ctx := i, exp := now + r } else e.2
      | none => e.2)) }
  lost.foldl (fun k a =>
    match allocSlot k with
    | some n => { k with alloc := smPut {} k.alloc n { a with pinned := none, ctx := i, exp := now, pinRec := 0 } }
    | none => k) k

/-- The engine context of a command in an issue queue. -/
def cmdEngine (a : Act) : Option Nat := match a.kind with | .cmd e .. => some e | _ => none

/-- Is there room in the engine queues for the remainders of commands, and for those that never left the issue queue (spec/12
R203)? -/
def restFits (k : Core) (rest : List (Nat × Cmd)) (iq : List Act) : Bool :=
  (List.range 4).all (fun e =>
    smGet 0 k.eiss e - smGet 0 k.etl e + (rest.filter (fun x => x.1 == e)).length
      + (iq.filter (fun a => cmdEngine a == some e)).length ≤ 32)

/-- Commands that never left the issue queue of a resumed context are issued again where they stand, behind the remainders
(R255): each has a new number. -/
def renumber (k : Core) : List Act → Core × List Act
  | [] => (k, [])
  | a :: as =>
    match cmdEngine a with
    | some e =>
      let n := smGet 0 k.eiss e + 1
      let (k, as) := renumber { k with eiss := smPut 0 k.eiss e n } as
      (k, { a with cmd := n } :: as)
    | none =>
      let (k, as) := renumber k as
      (k, a :: as)

/-- Renumber the commands in a context's issue queue. -/
def renumberActs (m : Mach) (core i : Nat) : Mach :=
  let (k, iq) := renumber (getCore m core) (getAgent m (ctxAgent core i)).iq
  modAgent (setCore m core k) (ctxAgent core i) (fun a => { a with iq := iq })

/-- Issue the remainders of commands again, in their old order (R255): they keep their place in program order, which fences
go by. -/
def reissue (m : Mach) (core i : Nat) (rest : List (Nat × Cmd)) : Mach :=
  rest.foldl (fun m e =>
    modCore m core (fun k =>
      let n := smGet 0 k.eiss e.1 + 1
      { k with
        eiss := smPut 0 k.eiss e.1 n
        cmds := smPut [] k.cmds e.1 (smGet [] k.cmds e.1 ++ [{ e.2 with num := n, ctx := i }]) })) m

/-- Write saved rows back (R255). -/
def restoreRows (k : Core) (rows : SMap (BitVec 1920 × BitVec 32)) : Core :=
  rows.foldl (fun k e => pokeRow k e.1 e.2.1 e.2.2) k

/-- Resume a unit from its image (R255): everything but the array, the remainders of its commands and the frame, which come
with the end of the restore. While another context holds the array that the image is to come back to, the context is
Stalled (spec/09 R178). -/
def restoreImage (m : Mach) (r : Record) (x core i : Nat) (info : UnitInfo) (im : Image) : Mach :=
  let base := unitStart m core info
  let m := modCore m core (fun k =>
    rename (markRows (restoreRows (unpinAllocs k i r.id m.nowt im.allocs) im.rows) i im.ctx.rowMark) im.orphan i)
  let old := orphanAgent r.home im.orphan
  let m := if core = r.home then renameActs m old (ctxAgent core i)
    else joinOwn (joinViews m core i (getAgent m old).view) core i (getAgent m old).own
  let c := { im.ctx with
    st := if im.arr.isSome ∧ (getCore m core).arr.holder.isSome then .stalled else .waiting
    wait := none, pre := none, hold := none, fill := none, flight := [], pend := [], gapcnt := 0, armMark := 0, retry := false
    slice := base.slice, hbudget := base.hbudget
    pc := BitVec.ofNat 32 ((BitVec.ofNat 64 (x % 2 ^ 64) - base.csb).toNat / 12)
    unitid := base.unitid, launchid := base.launchid, gidx0 := base.gidx0, gidx1 := base.gidx1, gidx2 := base.gidx2
    ownerReg := base.ownerReg, unit := some info, area := info.area, since := m.step, sliceStart := m.cycle
    cancelled := false, posted := none, restoring := some (r.id, r.frame)
    rowsKnown := if core = r.home then im.ctx.rowsKnown else im.ctx.rowMark }
  setCtx m core i c

/-- Resume a unit that b.susp suspended (Table 2-5). Of the LSAVE that the record carries, what the register reserves is
dropped (DEDUCED, log 78: R24 fails a record with a reserved field that is not zero, and Table 2-3 gives LSAVE whole). -/
def resumeCtx (m : Mach) (x core : Nat) (info : UnitInfo) : Ctx :=
  let f (o n : Nat) : Nat := x / 256 ^ o % 256 ^ n
  let base := unitStart m core info
  { base with
    pc := BitVec.ofNat 32 ((BitVec.ofNat 64 (f 0 8) - base.csb).toNat / 12)
    sregs := smPut {} (smPut {} [] 1 { val := BitVec.ofNat 64 (f 48 8) }) 63 { val := BitVec.ofNat 64 (f 8 8) }
    lsave := if f 56 1 / 2 % 2 = 1 then BitVec.ofNat 64 (f 58 4 % 128) else 0 }

/-- Resume a record whose bytes have passed the check; its slots are freed. -/
def resumeRecord (m : Mach) (r : Record) (x core : Nat) (repart : Bool) : Mach :=
  let f (o n : Nat) : Nat := x / 256 ^ o % 256 ^ n
  let l := (getNode m r.launch).lpb
  let (m, i) := prepareCore m core repart l r.unit.owner
  let here := unitInfo m core r.launch (f 20 4)
  let info := { r.unit with u := f 20 4, area := here.area, lent := here.lent, fwdpkt := here.fwdpkt, mirw := here.mirw, mbase := here.mbase }
  let im := imageOf m r.id
  let m := joinViews (dropRecord m r) core i (getNode m r.launch).views
  match im with
  | some im => { restoreImage m r x core i info im with images := smPut none m.images r.id (some { im with rel := r.rel }) }
  | none =>
    setCtx (info.orphans.foldl (fun m x => joinOwn m core i (getAgent m (orphanAgent x.1 x.2)).own) m) core i
      (resumeCtx m x core info)

/-- RECORD_TAKE_UP (R24, R54, R255): the owner under visit takes up a record next; one that another writer has changed fails
(spec/19 R268). -/
def execRecordTakeUp (s : State) : Out :=
  whenRunning s (fun m0 =>
    if m0.noPlace then m0
    else
      match serve m0 with
      | (m, some (.resumed r, core, repart)) =>
        let w : Who := { core := 18 * r.part, part := r.part, owner := r.unit.owner }
        match readVa m w r.va 64 with
        | .error _ => failRecord m r
        | .ok x => if x ≠ r.bytes ∨ recordBad m r.launch x then failRecord m r else resumeRecord m r x core repart
      | _ => m0)

/-- A context whose release was refused when its record resumed stays held with that frame (R247, R248): the host or the
control core may release it again. -/
def stayHeld (m : Mach) (core i : Nat) (va : Word) (h : Option Hold) : Mach :=
  modCtx m core i (fun c => { toWaiting c .held with
    hold := some { frame := va, cause := c.cause.setWidth 8, park := false, cc := (h.map (·.cc)).getD false } })

/-- The release of a parked unit's frame takes effect when the unit resumes (R248): the frame is read with the releaser's
translation and views. A refusal leaves the context held, and is reported where the host released it (R247); b.eret has
completed by then, so that nothing is raised (DEDUCED, log 108). -/
def applyRelease (m : Mach) (core i : Nat) (va : Word) (z : Releaser) (h : Option Hold) : Mach :=
  let w : Who := { core := z.core, part := z.part, owner := z.owner }
  match releaseFrame (setAgent m releaserAgent { view := z.view }) releaserAgent w core i va (afterEpc core i) with
  | .ok m => setAgent m releaserAgent {}
  | .error _ =>
    let m := stayHeld m core i va h
    match z.vf with
    | some v => report m v z.owner 4 0 0 va.toNat
    | none => m

/-- RESTORE_COMPLETE (R255, spec/09 R178, R248): the array state comes back once no other context holds the array, the
remainders of its commands are issued again once the engine queues take them; a parked unit takes its frame, or stays held
where that is refused; the context goes on. -/
def execRestoreComplete (core ctx : Nat) (s : State) : Out :=
  whenRunning s (fun m =>
    let c := getCtx m core ctx
    match c.restoring with
    | none => m
    | some (id, frame) =>
      match imageOf m id with
      | none => m
      | some im =>
        let k := getCore m core
        if im.arr.isSome ∧ k.arr.holder.isSome ∨ !(restFits k im.rest (getAgent m (ctxAgent core ctx)).iq) then m
        else
          let m := match im.arr with
            | some a => setCore m core { k with arr := { a with holder := some ctx } }
            | none => m
          let m := renumberActs (reissue { m with images := smDel m.images id } core ctx im.rest) core ctx
          let eiss := (getCore m core).eiss
          let m := modCtx m core ctx (fun c => { c with
            st := .ready, restoring := none, sliceStart := m.cycle, since := m.step
            mapE0 := im.ctx.lastCmd, mapH := (List.range 4).foldl (fun h e => smPut 0 h e (smGet 0 eiss e)) [] })
          if c.cancelled then beginEnd (stopCmds m core ctx true) core ctx .cancelled
          else
            match frame with
            | some va => applyRelease m core ctx va (im.rel.getD (releaserCtx m core ctx)) im.ctx.hold
            | none => m)

/-! ### Ends of units and handlers (R36, R38, R39, R244) -/

/-- The owner of a context's unit or handler, and the launch it belongs to. -/
def endedStatus (e : Ending) : Bool × Byte :=
  match e with
  | .failed c => (true, c)
  | _ => (false, 0)

/-- A unit's or handler's steps of R38 are done: its allocations are freed, but for one being freed that another context's
command still names (spec/08 R153), its context becomes Free or Dormant, and the unit is counted; the hive reports one that FAILED or was CANCELLED to its reduction groups (spec/14 R229). -/
def finishEnd (m : Mach) (core i : Nat) (e : Ending) : Mach :=
  let c := getCtx m core i
  let named (a : Alloc) : Bool := a.freeing && namedByCmd m core a.base (allocSpan a.nblk)
  let m := modCore m core (fun k => { k with
    alloc := k.alloc.filter (fun a => named a.2 || !(a.2.ctx == i && a.2.pinned.isNone)) })
  let m := freeCtx m core i false
  let m := if c.unit.isSome ∧ !c.arr ∧ e ≠ .ok then excludeUnit m c.area core else m
  match c.unit with
  | some u => if c.arr then m else countUnit (markRan m u.launch core) u.launch (endedStatus e).1 (endedStatus e).2
  | none => m

/-- b.susp is complete: its record is written and the context becomes Free; allocations stay until the outstanding
commands complete (R39), and what the wait was not for goes on under a number of its own. -/
def finishSusp (m : Mach) (core i : Nat) (c : Ctx) (u : UnitInfo) (z : Susp) : Mach :=
  match freeRecSlot m c.area with
  | none => m
  | some n =>
    let l := (getNode m u.launch).lpb
    let va := recordVa m c.area n
    let resume := c.csb + BitVec.ofNat 64 (12 * z.resume)
    let bytes := recordBytes resume z.frame u.launch u.u z.wkind z.wobj z.wval u.owner u.prio l.partw.toNat z.cs1 1 0
    if heldWrite m (whoOf m core i) va 64 then m else
    match writeVa m hiveAgent (whoOf m core i) va 64 bytes with
    | .error (cause, a) => areaRefused m core i cause a
    | .ok m =>
      let j := orphanNumber m i
      let r : Record :=
        { id := m.recSeq + 1, va := va, part := c.area, launch := u.launch, ready := none, home := core, homeCtx := i
          portable := true, withheld := false, slot := n, image := none, frame := none
          unit := { u with orphans := u.orphans ++ [(core, j)] }
          wkind := z.wkind, wobj := z.wobj, wval := z.wval, bytes := bytes }
      let m := modCore { m with
        tag := m.tag + 1, recSeq := m.recSeq + 1, records := m.records ++ [r] } core (fun k => rename k i j)
      let m := renameActs m (ctxAgent core i) (orphanAgent core j)
      let m := modPart m c.area (fun q => { q with recUsed := n :: q.recUsed })
      sweepAllocs (freeCtx (markRan m u.launch core) core i true) core

/-- UNIT_END (R22, R38, R39, R40, R244): the steps of R38, or of R39, are done, for what the unit left behind when it was
suspended or pre-empted as well. -/
def execUnitEnd (core ctx : Nat) (s : State) : Out :=
  whenRunning s (fun m =>
    let c := getCtx m core ctx
    let left := (c.unit.map (·.orphans)).getD []
    if c.st ≠ .waiting then m
    else
      match c.wait, c.ending, c.susp, c.unit with
      | some .ending, some e, _, _ =>
        if !(ctxQuiet m core ctx m.tag) ∨ ctxCmds (getCore m core) ctx ∨ restOpen m core ctx ∨ !(left.all (orphanDone m)) then m
        else finishEnd m core ctx e
      | some .susp, _, some z, some u =>
        if !(suspQuiet m core ctx m.tag) then m
        else if c.cancelled then beginEnd m core ctx .cancelled else finishSusp m core ctx c u z
      | _, _, _, _ => m)

/-! ### Jobs, phases and graphs (R50 to R52) -/

/-- Does a condition hold on result words (Table 3-4)? -/
def condHolds (res : List Nat) (x : Nat) : Bool :=
  let w : Word := BitVec.ofNat 64 (res.getD (x % 16) 0)
  let v : Word := (BitVec.ofNat 32 (x / 2 ^ 32)).signExtend 64
  match x / 16 % 8 with
  | 0 => true
  | 1 => w == v
  | 2 => w != v
  | 3 => BitVec.slt w v
  | 4 => !(BitVec.slt w v)
  | 5 => w &&& v != 0
  | 6 => w &&& v == 0
  | _ => false

/-- The sixteen result words of a job; words that can not be read count as 0 (DESIGN CHOICE, log 67). -/
def resultWords (m : Mach) (w : Who) (j : JobInfo) : List Nat :=
  match readVa m w j.res 128 with
  | .ok x => (List.range 16).map (fun i => x / 2 ^ (64 * i) % 2 ^ 64)
  | .error _ => []

/-- The bytes of a graph table entry or a node entry; one that can not be read counts as zeros (DESIGN CHOICE, log 67). -/
def entry32 (m : Mach) (w : Who) (va : Word) : Nat := match readVa m w va 32 with | .ok x => x | .error _ => 0

/-- The completion record of a node entry's launch is reset to PENDING (R51). -/
def resetNodeRec (m : Mach) (w : Who) (va : Word) : Mach :=
  match readVa m w (BitVec.ofNat 64 (entry32 m w va % 2 ^ 64) + 64) 8 with
  | .error _ => m
  | .ok crec => putRec m w (BitVec.ofNat 64 crec) 0

/-- Create a graph instance of a phase from its table entry (R51). -/
def createGraph (m : Mach) (w : Who) (owner phase x : Nat) : Mach :=
  let i := m.nodeSeq
  let nn := x / 256 ^ 24 % 256
  let g : GraphInfo := { ntab := BitVec.ofNat 64 x, nn := nn, considered := 0, skipped := 0, nodes := [] }
  let m := setNode { m with nodeSeq := i + 1 } i
    { live := true, level := 2, parent := some phase, owner := owner, recVa := BitVec.ofNat 64 (x / 256 ^ 8), total := nn, graph := some g }
  (List.range nn).foldl (fun m n => resetNodeRec m w (nodeEntryVa g n)) (writeRec m i)

/-- An evaluation (R51): the graph templates whose condition holds form the next phase, unless MAXPH phases have
run. -/
def evaluate (m : Mach) (job : Nat) : Mach :=
  let n := getNode m job
  match n.job with
  | none => m
  | some j =>
    let w := whoOwner m n.owner
    let res := resultWords m w j
    let xs := ((List.range j.ng).map (fun t => entry32 m w (j.gtab + BitVec.ofNat 64 (32 * t)))).filter
      (fun x => condHolds res (x / 256 ^ 16 % 2 ^ 64))
    if n.cancelled ∨ xs.isEmpty ∨ (j.maxph ≠ 0 ∧ j.maxph ≤ j.phases) then m
    else
      let ph := m.nodeSeq
      let m := bumpNode m job (fun n => { n with
        total := n.total + 1, job := some { j with phases := j.phases + 1, cur := some ph } })
      let m := setNode { m with nodeSeq := ph + 1 } ph
        { live := true, level := 3, parent := some job, owner := n.owner, recVa := j.phrec, total := xs.length }
      let m := writeRec m ph
      let m := xs.foldl (fun m x => createGraph m w n.owner ph x) m
      m

/-- PHASE_EVALUATION (R51): every graph of the phase in force is terminal. A phase without a FAILED graph is
followed by an evaluation, and then counts in the job. -/
def execPhaseEvaluation (job : Nat) (s : State) : Out :=
  whenRunning s (fun m =>
    let n := getNode m job
    match n.job with
    | none => m
    | some j =>
      match j.cur with
      | none => m
      | some ph =>
        let p := getNode m ph
        if !n.live ∨ nodeTerminal n ∨ !(nodeTerminal p) then m
        else
          let m := modNode m job (fun n => { n with job := some { j with cur := none } })
          let m := if p.childFailed then m else evaluate m job
          settleNode (bumpNode m job (fun n => countChild n (p.st == .failed) p.cause)) job 5)

/-- What became of a node of a graph instance: none while it runs, is it DONE? -/
def graphNodeDone (m : Mach) (g : GraphInfo) (n : Nat) : Option Bool :=
  if g.skipped.getLsbD n then some false
  else if !(g.considered.getLsbD n) then none
  else
    let i := smGet 0 g.nodes n
    if i = 0 then some false
    else if nodeTerminal (getNode m i) then some ((getNode m i).st == .done) else none

/-- NODE_CONSIDER (R52): once every predecessor is terminal, the node's launch is submitted, or it is skipped. A refused
one is reported with an event of KIND 1, as R47 says of a LAUNCH entry (DEDUCED, log 64). -/
def execNodeConsider (graph node : Nat) (s : State) : Out :=
  whenRunning s (fun m =>
    let gn := getNode m graph
    match gn.graph with
    | none => m
    | some g =>
      let w := whoOwner m gn.owner
      let x := entry32 m w (nodeEntryVa g node)
      let preds := (List.range node).filter (fun i => x / 256 ^ 8 / 2 ^ i % 2 == 1)
      let ends := preds.map (graphNodeDone m g)
      if !gn.live ∨ nodeTerminal gn ∨ g.nn ≤ node ∨ g.considered.getLsbD node ∨ ends.contains none then m
      else
        let job := jobOf m graph 5
        let res := match job.bind (fun j => (getNode m j).job) with | some j => resultWords m w j | none => []
        if ends.all (· == some true) && condHolds res (x / 256 ^ 16 % 2 ^ 64) then
          let mark (m : Mach) (i : Nat) : Mach := modNode m graph (fun n => { n with graph := n.graph.map (fun g => { g with
            considered := g.considered ||| BitVec.ofNat 32 (2 ^ node), nodes := smPut 0 g.nodes node i }) })
          match submitLaunch m w (BitVec.ofNat 64 (x % 2 ^ 64)) (some graph) false [] with
          | (m, .id i) => mark m i
          | (m, .refused c) =>
            let m := hostEvent m gn.owner 1 c.toNat w.part 0 (x % 2 ^ 64)
            settleNode (bumpNode (mark m 0) graph (fun n => countChild n true c)) graph 5
        else settleNode (skipGraphNode m graph node) graph 5)

/-! ### Handlers (R33, R201, R246, spec/12 R214, spec/20 R284) -/

/-- Where a handler's packet stands: the code section that contains it, and its packet there. -/
def handlerPlace (m : Mach) (p : Nat) (va : Word) : Word × Nat :=
  match (getPart m p).handlers.find? (fun h => h.1 == va) with
  | some (_, csb) => (csb, (va - csb).toNat / 12)
  | none => (va, 0)

/-- Spilled notices enter the queue again, before any newer one (R35), as they were spilled: the bytes in the overflow area are
not read back (DESIGN CHOICE, log 87: spec/12 R214 gives their layout and does not say who reads them). -/
def refill (k : Core) : Nat → Core
  | 0 => k
  | fuel + 1 =>
    match k.spilled with
    | n :: rest =>
      if k.notices.length < 32 then
        refill { k with notices := k.notices ++ [n], spilled := rest, arrived := k.arrived ++ n.payload } fuel
      else k
    | [] => k

/-- A handler's context as it starts (R33); on a control core as R284 and R246 say. -/
def handlerCtx (m : Mach) (core : Nat) (n : Notice) : Ctx :=
  let cl := clusterOf core
  let h : HSet := (getCore m core).hset.getD { maxgap := 0, prec0 := 0, prec1 := 0, prec2 := 0, prec3 := 0, owner := 0 }
  let owner := if isControl core then ((getPart m cl).owner).getD 0 else h.owner
  let area := if isControl core then cl else servingPart m core owner
  let (csb, pkt) := handlerPlace m area n.haddr
  let gap : Word := if isControl core then 0xFFFFFFFF else h.maxgap
  let r (k : Nat) (v : Word) (s : SMap Scalar) : SMap Scalar := smPut {} s k { val := v }
  { st := .ready, arr := true, pc := BitVec.ofNat 32 pkt
    sregs := match n.fwd with
      | some (a, b, c, _) => r 3 c (r 2 b (r 1 a []))
      | none => r 3 (BitVec.ofNat 64 n.src) (r 2 (BitVec.ofNat 64 n.len) (r 1 n.paddr []))
    csb := csb, maxgap := gap, gapLimit := gap
    prec0 := if isControl core then 0 else h.prec0, prec1 := if isControl core then 0 else h.prec1
    prec2 := if isControl core then 0 else h.prec2, prec3 := if isControl core then 0 else h.prec3
    ownerReg := ownerWord m core owner (!(isControl core) && (getPart m cl).lent && (getPart m cl).owner != some owner)
    area := area, since := m.step, sliceStart := m.cycle
    slice := BitVec.ofNat 64 (max (getPart m cl).slice (2 * saveMax (getCore m core).partw.toNat))
    hbudget := BitVec.ofNat 64 (getPart m cl).hbudget
    started := match n.fwd with | some (a, _, _, some (hc, hi)) => some (a, hc, hi) | _ => none }

/-- The lowest-numbered Dormant arrival context of a core. -/
def dormantCtx (k : Core) (control : Bool) : Option Nat :=
  (List.range 16).find? (fun i =>
    let c := smGet {} k.ctxs i
    if control then c.st == .free || c.st == .dormant else c.arr && c.st == .dormant)

/-- HANDLER_START (R33, R36): the notice at the head of the queue starts a Dormant arrival context; none starts on
a core that is being drained or recalled. Tile rows stay as they stand; one that nobody has written since PARTW was set reads as
a free value: DEDUCED (log 97), R33 is silent and R25 speaks of units. -/
def execHandlerStart (core : Nat) (s : State) : Out :=
  whenRunning s (fun m =>
    let k := getCore m core
    let stopped : Bool := !(isControl core) && (k.scan.draining || (getPart m (clusterOf core)).recallAt.isSome)
    match k.notices, dormantCtx k (isControl core) with
    | n :: rest, some i =>
      if stopped then m
      else
        let c := { handlerCtx m core n with rowsKnown := (smGet {} k.ctxs i).rowsKnown }
        let m := setCore m core (refill (setCtxOf { k with notices := rest } i c) 32)
        raiseViews m (ctxAgent core i) n.payload
    | _, _ => m)

/-- TRAP_REPLAY (R243): 256 cycles after the trap the bundle at EPC issues again, unless a cancel or a request of
pre-emption has reached the context, which stands at a stop point (R40, R250). -/
def execTrapReplay (core ctx : Nat) (s : State) : Out :=
  whenRunning s (fun m =>
    let c := getCtx m core ctx
    if c.st = .waiting ∧ c.wait = some .replay ∧ c.replayAt ≤ m.cycle ∧ !c.cancelled ∧ c.pre.isNone then
      setCtx m core ctx { c with st := .ready, wait := none }
    else m)

/-! ### Recalls (R59, R256, spec/19 R272) -/

/-- The compute cores of a cluster. -/
def clusterCores (p : Nat) : List Nat := (List.range 18).map (18 * p + ·)

/-- Do a core's handlers belong to a borrower of its cluster (R59)? Arrival contexts and notices have the owner of the launch
that set HCTX (DEDUCED, log 81). -/
def borrowed (m : Mach) (core : Nat) : Bool :=
  match (getCore m core).hset with
  | some h => (getPart m (clusterOf core)).owner != some h.owner
  | none => false

/-- The notices of a core are discarded. -/
def dropNotices (m : Mach) (core : Nat) : Mach := modCore m core (fun k => { k with notices := [], spilled := [] })

/-- The notices for borrowers' handlers on a cluster are discarded; the lender's own stay (R59). -/
def dropBorrowed (m : Mach) (p : Nat) : Mach := ((clusterCores p).filter (borrowed m)).foldl dropNotices m

/-- RECALL_HANDLER_KILL (R59): a borrower's handler that has not ended D − 18,192 cycles after the recall. -/
def execRecallHandlerKill (core ctx : Nat) (s : State) : Out :=
  whenRunning s (fun m =>
    let p := clusterOf core
    let q := getPart m p
    let c := getCtx m core ctx
    match q.recallAt with
    | none => m
    | some t =>
      if isControl core ∨ !c.arr ∨ !(borrowed m core) ∨ ctxEnded c ∨ m.cycle < t + (recallCycles q - 18192) then m
      else
        let m := dropBorrowed m p
        let m := hostEvent m (ctxOwner c) 3 0x28 p c.pc.toNat 0
        beginEnd (stopCmds m core ctx true) core ctx (.failed 0x28))

/-- Does a core hold no running context? -/
def coreIdle (k : Core) : Bool := k.ctxs.all (fun e => e.2.st == .free || e.2.st == .dormant)

/-- Zero a core's pool and tiles for a new user, as a write of PARTW does (R59, spec/19 R265, spec/08 R144); HCTX and
what its LPB gave are no longer set (R28). -/
def clearCore (m : Mach) (core : Nat) : Mach :=
  modCore (zeroPool m core) core (fun k => { k with
    ctxs := [], hctx := 0, hset := none, alloc := [], arr := {}, bars := [], barWrites := [] })

/-- RECALL_RETURN (R59): the weir has collected every core; the cluster is zeroed and returns to the lender, whose own notices
wait in their queues. -/
def execRecallReturn (part : Nat) (s : State) : Out :=
  whenRunning s (fun m =>
    let q := getPart m part
    let clear (c : Nat) : Bool := coreIdle (getCore m c) && (getCore m c).cmds.all (fun e => e.2.isEmpty) && !(m.restDue.any (fun x => x.1 == c))
      && !(m.agents.any (fun g => agentIsOrphan g.1 && agentCore g.1 == c && g.2.iq.any (fun a => isCmd a.kind)))
    if q.recallAt.isNone ∨ !((clusterCores part).all clear) then m
    else
      let m := (clusterCores part).foldl clearCore (dropBorrowed m part)
      let m := modPart m part (fun q => { q with lent := false, recallAt := none, lendto := 0 })
      match q.owner with
      | some o => hostEvent m o 7 0 part 0 0
      | none => m)

/-- USAGE_FORWARD (R60, spec/19 R273): the hive's counts go to the trust die's counters, which never decrease. -/
def execUsageForward (s : State) : Out :=
  .next (if s.m.phase ≠ .running then s else
    let t := s.m.owners.foldl (fun t e =>
      let u := smGet ({} : Usage) t e.1
      smPut {} t e.1 { cycles := u.cycles + e.2.cycles, beats := u.beats + e.2.beats
                       lentIn := u.lentIn + e.2.lentIn, lentOut := u.lentOut + e.2.lentOut }) s.trust.usage
    { s with
      m := { s.m with owners := s.m.owners.map (fun e => (e.1, { e.2 with cycles := 0, beats := 0, lentIn := 0, lentOut := 0 })) }
      trust := { s.trust with usage := t } })

/-! ### Sweeps (R253, spec/08 R154) -/

/-- PIN_RENEWAL (R253): the pinned ranges of a core are renewed once in every TRET/2 ticks. -/
def execPinRenewal (core : Nat) (s : State) : Out :=
  whenRunning s (fun m =>
    let k := getCore m core
    if !(k.alloc.any (fun e => e.2.pinned.isSome)) ∨ m.nowt < k.pinTick + tretOf m core / 2 then m
    else
      let pinned := (k.alloc.map (·.2)).filter (fun a => a.pinned.isSome)
      setCore m core { k with pinTick := m.nowt, renews := k.renews ++ pinned.map (fun a => (a.base, 64 * a.nblk, m.nowt)) })

/-- RILL_SWEEP (R154): frames and tiles are renewed once in every TRET/2 ticks, but while the pool is zeroed. -/
def execRillSweep (core : Nat) (s : State) : Out :=
  whenRunning s (fun m =>
    let k := getCore m core
    if k.zeroUntil.isSome ∨ isControl core ∨ m.nowt < k.rillTick + tretOf m core / 2 then m
    else setCore m core { k with rillTick := m.nowt, renews := k.renews ++ [(0, spbase k.partw, m.nowt)] })

end Sys2Proof.Machine
end

