-- ==== Sys2Proof/Machine/HostIf.lean ====
section
/-!
DEFINITION. The host: submission rings, register writes, the debug interface, PF0's settings, lending and recall,
host accesses to HBM (spec/03_hive_scheduler.md R44 to R47, spec/17_traps_preemption.md R247, R248, R257, R259
to R261, spec/19_system.md R264 to R272).
-/

namespace Sys2Proof.Machine

/-! ### Virtual functions and rings (R44, R45, R270, R271) -/

def getRing (m : Mach) (vf i : Nat) : Ring := smGet {} (getVf m vf).rings i
def setRing (m : Mach) (vf i : Nat) (r : Ring) : Mach :=
  setVf m vf { getVf m vf with rings := smPut {} (getVf m vf).rings i r }

/-- Does a number name a virtual function? -/
def isVf (vf : Nat) : Bool := 1 ≤ vf && vf ≤ 192

/-- An event of a virtual function that is bound to an owner; writes to an unbound one are ignored (R264). -/
def withVf (s : State) (vf : Nat) (f : Mach → Nat → Mach) : Out :=
  whenRunning s (fun m => if vf = 0 ∨ 193 ≤ vf then m else match (getVf m vf).owner with | some o => f m o | none => m)

/-- A submission of a virtual function. Before bring-up is done (R283), and while PF0 has not enabled the function, it is
refused, and reported through the management mailbox, since no owner's event ring is there to take the report: DEDUCED
(log 70). -/
def withSubmission (s : State) (vf : Nat) (f : Mach → Nat → Mach) : Out :=
  onMach s (fun m =>
    if !(isVf vf) then m
    else
      match m.phase, (getVf m vf).owner with
      | .running, some o => f m o
      | _, _ => { m with mailbox := m.mailbox ++ [(1, vf)] })

/-- Entries pending in a ring. -/
def pending (r : Ring) : Nat := (r.tail + 2 ^ r.size - r.head % 2 ^ r.size) % 2 ^ r.size

/-- Is the ring's size one that R45 allows? -/
def ringOk (r : Ring) : Bool := 4 ≤ r.size && r.size ≤ 16

/-- A write of TAIL (R45). On a ring whose RSIZE names no size of R45 it is ignored and reported as well: DESIGN CHOICE
(log 63), as is that such a ring is never consumed. -/
def writeTail (m : Mach) (vf i owner val : Nat) : Mach :=
  let r := getRing m vf i
  let new := val % 65536
  let r' : Ring := { r with tail := new }
  if 16 ≤ i then m
  else if !(ringOk r) || 2 ^ r.size ≤ new || pending r' < pending r then report m vf owner 4 0 i 0
  else setRing m vf i r'

/-- TAIL_WRITE. -/
def execTailWrite (vf ring : Nat) (val : W32) (s : State) : Out :=
  withSubmission s vf (fun m o => writeTail m vf ring o val.toNat)

/-- A write of RBASE or RSIZE takes effect only while the ring is empty (R271). -/
def writeRing (m : Mach) (vf i owner : Nat) (f : Ring → Ring) : Mach :=
  let r := getRing m vf i
  if 16 ≤ i then m else if r.head = r.tail then setRing m vf i (f r) else report m vf owner 4 0 i 0

def setBase (val : Word) (r : Ring) : Ring := { r with base := val &&& ~~~0xFFF }
def setSize (val : Nat) (r : Ring) : Ring := { r with size := val % 32 }

/-- RBASE_WRITE. -/
def execRbaseWrite (vf ring : Nat) (val : Word) (s : State) : Out :=
  withVf s vf (fun m o => writeRing m vf ring o (setBase val))

/-- RSIZE_WRITE. -/
def execRsizeWrite (vf ring : Nat) (val : W32) (s : State) : Out :=
  withVf s vf (fun m o => writeRing m vf ring o (setSize val.toNat))

/-- A read of the register at an offset of a virtual function's block (Table 19-3); offsets not listed read zero (R270).
Only a read of EQLOST changes anything: it clears the count. -/
def readVf (m : Mach) (vf owner off : Nat) : Word × Mach :=
  let f := getVf m vf
  let n (x : Nat) : Word × Mach := (BitVec.ofNat 64 x, m)
  if 0x100 ≤ off ∧ off < 0x300 then
    let r := getRing m vf ((off - 0x100) / 32)
    (match off % 32 with
     | 0 => (r.base, m)
     | 8 => n r.size
     | 12 => n r.tail
     | 16 => n r.head
     | _ => n 0)
  else if 0x800 ≤ off ∧ off < 0x840 ∧ off % 8 = 0 then (smGet 0 f.bp ((off - 0x800) / 8), m)
  else
    match off with
    | 0x000 => n (vf % 256 + owner % 256 * 256)
    | 0x400 => (f.eqbase, m)
    | 0x408 => n f.eqsize
    | 0x40C => n f.eqhead
    | 0x410 => n f.eqtail
    | 0x414 => (f.eqlost.setWidth 64, setVf m vf { f with eqlost := 0 })
    | 0x840 => (f.dctl.setWidth 64, m)
    | 0x848 => (f.dpost, m)
    | 0x850 => (f.release, m)
    | 0x858 => (f.dcatch, m)
    | _ => n 0

/-- EQLOST_READ (R270): the read answers the count, and clears it. -/
def execEqlostRead (vf : Nat) (s : State) : Out :=
  withVf s vf (fun m o =>
    let (x, m) := readVf m vf o 0x414
    sendMsg m (.host true false (x.setWidth 128)))

/-! ### Submission entries (R44 to R46) -/

/-- The VA of the entry at a ring's head. -/
def entryVa (r : Ring) : Word := r.base + BitVec.ofNat 64 (32 * (r.head % 2 ^ r.size))

def eOpc (x : Nat) : Nat := x % 256
def eArg (x : Nat) : Nat := x / 256 % 256
def eQid (x : Nat) : Nat := x / 65536 % 65536
def eA (x : Nat) : Word := BitVec.ofNat 64 (x / 2 ^ 64)
def eB (x : Nat) : Word := BitVec.ofNat 64 (x / 2 ^ 128)

/-- Has an entry a non-zero zero field, an OPC that is refused, or a level that is refused (R46)? -/
def entryBad (x : Nat) : Bool :=
  let opc := eOpc x
  opc == 0 || 7 ≤ opc
    || (match opc with
        | 5 => 64 ≤ eArg x
        | 6 => eArg x == 0 || 5 ≤ eArg x
        | _ => eArg x != 0)
    || (if opc == 3 || opc == 4 then 4096 ≤ eQid x else eQid x != 0)
    || x / 2 ^ 32 % 2 ^ 32 != 0 || (opc != 5 && eB x != 0) || x / 2 ^ 192 != 0

/-- The next entry of a ring, if its OPC is one of a list: the effect is applied, or the entry is refused and
reported; it is consumed (R45, R46). An effect answers the cause of a refusal; one that a MOVING page holds leaves the entry
in its ring (spec/08 R160). -/
def consumeUnless (s : State) (vf ring : Nat) (opcs : List Nat) (held : Mach → Nat → Nat → Bool)
    (f : Mach → Nat → Nat → Except Nat Mach) : Out :=
  withSubmission s vf (fun m o =>
    let r := getRing m vf ring
    if 16 ≤ ring ∨ !(ringOk r) ∨ pending r = 0 then m
    else
      let va := entryVa r
      let done (m : Mach) : Mach := setRing m vf ring { getRing m vf ring with head := (r.head + 1) % 2 ^ r.size }
      match readVa m (whoOwner m o) va 32 with
      | .error (c, _) => if opcs.contains 1 then done (report m vf o 1 c.toNat ring va.toNat) else m
      | .ok x =>
        let refused : Bool := eOpc x == 0 || 7 ≤ eOpc x
        if !(opcs.contains (eOpc x)) && !(refused && opcs.contains 1) then m
        else if entryBad x then done (report m vf o 1 0 ring va.toNat)
        else if held m o x then m
        else
          match f m o x with
          | .ok m => done m
          | .error c => done (report m vf o 1 c ring va.toNat))

def consume (s : State) (vf ring : Nat) (opcs : List Nat) (f : Mach → Nat → Nat → Except Nat Mach) : Out :=
  consumeUnless s vf ring opcs (fun _ _ _ => false) f

/-- LAUNCH (R46): refusals of the launch are reported too. An entry that can not be read, and one whose OPC is
refused, are consumed by this event. -/
def execLaunch (vf ring : Nat) (s : State) : Out :=
  consume s vf ring [1] (fun m o x =>
    match submitLaunch m (whoOwner m o) (eA x) none false (getAgent m hostAgent).own with
    | (m, .id _) => .ok m
    | (m, .refused c) => .ok (report m vf o 1 c.toNat ring (entryVa (getRing m vf ring)).toNat))

/-- Lies a structure of a job in pages without T, and is it aligned (R50)? -/
def jobPlace (m : Mach) (w : Who) (va : Word) (n : Nat) : Bool :=
  va.toNat % n == 0 && va.toNat / 2 ^ 60 < 14 && (match xlateNow m w va n accRead with | .ok _ _ tensor => !tensor | _ => false)

/-- A condition of op 111, or one with a reserved bit. -/
def condBad (x : Nat) : Bool := x / 16 % 8 == 7 || x / 128 % 2 ^ 25 != 0

/-- Is a node entry refused (R50)? -/
def nodeBad (m : Mach) (w : Who) (ntab : Word) (n : Nat) : Bool :=
  let va := ntab + BitVec.ofNat 64 (32 * n)
  let x := entry32 m w va
  !(jobPlace m w va 32) || x / 2 ^ 64 % 2 ^ 32 / 2 ^ n != 0 || x / 2 ^ 96 % 2 ^ 32 != 0 || condBad (x / 2 ^ 128 % 2 ^ 64)
    || x / 2 ^ 192 != 0

/-- Is a graph table entry refused (R50)? DEDUCED (log 66): also where GREC breaks the address rule of R20, which holds
for every completion record. -/
def graphBad (m : Mach) (w : Who) (va : Word) : Bool :=
  let x := entry32 m w va
  let nn := x / 2 ^ 192 % 256
  let ntab : Word := BitVec.ofNat 64 x
  !(jobPlace m w va 32) || nn == 0 || 32 < nn || x / 2 ^ 200 != 0 || condBad (x / 2 ^ 128 % 2 ^ 64)
    || !(recAddrOk m w (BitVec.ofNat 64 (x / 2 ^ 64))) || ntab.toNat % 32 != 0 || (List.range nn).any (nodeBad m w ntab)

/-- Is a job descriptor refused (R50)? DEDUCED (log 66): also where JREC or PHREC breaks the address rule of R20. -/
def jobBad (m : Mach) (w : Who) (va : Word) (x : Nat) : Bool :=
  let f (o n : Nat) : Nat := x / 256 ^ o % 256 ^ n
  let gtab : Word := BitVec.ofNat 64 (f 32 8)
  !(jobPlace m w va 64) || f 24 2 == 0 || 64 < f 24 2 || f 26 2 != 0 || f 40 24 != 0 || f 16 8 % 128 != 0
    || !(recAddrOk m w (BitVec.ofNat 64 (f 0 8))) || !(recAddrOk m w (BitVec.ofNat 64 (f 8 8))) || gtab.toNat % 32 != 0
    || (List.range (f 24 2)).any (fun t => graphBad m w (gtab + BitVec.ofNat 64 (32 * t)))

/-- JOB (R50, R51): the job starts, with its first evaluation; a refused one writes FAILED into JREC, and its entry is
reported with an event of KIND 1 (R46 for the entry, DEDUCED for the job: log 64). -/
def execJob (vf ring : Nat) (s : State) : Out :=
  consume s vf ring [2] (fun m o e =>
    let w := whoOwner m o
    match readVa m w (eA e) 64 with
    | .error (c, _) => .error c.toNat
    | .ok x =>
      let f (o n : Nat) : Nat := x / 256 ^ o % 256 ^ n
      if jobBad m w (eA e) x then
        .ok (report (refuseRec m w (BitVec.ofNat 64 (f 0 8)) 0x01) vf o 1 0x01 ring (entryVa (getRing m vf ring)).toNat)
      else
        let i := m.nodeSeq
        let j : JobInfo := { jrec := BitVec.ofNat 64 (f 0 8), phrec := BitVec.ofNat 64 (f 8 8), res := BitVec.ofNat 64 (f 16 8),
                             ng := f 24 2, maxph := f 28 4, gtab := BitVec.ofNat 64 (f 32 8), phases := 0 }
        let m := setNode { m with nodeSeq := i + 1 } i { live := true, level := 4, owner := o, recVa := j.jrec, job := some j }
        .ok (settleNode (evaluate (writeRec m i) i) i 5))

/-- PUSH and CLOSE: as b.push on a work queue of the owner (R46, Table 3-3). -/
def hostPush (m : Mach) (o x : Nat) (close : Bool) : Except Nat Mach :=
  if queueBad m o (BitVec.ofNat 64 (eQid x)) then .error 0x39
  else
    let q := getQueue m (eQid x)
    if q.closed ∨ q.depth ≤ q.entries.length then .ok m
    else .ok (setQueue m (eQid x) (if close then { q with closed := true } else { q with entries := q.entries ++ [eA x] }))

def execPush (vf ring : Nat) (s : State) : Out := consume s vf ring [3] (fun m o x => hostPush m o x false)
def execClose (vf ring : Nat) (s : State) : Out := consume s vf ring [4] (fun m o x => hostPush m o x true)

/-- The nodes of an owner with their record at an address, the newest first. -/
def nodesAt (m : Mach) (o : Nat) (va : Word) : List Nat :=
  ((m.nodes.filter (fun e => e.2.live && e.2.owner == o && e.2.recVa == va)).map (·.1)).reverse

/-- The job that a POST entry names: the newest of the owner with its record at B. -/
def postJob (m : Mach) (o x : Nat) : Option Nat := (nodesAt m o (eB x)).find? (fun i => (getNode m i).job.isSome)

/-- POST (R46). -/
def execPost (vf ring : Nat) (s : State) : Out :=
  consumeUnless s vf ring [5] (fun m o x => match postJob m o x with | some j => postHeld m j (eArg x % 16) | none => false)
    (fun m o x =>
      match postJob m o x with
      | some j => .ok (applyPost m j (eArg x % 16) (eArg x / 16 % 4) (eA x))
      | none => .error 0)

/-- The record of the launch of a graph's node entry: CREC of its LPB; none where these can not be read. -/
def nodeRecVa (m : Mach) (w : Who) (g : GraphInfo) (n : Nat) : Option Word :=
  match readVa m w (nodeEntryVa g n) 8 with
  | .error _ => none
  | .ok lpb =>
    match readVa m w (BitVec.ofNat 64 lpb + 64) 8 with
    | .error _ => none
    | .ok crec => some (BitVec.ofNat 64 crec)

/-- The node of a running graph instance of an owner that has not been considered and whose launch's record, PENDING since
the phase was formed (R51), stands at an address: graph and number. -/
def pendingNode (m : Mach) (o : Nat) (va : Word) : Option (Nat × Nat) :=
  m.nodes.findSome? (fun e =>
    match e.2.graph with
    | some g =>
      if !e.2.live || nodeTerminal e.2 || e.2.owner != o then none
      else ((List.range g.nn).find? (fun n => !(g.considered.getLsbD n) && nodeRecVa m (whoOwner m o) g n == some va)).map
        (fun n => (e.1, n))
    | none => none)

/-- Cancel a graph's node whose launch has not been submitted: it never is, and counts as ended (R40, R52). -/
def cancelPending (m : Mach) (graph n : Nat) : Mach := settleNode (skipGraphNode m graph n) graph 5

/-- CANCEL (R40, R46): the node whose record is at A: of several, one of the level named that is not terminal, or else a node
of a graph that is still to be considered (DEDUCED, log 30). -/
def execCancel (vf ring : Nat) (s : State) : Out :=
  consume s vf ring [6] (fun m o x =>
    let ns := nodesAt m o (eA x)
    let named := ns.filter (fun i => (getNode m i).level == eArg x)
    match named.find? (fun i => !(nodeTerminal (getNode m i))), pendingNode m o (eA x) with
    | some i, _ => .ok (cancelNode m i)
    | none, some (g, n) => .ok (cancelPending m g n)
    | none, none =>
      match named.head?.or ns.head? with
      | some i => .ok (cancelNode m i)
      | none => .error 0)

/-! ### The debug interface (spec/17 R257, spec/18 R259 to R261) -/

/-- DCTL names a compute core of the function's owner. -/
def dctlCore (f : Vf) : Nat := f.dctl.toNat % 2048

/-- SINGLE_STEP: the step mask of a core (R257). -/
def setStep (m : Mach) (vf o : Nat) (val : W32) : Mach :=
  let f := { getVf m vf with dctl := (getVf m vf).dctl &&& 0x08000000 ||| val &&& 0x07FFFFFF }
  let m := setVf m vf f
  if coreOfOwner m (dctlCore f) o then modCore m (dctlCore f) (fun k => { k with stepMask := BitVec.ofNat 16 (val.toNat / 2 ^ 11) })
  else m

def execSingleStep (vf : Nat) (val : W32) (s : State) : Out := withVf s vf (fun m o => setStep m vf o val)

/-- ENGINE_FREEZE (R257). -/
def setFreeze (m : Mach) (vf o : Nat) (val : W32) : Mach :=
  let f := { getVf m vf with dctl := (getVf m vf).dctl &&& 0x07FFF800 ||| val &&& 0x080007FF }
  let m := setVf m vf f
  if coreOfOwner m (dctlCore f) o then modCore m (dctlCore f) (fun k => { k with freeze := val.getLsbD 27 }) else m

def execEngineFreeze (vf : Nat) (val : W32) (s : State) : Out := withVf s vf (fun m o => setFreeze m vf o val)

/-- A write of DPOST (R259): the context of the core that DCTL names. -/
def writeDpost (m : Mach) (vf o : Nat) (val : Word) (now : Bool) : Mach :=
  let m := setVf m vf { getVf m vf with dpost := val }
  let core := dctlCore (getVf m vf)
  let i := val.toNat % 16
  if !(coreOfOwner m core o) then m
  else if now then (if val.getLsbD 4 then postedEnd m core i else m)
  else if !(val.getLsbD 5) then m
  else if 1 ≤ pclassOf (getCtx m core i) then report m vf o 4 0 0 0
  else if (getCtx m core i).unit.isNone then m
  else modCtx m core i (fun c => { c with posted := some (val.toNat / 64 % 4, val.toNat / 65536) })

def execPostSliceEndNow (vf : Nat) (val : Word) (s : State) : Out := withVf s vf (fun m o => writeDpost m vf o val true)
def execPostSliceEndAtEiss (vf : Nat) (val : Word) (s : State) : Out := withVf s vf (fun m o => writeDpost m vf o val false)

/-- The contexts that hold a frame for an owner: core, context. -/
def holders (m : Mach) (o : Nat) (va : Word) : List (Nat × Nat) :=
  (m.cores.map (fun e => (e.2.ctxs.filter (fun x => holdsFrame x.2 va && ctxOwner x.2 == o)).map (fun x => (e.1, x.1)))).flatten

/-- The host, through a virtual function, as the releaser of the frame of a unit of a partition. -/
def releaserHost (m : Mach) (vf o core part : Nat) : Releaser :=
  { core := core, part := part, owner := o, view := (getAgent m hostAgent).view, vf := some vf }

/-- RELEASE (R247, R248): a held context is reloaded from its frame, a parked record becomes ready. Of several contexts of
the owner held with a frame at the address, in partitions with one RECAREA, it is the one of the lowest core and context:
DEDUCED (log 88), the spec names none. -/
def writeRelease (m : Mach) (vf o : Nat) (val : Word) : Mach :=
  let va := val &&& ~~~63
  let m := setVf m vf { getVf m vf with release := va }
  let bad := report m vf o 4 0 0 va.toNat
  match holders m o va with
  | (core, i) :: _ =>
    if (getCtx m core i).pre.isSome then readyParked m va (releaserHost m vf o core (whoOf m core i).part) (fun _ _ x => x == o)
    else
      (match releaseFrame m hostAgent { whoOf m core i with owner := o } core i va (afterEpc core i) with
       | .ok m => m
       | .error _ => bad)
  | [] =>
    match m.records.find? (fun r => r.frame == some va && r.unit.owner == o && r.ready.isNone) with
    | some r => readyParked m va (releaserHost m vf o r.home r.part) (fun _ _ x => x == o)
    | none => bad

def execRelease (vf : Nat) (va : Word) (s : State) : Out := withVf s vf (fun m o => writeRelease m vf o va)

/-- CATCH (R261): pre-emption records of a partition's launches are withheld: of the units that it serves, on a cluster lent to
its owner too. -/
def writeCatch (m : Mach) (vf o : Nat) (val : Word) : Mach :=
  let m := setVf m vf { getVf m vf with dcatch := val &&& 0x13F }
  let p := val.toNat % 64
  if (getPart m p).owner = some o then modPart m p (fun q => { q with catching := val.getLsbD 8 }) else m

/-- GO (R261): every withheld record of the owner is released. -/
def writeGo (m : Mach) (o : Nat) (val : Word) : Mach :=
  if val.getLsbD 9 then
    { m with records := m.records.map (fun r => if r.unit.owner = o then { r with withheld := false } else r) }
  else m

/-- The saved image of a withheld record of an owner, which the debugger's reads answer from (R261). -/
def savedImage (m : Mach) (o id : Nat) : Option Image :=
  if m.records.any (fun r => r.id == id && r.withheld && r.unit.owner == o) then imageOf m id else none

/-- What the debugger reads of a withheld record (R261): a scalar register, LSAVE, a tile row that the image holds. -/
def savedScalar (m : Mach) (o id n : Nat) : Option Word :=
  (savedImage m o id).map (fun im => if n = 0 then 0 else (smGet {} im.ctx.sregs n).val)
def savedLoop (m : Mach) (o id : Nat) : Option Word := (savedImage m o id).map (fun im => im.ctx.lsave)
def savedRow (m : Mach) (o id key : Nat) : Option (BitVec 1920 × BitVec 32) :=
  (savedImage m o id).map (fun im => smGet (0, 0) im.rows key)

def execCatchRecords (vf : Nat) (val : Word) (s : State) : Out := withVf s vf (fun m o => writeCatch m vf o val)
def execGo (vf : Nat) (val : Word) (s : State) : Out := withVf s vf (fun m o => writeGo m o val)

/-! ### Register writes (R242, R266, R269, R270, spec/14 R217) -/

/-- A write into the register block of a virtual function (Table 19-3); the rest of the block ignores writes. -/
def writeVf (m : Mach) (vf o off : Nat) (val : Word) : Mach :=
  let f := getVf m vf
  let lo : W32 := val.setWidth 32
  if 0x100 ≤ off ∧ off < 0x300 then
    let i := (off - 0x100) / 32
    (match off % 32 with
     | 0 => writeRing m vf i o (setBase val)
     | 8 => writeRing m vf i o (setSize val.toNat)
     | 12 => writeTail m vf i o val.toNat
     | _ => m)
  else if 0x800 ≤ off ∧ off < 0x840 ∧ off % 8 = 0 then
    setVf m vf { f with bp := smPut 0 f.bp ((off - 0x800) / 8) (val &&& 0x33FFFFFFFFF) }
  else
    match off with
    | 0x400 => setVf m vf { f with eqbase := val &&& ~~~0xFFF }
    | 0x408 => setVf m vf { f with eqsize := val.toNat % 32 }
    | 0x40C => setVf m vf { f with eqhead := val.toNat % 65536 }
    | 0x840 => setFreeze (setStep m vf o lo) vf o lo
    | 0x848 => writeDpost (writeDpost m vf o val true) vf o val false
    | 0x850 => writeRelease m vf o val
    | 0x858 => writeGo (writeCatch m vf o val) o val
    | _ => m

/-- The partition is recalled: borrower images lose their pins (spec/17 R256). -/
def startRecall (m : Mach) (part : Nat) : Mach :=
  let m := modPart m part (fun q => { q with recallAt := some m.cycle })
  (m.records.filter (fun r => r.unit.lent && clusterOf r.home == part)).foldl unpinRecord m

/-- A write of PF0 into 64 bits of LENDTO (R266, Table 19-1). A partition that is lent is recalled when the mask becomes
zero (R272), and a recall under way is not changed; the mask itself does not lend: that is its owner's act (R272). DEDUCED
(log 77). -/
def writeLendto (m : Mach) (p i : Nat) (val : Word) : Mach :=
  let q := getPart m p
  let old := q.lendto.toNat
  let mask : BitVec 256 := BitVec.ofNat 256 (old - old / 2 ^ (64 * i) % 2 ^ 64 * 2 ^ (64 * i) + val.toNat * 2 ^ (64 * i))
  if 64 ≤ p ∨ 4 ≤ i ∨ q.recallAt.isSome then m
  else if q.lent ∧ mask = 0 then startRecall m p
  else setPart m p { q with lendto := mask }

/-- A setting of a partition (Table 19-1): a value outside its range is ignored; RECALL while the partition is
lent too (R266). -/
def writeSetting (m : Mach) (p : Nat) (x : Setting) (val : Word) : Mach :=
  let v := val.toNat
  let q := getPart m p
  let put (ok : Bool) (q : Part) : Mach := if ok && p < 64 then setPart m p q else m
  match x with
  | .slice => put (1 ≤ v && v < 2 ^ 32) { q with slice := v }
  | .hbudget => put (v < 256) { q with hbudget := v }
  | .recall => put (200 ≤ v && v ≤ 1000 && !q.lent) { q with recallTmo := v }
  | .gangto => put (1 ≤ v && v < 2 ^ 32) { q with gangto := v }
  | .gangset => put true { q with gangset := val }
  | .gangcnt => put (v ≤ 64) { q with gangcnt := v }
  | .mirw => put true { q with mirw := if v < 4096 then some v else none }
  | .mbase => put true { q with mbase := v }
  | .sigreq => put (v ≤ 1) { q with sigreq := v == 1 }
  | .fwdpkt => put true { q with fwdpkt := val }

def writeReg (m : Mach) (r : HostReg) (val : Word) : Mach :=
  let v := val.toNat
  match r with
  | .vf vf off => if vf = 0 ∨ 193 ≤ vf then m else match (getVf m vf).owner with | some o => writeVf m vf o off val | none => m
  | .part p x => writeSetting m p x val
  | .lendto p i => writeLendto m p i val
  | .weight o => if o < 256 ∧ v < 256 then setOwnerOf m o { getOwner m o with weight := v } else m
  | .cls o => if o < 256 ∧ v < 4 then setOwnerOf m o { getOwner m o with cls := v } else m
  | .action p c =>
    if p < 64 ∧ c < 256 then modPart m p (fun q => { q with actions := smPut none q.actions c (some (val.setWidth 32)) }) else m
  | .bind vf =>
    if vf = 0 ∨ 193 ≤ vf ∨ 257 ≤ v then m else setVf m vf { getVf m vf with owner := if v < 256 then some v else none }
  | .fabricNumber => { m with number := v % 65536 }
  | .hdmBase i => if i < 8 then { m with hdms := smPut {} m.hdms i { smGet {} m.hdms i with base := v } } else m
  | .hdmSize i => if i < 8 then { m with hdms := smPut {} m.hdms i { smGet {} m.hdms i with size := v } } else m
  | .hdmOwner i => if i < 8 ∧ v < 256 then { m with hdms := smPut {} m.hdms i { smGet {} m.hdms i with owner := v } } else m

/-- The virtual function whose TAIL a register is: its writes are submissions (R45, R283). -/
def tailVf (r : HostReg) : Option Nat :=
  match r with
  | .vf vf off => if 0x100 ≤ off ∧ off < 0x300 ∧ off % 32 = 12 then some vf else none
  | _ => none

/-- REGISTER_WRITE. -/
def execRegisterWrite (r : HostReg) (val : Word) (s : State) : Out :=
  match tailVf r with
  | some vf => withSubmission s vf (fun m _ => writeReg m r val)
  | none => whenRunning s (fun m => writeReg m r val)

/-! ### Partitions (R264 to R266, R268) -/

/-- Every translation of a partition is discarded (spec/08 R161). -/
def invalAll (m : Mach) (part : Nat) : Mach :=
  { m with invals := m.invals ++ [{ part := part, win := false, page := 0, all := true, acks := 0 }] }

/-- SET_ROOT (R266). -/
def execSetRoot (part : Nat) (pa : Word) (s : State) : Out :=
  whenRunning s (fun m =>
    if 64 ≤ part ∨ pa.toNat % 32768 ≠ 0 then m else invalAll (modPart m part (fun q => { q with root := pa.toNat })) part)

/-- Does a partition hold a unit, a handler or a continuation record? A handler may run on its control core too. -/
def partBusy (m : Mach) (p : Nat) : Bool :=
  !((partCores p).all (fun c => coreIdle (getCore m c))) || m.records.any (fun r => r.part == p || clusterOf r.home == p)

/-- Does an owner hold a queue entry? -/
def ownerQueued (m : Mach) (o : Option Nat) : Bool :=
  match o with
  | some o => m.queues.any (fun e => e.2.owner == o && !e.2.entries.isEmpty)
  | none => false

/-- The leaf entries of a partition's page tables: the entry's address, its value, its level. -/
def leavesFrom (m : Mach) (table level : Nat) : Nat → List (Nat × Nat × Nat)
  | 0 => []
  | fuel + 1 =>
    ((List.range (if level = 0 then 4096 else 512)).map (fun i =>
      let pa := table + 8 * i
      let raw := readNat m.mem pa 8
      if 0x8000000000 ≤ pa ∨ granBad m (pa / 16 * 16) ∨ !(pteBit raw 0) ∨ pteMalformed raw level then []
      else if pteBit raw 1 then [(pa, raw, level)]
      else leavesFrom m (raw / 2 ^ 22 % 2 ^ 40 * 4096) (level + 1) fuel)).flatten

def partLeaves (m : Mach) (p : Nat) : List (Nat × Nat × Nat) :=
  if (getPart m p).root = 0 then [] else leavesFrom m (getPart m p).root 0 5

/-- Zero what is there of a frame (spec/01 R12): every history position of its granules reads zero (R265); a write of whole
granules clears their marks (R278). -/
def zeroFrame (m : Mach) (pa size : Nat) : Mach :=
  let inside (g : Nat) : Bool := pa ≤ g && g < pa + size && targetOf m g != .none
  let hs : List Nat := m.hist.map (fun e => e.1)
  let ms : List Nat := m.mem.map (fun c => c.1 / 16 * 16)
  let gs := (hs ++ ms).filter inside
  let m : Mach := gs.eraseDups.foldl (fun m g => commitWrite m hiveAgent g 0xFFFF 0) m
  { m with
    hist := m.hist.map (fun e => if inside e.1 then (e.1, e.2.map (fun h => { h with before := 0 })) else e)
    poisoned := m.poisoned.filter (fun g => !(inside g)) }

/-- The pages of a former owner: zeroed, then their leaves name the new one, or are invalid (R265). -/
def passPages (m : Mach) (p old : Nat) (new : Option Nat) : Mach :=
  (partLeaves m p).foldl (fun m e =>
    let (pte, raw, level) := e
    if raw / 2 ^ 8 % 256 ≠ old then m
    else
      let m := zeroFrame m (leafPa raw) (2 ^ pageShift level)
      let rest := raw - old * 2 ^ 8
      commitNat m hiveAgent pte 8 (match new with | some o => rest + o * 2 ^ 8 | none => rest - 1)) m

/-- The memory-encryption key of a partition: each generation of the trust die has a number (R281), which the memory
controllers have too; what a read under another key gives is a free value (log 75). -/
def memKey (t : Trust) (part : Nat) : Option Nat :=
  match smGet 0 t.memKeys part with
  | 0 => none
  | n => some (Config.freshKey n)

/-- A new memory-encryption key for a partition (R265, R281). -/
def renewKey (t : Trust) (part : Nat) : Trust :=
  { t with memKeys := smPut 0 t.memKeys part (t.keySeq + 1), keySeq := t.keySeq + 1 }

/-- SET_OWNER (R264, R265): refused unless nothing of the former owner is left; pools, tiles and pages are zeroed, start
notices are discarded, the action table returns to its defaults, the memory-encryption key is replaced. The control core's
local memory is zeroed too: DESIGN CHOICE (log 80), R265 names pools and tiles alone. -/
def execSetOwner (part : Nat) (owner : Option Byte) (s : State) : Out :=
  .next (
    let m := s.m
    let q := getPart m part
    let new := owner.map (·.toNat)
    if m.phase ≠ .running ∨ 64 ≤ part ∨ new = q.owner then s
    else if partBusy m part ∨ ownerQueued m q.owner ∨ (partCores part).any (fun c => (getCore m c).alloc.any (fun e => e.2.used)) then
      { s with m := pf0Event m 4 part 0 }
    else
      let m := (partCores part).foldl (fun m c => clearCore (dropNotices m c) c) m
      let m := match q.owner with
        | some old => passPages m part old new
        | none => m
      let m := modPart m part (fun q => { q with owner := new, actions := [], lendto := 0, lent := false, recallAt := none, catching := false })
      let t := renewKey s.trust part
      { m := { invalAll m part with memGen := t.memKeys }, trust := t })

/-- SET_RECAREA (R268): only while the partition holds no unit, handler, record or queue entry. -/
def execSetRecarea (part : Nat) (va : Word) (imgcnt reccnt : Nat) (s : State) : Out :=
  whenRunning s (fun m =>
    if 64 ≤ part then m
    else if partBusy m part || ownerQueued m (getPart m part).owner || va.toNat % 65536 != 0 || 14 ≤ va.toNat / 2 ^ 60
        || imgcnt < 288 || 4096 < imgcnt || reccnt < 1024 || 2 ^ 20 < reccnt then pf0Event m 4 part 0
    else modPart m part (fun q => { q with recarea := some va, imgcnt := imgcnt, reccnt := reccnt }))

/-! ### Lending and recall (R272, spec/03 R59) -/

/-- Does a cluster run a unit of an owner? -/
def runsUnitOf (m : Mach) (p o : Nat) : Bool :=
  (clusterCores p).any (fun c => (getCore m c).ctxs.any (fun e =>
    e.2.st != .free && (match e.2.unit with | some u => u.owner == o | none => false)))

/-- RECALL (R59, R272): a recall under way is not changed by another. -/
def execRecallLend (vf part : Nat) (s : State) : Out :=
  withVf s vf (fun m o =>
    let q := getPart m part
    if q.owner = some o ∧ q.lent ∧ q.recallAt.isNone then startRecall m part else m)

/-- LEND (R272): a non-zero LENDTO, while the partition holds no unit of its owner; zero recalls it. -/
def execLend (vf part : Nat) (mask : BitVec 256) (s : State) : Out :=
  withVf s vf (fun m o =>
    let q := getPart m part
    if q.owner ≠ some o then m
    else if mask = 0 then (if q.lent ∧ q.recallAt.isNone then startRecall m part else m)
    else if q.recallAt.isSome ∨ runsUnitOf m part o then report m vf o 4 0 0 0
    else setPart m part { q with lendto := mask, lent := true })

/-! ### Host accesses to memory (R269, R12, spec/11 R202) -/

/-- The owner of the page that maps a physical address, in the partitions' tables. -/
def paOwner (m : Mach) (pa : Nat) : Option Nat :=
  (m.parts.map (fun e => partLeaves m e.1)).flatten.findSome? (fun l =>
    let (_, raw, level) := l
    if leafPa raw ≤ pa ∧ pa < leafPa raw + 2 ^ pageShift level then some (raw / 2 ^ 8 % 256) else none)

/-- Does a host access complete: inside its HDM range, in HBM, not a page of another owner? -/
def hostReaches (m : Mach) (h pa size : Nat) : Bool :=
  let r := smGet {} m.hdms h
  h < 8 && r.base ≤ pa && pa + size ≤ r.base + r.size && pa + size ≤ 0x8000000000
    && (match paOwner m pa with | some o => o == r.owner | none => true)

/-- Is a byte range part of a pinned allocation of a record that is withheld (spec/18 R261)? -/
def withheldPin (m : Mach) (core off size : Nat) : Bool :=
  (getCore m core).alloc.any (fun e => e.2.used && e.2.pinned.isSome && e.2.base ≤ off && off + size ≤ e.2.base + 64 * e.2.nblk
    && m.records.any (fun r => r.withheld && r.id == e.2.pinRec))

/-- Does a host read of a pool complete (R202, spec/10 R181): a pool of a partition of the range's owner, checked under R151
with NOWT at the read, but for pinned ranges of a withheld record (spec/18 R261)? DESIGN CHOICE (log 72): the HDM range
names the owner that reads, and a refused read is answered with unsupported-request. -/
def hostReadsPool (m : Mach) (h pa size : Nat) : Bool :=
  match targetOf m pa with
  | .pool core =>
    h < 8 && !(isControl core) && (getPart m (clusterOf core)).owner == some (smGet {} m.hdms h).owner
      && (withheldPin m core (poolOff pa) size || (poolRefuses m pa size true).isNone)
  | _ => false

/-- An access of at most 16 bytes at a multiple of its size. -/
def hostSize (pa size : Nat) : Bool := [1, 2, 4, 8, 16].contains size && pa % size == 0

/-- HOST_MEM_READ (R202): binds under R188 with the host's views; of a pool under R187, at a port with nothing before it. -/
def execHostMemRead (hdm pa size pos : Nat) (s : State) : Out :=
  whenRunning s (fun m =>
    let g := pa / 16 * 16
    if !(hostSize pa size) then m
    else if poolBase ≤ pa then
      if !((poolOf m pa).all (fun c => (getCore m c).port.isEmpty)) then m
      else if hostReadsPool m hdm pa size then sendMsg m (.host true false (BitVec.ofNat 128 (readNow m pa size)))
      else sendMsg m (.host false false 0)
    else if !(hostReaches m hdm pa size) then sendMsg m (.host false false 0)
    else if granBad m g then sendMsg m (.host true true 0)
    else if !(posOk m hostAgent g pos) then m
    else sendMsg (raiseView m hostAgent g pos) (.host true false (BitVec.ofNat 128 (granBytes (contentAt m g pos) (pa % 16) size))))

/-- HOST_MEM_WRITE (R202): one history entry; a frozen frame holds it (spec/08 R160). -/
def execHostMemWrite (hdm pa size : Nat) (data : Gran) (s : State) : Out :=
  whenRunning s (fun m =>
    if !(hostSize pa size) then m
    else if !(hostReaches m hdm pa size) then sendMsg m (.host false false 0)
    else if frozenPa m pa size then m
    else sendMsg (commitNat m hostAgent pa size (data.toNat % 256 ^ size)) (.host true false 0))

end Sys2Proof.Machine
end

