-- ==== Sys2Proof/Machine/Trust.lean ====
section
/-!
DEFINITION. The trust die and the guards of the part: reset and bring-up, keys, the SPDM responder, the rotation
scan, harvesting, wear, scrubbing, spares, alarms (spec/01_package.md R16, R17, spec/19_system.md R273 to R283).
-/

namespace Sys2Proof.Machine

/-! ### Reset and bring-up (R16, R283) -/

/-- Is a site a pool bank of a core? -/
def isBankOf (c : Nat) (x : ErrSite) : Bool := match x with | .bank d _ => d == c | _ => false

/-- A compute core after bring-up: its pool and tiles are zero, PARTW is 0, one scan pass has passed; the spare banks in
use are those of the store (spec/19 Table 19-8). -/
def coreUp (t : Trust) (c : Nat) : Core := { scanPasses := 1, spareBanks := (t.retirements.filter (isBankOf c)).length }

/-- The machine after bring-up: what the trust die's store says of dies, cores and ports stands, and the memory controllers
have the partitions' keys. -/
def broughtUp (m : Mach) (t : Trust) : Mach :=
  { phase := .running, trims := t.trims, memGen := t.memKeys, cores := (List.range 1152).map (fun c => (c, coreUp t c))
    clusters := (List.range 64).map (fun c => (c, { scanStart := some 0 })), tret := m.tret, retired := m.retired
    links := ((List.range 64).filter (fun p => t.portFails.getLsbD p)).map (fun p => (p, { down := true }))
    portsDown := m.portsDown, fillTable := m.fillTable, sched := m.sched, fresh := m.fresh }

/-- What a package keeps while it is out of service: what the store says, and what is not its own. -/
def outOfService (m : Mach) : Mach :=
  { tret := m.tret, retired := m.retired, portsDown := m.portsDown, fillTable := m.fillTable, sched := m.sched, fresh := m.fresh }

/-- Does a die pass its check (R16): is its firmware image's SHAKE256 digest the measurement that the store expects, and does
the Falcon-1024 signature hold under the maker's key? That the expected measurement and the key are of the store is PRESUMED
(log 8). -/
def dieChecks (t : Trust) (d : Nat) : Bool :=
  let digest := Config.shake256 (smGet [] t.firmware d)
  digest == smGet 0 t.expected d && Config.falconVerify t.makerKey digest (smGet 0 t.signatures d)

/-- The dies that pass, a bit each: the switch die and compute dies 0 to 3. -/
def diesOk (t : Trust) : BitVec 5 :=
  BitVec.ofNat 5 ((List.range 5).foldl (fun a d => if dieChecks t d then a + 2 ^ d else a) 0)

/-- PACKAGE_RESET (R16): the dies are checked, switch die first; all five are released, or none. A failure is reported through
the mailbox and the SPDM responder (logs 38, 73). A partition has its key from then on (R281). -/
def execPackageReset (s : State) : Out :=
  .next (
    let t := { s.trust with alarm := none, spdm := 0, session := false, responses := [], dieOk := diesOk s.trust }
    if t.dieOk = 31 then
      let t := (List.range 64).foldl renewKey { t with released := true, reports := [] }
      { m := broughtUp s.m t, trust := t }
    else
      let bad := (List.range 5).filter (fun d => !(t.dieOk.getLsbD d))
      let m : Mach := { outOfService s.m with phase := .failed, trims := t.trims, mailbox := bad.map (fun d => (0, d)) }
      { m := m, trust := { t with released := false, reports := bad } })

/-- POWER_LOSS (R273): counts not yet forwarded are lost; the trust die's store stands. -/
def execPowerLoss (s : State) : Out :=
  .next {
    m := outOfService s.m
    trust := { s.trust with alarm := none, released := false, spdm := 0, session := false, responses := [], reports := [] } }

/-- KEY_INSTALL (R281): one of four image-verification keys of an owner. -/
def execKeyInstall (owner slot : Nat) (id : Word) (key : Nat) (s : State) : Out :=
  .next (if s.m.phase ≠ .running ∨ 256 ≤ owner ∨ 4 ≤ slot then s else
    { s with trust := { s.trust with imageKeys := smPut none s.trust.imageKeys (4 * owner + slot) (some { id := id, key := key }) } })

/-! ### The SPDM responder (R280)

Responses carry the codes of SPDM 1.2 (PRESUMED, log 8); the bytes that the spec does not give are free. -/

/-- Answer a request, once the connection has come as far as `need`; an ERROR response before. -/
def spdmAnswer (s : State) (need reach code : Nat) (body : List Nat) : Out :=
  .next (
    let t := s.trust
    if t.spdm < need then { s with trust := { t with responses := t.responses ++ [(0x7F, [])] } }
    else { s with trust := { t with spdm := max t.spdm reach, responses := t.responses ++ [(code, body)] } })

/-- The bytes of a number for a digest: their count, each byte of it 1, a 0, then the bytes. -/
def numBytes (x : Nat) : List Byte :=
  let n := Nat.log2 x / 8 + 1
  List.replicate n 1 ++ 0 :: (List.range n).map (fun i => BitVec.ofNat 8 (x / 256 ^ i))

/-- The digest of a list of numbers. -/
def digestOf (xs : List Nat) : Nat := Config.shake256 (xs.map numBytes).flatten

/-- A body that is signed: the content, the requester's nonce, a Falcon-1024 signature over their digest. -/
def signed (content : List Nat) (nonce : Nat) : List Nat := content ++ [nonce, Config.falconSign (digestOf (content ++ [nonce]))]

/-- GET_VERSION starts the connection again: SPDM 1.2. -/
def execGetVersion (s : State) : Out :=
  .next { s with trust := { s.trust with spdm := 1, session := false, responses := s.trust.responses ++ [(0x04, [0x12])] } }

def execGetCapabilities (s : State) : Out := spdmAnswer s 1 2 0x61 [Config.spdmBody 0x61 0]

/-- NEGOTIATE_ALGORITHMS: SHAKE256 and Falcon-1024, if the requester offers them. -/
def execNegotiateAlgorithms (offered : Bool) (s : State) : Out :=
  if offered then spdmAnswer s 2 3 0x63 [Config.spdmBody 0x63 0] else spdmAnswer s 2 2 0x7F []

def execGetDigests (s : State) : Out := spdmAnswer s 3 3 0x01 [Config.spdmBody 0x01 0]
def execGetCertificate (slot : Nat) (s : State) : Out := spdmAnswer s 3 3 0x02 [Config.spdmBody 0x02 slot]
def execChallenge (nonce : Nat) (s : State) : Out := spdmAnswer s 3 3 0x03 (signed [Config.spdmBody 0x03 0] nonce)

/-- The owner usage counters, as a list of owner, CYCLES, BEATS, LENTIN, LENTOUT. -/
def usageList (t : Trust) : List Nat :=
  (t.usage.map (fun e => [e.1, e.2.cycles, e.2.beats, e.2.lentIn, e.2.lentOut])).flatten

/-- A retired unit, as numbers. -/
def siteNums (x : ErrSite) : List Nat :=
  match x with
  | .core c => [0, c]
  | .bank c b => [1, c, b]
  | .port p => [2, p]

/-- Trims, harvest map and retention figures, as numbers. -/
def storeNums (s : State) : List Nat :=
  (s.trust.trims.map (fun e => e.1 :: e.2.length :: e.2.map (·.toNat))).flatten
    ++ (s.trust.retirements.map siteNums).flatten ++ ((s.m.retired.filter (·.2)).map (·.1))
    ++ ((s.m.portsDown.filter (·.2)).map (·.1)) ++ (s.m.tret.map (fun e => [e.1, e.2])).flatten

/-- The content of a measurement (Table 19-9): digests of the boot ROM, of the firmware of the switch die and the compute
dies, with a 1 where a die has failed its check (R16), of the store; or the usage counters. -/
def measurement (s : State) (index : Nat) : List Nat :=
  let t := s.trust
  if index = 1 then [Config.shake256 t.bootRom]
  else if index = 8 then usageList t
  else if index = 7 then [digestOf (storeNums s)]
  else [Config.shake256 (smGet [] t.firmware (index - 2)), if t.reports.contains (index - 2) then 1 else 0]

/-- A read of an owner's counters through the mailbox (R273), as numbers. -/
def readUsage (t : Trust) (o : Nat) : Usage := smGet {} t.usage o

/-- A read of what the root keeps of a group's last closed round, through the mailbox and by the debugger (spec/15 R235). -/
def readRound (m : Mach) (key : Nat) : Closed := smGet {} m.closedRounds key

/-- A read of a die's predicted life through the mailbox (R277); one that no prediction has reached yet, log 2. -/
def readLife (t : Trust) (die : Nat) : W32 := (smGet none t.life die).getD 0xFFFFFFFF

/-- GET_MEASUREMENTS (R273, R280): the index, the measurement, signed. -/
def execGetMeasurements (index nonce : Nat) (s : State) : Out :=
  if index = 0 ∨ 9 ≤ index then spdmAnswer s 3 3 0x7F []
  else spdmAnswer s 3 3 0x60 (signed (index :: measurement s index) nonce)

def execKeyExchange (data : Nat) (s : State) : Out := spdmAnswer s 3 4 0x64 (signed [Config.spdmBody 0x64 data] data)

/-- FINISH: a session stands once the key exchange is finished. -/
def execFinish (data : Nat) (s : State) : Out :=
  if s.trust.spdm < 4 then spdmAnswer s 4 4 0x65 []
  else
    .next { s with
      trust := { s.trust with
        spdm := 3, session := true
        responses := s.trust.responses ++ [(0x65, [Config.spdmBody 0x65 data])] } }

/-! ### The rotation scan (R274, R275) -/

/-- Does a core run a unit of PCLASS 2 or above? -/
def holdsClass2 (k : Core) : Bool :=
  k.ctxs.any (fun e => e.2.st != .free && !e.2.arr && 2 ≤ pclassOf e.2)

/-- The core whose turn it is in a cluster, retired cores passed over. -/
def scanTurn (m : Mach) (cl : Nat) : Option Nat :=
  ((List.range 18).map (fun i => 18 * cl + ((getCluster m cl).scanNext + i) % 18)).find? (fun c => !(smGet false m.retired c))

/-- The core that the next pass of a cluster is for: a due core that may be scanned first, then the next in turn. -/
def scanTarget (m : Mach) (cl : Nat) : Option Nat :=
  ((clusterCores cl).find? (fun c =>
    !(smGet false m.retired c) && (getCore m c).scan.due && !(holdsClass2 (getCore m c)))).or (scanTurn m cl)

/-- SCAN_PASS_START (R274): 40,000 ticks after the previous pass of the cluster started. The drain begins, or the pass
is skipped for a unit of PCLASS 2 or above and the core stays due. -/
def execScanPassStart (cluster : Nat) (s : State) : Out :=
  whenRunning s (fun m =>
    let k := getCluster m cluster
    let early : Bool := match k.scanStart with | some t => decide (m.nowt < t + 40000) | none => false
    if 64 ≤ cluster ∨ early ∨ (clusterCores cluster).any (fun c => (getCore m c).scan.draining) then m
    else
      match scanTarget m cluster with
      | none => m
      | some c =>
        let next := if scanTurn m cluster = some c then (kOf c + 1) % 18 else k.scanNext
        let m := setCluster m cluster { k with scanStart := some m.nowt, scanNext := next }
        if holdsClass2 (getCore m c) then modCore m c (fun k => { k with scan := { k.scan with due := true } })
        else modCore m c (fun k => { k with
          scan := { k.scan with draining := true, began := m.nowt, beganStep := m.fresh } }))

/-- A launch that is terminal, and whose cores have all passed a scan since, becomes FINAL (R275). -/
def finalize (m : Mach) (i : Nat) : Mach :=
  let n := getNode m i
  if n.level = 1 ∧ nodeTerminal n ∧ !n.final ∧ !n.tainted ∧ n.ran.all (·.cleared) then bumpNode m i (fun n => { n with final := true })
  else m

/-- Launches that are not FINAL and ran a unit on a core that no passed pass covers yet. -/
def ranThere (m : Mach) (core : Nat) : List Nat :=
  (m.nodes.filter (fun e => e.2.live && e.2.level == 1 && !e.2.final && e.2.ran.any (fun r => r.core == core && !r.cleared))).map (·.1)

/-- A core retires (R17, R276). -/
def retireCore (s : State) (core : Nat) : State :=
  { m := { s.m with retired := smPut false s.m.retired core true }
    trust := { s.trust with retirements := s.trust.retirements ++ [.core core] } }

/-- A pass passes (R274, R275): it covers the units that ended on the core before it began. -/
def passPassed (m : Mach) (core : Nat) : Mach :=
  let k := getCore m core
  let m := setCore m core { k with
    scan := { lastBegan := k.scan.began }
    scanPasses := k.scanPasses + 1, scanTick := m.nowt }
  let ids := ranThere m core
  let m := ids.foldl (fun m i => modNode m i (fun n => { n with ran := n.ran.map (fun r =>
    if r.core = core ∧ r.step < k.scan.beganStep then { r with cleared := true } else r) })) m
  ids.foldl finalize m

/-- A pass fails (R275): launches are tainted and reported; the records that have the core as their home core, which are
pre-emption records (spec/17 R255), end FAILED. -/
def passFailed (m : Mach) (core : Nat) : Mach :=
  let m := modCore m core (fun k => { k with scan := { k.scan with draining := false, due := false } })
  let m := (ranThere m core).foldl (fun m i =>
    let m := bumpNode m i (fun n => { n with tainted := true })
    let n := getNode m i
    hostEvent m n.owner 8 0 (clusterOf core) 0 n.recVa.toNat) m
  countOwed ((m.records.filter (fun r => r.home == core && r.image.isSome)).foldl (fun m r => endRecord m r true 0x19) m)

/-- SCAN_PASS_END (R274, R275): the core is drained, and its patterns have passed or failed. -/
def execScanPassEnd (core : Nat) (pass : Bool) (s : State) : Out :=
  .next (
    let k := getCore s.m core
    if s.m.phase ≠ .running ∨ !k.scan.draining ∨ !(coreIdle k) then s
    else if pass then { s with m := passPassed s.m core }
    else retireCore { s with m := passFailed s.m core } core)

/-! ### Harvesting, wear, scrubbing (R276 to R278) -/

/-- Ticks of 24 hours and of one hour (R2: 64 ns). -/
def dayTicks : Nat := 1350000000000
def hourTicks : Nat := 56250000000

/-- The marks of the last `span` ticks. -/
def recent (now span : Nat) (ts : List Nat) : List Nat := ts.filter (fun t => now < t + span)

/-- Marks with one of now. -/
def marked (now span : Nat) (ts : List Nat) : List Nat := now :: recent now span ts

/-- CORRECTED_ERROR (R276): counted per core, per pool bank and per optical port; one that reaches its threshold is to
retire. -/
def execCorrectedError (site : ErrSite) (s : State) : Out :=
  whenRunning s (fun m =>
    match site with
    | .core c =>
      modCore m c (fun k =>
        let ts := marked m.nowt dayTicks k.errs
        { k with errs := ts, retireDue := k.retireDue || 16 ≤ ts.length })
    | .bank c b =>
      modCore m c (fun k =>
        let ts := marked m.nowt dayTicks (smGet [] k.bankErrs b)
        { k with
          bankErrs := smPut [] k.bankErrs b ts
          banksDue := if 16 ≤ ts.length ∧ !(k.banksDue.contains b) then k.banksDue ++ [b] else k.banksDue })
    | .port p =>
      let l := getLink m p
      let ts := marked m.nowt hourTicks l.replays
      setLink m p { l with replays := ts, retireDue := l.retireDue || 10000 ≤ ts.length })

/-- Is a port's replay buffer empty? A port that is down replays nothing any more. -/
def replayEmpty (l : Link) : Bool := l.down || l.buffer.isEmpty

/-- RETIREMENT (R276, Table 19-7): at the core's next drain, or when the port's replay buffer is empty; written to the
trust die's store. -/
def execRetirement (site : ErrSite) (s : State) : Out :=
  .next (
    let m := s.m
    if m.phase ≠ .running then s
    else
      match site with
      | .core c =>
        let k := getCore m c
        if isControl c ∨ smGet false m.retired c ∨ !k.retireDue ∨ !(coreIdle k) then s
        else retireCore s c
      | .bank c b =>
        let k := getCore m c
        if isControl c ∨ smGet false m.retired c ∨ !(k.banksDue.contains b) ∨ !(coreIdle k) then s
        else if 2 ≤ k.spareBanks then retireCore s c
        else
          { m := setCore m c { k with
              spareBanks := k.spareBanks + 1, bankErrs := smDel k.bankErrs b, banksDue := k.banksDue.filter (· != b) }
            trust := { s.trust with retirements := s.trust.retirements ++ [.bank c b] } }
      | .port p =>
        let l := getLink m p
        if 64 ≤ p ∨ s.trust.retirements.contains (.port p) ∨ (!l.retireDue ∧ !l.down) ∨ !(replayEmpty l) then s
        else
          { m := if l.down then { m with portsDown := smPut false m.portsDown p true }
              else pf0Event { m with portsDown := smPut false m.portsDown p true } 6 0 0
            trust := { s.trust with retirements := s.trust.retirements ++ [.port p] } })

/-- WEAR_WARNING (R277): the predicted life of a die; below 10,000 hours it is reported to PF0. -/
def execWearWarning (die : Nat) (hours : W32) (s : State) : Out :=
  .next (if 6 ≤ die ∨ s.m.phase ≠ .running then s else
    let low := decide (hours.toNat < 10000)
    let first := low && !(smGet false s.trust.wearSent die)
    { m := if first then pf0Event s.m 10 0 die else s.m
      trust := { s.trust with life := smPut none s.trust.life die (some hours), wearSent := smPut false s.trust.wearSent die low } })

/-- SCRUB_GRANULE (R278): read and corrected, or found uncorrectable and marked. -/
def execScrubGranule (pa : Nat) (bad : Bool) (s : State) : Out :=
  whenRunning s (fun m =>
    let g := pa / 16 * 16
    if 0x8000000000 ≤ pa then m
    else { m with scrubPos := g, poisoned := if bad && !(m.poisoned.contains g) then m.poisoned ++ [g] else m.poisoned })

/-! ### Spares (R279) -/

/-- The source of an entry of a fill has failed: it starts again from the other method; none where that has failed too. -/
def otherMethod (f : SpareFill) : Option SpareFill :=
  if f.tried then none else some { f with method := 1 - f.method, tried := true, filled := false }

/-- Where the fills of a gang's spares stand: placement resumes with the spares under the failed members' numbers once every
entry is filled; the job is cancelled where an entry has no source left. The lost packages' entries have failed. -/
def fillStands (m : Mach) (gang : Nat) : Mach :=
  let g := getGang m gang
  match g.hold with
  | none => m
  | some pkg =>
    match g.fills.mapM (fun f => if !f.filled && !f.tried && f.method == 0 && m.downPkgs.contains f.src then otherMethod f else some f) with
    | none => m
    | some fs =>
      if fs.all (·.filled) then
        { modGang m gang (fun g => { g with hold := none, fills := [], alsoDown := [] }) with
          downPkgs := m.downPkgs.filter (fun d => d != pkg && !(g.alsoDown.contains d)) }
      else modGang m gang (fun g => { g with fills := fs })

/-- MEMBER_DOWN (R279): its ranks are excluded (spec/14 R229); the coordinator places no further unit of the gang's launch
and fills the spare from the runtime's table; another member that goes down meanwhile has its spare filled as well before
placement resumes. A mirror whose package is down too has failed (log 74). -/
def execMemberDown (pkg : Nat) (s : State) : Out :=
  whenRunning s (fun m =>
    let m := excludePackage { m with downPkgs := if m.downPkgs.contains pkg then m.downPkgs else m.downPkgs ++ [pkg] } pkg
    let held (g : Gang) : Bool := g.live && g.coordinator && g.members.contains pkg && g.hold != some pkg && !(g.alsoDown.contains pkg)
    let m := (m.gangs.filter (fun e => held e.2)).foldl (fun m e =>
      modGang m e.1 (fun g =>
        if g.hold.isNone then { g with hold := some pkg, fills := m.fillTable }
        else { g with alsoDown := g.alsoDown ++ [pkg], fills := g.fills ++ m.fillTable })) m
    (m.gangs.map (·.1)).foldl fillStands m)

/-- SPARE_FILL_DONE (R279): an entry is filled; or its source has failed, and it starts again from the other method; or
none is left, and the job is cancelled with an event of KIND 9. -/
def execSpareFillDone (fill : FillReport) (s : State) : Out :=
  whenRunning s (fun m =>
    let gang := fill.gang
    let g := getGang m gang
    match g.hold, g.fills[fill.entry]? with
    | some _, some f =>
      if !fill.failed then fillStands (modGang m gang (fun g => { g with fills := g.fills.set fill.entry { f with filled := true } })) gang
      else
        match otherMethod f with
        | some f => modGang m gang (fun g => { g with fills := g.fills.set fill.entry f })
        | none => cancelGangJob (modGang m gang (fun g => { g with hold := none, fills := [], alsoDown := [] })) gang 9
    | _, _ => m)

/-! ### Alarm and throttling (R282) -/

/-- SECURITY_ALARM (R282): every memory-encryption key is erased, no further unit is placed, PF0 is told; latched until
package reset. -/
def execSecurityAlarm (cause : AlarmCause) (s : State) : Out :=
  .next (
    if s.m.phase ≠ .running ∨ s.trust.alarm.isSome then s
    else
      { m := { s.m with erased := true, noPlace := true, mailbox := s.m.mailbox ++ [(0, 0)] }
        trust := { s.trust with alarm := some cause, memKeys := [] } })

/-- THERMAL_THROTTLE (R282): lowers the core clock only. -/
def execThermalThrottle (on : Bool) (s : State) : Out := whenRunning s (fun m => { m with throttled := on })

end Sys2Proof.Machine
end

