-- ==== Sys2Proof/Machine/VWords.lean ====
section
/-!
DEFINITION. The V words (spec/22_reference_v.md R342 to R373, spec/16_program_cross_entropy.md R237).
-/

namespace Sys2Proof.Machine

/-- Is the word's tile of a type that a bitwise or compare word takes (Table 22-1)? -/
def notAxb (m : Mach) (t : BitVec 2) : Bool := !(isAxb (tileType m t.toNat))

/-- The lane values of source row `r` of tile `t`. -/
def srcVals (m : Mach) (role : Nat) (t : BitVec 2) (r : BitVec 6) : List Val :=
  laneVals (rowV m role t.toNat (64 * t.toNat + r.toNat)) (tileType m t.toNat)

/-- The lane codes of source row `r` of tile `t`. -/
def srcCodes (m : Mach) (role : Nat) (t : BitVec 2) (r : BitVec 6) : List Nat :=
  laneCodes (rowV m role t.toNat (64 * t.toNat + r.toNat)) (tileType m t.toNat)

/-- An arithmetic word of two source rows. -/
def vBin (m : Mach) (t : BitVec 2) (d a b : BitVec 6) (lat : Nat) (f : Val → Val → Val) : Mach :=
  vCheck m [t.toNat] [] true (fun m => vWrite m t d lat true (List.zipWith f (srcVals m 0 t a) (srcVals m 1 t b)))

/-- An arithmetic word of one source row; `floatOnly` refuses integer and AXB tiles. -/
def vUn (m : Mach) (t : BitVec 2) (d a : BitVec 6) (lat : Nat) (floatOnly : Bool) (f : Val → Val) : Mach :=
  vCheck m [t.toNat] [] (!floatOnly || isFloatTile (tileType m t.toNat))
    (fun m => vWrite m t d lat true ((srcVals m 0 t a).map f))

/-- v.add (R350). -/
def execVAdd (h : Hd) (t : BitVec 2) (d a b : BitVec 6) (s : State) : Out :=
  runWord s h (fun m => vBin m t d a b 2 valAdd)

/-- v.sub (R372). -/
def execVSub (h : Hd) (t : BitVec 2) (d a b : BitVec 6) (s : State) : Out :=
  runWord s h (fun m => vBin m t d a b 2 (fun x y => valAdd x (valNegate y)))

/-- v.mul (R362). -/
def execVMul (h : Hd) (t : BitVec 2) (d a b : BitVec 6) (s : State) : Out :=
  runWord s h (fun m => vBin m t d a b 5 valMul)

/-- v.fma: d + a × b, rounded once (R356). -/
def execVFma (h : Hd) (t : BitVec 2) (d a b : BitVec 6) (s : State) : Out :=
  runWord s h (fun m =>
    vCheck m [t.toNat] [] true (fun m =>
      vWrite m t d 5 true
        (List.zipWith valAdd (srcVals m 2 t d) (List.zipWith valMul (srcVals m 0 t a) (srcVals m 1 t b)))))

/-- v.max (R359). -/
def execVMax (h : Hd) (t : BitVec 2) (d a b : BitVec 6) (s : State) : Out :=
  runWord s h (fun m => vBin m t d a b 2 laneMax)

/-- v.min (R360). -/
def execVMin (h : Hd) (t : BitVec 2) (d a b : BitVec 6) (s : State) : Out :=
  runWord s h (fun m => vBin m t d a b 2 laneMin)

/-- v.neg (R363). -/
def execVNeg (h : Hd) (t : BitVec 2) (d a : BitVec 6) (s : State) : Out :=
  runWord s h (fun m => vUn m t d a 2 false valNegate)

/-- v.abs (R349). -/
def execVAbs (h : Hd) (t : BitVec 2) (d a : BitVec 6) (s : State) : Out :=
  runWord s h (fun m => vUn m t d a 2 false valAbs)

/-- v.exp2 (R355). -/
def execVExp2 (h : Hd) (t : BitVec 2) (d a : BitVec 6) (s : State) : Out :=
  runWord s h (fun m => vUn m t d a 9 true valExp2)

/-- v.log2 (R358). -/
def execVLog2 (h : Hd) (t : BitVec 2) (d a : BitVec 6) (s : State) : Out :=
  runWord s h (fun m => vUn m t d a 9 true valLog2)

/-- v.rcp (R367). -/
def execVRcp (h : Hd) (t : BitVec 2) (d a : BitVec 6) (s : State) : Out :=
  runWord s h (fun m => vUn m t d a 7 true valRcp)

/-- v.rsqrt (R369). -/
def execVRsqrt (h : Hd) (t : BitVec 2) (d a : BitVec 6) (s : State) : Out :=
  runWord s h (fun m => vUn m t d a 7 true valRsqrt)

/-! ### v.cvt (R354, Table 22-3) -/

/-- Does a tile's type take a kind? -/
def cvtOk (a k : Nat) : Bool :=
  match k with
  | 0 => !(isAxb a)
  | 1 => !(isAxb a)
  | 2 => !(isFloatTile a)
  | 3 => isFloatTile a || isAxb a
  | _ => a == 0

/-- A finite value as an integer that keeps the sign of zero. -/
def toIntVal (f : Val → Int) (x : Val) : Val :=
  match x with
  | .num s p q e => let v := f (.num s p q e); .num s v.natAbs 1 0
  | y => y

/-- Kinds 0, 1, 4 and 5 on a float lane. -/
def cvtVal (sat : Bool) (k : Nat) (x : Val) : Val :=
  match k with
  | 0 => toIntVal valRne x
  | 1 => toIntVal valTrunc x
  | 4 => fpDecode bf16 (fpConv bf16 sat x)
  | _ => fpDecode fp16 (fpConv fp16 sat x)

/-- Kinds 2 and 3: the bit pattern of the other type of the lane's width. -/
def cvtBits (a : Nat) (sat : Bool) (k : Nat) (x : Val) : Nat :=
  if k = 2 then fpConv (if a = 4 then bf16 else fp32) false x
  else intConv (laneW a) sat x

/-- v.cvt (R354). -/
def execVCvt (h : Hd) (t : BitVec 2) (d a k : BitVec 6) (s : State) : Out :=
  runWord s h (fun m =>
    let ty := tileType m t.toNat
    let sat := tileSat m t.toNat
    vCheck m [t.toNat] [] (cvtOk ty k.toNat) (fun m =>
      if k.toNat = 2 ∨ k.toNat = 3 then vCodes m t d 4 ((srcVals m 0 t a).map (cvtBits ty sat k.toNat))
      else if isIntTile ty then vCodes m t d 4 (srcCodes m 0 t a)
      else vWrite m t d 4 true ((srcVals m 0 t a).map (cvtVal sat k.toNat))))

/-! ### Compares (R353) -/

/-- The code of a true lane. -/
def trueCode (a : Nat) : Nat :=
  match a with
  | 0 => 0x3F800000
  | 3 => 0x3F80
  | _ => 2 ^ laneW a - 1

def vCmp (m : Mach) (t : BitVec 2) (d a b : BitVec 6) (f : Val → Val → Bool) : Mach :=
  vCheck m [t.toNat] [] (notAxb m t) (fun m =>
    vCodes m t d 2 (List.zipWith (fun x y => if f x y then trueCode (tileType m t.toNat) else 0)
      (srcVals m 0 t a) (srcVals m 1 t b)))

/-- v.cmp.lt (R353). -/
def execVCmpLt (h : Hd) (t : BitVec 2) (d a b : BitVec 6) (s : State) : Out :=
  runWord s h (fun m => vCmp m t d a b valLt)

/-- v.cmp.le (R353). -/
def execVCmpLe (h : Hd) (t : BitVec 2) (d a b : BitVec 6) (s : State) : Out :=
  runWord s h (fun m => vCmp m t d a b (fun x y => valLt x y || valEq x y))

/-- v.cmp.eq (R353). -/
def execVCmpEq (h : Hd) (t : BitVec 2) (d a b : BitVec 6) (s : State) : Out :=
  runWord s h (fun m => vCmp m t d a b valEq)

/-! ### Moving words (R344) -/

/-- Write a moving word's lanes: codes copied, or on AXB values written. -/
def vMove (m : Mach) (t : BitVec 2) (d : BitVec 6) (lat : Nat) (codes : List Nat) (vals : List Val) : Mach :=
  if isAxb (tileType m t.toNat) then vWrite m t d lat false vals else vCodes m t d lat codes

/-- v.sel (R371). -/
def execVSel (h : Hd) (t : BitVec 2) (d a b : BitVec 6) (s : State) : Out :=
  runWord s h (fun m =>
    vCheck m [t.toNat] [] true (fun m =>
      let pick := (srcVals m 0 t a).map (fun x => !(valIsZero x))
      let key := 64 * t.toNat + d.toNat
      if isAxb (tileType m t.toNat) then
        putRowAt m key (vLandAt m t.toNat 2) (axbMix (rowV m 2 t.toNat key)
          (List.zipWith (fun (p : Bool) (x : Val) => if p then some x else none) pick (srcVals m 1 t b)))
      else
        vCodes m t d 2
          (List.zipWith (fun (p : Bool) (xy : Nat × Nat) => if p then xy.1 else xy.2) pick
            (List.zip (srcCodes m 1 t b) (srcCodes m 2 t d)))))

/-- One value in every lane of a tile's type. -/
def allLanes {α : Type} (m : Mach) (t : BitVec 2) (x : α) : List α := List.replicate (lanesOf (tileType m t.toNat)) x

/-- v.rmax: the largest lane, a subnormal maximum as it stands (R368). -/
def execVRmax (h : Hd) (t : BitVec 2) (d a : BitVec 6) (s : State) : Out :=
  runWord s h (fun m =>
    vCheck m [t.toNat] [] true (fun m =>
      match srcVals m 0 t a with
      | [] => m
      | x :: xs => vWrite m t d 8 false (allLanes m t (xs.foldl laneMax x))))

/-- v.rsum: the exact sum of the lanes, rounded once (R370). -/
def execVRsum (h : Hd) (t : BitVec 2) (d a : BitVec 6) (s : State) : Out :=
  runWord s h (fun m =>
    vCheck m [t.toNat] [] true (fun m =>
      match srcVals m 0 t a with
      | [] => m
      | x :: xs => vWrite m t d 8 false (allLanes m t (xs.foldl valAdd x))))

/-- The value of a scalar operand for a tile (R344). -/
def scalarVal (a : Nat) (x : Word) : Val :=
  if isIntTile a then valOfInt x.toInt 0 else fpDecode fp32 (x.toNat % 2 ^ 32)

/-- The lane code that v.bcast writes on a tile that is not AXB (R352). -/
def scalarCode (a : Nat) (sat : Bool) (x : Word) : Nat :=
  if a = 0 then x.toNat % 2 ^ 32 else laneConv a sat (scalarVal a x)

/-- v.bcast (R352). -/
def execVBcast (h : Hd) (t : BitVec 2) (d a : BitVec 6) (s : State) : Out :=
  runWord s h (fun m =>
    let x := rdS m 0 a
    let ty := tileType m t.toNat
    vCheck m [t.toNat] [x] true (fun m =>
      vMove m t d 2 (allLanes m t (scalarCode ty (tileSat m t.toNat) x.val)) (allLanes m t (scalarVal ty x.val))))

/-- v.get (R357). -/
def execVGet (h : Hd) (t : BitVec 2) (d a b : BitVec 6) (s : State) : Out :=
  runWord s h (fun m =>
    let x := rdS m 1 b
    let ty := tileType m t.toNat
    vCheck m [t.toNat] [x] (decide (x.val.toNat < lanesOf ty)) (fun m =>
      let row := rowV m 0 t.toNat (64 * t.toNat + a.toNat)
      vMove m t d 3 (allLanes m t (laneBits row ty x.val.toNat)) (allLanes m t (laneVal row ty x.val.toNat))))

/-- Put one value into an AXB row: its group grows, its other lanes shift, the other groups stay (R366). -/
def axbPut (old : Row) (lane : Nat) (r : Val) : Row :=
  axbMix old ((List.range 60).map (fun j => if j = lane then some r else none))

/-- v.put (R366). -/
def execVPut (h : Hd) (t : BitVec 2) (d a b : BitVec 6) (s : State) : Out :=
  runWord s h (fun m =>
    let x := rdS m 0 a
    let n := rdS m 1 b
    let ty := tileType m t.toNat
    vCheck m [t.toNat] [x, n] (decide (n.val.toNat < lanesOf ty)) (fun m =>
      let key := 64 * t.toNat + d.toNat
      let row := rowV m 2 t.toNat key
      if isAxb ty then putRowAt m key (vLandAt m t.toNat 2) (axbPut row n.val.toNat (scalarVal ty x.val))
      else vCodes m t d 2 ((laneCodes row ty).set n.val.toNat (scalarCode ty (tileSat m t.toNat) x.val))))

/-- v.mov (R361). -/
def execVMov (h : Hd) (t : BitVec 2) (d a u : BitVec 6) (s : State) : Out :=
  runWord s h (fun m =>
    let ty := tileType m t.toNat
    let us := u.toNat
    let uy := tileType m us
    vCheck m [t.toNat, us] [] true (fun m =>
      let src := rowV m 0 t.toNat (64 * us + a.toNat)
      let n := lanesOf ty
      if ty = uy ∧ !(isAxb ty) then vCodes m t d 2 (laneCodes src ty)
      else
        let vals := (List.range n).map (fun j => if j < lanesOf uy then laneVal src uy j else valOfInt 0 0)
        if isAxb ty then vWrite m t d 2 false vals
        else vCodes m t d 2 (vals.map (laneConv ty (tileSat m t.toNat)))))

/-- The lane that an index value selects, when it is an integer of the range (R365). -/
def permIndex (n : Nat) (x : Val) : Option Nat :=
  match x with
  | .num _ _ _ _ =>
    let i := valRne x
    if valEq x (valOfInt i 0) && 0 ≤ i && i < n then some i.toNat else none
  | _ => none

/-- v.perm (R365). -/
def execVPerm (h : Hd) (t : BitVec 2) (d a b : BitVec 6) (s : State) : Out :=
  runWord s h (fun m =>
    vCheck m [t.toNat] [] true (fun m =>
      let ty := tileType m t.toNat
      let row := rowV m 0 t.toNat (64 * t.toNat + a.toNat)
      let idx := (srcVals m 1 t b).map (permIndex (lanesOf ty))
      vMove m t d 3
        (idx.map (fun i => match i with | some j => laneBits row ty j | none => 0))
        (idx.map (fun i => match i with | some j => laneVal row ty j | none => valOfInt 0 0))))

/-! ### Bitwise words (R351) -/

def vBits (m : Mach) (t : BitVec 2) (d a b : BitVec 6) (f : Nat → Nat → Nat) : Mach :=
  vCheck m [t.toNat] [] (notAxb m t) (fun m =>
    vCodes m t d 2 (List.zipWith f (srcCodes m 0 t a) (srcCodes m 1 t b)))

/-- v.and (R351). -/
def execVAnd (h : Hd) (t : BitVec 2) (d a b : BitVec 6) (s : State) : Out :=
  runWord s h (fun m => vBits m t d a b Nat.land)

/-- v.or (R364). -/
def execVOr (h : Hd) (t : BitVec 2) (d a b : BitVec 6) (s : State) : Out :=
  runWord s h (fun m => vBits m t d a b Nat.lor)

/-- v.xor (R373). -/
def execVXor (h : Hd) (t : BitVec 2) (d a b : BitVec 6) (s : State) : Out :=
  runWord s h (fun m => vBits m t d a b Nat.xor)

end Sys2Proof.Machine
end

