-- ==== Sys2Proof/Machine/Flags.lean ====
section
/-!
DEFINITION. The truth values that words compute: the part has predicates and no condition flags
(spec/23_reference_x.md R377, R378: no overflow is reported, no exception flags are kept).
-/

namespace Sys2Proof.Machine

/-- The conditions of x.cmp (spec/23_reference_x.md Table 23-3). -/
def cmpCond (cc : BitVec 3) (a b : Word) : Bool :=
  match cc.toNat with
  | 0 => a == b
  | 1 => a != b
  | 2 => BitVec.slt a b
  | 3 => BitVec.sle a b
  | 4 => BitVec.ult a b
  | 5 => BitVec.ule a b
  | 6 => a &&& b != 0
  | _ => false

/-- A predicate source, inverted when its N bit is set (R393). -/
def predIn (n p : Bool) : Bool := p != n

end Sys2Proof.Machine
end

