-- ==== Sys2Proof/Machine/XWords.lean ====
section
/-!
DEFINITION. The X words (spec/23_reference_x.md R374 to R404).
-/

namespace Sys2Proof.Machine

/-- x.nop: nothing (R391). -/
def execXNop (h : Hd) (s : State) : Out := runWord s h (fun m => m)

/-- x.add: (A + B) mod 2^64, bound 1 (R378). -/
def execXAdd (h : Hd) (d a : BitVec 6) (i : Bool) (b : BitVec 6) (s : State) : Out :=
  runWord s h (fun m => xBin m 1 d a (opBK m i b) (fun x y => x + y))

/-- x.sub: (A − B) mod 2^64, bound 1 (R402). -/
def execXSub (h : Hd) (d a : BitVec 6) (i : Bool) (b : BitVec 6) (s : State) : Out :=
  runWord s h (fun m => xBin m 1 d a (opBK m i b) (fun x y => x - y))

/-- x.mul: the low 64 bits of A × B, bound 3 (R389). -/
def execXMul (h : Hd) (d a : BitVec 6) (i : Bool) (b : BitVec 6) (s : State) : Out :=
  runWord s h (fun m => xBin m 3 d a (opBK m i b) (fun x y => x * y))

/-- Bits [127:64] of the exact signed product (R390). -/
def mulHigh (x y : Word) : Word := wordOfInt (x.toInt * y.toInt / 2 ^ 64)

/-- x.mulh: bits [127:64] of the signed product, bound 3 (R390). -/
def execXMulh (h : Hd) (d a : BitVec 6) (i : Bool) (b : BitVec 6) (s : State) : Out :=
  runWord s h (fun m => xBin m 3 d a (opBK m i b) mulHigh)

/-- A divide or remainder: an unpoisoned B = 0 raises divide-by-zero (R383, R375). -/
def xDivLike (m : Mach) (d a : BitVec 6) (y : Scalar) (f : Word → Word → Word) : Mach :=
  if !(rdS m 0 a).pois && !y.pois && y.val == 0 then trapW m 0x1C else xBin m 20 d a y f

/-- x.div: the signed quotient, truncated toward zero, bound 20 (R383). -/
def execXDiv (h : Hd) (d a : BitVec 6) (i : Bool) (b : BitVec 6) (s : State) : Out :=
  runWord s h (fun m => xDivLike m d a (opBK m i b) (fun x y => wordOfInt (Int.tdiv x.toInt y.toInt)))

/-- x.rem: A − (A div B) × B, bound 20 (R397). -/
def execXRem (h : Hd) (d a : BitVec 6) (i : Bool) (b : BitVec 6) (s : State) : Out :=
  runWord s h (fun m => xDivLike m d a (opBK m i b) (fun x y => wordOfInt (Int.tmod x.toInt y.toInt)))

/-- x.and, bound 1 (R379). -/
def execXAnd (h : Hd) (d a : BitVec 6) (i : Bool) (b : BitVec 6) (s : State) : Out :=
  runWord s h (fun m => xBin m 1 d a (opBK m i b) (fun x y => x &&& y))

/-- x.or, bound 1 (R392). -/
def execXOr (h : Hd) (d a : BitVec 6) (i : Bool) (b : BitVec 6) (s : State) : Out :=
  runWord s h (fun m => xBin m 1 d a (opBK m i b) (fun x y => x ||| y))

/-- x.xor, bound 1 (R403). -/
def execXXor (h : Hd) (d a : BitVec 6) (i : Bool) (b : BitVec 6) (s : State) : Out :=
  runWord s h (fun m => xBin m 1 d a (opBK m i b) (fun x y => x ^^^ y))

/-- The shift count: bits [5:0] of B (R398). -/
def shiftCount (y : Word) : Nat := y.toNat % 64

/-- x.shl, bound 1 (R400). -/
def execXShl (h : Hd) (d a : BitVec 6) (i : Bool) (b : BitVec 6) (s : State) : Out :=
  runWord s h (fun m => xBin m 1 d a (opBZ m i b) (fun x y => x <<< shiftCount y))

/-- x.shr: logical, bound 1 (R401). -/
def execXShr (h : Hd) (d a : BitVec 6) (i : Bool) (b : BitVec 6) (s : State) : Out :=
  runWord s h (fun m => xBin m 1 d a (opBZ m i b) (fun x y => x >>> shiftCount y))

/-- x.sar: arithmetic, bound 1 (R398). -/
def execXSar (h : Hd) (d a : BitVec 6) (i : Bool) (b : BitVec 6) (s : State) : Out :=
  runWord s h (fun m => xBin m 1 d a (opBZ m i b) (fun x y => x.sshiftRight (shiftCount y)))

/-- x.min: the smaller as signed integers, bound 1 (R388). -/
def execXMin (h : Hd) (d a : BitVec 6) (i : Bool) (b : BitVec 6) (s : State) : Out :=
  runWord s h (fun m => xBin m 1 d a (opBK m i b) (fun x y => if BitVec.slt y x then y else x))

/-- x.max: the larger as signed integers, bound 1 (R388). -/
def execXMax (h : Hd) (d a : BitVec 6) (i : Bool) (b : BitVec 6) (s : State) : Out :=
  runWord s h (fun m => xBin m 1 d a (opBK m i b) (fun x y => if BitVec.slt x y then y else x))

/-- Zero bits above the most significant one bit, 64 for zero (R381). -/
def clz64 (x : Word) : Nat := if x.toNat = 0 then 64 else 63 - Nat.log2 x.toNat

/-- One bits among the low `n` of a number. -/
def popCount (x : Nat) : Nat → Nat
  | 0 => 0
  | n + 1 => x % 2 + popCount (x / 2) n

/-- x.clz, bound 1 (R381). -/
def execXClz (h : Hd) (d a : BitVec 6) (s : State) : Out :=
  runWord s h (fun m => xBin m 1 d a {} (fun x _ => BitVec.ofNat 64 (clz64 x)))

/-- x.pcnt, bound 1 (R394). -/
def execXPcnt (h : Hd) (d a : BitVec 6) (s : State) : Out :=
  runWord s h (fun m => xBin m 1 d a {} (fun x _ => BitVec.ofNat 64 (popCount x.toNat 64)))

/-- x.sext: sext(A, n + 1), bound 1 (R399). -/
def execXSext (h : Hd) (d a : BitVec 6) (i : Bool) (b : BitVec 6) (s : State) : Out :=
  runWord s h (fun m => xBin m 1 d a (opBZ m i b) (fun x y => wordOfInt (sextInt x.toNat (shiftCount y + 1))))

/-- x.cmp: the truth of a condition into a predicate, bound 1; a poisoned source traps (R382, R375). -/
def execXCmp (h : Hd) (p k : BitVec 3) (a : BitVec 6) (i : Bool) (b : BitVec 6) (s : State) : Out :=
  runWord s h (fun m =>
    match firstPoison (rdS m 0 a) (opBK m i b) with
    | some x => trapPoison m x
    | none => putP m 1 p (cmpCond k (rdS m 0 a).val (opBK m i b).val))

/-- x.pand, bound 1 (R393). -/
def execXPand (h : Hd) (p : BitVec 3) (n : Bool) (a b : BitVec 3) (k : Bool) (s : State) : Out :=
  runWord s h (fun m => putP m 1 p (predIn n (rdP m 0 a) && predIn k (rdP m 1 b)))

/-- x.por, bound 1 (R395). -/
def execXPor (h : Hd) (p : BitVec 3) (n : Bool) (a b : BitVec 3) (k : Bool) (s : State) : Out :=
  runWord s h (fun m => putP m 1 p (predIn n (rdP m 0 a) || predIn k (rdP m 1 b)))

/-- x.pxor, bound 1 (R396). -/
def execXPxor (h : Hd) (p : BitVec 3) (n : Bool) (a b : BitVec 3) (k : Bool) (s : State) : Out :=
  runWord s h (fun m => putP m 1 p (predIn n (rdP m 0 a) != predIn k (rdP m 1 b)))

/-- The FP32 value in the low half of a scalar (R377). -/
def f32Of (x : Word) : Val := fpDecode fp32 (x.toNat % 2 ^ 32)

/-- An FP32 result: the canonical NaN, or the exact result rounded once (R377). -/
def f32Result (v : Val) : Word :=
  if valIsNan v then 0x7FC00000 else BitVec.ofNat 64 (fpConv fp32 false v)

/-- x.fadd, bound 4 (R384). -/
def execXFadd (h : Hd) (d a b : BitVec 6) (s : State) : Out :=
  runWord s h (fun m => xBin m 4 d a (rdS m 1 b) (fun x y => f32Result (valAdd (f32Of x) (f32Of y))))

/-- x.fmul, bound 4 (R387). -/
def execXFmul (h : Hd) (d a b : BitVec 6) (s : State) : Out :=
  runWord s h (fun m => xBin m 4 d a (rdS m 1 b) (fun x y => f32Result (valMul (f32Of x) (f32Of y))))

/-- The larger FP32 value, unchanged; NaN of a NaN (R386). -/
def f32Max (x y : Word) : Word :=
  if valIsNan (f32Of x) || valIsNan (f32Of y) then 0x7FC00000
  else f32Result (valMax (f32Of x) (f32Of y))

/-- x.fmax, bound 4 (R386). -/
def execXFmax (h : Hd) (d a b : BitVec 6) (s : State) : Out :=
  runWord s h (fun m => xBin m 4 d a (rdS m 1 b) f32Max)

/-- An integer clamped to int64; NaN gives 0, ±∞ the ends (R385). -/
def toInt64 (v : Val) (x : Int) : Word :=
  match v with
  | .nan _ _ => 0
  | .inf s => if s then 0x8000000000000000 else 0x7FFFFFFFFFFFFFFF
  | _ => wordOfInt (max (-(2 ^ 63)) (min (2 ^ 63 - 1) x))

/-- The kinds of x.fcvt (R385, Table 23-5). -/
def fcvt (kind : Nat) (x : Word) : Word :=
  match kind with
  | 0 => BitVec.ofNat 64 (fpConv fp32 false (valOfInt x.toInt 0))
  | 1 => toInt64 (f32Of x) (valRne (f32Of x))
  | 2 => toInt64 (f32Of x) (valTrunc (f32Of x))
  | 3 => BitVec.ofNat 64 (x.toNat % 2 ^ 16 * 2 ^ 16)
  | _ => BitVec.ofNat 64 (fpConv bf16 false (f32Of x))

/-- x.fcvt, bound 3 (R385). -/
def execXFcvt (h : Hd) (d a k : BitVec 6) (s : State) : Out :=
  runWord s h (fun m => xBin m 3 d a {} (fun x _ => fcvt k.toNat x))

/-- x.chk: a poisoned source raises deferred (0x21), FINFO its cause (R83, R380). -/
def execXChk (h : Hd) (a : BitVec 6) (s : State) : Out :=
  runWord s h (fun m =>
    if (rdS m 0 a).pois then trapAt m 0x21 0 ((rdS m 0 a).cause.setWidth 64) none else m)

/-- k.imm: carries its body to the word it stands before (spec/20_reference_b_k.md R311; R87). -/
def execKImm (k : BitVec 25) (s : State) : Out :=
  onMach s (fun m => { m with iss := { m.iss with ks := m.iss.ks ++ [k] } })

end Sys2Proof.Machine
end

