-- ==== Sys2Proof/Machine/Dispatch.lean ====
section
/-!
DEFINITION. Dispatch: one arm per row of spec/opcode_table.json.
-/

namespace Sys2Proof.Machine

def exec (i : Instr) (s : State) : Host.Outcome State Fault Refusal :=
  match i with
  | .xNop h => Sys2Proof.Machine.execXNop h s
  | .xAdd h d a ix b => Sys2Proof.Machine.execXAdd h d a ix b s
  | .xSub h d a ix b => Sys2Proof.Machine.execXSub h d a ix b s
  | .xMul h d a ix b => Sys2Proof.Machine.execXMul h d a ix b s
  | .xMulh h d a ix b => Sys2Proof.Machine.execXMulh h d a ix b s
  | .xDiv h d a ix b => Sys2Proof.Machine.execXDiv h d a ix b s
  | .xRem h d a ix b => Sys2Proof.Machine.execXRem h d a ix b s
  | .xAnd h d a ix b => Sys2Proof.Machine.execXAnd h d a ix b s
  | .xOr h d a ix b => Sys2Proof.Machine.execXOr h d a ix b s
  | .xXor h d a ix b => Sys2Proof.Machine.execXXor h d a ix b s
  | .xShl h d a ix b => Sys2Proof.Machine.execXShl h d a ix b s
  | .xShr h d a ix b => Sys2Proof.Machine.execXShr h d a ix b s
  | .xSar h d a ix b => Sys2Proof.Machine.execXSar h d a ix b s
  | .xMin h d a ix b => Sys2Proof.Machine.execXMin h d a ix b s
  | .xMax h d a ix b => Sys2Proof.Machine.execXMax h d a ix b s
  | .xClz h d a => Sys2Proof.Machine.execXClz h d a s
  | .xPcnt h d a => Sys2Proof.Machine.execXPcnt h d a s
  | .xSext h d a ix b => Sys2Proof.Machine.execXSext h d a ix b s
  | .xCmp h p k a ix b => Sys2Proof.Machine.execXCmp h p k a ix b s
  | .xPand h p n a b m => Sys2Proof.Machine.execXPand h p n a b m s
  | .xPor h p n a b m => Sys2Proof.Machine.execXPor h p n a b m s
  | .xPxor h p n a b m => Sys2Proof.Machine.execXPxor h p n a b m s
  | .xFadd h d a b => Sys2Proof.Machine.execXFadd h d a b s
  | .xFmul h d a b => Sys2Proof.Machine.execXFmul h d a b s
  | .xFmax h d a b => Sys2Proof.Machine.execXFmax h d a b s
  | .xFcvt h d a k => Sys2Proof.Machine.execXFcvt h d a k s
  | .xChk h a => Sys2Proof.Machine.execXChk h a s
  | .lLd h d a sz p ix => Sys2Proof.Machine.execLLd h d a sz p ix s
  | .lSt h d a sz ix => Sys2Proof.Machine.execLSt h d a sz ix s
  | .lVld h t r a o => Sys2Proof.Machine.execLVld h t r a o s
  | .lVst h t r a o f => Sys2Proof.Machine.execLVst h t r a o f s
  | .lCas h d a b z => Sys2Proof.Machine.execLCas h d a b z s
  | .lRadd h t r a o => Sys2Proof.Machine.execLRadd h t r a o s
  | .lAlloc h d a b => Sys2Proof.Machine.execLAlloc h d a b s
  | .lFree h a => Sys2Proof.Machine.execLFree h a s
  | .lRenew h a b => Sys2Proof.Machine.execLRenew h a b s
  | .lCopy h d a b => Sys2Proof.Machine.execLCopy h d a b s
  | .lGath h d a b => Sys2Proof.Machine.execLGath h d a b s
  | .lRld h d a b => Sys2Proof.Machine.execLRld h d a b s
  | .lRst h d a b => Sys2Proof.Machine.execLRst h d a b s
  | .lRred h d a b => Sys2Proof.Machine.execLRred h d a b s
  | .lMcast h d a b => Sys2Proof.Machine.execLMcast h d a b s
  | .lStash h t a b => Sys2Proof.Machine.execLStash h t a b s
  | .lWin h d a b => Sys2Proof.Machine.execLWin h d a b s
  | .lAmoAdd h d a b z => Sys2Proof.Machine.execLAmoAdd h d a b z s
  | .lAmoAnd h d a b z => Sys2Proof.Machine.execLAmoAnd h d a b z s
  | .lAmoOr h d a b z => Sys2Proof.Machine.execLAmoOr h d a b z s
  | .lAmoXor h d a b z => Sys2Proof.Machine.execLAmoXor h d a b z s
  | .lAmoMin h d a b z => Sys2Proof.Machine.execLAmoMin h d a b z s
  | .lAmoMax h d a b z => Sys2Proof.Machine.execLAmoMax h d a b z s
  | .lAmoSwap h d a b z => Sys2Proof.Machine.execLAmoSwap h d a b z s
  | .vAdd h t d a b => Sys2Proof.Machine.execVAdd h t d a b s
  | .vSub h t d a b => Sys2Proof.Machine.execVSub h t d a b s
  | .vMul h t d a b => Sys2Proof.Machine.execVMul h t d a b s
  | .vFma h t d a b => Sys2Proof.Machine.execVFma h t d a b s
  | .vMax h t d a b => Sys2Proof.Machine.execVMax h t d a b s
  | .vMin h t d a b => Sys2Proof.Machine.execVMin h t d a b s
  | .vNeg h t d a => Sys2Proof.Machine.execVNeg h t d a s
  | .vAbs h t d a => Sys2Proof.Machine.execVAbs h t d a s
  | .vExp2 h t d a => Sys2Proof.Machine.execVExp2 h t d a s
  | .vLog2 h t d a => Sys2Proof.Machine.execVLog2 h t d a s
  | .vRcp h t d a => Sys2Proof.Machine.execVRcp h t d a s
  | .vRsqrt h t d a => Sys2Proof.Machine.execVRsqrt h t d a s
  | .vCvt h t d a k => Sys2Proof.Machine.execVCvt h t d a k s
  | .vCmpLt h t d a b => Sys2Proof.Machine.execVCmpLt h t d a b s
  | .vCmpLe h t d a b => Sys2Proof.Machine.execVCmpLe h t d a b s
  | .vCmpEq h t d a b => Sys2Proof.Machine.execVCmpEq h t d a b s
  | .vSel h t d a b => Sys2Proof.Machine.execVSel h t d a b s
  | .vRmax h t d a => Sys2Proof.Machine.execVRmax h t d a s
  | .vRsum h t d a => Sys2Proof.Machine.execVRsum h t d a s
  | .vBcast h t d a => Sys2Proof.Machine.execVBcast h t d a s
  | .vGet h t d a b => Sys2Proof.Machine.execVGet h t d a b s
  | .vPut h t d a b => Sys2Proof.Machine.execVPut h t d a b s
  | .vMov h t d a u => Sys2Proof.Machine.execVMov h t d a u s
  | .vPerm h t d a b => Sys2Proof.Machine.execVPerm h t d a b s
  | .vAnd h t d a b => Sys2Proof.Machine.execVAnd h t d a b s
  | .vOr h t d a b => Sys2Proof.Machine.execVOr h t d a b s
  | .vXor h t d a b => Sys2Proof.Machine.execVXor h t d a b s
  | .mNop h => Sys2Proof.Machine.execMNop h s
  | .mPrec h t a k => Sys2Proof.Machine.execMPrec h t a k s
  | .mShape h sh a => Sys2Proof.Machine.execMShape h sh a s
  | .mPush h sh a w p r sz => Sys2Proof.Machine.execMPush h sh a w p r sz s
  | .mSwap h => Sys2Proof.Machine.execMSwap h s
  | .mFeed h t sh a w x y r => Sys2Proof.Machine.execMFeed h t sh a w x y r s
  | .mDrain h t n e hi => Sys2Proof.Machine.execMDrain h t n e hi s
  | .mClear h => Sys2Proof.Machine.execMClear h s
  | .bSafe h => Sys2Proof.Machine.execBSafe h s
  | .bJmp h k => Sys2Proof.Machine.execBJmp h k s
  | .bCall h k => Sys2Proof.Machine.execBCall h k s
  | .bLadder h p q u v k => Sys2Proof.Machine.execBLadder h p q u v k s
  | .bLoop h n b e p => Sys2Proof.Machine.execBLoop h n b e p s
  | .bTgt h k o => Sys2Proof.Machine.execBTgt h k o s
  | .bFence h p sz x => Sys2Proof.Machine.execBFence h p sz x s
  | .bOpen h a b => Sys2Proof.Machine.execBOpen h a b s
  | .bShut h d a => Sys2Proof.Machine.execBShut h d a s
  | .bTwait h e a => Sys2Proof.Machine.execBTwait h e a s
  | .bArm h b a => Sys2Proof.Machine.execBArm h b a s
  | .bBwait h b => Sys2Proof.Machine.execBBwait h b s
  | .bPop h d a n p => Sys2Proof.Machine.execBPop h d a n p s
  | .bPush h a b l p => Sys2Proof.Machine.execBPush h a b l p s
  | .bLaunch h d a => Sys2Proof.Machine.execBLaunch h d a s
  | .bPost h sz k a => Sys2Proof.Machine.execBPost h sz k a s
  | .bSusp h k a b j => Sys2Proof.Machine.execBSusp h k a b j s
  | .bExit h => Sys2Proof.Machine.execBExit h s
  | .bTrap h k => Sys2Proof.Machine.execBTrap h k s
  | .bRdst h d sz => Sys2Proof.Machine.execBRdst h d sz s
  | .bWrst h a sz => Sys2Proof.Machine.execBWrst h a sz s
  | .bCancel h l => Sys2Proof.Machine.execBCancel h l s
  | .bBrk h => Sys2Proof.Machine.execBBrk h s
  | .bWait h k a b => Sys2Proof.Machine.execBWait h k a b s
  | .bEret h => Sys2Proof.Machine.execBEret h s
  | .kImm k => Sys2Proof.Machine.execKImm k s
  | .packageReset => Sys2Proof.Machine.execPackageReset s
  | .tailWrite vf ring val => Sys2Proof.Machine.execTailWrite vf ring val s
  | .launch vf ring => Sys2Proof.Machine.execLaunch vf ring s
  | .job vf ring => Sys2Proof.Machine.execJob vf ring s
  | .push vf ring => Sys2Proof.Machine.execPush vf ring s
  | .close vf ring => Sys2Proof.Machine.execClose vf ring s
  | .post vf ring => Sys2Proof.Machine.execPost vf ring s
  | .cancel vf ring => Sys2Proof.Machine.execCancel vf ring s
  | .rbaseWrite vf ring val => Sys2Proof.Machine.execRbaseWrite vf ring val s
  | .rsizeWrite vf ring val => Sys2Proof.Machine.execRsizeWrite vf ring val s
  | .eqlostRead vf => Sys2Proof.Machine.execEqlostRead vf s
  | .postSliceEndNow vf val => Sys2Proof.Machine.execPostSliceEndNow vf val s
  | .postSliceEndAtEiss vf val => Sys2Proof.Machine.execPostSliceEndAtEiss vf val s
  | .postedSliceEndTrigger core ctx => Sys2Proof.Machine.execPostedSliceEndTrigger core ctx s
  | .release vf va => Sys2Proof.Machine.execRelease vf va s
  | .catchRecords vf val => Sys2Proof.Machine.execCatchRecords vf val s
  | .go vf val => Sys2Proof.Machine.execGo vf val s
  | .singleStep vf val => Sys2Proof.Machine.execSingleStep vf val s
  | .engineFreeze vf val => Sys2Proof.Machine.execEngineFreeze vf val s
  | .registerWrite r val => Sys2Proof.Machine.execRegisterWrite r val s
  | .setRoot part pa => Sys2Proof.Machine.execSetRoot part pa s
  | .setOwner part owner => Sys2Proof.Machine.execSetOwner part owner s
  | .lend vf part mask => Sys2Proof.Machine.execLend vf part mask s
  | .recallLend vf part => Sys2Proof.Machine.execRecallLend vf part s
  | .setRecarea part va imgcnt reccnt => Sys2Proof.Machine.execSetRecarea part va imgcnt reccnt s
  | .keyInstall owner slot id key => Sys2Proof.Machine.execKeyInstall owner slot id key s
  | .getVersion => Sys2Proof.Machine.execGetVersion s
  | .getCapabilities => Sys2Proof.Machine.execGetCapabilities s
  | .negotiateAlgorithms offered => Sys2Proof.Machine.execNegotiateAlgorithms offered s
  | .getDigests => Sys2Proof.Machine.execGetDigests s
  | .getCertificate slot => Sys2Proof.Machine.execGetCertificate slot s
  | .challenge nonce => Sys2Proof.Machine.execChallenge nonce s
  | .getMeasurements index nonce => Sys2Proof.Machine.execGetMeasurements index nonce s
  | .keyExchange data => Sys2Proof.Machine.execKeyExchange data s
  | .finish data => Sys2Proof.Machine.execFinish data s
  | .hostMemRead hdm pa size pos => Sys2Proof.Machine.execHostMemRead hdm pa size pos s
  | .hostMemWrite hdm pa size data => Sys2Proof.Machine.execHostMemWrite hdm pa size data s
  | .unitPlace => Sys2Proof.Machine.execUnitPlace s
  | .zeroingComplete core => Sys2Proof.Machine.execZeroingComplete core s
  | .sliceEnd core ctx => Sys2Proof.Machine.execSliceEnd core ctx s
  | .recordTakeUp => Sys2Proof.Machine.execRecordTakeUp s
  | .phaseEvaluation job => Sys2Proof.Machine.execPhaseEvaluation job s
  | .nodeConsider graph node => Sys2Proof.Machine.execNodeConsider graph node s
  | .unitEnd core ctx => Sys2Proof.Machine.execUnitEnd core ctx s
  | .recallHandlerKill core ctx => Sys2Proof.Machine.execRecallHandlerKill core ctx s
  | .recallReturn part => Sys2Proof.Machine.execRecallReturn part s
  | .usageForward => Sys2Proof.Machine.execUsageForward s
  | .scanPassStart cluster => Sys2Proof.Machine.execScanPassStart cluster s
  | .scanPassEnd core pass => Sys2Proof.Machine.execScanPassEnd core pass s
  | .correctedError site => Sys2Proof.Machine.execCorrectedError site s
  | .retirement site => Sys2Proof.Machine.execRetirement site s
  | .wearWarning die hours => Sys2Proof.Machine.execWearWarning die hours s
  | .scrubGranule pa bad => Sys2Proof.Machine.execScrubGranule pa bad s
  | .memberDown pkg => Sys2Proof.Machine.execMemberDown pkg s
  | .spareFillDone fill => Sys2Proof.Machine.execSpareFillDone fill s
  | .securityAlarm cause => Sys2Proof.Machine.execSecurityAlarm cause s
  | .thermalThrottle on => Sys2Proof.Machine.execThermalThrottle on s
  | .powerLoss => Sys2Proof.Machine.execPowerLoss s
  | .arm src gang lpb => Sys2Proof.Machine.execArm src gang lpb s
  | .armed pkg gang => Sys2Proof.Machine.execArmed pkg gang s
  | .refuse pkg gang => Sys2Proof.Machine.execRefuse pkg gang s
  | .commit src gang => Sys2Proof.Machine.execCommit src gang s
  | .committed pkg gang => Sys2Proof.Machine.execCommitted pkg gang s
  | .gangtoExpiry gang => Sys2Proof.Machine.execGangtoExpiry gang s
  | .flitReceive port seq crcOk => Sys2Proof.Machine.execFlitReceive port seq crcOk s
  | .replayRequest port seq => Sys2Proof.Machine.execReplayRequest port seq s
  | .remoteLoadRequest r blk => Sys2Proof.Machine.execRemoteLoadRequest r blk s
  | .remoteStoreRequest r => Sys2Proof.Machine.execRemoteStoreRequest r s
  | .directReductionRequest r op vals => Sys2Proof.Machine.execDirectReductionRequest r op vals s
  | .groupContribution x => Sys2Proof.Machine.execGroupContribution x s
  | .mirrorWrite core => Sys2Proof.Machine.execMirrorWrite core s
  | .loadResponse core id cause data => Sys2Proof.Machine.execLoadResponse core id cause data s
  | .acknowledgement core id answer => Sys2Proof.Machine.execAcknowledgement core id answer s
  | .movedNack core id => Sys2Proof.Machine.execMovedNack core id s
  | .requestTimeout core id => Sys2Proof.Machine.execRequestTimeout core id s
  | .rankExclusion group rank => Sys2Proof.Machine.execRankExclusion group rank s
  | .roundClose group => Sys2Proof.Machine.execRoundClose group s
  | .roundTimeout group => Sys2Proof.Machine.execRoundTimeout group s
  | .resultWrite group core r => Sys2Proof.Machine.execResultWrite group core r s
  | .multicastReplica r => Sys2Proof.Machine.execMulticastReplica r s
  | .handlerStart core => Sys2Proof.Machine.execHandlerStart core s
  | .waitSatisfied core ctx => Sys2Proof.Machine.execWaitSatisfied core ctx s
  | .scoreboardLand core ctx tag => Sys2Proof.Machine.execScoreboardLand core ctx tag s
  | .resultLand core ctx => Sys2Proof.Machine.execResultLand core ctx s
  | .trapReplay core ctx => Sys2Proof.Machine.execTrapReplay core ctx s
  | .preemptRequest core ctx src => Sys2Proof.Machine.execPreemptRequest core ctx src s
  | .stopPointReached core ctx => Sys2Proof.Machine.execStopPointReached core ctx s
  | .engineStopAck core ctx e => Sys2Proof.Machine.execEngineStopAck core ctx e s
  | .collectiveStopExpiry core ctx => Sys2Proof.Machine.execCollectiveStopExpiry core ctx s
  | .weirComplete core ctx => Sys2Proof.Machine.execWeirComplete core ctx s
  | .pinRenewal core => Sys2Proof.Machine.execPinRenewal core s
  | .rillSweep core => Sys2Proof.Machine.execRillSweep core s
  | .issueQueueLeave agent idx => Sys2Proof.Machine.execIssueQueueLeave agent idx s
  | .pendingCommit agent idx => Sys2Proof.Machine.execPendingCommit agent idx s
  | .portApply pool => Sys2Proof.Machine.execPortApply pool s
  | .loadBind agent idx pos => Sys2Proof.Machine.execLoadBind agent idx pos s
  | .atomicApply agent idx => Sys2Proof.Machine.execAtomicApply agent idx s
  | .raddBlockApply die idx => Sys2Proof.Machine.execRaddBlockApply die idx s
  | .fenceComplete agent idx => Sys2Proof.Machine.execFenceComplete agent idx s
  | .shutCommit agent idx => Sys2Proof.Machine.execShutCommit agent idx s
  | .pageWalk cluster idx => Sys2Proof.Machine.execPageWalk cluster idx s
  | .invalidation part page => Sys2Proof.Machine.execInvalidation part page s
  | .invalidationAck dest => Sys2Proof.Machine.execInvalidationAck dest s
  | .pageMigration part va newPa => Sys2Proof.Machine.execPageMigration part va newPa s
  | .engineCommandStart core e num => Sys2Proof.Machine.execEngineCommandStart core e num s
  | .engineBlockApply core e num pos => Sys2Proof.Machine.execEngineBlockApply core e num pos s
  | .engineCommandEnd core e num => Sys2Proof.Machine.execEngineCommandEnd core e num s
  | .operandFillDone core ctx => Sys2Proof.Machine.execOperandFillDone core ctx s
  | .saveImageWritten core ctx => Sys2Proof.Machine.execSaveImageWritten core ctx s
  | .restoreComplete core ctx => Sys2Proof.Machine.execRestoreComplete core ctx s
  | .gangCancelMessage src gang => Sys2Proof.Machine.execGangCancelMessage src gang s

end Sys2Proof.Machine
end

