-- ==== Sys2Proof/Machine/Issue.lean ====
section
/-!
DEFINITION. Issuing one bundle: the selector (spec/02_execution_model.md R28 to R31), the faults before the words
in the order of spec/17_traps_preemption.md R239, the words of a bundle with read before write
(spec/04_core_model.md R64), and what its completion does (loops R77, R78; stop points R79, R80; traps R249,
R257).
-/

namespace Sys2Proof.Machine

/-! ### The issue selector (R30) -/

/-- Contexts of a core in rotation, starting after one served last. -/
def rotation (last : Nat) : List Nat := (List.range 16).map (fun i => (last + 1 + i) % 16)

def readyOf (k : Core) (arr : Bool) (i : Nat) : Bool :=
  let c := smGet {} k.ctxs i
  (c.st == .ready || (c.st == .stalled && c.retry && c.restoring.isNone)) && c.arr == arr

/-- The context whose bundle issues next on a core. -/
def selectCtx (k : Core) : Option Nat :=
  let a := (rotation k.rrArr).find? (readyOf k true)
  let u := (rotation k.rrUnit).find? (readyOf k false)
  match a, u with
  | some i, some j => if max 1 ((smGet {} k.ctxs j).hbudget.toNat % 256) ≤ k.arrRun then some j else some i
  | some i, none => some i
  | none, u => u

/-- The selector serves a context. -/
def served (k : Core) (i now : Nat) : Core :=
  if (smGet {} k.ctxs i).arr then { k with rrArr := i, arrRun := k.arrRun + 1, turn := now + 1 }
  else { k with rrUnit := i, arrRun := 0, turn := now + 1 }

/-! ### Words -/

/-- Run one word in its place. -/
def runOne (s : State) (idx : Nat) (w : FWord) : State :=
  match decodeNat w.raw with
  | .error _ => s
  | .ok i =>
    let m := s.m
    let m := { m with iss := { m.iss with pkt := w.pkt, pos := w.pos, idx := idx } }
    match exec i { s with m := m } with
    | .next t =>
      if pipeOf w.raw = 5 then t else { t with m := { t.m with iss := { t.m.iss with ks := [] } } }
    | _ => s

/-- A word with the K words before it, each with its place in the bundle. -/
abbrev Group := List (Nat × FWord)

/-- The words of a bundle in groups: K words go with their host (R87). -/
def groupsFrom (acc : Group) : List (Nat × FWord) → List Group
  | [] => if acc.isEmpty then [] else [acc]
  | e :: rest => if pipeOf e.2.raw = 5 then groupsFrom (acc ++ [e]) rest else (acc ++ [e]) :: groupsFrom [] rest

def groupsOf (ws : List FWord) : List Group := groupsFrom [] (ws.zipIdx.map (fun e => (e.2, e.1)))

/-- The pipe of a group's host. -/
def groupPipe (g : Group) : Nat := match g.getLast? with | some e => pipeOf e.2.raw | none => 5

def stopped (s : State) : Bool := s.m.iss.trapped || s.m.iss.held

/-- Run a group, unless the bundle has stopped. -/
def runGroup (s : State) (g : Group) : State := g.foldl (fun s e => if stopped s then s else runOne s e.1 e.2) s

/-- Does a state's issuing context wait (R29)? -/
def waits (s : State) : Bool := (issCtx s.m).st == .waiting && s.m.iss.held

/-- Run a bundle's words from the state before it. The M word goes first, so that a V word finds the rows it drains
(R138); the undrained test of a b.wrst to PREC goes by the array as the bundle issues (R64; DEDUCED, log 84, for an m.drain or
m.clear of the same bundle). If any word traps, stalls or waits, the bundle does not complete: a word that waits holds all the others
(R29); else the first word in bundle order that stops decides, alone (R239). -/
def runWords (s : State) (gs : List Group) : State :=
  let ms := gs.filter (fun g => groupPipe g == 3)
  let rest := gs.filter (fun g => groupPipe g != 3)
  let r := (ms ++ rest).foldl runGroup s
  if stopped r then
    let alone := gs.map (runGroup s)
    match (alone.find? waits), (alone.find? stopped) with
    | some t, _ => t
    | none, some t => t
    | none, none => r
  else r

/-! ### Completion -/

/-- Active hardware loop. -/
def loopActive (c : Ctx) : Bool := c.lepi.getLsbD 63

/-- The loop after a bundle whose last word stands at `lp`, `lpos`: the context, and whether its epilogue ended
(R77, R78). A bundle that takes a branch and holds the last word of the epilogue leaves it by the branch: no epilogue end, and no
stop there (DEDUCED, log 82: R77 does not say that the end asks for no taken branch, as it says of an iteration's). -/
def loopStep (snap c : Ctx) (taken : Bool) (lp lpos : Nat) : Ctx × Bool :=
  let lo := snap.lstart.toNat % 2 ^ 32
  let hi := snap.lend.toNat % 2 ^ 32
  let inside (p : Nat) : Bool := lo ≤ p && p ≤ hi
  let epi := (hi + snap.lepi.toNat % 16) % 2 ^ 32
  let off (c : Ctx) : Ctx := { c with lepi := c.lepi &&& ~~~(BitVec.ofNat 64 (2 ^ 63)) }
  if !(loopActive snap) then (c, false)
  else if taken then (if inside lp && inside c.pc.toNat then (c, false) else (off c, false))
  else if lp = hi ∧ lpos = 2 ∧ snap.lc ≠ 0 then
    let c := { c with lc := snap.lc - 1 }
    if snap.lc ≠ 1 then ({ c with pc := BitVec.ofNat 32 lo, wpos := 0, gapcnt := 0 }, false)
    else if epi = hi then (off { c with gapcnt := 0 }, true)
    else (c, false)
  else if lp = epi ∧ lpos = 2 then (off { c with gapcnt := 0 }, true)
  else (c, false)

/-- A pending result no longer writes a register. -/
def withoutDst (p : Pend) (d : Dst) : Pend := { p with dst := p.dst.map (fun x => if x = d then .s 0 else x) }

/-- A forced epilogue end (R78): the count left goes to the loop's count register, over what is exposed or pending for it, and
execution resumes at the prologue. -/
def forcedEnd (c : Ctx) : Ctx :=
  if c.lrem = 0 then { c with lsave := 0 }
  else
    let c := landAll c
    let c := { c with pend := c.pend.map (fun p => withoutDst p (.s c.lreg)) }
    { storeReg c (.s c.lreg) { val := c.lrem } with
      lsave := BitVec.ofNat 64 (64 + c.lreg.toNat), pc := c.lpro.setWidth 32, wpos := 0, lrem := 0 }

/-- The places that the breakpoint registers of an owner's virtual functions name: enable, tracepoint (R257, R260). -/
def bpHit (m : Mach) (core : Nat) (c : Ctx) (pkt pos : Nat) (trace : Bool) : Bool :=
  pos == 0 && m.vfs.any (fun v => v.2.owner == some (ctxOwner c) && v.2.bp.any (fun b =>
    b.2.getLsbD 40 && b.2.getLsbD 41 == trace && b.2.toNat % 2 ^ 32 == pkt && b.2.toNat / 2 ^ 32 % 64 == clusterOf core))

/-- Record a tracepoint (R260): the state of the core as the bundle completes, of which a tracepoint names any part. -/
def traceBundle (m : Mach) (core i : Nat) (c : Ctx) (pkt pos : Nat) : Mach :=
  if bpHit m core c pkt pos true then
    let k := getCore m core
    modPart m (clusterOf core) (fun p =>
      if p.traces.length < 4096 then { p with traces := p.traces ++ [{
          core := core, ctx := i, pkt := pkt, stalled := c.stallCycles, eiss3 := smGet 0 k.eiss 3, etl3 := smGet 0 k.etl 3,
          free := slotsFree m core k.rqDest, nowt := BitVec.ofNat 64 m.nowt, tret := BitVec.ofNat 64 (tretOf m core)
          winbase := (getPart m (clusterOf core)).winbase, harvmap := harvmap m core, state := k }] }
      else { p with tracesLost := p.tracesLost + 1 })
  else m

/-- The traps that follow a completed bundle, first of them the one taken (R239). DEDUCED (log 61): single-step comes
after every completing bundle (R239, R257), although R79 names single-step stops among those taken at stop points. -/
def postTraps (m : Mach) (core i : Nat) : List (Byte × Word) :=
  m.iss.post ++ (if (getCore m core).stepMask.getLsbD i then [(0x42, placeWord m.iss.pkt0 m.iss.pos0)] else [])

/-- The unit or handler of a completed bundle ends or suspends (R38, R39): the slots of a request that has come to nothing are
free again. -/
def finishEnded (m : Mach) (core i : Nat) : Mach :=
  let c := getCtx m core i
  let to_ (w : Wait) : Mach := modCtx (dropPre m c.area c.pre) core i (fun c => toWaiting { c with stallCycles := 0, pre := none } w)
  if c.ending.isSome then to_ .ending else if c.susp.isSome then to_ .susp else m

/-- The bundle of a frame-started context's b.eret has completed: the frame is released, and the context is Dormant again
(R291). -/
def finishRelease (m : Mach) (core i : Nat) (va : Word) (hc hi : Nat) : Mach :=
  match frameRelease m core i va hc hi with
  | .ok m => freeCtx m core i false
  | .error (cause, a) => trapEnter m core i cause a (placeWord m.iss.pkt0 m.iss.pos0) m.iss.pkt0 m.iss.pos0 none

/-- A bundle has completed. -/
def finishBundle (m : Mach) (last : FWord) : Mach :=
  let core := m.iss.core
  let i := m.iss.ctx
  let snap := m.iss.snap
  let m := traceBundle m core i snap m.iss.pkt0 m.iss.pos0
  if m.iss.ended then
    match m.iss.rel with
    | some (va, hc, hi) => finishRelease m core i va hc hi
    | none => finishEnded m core i
  else
    let c := getCtx m core i
    let c := { c with
      cause := causeWord (causeTm c.cause) 0 (c.cause.setWidth 8)
      skipBp := false
      stallCycles := 0
      gapcnt := if m.iss.safe || m.iss.looped then 0 else c.gapcnt }
    let (c, epi) := if m.iss.eret then (c, false) else loopStep snap c m.iss.taken last.pkt last.pos
    let forced := epi && c.lepi.getLsbD 62
    let c := if forced then forcedEnd c else c
    let stop := !c.arr && !(isControl core) && (m.iss.safe || epi) && (c.pre.isSome || c.cancelled)
    let epc := if m.iss.taken then (m.iss.nextPkt, m.iss.nextPos) else (c.pc.toNat, c.wpos)
    let m := setCtx m core i c
    match postTraps m core i with
    | (cause, fi) :: _ => trapEnter m core i cause 0 fi epc.1 epc.2 none
    | [] =>
      if !stop then m
      else if c.cancelled then beginEnd m core i .cancelled
      else modCtx m core i (fun c => { c with st := .waiting, wait := none, gapcnt := 0 })

/-! ### Issue -/

/-- Does a MOVING page hold the record that a due subnormal-assist is to write (spec/08 R160)? -/
def assistHeld (m : Mach) (core i : Nat) (d : Due) : Bool :=
  match d.assist, assistVa m core i with
  | some (n, _), some va => heldWrite m (whoOf m core i) va n
  | _, _ => false

/-- Raise a fault of an earlier bundle that is due (R71, R151, R206, R213); subnormal-assist writes its record. -/
def raiseDue (m : Mach) (core i : Nat) (d : Due) : Mach :=
  let c := getCtx m core i
  let m := setCtx m core i { c with due := c.due.erase d }
  let trap (m : Mach) : Mach := trapEnter m core i d.cause d.faddr d.finfo c.pc.toNat c.wpos none
  match d.assist with
  | none => trap m
  | some (n, x) =>
    match assistVa m core i with
    | none => beginEnd m core i (.failed d.cause)
    | some va =>
      match writeVa m hiveAgent (whoOf m core i) va n x with
      | .ok m => trap m
      | .error (e, a) => areaRefused m core i e a

/-- The word of a bundle that holds the last word of LEND and is not the bundle's last (R77). -/
def crossing (c : Ctx) (ws : List FWord) : Option FWord :=
  if loopActive c then ws.dropLast.find? (fun w => w.pkt == c.lend.toNat % 2 ^ 32 && w.pos == 2) else none

/-- Does the bundle stall for a pending result (R70), or a window being written (R157, R310)? -/
def bundleStalls (m : Mach) (c : Ctx) (ws : List FWord) : Bool :=
  c.pend.any (fun p => match p.use with | .win .. => true | _ => false)
    || ws.zipIdx.any (fun e =>
        match decodeNat e.1.raw with | .ok i => wordStalls c (guardVal m e.2) e.1.raw i | .error _ => false)

/-- The guard of the word at a place; none while its predicate is pending (R70). -/
def guardKnown (m : Mach) (c : Ctx) (idx : Nat) (g : BitVec 3) : Option Bool :=
  if g != 0 && pendHolds c [.p g] [] then none else some (guardVal m idx g)

/-- The context waits for a resource: it takes no issue cycle (R28). -/
def stallCtx (m : Mach) (core i : Nat) : Mach := modCtx m core i (fun c => { c with st := .stalled, retry := false })

/-- The trap of the bundle that would issue at a context's PC. -/
def trapHere (m : Mach) (core i : Nat) (cause : Byte) (faddr finfo : Word) : Mach :=
  let c := getCtx m core i
  trapEnter m core i cause faddr finfo c.pc.toNat c.wpos none

/-- The issue frame of a bundle. -/
def frameOf (m : Mach) (core i : Nat) (last : FWord) : Iss :=
  let c := getCtx m core i
  let nx := nextPlace last.pkt last.pos
  { core := core, ctx := i, snap := c, pkt := c.pc.toNat, pos := c.wpos, pkt0 := c.pc.toNat, pos0 := c.wpos,
    nextPkt := nx.1, nextPos := nx.2, afterPkt := (last.pkt + 1) % 2 ^ 32,
    idx := 0, ks := [], tag0 := m.tag, arr := (getCore m core).arr }

/-- A fetched bundle of a context: its checks in the order of R239, then its words. FINFO of gap-overrun names the bundle's
first word: DESIGN CHOICE (log 101), no rule names a word for it. While check 5 waits for a guard, those
behind it are not made, but for the count of the gap, which no word of the bundle decides (R70, R80). -/
def issueWords (s : State) (core i : Nat) (ws : List FWord) : State :=
  match ws.getLast? with
  | none => s
  | some last =>
    let m := s.m
    let m := { m with iss := frameOf m core i last }
    let c := getCtx m core i
    let done (m : Mach) : State := { s with m := { m with iss := {} } }
    match bundleFault (isControl core) ws (guardKnown m c) with
    | some (cause, w) => done (trapHere m core i cause 0 (placeWord w.pkt w.pos))
    | none =>
      let waits := privWaits (isControl core) ws (guardKnown m c)
      match (if waits then none else crossing c ws) with
      | some w => done (trapHere m core i 0x01 0 (placeWord w.pkt w.pos))
      | none =>
        if max 64 (c.maxgap.toNat % 2 ^ 32) < c.gapcnt.toNat then
          done (trapHere m core i 0x28 0 (placeWord c.pc.toNat c.wpos))
        else if waits || bundleStalls m c ws then done (stallCtx m core i)
        else
          let m := modCtx m core i (fun c => { c with pc := BitVec.ofNat 32 m.iss.nextPkt, wpos := m.iss.nextPos })
          let r := runWords { s with m := m } (groupsOf ws)
          if r.m.iss.held then { r with m := { r.m with iss := {} } }
          else
            let m := modCore r.m core (fun k => served k i r.m.cycle)
            { r with m := { (if m.iss.trapped then m else finishBundle m last) with iss := {} } }

/-- The next bundle of a context; after a trap it is Stalled until the rows in flight have landed (R71). -/
def issueCtx (s : State) (core i : Nat) : State :=
  let m := modCore s.m core (fun k => landRowsDue k s.m.cycle)
  let m := modCtx m core i (fun c => { landDue c m.cycle with st := .ready, retry := false })
  let c := getCtx m core i
  let out (m : Mach) : State := { s with m := m }
  if m.cycle < c.landBy then out (stallCtx m core i) else
  match c.due.find? (fun d => d.notBefore ≤ m.cycle) with
  | some d => out (if assistHeld m core i d then stallCtx m core i else raiseDue m core i d)
  | none =>
    if !c.skipBp && bpHit m core c c.pc.toNat c.wpos false then
      out (trapHere m core i 0x41 0 (placeWord c.pc.toNat c.wpos))
    else
      let (r, ts) := fetchBundle m core i
      let m := ts.foldl (fun m t => metTr m core (some t)) m
      match r with
      | .fault cause a f => out (trapHere m core i cause a f)
      | .miss q => out (stallCtx (enterMiss m core q) core i)
      | .ok ws => issueWords (out m) core i ws

/-- The issue of a core's next bundle, at most one in a cycle (R30). -/
def issueCore (s : State) (core : Nat) : State :=
  let k := getCore s.m core
  if s.m.cycle < k.turn then s
  else
    match selectCtx k with
    | none => s
    | some i => issueCtx s core i

end Sys2Proof.Machine
end

