-- ==== Sys2Proof/Machine/Clock.lean ====
section
/-!
DEFINITION. One cycle of the core clock (spec/00_scope.md R2, spec/04_core_model.md R80, spec/03_hive_scheduler.md
R60, spec/18_program_remote_stream.md R263, spec/19_system.md R273, R282).
-/

namespace Sys2Proof.Machine

/-- One more cycle of the count of R80, which stops at the largest value of GAP. -/
def gapUp (g : Word) : Word := if g.toNat < 0xFFFFFFFF then g + 1 else g

/-- A cycle of a context: GAPCNT counts while it is Ready or Stalled; a Stalled bundle may try again (R28, R263). -/
def ctxCycle (c : Ctx) : Ctx :=
  match c.st with
  | .ready => { c with gapcnt := gapUp c.gapcnt }
  | .stalled => { c with gapcnt := gapUp c.gapcnt, stallCycles := c.stallCycles + 1, retry := true }
  | _ => c


/-- The cycles that a context is charged for: its owner; is it a unit on a lent cluster (R60, R273)? -/
def busyCtxs (k : Core) : List (Nat × Bool) :=
  (k.ctxs.filter (fun e => e.2.st != .free && e.2.st != .dormant)).map (fun e =>
    (ctxOwner e.2, match e.2.unit with | some u => u.lent | none => false))

/-- Charge a cycle of a context (R60, R273): LENTIN counts the owner's units on clusters lent to it, LENTOUT whatever a lent
cluster runs for another owner, a borrower's handler among it. -/
def chargeCycle (m : Mach) (core : Nat) (o : Nat) (lent : Bool) : Mach :=
  let x := getOwner m o
  let m := setOwnerOf m o { x with cycles := x.cycles + 1, lentIn := if lent then x.lentIn + 1 else x.lentIn }
  let q := getPart m (clusterOf core)
  match q.owner with
  | some l => if lent || (q.lent && l != o) then setOwnerOf m l { getOwner m l with lentOut := (getOwner m l).lentOut + 1 } else m
  | none => m

def meterCycle (m : Mach) : Mach :=
  m.cores.foldl (fun m e => (busyCtxs e.2).foldl (fun m x => chargeCycle m e.1 x.1 x.2) m) m

/-- Ticks: one every 160 cycles (R2); a throttled core clock runs slower while ticks do not (spec/19 R282), by how
much the spec leaves open. -/
def tickNow (m : Mach) : Mach :=
  let sub := m.sub + 1 + (if m.throttled then Config.freeIndex (m.fresh * 65536) % 160 else 0)
  { m with sub := sub % 160, nowt := m.nowt + sub / 160 }

/-- The ranks of units that ended FAILED or CANCELLED as records are excluded (spec/14 R229), and the units that waited for
what they left behind count as ended (spec/02 R22). -/
def settleEnded (m : Mach) : Mach :=
  countOwed (endRests (m.exclDue.foldl (fun m x => excludeUnit m x.1 x.2) { m with exclDue := [] }))

/-- The writes that a MOVING page has held are made once it holds them no longer (spec/08 R160): completion records, the
frames of held contexts, and events. -/
def payHeld (m : Mach) : Mach :=
  let m := (m.cores.flatMap (fun e => e.2.ctxs.map (fun x => (e.1, x.1)))).foldl (fun m x => payFrame m x.1 x.2) (payRecs m)
  (m.vfs.map (·.1)).foldl payEvents m

/-- A context that resumes with an array state is Stalled while another holds the array, and waits for its restore when none
does (spec/09 R178). -/
def restoring (m : Mach) (k : Core) (c : Ctx) : Ctx :=
  match c.restoring.bind (fun x => imageOf m x.1) with
  | some im => if im.arr.isNone then c else { c with st := if k.arr.holder.isSome then .stalled else .waiting }
  | none => c

/-- A cycle of a core; while its pool is zeroed its contexts have not started (spec/08 R144). -/
def coreCycle (m : Mach) (k : Core) : Core :=
  if k.zeroUntil.isSome then k else { k with ctxs := k.ctxs.map (fun e => (e.1, ctxCycle (restoring m k e.2))) }

/-- One cycle. -/
def tick (m : Mach) : Mach :=
  if m.phase = .running then
    let m := payHeld (settleEnded (tickNow { meterCycle m with cycle := m.cycle + 1 }))
    readyRecords { m with cores := m.cores.map (fun e => (e.1, coreCycle m e.2)) }
  else m

end Sys2Proof.Machine
end

