-- ==== Sys2Proof/Machine/Object.lean ====
section
/-!
DEFINITION. What spec/06_assembly_objects.md says of programs before they run: how words, immediates and blocks are
spelled (R100 to R112), the object container, its relocations (R114 to R116) and the loader (R113, R118). None of
these is a step of the package: they are functions of the tools and of the host, over the same words, blocks and
memory.
-/

namespace Sys2Proof.Machine

/-! ### Words and immediates -/

/-- The K bodies and the low field with which an immediate is spelled (R104): none, one or two K words. -/
def splitImm (w : Nat) (v : Int) : Option (List Nat × Nat) :=
  if -(2 ^ (w - 1)) ≤ v ∧ v < 2 ^ (w - 1) then some ([], (v % 2 ^ w).toNat)
  else if -(2 ^ 30) ≤ v ∧ v < 2 ^ 30 then some ([(v / 2 ^ 6 % 2 ^ 25).toNat], (v % 2 ^ 6).toNat)
  else if -(2 ^ 55) ≤ v ∧ v < 2 ^ 55 then
    some ([(v / 2 ^ 6 % 2 ^ 25).toNat, (v / 2 ^ 31 % 2 ^ 25).toNat], (v % 2 ^ 6).toNat)
  else none

/-- The field of a memory operand: the offset over the scale of the form, within its range (R101). -/
def scaledOff (lo hi : Int) (scale off : Int) : Option Int :=
  if scale ≠ 0 ∧ off % scale = 0 ∧ lo ≤ off / scale ∧ off / scale ≤ hi then some (off / scale) else none

/-- The word with its C bit. -/
def setC (c : Bool) (w : Nat) : Nat := w % 2 ^ 31 + (if c then 2 ^ 31 else 0)

/-- C is 1 on every word of a bundle but the last (R102). -/
def bundleWords : List Nat → List Nat
  | [] => []
  | [w] => [setC false w]
  | w :: ws => setC true w :: bundleWords ws

/-- What a code section is laid out from (R103). -/
inductive CodeItem where
  /-- a label, a unit, a handler: it starts a packet -/
  | label
  /-- a bundle; does its last word end its packet (b.call, b.loop)? -/
  | bundle (ws : List Nat) (ends : Bool)
deriving DecidableEq, Repr

/-- How many fill words bring a place to a multiple of three. -/
def fillCount (place : Nat) : Nat := (3 - place % 3) % 3

/-- The words of a code section from a place in it, x.nop filling it (R103). -/
def layout : List CodeItem → Nat → List Nat
  | [], place => List.replicate (fillCount place) 0
  | .label :: rest, place =>
    let n := fillCount place
    List.replicate n 0 ++ layout rest (place + n)
  | .bundle ws ends :: rest, place =>
    let n := if ends then fillCount (place + ws.length) else 0
    List.replicate n 0 ++ (bundleWords ws ++ layout rest (place + n + ws.length))

/-- The drain bound of a safe bundle (R112): the largest bound on the straight path, 20 when the path reaches a
label. -/
def drainBound (bounds : List Nat) (label : Bool) : Nat :=
  if label then 20 else min 20 (bounds.foldl max 0)

/-! ### Blocks (R110, R111) -/

/-- An element as it is written. -/
inductive ElText where
  | code (c : Nat)
  | val (v : Val)
deriving DecidableEq, Repr

/-- The code of an element; none for an inexact or unrepresentable value (R110). -/
def elemText (f : BlkFmt) (aux : Int) (e : ElText) : Option Nat :=
  match e with
  | .code c => if c < 2 ^ f.w then some c else none
  | .val v =>
    let c := elemConv f aux true v
    let b := mkBlock 0 0x78 (aux % 256).toNat f.w [c]
    let back := elemRaw b f 0
    match v with
    | .nan _ _ => if valIsNan back then some c else none
    | _ => if valEq back v then some c else none

/-- A .block line: at most the format's elements, the missing ones code 0, CHK computed (R110). -/
def buildBlock (fmt scl : Nat) (aux : Int) (es : List ElText) : Option Block :=
  match blkFmt fmt with
  | none => none
  | some f =>
    if f.n < es.length ∨ 256 ≤ scl ∨ aux < -128 ∨ 127 < aux ∨ (aux ≠ 0 ∧ fmt ≠ 0x21) then none
    else (es.mapM (elemText f aux)).map (mkBlock fmt scl (aux % 256).toNat f.w)

/-- The block that .align pads a tensor section with (R111). -/
def padBlock : Block := mkBlock 0x30 0 0 8 []

/-! ### The object container (R114, R115) -/

/-- `n` bytes of a file from an offset, little-endian. -/
def fileNat (file : List Byte) (off n : Nat) : Nat := natOfBytes ((file.drop off).take n)

/-- The header (Table 6-5). -/
structure RocHeader where
  flags : Nat
  nsec : Nat
  strsec : Nat
  shoff : Nat
  fsize : Nat
  entry : Nat
deriving DecidableEq, Repr

/-- A section table entry (Table 6-6). -/
structure RocSection where
  name : Nat
  type : Nat
  flags : Nat
  va : Nat
  off : Nat
  size : Nat
  align : Nat
  link : Nat
deriving DecidableEq, Repr

/-- Why a file is refused (R113 to R118). -/
inductive RocRefusal where
  | magic | version | nonZero | outside | overlap | notLinked | unsigned | lifetime | region | collision
  | handlers | relocation | unmapped
deriving DecidableEq, Repr

def rocHeader (file : List Byte) : RocHeader :=
  { flags := fileNat file 6 2, nsec := fileNat file 8 2, strsec := fileNat file 10 2, shoff := fileNat file 16 8
    fsize := fileNat file 24 8, entry := fileNat file 32 4 }

def rocSection (file : List Byte) (at' : Nat) : RocSection :=
  { name := fileNat file at' 4, type := fileNat file (at' + 4) 2, flags := fileNat file (at' + 6) 2
    va := fileNat file (at' + 8) 8, off := fileNat file (at' + 16) 8, size := fileNat file (at' + 24) 8
    align := fileNat file (at' + 32) 1, link := fileNat file (at' + 36) 4 }

def rocSections (file : List Byte) : List RocSection :=
  let h := rocHeader file
  (List.range h.nsec).map (fun i => rocSection file (h.shoff + 40 * i))

/-- The bytes of the file that a section takes; a zero section takes none. -/
def inFile (s : RocSection) : Nat := if s.type = 4 then 0 else s.size

/-- Do two sections' file ranges overlap? -/
def overlaps (a b : RocSection) : Bool :=
  inFile a != 0 && inFile b != 0 && decide (a.off < b.off + inFile b) && decide (b.off < a.off + inFile a)

def anyOverlap : List RocSection → Bool
  | [] => false
  | s :: ss => ss.any (overlaps s) || anyOverlap ss

/-- The zero fields of the section table. -/
def sectionZero (file : List Byte) (at' : Nat) (s : RocSection) : Bool :=
  s.flags / 8 == 0 && fileNat file (at' + 33) 3 == 0 && (s.type != 4 || s.off == 0) && (s.type == 11 || s.link == 0)

/-- The zero fields of the records of a section (Tables 6-7 to 6-9, 2-6 and 8-11), and byte 0 of the strings. -/
def recordsZero (file : List Byte) (s : RocSection) : Bool :=
  let zero (n o len : Nat) : Bool := (List.range (s.size / n)).all (fun i => fileNat file (s.off + n * i + o) len == 0)
  let all (n : Nat) (f : Nat → Bool) : Bool := (List.range (s.size / n)).all (fun i => f (fileNat file (s.off + n * i) n))
  match s.type with
  | 5 => all 128 lpbZero
  | 6 => zero 24 1 7
  | 7 => all 32 winZero
  | 8 => zero 8 5 3
  | 9 => zero 8 6 2
  | 11 => zero 24 14 2
  | 13 => s.size == 0 || fileNat file s.off 1 == 0
  | 14 => zero 1368 72 8 && zero 1368 1360 8
  | _ => true

/-- The reader's checks, in the order of R114. -/
def rocCheck (file : List Byte) : Except RocRefusal (List RocSection) :=
  let h := rocHeader file
  let ss := rocSections file
  if fileNat file 0 4 ≠ 0x01434F52 then .error .magic
  else if fileNat file 4 2 ≠ 1 then .error .version
  else if h.flags / 4 ≠ 0 ∨ fileNat file 12 4 ≠ 0 ∨ fileNat file 36 28 ≠ 0
      ∨ !((List.range h.nsec).all (fun i => sectionZero file (h.shoff + 40 * i) (rocSection file (h.shoff + 40 * i))))
      ∨ !(ss.all (recordsZero file)) then
    .error .nonZero
  else if ss.any (fun s => decide (h.fsize < s.off + inFile s)) then .error .outside
  else if anyOverlap ss then .error .overlap
  else .ok ss

/-- The records of a section, each of `n` bytes, as file offsets. -/
def records (s : RocSection) (n : Nat) : List Nat := (List.range (s.size / n)).map (fun i => s.off + n * i)

/-- The offsets of all records of the sections of a type. -/
def recordsOf (ss : List RocSection) (type n : Nat) : List Nat :=
  ((ss.filter (fun s => s.type == type)).map (fun s => records s n)).flatten

/-! ### Relocations (R116) -/

/-- A relocation (Table 6-8) with its symbol's value: what it patches, at which byte, the addend. -/
structure Reloc where
  offset : Nat
  type : Nat
  s : Int
  a : Int
deriving DecidableEq, Repr

/-- Replace bits hi..lo of a number. -/
def setBits (x hi lo v : Nat) : Nat :=
  x % 2 ^ lo + v % 2 ^ (hi + 1 - lo) * 2 ^ lo + x / 2 ^ (hi + 1) * 2 ^ (hi + 1)

/-- Is a word a K word? -/
def isKWord (w : Nat) : Bool := bits w 30 28 == 5

/-- A value as `n` low bits. -/
def lowBits (v : Int) (n : Nat) : Nat := (v % 2 ^ n).toNat

/-- The host word that a type writes; `off` for the branch targets, `imm6` for the others. -/
def relocHost (type : Nat) (w : Nat) (v : Int) : Nat :=
  match type with
  | 1 => setBits w 16 0 (lowBits v 17)
  | 2 => setBits w 16 0 (lowBits v 6)
  | 3 => setBits w 16 0 (lowBits v 6)
  | _ => setBits w 5 0 (lowBits v 6)

/-- How many K words a type splits over. -/
def relocKs (type : Nat) : Nat :=
  match type with
  | 2 => 1
  | 3 => 2
  | 5 => 1
  | 6 => 2
  | _ => 0

/-- The bounds of v by type: −2^n .. 2^n − 1. -/
def relocRange (type : Nat) : Nat :=
  match type with
  | 1 => 16
  | 2 => 30
  | 3 => 55
  | 4 => 5
  | 5 => 30
  | _ => 55

/-- Write `n` bytes of a number into a string of bytes. -/
def patch (bs : List Byte) (off n x : Nat) : List Byte :=
  bs.take off ++ (List.range n).map (fun i => BitVec.ofNat 8 (x / 256 ^ i)) ++ bs.drop (off + n)

/-- Apply one relocation to the bytes of its section (R116). A PKT value is relative to the packet, of 12 bytes,
that holds the host word. -/
def applyReloc (bs : List Byte) (r : Reloc) : Except RocRefusal (List Byte) :=
  let v : Int := if r.type ≤ 3 then r.s + r.a - ((r.offset / 12 : Nat) : Int) else r.s + r.a
  let word (o : Nat) : Nat := fileNat bs o 4
  if bs.length < r.offset + (if r.type = 7 then 8 else 4) then .error .relocation
  else if r.type = 7 then .ok (patch bs r.offset 8 (lowBits v 64))
  else if r.type = 8 ∨ r.type = 9 then
    if 0 ≤ v ∧ v < 2 ^ 32 then .ok (patch bs r.offset 4 (lowBits v 32)) else .error .relocation
  else if r.type = 0 ∨ 9 < r.type ∨ v < -(2 ^ relocRange r.type) ∨ 2 ^ relocRange r.type ≤ v then .error .relocation
  else
    let host := patch bs r.offset 4 (relocHost r.type (word r.offset) v)
    let putK (bs : List Byte) (o lo : Nat) : List Byte :=
      patch bs o 4 (setBits (word o) 24 0 (lowBits (v / 2 ^ lo) 25))
    match relocKs r.type with
    | 0 => .ok host
    | 1 =>
      if 4 ≤ r.offset ∧ isKWord (word (r.offset - 4)) then .ok (putK host (r.offset - 4) 6) else .error .relocation
    | _ =>
      if 8 ≤ r.offset ∧ isKWord (word (r.offset - 4)) ∧ isKWord (word (r.offset - 8)) then
        .ok (putK (putK host (r.offset - 8) 6) (r.offset - 4) 31)
      else .error .relocation

/-- A 64-bit field as a signed integer. -/
def fileInt (file : List Byte) (off : Nat) : Int := (BitVec.ofNat 64 (fileNat file off 8)).toInt

/-- The relocation record at a place of the file (Table 6-8), with the value of its symbol (Table 6-7); none where SYM names
no symbol. -/
def relocAt (file : List Byte) (ss : List RocSection) (o : Nat) : Option Reloc :=
  ((recordsOf ss 12 24)[fileNat file (o + 8) 4]?).map (fun y =>
    { offset := fileNat file o 8, type := fileNat file (o + 12) 2, s := fileInt file (y + 8), a := fileInt file (o + 16) })

/-- The bytes of a section in the file. -/
def fileBytes (file : List Byte) (s : RocSection) : List Byte := if s.type = 4 then [] else (file.drop s.off).take s.size

/-- The bytes of section `i` with the relocations that name it applied (R116). -/
def relocated (file : List Byte) (ss : List RocSection) (i : Nat) : Except RocRefusal (List Byte) :=
  let os := ((ss.filter (fun s => s.type == 11 && s.link == i)).map (fun s => records s 24)).flatten
  os.foldl (fun r o =>
    match r, relocAt file ss o with
    | .ok bs, some x => applyReloc bs x
    | .error e, _ => .error e
    | .ok _, none => .error .relocation) (.ok (match ss[i]? with | some s => fileBytes file s | none => []))

/-- Does every relocation of a file name a section and hold (R116, R118 step 1)? -/
def relocsOk (file : List Byte) (ss : List RocSection) : Bool :=
  (ss.all (fun s => s.type != 11 || s.link < ss.length))
    && (List.range ss.length).all (fun i => (relocated file ss i).toOption.isSome)

/-! ### The loader (R113, R118) -/

/-- The place of the 64 KiB leaf of an address value, if the partition's tables reach it (R158). Window and local-pool space
have no leaf, and no access would walk one there: a section at such a VA has no mapping and is refused (DESIGN CHOICE,
log 103). -/
def leafSlot (m : Mach) (part x : Nat) : Option Nat :=
  if 14 ≤ x / 2 ^ 60 then none
  else
    match partEntry m part x with
    | some (pa, 4) => some pa
    | _ => none

/-- The leaf that maps a page of a section (R159, R118): readable, and as SFLAGS say. -/
def leafFor (owner part flags pa : Nat) : Nat :=
  1 + 2 + 4 + 8 * (flags / 2 % 2) + 16 * (flags % 2) + 32 * (flags / 4 % 2) + 256 * owner + 65536 * part
    + 2 ^ 22 * (pa / 65536)

/-- The leaf of a page that a section is to have, beside the leaf that stands there: a page that two sections share, or that
another image holds, keeps what the first was given, and takes what the second asks for; it has one frame, and is a tensor page
for both or for neither. One that can not be shared is refused: DEDUCED (log 94). -/
def sharedLeaf (old new : Nat) : Option Nat :=
  if !(pteBit old 0) then some new
  else if pteBit old 1 ∧ old / 2 ^ 8 = new / 2 ^ 8 ∧ pteBit old 5 = pteBit new 5 ∧ !(pteBit old 7) then some (Nat.lor old new)
  else none

/-- Map `n` pages from an address value to frames from `pa`. -/
def mapPages (m : Mach) (part owner flags x pa : Nat) : Nat → Except RocRefusal Mach
  | 0 => .ok m
  | n + 1 =>
    match leafSlot m part x with
    | none => .error .unmapped
    | some slot =>
      match sharedLeaf (readNat m.mem slot 8) (leafFor owner part flags pa) with
      | none => .error .unmapped
      | some leaf => mapPages (commitNat m hostAgent slot 8 leaf) part owner flags (x + 65536) (pa + 65536) n

/-- Does a section take memory? -/
def isLoaded (s : RocSection) : Bool := 1 ≤ s.type && s.type ≤ 5

/-- The bytes that section `i` puts into memory: zeros of a zero section; in the LPB table CSB is the code section's VA
in every LPB, and ENTRY what its relocation gives (Table 6-7). -/
def sectionBytes (file : List Byte) (ss : List RocSection) (csb i : Nat) (s : RocSection) : List Byte :=
  if s.type = 4 then List.replicate s.size 0
  else if s.type = 5 then
    (List.range (s.size / 128)).foldl (fun bs j => patch bs (128 * j) 8 csb)
      ((relocated file ss i).toOption.getD (fileBytes file s))
  else fileBytes file s

/-- The pages that a section takes. -/
def pageCount (s : RocSection) : Nat := (s.va % 65536 + s.size + 65535) / 65536

/-- Map the sections and write their bytes under the partition's key, each (with its number) at the frames that the host gives
it: whole pages of HBM, which is all that a host access reaches (R12). -/
def placeSections (file : List Byte) (ss : List RocSection) (part owner csb : Nat) :
    List (Nat × RocSection × Nat) → Mach → Except RocRefusal Mach
  | [], m => .ok m
  | (i, s, frame) :: rest, m =>
    if !isLoaded s then placeSections file ss part owner csb rest m
    else if frame % 65536 ≠ 0 ∨ 0x8000000000 < frame + 65536 * pageCount s then .error .unmapped
    else
      match mapPages m part owner s.flags (s.va / 65536 * 65536) frame (pageCount s) with
      | .error e => .error e
      | .ok m =>
        placeSections file ss part owner csb rest
          (commitBytes m hostAgent (some (keyNum m part)) (frame + s.va % 65536) (sectionBytes file ss csb i s))

/-- Do two ranges of VAs meet? -/
def vaMeet (x y : Nat × Nat) : Bool := x.1 < y.1 + y.2 && y.1 < x.1 + x.2 && x.2 != 0 && y.2 != 0

/-- Do ranges meet each other? -/
def anyMeet : List (Nat × Nat) → Bool
  | [] => false
  | x :: xs => xs.any (vaMeet x) || anyMeet xs

/-- Does a range of VAs reach window space? -/
def meetsWindows (x : Nat × Nat) : Bool := vaMeet x (14 * 2 ^ 60, 2 ^ 60)

/-- Is a queue held already: by another image of the partition (R115), or by another owner, since queues are of the package
(spec/03 R47)? One that the same owner declared in another of its partitions is taken as it stands: DEDUCED (log 93). -/
def queueHeld (m : Mach) (part q : Nat) : Bool :=
  (getPart m part).queues.contains q || ((getQueue m q).declared && (getPart m part).owner != some (getQueue m q).owner)

/-- Do the declarations of a region table stand by themselves and beside those of the partition (R115, R195)? A sluice or queue
number that one image declares twice collides with itself: DEDUCED (log 104). -/
def regionCheck (m : Mach) (part : Nat) (file : List Byte) (offs : List Nat) : Except RocRefusal Unit :=
  let kind (o : Nat) : Nat := fileNat file o 1
  let sl := (offs.filter (fun o => kind o == 2)).map (fun o => fileNat file (o + 16) 4)
  let qs := (offs.filter (fun o => kind o == 3)).map (fun o => fileNat file (o + 16) 4)
  let ok (o : Nat) : Bool :=
    fileNat file (o + 1) 7 == 0 &&
    (match kind o with
     | 1 => fileNat file (o + 20) 4 < 65536
     | 2 => fileNat file (o + 16) 4 < 65536 && fileNat file (o + 20) 4 == 0
     | 3 => fileNat file (o + 8) 8 == 0 && fileNat file (o + 16) 4 < 4096 && fileNat file (o + 20) 4 < 512
              && 4 ≤ fileNat file (o + 20) 4 / 2 && fileNat file (o + 20) 4 / 2 ≤ 16
     | _ => false)
  let rs := (offs.filter (fun o => kind o == 1)).map (fun o => (fileNat file (o + 8) 8, fileNat file (o + 16) 4))
  if !(offs.all ok) then .error .region
  else if rs.any meetsWindows || anyMeet (rs ++ (getPart m part).regions.map (fun r => (r.base, r.size))) then .error .region
  else if offs.any (fun o => kind o == 1 && !(sl.contains (fileNat file (o + 20) 4)
      || (smGet {} (getPart m part).sluices (fileNat file (o + 20) 4)).declared)) then .error .region
  else if sl.any (fun n => (smGet {} (getPart m part).sluices n).declared) || qs.any (queueHeld m part)
      || !(decide sl.Nodup) || !(decide qs.Nodup) then .error .collision
  else .ok ()

/-- Install one record of the region table. -/
def installRegion (part owner : Nat) (file : List Byte) (m : Mach) (o : Nat) : Mach :=
  let n := fileNat file (o + 16) 4
  match fileNat file o 1 with
  | 1 => modPart m part (fun p => { p with
      regions := p.regions ++ [{ base := fileNat file (o + 8) 8, size := n, sluice := fileNat file (o + 20) 4 }] })
  | 2 => modPart m part (fun p => { p with
      sluices := smPut {} p.sluices n { declared := true, version := BitVec.ofNat 64 (fileNat file (o + 8) 8) } })
  | _ =>
    let w := fileNat file (o + 20) 4
    let m := modPart m part (fun p => { p with queues := p.queues ++ [n] })
    if (getQueue m n).declared then m
    else setQueue m n { declared := true, owner := owner, work := w % 2 == 1, depth := 2 ^ (w / 2) }

/-- Install the window templates: template i is window i of the partition's table; an empty one is none. -/
def installWindows (part : Nat) (file : List Byte) : List (Nat × Nat) → Mach → Mach
  | [], m => m
  | (i, o) :: rest, m =>
    let raw := fileNat file o 32
    installWindows part file rest (if raw = 0 then m else commitNat m hostAgent (winAddr m part i) 32 raw)

/-- Does the window table of a partition have room in HBM for `n` templates (R12)? -/
def windowsFit (m : Mach) (part n : Nat) : Bool := n == 0 || (n ≤ 4096 && winAddr m part 0 + 32 * n ≤ 0x8000000000)

/-- Is a section the last of the file (R117)? -/
def isLast (file : List Byte) (ss : List RocSection) (x : RocSection) : Bool :=
  x.off + x.size == (rocHeader file).fsize && ss.all (fun s => s == x || s.off + inFile s ≤ x.off)

/-- Does the signature section, the last of the file, hold under a key of the owner (R117, R118)? -/
def signatureOk (s : State) (owner : Nat) (file : List Byte) (ss : List RocSection) : Bool :=
  match ss.find? (fun x => x.type == 14) with
  | none => false
  | some x =>
    let digest := Config.shake256 (file.take x.off)
    let key := fileNat file (x.off + 64) 8
    x.size == 1368 && isLast file ss x && fileNat file x.off 64 == digest && fileNat file (x.off + 72) 8 == 0 && fileNat file (x.off + 1360) 8 == 0
      && (List.range 4).any (fun i =>
          match smGet none s.trust.imageKeys (4 * owner + i) with
          | some k => k.id == BitVec.ofNat 64 key && Config.falconVerify k.key digest (fileNat file (x.off + 80) 1280)
          | none => false)

/-- The smallest TRET among the cores of a partition (R113): its 18 compute cores, the ones with a pool (spec/08 R147). -/
def leastTret (m : Mach) (part : Nat) : Nat :=
  ((List.range 18).map (fun k => tretOf m (18 * part + k))).foldl min (tretOf m (18 * part))

/-- R118: the loader places an image in a partition; `frames` gives each section, in the order of the section table,
the address of its frames. A refused image changes nothing. There are 64 partitions (spec/01 R10): a load into another is
refused. A load into a partition that has no owner is made as owner 0's: DESIGN CHOICE (log 102). -/
def loadImage (s : State) (part : Nat) (frames : List Nat) (file : List Byte) : Except RocRefusal State :=
  match rocCheck file with
  | .error e => .error e
  | .ok ss =>
    let m := s.m
    let p := getPart m part
    let owner := p.owner.getD 0
    let flags := (rocHeader file).flags
    let regs := recordsOf ss 6 24
    let hands := recordsOf ss 10 8
    let csb := ((ss.find? (fun x => x.type == 1)).map (·.va)).getD 0
    if 64 ≤ part then .error .unmapped
    else if flags % 2 = 0 then .error .notLinked
    else
      match regionCheck m part file regs with
      | .error e => .error e
      | .ok () =>
        if !(relocsOk file ss) then .error .relocation
        else if p.sigreq ∧ (flags / 2 % 2 = 0 ∨ !(signatureOk s owner file ss)) then .error .unsigned
        else if (recordsOf ss 9 8).any (fun o => leastTret m part < fileNat file (o + 4) 2) then .error .lifetime
        else if 256 < p.handlers.length + hands.length then .error .handlers
        else if frames.length ≠ ss.length ∨ !(windowsFit m part (recordsOf ss 7 32).length) then .error .unmapped
        else
          match placeSections file ss part owner csb ((List.range ss.length).zip (ss.zip frames)) m with
          | .error e => .error e
          | .ok m =>
            let m := regs.foldl (installRegion part owner file) m
            let wins := recordsOf ss 7 32
            let m := installWindows part file ((List.range wins.length).zip wins) m
            let packet (o : Nat) : Word × Word := (BitVec.ofNat 64 (csb + 12 * fileNat file o 4), BitVec.ofNat 64 csb)
            .ok { s with m := modPart m part (fun p => { p with handlers := p.handlers ++ hands.map packet }) }

end Sys2Proof.Machine
end

