-- ==== Sys2Proof/Machine/Sched.lean ====
section
/-!
DEFINITION. Moves: the next move of the list `sched`, or where it is empty the move that a fixed policy chooses
among those that the rules allow (log 4). The list stands for every choice that the spec leaves to an agent, to
the host or to another package; the policy only keeps a machine with an empty list going.
-/

namespace Sys2Proof.Machine

/-- An instruction word, which runs only when it is fetched (spec/04_core_model.md R62)? -/
def isWord (i : Instr) : Bool := (encodeNat i).isSome

/-- Issue of a core's next bundle: in a part that runs, on a core whose pool is not being zeroed (spec/08 R144). -/
def issueMove (s : State) (core : Nat) : State :=
  if s.m.phase = .running ∧ (getCore s.m core).zeroUntil.isNone then issueCore s core else s

/-- Make a move. -/
def runMove (s : State) (v : Move) : Host.Outcome State Fault Refusal :=
  match v with
  | .event i => if isWord i then .fault .badSchedule else exec i s
  | .issue c => .next (issueMove s c)
  | .clock => .next { s with m := tick (serveOwners s.m) }
  | .load p frames file => .next (if s.m.phase = .running then (loadImage s p frames file).toOption.getD s else s)

/-! ### The policy -/

/-- Moves of the actions of an agent. -/
def agentEvents (m : Mach) (a : Nat) (x : Agent) : List Instr :=
  (x.iq.zipIdx.map (fun e => [Instr.issueQueueLeave a e.2, .loadBind a e.2 (newestPos m e.1.gran), .atomicApply a e.2,
      .fenceComplete a e.2, .shutCommit a e.2])).flatten
    ++ (List.range x.pend.length).map (Instr.pendingCommit a)

/-- The first granule of its next unit that a command has not read, and its newest position. -/
def blockPos (m : Mach) (core e : Nat) (c : Cmd) : List Nat :=
  match nextWork m core c with
  | .read vas =>
    let k := ((List.range (readGrans c vas.length)).find? (fun k => !(c.buf.any (fun x => x.1 == k)))).getD 0
    (match xlateNow m (engWho m core c) (vas.getD (k / 4) 0) 64 accRead with
     | .ok pa _ _ => [k, newestPos m (pa + 16 * (k % 4)), e]
     | _ => [k])
  | _ => []

def cmdEvents (m : Mach) (core e : Nat) (c : Cmd) : List Instr :=
  [.engineCommandStart core e c.num, .engineBlockApply core e c.num (blockPos m core e c), .engineCommandEnd core e c.num]
    ++ (c.reqs.filter (fun q => !q.answered)).map (fun q => Instr.requestTimeout core q.r.id)

def ctxEvents (core i : Nat) (c : Ctx) : List Instr :=
  c.pend.map (fun p => Instr.scoreboardLand core i p.tag)
    ++ [.resultLand core i, .operandFillDone core i, .waitSatisfied core i, .trapReplay core i, .restoreComplete core i,
        .postedSliceEndTrigger core i, .sliceEnd core i, .preemptRequest core i .recall, .preemptRequest core i .scan,
        .preemptRequest core i .park, .stopPointReached core i, .engineStopAck core i 0, .engineStopAck core i 1,
        .engineStopAck core i 2, .engineStopAck core i 3, .collectiveStopExpiry core i, .saveImageWritten core i,
        .weirComplete core i, .unitEnd core i, .recallHandlerKill core i]

def coreEvents (m : Mach) (core : Nat) (k : Core) : List Instr :=
  [.portApply core, .zeroingComplete core, .handlerStart core, .mirrorWrite core, .rillSweep core, .pinRenewal core,
    .scanPassEnd core true]
    ++ (k.ctxs.map (fun e => ctxEvents core e.1 e.2)).flatten
    ++ (k.cmds.map (fun q => (q.2.map (cmdEvents m core q.1)).flatten)).flatten
    ++ (if k.retireDue then [.retirement (.core core)] else []) ++ k.banksDue.map (fun b => Instr.retirement (.bank core b))

/-- What a message brings to this package, for a load request the block that is next. -/
def msgEvents (m : Mach) (x : Msg) : List Instr :=
  match x with
  | .load _ r => [.remoteLoadRequest r (((landingFor m x).map (·.blk)).getD 0)]
  | .store _ r => [.remoteStoreRequest r]
  | .direct _ r op vs => [.directReductionRequest r op vs]
  | .contrib _ c => [.groupContribution c]
  | .replica _ r => [.multicastReplica r]
  | .loadResp _ core id c bs => [.loadResponse core id c bs]
  | .ack _ core id c w => [.acknowledgement core id ⟨c, w⟩]
  | .moved _ core id => [.movedNack core id]
  | .result _ core g r => [.resultWrite g core r]
  | _ => []

/-- Is a message one that the package sent to itself? -/
def toSelf (n : Nat) (x : Msg) : Bool :=
  match x with
  | .loadResp d _ _ _ _ => d == n
  | .ack d _ _ _ _ => d == n
  | .moved d _ _ => d == n
  | _ => msgDst x == n

/-- Requests, replicas and results that are being applied, then the messages that the package has sent to itself. -/
def fabricEvents (m : Mach) : List Instr :=
  ((m.landings.map (·.msg) ++ m.out.filter (toSelf m.number)).map (msgEvents m)).flatten

def ringEvents (v i : Nat) : List Instr := [.launch v i, .job v i, .push v i, .close v i, .post v i, .cancel v i]

def nodeEvents (i : Nat) (n : Node) : List Instr :=
  match n.job, n.graph with
  | some _, _ => [.phaseEvaluation i]
  | none, some g => (List.range g.nn).map (Instr.nodeConsider i)
  | none, none => []

/-- The events that may come about by themselves, in the order in which the policy tries them. -/
def candidates (m : Mach) : List Instr :=
  (m.agents.map (fun e => agentEvents m e.1 e.2)).flatten
    ++ (m.adders.map (fun e => (List.range e.2.length).map (Instr.raddBlockApply e.1))).flatten
    ++ (m.cores.map (fun e => coreEvents m e.1 e.2)).flatten
    ++ (m.clusters.map (fun e => (List.range e.2.miss.length).map (Instr.pageWalk e.1))).flatten
    ++ (if m.invals.isEmpty then [] else (List.range 5).map Instr.invalidationAck)
    ++ (match m.migration with | some g => [.pageMigration g.part (BitVec.ofNat 64 g.va) (BitVec.ofNat 64 g.newPa)] | none => [])
    ++ fabricEvents m
    ++ (m.rounds.map (fun e => [Instr.roundClose e.1, .roundTimeout e.1])).flatten
    ++ m.gangs.map (fun e => Instr.gangtoExpiry e.1)
    ++ (m.nodes.map (fun e => nodeEvents e.1 e.2)).flatten
    ++ ((m.vfs.filter (fun v => v.2.owner.isSome)).map (fun v => (v.2.rings.map (fun r => ringEvents v.1 r.1)).flatten)).flatten
    ++ [.recordTakeUp]
    ++ m.parts.map (fun e => Instr.recallReturn e.1)
    ++ m.clusters.map (fun e => Instr.scanPassStart e.1)
    ++ (m.links.filter (fun e => e.2.retireDue || e.2.down)).map (fun e => Instr.retirement (.port e.1))
    ++ (if m.nowt % 15625 = 0 ∧ m.sub = 0 then [.usageForward] else [])

/-- The state after an event, if it changes the state. -/
def changes (s : State) (i : Instr) : Bool :=
  match exec i s with
  | .next t => t != s
  | _ => false

/-- May a core's next bundle issue in this cycle? -/
def mayIssue (m : Mach) (core : Nat) (k : Core) : Bool :=
  k.turn ≤ m.cycle && k.zeroUntil.isNone && (selectCtx k).isSome && (core < 1216)

/-- The move of the policy: bring-up; an event that changes the state; a unit to place; a bundle to issue; the clock. -/
def policy (s : State) : Move :=
  let m := s.m
  if m.phase = .inReset then .event .packageReset
  else if m.phase = .failed then .clock
  else
    match (candidates m).find? (changes s) with
    | some i => .event i
    | none =>
      if (serveOwners m).cores != m.cores then .event .unitPlace
      else
        match m.cores.find? (fun e => mayIssue m e.1 e.2) with
        | some e => .issue e.1
        | none => .clock

end Sys2Proof.Machine
end

