-- ==== Sys2Proof/Machine/Step.lean ====
section
/-!
DEFINITION. One step: the next move, from the list or by the policy; and the state in which the next step issues a
given word (log 7).
-/

namespace Sys2Proof.Machine

/-- Free values of one step differ from those of every other. -/
def State.freshen (s : State) : State := { s with m := { s.m with fresh := s.m.fresh + 1 } }

/-- The state without the first move of its list. -/
def State.popMove (s : State) : State := { s with m := { s.m with sched := s.m.sched.drop 1 } }

/-- ONE STEP. -/
def step (s : State) : Host.Outcome State Fault Refusal :=
  match s.m.sched with
  | v :: _ => runMove s.freshen.popMove v
  | [] => runMove s.freshen (policy s)

/-- The core and context that `withFetchWord` uses: core 0 holds one Ready unit context whose next bundle begins at
the last word of packet 0 of its code at address value 0x10000, page 1 of partition 0. -/
def fetchCtx (m : Mach) : Ctx := { st := .ready, csb := 0x10000, wpos := 2, skipBp := true, since := m.step }

/-- The physical address of that word. -/
def fetchPa : Nat := 0x10008

/-- A cached translation of page 1: frame 1, V, L, R, W, X, owner 0. -/
def fetchTr : Tr := { part := 0, win := false, page := 1, ok := true, raw := 0x40001F, level := 4, code := 0, miss := false }

/-- The state with the word `w` stored where the next step fetches it, and issue of core 0 as the next move. -/
def State.withFetchWord (s : State) (nbits w : Nat) : State :=
  let m := commitNat { s.m with phase := .running } hiveAgent fetchPa 4 (w % 2 ^ nbits)
  let k := getCore m 0
  { s with m := { setCore m 0 { k with
      ctxs := [(0, fetchCtx m)], tc := [fetchTr], turn := 0, rrUnit := 15, zeroUntil := none } with sched := [.issue 0] } }

end Sys2Proof.Machine
end

