-- ==== Sys2Proof/Laws/PerInstr.lean ====
section
/-!
SUPPORT. Decode and encode agree, one lemma per constructor (the family RoundTrip): the word of an instruction fits
32 bits and decodes to that instruction with every field at its value; an event has no word.
-/

namespace Sys2Proof.Laws.RoundTrip

/-- What the family says of an instruction. -/
def Statement (i : Instr) : Prop := ∀ n, encodeNat i = some n → n < 4294967296 ∧ decodeNat n = .ok i

/-! ### Reading one field -/

theorem bitVal_lt (b : Bool) : bitVal b < 2 := by cases b <;> decide

theorem flag_eq {n i : Nat} {b : Bool} (h : n / 2 ^ i % 2 = bitVal b) : flag n i = b := by
  unfold flag
  rw [h]
  cases b <;> rfl

theorem fld_eq {k n lo : Nat} {x : BitVec k} (h : n / 2 ^ lo % 2 ^ k = x.toNat) : fld k n lo = x := by
  apply BitVec.eq_of_toNat_eq
  simpa [fld] using h

theorem hdOf_eq {n : Nat} {h : Hd} (hc : n / 2147483648 % 2 = bitVal h.c) (hg : n / 33554432 % 8 = h.g.toNat) :
    hdOf n = h := by
  unfold hdOf
  rw [flag_eq (b := h.c) (by simpa using hc), fld_eq (x := h.g) (by simpa using hg)]

theorem ifZero_zero {z : Nat} {i : Instr} (h : z = 0) : ifZero z i = .ok i := by simp [ifZero, h]

theorem decodeNat_x {n op : Nat} (hp : n / 268435456 % 8 = 0) (ho : n / 524288 % 64 = op) :
    decodeNat n = decodeX n op := by
  have h1 : bits n 30 28 = 0 := hp
  have h2 : bits n 24 19 = op := ho
  simp only [decodeNat, h1, h2]

theorem decodeNat_l {n op : Nat} (hp : n / 268435456 % 8 = 1) (ho : n / 524288 % 64 = op) :
    decodeNat n = decodeL n op := by
  have h1 : bits n 30 28 = 1 := hp
  have h2 : bits n 24 19 = op := ho
  simp only [decodeNat, h1, h2]

theorem decodeNat_v {n op : Nat} (hp : n / 268435456 % 8 = 2) (ho : n / 1048576 % 32 = op) :
    decodeNat n = decodeV n op := by
  have h1 : bits n 30 28 = 2 := hp
  have h2 : bits n 24 20 = op := ho
  simp only [decodeNat, h1, h2]

theorem decodeNat_m {n op : Nat} (hp : n / 268435456 % 8 = 3) (ho : n / 2097152 % 16 = op) :
    decodeNat n = decodeM n op := by
  have h1 : bits n 30 28 = 3 := hp
  have h2 : bits n 24 21 = op := ho
  simp only [decodeNat, h1, h2]

theorem decodeNat_b {n op : Nat} (hp : n / 268435456 % 8 = 4) (ho : n / 1048576 % 32 = op) :
    decodeNat n = decodeB n op := by
  have h1 : bits n 30 28 = 4 := hp
  have h2 : bits n 24 20 = op := ho
  simp only [decodeNat, h1, h2]

/-! ### The words -/

theorem xNop (h : Hd) : Statement (.xNop h) := by
  intro num e0
  have hw : hdBits h 0 = num := Option.some.inj e0
  simp only [hdBits] at hw
  have b0 := bitVal_lt h.c
  have b1 := h.g.isLt
  refine ⟨by omega, ?_⟩
  rw [decodeNat_x (op := 0) (by omega) (by omega)]
  refine (ifZero_zero (show num / 1 % 524288 = 0 by omega)).trans ?_
  rw [hdOf_eq (h := h) (by omega) (by omega)]

theorem xAdd (h : Hd) (d a : BitVec 6) (i : Bool) (b : BitVec 6) : Statement (.xAdd h d a i b) := by
  intro num e0
  have hw : hdBits h 0 + 524288 + d.toNat * 8192 + a.toNat * 128 + bitVal i * 64 + b.toNat = num := Option.some.inj e0
  simp only [hdBits] at hw
  have b0 := bitVal_lt h.c
  have b1 := h.g.isLt
  have b2 := d.isLt
  have b3 := a.isLt
  have b4 := bitVal_lt i
  have b5 := b.isLt
  refine ⟨by omega, ?_⟩
  rw [decodeNat_x (op := 1) (by omega) (by omega)]
  show Except.ok _ = _
  rw [hdOf_eq (h := h) (by omega) (by omega),
    fld_eq (lo := 13) (x := d) (by show num / 8192 % 64 = _; omega),
    fld_eq (lo := 7) (x := a) (by show num / 128 % 64 = _; omega),
    flag_eq (i := 6) (b := i) (by show num / 64 % 2 = _; omega),
    fld_eq (lo := 0) (x := b) (by show num / 1 % 64 = _; omega)]

theorem xSub (h : Hd) (d a : BitVec 6) (i : Bool) (b : BitVec 6) : Statement (.xSub h d a i b) := by
  intro num e0
  have hw : hdBits h 0 + 1048576 + d.toNat * 8192 + a.toNat * 128 + bitVal i * 64 + b.toNat = num := Option.some.inj e0
  simp only [hdBits] at hw
  have b0 := bitVal_lt h.c
  have b1 := h.g.isLt
  have b2 := d.isLt
  have b3 := a.isLt
  have b4 := bitVal_lt i
  have b5 := b.isLt
  refine ⟨by omega, ?_⟩
  rw [decodeNat_x (op := 2) (by omega) (by omega)]
  show Except.ok _ = _
  rw [hdOf_eq (h := h) (by omega) (by omega),
    fld_eq (lo := 13) (x := d) (by show num / 8192 % 64 = _; omega),
    fld_eq (lo := 7) (x := a) (by show num / 128 % 64 = _; omega),
    flag_eq (i := 6) (b := i) (by show num / 64 % 2 = _; omega),
    fld_eq (lo := 0) (x := b) (by show num / 1 % 64 = _; omega)]

theorem xMul (h : Hd) (d a : BitVec 6) (i : Bool) (b : BitVec 6) : Statement (.xMul h d a i b) := by
  intro num e0
  have hw : hdBits h 0 + 1572864 + d.toNat * 8192 + a.toNat * 128 + bitVal i * 64 + b.toNat = num := Option.some.inj e0
  simp only [hdBits] at hw
  have b0 := bitVal_lt h.c
  have b1 := h.g.isLt
  have b2 := d.isLt
  have b3 := a.isLt
  have b4 := bitVal_lt i
  have b5 := b.isLt
  refine ⟨by omega, ?_⟩
  rw [decodeNat_x (op := 3) (by omega) (by omega)]
  show Except.ok _ = _
  rw [hdOf_eq (h := h) (by omega) (by omega),
    fld_eq (lo := 13) (x := d) (by show num / 8192 % 64 = _; omega),
    fld_eq (lo := 7) (x := a) (by show num / 128 % 64 = _; omega),
    flag_eq (i := 6) (b := i) (by show num / 64 % 2 = _; omega),
    fld_eq (lo := 0) (x := b) (by show num / 1 % 64 = _; omega)]

theorem xMulh (h : Hd) (d a : BitVec 6) (i : Bool) (b : BitVec 6) : Statement (.xMulh h d a i b) := by
  intro num e0
  have hw : hdBits h 0 + 2097152 + d.toNat * 8192 + a.toNat * 128 + bitVal i * 64 + b.toNat = num := Option.some.inj e0
  simp only [hdBits] at hw
  have b0 := bitVal_lt h.c
  have b1 := h.g.isLt
  have b2 := d.isLt
  have b3 := a.isLt
  have b4 := bitVal_lt i
  have b5 := b.isLt
  refine ⟨by omega, ?_⟩
  rw [decodeNat_x (op := 4) (by omega) (by omega)]
  show Except.ok _ = _
  rw [hdOf_eq (h := h) (by omega) (by omega),
    fld_eq (lo := 13) (x := d) (by show num / 8192 % 64 = _; omega),
    fld_eq (lo := 7) (x := a) (by show num / 128 % 64 = _; omega),
    flag_eq (i := 6) (b := i) (by show num / 64 % 2 = _; omega),
    fld_eq (lo := 0) (x := b) (by show num / 1 % 64 = _; omega)]

theorem xDiv (h : Hd) (d a : BitVec 6) (i : Bool) (b : BitVec 6) : Statement (.xDiv h d a i b) := by
  intro num e0
  have hw : hdBits h 0 + 2621440 + d.toNat * 8192 + a.toNat * 128 + bitVal i * 64 + b.toNat = num := Option.some.inj e0
  simp only [hdBits] at hw
  have b0 := bitVal_lt h.c
  have b1 := h.g.isLt
  have b2 := d.isLt
  have b3 := a.isLt
  have b4 := bitVal_lt i
  have b5 := b.isLt
  refine ⟨by omega, ?_⟩
  rw [decodeNat_x (op := 5) (by omega) (by omega)]
  show Except.ok _ = _
  rw [hdOf_eq (h := h) (by omega) (by omega),
    fld_eq (lo := 13) (x := d) (by show num / 8192 % 64 = _; omega),
    fld_eq (lo := 7) (x := a) (by show num / 128 % 64 = _; omega),
    flag_eq (i := 6) (b := i) (by show num / 64 % 2 = _; omega),
    fld_eq (lo := 0) (x := b) (by show num / 1 % 64 = _; omega)]

theorem xRem (h : Hd) (d a : BitVec 6) (i : Bool) (b : BitVec 6) : Statement (.xRem h d a i b) := by
  intro num e0
  have hw : hdBits h 0 + 3145728 + d.toNat * 8192 + a.toNat * 128 + bitVal i * 64 + b.toNat = num := Option.some.inj e0
  simp only [hdBits] at hw
  have b0 := bitVal_lt h.c
  have b1 := h.g.isLt
  have b2 := d.isLt
  have b3 := a.isLt
  have b4 := bitVal_lt i
  have b5 := b.isLt
  refine ⟨by omega, ?_⟩
  rw [decodeNat_x (op := 6) (by omega) (by omega)]
  show Except.ok _ = _
  rw [hdOf_eq (h := h) (by omega) (by omega),
    fld_eq (lo := 13) (x := d) (by show num / 8192 % 64 = _; omega),
    fld_eq (lo := 7) (x := a) (by show num / 128 % 64 = _; omega),
    flag_eq (i := 6) (b := i) (by show num / 64 % 2 = _; omega),
    fld_eq (lo := 0) (x := b) (by show num / 1 % 64 = _; omega)]

theorem xAnd (h : Hd) (d a : BitVec 6) (i : Bool) (b : BitVec 6) : Statement (.xAnd h d a i b) := by
  intro num e0
  have hw : hdBits h 0 + 3670016 + d.toNat * 8192 + a.toNat * 128 + bitVal i * 64 + b.toNat = num := Option.some.inj e0
  simp only [hdBits] at hw
  have b0 := bitVal_lt h.c
  have b1 := h.g.isLt
  have b2 := d.isLt
  have b3 := a.isLt
  have b4 := bitVal_lt i
  have b5 := b.isLt
  refine ⟨by omega, ?_⟩
  rw [decodeNat_x (op := 7) (by omega) (by omega)]
  show Except.ok _ = _
  rw [hdOf_eq (h := h) (by omega) (by omega),
    fld_eq (lo := 13) (x := d) (by show num / 8192 % 64 = _; omega),
    fld_eq (lo := 7) (x := a) (by show num / 128 % 64 = _; omega),
    flag_eq (i := 6) (b := i) (by show num / 64 % 2 = _; omega),
    fld_eq (lo := 0) (x := b) (by show num / 1 % 64 = _; omega)]

theorem xOr (h : Hd) (d a : BitVec 6) (i : Bool) (b : BitVec 6) : Statement (.xOr h d a i b) := by
  intro num e0
  have hw : hdBits h 0 + 4194304 + d.toNat * 8192 + a.toNat * 128 + bitVal i * 64 + b.toNat = num := Option.some.inj e0
  simp only [hdBits] at hw
  have b0 := bitVal_lt h.c
  have b1 := h.g.isLt
  have b2 := d.isLt
  have b3 := a.isLt
  have b4 := bitVal_lt i
  have b5 := b.isLt
  refine ⟨by omega, ?_⟩
  rw [decodeNat_x (op := 8) (by omega) (by omega)]
  show Except.ok _ = _
  rw [hdOf_eq (h := h) (by omega) (by omega),
    fld_eq (lo := 13) (x := d) (by show num / 8192 % 64 = _; omega),
    fld_eq (lo := 7) (x := a) (by show num / 128 % 64 = _; omega),
    flag_eq (i := 6) (b := i) (by show num / 64 % 2 = _; omega),
    fld_eq (lo := 0) (x := b) (by show num / 1 % 64 = _; omega)]

theorem xXor (h : Hd) (d a : BitVec 6) (i : Bool) (b : BitVec 6) : Statement (.xXor h d a i b) := by
  intro num e0
  have hw : hdBits h 0 + 4718592 + d.toNat * 8192 + a.toNat * 128 + bitVal i * 64 + b.toNat = num := Option.some.inj e0
  simp only [hdBits] at hw
  have b0 := bitVal_lt h.c
  have b1 := h.g.isLt
  have b2 := d.isLt
  have b3 := a.isLt
  have b4 := bitVal_lt i
  have b5 := b.isLt
  refine ⟨by omega, ?_⟩
  rw [decodeNat_x (op := 9) (by omega) (by omega)]
  show Except.ok _ = _
  rw [hdOf_eq (h := h) (by omega) (by omega),
    fld_eq (lo := 13) (x := d) (by show num / 8192 % 64 = _; omega),
    fld_eq (lo := 7) (x := a) (by show num / 128 % 64 = _; omega),
    flag_eq (i := 6) (b := i) (by show num / 64 % 2 = _; omega),
    fld_eq (lo := 0) (x := b) (by show num / 1 % 64 = _; omega)]

theorem xShl (h : Hd) (d a : BitVec 6) (i : Bool) (b : BitVec 6) : Statement (.xShl h d a i b) := by
  intro num e0
  have hw : hdBits h 0 + 5242880 + d.toNat * 8192 + a.toNat * 128 + bitVal i * 64 + b.toNat = num := Option.some.inj e0
  simp only [hdBits] at hw
  have b0 := bitVal_lt h.c
  have b1 := h.g.isLt
  have b2 := d.isLt
  have b3 := a.isLt
  have b4 := bitVal_lt i
  have b5 := b.isLt
  refine ⟨by omega, ?_⟩
  rw [decodeNat_x (op := 10) (by omega) (by omega)]
  show Except.ok _ = _
  rw [hdOf_eq (h := h) (by omega) (by omega),
    fld_eq (lo := 13) (x := d) (by show num / 8192 % 64 = _; omega),
    fld_eq (lo := 7) (x := a) (by show num / 128 % 64 = _; omega),
    flag_eq (i := 6) (b := i) (by show num / 64 % 2 = _; omega),
    fld_eq (lo := 0) (x := b) (by show num / 1 % 64 = _; omega)]

theorem xShr (h : Hd) (d a : BitVec 6) (i : Bool) (b : BitVec 6) : Statement (.xShr h d a i b) := by
  intro num e0
  have hw : hdBits h 0 + 5767168 + d.toNat * 8192 + a.toNat * 128 + bitVal i * 64 + b.toNat = num := Option.some.inj e0
  simp only [hdBits] at hw
  have b0 := bitVal_lt h.c
  have b1 := h.g.isLt
  have b2 := d.isLt
  have b3 := a.isLt
  have b4 := bitVal_lt i
  have b5 := b.isLt
  refine ⟨by omega, ?_⟩
  rw [decodeNat_x (op := 11) (by omega) (by omega)]
  show Except.ok _ = _
  rw [hdOf_eq (h := h) (by omega) (by omega),
    fld_eq (lo := 13) (x := d) (by show num / 8192 % 64 = _; omega),
    fld_eq (lo := 7) (x := a) (by show num / 128 % 64 = _; omega),
    flag_eq (i := 6) (b := i) (by show num / 64 % 2 = _; omega),
    fld_eq (lo := 0) (x := b) (by show num / 1 % 64 = _; omega)]

theorem xSar (h : Hd) (d a : BitVec 6) (i : Bool) (b : BitVec 6) : Statement (.xSar h d a i b) := by
  intro num e0
  have hw : hdBits h 0 + 6291456 + d.toNat * 8192 + a.toNat * 128 + bitVal i * 64 + b.toNat = num := Option.some.inj e0
  simp only [hdBits] at hw
  have b0 := bitVal_lt h.c
  have b1 := h.g.isLt
  have b2 := d.isLt
  have b3 := a.isLt
  have b4 := bitVal_lt i
  have b5 := b.isLt
  refine ⟨by omega, ?_⟩
  rw [decodeNat_x (op := 12) (by omega) (by omega)]
  show Except.ok _ = _
  rw [hdOf_eq (h := h) (by omega) (by omega),
    fld_eq (lo := 13) (x := d) (by show num / 8192 % 64 = _; omega),
    fld_eq (lo := 7) (x := a) (by show num / 128 % 64 = _; omega),
    flag_eq (i := 6) (b := i) (by show num / 64 % 2 = _; omega),
    fld_eq (lo := 0) (x := b) (by show num / 1 % 64 = _; omega)]

theorem xMin (h : Hd) (d a : BitVec 6) (i : Bool) (b : BitVec 6) : Statement (.xMin h d a i b) := by
  intro num e0
  have hw : hdBits h 0 + 6815744 + d.toNat * 8192 + a.toNat * 128 + bitVal i * 64 + b.toNat = num := Option.some.inj e0
  simp only [hdBits] at hw
  have b0 := bitVal_lt h.c
  have b1 := h.g.isLt
  have b2 := d.isLt
  have b3 := a.isLt
  have b4 := bitVal_lt i
  have b5 := b.isLt
  refine ⟨by omega, ?_⟩
  rw [decodeNat_x (op := 13) (by omega) (by omega)]
  show Except.ok _ = _
  rw [hdOf_eq (h := h) (by omega) (by omega),
    fld_eq (lo := 13) (x := d) (by show num / 8192 % 64 = _; omega),
    fld_eq (lo := 7) (x := a) (by show num / 128 % 64 = _; omega),
    flag_eq (i := 6) (b := i) (by show num / 64 % 2 = _; omega),
    fld_eq (lo := 0) (x := b) (by show num / 1 % 64 = _; omega)]

theorem xMax (h : Hd) (d a : BitVec 6) (i : Bool) (b : BitVec 6) : Statement (.xMax h d a i b) := by
  intro num e0
  have hw : hdBits h 0 + 7340032 + d.toNat * 8192 + a.toNat * 128 + bitVal i * 64 + b.toNat = num := Option.some.inj e0
  simp only [hdBits] at hw
  have b0 := bitVal_lt h.c
  have b1 := h.g.isLt
  have b2 := d.isLt
  have b3 := a.isLt
  have b4 := bitVal_lt i
  have b5 := b.isLt
  refine ⟨by omega, ?_⟩
  rw [decodeNat_x (op := 14) (by omega) (by omega)]
  show Except.ok _ = _
  rw [hdOf_eq (h := h) (by omega) (by omega),
    fld_eq (lo := 13) (x := d) (by show num / 8192 % 64 = _; omega),
    fld_eq (lo := 7) (x := a) (by show num / 128 % 64 = _; omega),
    flag_eq (i := 6) (b := i) (by show num / 64 % 2 = _; omega),
    fld_eq (lo := 0) (x := b) (by show num / 1 % 64 = _; omega)]

theorem xClz (h : Hd) (d a : BitVec 6) : Statement (.xClz h d a) := by
  intro num e0
  have hw : hdBits h 0 + 7864320 + d.toNat * 8192 + a.toNat * 128 = num := Option.some.inj e0
  simp only [hdBits] at hw
  have b0 := bitVal_lt h.c
  have b1 := h.g.isLt
  have b2 := d.isLt
  have b3 := a.isLt
  refine ⟨by omega, ?_⟩
  rw [decodeNat_x (op := 15) (by omega) (by omega)]
  refine (ifZero_zero (show num / 1 % 128 = 0 by omega)).trans ?_
  rw [hdOf_eq (h := h) (by omega) (by omega),
    fld_eq (lo := 13) (x := d) (by show num / 8192 % 64 = _; omega),
    fld_eq (lo := 7) (x := a) (by show num / 128 % 64 = _; omega)]

theorem xPcnt (h : Hd) (d a : BitVec 6) : Statement (.xPcnt h d a) := by
  intro num e0
  have hw : hdBits h 0 + 8388608 + d.toNat * 8192 + a.toNat * 128 = num := Option.some.inj e0
  simp only [hdBits] at hw
  have b0 := bitVal_lt h.c
  have b1 := h.g.isLt
  have b2 := d.isLt
  have b3 := a.isLt
  refine ⟨by omega, ?_⟩
  rw [decodeNat_x (op := 16) (by omega) (by omega)]
  refine (ifZero_zero (show num / 1 % 128 = 0 by omega)).trans ?_
  rw [hdOf_eq (h := h) (by omega) (by omega),
    fld_eq (lo := 13) (x := d) (by show num / 8192 % 64 = _; omega),
    fld_eq (lo := 7) (x := a) (by show num / 128 % 64 = _; omega)]

theorem xSext (h : Hd) (d a : BitVec 6) (i : Bool) (b : BitVec 6) : Statement (.xSext h d a i b) := by
  intro num e0
  have hw : hdBits h 0 + 8912896 + d.toNat * 8192 + a.toNat * 128 + bitVal i * 64 + b.toNat = num := Option.some.inj e0
  simp only [hdBits] at hw
  have b0 := bitVal_lt h.c
  have b1 := h.g.isLt
  have b2 := d.isLt
  have b3 := a.isLt
  have b4 := bitVal_lt i
  have b5 := b.isLt
  refine ⟨by omega, ?_⟩
  rw [decodeNat_x (op := 17) (by omega) (by omega)]
  show Except.ok _ = _
  rw [hdOf_eq (h := h) (by omega) (by omega),
    fld_eq (lo := 13) (x := d) (by show num / 8192 % 64 = _; omega),
    fld_eq (lo := 7) (x := a) (by show num / 128 % 64 = _; omega),
    flag_eq (i := 6) (b := i) (by show num / 64 % 2 = _; omega),
    fld_eq (lo := 0) (x := b) (by show num / 1 % 64 = _; omega)]

theorem xCmp (h : Hd) (p k : BitVec 3) (a : BitVec 6) (i : Bool) (b : BitVec 6) : Statement (.xCmp h p k a i b) := by
  intro num e0
  have hw : hdBits h 0 + 9437184 + p.toNat * 65536 + k.toNat * 8192 + a.toNat * 128 + bitVal i * 64 + b.toNat = num := Option.some.inj e0
  simp only [hdBits] at hw
  have b0 := bitVal_lt h.c
  have b1 := h.g.isLt
  have b2 := p.isLt
  have b3 := k.isLt
  have b4 := a.isLt
  have b5 := bitVal_lt i
  have b6 := b.isLt
  refine ⟨by omega, ?_⟩
  rw [decodeNat_x (op := 18) (by omega) (by omega)]
  show Except.ok _ = _
  rw [hdOf_eq (h := h) (by omega) (by omega),
    fld_eq (lo := 16) (x := p) (by show num / 65536 % 8 = _; omega),
    fld_eq (lo := 13) (x := k) (by show num / 8192 % 8 = _; omega),
    fld_eq (lo := 7) (x := a) (by show num / 128 % 64 = _; omega),
    flag_eq (i := 6) (b := i) (by show num / 64 % 2 = _; omega),
    fld_eq (lo := 0) (x := b) (by show num / 1 % 64 = _; omega)]

theorem xPand (h : Hd) (p : BitVec 3) (n : Bool) (a b : BitVec 3) (m : Bool) : Statement (.xPand h p n a b m) := by
  intro num e0
  have hw : hdBits h 0 + 9961472 + p.toNat * 65536 + bitVal n * 32768 + a.toNat * 1024 + b.toNat * 8 + bitVal m * 4 = num := Option.some.inj e0
  simp only [hdBits] at hw
  have b0 := bitVal_lt h.c
  have b1 := h.g.isLt
  have b2 := p.isLt
  have b3 := bitVal_lt n
  have b4 := a.isLt
  have b5 := b.isLt
  have b6 := bitVal_lt m
  refine ⟨by omega, ?_⟩
  rw [decodeNat_x (op := 19) (by omega) (by omega)]
  refine (ifZero_zero (show num / 1 % 4 + num / 64 % 16 + num / 8192 % 4 = 0 by omega)).trans ?_
  rw [hdOf_eq (h := h) (by omega) (by omega),
    fld_eq (lo := 16) (x := p) (by show num / 65536 % 8 = _; omega),
    flag_eq (i := 15) (b := n) (by show num / 32768 % 2 = _; omega),
    fld_eq (lo := 10) (x := a) (by show num / 1024 % 8 = _; omega),
    fld_eq (lo := 3) (x := b) (by show num / 8 % 8 = _; omega),
    flag_eq (i := 2) (b := m) (by show num / 4 % 2 = _; omega)]

theorem xPor (h : Hd) (p : BitVec 3) (n : Bool) (a b : BitVec 3) (m : Bool) : Statement (.xPor h p n a b m) := by
  intro num e0
  have hw : hdBits h 0 + 10485760 + p.toNat * 65536 + bitVal n * 32768 + a.toNat * 1024 + b.toNat * 8 + bitVal m * 4 = num := Option.some.inj e0
  simp only [hdBits] at hw
  have b0 := bitVal_lt h.c
  have b1 := h.g.isLt
  have b2 := p.isLt
  have b3 := bitVal_lt n
  have b4 := a.isLt
  have b5 := b.isLt
  have b6 := bitVal_lt m
  refine ⟨by omega, ?_⟩
  rw [decodeNat_x (op := 20) (by omega) (by omega)]
  refine (ifZero_zero (show num / 1 % 4 + num / 64 % 16 + num / 8192 % 4 = 0 by omega)).trans ?_
  rw [hdOf_eq (h := h) (by omega) (by omega),
    fld_eq (lo := 16) (x := p) (by show num / 65536 % 8 = _; omega),
    flag_eq (i := 15) (b := n) (by show num / 32768 % 2 = _; omega),
    fld_eq (lo := 10) (x := a) (by show num / 1024 % 8 = _; omega),
    fld_eq (lo := 3) (x := b) (by show num / 8 % 8 = _; omega),
    flag_eq (i := 2) (b := m) (by show num / 4 % 2 = _; omega)]

theorem xPxor (h : Hd) (p : BitVec 3) (n : Bool) (a b : BitVec 3) (m : Bool) : Statement (.xPxor h p n a b m) := by
  intro num e0
  have hw : hdBits h 0 + 11010048 + p.toNat * 65536 + bitVal n * 32768 + a.toNat * 1024 + b.toNat * 8 + bitVal m * 4 = num := Option.some.inj e0
  simp only [hdBits] at hw
  have b0 := bitVal_lt h.c
  have b1 := h.g.isLt
  have b2 := p.isLt
  have b3 := bitVal_lt n
  have b4 := a.isLt
  have b5 := b.isLt
  have b6 := bitVal_lt m
  refine ⟨by omega, ?_⟩
  rw [decodeNat_x (op := 21) (by omega) (by omega)]
  refine (ifZero_zero (show num / 1 % 4 + num / 64 % 16 + num / 8192 % 4 = 0 by omega)).trans ?_
  rw [hdOf_eq (h := h) (by omega) (by omega),
    fld_eq (lo := 16) (x := p) (by show num / 65536 % 8 = _; omega),
    flag_eq (i := 15) (b := n) (by show num / 32768 % 2 = _; omega),
    fld_eq (lo := 10) (x := a) (by show num / 1024 % 8 = _; omega),
    fld_eq (lo := 3) (x := b) (by show num / 8 % 8 = _; omega),
    flag_eq (i := 2) (b := m) (by show num / 4 % 2 = _; omega)]

theorem xFadd (h : Hd) (d a b : BitVec 6) : Statement (.xFadd h d a b) := by
  intro num e0
  have hw : hdBits h 0 + 11534336 + d.toNat * 8192 + a.toNat * 128 + b.toNat = num := Option.some.inj e0
  simp only [hdBits] at hw
  have b0 := bitVal_lt h.c
  have b1 := h.g.isLt
  have b2 := d.isLt
  have b3 := a.isLt
  have b4 := b.isLt
  refine ⟨by omega, ?_⟩
  rw [decodeNat_x (op := 22) (by omega) (by omega)]
  refine (ifZero_zero (show num / 64 % 2 = 0 by omega)).trans ?_
  rw [hdOf_eq (h := h) (by omega) (by omega),
    fld_eq (lo := 13) (x := d) (by show num / 8192 % 64 = _; omega),
    fld_eq (lo := 7) (x := a) (by show num / 128 % 64 = _; omega),
    fld_eq (lo := 0) (x := b) (by show num / 1 % 64 = _; omega)]

theorem xFmul (h : Hd) (d a b : BitVec 6) : Statement (.xFmul h d a b) := by
  intro num e0
  have hw : hdBits h 0 + 12058624 + d.toNat * 8192 + a.toNat * 128 + b.toNat = num := Option.some.inj e0
  simp only [hdBits] at hw
  have b0 := bitVal_lt h.c
  have b1 := h.g.isLt
  have b2 := d.isLt
  have b3 := a.isLt
  have b4 := b.isLt
  refine ⟨by omega, ?_⟩
  rw [decodeNat_x (op := 23) (by omega) (by omega)]
  refine (ifZero_zero (show num / 64 % 2 = 0 by omega)).trans ?_
  rw [hdOf_eq (h := h) (by omega) (by omega),
    fld_eq (lo := 13) (x := d) (by show num / 8192 % 64 = _; omega),
    fld_eq (lo := 7) (x := a) (by show num / 128 % 64 = _; omega),
    fld_eq (lo := 0) (x := b) (by show num / 1 % 64 = _; omega)]

theorem xFmax (h : Hd) (d a b : BitVec 6) : Statement (.xFmax h d a b) := by
  intro num e0
  have hw : hdBits h 0 + 12582912 + d.toNat * 8192 + a.toNat * 128 + b.toNat = num := Option.some.inj e0
  simp only [hdBits] at hw
  have b0 := bitVal_lt h.c
  have b1 := h.g.isLt
  have b2 := d.isLt
  have b3 := a.isLt
  have b4 := b.isLt
  refine ⟨by omega, ?_⟩
  rw [decodeNat_x (op := 24) (by omega) (by omega)]
  refine (ifZero_zero (show num / 64 % 2 = 0 by omega)).trans ?_
  rw [hdOf_eq (h := h) (by omega) (by omega),
    fld_eq (lo := 13) (x := d) (by show num / 8192 % 64 = _; omega),
    fld_eq (lo := 7) (x := a) (by show num / 128 % 64 = _; omega),
    fld_eq (lo := 0) (x := b) (by show num / 1 % 64 = _; omega)]

theorem xFcvt (h : Hd) (d a k : BitVec 6) : Statement (.xFcvt h d a k) := by
  intro num e0
  have hw : hdBits h 0 + 13107200 + d.toNat * 8192 + a.toNat * 128 + k.toNat = num := Option.some.inj e0
  simp only [hdBits] at hw
  have b0 := bitVal_lt h.c
  have b1 := h.g.isLt
  have b2 := d.isLt
  have b3 := a.isLt
  have b4 := k.isLt
  refine ⟨by omega, ?_⟩
  rw [decodeNat_x (op := 25) (by omega) (by omega)]
  refine (ifZero_zero (show num / 64 % 2 = 0 by omega)).trans ?_
  rw [hdOf_eq (h := h) (by omega) (by omega),
    fld_eq (lo := 13) (x := d) (by show num / 8192 % 64 = _; omega),
    fld_eq (lo := 7) (x := a) (by show num / 128 % 64 = _; omega),
    fld_eq (lo := 0) (x := k) (by show num / 1 % 64 = _; omega)]

theorem xChk (h : Hd) (a : BitVec 6) : Statement (.xChk h a) := by
  intro num e0
  have hw : hdBits h 0 + 13631488 + a.toNat * 128 = num := Option.some.inj e0
  simp only [hdBits] at hw
  have b0 := bitVal_lt h.c
  have b1 := h.g.isLt
  have b2 := a.isLt
  refine ⟨by omega, ?_⟩
  rw [decodeNat_x (op := 26) (by omega) (by omega)]
  refine (ifZero_zero (show num / 1 % 128 + num / 8192 % 64 = 0 by omega)).trans ?_
  rw [hdOf_eq (h := h) (by omega) (by omega),
    fld_eq (lo := 7) (x := a) (by show num / 128 % 64 = _; omega)]

theorem lLd (h : Hd) (d a : BitVec 6) (s : BitVec 3) (p : Bool) (i : BitVec 3) : Statement (.lLd h d a s p i) := by
  intro num e0
  have hw : hdBits h 1 + d.toNat * 8192 + a.toNat * 128 + s.toNat * 16 + bitVal p * 8 + i.toNat = num := Option.some.inj e0
  simp only [hdBits] at hw
  have b0 := bitVal_lt h.c
  have b1 := h.g.isLt
  have b2 := d.isLt
  have b3 := a.isLt
  have b4 := s.isLt
  have b5 := bitVal_lt p
  have b6 := i.isLt
  refine ⟨by omega, ?_⟩
  rw [decodeNat_l (op := 0) (by omega) (by omega)]
  show Except.ok _ = _
  rw [hdOf_eq (h := h) (by omega) (by omega),
    fld_eq (lo := 13) (x := d) (by show num / 8192 % 64 = _; omega),
    fld_eq (lo := 7) (x := a) (by show num / 128 % 64 = _; omega),
    fld_eq (lo := 4) (x := s) (by show num / 16 % 8 = _; omega),
    flag_eq (i := 3) (b := p) (by show num / 8 % 2 = _; omega),
    fld_eq (lo := 0) (x := i) (by show num / 1 % 8 = _; omega)]

theorem lSt (h : Hd) (d a : BitVec 6) (s i : BitVec 3) : Statement (.lSt h d a s i) := by
  intro num e0
  have hw : hdBits h 1 + 524288 + d.toNat * 8192 + a.toNat * 128 + s.toNat * 16 + i.toNat = num := Option.some.inj e0
  simp only [hdBits] at hw
  have b0 := bitVal_lt h.c
  have b1 := h.g.isLt
  have b2 := d.isLt
  have b3 := a.isLt
  have b4 := s.isLt
  have b5 := i.isLt
  refine ⟨by omega, ?_⟩
  rw [decodeNat_l (op := 1) (by omega) (by omega)]
  refine (ifZero_zero (show num / 8 % 2 = 0 by omega)).trans ?_
  rw [hdOf_eq (h := h) (by omega) (by omega),
    fld_eq (lo := 13) (x := d) (by show num / 8192 % 64 = _; omega),
    fld_eq (lo := 7) (x := a) (by show num / 128 % 64 = _; omega),
    fld_eq (lo := 4) (x := s) (by show num / 16 % 8 = _; omega),
    fld_eq (lo := 0) (x := i) (by show num / 1 % 8 = _; omega)]

theorem lVld (h : Hd) (t : BitVec 2) (r a : BitVec 6) (o : BitVec 3) : Statement (.lVld h t r a o) := by
  intro num e0
  have hw : hdBits h 1 + 1048576 + t.toNat * 131072 + r.toNat * 2048 + a.toNat * 32 + o.toNat * 4 = num := Option.some.inj e0
  simp only [hdBits] at hw
  have b0 := bitVal_lt h.c
  have b1 := h.g.isLt
  have b2 := t.isLt
  have b3 := r.isLt
  have b4 := a.isLt
  have b5 := o.isLt
  refine ⟨by omega, ?_⟩
  rw [decodeNat_l (op := 2) (by omega) (by omega)]
  refine (ifZero_zero (show num / 1 % 4 = 0 by omega)).trans ?_
  rw [hdOf_eq (h := h) (by omega) (by omega),
    fld_eq (lo := 17) (x := t) (by show num / 131072 % 4 = _; omega),
    fld_eq (lo := 11) (x := r) (by show num / 2048 % 64 = _; omega),
    fld_eq (lo := 5) (x := a) (by show num / 32 % 64 = _; omega),
    fld_eq (lo := 2) (x := o) (by show num / 4 % 8 = _; omega)]

theorem lVst (h : Hd) (t : BitVec 2) (r a : BitVec 6) (o : BitVec 3) (f : BitVec 2) : Statement (.lVst h t r a o f) := by
  intro num e0
  have hw : hdBits h 1 + 1572864 + t.toNat * 131072 + r.toNat * 2048 + a.toNat * 32 + o.toNat * 4 + f.toNat = num := Option.some.inj e0
  simp only [hdBits] at hw
  have b0 := bitVal_lt h.c
  have b1 := h.g.isLt
  have b2 := t.isLt
  have b3 := r.isLt
  have b4 := a.isLt
  have b5 := o.isLt
  have b6 := f.isLt
  refine ⟨by omega, ?_⟩
  rw [decodeNat_l (op := 3) (by omega) (by omega)]
  show Except.ok _ = _
  rw [hdOf_eq (h := h) (by omega) (by omega),
    fld_eq (lo := 17) (x := t) (by show num / 131072 % 4 = _; omega),
    fld_eq (lo := 11) (x := r) (by show num / 2048 % 64 = _; omega),
    fld_eq (lo := 5) (x := a) (by show num / 32 % 64 = _; omega),
    fld_eq (lo := 2) (x := o) (by show num / 4 % 8 = _; omega),
    fld_eq (lo := 0) (x := f) (by show num / 1 % 4 = _; omega)]

theorem lCas (h : Hd) (d a b : BitVec 6) (z : Bool) : Statement (.lCas h d a b z) := by
  intro num e0
  have hw : hdBits h 1 + 2097152 + d.toNat * 8192 + a.toNat * 128 + b.toNat * 2 + bitVal z = num := Option.some.inj e0
  simp only [hdBits] at hw
  have b0 := bitVal_lt h.c
  have b1 := h.g.isLt
  have b2 := d.isLt
  have b3 := a.isLt
  have b4 := b.isLt
  have b5 := bitVal_lt z
  refine ⟨by omega, ?_⟩
  rw [decodeNat_l (op := 4) (by omega) (by omega)]
  show Except.ok _ = _
  rw [hdOf_eq (h := h) (by omega) (by omega),
    fld_eq (lo := 13) (x := d) (by show num / 8192 % 64 = _; omega),
    fld_eq (lo := 7) (x := a) (by show num / 128 % 64 = _; omega),
    fld_eq (lo := 1) (x := b) (by show num / 2 % 64 = _; omega),
    flag_eq (i := 0) (b := z) (by show num / 1 % 2 = _; omega)]

theorem lRadd (h : Hd) (t : BitVec 2) (r a : BitVec 6) (o : BitVec 3) : Statement (.lRadd h t r a o) := by
  intro num e0
  have hw : hdBits h 1 + 2621440 + t.toNat * 131072 + r.toNat * 2048 + a.toNat * 32 + o.toNat * 4 = num := Option.some.inj e0
  simp only [hdBits] at hw
  have b0 := bitVal_lt h.c
  have b1 := h.g.isLt
  have b2 := t.isLt
  have b3 := r.isLt
  have b4 := a.isLt
  have b5 := o.isLt
  refine ⟨by omega, ?_⟩
  rw [decodeNat_l (op := 5) (by omega) (by omega)]
  refine (ifZero_zero (show num / 1 % 4 = 0 by omega)).trans ?_
  rw [hdOf_eq (h := h) (by omega) (by omega),
    fld_eq (lo := 17) (x := t) (by show num / 131072 % 4 = _; omega),
    fld_eq (lo := 11) (x := r) (by show num / 2048 % 64 = _; omega),
    fld_eq (lo := 5) (x := a) (by show num / 32 % 64 = _; omega),
    fld_eq (lo := 2) (x := o) (by show num / 4 % 8 = _; omega)]

theorem lAlloc (h : Hd) (d a b : BitVec 6) : Statement (.lAlloc h d a b) := by
  intro num e0
  have hw : hdBits h 1 + 3145728 + d.toNat * 8192 + a.toNat * 128 + b.toNat * 2 = num := Option.some.inj e0
  simp only [hdBits] at hw
  have b0 := bitVal_lt h.c
  have b1 := h.g.isLt
  have b2 := d.isLt
  have b3 := a.isLt
  have b4 := b.isLt
  refine ⟨by omega, ?_⟩
  rw [decodeNat_l (op := 6) (by omega) (by omega)]
  refine (ifZero_zero (show num / 1 % 2 = 0 by omega)).trans ?_
  rw [hdOf_eq (h := h) (by omega) (by omega),
    fld_eq (lo := 13) (x := d) (by show num / 8192 % 64 = _; omega),
    fld_eq (lo := 7) (x := a) (by show num / 128 % 64 = _; omega),
    fld_eq (lo := 1) (x := b) (by show num / 2 % 64 = _; omega)]

theorem lFree (h : Hd) (a : BitVec 6) : Statement (.lFree h a) := by
  intro num e0
  have hw : hdBits h 1 + 3670016 + a.toNat * 128 = num := Option.some.inj e0
  simp only [hdBits] at hw
  have b0 := bitVal_lt h.c
  have b1 := h.g.isLt
  have b2 := a.isLt
  refine ⟨by omega, ?_⟩
  rw [decodeNat_l (op := 7) (by omega) (by omega)]
  refine (ifZero_zero (show num / 1 % 128 + num / 8192 % 64 = 0 by omega)).trans ?_
  rw [hdOf_eq (h := h) (by omega) (by omega),
    fld_eq (lo := 7) (x := a) (by show num / 128 % 64 = _; omega)]

theorem lRenew (h : Hd) (a b : BitVec 6) : Statement (.lRenew h a b) := by
  intro num e0
  have hw : hdBits h 1 + 4194304 + a.toNat * 128 + b.toNat * 2 = num := Option.some.inj e0
  simp only [hdBits] at hw
  have b0 := bitVal_lt h.c
  have b1 := h.g.isLt
  have b2 := a.isLt
  have b3 := b.isLt
  refine ⟨by omega, ?_⟩
  rw [decodeNat_l (op := 8) (by omega) (by omega)]
  refine (ifZero_zero (show num / 1 % 2 + num / 8192 % 64 = 0 by omega)).trans ?_
  rw [hdOf_eq (h := h) (by omega) (by omega),
    fld_eq (lo := 7) (x := a) (by show num / 128 % 64 = _; omega),
    fld_eq (lo := 1) (x := b) (by show num / 2 % 64 = _; omega)]

theorem lCopy (h : Hd) (d a b : BitVec 6) : Statement (.lCopy h d a b) := by
  intro num e0
  have hw : hdBits h 1 + 4718592 + d.toNat * 8192 + a.toNat * 128 + b.toNat * 2 = num := Option.some.inj e0
  simp only [hdBits] at hw
  have b0 := bitVal_lt h.c
  have b1 := h.g.isLt
  have b2 := d.isLt
  have b3 := a.isLt
  have b4 := b.isLt
  refine ⟨by omega, ?_⟩
  rw [decodeNat_l (op := 9) (by omega) (by omega)]
  refine (ifZero_zero (show num / 1 % 2 = 0 by omega)).trans ?_
  rw [hdOf_eq (h := h) (by omega) (by omega),
    fld_eq (lo := 13) (x := d) (by show num / 8192 % 64 = _; omega),
    fld_eq (lo := 7) (x := a) (by show num / 128 % 64 = _; omega),
    fld_eq (lo := 1) (x := b) (by show num / 2 % 64 = _; omega)]

theorem lGath (h : Hd) (d a b : BitVec 6) : Statement (.lGath h d a b) := by
  intro num e0
  have hw : hdBits h 1 + 5242880 + d.toNat * 8192 + a.toNat * 128 + b.toNat * 2 = num := Option.some.inj e0
  simp only [hdBits] at hw
  have b0 := bitVal_lt h.c
  have b1 := h.g.isLt
  have b2 := d.isLt
  have b3 := a.isLt
  have b4 := b.isLt
  refine ⟨by omega, ?_⟩
  rw [decodeNat_l (op := 10) (by omega) (by omega)]
  refine (ifZero_zero (show num / 1 % 2 = 0 by omega)).trans ?_
  rw [hdOf_eq (h := h) (by omega) (by omega),
    fld_eq (lo := 13) (x := d) (by show num / 8192 % 64 = _; omega),
    fld_eq (lo := 7) (x := a) (by show num / 128 % 64 = _; omega),
    fld_eq (lo := 1) (x := b) (by show num / 2 % 64 = _; omega)]

theorem lRld (h : Hd) (d a b : BitVec 6) : Statement (.lRld h d a b) := by
  intro num e0
  have hw : hdBits h 1 + 5767168 + d.toNat * 8192 + a.toNat * 128 + b.toNat * 2 = num := Option.some.inj e0
  simp only [hdBits] at hw
  have b0 := bitVal_lt h.c
  have b1 := h.g.isLt
  have b2 := d.isLt
  have b3 := a.isLt
  have b4 := b.isLt
  refine ⟨by omega, ?_⟩
  rw [decodeNat_l (op := 11) (by omega) (by omega)]
  refine (ifZero_zero (show num / 1 % 2 = 0 by omega)).trans ?_
  rw [hdOf_eq (h := h) (by omega) (by omega),
    fld_eq (lo := 13) (x := d) (by show num / 8192 % 64 = _; omega),
    fld_eq (lo := 7) (x := a) (by show num / 128 % 64 = _; omega),
    fld_eq (lo := 1) (x := b) (by show num / 2 % 64 = _; omega)]

theorem lRst (h : Hd) (d a b : BitVec 6) : Statement (.lRst h d a b) := by
  intro num e0
  have hw : hdBits h 1 + 6291456 + d.toNat * 8192 + a.toNat * 128 + b.toNat * 2 = num := Option.some.inj e0
  simp only [hdBits] at hw
  have b0 := bitVal_lt h.c
  have b1 := h.g.isLt
  have b2 := d.isLt
  have b3 := a.isLt
  have b4 := b.isLt
  refine ⟨by omega, ?_⟩
  rw [decodeNat_l (op := 12) (by omega) (by omega)]
  refine (ifZero_zero (show num / 1 % 2 = 0 by omega)).trans ?_
  rw [hdOf_eq (h := h) (by omega) (by omega),
    fld_eq (lo := 13) (x := d) (by show num / 8192 % 64 = _; omega),
    fld_eq (lo := 7) (x := a) (by show num / 128 % 64 = _; omega),
    fld_eq (lo := 1) (x := b) (by show num / 2 % 64 = _; omega)]

theorem lRred (h : Hd) (d a b : BitVec 6) : Statement (.lRred h d a b) := by
  intro num e0
  have hw : hdBits h 1 + 6815744 + d.toNat * 8192 + a.toNat * 128 + b.toNat * 2 = num := Option.some.inj e0
  simp only [hdBits] at hw
  have b0 := bitVal_lt h.c
  have b1 := h.g.isLt
  have b2 := d.isLt
  have b3 := a.isLt
  have b4 := b.isLt
  refine ⟨by omega, ?_⟩
  rw [decodeNat_l (op := 13) (by omega) (by omega)]
  refine (ifZero_zero (show num / 1 % 2 = 0 by omega)).trans ?_
  rw [hdOf_eq (h := h) (by omega) (by omega),
    fld_eq (lo := 13) (x := d) (by show num / 8192 % 64 = _; omega),
    fld_eq (lo := 7) (x := a) (by show num / 128 % 64 = _; omega),
    fld_eq (lo := 1) (x := b) (by show num / 2 % 64 = _; omega)]

theorem lMcast (h : Hd) (d a b : BitVec 6) : Statement (.lMcast h d a b) := by
  intro num e0
  have hw : hdBits h 1 + 7340032 + d.toNat * 8192 + a.toNat * 128 + b.toNat * 2 = num := Option.some.inj e0
  simp only [hdBits] at hw
  have b0 := bitVal_lt h.c
  have b1 := h.g.isLt
  have b2 := d.isLt
  have b3 := a.isLt
  have b4 := b.isLt
  refine ⟨by omega, ?_⟩
  rw [decodeNat_l (op := 14) (by omega) (by omega)]
  refine (ifZero_zero (show num / 1 % 2 = 0 by omega)).trans ?_
  rw [hdOf_eq (h := h) (by omega) (by omega),
    fld_eq (lo := 13) (x := d) (by show num / 8192 % 64 = _; omega),
    fld_eq (lo := 7) (x := a) (by show num / 128 % 64 = _; omega),
    fld_eq (lo := 1) (x := b) (by show num / 2 % 64 = _; omega)]

theorem lStash (h : Hd) (t : BitVec 2) (a b : BitVec 6) : Statement (.lStash h t a b) := by
  intro num e0
  have hw : hdBits h 1 + 7864320 + t.toNat * 131072 + a.toNat * 2048 + b.toNat * 32 = num := Option.some.inj e0
  simp only [hdBits] at hw
  have b0 := bitVal_lt h.c
  have b1 := h.g.isLt
  have b2 := t.isLt
  have b3 := a.isLt
  have b4 := b.isLt
  refine ⟨by omega, ?_⟩
  rw [decodeNat_l (op := 15) (by omega) (by omega)]
  refine (ifZero_zero (show num / 1 % 32 = 0 by omega)).trans ?_
  rw [hdOf_eq (h := h) (by omega) (by omega),
    fld_eq (lo := 17) (x := t) (by show num / 131072 % 4 = _; omega),
    fld_eq (lo := 11) (x := a) (by show num / 2048 % 64 = _; omega),
    fld_eq (lo := 5) (x := b) (by show num / 32 % 64 = _; omega)]

theorem lWin (h : Hd) (d a b : BitVec 6) : Statement (.lWin h d a b) := by
  intro num e0
  have hw : hdBits h 1 + 8388608 + d.toNat * 8192 + a.toNat * 128 + b.toNat * 2 = num := Option.some.inj e0
  simp only [hdBits] at hw
  have b0 := bitVal_lt h.c
  have b1 := h.g.isLt
  have b2 := d.isLt
  have b3 := a.isLt
  have b4 := b.isLt
  refine ⟨by omega, ?_⟩
  rw [decodeNat_l (op := 16) (by omega) (by omega)]
  refine (ifZero_zero (show num / 1 % 2 = 0 by omega)).trans ?_
  rw [hdOf_eq (h := h) (by omega) (by omega),
    fld_eq (lo := 13) (x := d) (by show num / 8192 % 64 = _; omega),
    fld_eq (lo := 7) (x := a) (by show num / 128 % 64 = _; omega),
    fld_eq (lo := 1) (x := b) (by show num / 2 % 64 = _; omega)]

theorem lAmoAdd (h : Hd) (d a b : BitVec 6) (z : Bool) : Statement (.lAmoAdd h d a b z) := by
  intro num e0
  have hw : hdBits h 1 + 12582912 + d.toNat * 8192 + a.toNat * 128 + b.toNat * 2 + bitVal z = num := Option.some.inj e0
  simp only [hdBits] at hw
  have b0 := bitVal_lt h.c
  have b1 := h.g.isLt
  have b2 := d.isLt
  have b3 := a.isLt
  have b4 := b.isLt
  have b5 := bitVal_lt z
  refine ⟨by omega, ?_⟩
  rw [decodeNat_l (op := 24) (by omega) (by omega)]
  show Except.ok _ = _
  rw [hdOf_eq (h := h) (by omega) (by omega),
    fld_eq (lo := 13) (x := d) (by show num / 8192 % 64 = _; omega),
    fld_eq (lo := 7) (x := a) (by show num / 128 % 64 = _; omega),
    fld_eq (lo := 1) (x := b) (by show num / 2 % 64 = _; omega),
    flag_eq (i := 0) (b := z) (by show num / 1 % 2 = _; omega)]

theorem lAmoAnd (h : Hd) (d a b : BitVec 6) (z : Bool) : Statement (.lAmoAnd h d a b z) := by
  intro num e0
  have hw : hdBits h 1 + 13107200 + d.toNat * 8192 + a.toNat * 128 + b.toNat * 2 + bitVal z = num := Option.some.inj e0
  simp only [hdBits] at hw
  have b0 := bitVal_lt h.c
  have b1 := h.g.isLt
  have b2 := d.isLt
  have b3 := a.isLt
  have b4 := b.isLt
  have b5 := bitVal_lt z
  refine ⟨by omega, ?_⟩
  rw [decodeNat_l (op := 25) (by omega) (by omega)]
  show Except.ok _ = _
  rw [hdOf_eq (h := h) (by omega) (by omega),
    fld_eq (lo := 13) (x := d) (by show num / 8192 % 64 = _; omega),
    fld_eq (lo := 7) (x := a) (by show num / 128 % 64 = _; omega),
    fld_eq (lo := 1) (x := b) (by show num / 2 % 64 = _; omega),
    flag_eq (i := 0) (b := z) (by show num / 1 % 2 = _; omega)]

theorem lAmoOr (h : Hd) (d a b : BitVec 6) (z : Bool) : Statement (.lAmoOr h d a b z) := by
  intro num e0
  have hw : hdBits h 1 + 13631488 + d.toNat * 8192 + a.toNat * 128 + b.toNat * 2 + bitVal z = num := Option.some.inj e0
  simp only [hdBits] at hw
  have b0 := bitVal_lt h.c
  have b1 := h.g.isLt
  have b2 := d.isLt
  have b3 := a.isLt
  have b4 := b.isLt
  have b5 := bitVal_lt z
  refine ⟨by omega, ?_⟩
  rw [decodeNat_l (op := 26) (by omega) (by omega)]
  show Except.ok _ = _
  rw [hdOf_eq (h := h) (by omega) (by omega),
    fld_eq (lo := 13) (x := d) (by show num / 8192 % 64 = _; omega),
    fld_eq (lo := 7) (x := a) (by show num / 128 % 64 = _; omega),
    fld_eq (lo := 1) (x := b) (by show num / 2 % 64 = _; omega),
    flag_eq (i := 0) (b := z) (by show num / 1 % 2 = _; omega)]

theorem lAmoXor (h : Hd) (d a b : BitVec 6) (z : Bool) : Statement (.lAmoXor h d a b z) := by
  intro num e0
  have hw : hdBits h 1 + 14155776 + d.toNat * 8192 + a.toNat * 128 + b.toNat * 2 + bitVal z = num := Option.some.inj e0
  simp only [hdBits] at hw
  have b0 := bitVal_lt h.c
  have b1 := h.g.isLt
  have b2 := d.isLt
  have b3 := a.isLt
  have b4 := b.isLt
  have b5 := bitVal_lt z
  refine ⟨by omega, ?_⟩
  rw [decodeNat_l (op := 27) (by omega) (by omega)]
  show Except.ok _ = _
  rw [hdOf_eq (h := h) (by omega) (by omega),
    fld_eq (lo := 13) (x := d) (by show num / 8192 % 64 = _; omega),
    fld_eq (lo := 7) (x := a) (by show num / 128 % 64 = _; omega),
    fld_eq (lo := 1) (x := b) (by show num / 2 % 64 = _; omega),
    flag_eq (i := 0) (b := z) (by show num / 1 % 2 = _; omega)]

theorem lAmoMin (h : Hd) (d a b : BitVec 6) (z : Bool) : Statement (.lAmoMin h d a b z) := by
  intro num e0
  have hw : hdBits h 1 + 14680064 + d.toNat * 8192 + a.toNat * 128 + b.toNat * 2 + bitVal z = num := Option.some.inj e0
  simp only [hdBits] at hw
  have b0 := bitVal_lt h.c
  have b1 := h.g.isLt
  have b2 := d.isLt
  have b3 := a.isLt
  have b4 := b.isLt
  have b5 := bitVal_lt z
  refine ⟨by omega, ?_⟩
  rw [decodeNat_l (op := 28) (by omega) (by omega)]
  show Except.ok _ = _
  rw [hdOf_eq (h := h) (by omega) (by omega),
    fld_eq (lo := 13) (x := d) (by show num / 8192 % 64 = _; omega),
    fld_eq (lo := 7) (x := a) (by show num / 128 % 64 = _; omega),
    fld_eq (lo := 1) (x := b) (by show num / 2 % 64 = _; omega),
    flag_eq (i := 0) (b := z) (by show num / 1 % 2 = _; omega)]

theorem lAmoMax (h : Hd) (d a b : BitVec 6) (z : Bool) : Statement (.lAmoMax h d a b z) := by
  intro num e0
  have hw : hdBits h 1 + 15204352 + d.toNat * 8192 + a.toNat * 128 + b.toNat * 2 + bitVal z = num := Option.some.inj e0
  simp only [hdBits] at hw
  have b0 := bitVal_lt h.c
  have b1 := h.g.isLt
  have b2 := d.isLt
  have b3 := a.isLt
  have b4 := b.isLt
  have b5 := bitVal_lt z
  refine ⟨by omega, ?_⟩
  rw [decodeNat_l (op := 29) (by omega) (by omega)]
  show Except.ok _ = _
  rw [hdOf_eq (h := h) (by omega) (by omega),
    fld_eq (lo := 13) (x := d) (by show num / 8192 % 64 = _; omega),
    fld_eq (lo := 7) (x := a) (by show num / 128 % 64 = _; omega),
    fld_eq (lo := 1) (x := b) (by show num / 2 % 64 = _; omega),
    flag_eq (i := 0) (b := z) (by show num / 1 % 2 = _; omega)]

theorem lAmoSwap (h : Hd) (d a b : BitVec 6) (z : Bool) : Statement (.lAmoSwap h d a b z) := by
  intro num e0
  have hw : hdBits h 1 + 15728640 + d.toNat * 8192 + a.toNat * 128 + b.toNat * 2 + bitVal z = num := Option.some.inj e0
  simp only [hdBits] at hw
  have b0 := bitVal_lt h.c
  have b1 := h.g.isLt
  have b2 := d.isLt
  have b3 := a.isLt
  have b4 := b.isLt
  have b5 := bitVal_lt z
  refine ⟨by omega, ?_⟩
  rw [decodeNat_l (op := 30) (by omega) (by omega)]
  show Except.ok _ = _
  rw [hdOf_eq (h := h) (by omega) (by omega),
    fld_eq (lo := 13) (x := d) (by show num / 8192 % 64 = _; omega),
    fld_eq (lo := 7) (x := a) (by show num / 128 % 64 = _; omega),
    fld_eq (lo := 1) (x := b) (by show num / 2 % 64 = _; omega),
    flag_eq (i := 0) (b := z) (by show num / 1 % 2 = _; omega)]

theorem vAdd (h : Hd) (t : BitVec 2) (d a b : BitVec 6) : Statement (.vAdd h t d a b) := by
  intro num e0
  have hw : hdBits h 2 + t.toNat * 262144 + d.toNat * 4096 + a.toNat * 64 + b.toNat = num := Option.some.inj e0
  simp only [hdBits] at hw
  have b0 := bitVal_lt h.c
  have b1 := h.g.isLt
  have b2 := t.isLt
  have b3 := d.isLt
  have b4 := a.isLt
  have b5 := b.isLt
  refine ⟨by omega, ?_⟩
  rw [decodeNat_v (op := 0) (by omega) (by omega)]
  show Except.ok _ = _
  rw [hdOf_eq (h := h) (by omega) (by omega),
    fld_eq (lo := 18) (x := t) (by show num / 262144 % 4 = _; omega),
    fld_eq (lo := 12) (x := d) (by show num / 4096 % 64 = _; omega),
    fld_eq (lo := 6) (x := a) (by show num / 64 % 64 = _; omega),
    fld_eq (lo := 0) (x := b) (by show num / 1 % 64 = _; omega)]

theorem vSub (h : Hd) (t : BitVec 2) (d a b : BitVec 6) : Statement (.vSub h t d a b) := by
  intro num e0
  have hw : hdBits h 2 + 1048576 + t.toNat * 262144 + d.toNat * 4096 + a.toNat * 64 + b.toNat = num := Option.some.inj e0
  simp only [hdBits] at hw
  have b0 := bitVal_lt h.c
  have b1 := h.g.isLt
  have b2 := t.isLt
  have b3 := d.isLt
  have b4 := a.isLt
  have b5 := b.isLt
  refine ⟨by omega, ?_⟩
  rw [decodeNat_v (op := 1) (by omega) (by omega)]
  show Except.ok _ = _
  rw [hdOf_eq (h := h) (by omega) (by omega),
    fld_eq (lo := 18) (x := t) (by show num / 262144 % 4 = _; omega),
    fld_eq (lo := 12) (x := d) (by show num / 4096 % 64 = _; omega),
    fld_eq (lo := 6) (x := a) (by show num / 64 % 64 = _; omega),
    fld_eq (lo := 0) (x := b) (by show num / 1 % 64 = _; omega)]

theorem vMul (h : Hd) (t : BitVec 2) (d a b : BitVec 6) : Statement (.vMul h t d a b) := by
  intro num e0
  have hw : hdBits h 2 + 2097152 + t.toNat * 262144 + d.toNat * 4096 + a.toNat * 64 + b.toNat = num := Option.some.inj e0
  simp only [hdBits] at hw
  have b0 := bitVal_lt h.c
  have b1 := h.g.isLt
  have b2 := t.isLt
  have b3 := d.isLt
  have b4 := a.isLt
  have b5 := b.isLt
  refine ⟨by omega, ?_⟩
  rw [decodeNat_v (op := 2) (by omega) (by omega)]
  show Except.ok _ = _
  rw [hdOf_eq (h := h) (by omega) (by omega),
    fld_eq (lo := 18) (x := t) (by show num / 262144 % 4 = _; omega),
    fld_eq (lo := 12) (x := d) (by show num / 4096 % 64 = _; omega),
    fld_eq (lo := 6) (x := a) (by show num / 64 % 64 = _; omega),
    fld_eq (lo := 0) (x := b) (by show num / 1 % 64 = _; omega)]

theorem vFma (h : Hd) (t : BitVec 2) (d a b : BitVec 6) : Statement (.vFma h t d a b) := by
  intro num e0
  have hw : hdBits h 2 + 3145728 + t.toNat * 262144 + d.toNat * 4096 + a.toNat * 64 + b.toNat = num := Option.some.inj e0
  simp only [hdBits] at hw
  have b0 := bitVal_lt h.c
  have b1 := h.g.isLt
  have b2 := t.isLt
  have b3 := d.isLt
  have b4 := a.isLt
  have b5 := b.isLt
  refine ⟨by omega, ?_⟩
  rw [decodeNat_v (op := 3) (by omega) (by omega)]
  show Except.ok _ = _
  rw [hdOf_eq (h := h) (by omega) (by omega),
    fld_eq (lo := 18) (x := t) (by show num / 262144 % 4 = _; omega),
    fld_eq (lo := 12) (x := d) (by show num / 4096 % 64 = _; omega),
    fld_eq (lo := 6) (x := a) (by show num / 64 % 64 = _; omega),
    fld_eq (lo := 0) (x := b) (by show num / 1 % 64 = _; omega)]

theorem vMax (h : Hd) (t : BitVec 2) (d a b : BitVec 6) : Statement (.vMax h t d a b) := by
  intro num e0
  have hw : hdBits h 2 + 4194304 + t.toNat * 262144 + d.toNat * 4096 + a.toNat * 64 + b.toNat = num := Option.some.inj e0
  simp only [hdBits] at hw
  have b0 := bitVal_lt h.c
  have b1 := h.g.isLt
  have b2 := t.isLt
  have b3 := d.isLt
  have b4 := a.isLt
  have b5 := b.isLt
  refine ⟨by omega, ?_⟩
  rw [decodeNat_v (op := 4) (by omega) (by omega)]
  show Except.ok _ = _
  rw [hdOf_eq (h := h) (by omega) (by omega),
    fld_eq (lo := 18) (x := t) (by show num / 262144 % 4 = _; omega),
    fld_eq (lo := 12) (x := d) (by show num / 4096 % 64 = _; omega),
    fld_eq (lo := 6) (x := a) (by show num / 64 % 64 = _; omega),
    fld_eq (lo := 0) (x := b) (by show num / 1 % 64 = _; omega)]

theorem vMin (h : Hd) (t : BitVec 2) (d a b : BitVec 6) : Statement (.vMin h t d a b) := by
  intro num e0
  have hw : hdBits h 2 + 5242880 + t.toNat * 262144 + d.toNat * 4096 + a.toNat * 64 + b.toNat = num := Option.some.inj e0
  simp only [hdBits] at hw
  have b0 := bitVal_lt h.c
  have b1 := h.g.isLt
  have b2 := t.isLt
  have b3 := d.isLt
  have b4 := a.isLt
  have b5 := b.isLt
  refine ⟨by omega, ?_⟩
  rw [decodeNat_v (op := 5) (by omega) (by omega)]
  show Except.ok _ = _
  rw [hdOf_eq (h := h) (by omega) (by omega),
    fld_eq (lo := 18) (x := t) (by show num / 262144 % 4 = _; omega),
    fld_eq (lo := 12) (x := d) (by show num / 4096 % 64 = _; omega),
    fld_eq (lo := 6) (x := a) (by show num / 64 % 64 = _; omega),
    fld_eq (lo := 0) (x := b) (by show num / 1 % 64 = _; omega)]

theorem vNeg (h : Hd) (t : BitVec 2) (d a : BitVec 6) : Statement (.vNeg h t d a) := by
  intro num e0
  have hw : hdBits h 2 + 6291456 + t.toNat * 262144 + d.toNat * 4096 + a.toNat * 64 = num := Option.some.inj e0
  simp only [hdBits] at hw
  have b0 := bitVal_lt h.c
  have b1 := h.g.isLt
  have b2 := t.isLt
  have b3 := d.isLt
  have b4 := a.isLt
  refine ⟨by omega, ?_⟩
  rw [decodeNat_v (op := 6) (by omega) (by omega)]
  refine (ifZero_zero (show num / 1 % 64 = 0 by omega)).trans ?_
  rw [hdOf_eq (h := h) (by omega) (by omega),
    fld_eq (lo := 18) (x := t) (by show num / 262144 % 4 = _; omega),
    fld_eq (lo := 12) (x := d) (by show num / 4096 % 64 = _; omega),
    fld_eq (lo := 6) (x := a) (by show num / 64 % 64 = _; omega)]

theorem vAbs (h : Hd) (t : BitVec 2) (d a : BitVec 6) : Statement (.vAbs h t d a) := by
  intro num e0
  have hw : hdBits h 2 + 7340032 + t.toNat * 262144 + d.toNat * 4096 + a.toNat * 64 = num := Option.some.inj e0
  simp only [hdBits] at hw
  have b0 := bitVal_lt h.c
  have b1 := h.g.isLt
  have b2 := t.isLt
  have b3 := d.isLt
  have b4 := a.isLt
  refine ⟨by omega, ?_⟩
  rw [decodeNat_v (op := 7) (by omega) (by omega)]
  refine (ifZero_zero (show num / 1 % 64 = 0 by omega)).trans ?_
  rw [hdOf_eq (h := h) (by omega) (by omega),
    fld_eq (lo := 18) (x := t) (by show num / 262144 % 4 = _; omega),
    fld_eq (lo := 12) (x := d) (by show num / 4096 % 64 = _; omega),
    fld_eq (lo := 6) (x := a) (by show num / 64 % 64 = _; omega)]

theorem vExp2 (h : Hd) (t : BitVec 2) (d a : BitVec 6) : Statement (.vExp2 h t d a) := by
  intro num e0
  have hw : hdBits h 2 + 8388608 + t.toNat * 262144 + d.toNat * 4096 + a.toNat * 64 = num := Option.some.inj e0
  simp only [hdBits] at hw
  have b0 := bitVal_lt h.c
  have b1 := h.g.isLt
  have b2 := t.isLt
  have b3 := d.isLt
  have b4 := a.isLt
  refine ⟨by omega, ?_⟩
  rw [decodeNat_v (op := 8) (by omega) (by omega)]
  refine (ifZero_zero (show num / 1 % 64 = 0 by omega)).trans ?_
  rw [hdOf_eq (h := h) (by omega) (by omega),
    fld_eq (lo := 18) (x := t) (by show num / 262144 % 4 = _; omega),
    fld_eq (lo := 12) (x := d) (by show num / 4096 % 64 = _; omega),
    fld_eq (lo := 6) (x := a) (by show num / 64 % 64 = _; omega)]

theorem vLog2 (h : Hd) (t : BitVec 2) (d a : BitVec 6) : Statement (.vLog2 h t d a) := by
  intro num e0
  have hw : hdBits h 2 + 9437184 + t.toNat * 262144 + d.toNat * 4096 + a.toNat * 64 = num := Option.some.inj e0
  simp only [hdBits] at hw
  have b0 := bitVal_lt h.c
  have b1 := h.g.isLt
  have b2 := t.isLt
  have b3 := d.isLt
  have b4 := a.isLt
  refine ⟨by omega, ?_⟩
  rw [decodeNat_v (op := 9) (by omega) (by omega)]
  refine (ifZero_zero (show num / 1 % 64 = 0 by omega)).trans ?_
  rw [hdOf_eq (h := h) (by omega) (by omega),
    fld_eq (lo := 18) (x := t) (by show num / 262144 % 4 = _; omega),
    fld_eq (lo := 12) (x := d) (by show num / 4096 % 64 = _; omega),
    fld_eq (lo := 6) (x := a) (by show num / 64 % 64 = _; omega)]

theorem vRcp (h : Hd) (t : BitVec 2) (d a : BitVec 6) : Statement (.vRcp h t d a) := by
  intro num e0
  have hw : hdBits h 2 + 10485760 + t.toNat * 262144 + d.toNat * 4096 + a.toNat * 64 = num := Option.some.inj e0
  simp only [hdBits] at hw
  have b0 := bitVal_lt h.c
  have b1 := h.g.isLt
  have b2 := t.isLt
  have b3 := d.isLt
  have b4 := a.isLt
  refine ⟨by omega, ?_⟩
  rw [decodeNat_v (op := 10) (by omega) (by omega)]
  refine (ifZero_zero (show num / 1 % 64 = 0 by omega)).trans ?_
  rw [hdOf_eq (h := h) (by omega) (by omega),
    fld_eq (lo := 18) (x := t) (by show num / 262144 % 4 = _; omega),
    fld_eq (lo := 12) (x := d) (by show num / 4096 % 64 = _; omega),
    fld_eq (lo := 6) (x := a) (by show num / 64 % 64 = _; omega)]

theorem vRsqrt (h : Hd) (t : BitVec 2) (d a : BitVec 6) : Statement (.vRsqrt h t d a) := by
  intro num e0
  have hw : hdBits h 2 + 11534336 + t.toNat * 262144 + d.toNat * 4096 + a.toNat * 64 = num := Option.some.inj e0
  simp only [hdBits] at hw
  have b0 := bitVal_lt h.c
  have b1 := h.g.isLt
  have b2 := t.isLt
  have b3 := d.isLt
  have b4 := a.isLt
  refine ⟨by omega, ?_⟩
  rw [decodeNat_v (op := 11) (by omega) (by omega)]
  refine (ifZero_zero (show num / 1 % 64 = 0 by omega)).trans ?_
  rw [hdOf_eq (h := h) (by omega) (by omega),
    fld_eq (lo := 18) (x := t) (by show num / 262144 % 4 = _; omega),
    fld_eq (lo := 12) (x := d) (by show num / 4096 % 64 = _; omega),
    fld_eq (lo := 6) (x := a) (by show num / 64 % 64 = _; omega)]

theorem vCvt (h : Hd) (t : BitVec 2) (d a k : BitVec 6) : Statement (.vCvt h t d a k) := by
  intro num e0
  have hw : hdBits h 2 + 12582912 + t.toNat * 262144 + d.toNat * 4096 + a.toNat * 64 + k.toNat = num := Option.some.inj e0
  simp only [hdBits] at hw
  have b0 := bitVal_lt h.c
  have b1 := h.g.isLt
  have b2 := t.isLt
  have b3 := d.isLt
  have b4 := a.isLt
  have b5 := k.isLt
  refine ⟨by omega, ?_⟩
  rw [decodeNat_v (op := 12) (by omega) (by omega)]
  show Except.ok _ = _
  rw [hdOf_eq (h := h) (by omega) (by omega),
    fld_eq (lo := 18) (x := t) (by show num / 262144 % 4 = _; omega),
    fld_eq (lo := 12) (x := d) (by show num / 4096 % 64 = _; omega),
    fld_eq (lo := 6) (x := a) (by show num / 64 % 64 = _; omega),
    fld_eq (lo := 0) (x := k) (by show num / 1 % 64 = _; omega)]

theorem vCmpLt (h : Hd) (t : BitVec 2) (d a b : BitVec 6) : Statement (.vCmpLt h t d a b) := by
  intro num e0
  have hw : hdBits h 2 + 13631488 + t.toNat * 262144 + d.toNat * 4096 + a.toNat * 64 + b.toNat = num := Option.some.inj e0
  simp only [hdBits] at hw
  have b0 := bitVal_lt h.c
  have b1 := h.g.isLt
  have b2 := t.isLt
  have b3 := d.isLt
  have b4 := a.isLt
  have b5 := b.isLt
  refine ⟨by omega, ?_⟩
  rw [decodeNat_v (op := 13) (by omega) (by omega)]
  show Except.ok _ = _
  rw [hdOf_eq (h := h) (by omega) (by omega),
    fld_eq (lo := 18) (x := t) (by show num / 262144 % 4 = _; omega),
    fld_eq (lo := 12) (x := d) (by show num / 4096 % 64 = _; omega),
    fld_eq (lo := 6) (x := a) (by show num / 64 % 64 = _; omega),
    fld_eq (lo := 0) (x := b) (by show num / 1 % 64 = _; omega)]

theorem vCmpLe (h : Hd) (t : BitVec 2) (d a b : BitVec 6) : Statement (.vCmpLe h t d a b) := by
  intro num e0
  have hw : hdBits h 2 + 14680064 + t.toNat * 262144 + d.toNat * 4096 + a.toNat * 64 + b.toNat = num := Option.some.inj e0
  simp only [hdBits] at hw
  have b0 := bitVal_lt h.c
  have b1 := h.g.isLt
  have b2 := t.isLt
  have b3 := d.isLt
  have b4 := a.isLt
  have b5 := b.isLt
  refine ⟨by omega, ?_⟩
  rw [decodeNat_v (op := 14) (by omega) (by omega)]
  show Except.ok _ = _
  rw [hdOf_eq (h := h) (by omega) (by omega),
    fld_eq (lo := 18) (x := t) (by show num / 262144 % 4 = _; omega),
    fld_eq (lo := 12) (x := d) (by show num / 4096 % 64 = _; omega),
    fld_eq (lo := 6) (x := a) (by show num / 64 % 64 = _; omega),
    fld_eq (lo := 0) (x := b) (by show num / 1 % 64 = _; omega)]

theorem vCmpEq (h : Hd) (t : BitVec 2) (d a b : BitVec 6) : Statement (.vCmpEq h t d a b) := by
  intro num e0
  have hw : hdBits h 2 + 15728640 + t.toNat * 262144 + d.toNat * 4096 + a.toNat * 64 + b.toNat = num := Option.some.inj e0
  simp only [hdBits] at hw
  have b0 := bitVal_lt h.c
  have b1 := h.g.isLt
  have b2 := t.isLt
  have b3 := d.isLt
  have b4 := a.isLt
  have b5 := b.isLt
  refine ⟨by omega, ?_⟩
  rw [decodeNat_v (op := 15) (by omega) (by omega)]
  show Except.ok _ = _
  rw [hdOf_eq (h := h) (by omega) (by omega),
    fld_eq (lo := 18) (x := t) (by show num / 262144 % 4 = _; omega),
    fld_eq (lo := 12) (x := d) (by show num / 4096 % 64 = _; omega),
    fld_eq (lo := 6) (x := a) (by show num / 64 % 64 = _; omega),
    fld_eq (lo := 0) (x := b) (by show num / 1 % 64 = _; omega)]

theorem vSel (h : Hd) (t : BitVec 2) (d a b : BitVec 6) : Statement (.vSel h t d a b) := by
  intro num e0
  have hw : hdBits h 2 + 16777216 + t.toNat * 262144 + d.toNat * 4096 + a.toNat * 64 + b.toNat = num := Option.some.inj e0
  simp only [hdBits] at hw
  have b0 := bitVal_lt h.c
  have b1 := h.g.isLt
  have b2 := t.isLt
  have b3 := d.isLt
  have b4 := a.isLt
  have b5 := b.isLt
  refine ⟨by omega, ?_⟩
  rw [decodeNat_v (op := 16) (by omega) (by omega)]
  show Except.ok _ = _
  rw [hdOf_eq (h := h) (by omega) (by omega),
    fld_eq (lo := 18) (x := t) (by show num / 262144 % 4 = _; omega),
    fld_eq (lo := 12) (x := d) (by show num / 4096 % 64 = _; omega),
    fld_eq (lo := 6) (x := a) (by show num / 64 % 64 = _; omega),
    fld_eq (lo := 0) (x := b) (by show num / 1 % 64 = _; omega)]

theorem vRmax (h : Hd) (t : BitVec 2) (d a : BitVec 6) : Statement (.vRmax h t d a) := by
  intro num e0
  have hw : hdBits h 2 + 17825792 + t.toNat * 262144 + d.toNat * 4096 + a.toNat * 64 = num := Option.some.inj e0
  simp only [hdBits] at hw
  have b0 := bitVal_lt h.c
  have b1 := h.g.isLt
  have b2 := t.isLt
  have b3 := d.isLt
  have b4 := a.isLt
  refine ⟨by omega, ?_⟩
  rw [decodeNat_v (op := 17) (by omega) (by omega)]
  refine (ifZero_zero (show num / 1 % 64 = 0 by omega)).trans ?_
  rw [hdOf_eq (h := h) (by omega) (by omega),
    fld_eq (lo := 18) (x := t) (by show num / 262144 % 4 = _; omega),
    fld_eq (lo := 12) (x := d) (by show num / 4096 % 64 = _; omega),
    fld_eq (lo := 6) (x := a) (by show num / 64 % 64 = _; omega)]

theorem vRsum (h : Hd) (t : BitVec 2) (d a : BitVec 6) : Statement (.vRsum h t d a) := by
  intro num e0
  have hw : hdBits h 2 + 18874368 + t.toNat * 262144 + d.toNat * 4096 + a.toNat * 64 = num := Option.some.inj e0
  simp only [hdBits] at hw
  have b0 := bitVal_lt h.c
  have b1 := h.g.isLt
  have b2 := t.isLt
  have b3 := d.isLt
  have b4 := a.isLt
  refine ⟨by omega, ?_⟩
  rw [decodeNat_v (op := 18) (by omega) (by omega)]
  refine (ifZero_zero (show num / 1 % 64 = 0 by omega)).trans ?_
  rw [hdOf_eq (h := h) (by omega) (by omega),
    fld_eq (lo := 18) (x := t) (by show num / 262144 % 4 = _; omega),
    fld_eq (lo := 12) (x := d) (by show num / 4096 % 64 = _; omega),
    fld_eq (lo := 6) (x := a) (by show num / 64 % 64 = _; omega)]

theorem vBcast (h : Hd) (t : BitVec 2) (d a : BitVec 6) : Statement (.vBcast h t d a) := by
  intro num e0
  have hw : hdBits h 2 + 19922944 + t.toNat * 262144 + d.toNat * 4096 + a.toNat * 64 = num := Option.some.inj e0
  simp only [hdBits] at hw
  have b0 := bitVal_lt h.c
  have b1 := h.g.isLt
  have b2 := t.isLt
  have b3 := d.isLt
  have b4 := a.isLt
  refine ⟨by omega, ?_⟩
  rw [decodeNat_v (op := 19) (by omega) (by omega)]
  refine (ifZero_zero (show num / 1 % 64 = 0 by omega)).trans ?_
  rw [hdOf_eq (h := h) (by omega) (by omega),
    fld_eq (lo := 18) (x := t) (by show num / 262144 % 4 = _; omega),
    fld_eq (lo := 12) (x := d) (by show num / 4096 % 64 = _; omega),
    fld_eq (lo := 6) (x := a) (by show num / 64 % 64 = _; omega)]

theorem vGet (h : Hd) (t : BitVec 2) (d a b : BitVec 6) : Statement (.vGet h t d a b) := by
  intro num e0
  have hw : hdBits h 2 + 20971520 + t.toNat * 262144 + d.toNat * 4096 + a.toNat * 64 + b.toNat = num := Option.some.inj e0
  simp only [hdBits] at hw
  have b0 := bitVal_lt h.c
  have b1 := h.g.isLt
  have b2 := t.isLt
  have b3 := d.isLt
  have b4 := a.isLt
  have b5 := b.isLt
  refine ⟨by omega, ?_⟩
  rw [decodeNat_v (op := 20) (by omega) (by omega)]
  show Except.ok _ = _
  rw [hdOf_eq (h := h) (by omega) (by omega),
    fld_eq (lo := 18) (x := t) (by show num / 262144 % 4 = _; omega),
    fld_eq (lo := 12) (x := d) (by show num / 4096 % 64 = _; omega),
    fld_eq (lo := 6) (x := a) (by show num / 64 % 64 = _; omega),
    fld_eq (lo := 0) (x := b) (by show num / 1 % 64 = _; omega)]

theorem vPut (h : Hd) (t : BitVec 2) (d a b : BitVec 6) : Statement (.vPut h t d a b) := by
  intro num e0
  have hw : hdBits h 2 + 22020096 + t.toNat * 262144 + d.toNat * 4096 + a.toNat * 64 + b.toNat = num := Option.some.inj e0
  simp only [hdBits] at hw
  have b0 := bitVal_lt h.c
  have b1 := h.g.isLt
  have b2 := t.isLt
  have b3 := d.isLt
  have b4 := a.isLt
  have b5 := b.isLt
  refine ⟨by omega, ?_⟩
  rw [decodeNat_v (op := 21) (by omega) (by omega)]
  show Except.ok _ = _
  rw [hdOf_eq (h := h) (by omega) (by omega),
    fld_eq (lo := 18) (x := t) (by show num / 262144 % 4 = _; omega),
    fld_eq (lo := 12) (x := d) (by show num / 4096 % 64 = _; omega),
    fld_eq (lo := 6) (x := a) (by show num / 64 % 64 = _; omega),
    fld_eq (lo := 0) (x := b) (by show num / 1 % 64 = _; omega)]

theorem vMov (h : Hd) (t : BitVec 2) (d a u : BitVec 6) : Statement (.vMov h t d a u) := by
  intro num e0
  have hw : hdBits h 2 + 23068672 + t.toNat * 262144 + d.toNat * 4096 + a.toNat * 64 + u.toNat = num := Option.some.inj e0
  simp only [hdBits] at hw
  have b0 := bitVal_lt h.c
  have b1 := h.g.isLt
  have b2 := t.isLt
  have b3 := d.isLt
  have b4 := a.isLt
  have b5 := u.isLt
  refine ⟨by omega, ?_⟩
  rw [decodeNat_v (op := 22) (by omega) (by omega)]
  show Except.ok _ = _
  rw [hdOf_eq (h := h) (by omega) (by omega),
    fld_eq (lo := 18) (x := t) (by show num / 262144 % 4 = _; omega),
    fld_eq (lo := 12) (x := d) (by show num / 4096 % 64 = _; omega),
    fld_eq (lo := 6) (x := a) (by show num / 64 % 64 = _; omega),
    fld_eq (lo := 0) (x := u) (by show num / 1 % 64 = _; omega)]

theorem vPerm (h : Hd) (t : BitVec 2) (d a b : BitVec 6) : Statement (.vPerm h t d a b) := by
  intro num e0
  have hw : hdBits h 2 + 24117248 + t.toNat * 262144 + d.toNat * 4096 + a.toNat * 64 + b.toNat = num := Option.some.inj e0
  simp only [hdBits] at hw
  have b0 := bitVal_lt h.c
  have b1 := h.g.isLt
  have b2 := t.isLt
  have b3 := d.isLt
  have b4 := a.isLt
  have b5 := b.isLt
  refine ⟨by omega, ?_⟩
  rw [decodeNat_v (op := 23) (by omega) (by omega)]
  show Except.ok _ = _
  rw [hdOf_eq (h := h) (by omega) (by omega),
    fld_eq (lo := 18) (x := t) (by show num / 262144 % 4 = _; omega),
    fld_eq (lo := 12) (x := d) (by show num / 4096 % 64 = _; omega),
    fld_eq (lo := 6) (x := a) (by show num / 64 % 64 = _; omega),
    fld_eq (lo := 0) (x := b) (by show num / 1 % 64 = _; omega)]

theorem vAnd (h : Hd) (t : BitVec 2) (d a b : BitVec 6) : Statement (.vAnd h t d a b) := by
  intro num e0
  have hw : hdBits h 2 + 25165824 + t.toNat * 262144 + d.toNat * 4096 + a.toNat * 64 + b.toNat = num := Option.some.inj e0
  simp only [hdBits] at hw
  have b0 := bitVal_lt h.c
  have b1 := h.g.isLt
  have b2 := t.isLt
  have b3 := d.isLt
  have b4 := a.isLt
  have b5 := b.isLt
  refine ⟨by omega, ?_⟩
  rw [decodeNat_v (op := 24) (by omega) (by omega)]
  show Except.ok _ = _
  rw [hdOf_eq (h := h) (by omega) (by omega),
    fld_eq (lo := 18) (x := t) (by show num / 262144 % 4 = _; omega),
    fld_eq (lo := 12) (x := d) (by show num / 4096 % 64 = _; omega),
    fld_eq (lo := 6) (x := a) (by show num / 64 % 64 = _; omega),
    fld_eq (lo := 0) (x := b) (by show num / 1 % 64 = _; omega)]

theorem vOr (h : Hd) (t : BitVec 2) (d a b : BitVec 6) : Statement (.vOr h t d a b) := by
  intro num e0
  have hw : hdBits h 2 + 26214400 + t.toNat * 262144 + d.toNat * 4096 + a.toNat * 64 + b.toNat = num := Option.some.inj e0
  simp only [hdBits] at hw
  have b0 := bitVal_lt h.c
  have b1 := h.g.isLt
  have b2 := t.isLt
  have b3 := d.isLt
  have b4 := a.isLt
  have b5 := b.isLt
  refine ⟨by omega, ?_⟩
  rw [decodeNat_v (op := 25) (by omega) (by omega)]
  show Except.ok _ = _
  rw [hdOf_eq (h := h) (by omega) (by omega),
    fld_eq (lo := 18) (x := t) (by show num / 262144 % 4 = _; omega),
    fld_eq (lo := 12) (x := d) (by show num / 4096 % 64 = _; omega),
    fld_eq (lo := 6) (x := a) (by show num / 64 % 64 = _; omega),
    fld_eq (lo := 0) (x := b) (by show num / 1 % 64 = _; omega)]

theorem vXor (h : Hd) (t : BitVec 2) (d a b : BitVec 6) : Statement (.vXor h t d a b) := by
  intro num e0
  have hw : hdBits h 2 + 27262976 + t.toNat * 262144 + d.toNat * 4096 + a.toNat * 64 + b.toNat = num := Option.some.inj e0
  simp only [hdBits] at hw
  have b0 := bitVal_lt h.c
  have b1 := h.g.isLt
  have b2 := t.isLt
  have b3 := d.isLt
  have b4 := a.isLt
  have b5 := b.isLt
  refine ⟨by omega, ?_⟩
  rw [decodeNat_v (op := 26) (by omega) (by omega)]
  show Except.ok _ = _
  rw [hdOf_eq (h := h) (by omega) (by omega),
    fld_eq (lo := 18) (x := t) (by show num / 262144 % 4 = _; omega),
    fld_eq (lo := 12) (x := d) (by show num / 4096 % 64 = _; omega),
    fld_eq (lo := 6) (x := a) (by show num / 64 % 64 = _; omega),
    fld_eq (lo := 0) (x := b) (by show num / 1 % 64 = _; omega)]

theorem mNop (h : Hd) : Statement (.mNop h) := by
  intro num e0
  have hw : hdBits h 3 = num := Option.some.inj e0
  simp only [hdBits] at hw
  have b0 := bitVal_lt h.c
  have b1 := h.g.isLt
  refine ⟨by omega, ?_⟩
  rw [decodeNat_m (op := 0) (by omega) (by omega)]
  refine (ifZero_zero (show num / 1 % 2097152 = 0 by omega)).trans ?_
  rw [hdOf_eq (h := h) (by omega) (by omega)]

theorem mPrec (h : Hd) (t : BitVec 2) (a : BitVec 6) (k : Bool) : Statement (.mPrec h t a k) := by
  intro num e0
  have hw : hdBits h 3 + 2097152 + t.toNat * 524288 + a.toNat * 8192 + bitVal k * 4096 = num := Option.some.inj e0
  simp only [hdBits] at hw
  have b0 := bitVal_lt h.c
  have b1 := h.g.isLt
  have b2 := t.isLt
  have b3 := a.isLt
  have b4 := bitVal_lt k
  refine ⟨by omega, ?_⟩
  rw [decodeNat_m (op := 1) (by omega) (by omega)]
  refine (ifZero_zero (show num / 1 % 4096 = 0 by omega)).trans ?_
  rw [hdOf_eq (h := h) (by omega) (by omega),
    fld_eq (lo := 19) (x := t) (by show num / 524288 % 4 = _; omega),
    fld_eq (lo := 13) (x := a) (by show num / 8192 % 64 = _; omega),
    flag_eq (i := 12) (b := k) (by show num / 4096 % 2 = _; omega)]

theorem mShape (h : Hd) (sh : BitVec 3) (a : BitVec 6) : Statement (.mShape h sh a) := by
  intro num e0
  have hw : hdBits h 3 + 4194304 + sh.toNat * 262144 + a.toNat * 4096 = num := Option.some.inj e0
  simp only [hdBits] at hw
  have b0 := bitVal_lt h.c
  have b1 := h.g.isLt
  have b2 := sh.isLt
  have b3 := a.isLt
  refine ⟨by omega, ?_⟩
  rw [decodeNat_m (op := 2) (by omega) (by omega)]
  refine (ifZero_zero (show num / 1 % 4096 = 0 by omega)).trans ?_
  rw [hdOf_eq (h := h) (by omega) (by omega),
    fld_eq (lo := 18) (x := sh) (by show num / 262144 % 8 = _; omega),
    fld_eq (lo := 12) (x := a) (by show num / 4096 % 64 = _; omega)]

theorem mPush (h : Hd) (sh : BitVec 3) (a : BitVec 6) (w : Bool) (p : BitVec 4) (r : Bool) (s : BitVec 2) : Statement (.mPush h sh a w p r s) := by
  intro num e0
  have hw : hdBits h 3 + 6291456 + sh.toNat * 262144 + a.toNat * 4096 + bitVal w * 2048 + p.toNat * 128 + bitVal r * 64 + s.toNat * 16 = num := Option.some.inj e0
  simp only [hdBits] at hw
  have b0 := bitVal_lt h.c
  have b1 := h.g.isLt
  have b2 := sh.isLt
  have b3 := a.isLt
  have b4 := bitVal_lt w
  have b5 := p.isLt
  have b6 := bitVal_lt r
  have b7 := s.isLt
  refine ⟨by omega, ?_⟩
  rw [decodeNat_m (op := 3) (by omega) (by omega)]
  refine (ifZero_zero (show num / 1 % 16 = 0 by omega)).trans ?_
  rw [hdOf_eq (h := h) (by omega) (by omega),
    fld_eq (lo := 18) (x := sh) (by show num / 262144 % 8 = _; omega),
    fld_eq (lo := 12) (x := a) (by show num / 4096 % 64 = _; omega),
    flag_eq (i := 11) (b := w) (by show num / 2048 % 2 = _; omega),
    fld_eq (lo := 7) (x := p) (by show num / 128 % 16 = _; omega),
    flag_eq (i := 6) (b := r) (by show num / 64 % 2 = _; omega),
    fld_eq (lo := 4) (x := s) (by show num / 16 % 4 = _; omega)]

theorem mSwap (h : Hd) : Statement (.mSwap h) := by
  intro num e0
  have hw : hdBits h 3 + 8388608 = num := Option.some.inj e0
  simp only [hdBits] at hw
  have b0 := bitVal_lt h.c
  have b1 := h.g.isLt
  refine ⟨by omega, ?_⟩
  rw [decodeNat_m (op := 4) (by omega) (by omega)]
  refine (ifZero_zero (show num / 1 % 2097152 = 0 by omega)).trans ?_
  rw [hdOf_eq (h := h) (by omega) (by omega)]

theorem mFeed (h : Hd) (t : BitVec 2) (sh : BitVec 3) (a : BitVec 6) (w : Bool) (x y : BitVec 4) (r : Bool) : Statement (.mFeed h t sh a w x y r) := by
  intro num e0
  have hw : hdBits h 3 + 10485760 + t.toNat * 524288 + sh.toNat * 65536 + a.toNat * 1024 + bitVal w * 512 + x.toNat * 32 + y.toNat * 2 + bitVal r = num := Option.some.inj e0
  simp only [hdBits] at hw
  have b0 := bitVal_lt h.c
  have b1 := h.g.isLt
  have b2 := t.isLt
  have b3 := sh.isLt
  have b4 := a.isLt
  have b5 := bitVal_lt w
  have b6 := x.isLt
  have b7 := y.isLt
  have b8 := bitVal_lt r
  refine ⟨by omega, ?_⟩
  rw [decodeNat_m (op := 5) (by omega) (by omega)]
  show Except.ok _ = _
  rw [hdOf_eq (h := h) (by omega) (by omega),
    fld_eq (lo := 19) (x := t) (by show num / 524288 % 4 = _; omega),
    fld_eq (lo := 16) (x := sh) (by show num / 65536 % 8 = _; omega),
    fld_eq (lo := 10) (x := a) (by show num / 1024 % 64 = _; omega),
    flag_eq (i := 9) (b := w) (by show num / 512 % 2 = _; omega),
    fld_eq (lo := 5) (x := x) (by show num / 32 % 16 = _; omega),
    fld_eq (lo := 1) (x := y) (by show num / 2 % 16 = _; omega),
    flag_eq (i := 0) (b := r) (by show num / 1 % 2 = _; omega)]

theorem mDrain (h : Hd) (t : BitVec 2) (n e hi : Bool) : Statement (.mDrain h t n e hi) := by
  intro num e0
  have hw : hdBits h 3 + 12582912 + t.toNat * 524288 + bitVal n * 262144 + bitVal e * 131072 + bitVal hi * 65536 = num := Option.some.inj e0
  simp only [hdBits] at hw
  have b0 := bitVal_lt h.c
  have b1 := h.g.isLt
  have b2 := t.isLt
  have b3 := bitVal_lt n
  have b4 := bitVal_lt e
  have b5 := bitVal_lt hi
  refine ⟨by omega, ?_⟩
  rw [decodeNat_m (op := 6) (by omega) (by omega)]
  refine (ifZero_zero (show num / 1 % 65536 = 0 by omega)).trans ?_
  rw [hdOf_eq (h := h) (by omega) (by omega),
    fld_eq (lo := 19) (x := t) (by show num / 524288 % 4 = _; omega),
    flag_eq (i := 18) (b := n) (by show num / 262144 % 2 = _; omega),
    flag_eq (i := 17) (b := e) (by show num / 131072 % 2 = _; omega),
    flag_eq (i := 16) (b := hi) (by show num / 65536 % 2 = _; omega)]

theorem mClear (h : Hd) : Statement (.mClear h) := by
  intro num e0
  have hw : hdBits h 3 + 14680064 = num := Option.some.inj e0
  simp only [hdBits] at hw
  have b0 := bitVal_lt h.c
  have b1 := h.g.isLt
  refine ⟨by omega, ?_⟩
  rw [decodeNat_m (op := 7) (by omega) (by omega)]
  refine (ifZero_zero (show num / 1 % 2097152 = 0 by omega)).trans ?_
  rw [hdOf_eq (h := h) (by omega) (by omega)]

theorem bSafe (h : Hd) : Statement (.bSafe h) := by
  intro num e0
  have hw : hdBits h 4 = num := Option.some.inj e0
  simp only [hdBits] at hw
  have b0 := bitVal_lt h.c
  have b1 := h.g.isLt
  refine ⟨by omega, ?_⟩
  rw [decodeNat_b (op := 0) (by omega) (by omega)]
  refine (ifZero_zero (show num / 1 % 1048576 = 0 by omega)).trans ?_
  rw [hdOf_eq (h := h) (by omega) (by omega)]

theorem bJmp (h : Hd) (k : BitVec 3) : Statement (.bJmp h k) := by
  intro num e0
  have hw : hdBits h 4 + 1048576 + k.toNat * 131072 = num := Option.some.inj e0
  simp only [hdBits] at hw
  have b0 := bitVal_lt h.c
  have b1 := h.g.isLt
  have b2 := k.isLt
  refine ⟨by omega, ?_⟩
  rw [decodeNat_b (op := 1) (by omega) (by omega)]
  refine (ifZero_zero (show num / 1 % 131072 = 0 by omega)).trans ?_
  rw [hdOf_eq (h := h) (by omega) (by omega),
    fld_eq (lo := 17) (x := k) (by show num / 131072 % 8 = _; omega)]

theorem bCall (h : Hd) (k : BitVec 3) : Statement (.bCall h k) := by
  intro num e0
  have hw : hdBits h 4 + 2097152 + k.toNat * 131072 = num := Option.some.inj e0
  simp only [hdBits] at hw
  have b0 := bitVal_lt h.c
  have b1 := h.g.isLt
  have b2 := k.isLt
  refine ⟨by omega, ?_⟩
  rw [decodeNat_b (op := 2) (by omega) (by omega)]
  refine (ifZero_zero (show num / 1 % 131072 = 0 by omega)).trans ?_
  rw [hdOf_eq (h := h) (by omega) (by omega),
    fld_eq (lo := 17) (x := k) (by show num / 131072 % 8 = _; omega)]

theorem bLadder (h : Hd) (p q u v k : BitVec 3) : Statement (.bLadder h p q u v k) := by
  intro num e0
  have hw : hdBits h 4 + 3145728 + p.toNat * 131072 + q.toNat * 16384 + u.toNat * 2048 + v.toNat * 256 + k.toNat * 32 = num := Option.some.inj e0
  simp only [hdBits] at hw
  have b0 := bitVal_lt h.c
  have b1 := h.g.isLt
  have b2 := p.isLt
  have b3 := q.isLt
  have b4 := u.isLt
  have b5 := v.isLt
  have b6 := k.isLt
  refine ⟨by omega, ?_⟩
  rw [decodeNat_b (op := 3) (by omega) (by omega)]
  refine (ifZero_zero (show num / 1 % 32 = 0 by omega)).trans ?_
  rw [hdOf_eq (h := h) (by omega) (by omega),
    fld_eq (lo := 17) (x := p) (by show num / 131072 % 8 = _; omega),
    fld_eq (lo := 14) (x := q) (by show num / 16384 % 8 = _; omega),
    fld_eq (lo := 11) (x := u) (by show num / 2048 % 8 = _; omega),
    fld_eq (lo := 8) (x := v) (by show num / 256 % 8 = _; omega),
    fld_eq (lo := 5) (x := k) (by show num / 32 % 8 = _; omega)]

theorem bLoop (h : Hd) (n b : BitVec 6) (e p : BitVec 4) : Statement (.bLoop h n b e p) := by
  intro num e0
  have hw : hdBits h 4 + 4194304 + n.toNat * 16384 + b.toNat * 256 + e.toNat * 16 + p.toNat = num := Option.some.inj e0
  simp only [hdBits] at hw
  have b0 := bitVal_lt h.c
  have b1 := h.g.isLt
  have b2 := n.isLt
  have b3 := b.isLt
  have b4 := e.isLt
  have b5 := p.isLt
  refine ⟨by omega, ?_⟩
  rw [decodeNat_b (op := 4) (by omega) (by omega)]
  show Except.ok _ = _
  rw [hdOf_eq (h := h) (by omega) (by omega),
    fld_eq (lo := 14) (x := n) (by show num / 16384 % 64 = _; omega),
    fld_eq (lo := 8) (x := b) (by show num / 256 % 64 = _; omega),
    fld_eq (lo := 4) (x := e) (by show num / 16 % 16 = _; omega),
    fld_eq (lo := 0) (x := p) (by show num / 1 % 16 = _; omega)]

theorem bTgt (h : Hd) (k : BitVec 3) (o : BitVec 17) : Statement (.bTgt h k o) := by
  intro num e0
  have hw : hdBits h 4 + 5242880 + k.toNat * 131072 + o.toNat = num := Option.some.inj e0
  simp only [hdBits] at hw
  have b0 := bitVal_lt h.c
  have b1 := h.g.isLt
  have b2 := k.isLt
  have b3 := o.isLt
  refine ⟨by omega, ?_⟩
  rw [decodeNat_b (op := 5) (by omega) (by omega)]
  show Except.ok _ = _
  rw [hdOf_eq (h := h) (by omega) (by omega),
    fld_eq (lo := 17) (x := k) (by show num / 131072 % 8 = _; omega),
    fld_eq (lo := 0) (x := o) (by show num / 1 % 131072 = _; omega)]

theorem bFence (h : Hd) (p s : BitVec 5) (x : BitVec 3) : Statement (.bFence h p s x) := by
  intro num e0
  have hw : hdBits h 4 + 6291456 + p.toNat * 32768 + s.toNat * 1024 + x.toNat * 128 = num := Option.some.inj e0
  simp only [hdBits] at hw
  have b0 := bitVal_lt h.c
  have b1 := h.g.isLt
  have b2 := p.isLt
  have b3 := s.isLt
  have b4 := x.isLt
  refine ⟨by omega, ?_⟩
  rw [decodeNat_b (op := 6) (by omega) (by omega)]
  refine (ifZero_zero (show num / 1 % 128 = 0 by omega)).trans ?_
  rw [hdOf_eq (h := h) (by omega) (by omega),
    fld_eq (lo := 15) (x := p) (by show num / 32768 % 32 = _; omega),
    fld_eq (lo := 10) (x := s) (by show num / 1024 % 32 = _; omega),
    fld_eq (lo := 7) (x := x) (by show num / 128 % 8 = _; omega)]

theorem bOpen (h : Hd) (a b : BitVec 6) : Statement (.bOpen h a b) := by
  intro num e0
  have hw : hdBits h 4 + 7340032 + a.toNat * 16384 + b.toNat * 256 = num := Option.some.inj e0
  simp only [hdBits] at hw
  have b0 := bitVal_lt h.c
  have b1 := h.g.isLt
  have b2 := a.isLt
  have b3 := b.isLt
  refine ⟨by omega, ?_⟩
  rw [decodeNat_b (op := 7) (by omega) (by omega)]
  refine (ifZero_zero (show num / 1 % 256 = 0 by omega)).trans ?_
  rw [hdOf_eq (h := h) (by omega) (by omega),
    fld_eq (lo := 14) (x := a) (by show num / 16384 % 64 = _; omega),
    fld_eq (lo := 8) (x := b) (by show num / 256 % 64 = _; omega)]

theorem bShut (h : Hd) (d a : BitVec 6) : Statement (.bShut h d a) := by
  intro num e0
  have hw : hdBits h 4 + 8388608 + d.toNat * 16384 + a.toNat * 256 = num := Option.some.inj e0
  simp only [hdBits] at hw
  have b0 := bitVal_lt h.c
  have b1 := h.g.isLt
  have b2 := d.isLt
  have b3 := a.isLt
  refine ⟨by omega, ?_⟩
  rw [decodeNat_b (op := 8) (by omega) (by omega)]
  refine (ifZero_zero (show num / 1 % 256 = 0 by omega)).trans ?_
  rw [hdOf_eq (h := h) (by omega) (by omega),
    fld_eq (lo := 14) (x := d) (by show num / 16384 % 64 = _; omega),
    fld_eq (lo := 8) (x := a) (by show num / 256 % 64 = _; omega)]

theorem bTwait (h : Hd) (e : BitVec 2) (a : BitVec 6) : Statement (.bTwait h e a) := by
  intro num e0
  have hw : hdBits h 4 + 9437184 + e.toNat * 262144 + a.toNat * 4096 = num := Option.some.inj e0
  simp only [hdBits] at hw
  have b0 := bitVal_lt h.c
  have b1 := h.g.isLt
  have b2 := e.isLt
  have b3 := a.isLt
  refine ⟨by omega, ?_⟩
  rw [decodeNat_b (op := 9) (by omega) (by omega)]
  refine (ifZero_zero (show num / 1 % 4096 = 0 by omega)).trans ?_
  rw [hdOf_eq (h := h) (by omega) (by omega),
    fld_eq (lo := 18) (x := e) (by show num / 262144 % 4 = _; omega),
    fld_eq (lo := 12) (x := a) (by show num / 4096 % 64 = _; omega)]

theorem bArm (h : Hd) (b : BitVec 4) (a : BitVec 6) : Statement (.bArm h b a) := by
  intro num e0
  have hw : hdBits h 4 + 10485760 + b.toNat * 65536 + a.toNat * 1024 = num := Option.some.inj e0
  simp only [hdBits] at hw
  have b0 := bitVal_lt h.c
  have b1 := h.g.isLt
  have b2 := b.isLt
  have b3 := a.isLt
  refine ⟨by omega, ?_⟩
  rw [decodeNat_b (op := 10) (by omega) (by omega)]
  refine (ifZero_zero (show num / 1 % 1024 = 0 by omega)).trans ?_
  rw [hdOf_eq (h := h) (by omega) (by omega),
    fld_eq (lo := 16) (x := b) (by show num / 65536 % 16 = _; omega),
    fld_eq (lo := 10) (x := a) (by show num / 1024 % 64 = _; omega)]

theorem bBwait (h : Hd) (b : BitVec 4) : Statement (.bBwait h b) := by
  intro num e0
  have hw : hdBits h 4 + 11534336 + b.toNat * 65536 = num := Option.some.inj e0
  simp only [hdBits] at hw
  have b0 := bitVal_lt h.c
  have b1 := h.g.isLt
  have b2 := b.isLt
  refine ⟨by omega, ?_⟩
  rw [decodeNat_b (op := 11) (by omega) (by omega)]
  refine (ifZero_zero (show num / 1 % 65536 = 0 by omega)).trans ?_
  rw [hdOf_eq (h := h) (by omega) (by omega),
    fld_eq (lo := 16) (x := b) (by show num / 65536 % 16 = _; omega)]

theorem bPop (h : Hd) (d a : BitVec 6) (n : Bool) (p : BitVec 3) : Statement (.bPop h d a n p) := by
  intro num e0
  have hw : hdBits h 4 + 12582912 + d.toNat * 16384 + a.toNat * 256 + bitVal n * 128 + p.toNat * 4 = num := Option.some.inj e0
  simp only [hdBits] at hw
  have b0 := bitVal_lt h.c
  have b1 := h.g.isLt
  have b2 := d.isLt
  have b3 := a.isLt
  have b4 := bitVal_lt n
  have b5 := p.isLt
  refine ⟨by omega, ?_⟩
  rw [decodeNat_b (op := 12) (by omega) (by omega)]
  refine (ifZero_zero (show num / 1 % 4 + num / 32 % 4 = 0 by omega)).trans ?_
  rw [hdOf_eq (h := h) (by omega) (by omega),
    fld_eq (lo := 14) (x := d) (by show num / 16384 % 64 = _; omega),
    fld_eq (lo := 8) (x := a) (by show num / 256 % 64 = _; omega),
    flag_eq (i := 7) (b := n) (by show num / 128 % 2 = _; omega),
    fld_eq (lo := 2) (x := p) (by show num / 4 % 8 = _; omega)]

theorem bPush (h : Hd) (a b : BitVec 6) (l : Bool) (p : BitVec 3) : Statement (.bPush h a b l p) := by
  intro num e0
  have hw : hdBits h 4 + 13631488 + a.toNat * 16384 + b.toNat * 256 + bitVal l * 128 + p.toNat * 4 = num := Option.some.inj e0
  simp only [hdBits] at hw
  have b0 := bitVal_lt h.c
  have b1 := h.g.isLt
  have b2 := a.isLt
  have b3 := b.isLt
  have b4 := bitVal_lt l
  have b5 := p.isLt
  refine ⟨by omega, ?_⟩
  rw [decodeNat_b (op := 13) (by omega) (by omega)]
  refine (ifZero_zero (show num / 1 % 4 + num / 32 % 4 = 0 by omega)).trans ?_
  rw [hdOf_eq (h := h) (by omega) (by omega),
    fld_eq (lo := 14) (x := a) (by show num / 16384 % 64 = _; omega),
    fld_eq (lo := 8) (x := b) (by show num / 256 % 64 = _; omega),
    flag_eq (i := 7) (b := l) (by show num / 128 % 2 = _; omega),
    fld_eq (lo := 2) (x := p) (by show num / 4 % 8 = _; omega)]

theorem bLaunch (h : Hd) (d a : BitVec 6) : Statement (.bLaunch h d a) := by
  intro num e0
  have hw : hdBits h 4 + 14680064 + d.toNat * 16384 + a.toNat * 256 = num := Option.some.inj e0
  simp only [hdBits] at hw
  have b0 := bitVal_lt h.c
  have b1 := h.g.isLt
  have b2 := d.isLt
  have b3 := a.isLt
  refine ⟨by omega, ?_⟩
  rw [decodeNat_b (op := 14) (by omega) (by omega)]
  refine (ifZero_zero (show num / 1 % 256 = 0 by omega)).trans ?_
  rw [hdOf_eq (h := h) (by omega) (by omega),
    fld_eq (lo := 14) (x := d) (by show num / 16384 % 64 = _; omega),
    fld_eq (lo := 8) (x := a) (by show num / 256 % 64 = _; omega)]

theorem bPost (h : Hd) (s : BitVec 4) (k : BitVec 2) (a : BitVec 6) : Statement (.bPost h s k a) := by
  intro num e0
  have hw : hdBits h 4 + 15728640 + s.toNat * 65536 + k.toNat * 16384 + a.toNat * 256 = num := Option.some.inj e0
  simp only [hdBits] at hw
  have b0 := bitVal_lt h.c
  have b1 := h.g.isLt
  have b2 := s.isLt
  have b3 := k.isLt
  have b4 := a.isLt
  refine ⟨by omega, ?_⟩
  rw [decodeNat_b (op := 15) (by omega) (by omega)]
  refine (ifZero_zero (show num / 1 % 256 = 0 by omega)).trans ?_
  rw [hdOf_eq (h := h) (by omega) (by omega),
    fld_eq (lo := 16) (x := s) (by show num / 65536 % 16 = _; omega),
    fld_eq (lo := 14) (x := k) (by show num / 16384 % 4 = _; omega),
    fld_eq (lo := 8) (x := a) (by show num / 256 % 64 = _; omega)]

theorem bSusp (h : Hd) (k : BitVec 3) (a b : BitVec 6) (j : BitVec 3) : Statement (.bSusp h k a b j) := by
  intro num e0
  have hw : hdBits h 4 + 16777216 + k.toNat * 131072 + a.toNat * 2048 + b.toNat * 32 + j.toNat * 4 = num := Option.some.inj e0
  simp only [hdBits] at hw
  have b0 := bitVal_lt h.c
  have b1 := h.g.isLt
  have b2 := k.isLt
  have b3 := a.isLt
  have b4 := b.isLt
  have b5 := j.isLt
  refine ⟨by omega, ?_⟩
  rw [decodeNat_b (op := 16) (by omega) (by omega)]
  refine (ifZero_zero (show num / 1 % 4 = 0 by omega)).trans ?_
  rw [hdOf_eq (h := h) (by omega) (by omega),
    fld_eq (lo := 17) (x := k) (by show num / 131072 % 8 = _; omega),
    fld_eq (lo := 11) (x := a) (by show num / 2048 % 64 = _; omega),
    fld_eq (lo := 5) (x := b) (by show num / 32 % 64 = _; omega),
    fld_eq (lo := 2) (x := j) (by show num / 4 % 8 = _; omega)]

theorem bExit (h : Hd) : Statement (.bExit h) := by
  intro num e0
  have hw : hdBits h 4 + 17825792 = num := Option.some.inj e0
  simp only [hdBits] at hw
  have b0 := bitVal_lt h.c
  have b1 := h.g.isLt
  refine ⟨by omega, ?_⟩
  rw [decodeNat_b (op := 17) (by omega) (by omega)]
  refine (ifZero_zero (show num / 1 % 1048576 = 0 by omega)).trans ?_
  rw [hdOf_eq (h := h) (by omega) (by omega)]

theorem bTrap (h : Hd) (k : BitVec 8) : Statement (.bTrap h k) := by
  intro num e0
  have hw : hdBits h 4 + 18874368 + k.toNat * 4096 = num := Option.some.inj e0
  simp only [hdBits] at hw
  have b0 := bitVal_lt h.c
  have b1 := h.g.isLt
  have b2 := k.isLt
  refine ⟨by omega, ?_⟩
  rw [decodeNat_b (op := 18) (by omega) (by omega)]
  refine (ifZero_zero (show num / 1 % 4096 = 0 by omega)).trans ?_
  rw [hdOf_eq (h := h) (by omega) (by omega),
    fld_eq (lo := 12) (x := k) (by show num / 4096 % 256 = _; omega)]

theorem bRdst (h : Hd) (d : BitVec 6) (s : BitVec 10) : Statement (.bRdst h d s) := by
  intro num e0
  have hw : hdBits h 4 + 19922944 + d.toNat * 16384 + s.toNat * 16 = num := Option.some.inj e0
  simp only [hdBits] at hw
  have b0 := bitVal_lt h.c
  have b1 := h.g.isLt
  have b2 := d.isLt
  have b3 := s.isLt
  refine ⟨by omega, ?_⟩
  rw [decodeNat_b (op := 19) (by omega) (by omega)]
  refine (ifZero_zero (show num / 1 % 16 = 0 by omega)).trans ?_
  rw [hdOf_eq (h := h) (by omega) (by omega),
    fld_eq (lo := 14) (x := d) (by show num / 16384 % 64 = _; omega),
    fld_eq (lo := 4) (x := s) (by show num / 16 % 1024 = _; omega)]

theorem bWrst (h : Hd) (a : BitVec 6) (s : BitVec 10) : Statement (.bWrst h a s) := by
  intro num e0
  have hw : hdBits h 4 + 20971520 + a.toNat * 16384 + s.toNat * 16 = num := Option.some.inj e0
  simp only [hdBits] at hw
  have b0 := bitVal_lt h.c
  have b1 := h.g.isLt
  have b2 := a.isLt
  have b3 := s.isLt
  refine ⟨by omega, ?_⟩
  rw [decodeNat_b (op := 20) (by omega) (by omega)]
  refine (ifZero_zero (show num / 1 % 16 = 0 by omega)).trans ?_
  rw [hdOf_eq (h := h) (by omega) (by omega),
    fld_eq (lo := 14) (x := a) (by show num / 16384 % 64 = _; omega),
    fld_eq (lo := 4) (x := s) (by show num / 16 % 1024 = _; omega)]

theorem bCancel (h : Hd) (l : BitVec 3) : Statement (.bCancel h l) := by
  intro num e0
  have hw : hdBits h 4 + 22020096 + l.toNat * 131072 = num := Option.some.inj e0
  simp only [hdBits] at hw
  have b0 := bitVal_lt h.c
  have b1 := h.g.isLt
  have b2 := l.isLt
  refine ⟨by omega, ?_⟩
  rw [decodeNat_b (op := 21) (by omega) (by omega)]
  refine (ifZero_zero (show num / 1 % 131072 = 0 by omega)).trans ?_
  rw [hdOf_eq (h := h) (by omega) (by omega),
    fld_eq (lo := 17) (x := l) (by show num / 131072 % 8 = _; omega)]

theorem bBrk (h : Hd) : Statement (.bBrk h) := by
  intro num e0
  have hw : hdBits h 4 + 23068672 = num := Option.some.inj e0
  simp only [hdBits] at hw
  have b0 := bitVal_lt h.c
  have b1 := h.g.isLt
  refine ⟨by omega, ?_⟩
  rw [decodeNat_b (op := 22) (by omega) (by omega)]
  refine (ifZero_zero (show num / 1 % 1048576 = 0 by omega)).trans ?_
  rw [hdOf_eq (h := h) (by omega) (by omega)]

theorem bWait (h : Hd) (k : BitVec 3) (a b : BitVec 6) : Statement (.bWait h k a b) := by
  intro num e0
  have hw : hdBits h 4 + 24117248 + k.toNat * 131072 + a.toNat * 2048 + b.toNat * 32 = num := Option.some.inj e0
  simp only [hdBits] at hw
  have b0 := bitVal_lt h.c
  have b1 := h.g.isLt
  have b2 := k.isLt
  have b3 := a.isLt
  have b4 := b.isLt
  refine ⟨by omega, ?_⟩
  rw [decodeNat_b (op := 23) (by omega) (by omega)]
  refine (ifZero_zero (show num / 1 % 32 = 0 by omega)).trans ?_
  rw [hdOf_eq (h := h) (by omega) (by omega),
    fld_eq (lo := 17) (x := k) (by show num / 131072 % 8 = _; omega),
    fld_eq (lo := 11) (x := a) (by show num / 2048 % 64 = _; omega),
    fld_eq (lo := 5) (x := b) (by show num / 32 % 64 = _; omega)]

theorem bEret (h : Hd) : Statement (.bEret h) := by
  intro num e0
  have hw : hdBits h 4 + 25165824 = num := Option.some.inj e0
  simp only [hdBits] at hw
  have b0 := bitVal_lt h.c
  have b1 := h.g.isLt
  refine ⟨by omega, ?_⟩
  rw [decodeNat_b (op := 24) (by omega) (by omega)]
  refine (ifZero_zero (show num / 1 % 1048576 = 0 by omega)).trans ?_
  rw [hdOf_eq (h := h) (by omega) (by omega)]

theorem kImm (k : BitVec 25) : Statement (.kImm k) := by
  intro num e0
  have e : 3489660928 + k.toNat = num := Option.some.inj e0
  have b0 := k.isLt
  refine ⟨by omega, ?_⟩
  have h1 : bits num 30 28 = 5 := by show num / 268435456 % 8 = _; omega
  have h2 : flag num 31 = true := flag_eq (b := true) (by show num / 2147483648 % 2 = 1; omega)
  have h3 : bits num 27 25 = 0 := by show num / 33554432 % 8 = _; omega
  have h4 : fld 25 num 0 = k := fld_eq (by show num / 1 % 33554432 = _; omega)
  simp only [decodeNat, h1, h2, h3, h4]
  rfl

/-! ### The events -/

theorem packageReset : Statement (.packageReset) := by intro n e; cases e

theorem tailWrite (vf ring : Nat) (val : W32) : Statement (.tailWrite vf ring val) := by intro n e; cases e

theorem launch (vf ring : Nat) : Statement (.launch vf ring) := by intro n e; cases e

theorem job (vf ring : Nat) : Statement (.job vf ring) := by intro n e; cases e

theorem push (vf ring : Nat) : Statement (.push vf ring) := by intro n e; cases e

theorem close (vf ring : Nat) : Statement (.close vf ring) := by intro n e; cases e

theorem post (vf ring : Nat) : Statement (.post vf ring) := by intro n e; cases e

theorem cancel (vf ring : Nat) : Statement (.cancel vf ring) := by intro n e; cases e

theorem rbaseWrite (vf ring : Nat) (val : Word) : Statement (.rbaseWrite vf ring val) := by intro n e; cases e

theorem rsizeWrite (vf ring : Nat) (val : W32) : Statement (.rsizeWrite vf ring val) := by intro n e; cases e

theorem eqlostRead (vf : Nat) : Statement (.eqlostRead vf) := by intro n e; cases e

theorem postSliceEndNow (vf : Nat) (val : Word) : Statement (.postSliceEndNow vf val) := by intro n e; cases e

theorem postSliceEndAtEiss (vf : Nat) (val : Word) : Statement (.postSliceEndAtEiss vf val) := by intro n e; cases e

theorem postedSliceEndTrigger (core ctx : Nat) : Statement (.postedSliceEndTrigger core ctx) := by intro n e; cases e

theorem release (vf : Nat) (va : Word) : Statement (.release vf va) := by intro n e; cases e

theorem catchRecords (vf : Nat) (val : Word) : Statement (.catchRecords vf val) := by intro n e; cases e

theorem go (vf : Nat) (val : Word) : Statement (.go vf val) := by intro n e; cases e

theorem singleStep (vf : Nat) (val : W32) : Statement (.singleStep vf val) := by intro n e; cases e

theorem engineFreeze (vf : Nat) (val : W32) : Statement (.engineFreeze vf val) := by intro n e; cases e

theorem registerWrite (r : HostReg) (val : Word) : Statement (.registerWrite r val) := by intro n e; cases e

theorem setRoot (part : Nat) (pa : Word) : Statement (.setRoot part pa) := by intro n e; cases e

theorem setOwner (part : Nat) (owner : Option Byte) : Statement (.setOwner part owner) := by intro n e; cases e

theorem lend (vf part : Nat) (mask : BitVec 256) : Statement (.lend vf part mask) := by intro n e; cases e

theorem recallLend (vf part : Nat) : Statement (.recallLend vf part) := by intro n e; cases e

theorem setRecarea (part : Nat) (va : Word) (imgcnt reccnt : Nat) : Statement (.setRecarea part va imgcnt reccnt) := by intro n e; cases e

theorem keyInstall (owner slot : Nat) (id : Word) (key : Nat) : Statement (.keyInstall owner slot id key) := by intro n e; cases e

theorem getVersion : Statement (.getVersion) := by intro n e; cases e

theorem getCapabilities : Statement (.getCapabilities) := by intro n e; cases e

theorem negotiateAlgorithms (offered : Bool) : Statement (.negotiateAlgorithms offered) := by intro n e; cases e

theorem getDigests : Statement (.getDigests) := by intro n e; cases e

theorem getCertificate (slot : Nat) : Statement (.getCertificate slot) := by intro n e; cases e

theorem challenge (nonce : Nat) : Statement (.challenge nonce) := by intro n e; cases e

theorem getMeasurements (index nonce : Nat) : Statement (.getMeasurements index nonce) := by intro n e; cases e

theorem keyExchange (data : Nat) : Statement (.keyExchange data) := by intro n e; cases e

theorem finish (data : Nat) : Statement (.finish data) := by intro n e; cases e

theorem hostMemRead (hdm : Nat) (pa size pos : Nat) : Statement (.hostMemRead hdm pa size pos) := by intro n e; cases e

theorem hostMemWrite (hdm : Nat) (pa size : Nat) (data : Gran) : Statement (.hostMemWrite hdm pa size data) := by intro n e; cases e

theorem unitPlace : Statement (.unitPlace) := by intro n e; cases e

theorem zeroingComplete (core : Nat) : Statement (.zeroingComplete core) := by intro n e; cases e

theorem sliceEnd (core ctx : Nat) : Statement (.sliceEnd core ctx) := by intro n e; cases e

theorem recordTakeUp : Statement (.recordTakeUp) := by intro n e; cases e

theorem phaseEvaluation (job : Nat) : Statement (.phaseEvaluation job) := by intro n e; cases e

theorem nodeConsider (graph node : Nat) : Statement (.nodeConsider graph node) := by intro n e; cases e

theorem unitEnd (core ctx : Nat) : Statement (.unitEnd core ctx) := by intro n e; cases e

theorem recallHandlerKill (core ctx : Nat) : Statement (.recallHandlerKill core ctx) := by intro n e; cases e

theorem recallReturn (part : Nat) : Statement (.recallReturn part) := by intro n e; cases e

theorem usageForward : Statement (.usageForward) := by intro n e; cases e

theorem scanPassStart (cluster : Nat) : Statement (.scanPassStart cluster) := by intro n e; cases e

theorem scanPassEnd (core : Nat) (pass : Bool) : Statement (.scanPassEnd core pass) := by intro n e; cases e

theorem correctedError (site : ErrSite) : Statement (.correctedError site) := by intro n e; cases e

theorem retirement (site : ErrSite) : Statement (.retirement site) := by intro n e; cases e

theorem wearWarning (die : Nat) (hours : W32) : Statement (.wearWarning die hours) := by intro n e; cases e

theorem scrubGranule (pa : Nat) (bad : Bool) : Statement (.scrubGranule pa bad) := by intro n e; cases e

theorem memberDown (pkg : Nat) : Statement (.memberDown pkg) := by intro n e; cases e

theorem spareFillDone (fill : FillReport) : Statement (.spareFillDone fill) := by intro n e; cases e

theorem securityAlarm (cause : AlarmCause) : Statement (.securityAlarm cause) := by intro n e; cases e

theorem thermalThrottle (on : Bool) : Statement (.thermalThrottle on) := by intro n e; cases e

theorem powerLoss : Statement (.powerLoss) := by intro n e; cases e

theorem arm (src : Nat) (gang : Nat) (lpb : List Byte) : Statement (.arm src gang lpb) := by intro n e; cases e

theorem armed (pkg gang : Nat) : Statement (.armed pkg gang) := by intro n e; cases e

theorem refuse (pkg gang : Nat) : Statement (.refuse pkg gang) := by intro n e; cases e

theorem commit (src gang : Nat) : Statement (.commit src gang) := by intro n e; cases e

theorem committed (pkg gang : Nat) : Statement (.committed pkg gang) := by intro n e; cases e

theorem gangtoExpiry (gang : Nat) : Statement (.gangtoExpiry gang) := by intro n e; cases e

theorem flitReceive (port seq : Nat) (crcOk : Bool) : Statement (.flitReceive port seq crcOk) := by intro n e; cases e

theorem replayRequest (port seq : Nat) : Statement (.replayRequest port seq) := by intro n e; cases e

theorem remoteLoadRequest (r : RemoteReq) (blk : Nat) : Statement (.remoteLoadRequest r blk) := by intro n e; cases e

theorem remoteStoreRequest (r : RemoteReq) : Statement (.remoteStoreRequest r) := by intro n e; cases e

theorem directReductionRequest (r : RemoteReq) (op : Nat) (vals : List W32) : Statement (.directReductionRequest r op vals) := by intro n e; cases e

theorem groupContribution (x : Contribution) : Statement (.groupContribution x) := by intro n e; cases e

theorem mirrorWrite (core : Nat) : Statement (.mirrorWrite core) := by intro n e; cases e

theorem loadResponse (core id cause : Nat) (data : List Byte) : Statement (.loadResponse core id cause data) := by intro n e; cases e

theorem acknowledgement (core id : Nat) (answer : Answer) : Statement (.acknowledgement core id answer) := by intro n e; cases e

theorem movedNack (core id : Nat) : Statement (.movedNack core id) := by intro n e; cases e

theorem requestTimeout (core id : Nat) : Statement (.requestTimeout core id) := by intro n e; cases e

theorem rankExclusion (group rank : Nat) : Statement (.rankExclusion group rank) := by intro n e; cases e

theorem roundClose (group : Nat) : Statement (.roundClose group) := by intro n e; cases e

theorem roundTimeout (group : Nat) : Statement (.roundTimeout group) := by intro n e; cases e

theorem resultWrite (group core : Nat) (r : RoundResult) : Statement (.resultWrite group core r) := by intro n e; cases e

theorem multicastReplica (r : RemoteReq) : Statement (.multicastReplica r) := by intro n e; cases e

theorem handlerStart (core : Nat) : Statement (.handlerStart core) := by intro n e; cases e

theorem waitSatisfied (core ctx : Nat) : Statement (.waitSatisfied core ctx) := by intro n e; cases e

theorem scoreboardLand (core ctx tag : Nat) : Statement (.scoreboardLand core ctx tag) := by intro n e; cases e

theorem resultLand (core ctx : Nat) : Statement (.resultLand core ctx) := by intro n e; cases e

theorem trapReplay (core ctx : Nat) : Statement (.trapReplay core ctx) := by intro n e; cases e

theorem preemptRequest (core ctx : Nat) (src : PreSrc) : Statement (.preemptRequest core ctx src) := by intro n e; cases e

theorem stopPointReached (core ctx : Nat) : Statement (.stopPointReached core ctx) := by intro n e; cases e

theorem engineStopAck (core ctx e : Nat) : Statement (.engineStopAck core ctx e) := by intro n e; cases e

theorem collectiveStopExpiry (core ctx : Nat) : Statement (.collectiveStopExpiry core ctx) := by intro n e; cases e

theorem weirComplete (core ctx : Nat) : Statement (.weirComplete core ctx) := by intro n e; cases e

theorem pinRenewal (core : Nat) : Statement (.pinRenewal core) := by intro n e; cases e

theorem rillSweep (core : Nat) : Statement (.rillSweep core) := by intro n e; cases e

theorem issueQueueLeave (agent idx : Nat) : Statement (.issueQueueLeave agent idx) := by intro n e; cases e

theorem pendingCommit (agent idx : Nat) : Statement (.pendingCommit agent idx) := by intro n e; cases e

theorem portApply (pool : Nat) : Statement (.portApply pool) := by intro n e; cases e

theorem loadBind (agent idx pos : Nat) : Statement (.loadBind agent idx pos) := by intro n e; cases e

theorem atomicApply (agent idx : Nat) : Statement (.atomicApply agent idx) := by intro n e; cases e

theorem raddBlockApply (die idx : Nat) : Statement (.raddBlockApply die idx) := by intro n e; cases e

theorem fenceComplete (agent idx : Nat) : Statement (.fenceComplete agent idx) := by intro n e; cases e

theorem shutCommit (agent idx : Nat) : Statement (.shutCommit agent idx) := by intro n e; cases e

theorem pageWalk (cluster idx : Nat) : Statement (.pageWalk cluster idx) := by intro n e; cases e

theorem invalidation (part : Nat) (page : Word) : Statement (.invalidation part page) := by intro n e; cases e

theorem invalidationAck (dest : Nat) : Statement (.invalidationAck dest) := by intro n e; cases e

theorem pageMigration (part : Nat) (va newPa : Word) : Statement (.pageMigration part va newPa) := by intro n e; cases e

theorem engineCommandStart (core e num : Nat) : Statement (.engineCommandStart core e num) := by intro n e; cases e

theorem engineBlockApply (core e num : Nat) (pos : List Nat) : Statement (.engineBlockApply core e num pos) := by intro n e; cases e

theorem engineCommandEnd (core e num : Nat) : Statement (.engineCommandEnd core e num) := by intro n e; cases e

theorem operandFillDone (core ctx : Nat) : Statement (.operandFillDone core ctx) := by intro n e; cases e

theorem saveImageWritten (core ctx : Nat) : Statement (.saveImageWritten core ctx) := by intro n e; cases e

theorem restoreComplete (core ctx : Nat) : Statement (.restoreComplete core ctx) := by intro n e; cases e

theorem gangCancelMessage (src : Nat) (gang : GangName) : Statement (.gangCancelMessage src gang) := by intro n e; cases e

end Sys2Proof.Laws.RoundTrip
end

