-- ==== Sys2Proof/Safety.lean ====
section
/-!
DEFINITION. What counts as a safe run, and the terms in which the statements speak of lanes, words and frames.
-/

namespace Sys2Proof.Machine

/-- A run of `k` steps from a state that neither faults nor refuses. -/
def SafeRun (k : Nat) (s : State) : Prop := ∃ t, Sys2Proof.core.run k s = .next t

/-! ### Words -/

/-- C and G of an instruction word; an event and a K word have none. -/
def headOf : Instr → Option Hd
  | .xNop h | .xAdd h .. | .xSub h .. | .xMul h .. | .xMulh h .. | .xDiv h .. | .xRem h .. | .xAnd h .. | .xOr h ..
  | .xXor h .. | .xShl h .. | .xShr h .. | .xSar h .. | .xMin h .. | .xMax h .. | .xClz h .. | .xPcnt h .. | .xSext h ..
  | .xCmp h .. | .xPand h .. | .xPor h .. | .xPxor h .. | .xFadd h .. | .xFmul h .. | .xFmax h .. | .xFcvt h ..
  | .xChk h .. | .lLd h .. | .lSt h .. | .lVld h .. | .lVst h .. | .lCas h .. | .lRadd h .. | .lAlloc h .. | .lFree h ..
  | .lRenew h .. | .lCopy h .. | .lGath h .. | .lRld h .. | .lRst h .. | .lRred h .. | .lMcast h .. | .lStash h ..
  | .lWin h .. | .lAmoAdd h .. | .lAmoAnd h .. | .lAmoOr h .. | .lAmoXor h .. | .lAmoMin h .. | .lAmoMax h ..
  | .lAmoSwap h .. | .vAdd h .. | .vSub h .. | .vMul h .. | .vFma h .. | .vMax h .. | .vMin h .. | .vNeg h .. | .vAbs h ..
  | .vExp2 h .. | .vLog2 h .. | .vRcp h .. | .vRsqrt h .. | .vCvt h .. | .vCmpLt h .. | .vCmpLe h .. | .vCmpEq h ..
  | .vSel h .. | .vRmax h .. | .vRsum h .. | .vBcast h .. | .vGet h .. | .vPut h .. | .vMov h .. | .vPerm h ..
  | .vAnd h .. | .vOr h .. | .vXor h .. | .mNop h | .mPrec h .. | .mShape h .. | .mPush h .. | .mSwap h | .mFeed h ..
  | .mDrain h .. | .mClear h | .bSafe h | .bJmp h .. | .bCall h .. | .bLadder h .. | .bLoop h .. | .bTgt h ..
  | .bFence h .. | .bOpen h .. | .bShut h .. | .bTwait h .. | .bArm h .. | .bBwait h .. | .bPop h .. | .bPush h ..
  | .bLaunch h .. | .bPost h .. | .bSusp h .. | .bExit h | .bTrap h .. | .bRdst h .. | .bWrst h .. | .bCancel h ..
  | .bBrk h | .bWait h .. | .bEret h => some h
  | _ => none

/-- The X words. -/
def isXWord : Instr → Bool
  | .xNop .. | .xAdd .. | .xSub .. | .xMul .. | .xMulh .. | .xDiv .. | .xRem .. | .xAnd .. | .xOr .. | .xXor ..
  | .xShl .. | .xShr .. | .xSar .. | .xMin .. | .xMax .. | .xClz .. | .xPcnt .. | .xSext .. | .xCmp .. | .xPand ..
  | .xPor .. | .xPxor .. | .xFadd .. | .xFmul .. | .xFmax .. | .xFcvt .. | .xChk .. => true
  | _ => false

/-- The tile and destination row of a V word. -/
def vDest : Instr → Option (BitVec 2 × BitVec 6)
  | .vAdd _ t d _ _ | .vSub _ t d _ _ | .vMul _ t d _ _ | .vFma _ t d _ _ | .vMax _ t d _ _ | .vMin _ t d _ _
  | .vNeg _ t d _ | .vAbs _ t d _ | .vExp2 _ t d _ | .vLog2 _ t d _ | .vRcp _ t d _ | .vRsqrt _ t d _ | .vCvt _ t d _ _
  | .vCmpLt _ t d _ _ | .vCmpLe _ t d _ _ | .vCmpEq _ t d _ _ | .vSel _ t d _ _ | .vRmax _ t d _ | .vRsum _ t d _
  | .vBcast _ t d _ | .vGet _ t d _ _ | .vPut _ t d _ _ | .vMov _ t d _ _ | .vPerm _ t d _ _ | .vAnd _ t d _ _
  | .vOr _ t d _ _ | .vXor _ t d _ _ => some (t, d)
  | _ => none

/-! ### Lanes -/

/-- The number of a tile row. -/
def rowNo (t : BitVec 2) (r : BitVec 6) : Nat := 64 * t.toNat + r.toNat

/-- A lane of an integer tile, signed. -/
def laneInt (r : Row) (a j : Nat) : Int := sextInt (laneBits r a j) (laneW a)

/-- What an integer lane takes (spec/22 R345): clamped with SAT, else wrapped. -/
def intLane (sat : Bool) (w : Nat) (x : Int) : Int :=
  if sat then max (-(2 ^ (w - 1))) (min (2 ^ (w - 1) - 1) x) else Int.bmod x (2 ^ w)

/-- A word sends row `r` to row `d` of tile `t`, to land `lat` cycles on, with the group exponents as they stand. -/
def SendsRow (i : Instr) (s : State) (t : BitVec 2) (d : BitVec 6) (lat : Nat) (r : Row) : Prop :=
  exec i s = .next { s with m := putRowAt s.m (rowNo t d) (vLandAt s.m t.toNat lat) r } ∧
  r.exps = (rowFinal (getCore s.m s.m.iss.core) (rowNo t d)).exps

/-! ### The array -/

/-- The array is free or held by the issuing context (spec/09 R162). -/
def ArrayIsOurs (m : Mach) : Prop := (arrOf m).holder = none ∨ (arrOf m).holder = some m.iss.ctx

/-- The reads of the bundle being issued hold every one of some own-pool places (spec/09 R169). -/
def FillHolds (m : Mach) (vas : List Word) : Prop :=
  (fillOf m).done = true ∧ ∀ va ∈ vas, ownPoolVa m.iss.core (va.toNat % 2 ^ 22) = va ∧
    poolPa m.iss.core (va.toNat % 2 ^ 22) ∈ (fillOf m).want

/-- The array of the issuing core once an M word has completed with array `a`: held, the fill used up. -/
def arrayDone (m : Mach) (a : Arr) : Mach := mDone m (fun _ => a)

end Sys2Proof.Machine
end

