-- ==== Sys2Proof/Certificates/Slice0/Obligations.lean ====
section
/-!
DEFINITION. The statements for the provers. Where a statement says that a word COMPLETES, it gives the whole next
state; what is not named in it is unchanged. `putS m lat d v` sends v on its way to scalar d, to be read `lat`
cycles on, and changes nothing else (statement ResultsInFlight says what that means for a reader).
-/

open Sys2Proof Sys2Proof.Machine

/-! ### X words -/

/-- spec/23 R378, R402, R389, R390, R379, R392, R403, R388: the two-operand integer words, each with its result as
an integer or bit by bit, for a guard that holds and unpoisoned operands (A register; B register or sign-extended
immediate), with the encodings and the K words that these rules give. -/
def Obligations.TwoOperandIntegerWords : Prop :=
  (∀ (s : State) (h : Hd) (d a b : BitVec 6) (ix : Bool),
    guardTrue s.m h = true → (rdS s.m 0 a).pois = false → (opBK s.m ix b).pois = false →
    let x := (rdS s.m 0 a).val
    let y := (opBK s.m ix b).val
    exec (.xAdd h d a ix b) s = .next { s with m := putS s.m 1 d { val := BitVec.ofNat 64 (x.toNat + y.toNat) } } ∧
    exec (.xSub h d a ix b) s = .next { s with m := putS s.m 1 d { val := BitVec.ofInt 64 (x.toInt - y.toInt) } } ∧
    (∃ v : Word, v.toNat = x.toNat * y.toNat % 2 ^ 64 ∧ v = BitVec.ofInt 64 (x.toInt * y.toInt) ∧
      exec (.xMul h d a ix b) s = .next { s with m := putS s.m 3 d { val := v } }) ∧
    (∃ v : Word, ∃ low : Nat, low < 2 ^ 64 ∧ x.toInt * y.toInt = v.toInt * 2 ^ 64 + low ∧
      exec (.xMulh h d a ix b) s = .next { s with m := putS s.m 3 d { val := v } }) ∧
    (∃ v : Word, (∀ i < 64, v.getLsbD i = (x.getLsbD i && y.getLsbD i)) ∧
      exec (.xAnd h d a ix b) s = .next { s with m := putS s.m 1 d { val := v } }) ∧
    (∃ v : Word, (∀ i < 64, v.getLsbD i = (x.getLsbD i || y.getLsbD i)) ∧
      exec (.xOr h d a ix b) s = .next { s with m := putS s.m 1 d { val := v } }) ∧
    (∃ v : Word, (∀ i < 64, v.getLsbD i = (x.getLsbD i != y.getLsbD i)) ∧
      exec (.xXor h d a ix b) s = .next { s with m := putS s.m 1 d { val := v } }) ∧
    (∃ v : Word, v.toInt = min x.toInt y.toInt ∧
      exec (.xMin h d a ix b) s = .next { s with m := putS s.m 1 d { val := v } }) ∧
    (∃ v : Word, v.toInt = max x.toInt y.toInt ∧
      exec (.xMax h d a ix b) s = .next { s with m := putS s.m 1 d { val := v } })) ∧
  (∀ (m : Mach) (b : BitVec 6), opBK m false b = rdS m 1 b ∧ (opBK m true b).pois = false ∧
    (m.iss.ks = [] → (opBK m true b).val.toInt = b.toInt)) ∧
  (∀ m : Mach, (m.iss.ks = [3] → (opBK m true 63).val = 255) ∧ (m.iss.ks = [0, 1] → (opBK m true 0).val = 0x80000000)) ∧
  decodeTableWord 32 0xD0000003 = some (.kImm 3) ∧ decodeTableWord 32 0xD0000001 = some (.kImm 1) ∧
  decodeTableWord 32 0x00088286 = some (.xAdd ⟨false, 0⟩ 4 5 false 6) ∧
  decodeTableWord 32 0x000882FD = some (.xAdd ⟨false, 0⟩ 4 5 true (BitVec.ofInt 6 (-3))) ∧
  decodeTableWord 32 0x00108286 = some (.xSub ⟨false, 0⟩ 4 5 false 6) ∧
  decodeTableWord 32 0x00188286 = some (.xMul ⟨false, 0⟩ 4 5 false 6) ∧
  decodeTableWord 32 0x00208286 = some (.xMulh ⟨false, 0⟩ 4 5 false 6) ∧
  decodeTableWord 32 0x00388286 = some (.xAnd ⟨false, 0⟩ 4 5 false 6) ∧
  decodeTableWord 32 0x003882FF = some (.xAnd ⟨false, 0⟩ 4 5 true 63) ∧
  decodeTableWord 32 0x00408286 = some (.xOr ⟨false, 0⟩ 4 5 false 6) ∧
  decodeTableWord 32 0x00488286 = some (.xXor ⟨false, 0⟩ 4 5 false 6) ∧
  decodeTableWord 32 0x00688286 = some (.xMin ⟨false, 0⟩ 4 5 false 6) ∧
  decodeTableWord 32 0x00708286 = some (.xMax ⟨false, 0⟩ 4 5 false 6)

/-- spec/23 R400, R401, R398, R399, R381, R394: shifts by the low six bits of B (a register) or by the immediate, sign
extension from bit n, and the counts of leading zeros and of one bits; their encodings, and that the counts take no
immediate and no second register. -/
def Obligations.ShiftsAndCounts : Prop :=
  (∀ (s : State) (h : Hd) (d a b : BitVec 6) (ix : Bool),
    guardTrue s.m h = true → (rdS s.m 0 a).pois = false → (opBZ s.m ix b).pois = false →
    let x := (rdS s.m 0 a).val
    let c := (opBZ s.m ix b).val.toNat % 64
    exec (.xShl h d a ix b) s = .next { s with m := putS s.m 1 d { val := BitVec.ofNat 64 (x.toNat * 2 ^ c) } } ∧
    exec (.xShr h d a ix b) s = .next { s with m := putS s.m 1 d { val := BitVec.ofNat 64 (x.toNat / 2 ^ c) } } ∧
    exec (.xSar h d a ix b) s = .next { s with m := putS s.m 1 d { val := BitVec.ofInt 64 (x.toInt / 2 ^ c) } } ∧
    (∃ v : Word, (∀ i < 64, v.getLsbD i = x.getLsbD (min i c)) ∧
      exec (.xSext h d a ix b) s = .next { s with m := putS s.m 1 d { val := v } }) ∧
    (∃ n : Nat, n ≤ 64 ∧ x.toNat < 2 ^ (64 - n) ∧ (n < 64 → 2 ^ (63 - n) ≤ x.toNat) ∧
      exec (.xClz h d a) s = .next { s with m := putS s.m 1 d { val := BitVec.ofNat 64 n } }) ∧
    exec (.xPcnt h d a) s =
      .next { s with m := putS s.m 1 d { val := BitVec.ofNat 64 ((List.range 64).countP (fun i => x.getLsbD i)) } }) ∧
  (∀ (m : Mach) (b : BitVec 6), opBZ m false b = rdS m 1 b ∧ (opBZ m true b).pois = false ∧
    (opBZ m true b).val.toNat = b.toNat) ∧
  decodeTableWord 32 0x005082C3 = some (.xShl ⟨false, 0⟩ 4 5 true 3) ∧
  decodeTableWord 32 0x00508286 = some (.xShl ⟨false, 0⟩ 4 5 false 6) ∧
  decodeTableWord 32 0x005882C3 = some (.xShr ⟨false, 0⟩ 4 5 true 3) ∧
  decodeTableWord 32 0x00588286 = some (.xShr ⟨false, 0⟩ 4 5 false 6) ∧
  decodeTableWord 32 0x006082C3 = some (.xSar ⟨false, 0⟩ 4 5 true 3) ∧
  decodeTableWord 32 0x00608286 = some (.xSar ⟨false, 0⟩ 4 5 false 6) ∧
  decodeTableWord 32 0x008882C7 = some (.xSext ⟨false, 0⟩ 4 5 true 7) ∧
  decodeTableWord 32 0x00788280 = some (.xClz ⟨false, 0⟩ 4 5) ∧
  decodeTableWord 32 0x00808280 = some (.xPcnt ⟨false, 0⟩ 4 5) ∧
  (∀ n, 0 < n → n < 128 → decodeTableWord 32 (0x00788280 + n) = none ∧ decodeTableWord 32 (0x00808280 + n) = none)

/-- spec/05 R88 and spec/23 R374: the second operand: a register; a six-bit immediate, sign-extended, with one K
word at 31 bits, with two at 56; zero-extended for the shifts and x.sext. A K word adds its body for the word it
stands before, and changes nothing else (spec/05 R87, spec/20 R311). -/
def Obligations.ImmediateOperands : Prop :=
  (∀ (s : State) (k : BitVec 25),
    exec (.kImm k) s = .next { s with m := { s.m with iss := { s.m.iss with ks := s.m.iss.ks ++ [k] } } }) ∧
  (∀ (m : Mach) (b : BitVec 6), opBK m false b = rdS m 1 b ∧ opBZ m false b = rdS m 1 b) ∧
  (∀ (m : Mach) (b : BitVec 6),
    (opBK m true b).pois = false ∧ (opBZ m true b).pois = false ∧ (opBZ m true b).val.toNat = b.toNat ∧
    (m.iss.ks = [] → (opBK m true b).val.toInt = b.toInt) ∧
    (∀ k1, m.iss.ks = [k1] → (opBK m true b).val = ((k1 ++ b : BitVec 31).signExtend 64)) ∧
    (∀ k1 k2, m.iss.ks = [k1, k2] → (opBK m true b).val = ((k2 ++ k1 ++ b : BitVec 56).signExtend 64)))

/-- spec/23 R382 and Table 23-3: x.cmp writes the truth of its condition at bound 1. Condition 7 has no word (wellFormed
refuses it). -/
def Obligations.ComparePredicates : Prop :=
  (∀ (s : State) (h : Hd) (p k : BitVec 3) (a b : BitVec 6) (ix : Bool),
    guardTrue s.m h = true → (rdS s.m 0 a).pois = false → (opBK s.m ix b).pois = false →
    let x := (rdS s.m 0 a).val
    let y := (opBK s.m ix b).val
    ∃ v : Bool, exec (.xCmp h p k a ix b) s = .next { s with m := putP s.m 1 p v } ∧
      (k = 0 → (v = true ↔ x = y)) ∧ (k = 1 → (v = true ↔ x ≠ y)) ∧
      (k = 2 → (v = true ↔ x.toInt < y.toInt)) ∧ (k = 3 → (v = true ↔ x.toInt ≤ y.toInt)) ∧
      (k = 4 → (v = true ↔ x.toNat < y.toNat)) ∧ (k = 5 → (v = true ↔ x.toNat ≤ y.toNat)) ∧
      (k = 6 → (v = true ↔ ∃ i < 64, x.getLsbD i = true ∧ y.getLsbD i = true))) ∧
  (∀ (h : Hd) (p : BitVec 3) (a b : BitVec 6) (ix : Bool), wellFormed (.xCmp h p 7 a ix b) = false)

/-- spec/23 R393, R395, R396: x.pand, x.por and x.pxor write, at bound 1, the AND, OR and XOR of two predicates, each as
inverted by na or nb, with their encodings; p0 reads true and discards what is written to it; a word whose zero bits are
not zero is refused. -/
def Obligations.PredicateWords : Prop :=
  (∀ (s : State) (h : Hd) (p a b : BitVec 3) (n k : Bool), guardTrue s.m h = true →
    let x := (rdP s.m 0 a).xor n
    let y := (rdP s.m 1 b).xor k
    exec (.xPand h p n a b k) s = .next { s with m := putP s.m 1 p (x && y) } ∧
    exec (.xPor h p n a b k) s = .next { s with m := putP s.m 1 p (x || y) } ∧
    exec (.xPxor h p n a b k) s = .next { s with m := putP s.m 1 p (x.xor y) }) ∧
  (∀ (m : Mach) (r : Nat), rdP m r 0 = true) ∧
  (∀ (m : Mach) (v : Bool),
    getCtx (putP m 1 0 v) m.iss.core m.iss.ctx = getCtx m m.iss.core m.iss.ctx) ∧
  decodeTableWord 32 0x00990818 = some (.xPand ⟨false, 0⟩ 1 false 2 3 false) ∧
  decodeTableWord 32 0x0099881C = some (.xPand ⟨false, 0⟩ 1 true 2 3 true) ∧
  decodeTableWord 32 0x00A10818 = some (.xPor ⟨false, 0⟩ 1 false 2 3 false) ∧
  decodeTableWord 32 0x00A90818 = some (.xPxor ⟨false, 0⟩ 1 false 2 3 false) ∧
  (∀ w ∈ [0x00990818, 0x00A10818, 0x00A90818], ∀ k ∈ [0, 1, 6, 7, 8, 9, 13, 14],
    decodeTableWord 32 (w + 2 ^ k) = none)

/-- spec/23 R377, R384 to R387, R385: the FP32 words complete at bound 4 (x.fcvt at 3) with a 32-bit result in the low
half and zero above; a NaN operand gives 0x7FC0_0000; the spec's worked sums, products, maxima and conversions hold;
x.fcvt kinds 1 and 2 clamp at the ends of int64 and kind 3 widens a BF16 pattern. -/
def Obligations.XFloatWords : Prop :=
  ∀ (s : State) (h : Hd) (d a b k : BitVec 6),
    guardTrue s.m h = true → (rdS s.m 0 a).pois = false → (rdS s.m 1 b).pois = false →
    let x := (rdS s.m 0 a).val
    let y := (rdS s.m 1 b).val
    let nanIn := valIsNan (f32Of x) || valIsNan (f32Of y)
    (∃ u v w c : Word, u.toNat < 2 ^ 32 ∧ v.toNat < 2 ^ 32 ∧ w.toNat < 2 ^ 32 ∧
      (nanIn = true → u = 0x7FC00000 ∧ v = 0x7FC00000 ∧ w = 0x7FC00000) ∧
      (x.toNat % 2 ^ 32 = 0x4B800000 → y.toNat % 2 ^ 32 = 0x3F800000 → u = 0x4B800000) ∧
      (x.toNat % 2 ^ 32 = 0x1C800000 → y.toNat % 2 ^ 32 = 0x1C800000 → v = 0x200) ∧
      (x.toNat % 2 ^ 32 = 0x80000000 → y.toNat % 2 ^ 32 = 0 → w = 0) ∧
      exec (.xFadd h d a b) s = .next { s with m := putS s.m 4 d { val := u } } ∧
      exec (.xFmul h d a b) s = .next { s with m := putS s.m 4 d { val := v } } ∧
      exec (.xFmax h d a b) s = .next { s with m := putS s.m 4 d { val := w } } ∧
      exec (.xFcvt h d a k) s = .next { s with m := putS s.m 3 d { val := c } } ∧
      (k = 1 ∨ k = 2 → (x.toNat % 2 ^ 32 = 0x7F800000 → c.toInt = 2 ^ 63 - 1) ∧
        (x.toNat % 2 ^ 32 = 0xFF800000 → c.toInt = -2 ^ 63) ∧ (valIsNan (f32Of x) = true → c = 0)) ∧
      (k = 1 → (x.toNat % 2 ^ 32 = 0x40200000 → c = 2) ∧ (x.toNat % 2 ^ 32 = 0xC0600000 → c.toInt = -4)) ∧
      (k = 2 → (x.toNat % 2 ^ 32 = 0x40200000 → c = 2) ∧ (x.toNat % 2 ^ 32 = 0xC0600000 → c.toInt = -3)) ∧
      (k = 3 → c.toNat = x.toNat % 2 ^ 16 * 2 ^ 16) ∧
      (k = 4 → c.toNat < 2 ^ 16 ∧ (x.toNat % 2 ^ 32 = 0x3F808000 → c = 0x3F80) ∧
        (x.toNat % 2 ^ 32 = 0x3F818000 → c = 0x3F82) ∧ (x.toNat % 2 ^ 32 = 0x7F800001 → c = 0x7FC0)))

/-- spec/23 R383, R397: quotient and remainder, truncated toward zero, at bound 20; −2^63 div −1 gives −2^63; B = 0
raises divide-by-zero (0x1C) at the word, with no result.

spec/23 R375, R380, spec/04 R82, R83: a poisoned source poisons the result with the cause of the first poisoned
source and does no arithmetic (no divide-by-zero); its value is the free value freeWord. x.cmp raises
poison-consumed; x.chk raises deferred on a poisoned source and otherwise does nothing. -/
def Obligations.DivisionAndPoison : Prop :=
  (∀ (s : State) (h : Hd) (d a b : BitVec 6) (ix : Bool),
    guardTrue s.m h = true → (rdS s.m 0 a).pois = false → (opBK s.m ix b).pois = false →
    let x := (rdS s.m 0 a).val
    let y := (opBK s.m ix b).val
    (y ≠ 0 → ∃ q r : Word,
      (¬(x.toInt = -2 ^ 63 ∧ y.toInt = -1) → q.toInt = Int.tdiv x.toInt y.toInt) ∧
      (x.toInt = -2 ^ 63 ∧ y.toInt = -1 → q.toInt = -2 ^ 63) ∧
      r.toInt = Int.tmod x.toInt y.toInt ∧
      exec (.xDiv h d a ix b) s = .next { s with m := putS s.m 20 d { val := q } } ∧
      exec (.xRem h d a ix b) s = .next { s with m := putS s.m 20 d { val := r } }) ∧
    (y = 0 →
      exec (.xDiv h d a ix b) s = .next { s with m := trapW s.m 0x1C } ∧
      exec (.xRem h d a ix b) s = .next { s with m := trapW s.m 0x1C })) ∧
  ((∀ (s : State) (h : Hd) (d a b : BitVec 6) (ix : Bool), guardTrue s.m h = true →
    ∀ q : Scalar, ((rdS s.m 0 a).pois = true ∧ q = rdS s.m 0 a ∨
        (rdS s.m 0 a).pois = false ∧ (opBK s.m ix b).pois = true ∧ q = opBK s.m ix b) →
    let v : Scalar := ⟨Config.freeWord (freeIx s.m 14 0), true, q.cause⟩
    exec (.xAdd h d a ix b) s = .next { s with m := putS s.m 1 d v } ∧
    exec (.xSub h d a ix b) s = .next { s with m := putS s.m 1 d v } ∧
    exec (.xMul h d a ix b) s = .next { s with m := putS s.m 3 d v } ∧
    exec (.xMulh h d a ix b) s = .next { s with m := putS s.m 3 d v } ∧
    exec (.xDiv h d a ix b) s = .next { s with m := putS s.m 20 d v } ∧
    exec (.xRem h d a ix b) s = .next { s with m := putS s.m 20 d v } ∧
    exec (.xAnd h d a ix b) s = .next { s with m := putS s.m 1 d v } ∧
    exec (.xOr h d a ix b) s = .next { s with m := putS s.m 1 d v } ∧
    exec (.xXor h d a ix b) s = .next { s with m := putS s.m 1 d v } ∧
    exec (.xMin h d a ix b) s = .next { s with m := putS s.m 1 d v } ∧
    exec (.xMax h d a ix b) s = .next { s with m := putS s.m 1 d v } ∧
    (∀ p k, exec (.xCmp h p k a ix b) s = .next { s with m := trapAt s.m 0x20 0 (q.cause.setWidth 64) none })) ∧
  (∀ (s : State) (h : Hd) (a : BitVec 6), guardTrue s.m h = true →
    ((rdS s.m 0 a).pois = false → exec (.xChk h a) s = .next s) ∧
    ((rdS s.m 0 a).pois = true →
      exec (.xChk h a) s = .next { s with m := trapAt s.m 0x21 0 ((rdS s.m 0 a).cause.setWidth 64) none })))

/-! ### Guards and landing -/

/-- spec/04 R66: a word whose guard is false does nothing; the no-operations do nothing under any guard. -/
def Obligations.GuardsAndNops : Prop :=
  (∀ (i : Instr) (h : Hd) (s : State), headOf i = some h → guardTrue s.m h = false → exec i s = .next s) ∧
  (∀ (h : Hd) (s : State), exec (.xNop h) s = .next s ∧ exec (.mNop h) s = .next s)

/-- What a result sent to a register changes: the list of results in flight of the issuing context, and nothing else.

spec/04 R67, for the three kinds of register: a read before the bound is undefined (a free value, unpoisoned) and
one from the bound on reads the result; other registers read as they would have; s0 and p0 discard.

spec/04 R69: two words in flight for one scalar register: undefined until both bounds have passed, then the
result of the word issued later, whichever bound is the longer. -/
def Obligations.ResultsInFlight : Prop :=
  (∀ (m m' : Mach) (lat : Nat) (v : Scalar) (w : Bool) (x : W32) (d : BitVec 6) (p b : BitVec 3),
    (m' = putS m lat d v ∨ m' = putP m lat p w ∨ m' = putB m lat b x) →
    m'.mem = m.mem ∧ { m' with cores := [] } = { m with cores := [] } ∧
    (∀ c, { getCore m' c with ctxs := [] } = { getCore m c with ctxs := [] }) ∧
    (∀ c i, (c ≠ m.iss.core ∨ i ≠ m.iss.ctx) → getCtx m' c i = getCtx m c i) ∧
    (∃ fl : List Flight,
      getCtx m' m.iss.core m.iss.ctx = { getCtx m m.iss.core m.iss.ctx with flight := fl })) ∧
  (∀ (c : Ctx) (now lat t ix : Nat) (v : Scalar), now ≤ t →
    (∀ n : BitVec 6, n ≠ 0 → (∀ f ∈ c.flight, f.dst = .s n → f.landAt ≤ t) →
      scalarOf (landDue (putFlight c now lat (.s n) v) t) t ix n =
        if t < now + lat then { val := Config.freeWord ix } else v) ∧
    (∀ n : BitVec 3, n ≠ 0 → (∀ f ∈ c.flight, f.dst = .p n → f.landAt ≤ t) →
      predOf (landDue (putFlight c now lat (.p n) v) t) t ix n =
        if t < now + lat then Config.freeBit ix else v.val.getLsbD 0) ∧
    (∀ n : BitVec 3, (∀ f ∈ c.flight, f.dst = .b n → f.landAt ≤ t) →
      targetReg (landDue (putFlight c now lat (.b n) v) t) t ix n =
        if t < now + lat then Config.freePacket ix else v.val.setWidth 32) ∧
    (∀ (d : Dst) (n : BitVec 6), d ≠ .s n →
      scalarOf (landDue (putFlight c now lat d v) t) t ix n = scalarOf (landDue c t) t ix n) ∧
    putFlight c now lat (.s 0) v = c ∧ putFlight c now lat (.p 0) v = c ∧ scalarOf c t ix 0 = {} ∧ predOf c t ix 0 = true) ∧
  (∀ (c : Ctx) (t1 l1 t2 l2 t ix : Nat) (n : BitVec 6) (v1 v2 : Scalar), n ≠ 0 →
    (∀ f ∈ c.flight, f.dst ≠ .s n) → t1 ≤ t2 → t2 < t1 + l1 → t2 ≤ t →
    scalarOf (landDue (putFlight (putFlight c t1 l1 (.s n) v1) t2 l2 (.s n) v2) t) t ix n =
      if t < max (t1 + l1) (t2 + l2) then { val := Config.freeWord ix } else v2)

/-! ### V words -/

/-- spec/22 R350, R372, R362, R356, R359, R360, R363, R349: the arithmetic words on a tile that the core has, of any
type: each writes its exact results, rounded once (vWrite), at its bound.

spec/22 R355, R358, R367, R369, R368, R370, R347, spec/16 R237: the functions on float tiles (on others operand-range), the
reductions on any tile; every V word on a tile that the core does not have raises allocation-range. The functions' values: the
special values that these rules name; exact powers of two and their logarithms; the exact reciprocal; the reciprocal
square root exactly or between its two neighbours; and, rounded once, codes worked out by hand in FP32 and BF16 (that exp2,
log2 and rsqrt are carried to a fixed number of bits is log 9). The reductions of float lanes: a NaN if a lane is one, else the
largest lane; of finite lanes the exact sum.

spec/22 R345, R346, spec/07 R139, R140: what writing exact results to a float tile does, lane by lane: a NaN takes the canonical
NaN, a result in the subnormal range a signed zero or its wrapped value, which is flagged, any other its conversion; flagged
lanes, and only they, raise subnormal-assist with the row's record once the row has landed. -/
def Obligations.VArithmeticAndFunctions : Prop :=
  (∀ (s : State) (h : Hd) (t : BitVec 2) (d a b : BitVec 6), guardTrue s.m h = true → t.toNat < tilesOf s.m →
    let x := srcVals s.m 0 t a
    let y := srcVals s.m 1 t b
    let z := srcVals s.m 2 t d
    exec (.vAdd h t d a b) s = .next { s with m := vWrite s.m t d 2 true (List.zipWith valAdd x y) } ∧
    exec (.vSub h t d a b) s =
      .next { s with m := vWrite s.m t d 2 true (List.zipWith valAdd x (y.map valNegate)) } ∧
    exec (.vMul h t d a b) s = .next { s with m := vWrite s.m t d 5 true (List.zipWith valMul x y) } ∧
    exec (.vFma h t d a b) s =
      .next { s with m := vWrite s.m t d 5 true (List.zipWith valAdd z (List.zipWith valMul x y)) } ∧
    exec (.vMax h t d a b) s = .next { s with m := vWrite s.m t d 2 true (List.zipWith laneMax x y) } ∧
    exec (.vMin h t d a b) s = .next { s with m := vWrite s.m t d 2 true (List.zipWith laneMin x y) } ∧
    exec (.vNeg h t d a) s = .next { s with m := vWrite s.m t d 2 true (x.map valNegate) } ∧
    exec (.vAbs h t d a) s = .next { s with m := vWrite s.m t d 2 true (x.map valAbs) }) ∧
  ((∀ (s : State) (h : Hd) (t : BitVec 2) (d a : BitVec 6), guardTrue s.m h = true → t.toNat < tilesOf s.m →
    let x := srcVals s.m 0 t a
    (isFloatTile (tileType s.m t.toNat) = true →
      exec (.vExp2 h t d a) s = .next { s with m := vWrite s.m t d 9 true (x.map valExp2) } ∧
      exec (.vLog2 h t d a) s = .next { s with m := vWrite s.m t d 9 true (x.map valLog2) } ∧
      exec (.vRcp h t d a) s = .next { s with m := vWrite s.m t d 7 true (x.map valRcp) } ∧
      exec (.vRsqrt h t d a) s = .next { s with m := vWrite s.m t d 7 true (x.map valRsqrt) }) ∧
    (isFloatTile (tileType s.m t.toNat) = false →
      exec (.vExp2 h t d a) s = .next { s with m := trapW s.m 0x1A } ∧
      exec (.vLog2 h t d a) s = .next { s with m := trapW s.m 0x1A } ∧
      exec (.vRcp h t d a) s = .next { s with m := trapW s.m 0x1A } ∧
      exec (.vRsqrt h t d a) s = .next { s with m := trapW s.m 0x1A }) ∧
    (∃ v vs, x = v :: vs ∧
      exec (.vRmax h t d a) s =
        .next ⟨vWrite s.m t d 8 false (List.replicate (lanesOf (tileType s.m t.toNat)) (vs.foldl laneMax v)), s.trust⟩ ∧
      exec (.vRsum h t d a) s =
        .next ⟨vWrite s.m t d 8 false (List.replicate (lanesOf (tileType s.m t.toNat)) (vs.foldl valAdd v)), s.trust⟩)) ∧
  (∀ (f : FpFmt) (codes : List Nat) (v : Val) (vs : List Val), f = fp32 ∨ f = bf16 → codes.map (fpDecode f) = v :: vs →
    let rat (x : Val) : ℚ := match x with
      | .num s p q e => (if s then -1 else 1) * (p / q) * 2 ^ e
      | _ => 0
    ((∃ y ∈ v :: vs, valIsNan y = true) → valIsNan (vs.foldl laneMax v) = true ∧ valIsNan (vs.foldl valAdd v) = true) ∧
    ((∀ y ∈ v :: vs, valIsNan y = false) →
      vs.foldl laneMax v ∈ v :: vs ∧ ∀ y ∈ v :: vs, valLt (vs.foldl laneMax v) y = false) ∧
    ((∀ y ∈ v :: vs, ∃ s p q e, y = .num s p q e) →
      (∃ s p q e, vs.foldl valAdd v = .num s p q e) ∧ rat (vs.foldl valAdd v) = ((v :: vs).map rat).sum)) ∧
  (∀ (s : Bool) (p q : Nat) (e : Int),
    let x : Val := .num s p q e
    valIsNan (valExp2 (.nan s p)) = true ∧ valIsNan (valLog2 (.nan s p)) = true ∧ valIsNan (valRcp (.nan s p)) = true ∧
    valIsNan (valRsqrt (.nan s p)) = true ∧ valExp2 (.inf true) = .num false 0 1 0 ∧ valExp2 (.inf false) = .inf false ∧
    valLog2 (.inf false) = .inf false ∧ valIsNan (valLog2 (.inf true)) = true ∧ valRcp (.inf s) = .num s 0 1 0 ∧
    valRsqrt (.inf false) = .num false 0 1 0 ∧ valIsNan (valRsqrt (.inf true)) = true ∧
    (p = 0 → valExp2 x = .num false 1 1 0 ∧ valLog2 x = .inf true ∧ valRcp x = .inf s ∧ valRsqrt x = .inf s) ∧
    (p ≠ 0 → s = true → valIsNan (valLog2 x) = true ∧ valIsNan (valRsqrt x) = true) ∧
    (p ≠ 0 → q ≠ 0 → valEq (valMul x (valRcp x)) (.num false 1 1 0) = true) ∧
    (-65536 < e → e < 65536 → valEq (valExp2 (valOfInt e 0)) (.num false 1 1 e) = true) ∧
    valEq (valLog2 (.num false 1 1 e)) (valOfInt e 0) = true ∧
    (p ≠ 0 → p < 2 ^ 24 → ∃ (t : Nat) (k : Int), valRsqrt (.num false p 1 e) = .num false t 1 k ∧ 2 ^ 170 ≤ t ∧
      let one : Val := .num false 1 1 0
      let at_ (n : Nat) : Val := valMul (.num false p 1 e) (valMul (.num false n 1 k) (.num false n 1 k))
      (valEq (at_ t) one = true ∨ valLt (at_ (t - 1)) one = true ∧ valLt one (at_ (t + 1)) = true))) ∧
  (let gives (f : Val → Val) (x y : Nat) : Prop := fpConv fp32 false (f (fpDecode fp32 x)) = y
   let gives16 (f : Val → Val) (x y : Nat) : Prop := fpConv bf16 false (f (fpDecode bf16 x)) = y
   gives valExp2 0x3F000000 0x3FB504F3 ∧ gives valExp2 0xBF000000 0x3F3504F3 ∧ gives valExp2 0x40490FDB 0x410D331D ∧
   gives valLog2 0x40400000 0x3FCAE00D ∧ gives valLog2 0x41200000 0x40549A78 ∧ gives valLog2 0x3EAAAAAB 0xBFCAE00D ∧
   gives valLog2 0x3F800001 0x3438AA3A ∧ gives valRcp 0x40400000 0x3EAAAAAB ∧ gives valRcp 0xC1200000 0xBDCCCCCD ∧
   gives valRsqrt 0x40000000 0x3F3504F3 ∧ gives valRsqrt 0x40400000 0x3F13CD3A ∧ gives valRsqrt 0x00800000 0x5F000000 ∧
   gives16 valExp2 0x3F00 0x3FB5 ∧ gives16 valLog2 0x4040 0x3FCB ∧ gives16 valRcp 0x4040 0x3EAB ∧ gives16 valRsqrt 0x4000 0x3F35) ∧
  (∀ (m : Mach) (t : BitVec 2) (d : BitVec 6) (lat : Nat) (rs : List Val),
    let ty := tileType m t.toNat
    let f := floatOf ty
    let conv (x : Val) : Nat := fpConv f (tileSat m t.toNat) x % 2 ^ laneW ty
    let least : Val := .num false 1 1 (if ty = 0 then -150 else -134)
    let sub (x : Val) : Prop := valIsZero x = false ∧ valLt (valAbs x) (.num false 1 1 (-126)) = true
    let flagged (x : Val) : Prop := sub x ∧ valLt least (valAbs x) = true
    isFloatTile ty = true → rs.length = lanesOf ty → ∃ r : Row, r.exps = (rowFinal (getCore m m.iss.core) (rowNo t d)).exps ∧
    (∀ (j : Nat) (x : Val), rs[j]? = some x →
      (valIsNan x = true → laneBits r ty j = fpNan f) ∧ (valIsNan x = false → ¬sub x → laneBits r ty j = conv x) ∧
      (flagged x → laneBits r ty j = conv (valScale x 192)) ∧
      (sub x → ¬flagged x → laneBits r ty j = if valNeg x then 2 ^ (laneW ty - 1) else 0)) ∧
    ((∀ x ∈ rs, ¬flagged x) → vWrite m t d lat true rs = putRowAt m (rowNo t d) (vLandAt m t.toNat lat) r) ∧
    ((∃ x ∈ rs, flagged x) → ∃ (q : Due) (fl : List (Option Nat)),
      vWrite m t d lat true rs = pushDue (putRowAt m (rowNo t d) (vLandAt m t.toNat lat) r) m.iss.core m.iss.ctx q ∧
      q.cause = 0x1B ∧ q.notBefore = vLandAt m t.toNat lat ∧ fl.length = rs.length ∧
      (∀ (j : Nat) (x : Val), rs[j]? = some x → ((∃ y, fl[j]? = some (some y)) ↔ flagged x)) ∧
      q.assist = some (assistRecord 1 t.toNat d.toNat (if ty = 3 then 1 else 0) [fl]))) ∧
  (∀ (s : State) (i : Instr) (h : Hd) (t : BitVec 2) (d : BitVec 6), headOf i = some h → vDest i = some (t, d) →
    guardTrue s.m h = true → tilesOf s.m ≤ t.toNat → exec i s = .next { s with m := trapW s.m 0x11 }))

/-- spec/07 R135 and Table 7-5: a row of lane codes holds each code at its lane, at the lane's width.

spec/22 R345: on integer tiles the arithmetic words and reductions give, lane by lane, the integer result, wrapped
with SAT = 0 and clamped with SAT = 1. -/
def Obligations.VIntegerLanes : Prop :=
  (∀ (a j : Nat) (codes : List Nat) (e : BitVec 32), codes.length = lanesOf a → j < lanesOf a →
    laneBits ⟨packRow a codes, e⟩ a j = codes.getD j 0 % 2 ^ laneW a) ∧
  (∀ (s : State) (h : Hd) (t : BitVec 2) (d a b : BitVec 6), guardTrue s.m h = true → t.toNat < tilesOf s.m →
    isIntTile (tileType s.m t.toNat) = true →
    let ty := tileType s.m t.toNat
    let x := rowV s.m 0 t.toNat (rowNo t a)
    let y := rowV s.m 1 t.toNat (rowNo t b)
    let z := rowV s.m 2 t.toNat (rowNo t d)
    let fit := intLane (tileSat s.m t.toNat) (laneW ty)
    (∃ r, SendsRow (.vAdd h t d a b) s t d 2 r ∧
      ∀ j < lanesOf ty, laneInt r ty j = fit (laneInt x ty j + laneInt y ty j)) ∧
    (∃ r, SendsRow (.vSub h t d a b) s t d 2 r ∧
      ∀ j < lanesOf ty, laneInt r ty j = fit (laneInt x ty j - laneInt y ty j)) ∧
    (∃ r, SendsRow (.vMul h t d a b) s t d 5 r ∧
      ∀ j < lanesOf ty, laneInt r ty j = fit (laneInt x ty j * laneInt y ty j)) ∧
    (∃ r, SendsRow (.vFma h t d a b) s t d 5 r ∧
      ∀ j < lanesOf ty, laneInt r ty j = fit (laneInt z ty j + laneInt x ty j * laneInt y ty j)) ∧
    (∃ r, SendsRow (.vMax h t d a b) s t d 2 r ∧
      ∀ j < lanesOf ty, laneInt r ty j = max (laneInt x ty j) (laneInt y ty j)) ∧
    (∃ r, SendsRow (.vMin h t d a b) s t d 2 r ∧
      ∀ j < lanesOf ty, laneInt r ty j = min (laneInt x ty j) (laneInt y ty j)) ∧
    (∃ r, SendsRow (.vNeg h t d a) s t d 2 r ∧ ∀ j < lanesOf ty, laneInt r ty j = fit (-laneInt x ty j)) ∧
    (∃ r, SendsRow (.vAbs h t d a) s t d 2 r ∧ ∀ j < lanesOf ty, laneInt r ty j = fit |laneInt x ty j|) ∧
    (∃ r, SendsRow (.vRsum h t d a) s t d 8 r ∧
      ∀ j < lanesOf ty, laneInt r ty j = fit (((List.range (lanesOf ty)).map (laneInt x ty)).sum)) ∧
    (∃ r, SendsRow (.vRmax h t d a) s t d 8 r ∧
      ∀ j < lanesOf ty, (∀ k < lanesOf ty, laneInt x ty k ≤ laneInt r ty j) ∧
        ∃ k < lanesOf ty, laneInt r ty j = laneInt x ty k))

/-- spec/22 R353, R351, R364, R373: compares write the true code (1.0, or all ones) or zero in each lane, bitwise words
the bits, on tiles that are not AXB; on AXB both raise operand-range.

spec/22 R354 and Table 22-3: v.cvt on the types that take the kind: between integer and float patterns (kinds 2
and 3), and to integers or narrower floats in place; operand-range on the other types. -/
def Obligations.VComparesAndConversions : Prop :=
  (∀ (s : State) (h : Hd) (t : BitVec 2) (d a b : BitVec 6), guardTrue s.m h = true → t.toNat < tilesOf s.m →
    let ty := tileType s.m t.toNat
    let x := rowV s.m 0 t.toNat (rowNo t a)
    let y := rowV s.m 1 t.toNat (rowNo t b)
    let yes := if ty = 0 then 0x3F800000 else if ty = 3 then 0x3F80 else 2 ^ laneW ty - 1
    (isAxb ty = false →
      (∃ r, SendsRow (.vCmpLt h t d a b) s t d 2 r ∧
        ∀ j < lanesOf ty, laneBits r ty j = if valLt (laneVal x ty j) (laneVal y ty j) then yes else 0) ∧
      (∃ r, SendsRow (.vCmpLe h t d a b) s t d 2 r ∧ ∀ j < lanesOf ty, laneBits r ty j =
        if valLt (laneVal x ty j) (laneVal y ty j) ∨ valEq (laneVal x ty j) (laneVal y ty j) then yes else 0) ∧
      (∃ r, SendsRow (.vCmpEq h t d a b) s t d 2 r ∧
        ∀ j < lanesOf ty, laneBits r ty j = if valEq (laneVal x ty j) (laneVal y ty j) then yes else 0) ∧
      (∃ r, SendsRow (.vAnd h t d a b) s t d 2 r ∧
        ∀ j < lanesOf ty, laneBits r ty j = laneBits x ty j &&& laneBits y ty j) ∧
      (∃ r, SendsRow (.vOr h t d a b) s t d 2 r ∧
        ∀ j < lanesOf ty, laneBits r ty j = laneBits x ty j ||| laneBits y ty j) ∧
      (∃ r, SendsRow (.vXor h t d a b) s t d 2 r ∧
        ∀ j < lanesOf ty, laneBits r ty j = laneBits x ty j ^^^ laneBits y ty j)) ∧
    (isAxb ty = true →
      exec (.vCmpLt h t d a b) s = .next { s with m := trapW s.m 0x1A } ∧
      exec (.vCmpLe h t d a b) s = .next { s with m := trapW s.m 0x1A } ∧
      exec (.vCmpEq h t d a b) s = .next { s with m := trapW s.m 0x1A } ∧
      exec (.vAnd h t d a b) s = .next { s with m := trapW s.m 0x1A } ∧
      exec (.vOr h t d a b) s = .next { s with m := trapW s.m 0x1A } ∧
      exec (.vXor h t d a b) s = .next { s with m := trapW s.m 0x1A })) ∧
  (∀ (s : State) (h : Hd) (t : BitVec 2) (d a k : BitVec 6), guardTrue s.m h = true → t.toNat < tilesOf s.m →
    k.toNat ≤ 5 →
    let ty := tileType s.m t.toNat
    let sat := tileSat s.m t.toNat
    let x := rowV s.m 0 t.toNat (rowNo t a)
    let takes := if k = 0 ∨ k = 1 then !isAxb ty else if k = 2 then !isFloatTile ty
      else if k = 3 then isFloatTile ty || isAxb ty else ty == 0
    (takes = false → exec (.vCvt h t d a k) s = .next { s with m := trapW s.m 0x1A }) ∧
    (takes = true → k = 2 → ∃ r, SendsRow (.vCvt h t d a k) s t d 4 r ∧ ∀ j < lanesOf ty,
      laneBits r ty j = fpConv (if ty = 4 then bf16 else fp32) false (laneVal x ty j)) ∧
    (takes = true → k = 3 → ∃ r, SendsRow (.vCvt h t d a k) s t d 4 r ∧ ∀ j < lanesOf ty,
      laneInt r ty j = (match laneVal x ty j with
        | .nan _ _ => 0
        | .inf neg => if neg then -(2 ^ (laneW ty - 1)) else 2 ^ (laneW ty - 1) - 1
        | v => intLane sat (laneW ty) (valRne v))) ∧
    (takes = true → (k = 0 ∨ k = 1) → isIntTile ty = true → ∃ r, SendsRow (.vCvt h t d a k) s t d 4 r ∧
      ∀ j < lanesOf ty, laneBits r ty j = laneBits x ty j) ∧
    (takes = true → k ≠ 2 → k ≠ 3 → isFloatTile ty = true → ∃ vs, vs.length = lanesOf ty ∧
      exec (.vCvt h t d a k) s = .next { s with m := vWrite s.m t d 4 true vs }))

/-- spec/22 R371, R352, R357, R366, R361, R365: the moving words on tiles that are not AXB, lane by lane: v.sel picks by
a lane that is not zero; v.bcast and v.put write a scalar; v.get copies one lane to all; v.mov copies a row of the same
type; v.perm copies the lane its index names, or zero. A lane index out of range raises operand-range.

The moving words on AXB tiles: they complete by writing values, each group growing as spec/07 R137 says (vWrite); v.put and
v.sel leave the groups of which they write no lane as they were. -/
def Obligations.VMoves : Prop :=
  (∀ (s : State) (h : Hd) (t : BitVec 2) (d a b u : BitVec 6), guardTrue s.m h = true → t.toNat < tilesOf s.m →
    let ty := tileType s.m t.toNat
    let n := lanesOf ty
    let ra := rowV s.m 0 t.toNat (rowNo t a)
    isAxb ty = false →
    (∃ r, SendsRow (.vSel h t d a b) s t d 2 r ∧ ∀ j < n, laneBits r ty j =
      if valIsZero (laneVal ra ty j) then laneBits (rowV s.m 2 t.toNat (rowNo t d)) ty j
      else laneBits (rowV s.m 1 t.toNat (rowNo t b)) ty j) ∧
    ((rdS s.m 0 a).pois = false → ∃ r, SendsRow (.vBcast h t d a) s t d 2 r ∧
      ∀ j < n, laneBits r ty j = scalarCode ty (tileSat s.m t.toNat) (rdS s.m 0 a).val % 2 ^ laneW ty) ∧
    ((rdS s.m 1 b).pois = false → (rdS s.m 1 b).val.toNat < n → ∃ r, SendsRow (.vGet h t d a b) s t d 3 r ∧
      ∀ j < n, laneBits r ty j = laneBits ra ty (rdS s.m 1 b).val.toNat) ∧
    ((rdS s.m 1 b).pois = false → n ≤ (rdS s.m 1 b).val.toNat →
      exec (.vGet h t d a b) s = .next { s with m := trapW s.m 0x1A }) ∧
    ((rdS s.m 0 a).pois = false → (rdS s.m 1 b).pois = false → (rdS s.m 1 b).val.toNat < n →
      ∃ r, SendsRow (.vPut h t d a b) s t d 2 r ∧ ∀ j < n, laneBits r ty j =
        if j = (rdS s.m 1 b).val.toNat then scalarCode ty (tileSat s.m t.toNat) (rdS s.m 0 a).val % 2 ^ laneW ty
        else laneBits (rowV s.m 2 t.toNat (rowNo t d)) ty j) ∧
    ((rdS s.m 0 a).pois = false → (rdS s.m 1 b).pois = false → n ≤ (rdS s.m 1 b).val.toNat →
      exec (.vPut h t d a b) s = .next { s with m := trapW s.m 0x1A }) ∧
    (u.toNat < tilesOf s.m → tileType s.m u.toNat = ty → ∃ r, SendsRow (.vMov h t d a u) s t d 2 r ∧
      ∀ j < n, laneBits r ty j = laneBits (rowV s.m 0 t.toNat (64 * u.toNat + a.toNat)) ty j) ∧
    (u.toNat < tilesOf s.m → tileType s.m u.toNat ≠ ty → ∃ r, SendsRow (.vMov h t d a u) s t d 2 r) ∧
    (tilesOf s.m ≤ u.toNat → exec (.vMov h t d a u) s = .next { s with m := trapW s.m 0x11 }) ∧
    (∃ r, SendsRow (.vPerm h t d a b) s t d 3 r ∧ ∀ j < n, laneBits r ty j =
      match permIndex n (laneVal (rowV s.m 1 t.toNat (rowNo t b)) ty j) with
      | some k => laneBits ra ty k
      | none => 0)) ∧
  (∀ (s : State) (h : Hd) (t : BitVec 2) (d a b u : BitVec 6), guardTrue s.m h = true → t.toNat < tilesOf s.m →
    isAxb (tileType s.m t.toNat) = true →
    let x := rdS s.m 0 a
    let n := rdS s.m 1 b
    let ra := rowV s.m 0 t.toNat (rowNo t a)
    let rd := rowV s.m 2 t.toNat (rowNo t d)
    let stays (r : Row) (j : Nat) : Prop :=
      groupExp r j = groupExp rd j ∧ ∀ i < 15, laneBits r 2 (15 * j + i) = laneBits rd 2 (15 * j + i)
    (∃ r, exec (.vSel h t d a b) s = .next { s with m := putRowAt s.m (rowNo t d) (vLandAt s.m t.toNat 2) r } ∧
      ∀ j < 4, (∀ i < 15, valIsZero (laneVal ra 2 (15 * j + i)) = true) → stays r j) ∧
    (∃ vs, vs.length = 60 ∧ exec (.vPerm h t d a b) s = .next { s with m := vWrite s.m t d 3 false vs }) ∧
    (x.pois = false → exec (.vBcast h t d a) s =
      .next { s with m := vWrite s.m t d 2 false (List.replicate 60 (fpDecode fp32 (x.val.toNat % 2 ^ 32))) }) ∧
    (n.pois = false → n.val.toNat < 60 → exec (.vGet h t d a b) s =
      .next { s with m := vWrite s.m t d 3 false (List.replicate 60 (laneVal ra 2 n.val.toNat)) }) ∧
    (x.pois = false → n.pois = false → n.val.toNat < 60 → ∃ r,
      exec (.vPut h t d a b) s = .next { s with m := putRowAt s.m (rowNo t d) (vLandAt s.m t.toNat 2) r } ∧
      ∀ j < 4, j ≠ n.val.toNat / 15 → stays r j) ∧
    (u.toNat < tilesOf s.m → ∃ vs, vs.length = 60 ∧
      exec (.vMov h t d a u) s = .next { s with m := vWrite s.m t d 2 false vs }))

/-- spec/22 R342: the frame of the V words: one that does not trap leaves memory, every register of every context, and
every row but its destination row as they were. -/
def Obligations.VWordFrame : Prop :=
  ∀ (i : Instr) (s u : State) (t : BitVec 2) (d : BitVec 6), vDest i = some (t, d) → s.m.iss.trapped = false →
    exec i s = .next u → u.m.iss.trapped = false →
    (∀ a, readByte u.m.mem a = readByte s.m.mem a) ∧ u.trust = s.trust ∧
    { u.m with cores := [] } = { s.m with cores := [] } ∧
    (∀ c key, (c ≠ s.m.iss.core ∨ key ≠ rowNo t d) →
      rowFinal (getCore u.m c) key = rowFinal (getCore s.m c) key) ∧
    (∀ c key, smGet 0 (getCore u.m c).tiles key = smGet 0 (getCore s.m c).tiles key) ∧
    (∀ c i, (getCtx u.m c i).sregs = (getCtx s.m c i).sregs ∧ (getCtx u.m c i).preds = (getCtx s.m c i).preds ∧
      (getCtx u.m c i).bregs = (getCtx s.m c i).bregs ∧ (getCtx u.m c i).flight = (getCtx s.m c i).flight ∧
      (getCtx u.m c i).pc = (getCtx s.m c i).pc ∧ (getCtx u.m c i).cause = (getCtx s.m c i).cause)

/-! ### L words -/

/-- spec/21 R312, R321, spec/05 R91, spec/04 R81, R82: l.ld at EA = s(a) + sext(imm3) × size: with the access allowed and
no fence holding it, it sends one load of its bytes into the issue queue and marks its destinations pending; a refusal
traps with FADDR = EA, or with the speculative flag poisons the destinations and goes on.

spec/21 R312, R328, spec/05 R91: l.st at EA = s(a) + sext(imm3) × size: one store action with the low bytes of s(d)
(of the pair s(d), s(d+1) for 16 bytes) at the bytes of EA.

spec/21 R312 step 2: an address that is not a multiple of the access size raises alignment (0x0A) with FADDR the
address and FINFO naming the word, and nothing of the access happens. -/
def Obligations.LoadsAndStores : Prop :=
  (∀ (s : State) (h : Hd) (d a : BitVec 6) (sz : BitVec 3) (i : BitVec 3), guardTrue s.m h = true → sz.toNat ≤ 4 →
    (rdS s.m 0 a).pois = false →
    let size : Nat := 2 ^ sz.toNat
    let va := (rdS s.m 0 a).val + BitVec.ofInt 64 (i.toInt * size)
    let ds := if size = 16 then [d, d + 1] else [d]
    (∀ m1 pa mir sp, access s.m va size size accRead true = (m1, .ok pa mir) →
      heldByFence m1 1 (fun x => covers m1 x m1.iss.core pa) = false →
      exec (.lLd h d a sz sp i) s = .next ⟨addActs
          (addPend m1 ⟨m1.tag, .load (pa % 16) size, (ds.filter (· != 0)).map .s, 1, [], [], false, sp, none, va, finfoHere m1⟩)
          [{ tag := 0, kind := .ld, gran := pa / 16 * 16, mask := byteMask (pa % 16) size, va := va, spec := sp }], s.trust⟩) ∧
    (∀ m1 c f, access s.m va size size accRead true = (m1, .fail c f) →
      exec (.lLd h d a sz false i) s = .next { s with m := trapAt m1 c va f none } ∧
      exec (.lLd h d a sz true i) s = .next { s with m := specPoison m1 va ds c }) ∧
    (∀ m1 sp, access s.m va size size accRead true = (m1, .stall) →
      exec (.lLd h d a sz sp i) s = .next { s with m := stallBundle m1 })) ∧
  (∀ (s : State) (h : Hd) (d a : BitVec 6) (sz i : BitVec 3), guardTrue s.m h = true → sz.toNat ≤ 4 →
    (rdS s.m 0 a).pois = false → (rdS s.m 1 d).pois = false → (sz.toNat = 4 → (rdS s.m 2 (d + 1)).pois = false) →
    let size : Nat := 2 ^ sz.toNat
    let va := (rdS s.m 0 a).val + BitVec.ofInt 64 (i.toInt * size)
    let x := ((rdS s.m 1 d).val.toNat + (if sz.toNat = 4 then (rdS s.m 2 (d + 1)).val.toNat * 2 ^ 64 else 0)) % 256 ^ size
    (∀ m1 pa mir, access s.m va size size accWrite false = (m1, .ok pa mir) →
      heldByFence m1 2 (fun y => covers m1 y m1.iss.core pa) = false →
      exec (.lSt h d a sz i) s = .next ⟨addActs m1 [{ tag := 0, kind := .st, gran := pa / 16 * 16, mask := byteMask (pa % 16) size, data := BitVec.ofNat 128 (x * 256 ^ (pa % 16)), va := va, mir := mir }], s.trust⟩) ∧
    (∀ m1 c f, access s.m va size size accWrite false = (m1, .fail c f) →
      exec (.lSt h d a sz i) s = .next { s with m := trapAt m1 c va f none })) ∧
  (∀ (s : State) (h : Hd) (d a b : BitVec 6) (sz i : BitVec 3) (z : Bool), guardTrue s.m h = true → sz.toNat ≤ 4 →
    (rdS s.m 0 a).pois = false →
    let va := (rdS s.m 0 a).val + BitVec.ofInt 64 (i.toInt * 2 ^ sz.toNat)
    let v0 := (rdS s.m 0 a).val
    (va.toNat % 2 ^ sz.toNat ≠ 0 →
      exec (.lLd h d a sz false i) s = .next { s with m := trapA s.m 0x0A va } ∧
      ((rdS s.m 1 d).pois = false → (sz.toNat = 4 → (rdS s.m 2 (d + 1)).pois = false) →
        exec (.lSt h d a sz i) s = .next { s with m := trapA s.m 0x0A va })) ∧
    (v0.toNat % (if z then 4 else 8) ≠ 0 → (rdS s.m 1 b).pois = false →
      exec (.lAmoAdd h d a b z) s = .next { s with m := trapA s.m 0x0A v0 } ∧
      exec (.lAmoSwap h d a b z) s = .next { s with m := trapA s.m 0x0A v0 }) ∧
    (v0.toNat < 4096 → (rdS s.m 1 b).pois = false → (rdS s.m 1 b).val.toNat % 32 ≠ 0 →
      exec (.lWin h d a b) s = .next { s with m := trapA s.m 0x0A (rdS s.m 1 b).val }))

/-- spec/21 R316, R317, Table 21-3: the atomics at s(a), of 4 or 8 bytes (l.cas 8 or 16): one action with its operand,
and the old value pending for s(d). That l.cas with d = 0 compares with zeros, of 16 bytes too, is log 55.

What an atomic computes from the old bytes of its granule, and that it leaves the granule's other bytes: spec/21
Table 21-3 (l.amo: sum, AND, OR, XOR, signed minimum and maximum, swap) and R317 (l.cas).

spec/11 R191: an atomic on HBM reads the newest content of its granule, writes the next position (l.cas only where it
matches) and gives the old bytes to its destinations, as one event.

spec/11 R191, spec/12 R213: one l.radd block at its adder, first among those of its block: the block of 15 FP32 values
takes the sums (which NaN a sum gives is log 12); a block of another format or scale is left as it is. -/
def Obligations.Atomics : Prop :=
  (∀ (s : State) (h : Hd) (d a b : BitVec 6) (z : Bool), guardTrue s.m h = true →
    (rdS s.m 0 a).pois = false →
    let va := (rdS s.m 0 a).val
    let n := if z then 4 else 8
    let k := if z then 16 else 8
    let amo (op : Nat) (m1 : Mach) (pa : Nat) (mir : Bool) : Mach :=
      startAtomic m1 va pa n mir [d] (.amo op (pa % 16) n (BitVec.ofNat 64 ((rdS s.m 1 b).val.toNat % 256 ^ n)))
    (∀ m1 pa mir, (rdS s.m 1 b).pois = false → access s.m va n n accAtomic true = (m1, .ok pa mir) →
      heldByFence m1 3 (fun y => covers m1 y m1.iss.core pa) = false →
      exec (.lAmoAdd h d a b z) s = .next { s with m := amo 0 m1 pa mir } ∧
      exec (.lAmoAnd h d a b z) s = .next { s with m := amo 1 m1 pa mir } ∧
      exec (.lAmoOr h d a b z) s = .next { s with m := amo 2 m1 pa mir } ∧
      exec (.lAmoXor h d a b z) s = .next { s with m := amo 3 m1 pa mir } ∧
      exec (.lAmoMin h d a b z) s = .next { s with m := amo 4 m1 pa mir } ∧
      exec (.lAmoMax h d a b z) s = .next { s with m := amo 5 m1 pa mir } ∧
      exec (.lAmoSwap h d a b z) s = .next { s with m := amo 6 m1 pa mir }) ∧
    (∀ m1 pa mir, (rdS s.m 1 d).pois = false → (rdS s.m 3 b).pois = false →
      (z = true → (rdS s.m 2 (d + 1)).pois = false ∧ (rdS s.m 4 (b + 1)).pois = false) →
      access s.m va k k accAtomic true = (m1, .ok pa mir) →
      heldByFence m1 3 (fun y => covers m1 y m1.iss.core pa) = false →
      exec (.lCas h d a b z) s = .next ⟨startAtomic m1 va pa k mir (if z then [d, d + 1] else [d])
          (.cas (pa % 16) k
            (BitVec.ofNat 128 (if d = 0 then 0
              else if z then (rdS s.m 1 d).val.toNat + (rdS s.m 2 (d + 1)).val.toNat * 2 ^ 64
              else (rdS s.m 1 d).val.toNat))
            (BitVec.ofNat 128 (if z then (rdS s.m 3 b).val.toNat + (rdS s.m 4 (b + 1)).val.toNat * 2 ^ 64
              else (rdS s.m 3 b).val.toNat))), s.trust⟩)) ∧
  ((∀ (a : Act) (old : Gran) (op lo n : Nat) (v : Word), a.kind = .amo op lo n v → (n = 4 ∨ n = 8) → lo + n ≤ 16 →
    op < 7 →
    let x := granBytes old lo n
    let y := v.toNat % 2 ^ (8 * n)
    ∃ new, atomicNew a old = some new ∧
      (∀ j, j < lo ∨ lo + n ≤ j → granBytes new j 1 = granBytes old j 1) ∧
      (op = 0 → granBytes new lo n = (x + y) % 2 ^ (8 * n)) ∧ (op = 1 → granBytes new lo n = x &&& y) ∧
      (op = 2 → granBytes new lo n = x ||| y) ∧ (op = 3 → granBytes new lo n = x ^^^ y) ∧
      (op = 4 → sextInt (granBytes new lo n) (8 * n) = min (sextInt x (8 * n)) (sextInt y (8 * n))) ∧
      (op = 5 → sextInt (granBytes new lo n) (8 * n) = max (sextInt x (8 * n)) (sextInt y (8 * n))) ∧
      (op = 6 → granBytes new lo n = y)) ∧
  (∀ (a : Act) (old want new : Gran) (lo n : Nat), a.kind = .cas lo n want new → (n = 8 ∨ n = 16) → lo + n ≤ 16 →
    (granBytes old lo n ≠ granBytes want 0 n → atomicNew a old = none) ∧
    (granBytes old lo n = granBytes want 0 n → ∃ g, atomicNew a old = some g ∧
      granBytes g lo n = granBytes new 0 n ∧ ∀ j, j < lo ∨ lo + n ≤ j → granBytes g j 1 = granBytes old j 1))) ∧
  (∀ (s : State) (agent idx : Nat) (a : Act), s.m.phase = .running → (getAgent s.m agent).iq[idx]? = some a →
    isAtomic a.kind = true → targetOf s.m a.gran = .hbm → canLeave s.m agent (getAgent s.m agent).iq idx = true →
    (∀ x ∈ (getAgent s.m agent).pend ++ adderActs s.m agent, sameGran x a = false) → granBad s.m a.gran = false →
    a.mir = false → agentIsLanding agent = false → keyDiffers s.m (actKey s.m a) a.gran = false →
    let old := readGran s.m.mem a.gran
    ∃ m' : Mach, exec (.atomicApply agent idx) s = .next { s with m := m' } ∧
      (∀ new, atomicNew a old = some new → m'.step = s.m.step + 1 ∧
        (∀ j < 16, readByte m'.mem (a.gran + j) =
          if a.mask.getLsbD j then BitVec.ofNat 8 (new.toNat / 256 ^ j) else readByte s.m.mem (a.gran + j))) ∧
      (atomicNew a old = none → m'.mem = s.m.mem ∧ m'.step = s.m.step) ∧
      (∀ b, (b < a.gran ∨ a.gran + 16 ≤ b) → readByte m'.mem b = readByte s.m.mem b) ∧
      (∀ p ∈ (getCtx s.m (agentCore agent) (agentSub agent)).pend, p.tag = a.tag → ∀ lo n, p.use = .load lo n →
        ∃ q ∈ (getCtx m' (agentCore agent) (agentSub agent)).pend, q.tag = a.tag ∧ q.known = true ∧
          q.vals = loadVals old lo n p.dst)) ∧
  (∀ (s : State) (die idx agent : Nat) (a : Act) (lanes : BitVec 480), s.m.phase = .running →
    (smGet [] s.m.adders die)[idx]? = some (agent, a) → a.kind = .radd lanes →
    (∀ x ∈ (smGet [] s.m.adders die).take idx, sameGran x.2 a = false) →
    (∀ x ∈ (getAgent s.m agent).pend, ¬(x.tag < a.tag ∧ sameGran x a = true)) → a.mir = false →
    (∀ i < 4, keyDiffers s.m (actKey s.m a) (a.gran + 16 * i) = false) →
    let m1 := { s.m with adders := smPut [] s.m.adders die ((smGet [] s.m.adders die).eraseIdx idx) }
    let old := blockOf ((List.range 4).map (fun i => readGran s.m.mem (a.gran + 16 * i)))
    ((∀ i < 4, granBad s.m (a.gran + 16 * i) = false) → blkFault old = none → blkFMT old = 0x50 → blkSCL old = 0x78 →
      ∃ b, exec (.raddBlockApply die idx) s = .next { s with m := commitBlock m1 agent (actKey s.m a) a.gran b } ∧
        blkFMT b = 0x50 ∧ blkSCL b = 0x78 ∧ blkAUX b = 0 ∧ blkCHK b = blkCheck b ∧
        ∀ i < 15, blkElem b ⟨15, 32, .fp fp32⟩ i = fpConv fp32 false (valAdd (fpDecode fp32 (blkElem old ⟨15, 32, .fp fp32⟩ i))
          (fpDecode fp32 (lanes.toNat / 2 ^ (32 * i) % 2 ^ 32)))) ∧
    ((∀ i < 4, granBad s.m (a.gran + 16 * i) = false) → blkFault old = none → (blkFMT old ≠ 0x50 ∨ blkSCL old ≠ 0x78) →
      exec (.raddBlockApply die idx) s = .next { s with m := refuseAct m1 agent a 0x18 a.finfo }))

/-- spec/21 R330, R331, R329, R323: l.vld sends loads of the block at EA = s(a) + 256 × off3, keeps the places of the blocks
after it in its queue (vldRest), and marks its row pending;
l.vst stores the row's blocks, in the tile's own type or converted by FMTO0 or FMTO1; l.stash stores a whole tile,
plain and turned; l.radd sends the four reductions of an A32F row to HBM. A tile the core does not have raises
allocation-range, an EA that is not a multiple of 64 alignment with FADDR = EA, another type of l.radd operand-range.

spec/21 R329, spec/09 R177: l.stash: the 64 rows of a tile, each as the blocks of its row under FMTO0 from s(a) on,
then the 60 columns of the tile's first 60 rows under FMTO1 with a chosen scale, from s(b) on. -/
def Obligations.RowMemoryWords : Prop :=
  (∀ (s : State) (h : Hd) (t : BitVec 2) (r a b : BitVec 6) (o : BitVec 3) (f : BitVec 2), guardTrue s.m h = true →
    (rdS s.m 0 a).pois = false → (rdS s.m 1 b).pois = false →
    let va := (rdS s.m 0 a).val + BitVec.ofNat 64 (256 * o.toNat)
    let ty := tileType s.m t.toNat
    let row := rowAt s.m 2 (rowNo t r)
    let fo := fmtoOf (if f = 1 then s.m.iss.snap.fmto0 else s.m.iss.snap.fmto1)
    let bs := if f = 0 then tileBlocks ty (tileSat s.m t.toNat) row else rowBlocks fo (laneVals row ty)
    (tilesOf s.m ≤ t.toNat →
      exec (.lVld h t r a o) s = .next { s with m := trapW s.m 0x11 } ∧
      exec (.lVst h t r a o f) s = .next { s with m := trapW s.m 0x11 } ∧
      exec (.lRadd h t r a o) s = .next { s with m := trapW s.m 0x11 } ∧
      exec (.lStash h t a b) s = .next { s with m := trapW s.m 0x11 }) ∧
    (t.toNat < tilesOf s.m →
      (∀ m1 pa mir, access s.m va 64 64 accRead true = (m1, .ok pa mir) →
        heldByFence m1 1 (fun x => covers m1 x m1.iss.core pa) = false →
        exec (.lVld h t r a o) s = .next ⟨addActs
          (addPend m1 ⟨m1.tag, .row (rowNo t r), [], 4, [], [{ val := precOf m1.iss.snap t.toNat }], false, false, none, va,
            finfoHere m1⟩) (blockActs .ld pa 0 va mir 0 ++ vldRest m1 (precOf m1.iss.snap t.toNat) va), s.trust⟩) ∧
      (∀ m1 ps, (f ≠ 0 → fmtoBad fo = false) → va.toNat % 64 = 0 →
        reachAll s.m accWrite false (blockVas va bs.1.length) = (m1, .ok ps) →
        heldByFence m1 2 (fun x => ps.any (fun q => covers m1 x m1.iss.core q.2.1)) = false → bs.2 = false →
        exec (.lVst h t r a o f) s = .next { s with m := storeBlocks m1 ps bs.1 }) ∧
      (∀ m1 ps, va.toNat % 64 = 0 → ty = 0 → raddReach s.m (blockVas va 4) = (m1, .ok ps) →
        heldByFence m1 2 (fun x => ps.any (fun q => covers m1 x m1.iss.core q.2.1)) = false →
        exec (.lRadd h t r a o) s = .next ⟨addActs m1 (ps.zipIdx.map (fun e =>
          { tag := 0, part := e.2, kind := .radd (BitVec.ofNat 480 (row.data.toNat / 2 ^ (480 * e.2))),
            gran := e.1.2.1, mask := 0xFFFF, va := e.1.1, mir := e.1.2.2 })), s.trust⟩) ∧
      (va.toNat % 64 = 0 → ty ≠ 0 → exec (.lRadd h t r a o) s = .next { s with m := trapW s.m 0x1A }) ∧
      (va.toNat % 64 ≠ 0 →
        exec (.lVld h t r a o) s = .next { s with m := trapA s.m 0x0A va } ∧
        (f = 0 → exec (.lVst h t r a o f) s = .next { s with m := trapA s.m 0x0A va }) ∧
        exec (.lRadd h t r a o) s = .next { s with m := trapA s.m 0x0A va }))) ∧
  (∀ (s : State) (h : Hd) (t : BitVec 2) (a b : BitVec 6), guardTrue s.m h = true → t.toNat < tilesOf s.m →
    (rdS s.m 0 a).pois = false → (rdS s.m 1 b).pois = false →
    let va := (rdS s.m 0 a).val
    let vb := (rdS s.m 1 b).val
    let f0 := fmtoOf s.m.iss.snap.fmto0
    let f1 := fmtoOf s.m.iss.snap.fmto1
    let rows := (List.range 64).map (fun r => laneVals (rowAt s.m 2 (64 * t.toNat + r)) (tileType s.m t.toNat))
    let plain := rows.map (rowBlocks f0)
    let turned := (List.range 60).map (fun n =>
      rowBlocks { f1 with smode := 1 } ((rows.take 60).map (fun r => r.getD n (.num false 0 1 0))))
    let bs := ((plain ++ turned).map (·.1)).flatten
    let na := (plain.map (fun x => x.1.length)).foldl (· + ·) 0
    fmtoBad f0 = false → fmtoBad { f1 with smode := 1 } = false → va.toNat % 64 = 0 → vb.toNat % 64 = 0 →
    ∀ m1 ps, reachAll s.m accWrite false (blockVas va na ++ blockVas vb (bs.length - na)) = (m1, .ok ps) →
      heldByFence m1 2 (fun x => ps.any (fun q => covers m1 x m1.iss.core q.2.1)) = false →
      (plain ++ turned).any (·.2) = false →
      exec (.lStash h t a b) s = .next { s with m := storeBlocks m1 ps bs })

/-- spec/21 R315, R319, R324, spec/08 R150, R152, R153: l.alloc with a legal request queues it, with s(d) pending;
l.free and l.renew act on the LIVE entry of the context whose base s(a) names, else raise allocation-range; the
requests that the spec refuses trap by their causes.

spec/21 R332, spec/08 R157: l.win loads the 32 bytes of a window entry at s(b) for window s(a), with s(d) pending, whatever
fence is open (it has no fence class, Table 21-1);
s(a) at or above 4,096 raises operand-range. -/
def Obligations.AllocationAndWindows : Prop :=
  (∀ (s : State) (h : Hd) (d a b : BitVec 6), guardTrue s.m h = true → (rdS s.m 0 a).pois = false →
    (rdS s.m 1 b).pois = false →
    let x := (rdS s.m 0 a).val
    let y := (rdS s.m 1 b).val
    let n := x.toNat % 2 ^ 17
    let sw := x.toNat / 2 ^ 17 % 8
    let room := 2 ^ 22 - spbase (getCore s.m s.m.iss.core).partw
    let life := tretOf s.m s.m.iss.core
    (x.toNat < 2 ^ 20 → y.toNat < 2 ^ 32 → sw ≠ 7 → n ≠ 0 → 64 * n ≤ room → y.toNat ≠ 0 → y.toNat ≤ life →
      exec (.lAlloc h d a b) s = .next ⟨addActs
        (addPend s.m ⟨s.m.tag, .regs, (([d] : List (BitVec 6)).filter (· != 0)).map .s, 0, [], [], false, false, none, 0,
          finfoHere s.m⟩) [{ tag := 0, kind := .alloc n sw y.toNat }], s.trust⟩) ∧
    (2 ^ 20 ≤ x.toNat ∨ 2 ^ 32 ≤ y.toNat → exec (.lAlloc h d a b) s = .next { s with m := trapW s.m 0x1A }) ∧
    (x.toNat < 2 ^ 20 → y.toNat < 2 ^ 32 → sw = 7 → exec (.lAlloc h d a b) s = .next { s with m := trapW s.m 0x18 }) ∧
    (x.toNat < 2 ^ 20 → y.toNat < 2 ^ 32 → sw ≠ 7 → n = 0 ∨ room < 64 * n →
      exec (.lAlloc h d a b) s = .next { s with m := trapW s.m 0x11 }) ∧
    (x.toNat < 2 ^ 20 → y.toNat < 2 ^ 32 → sw ≠ 7 → n ≠ 0 → 64 * n ≤ room → y.toNat = 0 ∨ life < y.toNat →
      exec (.lAlloc h d a b) s = .next { s with m := trapW s.m 0x12 }) ∧
    (ownEntry s.m x = none →
      exec (.lFree h a) s = .next { s with m := trapA s.m 0x11 x } ∧
      (y.toNat < 2 ^ 32 → exec (.lRenew h a b) s = .next { s with m := trapA s.m 0x11 x })) ∧
    (∀ e, ownEntry s.m x = some e →
      exec (.lFree h a) s = .next { s with m := addActs s.m [{ tag := 0, kind := .free e.base }] } ∧
      (y.toNat < 2 ^ 32 → y.toNat ≠ 0 → y.toNat ≤ life → s.m.nowt < e.exp →
        exec (.lRenew h a b) s =
          .next { s with m := addActs s.m [{ tag := 0, kind := .renew e.base y.toNat (s.m.nowt + y.toNat) }] }) ∧
      (y.toNat < 2 ^ 32 → y.toNat ≠ 0 → y.toNat ≤ life → e.exp ≤ s.m.nowt →
        exec (.lRenew h a b) s = .next { s with m := trapA s.m 0x10 x }))) ∧
  (∀ (s : State) (h : Hd) (d a b : BitVec 6), guardTrue s.m h = true → (rdS s.m 0 a).pois = false →
    (rdS s.m 1 b).pois = false →
    let x := (rdS s.m 0 a).val.toNat
    let vb := (rdS s.m 1 b).val
    (x < 4096 → ∀ m1 pa mir, access s.m vb 32 32 accRead true = (m1, .ok pa mir) →
      exec (.lWin h d a b) s = .next ⟨addActs
        (addPend m1 ⟨m1.tag, .win x false, (([d] : List (BitVec 6)).filter (· != 0)).map .s, 2, [], [], false, false, none, vb,
          finfoHere m1⟩)
        [{ partAct .ld pa 16 0 vb mir 0 with aux := 2 }, { partAct .ld (pa + 16) 16 0 vb mir 1 with aux := 2 }], s.trust⟩) ∧
    (4096 ≤ x → exec (.lWin h d a b) s = .next { s with m := trapW s.m 0x1A }))

/-- spec/21 R314, spec/12 R205: l.copy, l.gath, l.rld, l.rst, l.rred and l.mcast, without a completion word (d = 0) or with
one at s(d), whose place is writable: a command whose options are legal, with no fence holding it and fewer than 32
commands of its engine context unfinished, takes the next number of that context and its place in the issue queue
(issueCommand), with s(d) pending; l.rld once its source asks for no wait: no window, or a window whose package has a free
request slot. A completion word's address that is not a multiple of 8 raises alignment, refused options raise
operand-range, an l.rld without a free slot stalls.

What issueCommand does: the command takes number EISS + 1 of its engine context, which becomes EISS; its action
joins the end of the context's issue queue; memory and every other agent's queue stay. -/
def Obligations.EngineWords : Prop :=
  (∀ (s : State) (h : Hd) (d a b : BitVec 6), guardTrue s.m h = true →
    (rdS s.m 0 a).pois = false → (rdS s.m 1 b).pois = false → (rdS s.m 2 d).pois = false →
    let x := (rdS s.m 0 a).val
    let y := (rdS s.m 1 b).val
    let w := (rdS s.m 2 d).val
    let cw : Option Word := if d = 0 then none else some w
    let opt := (optField s.m).toNat
    let core := s.m.iss.core
    let does (i : Instr) (t : Mach) : Prop := exec i s = .next { s with m := t }
    let issues (i : Instr) (kind e : Nat) (m2 : Mach) : Prop :=
      optRefused kind opt x.toNat (d == 0) = false →
      heldByFence m2 (cmdClasses kind opt)
        (fun z => coversCmd m2 z core (issCtx m2).area (ctxOwner (issCtx m2)) kind opt x y cw 0 []) = false →
      smGet 0 (getCore m2 core).eiss e - smGet 0 (getCore m2 core).etl e < 32 → does i (issueCommand m2 kind e d x y cw)
    let refused (i : Instr) (kind : Nat) (m1 : Mach) : Prop :=
      optRefused kind opt x.toNat (d == 0) = true → does i (trapW m1 0x1A)
    (∀ m1, (d = 0 ∧ m1 = s.m ∨ d ≠ 0 ∧ w.toNat % 8 = 0 ∧ ∃ pa mir, reachX s.m w 8 accWrite = (m1, .ok pa mir)) →
      (issues (.lCopy h d a b) 0 (opt / 2 ^ 24 % 2) m1 ∧ issues (.lGath h d a b) 1 2 m1 ∧ issues (.lRst h d a b) 3 3 m1 ∧
        issues (.lRred h d a b) 4 3 m1 ∧ issues (.lMcast h d a b) 5 3 m1) ∧
      (∀ m2, rldSource m1 y (optNblk 2 opt) = (m2, none) → issues (.lRld h d a b) 2 3 m2) ∧
      (∀ m2, optRefused 2 opt x.toNat (d == 0) = false → rldSource m1 y (optNblk 2 opt) = (m2, some .stall) →
        does (.lRld h d a b) (stallBundle m2)) ∧
      (refused (.lCopy h d a b) 0 m1 ∧ refused (.lGath h d a b) 1 m1 ∧ refused (.lRld h d a b) 2 m1 ∧
        refused (.lRst h d a b) 3 m1 ∧ refused (.lRred h d a b) 4 m1 ∧ refused (.lMcast h d a b) 5 m1)) ∧
    (w.toNat % 8 ≠ 0 →
      does (.lCopy h d a b) (trapA s.m 0x0A w) ∧ does (.lGath h d a b) (trapA s.m 0x0A w) ∧
      does (.lRld h d a b) (trapA s.m 0x0A w) ∧ does (.lRst h d a b) (trapA s.m 0x0A w) ∧
      does (.lRred h d a b) (trapA s.m 0x0A w) ∧ does (.lMcast h d a b) (trapA s.m 0x0A w))) ∧
  (∀ (m : Mach) (kind e : Nat) (d : BitVec 6) (a b : Word) (cw : Option Word),
    let m' := issueCommand m kind e d a b cw
    let n := smGet 0 (getCore m m.iss.core).eiss e + 1
    let ag := ctxAgent m.iss.core m.iss.ctx
    smGet 0 (getCore m' m.iss.core).eiss e = n ∧
    (∀ e', e' ≠ e → smGet 0 (getCore m' m.iss.core).eiss e' = smGet 0 (getCore m m.iss.core).eiss e') ∧
    (∃ act : Act, (getAgent m' ag).iq = (getAgent m ag).iq ++ [act] ∧ act.kind = .cmd e a b cw (optField m) kind ∧
      act.cmd = n ∧ act.tag = m.tag) ∧
    (∀ g, g ≠ ag → getAgent m' g = getAgent m g) ∧ m'.mem = m.mem ∧ m'.tag = m.tag + 1)

/-! ### M words -/

/-- spec/21 R337: m.nop: its encoding, its refused bodies, and that it claims nothing, waits for nothing and changes
nothing; on a control core the word is refused. -/
def Obligations.MatrixNop : Prop :=
  decodeTableWord 32 0x30000000 = some (.mNop ⟨false, 0⟩) ∧
  (∀ n < 2 ^ 21, n ≠ 0 → decodeTableWord 32 (0x30000000 + n) = none) ∧
  (∀ (s : State) (h : Hd), exec (.mNop h) s = .next s) ∧
  (∀ (ws : List FWord) (k pkt pos : Nat), bodyBad true ws k ⟨0x30000000, pkt, pos⟩ = true)

/-- spec/09 R162: an M word other than m.nop, and b.wrst of an unpoisoned s(a) to a PREC, issued while another context holds
the array stalls its bundle and does nothing else.

spec/21 R334, R341, spec/09 R172, R175: m.clear empties the four partial sets and both stages; m.swap exchanges ACTIVE
and SHADOW; each claims the array and changes nothing else of it.

What the completion of an M word leaves: the issuing core's array is the one given, with the issuing context as its
holder, and no fill; memory, tiles, the other cores' arrays and every register of every context are unchanged.

spec/09 R166, spec/21 R338: m.prec of a legal value on a drained set, or with keep where only widths change, sets
PREC T and empties both stages; an undrained set without keep, or a change of sign, expansion or type, raises
undrained (0x1D) and an illegal value operand-range.

spec/09 R167, spec/21 R340: m.shape of an own-pool record that the bundle has read: a record within Table 9-4 fills
the slot with cursor 0 and empties the stages of that slot; one outside it empties the slot and raises operand-range. -/
def Obligations.ArrayControl : Prop :=
  (∀ (s : State) (h : Hd) (t : BitVec 2) (a : BitVec 6) (sh : BitVec 3) (w k r e hi : Bool) (p x y : BitVec 4)
    (sp : BitVec 2) (i : Nat), guardTrue s.m h = true → (arrOf s.m).holder = some i → i ≠ s.m.iss.ctx →
    let stalls (j : Instr) : Prop := exec j s = .next { s with m := stallBundle s.m }
    stalls (.mPrec h t a k) ∧ stalls (.mShape h sh a) ∧ stalls (.mPush h sh a w p r sp) ∧ stalls (.mSwap h) ∧
    stalls (.mFeed h t sh a w x y r) ∧ stalls (.mDrain h t k e hi) ∧ stalls (.mClear h) ∧
    ((rdS s.m 0 a).pois = false → stalls (.bWrst h a (0x10 + t.setWidth 10)))) ∧
  (∀ (s : State) (h : Hd), guardTrue s.m h = true → ArrayIsOurs s.m →
    let a := arrOf s.m
    exec (.mClear h) s = .next { s with m := arrayDone s.m { a with sets := [], aStage := none, wStage := none } } ∧
    exec (.mSwap h) s = .next { s with m := arrayDone s.m { a with active := a.shadow, shadow := a.active } }) ∧
  (∀ (m : Mach) (a : Arr),
    let m' := arrayDone m a
    arrOf m' = { a with holder := some m.iss.ctx } ∧ m'.mem = m.mem ∧ m'.agents = m.agents ∧
    (∀ c, c ≠ m.iss.core → getCore m' c = getCore m c) ∧
    (∀ key, smGet 0 (getCore m' m.iss.core).tiles key = smGet 0 (getCore m m.iss.core).tiles key) ∧
    (∀ c i, { getCtx m' c i with fill := none } = { getCtx m c i with fill := none })) ∧
  (∀ (s : State) (h : Hd) (t : BitVec 2) (a : BitVec 6) (keep : Bool), guardTrue s.m h = true → ArrayIsOurs s.m →
    t.toNat < tilesOf s.m → (rdS s.m 0 a).pois = false →
    let q := (rdS s.m 0 a).val
    let p := precOf s.m.iss.snap t.toNat
    let set := smGet {} (arrOf s.m).sets t.toNat
    let same := precSA p = precSA q ∧ precSB p = precSB q ∧ precXA p = precXA q ∧ precXB p = precXB q ∧ acct p = acct q
    (precBad q = true → exec (.mPrec h t a keep) s = .next { s with m := trapW s.m 0x1A }) ∧
    (precBad q = false → set.undrained = true → (keep = false ∨ ¬same) →
      exec (.mPrec h t a keep) s = .next { s with m := trapW s.m 0x1D }) ∧
    (precBad q = false → (set.undrained = false ∨ keep = true ∧ same) → ∃ m' : Mach,
      exec (.mPrec h t a keep) s = .next { s with m := m' } ∧ precOf (issCtx m') t.toNat = q ∧
      (∀ u < 4, u ≠ t.toNat → precOf (issCtx m') u = precOf (issCtx s.m) u) ∧
      (arrOf m').aStage = none ∧ (arrOf m').wStage = none ∧ (arrOf m').holder = some s.m.iss.ctx ∧
      (set.undrained = false → (arrOf m').sets = (arrOf s.m).sets) ∧ m'.mem = s.m.mem)) ∧
  (∀ (s : State) (h : Hd) (sh : BitVec 3) (a : BitVec 6) (pa : Nat), guardTrue s.m h = true → ArrayIsOurs s.m →
    (rdS s.m 0 a).pois = false →
    let va := (rdS s.m 0 a).val
    va.toNat / 2 ^ 60 = 15 → poolDecide s.m s.m.iss.core va.toNat = .ok pa false false →
    targetOf s.m pa = .pool s.m.iss.core → FillHolds s.m [va] →
    let base := poolPa s.m.iss.core (va.toNat % 2 ^ 22)
    let r : BitVec 256 := BitVec.ofNat 256 ((smGet 0 (fillOf s.m).got base).toNat
      + (smGet 0 (fillOf s.m).got (base + 16)).toNat * 2 ^ 128)
    let arr := arrOf s.m
    (recBad r = true → exec (.mShape h sh a) s = .next ⟨trapW (onArr s.m (fun a => { a with slots := smPut {} a.slots sh.toNat {} })) 0x1A, s.trust⟩) ∧
    (recBad r = false → exec (.mShape h sh a) s = .next ⟨arrayDone s.m { arr with
      slots := smPut {} arr.slots sh.toNat ⟨false, r, 0⟩
      aStage := arr.aStage.filter (fun x => x.slot != sh.toNat)
      wStage := arr.wStage.filter (fun x => x.slot != sh.toNat) }, s.trust⟩))

/-- spec/09 R170, R171, spec/21 R339: m.push with a filled slot, dense or sparse: from the held W-stage of its key, or from
rows and column positions that the bundle has read, it loads its plane into SHADOW and moves the cursor by STEP; the refused
forms raise operand-range.

spec/09 R171: what a push loads: bit k of entry i of plane p is bit p of the code of element k of row i; SHADOW records the
orientation, the sparsity, the scale of each row, the positions, and WB, SB and XB of G; its other planes stay where those
that SHADOW had recorded, the positions apart, are those of this push, and are invalid (none) otherwise; nothing else of the
array changes. -/
def Obligations.PushedPlanes : Prop :=
  (∀ (s : State) (h : Hd) (sh : BitVec 3) (a : BitVec 6) (walk : Bool) (p : BitVec 4) (r : Bool) (sp : BitVec 2),
    guardTrue s.m h = true → ArrayIsOurs s.m → (walk = false → (rdS s.m 0 a).pois = false) →
    let arr := arrOf s.m
    let slot := smGet {} arr.slots sh.toNat
    let rc := slot.record
    let g := precOf s.m.iss.snap (recPT rc)
    let base := if walk then slot.cursor else (rdS s.m 0 a).val
    let held := arr.wStage.filter (fun st =>
      st.base == base && st.slot == sh.toNat && st.prec == g && st.rev == r && st.ext == sp.toNat)
    let loaded (st : Stage) : Arr := loadShadow { arr with
      wStage := some st
      slots := smPut {} arr.slots sh.toNat { slot with cursor := base + BitVec.ofNat 64 (recSTEP rc) } } st p.toNat r sp g
    let legal := slot.empty = false ∧ recNK rc ≤ 60 ∧ recNROW rc ≤ 60 ∧ p.toNat < precWB g ∧ ¬(r = true ∧ sp ≠ 0)
    (slot.empty = true → exec (.mPush h sh a walk p r sp) s = .next { s with m := trapW s.m 0x1A }) ∧
    (recPT rc < tilesOf s.m → slot.empty = false → ¬legal →
      exec (.mPush h sh a walk p r sp) s = .next { s with m := trapW s.m 0x1A }) ∧
    (recPT rc < tilesOf s.m → legal → ∀ st, held = some st →
      exec (.mPush h sh a walk p r sp) s = .next { s with m := arrayDone s.m (loaded st) }) ∧
    (recPT rc < tilesOf s.m → legal → held = none → ∀ rows pos,
      FillHolds s.m (firstBlocks rc base) → badBlock s.m (firstBlocks rc base) = none →
      let places := (firstBlocks rc base).zipIdx.map (fun e => rowPlaces rc base (rowEpb s.m e.1) e.2)
      let columns := if sp = 0 then [] else
        (List.range (recNROW rc)).map (fun i => base + BitVec.ofNat 64 (i * recRSTR rc + recMOFF rc))
      FillHolds s.m (places.map blocksOf).flatten →
      expandRows s.m (precWB g) (precXB g) (precSB g) places = .ok rows →
      FillHolds s.m columns → pushPositions s.m sp (recNK rc) columns = .ok pos →
      exec (.mPush h sh a walk p r sp) s =
        .next { s with m := arrayDone s.m (loaded ⟨base, sh.toNat, g, r, sp.toNat, rows, pos⟩) })) ∧
  (∀ (arr : Arr) (st : Stage) (p : Nat) (rev : Bool) (sp : BitVec 2) (g : Word), st.rows.length ≤ 60 →
    let a := loadShadow arr st p rev sp g
    (∀ i k, i < 60 → k < 60 → ((smGet [] a.shadow.planes p).getD i 0).getLsbD k =
      (decide (k < ((st.rows.getD i ([], none)).1).length) &&
        decide ((((st.rows.getD i ([], none)).1.getD k 0) % 65536).toNat / 2 ^ p % 2 = 1))) ∧
    let o := arr.shadow
    let agrees : Prop := o.orient = rev ∧ o.sp = sp ∧ o.wb = precWB g ∧ o.sb = precSB g ∧ o.xb = precXB g ∧
      o.sigma.length = 60 ∧ ∀ i < 60, o.sigma.getD i none = (st.rows.getD i ([], none)).2
    (agrees → ∀ q, q ≠ p → smGet [] a.shadow.planes q = smGet [] o.planes q) ∧
    (¬agrees → ∀ q, q ≠ p → smGet [] a.shadow.planes q = []) ∧
    a.shadow.orient = rev ∧ a.shadow.sp = sp ∧ a.shadow.pos = st.pos ∧ a.shadow.wb = precWB g ∧ a.shadow.sb = precSB g ∧
    a.shadow.xb = precXB g ∧ a.shadow.sigma.length = 60 ∧
    (∀ i < 60, a.shadow.sigma.getD i none = (st.rows.getD i ([], none)).2) ∧ { a with shadow := o } = arr)

/-- spec/09 R164: one beat adds to partial (lane, output), modulo 2^48, plus or minus 2^shift times the number of reduction
elements at which the lane's activation bit and the output's weight bit are both one.

spec/09 R170, R173, spec/21 R336: m.feed with a filled slot and a valid ACTIVE plane of its tile's expansion: from the
held A-stage of its key, or from rows that the bundle has read and expanded, it adds its beat to the tile's partial set,
records the scales and moves the cursor; a plane that is not there raises operand-range. -/
def Obligations.FedBeats : Prop :=
  (∀ (set : PartialSet) (lanes : List Nat) (outs : List (List Nat)) (neg : Bool) (shift l o : Nat),
    lanes.length = 64 → outs.length = 60 → l < 64 → o < 60 → (∀ e ∈ set.parts, e.1 < 3840) → smWf 0 set.parts = true →
    let n : Int := (((outs.getD o []).countP (fun k => (lanes.getD l 0).testBit k) * 2 ^ shift : Nat) : Int)
    smGet 0 (beat set lanes outs neg shift).parts (60 * l + o) =
      smGet 0 set.parts (60 * l + o) + BitVec.ofInt 48 (if neg then -n else n) ∧
    (beat set lanes outs neg shift).undrained = true) ∧
  (∀ (s : State) (h : Hd) (t : BitVec 2) (sh : BitVec 3) (a : BitVec 6) (walk : Bool) (x y : BitVec 4) (r : Bool),
    guardTrue s.m h = true → ArrayIsOurs s.m → (walk = false → (rdS s.m 0 a).pois = false) → t.toNat < tilesOf s.m →
    let arr := arrOf s.m
    let slot := smGet {} arr.slots sh.toNat
    let rc := slot.record
    let p := precOf s.m.iss.snap t.toNat
    let st := arr.active
    let plane := smGet [] st.planes y.toNat
    let kf := if r then 60 else spKf st.sp
    let base := if walk then slot.cursor else (rdS s.m 0 a).val
    let set := smGet {} arr.sets t.toNat
    let held := arr.aStage.filter (fun sg =>
      sg.base == base && sg.slot == sh.toNat && sg.prec == p && sg.rev == r && sg.ext == kf)
    let legal := slot.empty = false ∧ x.toNat < precWA p ∧ y.toNat < precWB p ∧ plane ≠ [] ∧ st.wb = precWB p ∧
      st.sb = precSB p ∧ st.xb = precXB p ∧ ¬(r = true ∧ st.sp ≠ 0) ∧ recNK rc ≤ kf
    let neg := (y.toNat + 1 == precWB p && precSB p) != (x.toNat + 1 == precWA p && precSA p)
    let lanes (rows : List (List Int × Option Dyad)) := padTo 64 ([], none) rows
    let fed (sg : Stage) (outs : List (Option Dyad)) : Arr := { arr with
      aStage := some sg
      slots := smPut {} arr.slots sh.toNat { slot with cursor := base + BitVec.ofNat 64 (recSTEP rc) }
      sets := smPut {} arr.sets t.toNat
        { beat set ((lanes sg.rows).map (fun e => actBits x.toNat e.1)) ((List.range 60).map (outIndexes st plane r)) neg
            (x.toNat + y.toNat) with
          sa := recordScales set.sa ((lanes sg.rows).map (·.2)), sw := recordScales set.sw outs } }
    let agree (sg : Stage) (outs : List (Option Dyad)) : Prop :=
      scaleClash set.sa ((lanes sg.rows).map (·.2)) = false ∧ scaleClash set.sw outs = false
    (¬legal → exec (.mFeed h t sh a walk x y r) s = .next { s with m := trapW s.m 0x1A }) ∧
    (legal → ∀ sg outs, held = some sg → outScales st r = some outs → agree sg outs →
      exec (.mFeed h t sh a walk x y r) s = .next { s with m := arrayDone (meterBeat s.m) (fed sg outs) }) ∧
    (legal → held = none → ∀ rows outs,
      FillHolds s.m (firstBlocks rc base) → badBlock s.m (firstBlocks rc base) = none →
      let places := (firstBlocks rc base).zipIdx.map (fun e => rowPlaces rc base (rowEpb s.m e.1) e.2)
      FillHolds s.m (places.map blocksOf).flatten →
      expandRows s.m (precWA p) (precXA p) (precSA p) places = .ok rows → outScales st r = some outs →
      agree ⟨base, sh.toNat, p, r, kf, rows, []⟩ outs →
      exec (.mFeed h t sh a walk x y r) s =
        .next { s with m := arrayDone (meterBeat s.m) (fed ⟨base, sh.toNat, p, r, kf, rows, []⟩ outs) }))

/-- spec/09 R174, spec/07 R136, R137, R140, spec/21 R335: m.drain of a tile sends 64 rows on their way, to land 12 cycles on (behind
a later result of the same context for the same row: log 19), each the scaled partials of its lane added to (or with accd put
in place of) the old row, clears the set, and raises subnormal-assist 12 cycles on, with the record of its 64 rows, where a lane
is flagged, and only there; with no row result of the tile in flight those rows are
what the tile comes to hold, exponent bytes only on an AXB tile; hi on a 60-lane tile raises operand-range.

spec/07 R136, R137, R140: what a lane takes: on an integer or A32F tile the conversion of old + term (the canonical NaN for a
NaN: log 12), on A16F also the signed zero or the wrapped value of a result in the subnormal range, the latter flagged (which
lanes are subnormal is decided before rounding: log 83); the lanes of the other half stay; an AXB group grows by the smallest
k at which every lane fits, to exponent 127 at most, where the lanes that do not fit are clamped. -/
def Obligations.DrainRows : Prop :=
  (∀ (s : State) (h : Hd) (t : BitVec 2) (neg accd hi : Bool), guardTrue s.m h = true → ArrayIsOurs s.m →
    t.toNat < tilesOf s.m →
    let k := getCore s.m s.m.iss.core
    let p := precOf s.m.iss.snap t.toNat
    let set := smGet {} (arrOf s.m).sets t.toNat
    let terms (r : Nat) : List Val := List.zipWith (fun q w => drainTerm neg q (smGet none set.sa r) w)
      (((smDense 0 set.parts 0 3840).drop (60 * r)).take 60) (smDense none set.sw 0 60)
    let row (r : Nat) : Row × List (Option Nat) :=
      drainRow (acct p) (satOf p) accd hi (rowOld s.m (64 * t.toNat + r)) (terms r)
    (hi = true → lanesOf (acct p) = 60 → exec (.mDrain h t neg accd hi) s = .next { s with m := trapW s.m 0x1A }) ∧
    (hi = false ∨ lanesOf (acct p) = 120 → ∃ m' : Mach,
      exec (.mDrain h t neg accd hi) s = .next { s with m := m' } ∧ m'.mem = s.m.mem ∧
      (∀ r < 64, ∃ f ∈ (getCore m' s.m.iss.core).rowFlight, f.row = 64 * t.toNat + r ∧ f.ctx = s.m.iss.ctx ∧
        f.issued = s.m.cycle ∧ f.data = (row r).1.data ∧ f.exps = (row r).1.exps ∧ s.m.cycle + 12 ≤ f.landAt ∧
        ((∀ g ∈ k.rowFlight, g.row = f.row → g.ctx = f.ctx → g.landAt ≤ s.m.cycle + 12) → f.landAt = s.m.cycle + 12)) ∧
      ((∀ f ∈ k.rowFlight, f.row / 64 ≠ t.toNat) →
        ∀ r < 64, let z := rowFinal (getCore m' s.m.iss.core) (64 * t.toNat + r)
          z.data = (row r).1.data ∧
          z.exps = if isAxb (acct p) then (row r).1.exps else (rowFinal k (64 * t.toNat + r)).exps) ∧
      (∀ f ∈ k.rowFlight, f ∈ (getCore m' s.m.iss.core).rowFlight) ∧
      (∀ key, key / 64 ≠ t.toNat → rowFinal (getCore m' s.m.iss.core) key = rowFinal k key) ∧
      (arrOf m').sets = smPut {} (arrOf s.m).sets t.toNat {} ∧ (arrOf m').holder = some s.m.iss.ctx ∧
      (arrOf m').slots = (arrOf s.m).slots ∧ (arrOf m').active = (arrOf s.m).active ∧
      (let flagged : Prop := ∃ r < 64, ∃ x ∈ (row r).2, x.isSome = true
       (¬flagged → (issCtx m').due = (issCtx s.m).due) ∧
       (flagged → ∃ q : Due, (issCtx m').due = (issCtx s.m).due ++ [q] ∧ q.cause = 0x1B ∧ q.notBefore = s.m.cycle + 12 ∧
         q.assist = some (assistRecord 2 t.toNat 0 1 ((List.range 64).map (fun r => (row r).2))))))) ∧
  (∀ (ty : Nat) (sat accd hi : Bool) (old : Row) (ts : List Val), ts.length = 60 → ty ≤ 4 → isAxb ty = false →
    (hi = true → lanesOf ty = 120) →
    let lo := if hi then 60 else 0
    let r := (drainRow ty sat accd hi old ts).1
    let fl := (drainRow ty sat accd hi old ts).2
    r.exps = old.exps ∧
    (∀ j, j < lanesOf ty → j < lo ∨ lo + 60 ≤ j → laneBits r ty j = laneBits old ty j ∧ fl.getD j none = none) ∧
    (∀ (j : Nat) (t : Val), ts[j]? = some t →
      let x := if accd then t else valAdd (laneVal old ty (lo + j)) t
      let got := laneBits r ty (lo + j)
      let conv (y : Val) : Nat := fpConv (floatOf ty) sat y % 2 ^ laneW ty
      let sub : Prop := ty = 3 ∧ valIsZero x = false ∧ valLt (valAbs x) (.num false 1 1 (-126)) = true
      let flagged : Prop := sub ∧ valLt (.num false 1 1 (-134)) (valAbs x) = true
      (isIntTile ty = true → got = intConv (laneW ty) sat x) ∧
      (isFloatTile ty = true → (valIsNan x = true → got = fpNan (floatOf ty)) ∧ (valIsNan x = false → ¬sub → got = conv x)) ∧
      (flagged → got = conv (valScale x 192)) ∧ (sub → ¬flagged → got = if valNeg x then 0x8000 else 0) ∧
      ((∃ y, fl.getD (lo + j) none = some y) ↔ flagged))) ∧
  (∀ (sat accd hi : Bool) (old : Row) (ts : List Val), ts.length = 60 → (∀ t ∈ ts, ∃ s p q e, t = .num s p q e) → ∀ j < 4,
    let r := (drainRow 2 sat accd hi old ts).1
    let g := if accd then -128 else groupExp old j
    let was (i : Nat) : Int := if accd then 0 else sextInt (laneBits old 2 (15 * j + i)) 32
    let new (k i : Nat) : Int :=
      valRne (valOfInt (was i) (-(k : Int))) + valRne (valScale (ts.getD (15 * j + i) (.inf false)) (-(g + k)))
    let fits (k : Nat) : Prop := ∀ i < 15, (new k i).natAbs ≤ 2 ^ 31 - 1
    let now (i : Nat) : Int := sextInt (laneBits r 2 (15 * j + i)) 32
    (∀ k : Nat, g + k ≤ 127 → fits k → (∀ k' < k, ¬fits k') → groupExp r j = g + k ∧ ∀ i < 15, now i = new k i) ∧
    ((∀ k : Nat, g + k ≤ 127 → ¬fits k) → groupExp r j = 127 ∧
      ∀ i < 15, now i = max (-(2 ^ 31 - 1)) (min (2 ^ 31 - 1) (new (127 - g).toNat i))))

/-! ### B words -/

/-- spec/04 R75, spec/20 R294, R289, R295, R303, R306: taken branches go to word 0 of the packet that b(k) names; b.call
also sends the packet after its bundle to b0 at bound 1; b.ladder takes the first true of its four slots; b.tgt sends
P + off; b.safe marks the bundle safe where no loop is active.

spec/04 R76, spec/20 R297: b.loop with a count of 1 to 2^32 − 1 sets LC, LSTART = q, LEND = q + body − 1, the epilogue
and prologue, and goes to q, the packet after its bundle; with 0 it skips body and epilogue; above 2^32 − 1 it raises
operand-range, within an active loop illegal-encoding. -/
def Obligations.BranchesAndLoops : Prop :=
  (∀ (s : State) (h : Hd) (k p q u v : BitVec 3) (o : BitVec 17), guardTrue s.m h = true →
    let goes (m : Mach) (pkt : W32) : Mach :=
      { modCtx m m.iss.core m.iss.ctx (fun c => { c with pc := pkt, wpos := 0 }) with iss := { m.iss with taken := true } }
    exec (.bJmp h k) s = .next { s with m := goes s.m (rdB s.m 0 k) } ∧
    exec (.bCall h k) s = .next { s with m := putB (goes s.m (rdB s.m 0 k)) 1 0 (BitVec.ofNat 32 s.m.iss.afterPkt) } ∧
    (rdP s.m 0 p = true → exec (.bLadder h p q u v k) s = .next { s with m := goes s.m (rdB s.m 0 k) }) ∧
    (rdP s.m 0 p = false → rdP s.m 1 q = true →
      exec (.bLadder h p q u v k) s = .next { s with m := goes s.m (rdB s.m 1 (k + 1)) }) ∧
    (rdP s.m 0 p = false → rdP s.m 1 q = false → rdP s.m 2 u = true →
      exec (.bLadder h p q u v k) s = .next { s with m := goes s.m (rdB s.m 2 (k + 2)) }) ∧
    (rdP s.m 0 p = false → rdP s.m 1 q = false → rdP s.m 2 u = false → rdP s.m 3 v = true →
      exec (.bLadder h p q u v k) s = .next { s with m := goes s.m (rdB s.m 3 (k + 3)) }) ∧
    (rdP s.m 0 p = false → rdP s.m 1 q = false → rdP s.m 2 u = false → rdP s.m 3 v = false →
      exec (.bLadder h p q u v k) s = .next s) ∧
    (s.m.iss.ks = [] → exec (.bTgt h k o) s =
      .next { s with m := putB s.m 1 k (BitVec.ofNat 32 s.m.iss.pkt + o.signExtend 32) }) ∧
    (s.m.iss.snap.lepi.getLsbD 63 = false →
      exec (.bSafe h) s = .next { s with m := { s.m with iss := { s.m.iss with safe := true } } }) ∧
    (s.m.iss.snap.lepi.getLsbD 63 = true → exec (.bSafe h) s = .next s)) ∧
  (∀ (s : State) (h : Hd) (n b : BitVec 6) (e p : BitVec 4), guardTrue s.m h = true → (rdS s.m 0 n).pois = false →
    let x := (rdS s.m 0 n).val
    let q : W32 := BitVec.ofNat 32 s.m.iss.afterPkt
    (s.m.iss.snap.lepi.getLsbD 63 = true → exec (.bLoop h n b e p) s = .next { s with m := trapW s.m 0x01 }) ∧
    (s.m.iss.snap.lepi.getLsbD 63 = false →
      (2 ^ 32 ≤ x.toNat → exec (.bLoop h n b e p) s = .next { s with m := trapW s.m 0x1A }) ∧
      (x = 0 → exec (.bLoop h n b e p) s = .next ⟨modCtx s.m s.m.iss.core s.m.iss.ctx (fun c =>
        { c with pc := q + BitVec.ofNat 32 (b.toNat + e.toNat), wpos := 0 }), s.trust⟩) ∧
      (x ≠ 0 → x.toNat < 2 ^ 32 → ∃ m' : Mach, exec (.bLoop h n b e p) s = .next { s with m := m' } ∧
        m'.iss = { s.m.iss with looped := true } ∧ m'.mem = s.m.mem ∧
        let c := issCtx m'
        c.lc = x ∧ c.lstart = q.setWidth 64 ∧ c.lend = (q + BitVec.ofNat 32 (b.toNat - 1)).setWidth 64 ∧
        c.lepi.getLsbD 63 = true ∧ c.lepi.toNat % 16 = e.toNat ∧ c.lpro = (q - BitVec.ofNat 32 p.toNat).setWidth 64 ∧
        c.pc = q ∧ c.wpos = 0 ∧ c.sregs = (issCtx s.m).sregs ∧ c.preds = (issCtx s.m).preds ∧ c.bregs = (issCtx s.m).bregs)))

/-- spec/04 R73 and Table 4-4, spec/20 R302: b.rdst sends the state register's value at issue to s(d), bound 2: the
context's own registers as they stood when the bundle issued, an EISS without the command that the bundle itself has
issued, those of the core, of its cluster and of the clock as they stand; on a control core the registers that R284 names
read zero.

spec/04 R73, R75, spec/20 R310: b.wrst of an unpoisoned s(a): TRAPBASE takes 32 bits, MAXGAP 32 bits up to the LPB's
limit (above it privilege, 0x03), FMTO0 and FMTO1 their defined bits, each changing that one register of the issuing
context; PRECn acts as m.prec on tile n without keep, on the partial set as it stood when the bundle issued (spec/04 R64):
undrained (0x1D) where it was not drained, operand-range for an illegal value. That an m.drain or m.clear of the same bundle
does not count there is log 84.

spec/20 R310, R284, spec/08 R155: WINBASE of a control core: aligned, with every core's cached windows of the
partition to be invalidated. -/
def Obligations.StateRegisters : Prop :=
  (∀ (s : State) (h : Hd) (d : BitVec 6), guardTrue s.m h = true → isControl s.m.iss.core = false →
    let reads (n : BitVec 10) (v : Word) : Prop := exec (.bRdst h d n) s = .next { s with m := putS s.m 2 d { val := v } }
    let c := s.m.iss.snap
    let k := getCore s.m s.m.iss.core
    reads 0x000 k.partw ∧ reads 0x001 (BitVec.ofNat 64 (s.m.iss.ctx + (if c.arr then 16 else 0))) ∧
    reads 0x002 c.unitid ∧ reads 0x003 c.launchid ∧ reads 0x004 c.gidx0 ∧ reads 0x005 c.gidx1 ∧ reads 0x006 c.gidx2 ∧
    reads 0x008 (BitVec.ofNat 64 s.m.nowt) ∧ reads 0x009 (BitVec.ofNat 64 (tretOf s.m s.m.iss.core)) ∧
    reads 0x00A c.maxgap ∧ reads 0x00B c.gapcnt ∧ reads 0x010 c.prec0 ∧ reads 0x011 c.prec1 ∧ reads 0x012 c.prec2 ∧
    reads 0x013 c.prec3 ∧ reads 0x018 (BitVec.ofNat 64 (smGet 0 k.etl 0)) ∧ reads 0x019 (BitVec.ofNat 64 (smGet 0 k.etl 1)) ∧
    reads 0x01A (BitVec.ofNat 64 (smGet 0 k.etl 2)) ∧ reads 0x01B (BitVec.ofNat 64 (smGet 0 k.etl 3)) ∧
    (∀ e : BitVec 2, let n := smGet 0 k.eiss e.toNat
      reads (0x01C + e.setWidth 10) (BitVec.ofNat 64 (if s.m.iss.issuedTo = some e.toNat then n - 1 else n))) ∧
    reads 0x048 (BitVec.ofNat 64 (k.rqDest * 2 ^ 32 + (8 - smGet 0 k.rqUsed k.rqDest))) ∧
    (∃ v : Word, reads 0x060 v ∧
      (∀ i < 18, v.getLsbD i = smGet false s.m.retired (18 * clusterOf s.m.iss.core + i)) ∧
      (∀ i, 18 ≤ i → i < 32 → v.getLsbD i = false) ∧ v.toNat / 2 ^ 32 % 2 ^ 8 = k.spareBanks % 4 ∧
      v.toNat / 2 ^ 40 =
        (List.range 64).countP (fun p => smGet false s.m.portsDown p || (smGet {} s.m.links p).down)) ∧
    reads 0x061 (BitVec.ofNat 64 (k.scanTick % 2 ^ 32 * 2 ^ 32 + k.scanPasses % 2 ^ 32)) ∧
    reads 0x020 c.lc ∧ reads 0x021 c.lstart ∧ reads 0x022 c.lend ∧ reads 0x023 c.lepi ∧ reads 0x024 c.lpro ∧
    reads 0x025 c.lsave ∧ reads 0x030 c.cause ∧ reads 0x031 c.epc ∧ reads 0x032 c.faddr ∧ reads 0x033 c.finfo ∧
    reads 0x034 c.trapbase ∧ reads 0x040 c.csb ∧ reads 0x041 c.fmto0 ∧ reads 0x042 c.fmto1 ∧ reads 0x070 c.ownerReg ∧
    reads 0x071 c.slice ∧ reads 0x072 c.hbudget) ∧
  (∀ (s : State) (h : Hd) (d : BitVec 6), guardTrue s.m h = true → isControl s.m.iss.core = true →
    ∀ n ∈ ([0x000, 0x002, 0x003, 0x004, 0x005, 0x006, 0x009, 0x010, 0x011, 0x012, 0x013, 0x048, 0x060, 0x061, 0x071] :
        List (BitVec 10)),
      exec (.bRdst h d n) s = .next { s with m := putS s.m 2 d {} }) ∧
  (∀ (s : State) (h : Hd) (a : BitVec 6), guardTrue s.m h = true → isControl s.m.iss.core = false →
    (rdS s.m 0 a).pois = false →
    let x := (rdS s.m 0 a).val
    let sets (n : BitVec 10) (f : Ctx → Ctx) : Prop :=
      exec (.bWrst h a n) s = .next { s with m := modCtx s.m s.m.iss.core s.m.iss.ctx f }
    sets 0x034 (fun c => { c with trapbase := (x.setWidth 32).setWidth 64 }) ∧
    sets 0x041 (fun c => { c with fmto0 := x &&& 0xFFFF07FF }) ∧ sets 0x042 (fun c => { c with fmto1 := x &&& 0xFFFF07FF }) ∧
    (x.toNat % 2 ^ 32 ≤ (issCtx s.m).gapLimit.toNat % 2 ^ 32 →
      sets 0x00A (fun c => { c with maxgap := (x.setWidth 32).setWidth 64 })) ∧
    ((issCtx s.m).gapLimit.toNat % 2 ^ 32 < x.toNat % 2 ^ 32 →
      exec (.bWrst h a 0x00A) s = .next { s with m := trapW s.m 0x03 }) ∧
    (ArrayIsOurs s.m → ∀ t : BitVec 2, t.toNat < tilesOf s.m →
      let n : BitVec 10 := 0x10 + t.setWidth 10
      let set := smGet {} s.m.iss.arr.sets t.toNat
      (s.m.iss.arr = arrOf s.m → exec (.bWrst h a n) s = exec (.mPrec h t a false) s) ∧
      (precBad x = true → exec (.bWrst h a n) s = .next { s with m := trapW s.m 0x1A }) ∧
      (precBad x = false → set.undrained = true → exec (.bWrst h a n) s = .next { s with m := trapW s.m 0x1D }) ∧
      (precBad x = false → set.undrained = false → ∃ m' : Mach, exec (.bWrst h a n) s = .next { s with m := m' } ∧
        precOf (issCtx m') t.toNat = x ∧ (∀ u < 4, u ≠ t.toNat → precOf (issCtx m') u = precOf (issCtx s.m) u) ∧
        arrOf m' = { arrOf s.m with aStage := none, wStage := none, holder := some s.m.iss.ctx } ∧ m'.mem = s.m.mem))) ∧
  (∀ (s : State) (h : Hd) (a : BitVec 6), guardTrue s.m h = true → (rdS s.m 0 a).pois = false →
    let p := clusterOf s.m.iss.core
    ∃ m' : Mach, exec (.bWrst h a 0x050) s = .next { s with m := m' } ∧
      (getPart m' p).winbase = BitVec.ofNat 64 ((rdS s.m 0 a).val.toNat % 2 ^ 52 / 2 ^ 17 * 2 ^ 17) ∧
      (∀ q, q ≠ p → getPart m' q = getPart s.m q) ∧ m'.invals = s.m.invals ++ [⟨p, true, 0, true, 0⟩] ∧
      m'.mem = s.m.mem ∧ m'.tag = s.m.tag + 1)

/-- spec/11 R193, R196, R197, R198, R199, spec/12 R212, spec/20 R293, R298, R304, R308, R286, R288: a fence joins the issue
queue; b.open, b.twait and b.bwait whose condition holds raise the context's views and go on, else they wait; b.shut
joins the queue with s(d) pending; b.arm adds to a barrier; a sluice that is not declared raises 0x38.

spec/11 R193, R194, R195, R196, R201: a fence behind nothing but accesses that its scope does not cover, its predecessors
complete, goes and raises the agent's views: with loads among its successors of all covered granules to the newest, with
arrivals among its predecessors past the payloads that had arrived; a shut at the head, the context's earlier writes to the
sluice's granules committed, moves the version on by one and records the newest positions; else neither goes. -/
def Obligations.OrderingWords : Prop :=
  (∀ (s : State) (h : Hd), guardTrue s.m h = true →
    let ag := ctxAgent s.m.iss.core s.m.iss.ctx
    let core := getCore s.m s.m.iss.core
    (∀ (p c : BitVec 5) (x : BitVec 3), exec (.bFence h p c x) s = .next ⟨addActs s.m
      [{ tag := 0, kind := .fence p c x.toNat, aux := core.arrived.length }], s.trust⟩) ∧
    (∀ k : BitVec 4,
      (smGet 0 core.bars k.toNat = 0 → exec (.bBwait h k) s = .next ⟨addSync (raiseViews s.m ag
        ((core.barWrites.filter (fun w => w.bar == k.toNat)).map (fun w => (w.gran, w.pos)))), s.trust⟩) ∧
      (smGet 0 core.bars k.toNat ≠ 0 →
        exec (.bBwait h k) s = .next { s with m := waitBundle s.m (.barrier s.m.iss.core k.toNat) })) ∧
    (∀ a : BitVec 6, (rdS s.m 0 a).pois = false →
      let v := (rdS s.m 0 a).val
      let sl := sluiceOf s.m (issCtx s.m).area v.toNat
      (∀ b : BitVec 6, (rdS s.m 1 b).pois = false →
        (2 ^ 16 ≤ v.toNat ∨ sl.declared = false → exec (.bOpen h a b) s = .next { s with m := trapW s.m 0x38 }) ∧
        (v.toNat < 2 ^ 16 → sl.declared = true →
          ((rdS s.m 1 b).val.toNat ≤ sl.version.toNat →
            exec (.bOpen h a b) s = .next { s with m := addSync (raiseViews s.m ag sl.recd) }) ∧
          (sl.version.toNat < (rdS s.m 1 b).val.toNat →
            exec (.bOpen h a b) s = .next { s with m := waitBundle s.m (.sluice v.toNat (rdS s.m 1 b).val) }))) ∧
      (∀ d : BitVec 6,
        (2 ^ 16 ≤ v.toNat ∨ sl.declared = false ∨ sl.version = -1 →
          exec (.bShut h d a) s = .next { s with m := trapW s.m 0x38 }) ∧
        (v.toNat < 2 ^ 16 → sl.declared = true → sl.version ≠ -1 → exec (.bShut h d a) s = .next ⟨addActs
          (addPend s.m ⟨s.m.tag, .regs, (([d] : List (BitVec 6)).filter (· != 0)).map .s, 0, [], [], false, false, none, 0,
            finfoHere s.m⟩) [{ tag := 0, kind := .shut v.toNat }], s.trust⟩)) ∧
      (∀ e : BitVec 2,
        let n := mapCmd (issCtx s.m) e.toNat v.toNat
        (v = 0 ∨ n ≤ smGet 0 core.etl e.toNat → exec (.bTwait h e a) s = .next ⟨addSync (raiseViews s.m ag
          ((core.engWrites.filter (fun w => w.e == e.toNat && w.num ≤ n && v != 0)).map (fun w => (w.gran, w.pos)))), s.trust⟩) ∧
        (v ≠ 0 → smGet 0 core.etl e.toNat < n →
          exec (.bTwait h e a) s = .next { s with m := waitBundle s.m (.timeline s.m.iss.core e.toNat n) })) ∧
      (∀ k : BitVec 4,
        (2 ^ 39 ≤ v.toNat → exec (.bArm h k a) s = .next { s with m := trapW s.m 0x1A }) ∧
        (v.toNat < 2 ^ 39 → ∃ m' : Mach, exec (.bArm h k a) s = .next { s with m := m' } ∧ m'.mem = s.m.mem ∧
          smGet 0 (getCore m' s.m.iss.core).bars k.toNat = smGet 0 core.bars k.toNat + v.setWidth 40 ∧
          (∀ j, j ≠ k.toNat → smGet 0 (getCore m' s.m.iss.core).bars j = smGet 0 core.bars j) ∧
          (issCtx m').armMark =
            if v = 0 then (issCtx s.m).armMark else (issCtx s.m).armMark ||| BitVec.ofNat 16 (2 ^ k.toNat))))) ∧
  (∀ (s : State) (agent idx : Nat) (a : Act), s.m.phase = .running → (getAgent s.m agent).iq[idx]? = some a →
    (∀ pred succ scope, a.kind = .fence pred succ scope →
      let may : Prop := (∀ x ∈ (getAgent s.m agent).iq.take idx,
          fencePasses s.m (agentCore agent) scope x = true) ∧ fenceReady s.m agent a.tag pred scope = true
      (¬may → exec (.fenceComplete agent idx) s = .next s) ∧
      (may → ∃ m' : Mach, exec (.fenceComplete agent idx) s = .next { s with m := m' } ∧
        (getAgent m' agent).iq = dropSyncs ((getAgent s.m agent).iq.eraseIdx idx) ∧ m'.mem = s.m.mem ∧
        (getAgent m' agent).seen = s.m.step ∧
        (succ.getLsbD 0 = true → ∀ g, smGet [] s.m.hist g ≠ [] → covers s.m scope (agentCore agent) g = true →
          newestPos s.m g ≤ viewOf m' agent g) ∧
        (pred.getLsbD 4 = true → ∀ e ∈ (getCore s.m (agentCore agent)).arrived.take a.aux,
          covers s.m scope (agentCore agent) e.1 = true → e.2 ≤ viewOf m' agent e.1) ∧
        (∀ b g, b ≠ agent → viewOf m' b g = viewOf s.m b g))) ∧
    (∀ n, a.kind = .shut n →
      let rs := (((getPart s.m a.area).regions.filter (fun r => r.sluice == n)).map (regionRanges s.m a.area)).flatten
      let meets (x : Act) : Prop := inRegions rs x.gran = true ∨
        ∃ lanes, x.kind = .radd lanes ∧ ∃ o ∈ [16, 32, 48], inRegions rs (x.gran + o) = true
      let may : Prop := idx = 0 ∧ ∀ x ∈ flying s.m agent, ¬(x.tag < a.tag ∧ isWrite x.kind = true ∧ meets x)
      let sl := sluiceOf s.m a.area n
      (¬may → exec (.shutCommit agent idx) s = .next s) ∧
      (may → ∃ m' : Mach, exec (.shutCommit agent idx) s = .next { s with m := m' } ∧
        (sluiceOf m' a.area n).version = sl.version + 1 ∧ (sluiceOf m' a.area n).declared = sl.declared ∧
        (∀ g, smGet [] s.m.hist g ≠ [] → inRegions rs g = true → (g, newestPos s.m g) ∈ (sluiceOf m' a.area n).recd) ∧
        (∀ k, k ≠ n → sluiceOf m' a.area k = sluiceOf s.m a.area k) ∧ m'.step = s.m.step + 1 ∧
        (getAgent m' agent).iq = dropSyncs ((getAgent s.m agent).iq.eraseIdx 0) ∧ m'.mem = s.m.mem)))

/-- spec/02 R42 and Table 2-10, spec/20 R299: b.pop on a declared work queue of the unit's owner takes the oldest entry that
no earlier waiter is to have (that an entry is kept for an earlier waiter, from a b.pop with nb too, is log 55), with p = 1; of a closed empty queue it gives 1 and p = 0; with no entry it gives 0 and p =
0 at once, or waits. Every other queue raises 0x39.

spec/03 Table 3-3, spec/20 R301, R296, R300: b.push appends its value (or closes the queue) where the queue is open and
not full and says so in p; b.launch of a 64-byte aligned LPB and b.post join the issue queue, behind the context's
earlier writes; on an arrival context both raise illegal-encoding. -/
def Obligations.QueueWords : Prop :=
  (∀ (s : State) (h : Hd) (d a : BitVec 6) (n : Bool) (p : BitVec 3), guardTrue s.m h = true →
    (rdS s.m 0 a).pois = false →
    let x := (rdS s.m 0 a).val
    let q := getQueue s.m x.toNat
    let me := (s.m.iss.core, s.m.iss.ctx)
    let j := (q.waiters.idxOf? me).getD q.waiters.length
    let ours := x.toNat < 4096 ∧ (getQueue s.m (x.toNat % 4096)).declared = true ∧
      (getQueue s.m (x.toNat % 4096)).work = true ∧ (getQueue s.m (x.toNat % 4096)).owner = ctxOwner (issCtx s.m)
    (¬ours → exec (.bPop h d a n p) s = .next { s with m := trapW s.m 0x39 }) ∧
    (ours →
      (∀ v, q.entries[j]? = some v → exec (.bPop h d a n p) s = .next ⟨popResult
        (setQueue s.m x.toNat { q with entries := q.entries.eraseIdx j, waiters := q.waiters.filter (· != me) }) d p v true, s.trust⟩) ∧
      (q.entries[j]? = none → q.closed = true → exec (.bPop h d a n p) s = .next ⟨popResult
        (setQueue s.m x.toNat { q with waiters := q.waiters.filter (· != me) }) d p 1 false, s.trust⟩) ∧
      (q.entries[j]? = none → q.closed = false → n = true →
        exec (.bPop h d a n p) s = .next { s with m := popResult s.m d p 0 false }) ∧
      (q.entries[j]? = none → q.closed = false → n = false → ∃ m' : Mach,
        exec (.bPop h d a n p) s = .next { s with m := m' } ∧ m'.iss.held = true ∧
        (issCtx m').wait = some (.queue x.toNat) ∧ (issCtx m').st = .waiting ∧ me ∈ (getQueue m' x.toNat).waiters))) ∧
  (∀ (s : State) (h : Hd) (d a b : BitVec 6) (l : Bool) (p : BitVec 3) (sl : BitVec 4) (k : BitVec 2),
    guardTrue s.m h = true → (rdS s.m 0 a).pois = false → (l = false → (rdS s.m 1 b).pois = false) →
    let x := (rdS s.m 0 a).val
    let q := getQueue s.m x.toNat
    let room := q.closed = false ∧ q.entries.length < q.depth
    (queueBad s.m (ctxOwner (issCtx s.m)) x = false →
      (room → exec (.bPush h a b l p) s = .next ⟨knownPend (setQueue s.m x.toNat
        { q with closed := q.closed || l, entries := if l then q.entries else q.entries ++ [(rdS s.m 1 b).val] })
        [(.p p, { val := 1 })], s.trust⟩) ∧
      (¬room → exec (.bPush h a b l p) s = .next { s with m := knownPend s.m [(.p p, { val := 0 })] })) ∧
    (queueBad s.m (ctxOwner (issCtx s.m)) x = true → exec (.bPush h a b l p) s = .next { s with m := trapW s.m 0x39 }) ∧
    (isArrival s.m = true →
      exec (.bLaunch h d a) s = .next { s with m := trapW s.m 0x01 } ∧
      exec (.bPost h sl k a) s = .next { s with m := trapW s.m 0x01 }) ∧
    (isArrival s.m = false →
      exec (.bPost h sl k a) s = .next { s with m := addActs s.m [{ tag := 0, kind := .post sl.toNat k.toNat x }] } ∧
      (x.toNat % 64 ≠ 0 → exec (.bLaunch h d a) s = .next { s with m := trapA s.m 0x0A x }) ∧
      (x.toNat % 64 = 0 → exec (.bLaunch h d a) s = .next ⟨addActs
        (addPend s.m ⟨s.m.tag, .regs, (([d] : List (BitVec 6)).filter (· != 0)).map .s, 0, [], [], false, false, none, 0,
          finfoHere s.m⟩) [{ tag := 0, kind := .launch x }], s.trust⟩)))

/-- spec/02 R38, R39, R40, R41, spec/20 R292, R305, R290: b.exit, b.susp and b.cancel mark the bundle as the unit's last; a
unit that a cancel has reached before its b.exit issues ends CANCELLED; b.susp
waits with its bundle held until the writes of earlier bundles are done (not their fences and commands: log 33) and a record
slot is free, then
keeps its resume packet, wait condition, s63 and s1 for the record; b.cancel of level 0 cancels the unit alone, whose commands
and those it left behind are asked to stop, of a level above it the node there. On an arrival context b.susp and b.cancel
raise illegal-encoding.

spec/20 R309 and spec/02 Table 2-4: b.wait on a declared object of the unit's own goes on where its condition holds
(a later action leaves after it), else it waits with its bundle held; a malformed, undeclared or foreign object raises
0x38 (a sluice) or 0x39.

spec/17 R249, spec/20 R307, R287, R291: b.trap and b.brk raise their traps after their bundle; b.eret in trap mode leaves
it and goes on at EPC; outside trap mode a context that no frame started raises privilege (0x03); a context that a
frame started stalls until the stores of earlier bundles are committed; then its bundle is its last, and when the bundle
completes the context held with that frame is released and this one is Dormant; where that context is no longer held, the
record of the frame becomes ready. A release that is refused traps, and releases nothing. -/
def Obligations.EndingAndTrapWords : Prop :=
  (∀ (s : State) (h : Hd) (k j l : BitVec 3) (a b : BitVec 6), guardTrue s.m h = true →
    let ends (m : Mach) (f : Ctx → Ctx) : Mach :=
      { modCtx m m.iss.core m.iss.ctx f with iss := { m.iss with ended := true } }
    let x := (rdS s.m 0 a).val
    let uses := k = 1 ∨ k = 2
    let cancels (c : Ctx) : Ctx := { c with ending := some .cancelled, cancelled := true }
    exec (.bExit h) s = .next { s with m := ends s.m (fun c =>
      { c with ending := some (if c.cancelled then .cancelled else .ok) }) } ∧
    (isArrival s.m = true →
      exec (.bSusp h k a b j) s = .next { s with m := trapW s.m 0x01 } ∧
      exec (.bCancel h l) s = .next { s with m := trapW s.m 0x01 }) ∧
    (isArrival s.m = false →
      ((issCtx s.m).unit = none → exec (.bCancel h l) s = .next { s with m := ends s.m cancels }) ∧
      (∀ u, (issCtx s.m).unit = some u →
        exec (.bCancel h 0) s =
          .next { s with m := ends (stopOrphans (stopCmds s.m s.m.iss.core s.m.iss.ctx true) u.orphans) cancels } ∧
        (l ≠ 0 → exec (.bCancel h l) s =
          .next { s with m := ends (cancelNode s.m (nodeAtLevel s.m u.launch l.toNat)) cancels })) ∧
      ((rdS s.m 0 a).pois = false → (rdS s.m 2 1).pois = false → (rdS s.m 3 63).pois = false →
        (uses → (rdS s.m 1 b).pois = false) →
        (2 ^ 24 ≤ x.toNat ∨ wobjBad k.toNat x.toNat = true →
          exec (.bSusp h k a b j) s = .next { s with m := trapW s.m (if k = 1 then 0x38 else 0x39) }) ∧
        (x.toNat < 2 ^ 24 → wobjBad k.toNat x.toNat = false →
          let r : Susp := ⟨(rdB s.m 0 j).toNat, k.toNat, x.toNat, if uses then (rdS s.m 1 b).val else 0,
            (rdS s.m 3 63).val, (rdS s.m 2 1).val⟩
          (suspReady s.m s.m.iss.core s.m.iss.ctx s.m.iss.tag0 = true →
            exec (.bSusp h k a b j) s = .next { s with m := ends s.m (fun c => { c with susp := some r }) }) ∧
          (suspReady s.m s.m.iss.core s.m.iss.ctx s.m.iss.tag0 = false →
            exec (.bSusp h k a b j) s = .next { s with m := waitBundle s.m .susp }))))) ∧
  (∀ (s : State) (h : Hd) (k : BitVec 3) (a b : BitVec 6), guardTrue s.m h = true → 1 ≤ k.toNat → k.toNat ≤ 4 →
    (rdS s.m 0 a).pois = false → (k.toNat ≤ 2 → (rdS s.m 1 b).pois = false) →
    let x := (rdS s.m 0 a).val.toNat
    let v : Word := if k.toNat ≤ 2 then (rdS s.m 1 b).val else 0
    let c := issCtx s.m
    let bad := 2 ^ 24 ≤ x ∨ wobjBad k.toNat x = true ∨ wobjForeign s.m c.area (ctxOwner c) k.toNat x = true
    (bad → exec (.bWait h k a b) s = .next { s with m := trapW s.m (if k = 1 then 0x38 else 0x39) }) ∧
    (¬bad → waitHolds s.m c.area k.toNat x v = true → exec (.bWait h k a b) s = .next { s with m := addSync s.m }) ∧
    (¬bad → waitHolds s.m c.area k.toNat x v = false →
      exec (.bWait h k a b) s = .next { s with m := waitBundle s.m (waitOf k.toNat x v) })) ∧
  (∀ (s : State) (h : Hd) (k : BitVec 8), guardTrue s.m h = true →
    let c := issCtx s.m
    let after (cause : Byte) (f : Word) : Mach := { s.m with iss := { s.m.iss with post := s.m.iss.post ++ [(cause, f)] } }
    exec (.bTrap h k) s = .next { s with m := after 0x40 (k.setWidth 64) } ∧
    exec (.bBrk h) s = .next { s with m := after 0x41 (placeWord s.m.iss.pkt0 s.m.iss.pos0) } ∧
    (causeTm c.cause = true → ∃ m' : Mach, exec (.bEret h) s = .next { s with m := m' } ∧
      causeTm (issCtx m').cause = false ∧ (issCtx m').pc = c.epc.setWidth 32 ∧
      (issCtx m').wpos = c.epc.toNat / 2 ^ 32 % 4 ∧ (issCtx m').sregs = c.sregs ∧ (issCtx m').epc = c.epc ∧
      (issCtx m').lepi = c.lepi ∧ m'.iss.taken = true ∧ m'.iss.eret = true ∧ m'.mem = s.m.mem) ∧
    (causeTm c.cause = false → c.started = none → exec (.bEret h) s = .next { s with m := trapW s.m 0x03 }) ∧
    (∀ va hc hi, causeTm c.cause = false → c.started = some (va, hc, hi) →
      let ag := ctxAgent s.m.iss.core s.m.iss.ctx
      let w := whoOf s.m s.m.iss.core s.m.iss.ctx
      let last : Mach := { s.m with iss := { s.m.iss with ended := true, rel := some (va, hc, hi) } }
      let held := holdsFrame (getCtx s.m hc hi) va = true ∧ (getCtx s.m hc hi).pre = none
      (agentQuiet s.m ag s.m.iss.tag0 = false → exec (.bEret h) s = .next { s with m := stallBundle s.m }) ∧
      (agentQuiet s.m ag s.m.iss.tag0 = true → ¬held → exec (.bEret h) s = .next { s with m := last }) ∧
      (agentQuiet s.m ag s.m.iss.tag0 = true → held →
        (∀ m1, releaseFrame s.m ag w hc hi va (afterEpc hc hi) = .ok m1 → exec (.bEret h) s = .next { s with m := last }) ∧
        (∀ x f, releaseFrame s.m ag w hc hi va (afterEpc hc hi) = .error (x, f) → exec (.bEret h) s = .next ⟨trapAt s.m x f
          (if x = 0x08 ∨ x = 0x09 then refusedT s.m w f else finfoHere s.m) none, s.trust⟩)))) ∧
  (∀ (m : Mach) (last : FWord) (va : Word) (hc hi : Nat), m.iss.ended = true → m.iss.rel = some (va, hc, hi) →
    let core := m.iss.core
    let i := m.iss.ctx
    let t := traceBundle m core i m.iss.snap m.iss.pkt0 m.iss.pos0
    let held := holdsFrame (getCtx m hc hi) va = true ∧ (getCtx m hc hi).pre = none
    (¬held → finishBundle m last =
      freeCtx (readyParked t va (releaserCtx t core i) (fun c x _ => c == hc && x == hi)) core i false) ∧
    (held → ∀ m1, releaseFrame t (ctxAgent core i) (whoOf m core i) hc hi va (afterEpc hc hi) = .ok m1 →
      finishBundle m last = freeCtx m1 core i false))

/-! ### The ordering machine and the engines -/

/-- spec/11 R185, R186, R187, spec/01 R12, R17: a store that may leave goes to its agent's pending writes, or to the port of
the pool it names, and is refused where nothing is there any longer; a pending write that neither an earlier one nor an
earlier add of its granule precedes commits, but for one of less than an uncorrectable granule, which is refused with 0x19
(spec/21 R312); the port of a pool applies the oldest action in it.

spec/11 R184, R186, R188, spec/19 R278: a committed write: the bytes its mask names take its data, every other byte of memory
reads as before; its granule's history grows by one, at the next commit step; the writing agent's view is the newest.

spec/11 R186, R188: what a load of HBM can bind: an agent reads a granule at any position from its view to the newest,
under its own pending writes; the position becomes its view, and the load's destinations take the bytes they asked for.

spec/19 R281: a write that goes through a page stands under the key of the page, which is the key that its granule has from
then on; what another key wrote before reads as a free value there (log 75), what the same key wrote reads as written. -/
def Obligations.WritesAndLoads : Prop :=
  ((∀ (s : State) (agent idx : Nat) (a : Act), s.m.phase = .running → (getAgent s.m agent).iq[idx]? = some a →
    a.kind = .st → canLeave s.m agent (getAgent s.m agent).iq idx = true →
    let left := leaves s.m agent idx
    (targetOf s.m a.gran = .hbm → exec (.issueQueueLeave agent idx) s =
      .next { s with m := modAgent left agent (fun x => { x with pend := x.pend ++ [a] }) }) ∧
    (∀ p, targetOf s.m a.gran = .pool p → exec (.issueQueueLeave agent idx) s =
      .next { s with m := modCore left p (fun k => { k with port := k.port ++ [(agent, a)] }) }) ∧
    (targetOf s.m a.gran = .none → exec (.issueQueueLeave agent idx) s =
      .next { s with m := refuseAct left agent a 0x09 (finfoT 7 3) })) ∧
  (∀ (s : State) (agent idx : Nat) (a : Act), s.m.phase = .running → (getAgent s.m agent).pend[idx]? = some a →
    let first : Prop := (∀ x ∈ (getAgent s.m agent).pend.take idx, x.gran ≠ a.gran) ∧
      ∀ x ∈ adderActs s.m agent, ¬(x.tag < a.tag ∧ sameGran x a = true)
    (¬first → exec (.pendingCommit agent idx) s = .next s) ∧
    (first → agentIsEngine agent = false → agentIsLanding agent = false → a.mir = false →
      let m1 := modAgent s.m agent (fun x => { x with pend := x.pend.eraseIdx idx })
      (granBad s.m a.gran = false ∨ a.mask = 0xFFFF →
        exec (.pendingCommit agent idx) s = .next { s with m := commitKeyed m1 agent (actKey m1 a) a.gran a.mask a.data }) ∧
      (granBad s.m a.gran = true → a.mask ≠ 0xFFFF →
        exec (.pendingCommit agent idx) s = .next { s with m := refuseAct m1 agent a 0x19 a.finfo }))) ∧
  (∀ (s : State) (pool agent : Nat) (a : Act) (rest : List (Nat × Act)), s.m.phase = .running →
    (getCore s.m pool).port = (agent, a) :: rest → agentIsCtx agent = true → agentCore agent = pool → a.mir = false →
    targetOf s.m a.gran ≠ .none →
    let m1 := setCore s.m pool { getCore s.m pool with port := rest }
    (a.kind = .st →
      exec (.portApply pool) s = .next { s with m := commitKeyed m1 agent (actKey m1 a) a.gran a.mask a.data }) ∧
    (a.kind = .ld → exec (.portApply pool) s = .next { s with m := bindTo m1 agent a (granNow m1 a.gran) }))) ∧
  (∀ (m : Mach) (a g : Nat) (mask : BitVec 16) (data : Gran),
    let m' := commitWrite m a g mask data
    (∀ j < 16, readByte m'.mem (g + j) =
      if mask.getLsbD j then BitVec.ofNat 8 (data.toNat / 256 ^ j) else readByte m.mem (g + j)) ∧
    (∀ b, (b < g ∨ g + 16 ≤ b) → readByte m'.mem b = readByte m.mem b) ∧
    m'.step = m.step + 1 ∧ newestPos m' g = newestPos m g + 1 ∧
    (∀ h, h ≠ g → histOf m' h = histOf m h) ∧ viewOf m' a g = max (viewOf m a g) (newestPos m' g) ∧
    (∀ b h, b ≠ a → viewOf m' b h = viewOf m b h) ∧
    (g ∈ m.poisoned → (g ∈ m'.poisoned ↔ mask ≠ 0xFFFF)) ∧ { m' with
      mem := m.mem, hist := m.hist, agents := m.agents, step := m.step, poisoned := m.poisoned, keyed := m.keyed } = m) ∧
  (∀ (m : Mach) (a : Nat) (key : Option Nat) (g : Nat) (mask : BitVec 16) (data : Gran),
    let m' := commitKeyed m a key g mask data
    (∀ j < 16, mask.getLsbD j = true → readByte m'.mem (g + j) = BitVec.ofNat 8 (data.toNat / 256 ^ j)) ∧
    (∀ b, (b < g ∨ g + 16 ≤ b) → readByte m'.mem b = readByte m.mem b) ∧
    (∀ k, key = some k → g < 0x8000000000 → smGet 0 m'.keyed g = k) ∧
    (∀ h, h ≠ g → smGet 0 m'.keyed h = smGet 0 m.keyed h) ∧
    (keyDiffers m key g = false ∨ mask = 0xFFFF →
      { m' with keyed := m.keyed } = { commitWrite m a g mask data with keyed := m.keyed })) ∧
  (∀ (m : Mach) (key : Option Nat) (g : Nat) (x : Gran), keyDiffers m key g = false → seenGran m key g x = x) ∧
  ((∀ (s : State) (agent idx pos : Nat) (a : Act), s.m.phase = .running → (getAgent s.m agent).iq[idx]? = some a →
    a.kind = .ld → targetOf s.m a.gran = .hbm → canLeave s.m agent (getAgent s.m agent).iq idx = true →
    agentIsLanding agent = false →
    (viewOf s.m agent a.gran ≤ pos ∧ pos ≤ newestPos s.m a.gran → granBad s.m a.gran = false →
      exec (.loadBind agent idx pos) s = .next ⟨bindTo (raiseView (leaves s.m agent idx) agent a.gran pos) agent a
        (overPending (getAgent s.m agent) a.gran (seenGran s.m (actKey s.m a) a.gran (contentAt s.m a.gran pos))),
        s.trust⟩) ∧
    (viewOf s.m agent a.gran ≤ pos ∧ pos ≤ newestPos s.m a.gran → granBad s.m a.gran = true →
      exec (.loadBind agent idx pos) s = .next { s with m := refuseAct (leaves s.m agent idx) agent a 0x19 a.finfo }) ∧
    (¬(viewOf s.m agent a.gran ≤ pos ∧ pos ≤ newestPos s.m a.gran) → exec (.loadBind agent idx pos) s = .next s)) ∧
  (∀ (m : Mach) (g : Nat), contentAt m g (newestPos m g) = readGran m.mem g) ∧
  (∀ (m : Mach) (agent : Nat) (a : Act) (g : Gran) (p : Pend) (lo n : Nat) (r : BitVec 6), n ≤ 8 → lo + n ≤ 16 →
    agentIsLanding agent = false → p ∈ (getCtx m (agentCore agent) (agentSub agent)).pend → p.tag = a.tag → p.use = .load lo n → p.dst = [.s r] →
    ∃ q ∈ (getCtx (bindTo m agent a g) (agentCore agent) (agentSub agent)).pend, q.tag = p.tag ∧ q.known = true ∧
      q.vals = [{ val := BitVec.ofNat 64 (g.toNat / 256 ^ lo % 256 ^ n) }]))

/-- spec/04 R67, R70, spec/09 R169, spec/02 R29: a scoreboarded result whose values are known lands in its registers and
lets the context go on; the last that a held context awaits lets its frame be written (spec/17 R246; that the frame waits for
it, and for the results in flight for its rows, is log 11, and for a page that is MOVING R160); exposed results whose bound has passed land; a fill with every granule bound is done; a wait
whose condition holds ends, unless a cancel or a request of pre-emption has reached its context (spec/02 R41, spec/17 R251).

spec/08 R158, R160, R161: a page walk takes its miss from the queue and keeps what it found; an invalidation joins the
list of the five destinations, each of which acknowledges once no cached translation and no access under way on its
die uses what it names; with the fifth it is gone; a migration begins by setting MOVING in the leaf. -/
def Obligations.LandingAndTranslation : Prop :=
  ((∀ (s : State) (core i : Nat) (p : Pend), s.m.phase = .running →
    (getCtx s.m core i).pend.find? (fun q => q.tag == p.tag) = some p → p.known = true → p.bad = none →
    (p.use = .regs ∨ ∃ lo n, p.use = .load lo n) → (∀ x, (getCtx s.m core i).hold = some x → x.owed = none) → ∃ m' : Mach,
    exec (.scoreboardLand core i p.tag) s = .next { s with m := m' } ∧ m'.mem = s.m.mem ∧
      (getCtx m' core i).pend = (getCtx s.m core i).pend.filter (fun q => q.tag != p.tag) ∧
      (getCtx m' core i).st = (if (getCtx s.m core i).st = .stalled then .ready else (getCtx s.m core i).st) ∧
      (∀ (r : BitVec 6) (v : Scalar), r ≠ 0 → p.dst = [.s r] → p.vals = [v] →
        smGet {} (getCtx m' core i).sregs r.toNat = v ∧
        ∀ k, k ≠ r.toNat → smGet {} (getCtx m' core i).sregs k = smGet {} (getCtx s.m core i).sregs k)) ∧
  (∀ (s : State) (core i : Nat) (p : Pend) (x : Hold) (tile : Option Nat) (m2 : Mach), s.m.phase = .running →
    (getCtx s.m core i).pend = [p] → p.known = true → p.use = .regs → (getCtx s.m core i).hold = some x → x.owed = some tile →
    (getCtx s.m core i).landBy ≤ s.m.cycle →
    heldWrite (landPend s.m core i p) (whoOf (landPend s.m core i p) core i) x.frame 16640 = false →
    writeFrame (landPend s.m core i p) core i x.frame tile = .ok m2 →
    exec (.scoreboardLand core i p.tag) s = .next ⟨notifyTarget (modCtx m2 core i (fun c =>
      { c with hold := some { x with owed := none } })) core i x.cc x.frame x.cause, s.trust⟩) ∧
  (∀ (s : State) (core i : Nat), s.m.phase = .running →
    exec (.resultLand core i) s = .next ⟨modCtx (modCore s.m core (fun k => landRowsDue k s.m.cycle)) core i
      (fun c => landDue c s.m.cycle), s.trust⟩) ∧
  (∀ (s : State) (core i : Nat) (f : Fill), s.m.phase = .running → (getCtx s.m core i).fill = some f →
    (∀ g ∈ f.want, ∃ x, (g, x) ∈ f.got) → ∃ m' : Mach,
    exec (.operandFillDone core i) s = .next { s with m := m' } ∧
      (getCtx m' core i).fill = some { f with done := true } ∧ m'.mem = s.m.mem) ∧
  (∀ (s : State) (core i : Nat) (w : Wait), s.m.phase = .running → (getCtx s.m core i).st = .waiting →
    (getCtx s.m core i).wait = some w →
    let goes : Prop := waitDone s.m core i w = true ∧ (getCtx s.m core i).cancelled = false ∧ (getCtx s.m core i).pre = none
    (goes → exec (.waitSatisfied core i) s =
      .next { s with m := setCtx s.m core i { getCtx s.m core i with st := .ready, wait := none } }) ∧
    (¬goes → exec (.waitSatisfied core i) s = .next s))) ∧
  ((∀ (s : State) (cl idx : Nat) (q : Miss), s.m.phase = .running → (getCluster s.m cl).miss[idx]? = some q →
    let t := if q.win then walkWindow s.m q.part q.page else walkPage s.m q.part (q.page * 65536)
    exec (.pageWalk cl idx) s = .next ⟨wakeCluster (fillTr (setCluster s.m cl
      { getCluster s.m cl with miss := (getCluster s.m cl).miss.eraseIdx idx }) cl t) cl, s.trust⟩) ∧
  (∀ (s : State) (part : Nat) (page : Word), s.m.phase = .running →
    exec (.invalidation part page) s = .next ⟨{ s.m with invals := s.m.invals ++ [⟨part,
      page.toNat / 2 ^ 60 == 14, if page.toNat / 2 ^ 60 = 14 then page.toNat / 2 ^ 48 % 4096 else page.toNat / 65536,
      false, 0⟩] }, s.trust⟩) ∧
  (∀ (s : State) (dest : Nat) (v : Inval), s.m.phase = .running → dest < 5 →
    s.m.invals.find? (fun x => !(x.acks.getLsbD dest)) = some v →
    (dest = 4 ∨ dieQuiet (discardTr s.m dest v) dest v = true) → ∃ m' : Mach,
    exec (.invalidationAck dest) s = .next { s with m := m' } ∧ m'.mem = s.m.mem ∧
      (∀ x ∈ m'.invals, x.acks ≠ 31) ∧
      (dest < 4 → ∀ c t, dieOf c = dest → t ∈ (getCore m' c).tc → namesTr v t = false)) ∧
  (∀ (s : State) (part pte level : Nat) (va newPa : Word), s.m.phase = .running → s.m.migration = none →
    partLeaf s.m part va.toNat = some (pte, level) →
    newPa.toNat % 2 ^ pageShift level = 0 → newPa.toNat + 2 ^ pageShift level ≤ 0x8000000000 →
    pteBit (readNat s.m.mem pte 8) 7 = false →
    leafPa (readNat s.m.mem pte 8) + 2 ^ pageShift level ≤ 0x8000000000 → ∃ m' : Mach,
    exec (.pageMigration part va newPa) s = .next { s with m := m' } ∧
      m'.mem = (commitNat s.m hiveAgent pte 8 (readNat s.m.mem pte 8 + 128)).mem ∧
      m'.invals = s.m.invals ++ [⟨part, false, va.toNat / 65536, false, 0⟩] ∧ m'.migration.isSome = true))

/-- spec/12 R203, R207, R208, spec/14 R223: a command of every kind starts once, copies and gathers in the order of their
numbers and behind what has reached the port of a pool that they read: a copy
or multi-block command with aligned addresses starts with its block count; a misaligned one fails with CAUSE 0x0A and
does nothing more.

spec/12 R207, R208, spec/11 R190: a step of a copy under way: a granule of its next block is read into the
command's buffer, from a pool or from HBM at a position that may be read; with all four there, the block is handed on as four
writes at its destination, and the command goes to its next block: the blocks in increasing order, or in decreasing order where
the destination begins within the source, which is judged by their address values (log 86).

spec/12 R204, R206, R209, R212: a command that can end ends with its STATUS and CAUSE: its completion word, where it has one,
takes DONE, CAUSE and STATUS in one write (a page that is being moved holds it; a pool takes it through its port, spec/11
R187, and the command ends once it has landed; part of a granule that is marked uncorrectable refuses it with 0x19); one that
ends short counts what it has not written off its barrier, when it is complete; ETL advances past every number that is complete and never goes
back.

spec/12 R207, spec/14 R232: a residual block of a compressed contribution that is refused ends the command there: no later
residual is written and nothing more is sent. -/
def Obligations.EngineCommands : Prop :=
  (∀ (s : State) (core e num : Nat) (c : Cmd), s.m.phase = .running → cmdOf s.m core e num = some c →
    c.started = false → c.ended = false → (c.stop = false ∨ optIsGroup c = true) →
    (e < 3 → smGet 0 (getCore s.m core).etl e + 1 = num) →
    (c.kind ≤ 1 → ∀ v ∈ c.cw.toList ++ [c.b], portBusy s.m (engWho s.m core c) v = false) →
    let opt := c.opt.toNat
    let begins (f : Cmd → Cmd) : Prop :=
      exec (.engineCommandStart core e num) s = .next { s with m := modCmd s.m core e num f }
    (c.kind = 0 → c.a.toNat % 64 = 0 → c.b.toNat % 64 = 0 → optRnf 0 opt = false →
      begins (fun _ => { c with started := true, total := opt % 65536 + 1,
                                down := decide (c.b < c.a) && decide (c.a.toNat < c.b.toNat + 64 * (opt % 65536 + 1)) })) ∧
    (c.kind = 0 → (c.a.toNat % 64 ≠ 0 ∨ c.b.toNat % 64 ≠ 0) →
      begins (fun _ => { c with started := true, total := opt % 65536 + 1, bad := some (4, 0x0A) })) ∧
    (c.kind = 3 → c.a.toNat % 64 = 0 → c.b.toNat % 64 = 0 → remoteStart s.m (engWho s.m core c)
        { c with total := opt % 256 + 1 } c.a 64 = none →
      begins (fun _ => { c with started := true, total := opt % 256 + 1 })) ∧
    (c.kind = 1 → (c.a.toNat % 64 ≠ 0 ∨ c.b.toNat % 32 ≠ 0) → begins (fun _ => { c with started := true, bad := some (4, 0x0A) })) ∧
    (∀ m1 c1, startWork s.m core e c = .ok (m1, c1) → exec (.engineCommandStart core e num) s =
      .next { s with m := modCmd m1 core e num (fun _ => { c1 with started := true }) }) ∧
    (∀ x c1, startWork s.m core e c = .error (x, c1) →
      begins (fun _ => { c1 with started := true, bad := some (statusOf x, x) }))) ∧
  (∀ (s : State) (core e num : Nat) (c : Cmd) (pos : List Nat), s.m.phase = .running → cmdOf s.m core e num = some c →
    c.kind = 0 → cmdGoes s.m core e c = true → c.next < c.total → c.cut = none →
    let i := if c.down then c.total - 1 - c.next else c.next
    let src := c.b + BitVec.ofNat 64 (64 * i)
    let dst := c.a + BitVec.ofNat 64 (64 * i)
    (∀ pa mir tensor k, pos.headD 0 = k → k < 4 → (∀ x ∈ c.buf, x.1 ≠ k) →
      xlateNow s.m (engWho s.m core c) src 64 accRead = .ok pa mir tensor → portBusy s.m (engWho s.m core c) src = false →
      let takes (m1 : Mach) (g : Gran) : Prop := exec (.engineBlockApply core e num pos) s =
        .next { s with m := modCmd m1 core e num (fun c => { c with buf := smIns c.buf k g }) }
      (∀ p, targetOf s.m pa = .pool p → allocCheck s.m p (poolOff pa) 64 true = none → takes s.m (granNow s.m (pa + 16 * k))) ∧
      (∀ p x, targetOf s.m pa = .pool p → allocCheck s.m p (poolOff pa) 64 true = some x →
        exec (.engineBlockApply core e num pos) s = .next { s with m := cmdFail s.m core e num x.toNat }) ∧
      (targetOf s.m pa = .hbm → granBad s.m (pa + 16 * k) = false →
        let q := (pos.drop 1).headD 0
        let ag := engAgent core e
        agentIsLanding ag = false → viewOf s.m ag (pa + 16 * k) ≤ q ∧ q ≤ newestPos s.m (pa + 16 * k) →
        takes (raiseView s.m ag (pa + 16 * k) q) (overPending (getAgent s.m ag) (pa + 16 * k)
          (seenGran s.m (pageKey s.m c.area src) (pa + 16 * k) (contentAt s.m (pa + 16 * k) q))))) ∧
    (∀ pa mir tensor, (∀ k < 4, ∃ x ∈ c.buf, x.1 = k) → checksBlock s.m core c src = false →
      xlateNow s.m (engWho s.m core c) dst 64 accWrite = .ok pa mir tensor →
      exec (.engineBlockApply core e num pos) s = .next ⟨modCmd
        (putBlock s.m core e c c.next pa mir dst (blockOf ((List.range 4).map (fun k => smGet 0 c.buf k)))) core e num
        (fun x => { x with next := x.next + 1, buf := [], cut := none, laterBad := none }), s.trust⟩)) ∧
  ((∀ (s : State) (core e num : Nat) (c : Cmd) (st cause : Nat), s.m.phase = .running → cmdOf s.m core e num = some c →
    c.cwSent = false → cmdResult s.m core e c = some (st, cause) →
    let m1 := if st = 0 ∨ st = 8 then renewOnFill s.m core e c else modCmd s.m core e num (fun c => { c with short := true })
    let word := cmdDone c % 2 ^ 48 + cause * 2 ^ 48 + st * 2 ^ 56
    let ended (m : Mach) : Mach := endCmd m core e num
    (c.cw = none → exec (.engineCommandEnd core e num) s = .next { s with m := ended m1 }) ∧
    (∀ va pa mir tensor, c.cw = some va → xlateNow m1 (engWho m1 core c) va 8 accWrite = .ok pa mir tensor →
      let g := pa / 16 * 16
      let ends (m : Mach) : Prop := exec (.engineCommandEnd core e num) s = .next { s with m := m }
      ∃ a : Act, a.kind = .st ∧ a.gran = g ∧ a.mask = byteMask (pa % 16) 8 ∧
        a.data = BitVec.ofNat 128 (word * 256 ^ (pa % 16)) ∧ a.va = va ∧ a.cmd = num ∧ a.area = c.area ∧
      (targetOf m1 pa = .hbm → granBad m1 g = false →
        ends (ended (engWrote (commitKeyed m1 (engAgent core e) (pageKey m1 c.area va) g a.mask a.data) core e a))) ∧
      (targetOf m1 pa = .hbm → granBad m1 g = true → ends (ended (raiseLater m1 core c.ctx c.area 0x19 va c.finfo))) ∧
      (∀ p, targetOf m1 pa = .pool p → ends (modCmd (modAgent m1 (engAgent core e) (fun x => { x with iq := x.iq ++ [a] }))
        core e num (fun c => { c with cwSent := true })))) ∧
    (∀ va, c.cw = some va → xlateNow m1 (engWho m1 core c) va 8 accWrite = .moving →
      exec (.engineCommandEnd core e num) s = .next s)) ∧
  (∀ (s : State) (core e num : Nat) (c : Cmd), s.m.phase = .running → cmdOf s.m core e num = some c → c.cwSent = true →
    (partsLanded s.m core e c = true → c.ended = false → exec (.engineCommandEnd core e num) s =
      .next { s with m := endCmd s.m core e num }) ∧
    (partsLanded s.m core e c = false → exec (.engineCommandEnd core e num) s = .next s)) ∧
  (∀ (m : Mach) (core e num : Nat) (c : Cmd), cmdOf m core e num = some c →
    endCmd m core e num = countOwed (wakeCore (sweepAllocs (advance (modCmd (if c.short then shortBarrier m core e c else m)
      core e num (fun c => { c with ended := true })) core e) core) core)) ∧
  (∀ (s : State) (core e num : Nat) (c : Cmd) (pos : List Nat) (b : Block) (bs : List Block) (gs : List (List Block)),
    s.m.phase = .running → cmdOf s.m core e num = some c → c.kind = 4 → cmdGoes s.m core e c = true → c.resid = (b :: bs) :: gs →
    residNext c = true →
    ∀ x f, xlateNow s.m (engWho s.m core c) (c.b + BitVec.ofNat 64 (64 * c.residAt)) 64 accWrite = .fault x f → ∃ m' : Mach,
      exec (.engineBlockApply core e num pos) s = .next { s with m := m' } ∧ m'.out = s.m.out ∧ m'.mem = s.m.mem ∧
      ∃ c', cmdOf m' core e num = some c' ∧ c'.bad = some (statusOf x.toNat, x.toNat) ∧ cmdGoes m' core e c' = false) ∧
  (∀ (m : Mach) (core e : Nat),
    let m' := advance m core e
    smGet 0 (getCore m core).etl e ≤ smGet 0 (getCore m' core).etl e ∧
    (∀ n ∈ openNums m core e, smGet 0 (getCore m core).etl e < n → smGet 0 (getCore m' core).etl e < n) ∧
    (openNums m core e = [] → smGet 0 (getCore m' core).etl e =
      max (smGet 0 (getCore m core).eiss e) (smGet 0 (getCore m core).etl e)) ∧ m'.mem = m.mem))

/-! ### Traps and contexts -/

/-- spec/17 R239, R241 to R248, spec/04 R71: taking a trap, for every cause, context and action: the exposed results land, those
for its rows each in its own cycle, for which the context and its frame wait (landBy),
CAUSE, EPC, FADDR and FINFO are saved, and the context is killed, replayed, sent to its own trap code, or held with its
frame for the control core or the host, a park being a request of pre-emption that clamps an active loop (spec/04 R78). The
entry of the FWDPKT that governs is that of the unit's placement (spec/19 R266); a park with target 00 acts as one for the
host (R248). The context waits at no queue any more (spec/02 R42). A context of a control core is held without a frame (the
model's choice, log 13); that the frame is owed while results of the context have yet to land is log 11, and while its page is MOVING
spec/08 R160. An unlisted cause has its default action (Table 17-1). -/
def Obligations.TrapEntry : Prop :=
  (∀ (m : Mach) (core i : Nat) (cause : Byte) (faddr finfo : Word) (pkt pos : Nat) (tile : Option Nat),
    let c0 := getCtx (settle m core i) core i
    c0.landBy = ((getCore m core).rowFlight.filter (fun f => f.ctx == i)).foldl (fun a f => max a f.landAt) 0 ∧
    let m' := trapEnter m core i cause faddr finfo pkt pos tile
    let c := getCtx m' core i
    let part := getPart m (getCtx m core i).area
    let act := trapAct (actionEntry m (getCtx m core i).area cause) (causeRcnt c0.cause)
    let fwd := fwdOf m (getCtx m core i)
    let saved : Prop := c.epc = BitVec.ofNat 64 (pkt % 2 ^ 32 + pos * 2 ^ 32) ∧ c.faddr = faddr ∧ c.finfo = finfo ∧
      c.cause.setWidth 8 = cause ∧ c.sregs = c0.sregs ∧ c.preds = c0.preds ∧ c.bregs = c0.bregs ∧ c.flight = [] ∧
      ∀ e ∈ m'.queues, (core, i) ∉ e.2.waiters
    let alone : Prop := m'.mem = m.mem ∧ ∀ k j, (k ≠ core ∨ j ≠ i) → getCtx m' k j = getCtx m k j
    let killed : Prop := c.st = .waiting ∧ c.wait = some .ending ∧ c.ending = some (.failed cause) ∧ c.gapcnt = 0
    let m1 := modCtx (leaveQueues (settle m core i) core i) core i (fun c =>
      { c with cause := causeWord (causeTm c.cause) (causeRcnt c.cause) cause, epc := placeWord pkt pos, faddr := faddr,
               finfo := finfo, pc := BitVec.ofNat 32 pkt, wpos := pos, fill := none,
               skipBp := false, stallCycles := 0 })
    (act = .kill → saved ∧ alone ∧ killed) ∧
    (act = .replay → saved ∧ alone ∧ c.st = .waiting ∧ c.wait = some .replay ∧ c.replayAt = m.cycle + 256 ∧
      causeRcnt c.cause = causeRcnt c0.cause + 1 ∧ causeTm c.cause = causeTm c0.cause ∧ c.pc = BitVec.ofNat 32 pkt ∧
      c.wpos = pos) ∧
    (act = .forward 0 → saved ∧ alone ∧
      (c0.trapbase.toNat % 2 ^ 32 = 0 ∨ causeTm c0.cause = true → killed) ∧
      (c0.trapbase.toNat % 2 ^ 32 ≠ 0 → causeTm c0.cause = false → c.st = .ready ∧ c.wait = none ∧ causeTm c.cause = true ∧
        causeRcnt c.cause = causeRcnt c0.cause ∧ c.pc = c0.trapbase.setWidth 32 ∧ c.wpos = 0)) ∧
    (act = .forward 1 → fwd = 0 → saved ∧ alone ∧ killed) ∧
    (∀ (park cc : Bool) (area : Word) (m2 : Mach),
      (act = .forward 1 ∧ fwd ≠ 0 ∧ park = false ∧ cc = true ∨ act = .forward 2 ∧ park = false ∧ cc = false ∨
        act = .park 1 ∧ park = true ∧ cc = (fwd != 0) ∨ act = .park 2 ∧ park = true ∧ cc = false ∨
        act = .park 0 ∧ park = true ∧ cc = false) →
      (isControl core = true → saved ∧ c.st = .waiting ∧ c.wait = some .held ∧ c.gapcnt = 0 ∧
        c.hold = some ⟨0, cause, false, cc, none, false⟩) ∧
      (isControl core = false → part.recarea = none → saved ∧ alone ∧ killed) ∧
      (isControl core = false → part.recarea = some area →
      let va := area + BitVec.ofNat 64 (17408 * (16 * (core % 18) + i))
      let parks := park && !c0.arr
      let pre : Option PreEmpt := if parks && c0.pre.isNone then
        some { src := .park, stopped := none, acks := 0, saved := false } else c0.pre
      let held : Prop := saved ∧ c.st = .waiting ∧ c.wait = some .held ∧ c.gapcnt = 0 ∧ c.pre = pre ∧
        (parks = true → c0.pre = none → c0.lepi.getLsbD 63 = true →
          c.lc = 1 ∧ c.lrem = (if c0.lc = 0 then 0 else c0.lc - 1)) ∧
        (parks = false ∨ c0.pre ≠ none ∨ c0.lepi.getLsbD 63 = false → c.lc = c0.lc ∧ c.lrem = c0.lrem)
      let m3 := modCtx m1 core i (fun c =>
        let c := { toWaiting c .held with hold := some ⟨va, cause, parks, cc, some tile, true⟩ }
        if parks then parkRequest c else c)
      let waits := heldWrite m3 (whoOf m3 core i) va 16640
      (∀ x a, c0.landBy ≤ m.cycle → c0.pend = [] → waits = false → writeFrame m3 core i va tile = .error (x, a) → m' = areaRefused m3 core i x a) ∧
      (c0.landBy ≤ m.cycle → c0.pend = [] → waits = false → writeFrame m3 core i va tile = .ok m2 →
        held ∧ c.hold = some ⟨va, cause, parks, cc, none, true⟩) ∧
      (m.cycle < c0.landBy ∨ c0.pend ≠ [] ∨ waits = true → held ∧ alone ∧ c.hold = some ⟨va, cause, parks, cc, some tile, true⟩)))) ∧
  (∀ (m : Mach) (p : Nat) (cause : Byte), smGet none (getPart m p).actions cause.toNat = none →
    actionEntry m p cause = if cause = 0x1B then 0x7 else if cause = 0x21 ∨ cause = 0x40 then 0x3 else if cause = 0x39 then 0x8
      else if cause = 0x41 ∨ cause = 0x42 then 0xB else 0)

/-- spec/17 R243, spec/02 R33, R36: a replay is over 256 cycles after its trap and not before, nor once a cancel or a request
of pre-emption has reached its context; the notice at the head of a
core's queue starts a Dormant arrival context with its address, length and source in s1 to s3, unless the core is being
drained or recalled.

spec/17 R255, R253, R248, spec/08 R148, R154, R144, spec/12 R203: the end of a restore, once no other context holds the array
and the engine queues take the remainders of its commands and those that it has queued; the sweeps of pins and of the pool, each at most once in half of
TRET, which renew their ranges; and the end of a core's zeroing, after which its pool and its tiles read zero. -/
def Obligations.HandlersAndRestores : Prop :=
  ((∀ (s : State) (core i : Nat), s.m.phase = .running → (getCtx s.m core i).st = .waiting →
    (getCtx s.m core i).wait = some .replay →
    let goes : Prop := (getCtx s.m core i).replayAt ≤ s.m.cycle ∧ (getCtx s.m core i).cancelled = false ∧
      (getCtx s.m core i).pre = none
    (goes → exec (.trapReplay core i) s =
      .next { s with m := setCtx s.m core i { getCtx s.m core i with st := .ready, wait := none } }) ∧
    (¬goes → exec (.trapReplay core i) s = .next s)) ∧
  (∀ (s : State) (core i : Nat) (n : Notice) (rest : List Notice), s.m.phase = .running →
    (getCore s.m core).notices = n :: rest → (getCore s.m core).spilled = [] →
    dormantCtx (getCore s.m core) (isControl core) = some i → n.fwd = none →
    (isControl core = true ∨ (getCore s.m core).scan.draining = false ∧ (getPart s.m (clusterOf core)).recallAt = none) →
    let area := if isControl core then clusterOf core
      else servingPart s.m core ((getCore s.m core).hset.getD ⟨0, 0, 0, 0, 0, 0⟩).owner
    ∃ m' : Mach, exec (.handlerStart core) s = .next { s with m := m' } ∧ m'.mem = s.m.mem ∧
      (getCore m' core).notices = rest ∧ (∀ k, k ≠ core → getCore m' k = getCore s.m k) ∧
      (let c := getCtx m' core i
       c.st = .ready ∧ c.arr = true ∧ c.unit = none ∧ smGet {} c.sregs 1 = { val := n.paddr } ∧
       smGet {} c.sregs 2 = { val := BitVec.ofNat 64 n.len } ∧ smGet {} c.sregs 3 = { val := BitVec.ofNat 64 n.src } ∧
       c.csb = (handlerPlace s.m area n.haddr).1 ∧ c.pc = BitVec.ofNat 32 (handlerPlace s.m area n.haddr).2 ∧ c.wpos = 0)) ∧
  (∀ (s : State) (core : Nat), isControl core = false →
    ((getCore s.m core).scan.draining = true ∨ (getPart s.m (clusterOf core)).recallAt ≠ none) →
    exec (.handlerStart core) s = .next s)) ∧
  ((∀ (s : State) (core i id : Nat) (fr : Option Word) (im : Image), s.m.phase = .running →
    (getCtx s.m core i).restoring = some (id, fr) → imageOf s.m id = some im →
    let may : Prop := (im.arr = none ∨ (getCore s.m core).arr.holder = none) ∧ restFits (getCore s.m core) im.rest (getAgent s.m (ctxAgent core i)).iq = true
    (¬may → exec (.restoreComplete core i) s = .next s) ∧
    (may → ∃ m' : Mach, exec (.restoreComplete core i) s = .next { s with m := m' } ∧ imageOf m' id = none ∧
      (getCtx m' core i).restoring = none) ∧
    ((getCtx s.m core i).cancelled = false → fr = none → may → ∃ m' : Mach,
      exec (.restoreComplete core i) s = .next { s with m := m' } ∧ m'.mem = s.m.mem ∧ (getCtx m' core i).st = .ready ∧
      (getCtx m' core i).sregs = (getCtx s.m core i).sregs ∧ (getCtx m' core i).pc = (getCtx s.m core i).pc ∧
      (∀ a, im.arr = some a → (getCore m' core).arr = { a with holder := some i }))) ∧
  (∀ (s : State) (core : Nat), s.m.phase = .running →
    let k := getCore s.m core
    ((∃ e ∈ k.alloc, e.2.pinned.isSome = true) → k.pinTick + tretOf s.m core / 2 ≤ s.m.nowt →
      exec (.pinRenewal core) s =
        .next { s with m := setCore s.m core { k with pinTick := s.m.nowt, renews := k.renews ++
          ((k.alloc.map (·.2)).filter (fun a => a.pinned.isSome)).map (fun a => (a.base, 64 * a.nblk, s.m.nowt)) } }) ∧
    (s.m.nowt < k.pinTick + tretOf s.m core / 2 → exec (.pinRenewal core) s = .next s) ∧
    (k.zeroUntil = none → isControl core = false → k.rillTick + tretOf s.m core / 2 ≤ s.m.nowt →
      exec (.rillSweep core) s = .next ⟨setCore s.m core
        { k with rillTick := s.m.nowt, renews := k.renews ++ [(0, spbase k.partw, s.m.nowt)] }, s.trust⟩) ∧
    (k.zeroUntil.isSome = true ∨ s.m.nowt < k.rillTick + tretOf s.m core / 2 → exec (.rillSweep core) s = .next s)) ∧
  (∀ (s : State) (core t : Nat), s.m.phase = .running → core < 1152 → (getCore s.m core).zeroUntil = some t →
    (s.m.cycle < t → exec (.zeroingComplete core) s = .next s) ∧
    (t ≤ s.m.cycle → ∃ m' : Mach, exec (.zeroingComplete core) s = .next { s with m := m' } ∧
      (getCore m' core).zeroUntil = none ∧ (getCore m' core).zeroTick = s.m.nowt ∧ (∀ off < 2 ^ 22, readByte m'.mem (poolPa core off) = 0) ∧
      (∀ a, (a < poolPa core 0 ∨ poolPa core 0 + 2 ^ 22 ≤ a) → readByte m'.mem a = readByte s.m.mem a) ∧
      (∀ r, smGet 0 (getCore m' core).tiles r = 0 ∧ smGet 0 (getCore m' core).exps r = 0) ∧
      (∀ k, k ≠ core → getCore m' k = getCore s.m k))))

/-- spec/03 R56, spec/17 R250, R251, spec/18 R259, spec/04 R78: a pre-emption request reaches a context that runs a unit not ending
and not pre-empted already, clamps its active loop to the pass under way, and starts nothing else; a slice that has not
passed asks for nothing; a posted slice end of a unit of PCLASS 1 and above is dropped and reported, whatever the unit's state.
The remainder that an epilogue keeps is the model's choice (log 33). -/
def Obligations.PreemptionRequests : Prop :=
  (∀ (m : Mach) (core i : Nat) (src : PreSrc) (slot : Option (Nat × Nat)),
    let c := getCtx m core i
    let m' := requestPre m core i src slot
    let p : PreEmpt := { src := src, stopped := none, acks := 0, saved := false, slot := slot }
    m'.mem = m.mem ∧ (∀ k j, (k ≠ core ∨ j ≠ i) → getCtx m' k j = getCtx m k j) ∧
    (c.lepi.getLsbD 63 = true → getCtx m' core i = { c with
      lc := 1, lrem := if c.lc = 0 then 0 else c.lc - 1, lepi := c.lepi ||| BitVec.ofNat 64 (2 ^ 62), pre := some p }) ∧
    (c.lepi.getLsbD 63 = false → getCtx m' core i = { c with pre := some p })) ∧
  (∀ (s : State) (core i : Nat), s.m.phase = .running →
    let c := getCtx s.m core i
    (canPreempt c = false → ∀ src, exec (.preemptRequest core i src) s = .next s) ∧
    (canPreempt c = true →
      exec (.preemptRequest core i .host) s = .next { s with m := requestPre s.m core i .host none } ∧
      (recallStops s.m core c = true →
        exec (.preemptRequest core i .recall) s = .next { s with m := requestPre s.m core i .recall none }) ∧
      ((getCore s.m core).scan.draining = true → pclassOf c ≤ 1 →
        exec (.preemptRequest core i .scan) s = .next { s with m := requestPre s.m core i .scan none }) ∧
      (∀ x, c.hold = some x → exec (.preemptRequest core i .park) s =
        .next { s with m := if x.park then requestPre s.m core i .park none else s.m }) ∧
      exec (.preemptRequest core i .slice) s = exec (.sliceEnd core i) s) ∧
    (s.m.cycle < c.sliceStart + c.slice.toNat % 2 ^ 32 → exec (.sliceEnd core i) s = .next s) ∧
    (canPreempt c = true → c.sliceStart + c.slice.toNat % 2 ^ 32 ≤ s.m.cycle →
      (∀ x, pclassOf c = 0 → unitWaits s.m core = true → freeSlots s.m c.area = some x → exec (.sliceEnd core i) s =
        .next { s with m := requestPre (takeSlots s.m c.area x) core i .slice (some x) }) ∧
      (pclassOf c ≠ 0 ∨ unitWaits s.m core = false → exec (.sliceEnd core i) s =
        .next { s with m := modCtx s.m core i (fun c => { c with sliceStart := s.m.cycle }) })) ∧
    (∀ e v, c.posted = some (e, v) →
      (smGet 0 (getCore s.m core).eiss e < v → exec (.postedSliceEndTrigger core i) s = .next s) ∧
      (v ≤ smGet 0 (getCore s.m core).eiss e → exec (.postedSliceEndTrigger core i) s =
        .next { s with m := postedEnd (modCtx s.m core i (fun c => { c with posted := none })) core i })) ∧
    (c.posted = none → exec (.postedSliceEndTrigger core i) s = .next s)) ∧
  (∀ (m : Mach) (core i : Nat),
    let c := getCtx m core i
    (1 ≤ pclassOf c → postedEnd m core i = hostEvent m (ctxOwner c) 4 0 c.area 0 0) ∧
    (pclassOf c = 0 → canPreempt c = false → postedEnd m core i = m) ∧
    (pclassOf c = 0 → canPreempt c = true →
      (∀ x, freeSlots m c.area = some x → postedEnd m core i = requestPre (takeSlots m c.area x) core i .slice (some x)) ∧
      (freeSlots m c.area = none → postedEnd m core i = modCtx m core i (fun c => { c with sliceStart := m.cycle }))))

/-- spec/17 R251 to R253, R256, spec/04 R79, spec/19 R268: the weir. At a stop point a cancelled context ends; else its
results land and it acknowledges; each engine context acknowledges once, when every command of the context has stopped;
after 10,000 cycles outstanding remote loads are abandoned; the image is saved and written into its slot; with all
acknowledgements in, the record is written, each once no page on its way is MOVING (spec/08 R160). The bytes that the slot
holds are free values (log 34); that what stands in the issue queue does not hold the stop point back and goes with the unit,
and that the number of a command there is known at the stop, is log 33. -/
def Obligations.WeirEvents : Prop :=
  ∀ (s : State) (core i : Nat), s.m.phase = .running →
    let c := getCtx s.m core i
    (atStop c = false → exec (.stopPointReached core i) s = .next s) ∧
    (atStop c = true → c.cancelled = true → (∀ p, c.pre = some p → p.stopped = none) →
      exec (.stopPointReached core i) s = .next { s with m := beginEnd s.m core i .cancelled }) ∧
    (let queued (q : Pend) : Prop := ∃ a ∈ (getAgent s.m (ctxAgent core i)).iq, a.tag = q.tag ∧ isCmd a.kind = true
     let row : Prop := ∃ f ∈ (getCore s.m core).rowFlight, f.ctx = i ∧ s.m.cycle < f.landAt
     ∀ p, atStop c = true → c.cancelled = false → c.pre = some p → p.stopped = none →
      ((∃ q ∈ c.pend, ¬queued q) ∨ row → exec (.stopPointReached core i) s = .next s) ∧
      ((∀ q ∈ c.pend, queued q) → ¬row → exec (.stopPointReached core i) s = .next { s with m := ackContext s.m core i p })) ∧
    (∀ p, c.pre = some p → c.pend = [] → let s' (m : Mach) : Prop := ackContext s.m core i p = m
      (∀ x, (p.slot = some x ∨ p.slot = none ∧ freeSlots s.m c.area = some x) → ∃ m' : Mach, s' m' ∧ m'.mem = s.m.mem ∧
        (∃ p', (getCtx m' core i).pre = some p' ∧ p'.stopped = some s.m.cycle ∧ p'.slot = some x ∧ p'.recId = s.m.recSeq + 1) ∧
        (getCtx m' core i).flight = [] ∧ (getCtx m' core i).sregs = (landAll c).sregs) ∧
      (p.slot = none → freeSlots s.m c.area = none → s' (areaRefused s.m core i 0x11 0))) ∧
    (∀ p e, c.pre = some p → p.stopped.isSome = true → e < 4 → p.acks.getLsbD e = false →
      (∀ x ∈ stoppable s.m core i e, cmdIdle s.m core e x = true ∧ x.cwSent = false ∧ cmdResult s.m core e x = none) →
      ∃ m' : Mach, exec (.engineStopAck core i e) s = .next { s with m := m' } ∧ m'.mem = s.m.mem ∧
      (getCtx m' core i).pre = some { p with acks := p.acks ||| BitVec.ofNat 4 (2 ^ e), rest :=
        p.rest ++ (stoppable s.m core i e).map (fun x => (e, remainder x)) } ∧
      (∀ x ∈ smGet [] (getCore m' core).cmds e, ∀ y ∈ stoppable s.m core i e, x.num ≠ y.num)) ∧
    (∀ p t, c.pre = some p → p.stopped = some t →
      (s.m.cycle < t + 10000 → exec (.collectiveStopExpiry core i) s = .next s) ∧
      (t + 10000 ≤ s.m.cycle → ∃ m' : Mach, exec (.collectiveStopExpiry core i) s = .next { s with m := m' } ∧
        m'.mem = s.m.mem ∧ ∀ x ∈ stoppable m' core i 3, x.kind = 2 → ∀ q ∈ x.reqs, q.answered = true)) ∧
    (∀ p x, c.pre = some p → p.slot = some x → p.stopped.isSome = true → p.saved = false →
      (imageHeld s.m (whoOf s.m core i) (imageVa s.m c.area x.1) = true → exec (.saveImageWritten core i) s = .next s) ∧
      (imageHeld s.m (whoOf s.m core i) (imageVa s.m c.area x.1) = false →
      (imageRefused s.m (whoOf s.m core i) (imageVa s.m c.area x.1) = none → ∃ (m' : Mach) (im : Image),
        exec (.saveImageWritten core i) s = .next { s with m := m' } ∧
        m' = { writeImage (setCtx s.m core i { c with pre := some { p with saved := true } }) (whoOf s.m core i)
          (imageVa s.m c.area x.1) ((2048 + 256 * im.rows.length + (if im.arr.isSome then 112128 else 0) + 15) / 16) with
          images := smPut none s.m.images p.recId (some im) } ∧ im.ctx.sregs = c.sregs ∧
        im.ctx.preds = c.preds ∧ im.ctx.bregs = c.bregs ∧ im.ctx.prec0 = c.prec0 ∧ im.ctx.lc = c.lc ∧
        (∀ r < 256, c.rowMark.getLsbD r = true →
          let k := landRowsDue (getCore s.m core) s.m.cycle
          (r, smGet 0 k.tiles r, smGet 0 k.exps r) ∈ im.rows) ∧
        ((getCore s.m core).arr.holder = some i → im.arr.isSome = true)) ∧
      (∀ e a, imageRefused s.m (whoOf s.m core i) (imageVa s.m c.area x.1) = some (e, a) →
        exec (.saveImageWritten core i) s = .next { s with m := areaRefused s.m core i e a }))) ∧
    (∀ p u x im, c.pre = some p → c.unit = some u → p.slot = some x → imageOf s.m p.recId = some im →
      ((p.stopped = none ∨ p.saved = false ∨ p.acks ≠ 15) → exec (.weirComplete core i) s = .next s) ∧
      (p.stopped.isSome = true → p.saved = true → p.acks = 15 →
        (c.cancelled = true → exec (.weirComplete core i) s = .next { s with m := beginEnd s.m core i .cancelled }) ∧
        (c.cancelled = false → heldWrite s.m (whoOf s.m core i) (recordVa s.m c.area x.2) 64 = true →
          exec (.weirComplete core i) s = .next s) ∧
        (c.cancelled = false → heldWrite s.m (whoOf s.m core i) (recordVa s.m c.area x.2) 64 = false →
          exec (.weirComplete core i) s = .next { s with m := writePreRecord s.m core i c u p x im })))

/-! ### The hive -/

/-- spec/03 R54 to R56, spec/02 R25, R28: the owner service picks the unit that the visit in force places next, else the next
owner's, whose deficit has grown by 65,536 × WEIGHT: the first in the owner's order that finds a core (that one without a
core does not hold back the next is log 31), if its cost is covered; after an alarm none is. In an owner's order launches
stand by arrival, and a record before every fresh launch of its own priority or a lower one (spec/02 R43). A fresh unit is
placed and charged: its context is Ready at ENTRY with s1 = ARGP, s2 =
its index, and the LPB's CSB, MAXGAP and precisions; the launch goes on with the next index. The place of a record behind
launches of a higher priority is the model's reading (log 69).

spec/02 R23, R24, spec/17 R255, spec/19 R268: a record that comes next is taken up: with its bytes read as the hive wrote them
and its check passed the unit resumes on the core chosen; a record that can not be read, that another writer has changed or
that fails the check counts as ended and cancels its launch. A
unit that b.susp suspended resumes at RESUME with s1 = CS1 and s63 = FRAME and no other register. -/
def Obligations.UnitsArePlaced : Prop :=
  ((∀ s : State, s.m.noPlace = true → exec .unitPlace s = .next s ∧ exec .recordTakeUp s = .next s) ∧
  (∀ m : Mach,
    let m0 := readyRecords m
    let m1 : Mach := { m0 with owners := m0.owners.map (fun e => (e.1, if (items m0 e.1).isEmpty then { e.2 with deficit := 0 } else e.2)) }
    (∀ x, visitItem m1 m1.wdrr = some x → serve m = (m1, some x)) ∧
    (visitItem m1 m1.wdrr = none → nextOwner m1 m1.wdrr = none → serve m = (m1, none)) ∧
    (∀ o, visitItem m1 m1.wdrr = none → nextOwner m1 m1.wdrr = some o →
      let m2 := setOwnerOf { m1 with wdrr := o } o { getOwner m1 o with deficit := (getOwner m1 o).deficit + 65536 * (getOwner m1 o).weight }
      serve m = (m2, visitItem m2 o))) ∧
  (∀ (m : Mach) (o : Nat) (x : Item) (p : Nat × Bool), visitItem m o = some (x, p) →
    x ∈ items m o ∧ o ∈ workers m ∧ pickCore m (itemLpb m x) (coresOf m x) = some p ∧
    (∀ y ∈ items m o, goesBefore m (freshOf (items m o)) y x = true → pickCore m (itemLpb m y) (coresOf m y) = none) ∧
    (∀ i, x = .fresh i → unitCost (getNode m i).lpb ≤ (getOwner m o).deficit)) ∧
  (∀ (m : Mach) (xs : List Item),
    (∀ i j, i < j → goesBefore m (freshOf xs) (.fresh i) (.fresh j) = true) ∧
    (∀ r i, .fresh i ∈ xs → (getNode m i).lpb.prio ≤ itemPrio m (.resumed r) →
      goesBefore m (freshOf xs) (.resumed r) (.fresh i) = true)) ∧
  (∀ (s : State) (m1 : Mach), s.m.phase = .running → s.m.noPlace = false →
    (∀ i core repart, serve s.m = (m1, some (.fresh i, core, repart)) →
      let o := (getNode m1 i).owner
      exec .unitPlace s = .next ⟨placeFresh (setOwnerOf m1 o { getOwner m1 o with
        deficit := (getOwner m1 o).deficit - unitCost (getNode m1 i).lpb }) i core repart, s.trust⟩ ∧
      exec .recordTakeUp s = .next s) ∧
    (serve s.m = (m1, none) → exec .unitPlace s = .next { s with m := m1 } ∧ exec .recordTakeUp s = .next s) ∧
    (∀ r core repart, serve s.m = (m1, some (.resumed r, core, repart)) →
      let w : Who := { core := 18 * r.part, part := r.part, owner := r.unit.owner }
      exec .unitPlace s = .next { s with m := m1 } ∧
      (∀ x, readVa m1 w r.va 64 = .ok x → x = r.bytes → recordBad m1 r.launch x = false →
        exec .recordTakeUp s = .next { s with m := resumeRecord m1 r x core repart }) ∧
      (∀ x, readVa m1 w r.va 64 = .ok x → x ≠ r.bytes ∨ recordBad m1 r.launch x = true →
        exec .recordTakeUp s = .next { s with m := failRecord m1 r }) ∧
      (∀ e, readVa m1 w r.va 64 = .error e → exec .recordTakeUp s = .next { s with m := failRecord m1 r }))) ∧
  (∀ (m : Mach) (i core : Nat) (repart : Bool),
    let n := getNode m i
    let slot := (prepareCore m core repart n.lpb n.owner).2
    let m' := placeFresh m i core repart
    let c := getCtx m' core slot
    c.st = .ready ∧ c.arr = false ∧ c.pc = n.lpb.entry ∧ c.wpos = 0 ∧ c.csb = n.lpb.csb ∧ c.unitid = BitVec.ofNat 64 n.nextU ∧
    c.launchid = BitVec.ofNat 64 (i % 2 ^ 32) ∧ smGet {} c.sregs 1 = { val := n.lpb.argp } ∧
    smGet {} c.sregs 2 = { val := BitVec.ofNat 64 n.nextU } ∧ (∀ r, r ≠ 1 → r ≠ 2 → smGet {} c.sregs r = {}) ∧
    c.preds = 0 ∧ c.maxgap = n.lpb.maxgap.setWidth 64 ∧ c.prec0 = n.lpb.prec0.setWidth 64 ∧
    c.prec1 = n.lpb.prec1.setWidth 64 ∧ c.prec2 = n.lpb.prec2.setWidth 64 ∧ c.prec3 = n.lpb.prec3.setWidth 64 ∧
    c.gapcnt = 0 ∧ c.cause = 0 ∧ c.fmto0 = 0x780050 ∧ c.fmto1 = 0x780050 ∧ (getNode m' i).nextU = n.nextU + 1)) ∧
  ((∀ (m : Mach) (x core : Nat) (u : UnitInfo),
    let c := resumeCtx m x core u
    let l := (getNode m u.launch).lpb
    c.st = .ready ∧ c.csb = l.csb ∧ c.pc = BitVec.ofNat 32 ((BitVec.ofNat 64 (x % 2 ^ 64) - l.csb).toNat / 12) ∧ c.wpos = 0 ∧
    smGet {} c.sregs 1 = { val := BitVec.ofNat 64 (x / 256 ^ 48) } ∧
    smGet {} c.sregs 63 = { val := BitVec.ofNat 64 (x / 256 ^ 8) } ∧
    (∀ r, r ≠ 1 → r ≠ 63 → smGet {} c.sregs r = {}) ∧ c.preds = 0 ∧ c.unitid = BitVec.ofNat 64 u.u))

/-- spec/02 R36, R38, R39, R20 to R22: a unit ends once its writes have committed and its commands have completed, the
remainders among them that end CANCELLED (R40), and so has what it left when it was suspended or pre-empted before: it is counted with its
status and its context becomes Free, a handler's Dormant, and of its allocations only one stays that is being freed and that a
command still names (spec/08 R153); b.susp writes its record once its writes have committed, and waits for no command and no
fence (log 33); else nothing yet. A node whose children have all ended takes FAILED, CANCELLED or DONE. -/
def Obligations.UnitsEnd : Prop :=
  (∀ (s : State) (core i : Nat), s.m.phase = .running → (getCtx s.m core i).st = .waiting →
    let c := getCtx s.m core i
    let left := (c.unit.map (·.orphans)).getD []
    (∀ e, c.wait = some .ending → c.ending = some e →
      (ctxQuiet s.m core i s.m.tag = false ∨ ctxCmds (getCore s.m core) i = true ∨ restOpen s.m core i = true ∨
        (∃ x ∈ left, orphanDone s.m x = false) → exec (.unitEnd core i) s = .next s) ∧
      (ctxQuiet s.m core i s.m.tag = true → ctxCmds (getCore s.m core) i = false → restOpen s.m core i = false →
        (∀ x ∈ left, orphanDone s.m x = true) → ∃ m1 m' : Mach, exec (.unitEnd core i) s = .next { s with m := m' } ∧
        (getCtx m' core i).st = (if c.arr then .dormant else .free) ∧ (getCtx m' core i).unit = none ∧
        (∀ a ∈ (getCore m1 core).alloc, a.2.ctx = i → a.2.pinned.isSome = true ∨
          a.2.freeing = true ∧ namedByCmd s.m core a.2.base (allocSpan a.2.nblk) = true) ∧
        (∀ u, c.unit = some u → c.arr = false → m' = countUnit m1 u.launch
          (match e with | .failed _ => true | _ => false) (match e with | .failed x => x | _ => 0)) ∧
        (c.unit = none ∨ c.arr = true → m' = m1) ∧
        (c.arr = true → m'.mem = s.m.mem))) ∧
    (∀ z u, c.wait = some .susp → c.susp = some z → c.unit = some u →
      let wrote : Prop := suspQuiet s.m core i s.m.tag = true
      (¬wrote → exec (.unitEnd core i) s = .next s) ∧
      (wrote → c.cancelled = true → exec (.unitEnd core i) s = .next { s with m := beginEnd s.m core i .cancelled }) ∧
      (wrote → c.cancelled = false → exec (.unitEnd core i) s = .next { s with m := finishSusp s.m core i c u z }))) ∧
  (∀ (m : Mach) (i fuel : Nat),
    let n := getNode m i
    ((n.live = false ∨ nodeTerminal n = true ∨ n.ended < n.total) → settleNode m i (fuel + 1) = m) ∧
    (n.live = true → nodeTerminal n = false → n.total ≤ n.ended → n.parent = none →
      (getNode (settleNode m i (fuel + 1)) i).st =
        (if n.badRecord then .failed else if n.cancelled then .cancelled else if n.childFailed then .failed else .done)))

/-- spec/03 R50, R51, R52, R60, spec/19 R273: an evaluation follows a phase whose graphs are all terminal, and not before; a
node of a graph is considered once all its predecessors have ended: with each of them DONE and its condition holding (Table 3-4)
its launch is submitted, and a launch that is refused counts as a failed node; else it is skipped; the counts of use go to the
trust die and start again from zero. That a refused node is reported with KIND 1 is log 64, and that result words and entries
which can not be read are zeros is log 67. -/
def Obligations.GraphsAndUsage : Prop :=
  (∀ (s : State) (job ph : Nat) (j : JobInfo), s.m.phase = .running → (getNode s.m job).job = some j → j.cur = some ph →
    (nodeTerminal (getNode s.m ph) = false → exec (.phaseEvaluation job) s = .next s) ∧
    ((getNode s.m job).live = true → nodeTerminal (getNode s.m job) = false → nodeTerminal (getNode s.m ph) = true →
      let m1 := modNode s.m job (fun n => { n with job := some { j with cur := none } })
      let p := getNode s.m ph
      let m2 := if p.childFailed then m1 else evaluate m1 job
      exec (.phaseEvaluation job) s =
        .next { s with m := settleNode (bumpNode m2 job (fun n => countChild n (p.st == .failed) p.cause)) job 5 })) ∧
  (∀ (s : State) (graph node : Nat) (g : GraphInfo), s.m.phase = .running → (getNode s.m graph).graph = some g →
    (getNode s.m graph).live = true → nodeTerminal (getNode s.m graph) = false → node < g.nn →
    let o := (getNode s.m graph).owner
    let w := whoOwner s.m o
    let x := entry32 s.m w (nodeEntryVa g node)
    let ends := ((List.range node).filter (fun i => x / 256 ^ 8 / 2 ^ i % 2 == 1)).map (graphNodeDone s.m g)
    let res := (((jobOf s.m graph 5).bind (fun j => (getNode s.m j).job)).map (resultWords s.m w)).getD []
    let holds := condHolds res (x / 256 ^ 16 % 2 ^ 64)
    let marked (m : Mach) (i : Nat) : Mach := modNode m graph (fun n => { n with graph := n.graph.map (fun g => { g with
      considered := g.considered ||| BitVec.ofNat 32 (2 ^ node), nodes := smPut 0 g.nodes node i }) })
    (g.considered.getLsbD node = true → exec (.nodeConsider graph node) s = .next s) ∧
    (none ∈ ends → exec (.nodeConsider graph node) s = .next s) ∧
    (g.considered.getLsbD node = false → none ∉ ends → some false ∈ ends ∨ holds = false →
      exec (.nodeConsider graph node) s = .next { s with m := settleNode (skipGraphNode s.m graph node) graph 5 }) ∧
    (g.considered.getLsbD node = false → (∀ e ∈ ends, e = some true) → holds = true →
      (∀ m1 i, submitLaunch s.m w (BitVec.ofNat 64 (x % 2 ^ 64)) (some graph) false [] = (m1, .id i) →
        exec (.nodeConsider graph node) s = .next { s with m := marked m1 i }) ∧
      (∀ m1 c, submitLaunch s.m w (BitVec.ofNat 64 (x % 2 ^ 64)) (some graph) false [] = (m1, .refused c) →
        exec (.nodeConsider graph node) s = .next ⟨settleNode (bumpNode
          (marked (hostEvent m1 o 1 c.toNat w.part 0 (x % 2 ^ 64)) 0) graph (fun n => countChild n true c)) graph 5, s.trust⟩))) ∧
  (∀ (res : List Nat) (x : Nat),
    let w : Word := BitVec.ofNat 64 (res.getD (x % 16) 0)
    let v : Word := (BitVec.ofNat 32 (x / 2 ^ 32)).signExtend 64
    (x / 16 % 8 = 0 → condHolds res x = true) ∧
    (x / 16 % 8 = 1 → (condHolds res x = true ↔ w = v)) ∧ (x / 16 % 8 = 2 → (condHolds res x = true ↔ w ≠ v)) ∧
    (x / 16 % 8 = 3 → (condHolds res x = true ↔ w.toInt < v.toInt)) ∧
    (x / 16 % 8 = 4 → (condHolds res x = true ↔ v.toInt ≤ w.toInt)) ∧
    (x / 16 % 8 = 5 → (condHolds res x = true ↔ w &&& v ≠ 0)) ∧ (x / 16 % 8 = 6 → (condHolds res x = true ↔ w &&& v = 0)) ∧
    (x / 16 % 8 = 7 → condHolds res x = false)) ∧
  (∀ (s : State), s.m.phase = .running → smWf {} s.m.owners = true → ∃ t : State, exec .usageForward s = .next t ∧ (∀ o,
    let a := getOwner s.m o
    let u : Usage := smGet {} s.trust.usage o
    smGet {} t.trust.usage o = ⟨u.cycles + a.cycles, u.beats + a.beats, u.lentIn + a.lentIn, u.lentOut + a.lentOut⟩ ∧
    getOwner t.m o = { a with cycles := 0, beats := 0, lentIn := 0, lentOut := 0 }) ∧
    t.m.mem = s.m.mem)

/-- spec/03 R59, spec/19 R272: lending and recall: LENDTO lends a partition that runs no unit of its owner; a recall starts
its count once; a borrower's handler is killed D − 18,192 cycles on and not before; the cluster returns, cleared, once
no core holds a context or a command, and the lender's own notices wait there still. That a LEND which may not act is reported
with KIND 4 is log 40, that HCTX is unset after the return log 39, and whose handlers and notices are a borrower's log 81. -/
def Obligations.LendingAndRecall : Prop :=
  (∀ (s : State) (vf o p : Nat) (mask : BitVec 256), s.m.phase = .running → 1 ≤ vf → vf ≤ 192 →
    (getVf s.m vf).owner = some o →
    let q := getPart s.m p
    (q.owner ≠ some o → exec (.lend vf p mask) s = .next s ∧ exec (.recallLend vf p) s = .next s) ∧
    (q.owner = some o →
      (mask ≠ 0 → q.recallAt = none → runsUnitOf s.m p o = false →
        exec (.lend vf p mask) s = .next { s with m := setPart s.m p { q with lendto := mask, lent := true } }) ∧
      (mask = 0 → exec (.lend vf p mask) s = exec (.recallLend vf p) s) ∧
      (mask ≠ 0 → q.recallAt ≠ none ∨ runsUnitOf s.m p o = true →
        exec (.lend vf p mask) s = .next { s with m := report s.m vf o 4 0 0 0 }) ∧
      (q.lent = true → q.recallAt = none → exec (.recallLend vf p) s = .next ⟨(s.m.records.filter (fun r => r.unit.lent && clusterOf r.home == p)).foldl unpinRecord
          (setPart s.m p { q with recallAt := some s.m.cycle }), s.trust⟩) ∧
      (q.lent = false ∨ q.recallAt ≠ none → exec (.recallLend vf p) s = .next s))) ∧
  (∀ (s : State) (core i t : Nat), s.m.phase = .running → isControl core = false → (getCtx s.m core i).arr = true →
    ctxEnded (getCtx s.m core i) = false → (getPart s.m (clusterOf core)).recallAt = some t →
    let d := 2500 * (getPart s.m (clusterOf core)).recallTmo
    (s.m.cycle < t + (d - 18192) ∨ borrowed s.m core = false → exec (.recallHandlerKill core i) s = .next s) ∧
    (t + (d - 18192) ≤ s.m.cycle → borrowed s.m core = true → ∃ m' : Mach,
      exec (.recallHandlerKill core i) s = .next { s with m := m' } ∧
      (getCtx m' core i).ending = some (.failed 0x28) ∧ (getCtx m' core i).wait = some .ending ∧
      ∀ k ∈ clusterCores (clusterOf core),
        (borrowed s.m k = true → (getCore m' k).notices = [] ∧ (getCore m' k).spilled = []) ∧
        (borrowed s.m k = false → (getCore m' k).notices = (getCore s.m k).notices ∧
          (getCore m' k).spilled = (getCore s.m k).spilled))) ∧
  (∀ (s : State) (p : Nat), s.m.phase = .running → (getPart s.m p).recallAt.isSome = true →
    let done := ∀ c ∈ clusterCores p, coreIdle (getCore s.m c) = true ∧ (∀ e ∈ (getCore s.m c).cmds, e.2 = []) ∧
      (∀ x ∈ s.m.restDue, x.1 ≠ c) ∧
      ∀ g ∈ s.m.agents, agentIsOrphan g.1 = true → agentCore g.1 = c → ∀ a ∈ g.2.iq, isCmd a.kind = false
    (¬done → exec (.recallReturn p) s = .next s) ∧
    (done → ∃ m' : Mach, exec (.recallReturn p) s = .next { s with m := m' } ∧ (getPart m' p).lent = false ∧
      (getPart m' p).recallAt = none ∧ (getPart m' p).lendto = 0 ∧ (getPart m' p).owner = (getPart s.m p).owner ∧
      ∀ c ∈ clusterCores p, (getCore m' c).alloc = [] ∧ (getCore m' c).tiles = [] ∧ (getCore m' c).hctx = 0 ∧
        (borrowed s.m c = true → (getCore m' c).notices = [] ∧ (getCore m' c).spilled = []) ∧
        (borrowed s.m c = false → (getCore m' c).notices = (getCore s.m c).notices ∧
          (getCore m' c).spilled = (getCore s.m c).spilled)))

/-! ### The host -/

/-- spec/03 R45, spec/19 R264, R270, R271: writes of a ring's registers by a bound virtual function: TAIL takes a value within
the ring that adds entries, RBASE and RSIZE act while the ring is empty; every other write is ignored and reported with
KIND 4; a read of EQLOST answers the count and clears it. An unbound function's writes do nothing. That a TAIL write of a ring
whose size is none of R45's is reported is the model's choice (log 63), and the place where a submission before bring-up
or of a function that is not enabled is reported its reading of spec/19 R283 (log 70).

spec/03 R44 to R46, R50, Table 3-3, spec/02 R40: the entry at the head of a ring that holds one: LAUNCH submits its LPB,
JOB starts its job, PUSH and CLOSE act as b.push on a work queue of the owner, POST writes a result word of the job at B,
CANCEL cancels the node at A, one of a graph that is still to be considered too (it is never submitted); a refused one is
reported with KIND 1 and the address of its entry (Table 19-4); each is consumed, a POST once the page of its word is
not MOVING (spec/08 R160). That LAUNCH also consumes an entry that can not be read or whose OPC is refused, and that a PUSH at a
full or closed queue is dropped, is log 32; which node CANCEL and POST take is log 30, and KIND 1 for a refused job log 64. -/
def Obligations.HostRings : Prop :=
  ((∀ (s : State) (vf i o : Nat) (val : W32) (base : Word), s.m.phase = .running → 1 ≤ vf → vf ≤ 192 →
    (getVf s.m vf).owner = some o → i < 16 →
    let r := getRing s.m vf i
    let said := eventVf s.m vf 4 0 ((ownerPart s.m o).getD 0) i 0
    let ok : Prop := 4 ≤ r.size ∧ r.size ≤ 16
    let n := val.toNat % 65536
    let held (t : Nat) : Nat := (t + 2 ^ r.size - r.head % 2 ^ r.size) % 2 ^ r.size
    (ok → n < 2 ^ r.size → held r.tail ≤ held n →
      exec (.tailWrite vf i val) s = .next { s with m := setRing s.m vf i { r with tail := n } }) ∧
    (¬ok ∨ 2 ^ r.size ≤ n ∨ held n < held r.tail → exec (.tailWrite vf i val) s = .next { s with m := said }) ∧
    (r.head = r.tail →
      exec (.rbaseWrite vf i base) s = .next { s with m := setRing s.m vf i { r with base := base &&& ~~~0xFFF } } ∧
      exec (.rsizeWrite vf i val) s = .next { s with m := setRing s.m vf i { r with size := val.toNat % 32 } }) ∧
    (r.head ≠ r.tail → exec (.rbaseWrite vf i base) s = .next { s with m := said } ∧
      exec (.rsizeWrite vf i val) s = .next { s with m := said }) ∧
    exec (.eqlostRead vf) s = .next ⟨{ setVf s.m vf { getVf s.m vf with eqlost := 0 } with
      out := s.m.out ++ [.host true false ((getVf s.m vf).eqlost.setWidth 128)] }, s.trust⟩) ∧
  (∀ (s : State) (vf i : Nat) (val : W32) (base : Word),
    let submits := [Instr.tailWrite vf i val, .launch vf i, .job vf i, .push vf i, .close vf i, .post vf i, .cancel vf i]
    ((vf = 0 ∨ 193 ≤ vf ∨ s.m.phase ≠ .running ∨ (getVf s.m vf).owner = none) →
      exec (.rbaseWrite vf i base) s = .next s ∧ exec (.rsizeWrite vf i val) s = .next s ∧ exec (.eqlostRead vf) s = .next s) ∧
    ((vf = 0 ∨ 193 ≤ vf) → ∀ x ∈ submits, exec x s = .next s) ∧
    (1 ≤ vf → vf ≤ 192 → (s.m.phase ≠ .running ∨ (getVf s.m vf).owner = none) →
      ∀ x ∈ submits, exec x s = .next ⟨{ s.m with mailbox := s.m.mailbox ++ [(1, vf)] }, s.trust⟩))) ∧
  (∀ (s : State) (vf i o : Nat), s.m.phase = .running → 1 ≤ vf → vf ≤ 192 → (getVf s.m vf).owner = some o → i < 16 →
    let r := getRing s.m vf i
    4 ≤ r.size → r.size ≤ 16 → pending r ≠ 0 →
    let at_ := r.base + BitVec.ofNat 64 (32 * (r.head % 2 ^ r.size))
    let w := whoOwner s.m o
    let done (m : Mach) : Mach := setRing m vf i { getRing m vf i with head := (r.head + 1) % 2 ^ r.size }
    let refused (m : Mach) (cause : Nat) (va : Word) : Mach := done (eventVf m vf 1 cause ((ownerPart m o).getD 0) i va.toNat)
    (∀ c a, readVa s.m w at_ 32 = .error (c, a) → exec (.launch vf i) s = .next { s with m := refused s.m c.toNat at_ }) ∧
    (∀ x, readVa s.m w at_ 32 = .ok x →
      (x % 256 = 0 ∨ 7 ≤ x % 256 → exec (.launch vf i) s = .next { s with m := refused s.m 0 at_ }) ∧
      (∀ a : Word, x = 1 + a.toNat * 2 ^ 64 →
        (∀ m1 n, submitLaunch s.m w a none false (getAgent s.m hostAgent).own = (m1, .id n) →
          exec (.launch vf i) s = .next { s with m := done m1 }) ∧
        (∀ m1 c, submitLaunch s.m w a none false (getAgent s.m hostAgent).own = (m1, .refused c) →
          exec (.launch vf i) s = .next { s with m := refused m1 c.toNat at_ })) ∧
      (∀ (a : Word) (d : Nat), x = 2 + a.toNat * 2 ^ 64 → readVa s.m w a 64 = .ok d →
        (jobBad s.m w a d = true → exec (.job vf i) s =
          .next { s with m := refused (refuseRec s.m w (BitVec.ofNat 64 d) 0x01) 1 at_ }) ∧
        (jobBad s.m w a d = false →
          let n := s.m.nodeSeq
          let j : JobInfo := ⟨BitVec.ofNat 64 d, BitVec.ofNat 64 (d / 256 ^ 8), BitVec.ofNat 64 (d / 256 ^ 16),
            d / 256 ^ 24 % 65536, d / 256 ^ 28 % 2 ^ 32, BitVec.ofNat 64 (d / 256 ^ 32), 0, none⟩
          let m1 := setNode { s.m with nodeSeq := n + 1 } n { live := true, level := 4, owner := o, recVa := BitVec.ofNat 64 d, job := some j }
          exec (.job vf i) s = .next { s with m := done (settleNode (evaluate (writeRec m1 n) n) n 5) })) ∧
      (∀ (q : BitVec 12) (v : Word),
        let k := getQueue s.m q.toNat
        let ours := k.declared = true ∧ k.work = true ∧ k.owner = o
        let open_ := k.closed = false ∧ k.entries.length < k.depth
        (x = 3 + q.toNat * 65536 + v.toNat * 2 ^ 64 →
          (ours → open_ →
            exec (.push vf i) s = .next { s with m := done (setQueue s.m q.toNat { k with entries := k.entries ++ [v] }) }) ∧
          (ours → ¬open_ → exec (.push vf i) s = .next { s with m := done s.m }) ∧
          (¬ours → exec (.push vf i) s = .next { s with m := refused s.m 0x39 at_ })) ∧
        (x = 4 + q.toNat * 65536 + v.toNat * 2 ^ 64 →
          (ours → open_ → exec (.close vf i) s = .next { s with m := done (setQueue s.m q.toNat { k with closed := true }) }) ∧
          (ours → ¬open_ → exec (.close vf i) s = .next { s with m := done s.m }) ∧
          (¬ours → exec (.close vf i) s = .next { s with m := refused s.m 0x39 at_ }))) ∧
      (∀ (arg : BitVec 6) (v va : Word), x = 5 + arg.toNat * 256 + v.toNat * 2 ^ 64 + va.toNat * 2 ^ 128 →
        (∀ j, (nodesAt s.m o va).find? (fun n => (getNode s.m n).job.isSome) = some j →
          postHeld s.m j (arg.toNat % 16) = true → exec (.post vf i) s = .next s) ∧
        (∀ j, (nodesAt s.m o va).find? (fun n => (getNode s.m n).job.isSome) = some j →
          postHeld s.m j (arg.toNat % 16) = false →
          exec (.post vf i) s = .next { s with m := done (applyPost s.m j (arg.toNat % 16) (arg.toNat / 16) v) }) ∧
        ((∀ n ∈ nodesAt s.m o va, (getNode s.m n).job = none) →
          exec (.post vf i) s = .next { s with m := refused s.m 0 at_ })) ∧
      (∀ (l : Nat) (va : Word), 1 ≤ l → l ≤ 4 → x = 6 + l * 256 + va.toNat * 2 ^ 64 →
        let live := (nodesAt s.m o va).find? (fun n => (getNode s.m n).level == l && !(nodeTerminal (getNode s.m n)))
        let cancels (m : Mach) : Prop := exec (.cancel vf i) s = .next { s with m := done m }
        (∀ n, live = some n → cancels (cancelNode s.m n)) ∧
        (∀ g k, live = none → pendingNode s.m o va = some (g, k) →
          cancels (settleNode (skipGraphNode s.m g k) g 5)) ∧
        (live = none → pendingNode s.m o va = none →
          (∀ n, (nodesAt s.m o va).find? (fun n => (getNode s.m n).level == l) = some n → cancels (cancelNode s.m n)) ∧
          (nodesAt s.m o va = [] → exec (.cancel vf i) s = .next { s with m := refused s.m 0 at_ })))))

/-- spec/17 R257, R247, spec/18 R259, R261: the debug interface of a virtual function: DCTL sets the step mask and the freeze of
the core it names; DPOST ends a slice now or at a command number; RELEASE lets a held context or a parked record go on;
CATCH withholds records and GO releases them, and of a withheld record the debugger reads what its image saved, for its owner
alone. Which of several contexts held at one address RELEASE takes is log 88. -/
def Obligations.DebugInterface : Prop :=
  ∀ (s : State) (vf o : Nat) (val : W32) (v : Word), s.m.phase = .running → 1 ≤ vf → vf ≤ 192 → (getVf s.m vf).owner = some o →
    let f := getVf s.m vf
    let c := val.toNat % 2048
    let d := f.dctl.toNat % 2048
    let n := v.toNat % 16
    (∃ m' : Mach, exec (.singleStep vf val) s = .next { s with m := m' } ∧ m'.mem = s.m.mem ∧
      (getVf m' vf).dctl = f.dctl &&& 0x08000000 ||| val &&& 0x07FFFFFF ∧
      (coreOfOwner s.m c o = true → getCore m' c = { getCore s.m c with stepMask := BitVec.ofNat 16 (val.toNat / 2 ^ 11) }) ∧
      (∀ k, (k ≠ c ∨ coreOfOwner s.m c o = false) → getCore m' k = getCore s.m k)) ∧
    (∃ m' : Mach, exec (.engineFreeze vf val) s = .next { s with m := m' } ∧ m'.mem = s.m.mem ∧
      (getVf m' vf).dctl = f.dctl &&& 0x07FFF800 ||| val &&& 0x080007FF ∧
      (coreOfOwner s.m c o = true → getCore m' c = { getCore s.m c with freeze := val.getLsbD 27 }) ∧
      (∀ k, (k ≠ c ∨ coreOfOwner s.m c o = false) → getCore m' k = getCore s.m k)) ∧
    (let m1 := setVf s.m vf { f with dpost := v }
     (coreOfOwner s.m d o = false →
       exec (.postSliceEndNow vf v) s = .next { s with m := m1 } ∧ exec (.postSliceEndAtEiss vf v) s = .next { s with m := m1 }) ∧
     (coreOfOwner s.m d o = true → v.getLsbD 4 = true → exec (.postSliceEndNow vf v) s = .next { s with m := postedEnd m1 d n }) ∧
     (coreOfOwner s.m d o = true → v.getLsbD 5 = true → 1 ≤ pclassOf (getCtx s.m d n) →
       exec (.postSliceEndAtEiss vf v) s = .next { s with m := report m1 vf o 4 0 0 0 }) ∧
     (coreOfOwner s.m d o = true → v.getLsbD 5 = true → (getCtx s.m d n).unit.isSome = true → pclassOf (getCtx s.m d n) = 0 →
       exec (.postSliceEndAtEiss vf v) s =
         .next { s with m := modCtx m1 d n (fun c => { c with posted := some (v.toNat / 64 % 4, v.toNat / 65536) }) })) ∧
    (let va := v &&& ~~~63
     let m1 := setVf s.m vf { f with release := va }
     (∀ core i rest, holders m1 o va = (core, i) :: rest →
       let w : Who := { whoOf m1 core i with owner := o }
       ((getCtx m1 core i).pre.isSome = true → exec (.release vf v) s =
         .next ⟨readyParked m1 va (releaserHost m1 vf o core (whoOf m1 core i).part) (fun _ _ x => x == o), s.trust⟩) ∧
       (∀ m2, (getCtx m1 core i).pre = none → releaseFrame m1 hostAgent w core i va (afterEpc core i) = .ok m2 →
         exec (.release vf v) s = .next { s with m := m2 }) ∧
       (∀ e, (getCtx m1 core i).pre = none → releaseFrame m1 hostAgent w core i va (afterEpc core i) = .error e →
         exec (.release vf v) s = .next { s with m := report m1 vf o 4 0 0 va.toNat })) ∧
     (∀ r, holders m1 o va = [] →
       s.m.records.find? (fun r => r.frame == some va && r.unit.owner == o && r.ready.isNone) = some r →
       exec (.release vf v) s =
         .next { s with m := readyParked m1 va (releaserHost m1 vf o r.home r.part) (fun _ _ x => x == o) }) ∧
     (holders m1 o va = [] → (∀ r ∈ s.m.records, r.frame = some va → r.unit.owner = o → r.ready.isSome = true) →
       exec (.release vf v) s = .next { s with m := report m1 vf o 4 0 0 va.toNat })) ∧
    (let m1 := setVf s.m vf { f with dcatch := v &&& 0x13F }
     let p := v.toNat % 64
     ((getPart s.m p).owner = some o → exec (.catchRecords vf v) s =
       .next { s with m := setPart m1 p { getPart s.m p with catching := v.getLsbD 8 } }) ∧
     ((getPart s.m p).owner ≠ some o → exec (.catchRecords vf v) s = .next { s with m := m1 })) ∧
    (v.getLsbD 9 = true → exec (.go vf v) s = .next ⟨{ s.m with records := s.m.records.map (fun r =>
      if r.unit.owner = o then { r with withheld := false } else r) }, s.trust⟩) ∧
    (v.getLsbD 9 = false → exec (.go vf v) s = .next s) ∧
    (∀ r im, r ∈ s.m.records → r.withheld = true → r.unit.owner = o → imageOf s.m r.id = some im →
      (∀ k : Nat, k ≠ 0 → savedScalar s.m o r.id k = some (smGet {} im.ctx.sregs k).val) ∧ savedScalar s.m o r.id 0 = some 0 ∧
      savedLoop s.m o r.id = some im.ctx.lsave ∧ ∀ k, savedRow s.m o r.id k = some (smGet (0, 0) im.rows k)) ∧
    (∀ id, (∀ r ∈ s.m.records, r.id = id → r.withheld = false ∨ r.unit.owner ≠ o) →
      savedLoop s.m o id = none ∧ ∀ k, savedScalar s.m o id k = none ∧ savedRow s.m o id k = none)

/-- spec/19 R264, R266, R269, R270, Table 19-1, spec/14 R217, spec/17 R242: a host register write sets the one register that it
names to a value in its range and ignores others; the ring registers of a function's block act as their own events do. A
write of LENDTO sets 64 bits of the mask; that a mask which becomes zero recalls a loan, and that a recall under way stands,
is the model's reading (log 77), and so is that a value out of a setting's range is ignored and leaves the old one (log 38). -/
def Obligations.HostRegisters : Prop :=
  ∀ (s : State) (v : Word), s.m.phase = .running →
    let n := v.toNat
    let sets (r : HostReg) (ok : Prop) (m' : Mach) : Prop :=
      (ok → exec (.registerWrite r v) s = .next { s with m := m' }) ∧ (¬ok → exec (.registerWrite r v) s = .next s)
    (∀ p < 64,
      let q := getPart s.m p
      let part (x : Setting) (ok : Prop) (q' : Part) : Prop := sets (.part p x) ok (setPart s.m p q')
      part .slice (1 ≤ n ∧ n < 2 ^ 32) { q with slice := n } ∧ part .hbudget (n < 256) { q with hbudget := n } ∧
      part .recall (200 ≤ n ∧ n ≤ 1000 ∧ q.lent = false) { q with recallTmo := n } ∧
      part .gangto (1 ≤ n ∧ n < 2 ^ 32) { q with gangto := n } ∧ part .gangset True { q with gangset := v } ∧
      part .gangcnt (n ≤ 64) { q with gangcnt := n } ∧
      part .mirw True { q with mirw := if n < 4096 then some n else none } ∧ part .mbase True { q with mbase := n } ∧
      part .sigreq (n ≤ 1) { q with sigreq := decide (n = 1) } ∧ part .fwdpkt True { q with fwdpkt := v } ∧
      (∀ c < 256, sets (.action p c) True
        (setPart s.m p { q with actions := smPut none q.actions c (some (v.setWidth 32)) })) ∧
      ∀ i < 4, ∃ mask : BitVec 256,
        (∀ j < 256, mask.getLsbD j = if j / 64 = i then v.getLsbD (j % 64) else q.lendto.getLsbD j) ∧
        (q.recallAt.isSome = true → exec (.registerWrite (.lendto p i) v) s = .next s) ∧
        (q.recallAt = none → q.lent = true → mask = 0 → exec (.registerWrite (.lendto p i) v) s =
          .next ⟨(s.m.records.filter (fun r => r.unit.lent && clusterOf r.home == p)).foldl unpinRecord
            (setPart s.m p { q with recallAt := some s.m.cycle }), s.trust⟩) ∧
        (q.recallAt = none → q.lent = false ∨ mask ≠ 0 → exec (.registerWrite (.lendto p i) v) s =
          .next { s with m := setPart s.m p { q with lendto := mask } })) ∧
    (∀ o, sets (.weight o) (o < 256 ∧ n < 256) (setOwnerOf s.m o { getOwner s.m o with weight := n }) ∧
      sets (.cls o) (o < 256 ∧ n < 4) (setOwnerOf s.m o { getOwner s.m o with cls := n })) ∧
    (∀ vf, sets (.bind vf) (1 ≤ vf ∧ vf ≤ 192 ∧ n ≤ 256)
      (setVf s.m vf { getVf s.m vf with owner := if n < 256 then some n else none })) ∧
    sets .fabricNumber True { s.m with number := n % 65536 } ∧
    (∀ i, let h := smGet {} s.m.hdms i
      sets (.hdmBase i) (i < 8) { s.m with hdms := smPut {} s.m.hdms i { h with base := n } } ∧
      sets (.hdmSize i) (i < 8) { s.m with hdms := smPut {} s.m.hdms i { h with size := n } } ∧
      sets (.hdmOwner i) (i < 8 ∧ n < 256) { s.m with hdms := smPut {} s.m.hdms i { h with owner := n } }) ∧
    (∀ vf o, 1 ≤ vf → vf ≤ 192 → (getVf s.m vf).owner = some o →
      let f := getVf s.m vf
      sets (.vf vf 0x400) True (setVf s.m vf { f with eqbase := v &&& ~~~0xFFF }) ∧
      sets (.vf vf 0x408) True (setVf s.m vf { f with eqsize := n % 32 }) ∧
      sets (.vf vf 0x40C) True (setVf s.m vf { f with eqhead := n % 65536 }) ∧
      exec (.registerWrite (.vf vf 0x850) v) s = exec (.release vf v) s ∧
      exec (.registerWrite (.vf vf 0x858) v) s = .next ⟨writeGo (writeCatch s.m vf o v) o v, s.trust⟩ ∧
      (∀ k < 8, sets (.vf vf (0x800 + 8 * k)) True (setVf s.m vf { f with bp := smPut 0 f.bp k (v &&& 0x33FFFFFFFFF) })) ∧
      (∀ k < 16, exec (.registerWrite (.vf vf (0x100 + 32 * k)) v) s = exec (.rbaseWrite vf k v) s ∧
        exec (.registerWrite (.vf vf (0x108 + 32 * k)) v) s = exec (.rsizeWrite vf k (v.setWidth 32)) s ∧
        exec (.registerWrite (.vf vf (0x10C + 32 * k)) v) s = exec (.tailWrite vf k (v.setWidth 32)) s))

/-- spec/19 R264 to R268, R281: SET_ROOT and SET_RECAREA of values they allow; SET_OWNER of a partition that nothing of its
owner uses: the new owner, default actions, no loan, no notice, a new memory key; else refused and reported to PF0. A key goes
into the slot of an owner that the write names. That a SET_RECAREA of values that do not fit is reported with KIND 4, that an
unaligned SET_ROOT and a key slot that is none are ignored, is log 38; that the control core's local memory is zeroed with the
pools is log 80. -/
def Obligations.PartitionsChange : Prop :=
  (∀ (s : State) (p : Nat) (pa : Word), s.m.phase = .running →
    (p < 64 → pa.toNat % 32768 = 0 → exec (.setRoot p pa) s = .next ⟨{ setPart s.m p { getPart s.m p with root := pa.toNat } with
      invals := s.m.invals ++ [⟨p, false, 0, true, 0⟩] }, s.trust⟩) ∧
    (64 ≤ p ∨ pa.toNat % 32768 ≠ 0 → exec (.setRoot p pa) s = .next s)) ∧
  (∀ (s : State) (p : Nat) (va : Word) (imgs recs : Nat), s.m.phase = .running → p < 64 →
    let free := partBusy s.m p = false ∧ ownerQueued s.m (getPart s.m p).owner = false
    let fits := va.toNat % 65536 = 0 ∧ va.toNat < 14 * 2 ^ 60 ∧ 288 ≤ imgs ∧ imgs ≤ 4096 ∧ 1024 ≤ recs ∧ recs ≤ 2 ^ 20
    (free → fits → exec (.setRecarea p va imgs recs) s =
      .next { s with m := setPart s.m p { getPart s.m p with recarea := some va, imgcnt := imgs, reccnt := recs } }) ∧
    (¬free ∨ ¬fits → exec (.setRecarea p va imgs recs) s = .next { s with m := pf0Event s.m 4 p 0 })) ∧
  (∀ (s : State) (p : Nat) (owner : Option Byte), s.m.phase = .running → p < 64 →
    owner.map (·.toNat) ≠ (getPart s.m p).owner →
    let free := partBusy s.m p = false ∧ ownerQueued s.m (getPart s.m p).owner = false ∧
      ∀ c ∈ partCores p, ∀ e ∈ (getCore s.m c).alloc, e.2.used = false
    (¬free → exec (.setOwner p owner) s = .next { s with m := pf0Event s.m 4 p 0 }) ∧
    (free → ∃ t : State, exec (.setOwner p owner) s = .next t ∧
      (let q := getPart t.m p
       q.owner = owner.map (·.toNat) ∧ q.actions = [] ∧ q.lendto = 0 ∧ q.lent = false ∧ q.recallAt = none) ∧
      (∀ k, k ≠ p → getPart t.m k = getPart s.m k) ∧
      (∀ c ∈ partCores p, (getCore t.m c).tiles = [] ∧ (getCore t.m c).alloc = [] ∧ (getCore t.m c).bars = [] ∧
        (getCore t.m c).notices = [] ∧ (getCore t.m c).spilled = []) ∧ t.m.memGen = t.trust.memKeys ∧
      t.trust = { s.trust with memKeys := smPut 0 s.trust.memKeys p (s.trust.keySeq + 1), keySeq := s.trust.keySeq + 1 } ∧
      t.m.invals = s.m.invals ++ [⟨p, false, 0, true, 0⟩])) ∧
  (∀ (m : Mach) (core : Nat),
    let size := if isControl core then 2 ^ 20 else 2 ^ 22
    (∀ off < size, readByte (clearCore m core).mem (poolPa core off) = 0) ∧
    ∀ a, (a < poolPa core 0 ∨ poolPa core 0 + size ≤ a) → readByte (clearCore m core).mem a = readByte m.mem a) ∧
  (∀ (s : State) (owner slot : Nat) (id : Word) (key : Nat), s.m.phase = .running →
    (owner < 256 → slot < 4 → exec (.keyInstall owner slot id key) s = .next ⟨s.m, { s.trust with
      imageKeys := smPut none s.trust.imageKeys (4 * owner + slot) (some ⟨id, key⟩) }⟩) ∧
    (256 ≤ owner ∨ 4 ≤ slot → exec (.keyInstall owner slot id key) s = .next s))

/-- spec/19 R269, R278, spec/11 R202, R188: a host access inside its HDM range: a read answers the granule's bytes at the
position chosen among those the host may read, a write stores its bytes and no others; an access outside is answered as
an unsupported request, an uncorrectable granule as poison. A read of a pool (spec/10 R181) answers its bytes once nothing
waits at its port; who may read which pool is the model's choice (log 72). -/
def Obligations.HostMemory : Prop :=
  ∀ (s : State) (h pa size pos : Nat) (data : Gran), s.m.phase = .running → size ∈ [1, 2, 4, 8, 16] → pa % size = 0 →
    let g := pa / 16 * 16
    let answer (m : Mach) (x : Msg) : Mach := { m with out := m.out ++ [x] }
    (hostReaches s.m h pa size = false →
      (pa < poolBase → exec (.hostMemRead h pa size pos) s = .next { s with m := answer s.m (.host false false 0) }) ∧
      exec (.hostMemWrite h pa size data) s = .next { s with m := answer s.m (.host false false 0) }) ∧
    (poolBase ≤ pa →
      let quiet := (poolOf s.m pa).all (fun c => (getCore s.m c).port.isEmpty)
      (quiet = false → exec (.hostMemRead h pa size pos) s = .next s) ∧
      (quiet = true → hostReadsPool s.m h pa size = true → exec (.hostMemRead h pa size pos) s =
        .next { s with m := answer s.m (.host true false (BitVec.ofNat 128 (readNow s.m pa size))) }) ∧
      (quiet = true → hostReadsPool s.m h pa size = false → exec (.hostMemRead h pa size pos) s =
        .next { s with m := answer s.m (.host false false 0) })) ∧
    (hostReaches s.m h pa size = true →
      (granBad s.m g = true →
        exec (.hostMemRead h pa size pos) s = .next { s with m := answer s.m (.host true true 0) }) ∧
      (granBad s.m g = false → viewOf s.m hostAgent g ≤ pos → pos ≤ newestPos s.m g →
        exec (.hostMemRead h pa size pos) s = .next ⟨answer (raiseView s.m hostAgent g pos) (.host true false
          (BitVec.ofNat 128 ((contentAt s.m g pos).toNat / 256 ^ (pa % 16) % 256 ^ size))), s.trust⟩) ∧
      (frozenPa s.m pa size = true → exec (.hostMemWrite h pa size data) s = .next s) ∧
      (frozenPa s.m pa size = false → ∃ m' : Mach, exec (.hostMemWrite h pa size data) s = .next { s with m := m' } ∧
        m'.out = s.m.out ++ [.host true false 0] ∧ m'.step = s.m.step + 1 ∧
        (∀ j < size, readByte m'.mem (pa + j) = BitVec.ofNat 8 (data.toNat / 256 ^ j)) ∧
        (∀ a, (a < pa ∨ pa + size ≤ a) → readByte m'.mem a = readByte s.m.mem a)))

/-! ### Reset, the trust die, guards of the part -/

/-- spec/01 R16, spec/19 R273, R276, R277, R281 to R283: package reset checks each die's firmware, its SHAKE256 digest against
the expected measurement and its Falcon-1024 signature, and releases all five dies, with memory and registers at
their reset values, or none; every partition then has a memory key of its own, and a port that fails to train is down;
after a loss of power the part is in reset; both keep what the trust die stores. The content of HBM after reset is the
model's choice (log 3); so are the mailbox entries of the dies that fail (logs 38 and 73), that the expected measurements and
the maker's key are of the trust die's store (log 8), and the one scan pass that every core has after bring-up (log 41).

The defaults that spec/19 Table 19-1, spec/04 Tables 4-3 to 4-5 and spec/05 state for reset: phase, partitions, cores,
contexts; and the empty memory, which is in its canonical form (its content is the model's choice, log 3). The trust die's
store as it is then is the model's choice (log 2). -/
def Obligations.ResetState : Prop :=
  ((∀ s : State, ∃ t : State, exec .packageReset s = .next t ∧
    t.trust.imageKeys = s.trust.imageKeys ∧ t.trust.usage = s.trust.usage ∧
    t.trust.life = s.trust.life ∧ t.trust.retirements = s.trust.retirements ∧ t.trust.alarm = none ∧
    t.m.retired = s.m.retired ∧ t.m.tret = s.m.tret ∧ t.m.portsDown = s.m.portsDown ∧ t.m.mem = [] ∧ t.m.noPlace = false ∧
    t.m.trims = s.trust.trims ∧ t.trust.dieOk = diesOk s.trust ∧
    (if diesOk s.trust = 31 then t.m.phase = .running ∧ t.trust.released = true ∧ t.trust.reports = [] ∧
      (∀ p < 64, smGet 0 t.trust.memKeys p = s.trust.keySeq + p + 1 ∧
        memKey t.trust p = some (Config.freshKey (s.trust.keySeq + p + 1))) ∧ t.m.memGen = t.trust.memKeys ∧
      (∀ p < 64, (getLink t.m p).down = s.trust.portFails.getLsbD p) ∧
      (∀ c < 64, (getCluster t.m c).scanStart = some 0) ∧
      (∀ c < 1152, getCore t.m c = { scanPasses := 1, spareBanks := (s.trust.retirements.filter (isBankOf c)).length }) ∧
      (∀ c i, getCtx t.m c i = {}) ∧ (∀ p, getPart t.m p = {})
    else t.m.phase = .failed ∧ t.trust.released = false ∧ t.trust.memKeys = s.trust.memKeys ∧
      (∀ c, getCore t.m c = {}) ∧ (∀ d, d ∈ t.trust.reports ↔ d < 5 ∧ (diesOk s.trust).getLsbD d = false) ∧
      t.m.mailbox = t.trust.reports.map (fun d => (0, d)))) ∧
  (∀ (t : Trust) (d : Nat), d < 5 →
    let digest := Config.shake256 (smGet [] t.firmware d)
    ((diesOk t).getLsbD d = true ↔
      digest = smGet 0 t.expected d ∧ Config.falconVerify t.makerKey digest (smGet 0 t.signatures d) = true)) ∧
  (∀ s : State, ∃ t : State, exec .powerLoss s = .next t ∧ t.m.phase = .inReset ∧ t.trust.released = false ∧
    t.trust.imageKeys = s.trust.imageKeys ∧ t.trust.memKeys = s.trust.memKeys ∧ t.trust.usage = s.trust.usage ∧
    t.trust.life = s.trust.life ∧ t.trust.retirements = s.trust.retirements ∧ t.trust.alarm = none ∧
    t.m.retired = s.m.retired ∧ t.m.tret = s.m.tret ∧ t.m.mem = [] ∧ t.m.nodes = [] ∧ t.m.records = [] ∧ t.m.cores = [])) ∧
  (Sys2Proof.Machine.State.reset.m.phase = .inReset ∧ memWf Sys2Proof.Machine.State.reset.m.mem = true ∧
  (∀ p, let q := getPart Sys2Proof.Machine.State.reset.m p
    q.slice = 250000 ∧ q.hbudget = 4 ∧ q.recallTmo = 1000 ∧ q.gangto = 15625 ∧ q.owner = none ∧ q.actions = [] ∧ q.mirw = none) ∧
  (∀ c i, let x := getCtx Sys2Proof.Machine.State.reset.m c i
    x.st = .free ∧ x.fmto0 = 0x780050 ∧ x.fmto1 = 0x780050 ∧ x.lepi = 0 ∧ x.preds = 0 ∧ x.gapcnt = 0 ∧
    x.slice = 250000 ∧ x.hbudget = 4) ∧
  Sys2Proof.Machine.State.reset.trust.released = false)

/-- spec/19 R282, R277, R276, R278: an alarm erases the keys, stops placement, tells PF0 and is latched; throttling changes
only the clock; a prediction below 10,000 hours is reported once; corrected errors are kept with their ticks and old
ones dropped; an uncorrectable granule is marked.

spec/19 R279, spec/14 R233: a member that is down holds placement of the gangs it belongs to, and the spare's fill begins with
the entries of the runtime's table, from the other method where a mirror's package is down too; a second member that goes down
in the hold is filled too; when every entry is filled
placement resumes; an entry whose source failed starts again from the other method, once, and then the job is cancelled.
How the failure of a fill comes to the model is its choice (log 74), and so is the mailbox entry (0, 0) of an alarm, with no
event in a ring (log 38).

spec/14 R218: a flit in sequence is taken once; one whose CRC fails is asked for again, and so is one that a later flit shows
to be missing; a flit asked for is sent again, and the flits behind it, whose number is free (log 91); the sixteenth failed
replay in a row takes the link down, which PF0 learns; a link that is down or retired carries nothing. -/
def Obligations.GuardsOfThePart : Prop :=
  ((∀ (s : State) (c : AlarmCause), s.m.phase = .running →
    (s.trust.alarm = none → exec (.securityAlarm c) s = .next ⟨{ s.m with
      erased := true, noPlace := true, mailbox := s.m.mailbox ++ [(0, 0)] }, { s.trust with alarm := some c, memKeys := [] }⟩) ∧
    (s.trust.alarm ≠ none → exec (.securityAlarm c) s = .next s)) ∧
  (∀ (s : State) (on : Bool), s.m.phase = .running →
    exec (.thermalThrottle on) s = .next { s with m := { s.m with throttled := on } }) ∧
  (∀ (s : State) (d : Nat) (hours : W32), s.m.phase = .running → d < 6 → ∃ t : State, exec (.wearWarning d hours) s = .next t ∧
    smGet none t.trust.life d = some hours ∧ (∀ e, e ≠ d → smGet none t.trust.life e = smGet none s.trust.life e) ∧
    (hours.toNat < 10000 → smGet false s.trust.wearSent d = false → t.m = pf0Event s.m 10 0 d) ∧
    (10000 ≤ hours.toNat ∨ smGet false s.trust.wearSent d = true → t.m = s.m) ∧
    smGet false t.trust.wearSent d = decide (hours.toNat < 10000)) ∧
  (∀ (s : State) (c b p : Nat), s.m.phase = .running →
    let now := s.m.nowt
    let young (span : Nat) (ts : List Nat) : List Nat := now :: ts.filter (fun t => now < t + span)
    let k := getCore s.m c
    let l := getLink s.m p
    (let ts := young 1350000000000 k.errs
     exec (.correctedError (.core c)) s =
       .next { s with m := setCore s.m c { k with errs := ts, retireDue := k.retireDue || 16 ≤ ts.length } }) ∧
    (let ts := young 1350000000000 (smGet [] k.bankErrs b)
     ∃ m' : Mach, exec (.correctedError (.bank c b)) s = .next { s with m := m' } ∧ smGet [] (getCore m' c).bankErrs b = ts ∧
       (∀ x, x ∈ (getCore m' c).banksDue ↔ x ∈ k.banksDue ∨ x = b ∧ 16 ≤ ts.length) ∧ m'.mem = s.m.mem) ∧
    (let ts := young 56250000000 l.replays
     exec (.correctedError (.port p)) s =
       .next { s with m := setLink s.m p { l with replays := ts, retireDue := l.retireDue || 10000 ≤ ts.length } })) ∧
  (∀ (s : State) (pa : Nat) (bad : Bool), s.m.phase = .running → pa < 0x8000000000 → ∃ m' : Mach,
    exec (.scrubGranule pa bad) s = .next { s with m := m' } ∧ m'.scrubPos = pa / 16 * 16 ∧ m'.mem = s.m.mem ∧
    (∀ g, g ∈ m'.poisoned ↔ g ∈ s.m.poisoned ∨ bad = true ∧ g = pa / 16 * 16))) ∧
  ((∀ (s : State) (pkg : Nat), s.m.phase = .running → smWf {} s.m.gangs = true → (∀ e ∈ s.m.gangs, e.2.hold = none ∧ e.2.alsoDown = []) →
    s.m.fillTable ≠ [] → (∀ f ∈ s.m.fillTable, f.filled = false ∧ f.tried = false) →
    ∃ m' : Mach, exec (.memberDown pkg) s = .next { s with m := m' } ∧ m'.mem = s.m.mem ∧ pkg ∈ m'.downPkgs ∧ (∀ k,
      let g := getGang s.m k
      getGang m' k = if g.live ∧ g.coordinator ∧ pkg ∈ g.members then { g with
          hold := some pkg
          fills := s.m.fillTable.map (fun f => if f.method = 0 ∧ (f.src = pkg ∨ f.src ∈ s.m.downPkgs) then
            { f with method := 1, tried := true } else f) }
        else g)) ∧
  (∀ (s : State) (k pkg p0 : Nat), s.m.phase = .running → smWf {} s.m.gangs = true →
    let g := getGang s.m k
    g.live = true → g.coordinator = true → pkg ∈ g.members → g.hold = some p0 → p0 ≠ pkg → pkg ∉ g.alsoDown →
    (∃ f ∈ s.m.fillTable, f.filled = false) → (∀ f ∈ g.fills ++ s.m.fillTable, f.method ≠ 0) →
    ∃ m' : Mach, exec (.memberDown pkg) s = .next { s with m := m' } ∧
      getGang m' k = { g with alsoDown := g.alsoDown ++ [pkg], fills := g.fills ++ s.m.fillTable }) ∧
  (∀ (s : State) (k entry : Nat) (failed : Bool), s.m.phase = .running →
    let g := getGang s.m k
    (g.hold = none ∨ g.fills.length ≤ entry → exec (.spareFillDone ⟨k, entry, failed⟩) s = .next s) ∧
    (∀ pkg f, g.hold = some pkg → g.fills[entry]? = some f →
      let put (f : SpareFill) : Mach := setGang s.m k { g with fills := g.fills.set entry f }
      exec (.spareFillDone ⟨k, entry, false⟩) s = .next { s with m := fillStands (put { f with filled := true }) k } ∧
      (f.tried = false → exec (.spareFillDone ⟨k, entry, true⟩) s =
        .next { s with m := put { f with method := 1 - f.method, tried := true, filled := false } }) ∧
      (f.tried = true → exec (.spareFillDone ⟨k, entry, true⟩) s =
        .next { s with m := cancelGangJob (setGang s.m k { g with hold := none, fills := [], alsoDown := [] }) k 9 }))) ∧
  (∀ (m : Mach) (k pkg : Nat),
    let g := getGang m k
    g.hold = some pkg →
    ((∀ f ∈ g.fills, f.filled = true) → fillStands m k =
      { setGang m k { g with hold := none, fills := [], alsoDown := [] } with
        downPkgs := m.downPkgs.filter (fun d => d != pkg && !(g.alsoDown.contains d)) }) ∧
    ((∃ f ∈ g.fills, f.filled = false) → (∀ f ∈ g.fills, f.filled = true ∨ f.tried = true ∨ f.method ≠ 0 ∨ f.src ∉ m.downPkgs) →
      fillStands m k = setGang m k g)) ∧
  (∀ (s : State) (port seq : Nat), s.m.phase = .running → port < 64 →
    let l := getLink s.m port
    (linkOff s.m port = true → ∀ b, exec (.flitReceive port seq b) s = .next s ∧ exec (.replayRequest port seq) s = .next s) ∧
    (linkOff s.m port = false →
      let ts := s.m.nowt :: l.replays.filter (fun t => s.m.nowt < t + 56250000000)
      let l' (n : Nat) : Link := { l with
        replays := ts, retireDue := l.retireDue || 10000 ≤ ts.length, down := decide (16 ≤ n) }
      let counts (m1 : Mach) (n : Nat) : Prop :=
        (16 ≤ n → smGet false m1.portsDown port = true ∧ m1.mailbox = s.m.mailbox ++ [(6, 0)]) ∧
        (n < 16 → m1.portsDown = s.m.portsDown ∧ m1.mailbox = s.m.mailbox ∧ m1.mem = s.m.mem)
      let asks (ok : Bool) (q n : Nat) : Prop := ∃ m1 : Mach, exec (.flitReceive port seq ok) s = .next { s with m := m1 } ∧
        getLink m1 port = { l' n with asked := if l.asked.contains q then l.asked else l.asked ++ [q], rxFails := n } ∧
        m1.out = s.m.out ++ [.askReplay port q] ∧ counts m1 n
      (seq < l.rxSeq → ∀ b, exec (.flitReceive port seq b) s = .next s) ∧
      (seq = l.rxSeq → ∃ n : Nat, exec (.flitReceive port seq true) s = .next ⟨setLink s.m port { l with
        rxSeq := l.rxSeq + 1, asked := l.asked.filter (fun x => l.rxSeq < x)
        rxFails := if l.asked.contains seq then 0 else l.rxFails
        buffer := l.buffer.drop n, resent := l.resent.filter (fun x => !((l.buffer.take n).contains x))
        txFails := if (l.buffer.take n).any l.resent.contains then 0 else l.txFails }, s.trust⟩) ∧
      (l.rxSeq < seq → l.rxSeq ∈ l.asked → exec (.flitReceive port seq true) s = .next s) ∧
      (l.rxSeq < seq → l.rxSeq ∉ l.asked → asks true l.rxSeq l.rxFails) ∧
      (l.rxSeq ≤ seq → asks false seq (if l.asked.contains seq then l.rxFails + 1 else l.rxFails)) ∧
      (let n := if l.resent.contains seq then l.txFails + 1 else l.txFails
       ∃ (m2 : Mach) (k : Nat), exec (.replayRequest port seq) s = .next { s with m := m2 } ∧
         let again := (List.range (k + 1)).map (seq + ·)
         getLink m2 port = { l' n with
           resent := (l.resent ++ again).eraseDups, buffer := (l.buffer ++ again).eraseDups, txFails := n } ∧
         m2.out = s.m.out ++ again.map (Msg.flit port) ∧ counts m2 n))))

/-- spec/19 R274 to R276: a scan pass of a cluster starts 40,000 ticks after the one before, drains its core, and skips one
that runs a unit of PCLASS 2 or above; a passed pass clears what ran there before it began; a failed one taints the launches
that it does not cover, ends the pre-emption records of the core and retires the core. What has reached its threshold
retires at the next drain: a core, a bank, or a port whose replay buffer is empty, and the trust die stores it. That a due core
which is scanned out of turn leaves scanNext where it was is log 41. -/
def Obligations.ScanAndRetirement : Prop :=
  (∀ (s : State) (cl t : Nat), s.m.phase = .running → cl < 64 → (getCluster s.m cl).scanStart = some t →
    (s.m.nowt < t + 40000 → exec (.scanPassStart cl) s = .next s) ∧
    (t + 40000 ≤ s.m.nowt → (∀ c ∈ clusterCores cl, (getCore s.m c).scan.draining = false) →
      (∀ c, scanTarget s.m cl = some c → ∃ m' : Mach, exec (.scanPassStart cl) s = .next { s with m := m' } ∧
        (getCluster m' cl).scanStart = some s.m.nowt ∧ (getCluster m' cl).scanNext =
          (if scanTurn s.m cl = some c then (c % 18 + 1) % 18 else (getCluster s.m cl).scanNext) ∧
        (getCore m' c).scan = (if holdsClass2 (getCore s.m c) then { (getCore s.m c).scan with due := true }
          else { (getCore s.m c).scan with draining := true, began := s.m.nowt, beganStep := s.m.fresh }) ∧
        m'.mem = s.m.mem) ∧
      (scanTarget s.m cl = none → exec (.scanPassStart cl) s = .next s))) ∧
  (∀ (s : State) (core : Nat) (pass : Bool), s.m.phase = .running →
    let k := getCore s.m core
    (k.scan.draining = false ∨ coreIdle k = false → exec (.scanPassEnd core pass) s = .next s) ∧
    (k.scan.draining = true → coreIdle k = true →
      (pass = true → ∃ m' : Mach, exec (.scanPassEnd core pass) s = .next { s with m := m' } ∧
        (getCore m' core).scanPasses = k.scanPasses + 1 ∧ (getCore m' core).scan = { lastBegan := k.scan.began } ∧
        ∀ i, (getNode s.m i).live = true → (getNode s.m i).level = 1 → (getNode s.m i).final = false →
          ∀ r ∈ (getNode m' i).ran, r.core = core → r.step < k.scan.beganStep → r.cleared = true) ∧
      (pass = false → ∃ t : State, exec (.scanPassEnd core pass) s = .next t ∧ smGet false t.m.retired core = true ∧
        t.trust.retirements = s.trust.retirements ++ [.core core] ∧ (getCore t.m core).scan.draining = false ∧
        (∀ i ∈ ranThere s.m core, (getNode t.m i).tainted = true) ∧
        (∀ r ∈ t.m.records, r.home = core → r.image = none)))) ∧
  (∀ (s : State) (c b p : Nat), s.m.phase = .running →
    let k := getCore s.m c
    let l := getLink s.m p
    let gone : State := ⟨{ s.m with retired := smPut false s.m.retired c true },
      { s.trust with retirements := s.trust.retirements ++ [.core c] }⟩
    let works : Prop := c < 1152 ∧ coreIdle k = true ∧ smGet false s.m.retired c = false
    (works → k.retireDue = true → exec (.retirement (.core c)) s = .next gone) ∧
    (¬works ∨ k.retireDue = false → exec (.retirement (.core c)) s = .next s) ∧
    (works → b ∈ k.banksDue →
      (2 ≤ k.spareBanks → exec (.retirement (.bank c b)) s = .next gone) ∧
      (k.spareBanks < 2 → exec (.retirement (.bank c b)) s = .next
        ⟨setCore s.m c { k with
          spareBanks := k.spareBanks + 1, bankErrs := smDel k.bankErrs b, banksDue := k.banksDue.filter (· != b) },
         { s.trust with retirements := s.trust.retirements ++ [.bank c b] }⟩)) ∧
    (¬works ∨ b ∉ k.banksDue → exec (.retirement (.bank c b)) s = .next s) ∧
    (let down : Mach := { s.m with portsDown := smPut false s.m.portsDown p true }
     p < 64 → s.trust.retirements.contains (.port p) = false → (l.retireDue = true ∧ l.buffer = [] ∨ l.down = true) →
      exec (.retirement (.port p)) s = .next
        ⟨if l.down then down else pf0Event down 6 0 0,
         { s.trust with retirements := s.trust.retirements ++ [.port p] }⟩) ∧
    (64 ≤ p ∨ l.down = false ∧ (l.retireDue = false ∨ l.buffer ≠ []) → exec (.retirement (.port p)) s = .next s))

/-- spec/19 R280, Table 19-9: the SPDM responder answers every request, in the order of the connection; before it an ERROR. A
CHALLENGE, a measurement and a key exchange are signed with Falcon-1024 over the SHAKE256 digest of their content and
nonce, each number whole; measurements 1 to 7 are digests of the boot ROM, the dies' firmware and the store, 8 the usage
counters. No request changes the machine. The codes are PRESUMED (log 8), and so is the flag of a die that failed its
check (log 73). -/
def Obligations.TrustRequests : Prop :=
  ∀ (s : State) (slot nonce data index : Nat),
    let t := s.trust
    let free (code n : Nat) : Nat := Config.spdmBody code n
    let sign (xs : List Nat) : List Nat := xs ++ [Config.falconSign (Config.shake256 (xs.map numBytes).flatten)]
    let failed (d : Nat) : Nat := if d ∈ t.reports then 1 else 0
    let gives (i : Instr) (need reach code : Nat) (body : List Nat) : Prop :=
      (t.spdm < need → exec i s = .next { s with trust := { t with responses := t.responses ++ [(0x7F, [])] } }) ∧
      (need ≤ t.spdm → exec i s = .next ⟨s.m, { t with spdm := max t.spdm reach, responses := t.responses ++ [(code, body)] }⟩)
    exec .getVersion s = .next ⟨s.m, { t with spdm := 1, session := false, responses := t.responses ++ [(0x04, [0x12])] }⟩ ∧
    gives .getCapabilities 1 2 0x61 [free 0x61 0] ∧
    gives (.negotiateAlgorithms true) 2 3 0x63 [free 0x63 0] ∧ gives (.negotiateAlgorithms false) 2 2 0x7F [] ∧
    gives .getDigests 3 3 0x01 [free 0x01 0] ∧ gives (.getCertificate slot) 3 3 0x02 [free 0x02 slot] ∧
    gives (.challenge nonce) 3 3 0x03 (sign [free 0x03 0, nonce]) ∧
    gives (.getMeasurements 1 nonce) 3 3 0x60 (sign [1, Config.shake256 t.bootRom, nonce]) ∧
    (∀ d < 5, gives (.getMeasurements (d + 2) nonce) 3 3 0x60
      (sign [d + 2, Config.shake256 (smGet [] t.firmware d), failed d, nonce])) ∧
    gives (.getMeasurements 7 nonce) 3 3 0x60 (sign [7, Config.shake256 ((storeNums s).map numBytes).flatten, nonce]) ∧
    (∀ xs ys : List Nat, (xs.map numBytes).flatten = (ys.map numBytes).flatten → xs = ys) ∧
    gives (.getMeasurements 8 nonce) 3 3 0x60 (sign (8 :: (t.usage.map (fun e =>
      [e.1, e.2.cycles, e.2.beats, e.2.lentIn, e.2.lentOut])).flatten ++ [nonce])) ∧
    (index = 0 ∨ 9 ≤ index → gives (.getMeasurements index nonce) 3 3 0x7F []) ∧
    gives (.keyExchange data) 3 4 0x64 (sign [free 0x64 data, data]) ∧
    (t.spdm < 4 → exec (.finish data) s = .next { s with trust := { t with responses := t.responses ++ [(0x7F, [])] } }) ∧
    (4 ≤ t.spdm → exec (.finish data) s =
      .next ⟨s.m, { t with spdm := 3, session := true, responses := t.responses ++ [(0x65, [free 0x65 data])] }⟩)

/-- spec/01 R16, spec/19 R283: while the part is not running, an event other than reset, loss of power and the requests to the
trust die changes nothing, but for a submission of a virtual function, a ring's TAIL or an entry, which is reported to PF0
(where it is reported is log 70); the clock does not run. -/
def Obligations.OnlyTheTrustDieRuns : Prop :=
  (∀ (i : Instr) (s : State), isWord i = false → s.m.phase ≠ .running →
    let said (vf : Nat) : Prop := 1 ≤ vf ∧ vf ≤ 192 ∧ exec i s = .next { s with m := { s.m with mailbox := s.m.mailbox ++ [(1, vf)] } }
    exec i s = .next s ∨
    (∃ vf n, said vf ∧ ((∃ v, i = .tailWrite vf n v) ∨ i = .launch vf n ∨ i = .job vf n ∨ i = .push vf n ∨ i = .close vf n ∨
      i = .post vf n ∨ i = .cancel vf n ∨ ∃ k v, k < 16 ∧ i = .registerWrite (.vf vf (0x10C + 32 * k)) v)) ∨
    i = .packageReset ∨ i = .powerLoss ∨ i = .getVersion ∨ i = .getCapabilities ∨
    (∃ b, i = .negotiateAlgorithms b) ∨ i = .getDigests ∨ (∃ n, i = .getCertificate n) ∨ (∃ n, i = .challenge n) ∨
    (∃ n k, i = .getMeasurements n k) ∨ (∃ n, i = .keyExchange n) ∨ (∃ n, i = .finish n)) ∧
  (∀ m : Mach, m.phase ≠ .running → tick m = m)

/-! ### The fabric -/

/-- spec/14 R220, R223 to R226, spec/11 R190, R200, spec/12 R207: requests at their target. One is taken in its turn: refused at
a frozen frame, or with 0x09 where the KIND of its window does not reach; else its blocks land one after the other, each in
granule parts, and nothing lands after a block that was refused; the event of a load names the block. At its end it is
answered: a load with the bytes read, a write with the blocks written, its notice before. A direct reduction applies its
operation to the target's elements, one block in one action (which NaN an FP32 lane takes is log 12); a replica is the combine unit's write. The last part of a
block counts against its barrier. -/
def Obligations.RemoteRequests : Prop :=
  (∀ (s : State) (r : RemoteReq), s.m.phase = .running →
    let got (x : Msg) : Mach := { s.m with out := s.m.out.erase x }
    let send (m : Mach) (x : Msg) : Mach := { m with out := m.out ++ [x] }
    let moved (m : Mach) : Mach := { m with
      migration := m.migration.map (fun g => { g with nacks := g.nacks ++ [(r.src, r.srcCore, r.id)] }) }
    let first (x : Msg) (agent : Nat) : Landing := { id := s.m.fresh, msg := x, agent := agent }
    let taken (x : Msg) (agent : Nat) : Mach := { got x with landings := s.m.landings ++ [first x agent] }
    let blocks := (r.len + 63) / 64
    let write (i : Instr) (x : Msg) (agent src : Nat) : Prop :=
      (landingFor s.m x = none →
        (mayLand s.m x r.src = false → exec i s = .next s) ∧
        (mayLand s.m x r.src = true →
          (frozenPa s.m r.pa r.len = true → exec i s = .next { s with m := moved (got x) }) ∧
          (frozenPa s.m r.pa r.len = false → kindRefuses r = true →
            exec i s = .next { s with m := send (got x) (.ack r.src r.srcCore r.id 0x09 0) }) ∧
          (frozenPa s.m r.pa r.len = false → kindRefuses r = false →
            exec i s = .next { s with m := landBlockAt (taken x agent) (first x agent) r .st 0 }))) ∧
      (∀ l, landingFor s.m x = some l →
        let ends (n : Nat) : Prop := exec i s =
          .next { s with m := send (landNotice (endLanding s.m l) l r src) (.ack r.src r.srcCore r.id l.cause n) }
        (l.left ≠ 0 → exec i s = .next s) ∧
        (l.left = 0 → l.cause = 0 → l.blk + 1 < blocks → exec i s = .next { s with m := landBlockAt s.m l r .st (l.blk + 1) }) ∧
        (l.left = 0 → l.cause = 0 → blocks ≤ l.blk + 1 → ends blocks) ∧ (l.left = 0 → l.cause ≠ 0 → ends l.blk))
    write (.remoteStoreRequest r) (.store s.m.number r) (remoteAgent s.m r) (r.src * 65536 + r.srcCore) ∧
    write (.multicastReplica r) (.replica s.m.number r) combineAgent (r.src * 65536 + 0xFFFF) ∧
    (let x := Msg.load s.m.number r
     (∀ n, n ≠ ((landingFor s.m x).map (·.blk)).getD 0 → exec (.remoteLoadRequest r n) s = .next s) ∧
     (landingFor s.m x = none →
       (mayLand s.m x r.src = false → exec (.remoteLoadRequest r 0) s = .next s) ∧
       (mayLand s.m x r.src = true → kindRefuses r = true → exec (.remoteLoadRequest r 0) s =
         .next { s with m := send (got x) (.loadResp r.src r.srcCore r.id 0x09 []) }) ∧
       (mayLand s.m x r.src = true → kindRefuses r = false → exec (.remoteLoadRequest r 0) s = .next
         ⟨landBlockAt (taken x (remoteAgent s.m r)) (first x (remoteAgent s.m r)) r .ld 0, s.trust⟩)) ∧
     (∀ l, landingFor s.m x = some l →
       let ends (n : Nat) : Prop := exec (.remoteLoadRequest r l.blk) s =
         .next { s with m := send (endLanding s.m l) (.loadResp r.src r.srcCore r.id l.cause (landBytes l r n)) }
       (l.left ≠ 0 → exec (.remoteLoadRequest r l.blk) s = .next s) ∧
       (l.left = 0 → l.cause = 0 → l.blk + 1 < blocks → exec (.remoteLoadRequest r l.blk) s =
         .next { s with m := landBlockAt s.m l r .ld (l.blk + 1) }) ∧
       (l.left = 0 → l.cause = 0 → blocks ≤ l.blk + 1 → ends blocks) ∧ (l.left = 0 → l.cause ≠ 0 → ends l.blk))) ∧
    (∀ (op : Nat) (vals : List W32),
      let x := Msg.direct s.m.number r op vals
      let i := Instr.directReductionRequest r op vals
      (landingFor s.m x = none →
        (mayLand s.m x r.src = false → exec i s = .next s) ∧
        (mayLand s.m x r.src = true →
          (frozenPa s.m r.pa r.len = true → exec i s = .next { s with m := moved (got x) }) ∧
          (frozenPa s.m r.pa r.len = false → kindRefuses r = true →
            exec i s = .next { s with m := send (got x) (.ack r.src r.srcCore r.id 0x09 0) }) ∧
          (frozenPa s.m r.pa r.len = false → kindRefuses r = false → exec i s =
            .next { s with m := directNext (taken x (remoteAgent s.m r)) (first x (remoteAgent s.m r)) r op vals }))) ∧
      (∀ l, landingFor s.m x = some l → exec i s = .next { s with m := directNext s.m l r op vals }))) ∧
  (∀ (r : RemoteReq), kindRefuses r = false ↔ r.kind = 1 ∧ r.pa + r.len ≤ 2 ^ 39 ∨
    r.kind = 2 ∧ 2 ^ 51 ≤ r.pa ∧ r.pa + r.len ≤ 2 ^ 51 + 2 ^ 33) ∧
  (∀ (m : Mach) (l : Landing) (r : RemoteReq) (kind : ActKind) (i : Nat), landingOf m l.id = some l →
    (kind = .st ∨ kind = .ld) →
    let m' := landBlockAt m l r kind i
    let lo := r.pa + 64 * i
    let n := min 64 (r.len - 64 * i)
    let a := landAgent l.id
    let pool := (poolOf m lo).isSome
    m'.mem = m.mem ∧ m'.out = m.out ∧
    (targetOf m lo = .none → ∃ l', landingOf m' l.id = some l' ∧ l'.blk = i ∧ l'.cause = (if l.cause = 0 then 0x09 else l.cause)) ∧
    (targetOf m lo ≠ .none → ∃ (acts : List Act) (l' : Landing), landingOf m' l.id = some l' ∧ l'.blk = i ∧ l'.left = acts.length ∧
      l'.cause = l.cause ∧
      (kind = .st → pool = false → (getAgent m' a).pend = (getAgent m a).pend ++ acts ∧ (getAgent m' a).iq = (getAgent m a).iq) ∧
      (kind = .ld ∨ pool = true → (getAgent m' a).iq = (getAgent m a).iq ++ acts ∧ (getAgent m' a).pend = (getAgent m a).pend) ∧
      (∀ x ∈ acts, x.kind = kind ∧ x.cmd = 0 ∧ x.gran % 16 = 0) ∧
      (∀ b, (∃ x ∈ acts, x.gran = b / 16 * 16 ∧ x.mask.getLsbD (b % 16) = true) ↔ lo ≤ b ∧ b < lo + n) ∧
      (∀ x ∈ acts, ∀ j < 16, x.mask.getLsbD j = true →
        x.data.toNat / 256 ^ j % 256 = (r.data.getD (x.gran + j - r.pa) 0).toNat))) ∧
  (∀ (s : State) (idx id : Nat) (a : Act), s.m.phase = .running →
    let agent := landAgent id
    agentIsLanding agent = true → (getAgent s.m agent).pend[idx]? = some a →
    (∀ x ∈ (getAgent s.m agent).pend.take idx, x.gran ≠ a.gran) → adderActs s.m agent = [] →
    let lands (mem : List Host.Cell) (cause : Nat → Nat) : Prop :=
      ∃ m' : Mach, exec (.pendingCommit agent idx) s = .next { s with m := m' } ∧ m'.mem = mem ∧
        ∀ l, landingOf s.m id = some l → ∃ l', landingOf m' id = some l' ∧ l'.left = l.left - 1 ∧ l'.cause = cause l.cause
    (granBad s.m a.gran = false ∨ a.mask = 0xFFFF →
      lands (commitKeyed s.m agent (actKey s.m a) a.gran a.mask a.data).mem id) ∧
    (granBad s.m a.gran = true → a.mask ≠ 0xFFFF → lands s.m.mem (fun c => if c = 0 then 0x19 else c))) ∧
  (∀ (m : Mach) (l : Landing) (a : Act) (d : Nat) (r : RemoteReq), landingOf m l.id = some l →
    (l.msg = .store d r ∨ l.msg = .replica d r) → l.cause = 0 → ∀ c, poolOf m (r.pa + 64 * l.blk) = some c → r.rbarf ≠ 0 →
    let m' := landedPart m (landAgent l.id) a none
    let n := min 64 (r.len - 64 * l.blk)
    ∀ k, smGet 0 (getCore m' c).bars k = smGet 0 (getCore m c).bars k -
      (if l.left ≤ 1 ∧ k = r.rbarf - 1 then BitVec.ofNat 40 (64 * (n / 64)) else 0)) ∧
  (∀ (m : Mach) (l : Landing) (r : RemoteReq) (op : Nat) (vals : List W32),
    let m' := directNext m l r op vals
    let g := r.pa + 64 * l.blk
    let busy : Prop := ∃ c, poolOf m g = some c ∧ (getCore m c).port ≠ []
    let ends (m : Mach) (l : Landing) : Mach :=
      let m1 := landNotice (endLanding m l) l r (r.src * 65536 + r.srcCore)
      { m1 with out := m1.out ++ [.ack r.src r.srcCore r.id l.cause l.blk] }
    (busy → m' = m) ∧
    (∀ c, ¬busy → directBlock m g op ((vals.drop (15 * l.blk)).take 15) = .error c → m' = ends m { l with cause := c }) ∧
    (∀ b, ¬busy → directBlock m g op ((vals.drop (15 * l.blk)).take 15) = .ok b →
      let m1 := noteRemote (commitBlock m l.agent none g b) r ((List.range 4).map (fun i => g + 16 * i))
      let l1 := { l with blk := l.blk + 1, grans := l.grans ++ granPositions m1 g 64 }
      (l.blk + 1 < (r.len + 63) / 64 → m' = modLanding m1 l.id (fun _ => l1)) ∧
      ((r.len + 63) / 64 ≤ l.blk + 1 → m' = ends m1 l1))) ∧
  (∀ (m : Mach) (g op : Nat) (xs : List W32), op ≤ 4 →
    let b := blockOf ((List.range 4).map (fun i => granNow m (g + 16 * i)))
    let fmt := if op ≤ 2 then 0x50 else 0x51
    let v (x : Nat) : Val := fpDecode fp32 x
    let reached : Prop := (∃ c, targetOf m g = .pool c ∧ allocCheck m c (poolOff g) 64 true = none) ∨
      targetOf m g = .hbm ∧ ∀ i < 4, granBad m (g + 16 * i) = false
    (∀ c x, targetOf m g = .pool c → allocCheck m c (poolOff g) 64 true = some x → directBlock m g op xs = .error x.toNat) ∧
    (targetOf m g = .none → directBlock m g op xs = .error 0x09) ∧
    (targetOf m g = .hbm → (∃ i < 4, granBad m (g + 16 * i) = true) → directBlock m g op xs = .error 0x19) ∧
    (reached → blkFault b = none → (blkFMT b ≠ fmt ∨ blkSCL b ≠ 0x78) → directBlock m g op xs = .error 0x18) ∧
    (reached → blkFault b = none → blkFMT b = fmt → blkSCL b = 0x78 →
      ∃ b', directBlock m g op xs = .ok b' ∧ blkFMT b' = fmt ∧ blkSCL b' = 0x78 ∧ ∀ i < 15,
        let old := blkElem b ⟨15, 32, .int⟩ i
        let x := (xs.getD i 0).toNat
        let new := blkElem b' ⟨15, 32, .int⟩ i
        (op = 0 → new = fpResult fp32 (valAdd (v old) (v x))) ∧ (op = 1 → new = fpResult fp32 (laneMax (v old) (v x))) ∧
        (op = 2 → new = fpResult fp32 (laneMin (v old) (v x))) ∧
        (op = 3 → new = old ^^^ x) ∧ (op = 4 → new = (old + x) % 2 ^ 32)))

/-- spec/14 R219, R220, R222, R223, R226, R234, spec/12 R207: answers to the requests of a core's collective engine: counted by
the blocks that were written, or ending their command with the refusal's cause after the blocks before it; a load's response is
taken at once and its blocks are written one after the other; one that no request waits for is dropped; a moved frame is
asked for once more; without an answer for 2,500,000 cycles the command ends with 0x31; a mirror is sent at its distance in
the mirror window, under the settings of the unit, once the one before it to the same granule is answered and no freeze
holds the engines (spec/17 R257); that one which a
moved frame refuses is sent once more, and then raised as 0x09, is log 28, and the refusal of one without a mirror window, with
its FINFO, log 16. -/
def Obligations.AnswersToRequests : Prop :=
  (∀ (s : State) (core id cause wrote : Nat) (data : List Byte), s.m.phase = .running → reqOwner s.m core id = none →
    exec (.loadResponse core id cause data) s =
      .next { s with m := { s.m with out := s.m.out.erase (.loadResp s.m.number core id cause data) } } ∧
    exec (.acknowledgement core id ⟨cause, wrote⟩) s = .next ⟨answerMirror
      { s.m with out := s.m.out.erase (.ack s.m.number core id cause wrote) } core id cause, s.trust⟩ ∧
    exec (.requestTimeout core id) s = .next s ∧
    (let mv := { s.m with out := s.m.out.erase (.moved s.m.number core id) }
     let k := getCore s.m core
     let less := k.mirrorsOut.filter (fun x => x.1 != id)
     ((∀ x ∈ k.mirrorsOut, x.1 ≠ id) → exec (.movedNack core id) s = .next { s with m := mv }) ∧
     (∀ n i a, k.mirrorsOut.find? (fun x => x.1 == id) = some (n, i, a, false) → exec (.movedNack core id) s = .next ⟨modCore (setCore mv core
       { k with mirrorsOut := less }) core (fun k => { k with mirrors := (i, { a with aux := 1 }) :: k.mirrors }), s.trust⟩) ∧
     (∀ n i a, k.mirrorsOut.find? (fun x => x.1 == id) = some (n, i, a, true) → exec (.movedNack core id) s = .next ⟨countOwed
       (raiseLater (setCore mv core { k with mirrorsOut := less }) core i a.area causePerm a.va a.finfo), s.trust⟩))) ∧
  (∀ (s : State) (core id cause wrote : Nat) (data : List Byte) (c : Cmd) (q : Req), s.m.phase = .running →
    reqOwner s.m core id = some (c, q) →
    let lr := { s.m with out := s.m.out.erase (.loadResp s.m.number core id cause data) }
    let ak := { s.m with out := s.m.out.erase (.ack s.m.number core id cause wrote) }
    let mv := { s.m with out := s.m.out.erase (.moved s.m.number core id) }
    exec (.loadResponse core id cause data) s = .next ⟨modCmd (answerReq lr core c.num id cause 0) core 3 c.num (fun c =>
      { c with fetched := some data, next := 0, laterBad := if cause = 0 then none else some cause }), s.trust⟩ ∧
    (optIsGroup c = false →
      let m1 := modCmd (answerReq ak core c.num id cause wrote) core 3 c.num (fun x =>
        { x with doneBytes := x.doneBytes + ackBytes c q wrote })
      (cause = 0 → exec (.acknowledgement core id ⟨cause, wrote⟩) s = .next { s with m := m1 }) ∧
      (cause ≠ 0 → exec (.acknowledgement core id ⟨cause, wrote⟩) s = .next { s with m := cmdFail m1 core 3 c.num cause })) ∧
    (q.replica = false → ackBytes c q wrote = (q.blkBytes.take wrote).sum) ∧
    (optIsGroup c = true → cause = 0 →
      exec (.acknowledgement core id ⟨cause, wrote⟩) s = .next { s with m := answerReq ak core c.num id 0 wrote }) ∧
    (optIsGroup c = true → cause ≠ 0 → exec (.acknowledgement core id ⟨cause, wrote⟩) s = .next ⟨modCmd
      (answerReq ak core c.num id cause wrote) core 3 c.num (fun c => { c with
        closed := true, gstat := if cause = 0x1A then 2 else 5, gcause := cause }), s.trust⟩) ∧
    (q.again = true → exec (.movedNack core id) s =
      .next { s with m := cmdFail (answerReq mv core c.num id 0x30 0) core 3 c.num 0x30 }) ∧
    (∀ pkg pa kind tp, q.again = false → xlateNow s.m (engWho s.m core c) q.va q.r.len (remoteAcc c) = .remote pkg pa kind tp →
      ∃ m' : Mach, exec (.movedNack core id) s = .next { s with m := m' } ∧ m'.mem = s.m.mem ∧
        let r := { q.r with id := (getCore s.m core).reqSeq + 1, pa := pa, kind := kind, tpart := tp }
        ∃ x, m'.out = mv.out ++ [x] ∧
          (q.op = none → q.replica = false → x = .store pkg r) ∧ (q.op = none → q.replica = true → x = .replica pkg r) ∧
          (∀ op, q.op = some op → x = .direct pkg r op q.vals)) ∧
    (∀ x f, q.again = false → xlateNow s.m (engWho s.m core c) q.va q.r.len (remoteAcc c) = .fault x f →
      exec (.movedNack core id) s =
        .next { s with m := cmdFail (answerReq mv core c.num id x.toNat 0) core 3 c.num x.toNat }) ∧
    (s.m.cycle < q.sentAt + 2500000 → exec (.requestTimeout core id) s = .next s) ∧
    (optIsGroup c = false → q.sentAt + 2500000 ≤ s.m.cycle → exec (.requestTimeout core id) s =
      .next { s with m := cmdFail (answerReq s.m core c.num id 0x31 0) core 3 c.num 0x31 })) ∧
  (∀ (m : Mach) (core e : Nat) (c : Cmd) (data : List Byte), c.fetched = some data →
    let va := c.a + BitVec.ofNat 64 (64 * c.next)
    let x := xlateNow m (engWho m core c) va 64 accWrite
    (x = .moving → placeBlock m core e c = m) ∧
    (∀ pa mir tensor, x = .ok pa mir tensor → (targetOf m pa = .hbm ∨ targetOf m pa = .pool core) →
      placeBlock m core e c = modCmd (putBlock m core e c c.next pa mir va
        (BitVec.ofNat 512 (natOfBytes ((data.drop (64 * c.next)).take 64)))) core e c.num (fun c => { c with next := c.next + 1 })) ∧
    (∀ y f, x = .fault y f → placeBlock m core e c = cmdFail m core e c.num y.toNat)) ∧
  (∀ (s : State) (core i : Nat) (a : Act) (rest : List (Nat × Act)), s.m.phase = .running →
    (getCore s.m core).mirrors = (i, a) :: rest →
    let m1 := setCore s.m core { getCore s.m core with mirrors := rest }
    let same : Prop := ∃ x ∈ (getCore s.m core).mirrorsOut, sameGran x.2.2.1 a = true
    (engFrozen (getCore s.m core) = true ∨ same → exec (.mirrorWrite core) s = .next s) ∧
    (engFrozen (getCore s.m core) = false → ¬same → a.mirw = none → exec (.mirrorWrite core) s =
      .next { s with m := countOwed (raiseLater m1 core i a.area causePerm a.va (finfoT 7 2)) }) ∧
    (∀ w pa len, engFrozen (getCore s.m core) = false → ¬same → a.mirw = some w → (∀ v, a.kind = .radd v → pa = a.gran ∧ len = 64) →
      ((∀ v, a.kind ≠ .radd v) → pa = a.gran + actLo a ∧ len = actLen a) →
      let t := walkWindow m1 a.area w
      let raw := t.raw
      t.ok = true → t.chk = false → winInvalid raw = false → winKind raw = 1 → a.mbase ≤ pa → pa + len ≤ a.mbase + winSize raw →
      (∀ v, a.kind = .radd v → winFlag raw 3 = true) → ((∀ v, a.kind ≠ .radd v) → winFlag raw 2 = true) → ∃ m' : Mach,
      exec (.mirrorWrite core) s = .next { s with m := m' } ∧ m'.mem = s.m.mem ∧ (getCore m' core).mirrors = rest ∧
      ∃ r : RemoteReq, r.pa = winTbase raw + (pa - a.mbase) ∧ r.len = len ∧ r.mirror = true ∧ r.kind = 1 ∧ r.src = s.m.number ∧
        r.srcCore = core ∧ ((∀ v, a.kind ≠ .radd v) → r.data = actBytes a ∧ m'.out = s.m.out ++ [.store (winPkg raw) r]) ∧
        (∀ v, a.kind = .radd v → m'.out = s.m.out ++ [.direct (winPkg raw) r 0
          ((List.range 15).map (fun j => BitVec.ofNat 32 (v.toNat / 2 ^ (32 * j))))]))) ∧
  (∀ (s : State) (core : Nat), (getCore s.m core).mirrors = [] → exec (.mirrorWrite core) s = .next s)

/-- spec/14 R227 to R231, spec/16 R238: a contribution of a rank of the group, or a term of a lower level of the tree, joins its
round at its site, which it opens if it is the first; a malformed entry, another core, another count, mode or format is
refused; a rank of a package that goes down is excluded in the round that is open, though it had not come as far, any other in the round
of its next contribution; a round whose ranks are all in or excluded closes, or TMO ticks after its opening; the root sends its result to
each package of a contributor, a site below forwards its term; a result is written block by block, then its record, then
the notice, and the contributors' commands end; what the root keeps of a closed round is read through the mailbox (spec/15
R235). The ranks of packages that are down are missing from the rounds that open (R229). When a site below the root forwards for
want of ranks is the model's choice (log 71), and so are that a refused contribution keeps its number (log 25), that a term of
mixed formats is refused with 0x18 (log 76), and that each package excludes a down package's ranks at its own sites alone
(log 92). -/
def Obligations.ReductionRounds : Prop :=
  (∀ (s : State) (x : Contribution), s.m.phase = .running →
    let msg := Msg.contrib s.m.number x
    let got := { s.m with out := s.m.out.erase msg }
    let answers (c : Nat) : List Msg := if x.mask = 0 then [.ack x.src x.srcCore x.id c 0]
      else x.parts.map (fun p => .ack p.1 p.2.1 p.2.2 c 0)
    let nack (m : Mach) (c : Nat) : Mach := { m with out := m.out ++ answers c }
    (mayLand s.m msg x.src = false → exec (.groupContribution x) s = .next s) ∧
    (∀ c, mayLand s.m msg x.src = true → contribPlace s.m x = .error c →
      exec (.groupContribution x) s = .next { s with m := nack got c }) ∧
    (∀ k e, mayLand s.m msg x.src = true → contribPlace s.m x = .ok (k, e) →
      (entRefused s.m x.part e = true → exec (.groupContribution x) s = .next { s with m := nack got 0x1A }) ∧
      (entRefused s.m x.part e = false → rankOf (groupRanks s.m x.part e) x = none →
        exec (.groupContribution x) s = .next { s with m := nack got 0x30 }) ∧
      (∀ rank, entRefused s.m x.part e = false → rankOf (groupRanks s.m x.part e) x = some rank →
        let m0 := freshCounts got k
        let n := if x.mask = 0 then rankCount m0 k rank + 1 else x.id
        let cur := roundNumber m0 k
        let r := getRound s.m k
        let refused (c : Nat) : Prop := ∃ m' : Mach, exec (.groupContribution x) s = .next { s with m := m' } ∧
          m'.out = got.out ++ answers c ∧ m'.mem = s.m.mem ∧ (x.mask = 0 → rankCount m' k rank = n) ∧ getRound m' k = getRound m0 k
        (cur < n → exec (.groupContribution x) s = .next s) ∧
        (n < cur → refused 0x30) ∧
        (n = cur → x.nblk ≠ entNBLK e ∨ r.isOpen = true ∧ x.cmp ≠ r.cmp → refused 0x30) ∧
        (n = cur → x.nblk = entNBLK e → (r.isOpen = true → x.cmp = r.cmp) → x.fmt = 0xFF ∨ r.isOpen = true ∧ x.fmt ≠ r.fmt →
          refused 0x18) ∧
        (n = cur → x.nblk = entNBLK e → x.fmt ≠ 0xFF → (r.isOpen = true → x.cmp = r.cmp ∧ x.fmt = r.fmt) → ∃ m' : Mach,
          exec (.groupContribution x) s = .next { s with m := m' } ∧ m'.mem = s.m.mem ∧ m'.out = got.out ∧
          (x.mask = 0 → rankCount m' k rank = n) ∧
          (let r' := getRound m' k
           r'.isOpen = true ∧ r'.round = n ∧ smGet none r'.got rank = some x ∧
           r'.order = (if r.isOpen then r.order else []) ++ [rank] ∧ (r.isOpen = true → r'.entry = r.entry ∧ r'.began = r.began ∧
             r'.excl = r.excl ∧ ∀ i, i ≠ rank → smGet none r'.got i = smGet none r.got i) ∧
           (r.isOpen = false → r'.entry = e ∧ r'.began = s.m.nowt ∧ r'.cmp = x.cmp ∧ r'.fmt = x.fmt ∧
             (∀ i, i ≠ rank → smGet none r'.got i = none) ∧ ∀ i < 64,
               let was := (smGet 0 m0.exclNext (2 ^ 32 * k + n)).getLsbD i
               let down : Prop := i ∈ siteRanks k e ∧
                 s.m.downPkgs.contains ((groupRanks s.m x.part e).getD i (s.m.number, 0)).1 = true
               (was = true → r'.excl.getLsbD i = true) ∧ (r'.excl.getLsbD i = true → was = true ∨ down) ∧
               (down → x.mask = 0 → i ≠ rank → rankCount m0 k i < n → r'.excl.getLsbD i = true))))))) ∧
  (∀ (s : State) (k : Nat), s.m.phase = .running →
    let r := getRound s.m k
    let full : Prop := r.isOpen = true ∧ ∀ i ∈ siteRanks k r.entry, (roundMask r).getLsbD i = true ∨ r.excl.getLsbD i = true
    (full → exec (.roundClose k) s = .next { s with m := closeRound s.m k }) ∧
    (¬full → exec (.roundClose k) s = .next s) ∧
    (r.isOpen = true → r.began + entTMO r.entry ≤ s.m.nowt →
      exec (.roundTimeout k) s = .next { s with m := closeRound s.m k }) ∧
    (r.isOpen = false ∨ s.m.nowt < r.began + entTMO r.entry → exec (.roundTimeout k) s = .next s)) ∧
  (∀ (m : Mach) (k : Nat),
    let r := getRound m k
    let e := r.entry
    let m' := closeRound m k
    let got := (List.range (entNC e)).filter (fun i => (roundMask r).getLsbD i)
    let ranks := groupRanks m (k % 65536 / 1024) e
    let from_ := got.map (fun i => ranks.getD i (0, 0))
    let status := if got.length = entNC e then 0 else 7
    getRound m' k = { round := r.round, entPos := r.entPos } ∧ m'.mem = m.mem ∧
    (k < 65536 → (smGet {} m'.closedRounds k).round = r.round ∧ (smGet {} m'.closedRounds k).status = status ∧
      (smGet {} m'.closedRounds k).mask = roundMask r ∧
      (entORD e = false → (smGet {} m'.closedRounds k).order = r.order) ∧ readRound m' k = smGet {} m'.closedRounds k ∧
      ∃ res : RoundResult, res.root = m.number ∧ res.round = r.round ∧ res.raddr = entRADDR e ∧ res.rrec = entRREC e ∧
        res.status = status ∧ res.mask = roundMask r ∧ res.hnd = entHND e ∧ res.hidx = entHIDX e ∧
        res.blocks = resultBlocks e (roundVals k r) ∧
        m'.out = m.out ++ ((from_.map (·.1)).eraseDups).map (fun p =>
          let cores := (from_.filter (fun y => y.1 == p)).map (·.2)
          Msg.result p (cores.headD 0) k { res with cores := cores })) ∧
    (65536 ≤ k → ∃ x : Contribution, x.part = k % 65536 / 1024 ∧ x.group = k % 1024 ∧ x.src = m.number ∧ x.srcCore = k / 65536 ∧
      x.id = r.round ∧ x.mask = roundMask r ∧ x.vals = roundVals k r ∧ x.nblk = entNBLK e ∧
      m'.out = m.out ++ [.contrib ((ranks[siteAbove e (k / 65536) true]?.map (·.1)).getD m.number) x])) ∧
  (∀ (s : State) (k rank : Nat), s.m.phase = .running →
    (∀ c, roundEntry s.m k = .error c → exec (.rankExclusion k rank) s = .next s) ∧
    (∀ e, roundEntry s.m k = .ok e →
      let at_ := (groupRanks s.m (k % 65536 / 1024) e)[rank]?
      (at_ = none → exec (.rankExclusion k rank) s = .next s) ∧
      (∀ p c, at_ = some (p, c) →
        exec (.rankExclusion k rank) s =
          .next ⟨if p = s.m.number ∨ s.m.downPkgs.contains p = true then s.m else excludeRank s.m k rank false, s.trust⟩))) ∧
  (∀ (m : Mach) (k rank : Nat) (e : BitVec 512) (down : Bool), roundEntry m k = .ok e →
    let m' := excludeRank m k rank down
    let r := getRound m k
    let next := rankCount (freshCounts m k) k rank + 1
    let n := if down = true ∧ r.isOpen = true then max next r.round else next
    (rank ∉ siteRanks k e ∨ entBad e = true → m' = m) ∧
    (rank ∈ siteRanks k e → entBad e = false → m'.mem = m.mem ∧ m'.out = m.out ∧ rankCount m' k rank = n ∧
      (r.isOpen = true → r.round = n → getRound m' k = { r with excl := r.excl ||| BitVec.ofNat 64 (2 ^ rank) }) ∧
      (r.isOpen = true → r.round ≠ n → getRound m' k = r ∧
        smGet 0 m'.exclNext (2 ^ 32 * k + n) = smGet 0 m.exclNext (2 ^ 32 * k + n) ||| BitVec.ofNat 64 (2 ^ rank)) ∧
      (r.isOpen = false → (getRound m' k).isOpen = false))) ∧
  (∀ (s : State) (k core : Nat) (r : RoundResult), s.m.phase = .running →
    let x := Msg.result s.m.number core k r
    let l0 : Landing := { id := s.m.fresh, msg := x, agent := combineAgent }
    (landingFor s.m x = none → mayLand s.m x r.root = false → exec (.resultWrite k core r) s = .next s) ∧
    (landingFor s.m x = none → mayLand s.m x r.root = true → exec (.resultWrite k core r) s =
      .next ⟨resultNext { s.m with out := s.m.out.erase x, landings := s.m.landings ++ [l0] } l0 k core r, s.trust⟩) ∧
    (∀ l, landingFor s.m x = some l → exec (.resultWrite k core r) s = .next { s with m := resultNext s.m l k core r })) ∧
  (∀ (m : Mach) (l : Landing) (k core : Nat) (r : RoundResult),
    let m' := resultNext m l k core r
    let n := r.blocks.length
    let counted (f : Landing → Landing) : Mach := modLanding m l.id (fun l => f { l with blk := l.blk + 1 })
    let puts (va : Word) (size data mark : Nat) : Prop :=
      (combinePlace m core va size size = none → m' = m) ∧
      (∀ c, combinePlace m core va size size = some (.error c) →
        m' = counted (fun l => { l with cause := if l.cause = 0 then c else l.cause })) ∧
      (∀ pa, combinePlace m core va size size = some (.ok pa) → m' =
        landParts (counted id) l .st (pa / 16 * 16) pa size data mark (clusterOf core) va)
    (l.left ≠ 0 → m' = m) ∧
    (l.left = 0 → l.blk < n → puts (r.raddr + BitVec.ofNat 64 (64 * l.blk)) 64 (r.blocks.getD l.blk 0).toNat 0) ∧
    (l.left = 0 → l.blk = n → puts r.rrec 16 (r.round % 2 ^ 32 + r.status * 2 ^ 32 + r.mask.toNat * 2 ^ 64) 1) ∧
    (l.left = 0 → n < l.blk →
      let m1 := endLanding m l
      let m2 := if r.hnd = true ∧ l.cause = 0 then
        notifyHandler m1 core (clusterOf core) r.hidx (r.root * 65536 + 0xFFFF) r.raddr (64 * n) l.grans else m1
      m' = (if r.cores.isEmpty then [core] else r.cores).foldl (fun m c => endContrib m k l.cause r.status c) m2)) ∧
  (∀ (m : Mach) (k bad status core : Nat),
    let m' := endContrib m k bad status core
    (waitingGroup m core k = none → m' = m) ∧
    (∀ c, waitingGroup m core k = some c → m'.mem = m.mem ∧ m'.out = m.out ∧ ∃ c' ∈ smGet [] (getCore m' core).cmds 3,
      c'.num = c.num ∧ c'.closed = true ∧ c'.doneBytes = 64 * c.total ∧
      c'.gstat = (if bad ≠ 0 then 4 else if status = 7 then 7 else 0) ∧
      c'.gcause = (if bad ≠ 0 then bad else if status = 7 then 0x32 else 0)))

/-- spec/14 R233, spec/02 R40: a gang launch: a member checks its LPB and answers ARMED or REFUSE; once every member has
answered in time the coordinator commits and its units may be placed; a member's units after COMMIT; COMMITTED counts within
the limit; a refusal or a silence past it cancels the job on every member; a message of a member, or of the coordinator,
cancels that gang's launch here. That a member takes the owner of the LPB's queue as the submitter is log 27. -/
def Obligations.GangLaunches : Prop :=
  (∀ (s : State) (src k : Nat) (lpb : List Byte), s.m.phase = .running →
    let x := natOfBytes lpb
    let l := lpbOf x
    let o := (getQueue s.m l.qid).owner
    let mine := memberKey src k
    let takes := lpbBad s.m o x = false ∧ recAddrOk s.m (whoOwner s.m o) l.crec = true ∧ queueTakes (getQueue s.m l.qid) o = true
    ((getGang s.m mine).live = true → exec (.arm src k lpb) s = .next s) ∧
    ((getGang s.m mine).live = false → ¬takes →
      exec (.arm src k lpb) s = .next { s with m := { s.m with out := s.m.out ++ [.refuse src k] } }) ∧
    ((getGang s.m mine).live = false → takes → ∃ m' : Mach, exec (.arm src k lpb) s = .next { s with m := m' } ∧
      m'.out = s.m.out ++ [.armed src k] ∧ (getGang m' mine).live = true ∧ (getGang m' mine).launch = s.m.nodeSeq ∧
      (getGang m' mine).coordinator = false ∧ (getNode m' s.m.nodeSeq).placeable = false ∧
      (getNode m' s.m.nodeSeq).lpb = l ∧ (getNode m' s.m.nodeSeq).owner = o)) ∧
  (∀ (s : State) (src k : Nat), s.m.phase = .running →
    let g := getGang s.m (memberKey src k)
    (g.live = false → exec (.commit src k) s = .next s) ∧
    (g.live = true → ∃ m' : Mach, exec (.commit src k) s = .next { s with m := m' } ∧
      m'.out = s.m.out ++ [.committed src k] ∧ (getNode m' g.launch).placeable = true ∧ m'.mem = s.m.mem) ∧
    (∀ c, c ≠ s.m.number →
      let h := getGang s.m (memberKey c k)
      (h.live = true → src = c → exec (.gangCancelMessage src ⟨c, k⟩) s = .next { s with m := cancelNode s.m h.launch }) ∧
      (h.live = false ∨ src ≠ c → exec (.gangCancelMessage src ⟨c, k⟩) s = .next s)) ∧
    (let h := getGang s.m k
     let ours : Prop := h.live = true ∧ h.coordinator = true ∧ src ∈ h.members
     (ours → exec (.gangCancelMessage src ⟨s.m.number, k⟩) s = .next { s with m := cancelNode s.m h.launch }) ∧
     (¬ours → exec (.gangCancelMessage src ⟨s.m.number, k⟩) s = .next s))) ∧
  (∀ (m : Mach) (k kind : Nat),
    let g := getGang m k
    let n := getNode m g.launch
    let m1 := cancelNode (hostEvent m n.owner kind 0 ((governing m n.owner n.lpb.cmask).getD 0) 0 n.recVa.toNat)
      (nodeAtLevel (hostEvent m n.owner kind 0 ((governing m n.owner n.lpb.cmask).getD 0) 0 n.recVa.toNat) g.launch 4)
    ((getGang m1 k).live = true → cancelGangJob m k kind = setGang { m1 with
      out := m1.out ++ g.members.map (fun p => .cancelGang p g.src k) } k { getGang m1 k with live := false }) ∧
    ((getGang m1 k).live = false → cancelGangJob m k kind = m1)) ∧
  (∀ (s : State) (p k : Nat), s.m.phase = .running →
    let g := getGang s.m k
    let now := s.m.nowt
    (g.live = true → g.coordinator = true → p ∈ g.members →
      (g.sentCommit = false → now < g.since + g.limit → (∀ d ∈ g.members, d ∈ g.armed ∨ d = p) → ∃ m' : Mach,
        exec (.armed p k) s = .next { s with m := m' } ∧ m'.out = s.m.out ++ g.members.map (fun d => .commit d (k % 2 ^ 32)) ∧
        (getGang m' k).sentCommit = true ∧ (getGang m' k).since = now ∧ (getNode m' g.launch).placeable = true) ∧
      (g.sentCommit = false → now < g.since + g.limit → (∃ d ∈ g.members, d ∉ g.armed ∧ d ≠ p) → p ∉ g.armed →
        exec (.armed p k) s = .next { s with m := setGang s.m k { g with armed := g.armed ++ [p] } }) ∧
      (g.sentCommit = true ∨ g.since + g.limit ≤ now → exec (.armed p k) s = .next s) ∧
      (g.sentCommit = true → now < g.since + g.limit → p ∉ g.committed →
        exec (.committed p k) s = .next { s with m := setGang s.m k { g with committed := g.committed ++ [p] } }) ∧
      (g.sentCommit = false ∨ g.since + g.limit ≤ now ∨ p ∈ g.committed → exec (.committed p k) s = .next s) ∧
      exec (.refuse p k) s = .next { s with m := cancelGangJob s.m k 5 }) ∧
    (g.live = false ∨ g.coordinator = false ∨ p ∉ g.members → exec (.armed p k) s = .next s ∧
      exec (.committed p k) s = .next s ∧ exec (.refuse p k) s = .next s) ∧
    (let silent := if g.sentCommit then ∃ d ∈ g.members, d ∉ g.committed else ∃ d ∈ g.members, d ∉ g.armed
     (g.live = true → g.coordinator = true → silent → g.since + g.limit ≤ now →
       exec (.gangtoExpiry k) s = .next { s with m := cancelGangJob s.m k 5 }) ∧
     (now < g.since + g.limit ∨ ¬silent → exec (.gangtoExpiry k) s = .next s)))

/-! ### Fetching, decoding, whole-machine rules -/

/-- spec/04 R62, R64, spec/05 R85, spec/17 R239: a step that issues the next bundle of a core, where the context chosen has
no row result of a trap still to land (spec/04 R71), no fault due and no breakpoint, and the bundle is one word that passes its checks: the step is exec of the decoded
word, in the frame of that bundle, the PC already moved past the word; then the bundle completes. The word fetched is
the four bytes at the PC, in HBM or in a pool that lets it be read. -/
def Obligations.StepRunsDecoded : Prop :=
  (∀ (s t : State) (rest : List Move) (core i : Nat) (w : FWord) (ts : List Tr) (ins : Instr), s.m.phase = .running →
    s.m.sched = .issue core :: rest → (getCore s.m core).zeroUntil = none → (getCore s.m core).turn ≤ s.m.cycle →
    selectCtx (getCore s.m core) = some i →
    let m0 : Mach := { s.m with fresh := s.m.fresh + 1, sched := rest }
    let m1 := modCtx (modCore m0 core (fun k => landRowsDue k m0.cycle)) core i (fun c =>
      { landDue c m0.cycle with st := .ready, retry := false })
    let c1 := getCtx m1 core i
    c1.landBy ≤ m1.cycle → (∀ d ∈ c1.due, m1.cycle < d.notBefore) → (c1.skipBp = true ∨ bpHit m1 core c1 c1.pc.toNat c1.wpos false = false) →
    fetchBundle m1 core i = (.ok [w], ts) →
    let m2 := ts.foldl (fun m t => metTr m core (some t)) m1
    let m3 : Mach := { m2 with iss := frameOf m2 core i w }
    let c := getCtx m3 core i
    decodeNat w.raw = .ok ins → bundleFault (isControl core) [w] (guardKnown m3 c) = none →
    privWaits (isControl core) [w] (guardKnown m3 c) = false →
    c.gapcnt.toNat ≤ max 64 (c.maxgap.toNat % 2 ^ 32) → bundleStalls m3 c [w] = false →
    let m4 := modCtx m3 core i (fun c => { c with pc := BitVec.ofNat 32 (nextPlace w.pkt w.pos).1, wpos := (nextPlace w.pkt w.pos).2 })
    exec ins ⟨{ m4 with iss := { m4.iss with pkt := w.pkt, pos := w.pos, idx := 0 } }, s.trust⟩ = .next t →
    let m5 : Mach := { t.m with iss := { t.m.iss with ks := [] } }
    let m6 := modCore m5 core (fun k => served k i m5.cycle)
    (m5.iss.held = true → step s = .next ⟨{ m5 with iss := {} }, t.trust⟩) ∧
    (m5.iss.held = false → m5.iss.trapped = true → step s = .next ⟨{ m6 with iss := {} }, t.trust⟩) ∧
    (m5.iss.held = false → m5.iss.trapped = false → step s = .next ⟨{ finishBundle m6 w with iss := {} }, t.trust⟩)) ∧
  (∀ (m : Mach) (core i pa : Nat) (mir tensor : Bool) (t : Option Tr),
    let c := getCtx m core i
    let g := pa / 16 * 16
    xlate m (whoOf m core i) (wordVa c c.pc.toNat c.wpos) 4 accFetch = (.ok pa mir tensor, t) →
    (pa < 2 ^ 39 → pa % 16 ≤ 12 → granBad m g = false →
      keyDiffers m (pageKey m c.area (wordVa c c.pc.toNat c.wpos)) g = false → newestPos m g ≤ posAtStep m g c.since → readNat m.mem pa 4 < 2 ^ 31 →
      fetchBundle m core i = (.ok [⟨readNat m.mem pa 4, c.pc.toNat, c.wpos⟩], t.toList)) ∧
    (∀ q, targetOf m pa = .pool q → allocCheck m q (poolOff pa) 4 true = none → readNow m pa 4 < 2 ^ 31 →
      fetchBundle m core i = (.ok [⟨readNow m pa 4, c.pc.toNat, c.wpos⟩], t.toList)))

/-- Words written out from the encodings of spec/05 Tables 5-1 to 5-12, one or more of each pipe, with what each decodes to;
and words that no table has: a reserved pipe, an opcode that is not assigned, a zero field that is not zero. -/
def Obligations.DecodeWords : Prop :=
  decodeTableWord 32 0b00000000000010001000001010000110 = some (.xAdd ⟨false, 0⟩ 4 5 false 6) ∧
  decodeTableWord 32 0b10000110010010001000001011111111 = some (.xXor ⟨true, 3⟩ 4 5 true 63) ∧
  decodeTableWord 32 0b00010000000000001000001010110001 = some (.lLd ⟨false, 0⟩ 4 5 3 false 1) ∧
  decodeTableWord 32 0b00010000000010001000001010110001 = some (.lSt ⟨false, 0⟩ 4 5 3 1) ∧
  decodeTableWord 32 0b00100001011001000011001001000010 = some (.vMov ⟨false, 0⟩ 1 3 9 2) ∧
  decodeTableWord 32 0b00100001010101000011000110000111 = some (.vPut ⟨false, 0⟩ 1 3 6 7) ∧
  decodeTableWord 32 0b00110000011010000100000110100000 = some (.mPush ⟨false, 0⟩ 2 4 false 3 false 2) ∧
  decodeTableWord 32 0b00110000101010100001000001101010 = some (.mFeed ⟨false, 0⟩ 1 2 4 false 3 5 false) ∧
  decodeTableWord 32 0b01000000010000011100001000010010 = some (.bLoop ⟨false, 0⟩ 7 2 1 2) ∧
  decodeTableWord 32 0b01000001000001000010000010101000 = some (.bSusp ⟨false, 0⟩ 2 4 5 2) ∧
  decodeTableWord 32 0b11010000000000000000011000011010 = some (.kImm 0x61A) ∧
  decodeTableWord 32 0b01110000000000000000000000000000 = none ∧
  decodeTableWord 32 0b00001111111110000000000000000000 = none ∧
  decodeTableWord 32 0b00110000000000000000000000000001 = none

/-- spec/04 R63, R64, spec/05 R85 to R87, spec/17 R239: faults of a bundle before any of its words runs, with the word that
FINFO names: a word of a reserved pipe illegal-encoding (0x01); the ninth word of a bundle of more than eight, a second word of
L, V, M or B, a third X or K word, and a K word in last place pipe-conflict (0x02); a word that decodes to nothing and a K word
before a word that does not accept it illegal-encoding; the second word that writes a register pipe-conflict; a state register
that the context may not write privilege (0x03) where the guard is true, and nothing where it is false; while that guard is
pending the check waits (spec/04 R70). That the ninth word is named whatever stands before it is log 59. -/
def Obligations.BundleFaults : Prop :=
  ∀ (control : Bool) (guard : Nat → BitVec 3 → Option Bool) (ws : List FWord),
    let bad (c : Byte) (w : FWord) : Prop := bundleFault control ws guard = some (c, w)
    (∀ a w b, ws = a ++ [w] ++ b → 6 ≤ pipeOf w.raw → (∀ x ∈ a, pipeOf x.raw < 6) → bad 0x01 w) ∧
    ((∀ w ∈ ws, pipeOf w.raw < 6) →
      (∀ w, ws[8]? = some w → bad 0x02 w) ∧
      (∀ a b c x y, ws = a ++ [x] ++ b ++ [y] ++ c → pipeOf x.raw = pipeOf y.raw → pipeOf x.raw ∈ [1, 2, 3, 4] →
        ∃ f, bad 0x02 f) ∧
      (∀ a b c d x y z, ws = a ++ [x] ++ b ++ [y] ++ c ++ [z] ++ d → pipeOf x.raw = pipeOf y.raw → pipeOf y.raw = pipeOf z.raw →
        ∃ f, bad 0x02 f) ∧
      (∀ a x, ws = a ++ [x] → pipeOf x.raw = 5 → ∃ f, bad 0x02 f)) ∧
    (∀ w, ws = [w] → pipeOf w.raw < 5 → (∀ i, decodeNat w.raw ≠ .ok i) → bad 0x01 w) ∧
    (∀ k v h, ws = [k, h] → decodeNat k.raw = .ok (.kImm v) → pipeOf h.raw < 5 → acceptsK h.raw = false → bad 0x01 k) ∧
    (∀ x y i j d, ws = [x, y] → decodeNat x.raw = .ok i → decodeNat y.raw = .ok j → pipeOf x.raw < 5 → pipeOf y.raw < 5 →
      (pipeOf x.raw = pipeOf y.raw → pipeOf x.raw = 0) → bodyBad control ws 0 x = false → bodyBad control ws 1 y = false →
      d ∈ dests i → d ∈ dests j → bad 0x02 y) ∧
    (∀ w h a (n : BitVec 10), ws = [w] → control = false → decodeNat w.raw = .ok (.bWrst h a n) → isStateRegister n.toNat = true →
      n.toNat ∉ [0xA, 0x10, 0x11, 0x12, 0x13, 0x34, 0x41, 0x42] →
      (guard 0 h.g = some true → bad 0x03 w) ∧
      (guard 0 h.g = some false → bundleFault control ws guard = none ∧ privWaits control ws guard = false) ∧
      (guard 0 h.g = none → bundleFault control ws guard = none ∧ privWaits control ws guard = true))

/-- spec/05 R84, R85: for every instruction word, with every operand at every value of its fields: its encoding decodes to
it; and the other way round, a word that decodes to an instruction is that instruction's encoding, so that every word
has one meaning and no bit of a word is ignored. -/
def Obligations.EncodeDecode : Prop :=
  (∀ i : Instr, Sys2Proof.Laws.RoundTrip.Statement i) ∧
  (∀ (n : Nat) (i : Instr), n < 2 ^ 32 → decodeNat n = .ok i → encodeNat i = some n)

/-- The memory keeps its canonical form (addresses rising, no byte listed that reads as an unlisted one) in every step, of
whatever move: the invariant that makes equal memories equal data. The form is the model's own (log 3). -/
def Obligations.MemoryKeepsItsForm : Prop :=
  ∀ s t : State, memWf s.m.mem = true → step s = .next t → memWf t.m.mem = true

/-- spec/11 R185, spec/02 R40, spec/21 R312: an instruction word that does not trap changes no byte of memory when it
issues, whatever its operands: its stores wait in the issue queue. The one exception is b.cancel, which writes
completion records. -/
def Obligations.WordsLeaveMemory : Prop :=
  ∀ (i : Instr) (s u : State), isWord i = true → (∀ h l, i ≠ .bCancel h l) → exec i s = .next u →
    u.m.iss.trapped = false → u.m.mem = s.m.mem ∧ u.trust = s.trust
end

