-- ==== Sys2Proof/Laws/Exec.lean ====
section
/-!
SUPPORT. Each arm of `exec` as an equation, and what the shared operations that every word goes through answer.
-/

namespace Sys2Proof.Machine

@[simp] theorem exec_xNop h (s : State) : exec (.xNop h) s = execXNop h s := rfl
@[simp] theorem exec_xAdd h d a ix b (s : State) : exec (.xAdd h d a ix b) s = execXAdd h d a ix b s := rfl
@[simp] theorem exec_xSub h d a ix b (s : State) : exec (.xSub h d a ix b) s = execXSub h d a ix b s := rfl
@[simp] theorem exec_xMul h d a ix b (s : State) : exec (.xMul h d a ix b) s = execXMul h d a ix b s := rfl
@[simp] theorem exec_xMulh h d a ix b (s : State) : exec (.xMulh h d a ix b) s = execXMulh h d a ix b s := rfl
@[simp] theorem exec_xDiv h d a ix b (s : State) : exec (.xDiv h d a ix b) s = execXDiv h d a ix b s := rfl
@[simp] theorem exec_xRem h d a ix b (s : State) : exec (.xRem h d a ix b) s = execXRem h d a ix b s := rfl
@[simp] theorem exec_xAnd h d a ix b (s : State) : exec (.xAnd h d a ix b) s = execXAnd h d a ix b s := rfl
@[simp] theorem exec_xOr h d a ix b (s : State) : exec (.xOr h d a ix b) s = execXOr h d a ix b s := rfl
@[simp] theorem exec_xXor h d a ix b (s : State) : exec (.xXor h d a ix b) s = execXXor h d a ix b s := rfl
@[simp] theorem exec_xShl h d a ix b (s : State) : exec (.xShl h d a ix b) s = execXShl h d a ix b s := rfl
@[simp] theorem exec_xShr h d a ix b (s : State) : exec (.xShr h d a ix b) s = execXShr h d a ix b s := rfl
@[simp] theorem exec_xSar h d a ix b (s : State) : exec (.xSar h d a ix b) s = execXSar h d a ix b s := rfl
@[simp] theorem exec_xMin h d a ix b (s : State) : exec (.xMin h d a ix b) s = execXMin h d a ix b s := rfl
@[simp] theorem exec_xMax h d a ix b (s : State) : exec (.xMax h d a ix b) s = execXMax h d a ix b s := rfl
@[simp] theorem exec_xClz h d a (s : State) : exec (.xClz h d a) s = execXClz h d a s := rfl
@[simp] theorem exec_xPcnt h d a (s : State) : exec (.xPcnt h d a) s = execXPcnt h d a s := rfl
@[simp] theorem exec_xSext h d a ix b (s : State) : exec (.xSext h d a ix b) s = execXSext h d a ix b s := rfl
@[simp] theorem exec_xCmp h p k a ix b (s : State) : exec (.xCmp h p k a ix b) s = execXCmp h p k a ix b s := rfl
@[simp] theorem exec_xPand h p n a b m (s : State) : exec (.xPand h p n a b m) s = execXPand h p n a b m s := rfl
@[simp] theorem exec_xPor h p n a b m (s : State) : exec (.xPor h p n a b m) s = execXPor h p n a b m s := rfl
@[simp] theorem exec_xPxor h p n a b m (s : State) : exec (.xPxor h p n a b m) s = execXPxor h p n a b m s := rfl
@[simp] theorem exec_xFadd h d a b (s : State) : exec (.xFadd h d a b) s = execXFadd h d a b s := rfl
@[simp] theorem exec_xFmul h d a b (s : State) : exec (.xFmul h d a b) s = execXFmul h d a b s := rfl
@[simp] theorem exec_xFmax h d a b (s : State) : exec (.xFmax h d a b) s = execXFmax h d a b s := rfl
@[simp] theorem exec_xFcvt h d a k (s : State) : exec (.xFcvt h d a k) s = execXFcvt h d a k s := rfl
@[simp] theorem exec_xChk h a (s : State) : exec (.xChk h a) s = execXChk h a s := rfl
@[simp] theorem exec_lLd h d a sz p ix (s : State) : exec (.lLd h d a sz p ix) s = execLLd h d a sz p ix s := rfl
@[simp] theorem exec_lSt h d a sz ix (s : State) : exec (.lSt h d a sz ix) s = execLSt h d a sz ix s := rfl
@[simp] theorem exec_lVld h t r a o (s : State) : exec (.lVld h t r a o) s = execLVld h t r a o s := rfl
@[simp] theorem exec_lVst h t r a o f (s : State) : exec (.lVst h t r a o f) s = execLVst h t r a o f s := rfl
@[simp] theorem exec_lCas h d a b z (s : State) : exec (.lCas h d a b z) s = execLCas h d a b z s := rfl
@[simp] theorem exec_lRadd h t r a o (s : State) : exec (.lRadd h t r a o) s = execLRadd h t r a o s := rfl
@[simp] theorem exec_lAlloc h d a b (s : State) : exec (.lAlloc h d a b) s = execLAlloc h d a b s := rfl
@[simp] theorem exec_lFree h a (s : State) : exec (.lFree h a) s = execLFree h a s := rfl
@[simp] theorem exec_lRenew h a b (s : State) : exec (.lRenew h a b) s = execLRenew h a b s := rfl
@[simp] theorem exec_lCopy h d a b (s : State) : exec (.lCopy h d a b) s = execLCopy h d a b s := rfl
@[simp] theorem exec_lGath h d a b (s : State) : exec (.lGath h d a b) s = execLGath h d a b s := rfl
@[simp] theorem exec_lRld h d a b (s : State) : exec (.lRld h d a b) s = execLRld h d a b s := rfl
@[simp] theorem exec_lRst h d a b (s : State) : exec (.lRst h d a b) s = execLRst h d a b s := rfl
@[simp] theorem exec_lRred h d a b (s : State) : exec (.lRred h d a b) s = execLRred h d a b s := rfl
@[simp] theorem exec_lMcast h d a b (s : State) : exec (.lMcast h d a b) s = execLMcast h d a b s := rfl
@[simp] theorem exec_lStash h t a b (s : State) : exec (.lStash h t a b) s = execLStash h t a b s := rfl
@[simp] theorem exec_lWin h d a b (s : State) : exec (.lWin h d a b) s = execLWin h d a b s := rfl
@[simp] theorem exec_lAmoAdd h d a b z (s : State) : exec (.lAmoAdd h d a b z) s = execLAmoAdd h d a b z s := rfl
@[simp] theorem exec_lAmoAnd h d a b z (s : State) : exec (.lAmoAnd h d a b z) s = execLAmoAnd h d a b z s := rfl
@[simp] theorem exec_lAmoOr h d a b z (s : State) : exec (.lAmoOr h d a b z) s = execLAmoOr h d a b z s := rfl
@[simp] theorem exec_lAmoXor h d a b z (s : State) : exec (.lAmoXor h d a b z) s = execLAmoXor h d a b z s := rfl
@[simp] theorem exec_lAmoMin h d a b z (s : State) : exec (.lAmoMin h d a b z) s = execLAmoMin h d a b z s := rfl
@[simp] theorem exec_lAmoMax h d a b z (s : State) : exec (.lAmoMax h d a b z) s = execLAmoMax h d a b z s := rfl
@[simp] theorem exec_lAmoSwap h d a b z (s : State) : exec (.lAmoSwap h d a b z) s = execLAmoSwap h d a b z s := rfl
@[simp] theorem exec_vAdd h t d a b (s : State) : exec (.vAdd h t d a b) s = execVAdd h t d a b s := rfl
@[simp] theorem exec_vSub h t d a b (s : State) : exec (.vSub h t d a b) s = execVSub h t d a b s := rfl
@[simp] theorem exec_vMul h t d a b (s : State) : exec (.vMul h t d a b) s = execVMul h t d a b s := rfl
@[simp] theorem exec_vFma h t d a b (s : State) : exec (.vFma h t d a b) s = execVFma h t d a b s := rfl
@[simp] theorem exec_vMax h t d a b (s : State) : exec (.vMax h t d a b) s = execVMax h t d a b s := rfl
@[simp] theorem exec_vMin h t d a b (s : State) : exec (.vMin h t d a b) s = execVMin h t d a b s := rfl
@[simp] theorem exec_vNeg h t d a (s : State) : exec (.vNeg h t d a) s = execVNeg h t d a s := rfl
@[simp] theorem exec_vAbs h t d a (s : State) : exec (.vAbs h t d a) s = execVAbs h t d a s := rfl
@[simp] theorem exec_vExp2 h t d a (s : State) : exec (.vExp2 h t d a) s = execVExp2 h t d a s := rfl
@[simp] theorem exec_vLog2 h t d a (s : State) : exec (.vLog2 h t d a) s = execVLog2 h t d a s := rfl
@[simp] theorem exec_vRcp h t d a (s : State) : exec (.vRcp h t d a) s = execVRcp h t d a s := rfl
@[simp] theorem exec_vRsqrt h t d a (s : State) : exec (.vRsqrt h t d a) s = execVRsqrt h t d a s := rfl
@[simp] theorem exec_vCvt h t d a k (s : State) : exec (.vCvt h t d a k) s = execVCvt h t d a k s := rfl
@[simp] theorem exec_vCmpLt h t d a b (s : State) : exec (.vCmpLt h t d a b) s = execVCmpLt h t d a b s := rfl
@[simp] theorem exec_vCmpLe h t d a b (s : State) : exec (.vCmpLe h t d a b) s = execVCmpLe h t d a b s := rfl
@[simp] theorem exec_vCmpEq h t d a b (s : State) : exec (.vCmpEq h t d a b) s = execVCmpEq h t d a b s := rfl
@[simp] theorem exec_vSel h t d a b (s : State) : exec (.vSel h t d a b) s = execVSel h t d a b s := rfl
@[simp] theorem exec_vRmax h t d a (s : State) : exec (.vRmax h t d a) s = execVRmax h t d a s := rfl
@[simp] theorem exec_vRsum h t d a (s : State) : exec (.vRsum h t d a) s = execVRsum h t d a s := rfl
@[simp] theorem exec_vBcast h t d a (s : State) : exec (.vBcast h t d a) s = execVBcast h t d a s := rfl
@[simp] theorem exec_vGet h t d a b (s : State) : exec (.vGet h t d a b) s = execVGet h t d a b s := rfl
@[simp] theorem exec_vPut h t d a b (s : State) : exec (.vPut h t d a b) s = execVPut h t d a b s := rfl
@[simp] theorem exec_vMov h t d a u (s : State) : exec (.vMov h t d a u) s = execVMov h t d a u s := rfl
@[simp] theorem exec_vPerm h t d a b (s : State) : exec (.vPerm h t d a b) s = execVPerm h t d a b s := rfl
@[simp] theorem exec_vAnd h t d a b (s : State) : exec (.vAnd h t d a b) s = execVAnd h t d a b s := rfl
@[simp] theorem exec_vOr h t d a b (s : State) : exec (.vOr h t d a b) s = execVOr h t d a b s := rfl
@[simp] theorem exec_vXor h t d a b (s : State) : exec (.vXor h t d a b) s = execVXor h t d a b s := rfl
@[simp] theorem exec_mNop h (s : State) : exec (.mNop h) s = execMNop h s := rfl
@[simp] theorem exec_mPrec h t a k (s : State) : exec (.mPrec h t a k) s = execMPrec h t a k s := rfl
@[simp] theorem exec_mShape h sh a (s : State) : exec (.mShape h sh a) s = execMShape h sh a s := rfl
@[simp] theorem exec_mPush h sh a w p r sz (s : State) : exec (.mPush h sh a w p r sz) s = execMPush h sh a w p r sz s := rfl
@[simp] theorem exec_mSwap h (s : State) : exec (.mSwap h) s = execMSwap h s := rfl
@[simp] theorem exec_mFeed h t sh a w x y r (s : State) : exec (.mFeed h t sh a w x y r) s = execMFeed h t sh a w x y r s := rfl
@[simp] theorem exec_mDrain h t n e hi (s : State) : exec (.mDrain h t n e hi) s = execMDrain h t n e hi s := rfl
@[simp] theorem exec_mClear h (s : State) : exec (.mClear h) s = execMClear h s := rfl
@[simp] theorem exec_bSafe h (s : State) : exec (.bSafe h) s = execBSafe h s := rfl
@[simp] theorem exec_bJmp h k (s : State) : exec (.bJmp h k) s = execBJmp h k s := rfl
@[simp] theorem exec_bCall h k (s : State) : exec (.bCall h k) s = execBCall h k s := rfl
@[simp] theorem exec_bLadder h p q u v k (s : State) : exec (.bLadder h p q u v k) s = execBLadder h p q u v k s := rfl
@[simp] theorem exec_bLoop h n b e p (s : State) : exec (.bLoop h n b e p) s = execBLoop h n b e p s := rfl
@[simp] theorem exec_bTgt h k o (s : State) : exec (.bTgt h k o) s = execBTgt h k o s := rfl
@[simp] theorem exec_bFence h p sz x (s : State) : exec (.bFence h p sz x) s = execBFence h p sz x s := rfl
@[simp] theorem exec_bOpen h a b (s : State) : exec (.bOpen h a b) s = execBOpen h a b s := rfl
@[simp] theorem exec_bShut h d a (s : State) : exec (.bShut h d a) s = execBShut h d a s := rfl
@[simp] theorem exec_bTwait h e a (s : State) : exec (.bTwait h e a) s = execBTwait h e a s := rfl
@[simp] theorem exec_bArm h b a (s : State) : exec (.bArm h b a) s = execBArm h b a s := rfl
@[simp] theorem exec_bBwait h b (s : State) : exec (.bBwait h b) s = execBBwait h b s := rfl
@[simp] theorem exec_bPop h d a n p (s : State) : exec (.bPop h d a n p) s = execBPop h d a n p s := rfl
@[simp] theorem exec_bPush h a b l p (s : State) : exec (.bPush h a b l p) s = execBPush h a b l p s := rfl
@[simp] theorem exec_bLaunch h d a (s : State) : exec (.bLaunch h d a) s = execBLaunch h d a s := rfl
@[simp] theorem exec_bPost h sz k a (s : State) : exec (.bPost h sz k a) s = execBPost h sz k a s := rfl
@[simp] theorem exec_bSusp h k a b j (s : State) : exec (.bSusp h k a b j) s = execBSusp h k a b j s := rfl
@[simp] theorem exec_bExit h (s : State) : exec (.bExit h) s = execBExit h s := rfl
@[simp] theorem exec_bTrap h k (s : State) : exec (.bTrap h k) s = execBTrap h k s := rfl
@[simp] theorem exec_bRdst h d sz (s : State) : exec (.bRdst h d sz) s = execBRdst h d sz s := rfl
@[simp] theorem exec_bWrst h a sz (s : State) : exec (.bWrst h a sz) s = execBWrst h a sz s := rfl
@[simp] theorem exec_bCancel h l (s : State) : exec (.bCancel h l) s = execBCancel h l s := rfl
@[simp] theorem exec_bBrk h (s : State) : exec (.bBrk h) s = execBBrk h s := rfl
@[simp] theorem exec_bWait h k a b (s : State) : exec (.bWait h k a b) s = execBWait h k a b s := rfl
@[simp] theorem exec_bEret h (s : State) : exec (.bEret h) s = execBEret h s := rfl
@[simp] theorem exec_kImm k (s : State) : exec (.kImm k) s = execKImm k s := rfl
@[simp] theorem exec_packageReset (s : State) : exec (.packageReset) s = execPackageReset s := rfl
@[simp] theorem exec_tailWrite vf ring val (s : State) : exec (.tailWrite vf ring val) s = execTailWrite vf ring val s := rfl
@[simp] theorem exec_launch vf ring (s : State) : exec (.launch vf ring) s = execLaunch vf ring s := rfl
@[simp] theorem exec_job vf ring (s : State) : exec (.job vf ring) s = execJob vf ring s := rfl
@[simp] theorem exec_push vf ring (s : State) : exec (.push vf ring) s = execPush vf ring s := rfl
@[simp] theorem exec_close vf ring (s : State) : exec (.close vf ring) s = execClose vf ring s := rfl
@[simp] theorem exec_post vf ring (s : State) : exec (.post vf ring) s = execPost vf ring s := rfl
@[simp] theorem exec_cancel vf ring (s : State) : exec (.cancel vf ring) s = execCancel vf ring s := rfl
@[simp] theorem exec_rbaseWrite vf ring val (s : State) : exec (.rbaseWrite vf ring val) s = execRbaseWrite vf ring val s := rfl
@[simp] theorem exec_rsizeWrite vf ring val (s : State) : exec (.rsizeWrite vf ring val) s = execRsizeWrite vf ring val s := rfl
@[simp] theorem exec_eqlostRead vf (s : State) : exec (.eqlostRead vf) s = execEqlostRead vf s := rfl
@[simp] theorem exec_postSliceEndNow vf val (s : State) : exec (.postSliceEndNow vf val) s = execPostSliceEndNow vf val s := rfl
@[simp] theorem exec_postSliceEndAtEiss vf val (s : State) : exec (.postSliceEndAtEiss vf val) s = execPostSliceEndAtEiss vf val s := rfl
@[simp] theorem exec_postedSliceEndTrigger core ctx (s : State) : exec (.postedSliceEndTrigger core ctx) s = execPostedSliceEndTrigger core ctx s := rfl
@[simp] theorem exec_release vf va (s : State) : exec (.release vf va) s = execRelease vf va s := rfl
@[simp] theorem exec_catchRecords vf val (s : State) : exec (.catchRecords vf val) s = execCatchRecords vf val s := rfl
@[simp] theorem exec_go vf val (s : State) : exec (.go vf val) s = execGo vf val s := rfl
@[simp] theorem exec_singleStep vf val (s : State) : exec (.singleStep vf val) s = execSingleStep vf val s := rfl
@[simp] theorem exec_engineFreeze vf val (s : State) : exec (.engineFreeze vf val) s = execEngineFreeze vf val s := rfl
@[simp] theorem exec_registerWrite r val (s : State) : exec (.registerWrite r val) s = execRegisterWrite r val s := rfl
@[simp] theorem exec_setRoot part pa (s : State) : exec (.setRoot part pa) s = execSetRoot part pa s := rfl
@[simp] theorem exec_setOwner part owner (s : State) : exec (.setOwner part owner) s = execSetOwner part owner s := rfl
@[simp] theorem exec_lend vf part mask (s : State) : exec (.lend vf part mask) s = execLend vf part mask s := rfl
@[simp] theorem exec_recallLend vf part (s : State) : exec (.recallLend vf part) s = execRecallLend vf part s := rfl
@[simp] theorem exec_setRecarea part va imgcnt reccnt (s : State) : exec (.setRecarea part va imgcnt reccnt) s = execSetRecarea part va imgcnt reccnt s := rfl
@[simp] theorem exec_keyInstall owner slot id key (s : State) : exec (.keyInstall owner slot id key) s = execKeyInstall owner slot id key s := rfl
@[simp] theorem exec_getVersion (s : State) : exec (.getVersion) s = execGetVersion s := rfl
@[simp] theorem exec_getCapabilities (s : State) : exec (.getCapabilities) s = execGetCapabilities s := rfl
@[simp] theorem exec_negotiateAlgorithms offered (s : State) : exec (.negotiateAlgorithms offered) s = execNegotiateAlgorithms offered s := rfl
@[simp] theorem exec_getDigests (s : State) : exec (.getDigests) s = execGetDigests s := rfl
@[simp] theorem exec_getCertificate slot (s : State) : exec (.getCertificate slot) s = execGetCertificate slot s := rfl
@[simp] theorem exec_challenge nonce (s : State) : exec (.challenge nonce) s = execChallenge nonce s := rfl
@[simp] theorem exec_getMeasurements index nonce (s : State) : exec (.getMeasurements index nonce) s = execGetMeasurements index nonce s := rfl
@[simp] theorem exec_keyExchange data (s : State) : exec (.keyExchange data) s = execKeyExchange data s := rfl
@[simp] theorem exec_finish data (s : State) : exec (.finish data) s = execFinish data s := rfl
@[simp] theorem exec_hostMemRead hdm pa size pos (s : State) : exec (.hostMemRead hdm pa size pos) s = execHostMemRead hdm pa size pos s := rfl
@[simp] theorem exec_hostMemWrite hdm pa size data (s : State) : exec (.hostMemWrite hdm pa size data) s = execHostMemWrite hdm pa size data s := rfl
@[simp] theorem exec_unitPlace (s : State) : exec (.unitPlace) s = execUnitPlace s := rfl
@[simp] theorem exec_zeroingComplete core (s : State) : exec (.zeroingComplete core) s = execZeroingComplete core s := rfl
@[simp] theorem exec_sliceEnd core ctx (s : State) : exec (.sliceEnd core ctx) s = execSliceEnd core ctx s := rfl
@[simp] theorem exec_recordTakeUp (s : State) : exec (.recordTakeUp) s = execRecordTakeUp s := rfl
@[simp] theorem exec_phaseEvaluation job (s : State) : exec (.phaseEvaluation job) s = execPhaseEvaluation job s := rfl
@[simp] theorem exec_nodeConsider graph node (s : State) : exec (.nodeConsider graph node) s = execNodeConsider graph node s := rfl
@[simp] theorem exec_unitEnd core ctx (s : State) : exec (.unitEnd core ctx) s = execUnitEnd core ctx s := rfl
@[simp] theorem exec_recallHandlerKill core ctx (s : State) : exec (.recallHandlerKill core ctx) s = execRecallHandlerKill core ctx s := rfl
@[simp] theorem exec_recallReturn part (s : State) : exec (.recallReturn part) s = execRecallReturn part s := rfl
@[simp] theorem exec_usageForward (s : State) : exec (.usageForward) s = execUsageForward s := rfl
@[simp] theorem exec_scanPassStart cluster (s : State) : exec (.scanPassStart cluster) s = execScanPassStart cluster s := rfl
@[simp] theorem exec_scanPassEnd core pass (s : State) : exec (.scanPassEnd core pass) s = execScanPassEnd core pass s := rfl
@[simp] theorem exec_correctedError site (s : State) : exec (.correctedError site) s = execCorrectedError site s := rfl
@[simp] theorem exec_retirement site (s : State) : exec (.retirement site) s = execRetirement site s := rfl
@[simp] theorem exec_wearWarning die hours (s : State) : exec (.wearWarning die hours) s = execWearWarning die hours s := rfl
@[simp] theorem exec_scrubGranule pa bad (s : State) : exec (.scrubGranule pa bad) s = execScrubGranule pa bad s := rfl
@[simp] theorem exec_memberDown pkg (s : State) : exec (.memberDown pkg) s = execMemberDown pkg s := rfl
@[simp] theorem exec_spareFillDone fill (s : State) : exec (.spareFillDone fill) s = execSpareFillDone fill s := rfl
@[simp] theorem exec_securityAlarm cause (s : State) : exec (.securityAlarm cause) s = execSecurityAlarm cause s := rfl
@[simp] theorem exec_thermalThrottle on (s : State) : exec (.thermalThrottle on) s = execThermalThrottle on s := rfl
@[simp] theorem exec_powerLoss (s : State) : exec (.powerLoss) s = execPowerLoss s := rfl
@[simp] theorem exec_arm src gang lpb (s : State) : exec (.arm src gang lpb) s = execArm src gang lpb s := rfl
@[simp] theorem exec_armed pkg gang (s : State) : exec (.armed pkg gang) s = execArmed pkg gang s := rfl
@[simp] theorem exec_refuse pkg gang (s : State) : exec (.refuse pkg gang) s = execRefuse pkg gang s := rfl
@[simp] theorem exec_commit src gang (s : State) : exec (.commit src gang) s = execCommit src gang s := rfl
@[simp] theorem exec_committed pkg gang (s : State) : exec (.committed pkg gang) s = execCommitted pkg gang s := rfl
@[simp] theorem exec_gangtoExpiry gang (s : State) : exec (.gangtoExpiry gang) s = execGangtoExpiry gang s := rfl
@[simp] theorem exec_flitReceive port seq crcOk (s : State) : exec (.flitReceive port seq crcOk) s = execFlitReceive port seq crcOk s := rfl
@[simp] theorem exec_replayRequest port seq (s : State) : exec (.replayRequest port seq) s = execReplayRequest port seq s := rfl
@[simp] theorem exec_remoteLoadRequest r blk (s : State) :
    exec (.remoteLoadRequest r blk) s = execRemoteLoadRequest r blk s := rfl
@[simp] theorem exec_remoteStoreRequest r (s : State) : exec (.remoteStoreRequest r) s = execRemoteStoreRequest r s := rfl
@[simp] theorem exec_directReductionRequest r op vals (s : State) : exec (.directReductionRequest r op vals) s = execDirectReductionRequest r op vals s := rfl
@[simp] theorem exec_groupContribution x (s : State) : exec (.groupContribution x) s = execGroupContribution x s := rfl
@[simp] theorem exec_mirrorWrite core (s : State) : exec (.mirrorWrite core) s = execMirrorWrite core s := rfl
@[simp] theorem exec_loadResponse core id cause data (s : State) : exec (.loadResponse core id cause data) s = execLoadResponse core id cause data s := rfl
@[simp] theorem exec_acknowledgement core id answer (s : State) :
    exec (.acknowledgement core id answer) s = execAcknowledgement core id answer s := rfl
@[simp] theorem exec_movedNack core id (s : State) : exec (.movedNack core id) s = execMovedNack core id s := rfl
@[simp] theorem exec_requestTimeout core id (s : State) : exec (.requestTimeout core id) s = execRequestTimeout core id s := rfl
@[simp] theorem exec_rankExclusion group rank (s : State) : exec (.rankExclusion group rank) s = execRankExclusion group rank s := rfl
@[simp] theorem exec_roundClose group (s : State) : exec (.roundClose group) s = execRoundClose group s := rfl
@[simp] theorem exec_roundTimeout group (s : State) : exec (.roundTimeout group) s = execRoundTimeout group s := rfl
@[simp] theorem exec_resultWrite group core r (s : State) : exec (.resultWrite group core r) s = execResultWrite group core r s := rfl
@[simp] theorem exec_multicastReplica r (s : State) : exec (.multicastReplica r) s = execMulticastReplica r s := rfl
@[simp] theorem exec_handlerStart core (s : State) : exec (.handlerStart core) s = execHandlerStart core s := rfl
@[simp] theorem exec_waitSatisfied core ctx (s : State) : exec (.waitSatisfied core ctx) s = execWaitSatisfied core ctx s := rfl
@[simp] theorem exec_scoreboardLand core ctx tag (s : State) : exec (.scoreboardLand core ctx tag) s = execScoreboardLand core ctx tag s := rfl
@[simp] theorem exec_resultLand core ctx (s : State) : exec (.resultLand core ctx) s = execResultLand core ctx s := rfl
@[simp] theorem exec_trapReplay core ctx (s : State) : exec (.trapReplay core ctx) s = execTrapReplay core ctx s := rfl
@[simp] theorem exec_preemptRequest core ctx src (s : State) : exec (.preemptRequest core ctx src) s = execPreemptRequest core ctx src s := rfl
@[simp] theorem exec_stopPointReached core ctx (s : State) : exec (.stopPointReached core ctx) s = execStopPointReached core ctx s := rfl
@[simp] theorem exec_engineStopAck core ctx e (s : State) : exec (.engineStopAck core ctx e) s = execEngineStopAck core ctx e s := rfl
@[simp] theorem exec_collectiveStopExpiry core ctx (s : State) : exec (.collectiveStopExpiry core ctx) s = execCollectiveStopExpiry core ctx s := rfl
@[simp] theorem exec_weirComplete core ctx (s : State) : exec (.weirComplete core ctx) s = execWeirComplete core ctx s := rfl
@[simp] theorem exec_pinRenewal core (s : State) : exec (.pinRenewal core) s = execPinRenewal core s := rfl
@[simp] theorem exec_rillSweep core (s : State) : exec (.rillSweep core) s = execRillSweep core s := rfl
@[simp] theorem exec_issueQueueLeave agent idx (s : State) : exec (.issueQueueLeave agent idx) s = execIssueQueueLeave agent idx s := rfl
@[simp] theorem exec_pendingCommit agent idx (s : State) : exec (.pendingCommit agent idx) s = execPendingCommit agent idx s := rfl
@[simp] theorem exec_portApply pool (s : State) : exec (.portApply pool) s = execPortApply pool s := rfl
@[simp] theorem exec_loadBind agent idx pos (s : State) : exec (.loadBind agent idx pos) s = execLoadBind agent idx pos s := rfl
@[simp] theorem exec_atomicApply agent idx (s : State) : exec (.atomicApply agent idx) s = execAtomicApply agent idx s := rfl
@[simp] theorem exec_raddBlockApply die idx (s : State) : exec (.raddBlockApply die idx) s = execRaddBlockApply die idx s := rfl
@[simp] theorem exec_fenceComplete agent idx (s : State) : exec (.fenceComplete agent idx) s = execFenceComplete agent idx s := rfl
@[simp] theorem exec_shutCommit agent idx (s : State) : exec (.shutCommit agent idx) s = execShutCommit agent idx s := rfl
@[simp] theorem exec_pageWalk cluster idx (s : State) : exec (.pageWalk cluster idx) s = execPageWalk cluster idx s := rfl
@[simp] theorem exec_invalidation part page (s : State) : exec (.invalidation part page) s = execInvalidation part page s := rfl
@[simp] theorem exec_invalidationAck dest (s : State) : exec (.invalidationAck dest) s = execInvalidationAck dest s := rfl
@[simp] theorem exec_pageMigration part va newPa (s : State) : exec (.pageMigration part va newPa) s = execPageMigration part va newPa s := rfl
@[simp] theorem exec_engineCommandStart core e num (s : State) : exec (.engineCommandStart core e num) s = execEngineCommandStart core e num s := rfl
@[simp] theorem exec_engineBlockApply core e num pos (s : State) : exec (.engineBlockApply core e num pos) s = execEngineBlockApply core e num pos s := rfl
@[simp] theorem exec_engineCommandEnd core e num (s : State) : exec (.engineCommandEnd core e num) s = execEngineCommandEnd core e num s := rfl
@[simp] theorem exec_operandFillDone core ctx (s : State) : exec (.operandFillDone core ctx) s = execOperandFillDone core ctx s := rfl
@[simp] theorem exec_saveImageWritten core ctx (s : State) : exec (.saveImageWritten core ctx) s = execSaveImageWritten core ctx s := rfl
@[simp] theorem exec_restoreComplete core ctx (s : State) : exec (.restoreComplete core ctx) s = execRestoreComplete core ctx s := rfl
@[simp] theorem exec_gangCancelMessage src gang (s : State) :
    exec (.gangCancelMessage src gang) s = execGangCancelMessage src gang s := rfl

/-- A word whose guard holds runs its meaning. -/
theorem runWord_true {s : State} {h : Hd} (f : Mach → Mach) (hg : guardTrue s.m h = true) :
    runWord s h f = .next { s with m := f s.m } := by
  simp [runWord, onMach, hg]

/-- A word whose guard is false does nothing (spec/04 R66). -/
theorem runWord_false {s : State} {h : Hd} (f : Mach → Mach) (hg : guardTrue s.m h = false) :
    runWord s h f = .next s := by
  simp [runWord, onMach, hg]

/-- All that a word can answer: the state as it was, or with its meaning applied. -/
theorem runWord_cases {s t : State} {h : Hd} {f : Mach → Mach} (he : runWord s h f = .next t) :
    (guardTrue s.m h = true ∧ t = { s with m := f s.m }) ∨ (guardTrue s.m h = false ∧ t = s) := by
  cases hg : guardTrue s.m h
  · rw [runWord_false f hg] at he; exact .inr ⟨rfl, (Host.Outcome.next.inj he).symm⟩
  · rw [runWord_true f hg] at he; exact .inl ⟨rfl, (Host.Outcome.next.inj he).symm⟩

/-- The result of an X word with unpoisoned operands. -/
theorem xResult_clean (m : Mach) (x y : Scalar) (f : Word → Word → Word) (hx : x.pois = false) (hy : y.pois = false) :
    xResult m x y f = { val := f x.val y.val } := by
  simp [xResult, firstPoison, hx, hy]

/-- A V word on a tile that the core has, with unpoisoned scalars, of a type that takes it. -/
theorem vCheck_ok (m : Mach) (t : Nat) (f : Mach → Mach) (ht : t < tilesOf m) : vCheck m [t] [] true f = f m := by
  simp [vCheck, Nat.not_le.2 ht]

theorem vCheck_tile (m : Mach) (t : Nat) (ts : List Nat) (ss : List Scalar) (ok : Bool) (f : Mach → Mach)
    (ht : tilesOf m ≤ t) : vCheck m (t :: ts) ss ok f = trapW m 0x11 := by
  simp [vCheck, ht]

end Sys2Proof.Machine
end

