-- ==== Sys2Proof/Laws/State.lean ====
section
/-!
SUPPORT. One lemma per field per update: the updates of one part of the machine leave every other field as it was.
-/

namespace Sys2Proof.Machine

@[simp] theorem setCore_phase (m : Mach) (c : Nat) (x : Core) : (setCore m c x).phase = m.phase := rfl
@[simp] theorem setCore_cycle (m : Mach) (c : Nat) (x : Core) : (setCore m c x).cycle = m.cycle := rfl
@[simp] theorem setCore_nowt (m : Mach) (c : Nat) (x : Core) : (setCore m c x).nowt = m.nowt := rfl
@[simp] theorem setCore_sub (m : Mach) (c : Nat) (x : Core) : (setCore m c x).sub = m.sub := rfl
@[simp] theorem setCore_throttled (m : Mach) (c : Nat) (x : Core) : (setCore m c x).throttled = m.throttled := rfl
@[simp] theorem setCore_step (m : Mach) (c : Nat) (x : Core) : (setCore m c x).step = m.step := rfl
@[simp] theorem setCore_mem (m : Mach) (c : Nat) (x : Core) : (setCore m c x).mem = m.mem := rfl
@[simp] theorem setCore_hist (m : Mach) (c : Nat) (x : Core) : (setCore m c x).hist = m.hist := rfl
@[simp] theorem setCore_agents (m : Mach) (c : Nat) (x : Core) : (setCore m c x).agents = m.agents := rfl
@[simp] theorem setCore_adders (m : Mach) (c : Nat) (x : Core) : (setCore m c x).adders = m.adders := rfl
@[simp] theorem setCore_poisoned (m : Mach) (c : Nat) (x : Core) : (setCore m c x).poisoned = m.poisoned := rfl
@[simp] theorem setCore_memGen (m : Mach) (c : Nat) (x : Core) : (setCore m c x).memGen = m.memGen := rfl
@[simp] theorem setCore_keyed (m : Mach) (c : Nat) (x : Core) : (setCore m c x).keyed = m.keyed := rfl
@[simp] theorem setCore_erased (m : Mach) (c : Nat) (x : Core) : (setCore m c x).erased = m.erased := rfl
@[simp] theorem setCore_scrubPos (m : Mach) (c : Nat) (x : Core) : (setCore m c x).scrubPos = m.scrubPos := rfl
@[simp] theorem setCore_clusters (m : Mach) (c : Nat) (x : Core) : (setCore m c x).clusters = m.clusters := rfl
@[simp] theorem setCore_invals (m : Mach) (c : Nat) (x : Core) : (setCore m c x).invals = m.invals := rfl
@[simp] theorem setCore_migration (m : Mach) (c : Nat) (x : Core) : (setCore m c x).migration = m.migration := rfl
@[simp] theorem setCore_queues (m : Mach) (c : Nat) (x : Core) : (setCore m c x).queues = m.queues := rfl
@[simp] theorem setCore_nodes (m : Mach) (c : Nat) (x : Core) : (setCore m c x).nodes = m.nodes := rfl
@[simp] theorem setCore_nodeSeq (m : Mach) (c : Nat) (x : Core) : (setCore m c x).nodeSeq = m.nodeSeq := rfl
@[simp] theorem setCore_owners (m : Mach) (c : Nat) (x : Core) : (setCore m c x).owners = m.owners := rfl
@[simp] theorem setCore_parts (m : Mach) (c : Nat) (x : Core) : (setCore m c x).parts = m.parts := rfl
@[simp] theorem setCore_records (m : Mach) (c : Nat) (x : Core) : (setCore m c x).records = m.records := rfl
@[simp] theorem setCore_recSeq (m : Mach) (c : Nat) (x : Core) : (setCore m c x).recSeq = m.recSeq := rfl
@[simp] theorem setCore_images (m : Mach) (c : Nat) (x : Core) : (setCore m c x).images = m.images := rfl
@[simp] theorem setCore_wdrr (m : Mach) (c : Nat) (x : Core) : (setCore m c x).wdrr = m.wdrr := rfl
@[simp] theorem setCore_noPlace (m : Mach) (c : Nat) (x : Core) : (setCore m c x).noPlace = m.noPlace := rfl
@[simp] theorem setCore_vfs (m : Mach) (c : Nat) (x : Core) : (setCore m c x).vfs = m.vfs := rfl
@[simp] theorem setCore_hdms (m : Mach) (c : Nat) (x : Core) : (setCore m c x).hdms = m.hdms := rfl
@[simp] theorem setCore_mailbox (m : Mach) (c : Nat) (x : Core) : (setCore m c x).mailbox = m.mailbox := rfl
@[simp] theorem setCore_number (m : Mach) (c : Nat) (x : Core) : (setCore m c x).number = m.number := rfl
@[simp] theorem setCore_links (m : Mach) (c : Nat) (x : Core) : (setCore m c x).links = m.links := rfl
@[simp] theorem setCore_out (m : Mach) (c : Nat) (x : Core) : (setCore m c x).out = m.out := rfl
@[simp] theorem setCore_landings (m : Mach) (c : Nat) (x : Core) : (setCore m c x).landings = m.landings := rfl
@[simp] theorem setCore_rounds (m : Mach) (c : Nat) (x : Core) : (setCore m c x).rounds = m.rounds := rfl
@[simp] theorem setCore_counts (m : Mach) (c : Nat) (x : Core) : (setCore m c x).counts = m.counts := rfl
@[simp] theorem setCore_exclNext (m : Mach) (c : Nat) (x : Core) : (setCore m c x).exclNext = m.exclNext := rfl
@[simp] theorem setCore_closedRounds (m : Mach) (c : Nat) (x : Core) : (setCore m c x).closedRounds = m.closedRounds := rfl
@[simp] theorem setCore_gangs (m : Mach) (c : Nat) (x : Core) : (setCore m c x).gangs = m.gangs := rfl
@[simp] theorem setCore_gangSeq (m : Mach) (c : Nat) (x : Core) : (setCore m c x).gangSeq = m.gangSeq := rfl
@[simp] theorem setCore_downPkgs (m : Mach) (c : Nat) (x : Core) : (setCore m c x).downPkgs = m.downPkgs := rfl
@[simp] theorem setCore_fillTable (m : Mach) (c : Nat) (x : Core) : (setCore m c x).fillTable = m.fillTable := rfl
@[simp] theorem setCore_exclDue (m : Mach) (c : Nat) (x : Core) : (setCore m c x).exclDue = m.exclDue := rfl
@[simp] theorem setCore_recDue (m : Mach) (c : Nat) (x : Core) : (setCore m c x).recDue = m.recDue := rfl
@[simp] theorem setCore_restDue (m : Mach) (c : Nat) (x : Core) : (setCore m c x).restDue = m.restDue := rfl
@[simp] theorem setCore_tret (m : Mach) (c : Nat) (x : Core) : (setCore m c x).tret = m.tret := rfl
@[simp] theorem setCore_trims (m : Mach) (c : Nat) (x : Core) : (setCore m c x).trims = m.trims := rfl
@[simp] theorem setCore_retired (m : Mach) (c : Nat) (x : Core) : (setCore m c x).retired = m.retired := rfl
@[simp] theorem setCore_portsDown (m : Mach) (c : Nat) (x : Core) : (setCore m c x).portsDown = m.portsDown := rfl
@[simp] theorem setCore_tag (m : Mach) (c : Nat) (x : Core) : (setCore m c x).tag = m.tag := rfl
@[simp] theorem setCore_fresh (m : Mach) (c : Nat) (x : Core) : (setCore m c x).fresh = m.fresh := rfl
@[simp] theorem setCore_iss (m : Mach) (c : Nat) (x : Core) : (setCore m c x).iss = m.iss := rfl
@[simp] theorem setCore_sched (m : Mach) (c : Nat) (x : Core) : (setCore m c x).sched = m.sched := rfl

@[simp] theorem setCluster_phase (m : Mach) (c : Nat) (x : Cluster) : (setCluster m c x).phase = m.phase := rfl
@[simp] theorem setCluster_cycle (m : Mach) (c : Nat) (x : Cluster) : (setCluster m c x).cycle = m.cycle := rfl
@[simp] theorem setCluster_nowt (m : Mach) (c : Nat) (x : Cluster) : (setCluster m c x).nowt = m.nowt := rfl
@[simp] theorem setCluster_sub (m : Mach) (c : Nat) (x : Cluster) : (setCluster m c x).sub = m.sub := rfl
@[simp] theorem setCluster_throttled (m : Mach) (c : Nat) (x : Cluster) : (setCluster m c x).throttled = m.throttled := rfl
@[simp] theorem setCluster_step (m : Mach) (c : Nat) (x : Cluster) : (setCluster m c x).step = m.step := rfl
@[simp] theorem setCluster_mem (m : Mach) (c : Nat) (x : Cluster) : (setCluster m c x).mem = m.mem := rfl
@[simp] theorem setCluster_hist (m : Mach) (c : Nat) (x : Cluster) : (setCluster m c x).hist = m.hist := rfl
@[simp] theorem setCluster_agents (m : Mach) (c : Nat) (x : Cluster) : (setCluster m c x).agents = m.agents := rfl
@[simp] theorem setCluster_adders (m : Mach) (c : Nat) (x : Cluster) : (setCluster m c x).adders = m.adders := rfl
@[simp] theorem setCluster_poisoned (m : Mach) (c : Nat) (x : Cluster) : (setCluster m c x).poisoned = m.poisoned := rfl
@[simp] theorem setCluster_memGen (m : Mach) (c : Nat) (x : Cluster) : (setCluster m c x).memGen = m.memGen := rfl
@[simp] theorem setCluster_keyed (m : Mach) (c : Nat) (x : Cluster) : (setCluster m c x).keyed = m.keyed := rfl
@[simp] theorem setCluster_erased (m : Mach) (c : Nat) (x : Cluster) : (setCluster m c x).erased = m.erased := rfl
@[simp] theorem setCluster_scrubPos (m : Mach) (c : Nat) (x : Cluster) : (setCluster m c x).scrubPos = m.scrubPos := rfl
@[simp] theorem setCluster_cores (m : Mach) (c : Nat) (x : Cluster) : (setCluster m c x).cores = m.cores := rfl
@[simp] theorem setCluster_invals (m : Mach) (c : Nat) (x : Cluster) : (setCluster m c x).invals = m.invals := rfl
@[simp] theorem setCluster_migration (m : Mach) (c : Nat) (x : Cluster) : (setCluster m c x).migration = m.migration := rfl
@[simp] theorem setCluster_queues (m : Mach) (c : Nat) (x : Cluster) : (setCluster m c x).queues = m.queues := rfl
@[simp] theorem setCluster_nodes (m : Mach) (c : Nat) (x : Cluster) : (setCluster m c x).nodes = m.nodes := rfl
@[simp] theorem setCluster_nodeSeq (m : Mach) (c : Nat) (x : Cluster) : (setCluster m c x).nodeSeq = m.nodeSeq := rfl
@[simp] theorem setCluster_owners (m : Mach) (c : Nat) (x : Cluster) : (setCluster m c x).owners = m.owners := rfl
@[simp] theorem setCluster_parts (m : Mach) (c : Nat) (x : Cluster) : (setCluster m c x).parts = m.parts := rfl
@[simp] theorem setCluster_records (m : Mach) (c : Nat) (x : Cluster) : (setCluster m c x).records = m.records := rfl
@[simp] theorem setCluster_recSeq (m : Mach) (c : Nat) (x : Cluster) : (setCluster m c x).recSeq = m.recSeq := rfl
@[simp] theorem setCluster_images (m : Mach) (c : Nat) (x : Cluster) : (setCluster m c x).images = m.images := rfl
@[simp] theorem setCluster_wdrr (m : Mach) (c : Nat) (x : Cluster) : (setCluster m c x).wdrr = m.wdrr := rfl
@[simp] theorem setCluster_noPlace (m : Mach) (c : Nat) (x : Cluster) : (setCluster m c x).noPlace = m.noPlace := rfl
@[simp] theorem setCluster_vfs (m : Mach) (c : Nat) (x : Cluster) : (setCluster m c x).vfs = m.vfs := rfl
@[simp] theorem setCluster_hdms (m : Mach) (c : Nat) (x : Cluster) : (setCluster m c x).hdms = m.hdms := rfl
@[simp] theorem setCluster_mailbox (m : Mach) (c : Nat) (x : Cluster) : (setCluster m c x).mailbox = m.mailbox := rfl
@[simp] theorem setCluster_number (m : Mach) (c : Nat) (x : Cluster) : (setCluster m c x).number = m.number := rfl
@[simp] theorem setCluster_links (m : Mach) (c : Nat) (x : Cluster) : (setCluster m c x).links = m.links := rfl
@[simp] theorem setCluster_out (m : Mach) (c : Nat) (x : Cluster) : (setCluster m c x).out = m.out := rfl
@[simp] theorem setCluster_landings (m : Mach) (c : Nat) (x : Cluster) : (setCluster m c x).landings = m.landings := rfl
@[simp] theorem setCluster_rounds (m : Mach) (c : Nat) (x : Cluster) : (setCluster m c x).rounds = m.rounds := rfl
@[simp] theorem setCluster_counts (m : Mach) (c : Nat) (x : Cluster) : (setCluster m c x).counts = m.counts := rfl
@[simp] theorem setCluster_exclNext (m : Mach) (c : Nat) (x : Cluster) : (setCluster m c x).exclNext = m.exclNext := rfl
@[simp] theorem setCluster_closedRounds (m : Mach) (c : Nat) (x : Cluster) : (setCluster m c x).closedRounds = m.closedRounds := rfl
@[simp] theorem setCluster_gangs (m : Mach) (c : Nat) (x : Cluster) : (setCluster m c x).gangs = m.gangs := rfl
@[simp] theorem setCluster_gangSeq (m : Mach) (c : Nat) (x : Cluster) : (setCluster m c x).gangSeq = m.gangSeq := rfl
@[simp] theorem setCluster_downPkgs (m : Mach) (c : Nat) (x : Cluster) : (setCluster m c x).downPkgs = m.downPkgs := rfl
@[simp] theorem setCluster_fillTable (m : Mach) (c : Nat) (x : Cluster) : (setCluster m c x).fillTable = m.fillTable := rfl
@[simp] theorem setCluster_exclDue (m : Mach) (c : Nat) (x : Cluster) : (setCluster m c x).exclDue = m.exclDue := rfl
@[simp] theorem setCluster_recDue (m : Mach) (c : Nat) (x : Cluster) : (setCluster m c x).recDue = m.recDue := rfl
@[simp] theorem setCluster_restDue (m : Mach) (c : Nat) (x : Cluster) : (setCluster m c x).restDue = m.restDue := rfl
@[simp] theorem setCluster_tret (m : Mach) (c : Nat) (x : Cluster) : (setCluster m c x).tret = m.tret := rfl
@[simp] theorem setCluster_trims (m : Mach) (c : Nat) (x : Cluster) : (setCluster m c x).trims = m.trims := rfl
@[simp] theorem setCluster_retired (m : Mach) (c : Nat) (x : Cluster) : (setCluster m c x).retired = m.retired := rfl
@[simp] theorem setCluster_portsDown (m : Mach) (c : Nat) (x : Cluster) : (setCluster m c x).portsDown = m.portsDown := rfl
@[simp] theorem setCluster_tag (m : Mach) (c : Nat) (x : Cluster) : (setCluster m c x).tag = m.tag := rfl
@[simp] theorem setCluster_fresh (m : Mach) (c : Nat) (x : Cluster) : (setCluster m c x).fresh = m.fresh := rfl
@[simp] theorem setCluster_iss (m : Mach) (c : Nat) (x : Cluster) : (setCluster m c x).iss = m.iss := rfl
@[simp] theorem setCluster_sched (m : Mach) (c : Nat) (x : Cluster) : (setCluster m c x).sched = m.sched := rfl

@[simp] theorem setPart_phase (m : Mach) (p : Nat) (x : Part) : (setPart m p x).phase = m.phase := rfl
@[simp] theorem setPart_cycle (m : Mach) (p : Nat) (x : Part) : (setPart m p x).cycle = m.cycle := rfl
@[simp] theorem setPart_nowt (m : Mach) (p : Nat) (x : Part) : (setPart m p x).nowt = m.nowt := rfl
@[simp] theorem setPart_sub (m : Mach) (p : Nat) (x : Part) : (setPart m p x).sub = m.sub := rfl
@[simp] theorem setPart_throttled (m : Mach) (p : Nat) (x : Part) : (setPart m p x).throttled = m.throttled := rfl
@[simp] theorem setPart_step (m : Mach) (p : Nat) (x : Part) : (setPart m p x).step = m.step := rfl
@[simp] theorem setPart_mem (m : Mach) (p : Nat) (x : Part) : (setPart m p x).mem = m.mem := rfl
@[simp] theorem setPart_hist (m : Mach) (p : Nat) (x : Part) : (setPart m p x).hist = m.hist := rfl
@[simp] theorem setPart_agents (m : Mach) (p : Nat) (x : Part) : (setPart m p x).agents = m.agents := rfl
@[simp] theorem setPart_adders (m : Mach) (p : Nat) (x : Part) : (setPart m p x).adders = m.adders := rfl
@[simp] theorem setPart_poisoned (m : Mach) (p : Nat) (x : Part) : (setPart m p x).poisoned = m.poisoned := rfl
@[simp] theorem setPart_memGen (m : Mach) (p : Nat) (x : Part) : (setPart m p x).memGen = m.memGen := rfl
@[simp] theorem setPart_keyed (m : Mach) (p : Nat) (x : Part) : (setPart m p x).keyed = m.keyed := rfl
@[simp] theorem setPart_erased (m : Mach) (p : Nat) (x : Part) : (setPart m p x).erased = m.erased := rfl
@[simp] theorem setPart_scrubPos (m : Mach) (p : Nat) (x : Part) : (setPart m p x).scrubPos = m.scrubPos := rfl
@[simp] theorem setPart_cores (m : Mach) (p : Nat) (x : Part) : (setPart m p x).cores = m.cores := rfl
@[simp] theorem setPart_clusters (m : Mach) (p : Nat) (x : Part) : (setPart m p x).clusters = m.clusters := rfl
@[simp] theorem setPart_invals (m : Mach) (p : Nat) (x : Part) : (setPart m p x).invals = m.invals := rfl
@[simp] theorem setPart_migration (m : Mach) (p : Nat) (x : Part) : (setPart m p x).migration = m.migration := rfl
@[simp] theorem setPart_queues (m : Mach) (p : Nat) (x : Part) : (setPart m p x).queues = m.queues := rfl
@[simp] theorem setPart_nodes (m : Mach) (p : Nat) (x : Part) : (setPart m p x).nodes = m.nodes := rfl
@[simp] theorem setPart_nodeSeq (m : Mach) (p : Nat) (x : Part) : (setPart m p x).nodeSeq = m.nodeSeq := rfl
@[simp] theorem setPart_owners (m : Mach) (p : Nat) (x : Part) : (setPart m p x).owners = m.owners := rfl
@[simp] theorem setPart_records (m : Mach) (p : Nat) (x : Part) : (setPart m p x).records = m.records := rfl
@[simp] theorem setPart_recSeq (m : Mach) (p : Nat) (x : Part) : (setPart m p x).recSeq = m.recSeq := rfl
@[simp] theorem setPart_images (m : Mach) (p : Nat) (x : Part) : (setPart m p x).images = m.images := rfl
@[simp] theorem setPart_wdrr (m : Mach) (p : Nat) (x : Part) : (setPart m p x).wdrr = m.wdrr := rfl
@[simp] theorem setPart_noPlace (m : Mach) (p : Nat) (x : Part) : (setPart m p x).noPlace = m.noPlace := rfl
@[simp] theorem setPart_vfs (m : Mach) (p : Nat) (x : Part) : (setPart m p x).vfs = m.vfs := rfl
@[simp] theorem setPart_hdms (m : Mach) (p : Nat) (x : Part) : (setPart m p x).hdms = m.hdms := rfl
@[simp] theorem setPart_mailbox (m : Mach) (p : Nat) (x : Part) : (setPart m p x).mailbox = m.mailbox := rfl
@[simp] theorem setPart_number (m : Mach) (p : Nat) (x : Part) : (setPart m p x).number = m.number := rfl
@[simp] theorem setPart_links (m : Mach) (p : Nat) (x : Part) : (setPart m p x).links = m.links := rfl
@[simp] theorem setPart_out (m : Mach) (p : Nat) (x : Part) : (setPart m p x).out = m.out := rfl
@[simp] theorem setPart_landings (m : Mach) (p : Nat) (x : Part) : (setPart m p x).landings = m.landings := rfl
@[simp] theorem setPart_rounds (m : Mach) (p : Nat) (x : Part) : (setPart m p x).rounds = m.rounds := rfl
@[simp] theorem setPart_counts (m : Mach) (p : Nat) (x : Part) : (setPart m p x).counts = m.counts := rfl
@[simp] theorem setPart_exclNext (m : Mach) (p : Nat) (x : Part) : (setPart m p x).exclNext = m.exclNext := rfl
@[simp] theorem setPart_closedRounds (m : Mach) (p : Nat) (x : Part) : (setPart m p x).closedRounds = m.closedRounds := rfl
@[simp] theorem setPart_gangs (m : Mach) (p : Nat) (x : Part) : (setPart m p x).gangs = m.gangs := rfl
@[simp] theorem setPart_gangSeq (m : Mach) (p : Nat) (x : Part) : (setPart m p x).gangSeq = m.gangSeq := rfl
@[simp] theorem setPart_downPkgs (m : Mach) (p : Nat) (x : Part) : (setPart m p x).downPkgs = m.downPkgs := rfl
@[simp] theorem setPart_fillTable (m : Mach) (p : Nat) (x : Part) : (setPart m p x).fillTable = m.fillTable := rfl
@[simp] theorem setPart_exclDue (m : Mach) (p : Nat) (x : Part) : (setPart m p x).exclDue = m.exclDue := rfl
@[simp] theorem setPart_recDue (m : Mach) (p : Nat) (x : Part) : (setPart m p x).recDue = m.recDue := rfl
@[simp] theorem setPart_restDue (m : Mach) (p : Nat) (x : Part) : (setPart m p x).restDue = m.restDue := rfl
@[simp] theorem setPart_tret (m : Mach) (p : Nat) (x : Part) : (setPart m p x).tret = m.tret := rfl
@[simp] theorem setPart_trims (m : Mach) (p : Nat) (x : Part) : (setPart m p x).trims = m.trims := rfl
@[simp] theorem setPart_retired (m : Mach) (p : Nat) (x : Part) : (setPart m p x).retired = m.retired := rfl
@[simp] theorem setPart_portsDown (m : Mach) (p : Nat) (x : Part) : (setPart m p x).portsDown = m.portsDown := rfl
@[simp] theorem setPart_tag (m : Mach) (p : Nat) (x : Part) : (setPart m p x).tag = m.tag := rfl
@[simp] theorem setPart_fresh (m : Mach) (p : Nat) (x : Part) : (setPart m p x).fresh = m.fresh := rfl
@[simp] theorem setPart_iss (m : Mach) (p : Nat) (x : Part) : (setPart m p x).iss = m.iss := rfl
@[simp] theorem setPart_sched (m : Mach) (p : Nat) (x : Part) : (setPart m p x).sched = m.sched := rfl

@[simp] theorem setOwnerOf_phase (m : Mach) (o : Nat) (x : Owner) : (setOwnerOf m o x).phase = m.phase := rfl
@[simp] theorem setOwnerOf_cycle (m : Mach) (o : Nat) (x : Owner) : (setOwnerOf m o x).cycle = m.cycle := rfl
@[simp] theorem setOwnerOf_nowt (m : Mach) (o : Nat) (x : Owner) : (setOwnerOf m o x).nowt = m.nowt := rfl
@[simp] theorem setOwnerOf_sub (m : Mach) (o : Nat) (x : Owner) : (setOwnerOf m o x).sub = m.sub := rfl
@[simp] theorem setOwnerOf_throttled (m : Mach) (o : Nat) (x : Owner) : (setOwnerOf m o x).throttled = m.throttled := rfl
@[simp] theorem setOwnerOf_step (m : Mach) (o : Nat) (x : Owner) : (setOwnerOf m o x).step = m.step := rfl
@[simp] theorem setOwnerOf_mem (m : Mach) (o : Nat) (x : Owner) : (setOwnerOf m o x).mem = m.mem := rfl
@[simp] theorem setOwnerOf_hist (m : Mach) (o : Nat) (x : Owner) : (setOwnerOf m o x).hist = m.hist := rfl
@[simp] theorem setOwnerOf_agents (m : Mach) (o : Nat) (x : Owner) : (setOwnerOf m o x).agents = m.agents := rfl
@[simp] theorem setOwnerOf_adders (m : Mach) (o : Nat) (x : Owner) : (setOwnerOf m o x).adders = m.adders := rfl
@[simp] theorem setOwnerOf_poisoned (m : Mach) (o : Nat) (x : Owner) : (setOwnerOf m o x).poisoned = m.poisoned := rfl
@[simp] theorem setOwnerOf_memGen (m : Mach) (o : Nat) (x : Owner) : (setOwnerOf m o x).memGen = m.memGen := rfl
@[simp] theorem setOwnerOf_keyed (m : Mach) (o : Nat) (x : Owner) : (setOwnerOf m o x).keyed = m.keyed := rfl
@[simp] theorem setOwnerOf_erased (m : Mach) (o : Nat) (x : Owner) : (setOwnerOf m o x).erased = m.erased := rfl
@[simp] theorem setOwnerOf_scrubPos (m : Mach) (o : Nat) (x : Owner) : (setOwnerOf m o x).scrubPos = m.scrubPos := rfl
@[simp] theorem setOwnerOf_cores (m : Mach) (o : Nat) (x : Owner) : (setOwnerOf m o x).cores = m.cores := rfl
@[simp] theorem setOwnerOf_clusters (m : Mach) (o : Nat) (x : Owner) : (setOwnerOf m o x).clusters = m.clusters := rfl
@[simp] theorem setOwnerOf_invals (m : Mach) (o : Nat) (x : Owner) : (setOwnerOf m o x).invals = m.invals := rfl
@[simp] theorem setOwnerOf_migration (m : Mach) (o : Nat) (x : Owner) : (setOwnerOf m o x).migration = m.migration := rfl
@[simp] theorem setOwnerOf_queues (m : Mach) (o : Nat) (x : Owner) : (setOwnerOf m o x).queues = m.queues := rfl
@[simp] theorem setOwnerOf_nodes (m : Mach) (o : Nat) (x : Owner) : (setOwnerOf m o x).nodes = m.nodes := rfl
@[simp] theorem setOwnerOf_nodeSeq (m : Mach) (o : Nat) (x : Owner) : (setOwnerOf m o x).nodeSeq = m.nodeSeq := rfl
@[simp] theorem setOwnerOf_parts (m : Mach) (o : Nat) (x : Owner) : (setOwnerOf m o x).parts = m.parts := rfl
@[simp] theorem setOwnerOf_records (m : Mach) (o : Nat) (x : Owner) : (setOwnerOf m o x).records = m.records := rfl
@[simp] theorem setOwnerOf_recSeq (m : Mach) (o : Nat) (x : Owner) : (setOwnerOf m o x).recSeq = m.recSeq := rfl
@[simp] theorem setOwnerOf_images (m : Mach) (o : Nat) (x : Owner) : (setOwnerOf m o x).images = m.images := rfl
@[simp] theorem setOwnerOf_wdrr (m : Mach) (o : Nat) (x : Owner) : (setOwnerOf m o x).wdrr = m.wdrr := rfl
@[simp] theorem setOwnerOf_noPlace (m : Mach) (o : Nat) (x : Owner) : (setOwnerOf m o x).noPlace = m.noPlace := rfl
@[simp] theorem setOwnerOf_vfs (m : Mach) (o : Nat) (x : Owner) : (setOwnerOf m o x).vfs = m.vfs := rfl
@[simp] theorem setOwnerOf_hdms (m : Mach) (o : Nat) (x : Owner) : (setOwnerOf m o x).hdms = m.hdms := rfl
@[simp] theorem setOwnerOf_mailbox (m : Mach) (o : Nat) (x : Owner) : (setOwnerOf m o x).mailbox = m.mailbox := rfl
@[simp] theorem setOwnerOf_number (m : Mach) (o : Nat) (x : Owner) : (setOwnerOf m o x).number = m.number := rfl
@[simp] theorem setOwnerOf_links (m : Mach) (o : Nat) (x : Owner) : (setOwnerOf m o x).links = m.links := rfl
@[simp] theorem setOwnerOf_out (m : Mach) (o : Nat) (x : Owner) : (setOwnerOf m o x).out = m.out := rfl
@[simp] theorem setOwnerOf_landings (m : Mach) (o : Nat) (x : Owner) : (setOwnerOf m o x).landings = m.landings := rfl
@[simp] theorem setOwnerOf_rounds (m : Mach) (o : Nat) (x : Owner) : (setOwnerOf m o x).rounds = m.rounds := rfl
@[simp] theorem setOwnerOf_counts (m : Mach) (o : Nat) (x : Owner) : (setOwnerOf m o x).counts = m.counts := rfl
@[simp] theorem setOwnerOf_exclNext (m : Mach) (o : Nat) (x : Owner) : (setOwnerOf m o x).exclNext = m.exclNext := rfl
@[simp] theorem setOwnerOf_closedRounds (m : Mach) (o : Nat) (x : Owner) : (setOwnerOf m o x).closedRounds = m.closedRounds := rfl
@[simp] theorem setOwnerOf_gangs (m : Mach) (o : Nat) (x : Owner) : (setOwnerOf m o x).gangs = m.gangs := rfl
@[simp] theorem setOwnerOf_gangSeq (m : Mach) (o : Nat) (x : Owner) : (setOwnerOf m o x).gangSeq = m.gangSeq := rfl
@[simp] theorem setOwnerOf_downPkgs (m : Mach) (o : Nat) (x : Owner) : (setOwnerOf m o x).downPkgs = m.downPkgs := rfl
@[simp] theorem setOwnerOf_fillTable (m : Mach) (o : Nat) (x : Owner) : (setOwnerOf m o x).fillTable = m.fillTable := rfl
@[simp] theorem setOwnerOf_exclDue (m : Mach) (o : Nat) (x : Owner) : (setOwnerOf m o x).exclDue = m.exclDue := rfl
@[simp] theorem setOwnerOf_recDue (m : Mach) (o : Nat) (x : Owner) : (setOwnerOf m o x).recDue = m.recDue := rfl
@[simp] theorem setOwnerOf_restDue (m : Mach) (o : Nat) (x : Owner) : (setOwnerOf m o x).restDue = m.restDue := rfl
@[simp] theorem setOwnerOf_tret (m : Mach) (o : Nat) (x : Owner) : (setOwnerOf m o x).tret = m.tret := rfl
@[simp] theorem setOwnerOf_trims (m : Mach) (o : Nat) (x : Owner) : (setOwnerOf m o x).trims = m.trims := rfl
@[simp] theorem setOwnerOf_retired (m : Mach) (o : Nat) (x : Owner) : (setOwnerOf m o x).retired = m.retired := rfl
@[simp] theorem setOwnerOf_portsDown (m : Mach) (o : Nat) (x : Owner) : (setOwnerOf m o x).portsDown = m.portsDown := rfl
@[simp] theorem setOwnerOf_tag (m : Mach) (o : Nat) (x : Owner) : (setOwnerOf m o x).tag = m.tag := rfl
@[simp] theorem setOwnerOf_fresh (m : Mach) (o : Nat) (x : Owner) : (setOwnerOf m o x).fresh = m.fresh := rfl
@[simp] theorem setOwnerOf_iss (m : Mach) (o : Nat) (x : Owner) : (setOwnerOf m o x).iss = m.iss := rfl
@[simp] theorem setOwnerOf_sched (m : Mach) (o : Nat) (x : Owner) : (setOwnerOf m o x).sched = m.sched := rfl

@[simp] theorem setNode_phase (m : Mach) (n : Nat) (x : Node) : (setNode m n x).phase = m.phase := rfl
@[simp] theorem setNode_cycle (m : Mach) (n : Nat) (x : Node) : (setNode m n x).cycle = m.cycle := rfl
@[simp] theorem setNode_nowt (m : Mach) (n : Nat) (x : Node) : (setNode m n x).nowt = m.nowt := rfl
@[simp] theorem setNode_sub (m : Mach) (n : Nat) (x : Node) : (setNode m n x).sub = m.sub := rfl
@[simp] theorem setNode_throttled (m : Mach) (n : Nat) (x : Node) : (setNode m n x).throttled = m.throttled := rfl
@[simp] theorem setNode_step (m : Mach) (n : Nat) (x : Node) : (setNode m n x).step = m.step := rfl
@[simp] theorem setNode_mem (m : Mach) (n : Nat) (x : Node) : (setNode m n x).mem = m.mem := rfl
@[simp] theorem setNode_hist (m : Mach) (n : Nat) (x : Node) : (setNode m n x).hist = m.hist := rfl
@[simp] theorem setNode_agents (m : Mach) (n : Nat) (x : Node) : (setNode m n x).agents = m.agents := rfl
@[simp] theorem setNode_adders (m : Mach) (n : Nat) (x : Node) : (setNode m n x).adders = m.adders := rfl
@[simp] theorem setNode_poisoned (m : Mach) (n : Nat) (x : Node) : (setNode m n x).poisoned = m.poisoned := rfl
@[simp] theorem setNode_memGen (m : Mach) (n : Nat) (x : Node) : (setNode m n x).memGen = m.memGen := rfl
@[simp] theorem setNode_keyed (m : Mach) (n : Nat) (x : Node) : (setNode m n x).keyed = m.keyed := rfl
@[simp] theorem setNode_erased (m : Mach) (n : Nat) (x : Node) : (setNode m n x).erased = m.erased := rfl
@[simp] theorem setNode_scrubPos (m : Mach) (n : Nat) (x : Node) : (setNode m n x).scrubPos = m.scrubPos := rfl
@[simp] theorem setNode_cores (m : Mach) (n : Nat) (x : Node) : (setNode m n x).cores = m.cores := rfl
@[simp] theorem setNode_clusters (m : Mach) (n : Nat) (x : Node) : (setNode m n x).clusters = m.clusters := rfl
@[simp] theorem setNode_invals (m : Mach) (n : Nat) (x : Node) : (setNode m n x).invals = m.invals := rfl
@[simp] theorem setNode_migration (m : Mach) (n : Nat) (x : Node) : (setNode m n x).migration = m.migration := rfl
@[simp] theorem setNode_queues (m : Mach) (n : Nat) (x : Node) : (setNode m n x).queues = m.queues := rfl
@[simp] theorem setNode_nodeSeq (m : Mach) (n : Nat) (x : Node) : (setNode m n x).nodeSeq = m.nodeSeq := rfl
@[simp] theorem setNode_owners (m : Mach) (n : Nat) (x : Node) : (setNode m n x).owners = m.owners := rfl
@[simp] theorem setNode_parts (m : Mach) (n : Nat) (x : Node) : (setNode m n x).parts = m.parts := rfl
@[simp] theorem setNode_records (m : Mach) (n : Nat) (x : Node) : (setNode m n x).records = m.records := rfl
@[simp] theorem setNode_recSeq (m : Mach) (n : Nat) (x : Node) : (setNode m n x).recSeq = m.recSeq := rfl
@[simp] theorem setNode_images (m : Mach) (n : Nat) (x : Node) : (setNode m n x).images = m.images := rfl
@[simp] theorem setNode_wdrr (m : Mach) (n : Nat) (x : Node) : (setNode m n x).wdrr = m.wdrr := rfl
@[simp] theorem setNode_noPlace (m : Mach) (n : Nat) (x : Node) : (setNode m n x).noPlace = m.noPlace := rfl
@[simp] theorem setNode_vfs (m : Mach) (n : Nat) (x : Node) : (setNode m n x).vfs = m.vfs := rfl
@[simp] theorem setNode_hdms (m : Mach) (n : Nat) (x : Node) : (setNode m n x).hdms = m.hdms := rfl
@[simp] theorem setNode_mailbox (m : Mach) (n : Nat) (x : Node) : (setNode m n x).mailbox = m.mailbox := rfl
@[simp] theorem setNode_number (m : Mach) (n : Nat) (x : Node) : (setNode m n x).number = m.number := rfl
@[simp] theorem setNode_links (m : Mach) (n : Nat) (x : Node) : (setNode m n x).links = m.links := rfl
@[simp] theorem setNode_out (m : Mach) (n : Nat) (x : Node) : (setNode m n x).out = m.out := rfl
@[simp] theorem setNode_landings (m : Mach) (n : Nat) (x : Node) : (setNode m n x).landings = m.landings := rfl
@[simp] theorem setNode_rounds (m : Mach) (n : Nat) (x : Node) : (setNode m n x).rounds = m.rounds := rfl
@[simp] theorem setNode_counts (m : Mach) (n : Nat) (x : Node) : (setNode m n x).counts = m.counts := rfl
@[simp] theorem setNode_exclNext (m : Mach) (n : Nat) (x : Node) : (setNode m n x).exclNext = m.exclNext := rfl
@[simp] theorem setNode_closedRounds (m : Mach) (n : Nat) (x : Node) : (setNode m n x).closedRounds = m.closedRounds := rfl
@[simp] theorem setNode_gangs (m : Mach) (n : Nat) (x : Node) : (setNode m n x).gangs = m.gangs := rfl
@[simp] theorem setNode_gangSeq (m : Mach) (n : Nat) (x : Node) : (setNode m n x).gangSeq = m.gangSeq := rfl
@[simp] theorem setNode_downPkgs (m : Mach) (n : Nat) (x : Node) : (setNode m n x).downPkgs = m.downPkgs := rfl
@[simp] theorem setNode_fillTable (m : Mach) (n : Nat) (x : Node) : (setNode m n x).fillTable = m.fillTable := rfl
@[simp] theorem setNode_exclDue (m : Mach) (n : Nat) (x : Node) : (setNode m n x).exclDue = m.exclDue := rfl
@[simp] theorem setNode_recDue (m : Mach) (n : Nat) (x : Node) : (setNode m n x).recDue = m.recDue := rfl
@[simp] theorem setNode_restDue (m : Mach) (n : Nat) (x : Node) : (setNode m n x).restDue = m.restDue := rfl
@[simp] theorem setNode_tret (m : Mach) (n : Nat) (x : Node) : (setNode m n x).tret = m.tret := rfl
@[simp] theorem setNode_trims (m : Mach) (n : Nat) (x : Node) : (setNode m n x).trims = m.trims := rfl
@[simp] theorem setNode_retired (m : Mach) (n : Nat) (x : Node) : (setNode m n x).retired = m.retired := rfl
@[simp] theorem setNode_portsDown (m : Mach) (n : Nat) (x : Node) : (setNode m n x).portsDown = m.portsDown := rfl
@[simp] theorem setNode_tag (m : Mach) (n : Nat) (x : Node) : (setNode m n x).tag = m.tag := rfl
@[simp] theorem setNode_fresh (m : Mach) (n : Nat) (x : Node) : (setNode m n x).fresh = m.fresh := rfl
@[simp] theorem setNode_iss (m : Mach) (n : Nat) (x : Node) : (setNode m n x).iss = m.iss := rfl
@[simp] theorem setNode_sched (m : Mach) (n : Nat) (x : Node) : (setNode m n x).sched = m.sched := rfl

@[simp] theorem setQueue_phase (m : Mach) (q : Nat) (x : Queue) : (setQueue m q x).phase = m.phase := rfl
@[simp] theorem setQueue_cycle (m : Mach) (q : Nat) (x : Queue) : (setQueue m q x).cycle = m.cycle := rfl
@[simp] theorem setQueue_nowt (m : Mach) (q : Nat) (x : Queue) : (setQueue m q x).nowt = m.nowt := rfl
@[simp] theorem setQueue_sub (m : Mach) (q : Nat) (x : Queue) : (setQueue m q x).sub = m.sub := rfl
@[simp] theorem setQueue_throttled (m : Mach) (q : Nat) (x : Queue) : (setQueue m q x).throttled = m.throttled := rfl
@[simp] theorem setQueue_step (m : Mach) (q : Nat) (x : Queue) : (setQueue m q x).step = m.step := rfl
@[simp] theorem setQueue_mem (m : Mach) (q : Nat) (x : Queue) : (setQueue m q x).mem = m.mem := rfl
@[simp] theorem setQueue_hist (m : Mach) (q : Nat) (x : Queue) : (setQueue m q x).hist = m.hist := rfl
@[simp] theorem setQueue_agents (m : Mach) (q : Nat) (x : Queue) : (setQueue m q x).agents = m.agents := rfl
@[simp] theorem setQueue_adders (m : Mach) (q : Nat) (x : Queue) : (setQueue m q x).adders = m.adders := rfl
@[simp] theorem setQueue_poisoned (m : Mach) (q : Nat) (x : Queue) : (setQueue m q x).poisoned = m.poisoned := rfl
@[simp] theorem setQueue_memGen (m : Mach) (q : Nat) (x : Queue) : (setQueue m q x).memGen = m.memGen := rfl
@[simp] theorem setQueue_keyed (m : Mach) (q : Nat) (x : Queue) : (setQueue m q x).keyed = m.keyed := rfl
@[simp] theorem setQueue_erased (m : Mach) (q : Nat) (x : Queue) : (setQueue m q x).erased = m.erased := rfl
@[simp] theorem setQueue_scrubPos (m : Mach) (q : Nat) (x : Queue) : (setQueue m q x).scrubPos = m.scrubPos := rfl
@[simp] theorem setQueue_cores (m : Mach) (q : Nat) (x : Queue) : (setQueue m q x).cores = m.cores := rfl
@[simp] theorem setQueue_clusters (m : Mach) (q : Nat) (x : Queue) : (setQueue m q x).clusters = m.clusters := rfl
@[simp] theorem setQueue_invals (m : Mach) (q : Nat) (x : Queue) : (setQueue m q x).invals = m.invals := rfl
@[simp] theorem setQueue_migration (m : Mach) (q : Nat) (x : Queue) : (setQueue m q x).migration = m.migration := rfl
@[simp] theorem setQueue_nodes (m : Mach) (q : Nat) (x : Queue) : (setQueue m q x).nodes = m.nodes := rfl
@[simp] theorem setQueue_nodeSeq (m : Mach) (q : Nat) (x : Queue) : (setQueue m q x).nodeSeq = m.nodeSeq := rfl
@[simp] theorem setQueue_owners (m : Mach) (q : Nat) (x : Queue) : (setQueue m q x).owners = m.owners := rfl
@[simp] theorem setQueue_parts (m : Mach) (q : Nat) (x : Queue) : (setQueue m q x).parts = m.parts := rfl
@[simp] theorem setQueue_records (m : Mach) (q : Nat) (x : Queue) : (setQueue m q x).records = m.records := rfl
@[simp] theorem setQueue_recSeq (m : Mach) (q : Nat) (x : Queue) : (setQueue m q x).recSeq = m.recSeq := rfl
@[simp] theorem setQueue_images (m : Mach) (q : Nat) (x : Queue) : (setQueue m q x).images = m.images := rfl
@[simp] theorem setQueue_wdrr (m : Mach) (q : Nat) (x : Queue) : (setQueue m q x).wdrr = m.wdrr := rfl
@[simp] theorem setQueue_noPlace (m : Mach) (q : Nat) (x : Queue) : (setQueue m q x).noPlace = m.noPlace := rfl
@[simp] theorem setQueue_vfs (m : Mach) (q : Nat) (x : Queue) : (setQueue m q x).vfs = m.vfs := rfl
@[simp] theorem setQueue_hdms (m : Mach) (q : Nat) (x : Queue) : (setQueue m q x).hdms = m.hdms := rfl
@[simp] theorem setQueue_mailbox (m : Mach) (q : Nat) (x : Queue) : (setQueue m q x).mailbox = m.mailbox := rfl
@[simp] theorem setQueue_number (m : Mach) (q : Nat) (x : Queue) : (setQueue m q x).number = m.number := rfl
@[simp] theorem setQueue_links (m : Mach) (q : Nat) (x : Queue) : (setQueue m q x).links = m.links := rfl
@[simp] theorem setQueue_out (m : Mach) (q : Nat) (x : Queue) : (setQueue m q x).out = m.out := rfl
@[simp] theorem setQueue_landings (m : Mach) (q : Nat) (x : Queue) : (setQueue m q x).landings = m.landings := rfl
@[simp] theorem setQueue_rounds (m : Mach) (q : Nat) (x : Queue) : (setQueue m q x).rounds = m.rounds := rfl
@[simp] theorem setQueue_counts (m : Mach) (q : Nat) (x : Queue) : (setQueue m q x).counts = m.counts := rfl
@[simp] theorem setQueue_exclNext (m : Mach) (q : Nat) (x : Queue) : (setQueue m q x).exclNext = m.exclNext := rfl
@[simp] theorem setQueue_closedRounds (m : Mach) (q : Nat) (x : Queue) : (setQueue m q x).closedRounds = m.closedRounds := rfl
@[simp] theorem setQueue_gangs (m : Mach) (q : Nat) (x : Queue) : (setQueue m q x).gangs = m.gangs := rfl
@[simp] theorem setQueue_gangSeq (m : Mach) (q : Nat) (x : Queue) : (setQueue m q x).gangSeq = m.gangSeq := rfl
@[simp] theorem setQueue_downPkgs (m : Mach) (q : Nat) (x : Queue) : (setQueue m q x).downPkgs = m.downPkgs := rfl
@[simp] theorem setQueue_fillTable (m : Mach) (q : Nat) (x : Queue) : (setQueue m q x).fillTable = m.fillTable := rfl
@[simp] theorem setQueue_exclDue (m : Mach) (q : Nat) (x : Queue) : (setQueue m q x).exclDue = m.exclDue := rfl
@[simp] theorem setQueue_recDue (m : Mach) (q : Nat) (x : Queue) : (setQueue m q x).recDue = m.recDue := rfl
@[simp] theorem setQueue_restDue (m : Mach) (q : Nat) (x : Queue) : (setQueue m q x).restDue = m.restDue := rfl
@[simp] theorem setQueue_tret (m : Mach) (q : Nat) (x : Queue) : (setQueue m q x).tret = m.tret := rfl
@[simp] theorem setQueue_trims (m : Mach) (q : Nat) (x : Queue) : (setQueue m q x).trims = m.trims := rfl
@[simp] theorem setQueue_retired (m : Mach) (q : Nat) (x : Queue) : (setQueue m q x).retired = m.retired := rfl
@[simp] theorem setQueue_portsDown (m : Mach) (q : Nat) (x : Queue) : (setQueue m q x).portsDown = m.portsDown := rfl
@[simp] theorem setQueue_tag (m : Mach) (q : Nat) (x : Queue) : (setQueue m q x).tag = m.tag := rfl
@[simp] theorem setQueue_fresh (m : Mach) (q : Nat) (x : Queue) : (setQueue m q x).fresh = m.fresh := rfl
@[simp] theorem setQueue_iss (m : Mach) (q : Nat) (x : Queue) : (setQueue m q x).iss = m.iss := rfl
@[simp] theorem setQueue_sched (m : Mach) (q : Nat) (x : Queue) : (setQueue m q x).sched = m.sched := rfl

@[simp] theorem setVf_phase (m : Mach) (v : Nat) (x : Vf) : (setVf m v x).phase = m.phase := rfl
@[simp] theorem setVf_cycle (m : Mach) (v : Nat) (x : Vf) : (setVf m v x).cycle = m.cycle := rfl
@[simp] theorem setVf_nowt (m : Mach) (v : Nat) (x : Vf) : (setVf m v x).nowt = m.nowt := rfl
@[simp] theorem setVf_sub (m : Mach) (v : Nat) (x : Vf) : (setVf m v x).sub = m.sub := rfl
@[simp] theorem setVf_throttled (m : Mach) (v : Nat) (x : Vf) : (setVf m v x).throttled = m.throttled := rfl
@[simp] theorem setVf_step (m : Mach) (v : Nat) (x : Vf) : (setVf m v x).step = m.step := rfl
@[simp] theorem setVf_mem (m : Mach) (v : Nat) (x : Vf) : (setVf m v x).mem = m.mem := rfl
@[simp] theorem setVf_hist (m : Mach) (v : Nat) (x : Vf) : (setVf m v x).hist = m.hist := rfl
@[simp] theorem setVf_agents (m : Mach) (v : Nat) (x : Vf) : (setVf m v x).agents = m.agents := rfl
@[simp] theorem setVf_adders (m : Mach) (v : Nat) (x : Vf) : (setVf m v x).adders = m.adders := rfl
@[simp] theorem setVf_poisoned (m : Mach) (v : Nat) (x : Vf) : (setVf m v x).poisoned = m.poisoned := rfl
@[simp] theorem setVf_memGen (m : Mach) (v : Nat) (x : Vf) : (setVf m v x).memGen = m.memGen := rfl
@[simp] theorem setVf_keyed (m : Mach) (v : Nat) (x : Vf) : (setVf m v x).keyed = m.keyed := rfl
@[simp] theorem setVf_erased (m : Mach) (v : Nat) (x : Vf) : (setVf m v x).erased = m.erased := rfl
@[simp] theorem setVf_scrubPos (m : Mach) (v : Nat) (x : Vf) : (setVf m v x).scrubPos = m.scrubPos := rfl
@[simp] theorem setVf_cores (m : Mach) (v : Nat) (x : Vf) : (setVf m v x).cores = m.cores := rfl
@[simp] theorem setVf_clusters (m : Mach) (v : Nat) (x : Vf) : (setVf m v x).clusters = m.clusters := rfl
@[simp] theorem setVf_invals (m : Mach) (v : Nat) (x : Vf) : (setVf m v x).invals = m.invals := rfl
@[simp] theorem setVf_migration (m : Mach) (v : Nat) (x : Vf) : (setVf m v x).migration = m.migration := rfl
@[simp] theorem setVf_queues (m : Mach) (v : Nat) (x : Vf) : (setVf m v x).queues = m.queues := rfl
@[simp] theorem setVf_nodes (m : Mach) (v : Nat) (x : Vf) : (setVf m v x).nodes = m.nodes := rfl
@[simp] theorem setVf_nodeSeq (m : Mach) (v : Nat) (x : Vf) : (setVf m v x).nodeSeq = m.nodeSeq := rfl
@[simp] theorem setVf_owners (m : Mach) (v : Nat) (x : Vf) : (setVf m v x).owners = m.owners := rfl
@[simp] theorem setVf_parts (m : Mach) (v : Nat) (x : Vf) : (setVf m v x).parts = m.parts := rfl
@[simp] theorem setVf_records (m : Mach) (v : Nat) (x : Vf) : (setVf m v x).records = m.records := rfl
@[simp] theorem setVf_recSeq (m : Mach) (v : Nat) (x : Vf) : (setVf m v x).recSeq = m.recSeq := rfl
@[simp] theorem setVf_images (m : Mach) (v : Nat) (x : Vf) : (setVf m v x).images = m.images := rfl
@[simp] theorem setVf_wdrr (m : Mach) (v : Nat) (x : Vf) : (setVf m v x).wdrr = m.wdrr := rfl
@[simp] theorem setVf_noPlace (m : Mach) (v : Nat) (x : Vf) : (setVf m v x).noPlace = m.noPlace := rfl
@[simp] theorem setVf_hdms (m : Mach) (v : Nat) (x : Vf) : (setVf m v x).hdms = m.hdms := rfl
@[simp] theorem setVf_mailbox (m : Mach) (v : Nat) (x : Vf) : (setVf m v x).mailbox = m.mailbox := rfl
@[simp] theorem setVf_number (m : Mach) (v : Nat) (x : Vf) : (setVf m v x).number = m.number := rfl
@[simp] theorem setVf_links (m : Mach) (v : Nat) (x : Vf) : (setVf m v x).links = m.links := rfl
@[simp] theorem setVf_out (m : Mach) (v : Nat) (x : Vf) : (setVf m v x).out = m.out := rfl
@[simp] theorem setVf_landings (m : Mach) (v : Nat) (x : Vf) : (setVf m v x).landings = m.landings := rfl
@[simp] theorem setVf_rounds (m : Mach) (v : Nat) (x : Vf) : (setVf m v x).rounds = m.rounds := rfl
@[simp] theorem setVf_counts (m : Mach) (v : Nat) (x : Vf) : (setVf m v x).counts = m.counts := rfl
@[simp] theorem setVf_exclNext (m : Mach) (v : Nat) (x : Vf) : (setVf m v x).exclNext = m.exclNext := rfl
@[simp] theorem setVf_closedRounds (m : Mach) (v : Nat) (x : Vf) : (setVf m v x).closedRounds = m.closedRounds := rfl
@[simp] theorem setVf_gangs (m : Mach) (v : Nat) (x : Vf) : (setVf m v x).gangs = m.gangs := rfl
@[simp] theorem setVf_gangSeq (m : Mach) (v : Nat) (x : Vf) : (setVf m v x).gangSeq = m.gangSeq := rfl
@[simp] theorem setVf_downPkgs (m : Mach) (v : Nat) (x : Vf) : (setVf m v x).downPkgs = m.downPkgs := rfl
@[simp] theorem setVf_fillTable (m : Mach) (v : Nat) (x : Vf) : (setVf m v x).fillTable = m.fillTable := rfl
@[simp] theorem setVf_exclDue (m : Mach) (v : Nat) (x : Vf) : (setVf m v x).exclDue = m.exclDue := rfl
@[simp] theorem setVf_recDue (m : Mach) (v : Nat) (x : Vf) : (setVf m v x).recDue = m.recDue := rfl
@[simp] theorem setVf_restDue (m : Mach) (v : Nat) (x : Vf) : (setVf m v x).restDue = m.restDue := rfl
@[simp] theorem setVf_tret (m : Mach) (v : Nat) (x : Vf) : (setVf m v x).tret = m.tret := rfl
@[simp] theorem setVf_trims (m : Mach) (v : Nat) (x : Vf) : (setVf m v x).trims = m.trims := rfl
@[simp] theorem setVf_retired (m : Mach) (v : Nat) (x : Vf) : (setVf m v x).retired = m.retired := rfl
@[simp] theorem setVf_portsDown (m : Mach) (v : Nat) (x : Vf) : (setVf m v x).portsDown = m.portsDown := rfl
@[simp] theorem setVf_tag (m : Mach) (v : Nat) (x : Vf) : (setVf m v x).tag = m.tag := rfl
@[simp] theorem setVf_fresh (m : Mach) (v : Nat) (x : Vf) : (setVf m v x).fresh = m.fresh := rfl
@[simp] theorem setVf_iss (m : Mach) (v : Nat) (x : Vf) : (setVf m v x).iss = m.iss := rfl
@[simp] theorem setVf_sched (m : Mach) (v : Nat) (x : Vf) : (setVf m v x).sched = m.sched := rfl

@[simp] theorem setAgent_phase (m : Mach) (a : Nat) (x : Agent) : (setAgent m a x).phase = m.phase := rfl
@[simp] theorem setAgent_cycle (m : Mach) (a : Nat) (x : Agent) : (setAgent m a x).cycle = m.cycle := rfl
@[simp] theorem setAgent_nowt (m : Mach) (a : Nat) (x : Agent) : (setAgent m a x).nowt = m.nowt := rfl
@[simp] theorem setAgent_sub (m : Mach) (a : Nat) (x : Agent) : (setAgent m a x).sub = m.sub := rfl
@[simp] theorem setAgent_throttled (m : Mach) (a : Nat) (x : Agent) : (setAgent m a x).throttled = m.throttled := rfl
@[simp] theorem setAgent_step (m : Mach) (a : Nat) (x : Agent) : (setAgent m a x).step = m.step := rfl
@[simp] theorem setAgent_mem (m : Mach) (a : Nat) (x : Agent) : (setAgent m a x).mem = m.mem := rfl
@[simp] theorem setAgent_hist (m : Mach) (a : Nat) (x : Agent) : (setAgent m a x).hist = m.hist := rfl
@[simp] theorem setAgent_adders (m : Mach) (a : Nat) (x : Agent) : (setAgent m a x).adders = m.adders := rfl
@[simp] theorem setAgent_poisoned (m : Mach) (a : Nat) (x : Agent) : (setAgent m a x).poisoned = m.poisoned := rfl
@[simp] theorem setAgent_memGen (m : Mach) (a : Nat) (x : Agent) : (setAgent m a x).memGen = m.memGen := rfl
@[simp] theorem setAgent_keyed (m : Mach) (a : Nat) (x : Agent) : (setAgent m a x).keyed = m.keyed := rfl
@[simp] theorem setAgent_erased (m : Mach) (a : Nat) (x : Agent) : (setAgent m a x).erased = m.erased := rfl
@[simp] theorem setAgent_scrubPos (m : Mach) (a : Nat) (x : Agent) : (setAgent m a x).scrubPos = m.scrubPos := rfl
@[simp] theorem setAgent_cores (m : Mach) (a : Nat) (x : Agent) : (setAgent m a x).cores = m.cores := rfl
@[simp] theorem setAgent_clusters (m : Mach) (a : Nat) (x : Agent) : (setAgent m a x).clusters = m.clusters := rfl
@[simp] theorem setAgent_invals (m : Mach) (a : Nat) (x : Agent) : (setAgent m a x).invals = m.invals := rfl
@[simp] theorem setAgent_migration (m : Mach) (a : Nat) (x : Agent) : (setAgent m a x).migration = m.migration := rfl
@[simp] theorem setAgent_queues (m : Mach) (a : Nat) (x : Agent) : (setAgent m a x).queues = m.queues := rfl
@[simp] theorem setAgent_nodes (m : Mach) (a : Nat) (x : Agent) : (setAgent m a x).nodes = m.nodes := rfl
@[simp] theorem setAgent_nodeSeq (m : Mach) (a : Nat) (x : Agent) : (setAgent m a x).nodeSeq = m.nodeSeq := rfl
@[simp] theorem setAgent_owners (m : Mach) (a : Nat) (x : Agent) : (setAgent m a x).owners = m.owners := rfl
@[simp] theorem setAgent_parts (m : Mach) (a : Nat) (x : Agent) : (setAgent m a x).parts = m.parts := rfl
@[simp] theorem setAgent_records (m : Mach) (a : Nat) (x : Agent) : (setAgent m a x).records = m.records := rfl
@[simp] theorem setAgent_recSeq (m : Mach) (a : Nat) (x : Agent) : (setAgent m a x).recSeq = m.recSeq := rfl
@[simp] theorem setAgent_images (m : Mach) (a : Nat) (x : Agent) : (setAgent m a x).images = m.images := rfl
@[simp] theorem setAgent_wdrr (m : Mach) (a : Nat) (x : Agent) : (setAgent m a x).wdrr = m.wdrr := rfl
@[simp] theorem setAgent_noPlace (m : Mach) (a : Nat) (x : Agent) : (setAgent m a x).noPlace = m.noPlace := rfl
@[simp] theorem setAgent_vfs (m : Mach) (a : Nat) (x : Agent) : (setAgent m a x).vfs = m.vfs := rfl
@[simp] theorem setAgent_hdms (m : Mach) (a : Nat) (x : Agent) : (setAgent m a x).hdms = m.hdms := rfl
@[simp] theorem setAgent_mailbox (m : Mach) (a : Nat) (x : Agent) : (setAgent m a x).mailbox = m.mailbox := rfl
@[simp] theorem setAgent_number (m : Mach) (a : Nat) (x : Agent) : (setAgent m a x).number = m.number := rfl
@[simp] theorem setAgent_links (m : Mach) (a : Nat) (x : Agent) : (setAgent m a x).links = m.links := rfl
@[simp] theorem setAgent_out (m : Mach) (a : Nat) (x : Agent) : (setAgent m a x).out = m.out := rfl
@[simp] theorem setAgent_landings (m : Mach) (a : Nat) (x : Agent) : (setAgent m a x).landings = m.landings := rfl
@[simp] theorem setAgent_rounds (m : Mach) (a : Nat) (x : Agent) : (setAgent m a x).rounds = m.rounds := rfl
@[simp] theorem setAgent_counts (m : Mach) (a : Nat) (x : Agent) : (setAgent m a x).counts = m.counts := rfl
@[simp] theorem setAgent_exclNext (m : Mach) (a : Nat) (x : Agent) : (setAgent m a x).exclNext = m.exclNext := rfl
@[simp] theorem setAgent_closedRounds (m : Mach) (a : Nat) (x : Agent) : (setAgent m a x).closedRounds = m.closedRounds := rfl
@[simp] theorem setAgent_gangs (m : Mach) (a : Nat) (x : Agent) : (setAgent m a x).gangs = m.gangs := rfl
@[simp] theorem setAgent_gangSeq (m : Mach) (a : Nat) (x : Agent) : (setAgent m a x).gangSeq = m.gangSeq := rfl
@[simp] theorem setAgent_downPkgs (m : Mach) (a : Nat) (x : Agent) : (setAgent m a x).downPkgs = m.downPkgs := rfl
@[simp] theorem setAgent_fillTable (m : Mach) (a : Nat) (x : Agent) : (setAgent m a x).fillTable = m.fillTable := rfl
@[simp] theorem setAgent_exclDue (m : Mach) (a : Nat) (x : Agent) : (setAgent m a x).exclDue = m.exclDue := rfl
@[simp] theorem setAgent_recDue (m : Mach) (a : Nat) (x : Agent) : (setAgent m a x).recDue = m.recDue := rfl
@[simp] theorem setAgent_restDue (m : Mach) (a : Nat) (x : Agent) : (setAgent m a x).restDue = m.restDue := rfl
@[simp] theorem setAgent_tret (m : Mach) (a : Nat) (x : Agent) : (setAgent m a x).tret = m.tret := rfl
@[simp] theorem setAgent_trims (m : Mach) (a : Nat) (x : Agent) : (setAgent m a x).trims = m.trims := rfl
@[simp] theorem setAgent_retired (m : Mach) (a : Nat) (x : Agent) : (setAgent m a x).retired = m.retired := rfl
@[simp] theorem setAgent_portsDown (m : Mach) (a : Nat) (x : Agent) : (setAgent m a x).portsDown = m.portsDown := rfl
@[simp] theorem setAgent_tag (m : Mach) (a : Nat) (x : Agent) : (setAgent m a x).tag = m.tag := rfl
@[simp] theorem setAgent_fresh (m : Mach) (a : Nat) (x : Agent) : (setAgent m a x).fresh = m.fresh := rfl
@[simp] theorem setAgent_iss (m : Mach) (a : Nat) (x : Agent) : (setAgent m a x).iss = m.iss := rfl
@[simp] theorem setAgent_sched (m : Mach) (a : Nat) (x : Agent) : (setAgent m a x).sched = m.sched := rfl

@[simp] theorem modCore_phase (m : Mach) (c : Nat) (f : Core → Core) : (modCore m c f).phase = m.phase := rfl
@[simp] theorem modCore_cycle (m : Mach) (c : Nat) (f : Core → Core) : (modCore m c f).cycle = m.cycle := rfl
@[simp] theorem modCore_nowt (m : Mach) (c : Nat) (f : Core → Core) : (modCore m c f).nowt = m.nowt := rfl
@[simp] theorem modCore_sub (m : Mach) (c : Nat) (f : Core → Core) : (modCore m c f).sub = m.sub := rfl
@[simp] theorem modCore_throttled (m : Mach) (c : Nat) (f : Core → Core) : (modCore m c f).throttled = m.throttled := rfl
@[simp] theorem modCore_step (m : Mach) (c : Nat) (f : Core → Core) : (modCore m c f).step = m.step := rfl
@[simp] theorem modCore_mem (m : Mach) (c : Nat) (f : Core → Core) : (modCore m c f).mem = m.mem := rfl
@[simp] theorem modCore_hist (m : Mach) (c : Nat) (f : Core → Core) : (modCore m c f).hist = m.hist := rfl
@[simp] theorem modCore_agents (m : Mach) (c : Nat) (f : Core → Core) : (modCore m c f).agents = m.agents := rfl
@[simp] theorem modCore_adders (m : Mach) (c : Nat) (f : Core → Core) : (modCore m c f).adders = m.adders := rfl
@[simp] theorem modCore_poisoned (m : Mach) (c : Nat) (f : Core → Core) : (modCore m c f).poisoned = m.poisoned := rfl
@[simp] theorem modCore_memGen (m : Mach) (c : Nat) (f : Core → Core) : (modCore m c f).memGen = m.memGen := rfl
@[simp] theorem modCore_keyed (m : Mach) (c : Nat) (f : Core → Core) : (modCore m c f).keyed = m.keyed := rfl
@[simp] theorem modCore_erased (m : Mach) (c : Nat) (f : Core → Core) : (modCore m c f).erased = m.erased := rfl
@[simp] theorem modCore_scrubPos (m : Mach) (c : Nat) (f : Core → Core) : (modCore m c f).scrubPos = m.scrubPos := rfl
@[simp] theorem modCore_clusters (m : Mach) (c : Nat) (f : Core → Core) : (modCore m c f).clusters = m.clusters := rfl
@[simp] theorem modCore_invals (m : Mach) (c : Nat) (f : Core → Core) : (modCore m c f).invals = m.invals := rfl
@[simp] theorem modCore_migration (m : Mach) (c : Nat) (f : Core → Core) : (modCore m c f).migration = m.migration := rfl
@[simp] theorem modCore_queues (m : Mach) (c : Nat) (f : Core → Core) : (modCore m c f).queues = m.queues := rfl
@[simp] theorem modCore_nodes (m : Mach) (c : Nat) (f : Core → Core) : (modCore m c f).nodes = m.nodes := rfl
@[simp] theorem modCore_nodeSeq (m : Mach) (c : Nat) (f : Core → Core) : (modCore m c f).nodeSeq = m.nodeSeq := rfl
@[simp] theorem modCore_owners (m : Mach) (c : Nat) (f : Core → Core) : (modCore m c f).owners = m.owners := rfl
@[simp] theorem modCore_parts (m : Mach) (c : Nat) (f : Core → Core) : (modCore m c f).parts = m.parts := rfl
@[simp] theorem modCore_records (m : Mach) (c : Nat) (f : Core → Core) : (modCore m c f).records = m.records := rfl
@[simp] theorem modCore_recSeq (m : Mach) (c : Nat) (f : Core → Core) : (modCore m c f).recSeq = m.recSeq := rfl
@[simp] theorem modCore_images (m : Mach) (c : Nat) (f : Core → Core) : (modCore m c f).images = m.images := rfl
@[simp] theorem modCore_wdrr (m : Mach) (c : Nat) (f : Core → Core) : (modCore m c f).wdrr = m.wdrr := rfl
@[simp] theorem modCore_noPlace (m : Mach) (c : Nat) (f : Core → Core) : (modCore m c f).noPlace = m.noPlace := rfl
@[simp] theorem modCore_vfs (m : Mach) (c : Nat) (f : Core → Core) : (modCore m c f).vfs = m.vfs := rfl
@[simp] theorem modCore_hdms (m : Mach) (c : Nat) (f : Core → Core) : (modCore m c f).hdms = m.hdms := rfl
@[simp] theorem modCore_mailbox (m : Mach) (c : Nat) (f : Core → Core) : (modCore m c f).mailbox = m.mailbox := rfl
@[simp] theorem modCore_number (m : Mach) (c : Nat) (f : Core → Core) : (modCore m c f).number = m.number := rfl
@[simp] theorem modCore_links (m : Mach) (c : Nat) (f : Core → Core) : (modCore m c f).links = m.links := rfl
@[simp] theorem modCore_out (m : Mach) (c : Nat) (f : Core → Core) : (modCore m c f).out = m.out := rfl
@[simp] theorem modCore_landings (m : Mach) (c : Nat) (f : Core → Core) : (modCore m c f).landings = m.landings := rfl
@[simp] theorem modCore_rounds (m : Mach) (c : Nat) (f : Core → Core) : (modCore m c f).rounds = m.rounds := rfl
@[simp] theorem modCore_counts (m : Mach) (c : Nat) (f : Core → Core) : (modCore m c f).counts = m.counts := rfl
@[simp] theorem modCore_exclNext (m : Mach) (c : Nat) (f : Core → Core) : (modCore m c f).exclNext = m.exclNext := rfl
@[simp] theorem modCore_closedRounds (m : Mach) (c : Nat) (f : Core → Core) : (modCore m c f).closedRounds = m.closedRounds := rfl
@[simp] theorem modCore_gangs (m : Mach) (c : Nat) (f : Core → Core) : (modCore m c f).gangs = m.gangs := rfl
@[simp] theorem modCore_gangSeq (m : Mach) (c : Nat) (f : Core → Core) : (modCore m c f).gangSeq = m.gangSeq := rfl
@[simp] theorem modCore_downPkgs (m : Mach) (c : Nat) (f : Core → Core) : (modCore m c f).downPkgs = m.downPkgs := rfl
@[simp] theorem modCore_fillTable (m : Mach) (c : Nat) (f : Core → Core) : (modCore m c f).fillTable = m.fillTable := rfl
@[simp] theorem modCore_exclDue (m : Mach) (c : Nat) (f : Core → Core) : (modCore m c f).exclDue = m.exclDue := rfl
@[simp] theorem modCore_recDue (m : Mach) (c : Nat) (f : Core → Core) : (modCore m c f).recDue = m.recDue := rfl
@[simp] theorem modCore_restDue (m : Mach) (c : Nat) (f : Core → Core) : (modCore m c f).restDue = m.restDue := rfl
@[simp] theorem modCore_tret (m : Mach) (c : Nat) (f : Core → Core) : (modCore m c f).tret = m.tret := rfl
@[simp] theorem modCore_trims (m : Mach) (c : Nat) (f : Core → Core) : (modCore m c f).trims = m.trims := rfl
@[simp] theorem modCore_retired (m : Mach) (c : Nat) (f : Core → Core) : (modCore m c f).retired = m.retired := rfl
@[simp] theorem modCore_portsDown (m : Mach) (c : Nat) (f : Core → Core) : (modCore m c f).portsDown = m.portsDown := rfl
@[simp] theorem modCore_tag (m : Mach) (c : Nat) (f : Core → Core) : (modCore m c f).tag = m.tag := rfl
@[simp] theorem modCore_fresh (m : Mach) (c : Nat) (f : Core → Core) : (modCore m c f).fresh = m.fresh := rfl
@[simp] theorem modCore_iss (m : Mach) (c : Nat) (f : Core → Core) : (modCore m c f).iss = m.iss := rfl
@[simp] theorem modCore_sched (m : Mach) (c : Nat) (f : Core → Core) : (modCore m c f).sched = m.sched := rfl

@[simp] theorem setCtx_phase (m : Mach) (c i : Nat) (x : Ctx) : (setCtx m c i x).phase = m.phase := rfl
@[simp] theorem setCtx_cycle (m : Mach) (c i : Nat) (x : Ctx) : (setCtx m c i x).cycle = m.cycle := rfl
@[simp] theorem setCtx_nowt (m : Mach) (c i : Nat) (x : Ctx) : (setCtx m c i x).nowt = m.nowt := rfl
@[simp] theorem setCtx_sub (m : Mach) (c i : Nat) (x : Ctx) : (setCtx m c i x).sub = m.sub := rfl
@[simp] theorem setCtx_throttled (m : Mach) (c i : Nat) (x : Ctx) : (setCtx m c i x).throttled = m.throttled := rfl
@[simp] theorem setCtx_step (m : Mach) (c i : Nat) (x : Ctx) : (setCtx m c i x).step = m.step := rfl
@[simp] theorem setCtx_mem (m : Mach) (c i : Nat) (x : Ctx) : (setCtx m c i x).mem = m.mem := rfl
@[simp] theorem setCtx_hist (m : Mach) (c i : Nat) (x : Ctx) : (setCtx m c i x).hist = m.hist := rfl
@[simp] theorem setCtx_agents (m : Mach) (c i : Nat) (x : Ctx) : (setCtx m c i x).agents = m.agents := rfl
@[simp] theorem setCtx_adders (m : Mach) (c i : Nat) (x : Ctx) : (setCtx m c i x).adders = m.adders := rfl
@[simp] theorem setCtx_poisoned (m : Mach) (c i : Nat) (x : Ctx) : (setCtx m c i x).poisoned = m.poisoned := rfl
@[simp] theorem setCtx_memGen (m : Mach) (c i : Nat) (x : Ctx) : (setCtx m c i x).memGen = m.memGen := rfl
@[simp] theorem setCtx_keyed (m : Mach) (c i : Nat) (x : Ctx) : (setCtx m c i x).keyed = m.keyed := rfl
@[simp] theorem setCtx_erased (m : Mach) (c i : Nat) (x : Ctx) : (setCtx m c i x).erased = m.erased := rfl
@[simp] theorem setCtx_scrubPos (m : Mach) (c i : Nat) (x : Ctx) : (setCtx m c i x).scrubPos = m.scrubPos := rfl
@[simp] theorem setCtx_clusters (m : Mach) (c i : Nat) (x : Ctx) : (setCtx m c i x).clusters = m.clusters := rfl
@[simp] theorem setCtx_invals (m : Mach) (c i : Nat) (x : Ctx) : (setCtx m c i x).invals = m.invals := rfl
@[simp] theorem setCtx_migration (m : Mach) (c i : Nat) (x : Ctx) : (setCtx m c i x).migration = m.migration := rfl
@[simp] theorem setCtx_queues (m : Mach) (c i : Nat) (x : Ctx) : (setCtx m c i x).queues = m.queues := rfl
@[simp] theorem setCtx_nodes (m : Mach) (c i : Nat) (x : Ctx) : (setCtx m c i x).nodes = m.nodes := rfl
@[simp] theorem setCtx_nodeSeq (m : Mach) (c i : Nat) (x : Ctx) : (setCtx m c i x).nodeSeq = m.nodeSeq := rfl
@[simp] theorem setCtx_owners (m : Mach) (c i : Nat) (x : Ctx) : (setCtx m c i x).owners = m.owners := rfl
@[simp] theorem setCtx_parts (m : Mach) (c i : Nat) (x : Ctx) : (setCtx m c i x).parts = m.parts := rfl
@[simp] theorem setCtx_records (m : Mach) (c i : Nat) (x : Ctx) : (setCtx m c i x).records = m.records := rfl
@[simp] theorem setCtx_recSeq (m : Mach) (c i : Nat) (x : Ctx) : (setCtx m c i x).recSeq = m.recSeq := rfl
@[simp] theorem setCtx_images (m : Mach) (c i : Nat) (x : Ctx) : (setCtx m c i x).images = m.images := rfl
@[simp] theorem setCtx_wdrr (m : Mach) (c i : Nat) (x : Ctx) : (setCtx m c i x).wdrr = m.wdrr := rfl
@[simp] theorem setCtx_noPlace (m : Mach) (c i : Nat) (x : Ctx) : (setCtx m c i x).noPlace = m.noPlace := rfl
@[simp] theorem setCtx_vfs (m : Mach) (c i : Nat) (x : Ctx) : (setCtx m c i x).vfs = m.vfs := rfl
@[simp] theorem setCtx_hdms (m : Mach) (c i : Nat) (x : Ctx) : (setCtx m c i x).hdms = m.hdms := rfl
@[simp] theorem setCtx_mailbox (m : Mach) (c i : Nat) (x : Ctx) : (setCtx m c i x).mailbox = m.mailbox := rfl
@[simp] theorem setCtx_number (m : Mach) (c i : Nat) (x : Ctx) : (setCtx m c i x).number = m.number := rfl
@[simp] theorem setCtx_links (m : Mach) (c i : Nat) (x : Ctx) : (setCtx m c i x).links = m.links := rfl
@[simp] theorem setCtx_out (m : Mach) (c i : Nat) (x : Ctx) : (setCtx m c i x).out = m.out := rfl
@[simp] theorem setCtx_landings (m : Mach) (c i : Nat) (x : Ctx) : (setCtx m c i x).landings = m.landings := rfl
@[simp] theorem setCtx_rounds (m : Mach) (c i : Nat) (x : Ctx) : (setCtx m c i x).rounds = m.rounds := rfl
@[simp] theorem setCtx_counts (m : Mach) (c i : Nat) (x : Ctx) : (setCtx m c i x).counts = m.counts := rfl
@[simp] theorem setCtx_exclNext (m : Mach) (c i : Nat) (x : Ctx) : (setCtx m c i x).exclNext = m.exclNext := rfl
@[simp] theorem setCtx_closedRounds (m : Mach) (c i : Nat) (x : Ctx) : (setCtx m c i x).closedRounds = m.closedRounds := rfl
@[simp] theorem setCtx_gangs (m : Mach) (c i : Nat) (x : Ctx) : (setCtx m c i x).gangs = m.gangs := rfl
@[simp] theorem setCtx_gangSeq (m : Mach) (c i : Nat) (x : Ctx) : (setCtx m c i x).gangSeq = m.gangSeq := rfl
@[simp] theorem setCtx_downPkgs (m : Mach) (c i : Nat) (x : Ctx) : (setCtx m c i x).downPkgs = m.downPkgs := rfl
@[simp] theorem setCtx_fillTable (m : Mach) (c i : Nat) (x : Ctx) : (setCtx m c i x).fillTable = m.fillTable := rfl
@[simp] theorem setCtx_exclDue (m : Mach) (c i : Nat) (x : Ctx) : (setCtx m c i x).exclDue = m.exclDue := rfl
@[simp] theorem setCtx_recDue (m : Mach) (c i : Nat) (x : Ctx) : (setCtx m c i x).recDue = m.recDue := rfl
@[simp] theorem setCtx_restDue (m : Mach) (c i : Nat) (x : Ctx) : (setCtx m c i x).restDue = m.restDue := rfl
@[simp] theorem setCtx_tret (m : Mach) (c i : Nat) (x : Ctx) : (setCtx m c i x).tret = m.tret := rfl
@[simp] theorem setCtx_trims (m : Mach) (c i : Nat) (x : Ctx) : (setCtx m c i x).trims = m.trims := rfl
@[simp] theorem setCtx_retired (m : Mach) (c i : Nat) (x : Ctx) : (setCtx m c i x).retired = m.retired := rfl
@[simp] theorem setCtx_portsDown (m : Mach) (c i : Nat) (x : Ctx) : (setCtx m c i x).portsDown = m.portsDown := rfl
@[simp] theorem setCtx_tag (m : Mach) (c i : Nat) (x : Ctx) : (setCtx m c i x).tag = m.tag := rfl
@[simp] theorem setCtx_fresh (m : Mach) (c i : Nat) (x : Ctx) : (setCtx m c i x).fresh = m.fresh := rfl
@[simp] theorem setCtx_iss (m : Mach) (c i : Nat) (x : Ctx) : (setCtx m c i x).iss = m.iss := rfl
@[simp] theorem setCtx_sched (m : Mach) (c i : Nat) (x : Ctx) : (setCtx m c i x).sched = m.sched := rfl

@[simp] theorem modCtx_phase (m : Mach) (c i : Nat) (f : Ctx → Ctx) : (modCtx m c i f).phase = m.phase := rfl
@[simp] theorem modCtx_cycle (m : Mach) (c i : Nat) (f : Ctx → Ctx) : (modCtx m c i f).cycle = m.cycle := rfl
@[simp] theorem modCtx_nowt (m : Mach) (c i : Nat) (f : Ctx → Ctx) : (modCtx m c i f).nowt = m.nowt := rfl
@[simp] theorem modCtx_sub (m : Mach) (c i : Nat) (f : Ctx → Ctx) : (modCtx m c i f).sub = m.sub := rfl
@[simp] theorem modCtx_throttled (m : Mach) (c i : Nat) (f : Ctx → Ctx) : (modCtx m c i f).throttled = m.throttled := rfl
@[simp] theorem modCtx_step (m : Mach) (c i : Nat) (f : Ctx → Ctx) : (modCtx m c i f).step = m.step := rfl
@[simp] theorem modCtx_mem (m : Mach) (c i : Nat) (f : Ctx → Ctx) : (modCtx m c i f).mem = m.mem := rfl
@[simp] theorem modCtx_hist (m : Mach) (c i : Nat) (f : Ctx → Ctx) : (modCtx m c i f).hist = m.hist := rfl
@[simp] theorem modCtx_agents (m : Mach) (c i : Nat) (f : Ctx → Ctx) : (modCtx m c i f).agents = m.agents := rfl
@[simp] theorem modCtx_adders (m : Mach) (c i : Nat) (f : Ctx → Ctx) : (modCtx m c i f).adders = m.adders := rfl
@[simp] theorem modCtx_poisoned (m : Mach) (c i : Nat) (f : Ctx → Ctx) : (modCtx m c i f).poisoned = m.poisoned := rfl
@[simp] theorem modCtx_memGen (m : Mach) (c i : Nat) (f : Ctx → Ctx) : (modCtx m c i f).memGen = m.memGen := rfl
@[simp] theorem modCtx_keyed (m : Mach) (c i : Nat) (f : Ctx → Ctx) : (modCtx m c i f).keyed = m.keyed := rfl
@[simp] theorem modCtx_erased (m : Mach) (c i : Nat) (f : Ctx → Ctx) : (modCtx m c i f).erased = m.erased := rfl
@[simp] theorem modCtx_scrubPos (m : Mach) (c i : Nat) (f : Ctx → Ctx) : (modCtx m c i f).scrubPos = m.scrubPos := rfl
@[simp] theorem modCtx_clusters (m : Mach) (c i : Nat) (f : Ctx → Ctx) : (modCtx m c i f).clusters = m.clusters := rfl
@[simp] theorem modCtx_invals (m : Mach) (c i : Nat) (f : Ctx → Ctx) : (modCtx m c i f).invals = m.invals := rfl
@[simp] theorem modCtx_migration (m : Mach) (c i : Nat) (f : Ctx → Ctx) : (modCtx m c i f).migration = m.migration := rfl
@[simp] theorem modCtx_queues (m : Mach) (c i : Nat) (f : Ctx → Ctx) : (modCtx m c i f).queues = m.queues := rfl
@[simp] theorem modCtx_nodes (m : Mach) (c i : Nat) (f : Ctx → Ctx) : (modCtx m c i f).nodes = m.nodes := rfl
@[simp] theorem modCtx_nodeSeq (m : Mach) (c i : Nat) (f : Ctx → Ctx) : (modCtx m c i f).nodeSeq = m.nodeSeq := rfl
@[simp] theorem modCtx_owners (m : Mach) (c i : Nat) (f : Ctx → Ctx) : (modCtx m c i f).owners = m.owners := rfl
@[simp] theorem modCtx_parts (m : Mach) (c i : Nat) (f : Ctx → Ctx) : (modCtx m c i f).parts = m.parts := rfl
@[simp] theorem modCtx_records (m : Mach) (c i : Nat) (f : Ctx → Ctx) : (modCtx m c i f).records = m.records := rfl
@[simp] theorem modCtx_recSeq (m : Mach) (c i : Nat) (f : Ctx → Ctx) : (modCtx m c i f).recSeq = m.recSeq := rfl
@[simp] theorem modCtx_images (m : Mach) (c i : Nat) (f : Ctx → Ctx) : (modCtx m c i f).images = m.images := rfl
@[simp] theorem modCtx_wdrr (m : Mach) (c i : Nat) (f : Ctx → Ctx) : (modCtx m c i f).wdrr = m.wdrr := rfl
@[simp] theorem modCtx_noPlace (m : Mach) (c i : Nat) (f : Ctx → Ctx) : (modCtx m c i f).noPlace = m.noPlace := rfl
@[simp] theorem modCtx_vfs (m : Mach) (c i : Nat) (f : Ctx → Ctx) : (modCtx m c i f).vfs = m.vfs := rfl
@[simp] theorem modCtx_hdms (m : Mach) (c i : Nat) (f : Ctx → Ctx) : (modCtx m c i f).hdms = m.hdms := rfl
@[simp] theorem modCtx_mailbox (m : Mach) (c i : Nat) (f : Ctx → Ctx) : (modCtx m c i f).mailbox = m.mailbox := rfl
@[simp] theorem modCtx_number (m : Mach) (c i : Nat) (f : Ctx → Ctx) : (modCtx m c i f).number = m.number := rfl
@[simp] theorem modCtx_links (m : Mach) (c i : Nat) (f : Ctx → Ctx) : (modCtx m c i f).links = m.links := rfl
@[simp] theorem modCtx_out (m : Mach) (c i : Nat) (f : Ctx → Ctx) : (modCtx m c i f).out = m.out := rfl
@[simp] theorem modCtx_landings (m : Mach) (c i : Nat) (f : Ctx → Ctx) : (modCtx m c i f).landings = m.landings := rfl
@[simp] theorem modCtx_rounds (m : Mach) (c i : Nat) (f : Ctx → Ctx) : (modCtx m c i f).rounds = m.rounds := rfl
@[simp] theorem modCtx_counts (m : Mach) (c i : Nat) (f : Ctx → Ctx) : (modCtx m c i f).counts = m.counts := rfl
@[simp] theorem modCtx_exclNext (m : Mach) (c i : Nat) (f : Ctx → Ctx) : (modCtx m c i f).exclNext = m.exclNext := rfl
@[simp] theorem modCtx_closedRounds (m : Mach) (c i : Nat) (f : Ctx → Ctx) : (modCtx m c i f).closedRounds = m.closedRounds := rfl
@[simp] theorem modCtx_gangs (m : Mach) (c i : Nat) (f : Ctx → Ctx) : (modCtx m c i f).gangs = m.gangs := rfl
@[simp] theorem modCtx_gangSeq (m : Mach) (c i : Nat) (f : Ctx → Ctx) : (modCtx m c i f).gangSeq = m.gangSeq := rfl
@[simp] theorem modCtx_downPkgs (m : Mach) (c i : Nat) (f : Ctx → Ctx) : (modCtx m c i f).downPkgs = m.downPkgs := rfl
@[simp] theorem modCtx_fillTable (m : Mach) (c i : Nat) (f : Ctx → Ctx) : (modCtx m c i f).fillTable = m.fillTable := rfl
@[simp] theorem modCtx_exclDue (m : Mach) (c i : Nat) (f : Ctx → Ctx) : (modCtx m c i f).exclDue = m.exclDue := rfl
@[simp] theorem modCtx_recDue (m : Mach) (c i : Nat) (f : Ctx → Ctx) : (modCtx m c i f).recDue = m.recDue := rfl
@[simp] theorem modCtx_restDue (m : Mach) (c i : Nat) (f : Ctx → Ctx) : (modCtx m c i f).restDue = m.restDue := rfl
@[simp] theorem modCtx_tret (m : Mach) (c i : Nat) (f : Ctx → Ctx) : (modCtx m c i f).tret = m.tret := rfl
@[simp] theorem modCtx_trims (m : Mach) (c i : Nat) (f : Ctx → Ctx) : (modCtx m c i f).trims = m.trims := rfl
@[simp] theorem modCtx_retired (m : Mach) (c i : Nat) (f : Ctx → Ctx) : (modCtx m c i f).retired = m.retired := rfl
@[simp] theorem modCtx_portsDown (m : Mach) (c i : Nat) (f : Ctx → Ctx) : (modCtx m c i f).portsDown = m.portsDown := rfl
@[simp] theorem modCtx_tag (m : Mach) (c i : Nat) (f : Ctx → Ctx) : (modCtx m c i f).tag = m.tag := rfl
@[simp] theorem modCtx_fresh (m : Mach) (c i : Nat) (f : Ctx → Ctx) : (modCtx m c i f).fresh = m.fresh := rfl
@[simp] theorem modCtx_iss (m : Mach) (c i : Nat) (f : Ctx → Ctx) : (modCtx m c i f).iss = m.iss := rfl
@[simp] theorem modCtx_sched (m : Mach) (c i : Nat) (f : Ctx → Ctx) : (modCtx m c i f).sched = m.sched := rfl

@[simp] theorem modPart_phase (m : Mach) (p : Nat) (f : Part → Part) : (modPart m p f).phase = m.phase := rfl
@[simp] theorem modPart_cycle (m : Mach) (p : Nat) (f : Part → Part) : (modPart m p f).cycle = m.cycle := rfl
@[simp] theorem modPart_nowt (m : Mach) (p : Nat) (f : Part → Part) : (modPart m p f).nowt = m.nowt := rfl
@[simp] theorem modPart_sub (m : Mach) (p : Nat) (f : Part → Part) : (modPart m p f).sub = m.sub := rfl
@[simp] theorem modPart_throttled (m : Mach) (p : Nat) (f : Part → Part) : (modPart m p f).throttled = m.throttled := rfl
@[simp] theorem modPart_step (m : Mach) (p : Nat) (f : Part → Part) : (modPart m p f).step = m.step := rfl
@[simp] theorem modPart_mem (m : Mach) (p : Nat) (f : Part → Part) : (modPart m p f).mem = m.mem := rfl
@[simp] theorem modPart_hist (m : Mach) (p : Nat) (f : Part → Part) : (modPart m p f).hist = m.hist := rfl
@[simp] theorem modPart_agents (m : Mach) (p : Nat) (f : Part → Part) : (modPart m p f).agents = m.agents := rfl
@[simp] theorem modPart_adders (m : Mach) (p : Nat) (f : Part → Part) : (modPart m p f).adders = m.adders := rfl
@[simp] theorem modPart_poisoned (m : Mach) (p : Nat) (f : Part → Part) : (modPart m p f).poisoned = m.poisoned := rfl
@[simp] theorem modPart_memGen (m : Mach) (p : Nat) (f : Part → Part) : (modPart m p f).memGen = m.memGen := rfl
@[simp] theorem modPart_keyed (m : Mach) (p : Nat) (f : Part → Part) : (modPart m p f).keyed = m.keyed := rfl
@[simp] theorem modPart_erased (m : Mach) (p : Nat) (f : Part → Part) : (modPart m p f).erased = m.erased := rfl
@[simp] theorem modPart_scrubPos (m : Mach) (p : Nat) (f : Part → Part) : (modPart m p f).scrubPos = m.scrubPos := rfl
@[simp] theorem modPart_cores (m : Mach) (p : Nat) (f : Part → Part) : (modPart m p f).cores = m.cores := rfl
@[simp] theorem modPart_clusters (m : Mach) (p : Nat) (f : Part → Part) : (modPart m p f).clusters = m.clusters := rfl
@[simp] theorem modPart_invals (m : Mach) (p : Nat) (f : Part → Part) : (modPart m p f).invals = m.invals := rfl
@[simp] theorem modPart_migration (m : Mach) (p : Nat) (f : Part → Part) : (modPart m p f).migration = m.migration := rfl
@[simp] theorem modPart_queues (m : Mach) (p : Nat) (f : Part → Part) : (modPart m p f).queues = m.queues := rfl
@[simp] theorem modPart_nodes (m : Mach) (p : Nat) (f : Part → Part) : (modPart m p f).nodes = m.nodes := rfl
@[simp] theorem modPart_nodeSeq (m : Mach) (p : Nat) (f : Part → Part) : (modPart m p f).nodeSeq = m.nodeSeq := rfl
@[simp] theorem modPart_owners (m : Mach) (p : Nat) (f : Part → Part) : (modPart m p f).owners = m.owners := rfl
@[simp] theorem modPart_records (m : Mach) (p : Nat) (f : Part → Part) : (modPart m p f).records = m.records := rfl
@[simp] theorem modPart_recSeq (m : Mach) (p : Nat) (f : Part → Part) : (modPart m p f).recSeq = m.recSeq := rfl
@[simp] theorem modPart_images (m : Mach) (p : Nat) (f : Part → Part) : (modPart m p f).images = m.images := rfl
@[simp] theorem modPart_wdrr (m : Mach) (p : Nat) (f : Part → Part) : (modPart m p f).wdrr = m.wdrr := rfl
@[simp] theorem modPart_noPlace (m : Mach) (p : Nat) (f : Part → Part) : (modPart m p f).noPlace = m.noPlace := rfl
@[simp] theorem modPart_vfs (m : Mach) (p : Nat) (f : Part → Part) : (modPart m p f).vfs = m.vfs := rfl
@[simp] theorem modPart_hdms (m : Mach) (p : Nat) (f : Part → Part) : (modPart m p f).hdms = m.hdms := rfl
@[simp] theorem modPart_mailbox (m : Mach) (p : Nat) (f : Part → Part) : (modPart m p f).mailbox = m.mailbox := rfl
@[simp] theorem modPart_number (m : Mach) (p : Nat) (f : Part → Part) : (modPart m p f).number = m.number := rfl
@[simp] theorem modPart_links (m : Mach) (p : Nat) (f : Part → Part) : (modPart m p f).links = m.links := rfl
@[simp] theorem modPart_out (m : Mach) (p : Nat) (f : Part → Part) : (modPart m p f).out = m.out := rfl
@[simp] theorem modPart_landings (m : Mach) (p : Nat) (f : Part → Part) : (modPart m p f).landings = m.landings := rfl
@[simp] theorem modPart_rounds (m : Mach) (p : Nat) (f : Part → Part) : (modPart m p f).rounds = m.rounds := rfl
@[simp] theorem modPart_counts (m : Mach) (p : Nat) (f : Part → Part) : (modPart m p f).counts = m.counts := rfl
@[simp] theorem modPart_exclNext (m : Mach) (p : Nat) (f : Part → Part) : (modPart m p f).exclNext = m.exclNext := rfl
@[simp] theorem modPart_closedRounds (m : Mach) (p : Nat) (f : Part → Part) : (modPart m p f).closedRounds = m.closedRounds := rfl
@[simp] theorem modPart_gangs (m : Mach) (p : Nat) (f : Part → Part) : (modPart m p f).gangs = m.gangs := rfl
@[simp] theorem modPart_gangSeq (m : Mach) (p : Nat) (f : Part → Part) : (modPart m p f).gangSeq = m.gangSeq := rfl
@[simp] theorem modPart_downPkgs (m : Mach) (p : Nat) (f : Part → Part) : (modPart m p f).downPkgs = m.downPkgs := rfl
@[simp] theorem modPart_fillTable (m : Mach) (p : Nat) (f : Part → Part) : (modPart m p f).fillTable = m.fillTable := rfl
@[simp] theorem modPart_exclDue (m : Mach) (p : Nat) (f : Part → Part) : (modPart m p f).exclDue = m.exclDue := rfl
@[simp] theorem modPart_recDue (m : Mach) (p : Nat) (f : Part → Part) : (modPart m p f).recDue = m.recDue := rfl
@[simp] theorem modPart_restDue (m : Mach) (p : Nat) (f : Part → Part) : (modPart m p f).restDue = m.restDue := rfl
@[simp] theorem modPart_tret (m : Mach) (p : Nat) (f : Part → Part) : (modPart m p f).tret = m.tret := rfl
@[simp] theorem modPart_trims (m : Mach) (p : Nat) (f : Part → Part) : (modPart m p f).trims = m.trims := rfl
@[simp] theorem modPart_retired (m : Mach) (p : Nat) (f : Part → Part) : (modPart m p f).retired = m.retired := rfl
@[simp] theorem modPart_portsDown (m : Mach) (p : Nat) (f : Part → Part) : (modPart m p f).portsDown = m.portsDown := rfl
@[simp] theorem modPart_tag (m : Mach) (p : Nat) (f : Part → Part) : (modPart m p f).tag = m.tag := rfl
@[simp] theorem modPart_fresh (m : Mach) (p : Nat) (f : Part → Part) : (modPart m p f).fresh = m.fresh := rfl
@[simp] theorem modPart_iss (m : Mach) (p : Nat) (f : Part → Part) : (modPart m p f).iss = m.iss := rfl
@[simp] theorem modPart_sched (m : Mach) (p : Nat) (f : Part → Part) : (modPart m p f).sched = m.sched := rfl

@[simp] theorem modNode_phase (m : Mach) (n : Nat) (f : Node → Node) : (modNode m n f).phase = m.phase := rfl
@[simp] theorem modNode_cycle (m : Mach) (n : Nat) (f : Node → Node) : (modNode m n f).cycle = m.cycle := rfl
@[simp] theorem modNode_nowt (m : Mach) (n : Nat) (f : Node → Node) : (modNode m n f).nowt = m.nowt := rfl
@[simp] theorem modNode_sub (m : Mach) (n : Nat) (f : Node → Node) : (modNode m n f).sub = m.sub := rfl
@[simp] theorem modNode_throttled (m : Mach) (n : Nat) (f : Node → Node) : (modNode m n f).throttled = m.throttled := rfl
@[simp] theorem modNode_step (m : Mach) (n : Nat) (f : Node → Node) : (modNode m n f).step = m.step := rfl
@[simp] theorem modNode_mem (m : Mach) (n : Nat) (f : Node → Node) : (modNode m n f).mem = m.mem := rfl
@[simp] theorem modNode_hist (m : Mach) (n : Nat) (f : Node → Node) : (modNode m n f).hist = m.hist := rfl
@[simp] theorem modNode_agents (m : Mach) (n : Nat) (f : Node → Node) : (modNode m n f).agents = m.agents := rfl
@[simp] theorem modNode_adders (m : Mach) (n : Nat) (f : Node → Node) : (modNode m n f).adders = m.adders := rfl
@[simp] theorem modNode_poisoned (m : Mach) (n : Nat) (f : Node → Node) : (modNode m n f).poisoned = m.poisoned := rfl
@[simp] theorem modNode_memGen (m : Mach) (n : Nat) (f : Node → Node) : (modNode m n f).memGen = m.memGen := rfl
@[simp] theorem modNode_keyed (m : Mach) (n : Nat) (f : Node → Node) : (modNode m n f).keyed = m.keyed := rfl
@[simp] theorem modNode_erased (m : Mach) (n : Nat) (f : Node → Node) : (modNode m n f).erased = m.erased := rfl
@[simp] theorem modNode_scrubPos (m : Mach) (n : Nat) (f : Node → Node) : (modNode m n f).scrubPos = m.scrubPos := rfl
@[simp] theorem modNode_cores (m : Mach) (n : Nat) (f : Node → Node) : (modNode m n f).cores = m.cores := rfl
@[simp] theorem modNode_clusters (m : Mach) (n : Nat) (f : Node → Node) : (modNode m n f).clusters = m.clusters := rfl
@[simp] theorem modNode_invals (m : Mach) (n : Nat) (f : Node → Node) : (modNode m n f).invals = m.invals := rfl
@[simp] theorem modNode_migration (m : Mach) (n : Nat) (f : Node → Node) : (modNode m n f).migration = m.migration := rfl
@[simp] theorem modNode_queues (m : Mach) (n : Nat) (f : Node → Node) : (modNode m n f).queues = m.queues := rfl
@[simp] theorem modNode_nodeSeq (m : Mach) (n : Nat) (f : Node → Node) : (modNode m n f).nodeSeq = m.nodeSeq := rfl
@[simp] theorem modNode_owners (m : Mach) (n : Nat) (f : Node → Node) : (modNode m n f).owners = m.owners := rfl
@[simp] theorem modNode_parts (m : Mach) (n : Nat) (f : Node → Node) : (modNode m n f).parts = m.parts := rfl
@[simp] theorem modNode_records (m : Mach) (n : Nat) (f : Node → Node) : (modNode m n f).records = m.records := rfl
@[simp] theorem modNode_recSeq (m : Mach) (n : Nat) (f : Node → Node) : (modNode m n f).recSeq = m.recSeq := rfl
@[simp] theorem modNode_images (m : Mach) (n : Nat) (f : Node → Node) : (modNode m n f).images = m.images := rfl
@[simp] theorem modNode_wdrr (m : Mach) (n : Nat) (f : Node → Node) : (modNode m n f).wdrr = m.wdrr := rfl
@[simp] theorem modNode_noPlace (m : Mach) (n : Nat) (f : Node → Node) : (modNode m n f).noPlace = m.noPlace := rfl
@[simp] theorem modNode_vfs (m : Mach) (n : Nat) (f : Node → Node) : (modNode m n f).vfs = m.vfs := rfl
@[simp] theorem modNode_hdms (m : Mach) (n : Nat) (f : Node → Node) : (modNode m n f).hdms = m.hdms := rfl
@[simp] theorem modNode_mailbox (m : Mach) (n : Nat) (f : Node → Node) : (modNode m n f).mailbox = m.mailbox := rfl
@[simp] theorem modNode_number (m : Mach) (n : Nat) (f : Node → Node) : (modNode m n f).number = m.number := rfl
@[simp] theorem modNode_links (m : Mach) (n : Nat) (f : Node → Node) : (modNode m n f).links = m.links := rfl
@[simp] theorem modNode_out (m : Mach) (n : Nat) (f : Node → Node) : (modNode m n f).out = m.out := rfl
@[simp] theorem modNode_landings (m : Mach) (n : Nat) (f : Node → Node) : (modNode m n f).landings = m.landings := rfl
@[simp] theorem modNode_rounds (m : Mach) (n : Nat) (f : Node → Node) : (modNode m n f).rounds = m.rounds := rfl
@[simp] theorem modNode_counts (m : Mach) (n : Nat) (f : Node → Node) : (modNode m n f).counts = m.counts := rfl
@[simp] theorem modNode_exclNext (m : Mach) (n : Nat) (f : Node → Node) : (modNode m n f).exclNext = m.exclNext := rfl
@[simp] theorem modNode_closedRounds (m : Mach) (n : Nat) (f : Node → Node) : (modNode m n f).closedRounds = m.closedRounds := rfl
@[simp] theorem modNode_gangs (m : Mach) (n : Nat) (f : Node → Node) : (modNode m n f).gangs = m.gangs := rfl
@[simp] theorem modNode_gangSeq (m : Mach) (n : Nat) (f : Node → Node) : (modNode m n f).gangSeq = m.gangSeq := rfl
@[simp] theorem modNode_downPkgs (m : Mach) (n : Nat) (f : Node → Node) : (modNode m n f).downPkgs = m.downPkgs := rfl
@[simp] theorem modNode_fillTable (m : Mach) (n : Nat) (f : Node → Node) : (modNode m n f).fillTable = m.fillTable := rfl
@[simp] theorem modNode_exclDue (m : Mach) (n : Nat) (f : Node → Node) : (modNode m n f).exclDue = m.exclDue := rfl
@[simp] theorem modNode_recDue (m : Mach) (n : Nat) (f : Node → Node) : (modNode m n f).recDue = m.recDue := rfl
@[simp] theorem modNode_restDue (m : Mach) (n : Nat) (f : Node → Node) : (modNode m n f).restDue = m.restDue := rfl
@[simp] theorem modNode_tret (m : Mach) (n : Nat) (f : Node → Node) : (modNode m n f).tret = m.tret := rfl
@[simp] theorem modNode_trims (m : Mach) (n : Nat) (f : Node → Node) : (modNode m n f).trims = m.trims := rfl
@[simp] theorem modNode_retired (m : Mach) (n : Nat) (f : Node → Node) : (modNode m n f).retired = m.retired := rfl
@[simp] theorem modNode_portsDown (m : Mach) (n : Nat) (f : Node → Node) : (modNode m n f).portsDown = m.portsDown := rfl
@[simp] theorem modNode_tag (m : Mach) (n : Nat) (f : Node → Node) : (modNode m n f).tag = m.tag := rfl
@[simp] theorem modNode_fresh (m : Mach) (n : Nat) (f : Node → Node) : (modNode m n f).fresh = m.fresh := rfl
@[simp] theorem modNode_iss (m : Mach) (n : Nat) (f : Node → Node) : (modNode m n f).iss = m.iss := rfl
@[simp] theorem modNode_sched (m : Mach) (n : Nat) (f : Node → Node) : (modNode m n f).sched = m.sched := rfl

@[simp] theorem modAgent_phase (m : Mach) (a : Nat) (f : Agent → Agent) : (modAgent m a f).phase = m.phase := rfl
@[simp] theorem modAgent_cycle (m : Mach) (a : Nat) (f : Agent → Agent) : (modAgent m a f).cycle = m.cycle := rfl
@[simp] theorem modAgent_nowt (m : Mach) (a : Nat) (f : Agent → Agent) : (modAgent m a f).nowt = m.nowt := rfl
@[simp] theorem modAgent_sub (m : Mach) (a : Nat) (f : Agent → Agent) : (modAgent m a f).sub = m.sub := rfl
@[simp] theorem modAgent_throttled (m : Mach) (a : Nat) (f : Agent → Agent) : (modAgent m a f).throttled = m.throttled := rfl
@[simp] theorem modAgent_step (m : Mach) (a : Nat) (f : Agent → Agent) : (modAgent m a f).step = m.step := rfl
@[simp] theorem modAgent_mem (m : Mach) (a : Nat) (f : Agent → Agent) : (modAgent m a f).mem = m.mem := rfl
@[simp] theorem modAgent_hist (m : Mach) (a : Nat) (f : Agent → Agent) : (modAgent m a f).hist = m.hist := rfl
@[simp] theorem modAgent_adders (m : Mach) (a : Nat) (f : Agent → Agent) : (modAgent m a f).adders = m.adders := rfl
@[simp] theorem modAgent_poisoned (m : Mach) (a : Nat) (f : Agent → Agent) : (modAgent m a f).poisoned = m.poisoned := rfl
@[simp] theorem modAgent_memGen (m : Mach) (a : Nat) (f : Agent → Agent) : (modAgent m a f).memGen = m.memGen := rfl
@[simp] theorem modAgent_keyed (m : Mach) (a : Nat) (f : Agent → Agent) : (modAgent m a f).keyed = m.keyed := rfl
@[simp] theorem modAgent_erased (m : Mach) (a : Nat) (f : Agent → Agent) : (modAgent m a f).erased = m.erased := rfl
@[simp] theorem modAgent_scrubPos (m : Mach) (a : Nat) (f : Agent → Agent) : (modAgent m a f).scrubPos = m.scrubPos := rfl
@[simp] theorem modAgent_cores (m : Mach) (a : Nat) (f : Agent → Agent) : (modAgent m a f).cores = m.cores := rfl
@[simp] theorem modAgent_clusters (m : Mach) (a : Nat) (f : Agent → Agent) : (modAgent m a f).clusters = m.clusters := rfl
@[simp] theorem modAgent_invals (m : Mach) (a : Nat) (f : Agent → Agent) : (modAgent m a f).invals = m.invals := rfl
@[simp] theorem modAgent_migration (m : Mach) (a : Nat) (f : Agent → Agent) : (modAgent m a f).migration = m.migration := rfl
@[simp] theorem modAgent_queues (m : Mach) (a : Nat) (f : Agent → Agent) : (modAgent m a f).queues = m.queues := rfl
@[simp] theorem modAgent_nodes (m : Mach) (a : Nat) (f : Agent → Agent) : (modAgent m a f).nodes = m.nodes := rfl
@[simp] theorem modAgent_nodeSeq (m : Mach) (a : Nat) (f : Agent → Agent) : (modAgent m a f).nodeSeq = m.nodeSeq := rfl
@[simp] theorem modAgent_owners (m : Mach) (a : Nat) (f : Agent → Agent) : (modAgent m a f).owners = m.owners := rfl
@[simp] theorem modAgent_parts (m : Mach) (a : Nat) (f : Agent → Agent) : (modAgent m a f).parts = m.parts := rfl
@[simp] theorem modAgent_records (m : Mach) (a : Nat) (f : Agent → Agent) : (modAgent m a f).records = m.records := rfl
@[simp] theorem modAgent_recSeq (m : Mach) (a : Nat) (f : Agent → Agent) : (modAgent m a f).recSeq = m.recSeq := rfl
@[simp] theorem modAgent_images (m : Mach) (a : Nat) (f : Agent → Agent) : (modAgent m a f).images = m.images := rfl
@[simp] theorem modAgent_wdrr (m : Mach) (a : Nat) (f : Agent → Agent) : (modAgent m a f).wdrr = m.wdrr := rfl
@[simp] theorem modAgent_noPlace (m : Mach) (a : Nat) (f : Agent → Agent) : (modAgent m a f).noPlace = m.noPlace := rfl
@[simp] theorem modAgent_vfs (m : Mach) (a : Nat) (f : Agent → Agent) : (modAgent m a f).vfs = m.vfs := rfl
@[simp] theorem modAgent_hdms (m : Mach) (a : Nat) (f : Agent → Agent) : (modAgent m a f).hdms = m.hdms := rfl
@[simp] theorem modAgent_mailbox (m : Mach) (a : Nat) (f : Agent → Agent) : (modAgent m a f).mailbox = m.mailbox := rfl
@[simp] theorem modAgent_number (m : Mach) (a : Nat) (f : Agent → Agent) : (modAgent m a f).number = m.number := rfl
@[simp] theorem modAgent_links (m : Mach) (a : Nat) (f : Agent → Agent) : (modAgent m a f).links = m.links := rfl
@[simp] theorem modAgent_out (m : Mach) (a : Nat) (f : Agent → Agent) : (modAgent m a f).out = m.out := rfl
@[simp] theorem modAgent_landings (m : Mach) (a : Nat) (f : Agent → Agent) : (modAgent m a f).landings = m.landings := rfl
@[simp] theorem modAgent_rounds (m : Mach) (a : Nat) (f : Agent → Agent) : (modAgent m a f).rounds = m.rounds := rfl
@[simp] theorem modAgent_counts (m : Mach) (a : Nat) (f : Agent → Agent) : (modAgent m a f).counts = m.counts := rfl
@[simp] theorem modAgent_exclNext (m : Mach) (a : Nat) (f : Agent → Agent) : (modAgent m a f).exclNext = m.exclNext := rfl
@[simp] theorem modAgent_closedRounds (m : Mach) (a : Nat) (f : Agent → Agent) : (modAgent m a f).closedRounds = m.closedRounds := rfl
@[simp] theorem modAgent_gangs (m : Mach) (a : Nat) (f : Agent → Agent) : (modAgent m a f).gangs = m.gangs := rfl
@[simp] theorem modAgent_gangSeq (m : Mach) (a : Nat) (f : Agent → Agent) : (modAgent m a f).gangSeq = m.gangSeq := rfl
@[simp] theorem modAgent_downPkgs (m : Mach) (a : Nat) (f : Agent → Agent) : (modAgent m a f).downPkgs = m.downPkgs := rfl
@[simp] theorem modAgent_fillTable (m : Mach) (a : Nat) (f : Agent → Agent) : (modAgent m a f).fillTable = m.fillTable := rfl
@[simp] theorem modAgent_exclDue (m : Mach) (a : Nat) (f : Agent → Agent) : (modAgent m a f).exclDue = m.exclDue := rfl
@[simp] theorem modAgent_recDue (m : Mach) (a : Nat) (f : Agent → Agent) : (modAgent m a f).recDue = m.recDue := rfl
@[simp] theorem modAgent_restDue (m : Mach) (a : Nat) (f : Agent → Agent) : (modAgent m a f).restDue = m.restDue := rfl
@[simp] theorem modAgent_tret (m : Mach) (a : Nat) (f : Agent → Agent) : (modAgent m a f).tret = m.tret := rfl
@[simp] theorem modAgent_trims (m : Mach) (a : Nat) (f : Agent → Agent) : (modAgent m a f).trims = m.trims := rfl
@[simp] theorem modAgent_retired (m : Mach) (a : Nat) (f : Agent → Agent) : (modAgent m a f).retired = m.retired := rfl
@[simp] theorem modAgent_portsDown (m : Mach) (a : Nat) (f : Agent → Agent) : (modAgent m a f).portsDown = m.portsDown := rfl
@[simp] theorem modAgent_tag (m : Mach) (a : Nat) (f : Agent → Agent) : (modAgent m a f).tag = m.tag := rfl
@[simp] theorem modAgent_fresh (m : Mach) (a : Nat) (f : Agent → Agent) : (modAgent m a f).fresh = m.fresh := rfl
@[simp] theorem modAgent_iss (m : Mach) (a : Nat) (f : Agent → Agent) : (modAgent m a f).iss = m.iss := rfl
@[simp] theorem modAgent_sched (m : Mach) (a : Nat) (f : Agent → Agent) : (modAgent m a f).sched = m.sched := rfl

@[simp] theorem raiseView_phase (m : Mach) (a g p : Nat) : (raiseView m a g p).phase = m.phase := rfl
@[simp] theorem raiseView_cycle (m : Mach) (a g p : Nat) : (raiseView m a g p).cycle = m.cycle := rfl
@[simp] theorem raiseView_nowt (m : Mach) (a g p : Nat) : (raiseView m a g p).nowt = m.nowt := rfl
@[simp] theorem raiseView_sub (m : Mach) (a g p : Nat) : (raiseView m a g p).sub = m.sub := rfl
@[simp] theorem raiseView_throttled (m : Mach) (a g p : Nat) : (raiseView m a g p).throttled = m.throttled := rfl
@[simp] theorem raiseView_step (m : Mach) (a g p : Nat) : (raiseView m a g p).step = m.step := rfl
@[simp] theorem raiseView_mem (m : Mach) (a g p : Nat) : (raiseView m a g p).mem = m.mem := rfl
@[simp] theorem raiseView_hist (m : Mach) (a g p : Nat) : (raiseView m a g p).hist = m.hist := rfl
@[simp] theorem raiseView_adders (m : Mach) (a g p : Nat) : (raiseView m a g p).adders = m.adders := rfl
@[simp] theorem raiseView_poisoned (m : Mach) (a g p : Nat) : (raiseView m a g p).poisoned = m.poisoned := rfl
@[simp] theorem raiseView_memGen (m : Mach) (a g p : Nat) : (raiseView m a g p).memGen = m.memGen := rfl
@[simp] theorem raiseView_keyed (m : Mach) (a g p : Nat) : (raiseView m a g p).keyed = m.keyed := rfl
@[simp] theorem raiseView_erased (m : Mach) (a g p : Nat) : (raiseView m a g p).erased = m.erased := rfl
@[simp] theorem raiseView_scrubPos (m : Mach) (a g p : Nat) : (raiseView m a g p).scrubPos = m.scrubPos := rfl
@[simp] theorem raiseView_cores (m : Mach) (a g p : Nat) : (raiseView m a g p).cores = m.cores := rfl
@[simp] theorem raiseView_clusters (m : Mach) (a g p : Nat) : (raiseView m a g p).clusters = m.clusters := rfl
@[simp] theorem raiseView_invals (m : Mach) (a g p : Nat) : (raiseView m a g p).invals = m.invals := rfl
@[simp] theorem raiseView_migration (m : Mach) (a g p : Nat) : (raiseView m a g p).migration = m.migration := rfl
@[simp] theorem raiseView_queues (m : Mach) (a g p : Nat) : (raiseView m a g p).queues = m.queues := rfl
@[simp] theorem raiseView_nodes (m : Mach) (a g p : Nat) : (raiseView m a g p).nodes = m.nodes := rfl
@[simp] theorem raiseView_nodeSeq (m : Mach) (a g p : Nat) : (raiseView m a g p).nodeSeq = m.nodeSeq := rfl
@[simp] theorem raiseView_owners (m : Mach) (a g p : Nat) : (raiseView m a g p).owners = m.owners := rfl
@[simp] theorem raiseView_parts (m : Mach) (a g p : Nat) : (raiseView m a g p).parts = m.parts := rfl
@[simp] theorem raiseView_records (m : Mach) (a g p : Nat) : (raiseView m a g p).records = m.records := rfl
@[simp] theorem raiseView_recSeq (m : Mach) (a g p : Nat) : (raiseView m a g p).recSeq = m.recSeq := rfl
@[simp] theorem raiseView_images (m : Mach) (a g p : Nat) : (raiseView m a g p).images = m.images := rfl
@[simp] theorem raiseView_wdrr (m : Mach) (a g p : Nat) : (raiseView m a g p).wdrr = m.wdrr := rfl
@[simp] theorem raiseView_noPlace (m : Mach) (a g p : Nat) : (raiseView m a g p).noPlace = m.noPlace := rfl
@[simp] theorem raiseView_vfs (m : Mach) (a g p : Nat) : (raiseView m a g p).vfs = m.vfs := rfl
@[simp] theorem raiseView_hdms (m : Mach) (a g p : Nat) : (raiseView m a g p).hdms = m.hdms := rfl
@[simp] theorem raiseView_mailbox (m : Mach) (a g p : Nat) : (raiseView m a g p).mailbox = m.mailbox := rfl
@[simp] theorem raiseView_number (m : Mach) (a g p : Nat) : (raiseView m a g p).number = m.number := rfl
@[simp] theorem raiseView_links (m : Mach) (a g p : Nat) : (raiseView m a g p).links = m.links := rfl
@[simp] theorem raiseView_out (m : Mach) (a g p : Nat) : (raiseView m a g p).out = m.out := rfl
@[simp] theorem raiseView_landings (m : Mach) (a g p : Nat) : (raiseView m a g p).landings = m.landings := rfl
@[simp] theorem raiseView_rounds (m : Mach) (a g p : Nat) : (raiseView m a g p).rounds = m.rounds := rfl
@[simp] theorem raiseView_counts (m : Mach) (a g p : Nat) : (raiseView m a g p).counts = m.counts := rfl
@[simp] theorem raiseView_exclNext (m : Mach) (a g p : Nat) : (raiseView m a g p).exclNext = m.exclNext := rfl
@[simp] theorem raiseView_closedRounds (m : Mach) (a g p : Nat) : (raiseView m a g p).closedRounds = m.closedRounds := rfl
@[simp] theorem raiseView_gangs (m : Mach) (a g p : Nat) : (raiseView m a g p).gangs = m.gangs := rfl
@[simp] theorem raiseView_gangSeq (m : Mach) (a g p : Nat) : (raiseView m a g p).gangSeq = m.gangSeq := rfl
@[simp] theorem raiseView_downPkgs (m : Mach) (a g p : Nat) : (raiseView m a g p).downPkgs = m.downPkgs := rfl
@[simp] theorem raiseView_fillTable (m : Mach) (a g p : Nat) : (raiseView m a g p).fillTable = m.fillTable := rfl
@[simp] theorem raiseView_exclDue (m : Mach) (a g p : Nat) : (raiseView m a g p).exclDue = m.exclDue := rfl
@[simp] theorem raiseView_recDue (m : Mach) (a g p : Nat) : (raiseView m a g p).recDue = m.recDue := rfl
@[simp] theorem raiseView_restDue (m : Mach) (a g p : Nat) : (raiseView m a g p).restDue = m.restDue := rfl
@[simp] theorem raiseView_tret (m : Mach) (a g p : Nat) : (raiseView m a g p).tret = m.tret := rfl
@[simp] theorem raiseView_trims (m : Mach) (a g p : Nat) : (raiseView m a g p).trims = m.trims := rfl
@[simp] theorem raiseView_retired (m : Mach) (a g p : Nat) : (raiseView m a g p).retired = m.retired := rfl
@[simp] theorem raiseView_portsDown (m : Mach) (a g p : Nat) : (raiseView m a g p).portsDown = m.portsDown := rfl
@[simp] theorem raiseView_tag (m : Mach) (a g p : Nat) : (raiseView m a g p).tag = m.tag := rfl
@[simp] theorem raiseView_fresh (m : Mach) (a g p : Nat) : (raiseView m a g p).fresh = m.fresh := rfl
@[simp] theorem raiseView_iss (m : Mach) (a g p : Nat) : (raiseView m a g p).iss = m.iss := rfl
@[simp] theorem raiseView_sched (m : Mach) (a g p : Nat) : (raiseView m a g p).sched = m.sched := rfl

@[simp] theorem onIss_phase (m : Mach) (f : Ctx → Ctx) : (onIss m f).phase = m.phase := rfl
@[simp] theorem onIss_cycle (m : Mach) (f : Ctx → Ctx) : (onIss m f).cycle = m.cycle := rfl
@[simp] theorem onIss_nowt (m : Mach) (f : Ctx → Ctx) : (onIss m f).nowt = m.nowt := rfl
@[simp] theorem onIss_sub (m : Mach) (f : Ctx → Ctx) : (onIss m f).sub = m.sub := rfl
@[simp] theorem onIss_throttled (m : Mach) (f : Ctx → Ctx) : (onIss m f).throttled = m.throttled := rfl
@[simp] theorem onIss_step (m : Mach) (f : Ctx → Ctx) : (onIss m f).step = m.step := rfl
@[simp] theorem onIss_mem (m : Mach) (f : Ctx → Ctx) : (onIss m f).mem = m.mem := rfl
@[simp] theorem onIss_hist (m : Mach) (f : Ctx → Ctx) : (onIss m f).hist = m.hist := rfl
@[simp] theorem onIss_agents (m : Mach) (f : Ctx → Ctx) : (onIss m f).agents = m.agents := rfl
@[simp] theorem onIss_adders (m : Mach) (f : Ctx → Ctx) : (onIss m f).adders = m.adders := rfl
@[simp] theorem onIss_poisoned (m : Mach) (f : Ctx → Ctx) : (onIss m f).poisoned = m.poisoned := rfl
@[simp] theorem onIss_memGen (m : Mach) (f : Ctx → Ctx) : (onIss m f).memGen = m.memGen := rfl
@[simp] theorem onIss_keyed (m : Mach) (f : Ctx → Ctx) : (onIss m f).keyed = m.keyed := rfl
@[simp] theorem onIss_erased (m : Mach) (f : Ctx → Ctx) : (onIss m f).erased = m.erased := rfl
@[simp] theorem onIss_scrubPos (m : Mach) (f : Ctx → Ctx) : (onIss m f).scrubPos = m.scrubPos := rfl
@[simp] theorem onIss_clusters (m : Mach) (f : Ctx → Ctx) : (onIss m f).clusters = m.clusters := rfl
@[simp] theorem onIss_invals (m : Mach) (f : Ctx → Ctx) : (onIss m f).invals = m.invals := rfl
@[simp] theorem onIss_migration (m : Mach) (f : Ctx → Ctx) : (onIss m f).migration = m.migration := rfl
@[simp] theorem onIss_queues (m : Mach) (f : Ctx → Ctx) : (onIss m f).queues = m.queues := rfl
@[simp] theorem onIss_nodes (m : Mach) (f : Ctx → Ctx) : (onIss m f).nodes = m.nodes := rfl
@[simp] theorem onIss_nodeSeq (m : Mach) (f : Ctx → Ctx) : (onIss m f).nodeSeq = m.nodeSeq := rfl
@[simp] theorem onIss_owners (m : Mach) (f : Ctx → Ctx) : (onIss m f).owners = m.owners := rfl
@[simp] theorem onIss_parts (m : Mach) (f : Ctx → Ctx) : (onIss m f).parts = m.parts := rfl
@[simp] theorem onIss_records (m : Mach) (f : Ctx → Ctx) : (onIss m f).records = m.records := rfl
@[simp] theorem onIss_recSeq (m : Mach) (f : Ctx → Ctx) : (onIss m f).recSeq = m.recSeq := rfl
@[simp] theorem onIss_images (m : Mach) (f : Ctx → Ctx) : (onIss m f).images = m.images := rfl
@[simp] theorem onIss_wdrr (m : Mach) (f : Ctx → Ctx) : (onIss m f).wdrr = m.wdrr := rfl
@[simp] theorem onIss_noPlace (m : Mach) (f : Ctx → Ctx) : (onIss m f).noPlace = m.noPlace := rfl
@[simp] theorem onIss_vfs (m : Mach) (f : Ctx → Ctx) : (onIss m f).vfs = m.vfs := rfl
@[simp] theorem onIss_hdms (m : Mach) (f : Ctx → Ctx) : (onIss m f).hdms = m.hdms := rfl
@[simp] theorem onIss_mailbox (m : Mach) (f : Ctx → Ctx) : (onIss m f).mailbox = m.mailbox := rfl
@[simp] theorem onIss_number (m : Mach) (f : Ctx → Ctx) : (onIss m f).number = m.number := rfl
@[simp] theorem onIss_links (m : Mach) (f : Ctx → Ctx) : (onIss m f).links = m.links := rfl
@[simp] theorem onIss_out (m : Mach) (f : Ctx → Ctx) : (onIss m f).out = m.out := rfl
@[simp] theorem onIss_landings (m : Mach) (f : Ctx → Ctx) : (onIss m f).landings = m.landings := rfl
@[simp] theorem onIss_rounds (m : Mach) (f : Ctx → Ctx) : (onIss m f).rounds = m.rounds := rfl
@[simp] theorem onIss_counts (m : Mach) (f : Ctx → Ctx) : (onIss m f).counts = m.counts := rfl
@[simp] theorem onIss_exclNext (m : Mach) (f : Ctx → Ctx) : (onIss m f).exclNext = m.exclNext := rfl
@[simp] theorem onIss_closedRounds (m : Mach) (f : Ctx → Ctx) : (onIss m f).closedRounds = m.closedRounds := rfl
@[simp] theorem onIss_gangs (m : Mach) (f : Ctx → Ctx) : (onIss m f).gangs = m.gangs := rfl
@[simp] theorem onIss_gangSeq (m : Mach) (f : Ctx → Ctx) : (onIss m f).gangSeq = m.gangSeq := rfl
@[simp] theorem onIss_downPkgs (m : Mach) (f : Ctx → Ctx) : (onIss m f).downPkgs = m.downPkgs := rfl
@[simp] theorem onIss_fillTable (m : Mach) (f : Ctx → Ctx) : (onIss m f).fillTable = m.fillTable := rfl
@[simp] theorem onIss_exclDue (m : Mach) (f : Ctx → Ctx) : (onIss m f).exclDue = m.exclDue := rfl
@[simp] theorem onIss_recDue (m : Mach) (f : Ctx → Ctx) : (onIss m f).recDue = m.recDue := rfl
@[simp] theorem onIss_restDue (m : Mach) (f : Ctx → Ctx) : (onIss m f).restDue = m.restDue := rfl
@[simp] theorem onIss_tret (m : Mach) (f : Ctx → Ctx) : (onIss m f).tret = m.tret := rfl
@[simp] theorem onIss_trims (m : Mach) (f : Ctx → Ctx) : (onIss m f).trims = m.trims := rfl
@[simp] theorem onIss_retired (m : Mach) (f : Ctx → Ctx) : (onIss m f).retired = m.retired := rfl
@[simp] theorem onIss_portsDown (m : Mach) (f : Ctx → Ctx) : (onIss m f).portsDown = m.portsDown := rfl
@[simp] theorem onIss_tag (m : Mach) (f : Ctx → Ctx) : (onIss m f).tag = m.tag := rfl
@[simp] theorem onIss_fresh (m : Mach) (f : Ctx → Ctx) : (onIss m f).fresh = m.fresh := rfl
@[simp] theorem onIss_iss (m : Mach) (f : Ctx → Ctx) : (onIss m f).iss = m.iss := rfl
@[simp] theorem onIss_sched (m : Mach) (f : Ctx → Ctx) : (onIss m f).sched = m.sched := rfl

/-! ### Reading back what was set -/

theorem smGet_ins_same {α : Type} (d : α) (m : SMap α) (k : Nat) (v : α) : smGet d (smIns m k v) k = v := by
  induction m with
  | nil => simp [smIns, smGet]
  | cons e m ih =>
    unfold smIns
    split
    · simp [smGet]
    · split
      · simp [smGet]
      · next h => simp only [smGet, h, if_false]; exact ih

theorem smGet_ins_ne {α : Type} (d : α) (m : SMap α) {j k : Nat} (h : j ≠ k) (v : α) :
    smGet d (smIns m k v) j = smGet d m j := by
  induction m with
  | nil => simp [smIns, smGet, Ne.symm h]
  | cons e m ih =>
    unfold smIns
    split
    · simp [smGet, Ne.symm h]
    · split
      · next he => simp [smGet, he, Ne.symm h]
      · simp only [smGet, ih]

theorem smGet_del_same {α : Type} (d : α) (m : SMap α) (k : Nat) : smGet d (smDel m k) k = d := by
  induction m with
  | nil => rfl
  | cons e m ih =>
    unfold smDel at *
    by_cases h : e.1 = k
    · simp [h, ih]
    · simp [h, smGet, ih]

theorem smGet_del_ne {α : Type} (d : α) (m : SMap α) {j k : Nat} (h : j ≠ k) : smGet d (smDel m k) j = smGet d m j := by
  induction m with
  | nil => rfl
  | cons e m ih =>
    unfold smDel at *
    by_cases he : e.1 = k
    · simp [smGet, he, Ne.symm h, ih]
    · simp [smGet, he, ih]

/-- A value written at a key reads back. -/
@[simp] theorem smGet_put_same {α : Type} [DecidableEq α] (d : α) (m : SMap α) (k : Nat) (v : α) :
    smGet d (smPut d m k v) k = v := by
  unfold smPut
  split
  · next h => rw [h]; exact smGet_del_same d m k
  · exact smGet_ins_same d m k v

/-- A write leaves every other key as it was. -/
theorem smGet_put_ne {α : Type} [DecidableEq α] (d : α) (m : SMap α) {j k : Nat} (h : j ≠ k) (v : α) :
    smGet d (smPut d m k v) j = smGet d m j := by
  unfold smPut
  split
  · exact smGet_del_ne d m h
  · exact smGet_ins_ne d m h v

@[simp] theorem getCore_setCore (m : Mach) (c : Nat) (x : Core) : getCore (setCore m c x) c = x := by
  simp [getCore, setCore]

theorem getCore_setCore_ne (m : Mach) {c d : Nat} (h : d ≠ c) (x : Core) : getCore (setCore m c x) d = getCore m d := by
  simp [getCore, setCore, smGet_put_ne _ _ h]

@[simp] theorem getCtx_setCtx (m : Mach) (c i : Nat) (x : Ctx) : getCtx (setCtx m c i x) c i = x := by
  simp [getCtx, setCtx, modCore, setCtxOf]

theorem getCtx_setCtx_ne (m : Mach) {c i d j : Nat} (h : d ≠ c ∨ j ≠ i) (x : Ctx) :
    getCtx (setCtx m c i x) d j = getCtx m d j := by
  by_cases hd : d = c
  · subst hd
    have hj : j ≠ i := by simpa using h
    simp [getCtx, setCtx, modCore, setCtxOf, smGet_put_ne _ _ hj]
  · simp [getCtx, setCtx, modCore, getCore_setCore_ne _ hd]

@[simp] theorem getPart_setPart (m : Mach) (p : Nat) (x : Part) : getPart (setPart m p x) p = x := by
  simp [getPart, setPart]

@[simp] theorem getQueue_setQueue (m : Mach) (q : Nat) (x : Queue) : getQueue (setQueue m q x) q = x := by
  simp [getQueue, setQueue]

@[simp] theorem getNode_setNode (m : Mach) (n : Nat) (x : Node) : getNode (setNode m n x) n = x := by
  simp [getNode, setNode]

@[simp] theorem getAgent_setAgent (m : Mach) (a : Nat) (x : Agent) : getAgent (setAgent m a x) a = x := by
  simp [getAgent, setAgent]

@[simp] theorem getVf_setVf (m : Mach) (v : Nat) (x : Vf) : getVf (setVf m v x) v = x := by
  simp [getVf, setVf]

end Sys2Proof.Machine
end

