-- ==== Sys2Proof/Laws/Mem.lean ====
section
/-!
SUPPORT. Memory: every operation keeps the canonical form, a write reads back, and a write leaves every other
byte as it was.
-/

namespace Sys2Proof.Machine

/-- The canonical form, said over the list: no listed value is `d`, and the keys rise strictly. -/
theorem smWf_iff {α : Type} [DecidableEq α] (d : α) (m : SMap α) :
    smWf d m = true ↔ (∀ e ∈ m, e.2 ≠ d) ∧ m.Pairwise (fun e f => e.1 < f.1) := by
  induction m with
  | nil => simp [smWf]
  | cons e m ih =>
    cases m with
    | nil => simp [smWf]
    | cons f m =>
      rw [smWf, Bool.and_eq_true, Bool.and_eq_true, ih]
      simp only [Nat.blt_eq, bne_iff_ne, List.mem_cons, List.pairwise_cons, forall_eq_or_imp]
      constructor
      · rintro ⟨⟨h1, h2⟩, ⟨h3, h4⟩, h5, h6⟩
        exact ⟨⟨h1, h3, h4⟩, ⟨h2, fun a ha => lt_trans h2 (h5 a ha)⟩, h5, h6⟩
      · rintro ⟨⟨h1, h3, h4⟩, ⟨h2, -⟩, h5, h6⟩
        exact ⟨⟨h1, h2⟩, ⟨h3, h4⟩, h5, h6⟩

theorem smWf_filter {α : Type} [DecidableEq α] (d : α) (m : SMap α) (p : Nat × α → Bool) (h : smWf d m = true) :
    smWf d (m.filter p) = true := by
  rw [smWf_iff] at *
  exact ⟨fun e he => h.1 e (List.mem_of_mem_filter he), h.2.filter p⟩

theorem smWf_del {α : Type} [DecidableEq α] (d : α) (m : SMap α) (k : Nat) (h : smWf d m = true) :
    smWf d (smDel m k) = true := smWf_filter d m _ h

theorem mem_smIns {α : Type} {m : SMap α} {k : Nat} {v : α} {e : Nat × α} (h : e ∈ smIns m k v) :
    e = (k, v) ∨ e ∈ m := by
  induction m with
  | nil => simpa [smIns] using h
  | cons f m ih =>
    unfold smIns at h
    split at h
    · simpa using h
    · split at h
      · rcases List.mem_cons.1 h with h | h
        · exact .inl h
        · exact .inr (List.mem_cons_of_mem _ h)
      · rcases List.mem_cons.1 h with h | h
        · exact .inr (h ▸ List.mem_cons_self)
        · rcases ih h with h | h
          · exact .inl h
          · exact .inr (List.mem_cons_of_mem _ h)

theorem pairwise_smIns {α : Type} (m : SMap α) (k : Nat) (v : α) (h : m.Pairwise (fun e f => e.1 < f.1)) :
    (smIns m k v).Pairwise (fun e f => e.1 < f.1) := by
  induction m with
  | nil => simp [smIns]
  | cons f m ih =>
    have hf := List.pairwise_cons.1 h
    unfold smIns
    split
    · next hk =>
      refine List.pairwise_cons.2 ⟨fun a ha => ?_, h⟩
      rcases List.mem_cons.1 ha with rfl | ha
      · exact hk
      · exact lt_trans hk (hf.1 a ha)
    · split
      · next hk => exact List.pairwise_cons.2 ⟨fun a ha => hk ▸ hf.1 a ha, hf.2⟩
      · next h1 h2 =>
        refine List.pairwise_cons.2 ⟨fun a ha => ?_, ih hf.2⟩
        rcases mem_smIns ha with rfl | ha
        · exact lt_of_le_of_ne (not_lt.1 h1) h2
        · exact hf.1 a ha

/-- A write keeps the canonical form. -/
theorem smWf_put {α : Type} [DecidableEq α] (d : α) (m : SMap α) (k : Nat) (v : α) (h : smWf d m = true) :
    smWf d (smPut d m k v) = true := by
  unfold smPut
  split
  · exact smWf_del d m k h
  · next hv =>
    rw [smWf_iff] at *
    refine ⟨fun e he => ?_, pairwise_smIns m k v h.2⟩
    rcases mem_smIns he with rfl | he
    · exact hv
    · exact h.1 e he

/-- Writing bytes keeps the canonical form. -/
theorem memWf_writeNat (mem : List Host.Cell) (a n mask x : Nat) (h : memWf mem = true) :
    memWf (writeNat mem a n mask x) = true := by
  induction n generalizing mem a mask x with
  | zero => exact h
  | succ n ih =>
    unfold writeNat
    apply ih
    split
    · exact smWf_put _ _ _ _ h
    · exact h

theorem readByte_put_same (mem : List Host.Cell) (a : Nat) (v : Byte) : readByte (smPut (0 : Byte) mem a v) a = v :=
  smGet_put_same _ _ _ _

theorem readByte_put_ne (mem : List Host.Cell) {a b : Nat} (h : b ≠ a) (v : Byte) :
    readByte (smPut (0 : Byte) mem a v) b = readByte mem b := smGet_put_ne _ _ h _

/-- Outside the bytes written, memory reads as before. -/
theorem readByte_writeNat_out (mem : List Host.Cell) (a n mask x b : Nat) (h : b < a ∨ a + n ≤ b) :
    readByte (writeNat mem a n mask x) b = readByte mem b := by
  induction n generalizing mem a mask x with
  | zero => rfl
  | succ n ih =>
    unfold writeNat
    rw [ih _ _ _ _ (by omega)]
    split
    · exact readByte_put_ne _ (by omega) _
    · rfl

/-- A byte that the mask does not name reads as before; one that it names takes its byte of the number. -/
theorem readByte_writeNat_in (mem : List Host.Cell) (a n mask x i : Nat) (h : i < n) :
    readByte (writeNat mem a n mask x) (a + i) =
      if mask / 2 ^ i % 2 = 1 then BitVec.ofNat 8 (x / 256 ^ i) else readByte mem (a + i) := by
  induction n generalizing mem a mask x i with
  | zero => omega
  | succ n ih =>
    unfold writeNat
    cases i with
    | zero =>
      rw [readByte_writeNat_out _ _ _ _ _ _ (by omega)]
      simp only [pow_zero, Nat.div_one, Nat.add_zero]
      split
      · exact readByte_put_same _ _ _
      · rfl
    | succ i =>
      rw [show a + (i + 1) = a + 1 + i by omega, ih _ _ _ _ _ (by omega)]
      have h2 : mask / 2 / 2 ^ i = mask / 2 ^ (i + 1) := by rw [Nat.div_div_eq_div_mul, pow_succ, Nat.mul_comm]
      have h3 : x / 256 / 256 ^ i = x / 256 ^ (i + 1) := by rw [Nat.div_div_eq_div_mul, pow_succ, Nat.mul_comm]
      rw [h2, h3]
      congr 1
      split
      · exact readByte_put_ne _ (by omega) _
      · rfl

/-- A number written to bytes of memory reads back. -/
theorem readNat_lt (mem : List Host.Cell) (a n : Nat) : readNat mem a n < 256 ^ n := by
  induction n generalizing a with
  | zero => simp [readNat]
  | succ n ih =>
    have h1 := (readByte mem a).isLt
    have h2 := ih (a + 1)
    unfold readNat
    rw [pow_succ]
    omega

/-- What a commit does to memory: the bytes of its mask at its granule. -/
@[simp] theorem mem_modAgent (m : Mach) (a : Nat) (f : Agent → Agent) : (modAgent m a f).mem = m.mem := rfl
@[simp] theorem mem_raiseView (m : Mach) (a g p : Nat) : (raiseView m a g p).mem = m.mem := rfl

theorem mem_commitWrite (m : Mach) (a g : Nat) (mask : BitVec 16) (data : Gran) :
    (commitWrite m a g mask data).mem = writeNat m.mem g 16 mask.toNat data.toNat := rfl

/-- A commit keeps the canonical form. -/
theorem memWf_commitWrite (m : Mach) (a g : Nat) (mask : BitVec 16) (data : Gran) (h : memWf m.mem = true) :
    memWf (commitWrite m a g mask data).mem = true := by
  rw [mem_commitWrite]; exact memWf_writeNat _ _ _ _ _ h

/-- A commit leaves every byte outside its granule as it was. -/
theorem readByte_commitWrite_out (m : Mach) (a g : Nat) (mask : BitVec 16) (data : Gran) (b : Nat)
    (h : b < g ∨ g + 16 ≤ b) : readByte (commitWrite m a g mask data).mem b = readByte m.mem b := by
  rw [mem_commitWrite]; exact readByte_writeNat_out _ _ _ _ _ _ h

/-- A commit puts the named bytes of its data in place, and leaves the others of its granule. -/
theorem readByte_commitWrite_in (m : Mach) (a g : Nat) (mask : BitVec 16) (data : Gran) (i : Nat) (h : i < 16) :
    readByte (commitWrite m a g mask data).mem (g + i) =
      if mask.toNat / 2 ^ i % 2 = 1 then BitVec.ofNat 8 (data.toNat / 256 ^ i) else readByte m.mem (g + i) := by
  rw [mem_commitWrite]; exact readByte_writeNat_in _ _ _ _ _ _ h

/-- What a commit through a page does to memory: a commit at its granule, of all of it where another key had it. -/
theorem mem_commitKeyed (m : Mach) (a : Nat) (key : Option Nat) (g : Nat) (mask : BitVec 16) (data : Gran) :
    ∃ mask' data', (commitKeyed m a key g mask data).mem = (commitWrite m a g mask' data').mem := by
  by_cases c : (keyDiffers m key g && mask != 0xFFFF) = true
  · refine ⟨0xFFFF, mergeGran (Config.freeGran (m.fresh * 2 ^ 64 + 2 ^ 63 + g)) data mask, ?_⟩
    simp only [commitKeyed, c, if_true]
    cases key <;> [rfl; (dsimp only; split <;> rfl)]
  · refine ⟨mask, data, ?_⟩
    simp only [commitKeyed, c, if_false, Bool.false_eq_true]
    cases key <;> [rfl; (dsimp only; split <;> rfl)]

/-- A commit through a page keeps the canonical form. -/
theorem memWf_commitKeyed (m : Mach) (a : Nat) (key : Option Nat) (g : Nat) (mask : BitVec 16) (data : Gran)
    (h : memWf m.mem = true) : memWf (commitKeyed m a key g mask data).mem = true := by
  obtain ⟨_, _, e⟩ := mem_commitKeyed m a key g mask data
  rw [e]; exact memWf_commitWrite _ _ _ _ _ h

/-- A commit through a page leaves every byte outside its granule as it was. -/
theorem readByte_commitKeyed_out (m : Mach) (a : Nat) (key : Option Nat) (g : Nat) (mask : BitVec 16) (data : Gran) (b : Nat)
    (h : b < g ∨ g + 16 ≤ b) : readByte (commitKeyed m a key g mask data).mem b = readByte m.mem b := by
  obtain ⟨_, _, e⟩ := mem_commitKeyed m a key g mask data
  rw [e]; exact readByte_commitWrite_out _ _ _ _ _ _ h

theorem memWf_commitBytes (m : Mach) (a : Nat) (key : Option Nat) (pa : Nat) (bs : List Byte) (h : memWf m.mem = true) :
    memWf (commitBytes m a key pa bs).mem = true := by
  unfold commitBytes
  generalize granParts pa _ _ _ = ws
  induction ws generalizing m with
  | nil => exact h
  | cons w ws ih => exact ih _ (memWf_commitKeyed _ _ _ _ _ _ h)

theorem memWf_commitNat (m : Mach) (a pa n x : Nat) (h : memWf m.mem = true) :
    memWf (commitNat m a pa n x).mem = true := by
  unfold commitNat
  generalize granParts pa n x (n + 1) = ws
  induction ws generalizing m with
  | nil => exact h
  | cons w ws ih => exact ih _ (memWf_commitWrite _ _ _ _ _ h)

theorem memWf_vaWrite (m : Mach) (a : Nat) (w : Who) (va : Word) (x fuel n : Nat) (m' : Mach)
    (h : memWf m.mem = true) (he : vaWrite m a w va x fuel n = .ok m') : memWf m'.mem = true := by
  induction fuel generalizing m va x n with
  | zero => simp only [vaWrite, Except.ok.injEq] at he; exact he ▸ h
  | succ f ih =>
    unfold vaWrite at he
    split at he
    · simp only [Except.ok.injEq] at he; exact he ▸ h
    · dsimp only at he
      split at he
      · split at he
        · simp at he
        · exact ih _ _ _ _ (memWf_commitKeyed _ _ _ _ _ _ h) he
      · simp at he
      · simp at he

/-- A write at an address value keeps the canonical form. -/
theorem memWf_writeVa (m : Mach) (a : Nat) (w : Who) (va : Word) (n x : Nat) (m' : Mach)
    (h : memWf m.mem = true) (he : writeVa m a w va n x = .ok m') : memWf m'.mem = true :=
  memWf_vaWrite m a w va x _ n m' h he

end Sys2Proof.Machine
end

