-- ==== Sys2Proof/Tests/Slice0.lean ====
section
/-!
SUPPORT. Tests: ill-formed terms, words that the spec writes out, for each statement a witness of its hypotheses, and
single steps whose results the spec states.
-/

open Sys2Proof Sys2Proof.Machine

namespace Sys2Proof.Tests

set_option Elab.async false

/-! ### Ill-formed terms, one for each check of WellFormed -/

/-- Guard 0, not the last word of its bundle. -/
def h0 : Hd := ⟨false, 0⟩

/-- spec/05 Table 5-14. -/
theorem test_ill_formed_terms : ∀ i ∈ [Instr.xCmp h0 1 7 4 false 5, .xFcvt h0 4 5 5, .lLd h0 4 5 5 false 0,
    .lLd h0 5 4 4 false 0, .lSt h0 4 5 5 0, .lSt h0 5 4 4 0, .lVst h0 0 1 2 0 3, .lCas h0 5 6 8 true,
    .lCas h0 4 6 9 true, .vMov h0 1 3 4 4, .vCvt h0 1 3 4 6, .bFence h0 0 1 0, .bFence h0 1 0 0, .bFence h0 1 1 5,
    .bLadder h0 1 2 3 4 5, .bLoop h0 0 1 1 1, .bLoop h0 1 0 1 1, .bLoop h0 1 1 1 0, .bPush h0 4 5 true 1,
    .bSusp h0 5 4 5 2, .bCancel h0 5, .bWait h0 0 4 5, .bWait h0 5 4 5, .bRdst h0 4 7, .bWrst h0 4 0x0C],
    wellFormed i = false := by decide +kernel

/-! ### Words that the spec writes out (spec/20 to spec/23, "Encoding"; spec/05) -/

/-- The X words of spec/23. -/
theorem test_decode_x : ∀ e ∈ [(0x00000000, Instr.xNop h0), (0x00088286, .xAdd h0 4 5 false 6),
    (0x000882FD, .xAdd h0 4 5 true 61), (0x00108286, .xSub h0 4 5 false 6), (0x00188286, .xMul h0 4 5 false 6),
    (0x00208286, .xMulh h0 4 5 false 6), (0x00288286, .xDiv h0 4 5 false 6), (0x00308286, .xRem h0 4 5 false 6),
    (0x00388286, .xAnd h0 4 5 false 6), (0x00408286, .xOr h0 4 5 false 6), (0x00488286, .xXor h0 4 5 false 6),
    (0x005082C3, .xShl h0 4 5 true 3), (0x005882C3, .xShr h0 4 5 true 3), (0x006082C3, .xSar h0 4 5 true 3),
    (0x00688286, .xMin h0 4 5 false 6), (0x00708286, .xMax h0 4 5 false 6), (0x00788280, .xClz h0 4 5),
    (0x00808280, .xPcnt h0 4 5), (0x008882C7, .xSext h0 4 5 true 7), (0x00914205, .xCmp h0 1 2 4 false 5),
    (0x00990818, .xPand h0 1 false 2 3 false), (0x0099881C, .xPand h0 1 true 2 3 true),
    (0x00A10818, .xPor h0 1 false 2 3 false), (0x00A90818, .xPxor h0 1 false 2 3 false),
    (0x00B08286, .xFadd h0 4 5 6), (0x00B88286, .xFmul h0 4 5 6), (0x00C08286, .xFmax h0 4 5 6),
    (0x00C88281, .xFcvt h0 4 5 1), (0x00D00480, .xChk h0 9)], decodeTableWord 32 e.1 = some e.2 := by decide +kernel

/-- The L words of spec/21. -/
theorem test_decode_l : ∀ e ∈ [(0x100104B2, Instr.lLd h0 8 9 3 false 2), (0x100904B2, .lSt h0 8 9 3 2),
    (0x10121924, .lVld h0 1 3 9 1), (0x101A1925, .lVst h0 1 3 9 1 1), (0x10214598, .lCas h0 10 11 12 false),
    (0x10214599, .lCas h0 10 11 12 true), (0x10282924, .lRadd h0 0 5 9 1), (0x10314598, .lAlloc h0 10 11 12),
    (0x10380500, .lFree h0 10), (0x1040051A, .lRenew h0 10 13), (0x104A8AAC, .lCopy h0 20 21 22),
    (0x10528AAC, .lGath h0 20 21 22), (0x105A8AAC, .lRld h0 20 21 22), (0x10628AAC, .lRst h0 20 21 22),
    (0x106A8AAC, .lRred h0 20 21 22), (0x10728AAC, .lMcast h0 20 21 22), (0x107A20A0, .lStash h0 1 4 5),
    (0x1080828C, .lWin h0 4 5 6), (0x10C14598, .lAmoAdd h0 10 11 12 false), (0x10C94598, .lAmoAnd h0 10 11 12 false),
    (0x10D14598, .lAmoOr h0 10 11 12 false), (0x10D94598, .lAmoXor h0 10 11 12 false),
    (0x10E14598, .lAmoMin h0 10 11 12 false), (0x10E94598, .lAmoMax h0 10 11 12 false),
    (0x10F14599, .lAmoSwap h0 10 11 12 true)], decodeTableWord 32 e.1 = some e.2 := by decide +kernel

/-- The V words of spec/22. -/
theorem test_decode_v : ∀ e ∈ [(0x20043105, Instr.vAdd h0 1 3 4 5), (0x20143105, .vSub h0 1 3 4 5),
    (0x20243105, .vMul h0 1 3 4 5), (0x20343105, .vFma h0 1 3 4 5), (0x20443105, .vMax h0 1 3 4 5),
    (0x20543105, .vMin h0 1 3 4 5), (0x20643100, .vNeg h0 1 3 4), (0x20743100, .vAbs h0 1 3 4),
    (0x20843100, .vExp2 h0 1 3 4), (0x20943100, .vLog2 h0 1 3 4), (0x20A43100, .vRcp h0 1 3 4),
    (0x20B43100, .vRsqrt h0 1 3 4), (0x20C43102, .vCvt h0 1 3 4 2), (0x20D43105, .vCmpLt h0 1 3 4 5),
    (0x20E43105, .vCmpLe h0 1 3 4 5), (0x20F43105, .vCmpEq h0 1 3 4 5), (0x21043105, .vSel h0 1 3 4 5),
    (0x21143100, .vRmax h0 1 3 4), (0x21243100, .vRsum h0 1 3 4), (0x213431C0, .vBcast h0 1 3 7),
    (0x21443107, .vGet h0 1 3 4 7), (0x21543187, .vPut h0 1 3 6 7), (0x21643242, .vMov h0 1 3 9 2),
    (0x21743105, .vPerm h0 1 3 4 5), (0x21843105, .vAnd h0 1 3 4 5), (0x21943105, .vOr h0 1 3 4 5),
    (0x21A43105, .vXor h0 1 3 4 5)], decodeTableWord 32 e.1 = some e.2 := by decide +kernel

/-- The M words of spec/21, and the K word of spec/20. -/
theorem test_decode_m : ∀ e ∈ [(0x30000000, Instr.mNop h0), (0x3028B000, .mPrec h0 1 5 true),
    (0x30484000, .mShape h0 2 4), (0x306841A0, .mPush h0 2 4 false 3 false 2), (0x30800000, .mSwap h0),
    (0x30AA106A, .mFeed h0 1 2 4 false 3 5 false), (0x30C90000, .mDrain h0 1 false false true),
    (0x30D60000, .mDrain h0 2 true true false), (0x30E00000, .mClear h0), (0xD000061A, .kImm 0x61A)],
    decodeTableWord 32 e.1 = some e.2 := by decide +kernel

/-- The B words of spec/20. -/
theorem test_decode_b : ∀ e ∈ [(0x40000000, Instr.bSafe h0), (0x40140000, .bJmp h0 2), (0x40260000, .bCall h0 3),
    (0x40329980, .bLadder h0 1 2 3 1 4), (0x4041C212, .bLoop h0 7 2 1 2), (0x4057FFFC, .bTgt h0 3 0x1FFFC),
    (0x40618D80, .bFence h0 3 3 3), (0x40710500, .bOpen h0 4 5), (0x40818400, .bShut h0 6 4),
    (0x40985000, .bTwait h0 2 5), (0x40A31000, .bArm h0 3 4), (0x40B30000, .bBwait h0 3),
    (0x40C14604, .bPop h0 5 6 false 1), (0x40D10504, .bPush h0 4 5 false 1), (0x40E14600, .bLaunch h0 5 6),
    (0x40F34400, .bPost h0 3 1 4), (0x410420A8, .bSusp h0 2 4 5 2), (0x41100000, .bExit h0), (0x41205000, .bTrap h0 5),
    (0x413100A0, .bRdst h0 4 0x00A), (0x41410340, .bWrst h0 4 0x034), (0x41540000, .bCancel h0 2), (0x41600000, .bBrk h0),
    (0x417420A0, .bWait h0 2 4 5), (0x41800000, .bEret h0)], decodeTableWord 32 e.1 = some e.2 := by decide +kernel

/-- C and G: with C = 1 the no-operation is 0x8000_0000 (spec/23 R391); G stands in bits 27 to 25 (spec/05 R84). -/
theorem test_decode_head : decodeTableWord 32 0x80000000 = some (.xNop ⟨true, 0⟩) ∧
    decodeTableWord 32 0b00001010000000000000000000000000 = some (.xNop ⟨false, 5⟩) := by decide +kernel

/-- A pipe, an opcode and zero bits that no table has (spec/05 R85, R86; spec/21 R337; spec/23 R391). -/
theorem test_decode_refuses : ∀ w ∈ [0x60000000, 0x70000000, 0x00D80000, 0x01F80000, 0x10880000, 0x21B00000, 0x30F00000,
    0x41900000, 0x00000001, 0x30000001, 0x40000001, 0x00788281, 0x00D00481],
    decodeTableWord 32 w = none := by decide +kernel

/-- The spec's words from the encoder. -/
theorem test_encode : encodeNat (.vMov h0 1 3 9 2) = some 0x21643242 ∧ encodeNat (.bLadder h0 1 2 3 1 4) = some 0x40329980 ∧
    encodeNat (.mDrain h0 2 true true false) = some 0x30D60000 ∧ encodeNat (.lStash h0 1 4 5) = some 0x107A20A0 ∧
    encodeNat (.xCmp h0 2 4 4 true 40) = some 0x00928268 := by decide +kernel

/-! ### Witnesses: concrete states and operands that meet the hypotheses of the statements -/

/-- A running package whose core 0 issues a bundle of its context 0, which is `c`. -/
def mk (c : Ctx) (k : Core := {}) : Mach :=
  { phase := .running, cores := [(0, { k with ctxs := [(0, c)] })], iss := { snap := c } }

/-- A context whose scalars 1, 2, … hold `xs` and whose p1 is true. -/
def regs (xs : List Word) : Ctx :=
  { st := .ready, preds := 2, sregs := xs.zipIdx.map (fun e => (e.2 + 1, { val := e.1 })) }

/-- Register 5 of this context is poisoned, with cause 0x10. -/
def poisCtx : Ctx := { regs [7, 9] with sregs := [(1, { val := 7 }), (5, { pois := true, cause := 0x10 })] }

/-- For the X words: the guard holds and the operands are readable, with the corner values of the clauses. -/
theorem witness_x_operands : ∀ a ∈ [0, 1, 7, 0x7FFFFFFFFFFFFFFF, 0x8000000000000000, 0xFFFFFFFFFFFFFFFF],
    ∀ b ∈ [0, 1, 63, 64, 0x8000000000000000, 0xFFFFFFFFFFFFFFFF], ∀ ix ∈ [false, true],
    let m := mk (regs [BitVec.ofNat 64 a, BitVec.ofNat 64 b])
    guardTrue m ⟨false, 1⟩ = true ∧ (rdS m 0 1).pois = false ∧ (rdS m 0 1).val.toNat = a ∧
    (ix = false → (opBK m ix 2).val.toNat = b) ∧ (opBK m ix 2).pois = false ∧ (opBZ m ix 2).pois = false := by decide +kernel

/-- ImmediateOperands, TwoOperandIntegerWords: none, one and two K words. -/
theorem witness_k_words : ∀ ks ∈ ([[], [3], [0, 1]] : List (List (BitVec 25))),
    { mk (regs []) with iss := { ks := ks } }.iss.ks = ks := by decide +kernel

/-- XFloatWords: its patterns in a register. -/
theorem witness_float_patterns : ∀ v ∈ [0x4B800000, 0x3F800000, 0x1C800000, 0x80000000, 0, 0x7F800000, 0xFF800000,
    0x7FC00000, 0x40200000, 0xC0600000, 0x3F808000, 0x3F818000, 0x7F800001],
    let m := mk (regs [BitVec.ofNat 64 v, BitVec.ofNat 64 v])
    guardTrue m h0 = true ∧ (rdS m 0 1).pois = false ∧ (rdS m 1 2).pois = false ∧ (rdS m 0 1).val.toNat % 2 ^ 32 = v := by decide +kernel

/-- XFloatWords: a NaN among the operands. -/
theorem witness_float_nan : valIsNan (f32Of (rdS (mk (regs [0x7FC00000])) 0 1).val) = true := by decide +kernel

/-- DivisionAndPoison: a poisoned first operand; an unpoisoned one and a poisoned second. -/
theorem witness_poison : guardTrue (mk poisCtx) h0 = true ∧ (rdS (mk poisCtx) 0 5).pois = true ∧
    (rdS (mk poisCtx) 0 1).pois = false ∧ (opBK (mk poisCtx) false 5).pois = true := by decide +kernel

/-- GuardsAndNops: a guard that is false. -/
theorem witness_false_guard : headOf (.xAdd ⟨false, 2⟩ 1 2 false 3) = some ⟨false, 2⟩ ∧
    guardTrue (mk (regs [])) ⟨false, 2⟩ = false := by decide +kernel

/-- ResultsInFlight: a read before its bound and from it on; two writers, the first to land last. -/
theorem witness_in_flight : (5 : Nat) ≤ 5 ∧ (∀ f ∈ (regs [7]).flight, f.dst = .s 4 → f.landAt ≤ 5) ∧
    (5 : Nat) < 5 + 1 ∧ ¬(6 : Nat) < 5 + 1 ∧ ((4 : BitVec 6) ≠ 0) ∧ (∀ f ∈ (regs [7]).flight, f.dst ≠ .s 4) ∧
    (5 : Nat) ≤ 6 ∧ (6 : Nat) < 5 + 20 ∧ (6 : Nat) ≤ 7 := by decide +kernel

/-! #### V words -/

/-- A context whose tile 0 has type `a` (PREC0), and whose scalars hold `xs`. -/
def tileCtx (a : Nat) (xs : List Word := []) : Ctx := { regs xs with prec0 := BitVec.ofNat 64 (a * 65536) }

/-- VArithmeticAndFunctions, VComparesAndConversions: a tile that the core has (its last), of each type, and one past
it. -/
theorem witness_v_tiles : ∀ a ∈ [0, 1, 2, 3, 4],
    let m := mk (tileCtx a)
    guardTrue m h0 = true ∧ (0 : BitVec 2).toNat < tilesOf m ∧ tileType m 0 = a ∧ tilesOf m ≤ (1 : BitVec 2).toNat ∧
    (isFloatTile a = true ↔ a = 0 ∨ a = 3) ∧ (isAxb a = true ↔ a = 2) ∧ (isIntTile a = true ↔ a = 1 ∨ a = 4) := by
  decide +kernel

/-- VArithmeticAndFunctions, VWordFrame: the words of the V pipe have a head and a destination. -/
theorem witness_v_dest : vDest (.vExp2 h0 0 3 4) = some (0, 3) ∧ headOf (.vExp2 h0 0 3 4) = some h0 := by decide +kernel

/-- VArithmeticAndFunctions: codes of FP32 and BF16 whose values are all finite (1, 2), and with an infinity and a NaN. -/
theorem witness_float_codes :
    [0x3F800000, 0x40000000].map (fpDecode fp32) = [.num false 8388608 1 (-23), .num false 8388608 1 (-22)] ∧
    [0x3F80, 0x4000].map (fpDecode bf16) = [.num false 128 1 (-7), .num false 128 1 (-6)] ∧
    ([0x3F80, 0xFF80, 0x7FC0].map (fpDecode bf16)).map valIsNan = [false, false, true] ∧ ([] : List Nat).map (fpDecode fp32) = [] := by
  decide +kernel

/-- VArithmeticAndFunctions: exact results for the 60 or 120 lanes of a float tile: a NaN, 1, 3 × 2^−128 (subnormal, flagged), 2^−200 (subnormal,
not flagged) and −2^−128; and ones of which none is flagged. -/
theorem witness_float_results : ∀ a ∈ [0, 3],
    let least : Val := .num false 1 1 (if a = 0 then -150 else -134)
    let sub (x : Val) : Bool := !valIsZero x && valLt (valAbs x) (.num false 1 1 (-126))
    let flagged (x : Val) : Bool := sub x && valLt least (valAbs x)
    let some_ : List Val := [.nan false 1, .num false 1 1 0, .num false 3 1 (-128), .num false 1 1 (-200), .num true 1 1 (-128)]
    let rs : List Val := some_ ++ List.replicate (lanesOf a - 5) (.num false 0 1 0)
    isFloatTile (tileType (mk (tileCtx a)) 0) = true ∧ rs.length = lanesOf a ∧ some_.map valIsNan = [true, false, false, false, false] ∧
    some_.map sub = [false, false, true, true, true] ∧ some_.map flagged = [false, false, true, false, true] ∧
    (List.replicate (lanesOf a) (Val.inf true)).length = lanesOf a ∧ (List.replicate 60 (Val.inf true)).any flagged = false := by decide +kernel

/-- VIntegerLanes: as many codes as a tile has lanes, its last lane. -/
theorem witness_row_lanes : (List.replicate 120 (7 : Nat)).length = lanesOf 4 ∧ 119 < lanesOf 4 ∧ 59 < lanesOf 1 := by
  decide +kernel

/-- VComparesAndConversions: kinds 0 to 5 at the types that take them and the types that do not. -/
theorem witness_convert : ∀ a ∈ [0, 1, 2, 3, 4], ∀ k ∈ [0, 1, 2, 3, 4, 5], (BitVec.ofNat 6 k).toNat ≤ 5 ∧
    tileType (mk (tileCtx a)) 0 = a := by decide +kernel

/-- VMoves: readable scalars, an index at each end of the lanes, another tile of the same type and of another. -/
theorem witness_v_moves : ∀ n ∈ [0, 59, 60, 119, 120],
    let c : Ctx := { tileCtx 4 [7, BitVec.ofNat 64 n] with prec1 := 0x40000 }
    let m := mk c { partw := 0x20 }
    (rdS m 0 1).pois = false ∧ (rdS m 1 2).pois = false ∧ (rdS m 1 2).val.toNat = n ∧ tilesOf m = 3 ∧
    tileType m 1 = tileType m 0 ∧ tileType m 2 ≠ tileType m 0 ∧ tilesOf m ≤ (3 : BitVec 6).toNat ∧
    lanesOf (tileType m 0) = 120 ∧ lanesOf (tileType (mk (tileCtx 0)) 0) = 60 := by decide +kernel

/-- A state of the machine. -/
def st (m : Mach) : State := ⟨m, {}⟩

/-- What a step of an outcome has as its next state, if any. -/
def nextOf (o : Host.Outcome State Fault Refusal) : Option State :=
  match o with
  | .next t => some t
  | _ => none

/-- VWordFrame: a V word that completes without a trap. -/
theorem witness_v_frame : (st (mk (tileCtx 1))).m.iss.trapped = false ∧
    (nextOf (exec (.vOr h0 0 3 4 5) (st (mk (tileCtx 1))))).map (fun u => u.m.iss.trapped) = some false := by decide +kernel

/-! #### L words -/

/-- A core whose translation of address values 0x10000 to 0x1FFFF is the HBM frame at the same address, and whose
context 0 holds one allocation, the upper half of the pool. -/
def memCore : Core :=
  { tc := [fetchTr], alloc := [(0, { used := true, base := 0x200000, nblk := 32768, life := 1000, exp := 1000, ctx := 0 })] }

/-- A package that issues a bundle whose scalar 1 is `va`. -/
def lm (va : Nat) (more : List Word := [0, 0]) : Mach := mk (regs (BitVec.ofNat 64 va :: more)) memCore

/-- The outcome of an access, without the machine. -/
def okAt (x : Mach × MemRes) : Option Nat :=
  match x.2 with
  | .ok pa _ => some pa
  | _ => none

/-- The same page without W, so that a store to it is refused. -/
def readOnly : Mach := mk (regs [0x10000]) { tc := [{ fetchTr with raw := 0x400007 }] }

/-- The cause of a refused access. -/
def failAt (x : Mach × MemRes) : Option Byte :=
  match x.2 with
  | .fail c _ => some c
  | _ => none

/-- LoadsAndStores, Atomics: an aligned access that is allowed, to memory and to the own pool; one that is refused; one
that waits for a walk; a misaligned one. -/
theorem witness_access : ∀ sz ∈ [0, 1, 2, 3, 4],
    let n := 2 ^ (BitVec.ofNat 3 sz).toNat
    let m := lm 0x10000
    (BitVec.ofNat 3 sz).toNat ≤ 4 ∧ guardTrue m h0 = true ∧ (rdS m 0 1).pois = false ∧ (rdS m 1 2).pois = false ∧
    (rdS m 2 3).pois = false ∧ okAt (access m 0x10000 n n accRead true) = some 0x10000 ∧
    okAt (access m 0x10000 n n accWrite false) = some 0x10000 ∧ okAt (access m 0x10000 n n accAtomic true) = some 0x10000 ∧
    (okAt (access m 0xF000000000200040 n n accWrite false)).isSome = true ∧
    heldByFence (access m 0x10000 n n accRead true).1 1 (fun _ => true) = false ∧
    heldByFence (access m 0x10000 n n accWrite false).1 2 (fun _ => true) = false ∧
    heldByFence (access m 0x10000 n n accAtomic true).1 3 (fun _ => true) = false ∧
    (failAt (access readOnly 0x10000 n n accWrite false)).isSome = true ∧
    (access m 0x20000 n n accRead true).2 = .stall ∧ (0 < sz → (0x10001 : Word).toNat % n ≠ 0) ∧
    (failAt (access m 0xF800000000000000 n n accRead true)).isSome = true := by decide +kernel

/-- LoadsAndStores: addresses that break the alignment of an atomic and of a window entry. -/
theorem witness_misaligned : (rdS (lm 0x10002) 0 1).val.toNat % 4 ≠ 0 ∧ (rdS (lm 0x10004) 0 1).val.toNat % 8 ≠ 0 ∧
    (rdS (lm 4095 [0x10010]) 0 1).val.toNat < 4096 ∧ (rdS (lm 4095 [0x10010]) 1 2).val.toNat % 32 ≠ 0 := by decide +kernel

/-- An act of agent 0, the first context of core 0. -/
def act (k : ActKind) : Act := { tag := 1, kind := k, gran := 0x10000, mask := 0xFFFF }

/-- A package whose first context has one action in its issue queue. -/
def qm (k : ActKind) : Mach := { mk (regs []) with agents := [(0, { iq := [act k] })] }

/-- Atomics: an atomic alone in its queue, which may leave, on clean memory. -/
theorem witness_atomic : ∀ k ∈ [ActKind.amo 0 4 8 7, .amo 6 12 4 7, .cas 0 16 0 5, .cas 8 8 1 5],
    let m := qm k
    m.phase = .running ∧ (getAgent m 0).iq[0]? = some (act k) ∧ isAtomic k = true ∧ targetOf m 0x10000 = .hbm ∧
    canLeave m 0 (getAgent m 0).iq 0 = true ∧ (getAgent m 0).pend ++ adderActs m 0 = [] ∧ granBad m 0x10000 = false ∧
    (act k).mir = false ∧ agentIsCtx 0 = true ∧ agentIsLanding 0 = false ∧
    keyDiffers m (actKey m (act k)) 0x10000 = false := by decide +kernel

/-- Atomics: l.cas whose compare holds (memory reads 0 where nothing is written, log 3) and one whose compare fails. -/
theorem witness_cas : granBytes 0 0 16 = granBytes 0 0 16 ∧ (granBytes 0 8 8 ≠ granBytes 1 0 8) ∧ (8 : Nat) + 8 ≤ 16 ∧
    (atomicNew (act (.cas 0 16 0 5)) 0).isSome = true ∧ atomicNew (act (.cas 8 8 1 5)) 0 = none := by decide +kernel

/-- A block of A32F values, all zero, in memory at 0x10000: FMT 0x50, SCL 0x78, AUX 0 and its check byte. -/
def zeroBlock : Block :=
  let b : Block := 0x7850
  BitVec.ofNat 512 (0x7850 + blkCheck b * 2 ^ 24)

/-- Block FMT 0x50, SCL 0x78 at 0x10000, as the bytes of memory that are not zero. -/
def blockMem : List Host.Cell := [(0x10000, 0x50), (0x10001, 0x78), (0x10003, BitVec.ofNat 8 (blkCheck 0x7850))]

/-- An l.radd block at the adder of die 0. -/
def raddAct : Act := { act (.radd 0) with tag := 5 }

/-- Atomics: an l.radd block at its adder, on an A32F block and on memory that holds none. -/
theorem witness_radd :
    let m : Mach := { mk (regs []) with mem := blockMem, adders := [(0, [(0, raddAct)])] }
    let old (m : Mach) := blockOf ((List.range 4).map (fun i => readGran m.mem (raddAct.gran + 16 * i)))
    m.phase = .running ∧ (smGet [] m.adders 0)[0]? = some (0, raddAct) ∧ (smGet [] m.adders 0).take 0 = [] ∧
    (getAgent m 0).pend = [] ∧ raddAct.mir = false ∧ (∀ i < 4, granBad m (raddAct.gran + 16 * i) = false) ∧
    (∀ i < 4, keyDiffers m (actKey m raddAct) (raddAct.gran + 16 * i) = false) ∧
    blkFault (old m) = none ∧ blkFMT (old m) = 0x50 ∧ blkSCL (old m) = 0x78 ∧
    (let b := { m with mem := [(0x10000, 0x51), (0x10001, 0x78), (0x10003, BitVec.ofNat 8 (blkCheck 0x7851))] }
     blkFault (old b) = none ∧ blkFMT (old b) ≠ 0x50) := by decide +kernel

/-- The places of a reach, where it succeeds: how many. -/
def reached (x : Mach × Except (Word × MemRes) (List (Word × Nat × Bool))) : Option Nat :=
  match x.2 with
  | .ok ps => some ps.length
  | _ => none

/-- RowMemoryWords: a 64-byte aligned row of an A32F tile that may be read, written and reduced; types that l.radd
refuses, a tile that the core does not have, an address that is not aligned; l.stash of a whole tile. -/
theorem witness_row_words :
    let m := mk { tileCtx 0 [0x10000, 0x10000, 0x10020] with prec1 := 0x10000 } { memCore with partw := 0x10 }
    let bs := tileBlocks 0 false (rowAt m 2 0)
    guardTrue m h0 = true ∧ (rdS m 0 1).pois = false ∧ (rdS m 1 2).pois = false ∧ tilesOf m = 2 ∧ tileType m 0 = 0 ∧
    tileType m 1 ≠ 0 ∧ okAt (access m 0x10000 64 64 accRead true) = some 0x10000 ∧ fmtoBad (fmtoOf m.iss.snap.fmto0) = false ∧
    fmtoBad { fmtoOf m.iss.snap.fmto1 with smode := 1 } = false ∧
    reached (reachAll m accWrite false (blockVas 0x10000 bs.1.length)) = some 4 ∧ bs.2 = false ∧
    reached (raddReach m (blockVas 0x10000 4)) = some 4 ∧ heldByFence m 2 (fun _ => true) = false ∧
    (0x10000 : Word).toNat % 64 = 0 ∧ (rdS m 0 3).val.toNat % 64 ≠ 0 ∧
    reached (reachAll m accWrite false (blockVas 0x10000 (64 * 4 + 60 * 4))) = some 496 := by decide +kernel

/-- AllocationAndWindows: requests that are legal, and one for each clause that refuses; a base that is held, one that
is not; window indexes on both sides of 4,096. -/
theorem witness_allocation :
    let m := lm 1 [1, 0]
    let room := 2 ^ 22 - spbase (getCore m 0).partw
    (1 : Nat) < 2 ^ 20 ∧ 64 * 1 ≤ room ∧ (1 : Nat) ≤ tretOf m 0 ∧ (0xFFFF : Nat) / 2 ^ 17 % 8 ≠ 7 ∧
    7 * 2 ^ 17 / 2 ^ 17 % 8 = 7 ∧ 7 * 2 ^ 17 < 2 ^ 20 ∧ room < 64 * (2 ^ 17 - 1) ∧ tretOf m 0 < 2 ^ 32 ∧
    (ownEntry m (ownPoolVa 0 0x200000)).isSome = true ∧ ownEntry m 0x10000 = none ∧
    m.nowt < ((ownEntry m (ownPoolVa 0 0x200000)).getD {}).exp ∧
    (let e := { m with nowt := 1000 }; ((ownEntry e (ownPoolVa 0 0x200000)).getD {}).exp ≤ e.nowt) ∧
    okAt (access m 0x10020 32 32 accRead true) = some 0x10020 := by decide +kernel

/-- EngineWords: options that each command takes, a completion word that it may write, one that is misaligned, options
that are refused. -/
theorem witness_engine_words :
    let m := lm 0x10000 [0x10040, 0x10080]
    guardTrue m h0 = true ∧ (rdS m 0 1).pois = false ∧ (rdS m 1 2).pois = false ∧ (rdS m 2 3).pois = false ∧
    (∀ k ∈ [0, 1, 2, 3, 4, 5], optRefused k (if k = 1 then 0x800000 else if k = 3 then 0x1020003 else if k = 4 then 0x1000003 else 0) 0x10000 true = false) ∧
    (rldSource m 0x10040 1).2 = none ∧ heldByFence m 31 (fun _ => true) = false ∧
    smGet 0 (getCore m 0).eiss 0 - smGet 0 (getCore m 0).etl 0 < 32 ∧ (0x10080 : Word).toNat % 8 = 0 ∧
    okAt (reachX m 0x10080 8 accWrite) = some 0x10080 ∧ (0x10084 : Word).toNat % 8 ≠ 0 ∧
    (∀ k ∈ [0, 1, 2, 3, 4, 5], optRefused k 0x1FFFFFF 0x10000 true = true) ∧ (0 : BitVec 6) ≠ 1 := by decide +kernel

/-! #### M words -/

/-- A shape record of one element in one row: NK = NROW = ESTR = KC = 1. -/
def oneRec : BitVec 256 := 0x1000001010001

/-- An INT8 block whose element 0 is 3 and whose scale is 1, with its check byte. -/
def int8Block : Nat :=
  let b : Nat := 0x7830 + 3 * 2 ^ 32
  b + blkCheck (BitVec.ofNat 512 b) * 2 ^ 24

/-- An address value in the own pool of core 0, and where it stands. -/
def pva : Word := 0xF000000000200000
def ppa : Nat := poolPa 0 0x200000

/-- A fill that has read what stands at `pva`: the given 128 bits, then zeros. -/
def readFill (g : Gran) : Fill :=
  { tag := 1, want := (List.range 4).map (fun i => ppa + 16 * i), got := smPut 0 [] ppa g, bad := none, done := true }

/-- Core 0 with array `a`, its context at PREC0 = 0x377 (signed 8-bit operands, native mode), scalar 1 at `pva`. -/
def am (a : Arr) (g : Gran := 0) : Mach :=
  mk { regs [pva] with prec0 := 0x377, fill := some (readFill g) } { memCore with arr := a }

/-- The array with slot 2 filled. -/
def slotArr : Arr := { slots := [(2, ⟨false, oneRec, pva⟩)] }

/-- ArrayControl: an array that another context holds. -/
theorem witness_array_held : guardTrue (am { holder := some 3 }) h0 = true ∧
    (arrOf (am { holder := some 3 })).holder = some 3 ∧ 3 ≠ (am { holder := some 3 }).iss.ctx ∧
    (rdS (am { holder := some 3 }) 0 1).pois = false := by decide +kernel

/-- ArrayControl and all M words: the array is free, or ours. -/
theorem witness_array_ours : ArrayIsOurs (am {}) ∧ ArrayIsOurs (am { holder := some 0 }) := by
  exact ⟨Or.inl (by decide +kernel), Or.inr (by decide +kernel)⟩

/-- ArrayControl: legal and illegal PREC values, a drained and an undrained set, a change of type only and of width
only. -/
theorem witness_precision : precBad 0x377 = false ∧ precBad 0x50377 = true ∧ precBad 0x4377 = true ∧
    (rdS (am {}) 0 1).pois = false ∧ (0 : BitVec 2).toNat < tilesOf (am {}) ∧
    (smGet {} (arrOf (am {})).sets 0).undrained = false ∧
    (smGet {} (arrOf (am { sets := [(0, { undrained := true })] })).sets 0).undrained = true ∧
    (precSA 0x377 = precSA 0x333 ∧ precXA 0x377 = precXA 0x333 ∧ acct 0x377 = acct 0x333) ∧ precSA 0x377 ≠ precSA 0x277 := by
  decide +kernel

/-- ArrayControl: a record that the bundle has read, within Table 9-4 and outside it. -/
theorem witness_shape : pva.toNat / 2 ^ 60 = 15 ∧ poolDecide (am {}) 0 pva.toNat = .ok ppa false false ∧
    targetOf (am {}) ppa = .pool 0 ∧ recBad oneRec = false ∧ recBad 0 = true := by decide +kernel

/-- ArrayControl, PushedPlanes, FedBeats: the reads of the bundle hold the block at `pva`. -/
theorem witness_fill_holds (g : Gran) : FillHolds (am {} g) [pva] := by
  refine ⟨rfl, fun va h => ?_⟩
  obtain rfl := List.mem_singleton.mp h
  exact ⟨(by decide +kernel : ownPoolVa 0 (pva.toNat % 2 ^ 22) = pva), (by decide +kernel : poolPa 0 (pva.toNat % 2 ^ 22) ∈ (readFill 0).want)⟩

/-- A held stage of the record, for m.push and m.feed of slot 2. -/
def oneStage (ext : Nat) : Stage := ⟨pva, 2, 0x377, false, ext, [([3], none)], []⟩

/-- PushedPlanes: an empty slot; a filled one whose plane is out of range; one whose W-stage is held; one whose row has
been read and expands. -/
theorem witness_push :
    (smGet {} (arrOf (am {})).slots 2).empty = true ∧ (smGet {} (arrOf (am slotArr)).slots 2).empty = false ∧
    recPT oneRec < tilesOf (am slotArr) ∧ recNK oneRec ≤ 60 ∧ recNROW oneRec ≤ 60 ∧ (7 : BitVec 4).toNat < precWB 0x377 ∧
    ¬(8 : BitVec 4).toNat < precWB 0x377 ∧
    ((arrOf (am { slotArr with wStage := some (oneStage 0) })).wStage.filter (fun st =>
      st.base == pva && st.slot == 2 && st.prec == 0x377 && st.rev == false && st.ext == 0)).isSome = true ∧
    (let m := am slotArr (BitVec.ofNat 128 int8Block)
     firstBlocks oneRec pva = [pva] ∧ badBlock m [pva] = none ∧
     (let places := [pva].zipIdx.map (fun e => rowPlaces oneRec pva (rowEpb m e.1) e.2)
      (places.map blocksOf).flatten = [pva] ∧ (match expandRows m 8 0 true places with
        | .ok rows => rows.length
        | .error _ => 0) = 1)) := by decide +kernel

/-- PushedPlanes: a sparse push of one column whose positions have been read: an INT8 block of position 3, scale 1. -/
theorem witness_sparse :
    let m := am slotArr (BitVec.ofNat 128 int8Block)
    (match pushPositions m 1 (recNK oneRec) [pva] with
     | .ok ps => ps
     | .error _ => []) = [[3]] ∧ recNROW oneRec = 1 ∧ pva + BitVec.ofNat 64 (0 * recRSTR oneRec + recMOFF oneRec) = pva := by decide +kernel

/-- PushedPlanes: a stage of at most 60 rows, with what SHADOW has recorded of it and with another width. -/
theorem witness_plane :
    let o : StatSet := { wb := 8, sb := true, sigma := List.replicate 60 none }
    (oneStage 0).rows.length ≤ 60 ∧ o.orient = false ∧ o.sp = 0 ∧ o.wb = precWB 0x377 ∧ o.sb = precSB 0x377 ∧ o.xb = precXB 0x377 ∧
    o.sigma.length = 60 ∧ (∀ i < 60, o.sigma.getD i none = ((oneStage 0).rows.getD i ([], none)).2) ∧
    { o with wb := 4 }.wb ≠ precWB 0x377 := by decide +kernel

/-- The array ready for a beat: slot 2 filled and one plane in ACTIVE. -/
def feedArr : Arr := { slotArr with active := { planes := [(5, [1])], wb := 8, sb := true, xb := 0 } }

/-- FedBeats: as many lanes and columns as the beat takes, at its last lane and column. -/
theorem witness_beat : (List.replicate 64 (7 : Nat)).length = 64 ∧ (List.replicate 60 [0, 1]).length = 60 ∧
    smWf 0 ({} : PartialSet).parts = true ∧ (∀ e ∈ ({} : PartialSet).parts, e.1 < 3840) := by decide +kernel

/-- FedBeats: a legal feed from a held A-stage and from a row that has been read; a plane that is not there. -/
theorem witness_feed :
    (let a := arrOf (am feedArr)
     smGet [] a.active.planes 5 ≠ [] ∧ smGet [] a.active.planes 4 = [] ∧ (5 : BitVec 4).toNat < precWB 0x377 ∧
     (3 : BitVec 4).toNat < precWA 0x377 ∧ a.active.wb = precWB 0x377 ∧ a.active.sb = precSB 0x377 ∧ a.active.xb = precXB 0x377 ∧
     recNK oneRec ≤ spKf a.active.sp ∧ (outScales a.active false).isSome = true ∧
     scaleClash [] ((padTo 64 ([], none) (oneStage 60).rows).map (·.2)) = false ∧
     scaleClash [] ((outScales a.active false).getD []) = false) ∧
    ((arrOf (am { feedArr with aStage := some (oneStage 60) })).aStage.filter (fun sg =>
      sg.base == pva && sg.slot == 2 && sg.prec == 0x377 && sg.rev == false && sg.ext == 60)).isSome = true := by
  decide +kernel

/-- DrainRows: a drained tile of 60 lanes and one of 120. -/
theorem witness_drain : (∀ f ∈ (getCore (am {}) 0).rowFlight, f.row / 64 ≠ 0) ∧
    (let f : RowFlight := { row := 3, ctx := 0, issued := 0, landAt := 12, data := 0, exps := 0, axb := false }
     f.row = 64 * 0 + 3 ∧ f.ctx = 0 ∧ f.landAt ≤ 0 + 12 ∧ ¬{ f with landAt := 20 }.landAt ≤ 0 + 12) ∧ lanesOf (acct 0x377) = 60 ∧ lanesOf (acct 0x30377) = 120 ∧
    guardTrue (am {}) h0 = true := by decide +kernel

/-- DrainRows: rows of a drained A16F tile with a flagged lane and with none; the terms of a row, on the 60-lane types and the
120-lane ones. -/
theorem witness_drain_rows :
    let ts (x : Val) : List Val := x :: List.replicate 59 (.num false 0 1 0)
    let x : Val := .num false 3 1 (-128)
    (drainRow 3 false true false ⟨0, 0⟩ (ts x)).2.any (·.isSome) = true ∧
    (drainRow 3 false true false ⟨0, 0⟩ (ts (.num false 1 1 0))).2.any (·.isSome) = false ∧ (ts x).length = 60 ∧
    (∀ a ∈ [0, 1, 3, 4], a ≤ 4 ∧ isAxb a = false ∧ (lanesOf a = 120 ↔ 3 ≤ a)) ∧
    valIsZero x = false ∧ valLt (valAbs x) (.num false 1 1 (-126)) = true ∧ valLt (.num false 1 1 (-134)) (valAbs x) = true := by
  decide +kernel

/-- DrainRows: an AXB group, accd, whose largest term 2^−120 fits at exponent −128 already, one (2^−90) that needs exponent −120,
and one (2^200) that exponent 127 does not hold. -/
theorem witness_drain_axb :
    let new (e : Int) (k : Nat) : Int := valRne (valScale (.num false 1 1 e) (128 - k))
    (new (-120) 0).natAbs ≤ 2 ^ 31 - 1 ∧ 2 ^ 31 - 1 < (new (-90) 7).natAbs ∧ (new (-90) 8).natAbs ≤ 2 ^ 31 - 1 ∧
    2 ^ 31 - 1 < (new 200 255).natAbs ∧ (127 : Int) = -128 + 255 ∧
    groupExp (drainRow 2 false true false ⟨0, 0⟩ (List.replicate 60 (.num false 1 1 (-90)))).1 3 = -120 := by decide +kernel

/-! #### B words -/

/-- BranchesAndLoops: the predicates of b.ladder; a count of 0, at both ends of its range and above; with a loop active
and without. -/
theorem witness_branches :
    let m := mk (regs [0xFFFFFFFF, 0x100000000, 1, 0])
    guardTrue m h0 = true ∧ rdP m 0 1 = true ∧ rdP m 0 2 = false ∧ rdP m 1 2 = false ∧ rdP m 1 1 = true ∧ rdP m 2 2 = false ∧
    rdP m 2 1 = true ∧ rdP m 3 1 = true ∧ rdP m 3 2 = false ∧ m.iss.ks = [] ∧ m.iss.snap.lepi.getLsbD 63 = false ∧
    { regs [] with lepi := 0x8000000000000000 }.lepi.getLsbD 63 = true ∧ (rdS m 0 1).val.toNat < 2 ^ 32 ∧
    (rdS m 0 1).val ≠ 0 ∧ 2 ^ 32 ≤ (rdS m 0 2).val.toNat ∧ (rdS m 0 3).val ≠ 0 ∧ (rdS m 0 4).val = 0 ∧
    (rdS m 0 1).pois = false := by decide +kernel

/-- StateRegisters: a compute core; MAXGAP at the LPB's limit and above it. -/
theorem witness_state_registers :
    let m := mk { regs [0x100, 0x101] with gapLimit := 0x100 }
    isControl m.iss.core = false ∧ guardTrue m h0 = true ∧ (rdS m 0 1).pois = false ∧
    m.iss.issuedTo ≠ some 0 ∧ m.iss.issuedTo ≠ some 3 ∧ { m.iss with issuedTo := some 0 }.issuedTo = some 0 ∧
    (rdS m 0 1).val.toNat % 2 ^ 32 ≤ (issCtx m).gapLimit.toNat % 2 ^ 32 ∧
    (issCtx m).gapLimit.toNat % 2 ^ 32 < (rdS m 0 2).val.toNat % 2 ^ 32 := by decide +kernel

/-- StateRegisters: PREC by b.wrst: the array as the bundle found it, with the set drained and undrained; a control core. -/
theorem witness_state_precision :
    let m := am {}
    let u : Arr := { sets := [(0, { undrained := true })] }
    m.iss.arr = arrOf m ∧ precBad 0x377 = false ∧ (smGet {} m.iss.arr.sets 0).undrained = false ∧
    (smGet {} u.sets 0).undrained = true ∧ (0 : BitVec 2).toNat < tilesOf m ∧ isControl 1152 = true := by decide +kernel

/-- A partition 0 of owner 0 that declares sluice 7 at version 3, and a work queue 9 of owner 0 of depth 2. -/
def withObjects (m : Mach) (q : Queue := {}) : Mach :=
  { m with
    parts := [(0, { owner := some 0, sluices := [(7, { declared := true, version := 3 })] })]
    queues := [(9, { q with declared := true, owner := 0, work := true, depth := 2 })] }

/-- OrderingWords: a declared sluice at the version asked for and below it, one that is not declared, a number too
large; a timeline and a barrier that are reached and not; both sides of the limit of b.arm. -/
theorem witness_ordering_words :
    let m := withObjects (mk (regs [7, 3, 4, 0x10000, 0x7FFFFFFFFF, 0x8000000000, 8]) { bars := [(1, 5)], etl := [(0, 2)] })
    guardTrue m h0 = true ∧ (rdS m 0 1).pois = false ∧ (rdS m 1 2).pois = false ∧ (rdS m 0 1).val.toNat < 2 ^ 16 ∧
    (sluiceOf m (issCtx m).area 7).declared = true ∧ (sluiceOf m (issCtx m).area 8).declared = false ∧
    (rdS m 1 2).val.toNat ≤ (sluiceOf m 0 7).version.toNat ∧ (sluiceOf m 0 7).version.toNat < (rdS m 1 3).val.toNat ∧
    2 ^ 16 ≤ (rdS m 0 4).val.toNat ∧ (sluiceOf m 0 7).version ≠ -1 ∧ mapCmd (issCtx m) 0 2 ≤ smGet 0 (getCore m 0).etl 0 ∧
    smGet 0 (getCore m 0).etl 0 < mapCmd (issCtx m) 0 3 ∧ smGet 0 (getCore m 0).bars 0 = 0 ∧
    smGet 0 (getCore m 0).bars 1 ≠ 0 ∧ (rdS m 0 5).val.toNat < 2 ^ 39 ∧ 2 ^ 39 ≤ (rdS m 0 6).val.toNat := by decide +kernel

/-- OrderingWords: a fence at the head of its queue whose predecessors are complete, one behind a pending store; a shut
at the head. -/
theorem witness_fences :
    let m := qm (.fence 3 3 4)
    let b : Mach := { m with agents := [(0, { iq := [act (.fence 3 3 4)], pend := [{ act .st with tag := 0 }] })] }
    m.phase = .running ∧ (getAgent m 0).iq = act (.fence 3 3 4) :: [] ∧ fenceReady m 0 1 3 4 = true ∧
    fenceReady b 0 1 3 4 = false ∧ (getAgent (qm (.shut 7)) 0).iq[0]? = some (act (.shut 7)) ∧ flying (qm (.shut 7)) 0 = [] ∧
    fencePasses m 0 0 (act .ld) = true ∧ fencePasses m 0 4 (act .ld) = false ∧ covers m 4 0 0x10000 = true ∧
    (let q : Mach := { m with agents := [(0, { iq := [act .ld, act (.fence 3 3 0)] })], hist := [(0x10000, [⟨0, 0, 0, 0⟩])] }
     (getAgent q 0).iq[1]? = some (act (.fence 3 3 0)) ∧ smGet [] q.hist 0x10000 ≠ []) ∧
    inRegions [(0x10000, 0x20000)] 0x10010 = true ∧ inRegions [(0x10000, 0x20000)] 0x30000 = false ∧ (1 : Nat) ≠ 0 := by
  decide +kernel

/-- QueueWords: a queue that is ours with an entry, empty and closed, empty and open, full; one that is not ours. -/
theorem witness_queues :
    let m (q : Queue) := withObjects (mk (regs [9, 10, 0x10000, 0x10001])) q
    guardTrue (m {}) h0 = true ∧ (rdS (m {}) 0 1).pois = false ∧ (rdS (m {}) 1 2).pois = false ∧
    (getQueue (m {}) 9).owner = ctxOwner (issCtx (m {})) ∧ (getQueue (m {}) 9).work = true ∧
    (getQueue (m {}) 10).declared = false ∧ (getQueue (m { entries := [5] }) 9).entries[0]? = some 5 ∧
    ((getQueue (m { entries := [5] }) 9).waiters.idxOf? (0, 0)).getD 0 = 0 ∧ (getQueue (m { closed := true }) 9).closed = true ∧
    (getQueue (m { closed := true }) 9).entries[0]? = none ∧ queueBad (m {}) 0 9 = false ∧ queueBad (m {}) 0 10 = true ∧
    (getQueue (m {}) 9).entries.length < (getQueue (m {}) 9).depth ∧
    ¬(getQueue (m { entries := [1, 2] }) 9).entries.length < (getQueue (m { entries := [1, 2] }) 9).depth ∧
    isArrival (m {}) = false ∧ isArrival (mk { regs [] with arr := true }) = true ∧ (rdS (m {}) 0 3).val.toNat % 64 = 0 ∧
    (rdS (m {}) 0 4).val.toNat % 64 ≠ 0 := by decide +kernel

/-- A unit of launch 1, of owner 0 in partition 0. -/
def unit1 : UnitInfo :=
  { launch := 1, u := 0, prio := 0, pclass := 0, owner := 0, area := 0, lent := false, cost := 0, beats := 0 }

/-- EndingAndTrapWords: objects that are well formed and declared, and that are not, for each kind; conditions that hold
and that do not. -/
theorem witness_waits :
    let m := withObjects (mk { regs [7] with unit := some unit1 })
    (∀ e ∈ [(1, 7), (2, 0), (3, 5), (4, 9)], wobjBad e.1 e.2 = false ∧ wobjForeign m 0 0 e.1 e.2 = false ∧ e.2 < 2 ^ 24) ∧
    wobjBad 0 0 = false ∧ wobjBad 0 1 = true ∧ wobjBad 2 1 = true ∧ wobjForeign m 0 0 1 8 = true ∧ wobjForeign m 0 0 4 10 = true ∧
    wobjForeign m 0 0 2 (18 * 2 ^ 13) = true ∧ waitHolds m 0 1 7 3 = true ∧ waitHolds m 0 1 7 4 = false ∧
    waitHolds m 0 2 0 1 = false ∧ waitHolds m 0 3 5 0 = true ∧ waitHolds m 0 4 9 0 = false ∧ (issCtx m).unit = some unit1 := by
  decide +kernel

/-- EndingAndTrapWords: a bundle whose earlier stores are committed, with a record slot free, and one that waits for each; a unit
and a handler. -/
theorem witness_susp :
    let m : Mach := { mk { regs [7, 3] with unit := some unit1 } with parts := [(0, { owner := some 0, reccnt := 1 })] }
    suspReady m 0 0 1 = true ∧ suspReady { m with agents := [(0, { pend := [{ act .st with tag := 0 }] })] } 0 0 1 = false ∧
    suspReady (setPart m 0 { getPart m 0 with recUsed := [0] }) 0 0 1 = false ∧ isArrival m = false ∧ (rdS m 0 1).pois = false ∧
    (rdS m 2 1).pois = false ∧ (rdS m 3 63).pois = false ∧ (rdS m 1 2).pois = false ∧ (rdS m 0 1).val.toNat < 2 ^ 24 ∧
    (issCtx (mk (regs []))).unit = none := by decide +kernel

/-- EndingAndTrapWords: a context in trap mode, one that no frame started, and one that a frame at `pva` started and that
releases the context held with that frame (zeros: RSEL = 0, no patch). -/
theorem witness_eret :
    causeTm { regs [] with cause := 0x1041 }.cause = true ∧ causeTm (regs []).cause = false ∧ (regs []).started = none ∧
    (let m : Mach := { mk (regs []) with
       cores := [(0, { memCore with ctxs := [(0, { regs [] with started := some (pva, 0, 1) }),
                                (1, { regs [] with hold := some ⟨pva, 0x40, false, true, none, true⟩ })] })] }
     (issCtx m).started = some (pva, 0, 1) ∧ agentQuiet m 0 m.iss.tag0 = true ∧ holdsFrame (getCtx m 0 1) pva = true ∧
     (getCtx m 0 1).pre = none ∧ holdsFrame (getCtx m 0 1) 0x10000 = false ∧
     agentQuiet { m with agents := [(0, { pend := [{ act .st with tag := 0 }] })] } 0 1 = false ∧
     (match releaseFrame m (ctxAgent 0 0) (whoOf m 0 0) 0 1 pva (afterEpc 0 1) with
      | .ok _ => true
      | .error _ => false) = true) := by decide +kernel

/-! #### Ordering, landing, engines -/

/-- WritesAndLoads: a store that may leave for memory and one for the pool of the core; a pending write that no earlier
one of its granule precedes; a store and a load at the port of a pool; a load at its one position. -/
theorem witness_writes_and_loads :
    let p : Act := { act .st with gran := ppa }
    let m : Mach := { mk (regs []) with agents := [(0, { iq := [act .st, p, act .ld], pend := [act .st] })] }
    (getAgent m 0).iq[0]? = some (act .st) ∧ canLeave m 0 (getAgent m 0).iq 0 = true ∧ targetOf m 0x10000 = .hbm ∧
    (getAgent m 0).iq[1]? = some p ∧ canLeave m 0 (getAgent m 0).iq 1 = true ∧ targetOf m ppa = .pool 0 ∧
    (getAgent m 0).pend[0]? = some (act .st) ∧ (getAgent m 0).pend.take 0 = [] ∧ agentIsEngine 0 = false ∧
    agentIsCtx 0 = true ∧ agentCore 0 = 0 ∧ (act .st).mir = false ∧ agentIsLanding 0 = false ∧ targetOf m 0x8000000000 = .none ∧
    adderActs m 0 = [] ∧ targetOf m p.gran ≠ .none ∧
    (∀ k ∈ [ActKind.st, .ld], (getCore { m with cores := [(0, { port := [(0, { p with kind := k })] })] } 0).port =
      (0, { p with kind := k }) :: []) ∧
    (getAgent (qm .ld) 0).iq[0]? = some (act .ld) ∧ canLeave (qm .ld) 0 (getAgent (qm .ld) 0).iq 0 = true ∧
    keyDiffers m (actKey m (act .st)) 0x10000 = false ∧ (act .st).mask = 0xFFFF ∧ { act .st with mask := 0xF }.mask ≠ 0xFFFF ∧
    keyDiffers { m with keyed := [(0x10000, 5)] } (some 6) 0x10000 = true ∧ viewOf (qm .ld) 0 0x10000 ≤ 0 ∧ 0 ≤ newestPos (qm .ld) 0x10000 ∧ granBad (qm .ld) 0x10000 = false ∧
    granBad { qm .ld with poisoned := [0x10000] } 0x10000 = true ∧ ¬ 1 ≤ newestPos (qm .ld) 0x10000 := by decide +kernel

/-- WritesAndLoads: a write to an uncorrectable granule, and a load of a granule's last bytes that is waited for. -/
theorem witness_bind : (0x10000 : Nat) ∈ ({ mk (regs []) with poisoned := [0x10000] } : Mach).poisoned ∧ (15 : Nat) + 1 ≤ 16 := by
  decide +kernel

/-- A load of scalar 4 that is waited for. -/
def pend4 (known : Bool) : Pend :=
  { tag := 1, use := .load 8 8, dst := [.s 4], need := 1, got := [], vals := [{ val := 9 }], known := known, spec := false,
    bad := none, va := 0x10008, finfo := 0 }

/-- A package with an action entry for cause 1 in partition 0. -/
def acts (e : Nat) (m : Mach) : Mach :=
  { m with parts := [(0, { owner := some 0, recarea := some pva, fwdpkt := 0, actions := [(1, some (BitVec.ofNat 32 e))] })] }

/-- LandingAndTranslation: a known load that lands; a fill whose reads are all in; waits that hold and that do not. -/
theorem witness_landing :
    let m := mk { regs [] with pend := [pend4 true] }
    ((getCtx m 0 0).pend.find? (fun q => q.tag == 1) = some (pend4 true) ∧ (pend4 true).known = true ∧
      (pend4 true).bad = none ∧ (pend4 true).dst = [.s 4] ∧ (pend4 true).vals = [{ val := 9 }] ∧ (getCtx m 0 0).hold = none ∧ (getCtx m 0 0).landBy ≤ m.cycle) ∧
    (let x : Hold := ⟨pva, 1, false, false, some none, true⟩
     let p : Pend := { pend4 true with use := .regs }
     let m := acts 0xB (mk { regs [] with pend := [p], hold := some x } memCore)
     (getCtx m 0 0).pend = [p] ∧ (getCtx m 0 0).hold = some x ∧
     heldWrite (landPend m 0 0 p) (whoOf (landPend m 0 0 p) 0 0) pva 16640 = false ∧
     (match writeFrame (landPend m 0 0 p) 0 0 pva none with
      | .ok _ => true
      | .error _ => false) = true) ∧
    (∀ g ∈ [ppa], ∃ x ∈ [(ppa, (5 : Gran))], x.1 = g) ∧
    (let w := withObjects (mk { regs [] with st := .waiting, wait := some (.sluice 7 3) })
     (getCtx w 0 0).st = .waiting ∧ (getCtx w 0 0).wait = some (.sluice 7 3) ∧ waitDone w 0 0 (.sluice 7 3) = true ∧
     waitDone w 0 0 (.sluice 7 4) = false ∧ (getCtx w 0 0).cancelled = false ∧ (getCtx w 0 0).pre = none ∧
     (∀ x, (getCtx w 0 0).hold = some x → x.owed = none)) := by decide +kernel

/-- LandingAndTranslation: a miss in its queue; an invalidation that a quiet die and the fifth destination acknowledge; a
partition with a root whose tables reach a leaf of page 0 at level 0 of one table page each. -/
theorem witness_translation :
    let m : Mach := { mk (regs []) with clusters := [(0, { miss := [⟨0, false, 1⟩] })], invals := [⟨0, false, 1, false, 0⟩] }
    (getCluster m 0).miss[0]? = some ⟨0, false, 1⟩ ∧ m.invals.find? (fun x => !(x.acks.getLsbD 0)) = some ⟨0, false, 1, false, 0⟩ ∧
    dieQuiet (discardTr m 0 ⟨0, false, 1, false, 0⟩) 0 ⟨0, false, 1, false, 0⟩ = true := by decide +kernel

/-- Tables of five levels from 0x8000 on that map address values 0 to 0xFFFF with the leaf of `fetchTr` (spec/08 R158). -/
def tables : List Host.Cell :=
  [(0x8000, 0x10), (0x10000, 0x11), (0x11000, 0x12), (0x12000, 0x13)].foldl
    (fun mem e => writeNat mem e.1 8 255 (1 + e.2 * 2 ^ 22)) (writeNat [] 0x13000 8 255 0x40001F)

/-- A package whose partition 0 has those tables. -/
def mapped (m : Mach) : Mach := { m with mem := tables, parts := [(0, { root := 0x8000, owner := some 0, recarea := some pva })] }

/-- Those tables with the leaf MOVING. -/
def moving (m : Mach) : Mach := { mapped m with mem := writeNat tables 0x13000 1 1 0x9F }

/-- LandingAndTranslation: the start of a migration of a mapped page to a free, aligned frame. -/
theorem witness_migration : (mapped (mk (regs []))).migration = none ∧ (getPart (mapped (mk (regs []))) 0).root ≠ 0 ∧
    partLeaf (mapped (mk (regs []))) 0 0 = some (0x13000, 4) ∧ (0x20000 : Nat) % 2 ^ pageShift 4 = 0 ∧
    0x20000 + 2 ^ pageShift 4 ≤ 0x8000000000 ∧ pteBit (readNat tables 0x13000 8) 7 = false ∧
    leafPa (readNat tables 0x13000 8) + 2 ^ pageShift 4 ≤ 0x8000000000 := by decide +kernel

/-- A copy command of context 0 between two places of the own pool, under number 1. -/
def copyCmd : Cmd := { num := 1, ctx := 0, kind := 0, a := pva + 0x1000, b := pva, cw := none, opt := 1, area := 0, total := 2 }

/-- Core 0 with one command in an engine context. -/
def cmdMach (e : Nat) (c : Cmd) : Mach := mk (regs []) { memCore with cmds := [(e, [c])], eiss := [(e, 1)] }

/-- EngineCommands: commands about to start: aligned, misaligned, a remote store, a gather with a misaligned list. -/
theorem witness_engine_starts :
    cmdOf (cmdMach 0 copyCmd) 0 0 1 = some copyCmd ∧ copyCmd.started = false ∧ copyCmd.ended = false ∧ copyCmd.stop = false ∧
    smGet 0 (getCore (cmdMach 0 copyCmd) 0).etl 0 + 1 = 1 ∧ copyCmd.a.toNat % 64 = 0 ∧ copyCmd.b.toNat % 64 = 0 ∧
    optRnf 0 copyCmd.opt.toNat = false ∧ (pva + 1).toNat % 64 ≠ 0 ∧ (pva + 1).toNat % 32 ≠ 0 ∧
    copyCmd.cw = none ∧ portBusy (cmdMach 0 copyCmd) (engWho (cmdMach 0 copyCmd) 0 copyCmd) copyCmd.b = false ∧
    (match startWork (cmdMach 0 copyCmd) 0 0 copyCmd with
     | .ok _ => true
     | .error _ => false) = true ∧ (match startWork (cmdMach 0 copyCmd) 0 0 { copyCmd with b := pva + 1 } with
     | .ok _ => false
     | .error _ => true) = true := by decide +kernel

/-- EngineCommands: an l.rst whose destination is a remote window, at its start (no refusal of translation). -/
theorem witness_engine_block :
    let c : Cmd := { copyCmd with started := true }
    let full : Cmd := { c with buf := [(0, 1), (1, 2), (2, 3), (3, 4)] }
    let up : Cmd := { c with down := true, next := 1 }
    cmdGoes (cmdMach 0 c) 0 0 c = true ∧ c.next < c.total ∧ c.down = false ∧ c.buf.length < 4 ∧
    up.down = true ∧ cmdGoes (cmdMach 0 up) 0 0 up = true ∧ up.total - 1 - up.next = 0 ∧
    xlateNow (cmdMach 0 c) (engWho (cmdMach 0 c) 0 c) pva 64 accRead = .ok ppa false false ∧
    targetOf (cmdMach 0 c) ppa = .pool 0 ∧ allocCheck (cmdMach 0 c) 0 (poolOff ppa) 64 true = none ∧
    cmdGoes (cmdMach 0 full) 0 0 full = true ∧ 4 ≤ full.buf.length ∧ checksBlock (cmdMach 0 full) 0 full pva = false ∧
    xlateNow (cmdMach 0 full) (engWho (cmdMach 0 full) 0 full) (pva + 0x1000) 64 accWrite = .ok (ppa + 0x1000) false false := by
  decide +kernel

/-- EngineCommands: a command that can end, without a completion word and with one in mapped memory; numbers that are
still open and none. -/
theorem witness_engine_end :
    let c : Cmd := { copyCmd with started := true, next := 2, wrote := 2 }
    let d : Cmd := { c with cw := some 8 }
    (cmdResult (cmdMach 0 c) 0 0 c).isSome = true ∧ cmdOf (cmdMach 0 d) 0 0 1 = some d ∧
    xlateNow (mapped (cmdMach 0 d)) (engWho (mapped (cmdMach 0 d)) 0 d) 8 8 accWrite = .ok 0x10008 false false ∧
    targetOf (mapped (cmdMach 0 d)) 0x10008 = .hbm ∧ c.cwSent = false ∧ granBad (mapped (cmdMach 0 d)) 0x10000 = false ∧
    granBad { mapped (cmdMach 0 d) with poisoned := [0x10000] } 0x10000 = true ∧
    xlateNow (moving (cmdMach 0 d)) (engWho (mapped (cmdMach 0 d)) 0 d) 8 8 accWrite = .moving ∧
    xlateNow (cmdMach 0 d) (engWho (cmdMach 0 d) 0 d) pva 8 accWrite = .ok ppa false false ∧ targetOf (cmdMach 0 d) ppa = .pool 0 ∧
    (let w : Act := { act .st with cmd := 1 }
     let b : Mach := { cmdMach 0 d with agents := [(engAgent 0 0, { iq := [w] })] }
     partsLanded (cmdMach 0 d) 0 0 d = true ∧ partsLanded b 0 0 d = false) ∧ { d with cwSent := true }.cwSent = true ∧
    cmdOf (cmdMach 0 { c with short := true }) 0 0 1 = some { c with short := true } ∧ c.short = false ∧ openNums (cmdMach 0 c) 0 0 = [1] ∧ openNums (cmdMach 0 c) 0 1 = [] := by
  decide +kernel

/-- EngineCommands: a contribution whose next residual block is refused. -/
theorem witness_residual :
    let c : Cmd := { copyCmd with kind := 4, started := true, total := 1, resid := [[0, 0]], opt := 0, b := 0x30000 }
    let m := cmdMach 3 c
    cmdOf m 0 3 1 = some c ∧ cmdGoes m 0 3 c = true ∧ residNext c = true ∧ (match xlateNow m (engWho m 0 c) c.b 64 accWrite with
      | .fault _ _ => true
      | _ => false) = true := by decide +kernel

/-- Window 1 of partition 0: 64 KiB of the HBM of package 3 from 0x40000, all accesses allowed (spec/08 Table 8-11). -/
def winRaw : Nat := 0x40000 + 0x10000 * 2 ^ 64 + 3 * 2 ^ 128 + 31 * 2 ^ 160 + 2 ^ 168

/-- A package whose partition 0 has that window, mirrors through it, and the record area in the pool of core 0. -/
def windowed (m : Mach) : Mach :=
  { m with mem := writeNat [] 32 32 0xFFFFFFFF winRaw
           parts := [(0, { owner := some 0, mirw := some 1, recarea := some pva })] }

/-- An address value in window 1. -/
def wva : Word := 0xE001000000000000

/-- EngineCommands: an l.rst to that window. -/
theorem witness_remote_start :
    remoteStart (windowed (mk (regs []))) { core := 0, part := 0, owner := 0 } { copyCmd with kind := 3, opt := 0, total := 1 } wva 64 = none := by
  decide +kernel

/-! #### Traps, pre-emption -/

/-- TrapEntry: entries that kill, replay, forward to the context, the control core and the host, and park; a frame that
can be written; causes with the default action. -/
theorem witness_traps :
    trapAct (actionEntry (acts 0 (mk (regs []))) 0 1) 0 = .kill ∧ trapAct (actionEntry (acts 0x11 (mk (regs []))) 0 1) 0 = .replay ∧
    trapAct (actionEntry (acts 3 (mk (regs []))) 0 1) 0 = .forward 0 ∧ trapAct (actionEntry (acts 7 (mk (regs []))) 0 1) 0 = .forward 1 ∧
    trapAct (actionEntry (acts 0xB (mk (regs []))) 0 1) 0 = .forward 2 ∧ trapAct (actionEntry (acts 6 (mk (regs []))) 0 1) 0 = .park 1 ∧
    trapAct (actionEntry (acts 0xA (mk (regs []))) 0 1) 0 = .park 2 ∧ trapAct (actionEntry (acts 2 (mk (regs []))) 0 1) 0 = .park 0 ∧
    heldWrite (moving (mk (regs []))) { core := 0, part := 0, owner := 0 } 0x4000 16640 = true ∧
    heldWrite (mk (regs [])) { core := 0, part := 0, owner := 0 } pva 16640 = false ∧ (getPart (acts 0 (mk (regs []))) 0).fwdpkt = 0 ∧
    isControl 0 = false ∧ (getPart (acts 0 (mk (regs []))) 0).recarea = some pva ∧
    (let m := acts 0xB (mk { regs [] with st := .waiting, wait := some .held, hold := some ⟨pva, 1, false, false, some none, true⟩ } memCore)
     (match writeFrame m 0 0 pva none with
      | .ok _ => true
      | .error _ => false) = true) ∧
    (regs []).pend = [] ∧ ({ regs [] with pend := [pend4 true] } : Ctx).pend ≠ [] ∧ (regs []).landBy ≤ (mk (regs [])).cycle ∧
    (mk (regs [])).cycle < { regs [] with landBy := 12 }.landBy ∧
    smGet none (getPart (acts 0 (mk (regs []))) 0).actions 2 = none ∧ (regs []).trapbase.toNat % 2 ^ 32 = 0 := by decide +kernel

/-- A notice for a handler. -/
def notice : Notice := { haddr := 0x100, paddr := 0x200, len := 64, src := 0x10002, payload := [], fwd := none }

/-- HandlersAndRestores: a replay that is over and one that is not; a notice at the head of a core that has a Dormant
context, and a core that is drained. -/
theorem witness_handlers :
    let m : Mach := { mk (regs []) with cycle := 256, cores := [(0, { ctxs := [(0, { arr := true, st := .dormant }),
      (1, { st := .waiting, wait := some .replay, replayAt := 256 }), (2, { st := .waiting, wait := some .replay, replayAt := 257 })], notices := [notice] })] }
    (getCtx m 0 1).st = .waiting ∧ (getCtx m 0 1).wait = some .replay ∧ (getCtx m 0 1).replayAt ≤ m.cycle ∧
    m.cycle < (getCtx m 0 2).replayAt ∧ (getCtx m 0 1).cancelled = false ∧ (getCtx m 0 1).pre = none ∧ (getCore m 0).notices = notice :: [] ∧ (getCore m 0).spilled = [] ∧
    dormantCtx (getCore m 0) (isControl 0) = some 0 ∧ notice.fwd = none ∧ (getCore m 0).scan.draining = false ∧
    (getPart m (clusterOf 0)).recallAt = none ∧ ({ scan := { draining := true } } : Core).scan.draining = true ∧
    (getPart { m with parts := [(0, { recallAt := some 0 })] } (clusterOf 0)).recallAt ≠ none := by decide +kernel

/-- An image that held the array. -/
def image1 : Image := { ctx := {}, rows := [], arr := some {} }

/-- HandlersAndRestores: a restore under way with the array free and held; pins to renew and a pool to sweep, in time and
too early; a core whose zeroing is over and one whose zeroing is not. -/
theorem witness_restores :
    let m (k : Core) (h : Option Nat) : Mach := { mk { regs [] with restoring := some (1, none) } { k with arr := { holder := h } } with
      images := [(1, some image1)], cycle := 100, nowt := 10 ^ 9 }
    (getCtx (m {} none) 0 0).restoring = some (1, none) ∧ imageOf (m {} none) 1 = some image1 ∧ image1.arr.isSome = true ∧
    (getCore (m {} (some 2)) 0).arr.holder.isSome = true ∧ (getCtx (m {} none) 0 0).cancelled = false ∧
    (getCore (m {} none) 0).arr.holder = none ∧ restFits (getCore (m {} none) 0) image1.rest [] = true ∧
    restFits { eiss := [(0, 32)] } [(0, copyCmd)] [] = false ∧ restFits { eiss := [(0, 32)] } [] [act (.cmd 0 0 0 none 0 0)] = false ∧
    (∃ e ∈ (getCore (m { alloc := [(0, { pinned := some 5 })] } none) 0).alloc, e.2.pinned.isSome = true) ∧
    (getCore (m {} none) 0).pinTick + tretOf (m {} none) 0 / 2 ≤ (m {} none).nowt ∧
    (m {} none).nowt < (getCore (m { pinTick := 10 ^ 9 } none) 0).pinTick + tretOf (m {} none) 0 / 2 ∧
    (getCore (m {} none) 0).zeroUntil = none ∧
    (getCore (m {} none) 0).rillTick + tretOf (m {} none) 0 / 2 ≤ (m {} none).nowt ∧
    (m {} none).nowt < (getCore (m { rillTick := 10 ^ 9 } none) 0).rillTick + tretOf (m {} none) 0 / 2 ∧
    (getCore (m { zeroUntil := some 100 } none) 0).zeroUntil = some 100 ∧ (100 : Nat) ≤ (m {} none).cycle ∧
    (m {} none).cycle < 101 := by decide +kernel

/-- A context that runs the unit. -/
def runs (c : Ctx := {}) (u : UnitInfo := unit1) : Ctx := { c with st := .ready, unit := some u }

/-- PreemptionRequests: a context that can be pre-empted, with an active loop and without, and one that can not; a recall
that stops it, a scan, a held context; a slice that has passed and one that has not; posted ends. -/
theorem witness_preemption :
    let c := runs { lepi := 0x8000000000000000, lc := 5, slice := 100 }
    let m := mk c { scan := { draining := true } }
    canPreempt (getCtx m 0 0) = true ∧ canPreempt (regs []) = false ∧ c.lepi.getLsbD 63 = true ∧ c.lc ≠ 0 ∧
    (runs).lepi.getLsbD 63 = false ∧ pclassOf c = 0 ∧ pclassOf (runs {} { unit1 with pclass := 1 }) = 1 ∧
    recallStops { m with parts := [(0, { recallAt := some 1 })] } 0 (runs {} { unit1 with lent := true }) = true ∧
    (getCore m 0).scan.draining = true ∧ (runs { hold := some ⟨pva, 1, true, false, none, true⟩ }).hold = some ⟨pva, 1, true, false, none, true⟩ ∧
    (runs { hold := some ⟨pva, 1, false, false, none, true⟩ }).hold = some ⟨pva, 1, false, false, none, true⟩ ∧
    m.cycle < (getCtx m 0 0).sliceStart + (getCtx m 0 0).slice.toNat % 2 ^ 32 ∧
    (getCtx m 0 0).sliceStart + (getCtx m 0 0).slice.toNat % 2 ^ 32 ≤ { m with cycle := 100 }.cycle ∧ unitWaits m 0 = false ∧
    (freeSlots m 0).isSome = true ∧ { c with lc := 0 }.lc = 0 ∧ 1 ≤ pclassOf (runs {} { unit1 with pclass := 1 }) ∧
    freeSlots { m with parts := [(0, { imgcnt := 1, imgUsed := [0] })] } 0 = none ∧ (runs { posted := some (1, 4) }).posted = some (1, 4) ∧
    smGet 0 (getCore m 0).eiss 1 < 4 ∧ 0 ≤ smGet 0 (getCore m 0).eiss 1 := by decide +kernel

/-- PreemptionRequests: a launch of an owner with a weight waits for a place, and no slot of it is free on the core's
cluster: `unitWaits` says whether one does. -/
theorem witness_unit_waits :
    let n : Node := { live := true, level := 1, owner := 0, total := 4, nextU := 0, st := .running, lpb := { dim0 := 4, dim1 := 1, dim2 := 1, cmask := 1 } }
    let m : Mach := { mk (runs) with
      cores := [(0, { ctxs := (List.range 16).map (fun i => (i, runs)) })]
      nodes := [(1, n)], owners := [(0, { weight := 1 })], parts := [(0, { owner := some 0, recarea := some pva })]
      queues := [(0, { declared := true, owner := 0, depth := 1, entries := [1] })]
      retired := (List.range 17).map (fun i => (i + 1, true)) }
    unitWaits m 0 = true := by decide +kernel

/-- A pre-emption of the host that has slots 0. -/
def pre1 (stopped : Option Nat) (acks : BitVec 4) (saved : Bool) : PreEmpt :=
  { src := .host, stopped := stopped, acks := acks, saved := saved, slot := some (0, 0), recId := 1 }

/-- WeirEvents: a context at its stop point, cancelled and not, and one that is not; a pre-emption that waits for its
engines, for its image and for its record; stopped for 10,000 cycles and for less; no command left. -/
theorem witness_weir :
    let c : Ctx := { regs [] with st := .waiting, wait := some (.sluice 7 4), unit := some unit1, pre := some (pre1 none 0 false) }
    let m : Mach := { mk c with cycle := 10000, images := [(1, some image1)], parts := [(0, { owner := some 0, recarea := some pva })] }
    atStop c = true ∧ atStop { c with st := .ready } = false ∧ { c with cancelled := true }.cancelled = true ∧ c.pend = [] ∧
    (getAgent m (ctxAgent 0 0)).iq = [] ∧ (pre1 none 0 false).slot = some (0, 0) ∧
    freeSlots { m with parts := [(0, { imgcnt := 1, imgUsed := [0] })] } 0 = none ∧
    (let a := act (.cmd 0 0 0 none 0 0)
     let q := { m with agents := [(0, { iq := [a] })] }
     (getAgent q (ctxAgent 0 0)).iq = [a] ∧ a.tag = (pend4 true).tag ∧ isCmd a.kind = true) ∧
    (∀ a ∈ (getAgent m (ctxAgent 0 0)).iq, a.tag ≠ (pend4 true).tag) ∧
    (let f : RowFlight := { row := 3, ctx := 0, issued := 0, landAt := 10001, data := 0, exps := 0, axb := false }
     f.ctx = 0 ∧ m.cycle < f.landAt ∧ (getCore m 0).rowFlight = []) ∧
    imageHeld m (whoOf m 0 0) (imageVa m 0 0) = false ∧ heldWrite m (whoOf m 0 0) (recordVa m 0 0) 64 = false ∧
    imageHeld (moving m) (whoOf m 0 0) 0x8000 = true ∧ heldWrite (moving m) (whoOf m 0 0) 0x8000 64 = true ∧
    (pre1 (some 0) 0 false).acks.getLsbD 3 = false ∧ stoppable m 0 0 3 = [] ∧
    m.cycle < 1 + 10000 ∧ 0 + 10000 ≤ m.cycle ∧ imageRefused m (whoOf m 0 0) (imageVa m 0 0) = none ∧
    (imageRefused (mk c) (whoOf (mk c) 0 0) 0x10000).isSome = true ∧ imageOf m 1 = some image1 ∧ (pre1 (some 0) 15 true).acks = 15 ∧
    { c with cancelled := true }.pre = some (pre1 none 0 false) ∧ (pre1 none 0 false).stopped = none ∧
    (pre1 none 0 false).acks ≠ 15 ∧ (∀ x ∈ stoppable m 0 0 3, x.num ≠ 0) := by decide +kernel

/-! #### The hive and the host -/

/-- Node 1: a launch of owner 0 with four units. -/
def launch1 : Node :=
  { live := true, level := 1, owner := 0, total := 4, st := .running, recVa := 0x8000, lpb := { dim0 := 4, dim1 := 1, dim2 := 1, cmask := 1 } }

/-- A package whose owner 0 has launch 1 at the head of its launch queue. -/
def hive (o : Nat) (records : List Record := []) (mem : List Host.Cell := []) : Mach :=
  { phase := .running, nodes := [(1, launch1)], owners := [(0, { weight := 1, deficit := 65536 })], wdrr := o, records := records, mem := mem,
    parts := [(0, { owner := some 0, recarea := some pva, root := 0x8000 })]
    queues := [(0, { declared := true, owner := 0, depth := 1, entries := [1] })], cores := [(0, memCore)] }

/-- As unitPlace sees it. -/
def seen (m : Mach) : Mach :=
  let m1 := readyRecords m
  { m1 with owners := m1.owners.map (fun e => (e.1, if (items m1 e.1).isEmpty then { e.2 with deficit := 0 } else e.2)) }

/-- UnitsArePlaced: a visit that places, one that does not with an owner to visit next and without one; no placement. -/
theorem witness_placement :
    (visitItem (seen (hive 0)) 0).map (·.1) = some (.fresh 1) ∧ (visitItem (seen (hive 5)) 5).isNone = true ∧
    nextOwner (seen (hive 5)) 5 = some 0 ∧ (visitItem (seen (mk {})) 0).isNone = true ∧ nextOwner (seen (mk {})) 0 = none ∧
    (serve (hive 0)).2.map (·.1) = some (.fresh 1) ∧ (serve (hive 5)).2.map (·.1) = some (.fresh 1) ∧ (serve (mk {})).2.isNone = true ∧
    { hive 0 with noPlace := true }.noPlace = true ∧ (hive 0).noPlace = false ∧ (hive 0).phase = .running := by decide +kernel

/-- A ready record of launch 1 in the pool of core 0, and its bytes. -/
def recBytes : Nat := recordBytes 12 7 1 0 0 0 0 0 0 0 9 1 0
def record1 (va : Word) : Record :=
  { id := 1, va := va, part := 0, launch := 1, ready := some 0, home := 0, homeCtx := 0, portable := true, withheld := false, slot := 0,
    image := none, frame := none, unit := unit1, bytes := recBytes }

/-- UnitsArePlaced: records to take up: whole, damaged, unreadable; one beside a launch of its own priority. -/
theorem witness_records :
    let m := hive 0 [record1 pva] (writeNat [] ppa 64 (2 ^ 64 - 1) recBytes)
    let w : Who := { core := 0, part := 0, owner := 0 }
    (serve m).2.map (·.1) = some (.resumed (record1 pva)) ∧ (match readVa m w pva 64 with
      | .ok x => recordBad m 1 x || x != (record1 pva).bytes
      | .error _ => true) = false ∧ (getNode m 1).lpb.prio ≤ itemPrio m (.resumed (record1 pva)) ∧ (1 : Nat) < 2 ∧
    (match readVa (hive 0 [record1 pva]) w pva 64 with
      | .ok x => recordBad m 1 x
      | .error _ => false) = true ∧
    (match readVa (hive 0 [record1 0x10000]) w 0x10000 64 with
      | .ok _ => false
      | .error _ => true) = true ∧ (serve (hive 0 [record1 0x10000])).2.map (·.1) = some (.resumed (record1 0x10000)) := by decide +kernel

/-- UnitsEnd: a context that ends, quiet and with commands open; one suspended; a node that is done and one that is not. -/
theorem witness_unit_end :
    let c : Ctx := { regs [] with st := .waiting, wait := some .ending, ending := some (.failed 0x1A), unit := some unit1 }
    let z : Ctx := { c with wait := some .susp, ending := none, susp := some ⟨0, 0, 0, 0, 0, 0⟩ }
    (getCtx (mk c) 0 0).st = .waiting ∧ ctxQuiet (mk c) 0 0 (mk c).tag = true ∧ ctxCmds (getCore (mk c) 0) 0 = false ∧
    ctxCmds (getCore (mk c { cmds := [(0, [copyCmd])] }) 0) 0 = true ∧
    (let b : Mach := { mk c with tag := 2, agents := [(0, { pend := [act .st] })] }
     ctxQuiet b 0 0 b.tag = false) ∧ { unit1 with orphans := [(0, 40)] }.orphans = [(0, 40)] ∧ unit1.orphans = [] ∧
    suspQuiet (mk z) 0 0 (mk z).tag = true ∧
    (let b : Mach := { mk z with tag := 2, agents := [(0, { pend := [act .st] })] }
     let f : Mach := { mk z with tag := 2, agents := [(0, { iq := [act (.fence 31 31 0)] })] }
     suspQuiet b 0 0 b.tag = false ∧ suspQuiet f 0 0 f.tag = true) ∧
    (let k : Core := { cmds := [(0, [{ copyCmd with ctx := 40 }])], alloc := [(0, { used := true, freeing := true, base := 0x200000, nblk := 64, life := 1, exp := 1, ctx := 0 })] }
     ∃ a ∈ (getCore (mk c k) 0).alloc, a.2.ctx = 0 ∧ a.2.freeing = true ∧ namedByCmd (mk c k) 0 a.2.base (allocSpan a.2.nblk) = true) ∧
    restOpen (mk c) 0 0 = false ∧ restOpen { mk c with restDue := [(0, 0, copyCmd)] } 0 0 = true ∧
    orphanDone (mk c) (0, 40) = true ∧ orphanDone (mk c { cmds := [(0, [{ copyCmd with ctx := 40 }])] }) (0, 40) = false ∧ z.wait = some .susp ∧ z.unit = some unit1 ∧
    nodeTerminal launch1 = false ∧ launch1.ended < launch1.total ∧ { launch1 with ended := 4 }.total ≤ { launch1 with ended := 4 }.ended ∧
    launch1.live = true ∧ launch1.parent = none := by decide +kernel

/-- A graph with two nodes, its table in the pool of core 0; node 1 needs node 0. -/
def graph1 (considered skipped : BitVec 32) : GraphInfo :=
  { ntab := pva, nn := 2, considered := considered, skipped := skipped, nodes := [(0, 3)] }

/-- A package with a job (node 1) in its phase (node 2) and a graph (node 4), whose first launch is node 3. -/
def jobMach (g : GraphInfo) (phase first : NodeSt) : Mach :=
  let j : JobInfo := { jrec := pva, phrec := pva, res := pva, ng := 1, maxph := 4, gtab := pva, phases := 1, cur := some 2 }
  { phase := .running, mem := writeNat [] (ppa + 32) 32 0xFFFFFFFF (pva.toNat + 0x1000 + 256 ^ 8), parts := [(0, { owner := some 0 })], cores := [(0, memCore)]
    nodes := [(1, { live := true, level := 4, job := some j }), (2, { live := true, level := 3, st := phase, parent := some 1 }),
      (3, { live := true, level := 1, st := first }), (4, { live := true, level := 2, graph := some g })] }

/-- GraphsAndUsage: a phase that has ended and one that has not; a node that was considered, that waits, whose
predecessor failed, and that may be submitted. -/
theorem witness_graphs :
    let ends (m : Mach) (g : GraphInfo) := ((List.range 1).filter (fun i =>
      entry32 m (whoOwner m 0) (nodeEntryVa g 1) / 256 ^ 8 / 2 ^ i % 2 == 1)).map (graphNodeDone m g)
    let m := jobMach (graph1 1 0) .done .done
    (getNode m 1).job.map (·.cur) = some (some 2) ∧ nodeTerminal (getNode m 2) = true ∧ (getNode m 1).live = true ∧
    nodeTerminal (getNode m 1) = false ∧ nodeTerminal (getNode (jobMach (graph1 1 0) .running .done) 2) = false ∧
    (getNode m 4).graph = some (graph1 1 0) ∧ nodeTerminal (getNode m 4) = false ∧ (graph1 3 0).considered.getLsbD 1 = true ∧
    ends m (graph1 1 0) = [some true] ∧ (graph1 1 0).considered.getLsbD 1 = false ∧
    ends (jobMach (graph1 1 0) .done .running) (graph1 1 0) = [none] ∧
    ends (jobMach (graph1 1 0) .done .failed) (graph1 1 0) = [some false] ∧
    condHolds [] (entry32 m (whoOwner m 0) (nodeEntryVa (graph1 1 0) 1) / 256 ^ 16 % 2 ^ 64) = true ∧
    condHolds [5] (2 ^ 4 + 5 * 2 ^ 32) = true ∧ condHolds [5] (2 ^ 5 + 5 * 2 ^ 32) = false ∧
    (∀ k < 8, 16 * k / 16 % 8 = k) ∧
    smWf {} ([] : SMap Owner) = true := by decide +kernel

/-- The bytes of an LPB with one unit for queue 0, its record in a mapped page. -/
def lpb1 : Nat := (1 + 2 ^ 32 + 2 ^ 64) * 256 ^ 16 + 0x8000 * 256 ^ 64

/-- GraphsAndUsage, HostRings: the launch of an LPB in the pool of core 0 of owner 0. -/
theorem witness_submit :
    let m := { hive 0 [] (writeNat tables ppa 128 (2 ^ 128 - 1) lpb1) with queues := [(0, { declared := true, owner := 0, depth := 1 })] }
    (match (submitLaunch m (whoOwner m 0) pva none false []).2 with
     | .id _ => 1
     | .refused _ => 0) = 1 ∧
    (match (submitLaunch (hive 0) (whoOwner (hive 0) 0) 0x10000 none false []).2 with
     | .id _ => 1
     | .refused _ => 0) = 0 := by decide +kernel

/-- LendingAndRecall: the owner of a partition and another; lending that may happen and that may not; a handler before
and at its end; a cluster that is empty and one that is not. -/
theorem witness_lending :
    let m : Mach := { mk (runs { arr := true }) with parts := [(0, { owner := some 0 }), (1, { owner := some 0, recallAt := some 0, lent := true })], vfs := [(1, { owner := some 0 })] }
    (getVf m 1).owner = some 0 ∧ (getPart m 0).owner = some 0 ∧ (getPart m 2).owner ≠ some 0 ∧ (getPart m 0).recallAt = none ∧
    runsUnitOf m 1 0 = false ∧ runsUnitOf m 0 0 = true ∧ (getPart m 1).lent = true ∧ (getPart m 0).lent = false ∧
    (runs { arr := true }).arr = true ∧ ctxEnded (runs { arr := true }) = false ∧
    m.cycle < 0 + (2500 * (getPart m 1).recallTmo - 18192) ∧
    0 + (2500 * (getPart m 1).recallTmo - 18192) ≤ { m with cycle := 2481808 }.cycle ∧ coreIdle (getCore m 18) = true ∧
    coreIdle (getCore m 0) = false ∧ borrowed (setCore m 0 { hset := some ⟨0, 0, 0, 0, 0, 5⟩ }) 0 = true ∧
    borrowed (setCore m 0 { hset := some ⟨0, 0, 0, 0, 0, 0⟩ }) 0 = false ∧ borrowed m 0 = false ∧
    (let left : Mach := { m with agents := [(orphanAgent 18 40, { iq := [act (.cmd 0 0 0 none 0 0)] })] }
     agentIsOrphan (orphanAgent 18 40) = true ∧ agentCore (orphanAgent 18 40) = 18 ∧ m.agents = [] ∧
     ¬(∀ g ∈ left.agents, agentIsOrphan g.1 = true → agentCore g.1 = 18 → ∀ a ∈ g.2.iq, isCmd a.kind = false)) ∧
    (∀ x ∈ m.restDue, x.1 ≠ 18) ∧ ¬(∀ x ∈ { m with restDue := [(18, 0, copyCmd)] }.restDue, x.1 ≠ 18) := by decide +kernel

/-- A package with one bound virtual function whose ring 0 stands in the pool of core 0 and holds `n` entries. -/
def ringMach (n : Nat) (entry : Nat) : Mach :=
  { hive 0 [] (writeNat [] ppa 32 0xFFFFFFFF entry) with vfs := [(1, { owner := some 0, rings := [(0, { base := pva, size := 4, tail := n })] })] }

/-- HostRings: values of TAIL at the ends of its range and beyond; an empty ring and one that is not; an unbound function. -/
theorem witness_ring_registers :
    let r := getRing (ringMach 1 0) 1 0
    let held (t : Nat) : Nat := (t + 2 ^ r.size - r.head % 2 ^ r.size) % 2 ^ r.size
    (getVf (ringMach 1 0) 1).owner = some 0 ∧ 4 ≤ r.size ∧ r.size ≤ 16 ∧ 15 < 2 ^ r.size ∧ held r.tail ≤ held 15 ∧ 2 ^ r.size ≤ 16 ∧
    held 0 < held r.tail ∧ (getRing (ringMach 0 0) 1 0).head = (getRing (ringMach 0 0) 1 0).tail ∧ r.head ≠ r.tail ∧
    (getVf (ringMach 1 0) 2).owner = none ∧ (193 : Nat) ≤ 193 ∧ (mk {}).phase = .running ∧ State.reset.m.phase ≠ .running ∧
    ¬(4 ≤ (getRing (mk {}) 1 0).size) := by decide +kernel

/-- HostRings: entries of each kind that can be read, and one that can not. -/
theorem witness_ring_entries : (∀ x ∈ [1 + pva.toNat * 2 ^ 64, 2 + pva.toNat * 2 ^ 64, 3 + 9 * 65536 + 5 * 2 ^ 64, 4 + 9 * 65536, 4 + 9 * 65536 + 5 * 2 ^ 64,
      5 + 17 * 256 + 3 * 2 ^ 64 + pva.toNat * 2 ^ 128, 6 + 1 * 256 + pva.toNat * 2 ^ 64, 0, 7],
      pending (getRing (ringMach 1 x) 1 0) ≠ 0 ∧ (match readVa (ringMach 1 x) (whoOwner (ringMach 1 x) 0) pva 32 with
        | .ok y => y == x
        | .error _ => false) = true) ∧
    (match readVa (ringMach 1 0) (whoOwner (ringMach 1 0) 0) 0x10000 32 with
     | .ok _ => 1
     | .error _ => 0) = 0 ∧
    nodesAt (ringMach 1 0) 0 0x8000 = [1] ∧ nodesAt (ringMach 1 0) 0 0x10000 = [] ∧ (getNode (ringMach 1 0) 1).level = 1 ∧
    (getNode (ringMach 1 0) 1).job = none ∧ nodesAt (jobMach (graph1 0 0) .done .done) 0 0 ≠ [] ∧
    nodeTerminal (getNode (ringMach 1 0) 1) = false ∧ nodeTerminal { launch1 with st := .done } = true ∧
    pendingNode (jobMach (graph1 0 0) .done .done) 0 0 = some (4, 1) ∧
    pendingNode (ringMach 1 0) 0 0x8000 = none := by decide +kernel

/-- HostRings: POST to a job; a job descriptor that is taken and one that is not; PUSH and CLOSE of a queue that is the
owner's, open and full. -/
theorem witness_jobs :
    let good := 0x8000 + 0x8040 * 256 ^ 8 + 0x8080 * 256 ^ 16 + 256 ^ 24 + 4 * 256 ^ 28 + 0x9000 * 256 ^ 32
    let m := hive 0 [] (writeNat tables 0x19000 32 0xFFFFFFFF (0x9100 + 0x8040 * 2 ^ 64 + 2 ^ 192))
    let j : Node := { live := true, job := some ⟨0x8000, 0x8040, 0x8080, 1, 4, 0x9000, 0, none⟩ }
    let posts (m : Mach) : Bool := postHeld { m with nodes := [(1, j)] } 1 15
    let q (es : List Word) : Mach := { m with queues := [(9, { declared := true, owner := 0, work := true, depth := 1, entries := es })] }
    (nodesAt { m with nodes := [(1, { live := true, recVa := pva, job := some ⟨pva, pva, pva, 1, 1, pva, 0, none⟩ })] } 0 pva).find?
      (fun n => n == 1) = some 1 ∧ jobBad m (whoOwner m 0) 0x8100 0 = true ∧ jobBad m (whoOwner m 0) 0x8100 good = false ∧
    posts m = false ∧ posts { m with mem := writeNat tables 0x13000 1 1 0x9F } = true ∧
    (getQueue (q []) 9).work = true ∧ (getQueue (q []) 9).owner = 0 ∧ (getQueue (q []) 9).closed = false ∧
    (getQueue (q []) 9).entries.length < (getQueue (q []) 9).depth ∧ ¬(getQueue (q [1]) 9).entries.length < (getQueue (q [1]) 9).depth ∧
    (getQueue (q []) 10).declared = false := by decide +kernel

/-- DebugInterface: a core of the owner and one of another; posted ends now and at a number; a held frame that can be
read and one that can not, a parked record, a frame that no one has; a partition of the owner and of another. -/
theorem witness_debug :
    let held : Ctx := { regs [] with hold := some ⟨pva, 0x40, false, false, none, true⟩ }
    let parked : Record := { record1 pva with ready := none, frame := some pva }
    let m : Mach := { mk held memCore with parts := [(0, { owner := some 0 })], vfs := [(1, { owner := some 0 })] }
    let p : Mach := { mk (runs) with records := [parked], parts := [(0, { owner := some 0 })] }
    (getVf m 1).owner = some 0 ∧ coreOfOwner m 0 0 = true ∧ coreOfOwner m 18 0 = false ∧ (0x10 : Word).getLsbD 4 = true ∧
    (0x20 : Word).getLsbD 5 = true ∧ (getCtx p 0 0).unit.isSome = true ∧ pclassOf (getCtx p 0 0) = 0 ∧
    holders m 0 pva = [(0, 0)] ∧ held.pre = none ∧ (match releaseFrame m hostAgent { whoOf m 0 0 with owner := 0 } 0 0 pva (afterEpc 0 0) with
      | .ok _ => true
      | .error _ => false) = true ∧
    (match releaseFrame m hostAgent { whoOf m 0 0 with owner := 0 } 0 0 0x30000 (afterEpc 0 0) with
      | .ok _ => true
      | .error _ => false) = false ∧
    holders p 0 pva = [] ∧ p.records.find? (fun r => r.frame == some pva && r.unit.owner == 0 && r.ready.isNone) = some parked ∧
    (∀ r ∈ m.records, r.frame ≠ some pva) ∧ 1 ≤ pclassOf (runs {} { unit1 with pclass := 1 }) ∧ holders p 0 0x10000 = [] ∧ (getPart m 0).owner = some 0 ∧ (getPart m 1).owner ≠ some 0 ∧
    (0x200 : Word).getLsbD 9 = true ∧ (0 : Word).getLsbD 9 = false ∧
    (let w : Record := { parked with withheld := true }
     w.withheld = true ∧ w.unit.owner = 0 ∧ imageOf { p with records := [w], images := [(1, image1)] } w.id = some image1 ∧
     (∀ r ∈ p.records, r.id = 1 → r.withheld = false ∨ r.unit.owner ≠ 0)) := by decide +kernel

/-- HostRegisters: values at the ends of the ranges and just outside. -/
theorem witness_register_ranges : (1 : Nat) ≤ (1 : Word).toNat ∧ (0xFFFFFFFF : Word).toNat < 2 ^ 32 ∧
    ¬(0x100000000 : Word).toNat < 2 ^ 32 ∧ (255 : Word).toNat < 256 ∧ ¬(256 : Word).toNat < 256 ∧ 200 ≤ (200 : Word).toNat ∧
    (1000 : Word).toNat ≤ 1000 ∧ ¬200 ≤ (199 : Word).toNat ∧ ¬(1001 : Word).toNat ≤ 1000 ∧ (getPart (mk {}) 0).lent = false ∧
    (getPart { mk {} with parts := [(0, { lent := true })] } 0).lent = true ∧ (getPart { mk {} with parts := [(0, { recallAt := some 3 })] } 0).recallAt.isSome = true ∧
    (getPart (mk {}) 0).recallAt = none ∧ ¬(65 : Word).toNat ≤ 64 ∧ (3 : Word).toNat < 4 ∧ (getVf (ringMach 0 0) 1).owner = some 0 := by decide +kernel

/-- PartitionsChange: a root that is aligned and one that is not; a record area that fits and ones that do not; a
partition that is free, one that runs a unit, and one whose allocations are in use. -/
theorem witness_partitions :
    let m : Mach := { mk {} with parts := [(0, { owner := some 0 })] }
    let b : Mach := { mk (runs) memCore with parts := [(0, { owner := some 0 })] }
    (0x8000 : Word).toNat % 32768 = 0 ∧ (0x4000 : Word).toNat % 32768 ≠ 0 ∧ partBusy m 0 = false ∧
    ownerQueued m (getPart m 0).owner = false ∧ partBusy b 0 = true ∧ (0x10000 : Word).toNat % 65536 = 0 ∧
    ¬(0xE000000000000000 : Word).toNat < 14 * 2 ^ 60 ∧ (some (5 : Byte)).map (·.toNat) ≠ (getPart m 0).owner ∧
    (∀ c ∈ partCores 0, ∀ e ∈ (getCore m c).alloc, e.2.used = false) ∧
    ¬(∀ c ∈ partCores 0, ∀ e ∈ (getCore b c).alloc, e.2.used = false) ∧
    partBusy (setCore m 1152 { ctxs := [(0, { arr := true, st := .ready })] }) 0 = true := by decide +kernel

/-- HostMemory: an access inside its HDM range and one outside; a clean granule and an uncorrectable one; a frame that is
being moved. -/
theorem witness_host_memory :
    let m : Mach := { mk {} memCore with
      hdms := [(0, { base := 0x10000, size := 0x100, owner := 0 })], poisoned := [0x10010], parts := [(0, { owner := some 0 })] }
    let busy := setCore m 0 { memCore with port := [(0, act .st)] }
    let quiet (m : Mach) := (poolOf m ppa).all (fun c => (getCore m c).port.isEmpty)
    let g : Migration := { part := 0, va := 0, pte := 0, oldPa := 0x10000, newPa := 0x20000, size := 65536, stage := 1, nacks := [] }
    hostReaches m 0 0x100F0 16 = true ∧ hostReaches m 0 0x10100 16 = false ∧ granBad m 0x10000 = false ∧ granBad m 0x10010 = true ∧
    viewOf m hostAgent 0x10000 ≤ 0 ∧ 0 ≤ newestPos m 0x10000 ∧ frozenPa m 0x10000 8 = false ∧
    frozenPa { m with migration := some g } 0x1FFFF 1 = true ∧ (0x10008 : Nat) % 8 = 0 ∧ (0x10100 : Nat) < poolBase ∧ poolBase ≤ ppa ∧
    quiet m = true ∧ quiet busy = false ∧ hostReadsPool m 0 ppa 16 = true ∧ hostReadsPool m 1 ppa 16 = true ∧
    hostReadsPool m 0 (poolPa 0 0) 16 = false ∧ hostReadsPool m 0 (poolPa 18 0x200000) 16 = false := by decide +kernel

/-! #### Reset, guards of the part, the fabric -/

/-- ResetState: a die, a partition, a cluster and a core at the ends of their ranges. -/
theorem witness_dies : (4 : Nat) < 5 ∧ (63 : Nat) < 64 ∧ (1151 : Nat) < 1152 := by decide

/-- GuardsOfThePart: an alarm that stands and none; predictions on both sides of 10,000 hours, sent and not. -/
theorem witness_guards : (mk {}).phase = .running ∧ ({} : Trust).alarm = none ∧ (9999 : W32).toNat < 10000 ∧ 10000 ≤ (10000 : W32).toNat ∧
    smGet false ({} : Trust).wearSent 0 = false ∧ smGet false ({ wearSent := [(0, true)] } : Trust).wearSent 0 = true ∧
    (0x7FFFFFFFFF : Nat) < 0x8000000000 ∧ smWf {} ([] : SMap Gang) = true := by decide +kernel

/-- GuardsOfThePart: gangs before and after a member is down, with fill tables whose entries stand, whose mirror's package is
down, that are tried, and that are filled; links that are up and down, at their fifteenth failed replay of one flit, with a
flit in sequence and one out of it. -/
theorem witness_spares_and_links :
    let f (method src : Nat) (tried filled : Bool) : SpareFill := ⟨0x10000, 64, method, src, tried, filled⟩
    let g (fs : List SpareFill) : Gang := { live := true, coordinator := true, members := [3], hold := some 3, fills := fs }
    let m : Mach := { mk {} with
      gangs := [(1, { live := true, coordinator := true, members := [3] })], fillTable := [f 0 4 false false, f 0 3 false false]
      downPkgs := [5], links := [(0, { rxSeq := 7, asked := [7], rxFails := 15, resent := [7], txFails := 15 }), (1, { down := true }), (2, { rxSeq := 7 })] }
    let l := getLink m 0
    smWf {} m.gangs = true ∧ (∀ e ∈ m.gangs, e.2.hold = none ∧ e.2.alsoDown = []) ∧ m.fillTable ≠ [] ∧
    (let h : Mach := { m with gangs := [(1, { g [f 1 4 false true] with members := [3, 4] })], fillTable := [f 1 4 false false] }
     let k := getGang h 1
     smWf {} h.gangs = true ∧ k.live = true ∧ k.coordinator = true ∧ 4 ∈ k.members ∧ k.hold = some 3 ∧ 4 ∉ k.alsoDown ∧
     (∃ x ∈ h.fillTable, x.filled = false) ∧ ∀ x ∈ k.fills ++ h.fillTable, x.method ≠ 0) ∧
    (∀ x ∈ m.fillTable, x.filled = false ∧ x.tried = false) ∧ (g [f 0 4 false false]).fills[0]? = some (f 0 4 false false) ∧
    (g []).hold = some 3 ∧ (g [f 0 4 false false]).fills.length ≤ 1 ∧ (f 1 4 true false).tried = true ∧
    (∀ x ∈ (g [f 0 4 false true]).fills, x.filled = true) ∧ (∃ x ∈ (g [f 0 4 false false]).fills, x.filled = false) ∧
    (∀ x ∈ (g [f 0 4 false false, f 1 5 true false]).fills, x.filled = true ∨ x.tried = true ∨ x.method ≠ 0 ∨ x.src ∉ m.downPkgs) ∧
    linkOff m 0 = false ∧ linkOff m 1 = true ∧ linkOff { m with portsDown := [(2, true)] } 2 = true ∧ (7 : Nat) = l.rxSeq ∧
    l.rxSeq < 8 ∧ 6 < l.rxSeq ∧ l.rxSeq ∈ l.asked ∧ (getLink m 2).rxSeq ∉ (getLink m 2).asked ∧ linkOff m 2 = false ∧
    16 ≤ (if l.asked.contains 7 then l.rxFails + 1 else l.rxFails) ∧ (if l.asked.contains 8 then l.rxFails + 1 else l.rxFails) < 16 ∧
    16 ≤ (if l.resent.contains 7 then l.txFails + 1 else l.txFails) ∧ (if l.resent.contains 8 then l.txFails + 1 else l.txFails) < 16 := by
  decide +kernel

/-- ScanAndRetirement: a pass that is due and one that is not, with and without a core to scan, in turn and out of it; a core
being drained that is idle and one that is not; units that ran there before and after the pass began; a core, banks and
ports that are to retire and that are not. -/
theorem witness_scan :
    let m : Mach := { mk (runs {} { unit1 with pclass := 2 }) { scan := { draining := true } } with
      nowt := 40000, clusters := [(1, { scanStart := some 0 })], nodes := [(1, { launch1 with ran := [⟨0, 5, false⟩, ⟨0, 7, false⟩] })] }
    let k : Core := { retireDue := true, banksDue := [3], spareBanks := 1, scan := { draining := true, beganStep := 6 } }
    (getCluster m 1).scanStart = some 0 ∧ 0 + 40000 ≤ m.nowt ∧ m.nowt < 1 + 40000 ∧
    (∀ c ∈ clusterCores 1, (getCore m c).scan.draining = false) ∧ scanTarget m 1 = some 18 ∧ scanTurn m 1 = some 18 ∧
    scanTarget (setCore m 20 { scan := { due := true } }) 1 = some 20 ∧
    scanTarget { m with retired := (List.range 18).map (fun i => (18 + i, true)) } 1 = none ∧ holdsClass2 (getCore m 0) = true ∧
    holdsClass2 (getCore m 18) = false ∧ (getCore m 0).scan.draining = true ∧ coreIdle (getCore m 0) = false ∧ coreIdle k = true ∧
    k.scan.draining = true ∧ (getNode m 1).live = true ∧ (getNode m 1).level = 1 ∧ (getNode m 1).final = false ∧
    5 < k.scan.beganStep ∧ ranThere m 0 = [1] ∧ (record1 pva).home = 0 ∧ k.retireDue = true ∧ (getCore m 18).retireDue = false ∧
    (0 : Nat) < 1152 ∧ 3 ∈ k.banksDue ∧ 4 ∉ k.banksDue ∧ k.spareBanks < 2 ∧ 2 ≤ { k with spareBanks := 2 }.spareBanks ∧
    smGet false m.retired 18 = false ∧ ({} : Trust).retirements.contains (.port 3) = false ∧
    ({ retireDue := true } : Link).retireDue = true ∧ ({} : Link).retireDue = false ∧ ({} : Link).down = false ∧
    ({} : Link).buffer = [] ∧ ({ buffer := [5] } : Link).buffer ≠ [] := by decide +kernel

/-- GuardsOfThePart: errors of one core that reach the threshold of 16 and ones that do not. -/
theorem witness_errors :
    let young (ts : List Nat) : List Nat := 40000 :: ts.filter (fun t => (40000 : Nat) < t + 1350000000000)
    16 ≤ (young (List.replicate 15 0)).length ∧ (young (List.replicate 14 0)).length < 16 ∧ (young []).length < 10000 := by decide +kernel

/-- TrustRequests: how far the connection is on each side of each step; an index of each kind. -/
theorem witness_spdm : ({} : Trust).spdm < 1 ∧ 4 ≤ ({ spdm := 4 } : Trust).spdm ∧ ({ spdm := 3 } : Trust).spdm < 4 := by decide +kernel

/-- OnlyTheTrustDieRuns: an event while the part is in reset, submissions of the last virtual function among them. -/
theorem witness_in_reset : (∀ i ∈ [Instr.unitPlace, .tailWrite 192 15 0, .registerWrite (.vf 192 (0x10C + 32 * 15)) 0], isWord i = false) ∧
    State.reset.m.phase ≠ .running ∧ (1 : Nat) ≤ 192 ∧ (15 : Nat) < 16 ∧
    (nextOf (exec (.tailWrite 192 15 0) State.reset)).map (fun u => u.m.mailbox) = some [(1, 192)] ∧
    nextOf (exec .unitPlace State.reset) = some State.reset := by decide +kernel

/-- A request of package 2, core 5, to a place of this package. -/
def req (pa len : Nat) (kind : Nat := 1) : RemoteReq :=
  { src := 2, srcCore := 5, id := 9, pa := pa, len := len, data := List.replicate len 7, rbarf := 1, hnd := false, hidx := 1, tpart := 0, kind := kind, mirror := false }

/-- That request while it is being applied. -/
def landing (x : Msg) (left : Nat) (blk : Nat := 0) (cause : Nat := 0) : Landing :=
  { id := 7, msg := x, agent := 231077, left := left, blk := blk, cause := cause }

/-- RemoteRequests: a message that may be taken, one behind another of its source, one under way at each of its stages; a
frozen place; windows whose KIND reaches and does not. -/
theorem witness_remote_messages :
    let m : Mach := { mk {} memCore with mem := blockMem, agents := [(landAgent 7, { pend := [act .st] })] }
    let g : Migration := { part := 0, va := 0, pte := 0, oldPa := 0x10000, newPa := 0x20000, size := 65536, stage := 1, nacks := [] }
    let r := req 0x10000 128
    let x := Msg.store 0 r
    let with_ (l : Landing) : Mach := { m with landings := [l] }
    landingFor m x = none ∧ mayLand m x 2 = true ∧ mayLand (with_ (landing (.store 0 { r with id := 8 }) 4)) x 2 = false ∧
    landingFor (with_ (landing x 4)) x = some (landing x 4) ∧ (landing x 4).left ≠ 0 ∧ (landing x 0).left = 0 ∧
    (landing x 0).blk + 1 < (r.len + 63) / 64 ∧ (r.len + 63) / 64 ≤ (landing x 0 1).blk + 1 ∧ (landing x 0 0 0x11).cause ≠ 0 ∧
    landingFor m (.load 0 r) = none ∧ mayLand m (.load 0 r) 2 = true ∧ landingFor m (.direct 0 r 0 []) = none ∧
    mayLand m (.direct 0 r 0 []) 2 = true ∧ frozenPa m r.pa r.len = false ∧ frozenPa { m with migration := some g } r.pa r.len = true ∧
    kindRefuses r = false ∧ kindRefuses (req 0x7FFFFFFFC0 64) = false ∧ kindRefuses (req 0x7FFFFFFFC0 128) = true ∧
    kindRefuses (req ppa 64 2) = false ∧ kindRefuses (req ppa 64 1) = true ∧ kindRefuses (req 0x10000 64 2) = true ∧
    landingOf (with_ (landing x 4)) 7 = some (landing x 4) ∧ targetOf m 0x10000 ≠ .none ∧ targetOf m 0x8000000000 = .none ∧
    (poolOf m 0x10000).isSome = false ∧ (poolOf m ppa).isSome = true ∧ agentIsLanding (landAgent 7) = true ∧
    (getAgent m (landAgent 7)).pend[0]? = some (act .st) ∧ adderActs m (landAgent 7) = [] ∧ poolOf m ppa = some 0 ∧ r.rbarf ≠ 0 ∧
    granBad m 0x10000 = false ∧ granBad { m with poisoned := [0x10000] } 0x10000 = true ∧ (act .st).mask = 0xFFFF ∧
    { act .st with mask := 1 }.mask ≠ 0xFFFF := by decide +kernel

/-- RemoteRequests: direct reductions: a pool whose port is busy and one whose port is not; blocks that are refused for each
reason, and one that is not. -/
theorem witness_direct :
    let m : Mach := { mk {} memCore with mem := blockMem, poisoned := [0x20000] }
    let c (x : Except Nat Block) : Nat := match x with | .ok _ => 0 | .error n => n
    (getCore m 0).port = [] ∧ (getCore (setCore m 0 { memCore with port := [(0, act .st)] }) 0).port ≠ [] ∧
    allocCheck m 0 (poolOff ppa) 64 true = none ∧ (allocCheck m 0 (poolOff (poolPa 0 0)) 64 true).isSome = true ∧
    granBad m 0x20000 = true ∧ (∀ i < 4, granBad m (0x10000 + 16 * i) = false) ∧
    (let b := blockOf ((List.range 4).map (fun i => granNow m (0x10000 + 16 * i)))
     blkFault b = none ∧ blkFMT b = 0x50 ∧ blkSCL b = 0x78) ∧
    c (directBlock m 0x10000 0 []) = 0 ∧ c (directBlock m 0x10000 3 []) = 0x18 ∧ c (directBlock m 0x8000000000 0 []) = 0x09 := by decide +kernel

/-- A collective command of core 0 with one request out. -/
def outCmd (opt : BitVec 25) (again : Bool := false) : Cmd :=
  { copyCmd with kind := 3, opt := opt, started := true, reqs := [{ r := { req 0x40000 64 with id := 9 }, va := wva, pkg := 3, off := 0, sentAt := 0, again := again }] }

/-- AnswersToRequests: a request that is waited for and one that is not; a load's response that is to be written, in the pool, at
an address that is refused and on a page that is being moved; a group command and another; a request that was asked for
again and one that can be; a time-out and before it; no mirror and mirrors that are waited for. -/
theorem witness_answers :
    let m : Mach := { windowed (cmdMach 3 (outCmd 0)) with cycle := 2500000 }
    let q : Req := { r := { req 0x40000 64 with id := 9 }, va := wva, pkg := 3, off := 0, blkBytes := [64], sentAt := 0 }
    let data := List.replicate 64 (7 : Byte)
    let c : Cmd := { outCmd 0 with fetched := some data }
    let sent (again : Bool) : Core := { memCore with mirrorsOut := [(9, 0, act .st, again)] }
    (reqOwner m 0 9).map (fun e => (e.1, e.2.again)) = some (outCmd 0, false) ∧ (reqOwner m 0 10).isNone = true ∧
    (reqOwner (cmdMach 3 (outCmd 0 true)) 0 9).map (fun e => e.2.again) = some true ∧
    c.fetched = some data ∧ xlateNow m (engWho m 0 c) (c.a + BitVec.ofNat 64 (64 * c.next)) 64 accWrite = .ok (ppa + 0x1000) false false ∧
    targetOf m (ppa + 0x1000) = .pool 0 ∧ (match xlateNow m (engWho m 0 c) 0x10000 64 accWrite with
     | .fault _ _ => true
     | _ => false) = true ∧
    (let p := mapped m
     xlateNow { p with mem := writeNat p.mem 0x13000 1 1 0x9F } (engWho p 0 c) 0x10 64 accWrite = .moving) ∧
    optIsGroup (outCmd 0) = false ∧ optIsGroup { outCmd 0 with kind := 4 } = true ∧ q.replica = false ∧
    (match xlateNow m (engWho m 0 (outCmd 0)) wva 64 (remoteAcc (outCmd 0)) with
     | .remote p _ _ _ => p
     | _ => 0) = 3 ∧ (match xlateNow (cmdMach 3 (outCmd 0)) (engWho m 0 (outCmd 0)) wva 64 (remoteAcc (outCmd 0)) with
     | .fault _ _ => true
     | _ => false) = true ∧
    m.cycle < 1 + 2500000 ∧ 0 + 2500000 ≤ m.cycle ∧ (∀ x ∈ (getCore m 0).mirrorsOut, x.1 ≠ 9) ∧
    (∀ b ∈ [false, true], (sent b).mirrorsOut.find? (fun x => x.1 == 9) = some (9, 0, act .st, b)) := by decide +kernel

/-- AnswersToRequests: a mirrored store and a mirrored reduction, in the mirror window of its unit; no mirror window; an
earlier mirror of the same granule that is not answered. -/
theorem witness_mirror : ∀ k ∈ [ActKind.st, .radd 0],
    let a : Act := { act k with gran := 0x10000, mir := true, mirw := some 1 }
    let m : Mach := { windowed (mk {} { mirrors := [(0, a)] }) with number := 5 }
    let t := walkWindow m a.area 1
    (getCore m 0).mirrors = (0, a) :: [] ∧ engFrozen (getCore m 0) = false ∧
    engFrozen { freeze := true, ctxs := [(0, { hold := some ⟨pva, 1, true, false, none, true⟩ })] } = true ∧ a.mirw = some 1 ∧ (act k).mirw = none ∧ (getCore m 0).mirrorsOut = [] ∧
    (∃ x ∈ [((9 : Nat), (0 : Nat), a, false)], sameGran x.2.2.1 a = true) ∧ t.ok = true ∧ t.chk = false ∧
    winFlag t.raw 0 = true ∧ winInvalid t.raw = false ∧ winKind t.raw = 1 ∧ a.mbase ≤ 0x10000 ∧
    (a.gran = 0x10000 → 64 ≤ a.mbase + winSize t.raw) ∧ winFlag t.raw 2 = true ∧ winFlag t.raw 3 = true ∧ actLo a = 0 ∧ actLen a = 16 := by
  decide +kernel

/-- A package with one reduction group of two ranks: core 5 of package 0 and core 6 of package 1, time-out 10. -/
def groupMach (r : Round) (counts : SMap Nat) : Mach :=
  { mk {} memCore with parts := [(0, { owner := some 0, root := 0 })], rounds := [(0, r)], counts := counts, nowt := 10,
                           mem := writeNat (writeNat [] 0x20000 64 (2 ^ 64 - 1) (2 + pva.toNat * 256 ^ 8 + 10 * 256 ^ 16)) ppa 8 255 (5 + (6 + 65536) * 2 ^ 32) }

/-- A contribution of one of them. -/
def contribution (core n : Nat) (c : Bool) (f : Nat) : Contribution :=
  { part := 0, group := 0, src := core - 5, srcCore := core, id := 1, fmt := f, nblk := n, cmp := c, vals := [] }

/-- ReductionRounds: an entry of the group that is whole and one that is not, ranks of the group and a core that is none; the
round that comes next, one that has passed, one that has not come; a round that is full, one that has run out of time; a
term of a lower site; the places of a contribution and of a round, and a group whose table can not be read. -/
theorem witness_rounds :
    let e := groupEntry (groupMach {} []) 0 0
    let r : Round := { isOpen := true, round := 1, entry := e, began := 0, got := [(0, some (contribution 5 1 false 0x50))], order := [0], fmt := 0x50 }
    let m := groupMach r [(0, 1)]
    let z := groupMach {} []
    let x := contribution 6 1 false 0x50
    let far : Mach := { z with parts := [(0, { owner := some 0, winbase := 0xFFFFFFFE0000 })] }
    let key (y : Except Nat (Nat × BitVec 512)) : Option (Nat × Bool) := match y with | .ok p => some (p.1, p.2 == e) | .error _ => none
    entBad e = false ∧ entBad 0 = true ∧ entRefused z 0 e = false ∧ entRefused z 0 0 = true ∧ entNC e = 2 ∧ entNBLK e = 1 ∧
    mayLand z (.contrib 5 x) x.src = true ∧ key (contribPlace z x) = some (0, true) ∧ key (contribPlace m x) = some (0, true) ∧
    (match contribPlace far x with
     | .ok _ => false
     | .error _ => true) = true ∧
    rankOf (groupRanks m 0 e) x = some 1 ∧ rankOf (groupRanks m 0 e) { x with src := 5, srcCore := 0 } = none ∧
    rankOf (groupRanks m 0 e) { x with mask := 2 } = some 6 ∧ roundNumber m 0 = 1 ∧ roundNumber z 0 = 1 ∧
    rankCount (freshCounts m 0) 0 1 + 1 = 1 ∧ roundNumber m 0 < rankCount m 0 0 + 1 ∧
    rankCount m 0 1 + 1 < roundNumber (groupMach { round := 2 } []) 0 ∧ roundFull 0 (getRound m 0) = false ∧
    roundFull 0 { getRound m 0 with excl := 2 } = true ∧ (getRound m 0).began + entTMO e ≤ m.nowt ∧ m.nowt < 1 + entTMO e ∧
    (getRound m 0).cmp = false ∧ (getRound m 0).fmt = 0x50 ∧ (getRound z 0).isOpen = false ∧ siteRanks 0 e = [0, 1] ∧ 5 ∉ siteRanks 0 e ∧
    (match roundEntry m 0 with
     | .ok y => y == e
     | .error _ => false) = true ∧ (match roundEntry far 0 with
     | .ok _ => false
     | .error _ => true) = true ∧ (groupRanks m 0 e)[0]? = some (0, 5) ∧ (groupRanks m 0 e)[2]? = none ∧
    { m with downPkgs := [1] }.downPkgs.contains ((groupRanks m 0 e).getD 1 (0, 0)).1 = true ∧ 1 ∈ siteRanks 0 e ∧
    m.downPkgs.contains 1 = false ∧ x.mask = 0 ∧ rankCount z 0 1 < 1 ∧ r.isOpen = true ∧
    rankCount (freshCounts { m with rounds := [(0, { r with round := 3 })] } 0) 0 1 + 1 < 3 := by
  decide +kernel

/-- ReductionRounds: a result of one block at each of its stages: a place that is there, one that is refused, one on a page that
is being moved; a contributor's command that waits for it. -/
theorem witness_result :
    let r : RoundResult := { root := 0, round := 1, status := 0, mask := 3, raddr := pva, rrec := pva + 0x1000, hnd := true, hidx := 0, blocks := [0] }
    let l (n : Nat) : Landing := { id := 7, msg := .result 0 0 0 r, agent := combineAgent, blk := n }
    let c : Cmd := { outCmd 0 with kind := 4, a := 0 }
    let m := cmdMach 3 c
    let p := mapped m
    let place (m : Mach) (va : Word) : Option Nat := (combinePlace m 0 va 16 16).map (fun y => match y with | .ok pa => pa | .error _ => 0)
    (l 0).left = 0 ∧ (l 0).blk < r.blocks.length ∧ (l 1).blk = r.blocks.length ∧ r.blocks.length < (l 2).blk ∧ (l 0).cause = 0 ∧
    r.hnd = true ∧ place m (pva + 0x1000) = some (ppa + 0x1000) ∧ place m (pva + 1) = some 0 ∧
    place { p with mem := writeNat p.mem 0x13000 1 1 0x9F } 0x10 = none ∧ mayLand m (.result 0 0 0 r) 5 = true ∧
    landingFor { m with landings := [l 0] } (.result 0 0 0 r) = some (l 0) ∧
    mayLand { m with landings := [l 0] } (.result 0 0 0 { r with round := 2 }) 0 = false ∧
    (waitingGroup m 0 0).map (·.num) = some 1 ∧ (waitingGroup m 0 1).isNone = true := by decide +kernel

/-- GangLaunches: an LPB that a member takes and one that it does not; a gang that is live, at a member and at the
coordinator, before its COMMIT and after, in time and too late, with all members in and with one missing. -/
theorem witness_gangs :
    let m : Mach := { mk {} memCore with
      parts := [(0, { owner := some 0, root := 0x8000 })], mem := tables, queues := [(0, { declared := true, owner := 0, depth := 1 })] }
    let g : Gang := { live := true, coordinator := true, launch := 1, members := [3, 4], armed := [3], committed := [3], since := 0, limit := 10 }
    lpbBad m 0 lpb1 = false ∧ recAddrOk m (whoOwner m 0) (lpbOf lpb1).crec = true ∧ queueTakes (getQueue m (lpbOf lpb1).qid) 0 = true ∧
    queueTakes (getQueue (mk {}) 0) 0 = false ∧ natOfBytes ((List.range 128).map (fun i => BitVec.ofNat 8 (lpb1 / 256 ^ i))) = lpb1 ∧
    (getGang m (memberKey 2 1)).live = false ∧ g.live = true ∧ 3 ∈ g.members ∧ 5 ∉ g.members ∧ (∃ d ∈ g.members, d ∉ g.armed) ∧
    (∀ d ∈ g.members, d ∈ g.armed ∨ d = 4) ∧ (9 : Nat) < g.since + g.limit ∧ g.since + g.limit ≤ 10 ∧ 4 ∉ g.committed ∧ 3 ∈ g.committed := by
  decide +kernel

/-- GangLaunches: a package that is a member of one gang and the coordinator of another. -/
theorem witness_gang_cancels :
    let h : Mach := { mk {} with gangs := [(1, { live := true, coordinator := true, launch := 1, members := [3, 4] }),
      (memberKey 2 1, { live := true, src := 2, launch := 1 })] }
    (getGang h (memberKey 2 1)).live = true ∧ (getGang h (memberKey 3 1)).live = false ∧ (getGang h 1).live = true ∧
    (getGang h 1).coordinator = true ∧ 3 ∈ (getGang h 1).members ∧ 5 ∉ (getGang h 1).members ∧
    (getGang (cancelNode h 1) 1).live = true ∧ (getGang h 2).live = false ∧ 3 ∉ (getGang h 1).armed ∧ (getGang h 1).sentCommit = false ∧
    { getGang h 1 with sentCommit := true }.sentCommit = true ∧ (2 : Nat) ≠ h.number := by decide +kernel

/-! #### Fetch, decode, the whole machine -/

/-- The state that fetches x.add s4, s5, s6 next. -/
def fetchAdd : State := State.reset.withFetchWord 32 0x00088286

/-- StepRunsDecoded: every premise, for that state. -/
theorem witness_step :
    let s := fetchAdd
    let m0 : Mach := { s.m with fresh := s.m.fresh + 1, sched := [] }
    let m1 := modCtx (modCore m0 0 (fun k => landRowsDue k m0.cycle)) 0 0 (fun c =>
      { landDue c m0.cycle with st := .ready, retry := false })
    let w : FWord := ⟨0x00088286, 0, 2⟩
    let m2 := (fetchBundle m1 0 0).2.foldl (fun m t => metTr m 0 (some t)) m1
    let m3 : Mach := { m2 with iss := frameOf m2 0 0 w }
    let m4 := modCtx m3 0 0 (fun c => { c with pc := BitVec.ofNat 32 (nextPlace w.pkt w.pos).1, wpos := (nextPlace w.pkt w.pos).2 })
    s.m.phase = .running ∧ s.m.sched = .issue 0 :: [] ∧ (getCore s.m 0).zeroUntil = none ∧ (getCore s.m 0).turn ≤ s.m.cycle ∧
    selectCtx (getCore s.m 0) = some 0 ∧ (getCtx m1 0 0).landBy ≤ m1.cycle ∧ (getCtx m1 0 0).due = [] ∧ (getCtx m1 0 0).skipBp = true ∧
    (fetchBundle m1 0 0).1 = .ok [w] ∧ (match decodeNat w.raw with
      | .ok i => i == .xAdd h0 4 5 false 6
      | .error _ => false) = true ∧ (bundleFault (isControl 0) [w] (guardKnown m3 (getCtx m3 0 0))).isNone = true ∧
    privWaits (isControl 0) [w] (guardKnown m3 (getCtx m3 0 0)) = false ∧
    (getCtx m3 0 0).gapcnt.toNat ≤ 64 ∧ bundleStalls m3 (getCtx m3 0 0) [w] = false ∧
    (nextOf (exec (.xAdd h0 4 5 false 6) ⟨{ m4 with iss := { m4.iss with pkt := w.pkt, pos := w.pos, idx := 0 } }, s.trust⟩)).isSome = true := by
  decide +kernel

/-- StepRunsDecoded: the word at the PC stands at one granule of memory, newest and clean. -/
theorem witness_fetch :
    let m := fetchAdd.m
    let c := getCtx m 0 0
    (match (xlate m (whoOf m 0 0) (wordVa c c.pc.toNat c.wpos) 4 accFetch).1 with
     | .ok pa _ _ => pa
     | _ => 0) = fetchPa ∧ fetchPa % 16 ≤ 12 ∧ granBad m (fetchPa / 16 * 16) = false ∧
    keyDiffers m (pageKey m c.area (wordVa c c.pc.toNat c.wpos)) (fetchPa / 16 * 16) = false ∧
    newestPos m (fetchPa / 16 * 16) ≤ posAtStep m (fetchPa / 16 * 16) c.since ∧ readNat m.mem fetchPa 4 < 2 ^ 31 ∧ fetchPa < 2 ^ 39 := by decide +kernel

/-- StepRunsDecoded: a page whose leaf names the pool of core 0, from which a word may be read. -/
theorem witness_pool_fetch :
    let c : Ctx := { csb := 0x10000 }
    let m : Mach := mk c { memCore with tc := [{ fetchTr with raw := ppa / 65536 * 2 ^ 22 + 0x1F }] }
    (match (xlate m (whoOf m 0 0) (wordVa c 0 0) 4 accFetch).1 with
     | .ok pa _ _ => pa
     | _ => 0) = ppa ∧ targetOf m ppa = .pool 0 ∧ allocCheck m 0 (poolOff ppa) 4 true = none ∧ readNow m ppa 4 < 2 ^ 31 := by
  decide +kernel

/-- A word that stands by itself. -/
def fw (raw : Nat) : FWord := ⟨raw, 0, 0⟩

/-- BundleFaults: a word of a reserved pipe; nine words; two words of the L pipe, three of X, a K word in last place; an opcode
that no table has; a K word before x.nop; two words that write s4; a read-only state register. -/
theorem witness_bundles : 6 ≤ pipeOf (fw 0x60000000).raw ∧ (∀ w ∈ List.replicate 9 (fw 0), pipeOf w.raw < 6) ∧
    (List.replicate 9 (fw 0))[8]? = some (fw 0) ∧ pipeOf (fw 0x00088286).raw = 0 ∧ pipeOf (fw 0xD000061A).raw = 5 ∧
    (match decodeNat 0xD000061A with
     | .ok i => i == .kImm 0x61A
     | .error _ => false) = true ∧ acceptsK (fw 0).raw = false ∧ pipeOf (fw 0).raw < 5 ∧
    (let x := fw 0x00088286
     let y := fw 0x00108286
     bodyBad false [x, y] 0 x = false ∧ bodyBad false [x, y] 1 y = false ∧ (pipeOf x.raw = pipeOf y.raw → pipeOf x.raw = 0) ∧
     Dest.reg (.s 4) ∈ dests (.xAdd h0 4 5 false 6) ∧ (match decodeNat y.raw with
       | .ok i => (dests i).contains (.reg (.s 4))
       | .error _ => false) = true) ∧ pipeOf (fw 0x100104B2).raw = pipeOf (fw 0x100904B2).raw ∧ pipeOf (fw 0x100104B2).raw ∈ [1, 2, 3, 4] ∧
    (match decodeNat 0x00D80000 with
     | .ok _ => true
     | .error _ => false) = false ∧
    (match decodeNat 0x41410000 with
     | .ok i => i == .bWrst h0 4 0
     | .error _ => false) = true ∧ isStateRegister (0 : BitVec 10).toNat = true ∧ (0 : Nat) ∉ [0xA, 0x10, 0x11, 0x12, 0x13, 0x34, 0x41, 0x42] := by
  decide +kernel

/-- EncodeDecode: a word that decodes. -/
theorem witness_decodes : (0x00088286 : Nat) < 2 ^ 32 ∧ (match decodeNat 0x00088286 with
    | .ok i => i == .xAdd h0 4 5 false 6
    | .error _ => false) = true := by decide +kernel

/-- MemoryKeepsItsForm, VWordFrame, WordsLeaveMemory: a state in the canonical form whose step answers a next state. -/
theorem witness_memory_form : memWf fetchAdd.m.mem = true ∧ (nextOf (step fetchAdd)).isSome = true := by decide +kernel

/-- WordsLeaveMemory: a store word that issues without a trap. -/
theorem witness_word_leaves : isWord (.lSt h0 2 1 3 0) = true ∧
    (nextOf (exec (.lSt h0 2 1 3 0) (st (lm 0x10000)))).map (fun u => u.m.iss.trapped) = some false := by decide +kernel

/-! ### Single words, with results that the spec states -/

/-- The value on its way to a register when a word has been issued in a state. -/
def resultOf (i : Instr) (m : Mach) : Option Nat :=
  (nextOf (exec i (st m))).bind (fun u => (getCtx u.m 0 0).flight.head?.map (fun f => f.v.val.toNat))

/-- Scalars 1 and 2 hold two numbers. -/
def two (a b : Int) : Mach := mk (regs [BitVec.ofInt 64 a, BitVec.ofInt 64 b])

/-- A result as a signed number. -/
def signed (o : Option Nat) : Option Int := o.map (fun n => (BitVec.ofNat 64 n).toInt)

/-- spec/23 Table 23-4. -/
theorem test_x_div : ∀ e ∈ [(7, 2, 3), (-7, 2, -3), (7, -2, -3), (-7, -2, 3), (-2 ^ 63, -1, -2 ^ 63)],
    signed (resultOf (.xDiv h0 4 1 false 2) (two e.1 e.2.1)) = some (e.2.2 : Int) := by decide +kernel

/-- spec/23 Table 23-4. -/
theorem test_x_rem : ∀ e ∈ [(7, 2, 1), (-7, 2, -1), (7, -2, 1), (-7, -2, -1), (-2 ^ 63, -1, 0)],
    signed (resultOf (.xRem h0 4 1 false 2) (two e.1 e.2.1)) = some (e.2.2 : Int) := by decide +kernel

/-- spec/23 R390: A = 0x8000_0000_0000_0000 and B = 3. -/
theorem test_x_mulh : signed (resultOf (.xMulh h0 4 1 false 2) (two (-2 ^ 63) 3)) = some (-2) ∧
    resultOf (.xMul h0 4 1 false 2) (two (-2 ^ 63) 3) = some 0x8000000000000000 := by decide +kernel

/-- spec/23 R398: −7 by 1 gives −4; a register count of 64 shifts by 0. -/
theorem test_x_sar : signed (resultOf (.xSar h0 4 1 true 1) (two (-7) 0)) = some (-4) ∧
    signed (resultOf (.xSar h0 4 1 false 2) (two (-7) 64)) = some (-7) := by decide +kernel

/-- spec/23 R399. -/
theorem test_x_sext : resultOf (.xSext h0 4 1 true 7) (two 0xF6 0) = some 0xFFFFFFFFFFFFFFF6 := by decide +kernel

/-- spec/23 R381. -/
theorem test_x_clz : resultOf (.xClz h0 4 1) (two 0x10000 0) = some 47 ∧ resultOf (.xClz h0 4 1) (two 0 0) = some 64 := by
  decide +kernel

/-- spec/23 R379, R392: with immediates, x.and s4, s5, −16. -/
theorem test_x_and : resultOf (.xAnd h0 4 1 true (BitVec.ofInt 6 (-16))) (two 0x123456789ABCDEF 0) = some 0x123456789ABCDE0 := by
  decide +kernel

/-- spec/23 R384. -/
theorem test_x_fadd : resultOf (.xFadd h0 4 1 2) (two 0x4B800000 0x3F800000) = some 0x4B800000 := by decide +kernel

/-- spec/23 R387: a subnormal product, formed in hardware; 0 × ∞ gives the canonical NaN (R377). -/
theorem test_x_fmul : resultOf (.xFmul h0 4 1 2) (two 0x1C800000 0x1C800000) = some 0x200 ∧
    resultOf (.xFmul h0 4 1 2) (two 0 0x7F800000) = some 0x7FC00000 := by decide +kernel

/-- spec/23 R386. -/
theorem test_x_fmax : resultOf (.xFmax h0 4 1 2) (two 0x80000000 0) = some 0 := by decide +kernel

/-- spec/23 R385, its examples of kinds 1, 2 and 4. -/
theorem test_x_fcvt : ∀ e ∈ [((1 : Nat), (0x40200000 : Int), (2 : Int)), (1, 0xC0600000, -4), (2, 0xC0600000, -3), (4, 0x3F808000, 0x3F80),
    (4, 0x3F818000, 0x3F82), (4, 0x7F800001, 0x7FC0), (1, 0x5F000000, 2 ^ 63 - 1)],
    signed (resultOf (.xFcvt h0 4 1 (BitVec.ofNat 6 e.1)) (two e.2.1 0)) = some e.2.2 := by decide +kernel

/-- spec/23 R383, spec/17 Table 17-1: x.div by zero, with no result; the default action kills the unit. -/
theorem test_x_div_zero : ((nextOf (exec (.xDiv h0 4 1 false 2) (st (two 7 0)))).map (fun u =>
    ((getCtx u.m 0 0).ending, (getCtx u.m 0 0).flight))) = some (some (.failed 0x1C), []) := by decide +kernel

/-- spec/04 R66: a false guard does nothing. -/
theorem test_guard : (nextOf (exec (.xAdd ⟨false, 2⟩ 4 1 false 2) (st (two 7 0)))) = some (st (two 7 0)) := by decide +kernel

/-- spec/04 R76: b.loop of 5 passes, body 2, from packet 10: LC, LSTART, LEND. -/
theorem test_b_loop :
    let m : Mach := { mk (regs [5]) with iss := { snap := regs [5], afterPkt := 11 } }
    (nextOf (exec (.bLoop h0 1 2 1 2) (st m))).map (fun u =>
      ((getCtx u.m 0 0).lc.toNat, (getCtx u.m 0 0).lstart.toNat, (getCtx u.m 0 0).lend.toNat, (getCtx u.m 0 0).pc.toNat)) =
      some (5, 11, 12, 11) := by decide +kernel

/-- spec/17 R249: b.trap raises its trap (0x40) after its bundle; b.brk 0x41. -/
theorem test_b_trap : (nextOf (exec (.bTrap h0 5) (st (mk (regs []))))).map (fun u => u.m.iss.post) = some [(0x40, 5)] := by
  decide +kernel

/-- spec/21 R328, spec/11 R185: a store waits in the issue queue, with its bytes in place; memory is as it was. -/
theorem test_l_st : (nextOf (exec (.lSt h0 2 1 1 1) (st (lm 0x10000 [0xABCD])))).map (fun u =>
    (((getAgent u.m 0).iq.map (fun a => (a.gran, a.mask.toNat, a.data.toNat))), u.m.mem)) =
    some ([(0x10000, 0xC, 0xABCD0000)], []) := by decide +kernel

/-- spec/21 R317: an l.cas that matches, applied at memory: 16 bytes of zeros become 5. -/
theorem test_atomic : (nextOf (exec (.atomicApply 0 0) (st (qm (.cas 0 16 0 5))))).map (fun u => (readNat u.m.mem 0x10000 16, u.m.step)) =
    some (5, 1) := by decide +kernel

/-- spec/11 R186: a store leaves, commits, and is read from memory. -/
theorem test_store_commits :
    let a : Act := { act .st with mask := 0xF, data := 0x01020304 }
    let m : Mach := { mk (regs []) with agents := [(0, { pend := [a] })] }
    (nextOf (exec (.pendingCommit 0 0) (st m))).map (fun u => ((readByte u.m.mem 0x10000).toNat, (readByte u.m.mem 0x10003).toNat, u.m.step)) =
      some (4, 1, 1) := by decide +kernel

/-- spec/01 R16, spec/19 R274: what bring-up leaves once all five dies have passed: the part runs, its memory is empty. -/
theorem test_brought_up : ((broughtUp State.reset.m State.reset.trust).phase, (broughtUp State.reset.m State.reset.trust).mem) = (.running, []) := by
  decide +kernel

/-- A step fetches, decodes and runs: x.add s4, s5, s6 of zeros; the PC goes on to the next packet. -/
theorem test_step : (nextOf (step fetchAdd)).map (fun u =>
    ((getCtx u.m 0 0).flight.map (fun f => f.dst), (getCtx u.m 0 0).pc.toNat, (getCtx u.m 0 0).wpos)) = some ([.s 4], 1, 0) := by
  decide +kernel

end Sys2Proof.Tests
end

section
/-!
PROOFS. What the decoder reads from a word of spec/opcode_table.json, what a control core refuses, and the statement
about m.nop (spec/21 R337).
-/

namespace Sys2Proof

/-! ### The word that its bytes spell -/

theorem length_bytesOfNat (n w : Nat) : (bytesOfNat n w).length = n := by
  induction n generalizing w with
  | zero => rfl
  | succ n ih => simp [bytesOfNat, ih]

/-- The sum of `wordOfBytes`, over any number of bytes. -/
theorem foldr_bytesOfNat (n w : Nat) :
    (bytesOfNat n w).foldr (fun b acc => b.toNat + 256 * acc) 0 = w % 256 ^ n := by
  induction n generalizing w with
  | zero => simp [bytesOfNat, Nat.mod_one]
  | succ n ih =>
    rw [bytesOfNat, List.foldr_cons, ih, BitVec.toNat_ofNat, pow_succ' 256 n]
    exact Nat.mod_mul.symm

theorem wordOfBytes_bytesOfNat (w : Nat) : wordOfBytes (bytesOfNat 4 w) = w % 2 ^ 32 := by
  rw [wordOfBytes, List.take_of_length_le (length_bytesOfNat 4 w).le, foldr_bytesOfNat]
  rfl

/-- Bits above the word are dropped; what is left is decoded as one number. -/
theorem decodeTableWord_eq (w : Nat) : decodeTableWord 32 w = (decodeNat (w % 2 ^ 32)).toOption := by
  unfold decodeTableWord decodeBytes
  rw [wordOfBytes_bytesOfNat, Nat.mod_mod]
  cases decodeNat (w % 2 ^ 32) <;> rfl

theorem decodeTableWord_of_encodeNat {i : Instr} {n : Nat} (hi : Laws.RoundTrip.Statement i) (he : encodeNat i = some n) :
    decodeTableWord 32 n = some i := by
  obtain ⟨hlt, hdec⟩ := hi n he
  rw [decodeTableWord_eq, Nat.mod_eq_of_lt (b := 2 ^ 32) hlt, hdec]
  rfl

/-- A field marked zero that is not zero refuses the word (Table 5-14). -/
theorem ifZero_nonzero {z : Nat} {i : Instr} (h : z ≠ 0) : ifZero z i = .error .zeroField := by simp [ifZero, h]

/-- spec/21 R337: the M words of op 0 with a non-zero body. -/
theorem decodeNat_mNop_nonzero_body {n : Nat} (hn : n < 2 ^ 21) (h0 : n ≠ 0) :
    decodeNat (0x30000000 + n) = .error .zeroField := by
  have hbody : bits (0x30000000 + n) 20 0 ≠ 0 := by
    show (0x30000000 + n) / 1 % 2097152 ≠ 0
    omega
  rw [Laws.RoundTrip.decodeNat_m (op := 0) (by omega) (by omega)]
  exact ifZero_nonzero hbody

end Sys2Proof

namespace Sys2Proof.Machine

/-- R66: a word whose action is empty leaves the state as it was under a true guard as under a false one. -/
theorem runWord_id (s : State) (h : Hd) : runWord s h (fun m => m) = .next s := by
  cases hg : guardTrue s.m h with
  | false => exact runWord_false _ hg
  | true => exact runWord_true _ hg

/-- spec/01 R9: a control core has no array, so check 3 fails every M word there, wherever it stands in its bundle. -/
theorem bodyBad_control_of_pipe_three (ws : List FWord) (k : Nat) {w : FWord} (hp : pipeOf w.raw = 3) :
    bodyBad true ws k w = true := by
  unfold bodyBad
  cases decodeNat w.raw with
  | error _ => rfl
  | ok i => simp [hp]

end Sys2Proof.Machine

open Sys2Proof Sys2Proof.Machine

/-- Settles O20: the encoding from the round trip of m.nop, the refused bodies from its zero field, the empty effect
under either guard, and the refusal on a control core from the word's pipe. -/
theorem matrixNop : Obligations.MatrixNop := by
  unfold Obligations.MatrixNop
  refine ⟨?encoding, ?refusedBodies, ?noEffect, ?controlCore⟩
  case encoding => exact decodeTableWord_of_encodeNat (Laws.RoundTrip.mNop ⟨false, 0⟩) rfl
  case refusedBodies =>
    intro n hn h0
    rw [decodeTableWord_eq, Nat.mod_eq_of_lt (by omega), decodeNat_mNop_nonzero_body hn h0]
    rfl
  case noEffect => exact fun s h => (exec_mNop h s).trans (runWord_id s h)
  case controlCore => exact fun ws k _ _ => bodyBad_control_of_pipe_three ws k (show pipeOf 0x30000000 = 3 by decide)

end

section
/-!
PROOFS. The X words of two integer operands, the shifts, the counts and the predicate words (spec/23): what each
computes, as an integer or bit by bit.
-/

namespace Sys2Proof

/-! ### Sign extension -/

/-- `sext(x, n)` is the low `n` bits read as a signed number. -/
theorem sextInt_eq_toInt_ofNat (x n : Nat) : sextInt x n = (BitVec.ofNat n x).toInt := by
  have hmod : x % 2 ^ n < 2 ^ n := Nat.mod_lt _ (by positivity)
  rw [sextInt, BitVec.toInt_eq_toNat_cond, BitVec.toNat_ofNat]
  cases n with
  | zero => simp [Nat.mod_one]
  | succ n => rw [Nat.add_sub_cancel, pow_succ'] at *; split_ifs <;> omega

/-- The word of `sext` of a bit vector's own width is its sign extension. -/
theorem wordOfInt_sextInt_toNat {w : Nat} (x : BitVec w) : wordOfInt (sextInt x.toNat w) = x.signExtend 64 := by
  rw [sextInt_eq_toInt_ofNat, BitVec.ofNat_toNat, BitVec.setWidth_eq]
  rfl

/-- Each bit of `sext(x, c + 1)` is the bit of `x` at its place, and above `c` the bit at `c` (spec/23 R399). -/
theorem getLsbD_wordOfInt_sextInt (x : Word) (c : Nat) {i : Nat} (hi : i < 64) :
    (wordOfInt (sextInt x.toNat (c + 1))).getLsbD i = x.getLsbD (min i c) := by
  have hword : wordOfInt (sextInt x.toNat (c + 1)) = (x.setWidth (c + 1)).signExtend 64 := by
    rw [sextInt_eq_toInt_ofNat, BitVec.ofNat_toNat]
    rfl
  rw [hword, BitVec.getLsbD_signExtend, decide_eq_true hi, Bool.true_and]
  split
  · next hlow =>
    rw [BitVec.getLsbD_setWidth, decide_eq_true hlow, Bool.true_and, Nat.min_eq_left (Nat.le_of_lt_succ hlow)]
  · next hhigh =>
    rw [BitVec.msb_setWidth, Nat.min_eq_right (by omega)]
    simp

/-! ### The zero fields of the words that have them -/

/-- spec/23 R381, R394: x.clz and x.pcnt have no I bit and no second register. -/
theorem decodeTableWord_count_nonzero_low {w n : Nat} (hw : w = 0x00788280 ∨ w = 0x00808280)
    (h0 : 0 < n) (hn : n < 128) : decodeTableWord 32 (w + n) = none := by
  have hlow : bits (w + n) 6 0 ≠ 0 := by
    show (w + n) / 1 % 128 ≠ 0
    omega
  rw [decodeTableWord_eq, Nat.mod_eq_of_lt (by omega)]
  rcases hw with rfl | rfl
  · rw [Laws.RoundTrip.decodeNat_x (op := 15) (by omega) (by omega)]
    exact congrArg Except.toOption (ifZero_nonzero hlow)
  · rw [Laws.RoundTrip.decodeNat_x (op := 16) (by omega) (by omega)]
    exact congrArg Except.toOption (ifZero_nonzero hlow)

/-- Table 5-4: a predicate word with a bit set in one of its three zero fields. -/
theorem decodeX_predicate_nonzero {n op : Nat} (hop : op ∈ [19, 20, 21])
    (hz : bits n 1 0 + bits n 9 6 + bits n 14 13 ≠ 0) : decodeX n op = .error .zeroField := by
  simp only [List.mem_cons, List.not_mem_nil, or_false] at hop
  rcases hop with rfl | rfl | rfl <;> exact ifZero_nonzero hz

theorem decodeTableWord_predicate_nonzero {n : Nat} (hn : n < 2 ^ 32) (hp : n / 268435456 % 8 = 0)
    (hop : n / 524288 % 64 ∈ [19, 20, 21]) (hz : bits n 1 0 + bits n 9 6 + bits n 14 13 ≠ 0) :
    decodeTableWord 32 n = none := by
  rw [decodeTableWord_eq, Nat.mod_eq_of_lt hn, Laws.RoundTrip.decodeNat_x hp rfl, decodeX_predicate_nonzero hop hz]
  rfl

end Sys2Proof

namespace Sys2Proof.Machine

/-! ### Operands and results -/

@[simp] theorem opBK_register (m : Mach) (b : BitVec 6) : opBK m false b = rdS m 1 b := rfl
@[simp] theorem opBZ_register (m : Mach) (b : BitVec 6) : opBZ m false b = rdS m 1 b := rfl
@[simp] theorem opBK_immediate (m : Mach) (b : BitVec 6) : opBK m true b = { val := immValue 6 b.toNat m.iss.ks } := rfl
@[simp] theorem opBZ_immediate (m : Mach) (b : BitVec 6) : opBZ m true b = { val := b.setWidth 64 } := rfl

/-- spec/05 R88: an immediate without a K word is its field, sign-extended. -/
theorem immValue_no_k (b : BitVec 6) : immValue 6 b.toNat [] = b.signExtend 64 := wordOfInt_sextInt_toNat b

/-- An X word with a scalar destination, a guard that holds and unpoisoned operands sends `v`, what it computes of
them, to `d`. -/
theorem runWord_xBin {s : State} {h : Hd} {lat : Nat} {d a : BitVec 6} {y : Mach → Scalar} {f : Word → Word → Word}
    {v : Word} (hg : guardTrue s.m h = true) (ha : (rdS s.m 0 a).pois = false) (hy : (y s.m).pois = false)
    (hv : f (rdS s.m 0 a).val (y s.m).val = v) :
    runWord s h (fun m => xBin m lat d a (y m) f) = .next { s with m := putS s.m lat d { val := v } } := by
  rw [runWord_true _ hg, xBin, xResult_clean _ _ _ f ha hy, hv]

/-! ### Arithmetic of two words -/

theorem word_sub_eq_ofInt (x y : Word) : x - y = BitVec.ofInt 64 (x.toInt - y.toInt) := by
  apply BitVec.eq_of_toInt_eq
  rw [BitVec.toInt_sub, BitVec.toInt_ofInt]

theorem word_mul_eq_ofInt (x y : Word) : x * y = BitVec.ofInt 64 (x.toInt * y.toInt) := by
  apply BitVec.eq_of_toInt_eq
  rw [BitVec.toInt_mul, BitVec.toInt_ofInt]

/-- The exact product of two words is between −2^127 and 2^127. -/
theorem word_product_bounds (x y : Word) : -2 ^ 127 ≤ x.toInt * y.toInt ∧ x.toInt * y.toInt < 2 ^ 127 := by
  have hx : |x.toInt| ≤ 2 ^ 63 := abs_le.2 ⟨x.le_toInt, x.toInt_lt.le⟩
  have hy : |y.toInt| ≤ 2 ^ 63 := abs_le.2 ⟨y.le_toInt, y.toInt_lt.le⟩
  have hxy : |x.toInt * y.toInt| ≤ 2 ^ 63 * 2 ^ 63 := by
    rw [abs_mul]
    exact mul_le_mul hx hy (abs_nonneg _) (by norm_num)
  obtain ⟨hlow, hhigh⟩ := abs_le.1 hxy
  constructor <;> omega

/-- spec/23 R390: the high word and the bits below it make up the exact product. -/
theorem product_eq_mulHigh (x y : Word) :
    x.toInt * y.toInt = (mulHigh x y).toInt * 2 ^ 64 + ((x.toInt * y.toInt % 2 ^ 64).toNat : Int) := by
  obtain ⟨hlow, hhigh⟩ := word_product_bounds x y
  have hfits : (mulHigh x y).toInt = x.toInt * y.toInt / 2 ^ 64 := by
    rw [mulHigh, wordOfInt, BitVec.toInt_ofInt]
    exact Int.bmod_eq_of_le (by omega) (by omega)
  rw [hfits]
  omega

theorem toInt_signed_min (x y : Word) : (if BitVec.slt y x then y else x).toInt = min x.toInt y.toInt := by
  simp only [BitVec.slt_eq_decide, decide_eq_true_eq]
  split <;> omega

theorem toInt_signed_max (x y : Word) : (if BitVec.slt x y then y else x).toInt = max x.toInt y.toInt := by
  simp only [BitVec.slt_eq_decide, decide_eq_true_eq]
  split <;> omega

/-! ### Shifts and counts -/

theorem word_shiftLeft_eq_ofNat (x : Word) (c : Nat) : x <<< c = BitVec.ofNat 64 (x.toNat * 2 ^ c) := by
  apply BitVec.eq_of_toNat_eq
  rw [BitVec.toNat_shiftLeft, BitVec.toNat_ofNat, Nat.shiftLeft_eq]

theorem word_ushiftRight_eq_ofNat (x : Word) (c : Nat) : x >>> c = BitVec.ofNat 64 (x.toNat / 2 ^ c) := by
  rw [← Nat.shiftRight_eq_div_pow, ← BitVec.toNat_ushiftRight, BitVec.ofNat_toNat, BitVec.setWidth_eq]

theorem word_sshiftRight_eq_ofInt (x : Word) (c : Nat) : x.sshiftRight c = BitVec.ofInt 64 (x.toInt / 2 ^ c) := by
  rw [BitVec.sshiftRight, Int.shiftRight_eq_div_pow]
  norm_cast

/-- spec/23 R381: the highest one bit stands below the zeros that x.clz counts. -/
theorem clz64_spec (x : Word) :
    clz64 x ≤ 64 ∧ x.toNat < 2 ^ (64 - clz64 x) ∧ (clz64 x < 64 → 2 ^ (63 - clz64 x) ≤ x.toNat) := by
  unfold clz64
  split
  · next hzero => simp [hzero]
  · next hpos =>
    have hlog : Nat.log2 x.toNat < 64 := (Nat.log2_lt hpos).2 x.isLt
    have htop : 64 - (63 - Nat.log2 x.toNat) = Nat.log2 x.toNat + 1 := by omega
    have hbelow : 63 - (63 - Nat.log2 x.toNat) = Nat.log2 x.toNat := by omega
    rw [htop, hbelow]
    exact ⟨by omega, Nat.lt_log2_self, fun _ => Nat.log2_self_le hpos⟩

/-- spec/23 R394: the sum of `popCount` is the number of places with a one bit. -/
theorem popCount_eq_countP (x n : Nat) : popCount x n = (List.range n).countP (fun i => x.testBit i) := by
  induction n generalizing x with
  | zero => rfl
  | succ n ih =>
    have hshift : (fun i => x.testBit i) ∘ Nat.succ = fun i => (x / 2).testBit i :=
      funext fun i => Nat.testBit_succ x i
    rw [popCount, ih, List.range_succ_eq_map, List.countP_cons, List.countP_map, hshift, Nat.testBit_zero, add_comm]
    rcases Nat.mod_two_eq_zero_or_one x with hbit | hbit <;> simp [hbit]

/-! ### Predicates -/

@[simp] theorem rdP_zero (m : Mach) (role : Nat) : rdP m role 0 = true := rfl

/-- A result for p0 is discarded. -/
theorem getCtx_putP_zero (m : Mach) (lat : Nat) (v : Bool) :
    getCtx (putP m lat 0 v) m.iss.core m.iss.ctx = getCtx m m.iss.core m.iss.ctx :=
  getCtx_setCtx m m.iss.core m.iss.ctx _

end Sys2Proof.Machine

open Sys2Proof Sys2Proof.Machine

/-- Settles O1: each word through `runWord_xBin` with the value of its operation, the immediate from its sign
extension, the encodings from the round trips. -/
theorem twoOperandIntegerWords : Obligations.TwoOperandIntegerWords := by
  unfold Obligations.TwoOperandIntegerWords
  refine ⟨?results, ?operandB, ?kWords, ?encodings⟩
  case results =>
    intro s h d a b ix hg ha hb x y
    refine ⟨?add, ?sub, ?mul, ?mulh, ?and, ?or, ?xor, ?min, ?max⟩
    case add => exact (exec_xAdd h d a ix b s).trans (runWord_xBin hg ha hb (BitVec.add_def x y))
    case sub => exact (exec_xSub h d a ix b s).trans (runWord_xBin hg ha hb (word_sub_eq_ofInt x y))
    case mul =>
      exact ⟨x * y, BitVec.toNat_mul x y, word_mul_eq_ofInt x y,
        (exec_xMul h d a ix b s).trans (runWord_xBin hg ha hb rfl)⟩
    case mulh =>
      exact ⟨mulHigh x y, _, by omega, product_eq_mulHigh x y,
        (exec_xMulh h d a ix b s).trans (runWord_xBin hg ha hb rfl)⟩
    case and =>
      exact ⟨x &&& y, fun _ _ => BitVec.getLsbD_and,
        (exec_xAnd h d a ix b s).trans (runWord_xBin hg ha hb rfl)⟩
    case or =>
      exact ⟨x ||| y, fun _ _ => BitVec.getLsbD_or,
        (exec_xOr h d a ix b s).trans (runWord_xBin hg ha hb rfl)⟩
    case xor =>
      exact ⟨x ^^^ y, fun _ _ => BitVec.getLsbD_xor,
        (exec_xXor h d a ix b s).trans (runWord_xBin hg ha hb rfl)⟩
    case min =>
      exact ⟨_, toInt_signed_min x y,
        (exec_xMin h d a ix b s).trans (runWord_xBin hg ha hb rfl)⟩
    case max =>
      exact ⟨_, toInt_signed_max x y,
        (exec_xMax h d a ix b s).trans (runWord_xBin hg ha hb rfl)⟩
  case operandB =>
    refine fun m b => ⟨opBK_register m b, rfl, fun hk => ?_⟩
    rw [opBK_immediate, hk, immValue_no_k, BitVec.toInt_signExtend_of_le (by decide)]
  case kWords =>
    exact fun m => ⟨fun hk => by rw [opBK_immediate, hk]; decide, fun hk => by rw [opBK_immediate, hk]; decide⟩
  case encodings =>
    exact ⟨decodeTableWord_of_encodeNat (Laws.RoundTrip.kImm 3) rfl,
      decodeTableWord_of_encodeNat (Laws.RoundTrip.kImm 1) rfl,
      decodeTableWord_of_encodeNat (Laws.RoundTrip.xAdd ⟨false, 0⟩ 4 5 false 6) rfl,
      decodeTableWord_of_encodeNat (Laws.RoundTrip.xAdd ⟨false, 0⟩ 4 5 true (BitVec.ofInt 6 (-3))) rfl,
      decodeTableWord_of_encodeNat (Laws.RoundTrip.xSub ⟨false, 0⟩ 4 5 false 6) rfl,
      decodeTableWord_of_encodeNat (Laws.RoundTrip.xMul ⟨false, 0⟩ 4 5 false 6) rfl,
      decodeTableWord_of_encodeNat (Laws.RoundTrip.xMulh ⟨false, 0⟩ 4 5 false 6) rfl,
      decodeTableWord_of_encodeNat (Laws.RoundTrip.xAnd ⟨false, 0⟩ 4 5 false 6) rfl,
      decodeTableWord_of_encodeNat (Laws.RoundTrip.xAnd ⟨false, 0⟩ 4 5 true 63) rfl,
      decodeTableWord_of_encodeNat (Laws.RoundTrip.xOr ⟨false, 0⟩ 4 5 false 6) rfl,
      decodeTableWord_of_encodeNat (Laws.RoundTrip.xXor ⟨false, 0⟩ 4 5 false 6) rfl,
      decodeTableWord_of_encodeNat (Laws.RoundTrip.xMin ⟨false, 0⟩ 4 5 false 6) rfl,
      decodeTableWord_of_encodeNat (Laws.RoundTrip.xMax ⟨false, 0⟩ 4 5 false 6) rfl⟩

/-- Settles O2: the shifts as multiplication and division by 2^c, x.sext bit by bit, x.clz by the logarithm, x.pcnt by
its sum; the words with low bits set from their zero field. -/
theorem shiftsAndCounts : Obligations.ShiftsAndCounts := by
  unfold Obligations.ShiftsAndCounts
  refine ⟨?results, ?operandB, ?shlImm, ?shlReg, ?shrImm, ?shrReg, ?sarImm, ?sarReg, ?sextWord, ?clzWord, ?pcntWord,
    ?refused⟩
  case results =>
    intro s h d a b ix hg ha hb x c
    refine ⟨?shl, ?shr, ?sar, ?sext, ?clz, ?pcnt⟩
    case shl => exact (exec_xShl h d a ix b s).trans (runWord_xBin hg ha hb (word_shiftLeft_eq_ofNat x c))
    case shr => exact (exec_xShr h d a ix b s).trans (runWord_xBin hg ha hb (word_ushiftRight_eq_ofNat x c))
    case sar => exact (exec_xSar h d a ix b s).trans (runWord_xBin hg ha hb (word_sshiftRight_eq_ofInt x c))
    case sext =>
      exact ⟨_, fun _ hi => getLsbD_wordOfInt_sextInt x c hi,
        (exec_xSext h d a ix b s).trans (runWord_xBin hg ha hb rfl)⟩
    case clz =>
      obtain ⟨hle, htop, hbelow⟩ := clz64_spec x
      exact ⟨clz64 x, hle, htop, hbelow, (exec_xClz h d a s).trans (runWord_xBin (y := fun _ => {}) hg ha rfl rfl)⟩
    case pcnt =>
      have hcount : BitVec.ofNat 64 (popCount x.toNat 64) = _ :=
        congrArg (BitVec.ofNat 64) (popCount_eq_countP x.toNat 64)
      exact (exec_xPcnt h d a s).trans (runWord_xBin (y := fun _ => {}) hg ha rfl hcount)
  case operandB =>
    refine fun m b => ⟨opBZ_register m b, rfl, ?_⟩
    rw [opBZ_immediate, BitVec.toNat_setWidth_of_le (by decide)]
  case shlImm => exact decodeTableWord_of_encodeNat (Laws.RoundTrip.xShl ⟨false, 0⟩ 4 5 true 3) rfl
  case shlReg => exact decodeTableWord_of_encodeNat (Laws.RoundTrip.xShl ⟨false, 0⟩ 4 5 false 6) rfl
  case shrImm => exact decodeTableWord_of_encodeNat (Laws.RoundTrip.xShr ⟨false, 0⟩ 4 5 true 3) rfl
  case shrReg => exact decodeTableWord_of_encodeNat (Laws.RoundTrip.xShr ⟨false, 0⟩ 4 5 false 6) rfl
  case sarImm => exact decodeTableWord_of_encodeNat (Laws.RoundTrip.xSar ⟨false, 0⟩ 4 5 true 3) rfl
  case sarReg => exact decodeTableWord_of_encodeNat (Laws.RoundTrip.xSar ⟨false, 0⟩ 4 5 false 6) rfl
  case sextWord => exact decodeTableWord_of_encodeNat (Laws.RoundTrip.xSext ⟨false, 0⟩ 4 5 true 7) rfl
  case clzWord => exact decodeTableWord_of_encodeNat (Laws.RoundTrip.xClz ⟨false, 0⟩ 4 5) rfl
  case pcntWord => exact decodeTableWord_of_encodeNat (Laws.RoundTrip.xPcnt ⟨false, 0⟩ 4 5) rfl
  case refused =>
    exact fun n h0 hn => ⟨decodeTableWord_count_nonzero_low (.inl rfl) h0 hn,
      decodeTableWord_count_nonzero_low (.inr rfl) h0 hn⟩

/-- Settles O5: under a guard that holds each word is its own `putP`; p0 from its read and its discarded result; the
refused words from their zero fields. -/
theorem predicateWords : Obligations.PredicateWords := by
  unfold Obligations.PredicateWords
  refine ⟨?results, ?p0Reads, ?p0Discards, ?pand, ?pandInverted, ?por, ?pxor, ?refused⟩
  case results =>
    intro s h p a b n k hg x y
    exact ⟨(exec_xPand h p n a b k s).trans (runWord_true _ hg), (exec_xPor h p n a b k s).trans (runWord_true _ hg),
      (exec_xPxor h p n a b k s).trans (runWord_true _ hg)⟩
  case p0Reads => exact rdP_zero
  case p0Discards => exact fun m v => getCtx_putP_zero m 1 v
  case pand => exact decodeTableWord_of_encodeNat (Laws.RoundTrip.xPand ⟨false, 0⟩ 1 false 2 3 false) rfl
  case pandInverted => exact decodeTableWord_of_encodeNat (Laws.RoundTrip.xPand ⟨false, 0⟩ 1 true 2 3 true) rfl
  case por => exact decodeTableWord_of_encodeNat (Laws.RoundTrip.xPor ⟨false, 0⟩ 1 false 2 3 false) rfl
  case pxor => exact decodeTableWord_of_encodeNat (Laws.RoundTrip.xPxor ⟨false, 0⟩ 1 false 2 3 false) rfl
  case refused =>
    have hfields : ∀ w ∈ [0x00990818, 0x00A10818, 0x00A90818], ∀ k ∈ [0, 1, 6, 7, 8, 9, 13, 14],
        w + 2 ^ k < 2 ^ 32 ∧ (w + 2 ^ k) / 268435456 % 8 = 0 ∧ (w + 2 ^ k) / 524288 % 64 ∈ [19, 20, 21] ∧
        bits (w + 2 ^ k) 1 0 + bits (w + 2 ^ k) 9 6 + bits (w + 2 ^ k) 14 13 ≠ 0 := by decide
    intro w hw k hk
    obtain ⟨hlt, hpipe, hop, hzero⟩ := hfields w hw k hk
    exact decodeTableWord_predicate_nonzero hlt hpipe hop hzero

end

section
/-!
PROOFS. Decode and encode agree both ways (spec/05 R84, R85): the encoder's sum puts a decoded word together again, field
by field from the top.
-/

namespace Sys2Proof

/-- The part of a word from bit `lo` up. -/
def topPart (n lo : Nat) : Nat := n / 2 ^ lo * 2 ^ lo

theorem topPart_zero (n : Nat) : topPart n 0 = n := by simp [topPart]

/-- The field of `k` bits below bit `hi` joins what stands above it. -/
theorem topPart_add_field (n lo k : Nat) :
    topPart n (lo + k) + n / 2 ^ lo % 2 ^ k * 2 ^ lo = topPart n lo := by
  have hsplit := Nat.div_add_mod (n / 2 ^ lo) (2 ^ k)
  rw [Nat.div_div_eq_div_mul, ← pow_add] at hsplit
  rw [topPart, topPart, pow_add 2 lo k, Nat.mul_comm (2 ^ lo), ← Nat.mul_assoc, ← Nat.add_mul, Nat.mul_comm _ (2 ^ k),
    ← pow_add, Nat.add_comm k lo, hsplit]

theorem topPart_add_fld {n hi k lo c : Nat} (hhi : hi = lo + k) (hc : c = 2 ^ lo) :
    topPart n hi + (fld k n lo).toNat * c = topPart n lo := by
  rw [hhi, hc, fld, BitVec.toNat_ofNat, topPart_add_field]

theorem topPart_add_lowest_fld (n k : Nat) : topPart n k + (fld k n 0).toNat = n := by
  rw [← Nat.mul_one (fld k n 0).toNat, topPart_add_fld (c := 1) (Nat.zero_add k).symm rfl, topPart_zero]

theorem topPart_add_flag {n hi lo c : Nat} (hhi : hi = lo + 1) (hc : c = 2 ^ lo) :
    topPart n hi + bitVal (flag n lo) * c = topPart n lo := by
  have hbit : bitVal (flag n lo) = n / 2 ^ lo % 2 ^ 1 := by
    rcases Nat.mod_two_eq_zero_or_one (n / 2 ^ lo) with h | h <;> simp [flag, bitVal, h]
  rw [hhi, hc, hbit, topPart_add_field]

theorem topPart_add_lowest_flag (n : Nat) : topPart n 1 + bitVal (flag n 0) = n := by
  rw [← Nat.mul_one (bitVal _), topPart_add_flag (c := 1) (Nat.zero_add 1).symm rfl, topPart_zero]

theorem topPart_add_bits (n : Nat) {hi lo : Nat} (h : lo ≤ hi) :
    topPart n (hi + 1) + bits n hi lo * 2 ^ lo = topPart n lo := by
  rw [bits, ← topPart_add_field n lo (hi + 1 - lo), Nat.add_sub_cancel' (by omega)]

/-- A field marked zero that is zero. -/
theorem bits_eq_zero_iff {n hi lo : Nat} (h : lo ≤ hi) : bits n hi lo = 0 ↔ topPart n (hi + 1) = topPart n lo := by
  have hjoin := topPart_add_bits n h
  constructor
  · intro hz
    rwa [hz, Nat.zero_mul, Nat.add_zero] at hjoin
  · intro heq
    have hpos : 0 < 2 ^ lo := by positivity
    have hprod : bits n hi lo * 2 ^ lo = 0 := by omega
    exact (Nat.mul_eq_zero.1 hprod).resolve_right hpos.ne'

theorem topPart_of_lt {n : Nat} (hn : n < 2 ^ 32) : topPart n 32 = 0 := by
  rw [topPart, Nat.div_eq_of_lt hn, Nat.zero_mul]

/-- C, PIPE and G of a word, read and written again. -/
theorem hdBits_hdOf {n pipe : Nat} (hn : n < 2 ^ 32) (hp : bits n 30 28 = pipe) :
    hdBits (hdOf n) pipe = topPart n 25 := by
  have hc := topPart_add_flag (n := n) (c := 2147483648) (hi := 32) (lo := 31) rfl rfl
  have hpipe := topPart_add_bits n (hi := 30) (lo := 28) (by decide)
  have hg := topPart_add_fld (n := n) (k := 3) (c := 33554432) (hi := 28) (lo := 25) rfl rfl
  rw [topPart_of_lt hn, Nat.zero_add] at hc
  rw [hp, ← hc] at hpipe
  rwa [← hpipe] at hg

theorem hdBits_add_op {n pipe op lo : Nat} (hn : n < 2 ^ 32) (hp : bits n 30 28 = pipe) (hlo : lo ≤ 24)
    (ho : bits n 24 lo = op) : hdBits (hdOf n) pipe + op * 2 ^ lo = topPart n lo := by
  rw [hdBits_hdOf hn hp, ← ho, topPart_add_bits n hlo]

/-! ### A decoded word is its own encoding, pipe by pipe -/

/-- What the decoder answered for `n`, if it is an instruction, is encoded as `n`. -/
def EncodesTo (n : Nat) (r : Except Reject Instr) : Prop := ∀ i, r = .ok i → encodeNat i = some n

theorem encodesTo_ok {n : Nat} {i : Instr} : EncodesTo n (.ok i) ↔ encodeNat i = some n := by
  simp [EncodesTo]

theorem encodesTo_error {n : Nat} {e : Reject} : EncodesTo n (.error e) ↔ True := by
  simp [EncodesTo]

theorem encodesTo_ifZero {n z : Nat} {i : Instr} : EncodesTo n (ifZero z i) ↔ (z = 0 → encodeNat i = some n) := by
  by_cases hz : z = 0 <;> simp [ifZero, hz, encodesTo_ok, encodesTo_error]

section
variable {n : Nat} (hn : n < 2 ^ 32)
include hn

theorem encodesTo_decodeX (hp : bits n 30 28 = 0) : EncodesTo n (decodeX n (bits n 24 19)) := by
  have hhead := hdBits_add_op hn hp (lo := 19) (by decide) rfl
  generalize bits n 24 19 = op at hhead ⊢
  unfold decodeX
  split
  all_goals
    simp at hhead
    simp +contextual [encodesTo_ok, encodesTo_error, encodesTo_ifZero, bits_eq_zero_iff, encodeNat, hhead,
      topPart_add_fld, topPart_add_flag, topPart_add_lowest_fld, topPart_zero]

theorem encodesTo_decodeL (hp : bits n 30 28 = 1) : EncodesTo n (decodeL n (bits n 24 19)) := by
  have hhead := hdBits_add_op hn hp (lo := 19) (by decide) rfl
  generalize bits n 24 19 = op at hhead ⊢
  unfold decodeL
  split
  all_goals
    simp at hhead
    simp +contextual [encodesTo_ok, encodesTo_error, encodesTo_ifZero, bits_eq_zero_iff, encodeNat, hhead,
      topPart_add_fld, topPart_add_flag, topPart_add_lowest_fld, topPart_add_lowest_flag, topPart_zero]

theorem encodesTo_decodeV (hp : bits n 30 28 = 2) : EncodesTo n (decodeV n (bits n 24 20)) := by
  have hhead := hdBits_add_op hn hp (lo := 20) (by decide) rfl
  generalize bits n 24 20 = op at hhead ⊢
  unfold decodeV
  split
  all_goals
    simp at hhead
    simp +contextual [encodesTo_ok, encodesTo_error, encodesTo_ifZero, bits_eq_zero_iff, encodeNat, hhead,
      topPart_add_fld, topPart_add_lowest_fld, topPart_zero]

theorem encodesTo_decodeM (hp : bits n 30 28 = 3) : EncodesTo n (decodeM n (bits n 24 21)) := by
  have hhead := hdBits_add_op hn hp (lo := 21) (by decide) rfl
  generalize bits n 24 21 = op at hhead ⊢
  unfold decodeM
  split
  all_goals
    simp at hhead
    simp +contextual [encodesTo_ok, encodesTo_error, encodesTo_ifZero, bits_eq_zero_iff, encodeNat, hhead,
      topPart_add_fld, topPart_add_flag, topPart_add_lowest_flag, topPart_zero]

theorem encodesTo_decodeB (hp : bits n 30 28 = 4) : EncodesTo n (decodeB n (bits n 24 20)) := by
  have hhead := hdBits_add_op hn hp (lo := 20) (by decide) rfl
  generalize bits n 24 20 = op at hhead ⊢
  unfold decodeB
  split
  all_goals
    simp at hhead
    simp +contextual [encodesTo_ok, encodesTo_error, encodesTo_ifZero, bits_eq_zero_iff, encodeNat, hhead,
      topPart_add_fld, topPart_add_flag, topPart_add_lowest_fld, topPart_zero]

/-- Table 5-12: a K word is C = 1, PIPE = 101, G = 0 and its body. -/
theorem encodeNat_kImm_of_decoded (hp : bits n 30 28 = 5) (hc : flag n 31 = true) (hg : bits n 27 25 = 0) :
    encodeNat (.kImm (fld 25 n 0)) = some n := by
  have hhead := hdBits_hdOf hn hp
  have hguard : fld 3 n 25 = 0 := Laws.RoundTrip.fld_eq (x := 0) hg
  rw [hdBits, hdOf, hc, hguard] at hhead
  exact congrArg some ((congrArg (· + (fld 25 n 0).toNat) hhead).trans (topPart_add_lowest_fld n 25))

theorem encodesTo_decodeNat : EncodesTo n (decodeNat n) := by
  unfold decodeNat
  split
  case h_1 hp => exact encodesTo_decodeX hn hp
  case h_2 hp => exact encodesTo_decodeL hn hp
  case h_3 hp => exact encodesTo_decodeV hn hp
  case h_4 hp => exact encodesTo_decodeM hn hp
  case h_5 hp => exact encodesTo_decodeB hn hp
  case h_6 hp =>
    split
    · exact encodesTo_error.2 trivial
    · next hc =>
      split
      · exact encodesTo_error.2 trivial
      · next hg => exact encodesTo_ok.2 (encodeNat_kImm_of_decoded hn hp (by simpa using hc) (by simpa using hg))
  case h_7 => exact encodesTo_error.2 trivial
end

/-! ### An instruction's word decodes to it -/

theorem roundTrip (i : Instr) : Laws.RoundTrip.Statement i := by
  cases i with
  | xNop h => exact Laws.RoundTrip.xNop h
  | xAdd h d a i b => exact Laws.RoundTrip.xAdd h d a i b
  | xSub h d a i b => exact Laws.RoundTrip.xSub h d a i b
  | xMul h d a i b => exact Laws.RoundTrip.xMul h d a i b
  | xMulh h d a i b => exact Laws.RoundTrip.xMulh h d a i b
  | xDiv h d a i b => exact Laws.RoundTrip.xDiv h d a i b
  | xRem h d a i b => exact Laws.RoundTrip.xRem h d a i b
  | xAnd h d a i b => exact Laws.RoundTrip.xAnd h d a i b
  | xOr h d a i b => exact Laws.RoundTrip.xOr h d a i b
  | xXor h d a i b => exact Laws.RoundTrip.xXor h d a i b
  | xShl h d a i b => exact Laws.RoundTrip.xShl h d a i b
  | xShr h d a i b => exact Laws.RoundTrip.xShr h d a i b
  | xSar h d a i b => exact Laws.RoundTrip.xSar h d a i b
  | xMin h d a i b => exact Laws.RoundTrip.xMin h d a i b
  | xMax h d a i b => exact Laws.RoundTrip.xMax h d a i b
  | xClz h d a => exact Laws.RoundTrip.xClz h d a
  | xPcnt h d a => exact Laws.RoundTrip.xPcnt h d a
  | xSext h d a i b => exact Laws.RoundTrip.xSext h d a i b
  | xCmp h p k a i b => exact Laws.RoundTrip.xCmp h p k a i b
  | xPand h p n a b m => exact Laws.RoundTrip.xPand h p n a b m
  | xPor h p n a b m => exact Laws.RoundTrip.xPor h p n a b m
  | xPxor h p n a b m => exact Laws.RoundTrip.xPxor h p n a b m
  | xFadd h d a b => exact Laws.RoundTrip.xFadd h d a b
  | xFmul h d a b => exact Laws.RoundTrip.xFmul h d a b
  | xFmax h d a b => exact Laws.RoundTrip.xFmax h d a b
  | xFcvt h d a k => exact Laws.RoundTrip.xFcvt h d a k
  | xChk h a => exact Laws.RoundTrip.xChk h a
  | lLd h d a s p i => exact Laws.RoundTrip.lLd h d a s p i
  | lSt h d a s i => exact Laws.RoundTrip.lSt h d a s i
  | lVld h t r a o => exact Laws.RoundTrip.lVld h t r a o
  | lVst h t r a o f => exact Laws.RoundTrip.lVst h t r a o f
  | lCas h d a b z => exact Laws.RoundTrip.lCas h d a b z
  | lRadd h t r a o => exact Laws.RoundTrip.lRadd h t r a o
  | lAlloc h d a b => exact Laws.RoundTrip.lAlloc h d a b
  | lFree h a => exact Laws.RoundTrip.lFree h a
  | lRenew h a b => exact Laws.RoundTrip.lRenew h a b
  | lCopy h d a b => exact Laws.RoundTrip.lCopy h d a b
  | lGath h d a b => exact Laws.RoundTrip.lGath h d a b
  | lRld h d a b => exact Laws.RoundTrip.lRld h d a b
  | lRst h d a b => exact Laws.RoundTrip.lRst h d a b
  | lRred h d a b => exact Laws.RoundTrip.lRred h d a b
  | lMcast h d a b => exact Laws.RoundTrip.lMcast h d a b
  | lStash h t a b => exact Laws.RoundTrip.lStash h t a b
  | lWin h d a b => exact Laws.RoundTrip.lWin h d a b
  | lAmoAdd h d a b z => exact Laws.RoundTrip.lAmoAdd h d a b z
  | lAmoAnd h d a b z => exact Laws.RoundTrip.lAmoAnd h d a b z
  | lAmoOr h d a b z => exact Laws.RoundTrip.lAmoOr h d a b z
  | lAmoXor h d a b z => exact Laws.RoundTrip.lAmoXor h d a b z
  | lAmoMin h d a b z => exact Laws.RoundTrip.lAmoMin h d a b z
  | lAmoMax h d a b z => exact Laws.RoundTrip.lAmoMax h d a b z
  | lAmoSwap h d a b z => exact Laws.RoundTrip.lAmoSwap h d a b z
  | vAdd h t d a b => exact Laws.RoundTrip.vAdd h t d a b
  | vSub h t d a b => exact Laws.RoundTrip.vSub h t d a b
  | vMul h t d a b => exact Laws.RoundTrip.vMul h t d a b
  | vFma h t d a b => exact Laws.RoundTrip.vFma h t d a b
  | vMax h t d a b => exact Laws.RoundTrip.vMax h t d a b
  | vMin h t d a b => exact Laws.RoundTrip.vMin h t d a b
  | vNeg h t d a => exact Laws.RoundTrip.vNeg h t d a
  | vAbs h t d a => exact Laws.RoundTrip.vAbs h t d a
  | vExp2 h t d a => exact Laws.RoundTrip.vExp2 h t d a
  | vLog2 h t d a => exact Laws.RoundTrip.vLog2 h t d a
  | vRcp h t d a => exact Laws.RoundTrip.vRcp h t d a
  | vRsqrt h t d a => exact Laws.RoundTrip.vRsqrt h t d a
  | vCvt h t d a k => exact Laws.RoundTrip.vCvt h t d a k
  | vCmpLt h t d a b => exact Laws.RoundTrip.vCmpLt h t d a b
  | vCmpLe h t d a b => exact Laws.RoundTrip.vCmpLe h t d a b
  | vCmpEq h t d a b => exact Laws.RoundTrip.vCmpEq h t d a b
  | vSel h t d a b => exact Laws.RoundTrip.vSel h t d a b
  | vRmax h t d a => exact Laws.RoundTrip.vRmax h t d a
  | vRsum h t d a => exact Laws.RoundTrip.vRsum h t d a
  | vBcast h t d a => exact Laws.RoundTrip.vBcast h t d a
  | vGet h t d a b => exact Laws.RoundTrip.vGet h t d a b
  | vPut h t d a b => exact Laws.RoundTrip.vPut h t d a b
  | vMov h t d a u => exact Laws.RoundTrip.vMov h t d a u
  | vPerm h t d a b => exact Laws.RoundTrip.vPerm h t d a b
  | vAnd h t d a b => exact Laws.RoundTrip.vAnd h t d a b
  | vOr h t d a b => exact Laws.RoundTrip.vOr h t d a b
  | vXor h t d a b => exact Laws.RoundTrip.vXor h t d a b
  | mNop h => exact Laws.RoundTrip.mNop h
  | mPrec h t a k => exact Laws.RoundTrip.mPrec h t a k
  | mShape h sh a => exact Laws.RoundTrip.mShape h sh a
  | mPush h sh a w p r s => exact Laws.RoundTrip.mPush h sh a w p r s
  | mSwap h => exact Laws.RoundTrip.mSwap h
  | mFeed h t sh a w x y r => exact Laws.RoundTrip.mFeed h t sh a w x y r
  | mDrain h t n e hi => exact Laws.RoundTrip.mDrain h t n e hi
  | mClear h => exact Laws.RoundTrip.mClear h
  | bSafe h => exact Laws.RoundTrip.bSafe h
  | bJmp h k => exact Laws.RoundTrip.bJmp h k
  | bCall h k => exact Laws.RoundTrip.bCall h k
  | bLadder h p q u v k => exact Laws.RoundTrip.bLadder h p q u v k
  | bLoop h n b e p => exact Laws.RoundTrip.bLoop h n b e p
  | bTgt h k o => exact Laws.RoundTrip.bTgt h k o
  | bFence h p s x => exact Laws.RoundTrip.bFence h p s x
  | bOpen h a b => exact Laws.RoundTrip.bOpen h a b
  | bShut h d a => exact Laws.RoundTrip.bShut h d a
  | bTwait h e a => exact Laws.RoundTrip.bTwait h e a
  | bArm h b a => exact Laws.RoundTrip.bArm h b a
  | bBwait h b => exact Laws.RoundTrip.bBwait h b
  | bPop h d a n p => exact Laws.RoundTrip.bPop h d a n p
  | bPush h a b l p => exact Laws.RoundTrip.bPush h a b l p
  | bLaunch h d a => exact Laws.RoundTrip.bLaunch h d a
  | bPost h s k a => exact Laws.RoundTrip.bPost h s k a
  | bSusp h k a b j => exact Laws.RoundTrip.bSusp h k a b j
  | bExit h => exact Laws.RoundTrip.bExit h
  | bTrap h k => exact Laws.RoundTrip.bTrap h k
  | bRdst h d s => exact Laws.RoundTrip.bRdst h d s
  | bWrst h a s => exact Laws.RoundTrip.bWrst h a s
  | bCancel h l => exact Laws.RoundTrip.bCancel h l
  | bBrk h => exact Laws.RoundTrip.bBrk h
  | bWait h k a b => exact Laws.RoundTrip.bWait h k a b
  | bEret h => exact Laws.RoundTrip.bEret h
  | kImm k => exact Laws.RoundTrip.kImm k
  | _ => intro n hn; cases hn

end Sys2Proof

open Sys2Proof Sys2Proof.Machine

/-- Settles O58: the round trip of every constructor, and the encoder's sum over the fields of a decoded word. -/
theorem encodeDecode : Obligations.EncodeDecode := by
  unfold Obligations.EncodeDecode
  exact ⟨roundTrip, fun n i hn => encodesTo_decodeNat hn i⟩

end

section
/-!
PROOFS. What an instruction word leaves of memory when it issues (spec/11 R185, spec/21 R312).
-/

namespace Sys2Proof.Machine

/-! ### The operations that words are made of leave memory as it was -/

@[simp] theorem putS_mem (m : Mach) (lat : Nat) (d : BitVec 6) (v : Scalar) : (putS m lat d v).mem = m.mem := rfl
@[simp] theorem putP_mem (m : Mach) (lat : Nat) (d : BitVec 3) (v : Bool) : (putP m lat d v).mem = m.mem := rfl
@[simp] theorem putB_mem (m : Mach) (lat : Nat) (d : BitVec 3) (v : W32) : (putB m lat d v).mem = m.mem := rfl
@[simp] theorem xBin_mem (m : Mach) (lat : Nat) (d a : BitVec 6) (y : Scalar) (f : Word → Word → Word) :
    (xBin m lat d a y f).mem = m.mem := rfl
@[simp] theorem addActs_mem (m : Mach) (acts : List Act) : (addActs m acts).mem = m.mem := rfl
@[simp] theorem addPend_mem (m : Mach) (p : Pend) : (addPend m p).mem = m.mem := rfl
@[simp] theorem addSync_mem (m : Mach) : (addSync m).mem = m.mem := rfl
@[simp] theorem stallBundle_mem (m : Mach) : (stallBundle m).mem = m.mem := rfl
@[simp] theorem waitBundle_mem (m : Mach) (w : Wait) : (waitBundle m w).mem = m.mem := rfl
@[simp] theorem branchTo_mem (m : Mach) (pkt : W32) : (branchTo m pkt).mem = m.mem := rfl
@[simp] theorem markEnd_mem (m : Mach) (f : Ctx → Ctx) : (markEnd m f).mem = m.mem := rfl
@[simp] theorem postTrap_mem (m : Mach) (c : Byte) (i : Word) : (postTrap m c i).mem = m.mem := rfl
@[simp] theorem popResult_mem (m : Mach) (d : BitVec 6) (p : BitVec 3) (v : Word) (got : Bool) :
    (popResult m d p v got).mem = m.mem := rfl
@[simp] theorem knownPend_mem (m : Mach) (rs : List (Dst × Scalar)) : (knownPend m rs).mem = m.mem := rfl
@[simp] theorem startLoad_mem (m : Mach) (va : Word) (pa size : Nat) (ds : List (BitVec 6)) (spec : Bool) :
    (startLoad m va pa size ds spec).mem = m.mem := rfl
@[simp] theorem specPoison_mem (m : Mach) (va : Word) (ds : List (BitVec 6)) (c : Byte) :
    (specPoison m va ds c).mem = m.mem := rfl
@[simp] theorem startAtomic_mem (m : Mach) (va : Word) (pa size : Nat) (mir : Bool) (ds : List (BitVec 6))
    (k : ActKind) :
    (startAtomic m va pa size mir ds k).mem = m.mem := rfl
@[simp] theorem storeBlocks_mem (m : Mach) (ps : List (Word × Nat × Bool)) (bs : List Block) :
    (storeBlocks m ps bs).mem = m.mem := rfl
@[simp] theorem putRowAt_mem (m : Mach) (key t : Nat) (r : Row) : (putRowAt m key t r).mem = m.mem := rfl
@[simp] theorem pushDue_mem (m : Mach) (core i : Nat) (d : Due) : (pushDue m core i d).mem = m.mem := rfl
@[simp] theorem onArr_mem (m : Mach) (f : Arr → Arr) : (onArr m f).mem = m.mem := rfl
@[simp] theorem mDone_mem (m : Mach) (f : Arr → Arr) : (mDone m f).mem = m.mem := rfl
@[simp] theorem meterBeat_mem (m : Mach) : (meterBeat m).mem = m.mem := rfl
@[simp] theorem claimArr_mem (m : Mach) : (claimArr m).mem = m.mem := rfl
@[simp] theorem vCodes_mem (m : Mach) (t : BitVec 2) (d : BitVec 6) (lat : Nat) (codes : List Nat) :
    (vCodes m t d lat codes).mem = m.mem := rfl

@[simp] theorem issueCommand_mem (m : Mach) (kind e : Nat) (d : BitVec 6) (a b : Word) (cw : Option Word) :
    (issueCommand m kind e d a b cw).mem = m.mem := by
  simp only [issueCommand, addActs_mem]
  split <;> simp only [addPend_mem, onIss_mem, setCore_mem]

@[simp] theorem askFill_mem (m : Mach) (ps : List (Word × Nat)) (n : Nat) : (askFill m ps n).mem = m.mem := by
  unfold askFill
  split <;> simp

@[simp] theorem pushAssist_mem (m : Mach) (kind tile row0 type lat : Nat) (rows : List (List (Option Nat))) :
    (pushAssist m kind tile row0 type lat rows).mem = m.mem := by
  unfold pushAssist
  split <;> simp

@[simp] theorem vWrite_mem (m : Mach) (t : BitVec 2) (d : BitVec 6) (lat : Nat) (flag : Bool) (rs : List Val) :
    (vWrite m t d lat flag rs).mem = m.mem := by
  unfold vWrite
  dsimp only
  split
  · simp
  · split <;> simp

@[simp] theorem vMove_mem (m : Mach) (t : BitVec 2) (d : BitVec 6) (lat : Nat) (codes : List Nat) (vals : List Val) :
    (vMove m t d lat codes vals).mem = m.mem := by
  unfold vMove
  split <;> simp

@[simp] theorem noteTr_mem (m : Mach) (core : Nat) (t : Tr) : (noteTr m core t).mem = m.mem := by
  unfold noteTr
  split <;> simp

@[simp] theorem dropTr_mem (m : Mach) (core : Nat) (t : Tr) : (dropTr m core t).mem = m.mem := by
  unfold dropTr
  split <;> simp

@[simp] theorem enterMiss_mem (m : Mach) (core : Nat) (q : Miss) : (enterMiss m core q).mem = m.mem := by
  unfold enterMiss
  dsimp only
  split <;> simp

@[simp] theorem metTr_mem (m : Mach) (core : Nat) (t : Option Tr) : (metTr m core t).mem = m.mem := by
  unfold metTr
  repeat' split
  all_goals simp

/-- A fold of steps that each leave memory leaves memory. -/
theorem foldl_mem {α : Type} {g : Mach → α → Mach} (hg : ∀ m x, (g m x).mem = m.mem) (l : List α) (m : Mach) :
    (l.foldl g m).mem = m.mem := by
  induction l generalizing m with
  | nil => rfl
  | cons x l ih => exact (ih _).trans (hg m x)

@[simp] theorem raiseViews_mem (m : Mach) (a : Nat) (ps : List (Nat × Nat)) : (raiseViews m a ps).mem = m.mem :=
  foldl_mem (fun m (e : Nat × Nat) => mem_raiseView m a e.1 e.2) ps m

@[simp] theorem reachX_mem (m : Mach) (va : Word) (size : Nat) (acc : Acc) : (reachX m va size acc).1.mem = m.mem
    := by
  unfold reachX
  dsimp only
  split <;> simp

@[simp] theorem reach_mem (m : Mach) (va : Word) (size : Nat) (acc : Acc) (reads : Bool) :
    (reach m va size acc reads).1.mem = m.mem := by
  have hx := reachX_mem m va size acc
  unfold reach
  generalize reachX m va size acc = r at hx
  obtain ⟨m1, _ | _ | _⟩ := r
  · dsimp only
    split
    · split <;> exact hx
    · exact hx
  · exact hx
  · exact hx

@[simp] theorem access_mem (m : Mach) (va : Word) (align size : Nat) (acc : Acc) (reads : Bool) :
    (access m va align size acc reads).1.mem = m.mem := by
  unfold access
  split <;> simp

@[simp] theorem reachAll_mem (m : Mach) (acc : Acc) (reads : Bool) (vas : List Word) :
    (reachAll m acc reads vas).1.mem = m.mem := by
  induction vas generalizing m with
  | nil => rfl
  | cons va vas ih =>
    have h1 := reach_mem m va 64 acc reads
    unfold reachAll
    generalize reach m va 64 acc reads = r at h1
    obtain ⟨m1, _ | _ | _⟩ := r
    · have h2 := ih m1
      dsimp only
      generalize reachAll m1 acc reads vas = r2 at h2
      obtain ⟨m2, _ | _⟩ := r2 <;> exact h2.trans h1
    · exact h1
    · exact h1

@[simp] theorem raddReach_mem (m : Mach) (vas : List Word) : (raddReach m vas).1.mem = m.mem := by
  induction vas generalizing m with
  | nil => rfl
  | cons va vas ih =>
    unfold raddReach
    split
    · dsimp only
      split
      · have h2 := ih (metTr m m.iss.core ‹_›)
        split
        · next he => rw [he] at h2; exact h2.trans (metTr_mem _ _ _)
        · exact h2.trans (metTr_mem _ _ _)
      · exact metTr_mem _ _ _
    · have h2 := ih (metTr m m.iss.core ‹_›)
      split
      · next he => rw [he] at h2; exact h2.trans (metTr_mem _ _ _)
      · exact h2.trans (metTr_mem _ _ _)
    case h_4 => exact enterMiss_mem _ _ _
    all_goals exact metTr_mem _ _ _

@[simp] theorem rldSource_mem (m : Mach) (b : Word) (n : Nat) : (rldSource m b n).1.mem = m.mem := by
  unfold rldSource
  split
  · rfl
  · dsimp only
    split
    · simp
    · simp
    · split
      · split <;> simp
      · simp

/-! ### Quiet answers -/

/-- A word's answer that keeps memory: as it was, or a trap taken where it was. -/
def Quiet (mem : List Host.Cell) (m' : Mach) : Prop :=
  m'.mem = mem ∨ ∃ m cause faddr finfo tile, m.mem = mem ∧ m' = trapAt m cause faddr finfo tile

section
variable {mem : List Host.Cell} {m : Mach}

theorem quiet_of_mem (hm : m.mem = mem) : Quiet mem m := .inl hm

theorem quiet_trapAt (hm : m.mem = mem) (c : Byte) (a i : Word) (t : Option Nat) : Quiet mem (trapAt m c a i t) :=
  .inr ⟨m, c, a, i, t, hm, rfl⟩

theorem quiet_trapW (hm : m.mem = mem) (c : Byte) : Quiet mem (trapW m c) := quiet_trapAt hm _ _ _ _
theorem quiet_trapA (hm : m.mem = mem) (c : Byte) (a : Word) : Quiet mem (trapA m c a) := quiet_trapAt hm _ _ _ _
theorem quiet_trapPoison (hm : m.mem = mem) (x : Scalar) : Quiet mem (trapPoison m x) := quiet_trapAt hm _ _ _ _
theorem quiet_fillTrap (hm : m.mem = mem) (e : Byte × Word) : Quiet mem (fillTrap m e) := quiet_trapAt hm _ _ _ _

theorem quiet_ite {p : Prop} [Decidable p] {x y : Mach} (hx : Quiet mem x) (hy : Quiet mem y) :
    Quiet mem (if p then x else y) := by
  split <;> assumption

theorem quiet_noPoison {xs : List Scalar} {f : Mach → Mach} (hm : m.mem = mem) (hf : Quiet mem (f m)) :
    Quiet mem (noPoison m xs f) := by
  unfold noPoison
  split
  · exact quiet_trapPoison hm _
  · exact hf

theorem quiet_accessing {va : Word} {align size : Nat} {acc : Acc} {reads : Bool} {classes : BitVec 5}
    {f : Mach → Nat → Bool → Mach} (hm : m.mem = mem) (hf : ∀ m' pa mir, m'.mem = mem → Quiet mem (f m' pa mir)) :
    Quiet mem (accessing m va align size acc reads classes f) := by
  have h1 := (access_mem m va align size acc reads).trans hm
  unfold accessing
  generalize access m va align size acc reads = r at h1
  obtain ⟨m1, _ | _ | _⟩ := r
  · exact quiet_ite (quiet_of_mem h1) (hf _ _ _ h1)
  · exact quiet_trapAt h1 _ _ _ _
  · exact quiet_of_mem h1

theorem quiet_accessingAll {vas : List Word} {acc : Acc} {reads : Bool} {classes : BitVec 5}
    {f : Mach → List (Word × Nat × Bool) → Mach} (hm : m.mem = mem)
        (hf : ∀ m' ps, m'.mem = mem → Quiet mem (f m' ps)) :
    Quiet mem (accessingAll m vas acc reads classes f) := by
  have h1 := (reachAll_mem m acc reads vas).trans hm
  unfold accessingAll
  generalize reachAll m acc reads vas = r at h1
  obtain ⟨m1, ⟨va, _ | _ | _⟩ | ps⟩ := r
  · exact quiet_of_mem h1
  · exact quiet_trapAt h1 _ _ _ _
  · exact quiet_of_mem h1
  · exact quiet_ite (quiet_of_mem h1) (hf _ _ h1)

theorem quiet_notArrival {f : Mach → Mach} (hm : m.mem = mem) (hf : Quiet mem (f m)) : Quiet mem (notArrival m f) :=
  quiet_ite (quiet_trapW hm _) hf

theorem quiet_vCheck {ts : List Nat} {ss : List Scalar} {ok : Bool} {f : Mach → Mach} (hm : m.mem = mem)
    (hf : Quiet mem (f m)) : Quiet mem (vCheck m ts ss ok f) := by
  unfold vCheck
  refine quiet_ite (quiet_trapW hm _) ?_
  split
  · exact quiet_trapPoison hm _
  · exact quiet_ite hf (quiet_trapW hm _)

theorem quiet_mHold {ts : List Nat} {ss : List Scalar} {f : Mach → Mach} (hm : m.mem = mem) (hf : Quiet mem (f m)) :
    Quiet mem (mHold m ts ss f) := by
  have hgo : Quiet mem (mHold.go ts ss f m) := quiet_ite (quiet_trapW hm _) (quiet_noPoison hm hf)
  unfold mHold
  split
  · exact quiet_ite hgo (quiet_of_mem hm)
  · exact hgo

theorem quiet_filling {vas : List Word} {align size : Nat} {f : Mach → Mach} (hm : m.mem = mem)
    (hf : Quiet mem (f m)) :
    Quiet mem (filling m vas align size f) := by
  unfold filling
  refine quiet_ite (quiet_of_mem hm) (quiet_ite hf ?_)
  split
  · exact quiet_trapAt hm _ _ _ _
  · exact quiet_of_mem ((askFill_mem _ _ _).trans hm)

theorem quiet_fillRows {rc : BitVec 256} {base : Word} {w x : Nat} {signed : Bool}
    {f : Mach → List (List Int × Option Dyad) → Mach} (hm : m.mem = mem) (hf : ∀ rows, Quiet mem (f m rows)) :
    Quiet mem (fillRows m rc base w x signed f) := by
  refine quiet_filling hm ?_
  split
  · exact quiet_fillTrap hm _
  · refine quiet_filling hm ?_
    split
    · exact quiet_fillTrap hm _
    · exact hf _

/-! ### The words with a body of their own -/

theorem quiet_amoWord (hm : m.mem = mem) (op : Nat) (d a b : BitVec 6) (z : Bool) : Quiet mem
    (amoWord m op d a b z) :=
  quiet_noPoison hm (quiet_accessing hm fun _ _ _ h => quiet_of_mem h)

theorem quiet_precWord (hm : m.mem = mem) (arr : Arr) (t : Nat) (a : Scalar) (keep : Bool) :
    Quiet mem (precWord m arr t a keep) :=
  quiet_mHold hm (quiet_ite (quiet_trapW hm _) (quiet_ite (quiet_trapW hm _) (quiet_of_mem hm)))

theorem quiet_xDivLike (hm : m.mem = mem) (d a : BitVec 6) (y : Scalar) (f : Word → Word → Word) :
    Quiet mem (xDivLike m d a y f) := quiet_ite (quiet_trapW hm _) (quiet_of_mem hm)

theorem quiet_vBin (hm : m.mem = mem) (t : BitVec 2) (d a b : BitVec 6) (lat : Nat) (f : Val → Val → Val) :
    Quiet mem (vBin m t d a b lat f) := quiet_vCheck hm (quiet_of_mem ((vWrite_mem ..).trans hm))

theorem quiet_vUn (hm : m.mem = mem) (t : BitVec 2) (d a : BitVec 6) (lat : Nat) (fo : Bool) (f : Val → Val) :
    Quiet mem (vUn m t d a lat fo f) := quiet_vCheck hm (quiet_of_mem ((vWrite_mem ..).trans hm))

theorem quiet_vCmp (hm : m.mem = mem) (t : BitVec 2) (d a b : BitVec 6) (f : Val → Val → Bool) :
    Quiet mem (vCmp m t d a b f) := quiet_vCheck hm (quiet_of_mem hm)

theorem quiet_vBits (hm : m.mem = mem) (t : BitVec 2) (d a b : BitVec 6) (f : Nat → Nat → Nat) :
    Quiet mem (vBits m t d a b f) := quiet_vCheck hm (quiet_of_mem hm)

theorem quiet_engineWord (hm : m.mem = mem) (kind : Nat) (d a b : BitVec 6) : Quiet mem (engineWord m kind d a b)
    := by
  have hreach : (if d = 0 then (m, MemRes.ok 0 false) else reachX m (rdS m 2 d).val 8 accWrite).1.mem = mem := by
    split <;> simp [hm]
  refine quiet_noPoison hm (quiet_ite (quiet_trapA hm _ _) ?_)
  dsimp only
  generalize (if d = 0 then (m, MemRes.ok 0 false) else reachX m (rdS m 2 d).val 8 accWrite) = r at hreach
  obtain ⟨m1, _ | _ | _⟩ := r
  · refine quiet_ite (quiet_trapW hreach _) ?_
    have hsource : (if kind = 2 then rldSource m1 (rdS m 1 b).val (optNblk 2 (optField m).toNat) else
        (m1, none)).1.mem
        = mem := by
      split
      · exact (rldSource_mem _ _ _).trans hreach
      · exact hreach
    generalize (if kind = 2 then rldSource m1 (rdS m 1 b).val (optNblk 2 (optField m).toNat) else (m1, none)) = q
      at hsource
    obtain ⟨m2, _ | _ | _ | _⟩ := q
    · exact quiet_ite (quiet_of_mem hsource) (quiet_ite (quiet_of_mem hsource)
        (quiet_of_mem ((issueCommand_mem ..).trans hsource)))
    · exact quiet_of_mem hsource
    · exact quiet_trapAt hsource _ _ _ _
    · exact quiet_of_mem hsource
  · exact quiet_trapAt hreach _ _ _ _
  · exact quiet_of_mem hreach
end

theorem quiet_runWord {s u : State} {h : Hd} {f : Mach → Mach} (he : runWord s h f = .next u)
    (hf : Quiet s.m.mem (f s.m)) : Quiet s.m.mem u.m ∧ u.trust = s.trust := by
  obtain ⟨-, rfl⟩ | ⟨-, rfl⟩ := runWord_cases he
  · exact ⟨hf, rfl⟩
  · exact ⟨quiet_of_mem rfl, rfl⟩

section
variable {s u1 : State}

theorem quiet_execXCmp {h : Hd} {p k : BitVec 3} {a : BitVec 6} {i : Bool} {b : BitVec 6}
    (he : execXCmp h p k a i b s = .next u1) :
    Quiet s.m.mem u1.m ∧ u1.trust = s.trust := by
  refine quiet_runWord he ?_
  split
  · exact quiet_trapPoison rfl _
  · exact quiet_of_mem rfl

theorem quiet_execXChk {h : Hd} {a : BitVec 6} (he : execXChk h a s = .next u1) :
    Quiet s.m.mem u1.m ∧ u1.trust = s.trust :=
  quiet_runWord he (quiet_ite (quiet_trapAt rfl _ _ _ _) (quiet_of_mem rfl))

theorem quiet_execLLd {h : Hd} {d a : BitVec 6} {sz : BitVec 3} {p : Bool} {ix : BitVec 3}
    (he : execLLd h d a sz p ix s = .next u1) :
    Quiet s.m.mem u1.m ∧ u1.trust = s.trust := by
  refine quiet_runWord he (quiet_ite (quiet_ite (quiet_of_mem rfl) ?_)
    (quiet_noPoison rfl (quiet_accessing rfl fun _ _ _ hm => quiet_of_mem hm)))
  have h1 := access_mem s.m ((rdS s.m 0 a).val + offImm3 ix (sizeOf sz)) (sizeOf sz) (sizeOf sz) accRead true
  generalize access s.m _ _ _ _ _ = r at h1
  obtain ⟨m1, _ | _ | _⟩ := r
  · exact quiet_ite (quiet_of_mem h1) (quiet_of_mem h1)
  · exact quiet_of_mem h1
  · exact quiet_of_mem h1

theorem quiet_execLSt {h : Hd} {d a : BitVec 6} {sz i : BitVec 3} (he : execLSt h d a sz i s = .next u1) :
    Quiet s.m.mem u1.m ∧ u1.trust = s.trust :=
  quiet_runWord he (quiet_noPoison rfl (quiet_accessing rfl fun _ _ _ hm => quiet_of_mem hm))

theorem quiet_execLCas {h : Hd} {d a b : BitVec 6} {z : Bool} (he : execLCas h d a b z s = .next u1) :
    Quiet s.m.mem u1.m ∧ u1.trust = s.trust :=
  quiet_runWord he (quiet_noPoison rfl (quiet_accessing rfl fun _ _ _ hm => quiet_of_mem hm))

theorem quiet_execLVld {h : Hd} {t : BitVec 2} {r a : BitVec 6} {o : BitVec 3}
    (he : execLVld h t r a o s = .next u1) :
    Quiet s.m.mem u1.m ∧ u1.trust = s.trust :=
  quiet_runWord he (quiet_ite (quiet_trapW rfl _)
    (quiet_noPoison rfl (quiet_accessing rfl fun _ _ _ hm => quiet_of_mem hm)))

theorem quiet_execLVst {h : Hd} {t : BitVec 2} {r a : BitVec 6} {o : BitVec 3} {f : BitVec 2}
    (he : execLVst h t r a o f s = .next u1) :
    Quiet s.m.mem u1.m ∧ u1.trust = s.trust :=
  quiet_runWord he (quiet_ite (quiet_trapW rfl _) (quiet_noPoison rfl (quiet_ite (quiet_trapW rfl _)
    (quiet_ite (quiet_trapA rfl _ _) (quiet_accessingAll rfl fun _ _ hm =>
      quiet_ite (quiet_trapAt hm _ _ _ _) (quiet_of_mem hm))))))

theorem quiet_execLStash {h : Hd} {t : BitVec 2} {a b : BitVec 6} (he : execLStash h t a b s = .next u1) :
    Quiet s.m.mem u1.m ∧ u1.trust = s.trust :=
  quiet_runWord he (quiet_ite (quiet_trapW rfl _) (quiet_noPoison rfl (quiet_ite (quiet_trapW rfl _)
    (quiet_ite (quiet_trapA rfl _ _) (quiet_ite (quiet_trapA rfl _ _) (quiet_accessingAll rfl fun _ _ hm =>
      quiet_ite (quiet_trapAt hm _ _ _ _) (quiet_of_mem hm)))))))

theorem quiet_execLRadd {h : Hd} {t : BitVec 2} {r a : BitVec 6} {o : BitVec 3}
    (he : execLRadd h t r a o s = .next u1) :
    Quiet s.m.mem u1.m ∧ u1.trust = s.trust := by
  refine quiet_runWord he (quiet_ite (quiet_trapW rfl _) (quiet_noPoison rfl
    (quiet_ite (quiet_trapA rfl _ _) (quiet_ite (quiet_trapW rfl _) ?_))))
  have h1 := raddReach_mem s.m (blockVas ((rdS s.m 0 a).val + offOff3 o) 4)
  generalize raddReach s.m _ = q at h1
  obtain ⟨m1, ⟨va, _ | _ | _⟩ | ps⟩ := q
  · exact quiet_of_mem h1
  · exact quiet_trapAt h1 _ _ _ _
  · exact quiet_of_mem h1
  · exact quiet_ite (quiet_of_mem h1) (quiet_of_mem h1)

theorem quiet_execLAlloc {h : Hd} {d a b : BitVec 6} (he : execLAlloc h d a b s = .next u1) :
    Quiet s.m.mem u1.m ∧ u1.trust = s.trust :=
  quiet_runWord he (quiet_noPoison rfl (quiet_ite (quiet_trapW rfl _) (quiet_ite (quiet_trapW rfl _)
    (quiet_ite (quiet_trapW rfl _) (quiet_ite (quiet_trapW rfl _) (quiet_of_mem rfl))))))

theorem quiet_execLFree {h : Hd} {a : BitVec 6} (he : execLFree h a s = .next u1) :
    Quiet s.m.mem u1.m ∧ u1.trust = s.trust := by
  refine quiet_runWord he (quiet_noPoison rfl ?_)
  split
  · exact quiet_trapA rfl _ _
  · exact quiet_of_mem rfl

theorem quiet_execLRenew {h : Hd} {a b : BitVec 6} (he : execLRenew h a b s = .next u1) :
    Quiet s.m.mem u1.m ∧ u1.trust = s.trust := by
  refine quiet_runWord he (quiet_noPoison rfl (quiet_ite (quiet_trapW rfl _) ?_))
  split
  · exact quiet_trapA rfl _ _
  · exact quiet_ite (quiet_trapW rfl _) (quiet_ite (quiet_trapA rfl _ _) (quiet_of_mem rfl))

theorem quiet_execLWin {h : Hd} {d a b : BitVec 6} (he : execLWin h d a b s = .next u1) :
    Quiet s.m.mem u1.m ∧ u1.trust = s.trust :=
  quiet_runWord he (quiet_noPoison rfl (quiet_ite (quiet_trapW rfl _)
    (quiet_accessing rfl fun _ _ _ hm => quiet_of_mem hm)))

theorem quiet_execVCvt {h : Hd} {t : BitVec 2} {d a k : BitVec 6} (he : execVCvt h t d a k s = .next u1) :
    Quiet s.m.mem u1.m ∧ u1.trust = s.trust :=
  quiet_runWord he (quiet_vCheck rfl (quiet_ite (quiet_of_mem rfl) (quiet_ite (quiet_of_mem rfl)
    (quiet_of_mem (vWrite_mem ..)))))

theorem quiet_execVRmax {h : Hd} {t : BitVec 2} {d a : BitVec 6} (he : execVRmax h t d a s = .next u1) :
    Quiet s.m.mem u1.m ∧ u1.trust = s.trust := by
  refine quiet_runWord he (quiet_vCheck rfl ?_)
  split
  · exact quiet_of_mem rfl
  · exact quiet_of_mem (vWrite_mem ..)

theorem quiet_execVRsum {h : Hd} {t : BitVec 2} {d a : BitVec 6} (he : execVRsum h t d a s = .next u1) :
    Quiet s.m.mem u1.m ∧ u1.trust = s.trust := by
  refine quiet_runWord he (quiet_vCheck rfl ?_)
  split
  · exact quiet_of_mem rfl
  · exact quiet_of_mem (vWrite_mem ..)

theorem quiet_execVMov {h : Hd} {t : BitVec 2} {d a u : BitVec 6} (he : execVMov h t d a u s = .next u1) :
    Quiet s.m.mem u1.m ∧ u1.trust = s.trust :=
  quiet_runWord he (quiet_vCheck rfl (quiet_ite (quiet_of_mem rfl) (quiet_ite (quiet_of_mem (vWrite_mem ..))
    (quiet_of_mem rfl))))

theorem quiet_execMShape {h : Hd} {sh : BitVec 3} {a : BitVec 6} (he : execMShape h sh a s = .next u1) :
    Quiet s.m.mem u1.m ∧ u1.trust = s.trust :=
  quiet_runWord he (quiet_mHold rfl (quiet_ite (quiet_trapAt rfl _ _ _ _)
    (quiet_filling rfl (quiet_ite (quiet_trapW (onArr_mem ..) _) (quiet_of_mem (mDone_mem ..))))))

theorem quiet_execMPush {h : Hd} {sh : BitVec 3} {a : BitVec 6} {w : Bool} {p : BitVec 4} {r : Bool}
    {sp : BitVec 2} (he : execMPush h sh a w p r sp s = .next u1) :
    Quiet s.m.mem u1.m ∧ u1.trust = s.trust := by
  refine quiet_runWord he (quiet_mHold rfl (quiet_ite (quiet_trapW rfl _) ?_))
  dsimp only
  split
  · exact quiet_of_mem (mDone_mem ..)
  · refine quiet_fillRows rfl fun rows => quiet_filling rfl ?_
    split
    · exact quiet_fillTrap rfl _
    · exact quiet_of_mem (mDone_mem ..)

theorem quiet_execMFeed {h : Hd} {t : BitVec 2} {sh : BitVec 3} {a : BitVec 6} {w : Bool} {x y : BitVec 4}
    {r : Bool} (he : execMFeed h t sh a w x y r s = .next u1) :
    Quiet s.m.mem u1.m ∧ u1.trust = s.trust := by
  refine quiet_runWord he (quiet_mHold rfl (quiet_ite (quiet_trapW rfl _) (quiet_ite (quiet_trapW rfl _) ?_)))
  dsimp only
  split
  · split
    · exact quiet_trapW rfl _
    · exact quiet_ite (quiet_trapW rfl _) (quiet_of_mem (mDone_mem ..))
  · refine quiet_fillRows rfl fun rows => ?_
    split
    · exact quiet_trapW rfl _
    · exact quiet_ite (quiet_trapW rfl _) (quiet_of_mem (mDone_mem ..))

theorem quiet_execMDrain {h : Hd} {t : BitVec 2} {n e hi : Bool} (he : execMDrain h t n e hi s = .next u1) :
    Quiet s.m.mem u1.m ∧ u1.trust = s.trust := by
  refine quiet_runWord he (quiet_mHold rfl (quiet_ite (quiet_trapW rfl _) (quiet_of_mem ?_)))
  simp only [mDone_mem, pushAssist_mem]
  rw [foldl_mem fun _ _ => putRowAt_mem ..]

theorem quiet_execBSafe {h : Hd} (he : execBSafe h s = .next u1) :
    Quiet s.m.mem u1.m ∧ u1.trust = s.trust :=
  quiet_runWord he (quiet_ite (quiet_of_mem rfl) (quiet_of_mem rfl))

theorem quiet_execBLadder {h : Hd} {p q u v k : BitVec 3} (he : execBLadder h p q u v k s = .next u1) :
    Quiet s.m.mem u1.m ∧ u1.trust = s.trust :=
  quiet_runWord he (quiet_ite (quiet_of_mem rfl) (quiet_ite (quiet_of_mem rfl) (quiet_ite (quiet_of_mem rfl)
    (quiet_ite (quiet_of_mem rfl) (quiet_of_mem rfl)))))

theorem quiet_execBLoop {h : Hd} {n b : BitVec 6} {e p : BitVec 4} (he : execBLoop h n b e p s = .next u1) :
    Quiet s.m.mem u1.m ∧ u1.trust = s.trust :=
  quiet_runWord he (quiet_ite (quiet_trapW rfl _) (quiet_noPoison rfl (quiet_ite (quiet_trapW rfl _)
    (quiet_ite (quiet_of_mem rfl) (quiet_of_mem rfl)))))

theorem quiet_execBOpen {h : Hd} {a b : BitVec 6} (he : execBOpen h a b s = .next u1) :
    Quiet s.m.mem u1.m ∧ u1.trust = s.trust :=
  quiet_runWord he (quiet_noPoison rfl (quiet_ite (quiet_trapW rfl _) (quiet_ite (quiet_of_mem rfl)
    (quiet_of_mem (raiseViews_mem ..)))))

theorem quiet_execBShut {h : Hd} {d a : BitVec 6} (he : execBShut h d a s = .next u1) :
    Quiet s.m.mem u1.m ∧ u1.trust = s.trust :=
  quiet_runWord he (quiet_noPoison rfl (quiet_ite (quiet_trapW rfl _) (quiet_of_mem rfl)))

theorem quiet_execBTwait {h : Hd} {e : BitVec 2} {a : BitVec 6} (he : execBTwait h e a s = .next u1) :
    Quiet s.m.mem u1.m ∧ u1.trust = s.trust :=
  quiet_runWord he (quiet_noPoison rfl (quiet_ite (quiet_of_mem rfl) (quiet_of_mem (raiseViews_mem ..))))

theorem quiet_execBArm {h : Hd} {b : BitVec 4} {a : BitVec 6} (he : execBArm h b a s = .next u1) :
    Quiet s.m.mem u1.m ∧ u1.trust = s.trust :=
  quiet_runWord he (quiet_noPoison rfl (quiet_ite (quiet_trapW rfl _) (quiet_of_mem rfl)))

theorem quiet_execBBwait {h : Hd} {b : BitVec 4} (he : execBBwait h b s = .next u1) :
    Quiet s.m.mem u1.m ∧ u1.trust = s.trust :=
  quiet_runWord he (quiet_ite (quiet_of_mem rfl) (quiet_of_mem (raiseViews_mem ..)))

theorem quiet_execBPop {h : Hd} {d a : BitVec 6} {n : Bool} {p : BitVec 3} (he : execBPop h d a n p s = .next u1) :
    Quiet s.m.mem u1.m ∧ u1.trust = s.trust := by
  refine quiet_runWord he (quiet_noPoison rfl (quiet_ite (quiet_trapW rfl _) ?_))
  dsimp only
  split
  · exact quiet_of_mem rfl
  · exact quiet_ite (quiet_of_mem rfl) (quiet_ite (quiet_of_mem rfl) (quiet_of_mem rfl))

theorem quiet_execBPush {h : Hd} {a b : BitVec 6} {l : Bool} {p : BitVec 3} (he : execBPush h a b l p s = .next u1) :
    Quiet s.m.mem u1.m ∧ u1.trust = s.trust := by
  refine quiet_runWord he (quiet_noPoison rfl (quiet_ite (quiet_trapW rfl _) (quiet_of_mem ?_)))
  rw [knownPend_mem]
  split <;> rfl

theorem quiet_execBLaunch {h : Hd} {d a : BitVec 6} (he : execBLaunch h d a s = .next u1) :
    Quiet s.m.mem u1.m ∧ u1.trust = s.trust :=
  quiet_runWord he (quiet_notArrival rfl (quiet_noPoison rfl (quiet_ite (quiet_trapA rfl _ _)
    (quiet_of_mem rfl))))

theorem quiet_execBPost {h : Hd} {sl : BitVec 4} {k : BitVec 2} {a : BitVec 6}
    (he : execBPost h sl k a s = .next u1) :
    Quiet s.m.mem u1.m ∧ u1.trust = s.trust :=
  quiet_runWord he (quiet_notArrival rfl (quiet_noPoison rfl (quiet_of_mem rfl)))

theorem quiet_execBSusp {h : Hd} {k : BitVec 3} {a b : BitVec 6} {j : BitVec 3}
    (he : execBSusp h k a b j s = .next u1) :
    Quiet s.m.mem u1.m ∧ u1.trust = s.trust :=
  quiet_runWord he (quiet_notArrival rfl (quiet_noPoison rfl (quiet_ite (quiet_trapW rfl _)
    (quiet_ite (quiet_of_mem rfl) (quiet_of_mem rfl)))))

theorem quiet_execBWrst {h : Hd} {a : BitVec 6} {sr : BitVec 10} (he : execBWrst h a sr s = .next u1) :
    Quiet s.m.mem u1.m ∧ u1.trust = s.trust := by
  refine quiet_runWord he (quiet_ite (quiet_noPoison rfl (quiet_precWord rfl _ _ _ _)) (quiet_noPoison rfl ?_))
  dsimp only
  split
  · exact quiet_ite (quiet_trapW rfl _) (quiet_of_mem rfl)
  all_goals exact quiet_of_mem rfl

theorem quiet_execBWait {h : Hd} {k : BitVec 3} {a b : BitVec 6} (he : execBWait h k a b s = .next u1) :
    Quiet s.m.mem u1.m ∧ u1.trust = s.trust :=
  quiet_runWord he (quiet_noPoison rfl (quiet_ite (quiet_trapW rfl _) (quiet_ite (quiet_of_mem rfl)
    (quiet_of_mem rfl))))

theorem quiet_execBEret {h : Hd} (he : execBEret h s = .next u1) :
    Quiet s.m.mem u1.m ∧ u1.trust = s.trust := by
  refine quiet_runWord he (quiet_ite (quiet_of_mem rfl) ?_)
  split
  · exact quiet_trapW rfl _
  · refine quiet_ite (quiet_of_mem rfl) ?_
    split
    · exact quiet_trapAt rfl _ _ _ _
    · exact quiet_of_mem rfl
end

/-- Every word but b.cancel leaves memory as it was, or traps there. -/
theorem quiet_exec {i : Instr} {s u : State} (hword : isWord i = true) (hcancel : ∀ h l, i ≠ .bCancel h l)
    (he : exec i s = .next u) : Quiet s.m.mem u.m ∧ u.trust = s.trust := by
  unfold exec at he
  cases i with
  | xNop | xAdd | xSub | xMul | xMulh | xAnd | xOr | xXor | xShl | xShr | xSar | xMin | xMax | xClz | xPcnt | xSext
      | xPand | xPor | xPxor | xFadd | xFmul | xFmax | xFcvt | mNop | bJmp | bCall | bTgt | bFence | bExit | bTrap
          | bRdst | bBrk => exact quiet_runWord he (quiet_of_mem rfl)
  | xDiv | xRem => exact quiet_runWord he (quiet_xDivLike rfl _ _ _ _)
  | xCmp => exact quiet_execXCmp he
  | xChk => exact quiet_execXChk he
  | kImm =>
    obtain rfl := Host.Outcome.next.inj he
    exact ⟨quiet_of_mem rfl, rfl⟩
  | lLd => exact quiet_execLLd he
  | lSt => exact quiet_execLSt he
  | lCas => exact quiet_execLCas he
  | lAmoAdd | lAmoAnd | lAmoOr | lAmoXor | lAmoMin | lAmoMax | lAmoSwap =>
    exact quiet_runWord he (quiet_amoWord rfl _ _ _ _ _)
  | lVld => exact quiet_execLVld he
  | lVst => exact quiet_execLVst he
  | lStash => exact quiet_execLStash he
  | lRadd => exact quiet_execLRadd he
  | lAlloc => exact quiet_execLAlloc he
  | lFree => exact quiet_execLFree he
  | lRenew => exact quiet_execLRenew he
  | lWin => exact quiet_execLWin he
  | lCopy | lGath | lRld | lRst | lRred | lMcast => exact quiet_runWord he (quiet_engineWord rfl _ _ _ _)
  | vAdd | vSub | vMul | vMax | vMin => exact quiet_runWord he (quiet_vBin rfl _ _ _ _ _ _)
  | vFma => exact quiet_runWord he (quiet_vCheck rfl (quiet_of_mem (vWrite_mem ..)))
  | vNeg | vAbs | vExp2 | vLog2 | vRcp | vRsqrt => exact quiet_runWord he (quiet_vUn rfl _ _ _ _ _ _)
  | vCvt => exact quiet_execVCvt he
  | vCmpLt | vCmpLe | vCmpEq => exact quiet_runWord he (quiet_vCmp rfl _ _ _ _ _)
  | vSel | vPut => exact quiet_runWord he (quiet_vCheck rfl (quiet_ite (quiet_of_mem rfl) (quiet_of_mem rfl)))
  | vRmax => exact quiet_execVRmax he
  | vRsum => exact quiet_execVRsum he
  | vBcast | vGet | vPerm => exact quiet_runWord he (quiet_vCheck rfl (quiet_of_mem (vMove_mem ..)))
  | vMov => exact quiet_execVMov he
  | vAnd | vOr | vXor => exact quiet_runWord he (quiet_vBits rfl _ _ _ _ _)
  | mPrec => exact quiet_runWord he (quiet_precWord rfl _ _ _ _)
  | mShape => exact quiet_execMShape he
  | mPush => exact quiet_execMPush he
  | mSwap | mClear => exact quiet_runWord he (quiet_mHold rfl (quiet_of_mem (mDone_mem ..)))
  | mFeed => exact quiet_execMFeed he
  | mDrain => exact quiet_execMDrain he
  | bSafe => exact quiet_execBSafe he
  | bLadder => exact quiet_execBLadder he
  | bLoop => exact quiet_execBLoop he
  | bOpen => exact quiet_execBOpen he
  | bShut => exact quiet_execBShut he
  | bTwait => exact quiet_execBTwait he
  | bArm => exact quiet_execBArm he
  | bBwait => exact quiet_execBBwait he
  | bPop => exact quiet_execBPop he
  | bPush => exact quiet_execBPush he
  | bLaunch => exact quiet_execBLaunch he
  | bPost => exact quiet_execBPost he
  | bSusp => exact quiet_execBSusp he
  | bWrst => exact quiet_execBWrst he
  | bCancel h l => exact absurd rfl (hcancel h l)
  | bWait => exact quiet_execBWait he
  | bEret => exact quiet_execBEret he
  | _ => cases hword

/-- A trap of the word being issued is seen in the issue frame. -/
@[simp] theorem trapAt_trapped (m : Mach) (c : Byte) (a i : Word) (t : Option Nat) :
    (trapAt m c a i t).iss.trapped = true := rfl

/-- A quiet answer that has not trapped has memory as it was. -/
theorem Quiet.mem_eq {mem : List Host.Cell} {m : Mach} (h : Quiet mem m) (ht : m.iss.trapped = false) : m.mem = mem
    := by
  obtain hm | ⟨m1, c, a, i, t, -, rfl⟩ := h
  · exact hm
  · cases ht

end Sys2Proof.Machine

open Sys2Proof Sys2Proof.Machine

/-- Settles O60: every word's answer is quiet, and a quiet answer that has not trapped keeps memory. -/
theorem wordsLeaveMemory : Obligations.WordsLeaveMemory := by
  unfold Obligations.WordsLeaveMemory
  intro i s u hword hcancel he ht
  obtain ⟨hquiet, htrust⟩ := quiet_exec hword hcancel he
  exact ⟨hquiet.mem_eq ht, htrust⟩

end

section
/-!
PROOFS. The second operand of an X word, its comparisons, its divisions, its poison, and words under a false guard
(spec/04 R66, spec/05 R88, spec/23 R374, R375, R380, R382, R383, R397).
-/

namespace Sys2Proof.Machine

/-! ### Immediates under K words -/

/-- spec/05 R88: one K word stands above the six bits of the immediate. -/
theorem immValue_one_k (b : BitVec 6) (k : BitVec 25) : immValue 6 b.toNat [k] =
    ((k ++ b : BitVec 31).signExtend 64) := by
  have hfield : (k ++ b : BitVec 31).toNat = k.toNat * 2 ^ 6 + b.toNat % 64 := by
    have := b.isLt
    rw [BitVec.toNat_append, ← Nat.shiftLeft_add_eq_or_of_lt b.isLt, Nat.shiftLeft_eq]
    omega
  rw [immValue, ← hfield]
  exact wordOfInt_sextInt_toNat _

/-- spec/05 R88: of two K words the later one stands highest. -/
theorem immValue_two_k (b : BitVec 6) (k1 k2 : BitVec 25) :
    immValue 6 b.toNat [k1, k2] = ((k2 ++ k1 ++ b : BitVec 56).signExtend 64) := by
  have hfield : (k2 ++ k1 ++ b : BitVec 56).toNat = k2.toNat * 2 ^ 31 + k1.toNat * 2 ^ 6 + b.toNat % 64 := by
    have := b.isLt
    rw [BitVec.toNat_append, ← Nat.shiftLeft_add_eq_or_of_lt b.isLt, Nat.shiftLeft_eq, BitVec.toNat_append,
      ← Nat.shiftLeft_add_eq_or_of_lt k1.isLt, Nat.shiftLeft_eq]
    omega
  rw [immValue, ← hfield]
  exact wordOfInt_sextInt_toNat _

/-! ### Guards -/

/-- spec/04 R66: whatever the word, a false guard makes it do nothing. -/
theorem exec_of_guard_false {i : Instr} {h : Hd} {s : State} (hhead : headOf i = some h)
    (hg : guardTrue s.m h = false) :
    exec i s = .next s := by
  unfold exec
  cases i <;> cases hhead <;> exact runWord_false _ hg

/-! ### Poison in X words (spec/23 R375) -/

/-- The first poisoned source of two, as the two rows of R375 name it. -/
theorem firstPoison_of {x y q : Scalar}
    (hq : x.pois = true ∧ q = x ∨ x.pois = false ∧ y.pois = true ∧ q = y) : firstPoison x y = some q := by
  obtain ⟨hx, rfl⟩ | ⟨hx, hy, rfl⟩ := hq
  · simp [firstPoison, hx]
  · simp [firstPoison, hx, hy]

/-- Unpoisoned sources have no first poisoned one. -/
theorem firstPoison_none {x y : Scalar} (hx : x.pois = false) (hy : y.pois = false) : firstPoison x y = none := by
  simp [firstPoison, hx, hy]

/-- An X word with a scalar destination and a poisoned source sends poison. -/
theorem runWord_xBin_poison {s : State} {h : Hd} {lat : Nat} {d a : BitVec 6} {y : Mach → Scalar}
    {f : Word → Word → Word}
    {q : Scalar} (hg : guardTrue s.m h = true) (hq : firstPoison (rdS s.m 0 a) (y s.m) = some q) :
    runWord s h (fun m => xBin m lat d a (y m) f) = .next { s with m := putS s.m lat d (poisonedResult s.m q) } := by
  rw [runWord_true _ hg, xBin, xResult, hq]

/-- A divisor that is not an unpoisoned zero leaves the ordinary result. -/
theorem xDivLike_of_poison {m : Mach} {d a : BitVec 6} {y q : Scalar} {f : Word → Word → Word}
    (hq : firstPoison (rdS m 0 a) y = some q) : xDivLike m d a y f = putS m 20 d (poisonedResult m q) := by
  have hpois : (!(rdS m 0 a).pois && !y.pois && y.val == 0) = false := by
    unfold firstPoison at hq
    split at hq
    · simp [*]
    · split at hq
      · simp [*]
      · cases hq
  rw [xDivLike, hpois, if_neg Bool.false_ne_true, xBin, xResult, hq]

theorem xDivLike_clean {m : Mach} {d a : BitVec 6} {y : Scalar} {f : Word → Word → Word}
    (ha : (rdS m 0 a).pois = false) (hy : y.pois = false) (hv : y.val ≠ 0) :
    xDivLike m d a y f = putS m 20 d { val := f (rdS m 0 a).val y.val } := by
  rw [xDivLike, if_neg (by simpa using fun _ _ => hv), xBin, xResult_clean _ _ _ f ha hy]

theorem xDivLike_zero {m : Mach} {d a : BitVec 6} {y : Scalar} {f : Word → Word → Word}
    (ha : (rdS m 0 a).pois = false) (hy : y.pois = false) (hv : y.val = 0) : xDivLike m d a y f = trapW m 0x1C := by
  rw [xDivLike, if_pos (by simp [ha, hy, hv])]

/-! ### Conditions of x.cmp (spec/23 Table 23-3) -/

/-- Two words have a common one bit where their AND is not zero. -/
theorem and_ne_zero_iff_common_bit (x y : Word) :
    (x &&& y != 0) = true ↔ ∃ i < 64, x.getLsbD i = true ∧ y.getLsbD i = true := by
  rw [bne_iff_ne, ne_eq, BitVec.eq_of_getLsbD_eq_iff, not_forall]
  refine exists_congr fun i => ?_
  rw [Classical.not_imp, BitVec.getLsbD_and]
  simp

/-! ### Quotients and remainders as integers (spec/23 R383, R397) -/

/-- A word of an integer that a word can hold is that integer. -/
theorem toInt_wordOfInt {i : Int} (hlo : -2 ^ 63 ≤ i) (hhi : i < 2 ^ 63) : (wordOfInt i).toInt = i := by
  rw [wordOfInt, BitVec.toInt_ofInt]
  exact Int.bmod_eq_of_le (by omega) (by omega)

/-- A quotient of words is the word of the truncated quotient, but for the one that overflows. -/
theorem toInt_wordOfInt_tdiv (x y : Word) (h : ¬(x.toInt = -2 ^ 63 ∧ y.toInt = -1)) :
    (wordOfInt (Int.tdiv x.toInt y.toInt)).toInt = Int.tdiv x.toInt y.toInt := by
  rw [wordOfInt, BitVec.toInt_ofInt, ← BitVec.toInt_sdiv, BitVec.toInt_sdiv_of_ne_or_ne]
  by_contra hc
  simp only [not_or, not_not] at hc
  obtain ⟨rfl, rfl⟩ := hc
  exact h (by decide)

/-- A remainder of words always fits. -/
theorem toInt_wordOfInt_tmod (x y : Word) : (wordOfInt (Int.tmod x.toInt y.toInt)).toInt = Int.tmod x.toInt y.toInt
    := by
  have hx1 := BitVec.le_toInt x
  have hx2 := BitVec.toInt_lt (x := x)
  have habs := Int.natAbs_tmod x.toInt y.toInt
  have hle : x.toInt.natAbs % y.toInt.natAbs ≤ x.toInt.natAbs := Nat.mod_le _ _
  have hsign : x.toInt ≤ 0 → Int.tmod x.toInt y.toInt ≤ 0 := by
    intro h
    have := Int.tmod_nonneg y.toInt (Int.neg_nonneg.2 h)
    rw [Int.neg_tmod] at this
    omega
  have hsign' : 0 ≤ x.toInt → 0 ≤ Int.tmod x.toInt y.toInt := Int.tmod_nonneg _
  exact toInt_wordOfInt (by omega) (by omega)

end Sys2Proof.Machine

open Sys2Proof Sys2Proof.Machine

/-- Settles O3: an immediate below K words is the sign extension of the bits put together. -/
theorem immediateOperands : Obligations.ImmediateOperands := by
  unfold Obligations.ImmediateOperands
  refine ⟨fun s k => rfl, fun m b => ⟨rfl, rfl⟩, fun m b => ⟨rfl, rfl, ?zext, ?none, ?one, ?two⟩⟩
  case zext =>
    have := b.isLt
    rw [opBZ_immediate, BitVec.toNat_setWidth]
    omega
  case none =>
    intro hk
    rw [opBK_immediate, hk, immValue_no_k]
    exact BitVec.toInt_signExtend_of_le (by decide)
  case one =>
    intro k hk
    rw [opBK_immediate, hk, immValue_one_k]
  case two =>
    intro k1 k2 hk
    rw [opBK_immediate, hk, immValue_two_k]

/-- Settles O8, by cases on the word: each runs under its guard. -/
theorem guardsAndNops : Obligations.GuardsAndNops := by
  unfold Obligations.GuardsAndNops
  exact ⟨fun i h s hhead hg => exec_of_guard_false hhead hg, fun h s => ⟨runWord_id s h, runWord_id s h⟩⟩

/-- Settles O4: each condition code, read as its comparison. -/
theorem comparePredicates : Obligations.ComparePredicates := by
  unfold Obligations.ComparePredicates
  refine ⟨?_, fun h p a b ix => rfl⟩
  intro s h p k a b ix hg ha hb x y
  refine ⟨cmpCond k x y, ?run, ?_, ?_, ?_, ?_, ?_, ?_, ?_⟩
  case run =>
    refine (exec_xCmp h p k a ix b s).trans ((runWord_true _ hg).trans ?_)
    rw [firstPoison_none ha hb]
  all_goals rintro rfl
  · exact beq_iff_eq
  · exact bne_iff_ne
  · exact BitVec.slt_iff_toInt_lt
  · exact BitVec.sle_iff_toInt_le
  · exact BitVec.ult_iff_lt
  · exact BitVec.ule_iff_le
  · exact and_ne_zero_iff_common_bit x y

/-- Settles O7: a divisor, unpoisoned and not zero, gives the truncated quotient and remainder; poison passes
    through. -/
theorem divisionAndPoison : Obligations.DivisionAndPoison := by
  unfold Obligations.DivisionAndPoison
  refine ⟨?division, ?poison, ?check⟩
  case division =>
    intro s h d a b ix hg ha hb x y
    refine ⟨fun hy => ⟨wordOfInt (Int.tdiv x.toInt y.toInt), wordOfInt (Int.tmod x.toInt y.toInt),
      toInt_wordOfInt_tdiv x y, ?_, toInt_wordOfInt_tmod x y, ?_, ?_⟩, fun hy => ⟨?_, ?_⟩⟩
    · rintro ⟨hx, hy⟩
      rw [hx, hy]
      rfl
    · exact (exec_xDiv h d a ix b s).trans ((runWord_true _ hg).trans (by rw [xDivLike_clean ha hb hy]))
    · exact (exec_xRem h d a ix b s).trans ((runWord_true _ hg).trans (by rw [xDivLike_clean ha hb hy]))
    · exact (exec_xDiv h d a ix b s).trans ((runWord_true _ hg).trans (by rw [xDivLike_zero ha hb hy]))
    · exact (exec_xRem h d a ix b s).trans ((runWord_true _ hg).trans (by rw [xDivLike_zero ha hb hy]))
  case poison =>
    intro s h d a b ix hg q hq v
    have hfirst := firstPoison_of hq
    refine ⟨(exec_xAdd h d a ix b s).trans (runWord_xBin_poison hg hfirst),
      (exec_xSub h d a ix b s).trans (runWord_xBin_poison hg hfirst),
      (exec_xMul h d a ix b s).trans (runWord_xBin_poison hg hfirst),
      (exec_xMulh h d a ix b s).trans (runWord_xBin_poison hg hfirst),
      (exec_xDiv h d a ix b s).trans ((runWord_true _ hg).trans (by rw [xDivLike_of_poison hfirst]; rfl)),
      (exec_xRem h d a ix b s).trans ((runWord_true _ hg).trans (by rw [xDivLike_of_poison hfirst]; rfl)),
      (exec_xAnd h d a ix b s).trans (runWord_xBin_poison hg hfirst),
      (exec_xOr h d a ix b s).trans (runWord_xBin_poison hg hfirst),
      (exec_xXor h d a ix b s).trans (runWord_xBin_poison hg hfirst),
      (exec_xMin h d a ix b s).trans (runWord_xBin_poison hg hfirst),
      (exec_xMax h d a ix b s).trans (runWord_xBin_poison hg hfirst), fun p k => ?_⟩
    refine (exec_xCmp h p k a ix b s).trans ((runWord_true _ hg).trans ?_)
    rw [hfirst]
    rfl
  case check =>
    refine fun s h a hg => ⟨fun ha => ?_, fun ha => ?_⟩
    · refine (exec_xChk h a s).trans ((runWord_true _ hg).trans ?_)
      rw [ha, if_neg Bool.false_ne_true]
    · refine (exec_xChk h a s).trans ((runWord_true _ hg).trans ?_)
      rw [if_pos ha]

end

section
/-!
PROOFS. Results in flight: what sending one changes, and what a read sees of it (spec/04 R67, R69).
-/

namespace Sys2Proof.Machine

/-! ### What a register holds -/

/-- The content of a register of any kind, as the scalar that a result for it carries. -/
def regOf (c : Ctx) : Dst → Scalar
  | .s n => smGet {} c.sregs n.toNat
  | .p n => { val := if c.preds.getLsbD n.toNat then 1 else 0 }
  | .b n => { val := (smGet 0 c.bregs n.toNat).setWidth 64 }

/-- What a register keeps of a scalar that is stored in it. -/
def keptOf (v : Scalar) : Dst → Scalar
  | .s _ => v
  | .p _ => { val := if v.val.getLsbD 0 then 1 else 0 }
  | .b _ => { val := (v.val.setWidth 32 : W32).setWidth 64 }

theorem getLsbD_setBit (x : BitVec 8) (b : Bool) (n k : BitVec 3) :
    (if b then x ||| BitVec.ofNat 8 (2 ^ n.toNat) else x &&& ~~~(BitVec.ofNat 8 (2 ^ n.toNat))).getLsbD k.toNat =
      if k = n then b else x.getLsbD k.toNat := by
  have hbit : (BitVec.ofNat 8 (2 ^ n.toNat)).getLsbD k.toNat = decide (k = n) := by revert n k; decide
  have hk : k.toNat < 8 := by omega
  generalize BitVec.ofNat 8 (2 ^ n.toNat) = y at hbit
  cases b with
  | true =>
    rw [if_pos rfl, BitVec.getLsbD_or, hbit]
    split <;> simp [*]
  | false =>
    rw [if_neg Bool.false_ne_true, BitVec.getLsbD_and, BitVec.getLsbD_not, hbit]
    split <;> simp [*]

theorem regOf_storeReg_same (c : Ctx) {d : Dst} (v : Scalar) (hd : discarded d = false) :
    regOf (storeReg c d v) d = keptOf v d := by
  unfold storeReg
  rw [hd, if_neg Bool.false_ne_true]
  cases d with
  | s n => exact smGet_put_same _ _ _ _
  | p n => simp only [regOf, keptOf, getLsbD_setBit, if_true]
  | b n => simp only [regOf, keptOf, smGet_put_same]

theorem regOf_storeReg_ne (c : Ctx) {d e : Dst} (v : Scalar) (he : e ≠ d) : regOf (storeReg c d v) e = regOf c e := by
  unfold storeReg
  split
  · rfl
  · cases d with
    | s n =>
      cases e with
      | s k => exact smGet_put_ne _ _ (fun h => he (congrArg Dst.s (BitVec.eq_of_toNat_eq h))) _
      | p k => rfl
      | b k => rfl
    | p n =>
      cases e with
      | s k => rfl
      | p k => simp only [regOf, getLsbD_setBit, if_neg (fun h => he (congrArg Dst.p h))]
      | b k => rfl
    | b n =>
      cases e with
      | s k => rfl
      | p k => rfl
      | b k => simp only [regOf, smGet_put_ne (0 : W32) c.bregs
          (fun h => he (congrArg Dst.b (BitVec.eq_of_toNat_eq h)))]

@[simp] theorem storeReg_flight (c : Ctx) (d : Dst) (v : Scalar) : (storeReg c d v).flight = c.flight := by
  unfold storeReg
  split
  · rfl
  · cases d <;> rfl

/-! ### Landing -/

/-- One step of landing: a result that has been superseded is dropped. -/
def landOne (c : Ctx) (f : Flight) : Ctx := if f.dead then c else storeReg c f.dst f.v

theorem landDue_eq (c : Ctx) (t : Nat) :
    landDue c t = (c.flight.filter (fun f => f.landAt ≤ t)).foldl landOne
      { c with flight := c.flight.filter (fun f => t < f.landAt) } := rfl

theorem foldl_landOne_flight (l : List Flight) (c : Ctx) : (l.foldl landOne c).flight = c.flight := by
  induction l generalizing c with
  | nil => rfl
  | cons f l ih =>
    rw [List.foldl_cons, ih, landOne]
    split
    · rfl
    · exact storeReg_flight ..

theorem regOf_landOne_congr {c1 c2 : Ctx} {e : Dst} (f : Flight) (h : regOf c1 e = regOf c2 e) :
    regOf (landOne c1 f) e = regOf (landOne c2 f) e := by
  unfold landOne
  split
  · exact h
  · by_cases hf : e = f.dst
    · subst hf
      by_cases hd : discarded f.dst = true
      · simpa only [storeReg, hd, if_true] using h
      · rw [regOf_storeReg_same _ _ (Bool.eq_false_iff.2 hd), regOf_storeReg_same _ _ (Bool.eq_false_iff.2 hd)]
    · rw [regOf_storeReg_ne _ _ hf, regOf_storeReg_ne _ _ hf, h]

theorem regOf_foldl_landOne_congr (l : List Flight) {c1 c2 : Ctx} {e : Dst} (h : regOf c1 e = regOf c2 e) :
    regOf (l.foldl landOne c1) e = regOf (l.foldl landOne c2) e := by
  induction l generalizing c1 c2 with
  | nil => exact h
  | cons f l ih => exact ih (regOf_landOne_congr f h)

/-- What a register holds after landing: the results that are due, one after the other, upon what it held. -/
theorem regOf_landDue (c : Ctx) (t : Nat) (e : Dst) :
    regOf (landDue c t) e = regOf ((c.flight.filter (fun f => f.landAt ≤ t)).foldl landOne c) e :=
  regOf_foldl_landOne_congr _ (by cases e <;> rfl)

theorem regOf_landOne_ne (c : Ctx) {e : Dst} (f : Flight) (h : e ≠ f.dst) : regOf (landOne c f) e = regOf c e := by
  unfold landOne
  split
  · rfl
  · exact regOf_storeReg_ne _ _ h

/-- Landing does not change which results are still in flight. -/
theorem inFlight_landDue (c : Ctx) (d : Dst) (t : Nat) : inFlight (landDue c t) d t = inFlight c d t := by
  rw [inFlight, inFlight, landDue_eq, foldl_landOne_flight, Bool.eq_iff_iff]
  simp only [List.any_eq_true, List.mem_filter, Bool.and_eq_true, decide_eq_true_eq]
  exact ⟨fun ⟨f, ⟨hf, _⟩, h⟩ => ⟨f, hf, h⟩, fun ⟨f, hf, hd, ht⟩ => ⟨f, ⟨hf, ht⟩, hd, ht⟩⟩

/-! ### A result sent on its way -/

/-- The flight that sending a result adds. -/
def newFlight (now lat : Nat) (d : Dst) (v : Scalar) : Flight :=
  { dst := d, issued := now, landAt := now + lat, v := v, dead := false }

/-- What sending a result to `d` does to a result in flight. -/
def superseded (d : Dst) (f : Flight) : Flight := if f.dst = d then { f with dead := true } else f

theorem putFlight_eq (c : Ctx) (now lat : Nat) {d : Dst} (v : Scalar) (hd : discarded d = false) :
    putFlight c now lat d v = { c with flight := c.flight.map (superseded d) ++ [newFlight now lat d v] } := by
  have hmap : superseded d = fun f => if [d].contains f.dst then { f with dead := true } else f :=
    funext fun f => by simp [superseded]
  rw [putFlight, hd, if_neg Bool.false_ne_true, hmap]
  rfl

theorem putFlight_discarded (c : Ctx) (now lat : Nat) {d : Dst} (v : Scalar) (hd : discarded d = true) :
    putFlight c now lat d v = c := by
  rw [putFlight, if_pos hd]

@[simp] theorem superseded_dst (d : Dst) (f : Flight) : (superseded d f).dst = f.dst := by
  unfold superseded
  split <;> rfl

@[simp] theorem superseded_landAt (d : Dst) (f : Flight) : (superseded d f).landAt = f.landAt := by
  unfold superseded
  split <;> rfl

/-- A register is in flight once a result for it is sent, until the bound has passed. -/
theorem inFlight_putFlight (c : Ctx) (now lat : Nat) {d : Dst} (v : Scalar) (hd : discarded d = false) (e : Dst)
    (t : Nat) :
    inFlight (putFlight c now lat d v) e t = (inFlight c e t || (d == e && t < now + lat)) := by
  simp only [putFlight_eq c now lat v hd, inFlight, List.any_append, List.any_map, List.any_cons, List.any_nil,
    Bool.or_false, newFlight]
  congr 1
  exact congrArg (c.flight.any ·) (funext fun f => by simp)

theorem inFlight_putFlight_ne (c : Ctx) (now lat : Nat) {d e : Dst} (v : Scalar) (he : e ≠ d) {t : Nat} :
    inFlight (putFlight c now lat d v) e t = inFlight c e t := by
  by_cases hd : discarded d = true
  · rw [putFlight_discarded _ _ _ _ hd]
  · rw [inFlight_putFlight _ _ _ _ (Bool.eq_false_iff.2 hd), beq_eq_false_iff_ne.2 (Ne.symm he), Bool.false_and,
      Bool.or_false]

/-- Landing the results that were in flight before, superseded or not, agrees at every register but the one sent
    to. -/
theorem regOf_foldl_superseded {d e : Dst} (he : e ≠ d) (t : Nat) (l : List Flight) {c1 c2 : Ctx}
    (h : regOf c1 e = regOf c2 e) :
    regOf (((l.map (superseded d)).filter (fun f => f.landAt ≤ t)).foldl landOne c1) e =
      regOf ((l.filter (fun f => f.landAt ≤ t)).foldl landOne c2) e := by
  induction l generalizing c1 c2 with
  | nil => exact h
  | cons f l ih =>
    simp only [List.map_cons, List.filter_cons, superseded_landAt]
    split
    · rw [List.foldl_cons, List.foldl_cons]
      refine ih ?_
      by_cases hf : f.dst = d
      · have hne : e ≠ f.dst := fun h => he (h.trans hf)
        rw [regOf_landOne_ne _ _ (by simpa using hne), regOf_landOne_ne _ _ hne, h]
      · rw [show superseded d f = f from if_neg hf]
        exact regOf_landOne_congr f h
    · exact ih h

/-- Sending a result to one register leaves what another will hold. -/
theorem regOf_landDue_putFlight_ne (c : Ctx) (now lat : Nat) {d e : Dst} (v : Scalar) (t : Nat) (he : e ≠ d) :
    regOf (landDue (putFlight c now lat d v) t) e = regOf (landDue c t) e := by
  by_cases hd : discarded d = true
  · rw [putFlight_discarded _ _ _ _ hd]
  · rw [putFlight_eq _ _ _ _ (Bool.eq_false_iff.2 hd), regOf_landDue, regOf_landDue, List.filter_append,
      List.foldl_append]
    have hbefore : regOf (((c.flight.map (superseded d)).filter (fun f => f.landAt ≤ t)).foldl landOne
        { c with flight := c.flight.map (superseded d) ++ [newFlight now lat d v] }) e =
        regOf ((c.flight.filter (fun f => f.landAt ≤ t)).foldl landOne c) e :=
      regOf_foldl_superseded he t _ (by cases e <;> rfl)
    rw [← hbefore, List.filter_cons]
    split
    · exact regOf_landOne_ne _ (newFlight now lat d v) he
    · rfl

/-- From the bound on the register holds the result, whatever else was in flight for it before. -/
theorem regOf_landDue_putFlight_same (c : Ctx) {now lat t : Nat} {d : Dst} (v : Scalar) (hd : discarded d = false)
    (ht : now + lat ≤ t) : regOf (landDue (putFlight c now lat d v) t) d = keptOf v d := by
  rw [putFlight_eq _ _ _ _ hd, regOf_landDue]
  have hdue : [newFlight now lat d v].filter (fun f => f.landAt ≤ t) = [newFlight now lat d v] := by
    simpa [newFlight] using ht
  rw [List.filter_append, hdue, List.foldl_append]
  exact regOf_storeReg_same _ v hd

/-! ### Reads -/

theorem scalarOf_landDue (c : Ctx) (t ix : Nat) {n : BitVec 6} (hn : n ≠ 0) :
    scalarOf (landDue c t) t ix n =
      if inFlight c (.s n) t then { val := Config.freeWord ix } else regOf (landDue c t) (.s n) := by
  rw [scalarOf, if_neg hn, inFlight_landDue]
  rfl

theorem predOf_landDue (c : Ctx) (t ix : Nat) {n : BitVec 3} (hn : n ≠ 0) :
    predOf (landDue c t) t ix n =
      if inFlight c (.p n) t then Config.freeBit ix else (regOf (landDue c t) (.p n)).val.getLsbD 0 := by
  rw [predOf, if_neg hn, inFlight_landDue, regOf]
  cases (landDue c t).preds.getLsbD n.toNat <;> rfl

theorem targetReg_landDue (c : Ctx) (t ix : Nat) (n : BitVec 3) :
    targetReg (landDue c t) t ix n =
      if inFlight c (.b n) t then Config.freePacket ix else (regOf (landDue c t) (.b n)).val.setWidth 32 := by
  rw [targetReg, inFlight_landDue, regOf]
  simp

/-- Results for a register that have all landed are not in flight. -/
theorem inFlight_of_landed {c : Ctx} {d : Dst} {t : Nat} (h : ∀ f ∈ c.flight, f.dst = d → f.landAt ≤ t) :
    inFlight c d t = false := by
  rw [inFlight, List.any_eq_false]
  intro f hf
  simp only [Bool.and_eq_true, beq_iff_eq, decide_eq_true_eq, not_and, not_lt]
  exact h f hf

/-! ### What sending a result changes of the machine -/

/-- What a change of the issuing context leaves. -/
theorem onIss_frame (m : Mach) (f : Ctx → Ctx) :
    (onIss m f).mem = m.mem ∧ { onIss m f with cores := [] } = { m with cores := [] } ∧
    (∀ c, { getCore (onIss m f) c with ctxs := [] } = { getCore m c with ctxs := [] }) ∧
    (∀ c i, (c ≠ m.iss.core ∨ i ≠ m.iss.ctx) → getCtx (onIss m f) c i = getCtx m c i) := by
  refine ⟨rfl, rfl, fun c => ?_, fun c i h => getCtx_setCtx_ne m h _⟩
  by_cases hc : c = m.iss.core
  · subst hc
    exact congrArg (fun k : Core => { k with ctxs := [] }) (getCore_setCore m _ _)
  · exact congrArg (fun k : Core => { k with ctxs := [] }) (getCore_setCore_ne m hc _)

theorem putFlight_only_flight (c : Ctx) (now lat : Nat) (d : Dst) (v : Scalar) :
    putFlight c now lat d v = { c with flight := (putFlight c now lat d v).flight } := by
  unfold putFlight
  split <;> rfl

/-- A result sent to a register of any kind changes the list of results in flight of the issuing context. -/
theorem onIss_putFlight_frame (m : Mach) (lat : Nat) (d : Dst) (v : Scalar) :
    let m' := onIss m (fun c => putFlight c m.cycle lat d v)
    m'.mem = m.mem ∧ { m' with cores := [] } = { m with cores := [] } ∧
    (∀ c, { getCore m' c with ctxs := [] } = { getCore m c with ctxs := [] }) ∧
    (∀ c i, (c ≠ m.iss.core ∨ i ≠ m.iss.ctx) → getCtx m' c i = getCtx m c i) ∧
    (∃ fl : List Flight, getCtx m' m.iss.core m.iss.ctx = { getCtx m m.iss.core m.iss.ctx with flight := fl }) := by
  obtain ⟨hmem, hrest, hcore, hctx⟩ := onIss_frame m (fun c => putFlight c m.cycle lat d v)
  exact ⟨hmem, hrest, hcore, hctx, _, (getCtx_setCtx m _ _ _).trans (putFlight_only_flight ..)⟩

end Sys2Proof.Machine

open Sys2Proof Sys2Proof.Machine

/-- Settles O9: a result is a flight of its context; a read sees it from its bound on, and of two for one register the
later supersedes the earlier. -/
theorem resultsInFlight : Obligations.ResultsInFlight := by
  unfold Obligations.ResultsInFlight
  refine ⟨?frame, ?reads, ?writers⟩
  case frame =>
    rintro m m' lat v w x d p b (rfl | rfl | rfl)
    · exact onIss_putFlight_frame m lat (.s d) v
    · exact onIss_putFlight_frame m lat (.p p) { val := if w then 1 else 0 }
    · exact onIss_putFlight_frame m lat (.b b) { val := x.setWidth 64 }
  case reads =>
    intro c now lat t ix v hnow
    refine ⟨fun n hn hlanded => ?_, fun n hn hlanded => ?_, fun n hlanded => ?_, fun d n hd => ?_, rfl, rfl, rfl, rfl⟩
    · have hd : discarded (.s n) = false := by simpa [discarded] using hn
      rw [scalarOf_landDue _ _ _ hn, inFlight_putFlight _ _ _ _ hd, inFlight_of_landed hlanded]
      by_cases ht : t < now + lat
      · simp [ht]
      · simp [ht, regOf_landDue_putFlight_same c v hd (not_lt.1 ht), keptOf]
    · have hd : discarded (.p n) = false := by simpa [discarded] using hn
      rw [predOf_landDue _ _ _ hn, inFlight_putFlight _ _ _ _ hd, inFlight_of_landed hlanded]
      by_cases ht : t < now + lat
      · simp [ht]
      · rw [regOf_landDue_putFlight_same c v hd (not_lt.1 ht), keptOf]
        cases v.val.getLsbD 0 <;> simp [ht]
    · have hd : discarded (.b n) = false := rfl
      rw [targetReg_landDue, inFlight_putFlight _ _ _ _ hd, inFlight_of_landed hlanded]
      by_cases ht : t < now + lat
      · simp [ht]
      · simp [ht, regOf_landDue_putFlight_same c v hd (not_lt.1 ht), keptOf]
    · by_cases hn : n = 0
      · rw [hn, scalarOf, scalarOf, if_pos rfl, if_pos rfl]
      · rw [scalarOf_landDue _ _ _ hn, scalarOf_landDue _ _ _ hn, regOf_landDue_putFlight_ne _ _ _ _ _ (Ne.symm hd),
          inFlight_putFlight_ne _ _ _ _ (Ne.symm hd)]
  case writers =>
    intro c t1 l1 t2 l2 t ix n v1 v2 hn hnone h12 hover ht2
    have hd : discarded (.s n) = false := by simpa [discarded] using hn
    have hfree : inFlight c (.s n) t = false := inFlight_of_landed fun f hf he => absurd he (hnone f hf)
    rw [scalarOf_landDue _ _ _ hn, inFlight_putFlight _ _ _ _ hd, inFlight_putFlight _ _ _ _ hd, hfree]
    by_cases hlate : t2 + l2 ≤ t
    · rw [regOf_landDue_putFlight_same _ _ hd hlate]
      by_cases hearly : t1 + l1 ≤ t
      · simp [not_lt.2 hearly, not_lt.2 hlate, keptOf]
      · simp [not_le.1 hearly]
    · simp [not_le.1 hlate]

end

section
/-!
PROOFS. The checks of a bundle before any of its words runs (spec/04 R63, spec/05 R85 to R87), and words that the
    encoding
tables write out.
-/

namespace Sys2Proof.Machine

/-! ### The first word that fails a check -/

theorem zipIdx_find_none_iff {ws : List FWord} {bad : Nat → FWord → Bool} :
    ws.zipIdx.find? (fun e => bad e.2 e.1) = none ↔ ∀ k x, ws[k]? = some x → bad k x = false := by
  rw [List.find?_eq_none]
  constructor
  · intro h k x hx
    exact Bool.eq_false_iff.2 (h (x, k) (List.mk_mem_zipIdx_iff_getElem?.2 hx))
  · rintro h ⟨x, k⟩ hx
    exact Bool.eq_false_iff.1 (h k x (List.mk_mem_zipIdx_iff_getElem?.1 hx))

theorem firstBad_none_iff {ws : List FWord} {bad : Nat → FWord → Bool} :
    firstBad ws bad = none ↔ ∀ k x, ws[k]? = some x → bad k x = false := by
  rw [firstBad, Option.map_eq_none_iff, zipIdx_find_none_iff]

/-- Where a word fails a check, there is a first one. -/
theorem exists_firstBad {ws : List FWord} {bad : Nat → FWord → Bool} {k : Nat} {x : FWord} (hx : ws[k]? = some x)
    (hbad : bad k x = true) : ∃ f, firstBad ws bad = some f := by
  cases h : firstBad ws bad with
  | some f => exact ⟨f, rfl⟩
  | none => exact absurd (firstBad_none_iff.1 h k x hx) (by simp [hbad])

/-- The first bad word is the one that fails behind words that pass. -/
theorem firstBad_of_prefix {a b : List FWord} {w : FWord} {bad : Nat → FWord → Bool}
    (ha : ∀ k x, a[k]? = some x → bad k x = false) (hw : bad a.length w = true) :
    firstBad (a ++ [w] ++ b) bad = some w := by
  have hzip : (a ++ [w] ++ b).zipIdx = a.zipIdx ++ (w, a.length) :: b.zipIdx (a.length + 1) := by
    rw [List.append_assoc, List.zipIdx_append]
    simp
  rw [firstBad, hzip, List.find?_append, zipIdx_find_none_iff.2 ha, Option.none_or,
    List.find?_cons_of_pos (by simpa using hw)]
  rfl

/-! ### The checks in turn -/

section
variable {control : Bool} {guard : Nat → BitVec 3 → Option Bool} {ws : List FWord}

/-- The first check passes where no word is of a reserved pipe. -/
theorem firstBad_pipe_none (h : ∀ w ∈ ws, pipeOf w.raw < 6) : firstBad ws (fun _ w => 6 ≤ pipeOf w.raw) = none :=
  firstBad_none_iff.2 fun _ x hx => decide_eq_false (Nat.not_le.2 (h x (List.mem_of_getElem? hx)))

theorem bundleFault_of_pipe {w : FWord} (h : firstBad ws (fun _ w => 6 ≤ pipeOf w.raw) = some w) :
    bundleFault control ws guard = some (0x01, w) := by
  simp only [bundleFault, h]

theorem bundleFault_of_slot {w : FWord} (hp : ∀ w ∈ ws, pipeOf w.raw < 6) (hs : firstBad ws (slotBad ws) = some w) :
    bundleFault control ws guard = some (0x02, w) := by
  simp only [bundleFault, firstBad_pipe_none hp, hs]

theorem bundleFault_of_body {w : FWord} (hp : ∀ w ∈ ws, pipeOf w.raw < 6) (hs : firstBad ws (slotBad ws) = none)
    (hb : firstBad ws (bodyBad control ws) = some w) : bundleFault control ws guard = some (0x01, w) := by
  simp only [bundleFault, firstBad_pipe_none hp, hs, hb]

theorem bundleFault_of_dest {w : FWord} (hp : ∀ w ∈ ws, pipeOf w.raw < 6) (hs : firstBad ws (slotBad ws) = none)
    (hb : firstBad ws (bodyBad control ws) = none) (hd : firstBad ws (destBad ws) = some w) :
    bundleFault control ws guard = some (0x02, w) := by
  simp only [bundleFault, firstBad_pipe_none hp, hs, hb, hd]

theorem bundleFault_of_priv (hp : ∀ w ∈ ws, pipeOf w.raw < 6) (hs : firstBad ws (slotBad ws) = none)
    (hb : firstBad ws (bodyBad control ws) = none) (hd : firstBad ws (destBad ws) = none) :
    bundleFault control ws guard =
      match privFirst control ws guard with
      | some (w, true) => some (0x03, w)
      | _ => none := by
  simp only [bundleFault, firstBad_pipe_none hp, hs, hb, hd] <;> rfl

end

/-- The word at an index fails check 2 where too many of its pipe stand before it, in a bundle of at most eight words;
in a longer one the ninth fails. -/
theorem exists_slotBad {ws : List FWord} {k : Nat} {x : FWord} (hx : ws[k]? = some x)
    (h : (if pipeOf x.raw = 0 ∨ pipeOf x.raw = 5 then 2 ≤ pipeBefore ws (pipeOf x.raw) k
      else 1 ≤ pipeBefore ws (pipeOf x.raw) k) ∨ pipeOf x.raw = 5 ∧ k + 1 = ws.length) :
    ∃ f, firstBad ws (slotBad ws) = some f := by
  by_cases hlong : 8 < ws.length
  · exact exists_firstBad (List.getElem?_eq_getElem hlong) (by simp [slotBad, hlong])
  · refine exists_firstBad hx ?_
    rw [slotBad, if_neg hlong, Bool.or_eq_true, Bool.and_eq_true, beq_iff_eq, beq_iff_eq]
    refine h.imp (fun h => ?_) id
    split at h <;> simp [*]

/-- Words of a pipe that stand in the part of a bundle before an index are counted. -/
theorem pipeBefore_append (a b : List FWord) (pipe : Nat) :
    pipeBefore (a ++ b) pipe a.length = (a.filter (fun w => pipeOf w.raw == pipe)).length := by
  rw [pipeBefore, List.take_left]

/-! ### Decoded words and their pipe -/

theorem ifZero_eq_ok_iff {z : Nat} {i j : Instr} : ifZero z i = .ok j ↔ z = 0 ∧ i = j := by
  unfold ifZero
  split <;> simp [*]

/-- A word of the B pipe takes its head from the word. -/
theorem decodeB_eq_bWrst {n op : Nat} {h : Hd} {a : BitVec 6} {r : BitVec 10}
    (he : decodeB n op = .ok (.bWrst h a r)) :
    h = hdOf n := by
  unfold decodeB at he
  split at he <;> simp [ifZero_eq_ok_iff] at he
  exact he.2.1.symm

/-- A word that decodes to b.wrst is of the B pipe, and its guard is that of the word. -/
theorem decodeNat_eq_bWrst {n : Nat} {h : Hd} {a : BitVec 6} {r : BitVec 10} (he : decodeNat n = .ok (.bWrst h a r)) :
    pipeOf n = 4 ∧ guardOf n = h.g := by
  unfold decodeNat at he
  split at he
  case h_1 => unfold decodeX at he; split at he <;> simp [ifZero_eq_ok_iff] at he
  case h_2 => unfold decodeL at he; split at he <;> simp [ifZero_eq_ok_iff] at he
  case h_3 => unfold decodeV at he; split at he <;> simp [ifZero_eq_ok_iff] at he
  case h_4 => unfold decodeM at he; split at he <;> simp [ifZero_eq_ok_iff] at he
  case h_5 hp =>
    rw [guardOf, pipeOf, hp, decodeB_eq_bWrst he]
    exact ⟨rfl, rfl⟩
  case h_6 => split at he; cases he; split at he <;> cases he
  case h_7 => cases he

/-- A word that decodes to a K word is of the K pipe. -/
theorem decodeNat_eq_kImm {n : Nat} {v : BitVec 25} (he : decodeNat n = .ok (.kImm v)) : pipeOf n = 5 := by
  unfold decodeNat at he
  split at he
  case h_1 => unfold decodeX at he; split at he <;> simp [ifZero_eq_ok_iff] at he
  case h_2 => unfold decodeL at he; split at he <;> simp [ifZero_eq_ok_iff] at he
  case h_3 => unfold decodeV at he; split at he <;> simp [ifZero_eq_ok_iff] at he
  case h_4 => unfold decodeM at he; split at he <;> simp [ifZero_eq_ok_iff] at he
  case h_5 => unfold decodeB at he; split at he <;> simp [ifZero_eq_ok_iff] at he
  case h_6 hp => exact hp
  case h_7 => cases he

/-! ### Bundles of one and of two words -/

/-- One word that is no K word has its slot. -/
theorem slotBad_single {w : FWord} (hp : pipeOf w.raw < 5) : firstBad [w] (slotBad [w]) = none := by
  rw [firstBad_none_iff]
  rintro (_ | k) x hx
  · obtain rfl := Option.some.inj hx
    simp [slotBad, pipeBefore, hp.ne]
  · simp at hx

/-- Two words have their slots where the second is no K word and is not of the first one's pipe, X apart. -/
theorem slotBad_pair {x y : FWord} (hy : pipeOf y.raw < 5) (hxy : pipeOf x.raw = pipeOf y.raw → pipeOf x.raw = 0) :
    firstBad [x, y] (slotBad [x, y]) = none := by
  rw [firstBad_none_iff]
  rintro (_ | _ | k) w hw
  · obtain rfl := Option.some.inj hw
    simp [slotBad, pipeBefore]
  · obtain rfl := Option.some.inj hw
    by_cases hsame : pipeOf x.raw = pipeOf y.raw
    · have h0 := hxy hsame
      simp [slotBad, pipeBefore, h0, ← hsame]
    · simp [slotBad, pipeBefore, hsame, hy.ne]
  · simp at hw

/-- A check that the one word of a bundle passes, and one that two words pass. -/
theorem firstBad_single {w : FWord} {bad : Nat → FWord → Bool} (h : bad 0 w = false) : firstBad [w] bad = none := by
  rw [firstBad_none_iff]
  rintro (_ | k) x hx
  · exact (Option.some.inj hx) ▸ h
  · simp at hx

theorem firstBad_pair {x y : FWord} {bad : Nat → FWord → Bool} (hx : bad 0 x = false) (hy : bad 1 y = false) :
    firstBad [x, y] bad = none := by
  rw [firstBad_none_iff]
  rintro (_ | _ | k) w hw
  · exact (Option.some.inj hw) ▸ hx
  · exact (Option.some.inj hw) ▸ hy
  · simp at hw

/-- The first word of a bundle has no writer before it. -/
theorem destBad_first (ws : List FWord) (w : FWord) : destBad ws 0 w = false := by
  unfold destBad destsBefore
  cases decodeNat w.raw with
  | ok i => simp
  | error e => rfl

/-- A b.wrst of a state register passes check 3 in a unit. -/
theorem bodyBad_bWrst {w : FWord} {h : Hd} {a : BitVec 6} {r : BitVec 10} (he : decodeNat w.raw = .ok (.bWrst h a r))
    (hr : isStateRegister r.toNat = true) : bodyBad false [w] 0 w = false := by
  simp [bodyBad, he, wellFormed, hr, isEngineWord, endsPacket]

/-- What check 5 finds of a b.wrst that a unit may not make. -/
theorem privFirst_bWrst {w : FWord} {h : Hd} {a : BitVec 6} {r : BitVec 10} {guard : Nat → BitVec 3 → Option Bool}
    (he : decodeNat w.raw = .ok (.bWrst h a r)) (hr : writableState r.toNat = false) :
    privFirst false [w] guard = if guard 0 h.g = some false then none else some (w, guard 0 h.g == some true) := by
  have hpriv : privBad false (.bWrst h a r) = true := by simp [privBad, hr]
  rw [← (decodeNat_eq_bWrst he).2]
  simp only [privFirst, List.zipIdx_cons, List.zipIdx_nil, List.find?_cons, List.find?_nil, he, hpriv, Bool.and_true]
  by_cases hg : guard 0 (guardOf w.raw) = some false
  · simp [hg]
  · simp [hg, bne_iff_ne.2 hg]

end Sys2Proof.Machine

open Sys2Proof Sys2Proof.Machine

/-- Settles O56: each word is the encoding of its instruction, and the refused ones stand in no table. -/
theorem decodeWords : Obligations.DecodeWords := by
  unfold Obligations.DecodeWords
  have hword {i : Instr} {n : Nat} (he : encodeNat i = some n) : decodeTableWord 32 n = some i :=
    decodeTableWord_of_encodeNat (roundTrip i) he
  refine ⟨hword rfl, hword rfl, hword rfl, hword rfl, hword rfl, hword rfl, hword rfl, hword rfl, hword rfl, hword
      rfl,
    hword rfl, ?_, ?_, ?_⟩ <;> decide

/-- Settles O57: each of the five checks in turn, for the word that it names. -/
theorem bundleFaults : Obligations.BundleFaults := by
  unfold Obligations.BundleFaults
  intro control guard ws bad
  refine ⟨?reserved, ?slots, ?undecoded, ?kWord, ?duplicate, ?privilege⟩
  case reserved =>
    rintro a w b rfl hw ha
    exact bundleFault_of_pipe (firstBad_of_prefix
      (fun k x hx => decide_eq_false (Nat.not_le.2 (ha x (List.mem_of_getElem? hx)))) (decide_eq_true hw))
  case slots =>
    intro hp
    have hsome {k x} (hx : ws[k]? = some x) (h : (if pipeOf x.raw = 0 ∨ pipeOf x.raw = 5
        then 2 ≤ pipeBefore ws (pipeOf x.raw) k else 1 ≤ pipeBefore ws (pipeOf x.raw) k)
        ∨ pipeOf x.raw = 5 ∧ k + 1 = ws.length) : ∃ f, bad 0x02 f :=
      (exists_slotBad hx h).imp fun f hf => bundleFault_of_slot hp hf
    refine ⟨?_, ?_, ?_, ?_⟩
    · intro w hw
      have hlen : 8 < ws.length := (List.getElem?_eq_some_iff.1 hw).1
      have hsplit : ws.take 8 ++ [w] ++ ws.drop 9 = ws := by
        rw [List.append_assoc, ← (List.getElem?_eq_some_iff.1 hw).2]
        simp
      have hfirst : firstBad (ws.take 8 ++ [w] ++ ws.drop 9) (slotBad ws) = some w := by
        refine firstBad_of_prefix (fun k x hx => ?_) (by simp [slotBad, hlen]; omega)
        have hk : k < 8 := by
          have := (List.getElem?_eq_some_iff.1 hx).1
          simp at this
          omega
        simp [slotBad, hlen, hk.ne]
      rw [hsplit] at hfirst
      exact bundleFault_of_slot hp hfirst
    · rintro a b c x y rfl hxy hpipe
      refine hsome (k := (a ++ [x] ++ b).length) (x := y) (by simp) (.inl ?_)
      rw [List.append_assoc (a ++ [x] ++ b), pipeBefore_append]
      have hone : 1 ≤ ((a ++ [x] ++ b).filter (fun w => pipeOf w.raw == pipeOf y.raw)).length := by
        simp [hxy]
        omega
      rwa [if_neg]
      rw [← hxy]
      rintro (h | h) <;> simp [h] at hpipe
    · rintro a b c d x y z rfl hxy hyz
      refine hsome (k := (a ++ [x] ++ b ++ [y] ++ c).length) (x := z) (by simp) (.inl ?_)
      rw [List.append_assoc (a ++ [x] ++ b ++ [y] ++ c), pipeBefore_append]
      have htwo : 2 ≤ ((a ++ [x] ++ b ++ [y] ++ c).filter (fun w => pipeOf w.raw == pipeOf z.raw)).length := by
        simp [hxy, hyz]
        omega
      split <;> omega
    · rintro a x rfl hx
      exact hsome (k := a.length) (x := x) (by simp) (.inr ⟨hx, by simp⟩)
  case undecoded =>
    rintro w rfl hp hd
    refine bundleFault_of_body (by simpa using hp.trans (by decide)) (slotBad_single hp)
      (firstBad_of_prefix (a := []) (b := []) (by simp) ?_)
    unfold bodyBad
    cases hw : decodeNat w.raw with
    | ok i => exact absurd hw (hd i)
    | error e => rfl
  case kWord =>
    rintro k v h rfl hk hp hacc
    have hpk := decodeNat_eq_kImm hk
    refine bundleFault_of_body (by simp [hpk]; omega) (slotBad_pair hp (by omega))
      (firstBad_of_prefix (a := []) (b := [h]) (by simp) ?_)
    simp [bodyBad, hk, kHost, hpk, hp.ne, hacc]
  case duplicate =>
    rintro x y i j d rfl hx hy hpx hpy hxy hbx hby hdi hdj
    refine bundleFault_of_dest (by simp; omega) (slotBad_pair hpy hxy) (firstBad_pair hbx hby)
      (firstBad_of_prefix (a := [x]) (b := []) ?_ ?_)
    · rintro (_ | k) w hw
      · exact destBad_first _ _
      · simp at hw
    · simp only [destBad, hy, destsBefore, List.any_eq_true]
      exact ⟨d, hdj, by simpa [hx] using hdi⟩
  case privilege =>
    rintro w h a n rfl rfl hd hn hlist
    have hp := (decodeNat_eq_bWrst hd).1
    have hr : writableState n.toNat = false := by
      simp at hlist
      simp [writableState]
      omega
    have hfault : bundleFault false [w] guard = _ := bundleFault_of_priv (by simp [hp]) (slotBad_single (by omega))
      (firstBad_single (bodyBad_bWrst hd hn)) (firstBad_single (destBad_first _ _))
    rw [privFirst_bWrst hd hr] at hfault
    refine ⟨fun hg => ?_, fun hg => ⟨?_, ?_⟩, fun hg => ⟨?_, ?_⟩⟩
    · exact hfault.trans (by simp [hg])
    · exact hfault.trans (by simp [hg])
    · simp [privWaits, privFirst_bWrst hd hr, hg]
    · exact hfault.trans (by simp [hg])
    · simp [privWaits, privFirst_bWrst hd hr, hg]

end

section
/-!
PROOFS. The frame of the V words (spec/22 R342): a word that does not trap sends one row on its way.
-/

namespace Sys2Proof.Machine

/-! ### What marking rows and sending one leaves -/

/-- A relation that holds between every value and its change holds at every key. -/
theorem rel_smGet_map {α : Type} {R : α → α → Prop} (d : α) (hd : R d d) {f : Nat × α → α} (hf : ∀ e, R e.2 (f e))
    (l : SMap α) (i : Nat) : R (smGet d l i) (smGet d (l.map (fun e => (e.1, f e))) i) := by
  induction l with
  | nil => exact hd
  | cons e l ih =>
    rw [List.map_cons, smGet, smGet]
    split
    · exact hf e
    · exact ih

/-- Inserting a row result does not touch those of other rows. -/
theorem filter_insFlight {p : RowFlight → Bool} {f : RowFlight} (hf : p f = false) (l : List RowFlight) :
    (insFlight f l).filter p = l.filter p := by
  induction l with
  | nil => simp [insFlight, hf]
  | cons g l ih =>
    unfold insFlight
    split
    · rw [List.filter_cons_of_neg (by simp [hf])]
    · rw [List.filter_cons, List.filter_cons, ih]

/-- A row other than the one sent comes to hold what it would have. -/
theorem rowFinal_putRow_ne (k : Core) {f : RowFlight} {key : Nat} (h : key ≠ f.row) :
    rowFinal (putRow k f) key = rowFinal k key := by
  have hlist : (putRow k f).rowFlight.filter (fun g => g.row == key) = k.rowFlight.filter (fun g => g.row == key)
      := by
    refine filter_insFlight (p := fun g => g.row == key) ?_ _
    exact beq_eq_false_iff_ne.2 (Ne.symm h)
  unfold rowFinal
  rw [hlist]
  rfl

/-! ### The answers of a V word -/

/-- The registers, the results in flight and the place of a context are the same. -/
structure SameRegisters (c c' : Ctx) : Prop where
  sregs : c'.sregs = c.sregs
  preds : c'.preds = c.preds
  bregs : c'.bregs = c.bregs
  flight : c'.flight = c.flight
  pc : c'.pc = c.pc
  cause : c'.cause = c.cause

/-- All that a V word whose destination is row `key` leaves of the machine. -/
structure RowFrame (m : Mach) (key : Nat) (m' : Mach) : Prop where
  rest : { m' with cores := [] } = { m with cores := [] }
  rows : ∀ c k, (c ≠ m.iss.core ∨ k ≠ key) → rowFinal (getCore m' c) k = rowFinal (getCore m c) k
  tiles : ∀ c k, smGet 0 (getCore m' c).tiles k = smGet 0 (getCore m c).tiles k
  regs : ∀ c i, SameRegisters (getCtx m c i) (getCtx m' c i)

theorem SameRegisters.refl (c : Ctx) : SameRegisters c c := ⟨rfl, rfl, rfl, rfl, rfl, rfl⟩

theorem RowFrame.refl (m : Mach) (key : Nat) : RowFrame m key m :=
  ⟨rfl, fun _ _ _ => rfl, fun _ _ => rfl, fun _ _ => SameRegisters.refl _⟩

theorem RowFrame.mem_eq {m m' : Mach} {key : Nat} (h : RowFrame m key m') : m'.mem = m.mem := congrArg (·.mem) h.rest

theorem RowFrame.iss_eq {m m' : Mach} {key : Nat} (h : RowFrame m key m') : m'.iss = m.iss := congrArg (·.iss) h.rest

theorem SameRegisters.trans {c c' c'' : Ctx} (h : SameRegisters c c') (h' : SameRegisters c' c'') : SameRegisters c
    c'' :=
  ⟨h'.sregs.trans h.sregs, h'.preds.trans h.preds, h'.bregs.trans h.bregs, h'.flight.trans h.flight, h'.pc.trans h.pc,
    h'.cause.trans h.cause⟩

theorem RowFrame.trans {m m' m'' : Mach} {key : Nat} (h : RowFrame m key m') (h' : RowFrame m' key m'') :
    RowFrame m key m'' :=
  ⟨h'.rest.trans h.rest, fun c k hk => (h'.rows c k (h.iss_eq ▸ hk)).trans (h.rows c k hk),
    fun c k => (h'.tiles c k).trans (h.tiles c k), fun c i => (h.regs c i).trans (h'.regs c i)⟩

/-- A change of the issuing core that keeps its tiles, the other rows and the registers of its contexts. -/
theorem rowFrame_modCore {m : Mach} {key : Nat} {f : Core → Core}
    (hrows : ∀ k n, n ≠ key → rowFinal (f k) n = rowFinal k n) (htiles : ∀ k, (f k).tiles = k.tiles)
    (hregs : ∀ k i, SameRegisters (smGet {} k.ctxs i) (smGet {} (f k).ctxs i)) : RowFrame m key
        (modCore m m.iss.core f) := by
  refine ⟨rfl, fun c k h => ?_, fun c k => ?_, fun c i => ?_⟩
  · by_cases hc : c = m.iss.core
    · subst hc
      rw [modCore, getCore_setCore, hrows _ _ (h.resolve_left (fun h => h rfl))]
    · rw [modCore, getCore_setCore_ne _ hc]
  · by_cases hc : c = m.iss.core
    · subst hc
      rw [modCore, getCore_setCore, htiles]
    · rw [modCore, getCore_setCore_ne _ hc]
  · unfold getCtx
    by_cases hc : c = m.iss.core
    · subst hc
      rw [modCore, getCore_setCore]
      exact hregs _ _
    · rw [modCore, getCore_setCore_ne _ hc]
      exact SameRegisters.refl _

theorem sameRegisters_markRows (k : Core) (j : Nat) (rows : BitVec 256) (i : Nat) :
    SameRegisters (smGet {} k.ctxs i) (smGet {} (markRows k j rows).ctxs i) :=
  rel_smGet_map (f := fun e => { e.2 with
    rowsKnown := e.2.rowsKnown ||| rows, rowMark := if e.1 = j then e.2.rowMark ||| rows else e.2.rowMark })
    {} (SameRegisters.refl _) (fun _ => ⟨rfl, rfl, rfl, rfl, rfl, rfl⟩) _ _

theorem rowFrame_putRowAt (m : Mach) (key landAt : Nat) (r : Row) : RowFrame m key (putRowAt m key landAt r) :=
  rowFrame_modCore (fun k _ hn => rowFinal_putRow_ne k hn) (fun _ => rfl)
      (fun k i => sameRegisters_markRows (putRow k _) _ _ i)

theorem rowFrame_pushDue (m : Mach) (key : Nat) (d : Due) : RowFrame m key (pushDue m m.iss.core m.iss.ctx d) := by
  refine ⟨rfl, fun c k _ => ?_, fun c k => ?_, fun c i => ?_⟩
  · by_cases hc : c = m.iss.core
    · subst hc
      rw [pushDue, modCtx, setCtx, modCore, getCore_setCore]
      rfl
    · rw [pushDue, modCtx, setCtx, modCore, getCore_setCore_ne _ hc]
  · by_cases hc : c = m.iss.core
    · subst hc
      rw [pushDue, modCtx, setCtx, modCore, getCore_setCore]
      rfl
    · rw [pushDue, modCtx, setCtx, modCore, getCore_setCore_ne _ hc]
  · by_cases h : c = m.iss.core ∧ i = m.iss.ctx
    · obtain ⟨rfl, rfl⟩ := h
      rw [pushDue, modCtx, getCtx_setCtx]
      exact ⟨rfl, rfl, rfl, rfl, rfl, rfl⟩
    · rw [pushDue, modCtx, getCtx_setCtx_ne _ (not_and_or.1 h)]
      exact SameRegisters.refl _

theorem rowFrame_pushAssist (m : Mach) (key kind tile row0 type lat : Nat) (rows : List (List (Option Nat))) :
    RowFrame m key (pushAssist m kind tile row0 type lat rows) := by
  unfold pushAssist
  split
  · exact rowFrame_pushDue _ _ _
  · exact RowFrame.refl _ _

theorem rowFrame_vCodes (m : Mach) (t : BitVec 2) (d : BitVec 6) (lat : Nat) (codes : List Nat) :
    RowFrame m (rowNo t d) (vCodes m t d lat codes) := rowFrame_putRowAt _ _ _ _

theorem rowFrame_vWrite (m : Mach) (t : BitVec 2) (d : BitVec 6) (lat : Nat) (flag : Bool) (rs : List Val) :
    RowFrame m (rowNo t d) (vWrite m t d lat flag rs) := by
  unfold vWrite
  dsimp only
  split
  · exact rowFrame_putRowAt _ _ _ _
  · split
    · exact (rowFrame_vCodes _ _ _ _ _).trans (rowFrame_pushAssist _ _ _ _ _ _ _ _)
    · exact rowFrame_vCodes _ _ _ _ _

theorem rowFrame_vMove (m : Mach) (t : BitVec 2) (d : BitVec 6) (lat : Nat) (codes : List Nat) (vals : List Val) :
    RowFrame m (rowNo t d) (vMove m t d lat codes vals) := by
  unfold vMove
  split
  · exact rowFrame_vWrite _ _ _ _ _ _
  · exact rowFrame_vCodes _ _ _ _ _

/-- A V word traps, or keeps the frame of its row. -/
def RowAnswer (m : Mach) (key : Nat) (m' : Mach) : Prop := m'.iss.trapped = true ∨ RowFrame m key m'

/-- The checks of R347, then a word that keeps the frame. -/
theorem rowAnswer_vCheck {m : Mach} {key : Nat} {ts : List Nat} {ss : List Scalar} {ok : Bool} {f : Mach → Mach}
    (h : RowFrame m key (f m)) : RowAnswer m key (vCheck m ts ss ok f) := by
  unfold vCheck
  split
  · exact .inl rfl
  · split
    · exact .inl rfl
    · split
      · exact .inr h
      · exact .inl rfl

section
variable {s u : State} {h : Hd} {t : BitVec 2} {d : BitVec 6} {f : Mach → Mach}

/-- A word under its guard, whose machine's answer is given. -/
theorem rowAnswer_runWord (hf : RowAnswer s.m (rowNo t d) (f s.m)) (he : runWord s h f = .next u) :
    RowAnswer s.m (rowNo t d) u.m ∧ u.trust = s.trust := by
  obtain ⟨-, rfl⟩ | ⟨-, rfl⟩ := runWord_cases he
  · exact ⟨hf, rfl⟩
  · exact ⟨.inr (RowFrame.refl _ _), rfl⟩

theorem rowAnswer_vBin (m : Mach) (t : BitVec 2) (d a b : BitVec 6) (lat : Nat) (f : Val → Val → Val) :
    RowAnswer m (rowNo t d) (vBin m t d a b lat f) := rowAnswer_vCheck (rowFrame_vWrite ..)

theorem rowAnswer_vUn (m : Mach) (t : BitVec 2) (d a : BitVec 6) (lat : Nat) (fo : Bool) (f : Val → Val) :
    RowAnswer m (rowNo t d) (vUn m t d a lat fo f) := rowAnswer_vCheck (rowFrame_vWrite ..)

theorem rowAnswer_vCmp (m : Mach) (t : BitVec 2) (d a b : BitVec 6) (f : Val → Val → Bool) :
    RowAnswer m (rowNo t d) (vCmp m t d a b f) := rowAnswer_vCheck (rowFrame_vCodes ..)

theorem rowAnswer_vBits (m : Mach) (t : BitVec 2) (d a b : BitVec 6) (f : Nat → Nat → Nat) :
    RowAnswer m (rowNo t d) (vBits m t d a b f) := rowAnswer_vCheck (rowFrame_vCodes ..)

end

/-- Every V word traps, or keeps the frame of its row. -/
theorem rowAnswer_exec {i : Instr} {s u : State} {t : BitVec 2} {d : BitVec 6} (hd : vDest i = some (t, d))
    (he : exec i s = .next u) : RowAnswer s.m (rowNo t d) u.m ∧ u.trust = s.trust := by
  unfold exec at he
  cases i with
  | vAdd | vSub | vMul | vMax | vMin => cases hd; exact rowAnswer_runWord (rowAnswer_vBin ..) he
  | vNeg | vAbs | vExp2 | vLog2 | vRcp | vRsqrt => cases hd; exact rowAnswer_runWord (rowAnswer_vUn ..) he
  | vCmpLt | vCmpLe | vCmpEq => cases hd; exact rowAnswer_runWord (rowAnswer_vCmp ..) he
  | vAnd | vOr | vXor => cases hd; exact rowAnswer_runWord (rowAnswer_vBits ..) he
  | vFma => cases hd; exact rowAnswer_runWord (rowAnswer_vCheck (rowFrame_vWrite ..)) he
  | vBcast | vGet | vPerm => cases hd; exact rowAnswer_runWord (rowAnswer_vCheck (rowFrame_vMove ..)) he
  | vCvt =>
    cases hd
    refine rowAnswer_runWord (rowAnswer_vCheck ?_) he
    split
    · exact rowFrame_vCodes ..
    · split
      · exact rowFrame_vCodes ..
      · exact rowFrame_vWrite ..
  | vSel | vPut =>
    cases hd
    refine rowAnswer_runWord (rowAnswer_vCheck ?_) he
    dsimp only
    split
    · exact rowFrame_putRowAt ..
    · exact rowFrame_vCodes ..
  | vRmax | vRsum =>
    cases hd
    refine rowAnswer_runWord (rowAnswer_vCheck ?_) he
    split
    · exact RowFrame.refl ..
    · exact rowFrame_vWrite ..
  | vMov =>
    cases hd
    refine rowAnswer_runWord (rowAnswer_vCheck ?_) he
    dsimp only
    split
    · exact rowFrame_vCodes ..
    · split
      · exact rowFrame_vWrite ..
      · exact rowFrame_vCodes ..
  | _ => cases hd

end Sys2Proof.Machine

open Sys2Proof Sys2Proof.Machine

/-- Settles O14: a V word that does not trap keeps the frame of its destination row. -/
theorem vWordFrame : Obligations.VWordFrame := by
  unfold Obligations.VWordFrame
  intro i s u t d hd _ he hu
  obtain ⟨htrap | hframe, htrust⟩ := rowAnswer_exec hd he
  · rw [hu] at htrap
    cases htrap
  · exact ⟨fun a => by rw [hframe.mem_eq], htrust, hframe.rest, hframe.rows, hframe.tiles, fun c i =>
      let ⟨h1, h2, h3, h4, h5, h6⟩ := hframe.regs c i
      ⟨h1, h2, h3, h4, h5, h6⟩⟩

end

section
/-!
PROOFS. Lanes: how a row holds its lane codes (spec/07 R135, Table 7-5), and V arithmetic on integer tiles, lane by
    lane
(spec/22 R345).
-/

namespace Sys2Proof.Machine

/-! ### Packed lanes -/

/-- Packed codes read back at their places. -/
theorem packCodes_div_mod (w : Nat) (codes : List Nat) (j : Nat) :
    packCodes w codes / 2 ^ (w * j) % 2 ^ w = codes.getD j 0 % 2 ^ w := by
  induction codes generalizing j with
  | nil => simp [packCodes]
  | cons c cs ih =>
    rw [packCodes, List.foldr_cons, ← packCodes]
    cases j with
    | zero => simp
    | succ j =>
      have hlow : (c % 2 ^ w + 2 ^ w * packCodes w cs) / 2 ^ w = packCodes w cs := by
        rw [Nat.add_mul_div_left _ _ (by positivity), Nat.div_eq_of_lt (Nat.mod_lt _ (by positivity)), Nat.zero_add]
      rw [Nat.mul_succ, Nat.add_comm (w * j) w, pow_add, ← Nat.div_div_eq_div_mul, hlow, ih]
      rfl

/-- Packed codes take a lane's width each. -/
theorem packCodes_lt (w : Nat) (codes : List Nat) : packCodes w codes < 2 ^ (w * codes.length) := by
  induction codes with
  | nil => simp [packCodes]
  | cons c cs ih =>
    have hc : c % 2 ^ w < 2 ^ w := Nat.mod_lt _ (by positivity)
    calc packCodes w (c :: cs) = c % 2 ^ w + 2 ^ w * packCodes w cs := rfl
      _ < 2 ^ w * (packCodes w cs + 1) := by rw [Nat.mul_add]; omega
      _ ≤ 2 ^ w * 2 ^ (w * cs.length) := Nat.mul_le_mul_left _ ih
      _ = 2 ^ (w * (c :: cs).length) := by rw [← pow_add, List.length_cons]; ring_nf

/-- The lanes of every tile type fill a row's data bytes. -/
theorem laneW_mul_lanesOf (a : Nat) : laneW a * lanesOf a = 1920 := by
  unfold laneW lanesOf
  split <;> rfl

/-- A row of lane codes holds each code at its lane. -/
theorem laneBits_packRow {a j : Nat} {codes : List Nat} (e : BitVec 32) (hlen : codes.length = lanesOf a) :
    laneBits ⟨packRow a codes, e⟩ a j = codes.getD j 0 % 2 ^ laneW a := by
  have hfits := packCodes_lt (laneW a) codes
  rw [hlen, laneW_mul_lanesOf] at hfits
  rw [laneBits, packRow, BitVec.toNat_ofNat, Nat.mod_eq_of_lt hfits, packCodes_div_mod]

/-- The lane of a row of codes, where the codes are given lane by lane. -/
theorem laneBits_packRow_map {a j : Nat} (e : BitVec 32) (f : Nat → Nat) (hj : j < lanesOf a) :
    laneBits ⟨packRow a ((List.range (lanesOf a)).map f), e⟩ a j = f j % 2 ^ laneW a := by
  rw [laneBits_packRow e (by simp)]
  simp [hj]

theorem zipWith_map_range {α β γ : Type} (f : α → β → γ) (g : Nat → α) (k : Nat → β) (n : Nat) :
    List.zipWith f ((List.range n).map g) ((List.range n).map k) = (List.range n).map (fun j => f (g j) (k j)) := by
  rw [List.zipWith_map, List.zipWith_self]

/-! ### Values that are integers -/

/-- A value stands for an integer: a whole magnitude, and its sign where it is not zero. -/
def IsInt (v : Val) (x : Int) : Prop := ∃ s, v = .num s x.natAbs 1 0 ∧ (x ≠ 0 → s = decide (x < 0))

theorem isInt_valOfInt (x : Int) : IsInt (valOfInt x 0) x := ⟨_, rfl, fun _ => rfl⟩

/-- The signed magnitude of a value that stands for an integer. -/
theorem signed_natAbs {x : Int} {s : Bool} (hs : x ≠ 0 → s = decide (x < 0)) :
    (if s then -(x.natAbs : Int) else (x.natAbs : Int)) = x := by
  by_cases hx : x = 0
  · subst hx
    simp
  · rw [hs hx]
    by_cases hneg : x < 0
    · rw [decide_eq_true hneg, if_pos rfl]
      omega
    · rw [decide_eq_false hneg, if_neg Bool.false_ne_true]
      omega

theorem isInt_of_signed {x : Int} {v : Val} {s : Bool} {p : Nat} (hv : v = .num s p 1 0)
    (hx : (if s then -(p : Int) else (p : Int)) = x) : IsInt v x := by
  refine ⟨s, ?_, fun h => ?_⟩
  · rw [hv, ← hx]
    cases s <;> simp
  · cases s <;> simp at hx ⊢ <;> omega

theorem rneDiv_one (p : Nat) : rneDiv p 1 = p := by simp [rneDiv, Nat.mod_one]

theorem valRne_of_isInt {v : Val} {x : Int} (h : IsInt v x) : valRne v = x := by
  obtain ⟨s, rfl, hs⟩ := h
  simpa [valRne, ratio, pow2, rneDiv_one] using signed_natAbs hs

theorem sumParts_int (s1 : Bool) (p1 : Nat) (s2 : Bool) (p2 : Nat) :
    sumParts s1 p1 1 0 s2 p2 1 0 = ((if s1 then -(p1 : Int) else p1) + (if s2 then -(p2 : Int) else p2), 1, 0) := by
  simp [sumParts, pow2]

theorem isInt_valAdd {v w : Val} {x y : Int} (hv : IsInt v x) (hw : IsInt w y) : IsInt (valAdd v w) (x + y) := by
  obtain ⟨s, rfl, hs⟩ := hv
  obtain ⟨t, rfl, ht⟩ := hw
  simp only [valAdd, sumParts_int, signed_natAbs hs, signed_natAbs ht]
  split
  · next h => exact ⟨_, by rw [h]; rfl, fun hne => absurd h hne⟩
  · exact ⟨_, rfl, fun _ => rfl⟩

theorem isInt_valNegate {v : Val} {x : Int} (hv : IsInt v x) : IsInt (valNegate v) (-x) := by
  obtain ⟨s, rfl, hs⟩ := hv
  refine isInt_of_signed rfl ?_
  have := signed_natAbs hs
  cases s <;> simp only [Bool.not_true, Bool.not_false, if_true, if_false, Bool.false_eq_true] at this ⊢ <;> omega

theorem isInt_valAbs {v : Val} {x : Int} (hv : IsInt v x) : IsInt (valAbs v) |x| := by
  obtain ⟨s, rfl, -⟩ := hv
  refine isInt_of_signed rfl ?_
  simp

theorem isInt_valMul {v w : Val} {x y : Int} (hv : IsInt v x) (hw : IsInt w y) : IsInt (valMul v w) (x * y) := by
  obtain ⟨s, rfl, hs⟩ := hv
  obtain ⟨t, rfl, ht⟩ := hw
  refine isInt_of_signed (s := s != t) (p := x.natAbs * y.natAbs) (by simp [valMul]) ?_
  have hx := signed_natAbs hs
  have hy := signed_natAbs ht
  calc (if (s != t) = true then -((x.natAbs * y.natAbs : Nat) : Int) else ((x.natAbs * y.natAbs : Nat) : Int))
      = (if s then -(x.natAbs : Int) else (x.natAbs : Int)) * (if t then -(y.natAbs : Int) else (y.natAbs : Int))
          := by
        cases s <;> cases t <;> simp
    _ = x * y := by rw [hx, hy]

theorem valLt_int {v w : Val} {x y : Int} (hv : IsInt v x) (hw : IsInt w y) : valLt v w = decide (x < y) := by
  obtain ⟨s, rfl, hs⟩ := hv
  obtain ⟨t, rfl, ht⟩ := hw
  have hx := signed_natAbs hs
  have hy := signed_natAbs ht
  simp only [valLt, sumParts_int, hx]
  congr 1
  cases t <;> simp only [Bool.not_true, Bool.not_false, if_true, if_false, Bool.false_eq_true, eq_iff_iff] at hy ⊢
      <;> omega

theorem valIsNan_int {v : Val} {x : Int} (hv : IsInt v x) : valIsNan v = false := by
  obtain ⟨s, rfl, -⟩ := hv
  rfl

theorem isInt_laneMax {v w : Val} {x y : Int} (hv : IsInt v x) (hw : IsInt w y) : IsInt (laneMax v w) (max x y) := by
  simp only [laneMax, valIsNan_int hv, valIsNan_int hw, Bool.or_false, Bool.false_eq_true, if_false, valMax,
    valLt_int hv hw, valLt_int hw hv, decide_eq_true_eq]
  split
  · next h => rwa [max_eq_right h.le]
  · next h =>
    split
    · rwa [max_eq_left (not_lt.1 h)]
    · next h' =>
      obtain rfl : x = y := le_antisymm (not_lt.1 h') (not_lt.1 h)
      rw [max_self]
      split
      · exact hw
      · exact hv

theorem isInt_laneMin {v w : Val} {x y : Int} (hv : IsInt v x) (hw : IsInt w y) : IsInt (laneMin v w) (min x y) := by
  simp only [laneMin, valIsNan_int hv, valIsNan_int hw, Bool.or_false, Bool.false_eq_true, if_false, valMin,
    valLt_int hv hw, valLt_int hw hv, decide_eq_true_eq]
  split
  · next h => rwa [min_eq_left h.le]
  · next h =>
    split
    · rwa [min_eq_right (not_lt.1 h)]
    · next h' =>
      obtain rfl : x = y := le_antisymm (not_lt.1 h') (not_lt.1 h)
      rw [min_self]
      split
      · exact hv
      · exact hw

/-! ### What an integer lane takes (spec/22 R345) -/

theorem laneW_pos (a : Nat) : 0 < laneW a := by
  unfold laneW
  split <;> decide

theorem sextInt_mod (x n : Nat) : sextInt (x % 2 ^ n) n = sextInt x n := by
  rw [sextInt, sextInt, Nat.mod_mod]

theorem sextInt_emod_toNat (x : Int) (w : Nat) : sextInt (x % 2 ^ w).toNat w = Int.bmod x (2 ^ w) := by
  have hword : BitVec.ofNat w (x % 2 ^ w).toNat = BitVec.ofInt w x := by
    apply BitVec.eq_of_toNat_eq
    rw [BitVec.toNat_ofNat, BitVec.toNat_ofInt]
    have hnn : (0 : Int) ≤ x % 2 ^ w := Int.emod_nonneg _ (by positivity)
    have hlt : x % 2 ^ w < 2 ^ w := Int.emod_lt_of_pos _ (by positivity)
    push_cast
    exact Nat.mod_eq_of_lt (by zify; rwa [Int.toNat_of_nonneg hnn])
  rw [sextInt_eq_toInt_ofNat, hword, BitVec.toInt_ofInt]

/-- What fits a width is not changed by it. -/
theorem bmod_of_fits {w : Nat} (hw : 0 < w) {x : Int} (hlo : -(2 ^ (w - 1)) ≤ x) (hhi : x ≤ 2 ^ (w - 1) - 1) :
    Int.bmod x (2 ^ w) = x := by
  have hsplit : (2 : Int) ^ w = 2 * 2 ^ (w - 1) := by
    rw [← pow_succ', Nat.sub_add_cancel hw]
  have hcast : ((2 ^ w : Nat) : Int) = 2 ^ w := by push_cast; rfl
  apply Int.bmod_eq_of_le
  all_goals rw [hcast, hsplit]; omega

/-- The code of an exact integer, read back as a lane. -/
theorem sextInt_intConv {w : Nat} (hw : 0 < w) (sat : Bool) {v : Val} {x : Int} (hv : IsInt v x) :
    sextInt (intConv w sat v) w = intLane sat w x := by
  have hrne := valRne_of_isInt hv
  obtain ⟨s, rfl, -⟩ := hv
  simp only [intConv, hrne, intLane]
  have hpow : (1 : Int) ≤ 2 ^ (w - 1) := one_le_pow₀ (by norm_num)
  split
  · rw [sextInt_emod_toNat]
    exact bmod_of_fits hw (by omega) (by omega)
  · exact sextInt_emod_toNat x w

theorem laneInt_bounds (r : Row) (a j : Nat) :
    -(2 ^ (laneW a - 1)) ≤ laneInt r a j ∧ laneInt r a j ≤ 2 ^ (laneW a - 1) - 1 := by
  have hsplit : 2 ^ laneW a = 2 * 2 ^ (laneW a - 1) := by
    rw [← pow_succ', Nat.sub_add_cancel (laneW_pos a)]
  have hlt : laneBits r a j % 2 ^ laneW a < 2 ^ laneW a := Nat.mod_lt _ (by positivity)
  unfold laneInt sextInt
  zify at hsplit hlt
  split
  · next h => zify at h; push_cast; constructor <;> omega
  · next h => zify at h; push_cast at *; constructor <;> omega

/-- A lane that is copied keeps its integer. -/
theorem intLane_of_laneInt (sat : Bool) (r : Row) (a j : Nat) : intLane sat (laneW a) (laneInt r a j) = laneInt r a
    j := by
  obtain ⟨hlo, hhi⟩ := laneInt_bounds r a j
  unfold intLane
  split
  · omega
  · exact bmod_of_fits (laneW_pos a) hlo hhi

/-! ### V arithmetic on an integer tile -/

section
variable {m : Mach} {t : BitVec 2}

theorem isFloatTile_of_isIntTile {a : Nat} (h : isIntTile a = true) : isFloatTile a = false := by
  simp only [isIntTile, isFloatTile, Bool.or_eq_true, beq_iff_eq, Bool.or_eq_false_iff, beq_eq_false_iff_ne] at *
  omega

theorem isAxb_of_isIntTile {a : Nat} (h : isIntTile a = true) : isAxb a = false := by
  simp only [isIntTile, isAxb, Bool.or_eq_true, beq_iff_eq, beq_eq_false_iff_ne] at *
  omega

/-- The values of an integer row are its lanes' integers. -/
theorem laneVal_int {a : Nat} (h : isIntTile a = true) (r : Row) (j : Nat) : IsInt (laneVal r a j) (laneInt r a j)
    := by
  rw [laneVal, isFloatTile_of_isIntTile h, isAxb_of_isIntTile h]
  exact isInt_valOfInt _

/-- The row that writing exact results, lane by lane, sends to an integer tile. -/
def intRow (m : Mach) (t : BitVec 2) (d : BitVec 6) (f : Nat → Val) : Row :=
  codesRow m (rowNo t d) (tileType m t.toNat)
    ((List.range (lanesOf (tileType m t.toNat))).map
        (fun j => intConv (laneW (tileType m t.toNat)) (tileSat m t.toNat) (f j)))

theorem vWrite_int (hint : isIntTile (tileType m t.toNat) = true) (d : BitVec 6) (lat : Nat) (flag : Bool)
    (f : Nat → Val) :
    vWrite m t d lat flag ((List.range (lanesOf (tileType m t.toNat))).map f) =
      putRowAt m (rowNo t d) (vLandAt m t.toNat lat) (intRow m t d f) := by
  have hconv : laneConv (tileType m t.toNat) (tileSat m t.toNat) =
      intConv (laneW (tileType m t.toNat)) (tileSat m t.toNat) := by
    funext v
    rw [laneConv, isFloatTile_of_isIntTile hint, if_neg Bool.false_ne_true]
  simp only [vWrite, isAxb_of_isIntTile hint, isFloatTile_of_isIntTile hint, Bool.false_and, Bool.false_eq_true,
      if_false,
    hconv, List.map_map]
  rfl

theorem laneInt_intRow (d : BitVec 6) {f : Nat → Val} {x : Int} {j : Nat}
    (hj : j < lanesOf (tileType m t.toNat)) (hf : IsInt (f j) x) :
    laneInt (intRow m t d f) (tileType m t.toNat) j = intLane (tileSat m t.toNat) (laneW (tileType m t.toNat)) x := by
  rw [laneInt, intRow, codesRow, laneBits_packRow_map _ _ hj, sextInt_mod, sextInt_intConv (laneW_pos _) _ hf]

end

/-- A word that writes exact integers to an integer tile sends a row that holds each, wrapped or clamped. -/
theorem sendsRow_int {i : Instr} {s : State} {t : BitVec 2} {d : BitVec 6} {lat : Nat} {flag : Bool} {f : Nat → Val}
    {x : Nat → Int} (hint : isIntTile (tileType s.m t.toNat) = true)
    (he : exec i s = .next
        { s with m := vWrite s.m t d lat flag ((List.range (lanesOf (tileType s.m t.toNat))).map f) })
    (hf : ∀ j < lanesOf (tileType s.m t.toNat), IsInt (f j) (x j)) :
    ∃ r, SendsRow i s t d lat r ∧ ∀ j < lanesOf (tileType s.m t.toNat),
      laneInt r (tileType s.m t.toNat) j = intLane (tileSat s.m t.toNat) (laneW (tileType s.m t.toNat)) (x j) :=
  ⟨intRow s.m t d f, ⟨he.trans (by rw [vWrite_int hint]), rfl⟩, fun _ hj => laneInt_intRow d hj (hf _ hj)⟩

/-! ### Reductions -/

theorem isInt_foldl_valAdd {l : List Val} {xs : List Int} (h : List.Forall₂ IsInt l xs) {v : Val} {x : Int}
    (hv : IsInt v x) :
    IsInt (l.foldl valAdd v) (x + xs.sum) := by
  induction h generalizing v x with
  | nil => simpa using hv
  | cons hw _ ih =>
    rw [List.foldl_cons, List.sum_cons, ← Int.add_assoc]
    exact ih (isInt_valAdd hv hw)

/-- The largest of some integers, found from the left, is one of them and bounds them all. -/
theorem isInt_foldl_laneMax {l : List Val} {xs : List Int} (h : List.Forall₂ IsInt l xs) {v : Val} {x : Int}
    (hv : IsInt v x) :
    ∃ y, IsInt (l.foldl laneMax v) y ∧ (y = x ∨ y ∈ xs) ∧ x ≤ y ∧ ∀ z ∈ xs, z ≤ y := by
  induction h generalizing v x with
  | nil => exact ⟨x, hv, .inl rfl, le_refl _, by simp⟩
  | @cons w z l xs hw _ ih =>
    obtain ⟨y, hy, hmem, hle, hall⟩ := ih (isInt_laneMax hv hw)
    refine ⟨y, hy, ?_, le_trans (le_max_left _ _) hle, ?_⟩
    · rcases hmem with rfl | hmem
      · rcases max_choice x z with h | h
        · exact .inl h
        · exact .inr (by simp [h])
      · exact .inr (List.mem_cons_of_mem _ hmem)
    · rintro u hu
      rcases List.mem_cons.1 hu with rfl | hu
      · exact le_trans (le_max_right _ _) hle
      · exact hall u hu

/-- The lane values of an integer row, lane by lane. -/
theorem forall₂_laneVals {a : Nat} (h : isIntTile a = true) (r : Row) (ns : List Nat) :
    List.Forall₂ IsInt (ns.map (laneVal r a)) (ns.map (laneInt r a)) := by
  induction ns with
  | nil => exact .nil
  | cons n ns ih => exact .cons (laneVal_int h r n) ih

theorem lanesOf_eq_succ (a : Nat) : ∃ n, lanesOf a = n + 1 := by
  unfold lanesOf
  split
  · exact ⟨119, rfl⟩
  · exact ⟨59, rfl⟩

/-- The lanes of a row, with the first apart. -/
theorem laneVals_eq_cons (r : Row) (a : Nat) {n : Nat} (hn : lanesOf a = n + 1) :
    laneVals r a = laneVal r a 0 :: ((List.range n).map Nat.succ).map (laneVal r a) := by
  rw [laneVals, hn, List.range_succ_eq_map, List.map_cons]

theorem replicate_eq_map_range {α : Type} (n : Nat) (x : α) : List.replicate n x = (List.range n).map (fun _ => x)
    := by
  simp [List.map_const']

end Sys2Proof.Machine

open Sys2Proof Sys2Proof.Machine

/-- Settles O11: the values of an integer tile stand for integers, and so do their sums, products and largest. -/
theorem vIntegerLanes : Obligations.VIntegerLanes := by
  unfold Obligations.VIntegerLanes
  refine ⟨fun a j codes e hlen _ => laneBits_packRow e hlen, ?_⟩
  intro s h t d a b hg ht hint ty x y z fit
  have hx (j : Nat) : IsInt (laneVal x ty j) (laneInt x ty j) := laneVal_int hint x j
  have hy (j : Nat) : IsInt (laneVal y ty j) (laneInt y ty j) := laneVal_int hint y j
  have hz (j : Nat) : IsInt (laneVal z ty j) (laneInt z ty j) := laneVal_int hint z j
  have hbin (lat : Nat) (f : Val → Val → Val) : runWord s h (fun m => vBin m t d a b lat f) = .next { s with
      m := vWrite s.m t d lat true ((List.range (lanesOf ty)).map (fun j => f (laneVal x ty j) (laneVal y ty j))) }
          := by
    rw [runWord_true _ hg, vBin, vCheck_ok _ _ _ ht, srcVals, srcVals, laneVals, laneVals, zipWith_map_range]
    rfl
  have hun (lat : Nat) (f : Val → Val) : runWord s h (fun m => vUn m t d a lat false f) = .next { s with
      m := vWrite s.m t d lat true ((List.range (lanesOf ty)).map (fun j => f (laneVal x ty j))) } := by
    rw [runWord_true _ hg, vUn, Bool.not_false, Bool.true_or, vCheck_ok _ _ _ ht, srcVals, laneVals, List.map_map]
    rfl
  refine ⟨?add, ?sub, ?mul, ?fma, ?max, ?min, ?neg, ?abs, ?rsum, ?rmax⟩
  case add => exact sendsRow_int hint ((exec_vAdd ..).trans (hbin _ _)) fun j _ => isInt_valAdd (hx j) (hy j)
  case sub =>
    exact sendsRow_int hint ((exec_vSub ..).trans (hbin _ _)) fun j _ => isInt_valAdd (hx j) (isInt_valNegate (hy j))
  case mul => exact sendsRow_int hint ((exec_vMul ..).trans (hbin _ _)) fun j _ => isInt_valMul (hx j) (hy j)
  case fma =>
    refine sendsRow_int (flag := true)
        (f := fun j => valAdd (laneVal z ty j) (valMul (laneVal x ty j) (laneVal y ty j))) hint
      ((exec_vFma ..).trans ?_) fun j _ => isInt_valAdd (hz j) (isInt_valMul (hx j) (hy j))
    rw [execVFma, runWord_true _ hg, vCheck_ok _ _ _ ht, srcVals, srcVals, srcVals, laneVals, laneVals, laneVals,
      zipWith_map_range, zipWith_map_range]
    rfl
  case max =>
    obtain ⟨r, hr, hlanes⟩ := sendsRow_int hint ((exec_vMax ..).trans (hbin _ _)) fun j _ => isInt_laneMax (hx j)
        (hy j)
    refine ⟨r, hr, fun j hj => (hlanes j hj).trans ?_⟩
    rcases max_choice (laneInt x ty j) (laneInt y ty j) with h | h <;> rw [h] <;> exact intLane_of_laneInt ..
  case min =>
    obtain ⟨r, hr, hlanes⟩ := sendsRow_int hint ((exec_vMin ..).trans (hbin _ _)) fun j _ => isInt_laneMin (hx j)
        (hy j)
    refine ⟨r, hr, fun j hj => (hlanes j hj).trans ?_⟩
    rcases min_choice (laneInt x ty j) (laneInt y ty j) with h | h <;> rw [h] <;> exact intLane_of_laneInt ..
  case neg => exact sendsRow_int hint ((exec_vNeg ..).trans (hun _ _)) fun j _ => isInt_valNegate (hx j)
  case abs => exact sendsRow_int hint ((exec_vAbs ..).trans (hun _ _)) fun j _ => isInt_valAbs (hx j)
  case rsum =>
    obtain ⟨n, hn⟩ := lanesOf_eq_succ ty
    have hsum : IsInt ((((List.range n).map Nat.succ).map (laneVal x ty)).foldl valAdd (laneVal x ty 0))
        (((List.range (lanesOf ty)).map (laneInt x ty)).sum) := by
      rw [hn, List.range_succ_eq_map, List.map_cons, List.sum_cons]
      exact isInt_foldl_valAdd (forall₂_laneVals hint x _) (hx 0)
    refine sendsRow_int (flag := false) hint ((exec_vRsum ..).trans ?_) fun j _ => hsum
    rw [execVRsum, runWord_true _ hg, vCheck_ok _ _ _ ht, srcVals, laneVals_eq_cons _ _ hn, ← replicate_eq_map_range]
    rfl
  case rmax =>
    obtain ⟨n, hn⟩ := lanesOf_eq_succ ty
    obtain ⟨v, hv, hmem, hfirst, hall⟩ := isInt_foldl_laneMax
        (forall₂_laneVals hint x ((List.range n).map Nat.succ)) (hx 0)
    obtain ⟨k, hk, rfl⟩ : ∃ k < lanesOf ty, v = laneInt x ty k := by
      rcases hmem with rfl | hmem
      · exact ⟨0, by omega, rfl⟩
      · simp only [List.map_map, List.mem_map, List.mem_range, Function.comp_apply] at hmem
        obtain ⟨i, hi, rfl⟩ := hmem
        exact ⟨i + 1, by omega, rfl⟩
    have hexec : exec (.vRmax h t d a) s = .next
        { s with m := vWrite s.m t d 8 false ((List.range (lanesOf ty)).map fun _ =>
        (((List.range n).map Nat.succ).map (laneVal x ty)).foldl laneMax (laneVal x ty 0)) } := by
      rw [exec_vRmax, execVRmax, runWord_true _ hg, vCheck_ok _ _ _ ht, srcVals, laneVals_eq_cons _ _ hn,
        ← replicate_eq_map_range]
      rfl
    obtain ⟨r, hr, hlanes⟩ := sendsRow_int hint hexec fun j _ => hv
    refine ⟨r, hr, fun j hj => ?_⟩
    rw [hlanes j hj, intLane_of_laneInt]
    refine ⟨fun i hi => ?_, k, hk, rfl⟩
    rcases i with _ | i
    · exact hfirst
    · exact hall _ (by simp; exact ⟨i, by omega, rfl⟩)

end

section
/-!
PROOFS. Taking a trap (spec/17 R239 to R248): what is saved, where the context goes, and what is left alone.
-/

namespace Sys2Proof.Machine

/-! ### Writes to memory and events leave every context and every queue as it was -/

/-- The contexts and the queues are the same. -/
structure SameContexts (m m' : Mach) : Prop where
  ctx : ∀ c i, getCtx m' c i = getCtx m c i
  queues : m'.queues = m.queues

theorem SameContexts.refl (m : Mach) : SameContexts m m := ⟨fun _ _ => rfl, rfl⟩

theorem SameContexts.trans {m m' m'' : Mach} (h : SameContexts m m') (h' : SameContexts m' m'') : SameContexts m
    m'' :=
  ⟨fun c i => (h'.ctx c i).trans (h.ctx c i), h'.queues.trans h.queues⟩

theorem sameContexts_of_cores {m m' : Mach} (hc : m'.cores = m.cores) (hq : m'.queues = m.queues) : SameContexts m
    m' :=
  ⟨fun c i => by rw [getCtx, getCtx, getCore, getCore, hc], hq⟩

/-- A change of a core that keeps its contexts. -/
theorem sameContexts_setCore (m : Mach) (core : Nat) (k : Core) (hk : k.ctxs = (getCore m core).ctxs) :
    SameContexts m (setCore m core k) := by
  refine ⟨fun c i => ?_, rfl⟩
  unfold getCtx
  by_cases hc : c = core
  · subst hc
    rw [getCore_setCore, hk]
  · rw [getCore_setCore_ne _ hc]

theorem sameContexts_commitKeyed (m : Mach) (a : Nat) (key : Option Nat) (g : Nat) (mask : BitVec 16) (data : Gran) :
    SameContexts m (commitKeyed m a key g mask data) := by
  have hwrite (mask data) : SameContexts m (commitWrite m a g mask data) := sameContexts_of_cores rfl rfl
  unfold commitKeyed
  have hfirst : SameContexts m (if keyDiffers m key g && mask != 0xFFFF then
      commitWrite m a g 0xFFFF (mergeGran (Config.freeGran (m.fresh * 2 ^ 64 + 2 ^ 63 + g)) data mask)
      else commitWrite m a g mask data) := by split <;> exact hwrite _ _
  cases key with
  | none => exact hfirst
  | some k =>
    dsimp only
    split
    · exact hfirst.trans (sameContexts_of_cores rfl rfl)
    · exact hfirst

theorem sameContexts_vaWrite {m m' : Mach} {a : Nat} {w : Who} {va : Word} {x fuel n : Nat}
    (he : vaWrite m a w va x fuel n = .ok m') : SameContexts m m' := by
  induction fuel generalizing m va x n with
  | zero => exact Except.ok.inj he ▸ SameContexts.refl m
  | succ fuel ih =>
    unfold vaWrite at he
    split at he
    · exact Except.ok.inj he ▸ SameContexts.refl m
    · dsimp only at he
      split at he
      · split at he
        · cases he
        · exact (sameContexts_commitKeyed ..).trans (ih he)
      · cases he
      · cases he

theorem sameContexts_writeVa {m m' : Mach} {a : Nat} {w : Who} {va : Word} {n x : Nat}
    (he : writeVa m a w va n x = .ok m') : SameContexts m m' := sameContexts_vaWrite he

theorem sameContexts_writeFrame {m m' : Mach} {core i : Nat} {va : Word} {tile : Option Nat}
    (he : writeFrame m core i va tile = .ok m') : SameContexts m m' := by
  unfold writeFrame at he
  dsimp only at he
  split at he
  · cases he
  · next hhead =>
    split at he
    · exact Except.ok.inj he ▸ sameContexts_writeVa hhead
    · exact (sameContexts_writeVa hhead).trans (sameContexts_writeVa he)

theorem sameContexts_putEvent (m : Mach) (v x : Nat) : SameContexts m (putEvent m v x) := by
  unfold putEvent
  dsimp only
  split
  · exact sameContexts_of_cores rfl rfl
  · split
    · exact sameContexts_of_cores rfl rfl
    · split
      · next h => exact (sameContexts_writeVa h).trans (sameContexts_of_cores rfl rfl)
      · exact sameContexts_of_cores rfl rfl

theorem sameContexts_hostEvent (m : Mach) (o kind cause part id va : Nat) :
    SameContexts m (hostEvent m o kind cause part id va) := by
  unfold hostEvent
  split
  · exact sameContexts_putEvent ..
  · exact SameContexts.refl m

theorem sameContexts_pushNotice (m : Mach) (core : Nat) (n : Notice) : SameContexts m (pushNotice m core n).1 := by
  have hkept (m : Mach) : SameContexts m
      (modCore m core (fun k => { k with spilled := k.spilled ++ [n], spillSeq := k.spillSeq + 1 })) :=
    sameContexts_setCore _ _ _ rfl
  unfold pushNotice
  dsimp only
  split
  · exact SameContexts.refl m
  · split
    · exact sameContexts_setCore _ _ _ rfl
    · split
      · exact SameContexts.refl m
      · split
        · exact SameContexts.refl m
        · split
          · refine SameContexts.trans ?_ (hkept _)
            exact sameContexts_of_cores rfl rfl
          · split
            · next h => exact (sameContexts_writeVa h).trans (hkept _)
            · exact SameContexts.refl m

theorem sameContexts_asyncTrap (m : Mach) (part owner cl : Nat) (cause : Byte) (src : Nat) :
    SameContexts m (asyncTrap m part owner cl cause src) := by
  have hevent := sameContexts_hostEvent m owner 3 cause.toNat part src 0
  unfold asyncTrap
  dsimp only
  generalize hostEvent m owner 3 cause.toNat part src 0 = m1 at hevent
  split
  · have hpush := sameContexts_pushNotice m1 (1152 + cl)
    split
    · next h =>
      have hm := hevent.trans (h ▸ hpush _ : SameContexts m1 (_, true).1)
      exact hm.trans (sameContexts_hostEvent ..)
    · next h => exact hevent.trans (h ▸ hpush _ : SameContexts m1 (_, false).1)
  · exact hevent

theorem sameContexts_notifyControl (m : Mach) (core : Nat) (n : Notice) : SameContexts m (notifyControl m core n)
    := by
  have hpush := sameContexts_pushNotice m (1152 + clusterOf core) n
  unfold notifyControl
  dsimp only
  split
  · next h =>
    rw [h] at hpush
    exact hpush.trans (sameContexts_asyncTrap ..)
  · next h =>
    rw [h] at hpush
    exact hpush

theorem sameContexts_notifyTarget (m : Mach) (core i : Nat) (cc : Bool) (va : Word) (cause : Byte) :
    SameContexts m (notifyTarget m core i cc va cause) := by
  unfold notifyTarget
  dsimp only
  split
  · exact sameContexts_notifyControl ..
  · exact sameContexts_hostEvent ..

/-! ### CAUSE -/

theorem causeWord_toNat (tm : Bool) {r : Nat} (hr : r < 16) (code : Byte) :
    (causeWord tm r code).toNat = (if tm then 4096 else 0) + r * 256 + code.toNat := by
  have := code.isLt
  rw [causeWord, BitVec.toNat_ofNat]
  split <;> omega

theorem causeRcnt_lt (w : Word) : causeRcnt w < 16 := Nat.mod_lt _ (by decide)

theorem causeRcnt_causeWord (tm : Bool) {r : Nat} (hr : r < 16) (code : Byte) : causeRcnt (causeWord tm r code) = r
    := by
  have := code.isLt
  rw [causeRcnt, causeWord_toNat tm hr]
  split <;> omega

theorem causeTm_causeWord (tm : Bool) {r : Nat} (hr : r < 16) (code : Byte) : causeTm (causeWord tm r code) = tm := by
  have := code.isLt
  rw [causeTm, ← BitVec.testBit_toNat, causeWord_toNat tm hr, Nat.testBit_eq_decide_div_mod_eq]
  cases tm <;> simp <;> omega

theorem setWidth_causeWord (tm : Bool) {r : Nat} (hr : r < 16) (code : Byte) : (causeWord tm r code).setWidth 8 =
    code := by
  have := code.isLt
  apply BitVec.eq_of_toNat_eq
  rw [BitVec.toNat_setWidth, causeWord_toNat tm hr]
  split <;> omega

/-! ### Taking a trap, before its action -/

/-- The context as its trap is saved. -/
def trapCtx (c : Ctx) (cause : Byte) (faddr finfo : Word) (pkt pos : Nat) : Ctx :=
  { c with
    cause := causeWord (causeTm c.cause) (causeRcnt c.cause) cause
    epc := placeWord pkt pos
    faddr := faddr
    finfo := finfo
    pc := BitVec.ofNat 32 pkt
    wpos := pos
    fill := none
    skipBp := false
    stallCycles := 0 }

/-- The machine as the trap of a context is saved. -/
def trapMach (m : Mach) (core i : Nat) (cause : Byte) (faddr finfo : Word) (pkt pos : Nat) : Mach :=
  modCtx (leaveQueues (settle m core i) core i) core i (fun c => trapCtx c cause faddr finfo pkt pos)

/-- What every action keeps of the trap that was saved. -/
structure TrapSaved (c0 c : Ctx) (cause : Byte) (faddr finfo : Word) (pkt pos : Nat) : Prop where
  epc : c.epc = placeWord pkt pos
  faddr : c.faddr = faddr
  finfo : c.finfo = finfo
  cause : c.cause.setWidth 8 = cause
  sregs : c.sregs = c0.sregs
  preds : c.preds = c0.preds
  bregs : c.bregs = c0.bregs
  flight : c.flight = []

theorem foldl_landed_flight (l : List Flight) (c : Ctx) :
    (l.foldl (fun c f => if f.dead then c else storeReg c f.dst f.v) c).flight = c.flight := by
  induction l generalizing c with
  | nil => rfl
  | cons f l ih =>
    rw [List.foldl_cons, ih]
    split
    · rfl
    · unfold storeReg
      split
      · rfl
      · split <;> rfl

theorem landAll_flight (c : Ctx) : (landAll c).flight = [] := foldl_landed_flight _ _

theorem foldl_landed_keeps {α : Type} (g : Ctx → α) (hg : ∀ c d v, g (storeReg c d v) = g c) (l : List Flight)
    (c : Ctx) :
    g (l.foldl (fun c f => if f.dead then c else storeReg c f.dst f.v) c) = g c := by
  induction l generalizing c with
  | nil => rfl
  | cons f l ih =>
    rw [List.foldl_cons, ih]
    split
    · rfl
    · exact hg _ _ _

/-- Landing changes registers alone: of what traps look at, it leaves the area, the unit and the kind of context. -/
theorem storeReg_area (c : Ctx) (d : Dst) (v : Scalar) : (storeReg c d v).area = c.area := by
  unfold storeReg
  split
  · rfl
  · split <;> rfl

theorem storeReg_unit (c : Ctx) (d : Dst) (v : Scalar) : (storeReg c d v).unit = c.unit := by
  unfold storeReg
  split
  · rfl
  · split <;> rfl

theorem landAll_area (c : Ctx) : (landAll c).area = c.area := foldl_landed_keeps (·.area) storeReg_area _ _
theorem landAll_unit (c : Ctx) : (landAll c).unit = c.unit := foldl_landed_keeps (·.unit) storeReg_unit _ _

section
variable (m : Mach) (core i : Nat) (cause : Byte) (faddr finfo : Word) (pkt pos : Nat)

theorem getCtx_settle : getCtx (settle m core i) core i =
    { landAll (getCtx m core i) with landBy := rowsLandBy (getCore m core) i } := getCtx_setCtx ..

theorem getCtx_trapMach : getCtx (trapMach m core i cause faddr finfo pkt pos) core i =
    trapCtx (getCtx (settle m core i) core i) cause faddr finfo pkt pos := getCtx_setCtx ..

theorem getCtx_trapMach_ne {k j : Nat} (h : k ≠ core ∨ j ≠ i) :
    getCtx (trapMach m core i cause faddr finfo pkt pos) k j = getCtx m k j :=
  (getCtx_setCtx_ne _ h _).trans (getCtx_setCtx_ne m h _)

theorem trapMach_mem : (trapMach m core i cause faddr finfo pkt pos).mem = m.mem := rfl
theorem trapMach_parts : (trapMach m core i cause faddr finfo pkt pos).parts = m.parts := rfl
theorem trapMach_cycle : (trapMach m core i cause faddr finfo pkt pos).cycle = m.cycle := rfl

/-- The context waits in no queue. -/
theorem trapMach_waiters : ∀ e ∈ (trapMach m core i cause faddr finfo pkt pos).queues, (core, i) ∉ e.2.waiters := by
  intro e he
  obtain ⟨q, -, rfl⟩ := List.mem_map.1 he
  simp

theorem trapSaved_trapCtx {c0 : Ctx} (hf : c0.flight = []) :
    TrapSaved c0 (trapCtx c0 cause faddr finfo pkt pos) cause faddr finfo pkt pos :=
  ⟨rfl, rfl, rfl, setWidth_causeWord _ (causeRcnt_lt _) _, rfl, rfl, rfl, hf⟩

end

/-! ### The actions -/

/-- What an action makes of the machine as the trap is saved. -/
def trapAnswer (m : Mach) (core i : Nat) (cause : Byte) (tile : Option Nat) : TrapAct → Mach
  | .kill => beginEnd m core i (.failed cause)
  | .replay =>
    modCtx m core i (fun c =>
      { toWaiting c .replay with
        cause := causeWord (causeTm c.cause) (causeRcnt c.cause + 1) cause
        replayAt := m.cycle + 256 })
  | .forward 0 => forwardOwn m core i cause
  | .forward t =>
    if t = 1 ∧ fwdOf m (getCtx m core i) = 0 then beginEnd m core i (.failed cause)
    else holdCtx m core i cause (decide (t = 1)) false tile
  | .park t => holdCtx m core i cause (decide (t = 1) && fwdOf m (getCtx m core i) != 0) true tile

section
variable (m : Mach) (core i : Nat) (cause : Byte) (faddr finfo : Word) (pkt pos : Nat) (tile : Option Nat)

theorem trapMach_area : (getCtx (trapMach m core i cause faddr finfo pkt pos) core i).area = (getCtx m core i).area
    := by
  rw [getCtx_trapMach, getCtx_settle]
  exact landAll_area _

theorem trapMach_fwdOf : fwdOf (trapMach m core i cause faddr finfo pkt pos)
    (getCtx (trapMach m core i cause faddr finfo pkt pos) core i) = fwdOf m (getCtx m core i) := by
  have hunit : (getCtx (trapMach m core i cause faddr finfo pkt pos) core i).unit = (getCtx m core i).unit := by
    rw [getCtx_trapMach, getCtx_settle]
    exact landAll_unit _
  rw [fwdOf, fwdOf, hunit, trapMach_area]
  rfl

/-- Taking a trap is saving it, then the action of the table (R242). -/
theorem trapEnter_eq : trapEnter m core i cause faddr finfo pkt pos tile =
    trapAnswer (trapMach m core i cause faddr finfo pkt pos) core i cause tile
      (trapAct (actionEntry m (getCtx m core i).area cause) (causeRcnt (getCtx (settle m core i) core i).cause)) := by
  have hrcnt : causeRcnt (getCtx (trapMach m core i cause faddr finfo pkt pos) core i).cause =
      causeRcnt (getCtx (settle m core i) core i).cause := by
    rw [getCtx_trapMach]
    exact causeRcnt_causeWord _ (causeRcnt_lt _) _
  rw [← hrcnt, ← trapMach_area m core i cause faddr finfo pkt pos]
  unfold trapEnter trapAnswer
  rfl

end

/-! #### Ending (R244) -/

/-- A context that begins to end with a status. -/
def endingCtx (c : Ctx) (e : Ending) : Ctx :=
  { toWaiting { c with hold := none } .ending with ending := some e, susp := none, due := [], pre := none, fill :=
      none }

theorem sameContexts_dropPre (m : Mach) (area : Nat) (pre : Option PreEmpt) : SameContexts m (dropPre m area pre)
    := by
  unfold dropPre
  split <;> exact sameContexts_of_cores rfl rfl

@[simp] theorem dropPre_mem (m : Mach) (area : Nat) (pre : Option PreEmpt) : (dropPre m area pre).mem = m.mem := by
  unfold dropPre
  split <;> rfl

section
variable (m : Mach) (core i : Nat) (e : Ending)

/-- The commands that the weir has stopped are to end, and the slots of the pre-emption are free. -/
theorem sameContexts_freed : SameContexts m (dueRest (dropPre m (getCtx m core i).area (getCtx m core i).pre) core i
    (((getCtx m core i).pre.map (·.rest)).getD [])) :=
  (sameContexts_dropPre ..).trans (sameContexts_of_cores rfl rfl)

theorem getCtx_beginEnd : getCtx (beginEnd m core i e) core i = endingCtx (getCtx m core i) e := by
  rw [beginEnd, modCtx, getCtx_setCtx, (sameContexts_freed m core i).ctx]
  rfl

theorem getCtx_beginEnd_ne {k j : Nat} (h : k ≠ core ∨ j ≠ i) : getCtx (beginEnd m core i e) k j = getCtx m k j := by
  rw [beginEnd, modCtx, getCtx_setCtx_ne _ h, (sameContexts_freed m core i).ctx]

theorem beginEnd_queues : (beginEnd m core i e).queues = m.queues := (sameContexts_freed m core i).queues
theorem beginEnd_mem : (beginEnd m core i e).mem = m.mem := dropPre_mem ..

end

/-! #### Holding and parking (R246, R248) -/

/-- A context that is held. -/
def heldCtx (c : Ctx) (h : Hold) : Ctx :=
  let c := { toWaiting c .held with hold := some h }
  if h.park then parkRequest c else c

/-- The registers that a trap saves. -/
structure SameTrap (c c' : Ctx) : Prop where
  epc : c'.epc = c.epc
  faddr : c'.faddr = c.faddr
  finfo : c'.finfo = c.finfo
  cause : c'.cause = c.cause
  sregs : c'.sregs = c.sregs
  preds : c'.preds = c.preds
  bregs : c'.bregs = c.bregs
  flight : c'.flight = c.flight

theorem TrapSaved.of_same {c0 c c' : Ctx} {cause : Byte} {faddr finfo : Word} {pkt pos : Nat}
    (h : TrapSaved c0 c cause faddr finfo pkt pos) (hs : SameTrap c c') : TrapSaved c0 c' cause faddr finfo pkt pos :=
  ⟨hs.epc.trans h.epc, hs.faddr.trans h.faddr, hs.finfo.trans h.finfo, by rw [hs.cause, h.cause], hs.sregs.trans
      h.sregs,
    hs.preds.trans h.preds, hs.bregs.trans h.bregs, hs.flight.trans h.flight⟩

theorem clampLoop_cases (c : Ctx) :
    c.lepi.getLsbD 63 = true ∧ clampLoop c =
      { c with lrem := if c.lc = 0 then 0 else c.lc - 1, lc := 1, lepi := c.lepi ||| BitVec.ofNat 64 (2 ^ 62) } ∨
    c.lepi.getLsbD 63 = false ∧ clampLoop c = c := by
  unfold clampLoop
  cases h : c.lepi.getLsbD 63
  · exact .inr ⟨rfl, rfl⟩
  · exact .inl ⟨rfl, rfl⟩

theorem parkRequest_cases (c : Ctx) :
    c.pre.isSome = true ∧ parkRequest c = c ∨
    c.pre = none ∧ parkRequest c =
        { clampLoop c with pre := some { src := .park, stopped := none, acks := 0, saved := false } } := by
  unfold parkRequest
  cases h : c.pre
  · exact .inr ⟨rfl, rfl⟩
  · exact .inl ⟨rfl, rfl⟩

/-- A held context: Waiting with its hold; a park is a request of pre-emption that clamps an active loop, unless
    one is
pending. -/
structure IsHeld (c0 c : Ctx) (h : Hold) : Prop where
  same : SameTrap c0 c
  st : c.st = .waiting
  wait : c.wait = some .held
  gapcnt : c.gapcnt = 0
  hold : c.hold = some h
  pre : c.pre = if h.park && c0.pre.isNone then some { src := .park, stopped := none, acks := 0, saved := false }
      else c0.pre
  clamped : h.park = true → c0.pre = none → c0.lepi.getLsbD 63 = true → c.lc = 1 ∧ c.lrem =
      (if c0.lc = 0 then 0 else c0.lc - 1)
  free : h.park = false ∨ c0.pre ≠ none ∨ c0.lepi.getLsbD 63 = false → c.lc = c0.lc ∧ c.lrem = c0.lrem
  pend : c.pend = c0.pend
  landBy : c.landBy = c0.landBy

theorem isHeld_heldCtx (c : Ctx) (h : Hold) : IsHeld c (heldCtx c h) h := by
  have hplain (hp : h.park = false ∨ c.pre.isSome = true)
      (he : heldCtx c h = { toWaiting c .held with hold := some h }) :
      IsHeld c (heldCtx c h) h := by
    rw [he]
    refine ⟨⟨rfl, rfl, rfl, rfl, rfl, rfl, rfl, rfl⟩, rfl, rfl, rfl, rfl, ?_, ?_, fun _ => ⟨rfl, rfl⟩, rfl, rfl⟩
    · rcases hp with hp | hp
      · rw [hp]
        rfl
      · rw [if_neg]
        · rfl
        · rw [Option.isSome_iff_ne_none] at hp
          simp [hp]
    · intro hpark hnone
      rcases hp with hp | hp
      · rw [hpark] at hp
        cases hp
      · rw [hnone] at hp
        cases hp
  cases hpark : h.park with
  | false => exact hplain (.inl hpark) (by rw [heldCtx, hpark]; rfl)
  | true =>
    have he : heldCtx c h = parkRequest { toWaiting c .held with hold := some h } := by
      rw [heldCtx, hpark]
      rfl
    obtain ⟨hpre, hreq⟩ | ⟨hpre, hreq⟩ := parkRequest_cases { toWaiting c .held with hold := some h }
    · exact hplain (.inr hpre) (he.trans hreq)
    · have hpre : c.pre = none := hpre
      rw [he, hreq]
      have hcond : (h.park && c.pre.isNone) = true := by rw [hpark, hpre]; rfl
      obtain ⟨hbit, hclamp⟩ | ⟨hbit, hclamp⟩ := clampLoop_cases { toWaiting c .held with hold := some h }
      · have hbit : c.lepi.getLsbD 63 = true := hbit
        rw [hclamp]
        refine ⟨⟨rfl, rfl, rfl, rfl, rfl, rfl, rfl, rfl⟩, rfl, rfl, rfl, rfl, (if_pos hcond).symm, fun _ _ _ =>
            ⟨rfl, rfl⟩, ?_,
          rfl, rfl⟩
        rintro (h1 | h1 | h1)
        · exact absurd (hpark.symm.trans h1) (by decide)
        · exact absurd hpre h1
        · exact absurd (hbit.symm.trans h1) (by decide)
      · have hbit : c.lepi.getLsbD 63 = false := hbit
        rw [hclamp]
        exact ⟨⟨rfl, rfl, rfl, rfl, rfl, rfl, rfl, rfl⟩, rfl, rfl, rfl, rfl, (if_pos hcond).symm,
          fun _ _ h1 => absurd (hbit.symm.trans h1) (by decide), fun _ => ⟨rfl, rfl⟩, rfl, rfl⟩

/-- The frame of a held context is written: nothing else of it changes. -/
theorem IsHeld.paid {c0 c : Ctx} {h : Hold} (hc : IsHeld c0 c h) :
    IsHeld c0 { c with hold := some { h with owed := none } } { h with owed := none } :=
  ⟨⟨hc.same.epc, hc.same.faddr, hc.same.finfo, hc.same.cause, hc.same.sregs, hc.same.preds, hc.same.bregs,
      hc.same.flight⟩,
    hc.st, hc.wait, hc.gapcnt, rfl, hc.pre, hc.clamped, hc.free, hc.pend, hc.landBy⟩

/-- The machine with a context held. -/
def heldMach (m : Mach) (core i : Nat) (h : Hold) : Mach := modCtx m core i (fun c => heldCtx c h)

section
variable (m : Mach) (core i : Nat) (cause : Byte) (cc park : Bool) (tile : Option Nat)

theorem holdCtx_of_control (hcore : isControl core = true) : holdCtx m core i cause cc park tile =
    notifyTarget (heldMach m core i ⟨0, cause, false, cc, none, false⟩) core i cc 0 cause := by
  have hva : frameVa m core i = none := by rw [frameVa, if_pos hcore]
  rw [holdCtx, hva]
  dsimp only
  rw [if_pos hcore]
  rfl

theorem holdCtx_of_no_area (hcore : isControl core = false)
    (hpart : (getPart m (getCtx m core i).area).recarea = none) :
    holdCtx m core i cause cc park tile = beginEnd m core i (.failed cause) := by
  have hva : frameVa m core i = none := by
    rw [frameVa, hcore, if_neg Bool.false_ne_true, hpart]
    rfl
  rw [holdCtx, hva]
  dsimp only
  rw [hcore, if_neg Bool.false_ne_true]

theorem holdCtx_of_area {area : Word} (hcore : isControl core = false)
    (hpart : (getPart m (getCtx m core i).area).recarea = some area) :
    holdCtx m core i cause cc park tile = payFrame (heldMach m core i
      ⟨area + BitVec.ofNat 64 (17408 * (16 * (core % 18) + i)), cause, park && !(getCtx m core i).arr, cc, some
          tile, true⟩)
      core i := by
  have hva : frameVa m core i = some (area + BitVec.ofNat 64 (17408 * (16 * (core % 18) + i))) := by
    rw [frameVa, hcore, if_neg Bool.false_ne_true, hpart]
    rfl
  rw [holdCtx, hva]
  rfl

end

/-! #### Writing the frame of a held context (R246) -/

section
variable {m m2 : Mach} {core i : Nat} {h : Hold} {tile : Option Nat}

/-- A frame that may not be written yet leaves the context as it is held. -/
theorem payFrame_waits (hhold : (getCtx m core i).hold = some h) (howed : h.owed = some tile)
    (hw : m.cycle < (getCtx m core i).landBy ∨ (getCtx m core i).pend ≠ [] ∨
      heldWrite m (whoOf m core i) h.frame 16640 = true) : payFrame m core i = m := by
  have hcond : m.cycle < (getCtx m core i).landBy ∨ (!(getCtx m core i).pend.isEmpty) = true ∨
      heldWrite m (whoOf m core i) h.frame 16640 = true := by
    refine hw.imp_right (Or.imp_left fun hp => ?_)
    simpa using hp
  unfold payFrame
  simp only [hhold, howed, if_pos hcond]

theorem payFrame_of_writable (hhold : (getCtx m core i).hold = some h) (howed : h.owed = some tile)
    (hland : (getCtx m core i).landBy ≤ m.cycle) (hpend : (getCtx m core i).pend = [])
    (hw : heldWrite m (whoOf m core i) h.frame 16640 = false) :
    (∀ x a, writeFrame m core i h.frame tile = .error (x, a) → payFrame m core i = areaRefused m core i x a) ∧
    (∀ m2, writeFrame m core i h.frame tile = .ok m2 → payFrame m core i =
      notifyTarget (modCtx m2 core i (fun c => { c with hold := some { h with owed := none } })) core i h.cc
          h.frame h.cause) := by
  have hcond : ¬(m.cycle < (getCtx m core i).landBy ∨ (!(getCtx m core i).pend.isEmpty) = true ∨
      heldWrite m (whoOf m core i) h.frame 16640 = true) := by
    simp [hpend, hw, hland]
  unfold payFrame
  simp only [hhold, howed, if_neg hcond]
  exact ⟨fun x a he => by rw [he], fun m2 he => by rw [he]⟩

end

/-! #### The context and the queues after each action -/

theorem getCtx_heldMach (m : Mach) (core i : Nat) (h : Hold) :
    getCtx (heldMach m core i h) core i = heldCtx (getCtx m core i) h := getCtx_setCtx ..

theorem getCtx_heldMach_ne (m : Mach) {core i k j : Nat} (h : Hold) (hne : k ≠ core ∨ j ≠ i) :
    getCtx (heldMach m core i h) k j = getCtx m k j := getCtx_setCtx_ne m hne _

theorem getCtx_modCtx (m : Mach) (core i : Nat) (f : Ctx → Ctx) :
    getCtx (modCtx m core i f) core i = f (getCtx m core i) := getCtx_setCtx ..

theorem getCtx_modCtx_ne (m : Mach) {core i k j : Nat} (f : Ctx → Ctx) (h : k ≠ core ∨ j ≠ i) :
    getCtx (modCtx m core i f) k j = getCtx m k j := getCtx_setCtx_ne m h _


/-- All that the actions need of the machine `m1` in which the trap of a context of `m` has been saved. -/
structure TrapTaken (m : Mach) (core i : Nat) (cause : Byte) (faddr finfo : Word) (pkt pos : Nat) (m1 : Mach) :
    Prop where
  ctx : getCtx m1 core i = trapCtx (getCtx (settle m core i) core i) cause faddr finfo pkt pos
  settled : (getCtx (settle m core i) core i).flight = []
  others : ∀ k j, (k ≠ core ∨ j ≠ i) → getCtx m1 k j = getCtx m k j
  mem : m1.mem = m.mem
  waiters : ∀ e ∈ m1.queues, (core, i) ∉ e.2.waiters
  area : (getCtx m1 core i).area = (getCtx m core i).area
  fwd : fwdOf m1 (getCtx m1 core i) = fwdOf m (getCtx m core i)
  parts : m1.parts = m.parts
  cycle : m1.cycle = m.cycle

theorem trapTaken (m : Mach) (core i : Nat) (cause : Byte) (faddr finfo : Word) (pkt pos : Nat) :
    TrapTaken m core i cause faddr finfo pkt pos (trapMach m core i cause faddr finfo pkt pos) where
  ctx := getCtx_trapMach ..
  settled := by
    rw [getCtx_settle]
    exact landAll_flight _
  others _ _ h := getCtx_trapMach_ne _ _ _ _ _ _ _ _ h
  mem := trapMach_mem ..
  waiters := trapMach_waiters m core i cause faddr finfo pkt pos
  area := trapMach_area ..
  fwd := trapMach_fwdOf ..
  parts := trapMach_parts ..
  cycle := trapMach_cycle ..

/-- What a trap keeps of its context, whatever its action: the saved registers, and no place in a queue. -/
def TrapKept (c0 : Ctx) (core i : Nat) (cause : Byte) (faddr finfo : Word) (pkt pos : Nat) (m' : Mach) : Prop :=
  TrapSaved c0 (getCtx m' core i) cause faddr finfo pkt pos ∧ ∀ e ∈ m'.queues, (core, i) ∉ e.2.waiters

/-- Memory and every other context are left alone. -/
def TrapAlone (m : Mach) (core i : Nat) (m' : Mach) : Prop :=
  m'.mem = m.mem ∧ ∀ k j, (k ≠ core ∨ j ≠ i) → getCtx m' k j = getCtx m k j

/-- A context that is killed with a cause. -/
def TrapKilled (c : Ctx) (cause : Byte) : Prop :=
  c.st = .waiting ∧ c.wait = some .ending ∧ c.ending = some (.failed cause) ∧ c.gapcnt = 0

section
variable {m m1 : Mach} {core i : Nat} {cause : Byte} {faddr finfo : Word} {pkt pos : Nat}
  (ht : TrapTaken m core i cause faddr finfo pkt pos m1)
include ht

theorem trapKept_of_same {m' : Mach} (hs : SameTrap (getCtx m1 core i) (getCtx m' core i))
    (hq : m'.queues = m1.queues) :
    TrapKept (getCtx (settle m core i) core i) core i cause faddr finfo pkt pos m' := by
  have hsaved := trapSaved_trapCtx cause faddr finfo pkt pos ht.settled
  rw [← ht.ctx] at hsaved
  exact ⟨hsaved.of_same hs, hq ▸ ht.waiters⟩

/-- A change of the context itself leaves memory and the other contexts alone. -/
theorem trapAlone_modCtx (f : Ctx → Ctx) : TrapAlone m core i (modCtx m1 core i f) :=
  ⟨(modCtx_mem ..).trans ht.mem, fun k j h => by rw [getCtx_modCtx_ne _ _ h, ht.others k j h]⟩

theorem trap_killed : TrapKept (getCtx (settle m core i) core i) core i cause faddr finfo pkt pos
    (beginEnd m1 core i (.failed cause)) ∧
    TrapAlone m core i (beginEnd m1 core i (.failed cause)) ∧
    TrapKilled (getCtx (beginEnd m1 core i (.failed cause)) core i) cause := by
  refine ⟨trapKept_of_same ht ?_ (beginEnd_queues ..), ⟨(beginEnd_mem ..).trans ht.mem, fun k j h => ?_⟩, ?_⟩
  · rw [getCtx_beginEnd]
    exact ⟨rfl, rfl, rfl, rfl, rfl, rfl, rfl, rfl⟩
  · rw [getCtx_beginEnd_ne _ _ _ _ h, ht.others k j h]
  · rw [getCtx_beginEnd]
    exact ⟨rfl, rfl, rfl, rfl⟩

theorem trapCtx_rcnt : causeRcnt (getCtx m1 core i).cause = causeRcnt (getCtx (settle m core i) core i).cause := by
  rw [ht.ctx]
  exact causeRcnt_causeWord _ (causeRcnt_lt _) _

theorem trapCtx_tm : causeTm (getCtx m1 core i).cause = causeTm (getCtx (settle m core i) core i).cause := by
  rw [ht.ctx]
  exact causeTm_causeWord _ (causeRcnt_lt _) _

theorem trap_replayed (hr : causeRcnt (getCtx (settle m core i) core i).cause < 15) :
    let m' := modCtx m1 core i (fun c =>
      { toWaiting c .replay with cause := causeWord (causeTm c.cause) (causeRcnt c.cause + 1) cause, replayAt :=
          m1.cycle + 256 })
    let c := getCtx m' core i
    TrapKept (getCtx (settle m core i) core i) core i cause faddr finfo pkt pos m' ∧ TrapAlone m core i m' ∧
      c.st = .waiting ∧ c.wait = some .replay ∧ c.replayAt = m.cycle + 256 ∧
      causeRcnt c.cause = causeRcnt (getCtx (settle m core i) core i).cause + 1 ∧
      causeTm c.cause = causeTm (getCtx (settle m core i) core i).cause ∧ c.pc = BitVec.ofNat 32 pkt ∧ c.wpos = pos
          := by
  intro m' c
  have hr' : causeRcnt (getCtx (settle m core i) core i).cause + 1 < 16 := by omega
  have hc : c = { toWaiting (getCtx m1 core i) .replay with
      cause := causeWord (causeTm (getCtx (settle m core i) core i).cause)
          (causeRcnt (getCtx (settle m core i) core i).cause + 1) cause
      replayAt := m.cycle + 256 } := by
    rw [← trapCtx_rcnt ht, ← trapCtx_tm ht, ← ht.cycle]
    exact getCtx_modCtx ..
  have hkept : TrapKept (getCtx (settle m core i) core i) core i cause faddr finfo pkt pos m' := by
    obtain ⟨h1, h2, h3, -, h5, h6, h7, h8⟩ := trapSaved_trapCtx cause faddr finfo pkt pos ht.settled
    rw [← ht.ctx] at h1 h2 h3 h5 h6 h7 h8
    refine ⟨?_, ht.waiters⟩
    show TrapSaved _ c _ _ _ _ _
    rw [hc]
    exact ⟨h1, h2, h3, setWidth_causeWord _ hr' _, h5, h6, h7, h8⟩
  refine ⟨hkept, trapAlone_modCtx ht _, ?_⟩
  rw [hc]
  refine ⟨rfl, rfl, rfl, causeRcnt_causeWord _ hr' _, causeTm_causeWord _ hr' _, ?_, ?_⟩
  · exact (congrArg (·.pc) ht.ctx)
  · exact (congrArg (·.wpos) ht.ctx)

theorem trap_forwardedOwn :
    let c0 := getCtx (settle m core i) core i
    let m' := forwardOwn m1 core i cause
    let c := getCtx m' core i
    TrapKept c0 core i cause faddr finfo pkt pos m' ∧ TrapAlone m core i m' ∧
      (c0.trapbase.toNat % 2 ^ 32 = 0 ∨ causeTm c0.cause = true → TrapKilled c cause) ∧
      (c0.trapbase.toNat % 2 ^ 32 ≠ 0 → causeTm c0.cause = false → c.st = .ready ∧ c.wait = none ∧ causeTm c.cause
          = true ∧
        causeRcnt c.cause = causeRcnt c0.cause ∧ c.pc = c0.trapbase.setWidth 32 ∧ c.wpos = 0) := by
  intro c0 m' c
  have hbase : (getCtx m1 core i).trapbase = c0.trapbase := congrArg (·.trapbase) ht.ctx
  have htm : causeTm (getCtx m1 core i).cause = causeTm c0.cause := trapCtx_tm ht
  by_cases hkill : c0.trapbase.toNat % 2 ^ 32 = 0 ∨ causeTm c0.cause = true
  · have hm' : m' = beginEnd m1 core i (.failed cause) := if_pos (by rwa [hbase, htm])
    obtain ⟨hkept, halone, hkilled⟩ := trap_killed ht
    rw [← hm'] at hkept halone hkilled
    refine ⟨hkept, halone, fun _ => hkilled, fun h1 h2 => ?_⟩
    rcases hkill with h | h
    · exact absurd h h1
    · rw [h2] at h
      cases h
  · have hm' : m' = modCtx m1 core i (fun c => { c with
        cause := causeWord true (causeRcnt c.cause) cause, pc := (getCtx m1 core i).trapbase.setWidth 32, wpos :=
            0, st := .ready,
        wait := none }) := if_neg (by rwa [hbase, htm])
    have hc : c = { getCtx m1 core i with
        cause := causeWord true (causeRcnt c0.cause) cause, pc := c0.trapbase.setWidth 32, wpos := 0, st := .ready,
            wait := none } := by
      rw [← trapCtx_rcnt ht, ← hbase]
      exact (congrArg (getCtx · core i) hm').trans (getCtx_modCtx ..)
    obtain ⟨h1, h2, h3, -, h5, h6, h7, h8⟩ := trapSaved_trapCtx cause faddr finfo pkt pos ht.settled
    rw [← ht.ctx] at h1 h2 h3 h5 h6 h7 h8
    refine ⟨⟨?_, ?_⟩, ?_, fun h => absurd h hkill, fun _ _ => ?_⟩
    · show TrapSaved _ c _ _ _ _ _
      rw [hc]
      exact ⟨h1, h2, h3, setWidth_causeWord _ (causeRcnt_lt _) _, h5, h6, h7, h8⟩
    · rw [hm']
      exact ht.waiters
    · rw [hm']
      exact trapAlone_modCtx ht _
    · rw [hc]
      exact ⟨rfl, rfl, causeTm_causeWord _ (causeRcnt_lt _) _, causeRcnt_causeWord _ (causeRcnt_lt _) _, rfl, rfl⟩

theorem trap_held_control (hcore : isControl core = true) (cc park : Bool) (tile : Option Nat) :
    let m' := holdCtx m1 core i cause cc park tile
    TrapKept (getCtx (settle m core i) core i) core i cause faddr finfo pkt pos m' ∧
      IsHeld (getCtx m1 core i) (getCtx m' core i) ⟨0, cause, false, cc, none, false⟩ := by
  intro m'
  have hm' : m' = _ := holdCtx_of_control m1 core i cause cc park tile hcore
  have hsame := sameContexts_notifyTarget (heldMach m1 core i ⟨0, cause, false, cc, none, false⟩) core i cc 0 cause
  rw [← hm'] at hsame
  have hheld : IsHeld (getCtx m1 core i) (getCtx m' core i) ⟨0, cause, false, cc, none, false⟩ := by
    rw [hsame.ctx, getCtx_heldMach]
    exact isHeld_heldCtx _ _
  exact ⟨trapKept_of_same ht hheld.same hsame.queues, hheld⟩

/-- A context that is held with its frame owed. -/
theorem trap_held_owed (h : Hold) :
    TrapKept (getCtx (settle m core i) core i) core i cause faddr finfo pkt pos (heldMach m1 core i h) ∧
      TrapAlone m core i (heldMach m1 core i h) ∧ IsHeld (getCtx m1 core i) (getCtx (heldMach m1 core i h) core i)
          h := by
  have hheld : IsHeld (getCtx m1 core i) (getCtx (heldMach m1 core i h) core i) h := by
    rw [getCtx_heldMach]
    exact isHeld_heldCtx _ _
  exact ⟨trapKept_of_same ht hheld.same rfl, trapAlone_modCtx ht _, hheld⟩

/-- A context whose frame is written and whose target is told. -/
theorem trap_held_paid {h : Hold} {tile : Option Nat} {m2 : Mach}
    (hw : writeFrame (heldMach m1 core i h) core i h.frame tile = .ok m2) :
    let m' := notifyTarget (modCtx m2 core i (fun c => { c with hold := some { h with owed := none } })) core i
        h.cc h.frame h.cause
    TrapKept (getCtx (settle m core i) core i) core i cause faddr finfo pkt pos m' ∧
      IsHeld (getCtx m1 core i) (getCtx m' core i) { h with owed := none } := by
  intro m'
  have hsame : SameContexts _ m' := sameContexts_notifyTarget _ core i h.cc h.frame h.cause
  have hwrite := sameContexts_writeFrame hw
  have hheld : IsHeld (getCtx m1 core i) (getCtx m' core i) { h with owed := none } := by
    rw [hsame.ctx, getCtx_modCtx, hwrite.ctx]
    exact (trap_held_owed ht h).2.2.paid
  exact ⟨trapKept_of_same ht hheld.same (hsame.queues.trans hwrite.queues), hheld⟩

end

/-! #### The table (R242, R243, Table 17-1) -/

/-- A replay is counted: below 15 replays at most (R243). -/
theorem rcnt_lt_of_replay {entry r : Nat} (h : trapAct entry r = .replay) : r < 15 := by
  unfold trapAct at h
  dsimp only at h
  split at h
  · cases h
  · split at h
    · cases h
    · split at h
      · omega
      · split at h <;> cases h
    · cases h
    · cases h

/-- The default action of a cause (Table 17-1). -/
theorem defaultAction_toNat (cause : Byte) : (defaultAction cause).toNat =
    if cause = 0x1B then 0x7 else if cause = 0x21 ∨ cause = 0x40 then 0x3 else if cause = 0x39 then 0x8
      else if cause = 0x41 ∨ cause = 0x42 then 0xB else 0 := by
  revert cause
  decide

end Sys2Proof.Machine

open Sys2Proof Sys2Proof.Machine

/-- Settles O33: the trap is saved, and each action is read off its own operation. -/
theorem trapEntry : Obligations.TrapEntry := by
  unfold Obligations.TrapEntry
  refine ⟨?_, fun m p cause hnone => by rw [actionEntry, hnone, Option.getD_none, defaultAction_toNat]⟩
  intro m core i cause faddr finfo pkt pos tile c0
  refine ⟨congrArg (·.landBy) (getCtx_settle m core i), ?_⟩
  intro m' c part act fwd saved alone killed m1
  have ht : TrapTaken m core i cause faddr finfo pkt pos m1 := trapTaken m core i cause faddr finfo pkt pos
  have hm' : m' = trapAnswer m1 core i cause tile act := trapEnter_eq m core i cause faddr finfo pkt pos tile
  clear_value m1 m'
  have hsaved (h : TrapKept c0 core i cause faddr finfo pkt pos m') : saved :=
    let ⟨⟨h1, h2, h3, h4, h5, h6, h7, h8⟩, h9⟩ := h
    ⟨h1, h2, h3, h4, h5, h6, h7, h8, h9⟩
  have hend (h : m' = beginEnd m1 core i (.failed cause)) : saved ∧ alone ∧ killed := by
    obtain ⟨hkept, halone, hkilled⟩ := trap_killed ht
    rw [← h] at hkept halone hkilled
    exact ⟨hsaved hkept, halone, hkilled⟩
  refine ⟨fun hact => hend (by rw [hm', hact]; rfl), fun hact => ?replay, fun hact => ?own, fun hact hzero =>
      ?noControl, ?hold⟩
  case replay =>
    obtain ⟨hkept, halone, hrest⟩ := trap_replayed ht (rcnt_lt_of_replay hact)
    rw [hact] at hm'
    subst hm'
    exact ⟨hsaved hkept, halone, hrest⟩
  case own =>
    obtain ⟨hkept, halone, hkill, hown⟩ := trap_forwardedOwn ht
    rw [hact] at hm'
    subst hm'
    exact ⟨hsaved hkept, halone, hkill, hown⟩
  case noControl =>
    refine hend ?_
    rw [hm', hact]
    exact if_pos ⟨rfl, ht.fwd.trans hzero⟩
  case hold =>
    intro park cc area m2 hcases
    have hhold : m' = holdCtx m1 core i cause cc park tile := by
      rw [hm']
      obtain ⟨hact, hf, rfl, rfl⟩ | ⟨hact, rfl, rfl⟩ | ⟨hact, rfl, rfl⟩ | ⟨hact, rfl, rfl⟩ | ⟨hact, rfl, rfl⟩ :=
          hcases
      · rw [hact]
        exact if_neg fun h => hf (ht.fwd.symm.trans h.2)
      · rw [hact]
        simp [trapAnswer]
      · rw [hact, trapAnswer, ht.fwd]
        rfl
      · rw [hact]
        rfl
      · rw [hact]
        rfl
    have harea (a : Option Word) (h : part.recarea = a) : (getPart m1 (getCtx m1 core i).area).recarea = a := by
      rw [ht.area, getPart, ht.parts]
      exact h
    clear hm' hcases
    refine ⟨fun hcore => ?control, fun hcore hpart => hend
        (hhold.trans (holdCtx_of_no_area _ _ _ _ _ _ _ hcore (harea _ hpart))),
      fun hcore hpart => ?area⟩
    case control =>
      obtain ⟨hkept, hheld⟩ := trap_held_control ht hcore cc park tile
      rw [← hhold] at hkept hheld
      exact ⟨hsaved hkept, hheld.st, hheld.wait, hheld.gapcnt, hheld.hold⟩
    case area =>
      intro va parks pre held m3 waits
      have harr : (getCtx m1 core i).arr = c0.arr := congrArg (·.arr) ht.ctx
      have hpay : m' = payFrame m3 core i := by
        rw [hhold, holdCtx_of_area _ _ _ _ _ _ _ hcore (harea _ hpart), harr]
        rfl
      let h : Hold := ⟨va, cause, parks, cc, some tile, true⟩
      obtain ⟨hkept3, halone3, hheld3⟩ := trap_held_owed ht h
      have hheld {h' : Hold} (hp : h'.park = parks) (hkept : TrapKept c0 core i cause faddr finfo pkt pos m')
          (hc : IsHeld (getCtx m1 core i) c h') : held := by
        obtain ⟨-, hst, hwait, hgap, -, hpre, hclamp, hfree, -, -⟩ := hc
        rw [hp, ht.ctx] at hpre hclamp hfree
        exact ⟨hsaved hkept, hst, hwait, hgap, hpre, hclamp, hfree⟩
      have hland : (getCtx m3 core i).landBy = c0.landBy := hheld3.landBy.trans (congrArg (·.landBy) ht.ctx)
      have hpend : (getCtx m3 core i).pend = c0.pend := hheld3.pend.trans (congrArg (·.pend) ht.ctx)
      have hwrites (h1 : c0.landBy ≤ m.cycle) (h2 : c0.pend = []) (h3 : waits = false) :=
        payFrame_of_writable hheld3.hold rfl (hland.le.trans (h1.trans ht.cycle.ge)) (hpend.trans h2) h3
      refine ⟨fun x a h1 h2 h3 hw => hpay.trans ((hwrites h1 h2 h3).1 x a hw), fun h1 h2 h3 hw => ?_, fun hw => ?_⟩
      · obtain ⟨hkept, hpaid⟩ := trap_held_paid ht (h := h) hw
        rw [← hpay.trans ((hwrites h1 h2 h3).2 m2 hw)] at hkept hpaid
        exact ⟨hheld rfl hkept hpaid, hpaid.hold⟩
      · have hm' : m' = m3 := hpay.trans
          (payFrame_waits hheld3.hold rfl (by rw [hland, hpend]; exact hw.imp_left ht.cycle.trans_lt))
        rw [← show m' = heldMach m1 core i h from hm'] at hkept3 halone3 hheld3
        exact ⟨hheld rfl hkept3 hheld3, halone3, hheld3.hold⟩

end

section
/-!
PROOFS. The array's words that hold it and find their reads made (spec/09 R162, R169), and the beat
    (spec/09 R164, R173).
-/

namespace Sys2Proof.Machine

/-! ### Dense and sparse lists -/

/-- The map made of a list reads as the list. -/
theorem smGet_smOfList {α : Type} [DecidableEq α] (d : α) (lo : Nat) (xs : List α) (k : Nat) :
    smGet d (smOfList d lo xs) k = if k < lo then d else xs.getD (k - lo) d := by
  induction xs generalizing lo with
  | nil => simp [smOfList, smGet]
  | cons x xs ih =>
    have hnext (hk : k ≠ lo) : (if k < lo + 1 then d else xs.getD (k - (lo + 1)) d) =
        if k < lo then d else (x :: xs).getD (k - lo) d := by
      by_cases hlt : k < lo
      · rw [if_pos hlt, if_pos (by omega)]
      · rw [if_neg hlt, if_neg (by omega), show k - lo = (k - (lo + 1)) + 1 by omega]
        rfl
    unfold smOfList
    split
    · next hx =>
      rw [ih]
      by_cases hk : k = lo
      · subst hk
        simp [hx]
      · exact hnext hk
    · rw [smGet]
      by_cases hk : k = lo
      · subst hk
        simp
      · rw [if_neg (Ne.symm hk), ih]
        exact hnext hk

/-- The list made of a map in order reads as the map. -/
theorem getD_smDense {α : Type} (d : α) (m : SMap α) (lo n j : Nat) (hsorted : m.Pairwise (fun e f => e.1 < f.1))
    (hlo : ∀ e ∈ m, lo ≤ e.1) (hj : j < n) : (smDense d m lo n).getD j d = smGet d m (lo + j) := by
  induction n generalizing m lo j with
  | zero => omega
  | succ n ih =>
    cases m with
    | nil =>
      rw [smDense]
      cases j with
      | zero => rfl
      | succ j =>
        rw [List.getD_cons_succ, ih [] (lo + 1) j .nil (by simp) (by omega)]
        rfl
    | cons e m =>
      obtain ⟨hhead, htail⟩ := List.pairwise_cons.1 hsorted
      have hle := hlo e (List.mem_cons_self)
      rw [smDense]
      split
      · next he =>
        cases j with
        | zero => simp [smGet, he]
        | succ j =>
          rw [List.getD_cons_succ, ih m (lo + 1) j htail (fun f hf => by have := hhead f hf; omega) (by omega), smGet,
            if_neg (by omega)]
          congr 1
          omega
      · next he =>
        have hlo' : ∀ f ∈ e :: m, lo + 1 ≤ f.1 := by
          intro f hf
          rcases List.mem_cons.1 hf with rfl | hf
          · omega
          · have := hhead f hf
            omega
        cases j with
        | zero =>
          have hnone : smGet d (e :: m) lo = d := by
            rw [smGet, if_neg he]
            have hall : ∀ f ∈ m, f.1 ≠ lo := fun f hf => by have := hhead f hf; omega
            clear ih hsorted hhead htail hlo hlo' hle he
            induction m with
            | nil => rfl
            | cons f m ih' =>
              rw [smGet, if_neg (hall f List.mem_cons_self)]
              exact ih' fun g hg => hall g (List.mem_cons_of_mem _ hg)
          exact hnone.symm
        | succ j =>
          rw [List.getD_cons_succ, ih (e :: m) (lo + 1) j hsorted hlo' (by omega)]
          congr 1
          omega

theorem length_smDense {α : Type} (d : α) (m : SMap α) (lo n : Nat) : (smDense d m lo n).length = n := by
  induction n generalizing m lo with
  | zero => cases m <;> rfl
  | succ n ih =>
    cases m with
    | nil => simp [smDense, ih]
    | cons e m =>
      unfold smDense
      split <;> simp [ih]

/-- Lists of one length, put behind each other, read by rows. -/
theorem getD_flatten_uniform {α : Type} (d : α) {n : Nat} (ls : List (List α)) (hlen : ∀ l ∈ ls, l.length = n)
    (i j : Nat)
    (hj : j < n) : ls.flatten.getD (n * i + j) d = (ls.getD i []).getD j d := by
  induction ls generalizing i with
  | nil => rfl
  | cons l ls ih =>
    have hl := hlen l List.mem_cons_self
    rw [List.flatten_cons]
    cases i with
    | zero => rw [Nat.mul_zero, Nat.zero_add, List.getD_append _ _ _ _ (by omega)]; rfl
    | succ i =>
      rw [List.getD_append_right _ _ _ _ (by rw [hl, Nat.mul_succ]; omega), hl, List.getD_cons_succ,
        ← ih (fun l hl => hlen l (List.mem_cons_of_mem _ hl))]
      congr 1
      rw [Nat.mul_succ]
      omega

theorem getD_zipWith {α β γ : Type} (f : α → β → γ) {xs : List α} {ys : List β} {i : Nat} (a : α) (b : β) (c : γ)
    (hx : i < xs.length) (hy : i < ys.length) : (List.zipWith f xs ys).getD i c = f (xs.getD i a) (ys.getD i b) := by
  simp [List.getD_eq_getElem?_getD, hx, hy]

theorem getD_map_of_lt {α β : Type} (f : α → β) {xs : List α} {i : Nat} (a : α) (b : β) (hx : i < xs.length) :
    (xs.map f).getD i b = f (xs.getD i a) := by
  simp [List.getD_eq_getElem?_getD, hx]

/-! ### The beat (R164) -/

/-- What a beat adds to the partial of a lane and an output. -/
theorem smGet_beat {set : PartialSet} {lanes : List Nat} {outs : List (List Nat)} (neg : Bool) (shift : Nat)
    {l o : Nat}
    (hlanes : lanes.length = 64) (houts : outs.length = 60) (hl : l < 64) (ho : o < 60)
        (hwf : smWf 0 set.parts = true) :
    smGet 0 (beat set lanes outs neg shift).parts (60 * l + o) = smGet 0 set.parts (60 * l + o) +
      BitVec.ofInt 48 (if neg then
        -((((outs.getD o []).countP (fun k => (lanes.getD l 0).testBit k) * 2 ^ shift : Nat) : Int))
        else (((outs.getD o []).countP (fun k => (lanes.getD l 0).testBit k) * 2 ^ shift : Nat) : Int)) := by
  have hk : 60 * l + o < 3840 := by omega
  have hdense := getD_smDense 0 set.parts 0 3840 (60 * l + o) ((smWf_iff _ _).1 hwf).2 (by simp) hk
  let sum (x : Nat) (ix : List Nat) : Int :=
    if neg then -(((ix.filter (fun k => x.testBit k)).length * 2 ^ shift : Nat) : Int)
    else (((ix.filter (fun k => x.testBit k)).length * 2 ^ shift : Nat) : Int)
  have hrows : ∀ r ∈ lanes.map (fun x => outs.map (sum x)), r.length = 60 := by simp [houts]
  have hlen : 60 * l + o < (lanes.map (fun x => outs.map (sum x))).flatten.length := by
    have hsum : (lanes.map (fun x => outs.map (sum x))).flatten.length = 64 * 60 := by
      rw [List.length_flatten, List.map_map,
        List.map_congr_left (g := fun _ => 60) (fun x _ => by rw [Function.comp_apply, List.length_map, houts])]
      simp [hlanes]
    omega
  have hadd : (lanes.map (fun x => outs.map (sum x))).flatten.getD (60 * l + o) 0 = sum (lanes.getD l 0)
      (outs.getD o []) := by
    rw [getD_flatten_uniform 0 _ hrows _ _ ho, getD_map_of_lt _ 0 [] (by omega), getD_map_of_lt _ [] 0 (by omega)]
  calc smGet 0 (beat set lanes outs neg shift).parts (60 * l + o)
      = (List.zipWith (fun p v => p + BitVec.ofInt 48 v) (smDense 0 set.parts 0 3840)
          (lanes.map (fun x => outs.map (sum x))).flatten).getD (60 * l + o) 0 := smGet_smOfList 0 0 _ _
    _ = smGet 0 set.parts (60 * l + o) + BitVec.ofInt 48 (sum (lanes.getD l 0) (outs.getD o [])) := by
        rw [getD_zipWith _ 0 0 0 (by rw [length_smDense]; exact hk) hlen, hdense, Nat.zero_add, hadd]
    _ = _ := by rw [List.countP_eq_length_filter]

theorem beat_undrained (set : PartialSet) (lanes : List Nat) (outs : List (List Nat)) (neg : Bool) (shift : Nat) :
    (beat set lanes outs neg shift).undrained = true := rfl

/-! ### Words that hold the array, and reads that the bundle has made -/

/-- A word that holds the array, on tiles that are there and with unpoisoned scalars. -/
theorem mHold_ours {m : Mach} {ts : List Nat} {ss : List Scalar} {f : Mach → Mach} (hours : ArrayIsOurs m)
    (hts : ∀ t ∈ ts, t < tilesOf m) (hss : ∀ x ∈ ss, x.pois = false) : mHold m ts ss f = f m := by
  have hgo : mHold.go ts ss f m = f m := by
    have htiles : ts.any (fun t => tilesOf m ≤ t) = false := by simpa using hts
    have hpois : poisonOf ss = none := by simpa [poisonOf] using hss
    rw [mHold.go, htiles, if_neg Bool.false_ne_true, noPoison, hpois]
  unfold mHold
  rcases hours with h | h <;> rw [h]
  · exact hgo
  · dsimp only
    rw [if_pos rfl, hgo]

/-- Reads that the bundle has made are not asked for again. -/
theorem filling_holds {m : Mach} {vas : List Word} {align size : Nat} {f : Mach → Mach} (h : FillHolds m vas) :
    filling m vas align size f = f m := by
  obtain ⟨hdone, hvas⟩ := h
  have hmissing : vas.filter (fun va => !(ownPoolVa m.iss.core (va.toNat % 2 ^ 22) == va &&
      (fillOf m).want.contains (poolPa m.iss.core (va.toNat % 2 ^ 22)))) = [] := by
    rw [List.filter_eq_nil_iff]
    intro va hva
    obtain ⟨hpool, hwant⟩ := hvas va hva
    rw [hpool, beq_self_eq_true, Bool.true_and, List.contains_iff_mem.2 hwant]
    simp
  simp only [filling, hdone, hmissing]
  rfl

/-- Rows whose blocks the bundle has read and that expand. -/
theorem fillRows_holds {m : Mach} {rc : BitVec 256} {base : Word} {w x : Nat} {signed : Bool}
    {f : Mach → List (List Int × Option Dyad) → Mach} {rows : List (List Int × Option Dyad)}
    (hfirst : FillHolds m (firstBlocks rc base)) (hgood : badBlock m (firstBlocks rc base) = none)
    (hrows : FillHolds m (((firstBlocks rc base).zipIdx.map (fun e => rowPlaces rc base (rowEpb m e.1) e.2)).map
        blocksOf).flatten)
    (hexp : expandRows m w x signed
        ((firstBlocks rc base).zipIdx.map (fun e => rowPlaces rc base (rowEpb m e.1) e.2)) = .ok rows) :
    fillRows m rc base w x signed f = f m rows := by
  rw [fillRows, filling_holds hfirst, hgood]
  dsimp only
  rw [filling_holds hrows, hexp]

/-! ### The completion of an M word -/

/-- An M word completes with the array that its change makes of the one that stands. -/
theorem mDone_eq_arrayDone (m : Mach) (f : Arr → Arr) : mDone m f = arrayDone m (f (arrOf m)) := rfl

theorem arrOf_onIss (m : Mach) (f : Ctx → Ctx) : arrOf (onIss m f) = arrOf m := by
  have h := congrArg Core.arr
      (getCore_setCore m m.iss.core (setCtxOf (getCore m m.iss.core) m.iss.ctx (f (issCtx m))))
  exact h

theorem arrOf_meterBeat (m : Mach) : arrOf (meterBeat m) = arrOf m := arrOf_onIss _ _

/-- Two answers of a word are the same where their machines are. -/
theorem next_congr {s : State} {m m' : Mach} (h : m = m') : (.next { s with m := m } : Out) = .next
    { s with m := m' } := by
  rw [h]

/-! ### m.feed (R173) -/

section
variable (m : Mach) (t : BitVec 2) (sh : BitVec 3) (x y : BitVec 4) (r : Bool) (base : Word)

/-- Is the slot empty, a plane missing, or ACTIVE of another expansion than the tile (R173)? -/
def FeedAbsent : Prop :=
  let p := precOf m.iss.snap t.toNat
  let st := (arrOf m).active
  (smGet {} (arrOf m).slots sh.toNat).empty = true ∨ precWA p ≤ x.toNat ∨ precWB p ≤ y.toNat ∨
    (smGet [] st.planes y.toNat).isEmpty = true ∨ st.wb ≠ precWB p ∨ st.sb ≠ precSB p ∨ st.xb ≠ precXB p

/-- Are the reduction elements of the slot's record more than ACTIVE takes (R173)? -/
def FeedTooLong : Prop :=
  (r = true ∧ (arrOf m).active.sp ≠ 0) ∨
    (if r then 60 else spKf (arrOf m).active.sp) < recNK (smGet {} (arrOf m).slots sh.toNat).record

/-- The array once a stage is fed against the outputs' scales. -/
def fedArr (sg : Stage) (outs : List (Option Dyad)) : Arr :=
  let slot := smGet {} (arrOf m).slots sh.toNat
  let p := precOf m.iss.snap t.toNat
  let st := (arrOf m).active
  let set := smGet {} (arrOf m).sets t.toNat
  let rows := padTo 64 ([], none) sg.rows
  { arrOf m with
    aStage := some sg
    slots := smPut {} (arrOf m).slots sh.toNat { slot with cursor := base + BitVec.ofNat 64 (recSTEP slot.record) }
    sets := smPut {} (arrOf m).sets t.toNat
      { beat set (rows.map (fun e => actBits x.toNat e.1))
          ((List.range 60).map (outIndexes st (smGet [] st.planes y.toNat) r))
          ((y.toNat + 1 == precWB p && precSB p) != (x.toNat + 1 == precWA p && precSA p)) (x.toNat + y.toNat) with
        sa := recordScales set.sa (rows.map (·.2)), sw := recordScales set.sw outs } }

/-- Feed a stage: the scales must not clash with those that the partial set has recorded. -/
def feedStage (m : Mach) (sg : Stage) : Mach :=
  let lanes := (padTo 64 ([], none) sg.rows).map (·.2)
  let set := smGet {} (arrOf m).sets t.toNat
  match outScales (arrOf m).active r with
  | none => trapW m 0x1A
  | some outs =>
    if (outs.any Option.isSome && scaleClash set.sa lanes) || (lanes.any Option.isSome && scaleClash set.sw outs)
        then trapW m 0x1A
    else arrayDone (meterBeat m) (fedArr m t sh x y r base sg outs)

/-- The held A-stage, where it has the key of the feed. -/
def feedHeld : Option Stage :=
  (arrOf m).aStage.filter (fun sg => sg.base == base && sg.slot == sh.toNat && sg.prec == precOf m.iss.snap t.toNat &&
    sg.rev == r && sg.ext == if r then 60 else spKf (arrOf m).active.sp)

/-- The stage that rows make. -/
def feedFrom (rows : List (List Int × Option Dyad)) : Stage :=
  ⟨base, sh.toNat, precOf m.iss.snap t.toNat, r, if r then 60 else spKf (arrOf m).active.sp, rows, []⟩

end

section
variable {s : State} {h : Hd} {t : BitVec 2} {sh : BitVec 3} {a : BitVec 6} {walk : Bool} {x y : BitVec 4} {r : Bool}
  (hg : guardTrue s.m h = true) (hours : ArrayIsOurs s.m) (ht : t.toNat < tilesOf s.m)
  (hpois : walk = false → (rdS s.m 0 a).pois = false)
include hg hours ht hpois

theorem mFeed_absent (habs : FeedAbsent s.m t sh x y) : exec (.mFeed h t sh a walk x y r) s = .next
    { s with m := trapW s.m 0x1A } := by
  have hss : ∀ z ∈ (if walk then [] else [rdS s.m 0 a]), z.pois = false := by
    cases walk <;> simp [hpois]
  rw [exec_mFeed, execMFeed, runWord_true _ hg, mHold_ours hours (by simpa using ht) hss]
  exact next_congr (if_pos habs)

variable (hthere : ¬FeedAbsent s.m t sh x y)
include hthere

theorem mFeed_tooLong (hlong : FeedTooLong s.m sh r) : exec (.mFeed h t sh a walk x y r) s = .next
    { s with m := trapW s.m 0x1A } := by
  have hss : ∀ z ∈ (if walk then [] else [rdS s.m 0 a]), z.pois = false := by
    cases walk <;> simp [hpois]
  rw [exec_mFeed, execMFeed, runWord_true _ hg, mHold_ours hours (by simpa using ht) hss]
  exact next_congr ((if_neg hthere).trans (if_pos hlong))

variable (hshort : ¬FeedTooLong s.m sh r)
  {base : Word} (hbase : base = if walk then (smGet {} (arrOf s.m).slots sh.toNat).cursor else (rdS s.m 0 a).val)
include hshort hbase

theorem mFeed_held {sg : Stage} (hheld : feedHeld s.m t sh r base = some sg) :
    exec (.mFeed h t sh a walk x y r) s = .next { s with m := feedStage t sh x y r base s.m sg } := by
  have hss : ∀ z ∈ (if walk then [] else [rdS s.m 0 a]), z.pois = false := by
    cases walk <;> simp [hpois]
  subst hbase
  rw [exec_mFeed, execMFeed, runWord_true _ hg, mHold_ours hours (by simpa using ht) hss]
  refine next_congr ?_
  unfold FeedAbsent at hthere
  unfold FeedTooLong at hshort
  unfold feedHeld at hheld
  dsimp only at hthere ⊢
  rw [if_neg hthere, if_neg hshort, hheld]
  simp only [mDone_eq_arrayDone, arrOf_meterBeat]
  rfl

theorem mFeed_rows {rows : List (List Int × Option Dyad)} (hheld : feedHeld s.m t sh r base = none)
    (hfirst : FillHolds s.m (firstBlocks (smGet {} (arrOf s.m).slots sh.toNat).record base))
    (hgood : badBlock s.m (firstBlocks (smGet {} (arrOf s.m).slots sh.toNat).record base) = none)
    (hrows : FillHolds s.m (((firstBlocks (smGet {} (arrOf s.m).slots sh.toNat).record base).zipIdx.map (fun e =>
      rowPlaces (smGet {} (arrOf s.m).slots sh.toNat).record base (rowEpb s.m e.1) e.2)).map blocksOf).flatten)
    (hexp : expandRows s.m (precWA (precOf s.m.iss.snap t.toNat)) (precXA (precOf s.m.iss.snap t.toNat))
      (precSA (precOf s.m.iss.snap t.toNat))
          ((firstBlocks (smGet {} (arrOf s.m).slots sh.toNat).record base).zipIdx.map (fun e =>
        rowPlaces (smGet {} (arrOf s.m).slots sh.toNat).record base (rowEpb s.m e.1) e.2)) = .ok rows) :
    exec (.mFeed h t sh a walk x y r) s =
      .next { s with m := feedStage t sh x y r base s.m (feedFrom s.m t sh r base rows) } := by
  have hss : ∀ z ∈ (if walk then [] else [rdS s.m 0 a]), z.pois = false := by
    cases walk <;> simp [hpois]
  subst hbase
  rw [exec_mFeed, execMFeed, runWord_true _ hg, mHold_ours hours (by simpa using ht) hss]
  refine next_congr ?_
  unfold FeedAbsent at hthere
  unfold FeedTooLong at hshort
  unfold feedHeld at hheld
  dsimp only at hthere ⊢
  rw [if_neg hthere, if_neg hshort, hheld]
  dsimp only
  rw [fillRows_holds hfirst hgood hrows hexp]
  simp only [mDone_eq_arrayDone, arrOf_meterBeat]
  rfl

end

/-- A stage whose scales agree with those that the tile's set has recorded is fed. -/
theorem feedStage_agree {m : Mach} {t : BitVec 2} {sh : BitVec 3} {x y : BitVec 4} {r : Bool} {base : Word}
    {sg : Stage}
    {outs : List (Option Dyad)} (houts : outScales (arrOf m).active r = some outs)
    (hsa : scaleClash (smGet {} (arrOf m).sets t.toNat).sa ((padTo 64 ([], none) sg.rows).map (·.2)) = false)
    (hsw : scaleClash (smGet {} (arrOf m).sets t.toNat).sw outs = false) :
    feedStage t sh x y r base m sg = arrayDone (meterBeat m) (fedArr m t sh x y r base sg outs) := by
  unfold feedStage
  simp only [houts, hsa, hsw, Bool.and_false, Bool.or_false, Bool.false_eq_true, if_false]

end Sys2Proof.Machine

open Sys2Proof Sys2Proof.Machine

/-- Settles O23: a beat adds its counts, and m.feed beats from its held stage or from rows that the bundle has
    read. -/
theorem fedBeats : Obligations.FedBeats := by
  unfold Obligations.FedBeats
  refine ⟨fun set lanes outs neg shift l o hlanes houts hl ho _ hwf =>
      ⟨smGet_beat neg shift hlanes houts hl ho hwf, rfl⟩, ?_⟩
  intro s h t sh a walk x y r hg hours hpois ht arr slot rc p st plane kf base set held legal neg lanes fed agree
  have hlegal (hl : legal) : ¬FeedAbsent s.m t sh x y ∧ ¬FeedTooLong s.m sh r := by
    obtain ⟨hempty, hx, hy, hplane, hwb, hsb, hxb, hsp, hlen⟩ := hl
    refine ⟨?_, ?_⟩
    · rintro (h1 | h1 | h1 | h1 | h1 | h1 | h1)
      · exact absurd (hempty.symm.trans h1) (by decide)
      · exact absurd hx (Nat.not_lt.2 h1)
      · exact absurd hy (Nat.not_lt.2 h1)
      · exact hplane (List.isEmpty_iff.1 h1)
      · exact h1 hwb
      · exact h1 hsb
      · exact h1 hxb
    · rintro (h1 | h1)
      · exact hsp h1
      · exact absurd hlen (Nat.not_le.2 h1)
  refine ⟨fun hill => ?illegal, fun hl sg outs hheld houts hagree => ?held, ?rows⟩
  case illegal =>
    by_cases habs : FeedAbsent s.m t sh x y
    · exact mFeed_absent hg hours ht hpois habs
    · refine mFeed_tooLong hg hours ht hpois habs ?_
      by_contra hlong
      unfold FeedAbsent at habs
      unfold FeedTooLong at hlong
      simp only [not_or, not_le, Bool.not_eq_true, List.isEmpty_eq_false_iff, ne_eq, not_not] at habs
      rw [not_or, not_lt] at hlong
      obtain ⟨hempty, hx, hy, hplane, hwb, hsb, hxb⟩ := habs
      exact hill ⟨hempty, hx, hy, hplane, hwb, hsb, hxb, hlong⟩
  case held =>
    obtain ⟨hthere, hshort⟩ := hlegal hl
    rw [mFeed_held hg hours ht hpois hthere hshort (base := base) rfl hheld, feedStage_agree houts hagree.1 hagree.2]
    rfl
  case rows =>
    intro hl hnone rows outs hfirst hgood places hrows hexp houts hagree
    obtain ⟨hthere, hshort⟩ := hlegal hl
    rw [mFeed_rows hg hours ht hpois hthere hshort (base := base) rfl hnone hfirst hgood hrows hexp]
    exact next_congr (feedStage_agree (sg := feedFrom s.m t sh r base rows) houts hagree.1 hagree.2)

end

section
/-!
PROOFS. Outside running (spec/19 R283): which events act before the release.
-/

namespace Sys2Proof.Machine

/-- The report of a submission that comes too early (log 70). -/
def earlySubmission (s : State) (vf : Nat) : State := { s with m := { s.m with mailbox := s.m.mailbox ++ [(1, vf)] } }

section
variable {s : State} (hp : s.m.phase ≠ .running)
include hp

theorem whenRunning_of_not (f : Mach → Mach) : whenRunning s f = .next s := by
  unfold whenRunning onMach
  dsimp only
  rw [if_neg hp]

theorem withVf_of_not (vf : Nat) (f : Mach → Nat → Mach) : withVf s vf f = .next s := whenRunning_of_not hp _

theorem withSubmission_of_not (vf : Nat) (f : Mach → Nat → Mach) :
    withSubmission s vf f = .next s ∨ (1 ≤ vf ∧ vf ≤ 192) ∧ withSubmission s vf f = .next (earlySubmission s vf) := by
  unfold withSubmission onMach
  dsimp only
  by_cases hvf : isVf vf = true
  · refine .inr ⟨by simpa [isVf] using hvf, ?_⟩
    rw [if_neg (by simp [hvf])]
    split
    · exact absurd ‹_› hp
    · rfl
  · exact .inl (by rw [if_pos (by simpa using hvf)])
theorem submission_of_not {out : Out} {vf : Nat} {f : Mach → Nat → Mach} (hf : withSubmission s vf f = out) :
    out = .next s ∨ (1 ≤ vf ∧ vf ≤ 192) ∧ out = .next (earlySubmission s vf) :=
  hf ▸ withSubmission_of_not hp vf f

theorem consumeUnless_of_not {out : Out} {vf ring : Nat} {ops : List Nat} {held : Mach → Nat → Nat → Bool}
    {f : Mach → Nat → Nat → Except Nat Mach} (hf : consumeUnless s vf ring ops held f = out) :
    out = .next s ∨ (1 ≤ vf ∧ vf ≤ 192) ∧ out = .next (earlySubmission s vf) := submission_of_not hp hf

theorem consume_of_not {out : Out} {vf ring : Nat} {ops : List Nat}
    {f : Mach → Nat → Nat → Except Nat Mach} (hf : consume s vf ring ops f = out) :
    out = .next s ∨ (1 ≤ vf ∧ vf ≤ 192) ∧ out = .next (earlySubmission s vf) := consumeUnless_of_not hp hf
end

/-- The register of a ring that a TAIL names, written as its number. -/
theorem tailVf_eq_some {r : HostReg} {vf : Nat} (h : tailVf r = some vf) : ∃ k, k < 16 ∧ r = .vf vf
    (0x10C + 32 * k) := by
  unfold tailVf at h
  split at h
  next v off =>
    split at h
    next hoff =>
      obtain ⟨hlo, hhi, hmod⟩ := hoff
      injection h with hv
      subst hv
      exact ⟨(off - 0x10C) / 32, by omega, by congr 1; omega⟩
    · exact absurd h (by simp)
  · exact absurd h (by simp)

theorem registerWrite_of_not {s : State} (hp : s.m.phase ≠ .running) (r : HostReg) (v : Word) :
    execRegisterWrite r v s = .next s ∨ ∃ vf, (1 ≤ vf ∧ vf ≤ 192) ∧
      execRegisterWrite r v s = .next (earlySubmission s vf) ∧ ∃ k, k < 16 ∧ r = .vf vf (0x10C + 32 * k) := by
  unfold execRegisterWrite
  split
  next vf hvf =>
    exact (withSubmission_of_not hp vf _).imp_right fun ⟨hin, hsub⟩ => ⟨vf, hin, hsub, tailVf_eq_some hvf⟩
  · exact .inl (whenRunning_of_not hp _)

theorem tick_of_not {m : Mach} (hp : m.phase ≠ .running) : tick m = m := if_neg hp
end Sys2Proof.Machine

open Sys2Proof Sys2Proof.Machine

/-- Settles O50: an event either goes through `whenRunning`, or is a submission, or is one of those that the
    statement lists. -/
theorem onlyTheTrustDieRuns : Obligations.OnlyTheTrustDieRuns := by
  unfold Obligations.OnlyTheTrustDieRuns
  refine ⟨fun i s hw hp => ?_, fun m hp => tick_of_not hp⟩
  dsimp only
  generalize he : exec i s = out
  unfold exec at he
  cases i with
  | packageReset | powerLoss | getVersion | getCapabilities | negotiateAlgorithms | getDigests | getCertificate |
      challenge | getMeasurements | keyExchange | finish =>
    exact .inr (.inr (by simp))
  | tailWrite vf n =>
    exact (submission_of_not hp he).imp_right fun ⟨⟨hlo, hhi⟩, hsub⟩ => .inl ⟨vf, n, ⟨hlo, hhi, hsub⟩, by simp⟩
  | launch vf n | job vf n | push vf n | close vf n | cancel vf n =>
    exact (consume_of_not hp he).imp_right fun ⟨⟨hlo, hhi⟩, hsub⟩ => .inl ⟨vf, n, ⟨hlo, hhi, hsub⟩, by simp⟩
  | post vf n =>
    exact (consumeUnless_of_not hp he).imp_right fun ⟨⟨hlo, hhi⟩, hsub⟩ => .inl ⟨vf, n, ⟨hlo, hhi, hsub⟩, by simp⟩
  | registerWrite r v =>
    subst he
    refine (registerWrite_of_not hp r v).imp_right fun ⟨vf, ⟨hlo, hhi⟩, hsub, k, hk, hr⟩ =>
      .inl ⟨vf, 0, ⟨hlo, hhi, hsub⟩, ?_⟩
    subst hr
    exact .inr (.inr (.inr (.inr (.inr (.inr (.inr ⟨k, v, hk, rfl⟩))))))
  | setOwner | keyInstall | scanPassEnd | securityAlarm =>
    exact .inl (he.symm.trans (congrArg Host.Outcome.next (if_pos (.inl hp))))
  | usageForward | retirement => exact .inl (he.symm.trans (congrArg Host.Outcome.next (if_pos hp)))
  | wearWarning => exact .inl (he.symm.trans (congrArg Host.Outcome.next (if_pos (.inr hp))))
  | rbaseWrite | rsizeWrite | eqlostRead | postSliceEndNow | postSliceEndAtEiss | release | catchRecords | go |
      singleStep | engineFreeze | lend | recallLend =>
    exact .inl (he.symm.trans (withVf_of_not hp _ _))
  | postedSliceEndTrigger | setRoot | setRecarea | hostMemRead | hostMemWrite | unitPlace | zeroingComplete |
      sliceEnd | recordTakeUp | phaseEvaluation | nodeConsider | unitEnd | recallHandlerKill | recallReturn |
      scanPassStart | correctedError | scrubGranule | memberDown | spareFillDone | thermalThrottle | arm | armed |
      refuse | commit | committed | gangtoExpiry | flitReceive | replayRequest | remoteLoadRequest |
      remoteStoreRequest | directReductionRequest | groupContribution | mirrorWrite | loadResponse | acknowledgement
      | movedNack | requestTimeout | rankExclusion | roundClose | roundTimeout | resultWrite | multicastReplica |
      handlerStart | waitSatisfied | scoreboardLand | resultLand | trapReplay | preemptRequest | stopPointReached |
      engineStopAck | collectiveStopExpiry | weirComplete | pinRenewal | rillSweep | issueQueueLeave | pendingCommit
      | portApply | loadBind | atomicApply | raddBlockApply | fenceComplete | shutCommit | pageWalk | invalidation |
      invalidationAck | pageMigration | engineCommandStart | engineBlockApply | engineCommandEnd | operandFillDone |
      saveImageWritten | restoreComplete | gangCancelMessage =>
    exact .inl (he.symm.trans (whenRunning_of_not hp _))
  | _ => exact absurd (show true = false from hw) (by decide)
end

section
/-!
PROOFS. A step that issues a bundle of one word, and the fetch of its word (spec/04 R62 to R64).
-/

namespace Sys2Proof.Machine

/-! ### Numbers of bytes -/

theorem readNat_add (mem : List Host.Cell) (a i j : Nat) :
    readNat mem a (i + j) = readNat mem a i + 256 ^ i * readNat mem (a + i) j := by
  induction i generalizing a with
  | zero => simp [readNat]
  | succ i ih =>
    rw [Nat.succ_add_eq_add_succ, Nat.add_succ, readNat, readNat, ih (a + 1), pow_succ]
    rw [show a + 1 + i = a + (i + 1) by omega]
    ring

/-- A part of a granule is the number of the bytes at its place. -/
theorem granBytes_readGran (mem : List Host.Cell) (g : Nat) {lo n : Nat} (h : lo + n ≤ 16) :
    granBytes (readGran mem g) lo n = readNat mem (g + lo) n := by
  obtain ⟨k, hk⟩ := Nat.exists_eq_add_of_le h
  have hall : readNat mem g 16 < 2 ^ 128 := by
    have := readNat_lt mem g 16
    norm_num at this ⊢
    exact this
  have hsplit : readNat mem g 16 = readNat mem g lo + 256 ^ lo *
      (readNat mem (g + lo) n + 256 ^ n * readNat mem (g + lo + n) k) := by
    rw [hk, Nat.add_assoc lo n k, readNat_add, readNat_add]
  unfold granBytes readGran
  rw [BitVec.toNat_ofNat, Nat.mod_eq_of_lt hall, hsplit,
    Nat.add_mul_div_left _ _ (by positivity), Nat.div_eq_of_lt (readNat_lt mem g lo), Nat.zero_add,
    Nat.add_mul_mod_self_left, Nat.mod_eq_of_lt (readNat_lt mem _ n)]

theorem contentAt_newest (m : Mach) (g : Nat) : contentAt m g (newestPos m g) = readGran m.mem g := by
  unfold contentAt newestPos
  split
  · rw [if_neg (Nat.lt_irrefl _)]
  · rfl

/-! ### Fetch -/

theorem fetchFrom_last {m : Mach} {core i fuel pkt pos w : Nat} {t : Option Tr}
    (h : fetchWord m core i pkt pos = (.ok w, t)) (hw : w < 2 ^ 31) :
    fetchFrom m core i (fuel + 1) pkt pos = (.ok [⟨w, pkt, pos⟩], t.toList) := by
  unfold fetchFrom
  rw [h]
  dsimp only
  rw [if_pos (by rw [Nat.div_eq_of_lt hw])]

section
variable {m : Mach} {core i pa : Nat} {mir tensor : Bool} {t : Option Tr} {pkt pos : Nat}
  (hx : xlate m (whoOf m core i) (wordVa (getCtx m core i) pkt pos) 4 accFetch = (.ok pa mir tensor, t))
include hx

/-- A word of HBM whose granule no write has reached since the context was made, or none that it has not seen. -/
theorem fetchWord_hbm (hpa : pa < 2 ^ 39) (hin : pa % 16 ≤ 12) (hgood : granBad m (pa / 16 * 16) = false)
    (hkey : keyDiffers m (pageKey m (getCtx m core i).area (wordVa (getCtx m core i) pkt pos)) (pa / 16 * 16) = false)
    (hnew : newestPos m (pa / 16 * 16) ≤ posAtStep m (pa / 16 * 16) (getCtx m core i).since) :
    fetchWord m core i pkt pos = (.ok (readNat m.mem pa 4), t) := by
  have hpool : poolRefuses m pa 4 true = none := by
    unfold poolRefuses targetOf
    rw [if_pos (by omega)]
    simp [hgood]
  have hpos : ∀ ix, fetchPos m (getCtx m core i) (pa / 16 * 16) ix = newestPos m (pa / 16 * 16) := fun ix => if_pos
      hnew
  unfold fetchWord
  dsimp only
  rw [hx]
  dsimp only
  rw [hpool]
  dsimp only
  rw [if_pos (by omega), hpos, contentAt_newest]
  unfold seenGran
  rw [hkey, if_neg (by simp), granBytes_readGran _ _ (by omega), Nat.div_add_mod']

theorem fetchWord_pool {q : Nat} (hq : targetOf m pa = .pool q) (hok : allocCheck m q (poolOff pa) 4 true = none) :
    fetchWord m core i pkt pos = (.ok (readNow m pa 4), t) := by
  have hpool : poolRefuses m pa 4 true = none := by
    unfold poolRefuses
    rw [hq]
    exact hok
  have hfar : ¬ pa / 16 * 16 < 0x8000000000 := by
    intro hlt
    rw [targetOf, if_pos (by omega)] at hq
    exact absurd hq (by simp)
  unfold fetchWord
  dsimp only
  rw [hx]
  dsimp only
  rw [hpool]
  dsimp only
  rw [if_neg hfar]
end

/-! ### One word -/

/-- The last word of a bundle is no K word (R63). -/
theorem pipeOf_ne_of_bundleFault {control : Bool} {guard : Nat → BitVec 3 → Option Bool} {w : FWord}
    (h : bundleFault control [w] guard = none) : pipeOf w.raw ≠ 5 := by
  intro hk
  have hslot : firstBad [w] (slotBad [w]) = some w := by simp [firstBad, slotBad, hk]
  rw [bundleFault_of_slot (by simp [hk]) hslot] at h
  exact absurd h (by simp)

theorem groupsOf_single (w : FWord) : groupsOf [w] = [[(0, w)]] := by
  unfold groupsOf
  by_cases h : pipeOf w.raw = 5 <;> simp [groupsFrom, h]

/-- A bundle of one group is that group. -/
theorem runWords_single {s : State} {g : Group} : runWords s [g] = runGroup s g := by
  have hone : ([g].filter (fun g => groupPipe g == 3) ++ [g].filter (fun g => groupPipe g != 3)).foldl runGroup s =
      runGroup s g := by
    by_cases h : groupPipe g = 3 <;> simp [h]
  unfold runWords
  dsimp only
  rw [hone]
  split
  next hstop =>
    simp only [List.map_cons, List.map_nil, List.find?_cons, hstop, List.find?_nil]
    by_cases hw : waits (runGroup s g) = true <;> simp [hw]
  · rfl

theorem runOne_of_exec {s t : State} {w : FWord} {ins : Instr} (hd : decodeNat w.raw = .ok ins)
    (hp : pipeOf w.raw ≠ 5)
    (he : exec ins { s with m := { s.m with iss := { s.m.iss with pkt := w.pkt, pos := w.pos, idx := 0 } } } =
        .next t) :
    runOne s 0 w = { t with m := { t.m with iss := { t.m.iss with ks := [] } } } := by
  unfold runOne
  rw [hd]
  dsimp only
  rw [he]
  dsimp only
  rw [if_neg hp]

theorem crossing_single (c : Ctx) (w : FWord) : crossing c [w] = none := by
  unfold crossing
  split <;> rfl
/-! ### The step -/

theorem step_issue {s : State} {core : Nat} {rest : List Move} (h : s.m.sched = .issue core :: rest) :
    step s = .next (issueMove ⟨{ s.m with fresh := s.m.fresh + 1, sched := rest }, s.trust⟩ core) := by
  unfold step
  rw [h]
  simp only [runMove, State.freshen, State.popMove, h, List.drop_one, List.tail_cons]

theorem issueMove_of_select {s : State} {core i : Nat} (hrun : s.m.phase = .running)
    (hzero : (getCore s.m core).zeroUntil = none) (hturn : (getCore s.m core).turn ≤ s.m.cycle)
    (hsel : selectCtx (getCore s.m core) = some i) : issueMove s core = issueCtx s core i := by
  unfold issueMove
  rw [if_pos ⟨hrun, by rw [hzero]; rfl⟩]
  unfold issueCore
  dsimp only
  rw [if_neg (Nat.not_lt.2 hturn), hsel]

/-- The words of a bundle that a context has fetched, where nothing stands before them. -/
theorem issueCtx_of_fetch {s : State} {core i : Nat} {ws : List FWord} {ts : List Tr} {m1 : Mach}
    (hm1 : m1 = modCtx (modCore s.m core (fun k => landRowsDue k s.m.cycle)) core i (fun c =>
      { landDue c s.m.cycle with st := .ready, retry := false }))
    (hland : (getCtx m1 core i).landBy ≤ m1.cycle) (hdue : ∀ d ∈ (getCtx m1 core i).due, m1.cycle < d.notBefore)
    (hbp : (getCtx m1 core i).skipBp = true ∨
      bpHit m1 core (getCtx m1 core i) (getCtx m1 core i).pc.toNat (getCtx m1 core i).wpos false = false)
    (hfetch : fetchBundle m1 core i = (.ok ws, ts)) :
    issueCtx s core i = issueWords ⟨ts.foldl (fun m t => metTr m core (some t)) m1, s.trust⟩ core i ws := by
  have hnone : (getCtx m1 core i).due.find? (fun d => d.notBefore ≤ m1.cycle) = none :=
    List.find?_eq_none.2 fun d hd => by simpa using hdue d hd
  unfold issueCtx
  extract_lets m m' c out
  have hm : m' = m1 := hm1.symm
  clear_value m'
  subst hm
  rw [if_neg (Nat.not_lt.2 hland), hnone]
  dsimp only
  have hpass : ¬(!c.skipBp && bpHit m' core c c.pc.toNat c.wpos false) = true := by
    rcases hbp with hskip | hno
    · simp [c, hskip]
    · simp [c, hno]
  rw [if_neg hpass, hfetch]

/-- The one word of a bundle that passes every check, run by itself. -/
theorem issueWords_single {s : State} {core i : Nat} {w : FWord} {m3 m4 : Mach} {r : State}
    (hm3 : m3 = { s.m with iss := frameOf s.m core i w })
    (hfault : bundleFault (isControl core) [w] (guardKnown m3 (getCtx m3 core i)) = none)
    (hpriv : privWaits (isControl core) [w] (guardKnown m3 (getCtx m3 core i)) = false)
    (hgap : (getCtx m3 core i).gapcnt.toNat ≤ max 64 ((getCtx m3 core i).maxgap.toNat % 2 ^ 32))
    (hstall : bundleStalls m3 (getCtx m3 core i) [w] = false)
    (hm4 : m4 = modCtx m3 core i (fun c =>
      { c with pc := BitVec.ofNat 32 (nextPlace w.pkt w.pos).1, wpos := (nextPlace w.pkt w.pos).2 }))
    (hr : runOne ⟨m4, s.trust⟩ 0 w = r) :
    issueWords s core i [w] =
      if r.m.iss.held then { r with m := { r.m with iss := {} } }
      else { r with m := { (if r.m.iss.trapped then modCore r.m core (fun k => served k i r.m.cycle)
        else finishBundle (modCore r.m core (fun k => served k i r.m.cycle)) w) with iss := {} } } := by
  have hfirst : stopped ⟨m4, s.trust⟩ = false := by subst hm4 hm3; rfl
  have hgroup : runGroup ⟨m4, s.trust⟩ [(0, w)] = r := by
    unfold runGroup
    rw [List.foldl_cons, List.foldl_nil, hfirst, if_neg (by simp)]
    exact hr
  unfold issueWords
  rw [List.getLast?_singleton]
  dsimp -zeta only
  extract_lets m m' c done waits m'' r'
  have hm : m' = m3 := hm3.symm
  clear_value m'
  subst hm
  rw [hfault]
  dsimp -zeta only
  rw [show waits = false from hpriv, if_neg (by simp), crossing_single]
  dsimp -zeta only
  rw [if_neg (Nat.not_lt.2 hgap), Bool.false_or, show bundleStalls m' c [w] = false from hstall, if_neg (by simp)]
  have hr' : r' = r := by
    rw [← hgroup, ← runWords_single, ← groupsOf_single]
    subst hm4 hm3
    rfl
  clear_value r'
  subst hr'
  rfl
end Sys2Proof.Machine

open Sys2Proof Sys2Proof.Machine

/-- Settles O55: the checks before the words are the statement's premises; a bundle of one word is one group, and
    that group is
one `exec`. -/
theorem stepRunsDecoded : Obligations.StepRunsDecoded := by
  unfold Obligations.StepRunsDecoded
  refine ⟨?_, fun m core i pa mir tensor t => ?_⟩
  · intro s t rest core i w ts ins hrun hsched hzero hturn hsel m0 m1 c1 hland hdue hbp hfetch m2 m3 c hd hfault
      hpriv hgap
      hstall m4 he m5 m6
    have hone : runOne ⟨m4, s.trust⟩ 0 w = ⟨m5, t.trust⟩ := runOne_of_exec hd (pipeOf_ne_of_bundleFault hfault) he
    have hstep : step s = .next (if m5.iss.held then ⟨{ m5 with iss := {} }, t.trust⟩
        else ⟨{ (if m5.iss.trapped then m6 else finishBundle m6 w) with iss := {} }, t.trust⟩) := by
      have hcore : getCore m0 core = getCore s.m core := rfl
      rw [step_issue hsched, issueMove_of_select (s := ⟨m0, s.trust⟩) hrun (hcore ▸ hzero) (hcore ▸ hturn)
          (hcore ▸ hsel),
        issueCtx_of_fetch (s := ⟨m0, s.trust⟩) (m1 := m1) rfl hland hdue hbp hfetch,
        issueWords_single (s := ⟨m2, s.trust⟩) (m3 := m3) (m4 := m4) rfl hfault hpriv hgap hstall rfl hone]
    rw [hstep]
    refine ⟨fun hheld => ?_, fun hheld htrap => ?_, fun hheld htrap => ?_⟩
    · rw [hheld, if_pos rfl]
    · rw [hheld, htrap, if_neg (by simp), if_pos rfl]
    · rw [hheld, htrap, if_neg (by simp), if_neg (by simp)]
  · intro c g hx
    have hone : ∀ w, fetchWord m core i c.pc.toNat c.wpos = (.ok w, t) → w < 2 ^ 31 →
        fetchBundle m core i = (.ok [⟨w, c.pc.toNat, c.wpos⟩], t.toList) := fun w hw hlt => fetchFrom_last
            (fuel := 8) hw hlt
    exact ⟨fun hpa hin hgood hkey hnew => hone _ (fetchWord_hbm hx hpa hin hgood hkey hnew),
      fun q hq hok => hone _ (fetchWord_pool hx hq hok)⟩
end

section
/-!
PROOFS. Exact values as rationals, and the range of a conversion (spec/07 R128, R139).
-/

namespace Sys2Proof.Machine

/-! ### Ratios -/

theorem pow2_cast (k : Int) : (pow2 k : ℚ) = 2 ^ (max k 0) := by
  unfold pow2
  rw [← Int.toNat_eq_max, zpow_natCast]
  push_cast
  rfl

theorem pow2_pos (k : Int) : 0 < pow2 k := by unfold pow2; positivity

/-- The two parts of a power of two are its numerator and denominator. -/
theorem pow2_div_neg (k : Int) : (pow2 k : ℚ) / pow2 (-k) = 2 ^ k := by
  rw [pow2_cast, pow2_cast, ← zpow_sub₀ (by norm_num)]
  congr 1
  omega

/-- A ratio is the scaled quotient. -/
theorem ratio_cast (p q : Nat) (k : Int) : ((ratio p q k).1 : ℚ) / (ratio p q k).2 = p / q * 2 ^ k := by
  rw [← pow2_div_neg]
  simp only [ratio]
  push_cast
  rw [mul_div_mul_comm]

theorem ratio_pos {p q : Nat} (hp : 0 < p) (hq : 0 < q) (k : Int) : 0 < (ratio p q k).1 ∧ 0 < (ratio p q k).2 :=
  ⟨Nat.mul_pos hp (pow2_pos _), Nat.mul_pos hq (pow2_pos _)⟩

/-- A ratio compared with an integer. -/
theorem le_mul_ratio_iff {p q : Nat} (hq : 0 < q) (k : Int) (n : Nat) :
    (ratio p q k).1 ≤ n * (ratio p q k).2 ↔ (p : ℚ) / q * 2 ^ k ≤ n := by
  have hd : (0 : ℚ) < (ratio p q k).2 := by exact_mod_cast Nat.mul_pos hq (pow2_pos _)
  rw [← ratio_cast, div_le_iff₀ hd]
  exact_mod_cast Iff.rfl

/-- The binary logarithm of a positive value, rounded down. -/
theorem ilog2_spec {p q : Nat} (hp : 0 < p) (hq : 0 < q) (e : Int) :
    (2 : ℚ) ^ ilog2 p q e ≤ p / q * 2 ^ e ∧ (p : ℚ) / q * 2 ^ e < 2 ^ (ilog2 p q e + 1) := by
  set l : Int := (Nat.log2 p : Int) - (Nat.log2 q : Int) with hl
  have hqq : (0 : ℚ) < q := by exact_mod_cast hq
  have hlow : ∀ n : Nat, 0 < n → (2 : ℚ) ^ (Nat.log2 n : Int) ≤ n ∧ (n : ℚ) < 2 ^ ((Nat.log2 n : Int) + 1) := by
    intro n hn
    rw [zpow_natCast, zpow_add_one₀ (by norm_num), zpow_natCast]
    exact ⟨by exact_mod_cast Nat.log2_self_le hn.ne', by exact_mod_cast (pow_succ 2 n.log2 ▸ Nat.lt_log2_self)⟩
  obtain ⟨hp1, hp2⟩ := hlow p hp
  obtain ⟨hq1, hq2⟩ := hlow q hq
  have hlo : (2 : ℚ) ^ (l - 1) ≤ p / q := by
    rw [le_div_iff₀ hqq]
    calc (2 : ℚ) ^ (l - 1) * q ≤ 2 ^ (l - 1) * 2 ^ ((Nat.log2 q : Int) + 1) := by gcongr
      _ = 2 ^ (Nat.log2 p : Int) := by rw [← zpow_add₀ (by norm_num)]; congr 1; omega
      _ ≤ p := hp1
  have hhi : (p : ℚ) / q < 2 ^ (l + 1) := by
    rw [div_lt_iff₀ hqq]
    calc (p : ℚ) < 2 ^ ((Nat.log2 p : Int) + 1) := hp2
      _ = 2 ^ (l + 1) * 2 ^ (Nat.log2 q : Int) := by rw [← zpow_add₀ (by norm_num)]; congr 1; omega
      _ ≤ 2 ^ (l + 1) * q := by gcongr
  have hone : (ratio p q (-l)).2 ≤ (ratio p q (-l)).1 ↔ (2 : ℚ) ^ l ≤ p / q := by
    have hd : (0 : ℚ) < (ratio p q (-l)).2 := by exact_mod_cast Nat.mul_pos hq (pow2_pos _)
    rw [← Nat.cast_le (α := ℚ), ← one_le_div hd, ratio_cast, zpow_neg, ← div_eq_mul_inv, one_le_div (by positivity)]
  have h2e : (0 : ℚ) < 2 ^ e := by positivity
  have hcase : ilog2 p q e = if (ratio p q (-l)).2 ≤ (ratio p q (-l)).1 then l + e else l - 1 + e := rfl
  rw [hcase]
  split
  next h =>
    rw [zpow_add₀ (by norm_num), show l + e + 1 = (l + 1) + e by omega, zpow_add₀ (by norm_num)]
    exact ⟨by gcongr; exact hone.1 h, by gcongr⟩
  next h =>
    have hlt : (p : ℚ) / q < 2 ^ l := not_le.1 fun h' => h (hone.2 h')
    rw [zpow_add₀ (by norm_num), show l - 1 + e + 1 = l + e by omega, zpow_add₀ (by norm_num)]
    exact ⟨by gcongr, by gcongr⟩

/-- A quotient rounds to no more than an integer that bounds it. -/
theorem rneDiv_le {n d b : Nat} (hd : 0 < d) (h : n ≤ b * d) : rneDiv n d ≤ b := by
  have hk : n / d ≤ b := Nat.div_le_of_le_mul (by rwa [Nat.mul_comm] at h)
  unfold rneDiv
  dsimp only
  split
  next hr =>
    have hne : n / d ≠ b := by
      intro heq
      have := Nat.div_add_mod n d
      rw [heq, Nat.mul_comm] at this
      omega
    omega
  · exact hk

/-! ### The range of a conversion -/

theorem fpPack_lt {f : FpFmt} {ex man : Nat} (s : Bool) (hex : ex < 2 ^ f.eb) (hman : man < 2 ^ f.mb) :
    fpPack f s ex man < 2 ^ fpWidth f := by
  have hsum : ex * 2 ^ f.mb + man < 2 ^ (f.eb + f.mb) := by
    rw [pow_add]
    calc ex * 2 ^ f.mb + man < (ex + 1) * 2 ^ f.mb := by rw [Nat.succ_mul]; omega
      _ ≤ 2 ^ f.eb * 2 ^ f.mb := Nat.mul_le_mul_right _ hex
  have hw : 2 ^ fpWidth f = 2 ^ (f.eb + f.mb) + 2 ^ (f.eb + f.mb) := by
    rw [fpWidth, Nat.add_assoc, pow_add, pow_one, Nat.two_mul]
  rw [fpPack, hw]
  split <;> omega

section
variable {f : FpFmt} (hstyle : f.style = .ieee) (heb : 2 ≤ f.eb) (hmb : 1 ≤ f.mb)
include hstyle

/-- A magnitude that is not beyond the largest rounds to a multiple that fits, in a unit that is not above the
    largest's. -/
theorem fpRound_le {p q : Nat} {e : Int} (hin : fpBeyond f p q e = false)
    (hbias : 1 - f.bias - f.mb ≤ (fpTop f : Int) - f.bias - f.mb) :
    (fpRound f p q e).1 ≤ 2 ^ (f.mb + 1) ∧ (fpRound f p q e).2 ≤ (fpTop f : Int) - f.bias - f.mb ∧
      ((fpRound f p q e).2 = (fpTop f : Int) - f.bias - f.mb → (fpRound f p q e).1 < 2 ^ (f.mb + 1)) := by
  set U : Int := (fpTop f : Int) - f.bias - f.mb with hU
  unfold fpRound
  split
  next => exact ⟨by positivity, hbias, fun _ => by positivity⟩
  next hp0 =>
    have hp : 0 < p := Nat.pos_of_ne_zero hp0
    have hle : (ratio p q (e - U)).1 ≤ (2 ^ (f.mb + 1) - 1) * (ratio p q (e - U)).2 := by
      have hin' := of_decide_eq_false hin
      rw [hstyle] at hin'
      simpa [← hU, ratio] using hin'
    have hq : 0 < q := by
      rcases Nat.eq_zero_or_pos q with rfl | hq
      · rw [show (ratio p 0 (e - U)).2 = 0 from Nat.zero_mul _, Nat.mul_zero] at hle
        exact absurd hle (Nat.not_le.2 (Nat.mul_pos hp (pow2_pos _)))
      · exact hq
    obtain ⟨hlog1, hlog2⟩ := ilog2_spec hp hq e
    have htop : (p : ℚ) / q * 2 ^ (e - U) ≤ ((2 ^ (f.mb + 1) - 1 : Nat) : ℚ) := (le_mul_ratio_iff hq _ _).1 hle
    have htop' : (p : ℚ) / q * 2 ^ e < 2 ^ ((f.mb : Int) + 1 + U) := by
      rw [zpow_sub₀ (by norm_num), ← mul_div_assoc, div_le_iff₀ (by positivity)] at htop
      refine lt_of_le_of_lt htop ?_
      rw [zpow_add₀ (by norm_num)]
      have : ((2 ^ (f.mb + 1) - 1 : Nat) : ℚ) < 2 ^ ((f.mb : Int) + 1) := by
        have h1 : 2 ^ (f.mb + 1) - 1 < 2 ^ (f.mb + 1) := Nat.sub_lt (by positivity) (by norm_num)
        exact_mod_cast h1
      gcongr
    have hlogU : ilog2 p q e < (f.mb : Int) + 1 + U :=
      (zpow_lt_zpow_iff_right₀ (by norm_num : (1 : ℚ) < 2)).1 (lt_of_le_of_lt hlog1 htop')
    set u : Int := max (ilog2 p q e) (1 - f.bias) - f.mb with hu
    have huU : u ≤ U := by omega
    have hd : 0 < (ratio p q (e - u)).2 := (ratio_pos hp hq _).2
    refine ⟨?_, huU, fun h => ?_⟩
    · refine rneDiv_le hd ((le_mul_ratio_iff hq _ _).2 ?_)
      rw [zpow_sub₀ (by norm_num), ← mul_div_assoc, div_le_iff₀ (by positivity)]
      refine hlog2.le.trans ?_
      push_cast
      rw [← zpow_natCast, ← zpow_add₀ (by norm_num)]
      exact zpow_le_zpow_right₀ (by norm_num) (by push_cast; omega)
    · have h' : u = U := h
      have := rneDiv_le hd (h' ▸ hle)
      exact lt_of_le_of_lt this (Nat.sub_lt (by positivity) (by norm_num))

include heb hmb

/-- A conversion fits its format. -/
theorem fpConv_lt (v : Val) : fpConv f false v < 2 ^ fpWidth f := by
  have h4 : 4 ≤ 2 ^ f.eb := le_trans (by norm_num) (Nat.pow_le_pow_right (by norm_num) heb)
  have hm : 2 ^ (f.mb - 1) < 2 ^ f.mb := Nat.pow_lt_pow_right (by norm_num) (by omega)
  have hm0 : 0 < 2 ^ f.mb := by positivity
  unfold fpConv
  split
  next s pl =>
    rw [hstyle]
    refine fpPack_lt s (by omega) ?_
    split
    · exact hm
    · exact Nat.mod_lt _ hm0
  next s =>
    rw [hstyle]
    exact fpPack_lt s (by omega) hm0
  next s p q e =>
    split
    · rw [fpOverflow, hstyle]
      exact fpPack_lt s (by omega) hm0
    next hin =>
      have htop : fpTop f = 2 ^ f.eb - 2 := by simp [fpTop, hstyle]
      obtain ⟨hn, hu, hnu⟩ := fpRound_le hstyle (eq_false_of_ne_true hin) (by omega)
      have hpow : 2 ^ (f.mb + 1) = 2 ^ f.mb + 2 ^ f.mb := by rw [pow_succ]; omega
      dsimp only
      split
      next hlt => exact fpPack_lt s (by omega) hlt
      next hge =>
        by_cases hcarry : (fpRound f p q e).1 = 2 ^ (f.mb + 1)
        · rw [if_pos hcarry]
          exact fpPack_lt s (by dsimp only; omega) (by dsimp only; omega)
        · rw [if_neg hcarry]
          exact fpPack_lt s (by dsimp only; omega) (by dsimp only; omega)
end

/-! ### X words on FP32 values -/

theorem f32Result_nan {v : Val} (h : valIsNan v = true) : f32Result v = 0x7FC00000 := if_pos h

/-- An FP32 result stands in the low half. -/
theorem f32Result_lt (v : Val) : (f32Result v).toNat < 2 ^ 32 := by
  unfold f32Result
  split
  · decide
  · rw [BitVec.toNat_ofNat]
    exact lt_of_le_of_lt (Nat.mod_le _ _) (fpConv_lt (f := fp32) rfl (by decide) (by decide) v)

theorem f32Max_lt (x y : Word) : (f32Max x y).toNat < 2 ^ 32 := by
  unfold f32Max
  split
  · decide
  · exact f32Result_lt _

theorem valIsNan_valAdd {x y : Val} (h : (valIsNan x || valIsNan y) = true) : valIsNan (valAdd x y) = true := by
  cases x <;> cases y <;> simp_all [valIsNan, valAdd]

theorem valIsNan_valMul {x y : Val} (h : (valIsNan x || valIsNan y) = true) : valIsNan (valMul x y) = true := by
  cases x <;> cases y <;> simp_all [valIsNan, valMul]

theorem f32Of_eq {x : Word} {c : Nat} (h : x.toNat % 2 ^ 32 = c) : f32Of x = fpDecode fp32 c := by rw [f32Of, h]

theorem toInt64_of_nan {v : Val} (h : valIsNan v = true) (x : Int) : toInt64 v x = 0 := by
  cases v <;> simp_all [valIsNan, toInt64]

/-- x.fcvt to an integer: clamped at ±∞, 0 for a NaN. -/
theorem fcvt_clamped {k : Nat} (hk : k = 1 ∨ k = 2) (x : Word) :
    (x.toNat % 2 ^ 32 = 0x7F800000 → (fcvt k x).toInt = 2 ^ 63 - 1) ∧
    (x.toNat % 2 ^ 32 = 0xFF800000 → (fcvt k x).toInt = -2 ^ 63) ∧ (valIsNan (f32Of x) = true → fcvt k x = 0) := by
  refine ⟨fun h => ?_, fun h => ?_, fun h => ?_⟩
  · rcases hk with rfl | rfl <;> rw [fcvt, f32Of_eq h] <;> decide +kernel
  · rcases hk with rfl | rfl <;> rw [fcvt, f32Of_eq h] <;> decide +kernel
  · rcases hk with rfl | rfl <;> exact toInt64_of_nan h _

/-- x.fcvt to BF16. -/
theorem fcvt_bf16 (x : Word) : (fcvt 4 x).toNat < 2 ^ 16 ∧ (x.toNat % 2 ^ 32 = 0x3F808000 → fcvt 4 x = 0x3F80) ∧
    (x.toNat % 2 ^ 32 = 0x3F818000 → fcvt 4 x = 0x3F82) ∧ (x.toNat % 2 ^ 32 = 0x7F800001 → fcvt 4 x = 0x7FC0) := by
  rw [show fcvt 4 x = BitVec.ofNat 64 (fpConv bf16 false (f32Of x)) from rfl]
  refine ⟨?_, fun h => ?_, fun h => ?_, fun h => ?_⟩
  · rw [BitVec.toNat_ofNat]
    exact lt_of_le_of_lt (Nat.mod_le _ _) (fpConv_lt (f := bf16) rfl (by decide) (by decide) _)
  all_goals rw [f32Of_eq h]; decide +kernel
end Sys2Proof.Machine

open Sys2Proof Sys2Proof.Machine

/-- Settles O6: each word is `xBin` of one function of the two patterns; the worked values are those functions at
    fixed
patterns. -/
theorem xFloatWords : Obligations.XFloatWords := by
  unfold Obligations.XFloatWords
  intro s h d a b k hg ha hb x y nanIn
  refine ⟨f32Result (valAdd (f32Of x) (f32Of y)), f32Result (valMul (f32Of x) (f32Of y)), f32Max x y, fcvt k.toNat x,
    f32Result_lt _, f32Result_lt _, f32Max_lt _ _, fun hn => ⟨?_, ?_, ?_⟩, fun hx hy => ?_, fun hx hy => ?_,
    fun hx hy => ?_, ?_, ?_, ?_, ?_, fun hk => ?_, fun hk => ⟨fun hx => ?_, fun hx => ?_⟩,
    fun hk => ⟨fun hx => ?_, fun hx => ?_⟩, fun hk => ?_, fun hk => ?_⟩
  · exact f32Result_nan (valIsNan_valAdd hn)
  · exact f32Result_nan (valIsNan_valMul hn)
  · exact if_pos hn
  · rw [f32Of_eq hx, f32Of_eq hy]
    decide +kernel
  · rw [f32Of_eq hx, f32Of_eq hy]
    decide +kernel
  · rw [f32Max, f32Of_eq hx, f32Of_eq hy]
    decide +kernel
  · rw [exec_xFadd, execXFadd]
    exact runWord_xBin hg ha hb rfl
  · rw [exec_xFmul, execXFmul]
    exact runWord_xBin hg ha hb rfl
  · rw [exec_xFmax, execXFmax]
    exact runWord_xBin hg ha hb rfl
  · rw [exec_xFcvt, execXFcvt]
    exact runWord_xBin (y := fun _ => {}) hg ha rfl rfl
  · exact fcvt_clamped (by rcases hk with rfl | rfl <;> simp) x
  · subst hk
    rw [show fcvt (1 : BitVec 6).toNat x = toInt64 (f32Of x) (valRne (f32Of x)) from rfl, f32Of_eq hx]
    decide +kernel
  · subst hk
    rw [show fcvt (1 : BitVec 6).toNat x = toInt64 (f32Of x) (valRne (f32Of x)) from rfl, f32Of_eq hx]
    decide +kernel
  · subst hk
    rw [show fcvt (2 : BitVec 6).toNat x = toInt64 (f32Of x) (valTrunc (f32Of x)) from rfl, f32Of_eq hx]
    decide +kernel
  · subst hk
    rw [show fcvt (2 : BitVec 6).toNat x = toInt64 (f32Of x) (valTrunc (f32Of x)) from rfl, f32Of_eq hx]
    decide +kernel
  · subst hk
    show (BitVec.ofNat 64 (x.toNat % 2 ^ 16 * 2 ^ 16)).toNat = _
    rw [BitVec.toNat_ofNat]
    omega
  · subst hk
    exact fcvt_bf16 x
end

section
/-!
PROOFS. Sums, products and comparisons of exact values are those of rationals; the functions of V words
    (spec/07 R139).
-/

namespace Sys2Proof.Machine

/-! ### Values as rationals -/

/-- The sign of a magnitude. -/
def signRat (s : Bool) : ℚ := if s then -1 else 1

/-- A finite value as a rational; 0 for the others. -/
def valRat : Val → ℚ
  | .num s p q e => signRat s * (p / q) * 2 ^ e
  | _ => 0

/-- A finite value with a denominator. -/
def IsNum (v : Val) : Prop := ∃ s p q e, v = .num s p q e ∧ q ≠ 0

/-- A value that is no NaN, with a denominator where it is finite. -/
def IsOrdered (v : Val) : Prop := IsNum v ∨ ∃ s, v = .inf s

/-- The place of a value in the order, between −∞ and ∞. -/
def valRank : Val → WithBot (WithTop ℚ)
  | .inf s => if s then ⊥ else ((⊤ : WithTop ℚ) : WithBot (WithTop ℚ))
  | v => ((valRat v : WithTop ℚ) : WithBot (WithTop ℚ))

@[simp] theorem signRat_not (s : Bool) : signRat (!s) = -signRat s := by cases s <;> simp [signRat]

theorem signRat_mul (s t : Bool) : signRat (s != t) = signRat s * signRat t := by cases s <;> cases t <;> simp
    [signRat]

theorem signRat_ne (s : Bool) : signRat s ≠ 0 := by cases s <;> simp [signRat]

theorem signed_eq_signRat (s : Bool) (a : Int) : ((if s then -a else a : Int) : ℚ) = signRat s * a := by
  cases s <;> simp [signRat]

/-- A sum of two values, in its three parts. -/
theorem sumParts_rat (s1 : Bool) (p1 : Nat) {q1 : Nat} (e1 : Int) (s2 : Bool) (p2 : Nat) {q2 : Nat} (e2 : Int)
    (h1 : q1 ≠ 0) (h2 : q2 ≠ 0) :
    ((sumParts s1 p1 q1 e1 s2 p2 q2 e2).1 : ℚ) / (sumParts s1 p1 q1 e1 s2 p2 q2 e2).2.1 *
      2 ^ (sumParts s1 p1 q1 e1 s2 p2 q2 e2).2.2 = valRat (.num s1 p1 q1 e1) + valRat (.num s2 p2 q2 e2) := by
  have h1' : (q1 : ℚ) ≠ 0 := Nat.cast_ne_zero.2 h1
  have h2' : (q2 : ℚ) ≠ 0 := Nat.cast_ne_zero.2 h2
  have hpow : ∀ x : Int, min e1 e2 ≤ x → (pow2 (x - min e1 e2) : ℚ) * 2 ^ min e1 e2 = 2 ^ x := by
    intro x hx
    rw [pow2_cast, max_eq_left (by omega), ← zpow_add₀ (by norm_num)]
    congr 1
    omega
  simp only [sumParts, valRat]
  rw [Int.cast_add, signed_eq_signRat, signed_eq_signRat, Int.cast_natCast, Int.cast_natCast,
    ← hpow e1 (min_le_left _ _), ← hpow e2 (min_le_right _ _)]
  push_cast
  field_simp

theorem sumParts_den (s1 : Bool) (p1 q1 : Nat) (e1 : Int) (s2 : Bool) (p2 q2 : Nat) (e2 : Int) :
    (sumParts s1 p1 q1 e1 s2 p2 q2 e2).2.1 = q1 * q2 := rfl

/-- The numerator of a sum has its sign. -/
theorem sumParts_sign (s1 : Bool) (p1 : Nat) {q1 : Nat} (e1 : Int) (s2 : Bool) (p2 : Nat) {q2 : Nat} (e2 : Int)
    (h1 : q1 ≠ 0) (h2 : q2 ≠ 0) :
    ((sumParts s1 p1 q1 e1 s2 p2 q2 e2).1 < 0 ↔ valRat (.num s1 p1 q1 e1) + valRat (.num s2 p2 q2 e2) < 0) ∧
    ((sumParts s1 p1 q1 e1 s2 p2 q2 e2).1 = 0 ↔ valRat (.num s1 p1 q1 e1) + valRat (.num s2 p2 q2 e2) = 0) := by
  rw [← sumParts_rat s1 p1 e1 s2 p2 e2 h1 h2, sumParts_den]
  have hq : (0 : ℚ) < ((q1 * q2 : Nat) : ℚ) := by
    exact_mod_cast Nat.mul_pos (Nat.pos_of_ne_zero h1) (Nat.pos_of_ne_zero h2)
  have hp : (0 : ℚ) < 2 ^ (sumParts s1 p1 q1 e1 s2 p2 q2 e2).2.2 := by positivity
  constructor
  · rw [← not_iff_not, not_lt, not_lt, mul_nonneg_iff_of_pos_right hp, le_div_iff₀ hq, zero_mul]
    exact_mod_cast Iff.rfl
  · rw [mul_eq_zero, or_iff_left hp.ne', div_eq_zero_iff, or_iff_left hq.ne']
    exact_mod_cast Iff.rfl

theorem valRat_negate (s : Bool) (p q : Nat) (e : Int) : valRat (.num (!s) p q e) = -valRat (.num s p q e) := by
  simp [valRat]

/-- A sum of finite values is exact. -/
theorem valAdd_num {v w : Val} (hv : IsNum v) (hw : IsNum w) :
    IsNum (valAdd v w) ∧ valRat (valAdd v w) = valRat v + valRat w := by
  obtain ⟨s1, p1, q1, e1, rfl, h1⟩ := hv
  obtain ⟨s2, p2, q2, e2, rfl, h2⟩ := hw
  have hrat := sumParts_rat s1 p1 e1 s2 p2 e2 h1 h2
  have hden := sumParts_den s1 p1 q1 e1 s2 p2 q2 e2
  simp only [valAdd]
  generalize sumParts s1 p1 q1 e1 s2 p2 q2 e2 = x at *
  obtain ⟨n, q, e⟩ := x
  dsimp only at hrat hden ⊢
  split
  next hn =>
    refine ⟨⟨_, _, _, _, rfl, one_ne_zero⟩, ?_⟩
    rw [← hrat, hn]
    simp [valRat]
  next hn =>
    refine ⟨⟨_, _, _, _, rfl, by rw [hden]; exact mul_ne_zero h1 h2⟩, ?_⟩
    rw [← hrat, valRat, ← mul_div_assoc]
    congr 2
    rw [Nat.cast_natAbs, signRat]
    by_cases h : n < 0
    · rw [decide_eq_true h, if_pos rfl, abs_of_neg h]
      push_cast
      ring
    · rw [decide_eq_false h, if_neg (by simp), abs_of_nonneg (not_lt.1 h), one_mul]

theorem valMul_num {v w : Val} (hv : IsNum v) (hw : IsNum w) :
    IsNum (valMul v w) ∧ valRat (valMul v w) = valRat v * valRat w := by
  obtain ⟨s1, p1, q1, e1, rfl, h1⟩ := hv
  obtain ⟨s2, p2, q2, e2, rfl, h2⟩ := hw
  refine ⟨⟨_, _, _, _, rfl, mul_ne_zero h1 h2⟩, ?_⟩
  simp only [valMul, valRat]
  rw [signRat_mul, zpow_add₀ (by norm_num)]
  push_cast
  rw [mul_div_mul_comm]
  ring

theorem valEq_num {v w : Val} (hv : IsNum v) (hw : IsNum w) : valEq v w = true ↔ valRat v = valRat w := by
  obtain ⟨s1, p1, q1, e1, rfl, h1⟩ := hv
  obtain ⟨s2, p2, q2, e2, rfl, h2⟩ := hw
  have h := (sumParts_sign s1 p1 e1 (!s2) p2 e2 h1 h2).2
  rw [valRat_negate, ← sub_eq_add_neg, sub_eq_zero] at h
  exact decide_eq_true_iff.trans h

theorem valLt_num {v w : Val} (hv : IsNum v) (hw : IsNum w) : valLt v w = true ↔ valRat v < valRat w := by
  obtain ⟨s1, p1, q1, e1, rfl, h1⟩ := hv
  obtain ⟨s2, p2, q2, e2, rfl, h2⟩ := hw
  have h := (sumParts_sign s1 p1 e1 (!s2) p2 e2 h1 h2).1
  rw [valRat_negate, ← sub_eq_add_neg, sub_neg] at h
  exact decide_eq_true_iff.trans h

/-- `valLt` is the order of the values that are no NaN. -/
theorem valLt_iff_rank {v w : Val} (hv : IsOrdered v) (hw : IsOrdered w) : valLt v w = true ↔ valRank v < valRank w
    := by
  rcases hv with hv | ⟨s, rfl⟩ <;> rcases hw with hw | ⟨t, rfl⟩
  · rw [valLt_num hv hw]
    obtain ⟨s1, p1, q1, e1, rfl, h1⟩ := hv
    obtain ⟨s2, p2, q2, e2, rfl, h2⟩ := hw
    simp only [valRank]
    rw [WithBot.coe_lt_coe, WithTop.coe_lt_coe]
  · obtain ⟨s1, p1, q1, e1, rfl, h1⟩ := hv
    cases t
    · simpa [valLt, valRank] using WithBot.coe_lt_coe.2 (WithTop.coe_lt_top _)
    · simp [valLt, valRank]
  · obtain ⟨s2, p2, q2, e2, rfl, h2⟩ := hw
    cases s <;> simp [valLt, valRank]
  · cases s <;> cases t <;> simp [valLt, valRank]

/-! ### The largest lane -/

theorem isOrdered_not_nan {v : Val} (hv : IsOrdered v) : valIsNan v = false := by
  rcases hv with ⟨s, p, q, e, rfl, -⟩ | ⟨s, rfl⟩ <;> rfl

theorem valMax_cases (v w : Val) : valMax v w = v ∨ valMax v w = w := by
  unfold valMax
  split
  · exact .inr rfl
  · split
    · exact .inl rfl
    · split
      · exact .inr rfl
      · exact .inl rfl

theorem valRank_valMax {v w : Val} (hv : IsOrdered v) (hw : IsOrdered w) :
    valRank v ≤ valRank (valMax v w) ∧ valRank w ≤ valRank (valMax v w) := by
  unfold valMax
  split
  next h => exact ⟨((valLt_iff_rank hv hw).1 h).le, le_rfl⟩
  next h =>
    have hwv : valRank w ≤ valRank v := not_lt.1 fun h' => h ((valLt_iff_rank hv hw).2 h')
    split
    next h' => exact ⟨le_rfl, hwv⟩
    next h' =>
      have hvw : valRank v ≤ valRank w := not_lt.1 fun h'' => h' ((valLt_iff_rank hw hv).2 h'')
      split
      · exact ⟨hvw, le_rfl⟩
      · exact ⟨le_rfl, hwv⟩

theorem laneMax_of_ordered {v w : Val} (hv : IsOrdered v) (hw : IsOrdered w) : laneMax v w = valMax v w := by
  rw [laneMax, isOrdered_not_nan hv, isOrdered_not_nan hw, if_neg (by simp)]

/-- The largest of some values that are no NaN, found from the left, is one of them and bounds them all. -/
theorem foldl_laneMax {vs : List Val} {v : Val} (hv : IsOrdered v) (hvs : ∀ w ∈ vs, IsOrdered w) :
    vs.foldl laneMax v ∈ v :: vs ∧ ∀ w ∈ v :: vs, valRank w ≤ valRank (vs.foldl laneMax v) := by
  induction vs generalizing v with
  | nil => simp
  | cons w vs ih =>
    have hw : IsOrdered w := hvs w List.mem_cons_self
    have hmax : IsOrdered (laneMax v w) := by
      rw [laneMax_of_ordered hv hw]
      rcases valMax_cases v w with h | h <;> rw [h]
      exacts [hv, hw]
    obtain ⟨hmem, hall⟩ := ih hmax fun u hu => hvs u (List.mem_cons_of_mem _ hu)
    have hfirst := hall _ List.mem_cons_self
    obtain ⟨hrv, hrw⟩ := valRank_valMax hv hw
    rw [List.foldl_cons]
    constructor
    · rcases List.mem_cons.1 hmem with h | h
      · rw [h, laneMax_of_ordered hv hw]
        rcases valMax_cases v w with h | h <;> rw [h] <;> simp
      · exact List.mem_cons_of_mem _ (List.mem_cons_of_mem _ h)
    · intro u hu
      rw [laneMax_of_ordered hv hw] at hfirst hall ⊢
      rcases List.mem_cons.1 hu with rfl | hu
      · exact hrv.trans hfirst
      · rcases List.mem_cons.1 hu with rfl | hu
        · exact hrw.trans hfirst
        · exact hall _ (List.mem_cons_of_mem _ hu)

theorem valIsNan_laneMax {v w : Val} (h : (valIsNan v || valIsNan w) = true) : valIsNan (laneMax v w) = true := by
  rw [laneMax, if_pos h]
  rfl

/-- A NaN among the lanes stays one through a fold of an operation that keeps NaNs. -/
theorem foldl_nan {f : Val → Val → Val} (hf : ∀ v w, (valIsNan v || valIsNan w) = true → valIsNan (f v w) = true)
    {vs : List Val} {v : Val} (h : ∃ y ∈ v :: vs, valIsNan y = true) : valIsNan (vs.foldl f v) = true := by
  induction vs generalizing v with
  | nil => simpa using h
  | cons w vs ih =>
    obtain ⟨y, hy, hnan⟩ := h
    refine ih ?_
    simp only [List.mem_cons] at hy
    rcases hy with rfl | rfl | hy
    · exact ⟨_, List.mem_cons_self, hf _ _ (by rw [hnan, Bool.true_or])⟩
    · exact ⟨_, List.mem_cons_self, hf _ _ (by rw [hnan, Bool.or_true])⟩
    · exact ⟨y, List.mem_cons_of_mem _ hy, hnan⟩

/-- The sum of finite lanes is exact. -/
theorem foldl_valAdd {vs : List Val} {v : Val} (hv : IsNum v) (hvs : ∀ w ∈ vs, IsNum w) :
    IsNum (vs.foldl valAdd v) ∧ valRat (vs.foldl valAdd v) = ((v :: vs).map valRat).sum := by
  induction vs generalizing v with
  | nil => simpa using hv
  | cons w vs ih =>
    obtain ⟨hn, hr⟩ := valAdd_num hv (hvs w List.mem_cons_self)
    obtain ⟨hnum, hrat⟩ := ih hn fun u hu => hvs u (List.mem_cons_of_mem _ hu)
    refine ⟨hnum, hrat.trans ?_⟩
    rw [List.map_cons, List.sum_cons, hr, List.map_cons, List.map_cons, List.sum_cons, List.sum_cons, add_assoc]

/-- What a code decodes to has denominator 1 where it is finite. -/
theorem fpDecode_cases (f : FpFmt) (c : Nat) : IsOrdered (fpDecode f c) ∨ valIsNan (fpDecode f c) = true := by
  unfold fpDecode
  dsimp only
  split
  · split
    · exact .inl (.inr ⟨_, rfl⟩)
    · exact .inr rfl
  · split
    · exact .inr rfl
    · split
      · exact .inl (.inl ⟨_, _, _, _, rfl, one_ne_zero⟩)
      · exact .inl (.inl ⟨_, _, _, _, rfl, one_ne_zero⟩)


/-! ### The functions -/

/-- Newton's steps from above end at the square root: each halves what is left. -/
theorem isqrtIter_eq {n fuel x : Nat} (hlo : Nat.sqrt n ≤ x) (hhi : x < Nat.sqrt n + 2 ^ fuel) :
    isqrtIter n fuel x = Nat.sqrt n := by
  induction fuel generalizing x with
  | zero => rw [isqrtIter]; omega
  | succ fuel ih =>
    have hsq : Nat.sqrt n * Nat.sqrt n ≤ n := Nat.sqrt_le n
    have hsq' : n < (Nat.sqrt n + 1) * (Nat.sqrt n + 1) := Nat.lt_succ_sqrt n
    generalize Nat.sqrt n = r at *
    rw [isqrtIter]
    rcases Nat.eq_zero_or_pos x with rfl | hx
    · simp
      omega
    have hdm := Nat.div_add_mod n x
    have hmod := Nat.mod_lt n hx
    generalize n / x = k at *
    have hroot : r ≤ (x + k) / 2 := by
      rw [Nat.le_div_iff_mul_le (by norm_num)]
      by_contra hlt
      have hprod : r * r < x * (k + 1) := by rw [Nat.mul_succ]; omega
      have hsum : x + (k + 1) ≤ 2 * r := by omega
      zify at hprod hsum
      nlinarith [sq_nonneg ((x : Int) - (k + 1)), Int.natCast_nonneg x, Int.natCast_nonneg k]
    split
    next hle =>
      have hkx : x * x ≤ x * k := Nat.mul_le_mul_left _ (by omega)
      have hxr : x < r + 1 := by
        by_contra hge
        have := Nat.mul_le_mul (Nat.not_lt.1 hge) (Nat.not_lt.1 hge)
        omega
      omega
    next hgt =>
      have hk : k ≤ r := by
        by_contra hlt
        have hxr : x ≠ r := by rintro rfl; omega
        have : (r + 1) * (r + 1) ≤ x * k := Nat.mul_le_mul (by omega) (by omega)
        omega
      refine ih hroot ?_
      rw [pow_succ] at hhi
      omega

theorem isqrt_eq (n : Nat) : isqrt n = Nat.sqrt n := by
  unfold isqrt
  split
  next h => rw [h]; rfl
  next h =>
    have hlow : 2 ^ Nat.log2 n ≤ n := Nat.log2_self_le h
    have hhigh : n < 2 ^ (Nat.log2 n + 1) := Nat.lt_log2_self
    have hx : Nat.sqrt n < 2 ^ (Nat.log2 n / 2 + 1) := by
      rw [Nat.sqrt_lt', ← pow_mul]
      exact hhigh.trans_le (Nat.pow_le_pow_right (by norm_num) (by omega))
    refine isqrtIter_eq hx.le (Nat.lt_add_left _ ?_)
    exact Nat.pow_lt_pow_right (by norm_num) (by omega)

theorem isNum_one (e : Int) : IsNum (.num false 1 1 e) := ⟨_, _, _, _, rfl, one_ne_zero⟩

theorem valRat_one (e : Int) : valRat (.num false 1 1 e) = 2 ^ e := by simp [valRat, signRat]

theorem valRat_nat (n : Nat) (e : Int) : valRat (.num false n 1 e) = n * 2 ^ e := by simp [valRat, signRat]

theorem valRat_valOfInt (x : Int) : valRat (valOfInt x 0) = x := by
  have h := signed_eq_signRat (decide (x < 0)) x.natAbs
  simp only [valRat, valOfInt, zpow_zero, Nat.cast_one, div_one, mul_one]
  rw [← Int.cast_natCast (R := ℚ), ← h, Int.cast_inj, signed_natAbs fun _ => rfl]

theorem valMul_valRcp (s : Bool) {p q : Nat} (e : Int) (hp : p ≠ 0) (hq : q ≠ 0) :
    valEq (valMul (.num s p q e) (valRcp (.num s p q e))) (.num false 1 1 0) = true := by
  have hrcp : valRcp (.num s p q e) = .num s q p (-e) := if_neg hp
  obtain ⟨hn, hr⟩ := valMul_num (v := .num s p q e) (w := .num s q p (-e)) ⟨_, _, _, _, rfl, hq⟩ ⟨_, _, _, _, rfl, hp⟩
  rw [hrcp, valEq_num hn (isNum_one 0), hr, valRat_one]
  have hp' : (p : ℚ) ≠ 0 := Nat.cast_ne_zero.2 hp
  have hq' : (q : ℚ) ≠ 0 := Nat.cast_ne_zero.2 hq
  simp only [valRat, zpow_neg]
  have hs : signRat s * signRat s = 1 := by cases s <;> simp [signRat]
  calc signRat s * (p / q) * 2 ^ e * (signRat s * (q / p) * (2 ^ e)⁻¹)
      = (signRat s * signRat s) * ((p / q) * (q / p)) * ((2 ^ e) * (2 ^ e)⁻¹) := by ring
    _ = 2 ^ (0 : Int) := by
      rw [hs, mul_inv_cancel₀ (by positivity), zpow_zero]
      field_simp

/-- exp2 of a whole number is that power of two. -/
theorem valExp2_valOfInt {e : Int} (hlo : -65536 < e) (hhi : e < 65536) :
    valEq (valExp2 (valOfInt e 0)) (.num false 1 1 e) = true := by
  have hexp : valExp2 (valOfInt e 0) = .num false 1 1 e := by
    unfold valOfInt valExp2
    dsimp only
    split
    next h => rw [Int.natAbs_eq_zero.1 h]
    next h =>
      have hlog : ilog2 e.natAbs 1 0 < 16 := by
        obtain ⟨hle, -⟩ := ilog2_spec (Nat.pos_of_ne_zero h) Nat.one_pos 0
        have hnat : (e.natAbs : ℚ) < 2 ^ (16 : Int) := by
          have : e.natAbs < 2 ^ 16 := by omega
          exact_mod_cast this
        refine (zpow_lt_zpow_iff_right₀ (by norm_num : (1 : ℚ) < 2)).1 (lt_of_le_of_lt hle ?_)
        simpa using hnat
      rw [if_neg (not_le.2 hlog)]
      simp only [ratio, pow2, Int.neg_zero, Int.toNat_zero, pow_zero, mul_one, Nat.div_one, Nat.mod_one, if_true]
      congr 1
      exact signed_natAbs fun _ => rfl
  rw [hexp, valEq_num (isNum_one e) (isNum_one e)]

theorem valLog2_one (e : Int) : valEq (valLog2 (.num false 1 1 e)) (valOfInt e 0) = true := by
  have hlog : ilog2 1 1 e = e := by simp [ilog2, ratio, pow2]
  have h : valLog2 (.num false 1 1 e) = valOfInt e 0 := by
    simp [valLog2, hlog, ratio, pow2]
  have hnum : IsNum (valOfInt e 0) := ⟨_, _, _, _, rfl, one_ne_zero⟩
  rw [h, valEq_num hnum hnum]

/-- The reciprocal square root of a whole magnitude below 2^24: exact, or odd between the two neighbours. -/
theorem valRsqrt_nat {p : Nat} (hp : p ≠ 0) (hlt : p < 2 ^ 24) (e : Int) :
    ∃ (t : Nat) (k : Int), valRsqrt (.num false p 1 e) = .num false t 1 k ∧ 2 ^ 170 ≤ t ∧
      (valEq (valMul (.num false p 1 e) (valMul (.num false t 1 k) (.num false t 1 k))) (.num false 1 1 0) = true ∨
        valLt (valMul (.num false p 1 e) (valMul (.num false (t - 1) 1 k) (.num false (t - 1) 1 k)))
          (.num false 1 1 0) = true ∧
        valLt (.num false 1 1 0)
          (valMul (.num false p 1 e) (valMul (.num false (t + 1) 1 k) (.num false (t + 1) 1 k))) = true) := by
  set d : Nat := p * 2 ^ (e - 2 * (e / 2)).toNat with hd
  set r : Nat := isqrt (2 ^ 384 / d) with hr
  have hstep : (e - 2 * (e / 2)).toNat ≤ 1 := by omega
  have hd0 : 0 < d := Nat.mul_pos (Nat.pos_of_ne_zero hp) (by positivity)
  have hdlt : d < 2 ^ 25 := by
    calc d < 2 ^ 24 * 2 ^ (e - 2 * (e / 2)).toNat := Nat.mul_lt_mul_of_pos_right hlt (by positivity)
      _ ≤ 2 ^ 24 * 2 ^ 1 := Nat.mul_le_mul_left _ (Nat.pow_le_pow_right (by norm_num) hstep)
  have hpd : (p : ℚ) * 2 ^ e = d * 2 ^ (2 * (e / 2)) := by
    rw [hd]
    push_cast
    rw [mul_assoc, ← zpow_natCast, ← zpow_add₀ (by norm_num)]
    congr 2
    omega
  have hroot : r * r * d ≤ 2 ^ 384 ∧ 2 ^ 384 < (r + 1) * (r + 1) * d := by
    rw [hr, isqrt_eq]
    constructor
    · exact (Nat.le_div_iff_mul_le hd0).1 (Nat.sqrt_le _)
    · exact (Nat.div_lt_iff_lt_mul hd0).1 (Nat.lt_succ_sqrt _)
  have hlarge : 2 ^ 170 ≤ r := by
    by_contra hsmall
    have h1 : (r + 1) * (r + 1) ≤ 2 ^ 170 * 2 ^ 170 := Nat.mul_le_mul (by omega) (by omega)
    have h2 : (r + 1) * (r + 1) * d ≤ 2 ^ 170 * 2 ^ 170 * 2 ^ 25 := Nat.mul_le_mul h1 hdlt.le
    have h3 : (2 : Nat) ^ 170 * 2 ^ 170 * 2 ^ 25 < 2 ^ 384 := by
      rw [← pow_add, ← pow_add]
      exact Nat.pow_lt_pow_right (by norm_num) (by norm_num)
    omega
  have hrat (n : Nat) (k : Int) : IsNum (valMul (.num false p 1 e) (valMul (.num false n 1 k) (.num false n 1 k))) ∧
      valRat (valMul (.num false p 1 e) (valMul (.num false n 1 k) (.num false n 1 k))) =
        ((n * n * d : Nat) : ℚ) * 2 ^ (2 * (e / 2) + 2 * k) := by
    have hnum (n : Nat) (k : Int) : IsNum (.num false n 1 k) := ⟨_, _, _, _, rfl, one_ne_zero⟩
    obtain ⟨h1, h2⟩ := valMul_num (hnum n k) (hnum n k)
    obtain ⟨h3, h4⟩ := valMul_num (hnum p e) h1
    refine ⟨h3, ?_⟩
    rw [h4, h2, valRat_nat, valRat_nat, hpd, zpow_add₀ (by norm_num), two_mul k, zpow_add₀ (by norm_num)]
    push_cast
    ring
  have hscale (k c : Int) (h : 2 * (e / 2) + 2 * k = -c) (n : Nat) :
      (((n * n * d : Nat) : ℚ) * 2 ^ (2 * (e / 2) + 2 * k) < 1 ↔ ((n * n * d : Nat) : ℚ) < 2 ^ c) ∧
      (1 < ((n * n * d : Nat) : ℚ) * 2 ^ (2 * (e / 2) + 2 * k) ↔ (2 : ℚ) ^ c < ((n * n * d : Nat) : ℚ)) ∧
      (((n * n * d : Nat) : ℚ) * 2 ^ (2 * (e / 2) + 2 * k) = 1 ↔ ((n * n * d : Nat) : ℚ) = 2 ^ c) := by
    have hc : (0 : ℚ) < 2 ^ c := by positivity
    rw [h, zpow_neg, ← div_eq_mul_inv]
    exact ⟨div_lt_one hc, one_lt_div hc, div_eq_one_iff_eq hc.ne'⟩
  have hdef : valRsqrt (.num false p 1 e) =
      if r * r * d = 2 ^ 384 then .num false r 1 (-192 - e / 2) else .num false (2 * r + 1) 1 (-193 - e / 2) := by
    rw [valRsqrt, if_neg hp, if_neg (by simp), Nat.one_mul]
  by_cases hexact : r * r * d = 2 ^ 384
  · refine ⟨r, -192 - e / 2, hdef.trans (if_pos hexact), hlarge, .inl ?_⟩
    obtain ⟨hnum, hval⟩ := hrat r (-192 - e / 2)
    rw [valEq_num hnum (isNum_one 0), hval, valRat_one, zpow_zero, (hscale _ 384 (by omega) r).2.2, hexact,
      Nat.cast_pow, Nat.cast_ofNat]
    exact (zpow_natCast 2 384).symm
  · refine ⟨2 * r + 1, -193 - e / 2, hdef.trans (if_neg hexact), by omega, .inr ⟨?_, ?_⟩⟩
    · obtain ⟨hnum, hval⟩ := hrat (2 * r + 1 - 1) (-193 - e / 2)
      rw [valLt_num hnum (isNum_one 0), hval, valRat_one, zpow_zero, (hscale _ 386 (by omega) _).1]
      have hlt : (2 * r + 1 - 1) * (2 * r + 1 - 1) * d < 2 ^ 386 := by
        rw [Nat.add_sub_cancel, show 2 * r * (2 * r) * d = 4 * (r * r * d) by ring]
        omega
      exact_mod_cast hlt
    · obtain ⟨hnum, hval⟩ := hrat (2 * r + 1 + 1) (-193 - e / 2)
      rw [valLt_num (isNum_one 0) hnum, hval, valRat_one, zpow_zero, (hscale _ 386 (by omega) _).2.1]
      have hlt : 2 ^ 386 < (2 * r + 1 + 1) * (2 * r + 1 + 1) * d := by
        rw [show (2 * r + 1 + 1) * (2 * r + 1 + 1) * d = 4 * ((r + 1) * (r + 1) * d) by ring]
        omega
      exact_mod_cast hlt


/-! ### Writing to a float tile (spec/22 R345, R346) -/

/-- A finite value below the least normal, not zero. -/
def IsSubnormal (x : Val) : Prop := valIsZero x = false ∧ valLt (valAbs x) (.num false 1 1 (-126)) = true

/-- A subnormal value that is wrapped and flagged in a format. -/
def IsFlagged (f : FpFmt) (x : Val) : Prop :=
  IsSubnormal x ∧ valLt (.num false 1 1 (if f = fp32 then -150 else -134)) (valAbs x) = true

theorem arithLane_nan (f : FpFmt) (sat : Bool) {x : Val} (h : valIsNan x = true) : arithLane f sat x =
    (fpNan f, none) := by
  cases x with
  | nan => rfl
  | _ => cases h

theorem arithLane_normal (f : FpFmt) (sat : Bool) {x : Val} (hn : valIsNan x = false) (hs : ¬IsSubnormal x) :
    arithLane f sat x = (fpConv f sat x, none) := by
  cases x with
  | nan => exact absurd hn (by simp [valIsNan])
  | inf => rfl
  | num s p q e =>
    unfold arithLane
    dsimp only
    split
    · rfl
    next hp =>
      rw [if_pos]
      rw [Bool.not_eq_true', Bool.eq_false_iff]
      exact fun hlt => hs ⟨by simpa [valIsZero] using hp, hlt⟩

/-- A subnormal value is finite. -/
theorem IsSubnormal.num {x : Val} (h : IsSubnormal x) : ∃ s p q e, x = .num s p q e ∧ p ≠ 0 := by
  obtain ⟨hz, hlt⟩ := h
  cases x with
  | nan => exact absurd hlt (by simp [valAbs, valLt])
  | inf => exact absurd hlt (by simp [valAbs, valLt])
  | num s p q e => exact ⟨s, p, q, e, rfl, by simpa [valIsZero] using hz⟩

theorem arithLane_flagged (f : FpFmt) (sat : Bool) {x : Val} (h : IsFlagged f x) :
    (arithLane f sat x).1 = fpConv f sat (valScale x 192) ∧ ∃ y, (arithLane f sat x).2 = some y := by
  obtain ⟨hsub, hleast⟩ := h
  obtain ⟨s, p, q, e, rfl, hp⟩ := hsub.num
  have hlt : valLt (.num false p q e) (.num false 1 1 (-126)) = true := hsub.2
  have hleast' : valLt (.num false 1 1 (if f = fp32 then -150 else -134)) (.num false p q e) = true := hleast
  unfold arithLane
  dsimp only
  rw [if_neg hp, hlt, hleast', if_neg (by simp), if_neg (by simp)]
  exact ⟨rfl, _, rfl⟩

theorem arithLane_tiny (f : FpFmt) (sat : Bool) {x : Val} (hsub : IsSubnormal x) (h : ¬IsFlagged f x) :
    arithLane f sat x = (fpPack f (valNeg x) 0 0, none) := by
  have hleast : valLt (.num false 1 1 (if f = fp32 then -150 else -134)) (valAbs x) = false :=
    Bool.eq_false_iff.2 fun h' => h ⟨hsub, h'⟩
  obtain ⟨s, p, q, e, rfl, hp⟩ := hsub.num
  have hlt : valLt (.num false p q e) (.num false 1 1 (-126)) = true := hsub.2
  have hleast' : valLt (.num false 1 1 (if f = fp32 then -150 else -134)) (.num false p q e) = false := hleast
  unfold arithLane
  dsimp only
  rw [if_neg hp, hlt, hleast', if_neg (by simp), if_pos (by simp)]
  rfl

/-- A lane has a DIR exactly where it is flagged. -/
theorem arithLane_dir_iff (f : FpFmt) (sat : Bool) (x : Val) : (∃ y, (arithLane f sat x).2 = some y) ↔ IsFlagged f
    x := by
  refine ⟨fun h => ?_, fun h => (arithLane_flagged f sat h).2⟩
  by_contra hflag
  obtain ⟨y, hy⟩ := h
  by_cases hnan : valIsNan x = true
  · rw [arithLane_nan f sat hnan] at hy
    exact absurd hy (by simp)
  · by_cases hsub : IsSubnormal x
    · rw [arithLane_tiny f sat hsub hflag] at hy
      exact absurd hy (by simp)
    · rw [arithLane_normal f sat (Bool.eq_false_iff.2 hnan) hsub] at hy
      exact absurd hy (by simp)

section
variable {a : Nat} (ha : isFloatTile a = true)
include ha

theorem floatTile_cases : a = 0 ∨ a = 3 := by simpa [isFloatTile] using ha

theorem fpNan_mod_laneW : fpNan (floatOf a) % 2 ^ laneW a = fpNan (floatOf a) := by
  rcases floatTile_cases ha with rfl | rfl <;> decide

theorem fpPack_zero_mod_laneW (s : Bool) :
    fpPack (floatOf a) s 0 0 % 2 ^ laneW a = if s then 2 ^ (laneW a - 1) else 0 := by
  rcases floatTile_cases ha with rfl | rfl <;> cases s <;> decide

theorem floatOf_eq_fp32_iff : floatOf a = fp32 ↔ a = 0 := by
  rcases floatTile_cases ha with rfl | rfl <;> decide
end

/-- The lanes that an arithmetic word writes to a float tile: codes and DIRs. -/
def floatLanes (m : Mach) (t : BitVec 2) (rs : List Val) : List (Nat × Option Nat) :=
  rs.map (arithLane (floatOf (tileType m t.toNat)) (tileSat m t.toNat))

/-- The row that it sends. -/
def floatRow (m : Mach) (t : BitVec 2) (d : BitVec 6) (rs : List Val) : Row :=
  codesRow m (rowNo t d) (tileType m t.toNat) ((floatLanes m t rs).map (·.1))

section
variable {m : Mach} {t : BitVec 2}

theorem laneBits_floatRow {rs : List Val} (hlen : rs.length = lanesOf (tileType m t.toNat)) (d : BitVec 6) {j : Nat}
    {x : Val} (hx : rs[j]? = some x) : laneBits (floatRow m t d rs) (tileType m t.toNat) j =
      (arithLane (floatOf (tileType m t.toNat)) (tileSat m t.toNat) x).1 % 2 ^ laneW (tileType m t.toNat) := by
  rw [floatRow, codesRow, laneBits_packRow _ (by simpa [floatLanes] using hlen), List.getD_eq_getElem?_getD]
  simp [floatLanes, hx]

theorem vWrite_float (hf : isFloatTile (tileType m t.toNat) = true) (d : BitVec 6) (lat : Nat) (rs : List Val) :
    vWrite m t d lat true rs = pushAssist (putRowAt m (rowNo t d) (vLandAt m t.toNat lat) (floatRow m t d rs)) 1
        t.toNat
      d.toNat (if tileType m t.toNat = 3 then 1 else 0) (vLandAt m t.toNat lat - m.cycle)
          [(floatLanes m t rs).map (·.2)] := by
  have haxb : isAxb (tileType m t.toNat) = false := by
    rcases floatTile_cases hf with h | h <;> rw [h] <;> rfl
  simp only [vWrite, haxb, hf, Bool.true_and, Bool.false_eq_true, if_false, if_true]
  rfl

/-- Without a flagged lane the row alone is sent. -/
theorem vWrite_float_clean (hf : isFloatTile (tileType m t.toNat) = true) (d : BitVec 6) (lat : Nat) {rs : List Val}
    (hno : ∀ x ∈ rs, ¬IsFlagged (floatOf (tileType m t.toNat)) x) :
    vWrite m t d lat true rs = putRowAt m (rowNo t d) (vLandAt m t.toNat lat) (floatRow m t d rs) := by
  rw [vWrite_float hf, pushAssist, if_neg]
  rw [List.any_cons, List.any_nil, Bool.or_false, List.any_eq_true]
  rintro ⟨o, ho, hsome⟩
  obtain ⟨y, rfl⟩ := Option.isSome_iff_exists.1 hsome
  simp only [floatLanes, List.map_map, List.mem_map, Function.comp_apply] at ho
  obtain ⟨x, hx, hxy⟩ := ho
  exact hno x hx ((arithLane_dir_iff _ _ x).1 ⟨y, hxy⟩)

/-- With one, subnormal-assist is due as well, once the row has landed. -/
theorem vWrite_float_flagged (hf : isFloatTile (tileType m t.toNat) = true) (d : BitVec 6) (lat : Nat) {rs : List Val}
    (hyes : ∃ x ∈ rs, IsFlagged (floatOf (tileType m t.toNat)) x) :
    ∃ q : Due, vWrite m t d lat true rs =
        pushDue (putRowAt m (rowNo t d) (vLandAt m t.toNat lat) (floatRow m t d rs)) m.iss.core m.iss.ctx q ∧
      q.cause = 0x1B ∧ q.notBefore = vLandAt m t.toNat lat ∧
      q.assist = some (assistRecord 1 t.toNat d.toNat (if tileType m t.toNat = 3 then 1 else 0)
        [(floatLanes m t rs).map (·.2)]) := by
  have hany : [(floatLanes m t rs).map (·.2)].any (fun r => r.any Option.isSome) = true := by
    obtain ⟨x, hx, hflag⟩ := hyes
    obtain ⟨y, hy⟩ := (arithLane_dir_iff _ (tileSat m t.toNat) x).2 hflag
    rw [List.any_cons, List.any_nil, Bool.or_false, List.any_eq_true]
    exact ⟨some y, by simpa [floatLanes] using ⟨x, hx, hy⟩, rfl⟩
  have hland : m.cycle ≤ vLandAt m t.toNat lat := Nat.le_add_right _ _
  rw [vWrite_float hf, pushAssist, if_pos hany]
  exact ⟨_, rfl, rfl, Nat.add_sub_cancel' hland, rfl⟩

theorem floatLanes_dir_iff {rs : List Val} {j : Nat} {x : Val} (hx : rs[j]? = some x) :
    (∃ y, ((floatLanes m t rs).map (·.2))[j]? = some (some y)) ↔ IsFlagged (floatOf (tileType m t.toNat)) x := by
  rw [← arithLane_dir_iff _ (tileSat m t.toNat)]
  simp [floatLanes, hx]
end

/-! ### A tile that the core does not have -/

theorem runWord_noTile {s : State} {h : Hd} {f : Mach → Mach} {out : Out} (he : runWord s h f = out)
    (hg : guardTrue s.m h = true) (hf : f s.m = trapW s.m 0x11) : out = .next { s with m := trapW s.m 0x11 } := by
  rw [← he, runWord_true _ hg, hf]

theorem exec_noTile {s : State} {i : Instr} {h : Hd} {t : BitVec 2} {d : BitVec 6} (hh : headOf i = some h)
    (hd : vDest i = some (t, d)) (hg : guardTrue s.m h = true) (ht : tilesOf s.m ≤ t.toNat) :
    exec i s = .next { s with m := trapW s.m 0x11 } := by
  generalize he : exec i s = out
  unfold exec at he
  cases i with
  | vAdd | vSub | vMul | vFma | vMax | vMin | vNeg | vAbs | vExp2 | vLog2 | vRcp | vRsqrt | vCvt | vCmpLt | vCmpLe |
      vCmpEq | vSel | vRmax | vRsum | vBcast | vGet | vPut | vMov | vPerm | vAnd | vOr | vXor =>
    cases hh
    cases hd
    exact runWord_noTile he hg (vCheck_tile _ _ _ _ _ _ ht)
  | _ => exact absurd hd (by simp [vDest])

end Sys2Proof.Machine

open Sys2Proof Sys2Proof.Machine

/-- Settles O10: the words are `vWrite` of the lanes' values; finite values are compared, added and multiplied as
    rationals. -/
theorem vArithmeticAndFunctions : Obligations.VArithmeticAndFunctions := by
  unfold Obligations.VArithmeticAndFunctions
  refine ⟨?_, ?_, ?_, ?_, ?_, ?_, ?_⟩
  · intro s h t d a b hg ht x y z
    have hbin (lat : Nat) (f : Val → Val → Val) : runWord s h (fun m => vBin m t d a b lat f) =
        .next { s with m := vWrite s.m t d lat true (List.zipWith f x y) } := by
      rw [runWord_true _ hg, vBin, vCheck_ok _ _ _ ht]
    have hun (lat : Nat) (f : Val → Val) : runWord s h (fun m => vUn m t d a lat false f) =
        .next { s with m := vWrite s.m t d lat true (x.map f) } := by
      rw [runWord_true _ hg, vUn, Bool.not_false, Bool.true_or, vCheck_ok _ _ _ ht]
    refine ⟨hbin 2 valAdd, ?_, hbin 5 valMul, ?_, hbin 2 laneMax, hbin 2 laneMin, hun 2 valNegate, hun 2 valAbs⟩
    · rw [exec_vSub, execVSub, hbin, List.zipWith_map_right]
    · rw [exec_vFma, execVFma, runWord_true _ hg, vCheck_ok _ _ _ ht]
  · intro s h t d a hg ht x
    have hun (lat : Nat) (f : Val → Val) : runWord s h (fun m => vUn m t d a lat true f) = .next { s with
        m := if isFloatTile (tileType s.m t.toNat) then vWrite s.m t d lat true (x.map f) else trapW s.m 0x1A } := by
      rw [runWord_true _ hg, vUn, vCheck, if_neg (by simpa using ht)]
      rfl
    refine ⟨fun hf => ?_, fun hf => ?_, ?_⟩
    · simp only [hf, if_true] at hun
      exact ⟨hun 9 valExp2, hun 9 valLog2, hun 7 valRcp, hun 7 valRsqrt⟩
    · simp only [hf, Bool.false_eq_true, if_false] at hun
      exact ⟨hun 9 valExp2, hun 9 valLog2, hun 7 valRcp, hun 7 valRsqrt⟩
    · obtain ⟨n, hn⟩ := lanesOf_eq_succ (tileType s.m t.toNat)
      refine ⟨_, _, laneVals_eq_cons _ _ hn, ?_, ?_⟩
      · rw [exec_vRmax, execVRmax, runWord_true _ hg, vCheck_ok _ _ _ ht, srcVals, laneVals_eq_cons _ _ hn]
        rfl
      · rw [exec_vRsum, execVRsum, runWord_true _ hg, vCheck_ok _ _ _ ht, srcVals, laneVals_eq_cons _ _ hn]
        rfl
  · intro f codes v vs _ hcodes rat
    have hrat : rat = valRat := by
      funext x
      cases x <;> rfl
    have hdec : ∀ y ∈ v :: vs, valIsNan y = false → IsOrdered y := by
      intro y hy hnan
      rw [← hcodes, List.mem_map] at hy
      obtain ⟨c, -, rfl⟩ := hy
      exact (fpDecode_cases f c).resolve_right (by simp [hnan])
    refine ⟨fun hnan => ⟨foldl_nan (fun _ _ => valIsNan_laneMax) hnan, foldl_nan (fun _ _ => valIsNan_valAdd) hnan⟩,
      fun hno => ?_, fun hfin => ?_⟩
    · have hord : ∀ y ∈ v :: vs, IsOrdered y := fun y hy => hdec y hy (hno y hy)
      obtain ⟨hmem, hall⟩ := foldl_laneMax (hord v List.mem_cons_self) fun w hw => hord w (List.mem_cons_of_mem _ hw)
      refine ⟨hmem, fun y hy => Bool.eq_false_iff.2 fun hlt => ?_⟩
      exact absurd ((valLt_iff_rank (hord _ hmem) (hord y hy)).1 hlt) (not_lt.2 (hall y hy))
    · have hnum : ∀ y ∈ v :: vs, IsNum y := by
        intro y hy
        obtain ⟨s, p, q, e, rfl⟩ := hfin y hy
        exact (hdec _ hy rfl).resolve_right (by simp)
      obtain ⟨⟨s, p, q, e, hsum, -⟩, hval⟩ :=
        foldl_valAdd (hnum v List.mem_cons_self) fun w hw => hnum w (List.mem_cons_of_mem _ hw)
      exact ⟨⟨s, p, q, e, hsum⟩, by rw [hrat]; exact hval⟩
  · intro s p q e x
    refine ⟨rfl, rfl, rfl, rfl, rfl, rfl, rfl, rfl, rfl, rfl, rfl, fun hp => ?_, fun hp hs => ?_,
      fun hp hq => valMul_valRcp s e hp hq, fun hlo hhi => valExp2_valOfInt hlo hhi, valLog2_one e,
      fun hp hlt => ?_⟩
    · subst hp
      exact ⟨rfl, rfl, rfl, rfl⟩
    · subst hs
      exact ⟨by simp [x, valLog2, hp, valIsNan], by simp [x, valRsqrt, hp, valIsNan]⟩
    · exact valRsqrt_nat hp hlt e
  · decide +kernel
  · intro m t d lat rs ty f conv least sub flagged hf hlen
    have hleast : least = .num false 1 1 (if f = fp32 then -150 else -134) := by
      simp only [least, f, floatOf_eq_fp32_iff hf]
    have hflag : flagged = IsFlagged f := by
      funext x
      simp only [flagged, hleast]
      rfl
    have hbits {j : Nat} {x : Val} (hx : rs[j]? = some x) := laneBits_floatRow hlen d hx
    refine ⟨floatRow m t d rs, rfl, fun j x hx =>
        ⟨fun hnan => ?_, fun hnan hsub => ?_, fun hfl => ?_, fun hsub hfl => ?_⟩,
      fun hno => vWrite_float_clean hf d lat (hflag ▸ hno), fun hyes => ?_⟩
    · rw [hbits hx, arithLane_nan _ _ hnan]
      exact fpNan_mod_laneW hf
    · rw [hbits hx, arithLane_normal _ _ hnan hsub]
    · rw [hbits hx, (arithLane_flagged _ _ (hflag ▸ hfl)).1]
    · rw [hbits hx, arithLane_tiny _ _ hsub (hflag ▸ hfl)]
      exact fpPack_zero_mod_laneW hf _
    · obtain ⟨q, hq, hcause, hbefore, hassist⟩ := vWrite_float_flagged hf d lat (hflag ▸ hyes)
      exact ⟨q, (floatLanes m t rs).map (·.2), hq, hcause, hbefore, by simp [floatLanes],
        fun j x hx => by rw [hflag]; exact floatLanes_dir_iff hx, hassist⟩
  · intro s i h t d hh hd hg ht
    exact exec_noTile hh hd hg ht
end

section
/-!
PROOFS. The moving words of V: lane by lane, and on AXB tiles group by group
    (spec/22 R344, R352, R357, R361, R365, R366, R371).
-/

namespace Sys2Proof.Machine

/-! ### Lane codes on their way -/

theorem laneBits_lt (r : Row) (a j : Nat) : laneBits r a j < 2 ^ laneW a := Nat.mod_lt _ (by positivity)

/-- A word that lands lane codes sends a row that holds them. -/
theorem sendsRow_codes {i : Instr} {s : State} {t : BitVec 2} {d : BitVec 6} {lat : Nat} {f : Nat → Nat}
    (he : exec i s = .next { s with m := vCodes s.m t d lat ((List.range (lanesOf (tileType s.m t.toNat))).map f) }) :
    ∃ r, SendsRow i s t d lat r ∧ ∀ j < lanesOf (tileType s.m t.toNat),
      laneBits r (tileType s.m t.toNat) j = f j % 2 ^ laneW (tileType s.m t.toNat) :=
  ⟨_, ⟨he, rfl⟩, fun _ hj => laneBits_packRow_map _ f hj⟩

/-- The codes are those of lanes: they stay as they are. -/
theorem sendsRow_lanes {i : Instr} {s : State} {t : BitVec 2} {d : BitVec 6} {lat : Nat} {f : Nat → Nat}
    (he : exec i s = .next { s with m := vCodes s.m t d lat ((List.range (lanesOf (tileType s.m t.toNat))).map f) })
    (hf : ∀ j < lanesOf (tileType s.m t.toNat), f j < 2 ^ laneW (tileType s.m t.toNat)) :
    ∃ r, SendsRow i s t d lat r ∧ ∀ j < lanesOf (tileType s.m t.toNat), laneBits r (tileType s.m t.toNat) j = f j
        := by
  obtain ⟨r, hr, hlanes⟩ := sendsRow_codes he
  exact ⟨r, hr, fun j hj => (hlanes j hj).trans (Nat.mod_eq_of_lt (hf j hj))⟩

/-- The checks of a V word pass. -/
theorem vCheck_pass {m : Mach} {ts : List Nat} {ss : List Scalar} {ok : Bool} {f : Mach → Mach}
    (ht : ∀ t ∈ ts, t < tilesOf m) (hs : ∀ x ∈ ss, x.pois = false) (hok : ok = true) : vCheck m ts ss ok f = f m := by
  have htile : ¬ts.any (fun t => decide (tilesOf m ≤ t)) = true := by simpa using ht
  have hpois : ss.find? (fun x => x.pois) = none := List.find?_eq_none.2 fun x hx => by simp [hs x hx]
  rw [vCheck, if_neg htile, hpois]
  dsimp only
  rw [if_pos hok]

/-- The last check of a V word fails. -/
theorem vCheck_refused {m : Mach} {ts : List Nat} {ss : List Scalar} {ok : Bool} {f : Mach → Mach}
    (ht : ∀ t ∈ ts, t < tilesOf m) (hs : ∀ x ∈ ss, x.pois = false) (hok : ok = false) :
    vCheck m ts ss ok f = trapW m 0x1A := by
  have htile : ¬ts.any (fun t => decide (tilesOf m ≤ t)) = true := by simpa using ht
  have hpois : ss.find? (fun x => x.pois) = none := List.find?_eq_none.2 fun x hx => by simp [hs x hx]
  rw [vCheck, if_neg htile, hpois]
  dsimp only
  rw [if_neg (by simp [hok])]

theorem vMove_codes {m : Mach} {t : BitVec 2} (h : isAxb (tileType m t.toNat) = false) (d : BitVec 6) (lat : Nat)
    (codes : List Nat) (vals : List Val) : vMove m t d lat codes vals = vCodes m t d lat codes := by
  rw [vMove, h, if_neg (by simp)]

theorem vMove_axb {m : Mach} {t : BitVec 2} (h : isAxb (tileType m t.toNat) = true) (d : BitVec 6) (lat : Nat)
    (codes : List Nat) (vals : List Val) : vMove m t d lat codes vals = vWrite m t d lat false vals := by
  rw [vMove, if_pos h]

theorem allLanes_eq {α : Type} (m : Mach) (t : BitVec 2) (x : α) :
    allLanes m t x = (List.range (lanesOf (tileType m t.toNat))).map (fun _ => x) := replicate_eq_map_range _ _

theorem set_map_range {α : Type} (f : Nat → α) (n k : Nat) (x : α) :
    ((List.range n).map f).set k x = (List.range n).map (fun j => if j = k then x else f j) := by
  apply List.ext_getElem
  · simp
  · intro j h1 h2
    simp only [List.getElem_set, List.getElem_map, List.getElem_range, eq_comm]

/-! ### AXB rows -/

section
variable {done : List (Int × List Int)} (hgroups : done.length = 4) (hlanes : ∀ x ∈ done, x.2.length = 15)
include hgroups

theorem groupExp_axbPack (j : Nat) :
    groupExp (axbPack done) j = sextInt ((done.map (fun x => (x.1 % 256).toNat)).getD j 0) 8 := by
  have hfits := packCodes_lt 8 (done.map (fun x => (x.1 % 256).toNat))
  rw [List.length_map, hgroups] at hfits
  rw [groupExp, axbPack, BitVec.toNat_ofNat, Nat.mod_eq_of_lt hfits, ← sextInt_mod,
    show (256 : Nat) ^ j = 2 ^ (8 * j) by rw [pow_mul]; norm_num, packCodes_div_mod, sextInt_mod]

include hlanes

theorem laneBits_axbPack {j i : Nat} (hi : i < 15) :
    laneBits (axbPack done) 2 (15 * j + i) =
      ((done.map (fun x => x.2.map (fun i => (i % 2 ^ 32).toNat))).getD j []).getD i 0 % 2 ^ 32 := by
  have hrows : ∀ l ∈ done.map (fun x => x.2.map (fun i => (i % 2 ^ 32).toNat)), l.length = 15 := by
    intro l hl
    obtain ⟨x, hx, rfl⟩ := List.mem_map.1 hl
    rw [List.length_map, hlanes x hx]
  have hlen : (done.map (fun x => x.2.map (fun i => (i % 2 ^ 32).toNat))).flatten.length = lanesOf 2 := by
    rw [List.length_flatten, List.eq_replicate_of_mem (a := 15) (l := (done.map _).map _), List.sum_replicate]
    · simp [hgroups, lanesOf]
    · intro n hn
      obtain ⟨l, hl, rfl⟩ := List.mem_map.1 hn
      exact hrows l hl
  rw [axbPack, laneBits_packRow _ hlen, getD_flatten_uniform 0 _ hrows _ _ hi]
  rfl
end

/-- A group of an AXB row after some of its lanes are written. -/
def mixGroup (old : Row) (ws : List (Option Val)) (j : Nat) : Int × List Int :=
  let es := (List.range 15).map (fun i => (sextInt (laneBits old 2 (15 * j + i)) 32, ws.getD (15 * j + i) none))
  if es.all (fun e => e.2.isNone) then (groupExp old j, es.map (·.1))
  else axbGroup (groupExp old j) (es.map (fun e =>
    match e.2 with | some r => ((0 : Int), r) | none => (e.1, valOfInt 0 0)))

theorem axbMix_eq (old : Row) (ws : List (Option Val)) : axbMix old ws = axbPack
    ((List.range 4).map (mixGroup old ws)) :=
  rfl

theorem length_mixGroup (old : Row) (ws : List (Option Val)) (j : Nat) : (mixGroup old ws j).2.length = 15 := by
  unfold mixGroup
  dsimp only
  split
  · simp
  · simp [axbGroup]

/-- A group of which no lane is written keeps its exponent and its lanes. -/
theorem mixGroup_unwritten {old : Row} {ws : List (Option Val)} {j : Nat}
    (h : ∀ i < 15, ws.getD (15 * j + i) none = none) :
    mixGroup old ws j = (groupExp old j, (List.range 15).map (fun i => sextInt (laneBits old 2 (15 * j + i)) 32))
        := by
  unfold mixGroup
  dsimp only
  rw [if_pos]
  · simp
  · rw [List.all_eq_true]
    intro e he
    obtain ⟨i, hi, rfl⟩ := List.mem_map.1 he
    rw [h i (List.mem_range.1 hi)]
    rfl

theorem sextInt_code_byte (x : Nat) : sextInt (sextInt x 8 % 256).toNat 8 = sextInt x 8 := by
  unfold sextInt
  split <;> split <;> omega

theorem sextInt_code_word {x : Nat} (hx : x < 2 ^ 32) : (sextInt x 32 % 2 ^ 32).toNat % 2 ^ 32 = x := by
  unfold sextInt
  split <;> omega

/-- `axbMix` leaves a group of which no lane is written as it was. -/
theorem axbMix_unwritten {old : Row} {ws : List (Option Val)} {j : Nat} (hj : j < 4)
    (h : ∀ i < 15, ws.getD (15 * j + i) none = none) :
    groupExp (axbMix old ws) j = groupExp old j ∧
      ∀ i < 15, laneBits (axbMix old ws) 2 (15 * j + i) = laneBits old 2 (15 * j + i) := by
  have hgroups : ((List.range 4).map (mixGroup old ws)).length = 4 := by simp
  have hlanes : ∀ x ∈ (List.range 4).map (mixGroup old ws), x.2.length = 15 := by
    intro x hx
    obtain ⟨k, -, rfl⟩ := List.mem_map.1 hx
    exact length_mixGroup ..
  have hget {β : Type} (f : Int × List Int → β) (x : β) :
      (((List.range 4).map (mixGroup old ws)).map f).getD j x = f (mixGroup old ws j) := by
    rw [List.getD_eq_getElem?_getD]
    simp [hj]
  rw [axbMix_eq]
  constructor
  · rw [groupExp_axbPack hgroups, hget, mixGroup_unwritten h]
    exact sextInt_code_byte _
  · intro i hi
    rw [laneBits_axbPack hgroups hlanes hi, hget, mixGroup_unwritten h, List.getD_eq_getElem?_getD]
    simpa [hi] using sextInt_code_word (laneBits_lt old 2 (15 * j + i))

theorem axb_eq_two {a : Nat} (h : isAxb a = true) : a = 2 := by simpa [isAxb] using h

end Sys2Proof.Machine

open Sys2Proof Sys2Proof.Machine

/-- Settles O13: the lane codes that each word lands, written lane by lane. -/
theorem vMoves : Obligations.VMoves := by
  unfold Obligations.VMoves
  constructor
  · intro s h t d a b u hg ht ty n ra haxb
    have hone : ∀ x ∈ [t.toNat], x < tilesOf s.m := by simpa using ht
    have hcode : ∀ k, laneBits ra ty k < 2 ^ laneW ty := laneBits_lt ra ty
    refine ⟨?sel, fun hx => ?bcast, fun hx hin => ?get, fun hx hout => ?getOut, fun hx hn hin => ?put,
      fun hx hn hout => ?putOut, fun hu hty => ?mov, fun hu hty => ?movOther, fun hu => ?movOut, ?perm⟩
    case sel =>
      refine sendsRow_lanes (f := fun j => if valIsZero (laneVal ra ty j) then
        laneBits (rowV s.m 2 t.toNat (rowNo t d)) ty j else laneBits (rowV s.m 1 t.toNat (rowNo t b)) ty j) ?_ ?_
      · rw [exec_vSel, execVSel, runWord_true _ hg, vCheck_ok _ _ _ ht]
        dsimp only
        rw [if_neg (by simp [ty] at haxb; simp [haxb]), srcVals, srcCodes, srcCodes, laneVals, laneCodes, laneCodes,
          List.map_map, List.zip, zipWith_map_range, zipWith_map_range]
        congr 4
        funext j
        show (if (!valIsZero (laneVal ra ty j)) = true then laneBits (rowV s.m 1 t.toNat (rowNo t b)) ty j
          else laneBits (rowV s.m 2 t.toNat (rowNo t d)) ty j) = _
        cases valIsZero (laneVal ra ty j) <;> rfl
      · intro j _
        split <;> exact laneBits_lt _ _ _
    case bcast =>
      refine sendsRow_codes ?_
      rw [exec_vBcast, execVBcast, runWord_true _ hg]
      dsimp only
      rw [vCheck_pass hone (by simpa using hx) rfl, vMove_codes haxb, allLanes_eq]
    case get =>
      refine sendsRow_lanes ?_ fun j _ => hcode _
      rw [exec_vGet, execVGet, runWord_true _ hg]
      dsimp only
      rw [vCheck_pass hone (by simpa using hx) (decide_eq_true hin), vMove_codes haxb, allLanes_eq]
      rfl
    case getOut =>
      rw [exec_vGet, execVGet, runWord_true _ hg]
      dsimp only
      rw [vCheck_refused hone (by simpa using hx) (decide_eq_false (Nat.not_lt.2 hout))]
    case put =>
      obtain ⟨r, hr, hl⟩ := sendsRow_codes (i := .vPut h t d a b) (s := s) (t := t) (d := d) (lat := 2)
        (f := fun j => if j = (rdS s.m 1 b).val.toNat then scalarCode ty (tileSat s.m t.toNat) (rdS s.m 0 a).val
          else laneBits (rowV s.m 2 t.toNat (rowNo t d)) ty j) (by
        rw [exec_vPut, execVPut, runWord_true _ hg]
        dsimp only
        rw [vCheck_pass hone (by simp [hx, hn]) (decide_eq_true hin), if_neg (by simp [ty] at haxb; simp [haxb]),
          laneCodes, set_map_range]
        rfl)
      refine ⟨r, hr, fun j hj => (hl j hj).trans ?_⟩
      split
      · rfl
      · exact Nat.mod_eq_of_lt (laneBits_lt _ _ _)
    case putOut =>
      rw [exec_vPut, execVPut, runWord_true _ hg]
      dsimp only
      rw [vCheck_refused hone (by simp [hx, hn]) (decide_eq_false (Nat.not_lt.2 hout))]
    case mov =>
      refine sendsRow_lanes ?_ fun j _ => laneBits_lt _ _ _
      rw [exec_vMov, execVMov, runWord_true _ hg]
      dsimp only
      rw [vCheck_pass (by simp [ht, hu]) (by simp) rfl, if_pos ⟨hty.symm, by simp [ty] at haxb; simp [haxb]⟩]
      rfl
    case movOther =>
      refine Exists.imp (fun r hr => hr.1) (sendsRow_codes (f := fun j => laneConv ty (tileSat s.m t.toNat)
        (if j < lanesOf (tileType s.m u.toNat) then
          laneVal (rowV s.m 0 t.toNat (64 * u.toNat + a.toNat)) (tileType s.m u.toNat) j else valOfInt 0 0)) ?_)
      rw [exec_vMov, execVMov, runWord_true _ hg]
      dsimp only
      rw [vCheck_pass (by simp [ht, hu]) (by simp) rfl, if_neg (fun h => hty h.1.symm),
        if_neg (by simp [ty] at haxb; simp [haxb]), List.map_map]
      rfl
    case movOut =>
      rw [exec_vMov, execVMov, runWord_true _ hg]
      dsimp only
      rw [vCheck, if_pos (by simp [hu])]
    case perm =>
      refine sendsRow_lanes ?_ ?_
      · rw [exec_vPerm, execVPerm, runWord_true _ hg, vCheck_ok _ _ _ ht]
        dsimp only
        rw [vMove_codes haxb, srcVals, laneVals, List.map_map, List.map_map]
        rfl
      · intro j _
        split
        · exact hcode _
        · positivity
  · intro s h t d a b u hg ht haxb x n ra rd stays
    have hone : ∀ x ∈ [t.toNat], x < tilesOf s.m := by simpa using ht
    have hty : tileType s.m t.toNat = 2 := axb_eq_two haxb
    have hlanes : lanesOf (tileType s.m t.toNat) = 60 := by rw [hty]; rfl
    refine ⟨?sel, ?perm, fun hx => ?bcast, fun hn hin => ?get, fun hx hn hin => ?put, fun hu => ?mov⟩
    case sel =>
      refine ⟨_, ?_, fun j hj hz => axbMix_unwritten (old := rd) (ws := List.zipWith
        (fun (p : Bool) (x : Val) => if p then some x else none)
        ((srcVals s.m 0 t a).map (fun x => !(valIsZero x))) (srcVals s.m 1 t b)) hj fun i hi => ?_⟩
      · rw [exec_vSel, execVSel, runWord_true _ hg, vCheck_ok _ _ _ ht]
        dsimp only
        rw [if_pos haxb]
        rfl
      · have hin : 15 * j + i < lanesOf (tileType s.m t.toNat) := by omega
        rw [srcVals, srcVals, laneVals, laneVals, List.map_map, zipWith_map_range, List.getD_eq_getElem?_getD,
          List.getElem?_map, List.getElem?_range hin]
        have hzero : valIsZero
            (laneVal (rowV s.m 0 t.toNat (64 * t.toNat + a.toNat)) (tileType s.m t.toNat) (15 * j + i))
            = true := by rw [hty]; exact hz i hi
        simp [hzero]
    case perm =>
      refine ⟨((srcVals s.m 1 t b).map (permIndex (lanesOf (tileType s.m t.toNat)))).map (fun i => match i with
        | some j => laneVal ra (tileType s.m t.toNat) j | none => valOfInt 0 0), ?_, ?_⟩
      · simp [srcVals, laneVals, hlanes]
      · rw [exec_vPerm, execVPerm, runWord_true _ hg, vCheck_ok _ _ _ ht]
        dsimp only
        rw [vMove_axb haxb]
        rfl
    case bcast =>
      rw [exec_vBcast, execVBcast, runWord_true _ hg]
      dsimp only
      rw [vCheck_pass hone (by simpa using hx) rfl, vMove_axb haxb, allLanes, hlanes, hty]
      rfl
    case get =>
      rw [exec_vGet, execVGet, runWord_true _ hg]
      dsimp only
      rw [vCheck_pass hone (by simpa using hn) (decide_eq_true (by rw [hlanes]; exact hin)), vMove_axb haxb, allLanes,
        hlanes, hty]
      rfl
    case put =>
      refine ⟨_, ?_, fun j hj hne => axbMix_unwritten (old := rd) (ws := (List.range 60).map (fun j =>
        if j = n.val.toNat then some (scalarVal (tileType s.m t.toNat) x.val) else none)) hj fun i hi => ?_⟩
      · rw [exec_vPut, execVPut, runWord_true _ hg]
        dsimp only
        rw [vCheck_pass hone (by simp [hx, hn, x, n]) (decide_eq_true (by rw [hlanes]; exact hin)), if_pos haxb]
        rfl
      · rw [List.getD_eq_getElem?_getD, List.getElem?_map, List.getElem?_range (by omega)]
        have hother : 15 * j + i ≠ n.val.toNat := by omega
        simp [hother]
    case mov =>
      refine ⟨(List.range (lanesOf (tileType s.m t.toNat))).map (fun j => if j < lanesOf (tileType s.m u.toNat) then
        laneVal (rowV s.m 0 t.toNat (64 * u.toNat + a.toNat)) (tileType s.m u.toNat) j else valOfInt 0 0), ?_, ?_⟩
      · simp [hlanes]
      · rw [exec_vMov, execVMov, runWord_true _ hg]
        dsimp only
        rw [vCheck_pass (by simp [ht, hu]) (by simp) rfl, if_neg (by simp [haxb]), if_pos haxb]
end

section
/-!
PROOFS. How an L word reaches memory (spec/21 R312): the checks in their order, and loads, stores, rows,
    allocations and
windows once they have passed.
-/

namespace Sys2Proof.Machine

/-! ### The checks of R312 -/

theorem noPoison_of_clean {m : Mach} {xs : List Scalar} (h : ∀ x ∈ xs, x.pois = false) (f : Mach → Mach) :
    noPoison m xs f = f m := by
  have hnone : poisonOf xs = none := List.find?_eq_none.2 fun x hx => by simp [h x hx]
  rw [noPoison, hnone]

section
variable {m : Mach} {va : Word} {align size : Nat} {acc : Acc} {reads : Bool}

/-- Step 2 of R312 refuses an address that is not aligned. -/
theorem access_misaligned (h : va.toNat % align ≠ 0) :
    access m va align size acc reads = (m, .fail 0x0A (finfoHere m)) := if_pos h

variable {classes : BitVec 5} {f : Mach → Nat → Bool → Mach} {m1 : Mach}

theorem accessing_ok {pa : Nat} {mir : Bool} (h : access m va align size acc reads = (m1, .ok pa mir))
    (hf : heldByFence m1 classes (fun x => covers m1 x m1.iss.core pa) = false) :
    accessing m va align size acc reads classes f = f m1 pa mir := by
  rw [accessing, h]
  dsimp only
  rw [hf, if_neg (by simp)]

theorem accessing_fail {c : Byte} {i : Word} (h : access m va align size acc reads = (m1, .fail c i)) :
    accessing m va align size acc reads classes f = trapAt m1 c va i none := by
  rw [accessing, h]

theorem accessing_stall (h : access m va align size acc reads = (m1, .stall)) :
    accessing m va align size acc reads classes f = stallBundle m1 := by
  rw [accessing, h]

theorem accessing_misaligned (h : va.toNat % align ≠ 0) :
    accessing m va align size acc reads classes f = trapA m 0x0A va := accessing_fail (access_misaligned h)
end

theorem accessingAll_ok {m m1 : Mach} {vas : List Word} {acc : Acc} {reads : Bool} {classes : BitVec 5}
    {f : Mach → List (Word × Nat × Bool) → Mach} {ps : List (Word × Nat × Bool)}
    (h : reachAll m acc reads vas = (m1, .ok ps))
    (hf : heldByFence m1 classes (fun x => ps.any (fun q => covers m1 x m1.iss.core q.2.1)) = false) :
    accessingAll m vas acc reads classes f = f m1 ps := by
  rw [accessingAll, h]
  dsimp only
  rw [hf, if_neg (by simp)]

/-- A word of no fence class is held by none. -/
theorem heldByFence_zero (m : Mach) (cov : Nat → Bool) : heldByFence m 0 cov = false := by
  unfold heldByFence
  rw [List.any_eq_false]
  intro a _
  split
  · simp
  · simp

/-! ### Addresses and operands -/

theorem offImm3_eq (i : BitVec 3) (size : Nat) : offImm3 i size = BitVec.ofInt 64 (i.toInt * size) := by
  rw [offImm3, sextInt_eq_toInt_ofNat, BitVec.ofNat_toNat, BitVec.setWidth_eq]
  rfl

theorem offOff3_eq (o : BitVec 3) : offOff3 o = BitVec.ofNat 64 (256 * o.toNat) := by rw [offOff3, Nat.mul_comm]

theorem sizeOf_eq_sixteen_iff {sz : BitVec 3} (h : sz.toNat ≤ 4) : sizeOf sz = 16 ↔ sz.toNat = 4 := by
  unfold sizeOf
  constructor
  · intro hs
    interval_cases sz.toNat <;> simp_all
  · intro hs
    rw [hs]
    rfl

theorem pairVal_lt_pow {lo hi : Scalar} {size : Nat} (hs : size ≤ 16) :
    pairVal lo hi size = (lo.val.toNat + (if size = 16 then hi.val.toNat * 2 ^ 64 else 0)) % 256 ^ size := by
  unfold pairVal
  split
  next h =>
    subst h
    rw [Nat.mod_eq_of_lt]
    have h1 := lo.val.isLt
    have h2 := hi.val.isLt
    omega
  next => rw [Nat.add_zero]

/-- An action without data. -/
theorem partAct_zero (kind : ActKind) (pa n : Nat) (va : Word) (mir : Bool) (part : Nat) :
    partAct kind pa n 0 va mir part =
      { tag := 0, part := part, kind := kind, gran := pa / 16 * 16, mask := byteMask (pa % 16) n, va := va, mir :=
          mir } := by
  rw [partAct, Nat.zero_mul]
  rfl

theorem startLoad_eq (m : Mach) (va : Word) (pa size : Nat) (ds : List (BitVec 6)) (spec : Bool) :
    startLoad m va pa size ds spec =
      addActs (addPend m ⟨m.tag, .load (pa % 16) size, sDst ds, 1, [], [], false, spec, none, va, finfoHere m⟩)
        [{ tag := 0, kind := .ld, gran := pa / 16 * 16, mask := byteMask (pa % 16) size, va := va, spec := spec }]
            := by
  rw [startLoad, partAct_zero]

/-! ### The words behind their guard and operands -/

section
variable {s : State} {h : Hd} {d a b : BitVec 6} {sz i : BitVec 3} (hg : guardTrue s.m h = true)
  (ha : (rdS s.m 0 a).pois = false)
include hg ha

theorem exec_lLd_plain : exec (.lLd h d a sz false i) s = .next { s with
    m := accessing s.m ((rdS s.m 0 a).val + offImm3 i (sizeOf sz)) (sizeOf sz) (sizeOf sz) accRead true 1 fun m pa
        _ =>
      startLoad m ((rdS s.m 0 a).val + offImm3 i (sizeOf sz)) pa (sizeOf sz) (loadDst d (sizeOf sz)) false } := by
  rw [exec_lLd, execLLd, runWord_true _ hg]
  dsimp only
  rw [if_neg (by simp), noPoison_of_clean (by simpa using ha)]

/-- What a speculative load does with the answer of its access: a failure poisons its destination (spec/04 R81). -/
def specAnswer (va : Word) (size : Nat) (d : BitVec 6) : Mach × MemRes → Mach
  | (m, .fail c _) => specPoison m va (loadDst d size) c
  | (m, .stall) => stallBundle m
  | (m, .ok pa _) =>
    if heldByFence m 1 (fun x => covers m x m.iss.core pa) then stallBundle m
    else startLoad m va pa size (loadDst d size) true

theorem exec_lLd_spec : exec (.lLd h d a sz true i) s = .next { s with
    m := specAnswer ((rdS s.m 0 a).val + offImm3 i (sizeOf sz)) (sizeOf sz) d
      (access s.m ((rdS s.m 0 a).val + offImm3 i (sizeOf sz)) (sizeOf sz) (sizeOf sz) accRead true) } := by
  rw [exec_lLd, execLLd, runWord_true _ hg]
  dsimp only
  rw [if_pos rfl, if_neg (by simp [ha])]
  rfl

theorem exec_lSt_clean (hsz : sz.toNat ≤ 4) (hd : (rdS s.m 1 d).pois = false)
    (hpair : sz.toNat = 4 → (rdS s.m 2 (d + 1)).pois = false) :
    exec (.lSt h d a sz i) s = .next { s with
      m := accessing s.m ((rdS s.m 0 a).val + offImm3 i (sizeOf sz)) (sizeOf sz) (sizeOf sz) accWrite false 2
        fun m pa mir => addActs m
            [partAct .st pa (sizeOf sz) (pairVal (rdS s.m 1 d) (rdS s.m 2 (pairOf d)) (sizeOf sz))
          ((rdS s.m 0 a).val + offImm3 i (sizeOf sz)) mir 0] } := by
  rw [exec_lSt, execLSt, runWord_true _ hg]
  dsimp only
  rw [noPoison_of_clean]
  intro y hy
  by_cases hs : sizeOf sz = 16
  · have hp := hpair ((sizeOf_eq_sixteen_iff hsz).1 hs)
    simp only [hs, if_true, List.mem_append, List.mem_cons, List.not_mem_nil, or_false] at hy
    rcases hy with (rfl | rfl) | rfl
    exacts [ha, hd, hp]
  · simp only [hs, if_false, List.append_nil, List.mem_cons, List.not_mem_nil, or_false] at hy
    rcases hy with rfl | rfl
    exacts [ha, hd]

theorem runWord_amo (op : Nat) (z : Bool) (hb : (rdS s.m 1 b).pois = false) :
    runWord s h (fun m => amoWord m op d a b z) = .next { s with
      m := accessing s.m (rdS s.m 0 a).val (if z then 4 else 8) (if z then 4 else 8) accAtomic true 3 fun m pa mir =>
        startAtomic m (rdS s.m 0 a).val pa (if z then 4 else 8) mir [d] (.amo op (pa % 16) (if z then 4 else 8)
          (BitVec.ofNat 64 ((rdS s.m 1 b).val.toNat % 256 ^ (if z then 4 else 8)))) } := by
  rw [runWord_true _ hg, amoWord, noPoison_of_clean (by simp [ha, hb])]

theorem exec_lWin_access (hb : (rdS s.m 1 b).pois = false) (hx : (rdS s.m 0 a).val.toNat < 4096) :
    exec (.lWin h d a b) s = .next { s with
      m := accessing s.m (rdS s.m 1 b).val 32 32 accRead true 0 fun m pa mir => addActs
        (addPend m ⟨m.tag, .win (rdS s.m 0 a).val.toNat false, sDst [d], 2, [], [], false, false, none,
            (rdS s.m 1 b).val,
          finfoHere m⟩)
        [{ partAct .ld pa 16 0 (rdS s.m 1 b).val mir 0 with aux := 2 },
          { partAct .ld (pa + 16) 16 0 (rdS s.m 1 b).val mir 1 with aux := 2 }] } := by
  rw [exec_lWin, execLWin, runWord_true _ hg]
  dsimp only
  rw [noPoison_of_clean (by simp [ha, hb]), if_neg (by simp only [ne_eq, not_not]; omega)]
  rfl
end

end Sys2Proof.Machine

open Sys2Proof Sys2Proof.Machine

/-- Settles O15: the checks of R312 pass, fail or stall, and the word is what stands behind them. -/
theorem loadsAndStores : Obligations.LoadsAndStores := by
  unfold Obligations.LoadsAndStores
  refine ⟨?_, ?_, ?_⟩
  · intro s h d a sz i hg hsz ha size va ds
    have hplain := exec_lLd_plain (d := d) (sz := sz) (i := i) hg ha
    have hspec := exec_lLd_spec (d := d) (sz := sz) (i := i) hg ha
    rw [offImm3_eq] at hplain hspec
    refine ⟨fun m1 pa mir sp hacc hf => ?_, fun m1 c f hacc => ⟨?_, ?_⟩, fun m1 sp hacc => ?_⟩
    · cases sp
      · refine hplain.trans (next_congr ((accessing_ok hacc hf).trans ?_))
        rw [startLoad_eq]
        rfl
      · refine hspec.trans (next_congr ((congrArg (specAnswer va size d) hacc).trans ?_))
        rw [specAnswer, hf, if_neg (by simp), startLoad_eq]
        rfl
    · exact hplain.trans (next_congr (accessing_fail hacc))
    · exact hspec.trans (next_congr (congrArg (specAnswer va size d) hacc))
    · cases sp
      · exact hplain.trans (next_congr (accessing_stall hacc))
      · exact hspec.trans (next_congr (congrArg (specAnswer va size d) hacc))
  · intro s h d a sz i hg hsz ha hd hpair size va x
    have hst := exec_lSt_clean (i := i) hg ha hsz hd hpair
    have hx : pairVal (rdS s.m 1 d) (rdS s.m 2 (pairOf d)) (2 ^ sz.toNat) = x := by
      rw [pairVal_lt_pow (by show 2 ^ sz.toNat ≤ 2 ^ 4; exact Nat.pow_le_pow_right (by norm_num) hsz)]
      simp only [x, show (2 ^ sz.toNat = 16) = (sz.toNat = 4) from propext (sizeOf_eq_sixteen_iff hsz)]
      rfl
    rw [offImm3_eq] at hst
    refine ⟨fun m1 pa mir hacc hf => hst.trans (next_congr ((accessing_ok hacc hf).trans ?_)),
      fun m1 c f hacc => hst.trans (next_congr (accessing_fail hacc))⟩
    rw [← hx]
    rfl
  · intro s h d a b sz i z hg hsz ha va v0
    have hva : (rdS s.m 0 a).val + offImm3 i (2 ^ sz.toNat) = va := by
      rw [offImm3_eq]
      push_cast
      rfl
    refine ⟨fun hmis => ⟨?_, fun hd hpair => ?_⟩, fun hmis hb => ⟨?_, ?_⟩, fun hlow hb hmis => ?_⟩
    · rw [← hva] at hmis ⊢
      exact (exec_lLd_plain hg ha).trans (next_congr (accessing_misaligned hmis))
    · rw [← hva] at hmis ⊢
      exact (exec_lSt_clean hg ha hsz hd hpair).trans (next_congr (accessing_misaligned hmis))
    · exact (runWord_amo hg ha 0 z hb).trans (next_congr (accessing_misaligned hmis))
    · exact (runWord_amo hg ha 6 z hb).trans (next_congr (accessing_misaligned hmis))
    · exact (exec_lWin_access hg ha hb hlow).trans (next_congr (accessing_misaligned hmis))
end

section
/-!
PROOFS. The words of the allocation table and of windows (spec/21 R315, R319, R324, R332).
-/

namespace Sys2Proof.Machine

section
variable {s : State} {h : Hd} {d a b : BitVec 6} (hg : guardTrue s.m h = true) (ha : (rdS s.m 0 a).pois = false)
include hg ha

/-- l.free acts on the LIVE entry of the context whose base s(a) names. -/
theorem exec_lFree_none (he : ownEntry s.m (rdS s.m 0 a).val = none) :
    exec (.lFree h a) s = .next { s with m := trapA s.m 0x11 (rdS s.m 0 a).val } := by
  rw [exec_lFree, execLFree, runWord_true _ hg]
  dsimp only
  rw [noPoison_of_clean (by simpa using ha), he]

theorem exec_lFree_some {e : Alloc} (he : ownEntry s.m (rdS s.m 0 a).val = some e) :
    exec (.lFree h a) s = .next { s with m := addActs s.m [{ tag := 0, kind := .free e.base }] } := by
  rw [exec_lFree, execLFree, runWord_true _ hg]
  dsimp only
  rw [noPoison_of_clean (by simpa using ha), he]

theorem exec_lRenew_none (hb : (rdS s.m 1 b).pois = false) (hy : (rdS s.m 1 b).val.toNat < 2 ^ 32)
    (he : ownEntry s.m (rdS s.m 0 a).val = none) :
    exec (.lRenew h a b) s = .next { s with m := trapA s.m 0x11 (rdS s.m 0 a).val } := by
  rw [exec_lRenew, execLRenew, runWord_true _ hg]
  dsimp only
  rw [noPoison_of_clean (by simp [ha, hb]), if_neg (by simp only [ne_eq, not_not]; omega), he]

theorem exec_lRenew_some {e : Alloc} (hb : (rdS s.m 1 b).pois = false) (hy : (rdS s.m 1 b).val.toNat < 2 ^ 32)
    (hy0 : (rdS s.m 1 b).val.toNat ≠ 0) (hlife : (rdS s.m 1 b).val.toNat ≤ tretOf s.m s.m.iss.core)
    (he : ownEntry s.m (rdS s.m 0 a).val = some e) :
    exec (.lRenew h a b) s = .next { s with
      m := if e.exp ≤ s.m.nowt then trapA s.m 0x10 (rdS s.m 0 a).val
        else addActs s.m
          [{ tag := 0, kind := .renew e.base (rdS s.m 1 b).val.toNat (s.m.nowt + (rdS s.m 1 b).val.toNat) }] } := by
  have hzero : (rdS s.m 1 b).val ≠ 0 := fun h0 => hy0 (by rw [h0]; rfl)
  rw [exec_lRenew, execLRenew, runWord_true _ hg]
  dsimp only
  rw [noPoison_of_clean (by simp [ha, hb]), if_neg (by simp only [ne_eq, not_not]; omega), he]
  dsimp only
  rw [if_neg (not_or.2 ⟨hzero, Nat.not_lt.2 hlife⟩)]

/-- l.alloc: its refusals in their order, then the queued request. -/
theorem exec_lAlloc_checks (hb : (rdS s.m 1 b).pois = false) {x y n sw : Nat} (hx : (rdS s.m 0 a).val.toNat = x)
    (hy : (rdS s.m 1 b).val.toNat = y) (hn : x % 2 ^ 17 = n) (hsw : x / 2 ^ 17 % 8 = sw) :
    exec (.lAlloc h d a b) s = .next { s with
      m := if x / 2 ^ 20 ≠ 0 ∨ y / 2 ^ 32 ≠ 0 then trapW s.m 0x1A
        else if sw = 7 then trapW s.m 0x18
        else if n = 0 ∨ 2 ^ 22 - spbase (getCore s.m s.m.iss.core).partw < 64 * n then trapW s.m 0x11
        else if y % 2 ^ 32 = 0 ∨ tretOf s.m s.m.iss.core < y % 2 ^ 32 then trapW s.m 0x12
        else addActs (addPend s.m ⟨s.m.tag, .regs, sDst [d], 0, [], [], false, false, none, 0, finfoHere s.m⟩)
          [{ tag := 0, kind := .alloc n sw (y % 2 ^ 32) }] } := by
  subst hx hy hn hsw
  rw [exec_lAlloc, execLAlloc, runWord_true _ hg]
  dsimp only
  rw [noPoison_of_clean (by simp [ha, hb])]
end

end Sys2Proof.Machine

open Sys2Proof Sys2Proof.Machine

/-- Settles O18: each refusal by its range, the ranges before it excluded. -/
theorem allocationAndWindows : Obligations.AllocationAndWindows := by
  unfold Obligations.AllocationAndWindows
  constructor
  · intro s h d a b hg ha hb x y n sw room life
    have halloc := exec_lAlloc_checks (d := d) hg ha hb (x := x.toNat) (y := y.toNat) (n := n) (sw := sw) rfl rfl
        rfl rfl
    have hlow (hx : x.toNat < 2 ^ 20) (hy : y.toNat < 2 ^ 32) : ¬(x.toNat / 2 ^ 20 ≠ 0 ∨ y.toNat / 2 ^ 32 ≠ 0) :=
        by omega
    refine ⟨fun hx hy hsw hn hroom hy0 hlife => ?_, fun hbig => ?_, fun hx hy hsw => ?_, fun hx hy hsw hn => ?_,
      fun hx hy hsw hn hroom hlife => ?_, fun he =>
          ⟨exec_lFree_none hg ha he, fun hy => exec_lRenew_none hg ha hb hy he⟩,
      fun e he => ⟨exec_lFree_some hg ha he, fun hy hy0 hlife hexp => ?_, fun hy hy0 hlife hexp => ?_⟩⟩
    · rw [halloc, if_neg (hlow hx hy), if_neg hsw, if_neg (by simp only [room] at hroom; omega), Nat.mod_eq_of_lt hy,
        if_neg (by simp only [life] at hlife; omega)]
      rfl
    · rw [halloc, if_pos (by omega)]
    · rw [halloc, if_neg (hlow hx hy), if_pos hsw]
    · rw [halloc, if_neg (hlow hx hy), if_neg hsw, if_pos hn]
    · rw [halloc, if_neg (hlow hx hy), if_neg hsw, if_neg (by simp only [room] at hroom; omega), Nat.mod_eq_of_lt hy,
        if_pos hlife]
    · exact (exec_lRenew_some hg ha hb hy hy0 hlife he).trans (next_congr (if_neg (Nat.not_le.2 hexp)))
    · exact (exec_lRenew_some hg ha hb hy hy0 hlife he).trans (next_congr (if_pos hexp))
  · intro s h d a b hg ha hb x vb
    refine ⟨fun hx m1 pa mir hacc => ?_, fun hx => ?_⟩
    · exact (exec_lWin_access hg ha hb hx).trans (next_congr (accessing_ok hacc (heldByFence_zero _ _)))
    · rw [exec_lWin, execLWin, runWord_true _ hg]
      dsimp only
      rw [noPoison_of_clean (by simp [ha, hb]), if_pos (by omega)]
end

section
/-!
PROOFS. The words that move rows and tiles (spec/21 R323, R329 to R331).
-/

namespace Sys2Proof.Machine

/-- The blocks of an l.vst: in the tile's own type, or converted by FMTO0 or FMTO1. -/
def vstBlocks (m : Mach) (t : BitVec 2) (r : BitVec 6) (f : BitVec 2) : List Block × Bool :=
  if f = 0 then tileBlocks (tileType m t.toNat) (tileSat m t.toNat) (rowAt m 2 (rowNo t r))
  else rowBlocks (fmtoOf (if f = 1 then m.iss.snap.fmto0 else m.iss.snap.fmto1))
    (laneVals (rowAt m 2 (rowNo t r)) (tileType m t.toNat))

/-- The four parts of an l.radd at their places. -/
def raddActs (row : Row) (ps : List (Word × Nat × Bool)) : List Act :=
  ps.zipIdx.map (fun e =>
    { tag := 0, part := e.2, kind := .radd (BitVec.ofNat 480 (row.data.toNat / 2 ^ (480 * e.2))),
      gran := e.1.2.1, mask := 0xFFFF, va := e.1.1, mir := e.1.2.2 })

section
variable {s : State} {h : Hd} {t : BitVec 2} {r a b : BitVec 6} {o : BitVec 3} {f : BitVec 2}
  (hg : guardTrue s.m h = true)
include hg

theorem rowWords_noTile (ht : tilesOf s.m ≤ t.toNat) :
    exec (.lVld h t r a o) s = .next { s with m := trapW s.m 0x11 } ∧
    exec (.lVst h t r a o f) s = .next { s with m := trapW s.m 0x11 } ∧
    exec (.lRadd h t r a o) s = .next { s with m := trapW s.m 0x11 } ∧
    exec (.lStash h t a b) s = .next { s with m := trapW s.m 0x11 } := by
  refine ⟨?_, ?_, ?_, ?_⟩
  · rw [exec_lVld, execLVld, runWord_true _ hg]
    dsimp only
    rw [if_pos ht]
  · rw [exec_lVst, execLVst, runWord_true _ hg]
    dsimp only
    rw [if_pos ht]
  · rw [exec_lRadd, execLRadd, runWord_true _ hg]
    dsimp only
    rw [if_pos ht]
  · rw [exec_lStash, execLStash, runWord_true _ hg]
    dsimp only
    rw [if_pos ht]

variable (ht : t.toNat < tilesOf s.m) (ha : (rdS s.m 0 a).pois = false)
include ht ha

theorem exec_lVld_access : exec (.lVld h t r a o) s = .next { s with
    m := accessing s.m ((rdS s.m 0 a).val + offOff3 o) 64 64 accRead true 1 fun m pa mir => addActs
      (addPend m ⟨m.tag, .row (rowNo t r), [], 4, [], [{ val := precOf m.iss.snap t.toNat }], false, false, none,
        (rdS s.m 0 a).val + offOff3 o, finfoHere m⟩)
      (blockActs .ld pa 0 ((rdS s.m 0 a).val + offOff3 o) mir 0 ++
        vldRest m (precOf m.iss.snap t.toNat) ((rdS s.m 0 a).val + offOff3 o)) } := by
  rw [exec_lVld, execLVld, runWord_true _ hg]
  dsimp only
  rw [if_neg (Nat.not_le.2 ht), noPoison_of_clean (by simpa using ha)]
  rfl

theorem exec_lVst_aligned
    (hfmt : ¬(f ≠ 0 ∧ fmtoBad (fmtoOf (if f = 1 then s.m.iss.snap.fmto0 else s.m.iss.snap.fmto1)) = true)) :
    exec (.lVst h t r a o f) s = .next { s with
      m := if ((rdS s.m 0 a).val + offOff3 o).toNat % 64 ≠ 0 then trapA s.m 0x0A ((rdS s.m 0 a).val + offOff3 o)
        else accessingAll s.m (blockVas ((rdS s.m 0 a).val + offOff3 o) (vstBlocks s.m t r f).1.length) accWrite
            false 2
          fun m ps => if (vstBlocks s.m t r f).2 then trapAt m 0x1B 0 (finfoHere m) (some t.toNat)
            else storeBlocks m ps (vstBlocks s.m t r f).1 } := by
  rw [exec_lVst, execLVst, runWord_true _ hg]
  dsimp only
  rw [if_neg (Nat.not_le.2 ht), noPoison_of_clean (by simpa using ha), if_neg hfmt]
  rfl

theorem exec_lRadd_misaligned (hmis : ((rdS s.m 0 a).val + offOff3 o).toNat % 64 ≠ 0) :
    exec (.lRadd h t r a o) s = .next { s with m := trapA s.m 0x0A ((rdS s.m 0 a).val + offOff3 o) } := by
  rw [exec_lRadd, execLRadd, runWord_true _ hg]
  dsimp only
  rw [if_neg (Nat.not_le.2 ht), noPoison_of_clean (by simpa using ha), if_pos hmis]

theorem exec_lRadd_type (hal : ((rdS s.m 0 a).val + offOff3 o).toNat % 64 = 0) (hty : tileType s.m t.toNat ≠ 0) :
    exec (.lRadd h t r a o) s = .next { s with m := trapW s.m 0x1A } := by
  rw [exec_lRadd, execLRadd, runWord_true _ hg]
  dsimp only
  rw [if_neg (Nat.not_le.2 ht), noPoison_of_clean (by simpa using ha), if_neg (by simpa using hal), if_pos hty]

theorem exec_lRadd_ok (hal : ((rdS s.m 0 a).val + offOff3 o).toNat % 64 = 0) (hty : tileType s.m t.toNat = 0)
    {m1 : Mach} {ps : List (Word × Nat × Bool)}
    (hreach : raddReach s.m (blockVas ((rdS s.m 0 a).val + offOff3 o) 4) = (m1, .ok ps))
    (hf : heldByFence m1 2 (fun x => ps.any (fun q => covers m1 x m1.iss.core q.2.1)) = false) :
    exec (.lRadd h t r a o) s = .next { s with m := addActs m1 (raddActs (rowAt s.m 2 (rowNo t r)) ps) } := by
  rw [exec_lRadd, execLRadd, runWord_true _ hg]
  dsimp only
  rw [if_neg (Nat.not_le.2 ht), noPoison_of_clean (by simpa using ha), if_neg (by simpa using hal),
    if_neg (by simpa using hty), hreach]
  dsimp only
  rw [hf, if_neg (by simp)]
  rfl
end
end Sys2Proof.Machine

open Sys2Proof Sys2Proof.Machine

/-- Settles O17: behind the tile, the operands and the alignment each word is the reach of its blocks, then its
    actions. -/
theorem rowMemoryWords : Obligations.RowMemoryWords := by
  unfold Obligations.RowMemoryWords
  constructor
  · intro s h t r a b o f hg ha hb va ty row fo bs
    refine ⟨fun ht => rowWords_noTile hg ht, fun ht => ?_⟩
    have hva : (rdS s.m 0 a).val + offOff3 o = va := by rw [offOff3_eq]
    have hvld := exec_lVld_access (r := r) (o := o) hg ht ha
    have hvst := exec_lVst_aligned (r := r) (o := o) (f := f) hg ht ha
    have hmis := exec_lRadd_misaligned (r := r) (o := o) hg ht ha
    have hty := exec_lRadd_type (r := r) (o := o) hg ht ha
    have hradd {m1 : Mach} {ps : List (Word × Nat × Bool)} := exec_lRadd_ok (r := r) (o := o) (m1 := m1) (ps := ps)
        hg ht ha
    rw [hva] at hvld hvst hmis hty hradd
    refine ⟨fun m1 pa mir hacc hf => ?_, fun m1 ps hfmt hal hreach hf hsub => ?_, fun m1 ps hal hty hreach hf => ?_,
      fun hal hne => hty hal hne, fun hm => ⟨?_, fun hf => ?_, hmis hm⟩⟩
    · exact hvld.trans (next_congr (accessing_ok hacc hf))
    · refine (hvst fun h => absurd ((hfmt h.1).symm.trans h.2) (by simp)).trans (next_congr ?_)
      have hsub' : ¬(vstBlocks s.m t r f).2 = true := by
        rw [show (vstBlocks s.m t r f).2 = false from hsub]
        simp
      rw [if_neg (by simpa using hal)]
      exact (accessingAll_ok hreach hf).trans (if_neg hsub')
    · exact hradd hal hty hreach hf
    · exact hvld.trans (next_congr (accessing_misaligned hm))
    · exact (hvst fun h => h.1 hf).trans (next_congr (if_pos hm))
  · intro s h t a b hg ht ha hb va vb f0 f1 rows plain turned bs na hf0 hf1 hva hvb m1 ps hreach hf hsub
    rw [exec_lStash, execLStash, runWord_true _ hg]
    dsimp only
    rw [if_neg (Nat.not_le.2 ht), noPoison_of_clean (by simp [ha, hb]), if_neg
        (by simp [f0, f1] at hf0 hf1; simp [hf0, hf1]),
      if_neg (by simpa using hva), if_neg (by simpa using hvb)]
    exact next_congr ((accessingAll_ok hreach hf).trans (if_neg (by rw [hsub]; simp)))
end

section
/-!
PROOFS. One block of an l.radd at its adder (spec/11 R191, spec/12 R213): which NaN a sum gives.
-/

namespace Sys2Proof.Machine

/-- A commit of a whole granule puts all its bytes in place, whatever key the page has. -/
theorem mem_commitKeyed_whole (m : Mach) (a : Nat) (key : Option Nat) (g : Nat) (data : Gran) :
    (commitKeyed m a key g 0xFFFF data).mem = writeNat m.mem g 16 (0xFFFF : BitVec 16).toNat data.toNat := by
  rw [← mem_commitWrite m a]
  unfold commitKeyed
  rw [show ((0xFFFF : BitVec 16) != 0xFFFF) = false from rfl, Bool.and_false, if_neg Bool.false_ne_true]
  cases key with
  | none => rfl
  | some k => dsimp only; split <;> rfl

/-- The first granule of a committed block holds the low bytes of the block. -/
theorem readByte_commitBlock_head (m : Mach) (a : Nat) (key : Option Nat) (g : Nat) (b : Block) (j : Nat) (h : j < 16) :
    readByte (commitBlock m a key g b).mem (g + j) = BitVec.ofNat 8 (b.toNat % 2 ^ 128 / 256 ^ j) := by
  have hone : ∀ i < 16, (0xFFFF : BitVec 16).toNat / 2 ^ i % 2 = 1 := by decide
  obtain ⟨g1, g2, g3, e⟩ : ∃ g1 g2 g3, blockGrans b = [BitVec.ofNat 128 (b.toNat / 2 ^ (128 * 0)), g1, g2, g3] :=
    ⟨_, _, _, rfl⟩
  unfold commitBlock
  rw [e]
  simp only [List.zipIdx_cons, List.zipIdx_nil, List.foldl_cons, List.foldl_nil]
  rw [readByte_commitKeyed_out _ _ _ _ _ _ _ (by omega), readByte_commitKeyed_out _ _ _ _ _ _ _ (by omega),
    readByte_commitKeyed_out _ _ _ _ _ _ _ (by omega), mem_commitKeyed_whole, Nat.mul_zero, Nat.add_zero,
    readByte_writeNat_in _ _ _ _ _ _ h, if_pos (hone j h)]
  simp

/-- The first value of a block of 15 FP32 values, as memory holds it once the block is committed. -/
theorem blkElem_of_commitBlock {m m' : Mach} {a a' : Nat} {key key' : Option Nat} {g : Nat} {b b' : Block}
    (h : (commitBlock m a key g b).mem = (commitBlock m' a' key' g b').mem) :
    blkElem b ⟨15, 32, .fp fp32⟩ 0 = blkElem b' ⟨15, 32, .fp fp32⟩ 0 := by
  have byte (j : Nat) (hj : j < 16) : b.toNat % 2 ^ 128 / 256 ^ j % 256 = b'.toNat % 2 ^ 128 / 256 ^ j % 256 := by
    have e := readByte_commitBlock_head m a key g b j hj
    rw [h, readByte_commitBlock_head m' a' key' g b' j hj] at e
    simpa using (congrArg BitVec.toNat e).symm
  have b4 := byte 4 (by decide)
  have b5 := byte 5 (by decide)
  have b6 := byte 6 (by decide)
  have b7 := byte 7 (by decide)
  change b.toNat / 2 ^ 32 % 2 ^ 32 = b'.toNat / 2 ^ 32 % 2 ^ 32
  omega

/-- An l.radd block that is first among those of its block commits what its sum gives. -/
theorem exec_raddBlockApply_ok {s : State} {die idx agent : Nat} {a : Act} {lanes : BitVec 480} {b : Block}
    (hrun : s.m.phase = .running) (hq : (smGet [] s.m.adders die)[idx]? = some (agent, a)) (hk : a.kind = .radd lanes)
    (hfirst : ((smGet [] s.m.adders die).take idx).any (fun x => sameGran x.2 a) = false)
    (hpend : (getAgent s.m agent).pend.any (fun x => x.tag < a.tag && sameGran x a) = false) (hmir : a.mir = false)
    (hb : raddBlock s.m (actKey s.m a) a.gran lanes = .ok b) :
    exec (.raddBlockApply die idx) s = .next ⟨commitBlock
      { s.m with adders := smPut [] s.m.adders die ((smGet [] s.m.adders die).eraseIdx idx) } agent (actKey s.m a) a.gran b,
      s.trust⟩ := by
  simp [execRaddBlockApply, whenRunning, onMach, hrun, hq, hk, hfirst, hpend, hb, noteMirror, hmir]

/-- An l.radd block whose first lane is a NaN with a payload. -/
def nanAct : Act := { tag := 5, kind := .radd 0x7F800001, gran := 0x10000, mask := 0xFFFF }

/-- A running package in which that block is at the adder of die 0, and memory holds a block of zeros at its place. -/
def nanMach : Mach :=
  { phase := .running, adders := [(0, [(0, nanAct)])],
    mem := [(0x10000, 0x50), (0x10001, 0x78), (0x10003, BitVec.ofNat 8 (blkCheck 0x7850))] }

/-- The model's sum has the canonical NaN in its first lane. -/
theorem raddBlock_nanMach : ∃ b, raddBlock nanMach none 0x10000 0x7F800001 = .ok b ∧
    blkElem b ⟨15, 32, .fp fp32⟩ 0 = 0x7FC00000 := by
  have h : (match raddBlock nanMach none 0x10000 0x7F800001 with
    | .ok b => blkElem b ⟨15, 32, .fp fp32⟩ 0 == 0x7FC00000
    | .error _ => false) = true := by decide +kernel
  split at h
  · next b e => exact ⟨b, e, by simpa using h⟩
  · cases h

end Sys2Proof.Machine

open Sys2Proof Sys2Proof.Machine

/-- Refutes O16: the model gives the canonical NaN (log 12) where a lane of the sum is a NaN, the statement the NaN of the
operand with its payload: 0x7F80_0001 added to +0. -/
theorem not_atomics : ¬ Obligations.Atomics := by
  unfold Obligations.Atomics
  rintro ⟨-, -, -, radd⟩
  obtain ⟨applied, -⟩ := radd ⟨nanMach, {}⟩ 0 0 0 nanAct 0x7F800001 rfl rfl rfl (by decide +kernel) (by decide +kernel) rfl
    (by decide +kernel)
  obtain ⟨b, he, -, -, -, -, hb⟩ := applied (by decide +kernel) (by decide +kernel) (by decide +kernel) (by decide +kernel)
  obtain ⟨b', hr, hb'⟩ := raddBlock_nanMach
  have stated : blkElem b ⟨15, 32, .fp fp32⟩ 0 = 0x7F800001 := (hb 0 (by decide)).trans (by decide +kernel)
  have model := exec_raddBlockApply_ok (s := ⟨nanMach, {}⟩) (die := 0) (idx := 0) (agent := 0) (a := nanAct) rfl rfl rfl
    (by decide +kernel) (by decide +kernel) rfl hr
  injection he.symm.trans model with same
  replace same := congrArg (fun t : State => t.m.mem) same
  rw [blkElem_of_commitBlock same, hb'] at stated
  exact absurd stated (by decide)

end

section
/-!
PROOFS. The engine command words (spec/21 R314, spec/12 R205).
-/

namespace Sys2Proof.Machine

/-- The completion word of a command: none, or one whose place is writable. -/
def CwReached (m : Mach) (d : BitVec 6) (w : Word) (m1 : Mach) : Prop :=
  d = 0 ∧ m1 = m ∨ d ≠ 0 ∧ w.toNat % 8 = 0 ∧ ∃ pa mir, reachX m w 8 accWrite = (m1, .ok pa mir)

/-- What a command's source asks for: only a remote load waits for one. -/
def engineSource (m : Mach) (kind : Nat) (b : Word) (opt : Nat) : Mach × Option MemRes :=
  if kind = 2 then rldSource m b (optNblk 2 opt) else (m, none)

/-- The engine context of a command (spec/12 R203). -/
def engineOf (kind opt : Nat) : Nat := if kind = 0 then opt / 2 ^ 24 % 2 else if kind = 1 then 2 else 3

/-- Issuing a command once its completion word and its options pass. -/
def engineIssue (m m1 : Mach) (kind : Nat) (d a b : BitVec 6) : Mach :=
  let core := m.iss.core
  let opt := (optField m).toNat
  let e := engineOf kind opt
  let cw : Option Word := if d = 0 then none else some (rdS m 2 d).val
  let (m2, r) := engineSource m1 kind (rdS m 1 b).val opt
  match r with
  | some (.fail c i) => trapAt m2 c (rdS m 1 b).val i none
  | some _ => stallBundle m2
  | none =>
    if heldByFence m2 (cmdClasses kind opt)
        (fun x => coversCmd m2 x core (issCtx m2).area (ctxOwner (issCtx m2)) kind opt
        (rdS m 0 a).val (rdS m 1 b).val cw 0 []) then stallBundle m2
    else if 32 ≤ smGet 0 (getCore m2 core).eiss e - smGet 0 (getCore m2 core).etl e then stallBundle m2
    else issueCommand m2 kind e d (rdS m 0 a).val (rdS m 1 b).val cw

section
variable {m m1 m2 : Mach} {kind : Nat} {d a b : BitVec 6} (ha : (rdS m 0 a).pois = false)
    (hb : (rdS m 1 b).pois = false)
  (hd : (rdS m 2 d).pois = false)
include ha hb hd

theorem engineWord_misaligned (hw : (rdS m 2 d).val.toNat % 8 ≠ 0) :
    engineWord m kind d a b = trapA m 0x0A (rdS m 2 d).val := by
  rw [engineWord, noPoison_of_clean (by simp [ha, hb, hd]), if_pos hw]

theorem engineWord_reached (hcw : CwReached m d (rdS m 2 d).val m1) :
    engineWord m kind d a b =
      if optRefused kind (optField m).toNat (rdS m 0 a).val.toNat (d == 0) then trapW m1 0x1A
      else engineIssue m m1 kind d a b := by
  rw [engineWord, noPoison_of_clean (by simp [ha, hb, hd])]
  rcases hcw with ⟨rfl, rfl⟩ | ⟨hd0, hw, pa, mir, hr⟩
  · rw [if_neg (by simp [rdS, scalarOf])]
    rfl
  · rw [if_neg (not_not.2 hw)]
    dsimp only
    rw [if_neg hd0, hr]
    rfl

theorem engineWord_refused (hcw : CwReached m d (rdS m 2 d).val m1)
    (hr : optRefused kind (optField m).toNat (rdS m 0 a).val.toNat (d == 0) = true) :
    engineWord m kind d a b = trapW m1 0x1A := by
  rw [engineWord_reached ha hb hd hcw, if_pos hr]

theorem engineWord_stalls (hcw : CwReached m d (rdS m 2 d).val m1)
    (hr : optRefused kind (optField m).toNat (rdS m 0 a).val.toNat (d == 0) = false)
    (hs : engineSource m1 kind (rdS m 1 b).val (optField m).toNat = (m2, some .stall)) :
    engineWord m kind d a b = stallBundle m2 := by
  rw [engineWord_reached ha hb hd hcw, if_neg (by rw [hr]; exact Bool.false_ne_true), engineIssue, hs]

theorem engineWord_issues (hcw : CwReached m d (rdS m 2 d).val m1)
    (hr : optRefused kind (optField m).toNat (rdS m 0 a).val.toNat (d == 0) = false)
    (hs : engineSource m1 kind (rdS m 1 b).val (optField m).toNat = (m2, none))
    (hf : heldByFence m2 (cmdClasses kind (optField m).toNat) (fun z => coversCmd m2 z m.iss.core (issCtx m2).area
      (ctxOwner (issCtx m2)) kind (optField m).toNat (rdS m 0 a).val (rdS m 1 b).val
      (if d = 0 then none else some (rdS m 2 d).val) 0 []) = false)
    (hn : smGet 0 (getCore m2 m.iss.core).eiss (engineOf kind (optField m).toNat)
      - smGet 0 (getCore m2 m.iss.core).etl (engineOf kind (optField m).toNat) < 32) :
    engineWord m kind d a b = issueCommand m2 kind (engineOf kind (optField m).toNat) d (rdS m 0 a).val
        (rdS m 1 b).val
      (if d = 0 then none else some (rdS m 2 d).val) := by
  rw [engineWord_reached ha hb hd hcw, if_neg (by rw [hr]; exact Bool.false_ne_true), engineIssue, hs]
  dsimp only
  rw [if_neg (by rw [hf]; exact Bool.false_ne_true), if_neg (by omega)]
end

/-! ### What a command leaves (spec/12 R205) -/

/-- The machine as a command takes its number, before its action joins the queue. -/
def numbered (m : Mach) (e : Nat) (d : BitVec 6) : Mach :=
  let k := getCore m m.iss.core
  let n := smGet 0 k.eiss e + 1
  let seen := BitVec.ofNat 64 (n + smGet 0 (issCtx m).mapE0 e - smGet 0 (issCtx m).mapH e)
  let m1 := setCore { m with iss := { m.iss with issuedTo := some e } } m.iss.core
      { k with eiss := smPut 0 k.eiss e n }
  let m2 := onIss m1 (fun c => { c with lastCmd := smPut 0 c.lastCmd e seen.toNat })
  if d = 0 then m2 else
    addPend m2
      { tag := m2.tag, use := .regs, dst := [.s d], need := 0, got := [], vals := [{ val := seen }], known := false,
        spec := false, bad := none, va := 0, finfo := finfoHere m2 }

theorem issueCommand_eq (m : Mach) (kind e : Nat) (d : BitVec 6) (a b : Word) (cw : Option Word) :
    issueCommand m kind e d a b cw = addActs (numbered m e d)
      [{ tag := 0, kind := .cmd e a b cw (optField (numbered m e d)) kind, cmd := smGet 0
          (getCore m m.iss.core).eiss e + 1 }] :=
  rfl

theorem eiss_onIss (m : Mach) (f : Ctx → Ctx) (c : Nat) : (getCore (onIss m f) c).eiss = (getCore m c).eiss := by
  unfold onIss modCtx setCtx modCore
  rcases eq_or_ne c m.iss.core with rfl | h
  · rw [getCore_setCore]; rfl
  · rw [getCore_setCore_ne _ h]

section
variable (m : Mach) (e : Nat) (d : BitVec 6)

theorem numbered_agents : (numbered m e d).agents = m.agents := by unfold numbered; dsimp only; split <;> rfl
theorem numbered_mem : (numbered m e d).mem = m.mem := by unfold numbered; dsimp only; split <;> rfl
theorem numbered_tag : (numbered m e d).tag = m.tag := by unfold numbered; dsimp only; split <;> rfl
theorem numbered_iss : (numbered m e d).iss = { m.iss with issuedTo := some e } := by
  unfold numbered; dsimp only; split <;> rfl

theorem numbered_eiss : (getCore (numbered m e d) m.iss.core).eiss =
    smPut 0 (getCore m m.iss.core).eiss e (smGet 0 (getCore m m.iss.core).eiss e + 1) := by
  unfold numbered
  dsimp only
  split
  · rw [eiss_onIss, getCore_setCore]
  · rw [addPend, eiss_onIss, eiss_onIss, getCore_setCore]
end

/-- What one action's place in the queue changes: the queue of the issuing context, and the word's number. -/
theorem addActs_facts (m : Mach) (x : Act) :
    let ag := ctxAgent m.iss.core m.iss.ctx
    (∃ act : Act, (getAgent (addActs m [x]) ag).iq = (getAgent m ag).iq ++ [act] ∧ act.kind = x.kind ∧ act.cmd =
        x.cmd ∧
      act.tag = m.tag) ∧
    (∀ g, g ≠ ag → getAgent (addActs m [x]) g = getAgent m g) ∧ (∀ c, getCore (addActs m [x]) c = getCore m c) ∧
    (addActs m [x]).tag = m.tag + 1 := by
  refine ⟨⟨_, congrArg Agent.iq (smGet_put_same _ _ _ _), rfl, rfl, rfl⟩, fun g hg => ?_, fun c => rfl, rfl⟩
  exact smGet_put_ne _ _ hg _

theorem optField_numbered (m : Mach) (e : Nat) (d : BitVec 6) : optField (numbered m e d) = optField m := by
  unfold optField
  rw [numbered_iss]

theorem exec_engineWords {s : State} {h : Hd} (hg : guardTrue s.m h = true) (d a b : BitVec 6) :
    (exec (.lCopy h d a b) s = .next { s with m := engineWord s.m 0 d a b } ∧
      exec (.lGath h d a b) s = .next { s with m := engineWord s.m 1 d a b } ∧
      exec (.lRld h d a b) s = .next { s with m := engineWord s.m 2 d a b }) ∧
    exec (.lRst h d a b) s = .next { s with m := engineWord s.m 3 d a b } ∧
    exec (.lRred h d a b) s = .next { s with m := engineWord s.m 4 d a b } ∧
    exec (.lMcast h d a b) s = .next { s with m := engineWord s.m 5 d a b } := by
  have word (kind : Nat) := runWord_true (s := s) (fun m => engineWord m kind d a b) hg
  exact ⟨⟨word 0, word 1, word 2⟩, word 3, word 4, word 5⟩

end Sys2Proof.Machine

open Sys2Proof Sys2Proof.Machine

/-- Settles O19: one lemma for each end of a command word, and what `issueCommand` leaves. -/
theorem engineWords : Obligations.EngineWords := by
  unfold Obligations.EngineWords
  refine ⟨fun s h d a b hg ha hb hd => ?_, fun m kind e d a b cw => ?_⟩
  · obtain ⟨⟨copy, gath, rld⟩, rst, rred, mcast⟩ := exec_engineWords hg d a b
    refine ⟨fun m1 hcw => ?_, fun hw => ?_⟩
    · have issues {kind : Nat} {i : Instr} (hi : exec i s = .next { s with m := engineWord s.m kind d a b })
        {m2 : Mach}
          (hs : engineSource m1 kind (rdS s.m 1 b).val (optField s.m).toNat = (m2, none)) hr hf hn :=
        hi.trans (congrArg (fun m => Host.Outcome.next (State.mk m s.trust))
            (engineWord_issues ha hb hd hcw hr hs hf hn))
      have refuses {kind : Nat} {i : Instr} (hi : exec i s = .next { s with m := engineWord s.m kind d a b }) hr :=
        hi.trans (congrArg (fun m => Host.Outcome.next (State.mk m s.trust)) (engineWord_refused ha hb hd hcw hr))
      refine ⟨⟨issues copy rfl, issues gath rfl, issues rst rfl, issues rred rfl, issues mcast rfl⟩,
        fun m2 hs => issues rld hs, fun m2 hr hs => ?_, refuses copy, refuses gath, refuses rld, refuses rst,
            refuses rred,
        refuses mcast⟩
      exact rld.trans (congrArg (fun m => Host.Outcome.next (State.mk m s.trust))
          (engineWord_stalls ha hb hd hcw hr hs))
    · have traps {kind : Nat} {i : Instr} (hi : exec i s = .next { s with m := engineWord s.m kind d a b }) :=
        hi.trans (congrArg (fun m => Host.Outcome.next (State.mk m s.trust)) (engineWord_misaligned ha hb hd hw))
      exact ⟨traps copy, traps gath, traps rld, traps rst, traps rred, traps mcast⟩
  · obtain ⟨⟨act, hiq, hkind, hcmd, htag⟩, hag, hcore, hnext⟩ := addActs_facts (numbered m e d)
      { tag := 0, kind := .cmd e a b cw (optField (numbered m e d)) kind, cmd := smGet 0
          (getCore m m.iss.core).eiss e + 1 }
    have agents (g : Nat) : getAgent (numbered m e d) g = getAgent m g := by
      unfold getAgent
      rw [numbered_agents]
    rw [numbered_iss, agents] at hiq
    dsimp only
    rw [issueCommand_eq, hcore, numbered_eiss]
    refine ⟨smGet_put_same _ _ _ _, fun e' he => smGet_put_ne _ _ he _,
      ⟨act, hiq, hkind.trans (by rw [optField_numbered]), hcmd, htag.trans (numbered_tag m e d)⟩, fun g hg => ?_,
          ?_, ?_⟩
    · exact (hag g (by rw [numbered_iss]; exact hg)).trans (agents g)
    · rw [addActs_mem, numbered_mem]
    · rw [hnext, numbered_tag]

end

section
/-!
PROOFS. The SPDM responder (spec/19 R280, Table 19-9).
-/

namespace Sys2Proof.Machine

/-! ### The bytes of a list of numbers give the list back -/

theorem lt_pow_byteCount (x : Nat) : x < 256 ^ (Nat.log2 x / 8 + 1) := by
  have h : x < 2 ^ (Nat.log2 x + 1) := Nat.lt_log2_self
  refine h.trans_le ?_
  rw [show (256 : Nat) = 2 ^ 8 from rfl, ← pow_mul]
  exact Nat.pow_le_pow_right (by decide) (by omega)

/-- The low bytes of a number determine it modulo a power of 256. -/
theorem mod_eq_of_bytes {x y n : Nat}
    (h : (List.range n).map (fun i => BitVec.ofNat 8 (x / 256 ^ i)) = (List.range n).map
        (fun i => BitVec.ofNat 8 (y / 256 ^ i))) :
    x % 256 ^ n = y % 256 ^ n := by
  induction n with
  | zero => simp [Nat.mod_one]
  | succ n ih =>
    rw [List.range_succ, List.map_append, List.map_append] at h
    obtain ⟨hlow, htop⟩ := List.append_inj h (by simp)
    have top : x / 256 ^ n % 256 = y / 256 ^ n % 256 := by
      simpa using congrArg BitVec.toNat (List.head_eq_of_cons_eq htop)
    rw [pow_succ, Nat.mod_mul, Nat.mod_mul, ih hlow, top]

/-- A run of ones ended by a zero says its own length. -/
theorem replicate_ones_append_inj {n k : Nat} {xs ys : List Byte}
    (h : List.replicate n (1 : Byte) ++ 0 :: xs = List.replicate k (1 : Byte) ++ 0 :: ys) : n = k ∧ xs = ys := by
  induction n generalizing k with
  | zero =>
    cases k with
    | zero => exact ⟨rfl, List.tail_eq_of_cons_eq h⟩
    | succ k => exact absurd (List.head_eq_of_cons_eq h) (by decide)
  | succ n ih =>
    cases k with
    | zero => exact absurd (List.head_eq_of_cons_eq h) (by decide)
    | succ k =>
      obtain ⟨hn, hx⟩ := ih (List.tail_eq_of_cons_eq h)
      exact ⟨congrArg (· + 1) hn, hx⟩

/-- No number's bytes begin another's. -/
theorem numBytes_append_inj {x y : Nat} {xs ys : List Byte} (h : numBytes x ++ xs = numBytes y ++ ys) : x = y ∧ xs
    = ys := by
  simp only [numBytes, List.append_assoc, List.cons_append] at h
  obtain ⟨hn, hrest⟩ := replicate_ones_append_inj h
  rw [hn] at hrest
  obtain ⟨hbytes, htail⟩ := List.append_inj hrest (by simp)
  have e := mod_eq_of_bytes hbytes
  rw [Nat.mod_eq_of_lt (lt_pow_byteCount y), Nat.mod_eq_of_lt (by rw [← hn]; exact lt_pow_byteCount x)] at e
  exact ⟨e, htail⟩

theorem numBytes_ne_nil (x : Nat) : numBytes x ≠ [] := by simp [numBytes]

theorem flatten_numBytes_inj {xs ys : List Nat} (h : (xs.map numBytes).flatten = (ys.map numBytes).flatten) : xs =
    ys := by
  induction xs generalizing ys with
  | nil =>
    cases ys with
    | nil => rfl
    | cons y ys => exact absurd h.symm (by simp [numBytes_ne_nil])
  | cons x xs ih =>
    cases ys with
    | nil => exact absurd h (by simp [numBytes_ne_nil])
    | cons y ys =>
      obtain ⟨hx, hxs⟩ := numBytes_append_inj h
      rw [hx, ih hxs]

/-! ### Answers -/

theorem spdmAnswer_early {s : State} {need : Nat} (h : s.trust.spdm < need) (reach code : Nat) (body : List Nat) :
    spdmAnswer s need reach code body =
      .next { s with trust := { s.trust with responses := s.trust.responses ++ [(0x7F, [])] } } :=
  congrArg Host.Outcome.next (if_pos h)

theorem spdmAnswer_inOrder {s : State} {need : Nat} (h : need ≤ s.trust.spdm) (reach code : Nat) (body : List Nat) :
    spdmAnswer s need reach code body = .next ⟨s.m, { s.trust with
      spdm := max s.trust.spdm reach, responses := s.trust.responses ++ [(code, body)] }⟩ :=
  congrArg Host.Outcome.next (if_neg (by omega))

/-- An event that answers as `spdmAnswer` does: an ERROR before its turn, its body from there on. -/
theorem answers_of_eq {i : Instr} {s : State} {need reach code : Nat} {body body' : List Nat}
    (h : exec i s = spdmAnswer s need reach code body) (hb : body = body') :
    (s.trust.spdm < need →
      exec i s = .next { s with trust := { s.trust with responses := s.trust.responses ++ [(0x7F, [])] } }) ∧
    (need ≤ s.trust.spdm → exec i s = .next ⟨s.m, { s.trust with
      spdm := max s.trust.spdm reach, responses := s.trust.responses ++ [(code, body')] }⟩) := by
  subst hb
  exact ⟨fun early => h.trans (spdmAnswer_early early reach code body),
    fun inOrder => h.trans (spdmAnswer_inOrder inOrder reach code body)⟩

/-- What a signed body is: its content and the nonce, with a signature over the digest of both. -/
theorem signed_eq (content : List Nat) (nonce : Nat) :
    signed content nonce = (content ++ [nonce]) ++ [Config.falconSign (digestOf (content ++ [nonce]))] := by
  simp [signed]

/-- A measurement that the responder has. -/
theorem exec_getMeasurements_of_index {index : Nat} (h0 : index ≠ 0) (h9 : index < 9) (nonce : Nat) (s : State) :
    exec (.getMeasurements index nonce) s = spdmAnswer s 3 3 0x60 (signed (index :: measurement s index) nonce) := by
  rw [exec_getMeasurements, execGetMeasurements, if_neg (by omega)]

/-- The measurement of a die's firmware, with its failure flag. -/
theorem measurement_firmware {d : Nat} (h : d < 5) (s : State) : measurement s (d + 2) =
    [Config.shake256 (smGet [] s.trust.firmware d), if d ∈ s.trust.reports then 1 else 0] := by
  rw [measurement, if_neg (by omega), if_neg (by omega), if_neg (by omega), Nat.add_sub_cancel]
  simp

end Sys2Proof.Machine

open Sys2Proof Sys2Proof.Machine

/-- Settles O49: every answer is `spdmAnswer`'s, and the bytes of a list of numbers give the list back. -/
theorem trustRequests : Obligations.TrustRequests := by
  unfold Obligations.TrustRequests
  intro s slot nonce data index
  refine ⟨rfl, answers_of_eq rfl rfl, answers_of_eq rfl rfl, answers_of_eq rfl rfl, answers_of_eq rfl rfl,
      answers_of_eq rfl rfl, answers_of_eq rfl (signed_eq _ _),
    answers_of_eq (exec_getMeasurements_of_index (by decide) (by decide) _ _) (signed_eq _ _), fun d hd => ?_,
    answers_of_eq (exec_getMeasurements_of_index (by decide) (by decide) _ _) (signed_eq _ _), fun xs ys =>
        flatten_numBytes_inj,
    answers_of_eq (exec_getMeasurements_of_index (by decide) (by decide) _ _) (signed_eq _ _), fun h => ?_,
    answers_of_eq rfl (signed_eq _ _), fun h => ?_, fun h => ?_⟩
  · exact answers_of_eq (exec_getMeasurements_of_index (by omega) (by omega) _ _)
      (by rw [measurement_firmware hd, signed_eq]; rfl)
  · exact answers_of_eq (by rw [exec_getMeasurements, execGetMeasurements, if_pos h]) rfl
  · rw [exec_finish, execFinish, if_pos h, spdmAnswer_early h]
  · rw [exec_finish, execFinish, if_neg (by omega)]

end

section
/-!
PROOFS. Who holds the array, and the words that clear, swap and set it up (spec/09 R162, R166, R167, R172, R175,
spec/21 R334, R338, R340, R341).
-/

namespace Sys2Proof.Machine

/-! ### The hold (R162) -/

theorem mHold_foreign {m : Mach} {i : Nat} (hi : (arrOf m).holder = some i) (hne : i ≠ m.iss.ctx) (ts : List Nat)
    (ss : List Scalar) (f : Mach → Mach) : mHold m ts ss f = stallBundle m := by
  rw [mHold, hi]
  exact if_neg hne

/-- Every M word that uses the array stalls while another context holds it. -/
theorem exec_foreign {s : State} {h : Hd} {t : BitVec 2} {a : BitVec 6} {sh : BitVec 3} {w k r e hi : Bool}
    {p x y : BitVec 4} {sp : BitVec 2} {i : Nat} (hg : guardTrue s.m h = true) (hhold : (arrOf s.m).holder = some i)
    (hne : i ≠ s.m.iss.ctx) :
    exec (.mPrec h t a k) s = .next { s with m := stallBundle s.m } ∧
    exec (.mShape h sh a) s = .next { s with m := stallBundle s.m } ∧
    exec (.mPush h sh a w p r sp) s = .next { s with m := stallBundle s.m } ∧
    exec (.mSwap h) s = .next { s with m := stallBundle s.m } ∧
    exec (.mFeed h t sh a w x y r) s = .next { s with m := stallBundle s.m } ∧
    exec (.mDrain h t k e hi) s = .next { s with m := stallBundle s.m } ∧
    exec (.mClear h) s = .next { s with m := stallBundle s.m } := by
  have word (ts : List Nat) (ss : List Scalar) (f : Mach → Mach) := mHold_foreign hhold hne ts ss f
  refine ⟨?_, ?_, ?_, ?_, ?_, ?_, ?_⟩
  · rw [exec_mPrec, execMPrec, runWord_true _ hg]
    exact next_congr (word _ _ _)
  · rw [exec_mShape, execMShape, runWord_true _ hg]
    exact next_congr (word _ _ _)
  · rw [exec_mPush, execMPush, runWord_true _ hg]
    exact next_congr (word _ _ _)
  · rw [exec_mSwap, execMSwap, runWord_true _ hg]
    exact next_congr (word _ _ _)
  · rw [exec_mFeed, execMFeed, runWord_true _ hg]
    exact next_congr (word _ _ _)
  · rw [exec_mDrain, execMDrain, runWord_true _ hg]
    exact next_congr (word _ _ _)
  · rw [exec_mClear, execMClear, runWord_true _ hg]
    exact next_congr (word _ _ _)

/-- A number of a PREC register. -/
theorem precNumber (t : BitVec 2) : ((0x10 : BitVec 10) + t.setWidth 10).toNat = 0x10 + t.toNat := by
  revert t
  decide

/-- b.wrst of a PREC register acts as m.prec without keep, on the set as it stood when the bundle issued
    (spec/04 R75). -/
theorem exec_bWrst_prec {s : State} {h : Hd} {a : BitVec 6} (hg : guardTrue s.m h = true)
    (ha : (rdS s.m 0 a).pois = false)
    (t : BitVec 2) : exec (.bWrst h a (0x10 + t.setWidth 10)) s =
      .next { s with m := precWord s.m s.m.iss.arr t.toNat (rdS s.m 0 a) false } := by
  have ht := t.isLt
  rw [exec_bWrst, execBWrst, runWord_true _ hg]
  refine next_congr ?_
  dsimp only
  rw [precNumber, if_pos (by omega), noPoison_of_clean (by simp [ha]), Nat.add_sub_cancel_left]

/-! ### What the completion of an M word leaves -/

section
variable (m : Mach)

theorem getCore_onIss_ne (f : Ctx → Ctx) {c : Nat} (h : c ≠ m.iss.core) : getCore (onIss m f) c = getCore m c :=
  getCore_setCore_ne m h _

theorem getCore_onArr (f : Arr → Arr) : getCore (onArr m f) m.iss.core =
    { getCore m m.iss.core with arr := { f (arrOf m) with holder := some m.iss.ctx } } := getCore_setCore m _ _

theorem getCore_onArr_ne (f : Arr → Arr) {c : Nat} (h : c ≠ m.iss.core) : getCore (onArr m f) c = getCore m c :=
  getCore_setCore_ne m h _

theorem arrOf_onArr (f : Arr → Arr) : arrOf (onArr m f) = { f (arrOf m) with holder := some m.iss.ctx } :=
  congrArg Core.arr (getCore_onArr m f)

theorem getCtx_onArr (f : Arr → Arr) (c i : Nat) : getCtx (onArr m f) c i = getCtx m c i := by
  unfold getCtx
  rcases eq_or_ne c m.iss.core with rfl | h
  · rw [getCore_onArr]
  · rw [getCore_onArr_ne m f h]

theorem issCtx_onIss (f : Ctx → Ctx) : issCtx (onIss m f) = f (issCtx m) := getCtx_modCtx m _ _ f

theorem tiles_onIss (f : Ctx → Ctx) : (getCore (onIss m f) m.iss.core).tiles = (getCore m m.iss.core).tiles := by
  have h := congrArg Core.tiles
      (getCore_setCore m m.iss.core (setCtxOf (getCore m m.iss.core) m.iss.ctx (f (issCtx m))))
  exact h

theorem arrOf_arrayDone (a : Arr) : arrOf (arrayDone m a) = { a with holder := some m.iss.ctx } := by
  rw [arrayDone, mDone, arrOf_onIss, arrOf_onArr]

theorem getCore_arrayDone_ne (a : Arr) {c : Nat} (h : c ≠ m.iss.core) : getCore (arrayDone m a) c = getCore m c := by
  rw [arrayDone, mDone, getCore_onIss_ne (onArr m fun _ => a) _ h, getCore_onArr_ne m _ h]

theorem tiles_arrayDone (a : Arr) : (getCore (arrayDone m a) m.iss.core).tiles = (getCore m m.iss.core).tiles := by
  have h := tiles_onIss (onArr m fun _ => a) (fun c => { c with fill := none })
  have h' := congrArg Core.tiles (getCore_onArr m fun _ => a)
  exact h.trans h'

/-- Of the contexts only the fill of the issuing one changes. -/
theorem getCtx_arrayDone (a : Arr) (c i : Nat) :
    { getCtx (arrayDone m a) c i with fill := none } = { getCtx m c i with fill := none } := by
  rw [arrayDone, mDone, onIss]
  by_cases h : c = m.iss.core ∧ i = m.iss.ctx
  · obtain ⟨rfl, rfl⟩ := h
    have e := getCtx_modCtx (onArr m fun _ => a) m.iss.core m.iss.ctx (fun c => { c with fill := none })
    rw [getCtx_onArr] at e
    exact congrArg (fun c : Ctx => { c with fill := none }) e
  · have e := getCtx_modCtx_ne (onArr m fun _ => a) (fun c => { c with fill := none }) (not_and_or.1 h)
    exact congrArg (fun c : Ctx => { c with fill := none }) (e.trans (getCtx_onArr m _ c i))
end

/-! ### m.prec (R166) -/

/-- Do two PREC values agree in all but the widths? -/
def SamePrec (p q : Word) : Prop :=
  precSA p = precSA q ∧ precSB p = precSB q ∧ precXA p = precXA q ∧ precXB p = precXB q ∧ acct p = acct q

theorem precOf_setPrec (c : Ctx) {t : Nat} (h : t < 4) (w : Word) : precOf (setPrec c t w) t = w := by
  interval_cases t <;> rfl

theorem precOf_setPrec_ne (c : Ctx) {t u : Nat} (ht : t < 4) (hu : u < 4) (h : u ≠ t) (w : Word) :
    precOf (setPrec c t w) u = precOf c u := by
  interval_cases t <;> interval_cases u <;> simp [precOf, setPrec] at h ⊢

section
variable {m : Mach} {arr : Arr} {t : Nat} {a : Scalar} {keep : Bool} (hours : ArrayIsOurs m) (ht : t < tilesOf m)
  (ha : a.pois = false)
include hours ht ha

theorem precWord_bad (h : precBad a.val = true) : precWord m arr t a keep = trapW m 0x1A := by
  rw [precWord, mHold_ours hours (by simpa using ht) (by simp [ha]), if_pos h]

theorem precWord_undrained (h : precBad a.val = false) (hu : (smGet {} arr.sets t).undrained = true)
    (hk : keep = false ∨ ¬SamePrec (precOf m.iss.snap t) a.val) : precWord m arr t a keep = trapW m 0x1D := by
  rw [precWord, mHold_ours hours (by simpa using ht) (by simp [ha])]
  dsimp only
  rw [if_neg (by simp [h]), if_pos]
  refine ⟨hu, hk.imp (fun h => by rw [h]; rfl) fun hs => Bool.of_not_eq_false fun hd => hs ?_⟩
  simpa [SamePrec, and_assoc] using hd

/-- The machine once a PREC register is set: the stages empty, an undrained set under its new widths. -/
def precSet (m : Mach) (arr : Arr) (t : Nat) (q : Word) : Mach :=
  let s := smGet {} arr.sets t
  onIss (onArr m (fun a => emptyStages
    (if s.undrained then { a with sets := smPut {} a.sets t (setWiden s (precOf m.iss.snap t) q) } else a)))
    (fun c => setPrec c t q)

theorem precWord_sets (h : precBad a.val = false)
    (hk : (smGet {} arr.sets t).undrained = false ∨ keep = true ∧ SamePrec (precOf m.iss.snap t) a.val) :
    precWord m arr t a keep = precSet m arr t a.val := by
  rw [precWord, mHold_ours hours (by simpa using ht) (by simp [ha])]
  dsimp only
  rw [if_neg (by simp [h]), if_neg]
  · rfl
  · rintro ⟨hu, hno⟩
    rcases hk with hd | ⟨rfl, hs⟩
    · exact absurd (hd.symm.trans hu) (by decide)
    · obtain ⟨h1, h2, h3, h4, h5⟩ := hs
      simp [h1, h2, h3, h4, h5] at hno
end

section
variable (m : Mach) (arr : Arr) {t : Nat} (ht : t < 4) (q : Word)

theorem arrOf_precSet : ∃ sets, arrOf (precSet m arr t q) =
      { emptyStages (arrOf m) with sets := sets, holder := some m.iss.ctx } ∧
    ((smGet {} arr.sets t).undrained = false → sets = (arrOf m).sets) := by
  rw [precSet, arrOf_onIss, arrOf_onArr]
  split
  · next hu => exact ⟨_, rfl, fun h => absurd (h.symm.trans hu) (by decide)⟩
  · exact ⟨_, rfl, fun _ => rfl⟩

theorem issCtx_precSet : issCtx (precSet m arr t q) = setPrec (issCtx m) t q := by
  rw [precSet, issCtx_onIss]
  exact congrArg (setPrec · t q) (getCtx_onArr m _ _ _)

include ht in
theorem precOf_precSet : precOf (issCtx (precSet m arr t q)) t = q := by rw [issCtx_precSet, precOf_setPrec _ ht]

include ht in
theorem precOf_precSet_ne {u : Nat} (hu : u < 4) (h : u ≠ t) :
    precOf (issCtx (precSet m arr t q)) u = precOf (issCtx m) u := by
  rw [issCtx_precSet, precOf_setPrec_ne _ ht hu h]
end

/-! ### m.shape (R167) -/

/-- The shape record that the bundle has read at a place of the own pool. -/
def shapeRead (m : Mach) (va : Word) : BitVec 256 :=
  let base := poolPa m.iss.core (va.toNat % 2 ^ 22)
  BitVec.ofNat 256 ((smGet 0 (fillOf m).got base).toNat + (smGet 0 (fillOf m).got (base + 16)).toNat * 2 ^ 128)

theorem exec_mShape_read {s : State} {h : Hd} (sh : BitVec 3) {a : BitVec 6} {pa : Nat} (hg : guardTrue s.m h = true)
    (hours : ArrayIsOurs s.m) (ha : (rdS s.m 0 a).pois = false) (hva : (rdS s.m 0 a).val.toNat / 2 ^ 60 = 15)
    (hpool : poolDecide s.m s.m.iss.core (rdS s.m 0 a).val.toNat = .ok pa false false)
    (hown : targetOf s.m pa = .pool s.m.iss.core) (hfill : FillHolds s.m [(rdS s.m 0 a).val]) :
    exec (.mShape h sh a) s = .next ⟨
      if recBad (shapeRead s.m (rdS s.m 0 a).val) then
        trapW (onArr s.m (fun a => { a with slots := smPut {} a.slots sh.toNat {} })) 0x1A
      else arrayDone s.m { arrOf s.m with
        slots := smPut {} (arrOf s.m).slots sh.toNat ⟨false, shapeRead s.m (rdS s.m 0 a).val, 0⟩
        aStage := (arrOf s.m).aStage.filter (fun x => x.slot != sh.toNat)
        wStage := (arrOf s.m).wStage.filter (fun x => x.slot != sh.toNat) }, s.trust⟩ := by
  rw [exec_mShape, execMShape, runWord_true _ hg, mHold_ours hours (by simp) (by simp [ha])]
  refine next_congr ?_
  dsimp only
  rw [hpool]
  dsimp only
  rw [if_neg (by rw [hva, hown]; simp), filling_holds hfill]
  rfl

end Sys2Proof.Machine

open Sys2Proof Sys2Proof.Machine

/-- Settles O21: every M word goes through the hold of the array, and completes through `arrayDone`. -/
theorem arrayControl : Obligations.ArrayControl := by
  unfold Obligations.ArrayControl
  refine ⟨?stall, fun s h hg hours => ⟨?clear, ?swap⟩, fun m a => ?done, ?prec, ?shape⟩
  case stall =>
    intro s h t a sh w k r e hi p x y sp i hg hhold hne
    obtain ⟨prec, shape, push, swap, feed, drain, clear⟩ := exec_foreign (t := t) (a := a) (sh := sh) (w := w)
        (k := k)
      (r := r) (e := e) (hi := hi) (p := p) (x := x) (y := y) (sp := sp) hg hhold hne
    exact ⟨prec, shape, push, swap, feed, drain, clear,
      fun ha => (exec_bWrst_prec hg ha t).trans (next_congr (mHold_foreign hhold hne _ _ _))⟩
  case clear =>
    rw [exec_mClear, execMClear, runWord_true _ hg, mHold_ours hours (by simp) (by simp)]
    rfl
  case swap =>
    rw [exec_mSwap, execMSwap, runWord_true _ hg, mHold_ours hours (by simp) (by simp)]
    rfl
  case done =>
    exact ⟨arrOf_arrayDone m a, rfl, rfl, fun c hc => getCore_arrayDone_ne m a hc,
      fun key => congrArg (smGet 0 · key) (tiles_arrayDone m a), getCtx_arrayDone m a⟩
  case prec =>
    intro s h t a keep hg hours ht ha q p set same
    have word := exec_mPrec h t a keep s
    rw [execMPrec, runWord_true _ hg] at word
    refine ⟨fun hb => word.trans (next_congr (precWord_bad hours ht ha hb)),
      fun hb hu hk => word.trans (next_congr (precWord_undrained hours ht ha hb hu hk)), fun hb hk => ?_⟩
    obtain ⟨sets, harr, hsets⟩ := arrOf_precSet s.m (arrOf s.m) (t := t.toNat) q
    refine ⟨_, word.trans (next_congr (precWord_sets hours ht ha hb hk)), precOf_precSet _ _ t.isLt _,
      fun u hu hne => precOf_precSet_ne _ _ t.isLt _ hu hne, ?_, ?_, ?_, fun hd => ?_, rfl⟩
    · exact congrArg Arr.aStage harr
    · exact congrArg Arr.wStage harr
    · exact congrArg Arr.holder harr
    · exact (congrArg Arr.sets harr).trans (hsets hd)
  case shape =>
    intro s h sh a pa hg hours ha va hva hpool hown hfill base r arr
    have word := exec_mShape_read sh hg hours ha hva hpool hown hfill
    exact ⟨fun hb => word.trans (next_congr (if_pos hb)), fun hb => word.trans (next_congr (if_neg (by
      rw [show recBad (shapeRead s.m (rdS s.m 0 a).val) = false from hb]; exact Bool.false_ne_true)))⟩

end

section
/-!
PROOFS. Pushes (spec/09 R170, R171, spec/21 R339).
-/

namespace Sys2Proof.Machine

/-! ### What a push loads (R171) -/

theorem getD_padTo {α : Type} (n : Nat) (d : α) (xs : List α) (i : Nat) : (padTo n d xs).getD i d = xs.getD i d := by
  rw [padTo]
  rcases lt_or_ge i xs.length with h | h
  · rw [List.getD_append _ _ _ _ h]
  · rw [List.getD_append_right _ _ _ _ h, List.getD_eq_default xs _ h]
    simp only [List.getD_eq_getElem?_getD, List.getElem?_replicate]
    split <;> rfl

theorem length_padTo {α : Type} {n : Nat} {xs : List α} (d : α) (h : xs.length ≤ n) : (padTo n d xs).length = n := by
  rw [padTo, List.length_append, List.length_replicate]
  omega

/-- Bit `k` of a plane's entry is bit `p` of the code of element `k`. -/
theorem getLsbD_planeBits (p : Nat) (ns : List Int) {k : Nat} (hk : k < 60) : (planeBits p ns).getLsbD k =
    (decide (k < ns.length) && decide ((ns.getD k 0 % 65536).toNat / 2 ^ p % 2 = 1)) := by
  have hbit := packCodes_div_mod 1 (ns.map (fun n => (n % 65536).toNat / 2 ^ p % 2)) k
  rw [one_mul, pow_one] at hbit
  rw [planeBits, BitVec.getLsbD_ofNat, decide_eq_true hk, Bool.true_and, Nat.testBit_eq_decide_div_mod_eq, hbit]
  rcases lt_or_ge k ns.length with h | h
  · rw [getD_map_of_lt _ 0 0 h, decide_eq_true h, Bool.true_and, Nat.mod_mod]
  · rw [List.getD_eq_default _ _ (by simpa using h), decide_eq_false (Nat.not_lt.2 h)]
    simp

/-- The scales of a stage's rows, as SHADOW records them. -/
def stageScales (st : Stage) : List (Option Dyad) := (padTo 60 ([], none) st.rows).map (·.2)

theorem length_stageScales {st : Stage} (h : st.rows.length ≤ 60) : (stageScales st).length = 60 := by
  rw [stageScales, List.length_map, length_padTo _ h]

theorem getD_stageScales {st : Stage} (h : st.rows.length ≤ 60) {i : Nat} (hi : i < 60) :
    (stageScales st).getD i none = (st.rows.getD i ([], none)).2 := by
  rw [stageScales, getD_map_of_lt _ ([], none) none (by rw [length_padTo _ h]; exact hi), getD_padTo]

/-- Recorded scales are those of a stage where they agree row by row. -/
theorem eq_stageScales_iff {st : Stage} (h : st.rows.length ≤ 60) (sigma : List (Option Dyad)) :
    sigma = stageScales st ↔ sigma.length = 60 ∧ ∀ i < 60, sigma.getD i none = (st.rows.getD i ([], none)).2 := by
  constructor
  · rintro rfl
    exact ⟨length_stageScales h, fun i hi => getD_stageScales h hi⟩
  · rintro ⟨hlen, hrow⟩
    refine List.ext_getElem (hlen.trans (length_stageScales h).symm) fun i h1 h2 => ?_
    have e := (hrow i (hlen ▸ h1)).trans (getD_stageScales h (hlen ▸ h1)).symm
    rwa [List.getD_eq_getElem _ _ h1, List.getD_eq_getElem _ _ h2] at e

section
variable (arr : Arr) (st : Stage) (p : Nat) (rev : Bool) (sp : BitVec 2) (g : Word)

/-- Has SHADOW recorded what this push loads, the positions apart? -/
def ShadowAgrees : Prop :=
  arr.shadow.orient = rev ∧ arr.shadow.sp = sp ∧ arr.shadow.sigma = stageScales st ∧ arr.shadow.wb = precWB g ∧
    arr.shadow.sb = precSB g ∧ arr.shadow.xb = precXB g

/-- The entries of the plane that a push loads. -/
def pushedPlane : List (BitVec 60) := (padTo 60 ([], none) st.rows).map (fun r => planeBits p r.1)

theorem planes_of_agrees (h : ShadowAgrees arr st rev sp g) :
    (loadShadow arr st p rev sp g).shadow.planes = smIns arr.shadow.planes p (pushedPlane st p) := by
  obtain ⟨h1, h2, h3, h4, h5, h6⟩ := h
  have hs : arr.shadow.sigma = (padTo 60 ([], none) st.rows).map (·.2) := h3
  simp only [loadShadow, h1, h2, hs, h4, h5, h6, beq_self_eq_true, Bool.and_true, if_true, pushedPlane]

theorem planes_of_not_agrees (h : ¬ShadowAgrees arr st rev sp g) :
    (loadShadow arr st p rev sp g).shadow.planes = smIns [] p (pushedPlane st p) := by
  simp only [loadShadow]
  rw [if_neg]
  · rfl
  · intro hsame
    simp only [Bool.and_eq_true, beq_iff_eq] at hsame
    obtain ⟨⟨⟨⟨⟨h1, h2⟩, h3⟩, h4⟩, h5⟩, h6⟩ := hsame
    exact h ⟨h1, h2, h3, h4, h5, h6⟩

theorem smGet_pushed : smGet [] (loadShadow arr st p rev sp g).shadow.planes p = pushedPlane st p := by
  by_cases h : ShadowAgrees arr st rev sp g
  · rw [planes_of_agrees arr st p rev sp g h, smGet_ins_same]
  · rw [planes_of_not_agrees arr st p rev sp g h, smGet_ins_same]

theorem getLsbD_pushedPlane {st : Stage} (hst : st.rows.length ≤ 60) {i k : Nat} (hi : i < 60) (hk : k < 60) :
    ((pushedPlane st p).getD i 0).getLsbD k =
      (decide (k < ((st.rows.getD i ([], none)).1).length) &&
        decide ((((st.rows.getD i ([], none)).1.getD k 0) % 65536).toNat / 2 ^ p % 2 = 1)) := by
  rw [pushedPlane, getD_map_of_lt _ ([], none) 0 (by rw [length_padTo _ hst]; exact hi), getD_padTo,
    getLsbD_planeBits p _ hk]
end

/-! ### m.push -/

section
variable (m : Mach) (sh : BitVec 3) (p : BitVec 4) (r : Bool) (sp : BitVec 2) (base : Word)

/-- The record of the slot of a push, and the PREC of its tile. -/
def pushRecord : BitVec 256 := (smGet {} (arrOf m).slots sh.toNat).record
def pushPrec : Word := precOf m.iss.snap (recPT (pushRecord m sh))

/-- Is a push one that raises operand-range (R171)? -/
def PushRefused : Prop :=
  (smGet {} (arrOf m).slots sh.toNat).empty = true ∨ 60 < recNK (pushRecord m sh) ∨ 60 < recNROW (pushRecord m sh) ∨
    precWB (pushPrec m sh) ≤ p.toNat ∨ (r = true ∧ sp ≠ 0)

/-- The array once a stage's plane is in SHADOW. -/
def pushedArr (st : Stage) : Arr :=
  loadShadow { arrOf m with
    wStage := some st
    slots := smPut {} (arrOf m).slots sh.toNat { smGet {} (arrOf m).slots sh.toNat with
      cursor := base + BitVec.ofNat 64 (recSTEP (pushRecord m sh)) } } st p.toNat r sp (pushPrec m sh)

/-- The held W-stage, where it has the key of the push. -/
def pushHeld : Option Stage :=
  (arrOf m).wStage.filter (fun st => st.base == base && st.slot == sh.toNat && st.prec == pushPrec m sh &&
    st.rev == r && st.ext == sp.toNat)

/-- The column position blocks of a push (R339). -/
def pushColumns : List Word :=
  if sp = 0 then [] else (List.range (recNROW (pushRecord m sh))).map (fun i =>
    base + BitVec.ofNat 64 (i * recRSTR (pushRecord m sh) + recMOFF (pushRecord m sh)))

/-- The places of the rows of a push. -/
def pushPlaces : List (List (Word × Nat)) :=
  (firstBlocks (pushRecord m sh) base).zipIdx.map (fun e => rowPlaces (pushRecord m sh) base (rowEpb m e.1) e.2)
end

section
variable {s : State} {h : Hd} {sh : BitVec 3} {a : BitVec 6} {walk : Bool} {p : BitVec 4} {r : Bool} {sp : BitVec 2}
  (hg : guardTrue s.m h = true) (hours : ArrayIsOurs s.m) (hpois : walk = false → (rdS s.m 0 a).pois = false)
  (ht : (smGet {} (arrOf s.m).slots sh.toNat).empty = false → recPT (pushRecord s.m sh) < tilesOf s.m)
include hpois ht

/-- The operands and the tile of a push pass the hold. -/
theorem push_held_clean : (∀ z ∈ (if walk then [] else [rdS s.m 0 a]), z.pois = false) ∧
    ∀ t ∈ (if (smGet {} (arrOf s.m).slots sh.toNat).empty then [] else [recPT (pushRecord s.m sh)]), t < tilesOf
        s.m := by
  constructor
  · cases walk <;> simp [hpois]
  · split
    · simp
    · next hfull => simpa using ht (Bool.not_eq_true _ ▸ hfull)

include hg hours
theorem mPush_refused (hbad : PushRefused s.m sh p r sp) :
    exec (.mPush h sh a walk p r sp) s = .next { s with m := trapW s.m 0x1A } := by
  obtain ⟨hss, hts⟩ := push_held_clean hpois ht
  rw [exec_mPush, execMPush, runWord_true _ hg]
  refine next_congr ((mHold_ours hours hts hss).trans ?_)
  exact if_pos hbad

variable (hgood : ¬PushRefused s.m sh p r sp) {base : Word}
  (hbase : base = if walk then (smGet {} (arrOf s.m).slots sh.toNat).cursor else (rdS s.m 0 a).val)
include hgood hbase

theorem mPush_held {st : Stage} (hheld : pushHeld s.m sh r sp base = some st) :
    exec (.mPush h sh a walk p r sp) s = .next { s with m := arrayDone s.m (pushedArr s.m sh p r sp base st) } := by
  obtain ⟨hss, hts⟩ := push_held_clean hpois ht
  subst hbase
  rw [exec_mPush, execMPush, runWord_true _ hg]
  refine next_congr ((mHold_ours hours hts hss).trans ((if_neg hgood).trans ?_))
  unfold pushHeld pushPrec pushRecord at hheld
  dsimp only at hheld ⊢
  rw [hheld]
  rfl

theorem mPush_rows {rows : List (List Int × Option Dyad)} {pos : List (List Nat)}
    (hheld : pushHeld s.m sh r sp base = none) (hfirst : FillHolds s.m (firstBlocks (pushRecord s.m sh) base))
    (hok : badBlock s.m (firstBlocks (pushRecord s.m sh) base) = none)
    (hrows : FillHolds s.m ((pushPlaces s.m sh base).map blocksOf).flatten)
    (hexp : expandRows s.m (precWB (pushPrec s.m sh)) (precXB (pushPrec s.m sh)) (precSB (pushPrec s.m sh))
      (pushPlaces s.m sh base) = .ok rows)
    (hcols : FillHolds s.m (pushColumns s.m sh sp base))
    (hpos : pushPositions s.m sp (recNK (pushRecord s.m sh)) (pushColumns s.m sh sp base) = .ok pos) :
    exec (.mPush h sh a walk p r sp) s = .next { s with m := arrayDone s.m (pushedArr s.m sh p r sp base
      ⟨base, sh.toNat, pushPrec s.m sh, r, sp.toNat, rows, pos⟩) } := by
  obtain ⟨hss, hts⟩ := push_held_clean hpois ht
  subst hbase
  rw [exec_mPush, execMPush, runWord_true _ hg]
  refine next_congr ((mHold_ours hours hts hss).trans ((if_neg hgood).trans ?_))
  unfold pushHeld at hheld
  unfold pushColumns at hcols hpos
  unfold pushPlaces at hrows hexp
  unfold pushPrec pushRecord at *
  dsimp only at hheld ⊢
  rw [hheld]
  dsimp only
  rw [fillRows_holds hfirst hok hrows hexp, filling_holds hcols, hpos]
  rfl
end

end Sys2Proof.Machine

open Sys2Proof Sys2Proof.Machine

/-- Settles O22: m.push completes from its held stage or from rows that the bundle has read, and `loadShadow` loads
    the
plane. -/
theorem pushedPlanes : Obligations.PushedPlanes := by
  unfold Obligations.PushedPlanes
  refine ⟨fun s h sh a walk p r sp hg hours hpois => ?_, fun arr st p rev sp g hst => ?_⟩
  · intro arr slot rc g base held loaded legal
    have hill (hno : ¬legal) : PushRefused s.m sh p r sp := by
      by_contra hgood
      simp only [PushRefused, not_or, Bool.not_eq_true, Nat.not_lt, Nat.not_le] at hgood
      exact hno hgood
    have hlegal (hl : legal) : ¬PushRefused s.m sh p r sp := by
      simp only [PushRefused, not_or, Bool.not_eq_true, Nat.not_lt, Nat.not_le]
      exact hl
    refine ⟨fun hempty => ?_, fun ht hfull hno => ?_, fun ht hl st hheld => ?_, ?_⟩
    · exact mPush_refused hg hours hpois (fun hfull => absurd (hempty.symm.trans hfull) (by decide)) (.inl hempty)
    · exact mPush_refused hg hours hpois (fun _ => ht) (hill hno)
    · exact mPush_held hg hours hpois (fun _ => ht) (hlegal hl) rfl hheld
    · intro ht hl hheld rows pos hfirst hok places columns hrows hexp hcols hpos
      exact mPush_rows hg hours hpois (fun _ => ht) (hlegal hl) rfl hheld hfirst hok hrows hexp hcols hpos
  · intro a
    have hagree : (arr.shadow.orient = rev ∧ arr.shadow.sp = sp ∧ arr.shadow.wb = precWB g ∧ arr.shadow.sb = precSB
        g ∧
        arr.shadow.xb = precXB g ∧ arr.shadow.sigma.length = 60 ∧
        ∀ i < 60, arr.shadow.sigma.getD i none = (st.rows.getD i ([], none)).2) ↔ ShadowAgrees arr st rev sp g := by
      rw [ShadowAgrees, eq_stageScales_iff hst]
      tauto
    refine ⟨fun i k hi hk => ?_, fun h q hq => ?_, fun h q hq => ?_, rfl, rfl, rfl, rfl, rfl, rfl,
        length_stageScales hst,
      fun i hi => getD_stageScales hst hi, rfl⟩
    · rw [smGet_pushed, getLsbD_pushedPlane p hst hi hk]
    · rw [planes_of_agrees _ _ _ _ _ _ (hagree.1 h), smGet_ins_ne _ _ hq]
    · rw [planes_of_not_agrees _ _ _ _ _ _ (fun e => h (hagree.2 e)), smGet_ins_ne _ _ hq]
      rfl

end

section
/-!
PROOFS. Branches and hardware loops (spec/04 R75, R76, spec/20).
-/

namespace Sys2Proof.Machine

/-- Without a K word the offset of b.tgt is its own field, sign-extended (spec/05 R88). -/
theorem immValue_offset (o : BitVec 17) : (immValue 17 o.toNat []).setWidth 32 = o.signExtend 32 := by
  rw [show immValue 17 o.toNat [] = o.signExtend 64 from wordOfInt_sextInt_toNat o]
  ext i hi
  have h64 : i < 64 := by omega
  simp [BitVec.getElem_setWidth, BitVec.getElem_signExtend, h64]

section
variable {s : State} {h : Hd} (hg : guardTrue s.m h = true)
include hg

theorem exec_bLadder_first {p q u v k : BitVec 3} (hp : rdP s.m 0 p = true) :
    exec (.bLadder h p q u v k) s = .next { s with m := branchTo s.m (rdB s.m 0 k) } := by
  rw [exec_bLadder, execBLadder, runWord_true _ hg, if_pos hp]

theorem exec_bLadder_second {p q u v k : BitVec 3} (hp : rdP s.m 0 p = false) (hq : rdP s.m 1 q = true) :
    exec (.bLadder h p q u v k) s = .next { s with m := branchTo s.m (rdB s.m 1 (k + 1)) } := by
  rw [exec_bLadder, execBLadder, runWord_true _ hg, if_neg (by simp [hp]), if_pos hq]

theorem exec_bLadder_third {p q u v k : BitVec 3} (hp : rdP s.m 0 p = false) (hq : rdP s.m 1 q = false)
    (hu : rdP s.m 2 u = true) :
    exec (.bLadder h p q u v k) s = .next { s with m := branchTo s.m (rdB s.m 2 (k + 2)) } := by
  rw [exec_bLadder, execBLadder, runWord_true _ hg, if_neg (by simp [hp]), if_neg (by simp [hq]), if_pos hu]

theorem exec_bLadder_rest {p q u v k : BitVec 3} (hp : rdP s.m 0 p = false) (hq : rdP s.m 1 q = false)
    (hu : rdP s.m 2 u = false) : exec (.bLadder h p q u v k) s =
      .next { s with m := if rdP s.m 3 v then branchTo s.m (rdB s.m 3 (k + 3)) else s.m } := by
  rw [exec_bLadder, execBLadder, runWord_true _ hg, if_neg (by simp [hp]), if_neg (by simp [hq]), if_neg
      (by simp [hu])]

theorem exec_bSafe_true : exec (.bSafe h) s = .next ⟨if s.m.iss.snap.lepi.getLsbD 63 then s.m
    else { s.m with iss := { s.m.iss with safe := true } }, s.trust⟩ := by
  rw [exec_bSafe, execBSafe, runWord_true _ hg]

/-! ### b.loop (R76) -/

/-- A context whose loop has begun, `q` the packet after its bundle. -/
def loopCtx (c : Ctx) (x : Word) (q : W32) (n b : BitVec 6) (e p : BitVec 4) : Ctx :=
  { c with
    lc := x, lstart := q.setWidth 64, lend := (q + BitVec.ofNat 32 (b.toNat - 1)).setWidth 64
    lepi := BitVec.ofNat 64 (2 ^ 63 + e.toNat), lpro := (q - BitVec.ofNat 32 p.toNat).setWidth 64, lreg := n, pc :=
        q, wpos := 0 }

variable {n b : BitVec 6} {e p : BitVec 4}

theorem exec_bLoop_within (hin : s.m.iss.snap.lepi.getLsbD 63 = true) :
    exec (.bLoop h n b e p) s = .next { s with m := trapW s.m 0x01 } := by
  rw [exec_bLoop, execBLoop, runWord_true _ hg]
  exact next_congr (if_pos hin)

variable (hout : s.m.iss.snap.lepi.getLsbD 63 = false) (hn : (rdS s.m 0 n).pois = false)
include hout hn

theorem exec_bLoop_outside : exec (.bLoop h n b e p) s = .next ⟨
    if (rdS s.m 0 n).val.toNat / 2 ^ 32 ≠ 0 then trapW s.m 0x1A
    else if (rdS s.m 0 n).val = 0 then onIss s.m (fun c =>
      { c with pc := BitVec.ofNat 32 s.m.iss.afterPkt + BitVec.ofNat 32 (b.toNat + e.toNat), wpos := 0 })
    else
      { onIss s.m (fun c => loopCtx c (rdS s.m 0 n).val (BitVec.ofNat 32 s.m.iss.afterPkt) n b e p) with
        iss := { s.m.iss with looped := true } }, s.trust⟩ := by
  rw [exec_bLoop, execBLoop, runWord_true _ hg]
  refine next_congr ((if_neg (by rw [hout]; exact Bool.false_ne_true)).trans ?_)
  rw [noPoison_of_clean (by simp [hn])]
  rfl

end

/-- The bits of LEPI while a loop is active: the mark and the epilogue's length. -/
theorem lepi_active (e : BitVec 4) : (BitVec.ofNat 64 (2 ^ 63 + e.toNat)).getLsbD 63 = true ∧
    (BitVec.ofNat 64 (2 ^ 63 + e.toNat)).toNat % 16 = e.toNat := by
  revert e
  decide

end Sys2Proof.Machine

open Sys2Proof Sys2Proof.Machine

/-- Settles O25: one lemma for each word and each case of its condition. -/
theorem branchesAndLoops : Obligations.BranchesAndLoops := by
  unfold Obligations.BranchesAndLoops
  refine ⟨fun s h k p q u v o hg => ?_, fun s h n b e p hg hn => ⟨exec_bLoop_within hg, fun hout => ?_⟩⟩
  · refine ⟨?_, ?_, exec_bLadder_first hg, exec_bLadder_second hg, exec_bLadder_third hg, ?_, ?_, fun hks => ?_,
      ?_, ?_⟩
    · rw [exec_bJmp, execBJmp, runWord_true _ hg]
      rfl
    · rw [exec_bCall, execBCall, runWord_true _ hg]
      rfl
    · intro hp hq hu hv
      exact (exec_bLadder_rest hg hp hq hu).trans (next_congr (if_pos hv))
    · intro hp hq hu hv
      exact (exec_bLadder_rest hg hp hq hu).trans (next_congr (if_neg (by simp [hv])))
    · rw [exec_bTgt, execBTgt, runWord_true _ hg, hks, immValue_offset]
    · exact fun hout => (exec_bSafe_true hg).trans (next_congr (if_neg (Bool.eq_false_iff.1 hout)))
    · exact fun hin => (exec_bSafe_true hg).trans (next_congr (if_pos hin))
  · have word := exec_bLoop_outside hg hout hn (b := b) (e := e) (p := p)
    refine ⟨fun hbig => ?_, fun hzero => ?_, fun hne hfits => ⟨_, word.trans (next_congr
      ((if_neg (not_not.2 (Nat.div_eq_of_lt hfits))).trans (if_neg hne))), rfl, rfl, ?_⟩⟩
    · exact word.trans (next_congr (if_pos (Nat.div_pos hbig (by decide)).ne'))
    · exact word.trans (next_congr ((if_neg (by rw [hzero]; decide)).trans (if_pos hzero)))
    · have hc := issCtx_onIss s.m
        (fun c => loopCtx c (rdS s.m 0 n).val (BitVec.ofNat 32 s.m.iss.afterPkt) n b e p)
      obtain ⟨hmark, hepi⟩ := lepi_active e
      intro c
      have hc' : c = loopCtx (issCtx s.m) (rdS s.m 0 n).val (BitVec.ofNat 32 s.m.iss.afterPkt) n b e p := hc
      rw [hc']
      exact ⟨rfl, rfl, rfl, hmark, hepi, rfl, rfl, rfl, rfl, rfl, rfl⟩

end

section
/-!
PROOFS. State registers: b.rdst and b.wrst (spec/04 R73, R75, Table 4-4, spec/20 R302, R310).
-/

namespace Sys2Proof.Machine

/-! ### Reads -/

/-- A set of bits, added up from its numbers below `n`. -/
def bitSum (f : Nat → Bool) (n : Nat) : Nat := (List.range n).foldl (fun a k => if f k then a + 2 ^ k else a) 0

theorem bitSum_succ (f : Nat → Bool) (n : Nat) : bitSum f (n + 1) = if f n then bitSum f n + 2 ^ n else bitSum f n
    := by
  rw [bitSum, List.range_succ, List.foldl_append]
  rfl

theorem bitSum_lt (f : Nat → Bool) (n : Nat) : bitSum f n < 2 ^ n := by
  induction n with
  | zero => exact Nat.one_pos
  | succ n ih =>
    rw [bitSum_succ, pow_succ]
    split <;> omega

theorem testBit_bitSum (f : Nat → Bool) (n i : Nat) : (bitSum f n).testBit i = (decide (i < n) && f i) := by
  induction n with
  | zero => simp [bitSum]
  | succ n ih =>
    have hlt := bitSum_lt f n
    rw [bitSum_succ]
    rcases lt_trichotomy i n with h | rfl | h
    · have hi : i < n + 1 := by omega
      split
      · rw [Nat.add_comm, Nat.testBit_two_pow_add_gt h, ih]
        simp [h, hi]
      · rw [ih]
        simp [h, hi]
    · split
      · next hf => rw [Nat.add_comm, Nat.testBit_two_pow_add_eq, Nat.testBit_lt_two_pow hlt]; simp [hf]
      · next hf => rw [Nat.testBit_lt_two_pow hlt]; simp [hf]
    · have hsum : (if f n then bitSum f n + 2 ^ n else bitSum f n) < 2 ^ i := by
        have : 2 ^ (n + 1) ≤ 2 ^ i := Nat.pow_le_pow_right (by decide) h
        rw [pow_succ] at this
        split <;> omega
      rw [Nat.testBit_lt_two_pow hsum]
      simp; omega

/-- HARVMAP, field by field (spec/19 Table 19-8). -/
theorem harvmap_fields (m : Mach) (core : Nat) :
    (∀ i < 18, (harvmap m core).getLsbD i = smGet false m.retired (18 * clusterOf core + i)) ∧
    (∀ i, 18 ≤ i → i < 32 → (harvmap m core).getLsbD i = false) ∧
    (harvmap m core).toNat / 2 ^ 32 % 2 ^ 8 = (getCore m core).spareBanks % 4 ∧
    (harvmap m core).toNat / 2 ^ 40 =
      (List.range 64).countP (fun p => smGet false m.portsDown p || (smGet {} m.links p).down) := by
  have hrc := bitSum_lt (fun k => smGet false m.retired (18 * clusterOf core + k)) 18
  have hbits := testBit_bitSum (fun k => smGet false m.retired (18 * clusterOf core + k)) 18
  have hdown : (List.range 64).countP (fun p => smGet false m.portsDown p || (smGet {} m.links p).down) ≤ 64 :=
    List.countP_le_length
  have hval : harvmap m core = BitVec.ofNat 64
      ((List.range 64).countP (fun p => smGet false m.portsDown p || (smGet {} m.links p).down) * 2 ^ 40
        + (getCore m core).spareBanks % 4 * 2 ^ 32 + bitSum
            (fun k => smGet false m.retired (18 * clusterOf core + k)) 18) := by
    rw [List.countP_eq_length_filter]
    rfl
  rw [hval]
  generalize (List.range 64).countP (fun p => smGet false m.portsDown p || (smGet {} m.links p).down) = down at *
  generalize bitSum (fun k => smGet false m.retired (18 * clusterOf core + k)) 18 = rc at *
  have hmod : (down * 2 ^ 40 + (getCore m core).spareBanks % 4 * 2 ^ 32 + rc) % 2 ^ 32 = rc := by omega
  have low (i : Nat) (hi : i < 32) :
      (BitVec.ofNat 64 (down * 2 ^ 40 + (getCore m core).spareBanks % 4 * 2 ^ 32 + rc)).getLsbD i
      = rc.testBit i := by
    conv_rhs => rw [← hmod, Nat.testBit_mod_two_pow]
    rw [BitVec.getLsbD_ofNat, decide_eq_true (by omega : i < 64), decide_eq_true hi]
  refine ⟨fun i hi => ?_, fun i hlo hi => ?_, ?_, ?_⟩
  · rw [low i (by omega), hbits]
    simp [hi]
  · rw [low i hi, hbits]
    simp; omega
  · rw [BitVec.toNat_ofNat]
    omega
  · rw [BitVec.toNat_ofNat]
    omega

section
variable {s : State} {h : Hd} {d a : BitVec 6} (hg : guardTrue s.m h = true)
include hg

theorem exec_bRdst_of_readState {n : BitVec 10} {v : Word} (hv : readState s.m n.toNat = v) :
    exec (.bRdst h d n) s = .next { s with m := putS s.m 2 d { val := v } } := by
  rw [exec_bRdst, execBRdst, runWord_true _ hg, hv]

end

theorem readState_control {m : Mach} (hc : isControl m.iss.core = true) {n : Nat} (hn : controlZero n = true) :
    readState m n = 0 := by
  unfold readState
  dsimp only
  rw [hc, hn]
  rfl

/-- EISS without the command that the bundle itself has issued. -/
theorem readState_eiss {m : Mach} (hc : isControl m.iss.core = false) (e : BitVec 2) :
    readState m ((0x01C : BitVec 10) + e.setWidth 10).toNat = BitVec.ofNat 64
      (if m.iss.issuedTo = some e.toNat then smGet 0 (getCore m m.iss.core).eiss e.toNat - 1
        else smGet 0 (getCore m m.iss.core).eiss e.toNat) := by
  have hat : eissAt m e.toNat = if m.iss.issuedTo = some e.toNat then smGet 0 (getCore m m.iss.core).eiss e.toNat - 1
      else smGet 0 (getCore m m.iss.core).eiss e.toNat := by
    unfold eissAt
    split <;> rfl
  rw [← hat]
  unfold readState
  dsimp only
  rw [hc, Bool.false_and, if_neg Bool.false_ne_true]
  have cases : ∀ e : BitVec 2, e = 0 ∨ e = 1 ∨ e = 2 ∨ e = 3 := by decide
  rcases cases e with rfl | rfl | rfl | rfl <;> rfl

/-! ### Writes -/

theorem and_low_half (x : Word) : x &&& 0xFFFFFFFF = (x.setWidth 32).setWidth 64 := by
  apply BitVec.eq_of_toNat_eq
  rw [BitVec.toNat_and, show (0xFFFFFFFF : Word).toNat = 2 ^ 32 - 1 from rfl, Nat.and_two_pow_sub_one_eq_mod]
  simp only [BitVec.toNat_setWidth]
  omega

/-- The bits of a window base (spec/08 R155). -/
theorem winbase_bits (x : Nat) : x / 2 ^ 17 % 2 ^ 35 * 2 ^ 17 = x % 2 ^ 52 / 2 ^ 17 * 2 ^ 17 := by omega

section
variable {s : State} {h : Hd} {a : BitVec 6} (hg : guardTrue s.m h = true) (ha : (rdS s.m 0 a).pois = false)
include hg ha

theorem exec_bWrst_trapbase : exec (.bWrst h a 0x034) s = .next
    { s with m := onIss s.m (fun c => { c with trapbase := ((rdS s.m 0 a).val.setWidth 32).setWidth 64 }) } := by
  rw [exec_bWrst, execBWrst, runWord_true _ hg, ← and_low_half]
  exact next_congr ((if_neg (by decide)).trans (noPoison_of_clean (by simp [ha]) _))

theorem exec_bWrst_fmto0 : exec (.bWrst h a 0x041) s = .next
    { s with m := onIss s.m (fun c => { c with fmto0 := (rdS s.m 0 a).val &&& 0xFFFF07FF }) } := by
  rw [exec_bWrst, execBWrst, runWord_true _ hg]
  exact next_congr ((if_neg (by decide)).trans (noPoison_of_clean (by simp [ha]) _))

theorem exec_bWrst_fmto1 : exec (.bWrst h a 0x042) s = .next
    { s with m := onIss s.m (fun c => { c with fmto1 := (rdS s.m 0 a).val &&& 0xFFFF07FF }) } := by
  rw [exec_bWrst, execBWrst, runWord_true _ hg]
  exact next_congr ((if_neg (by decide)).trans (noPoison_of_clean (by simp [ha]) _))

theorem exec_bWrst_maxgap (hc : isControl s.m.iss.core = false) : exec (.bWrst h a 0x00A) s = .next ⟨
    if (issCtx s.m).gapLimit.toNat % 2 ^ 32 < (rdS s.m 0 a).val.toNat % 2 ^ 32 then trapW s.m 0x03
    else onIss s.m (fun c => { c with maxgap := ((rdS s.m 0 a).val.setWidth 32).setWidth 64 }), s.trust⟩ := by
  rw [exec_bWrst, execBWrst, runWord_true _ hg, ← and_low_half]
  refine next_congr ((if_neg (by decide)).trans ((noPoison_of_clean (by simp [ha]) _).trans ?_))
  refine if_congr ?_ rfl rfl
  rw [hc]
  simp

/-- WINBASE: every core's cached windows of the partition are to be invalidated (spec/08 R155). -/
theorem exec_bWrst_winbase : ∃ m' : Mach, exec (.bWrst h a 0x050) s = .next { s with m := m' } ∧
    (getPart m' (clusterOf s.m.iss.core)).winbase = BitVec.ofNat 64
        ((rdS s.m 0 a).val.toNat % 2 ^ 52 / 2 ^ 17 * 2 ^ 17) ∧
    (∀ q, q ≠ clusterOf s.m.iss.core → getPart m' q = getPart s.m q) ∧
    m'.invals = s.m.invals ++ [⟨clusterOf s.m.iss.core, true, 0, true, 0⟩] ∧ m'.mem = s.m.mem ∧ m'.tag = s.m.tag +
        1 := by
  rw [exec_bWrst, execBWrst, runWord_true _ hg]
  refine ⟨_, next_congr ((if_neg (by decide)).trans (noPoison_of_clean (by simp [ha]) _)), ?_, fun q hq => ?_, rfl,
      rfl, rfl⟩
  · rw [← winbase_bits]
    exact congrArg Part.winbase (smGet_put_same _ _ _ _)
  · exact smGet_put_ne _ _ hq _
end

end Sys2Proof.Machine

open Sys2Proof Sys2Proof.Machine

/-- Settles O26: what each register reads, and one lemma for each register that b.wrst writes. -/
theorem stateRegisters : Obligations.StateRegisters := by
  unfold Obligations.StateRegisters
  refine ⟨fun s h d hg hc => ?_, fun s h d hg hc n hn => ?_, fun s h a hg hc ha => ?_, fun s h a hg ha => ?_⟩
  · intro reads c k
    have own {n : BitVec 10} {v : Word} (hv : readState s.m n.toNat = v) : reads n v := exec_bRdst_of_readState hg hv
    obtain ⟨cores, zeros, banks, ports⟩ := harvmap_fields s.m s.m.iss.core
    refine ⟨?_, ?_, ?_, ?_, ?_, ?_, ?_, ?_, ?_, ?_, ?_, ?_, ?_, ?_, ?_, ?_, ?_, ?_, ?_, fun e => own
        (readState_eiss hc e),
      ?_, ⟨harvmap s.m s.m.iss.core, ?_, cores, zeros, banks, ports⟩, ?_, ?_, ?_, ?_, ?_, ?_, ?_, ?_, ?_, ?_, ?_,
          ?_, ?_, ?_, ?_,
      ?_, ?_, ?_⟩
    all_goals
      refine own ?_
      unfold readState
      dsimp only
      rw [hc, Bool.false_and, if_neg Bool.false_ne_true]
      rfl
  · refine exec_bRdst_of_readState hg (readState_control hc ?_)
    exact (List.all_eq_true (p := fun n : BitVec 10 => controlZero n.toNat)).1 (by decide) n hn
  · intro x sets
    refine ⟨exec_bWrst_trapbase hg ha, exec_bWrst_fmto0 hg ha, exec_bWrst_fmto1 hg ha, fun hle => ?_, fun hlt => ?_,
      fun hours t ht => ⟨fun harr => ?_, fun hb => ?_, fun hb hu => ?_, fun hb hu => ?_⟩⟩
    · exact (exec_bWrst_maxgap hg ha hc).trans (next_congr (if_neg (Nat.not_lt.2 hle)))
    · exact (exec_bWrst_maxgap hg ha hc).trans (next_congr (if_pos hlt))
    · rw [exec_bWrst_prec hg ha, exec_mPrec, execMPrec, runWord_true _ hg, harr]
    · exact (exec_bWrst_prec hg ha t).trans (next_congr (precWord_bad hours ht ha hb))
    · exact (exec_bWrst_prec hg ha t).trans (next_congr (precWord_undrained hours ht ha hb hu (.inl rfl)))
    · obtain ⟨sets, harr, hsets⟩ := arrOf_precSet s.m s.m.iss.arr (t := t.toNat) x
      refine ⟨_, (exec_bWrst_prec hg ha t).trans (next_congr (precWord_sets hours ht ha hb (.inl hu))),
        precOf_precSet _ _ t.isLt _, fun u hlt hne => precOf_precSet_ne _ _ t.isLt _ hlt hne, ?_, rfl⟩
      rw [hsets hu] at harr
      exact harr
  · exact exec_bWrst_winbase hg ha

end

section
/-!
PROOFS. Fences, sluices, timelines and barriers (spec/11 R193 to R199, R201, spec/12 R212, spec/20).
-/

namespace Sys2Proof.Machine

/-! ### Views -/

section
variable (m : Mach) (a g p : Nat)

theorem getAgent_modAgent (f : Agent → Agent) : getAgent (modAgent m a f) a = f (getAgent m a) := getAgent_setAgent
    _ _ _

theorem getAgent_modAgent_ne {b : Nat} (h : b ≠ a) (f : Agent → Agent) : getAgent (modAgent m a f) b = getAgent m b :=
  smGet_put_ne _ _ h _

theorem viewOf_raiseView : viewOf (raiseView m a g p) a g = max (viewOf m a g) p := by
  rw [viewOf, raiseView, getAgent_modAgent]
  exact smGet_put_same _ _ _ _

theorem viewOf_raiseView_ne {b g' : Nat} (h : b ≠ a ∨ g' ≠ g) : viewOf (raiseView m a g p) b g' = viewOf m b g' := by
  rcases eq_or_ne b a with rfl | hb
  · rw [viewOf, raiseView, getAgent_modAgent]
    exact smGet_put_ne _ _ (h.resolve_left (by simp)) _
  · rw [viewOf, raiseView, getAgent_modAgent_ne _ _ hb, viewOf]

theorem viewOf_le_raiseView (b g' : Nat) : viewOf m b g' ≤ viewOf (raiseView m a g p) b g' := by
  by_cases h : b = a ∧ g' = g
  · obtain ⟨rfl, rfl⟩ := h
    rw [viewOf_raiseView]
    exact le_max_left _ _
  · rw [viewOf_raiseView_ne m a g p (not_and_or.1 h)]
end

/-- Raising views changes the views of one agent alone. -/
structure OnlyViews (a : Nat) (m m' : Mach) : Prop where
  iq : (getAgent m' a).iq = (getAgent m a).iq
  seen : (getAgent m' a).seen = (getAgent m a).seen
  up : ∀ b g, viewOf m b g ≤ viewOf m' b g
  others : ∀ b g, b ≠ a → viewOf m' b g = viewOf m b g
  mem : m'.mem = m.mem
  hist : m'.hist = m.hist

theorem onlyViews_refl (a : Nat) (m : Mach) : OnlyViews a m m :=
    ⟨rfl, rfl, fun _ _ => le_rfl, fun _ _ _ => rfl, rfl, rfl⟩

theorem OnlyViews.trans {a : Nat} {m m1 m2 : Mach} (h : OnlyViews a m m1) (h' : OnlyViews a m1 m2) : OnlyViews a m
    m2 :=
  ⟨h'.iq.trans h.iq, h'.seen.trans h.seen, fun b g => (h.up b g).trans (h'.up b g),
    fun b g hb => (h'.others b g hb).trans (h.others b g hb), h'.mem.trans h.mem, h'.hist.trans h.hist⟩

theorem onlyViews_raiseView (m : Mach) (a g p : Nat) : OnlyViews a m (raiseView m a g p) :=
  ⟨by rw [raiseView, getAgent_modAgent], by rw [raiseView, getAgent_modAgent], viewOf_le_raiseView m a g p,
    fun _ _ hb => viewOf_raiseView_ne m a g p (.inl hb), rfl, rfl⟩

theorem onlyViews_raiseViews (a : Nat) (ps : List (Nat × Nat)) (m : Mach) :
    OnlyViews a m (raiseViews m a ps) ∧ ∀ e ∈ ps, e.2 ≤ viewOf (raiseViews m a ps) a e.1 := by
  induction ps generalizing m with
  | nil => exact ⟨onlyViews_refl a m, by simp⟩
  | cons e ps ih =>
    obtain ⟨hrest, hviews⟩ := ih (raiseView m a e.1 e.2)
    refine ⟨(onlyViews_raiseView m a e.1 e.2).trans hrest, fun x hx => ?_⟩
    rcases List.mem_cons.1 hx with rfl | hx
    · calc x.2 ≤ viewOf (raiseView m a x.1 x.2) a x.1 := by rw [viewOf_raiseView]; exact le_max_right _ _
        _ ≤ _ := hrest.up a x.1
    · exact hviews x hx

/-- Raising views to the newest positions of some granules. -/
theorem onlyViews_raiseNewest (a : Nat) (gs : List Nat) (m : Mach) :
    let m' := gs.foldl (fun m g => raiseView m a g (newestPos m g)) m
    OnlyViews a m m' ∧ ∀ g ∈ gs, newestPos m g ≤ viewOf m' a g := by
  induction gs generalizing m with
  | nil => exact ⟨onlyViews_refl a m, by simp⟩
  | cons g gs ih =>
    obtain ⟨hrest, hviews⟩ := ih (raiseView m a g (newestPos m g))
    refine ⟨(onlyViews_raiseView m a g _).trans hrest, fun x hx => ?_⟩
    rcases List.mem_cons.1 hx with rfl | hx
    · refine le_trans ?_ (hrest.up a x)
      rw [viewOf_raiseView]
      exact le_max_right _ _
    · exact hviews x hx

/-- A key that a map gives a value is listed in it. -/
theorem mem_keys_of_smGet_ne {α : Type} {d : α} {m : SMap α} {k : Nat} (h : smGet d m k ≠ d) : k ∈ m.map (·.1) := by
  induction m with
  | nil => exact absurd rfl h
  | cons e m ih =>
    rw [smGet] at h
    split at h
    · next hk => exact List.mem_cons.2 (.inl hk.symm)
    · exact List.mem_cons_of_mem _ (ih h)

/-! ### Fences go (R193) -/

/-- The machine as a fence leaves its queue. -/
def fenceLeft (m : Mach) (agent idx : Nat) : Mach := modAgent (leaves m agent idx) agent
    (fun x => { x with seen := m.step })

/-- The machine once the views have gone to the newest of all covered granules, where the fence asks for it. -/
def newestSeen (m : Mach) (agent scope : Nat) (asked : Bool) : Mach :=
  if asked then raiseCovered m agent (agentCore agent) scope else m

/-- The machine once the views have gone past some payloads, where the fence asks for it. -/
def arrivedSeen (m : Mach) (agent : Nat) (ps : List (Nat × Nat)) (asked : Bool) : Mach :=
  if asked then raiseViews m agent ps else m

/-- The machine once a fence has gone. -/
def fenceGone (m : Mach) (agent idx : Nat) (a : Act) (pred succ : BitVec 5) (scope : Nat) : Mach :=
  wakeCore (arrivedSeen (newestSeen (fenceLeft m agent idx) agent scope (succ.getLsbD 0)) agent
    (((getCore m (agentCore agent)).arrived.take a.aux).filter (fun p => covers m scope (agentCore agent) p.1))
    (pred.getLsbD 4)) (agentCore agent)

theorem getAgent_fenceLeft (m : Mach) (agent idx : Nat) : getAgent (fenceLeft m agent idx) agent =
    { getAgent m agent with iq := dropSyncs ((getAgent m agent).iq.eraseIdx idx), seen := m.step } := by
  rw [fenceLeft, getAgent_modAgent, leaves, getAgent_modAgent]

theorem getAgent_fenceLeft_ne (m : Mach) {agent b : Nat} (idx : Nat) (h : b ≠ agent) :
    getAgent (fenceLeft m agent idx) b = getAgent m b := by
  rw [fenceLeft, getAgent_modAgent_ne _ _ h, leaves, getAgent_modAgent_ne _ _ h]

theorem onlyViews_newestSeen (m : Mach) (agent scope : Nat) (asked : Bool) :
    OnlyViews agent m (newestSeen m agent scope asked) ∧
    (asked = true → ∀ g, smGet [] m.hist g ≠ [] → covers m scope (agentCore agent) g = true →
      newestPos m g ≤ viewOf (newestSeen m agent scope asked) agent g) := by
  cases asked with
  | false => exact ⟨onlyViews_refl _ _, fun h => absurd h Bool.false_ne_true⟩
  | true =>
    obtain ⟨honly, hviews⟩ := onlyViews_raiseNewest agent
        ((m.hist.map (·.1)).filter (covers m scope (agentCore agent))) m
    exact ⟨honly, fun _ g hne hcov => hviews g (List.mem_filter.2 ⟨mem_keys_of_smGet_ne hne, hcov⟩)⟩

theorem onlyViews_arrivedSeen (m : Mach) (agent : Nat) (ps : List (Nat × Nat)) (asked : Bool) :
    OnlyViews agent m (arrivedSeen m agent ps asked) ∧
    (asked = true → ∀ e ∈ ps, e.2 ≤ viewOf (arrivedSeen m agent ps asked) agent e.1) := by
  cases asked with
  | false => exact ⟨onlyViews_refl _ _, fun h => absurd h Bool.false_ne_true⟩
  | true =>
    obtain ⟨honly, hviews⟩ := onlyViews_raiseViews agent ps m
    exact ⟨honly, fun _ => hviews⟩

theorem exec_fenceComplete_eq {s : State} {agent idx : Nat} {a : Act} {pred succ : BitVec 5} {scope : Nat}
    (hrun : s.m.phase = .running) (ha : (getAgent s.m agent).iq[idx]? = some a)
        (hk : a.kind = .fence pred succ scope) :
    exec (.fenceComplete agent idx) s = .next ⟨
      if !(((getAgent s.m agent).iq.take idx).all (fencePasses s.m (agentCore agent) scope)) ∨
        !(fenceReady s.m agent a.tag pred scope) then s.m
      else fenceGone s.m agent idx a pred succ scope, s.trust⟩ := by
  rw [exec_fenceComplete, execFenceComplete, whenRunning, onMach]
  refine next_congr ((if_pos hrun).trans ?_)
  dsimp only
  rw [ha]
  dsimp only
  rw [hk]
  rfl

theorem fenceGone_facts (m : Mach) (agent idx : Nat) (a : Act) (pred succ : BitVec 5) (scope : Nat) :
    let m' := fenceGone m agent idx a pred succ scope
    (getAgent m' agent).iq = dropSyncs ((getAgent m agent).iq.eraseIdx idx) ∧ m'.mem = m.mem ∧
    (getAgent m' agent).seen = m.step ∧
    (succ.getLsbD 0 = true → ∀ g, smGet [] m.hist g ≠ [] → covers m scope (agentCore agent) g = true →
      newestPos m g ≤ viewOf m' agent g) ∧
    (pred.getLsbD 4 = true → ∀ e ∈ (getCore m (agentCore agent)).arrived.take a.aux,
      covers m scope (agentCore agent) e.1 = true → e.2 ≤ viewOf m' agent e.1) ∧
    (∀ b g, b ≠ agent → viewOf m' b g = viewOf m b g) := by
  obtain ⟨hnew, hnewest⟩ := onlyViews_newestSeen (fenceLeft m agent idx) agent scope (succ.getLsbD 0)
  obtain ⟨harr, harrived⟩ := onlyViews_arrivedSeen
      (newestSeen (fenceLeft m agent idx) agent scope (succ.getLsbD 0)) agent
    (((getCore m (agentCore agent)).arrived.take a.aux).filter (fun p => covers m scope (agentCore agent) p.1))
        (pred.getLsbD 4)
  have honly := hnew.trans harr
  refine ⟨honly.iq.trans (by rw [getAgent_fenceLeft]), honly.mem, honly.seen.trans (by rw [getAgent_fenceLeft]),
    fun h g hne hcov => (hnewest h g hne hcov).trans (harr.up agent g),
    fun h e he hcov => harrived h e (List.mem_filter.2 ⟨he, hcov⟩), fun b g hb => (honly.others b g hb).trans ?_⟩
  rw [viewOf, getAgent_fenceLeft_ne _ _ hb, viewOf]

/-! ### Shuts go (R196) -/

/-- The physical ranges of the regions of a sluice. -/
def sluiceRanges (m : Mach) (p n : Nat) : List (Nat × Nat) :=
  (((getPart m p).regions.filter (fun r => r.sluice == n)).map (regionRanges m p)).flatten

/-- Does an action write a granule of some ranges? -/
def MeetsRanges (rs : List (Nat × Nat)) (x : Act) : Prop :=
  inRegions rs x.gran = true ∨ ∃ lanes, x.kind = .radd lanes ∧ ∃ o ∈ [16, 32, 48], inRegions rs (x.gran + o) = true

/-- The machine once a shut has gone. -/
def shutGone (m : Mach) (agent : Nat) (a : Act) (n : Nat) : Mach :=
  let pos := ((m.hist.map (·.1)).filter (inRegions (sluiceRanges m a.area n))).map (fun g => (g, newestPos m g))
  let sl := sluiceOf m a.area n
  let m1 := modPart (leaves m agent 0) a.area (fun q =>
    { q with sluices := smPut {} q.sluices n { sl with version := sl.version + 1, recd := pos } })
  setVals { m1 with step := m1.step + 1 } (agentCore agent) (agentSub agent) a.tag [{ val := sl.version + 1 }]

theorem exec_shutCommit_eq {s : State} {agent idx : Nat} {a : Act} {n : Nat} (hrun : s.m.phase = .running)
    (ha : (getAgent s.m agent).iq[idx]? = some a) (hk : a.kind = .shut n) {may : Prop}
    (hmay : may ↔ idx = 0 ∧ ∀ x ∈ flying s.m agent,
        ¬(x.tag < a.tag ∧ isWrite x.kind = true ∧ MeetsRanges (sluiceRanges s.m a.area n) x)) :
    (¬may → exec (.shutCommit agent idx) s = .next s) ∧
    (may → exec (.shutCommit agent idx) s = .next { s with m := shutGone s.m agent a n }) := by
  have hopen (x : Act) : (inRegions (sluiceRanges s.m a.area n) x.gran || (match x.kind with
      | .radd _ => [16, 32, 48].any (fun o => inRegions (sluiceRanges s.m a.area n) (x.gran + o))
      | _ => false)) = true ↔ MeetsRanges (sluiceRanges s.m a.area n) x := by
    rw [MeetsRanges, Bool.or_eq_true]
    refine or_congr Iff.rfl ?_
    split
    · next lanes hx => simp [hx]
    · next hx => simpa using fun lanes h => absurd h (hx lanes)
  rw [exec_shutCommit, execShutCommit, whenRunning, onMach]
  dsimp only
  rw [if_pos hrun, ha]
  dsimp only
  rw [hk]
  dsimp only
  refine ⟨fun hno => next_congr (if_pos ?_), fun hyes => ?_⟩
  · by_contra hcon
    rw [not_or, not_not] at hcon
    refine hno (hmay.2 ⟨hcon.1, fun x hx hbad => hcon.2 (List.any_eq_true.2 ⟨x, hx, ?_⟩)⟩)
    obtain ⟨htag, hw, hmeet⟩ := hbad
    rw [decide_eq_true htag, hw]
    exact (hopen x).2 hmeet
  · obtain ⟨rfl, hclear⟩ := hmay.1 hyes
    refine next_congr ((if_neg ?_).trans rfl)
    rintro (h | h)
    · exact h rfl
    · obtain ⟨x, hx, hbad⟩ := List.any_eq_true.1 h
      simp only [Bool.and_eq_true, decide_eq_true_eq] at hbad
      obtain ⟨⟨htag, hw⟩, hmeet⟩ := hbad
      exact hclear x hx ⟨htag, hw, (hopen x).1 hmeet⟩

theorem shutGone_facts (m : Mach) (agent : Nat) (a : Act) (n : Nat) :
    let m' := shutGone m agent a n
    (sluiceOf m' a.area n).version = (sluiceOf m a.area n).version + 1 ∧
    (sluiceOf m' a.area n).declared = (sluiceOf m a.area n).declared ∧
    (∀ g, smGet [] m.hist g ≠ [] → inRegions (sluiceRanges m a.area n) g = true →
      (g, newestPos m g) ∈ (sluiceOf m' a.area n).recd) ∧
    (∀ k, k ≠ n → sluiceOf m' a.area k = sluiceOf m a.area k) ∧ m'.step = m.step + 1 ∧
    (getAgent m' agent).iq = dropSyncs ((getAgent m agent).iq.eraseIdx 0) ∧ m'.mem = m.mem := by
  have hpart : getPart (shutGone m agent a n) a.area = { getPart m a.area with
      sluices := smPut {} (getPart m a.area).sluices n { sluiceOf m a.area n with
        version := (sluiceOf m a.area n).version + 1
        recd := ((m.hist.map (·.1)).filter (inRegions (sluiceRanges m a.area n))).map (fun g => (g, newestPos m g))
            } } :=
    smGet_put_same _ _ _ _
  have hag : getAgent (leaves m agent 0) agent =
      { getAgent m agent with iq := dropSyncs ((getAgent m agent).iq.eraseIdx 0) } := getAgent_modAgent _ _ _
  dsimp only
  unfold sluiceOf at hpart ⊢
  rw [hpart, smGet_put_same]
  refine ⟨rfl, rfl, fun g hne hin => ?_, fun k hk => ?_, rfl, ?_, rfl⟩
  · exact List.mem_map.2 ⟨g, List.mem_filter.2 ⟨mem_keys_of_smGet_ne hne, hin⟩, rfl⟩
  · exact smGet_put_ne _ _ hk _
  · exact congrArg Agent.iq hag

/-! ### The words -/

section
variable {s : State} {h : Hd} (hg : guardTrue s.m h = true)
include hg

theorem exec_bBwait_true (k : BitVec 4) : exec (.bBwait h k) s = .next ⟨
    if smGet 0 (getCore s.m s.m.iss.core).bars k.toNat ≠ 0 then waitBundle s.m (.barrier s.m.iss.core k.toNat)
    else addSync (raiseViews s.m (ctxAgent s.m.iss.core s.m.iss.ctx)
      (((getCore s.m s.m.iss.core).barWrites.filter (fun w => w.bar == k.toNat)).map (fun w => (w.gran, w.pos)))),
          s.trust⟩ := by
  rw [exec_bBwait, execBBwait, runWord_true _ hg]

variable {a : BitVec 6} (ha : (rdS s.m 0 a).pois = false)
include ha

theorem exec_bOpen_clean {b : BitVec 6} (hb : (rdS s.m 1 b).pois = false) : exec (.bOpen h a b) s = .next ⟨
    if sluiceBad s.m (issCtx s.m).area (rdS s.m 0 a).val then trapW s.m 0x38
    else if BitVec.ult (sluiceOf s.m (issCtx s.m).area (rdS s.m 0 a).val.toNat).version (rdS s.m 1 b).val then
      waitBundle s.m (.sluice (rdS s.m 0 a).val.toNat (rdS s.m 1 b).val)
    else addSync (raiseViews s.m (ctxAgent s.m.iss.core s.m.iss.ctx)
      (sluiceOf s.m (issCtx s.m).area (rdS s.m 0 a).val.toNat).recd), s.trust⟩ := by
  rw [exec_bOpen, execBOpen, runWord_true _ hg]
  exact next_congr (noPoison_of_clean (by simp [ha, hb]) _)

theorem exec_bShut_clean (d : BitVec 6) : exec (.bShut h d a) s = .next ⟨
    if sluiceBad s.m (issCtx s.m).area (rdS s.m 0 a).val ∨
        (sluiceOf s.m (issCtx s.m).area (rdS s.m 0 a).val.toNat).version = -1 then trapW s.m 0x38
    else addActs (addPend s.m ⟨s.m.tag, .regs, sDst [d], 0, [], [], false, false, none, 0, finfoHere s.m⟩)
      [{ tag := 0, kind := .shut (rdS s.m 0 a).val.toNat }], s.trust⟩ := by
  rw [exec_bShut, execBShut, runWord_true _ hg]
  exact next_congr (noPoison_of_clean (by simp [ha]) _)

theorem exec_bTwait_clean (e : BitVec 2) : exec (.bTwait h e a) s = .next ⟨
    if (rdS s.m 0 a).val ≠ 0 ∧ smGet 0 (getCore s.m s.m.iss.core).etl e.toNat <
        mapCmd (issCtx s.m) e.toNat (rdS s.m 0 a).val.toNat then
      waitBundle s.m (.timeline s.m.iss.core e.toNat (mapCmd (issCtx s.m) e.toNat (rdS s.m 0 a).val.toNat))
    else addSync (raiseViews s.m (ctxAgent s.m.iss.core s.m.iss.ctx)
      (((getCore s.m s.m.iss.core).engWrites.filter (fun w => w.e == e.toNat &&
        w.num ≤ mapCmd (issCtx s.m) e.toNat (rdS s.m 0 a).val.toNat && (rdS s.m 0 a).val != 0)).map
          (fun w => (w.gran, w.pos)))), s.trust⟩ := by
  rw [exec_bTwait, execBTwait, runWord_true _ hg]
  exact next_congr (noPoison_of_clean (by simp [ha]) _)

theorem exec_bArm_clean (k : BitVec 4) : exec (.bArm h k a) s = .next ⟨
    if 2 ^ 39 ≤ (rdS s.m 0 a).val.toNat then trapW s.m 0x1A
    else onIss (modCore s.m s.m.iss.core (fun c => barAdd c s.m.cycle k.toNat (rdS s.m 0 a).val.toNat))
      (fun c => { c with armMark :=
        if (rdS s.m 0 a).val = 0 then c.armMark else c.armMark ||| BitVec.ofNat 16 (2 ^ k.toNat) }), s.trust⟩ := by
  rw [exec_bArm, execBArm, runWord_true _ hg]
  exact next_congr (noPoison_of_clean (by simp [ha]) _)
end

/-- A sluice number that is malformed or not declared. -/
theorem sluiceBad_iff (m : Mach) (p : Nat) (x : Word) :
    sluiceBad m p x = true ↔ 2 ^ 16 ≤ x.toNat ∨ (sluiceOf m p x.toNat).declared = false := by
  rw [sluiceBad, Bool.or_eq_true, bne_iff_ne, Bool.not_eq_true']
  refine or_congr ⟨fun h => ?_, fun h => ?_⟩ Iff.rfl
  · by_contra hlt
    exact h (Nat.div_eq_of_lt (Nat.not_le.1 hlt))
  · exact (Nat.div_pos h (by decide)).ne'

theorem bars_onIss (m : Mach) (f : Ctx → Ctx) : (getCore (onIss m f) m.iss.core).bars = (getCore m m.iss.core).bars :=
  by
  have h := congrArg Core.bars
      (getCore_setCore m m.iss.core (setCtxOf (getCore m m.iss.core) m.iss.ctx (f (issCtx m))))
  exact h

/-- What b.arm adds to its barrier. -/
theorem bars_barAdd (k : Core) (now bar : Nat) (x : Int) (j : Nat) : smGet 0 (barAdd k now bar x).bars j =
    if j = bar then smGet 0 k.bars bar + BitVec.ofInt 40 x else smGet 0 k.bars j := by
  split
  · next h => rw [h]; exact smGet_put_same _ _ _ _
  · next h => exact smGet_put_ne _ _ h _

/-- The machine once a barrier is armed. -/
theorem armed_facts (m : Mach) (k : BitVec 4) (v : Word) :
    let m' := onIss (modCore m m.iss.core (fun c => barAdd c m.cycle k.toNat v.toNat))
      (fun c => { c with armMark := if v = 0 then c.armMark else c.armMark ||| BitVec.ofNat 16 (2 ^ k.toNat) })
    m'.mem = m.mem ∧
    smGet 0 (getCore m' m.iss.core).bars k.toNat = smGet 0 (getCore m m.iss.core).bars k.toNat + v.setWidth 40 ∧
    (∀ j, j ≠ k.toNat → smGet 0 (getCore m' m.iss.core).bars j = smGet 0 (getCore m m.iss.core).bars j) ∧
    (issCtx m').armMark = if v = 0 then (issCtx m).armMark else (issCtx m).armMark ||| BitVec.ofNat 16
        (2 ^ k.toNat) := by
  have hcore : getCore (modCore m m.iss.core (fun c => barAdd c m.cycle k.toNat v.toNat)) m.iss.core =
      barAdd (getCore m m.iss.core) m.cycle k.toNat v.toNat := getCore_setCore _ _ _
  have hbars (f : Ctx → Ctx) (j : Nat) := (congrArg (smGet 0 · j)
    (bars_onIss (modCore m m.iss.core (fun c => barAdd c m.cycle k.toNat v.toNat)) f)).trans
      ((congrArg (fun c : Core => smGet 0 c.bars j) hcore).trans (bars_barAdd _ _ _ _ j))
  refine ⟨rfl, (hbars _ k.toNat).trans ((if_pos rfl).trans ?_), fun j hj => (hbars _ j).trans (if_neg hj), ?_⟩
  · rw [BitVec.ofInt_natCast]
    rfl
  · have hctx : issCtx (modCore m m.iss.core (fun c => barAdd c m.cycle k.toNat v.toNat)) = issCtx m := by
      have e := congrArg (fun c : Core => smGet ({} : Ctx) c.ctxs m.iss.ctx) hcore
      exact e
    rw [issCtx_onIss, hctx]

end Sys2Proof.Machine

open Sys2Proof Sys2Proof.Machine

/-- Settles O27: one lemma for each word, and what a fence and a shut leave once they go. -/
theorem orderingWords : Obligations.OrderingWords := by
  unfold Obligations.OrderingWords
  refine ⟨fun s h hg => ⟨fun p c x => ?fence, fun k => ⟨fun h0 => ?_, fun h0 => ?_⟩, fun a ha => ?regs⟩,
    fun s agent idx a hrun hiq => ⟨fun pred succ scope hk => ?goes, fun n hk => ?shuts⟩⟩
  case fence => rw [exec_bFence, execBFence, runWord_true _ hg]
  · exact (exec_bBwait_true hg k).trans (next_congr (if_neg (not_not.2 h0)))
  · exact (exec_bBwait_true hg k).trans (next_congr (if_pos h0))
  case regs =>
    intro v sl
    have ok (hlt : v.toNat < 2 ^ 16) (hdecl : sl.declared = true) : ¬sluiceBad s.m (issCtx s.m).area v = true := by
      rw [sluiceBad_iff, not_or]
      exact ⟨Nat.not_le.2 hlt, fun h => absurd (hdecl.symm.trans h) (by decide)⟩
    refine ⟨fun b hb => ⟨fun hbad => ?_, fun hlt hdecl => ⟨fun hle => ?_, fun hgt => ?_⟩⟩, fun d =>
        ⟨fun hbad => ?_, fun hlt hdecl hne => ?_⟩,
      fun e => ⟨fun hthere => ?_, fun hne hlater => ?_⟩, fun k => ⟨fun hbig => ?_, fun hfits => ?_⟩⟩
    · exact (exec_bOpen_clean hg ha hb).trans (next_congr (if_pos ((sluiceBad_iff _ _ _).2 hbad)))
    · refine (exec_bOpen_clean hg ha hb).trans (next_congr ((if_neg (ok hlt hdecl)).trans (if_neg ?_)))
      rw [BitVec.ult, decide_eq_true_eq]
      exact Nat.not_lt.2 hle
    · refine (exec_bOpen_clean hg ha hb).trans (next_congr ((if_neg (ok hlt hdecl)).trans (if_pos ?_)))
      rw [BitVec.ult, decide_eq_true_eq]
      exact hgt
    · refine (exec_bShut_clean hg ha d).trans (next_congr (if_pos ?_))
      rw [sluiceBad_iff, or_assoc]
      exact hbad
    · exact (exec_bShut_clean hg ha d).trans (next_congr (if_neg (not_or.2 ⟨ok hlt hdecl, hne⟩)))
    · refine (exec_bTwait_clean hg ha e).trans (next_congr (if_neg ?_))
      rintro ⟨hne, hlt⟩
      exact hthere.elim hne (Nat.not_le.2 hlt)
    · exact (exec_bTwait_clean hg ha e).trans (next_congr (if_pos ⟨hne, hlater⟩))
    · exact (exec_bArm_clean hg ha k).trans (next_congr (if_pos hbig))
    · exact ⟨_, (exec_bArm_clean hg ha k).trans (next_congr (if_neg (Nat.not_le.2 hfits))), armed_facts s.m k v⟩
  case goes =>
    intro may
    refine ⟨fun hno => ?_, fun hmay => ⟨_, (exec_fenceComplete_eq hrun hiq hk).trans (next_congr (if_neg ?_)),
      fenceGone_facts s.m agent idx a pred succ scope⟩⟩
    · refine (exec_fenceComplete_eq hrun hiq hk).trans (next_congr (if_pos ?_))
      by_contra hcon
      rw [not_or, Bool.not_eq_true', Bool.not_eq_true', Bool.not_eq_false, Bool.not_eq_false, List.all_eq_true] at hcon
      exact hno hcon
    · rw [not_or, Bool.not_eq_true', Bool.not_eq_true', Bool.not_eq_false, Bool.not_eq_false, List.all_eq_true]
      exact hmay
  case shuts =>
    intro rs meets may sl
    obtain ⟨hno, hyes⟩ := exec_shutCommit_eq hrun hiq hk (may := may) Iff.rfl
    refine ⟨hno, fun hmay => ⟨_, hyes hmay, shutGone_facts s.m agent a n⟩⟩

end

section
/-!
PROOFS. Queues, launches and posts (spec/02 R42, spec/03 Table 3-3, spec/20 R296, R299 to R301).
-/

namespace Sys2Proof.Machine

/-- A queue operand that names a declared work queue of the owner. -/
theorem queueBad_eq_false_iff (m : Mach) (owner : Nat) (x : Word) : queueBad m owner x = false ↔
    x.toNat < 4096 ∧ (getQueue m (x.toNat % 4096)).declared = true ∧ (getQueue m (x.toNat % 4096)).work = true ∧
      (getQueue m (x.toNat % 4096)).owner = owner := by
  simp only [queueBad, Bool.or_eq_false_iff, bne_eq_false_iff_eq, Bool.not_eq_false', and_assoc]
  rw [Nat.div_eq_zero_iff]
  simp

/-- What a push makes of a queue. -/
theorem pushed_eq (q : Queue) (l : Bool) (v : Word) :
    (if l then { q with closed := true } else { q with entries := q.entries ++ [v] }) =
      { q with closed := q.closed || l, entries := if l then q.entries else q.entries ++ [v] } := by
  cases l
  · simp
  · simp

/-- The waiters of a queue with one more. -/
def withWaiter (q : Queue) (me : Nat × Nat) : Queue :=
  { q with waiters := if q.waiters.contains me then q.waiters else q.waiters ++ [me] }

theorem mem_withWaiter (q : Queue) (me : Nat × Nat) : me ∈ (withWaiter q me).waiters := by
  unfold withWaiter
  dsimp only
  split
  · next h => exact List.contains_iff_mem.1 h
  · simp

section
variable {s : State} {h : Hd} {a : BitVec 6} (hg : guardTrue s.m h = true) (ha : (rdS s.m 0 a).pois = false)
include hg ha

theorem exec_bPop_bad {d : BitVec 6} {n : Bool} {p : BitVec 3}
    (hbad : queueBad s.m (ctxOwner (issCtx s.m)) (rdS s.m 0 a).val = true) :
    exec (.bPop h d a n p) s = .next { s with m := trapW s.m 0x39 } := by
  rw [exec_bPop, execBPop, runWord_true _ hg]
  exact next_congr ((noPoison_of_clean (by simp [ha]) _).trans (if_pos hbad))

section
variable {d : BitVec 6} {n : Bool} {p : BitVec 3} {q : Queue}
  (hgood : queueBad s.m (ctxOwner (issCtx s.m)) (rdS s.m 0 a).val = false)
      (hq : q = getQueue s.m (rdS s.m 0 a).val.toNat)
include hgood hq

theorem exec_bPop_takes {v : Word} (hv : q.entries[popPlace q (s.m.iss.core, s.m.iss.ctx)]? = some v) :
    exec (.bPop h d a n p) s = .next ⟨popResult (setQueue s.m (rdS s.m 0 a).val.toNat
      { q with
        entries := q.entries.eraseIdx (popPlace q (s.m.iss.core, s.m.iss.ctx))
        waiters := q.waiters.filter (· != (s.m.iss.core, s.m.iss.ctx)) }) d p v true, s.trust⟩ := by
  subst hq
  rw [exec_bPop, execBPop, runWord_true _ hg]
  refine next_congr ((noPoison_of_clean (by simp [ha]) _).trans ((if_neg (Bool.eq_false_iff.1 hgood)).trans ?_))
  dsimp only
  rw [hv]

theorem exec_bPop_none (hv : q.entries[popPlace q (s.m.iss.core, s.m.iss.ctx)]? = none) :
    exec (.bPop h d a n p) s = .next ⟨
      if q.closed then popResult (setQueue s.m (rdS s.m 0 a).val.toNat
        { q with waiters := q.waiters.filter (· != (s.m.iss.core, s.m.iss.ctx)) }) d p 1 false
      else if n then popResult s.m d p 0 false
      else waitBundle (setQueue s.m (rdS s.m 0 a).val.toNat (withWaiter q (s.m.iss.core, s.m.iss.ctx)))
        (.queue (rdS s.m 0 a).val.toNat), s.trust⟩ := by
  subst hq
  rw [exec_bPop, execBPop, runWord_true _ hg]
  refine next_congr ((noPoison_of_clean (by simp [ha]) _).trans ((if_neg (Bool.eq_false_iff.1 hgood)).trans ?_))
  dsimp only
  rw [hv]
  rfl
end

theorem exec_bPush_clean {b : BitVec 6} {l : Bool} (p : BitVec 3) (hb : l = false → (rdS s.m 1 b).pois = false) :
    exec (.bPush h a b l p) s = .next ⟨
      if queueBad s.m (ctxOwner (issCtx s.m)) (rdS s.m 0 a).val then trapW s.m 0x39
      else
        let q := getQueue s.m (rdS s.m 0 a).val.toNat
        let ok := !q.closed && q.entries.length < q.depth
        knownPend (if ok then setQueue s.m (rdS s.m 0 a).val.toNat
            (if l then { q with closed := true } else { q with entries := q.entries ++ [(rdS s.m 1 b).val] }) else
                s.m)
          [(.p p, { val := if ok then 1 else 0 })], s.trust⟩ := by
  rw [exec_bPush, execBPush, runWord_true _ hg]
  refine next_congr ((noPoison_of_clean ?_ _).trans rfl)
  cases l <;> simp [ha, hb]

theorem exec_bLaunch_unit (d : BitVec 6) (hu : isArrival s.m = false) : exec (.bLaunch h d a) s = .next ⟨
    if (rdS s.m 0 a).val.toNat % 64 ≠ 0 then trapA s.m 0x0A (rdS s.m 0 a).val
    else addActs (addPend s.m ⟨s.m.tag, .regs, sDst [d], 0, [], [], false, false, none, 0, finfoHere s.m⟩)
      [{ tag := 0, kind := .launch (rdS s.m 0 a).val }], s.trust⟩ := by
  rw [exec_bLaunch, execBLaunch, runWord_true _ hg]
  exact next_congr ((if_neg (Bool.eq_false_iff.1 hu)).trans (noPoison_of_clean (by simp [ha]) _))

theorem exec_bPost_unit (sl : BitVec 4) (k : BitVec 2) (hu : isArrival s.m = false) : exec (.bPost h sl k a) s =
    .next { s with m := addActs s.m [{ tag := 0, kind := .post sl.toNat k.toNat (rdS s.m 0 a).val }] } := by
  rw [exec_bPost, execBPost, runWord_true _ hg]
  exact next_congr ((if_neg (Bool.eq_false_iff.1 hu)).trans (noPoison_of_clean (by simp [ha]) _))

end

/-- A context that waits with its bundle held. -/
theorem waitBundle_facts (m : Mach) (w : Wait) : (waitBundle m w).iss.held = true ∧ (issCtx (waitBundle m w)).wait
    = some w ∧
    (issCtx (waitBundle m w)).st = .waiting := by
  have hc : issCtx (waitBundle m w) = toWaiting
      { issCtx m with pc := BitVec.ofNat 32 m.iss.pkt0, wpos := m.iss.pos0 } w :=
    issCtx_onIss m (fun c => toWaiting { c with pc := BitVec.ofNat 32 m.iss.pkt0, wpos := m.iss.pos0 } w)
  exact ⟨rfl, congrArg Ctx.wait hc, congrArg Ctx.st hc⟩

end Sys2Proof.Machine

open Sys2Proof Sys2Proof.Machine

/-- Settles O28: one lemma for each word and each state of its queue. -/
theorem queueWords : Obligations.QueueWords := by
  unfold Obligations.QueueWords
  refine ⟨fun s h d a n p hg ha => ?pop, fun s h d a b l p sl k hg ha hb => ?others⟩
  case pop =>
    intro x q me j ours
    refine ⟨fun hno => exec_bPop_bad hg ha ?_, fun hours => ?_⟩
    · by_contra hgood
      exact hno ((queueBad_eq_false_iff _ _ _).1 (Bool.not_eq_true _ ▸ hgood))
    · have hgood := (queueBad_eq_false_iff _ _ _).2 hours
      refine ⟨fun v hv => exec_bPop_takes hg ha hgood rfl hv, fun hv hc => ?_, fun hv hc hn => ?_, fun hv hc hn => ?_⟩
      · exact (exec_bPop_none hg ha hgood rfl hv).trans (next_congr (if_pos hc))
      · exact (exec_bPop_none hg ha hgood rfl hv).trans
          (next_congr ((if_neg (Bool.eq_false_iff.1 hc)).trans (if_pos hn)))
      · obtain ⟨hheld, hwait, hst⟩ := waitBundle_facts (setQueue s.m x.toNat (withWaiter q me)) (.queue x.toNat)
        have hqueue : getQueue (waitBundle (setQueue s.m x.toNat (withWaiter q me)) (.queue x.toNat)) x.toNat =
            withWaiter q me :=
          smGet_put_same _ _ _ _
        refine ⟨_, (exec_bPop_none hg ha hgood rfl hv).trans (next_congr
          ((if_neg (Bool.eq_false_iff.1 hc)).trans (if_neg (Bool.eq_false_iff.1 hn)))), hheld, hwait, hst, ?_⟩
        have hmem := mem_withWaiter q me
        rw [← hqueue] at hmem
        exact hmem
  case others =>
    intro x q room
    have push := exec_bPush_clean hg ha p hb
    refine ⟨fun hgood => ⟨fun hroom => ?_, fun hno => ?_⟩, fun hbad => push.trans (next_congr (if_pos hbad)), fun
        harr => ⟨?_, ?_⟩,
      fun hu => ⟨exec_bPost_unit hg ha sl k hu, fun hal => ?_, fun hal => ?_⟩⟩
    · obtain ⟨hopen, hfits⟩ := hroom
      have hok : (!q.closed && decide (q.entries.length < q.depth)) = true := by simp [hopen, hfits]
      refine push.trans (next_congr ((if_neg (Bool.eq_false_iff.1 hgood)).trans ?_))
      dsimp only
      rw [hok]
      exact congrArg (fun y => knownPend (setQueue s.m x.toNat y) [(.p p, { val := 1 })]) (pushed_eq q l _)
    · have hok : (!q.closed && decide (q.entries.length < q.depth)) = false := by
        rw [Bool.eq_false_iff]
        intro hyes
        simp only [Bool.and_eq_true, Bool.not_eq_true', decide_eq_true_eq] at hyes
        exact hno hyes
      refine push.trans (next_congr ((if_neg (Bool.eq_false_iff.1 hgood)).trans ?_))
      dsimp only
      rw [hok]
      rfl
    · rw [exec_bLaunch, execBLaunch, runWord_true _ hg]
      exact next_congr (if_pos harr)
    · rw [exec_bPost, execBPost, runWord_true _ hg]
      exact next_congr (if_pos harr)
    · exact (exec_bLaunch_unit hg ha d hu).trans (next_congr (if_pos hal))
    · exact (exec_bLaunch_unit hg ha d hu).trans (next_congr (if_neg (not_not.2 hal)))

end

section
/-!
PROOFS. The words that end, suspend, cancel, wait and trap (spec/02 R38 to R41, spec/17 R249, spec/20).
-/

namespace Sys2Proof.Machine

/-! ### Operands of b.susp and b.wait -/

/-- The kinds of a wait condition that use a value (spec/02 Table 2-4). -/
theorem usesValue_iff (k : BitVec 3) : k.toNat = 1 ∨ k.toNat = 2 ↔ k = 1 ∨ k = 2 := by
  revert k
  decide

/-- A malformed object's cause: a sluice's, or a queue's. -/
theorem objectCause (k : BitVec 3) : (if k.toNat = 1 then 0x38 else 0x39 : Byte) = if k = 1 then 0x38 else 0x39 := by
  revert k
  decide

theorem div_ne_zero_iff_le (x : Nat) : x / 2 ^ 24 ≠ 0 ↔ 2 ^ 24 ≤ x := by
  rw [Nat.div_ne_zero_iff]
  simp

theorem objectFine {x k : Nat} (hlt : x < 2 ^ 24) (hobj : wobjBad k x = false) :
    ¬(x / 2 ^ 24 ≠ 0 ∨ wobjBad k x = true) := by
  rw [div_ne_zero_iff_le, hobj]
  simpa using hlt

/-- What b.susp keeps for the record of its unit. -/
def suspOf (m : Mach) (k j : BitVec 3) (a b : BitVec 6) : Susp :=
  { resume := (rdB m 0 j).toNat, wkind := k.toNat, wobj := (rdS m 0 a).val.toNat,
    wval := if k.toNat = 1 ∨ k.toNat = 2 then (rdS m 1 b).val else 0, frame := (rdS m 3 63).val, cs1 :=
        (rdS m 2 1).val }

theorem suspOf_eq (m : Mach) (k j : BitVec 3) (a b : BitVec 6) : suspOf m k j a b =
    ⟨(rdB m 0 j).toNat, k.toNat, (rdS m 0 a).val.toNat, if k = 1 ∨ k = 2 then (rdS m 1 b).val else 0,
        (rdS m 3 63).val,
      (rdS m 2 1).val⟩ := by
  rw [suspOf]
  exact congrArg (fun v : Word => (⟨_, _, _, v, _, _⟩ : Susp)) (if_congr (usesValue_iff k) rfl rfl)

/-- A context that has left trap mode. -/
def eretMach (m : Mach) : Mach := { onIss m eretOwn with iss := { m.iss with taken := true, eret := true } }

theorem issCtx_eretMach (m : Mach) : issCtx (eretMach m) = eretOwn (issCtx m) := issCtx_onIss m eretOwn

section
variable {s : State} {h : Hd} (hg : guardTrue s.m h = true)
include hg

/-! ### Ends (R38 to R40) -/

theorem exec_bCancel_unit (l : BitVec 3) (hu : isArrival s.m = false) : exec (.bCancel h l) s = .next ⟨markEnd
    (match (issCtx s.m).unit with
      | some u =>
        if l = 0 then stopOrphans (stopCmds s.m s.m.iss.core s.m.iss.ctx true) u.orphans
        else cancelNode s.m (nodeAtLevel s.m u.launch l.toNat)
      | none => s.m) (fun c => { c with ending := some .cancelled, cancelled := true }), s.trust⟩ := by
  rw [exec_bCancel, execBCancel, runWord_true _ hg]
  exact next_congr (if_neg (Bool.eq_false_iff.1 hu))

theorem exec_bSusp_unit {k j : BitVec 3} {a b : BitVec 6} (hu : isArrival s.m = false)
    (ha : (rdS s.m 0 a).pois = false)
    (h1 : (rdS s.m 2 1).pois = false) (h63 : (rdS s.m 3 63).pois = false)
    (hb : k.toNat = 1 ∨ k.toNat = 2 → (rdS s.m 1 b).pois = false) : exec (.bSusp h k a b j) s = .next ⟨
      if (rdS s.m 0 a).val.toNat / 2 ^ 24 ≠ 0 ∨ wobjBad k.toNat (rdS s.m 0 a).val.toNat then
        trapW s.m (if k.toNat = 1 then 0x38 else 0x39)
      else if !(suspReady s.m s.m.iss.core s.m.iss.ctx s.m.iss.tag0) then waitBundle s.m .susp
      else markEnd s.m (fun c => { c with susp := some (suspOf s.m k j a b) }), s.trust⟩ := by
  rw [exec_bSusp, execBSusp, runWord_true _ hg]
  refine next_congr ((if_neg (Bool.eq_false_iff.1 hu)).trans ((noPoison_of_clean ?_ _).trans rfl))
  intro z hz
  simp only [List.mem_append, List.mem_cons, List.not_mem_nil, or_false] at hz
  rcases hz with (rfl | rfl | rfl) | hz
  · exact ha
  · exact h1
  · exact h63
  · split at hz
    · next hk =>
      rw [List.mem_singleton.1 hz]
      exact hb hk
    · exact absurd hz List.not_mem_nil

/-! ### b.wait (R309) -/

theorem exec_bWait_clean {k : BitVec 3} {a b : BitVec 6} (ha : (rdS s.m 0 a).pois = false)
    (hb : k.toNat ≤ 2 → (rdS s.m 1 b).pois = false) : exec (.bWait h k a b) s = .next ⟨
      if (rdS s.m 0 a).val.toNat / 2 ^ 24 ≠ 0 ∨ wobjBad k.toNat (rdS s.m 0 a).val.toNat ∨
          wobjForeign s.m (issCtx s.m).area (ctxOwner (issCtx s.m)) k.toNat (rdS s.m 0 a).val.toNat then
        trapW s.m (if k.toNat = 1 then 0x38 else 0x39)
      else if waitHolds s.m (issCtx s.m).area k.toNat (rdS s.m 0 a).val.toNat
          (if k.toNat ≤ 2 then (rdS s.m 1 b).val else 0)
        then addSync s.m
      else waitBundle s.m (waitOf k.toNat (rdS s.m 0 a).val.toNat (if k.toNat ≤ 2 then (rdS s.m 1 b).val else 0)),
          s.trust⟩ := by
  rw [exec_bWait, execBWait, runWord_true _ hg]
  refine next_congr ((noPoison_of_clean ?_ _).trans rfl)
  by_cases hk : k.toNat ≤ 2 <;> simp [hk, ha, hb]

/-! ### b.eret (R249, R291) -/

theorem exec_bEret_trapMode (hc : causeTm (issCtx s.m).cause = true) : exec (.bEret h) s =
    .next { s with m := eretMach s.m } := by
  rw [exec_bEret, execBEret, runWord_true _ hg]
  exact next_congr (if_pos hc)

theorem exec_bEret_own (hc : causeTm (issCtx s.m).cause = false) (hs : (issCtx s.m).started = none) :
    exec (.bEret h) s = .next { s with m := trapW s.m 0x03 } := by
  rw [exec_bEret, execBEret, runWord_true _ hg]
  refine next_congr ((if_neg (Bool.eq_false_iff.1 hc)).trans ?_)
  rw [hs]

section
variable {va : Word} {hc hi : Nat} (hcause : causeTm (issCtx s.m).cause = false)
    (hs : (issCtx s.m).started = some (va, hc, hi))
include hcause hs

theorem exec_bEret_early (hq : agentQuiet s.m (ctxAgent s.m.iss.core s.m.iss.ctx) s.m.iss.tag0 = false) :
    exec (.bEret h) s = .next { s with m := stallBundle s.m } := by
  rw [exec_bEret, execBEret, runWord_true _ hg]
  refine next_congr ((if_neg (Bool.eq_false_iff.1 hcause)).trans ?_)
  rw [hs]
  exact if_pos (by rw [hq]; rfl)

variable (hq : agentQuiet s.m (ctxAgent s.m.iss.core s.m.iss.ctx) s.m.iss.tag0 = true)
include hq

theorem exec_bEret_ok {m1 : Mach} (hr : frameRelease s.m s.m.iss.core s.m.iss.ctx va hc hi = .ok m1) : exec
    (.bEret h) s =
    .next { s with m := { s.m with iss := { s.m.iss with ended := true, rel := some (va, hc, hi) } } } := by
  rw [exec_bEret, execBEret, runWord_true _ hg]
  refine next_congr ((if_neg (Bool.eq_false_iff.1 hcause)).trans ?_)
  rw [hs]
  refine (if_neg (by rw [hq]; exact Bool.false_ne_true)).trans ?_
  rw [hr]

theorem exec_bEret_error {x : Byte} {f : Word}
    (hr : frameRelease s.m s.m.iss.core s.m.iss.ctx va hc hi = .error (x, f)) :
    exec (.bEret h) s = .next ⟨trapAt s.m x f (if x = causeMiss ∨ x = causePerm then
      refusedT s.m (whoOf s.m s.m.iss.core s.m.iss.ctx) f else finfoHere s.m) none, s.trust⟩ := by
  rw [exec_bEret, execBEret, runWord_true _ hg]
  refine next_congr ((if_neg (Bool.eq_false_iff.1 hcause)).trans ?_)
  rw [hs]
  refine (if_neg (by rw [hq]; exact Bool.false_ne_true)).trans ?_
  rw [hr]
end
end

/-! ### The release of a frame -/

/-- Is a context held with a frame that has been written, and not on its way to the weir? -/
def HeldWith (m : Mach) (hc hi : Nat) (va : Word) : Prop :=
  holdsFrame (getCtx m hc hi) va = true ∧ (getCtx m hc hi).pre = none

theorem frameRelease_held {m : Mach} {hc hi : Nat} {va : Word} (hh : HeldWith m hc hi va) (core i : Nat) :
    frameRelease m core i va hc hi = releaseFrame m (ctxAgent core i) (whoOf m core i) hc hi va (afterEpc hc hi) := by
  obtain ⟨hf, hp⟩ := hh
  rw [frameRelease, if_pos]
  rw [hf, hp]
  rfl

theorem frameRelease_parked {m : Mach} {hc hi : Nat} {va : Word} (hh : ¬HeldWith m hc hi va) (core i : Nat) :
    frameRelease m core i va hc hi = .ok
        (readyParked m va (releaserCtx m core i) (fun c x _ => c == hc && x == hi)) := by
  rw [frameRelease, if_neg]
  rintro hcon
  rw [Bool.and_eq_true] at hcon
  exact hh ⟨hcon.1, Option.isNone_iff_eq_none.1 hcon.2⟩

/-- A trace leaves the cores and what issues as they were. -/
theorem traceBundle_cores (m : Mach) (core i : Nat) (c : Ctx) (pkt pos : Nat) :
    (traceBundle m core i c pkt pos).cores = m.cores ∧ (traceBundle m core i c pkt pos).iss = m.iss := by
  unfold traceBundle
  split
  · exact ⟨rfl, rfl⟩
  · exact ⟨rfl, rfl⟩

theorem getCtx_traceBundle (m : Mach) (core i : Nat) (c : Ctx) (pkt pos k j : Nat) :
    getCtx (traceBundle m core i c pkt pos) k j = getCtx m k j := by
  unfold getCtx getCore
  rw [(traceBundle_cores m core i c pkt pos).1]

/-- The bundle of a b.eret that has released its frame. -/
theorem finishBundle_release {m m1 : Mach} (last : FWord) {va : Word} {hc hi : Nat} (hend : m.iss.ended = true)
    (hrel : m.iss.rel = some (va, hc, hi))
    (hr : frameRelease (traceBundle m m.iss.core m.iss.ctx m.iss.snap m.iss.pkt0 m.iss.pos0) m.iss.core m.iss.ctx
        va hc hi =
      .ok m1) : finishBundle m last = freeCtx m1 m.iss.core m.iss.ctx false := by
  have hiss := (traceBundle_cores m m.iss.core m.iss.ctx m.iss.snap m.iss.pkt0 m.iss.pos0).2
  unfold finishBundle
  dsimp only
  rw [hiss, if_pos hend, hrel]
  dsimp only
  rw [finishRelease, hr]

/-- CAUSE as b.eret leaves it: trap mode is over. -/
theorem causeTm_eretOwn (c : Ctx) : causeTm (eretOwn c).cause = false := by
  have hr : causeRcnt c.cause < 16 := Nat.mod_lt _ (by decide)
  have hb := (c.cause.setWidth 8).isLt
  show (BitVec.ofNat 64 (0 + causeRcnt c.cause * 256 + (c.cause.setWidth 8).toNat)).getLsbD 12 = false
  rw [BitVec.getLsbD_ofNat, Nat.testBit_lt_two_pow (by omega)]
  simp

end Sys2Proof.Machine

open Sys2Proof Sys2Proof.Machine

/-- Settles O29: one lemma for each word and each case, and the release of a frame as its bundle completes. -/
theorem endingAndTrapWords : Obligations.EndingAndTrapWords := by
  unfold Obligations.EndingAndTrapWords
  refine ⟨fun s h k j l a b hg => ?ends, fun s h k a b hg _ _ ha hb => ?waits, fun s h k hg => ?traps, fun m last
      va hc hi hend hrel => ?release⟩
  case ends =>
    intro ends x uses cancels
    refine ⟨?_, fun harr => ⟨?_, ?_⟩, fun hu =>
        ⟨fun hnone => ?_, fun u hunit => ⟨?_, fun hl => ?_⟩, fun ha h1 h63 hb => ?_⟩⟩
    · rw [exec_bExit, execBExit, runWord_true _ hg]
      rfl
    · rw [exec_bSusp, execBSusp, runWord_true _ hg]
      exact next_congr (if_pos harr)
    · rw [exec_bCancel, execBCancel, runWord_true _ hg]
      exact next_congr (if_pos harr)
    · rw [exec_bCancel_unit hg l hu, hnone]
      rfl
    · rw [exec_bCancel_unit hg 0 hu, hunit]
      rfl
    · rw [exec_bCancel_unit hg l hu, hunit]
      dsimp only
      rw [if_neg hl]
      rfl
    · have word := exec_bSusp_unit (k := k) (j := j) (b := b) hg hu ha h1 h63 (fun h => hb ((usesValue_iff k).1 h))
      refine ⟨fun hbad => ?_, fun hlt hobj => ⟨fun hready => ?_, fun hbusy => ?_⟩⟩
      · exact word.trans (next_congr
          ((if_pos (hbad.imp (div_ne_zero_iff_le x.toNat).2 id)).trans (congrArg (trapW s.m) (objectCause k))))
      · refine word.trans (next_congr
          ((if_neg (objectFine hlt hobj)).trans ((if_neg (by rw [hready]; exact Bool.false_ne_true)).trans ?_)))
        exact congrArg (fun r : Susp => ends s.m (fun c => { c with susp := some r })) (suspOf_eq s.m k j a b)
      · exact word.trans (next_congr ((if_neg (objectFine hlt hobj)).trans (if_pos (by rw [hbusy]; rfl))))
  case waits =>
    intro x v c bad
    have word := exec_bWait_clean hg ha hb
    have hcond : (x / 2 ^ 24 ≠ 0 ∨ wobjBad k.toNat x = true ∨ wobjForeign s.m c.area (ctxOwner c) k.toNat x = true)
        ↔ bad :=
      or_congr (div_ne_zero_iff_le x) Iff.rfl
    refine ⟨fun hbad => ?_, fun hgood hholds => ?_, fun hgood hno => ?_⟩
    · exact word.trans (next_congr ((if_pos (hcond.2 hbad)).trans (congrArg (trapW s.m) (objectCause k))))
    · exact word.trans (next_congr ((if_neg (fun e => hgood (hcond.1 e))).trans (if_pos hholds)))
    · exact word.trans (next_congr ((if_neg (fun e => hgood (hcond.1 e))).trans (if_neg (Bool.eq_false_iff.1 hno))))
  case traps =>
    intro c after
    refine ⟨?_, ?_, fun htm => ⟨_, exec_bEret_trapMode hg htm, ?_⟩, exec_bEret_own hg, fun va hc hi htm hs => ?_⟩
    · rw [exec_bTrap, execBTrap, runWord_true _ hg]
      rfl
    · rw [exec_bBrk, execBBrk, runWord_true _ hg]
      rfl
    · have hctx := issCtx_eretMach s.m
      refine ⟨?_, congrArg Ctx.pc hctx, congrArg Ctx.wpos hctx, (congrArg Ctx.sregs hctx).trans rfl, (congrArg Ctx.epc hctx).trans rfl,
        (congrArg Ctx.lepi hctx).trans rfl, rfl, rfl, rfl⟩
      exact (congrArg (fun c : Ctx => causeTm c.cause) hctx).trans (causeTm_eretOwn c)
    · refine ⟨exec_bEret_early hg htm hs, fun hq hno => exec_bEret_ok hg htm hs hq (frameRelease_parked hno _ _),
        fun hq hh =>
        ⟨fun m1 hr => exec_bEret_ok hg htm hs hq ((frameRelease_held hh _ _).trans hr), fun x f hr =>
          exec_bEret_error hg htm hs hq ((frameRelease_held hh _ _).trans hr)⟩⟩
  case release =>
    intro core i t held
    have hctx := getCtx_traceBundle m core i m.iss.snap m.iss.pkt0 m.iss.pos0
    have hheld : HeldWith t hc hi va ↔ held := by rw [HeldWith, hctx hc hi]
    have hwho : whoOf t core i = whoOf m core i := by rw [whoOf, hctx core i, whoOf]
    refine ⟨fun hno => ?_, fun hh m1 hr => ?_⟩
    · exact finishBundle_release last hend hrel (frameRelease_parked (fun e => hno (hheld.1 e)) core i)
    · refine finishBundle_release last hend hrel ((frameRelease_held (hheld.2 hh) core i).trans ?_)
      rw [hwho]
      exact hr

end

section
/-!
PROOFS. Drains (spec/09 R174, spec/07 R136, R137, R140, spec/21 R335).
-/

namespace Sys2Proof.Machine

/-! ### Sending the rows of a drain -/

theorem due_markRows (k : Core) (j : Nat) (rows : BitVec 256) (i : Nat) :
    (smGet {} (markRows k j rows).ctxs i).due = (smGet {} k.ctxs i).due :=
  rel_smGet_map (R := fun c c' : Ctx => c'.due = c.due) (f := fun e => { e.2 with
    rowsKnown := e.2.rowsKnown ||| rows, rowMark := if e.1 = j then e.2.rowMark ||| rows else e.2.rowMark })
    {} rfl (fun _ => rfl) _ _

theorem insFlight_perm (f : RowFlight) (l : List RowFlight) : (insFlight f l).Perm (f :: l) := by
  induction l with
  | nil => exact List.Perm.refl _
  | cons g l ih =>
    unfold insFlight
    split
    · exact List.Perm.refl _
    · exact (ih.cons g).trans (List.Perm.swap f g l)

/-- Of the rows in flight, those of one row. -/
def rowFlights (k : Core) (key : Nat) : List RowFlight := k.rowFlight.filter (fun f => f.row == key)

/-- When a result that a context sends to a row lands, behind what the context has in flight for it. -/
def landsAt (l : List RowFlight) (ctx at_ : Nat) : Nat :=
  (l.filter (fun g => g.ctx == ctx)).foldl (fun a g => max a g.landAt) at_

theorem foldl_max_le {l : List RowFlight} {a b : Nat} (ha : a ≤ b) (h : ∀ g ∈ l, g.landAt ≤ b) :
    l.foldl (fun a g => max a g.landAt) a ≤ b := by
  induction l generalizing a with
  | nil => exact ha
  | cons g l ih => exact ih (max_le ha (h g List.mem_cons_self)) fun x hx => h x (List.mem_cons_of_mem _ hx)

theorem le_foldl_max (l : List RowFlight) (a : Nat) : a ≤ l.foldl (fun a g => max a g.landAt) a := by
  induction l generalizing a with
  | nil => exact le_rfl
  | cons g l ih => exact (le_max_left a g.landAt).trans (ih _)

theorem rowFlights_putRow_ne (k : Core) {f : RowFlight} {key : Nat} (h : key ≠ f.row) :
    rowFlights (putRow k f) key = rowFlights k key := by
  unfold rowFlights
  refine filter_insFlight (p := fun g => g.row == key) ?_ _
  exact beq_eq_false_iff_ne.2 (Ne.symm h)

theorem rowFlights_putRow (k : Core) (f : RowFlight) :
    (rowFlights (putRow k f) f.row).Perm
        ({ f with landAt := landsAt (rowFlights k f.row) f.ctx f.landAt } :: rowFlights k f.row) := by
  have hlate : landsAt (rowFlights k f.row) f.ctx f.landAt =
      (k.rowFlight.filter (fun g => g.row == f.row && g.ctx == f.ctx)).foldl (fun a g => max a g.landAt) f.landAt
          := by
    rw [landsAt, rowFlights, List.filter_filter]
    simp only [Bool.and_comm]
  rw [hlate]
  refine ((insFlight_perm _ k.rowFlight).filter _).trans ?_
  rw [List.filter_cons_of_pos (by simp)]
  exact List.Perm.refl _

/-- One row of a drain as it goes. -/
def drainFlight (ctx now : Nat) (axb : Bool) (t : Nat) (row : Nat → Row) (r : Nat) : RowFlight :=
  { row := 64 * t + r, ctx := ctx, issued := now, landAt := now + 12, data := (row r).data, exps := (row r).exps,
      axb := axb }

def sendDrain (ctx now : Nat) (axb : Bool) (t : Nat) (row : Nat → Row) (k : Core) (r : Nat) : Core :=
  markRows (putRow k (drainFlight ctx now axb t row r)) ctx (BitVec.ofNat 256 (2 ^ (64 * t + r)))

/-- The core once the first `n` rows of a drain have gone. -/
def drained (ctx now : Nat) (axb : Bool) (t : Nat) (row : Nat → Row) (n : Nat) (k : Core) : Core :=
  (List.range n).foldl (sendDrain ctx now axb t row) k

section
variable (ctx now : Nat) (axb : Bool) (t : Nat) (row : Nat → Row) (n : Nat) (k : Core)

theorem drained_succ : drained ctx now axb t row (n + 1) k =
    sendDrain ctx now axb t row (drained ctx now axb t row n k) n := by
  rw [drained, List.range_succ, List.foldl_append]
  rfl

theorem drained_rest : (drained ctx now axb t row n k).arr = k.arr ∧ (drained ctx now axb t row n k).tiles = k.tiles ∧
    (drained ctx now axb t row n k).exps = k.exps := by
  induction n with
  | zero => exact ⟨rfl, rfl, rfl⟩
  | succ n ih =>
    rw [drained_succ]
    exact ih

theorem due_drained (i : Nat) : (smGet {} (drained ctx now axb t row n k).ctxs i).due = (smGet {} k.ctxs i).due := by
  induction n with
  | zero => rfl
  | succ n ih =>
    rw [drained_succ, ← ih]
    exact due_markRows (putRow _ _) _ _ i

theorem rowFlights_drained_out {key : Nat} (h : ∀ r < n, key ≠ 64 * t + r) :
    rowFlights (drained ctx now axb t row n k) key = rowFlights k key := by
  induction n with
  | zero => rfl
  | succ n ih =>
    rw [drained_succ, ← ih fun r hr => h r (by omega)]
    exact rowFlights_putRow_ne _ (h n (by omega))

theorem rowFlights_drained {r : Nat} (hr : r < n) : (rowFlights (drained ctx now axb t row n k) (64 * t + r)).Perm
    ({ drainFlight ctx now axb t row r with landAt := landsAt (rowFlights k (64 * t + r)) ctx (now + 12) } ::
      rowFlights k (64 * t + r)) := by
  induction n with
  | zero => exact absurd hr (Nat.not_lt_zero r)
  | succ n ih =>
    rw [drained_succ]
    rcases Nat.lt_succ_iff_lt_or_eq.1 hr with h | rfl
    · refine List.Perm.trans (List.Perm.of_eq ?_) (ih h)
      exact rowFlights_putRow_ne _ (show 64 * t + r ≠ 64 * t + n by omega)
    · have hbefore : rowFlights (drained ctx now axb t row r k) (64 * t + r) = rowFlights k (64 * t + r) :=
        rowFlights_drained_out ctx now axb t row r k fun r' hr' => by omega
      have e := rowFlights_putRow (drained ctx now axb t row r k) (drainFlight ctx now axb t row r)
      rw [show (drainFlight ctx now axb t row r).row = 64 * t + r from rfl, hbefore] at e
      exact e

theorem mem_drained {f : RowFlight} (h : f ∈ k.rowFlight) : f ∈ (drained ctx now axb t row n k).rowFlight := by
  induction n with
  | zero => exact h
  | succ n ih =>
    rw [drained_succ]
    exact (insFlight_perm _ _).mem_iff.2 (List.mem_cons_of_mem _ ih)

/-- A row of another tile comes to hold what it would have. -/
theorem rowFinal_drained_out {key : Nat} (h : ∀ r < n, key ≠ 64 * t + r) :
    rowFinal (drained ctx now axb t row n k) key = rowFinal k key := by
  have hin := rowFlights_drained_out ctx now axb t row n k h
  obtain ⟨-, htiles, hexps⟩ := drained_rest ctx now axb t row n k
  unfold rowFlights at hin
  unfold rowFinal
  rw [hin, htiles, hexps]

/-- A drained row with nothing in flight before it comes to hold what the drain gives. -/
theorem rowFinal_drained {r : Nat} (hr : r < n) (hfree : rowFlights k (64 * t + r) = []) :
    (rowFinal (drained ctx now axb t row n k) (64 * t + r)).data = (row r).data ∧
    (rowFinal (drained ctx now axb t row n k) (64 * t + r)).exps =
      if axb then (row r).exps else (rowFinal k (64 * t + r)).exps := by
  have hin := rowFlights_drained ctx now axb t row n k hr
  rw [hfree, List.perm_singleton] at hin
  obtain ⟨-, htiles, hexps⟩ := drained_rest ctx now axb t row n k
  unfold rowFlights at hin hfree
  unfold rowFinal
  rw [hin, hfree, htiles, hexps]
  cases axb <;> exact ⟨rfl, rfl⟩
end

/-! ### m.drain -/

/-- The machine once the first `n` rows of a drain have gone. -/
def rowsSent (m : Mach) (t : Nat) (row : Nat → Row) (n : Nat) : Mach :=
  (List.range n).foldl (fun m r => putRowAt m (64 * t + r) (m.cycle + 12) (row r)) m

section
variable (m : Mach) (t : Nat) (row : Nat → Row) (n : Nat)

theorem rowsSent_succ : rowsSent m t row (n + 1) =
    putRowAt (rowsSent m t row n) (64 * t + n) ((rowsSent m t row n).cycle + 12) (row n) := by
  rw [rowsSent, List.range_succ, List.foldl_append]
  rfl

theorem rowsSent_rest : (rowsSent m t row n).iss = m.iss ∧ (rowsSent m t row n).cycle = m.cycle ∧
    (rowsSent m t row n).mem = m.mem := by
  induction n with
  | zero => exact ⟨rfl, rfl, rfl⟩
  | succ n ih =>
    rw [rowsSent_succ]
    exact ih

theorem getCore_rowsSent (hn : n ≤ 64) : getCore (rowsSent m t row n) m.iss.core =
    drained m.iss.ctx m.cycle (isAxb (tileType m t)) t row n (getCore m m.iss.core) := by
  induction n with
  | zero => rfl
  | succ n ih =>
    obtain ⟨hiss, hcycle, -⟩ := rowsSent_rest m t row n
    have htile : tileType (rowsSent m t row n) ((64 * t + n) / 64) = tileType m t := by
      rw [tileType, hiss, show (64 * t + n) / 64 = t by omega, tileType]
    rw [rowsSent_succ, drained_succ, ← ih (by omega), putRowAt, htile, hiss, hcycle, modCore, getCore_setCore]
    rfl
end

/-- The rows that a drain gives, with the marks of their flagged lanes. -/
def rowsOfDrain (m : Mach) (t : Nat) (neg accd hi : Bool) (r : Nat) : Row × List (Option Nat) :=
  let p := precOf m.iss.snap t
  let set := smGet {} (arrOf m).sets t
  drainRow (acct p) (satOf p) accd hi (rowOld m (64 * t + r))
    (List.zipWith (fun q w => drainTerm neg q (smGet none set.sa r) w)
      (((smDense 0 set.parts 0 3840).drop (60 * r)).take 60) (smDense none set.sw 0 60))

/-- The machine once the first `n` rows of a drain are on their way, what the bundle drains noted. -/
def drainNoted (m : Mach) (t : Nat) (row : Nat → Row) (n : Nat) : Mach :=
  let sent := rowsSent m t row n
  { sent with iss := { sent.iss with drained := (List.range n).map (fun r =>
      drainFlight sent.iss.ctx sent.cycle (isAxb (acct (precOf m.iss.snap t))) t row r) } }

/-- The machine once a drain of `n` rows has completed. -/
def drainDone (m : Mach) (t : Nat) (rows : Nat → Row × List (Option Nat)) (n : Nat) : Mach :=
  mDone (pushAssist (drainNoted m t (fun r => (rows r).1) n) 2 t 0 1 12 ((List.range n).map (fun r => (rows r).2)))
    (fun a => { a with sets := smPut {} a.sets t {} })

theorem zipIdx_map_range {α : Type} (f : Nat → α) (n : Nat) :
    ((List.range n).map f).zipIdx = (List.range n).map (fun r => (f r, r)) :=
  List.ext_getElem (by simp) fun i h1 h2 => by simp

section
variable {s : State} {h : Hd} {t : BitVec 2} {neg accd hi : Bool} (hg : guardTrue s.m h = true)
    (hours : ArrayIsOurs s.m)
  (ht : t.toNat < tilesOf s.m)
include hg hours ht

theorem exec_mDrain_ours : exec (.mDrain h t neg accd hi) s = .next ⟨
    if hi = true ∧ lanesOf (acct (precOf s.m.iss.snap t.toNat)) = 60 then trapW s.m 0x1A
    else drainDone s.m t.toNat (rowsOfDrain s.m t.toNat neg accd hi) 64, s.trust⟩ := by
  rw [exec_mDrain, execMDrain, runWord_true _ hg, mHold_ours hours (by simpa using ht) (by simp)]
  refine next_congr ?_
  dsimp only
  refine if_congr Iff.rfl rfl ?_
  simp only [zipIdx_map_range, List.foldl_map, List.map_map]
  rfl
end

theorem getCore_modCtx (m : Mach) (c i : Nat) (f : Ctx → Ctx) : getCore (modCtx m c i f) c =
    { getCore m c with ctxs := smPut {} (getCore m c).ctxs i (f (getCtx m c i)) } := getCore_setCore _ _ _

/-- The completion of an M word changes of its core the array and a fill. -/
theorem getCore_mDone (m : Mach) (f : Arr → Arr) : ∃ ctxs, getCore (mDone m f) m.iss.core =
    { getCore m m.iss.core with arr := { f (arrOf m) with holder := some m.iss.ctx }, ctxs := ctxs } := by
  have e := getCore_modCtx (onArr m f) m.iss.core m.iss.ctx (fun c => { c with fill := none })
  rw [getCore_onArr] at e
  exact ⟨_, e⟩

theorem due_mDone (m : Mach) (f : Arr → Arr) : (issCtx (mDone m f)).due = (issCtx m).due := by
  have e := issCtx_onIss (onArr m f) (fun c => { c with fill := none })
  have e' : issCtx (onArr m f) = issCtx m := getCtx_onArr m f _ _
  rw [mDone, e, e']

/-- Flagged lanes change of a core what is due at its issuing context. -/
theorem pushAssist_rest (m : Mach) (kind tile row0 type lat : Nat) (rows : List (List (Option Nat))) :
    (pushAssist m kind tile row0 type lat rows).iss = m.iss ∧ (pushAssist m kind tile row0 type lat rows).mem =
        m.mem ∧
    ∃ ctxs, getCore (pushAssist m kind tile row0 type lat rows) m.iss.core =
        { getCore m m.iss.core with ctxs := ctxs } := by
  unfold pushAssist
  split
  · exact ⟨rfl, rfl, _, getCore_modCtx _ _ _ _⟩
  · exact ⟨rfl, rfl, _, rfl⟩

/-- What is due once a word's rows with their flagged lanes are on their way. -/
theorem due_pushAssist (m : Mach) (kind tile row0 type lat : Nat) (rows : List (List (Option Nat))) :
    ((¬∃ r ∈ rows, ∃ x ∈ r, x.isSome = true) → (issCtx (pushAssist m kind tile row0 type lat rows)).due =
        (issCtx m).due) ∧
    ((∃ r ∈ rows, ∃ x ∈ r, x.isSome = true) → ∃ q : Due,
      (issCtx (pushAssist m kind tile row0 type lat rows)).due = (issCtx m).due ++ [q] ∧ q.cause = 0x1B ∧
      q.notBefore = m.cycle + lat ∧ q.assist = some (assistRecord kind tile row0 type rows)) := by
  have hany : rows.any (fun r => r.any Option.isSome) = true ↔ ∃ r ∈ rows, ∃ x ∈ r, x.isSome = true := by simp
  unfold pushAssist
  rw [← hany]
  refine ⟨fun h => by rw [if_neg h], fun h => ?_⟩
  rw [if_pos h]
  exact ⟨_, congrArg Ctx.due (getCtx_modCtx m m.iss.core m.iss.ctx _), rfl, rfl, rfl⟩

section
variable (m : Mach) (t : Nat) (row : Nat → Row) (n : Nat) (hn : n ≤ 64)

theorem drainNoted_place : (drainNoted m t row n).iss.core = m.iss.core ∧ (drainNoted m t row n).iss.ctx = m.iss.ctx ∧
    (drainNoted m t row n).cycle = m.cycle ∧ (drainNoted m t row n).mem = m.mem := by
  obtain ⟨hiss, hcycle, hmem⟩ := rowsSent_rest m t row n
  exact ⟨(congrArg Iss.core hiss :), (congrArg Iss.ctx hiss :), hcycle, hmem⟩

include hn in
theorem getCore_drainNoted : getCore (drainNoted m t row n) m.iss.core =
    drained m.iss.ctx m.cycle (isAxb (tileType m t)) t row n (getCore m m.iss.core) :=
  getCore_rowsSent m t row n hn

include hn in
theorem arrOf_drainNoted : arrOf (drainNoted m t row n) = arrOf m := by
  rw [arrOf, (drainNoted_place m t row n).1, getCore_drainNoted _ _ _ _ hn]
  exact (drained_rest _ _ _ _ _ _ _).1

include hn in
theorem due_drainNoted : (issCtx (drainNoted m t row n)).due = (issCtx m).due := by
  rw [issCtx, (drainNoted_place m t row n).1, (drainNoted_place m t row n).2.1, getCtx, getCore_drainNoted _ _ _ _ hn]
  exact due_drained _ _ _ _ _ _ _ _
end

/-- What a drain leaves of its core: the rows on their way, and the array without the tile's set. -/
theorem getCore_drainDone (m : Mach) (t : Nat) (rows : Nat → Row × List (Option Nat)) {n : Nat} (hn : n ≤ 64) :
    ∃ ctxs, getCore (drainDone m t rows n) m.iss.core =
      { drained m.iss.ctx m.cycle (isAxb (tileType m t)) t (fun r => (rows r).1) n (getCore m m.iss.core) with
        arr := { arrOf m with sets := smPut {} (arrOf m).sets t {}, holder := some m.iss.ctx }, ctxs := ctxs } := by
  obtain ⟨hcore, hctx, -, -⟩ := drainNoted_place m t (fun r => (rows r).1) n
  obtain ⟨hiss, -, ctxs, hpush⟩ := pushAssist_rest (drainNoted m t (fun r => (rows r).1) n) 2 t 0 1 12
    ((List.range n).map (fun r => (rows r).2))
  obtain ⟨ctxs', hdone⟩ := getCore_mDone (pushAssist (drainNoted m t (fun r => (rows r).1) n) 2 t 0 1 12
    ((List.range n).map (fun r => (rows r).2))) (fun a => { a with sets := smPut {} a.sets t {} })
  rw [hcore, getCore_drainNoted _ _ _ _ hn] at hpush
  have harr : arrOf (pushAssist (drainNoted m t (fun r => (rows r).1) n) 2 t 0 1 12
      ((List.range n).map (fun r => (rows r).2))) = arrOf m := by
    rw [arrOf, hiss, hcore, hpush]
    exact (drained_rest _ _ _ _ _ _ _).1
  rw [hiss, hcore, hctx, hpush, harr] at hdone
  exact ⟨ctxs', hdone⟩

theorem arrOf_drainDone (m : Mach) (t : Nat) (rows : Nat → Row × List (Option Nat)) {n : Nat} (hn : n ≤ 64) : arrOf
    (drainDone m t rows n) =
    { arrOf m with sets := smPut {} (arrOf m).sets t {}, holder := some m.iss.ctx } := by
  obtain ⟨ctxs, hcore⟩ := getCore_drainDone m t rows hn
  have hiss : (drainDone m t rows n).iss.core = m.iss.core :=
    (congrArg Iss.core (pushAssist_rest _ 2 t 0 1 12 _).1).trans (drainNoted_place m t _ n).1
  rw [arrOf, hiss, hcore]

theorem mem_drainDone (m : Mach) (t : Nat) (rows : Nat → Row × List (Option Nat)) (n : Nat) :
    (drainDone m t rows n).mem = m.mem :=
  ((pushAssist_rest _ 2 t 0 1 12 _).2.1).trans (drainNoted_place m t _ n).2.2.2

/-- Flagged lanes of a drain raise subnormal-assist when its rows land, and only they do. -/
theorem due_drainDone (m : Mach) (t : Nat) (rows : Nat → Row × List (Option Nat)) {n : Nat} (hn : n ≤ 64) :
    ((¬∃ r < n, ∃ x ∈ (rows r).2, x.isSome = true) → (issCtx (drainDone m t rows n)).due = (issCtx m).due) ∧
    ((∃ r < n, ∃ x ∈ (rows r).2, x.isSome = true) → ∃ q : Due,
      (issCtx (drainDone m t rows n)).due = (issCtx m).due ++ [q] ∧ q.cause = 0x1B ∧ q.notBefore = m.cycle + 12 ∧
      q.assist = some (assistRecord 2 t 0 1 ((List.range n).map (fun r => (rows r).2)))) := by
  have hflag : (∃ r ∈ (List.range n).map (fun r => (rows r).2), ∃ x ∈ r, x.isSome = true) ↔
      ∃ r < n, ∃ x ∈ (rows r).2, x.isSome = true := by simp
  have e := due_pushAssist (drainNoted m t (fun r => (rows r).1) n) 2 t 0 1 12
      ((List.range n).map (fun r => (rows r).2))
  rw [due_drainNoted _ _ _ _ hn, (drainNoted_place m t _ n).2.2.1, hflag] at e
  rw [drainDone, due_mDone]
  exact e

section
variable (m : Mach) (t : Nat) (rows : Nat → Row × List (Option Nat)) {n : Nat} (hn : n ≤ 64)
include hn

/-- Each row of a drain is on its way, behind what its context has in flight for it (log 19). -/
theorem drainDone_sends {r : Nat} (hr : r < n) : ∃ f ∈ (getCore (drainDone m t rows n) m.iss.core).rowFlight,
    f.row = 64 * t + r ∧ f.ctx = m.iss.ctx ∧ f.issued = m.cycle ∧ f.data = (rows r).1.data ∧ f.exps =
        (rows r).1.exps ∧
    m.cycle + 12 ≤ f.landAt ∧
    ((∀ g ∈ (getCore m m.iss.core).rowFlight, g.row = f.row → g.ctx = f.ctx → g.landAt ≤ m.cycle + 12) →
      f.landAt = m.cycle + 12) := by
  obtain ⟨ctxs, hcore⟩ := getCore_drainDone m t rows hn
  have hperm := rowFlights_drained m.iss.ctx m.cycle (isAxb (tileType m t)) t (fun r => (rows r).1) n
    (getCore m m.iss.core) hr
  have hmem := (List.mem_filter.1 (hperm.mem_iff.2 List.mem_cons_self)).1
  rw [hcore]
  refine ⟨_, hmem, rfl, rfl, rfl, rfl, rfl, le_foldl_max _ _, fun hall => ?_⟩
  refine le_antisymm (foldl_max_le le_rfl fun g hg => ?_) (le_foldl_max _ _)
  obtain ⟨hg1, hctx⟩ := List.mem_filter.1 hg
  obtain ⟨hg2, hrow⟩ := List.mem_filter.1 hg1
  exact hall g hg2 (beq_iff_eq.1 hrow) (beq_iff_eq.1 hctx)

theorem drainDone_final (hfree : ∀ f ∈ (getCore m m.iss.core).rowFlight, f.row / 64 ≠ t) {r : Nat} (hr : r < n) :
    (rowFinal (getCore (drainDone m t rows n) m.iss.core) (64 * t + r)).data = (rows r).1.data ∧
    (rowFinal (getCore (drainDone m t rows n) m.iss.core) (64 * t + r)).exps =
      if isAxb (tileType m t) then (rows r).1.exps else (rowFinal (getCore m m.iss.core) (64 * t + r)).exps := by
  obtain ⟨ctxs, hcore⟩ := getCore_drainDone m t rows hn
  have hnone : rowFlights (getCore m m.iss.core) (64 * t + r) = [] := by
    refine List.filter_eq_nil_iff.2 fun f hf hrow => hfree f hf ?_
    rw [beq_iff_eq.1 hrow]
    omega
  have hfin := rowFinal_drained m.iss.ctx m.cycle (isAxb (tileType m t)) t (fun r => (rows r).1) n
    (getCore m m.iss.core) hr hnone
  rw [hcore]
  exact hfin

theorem drainDone_keeps {f : RowFlight} (hf : f ∈ (getCore m m.iss.core).rowFlight) :
    f ∈ (getCore (drainDone m t rows n) m.iss.core).rowFlight := by
  obtain ⟨ctxs, hcore⟩ := getCore_drainDone m t rows hn
  rw [hcore]
  exact mem_drained _ _ _ _ _ _ _ hf

theorem drainDone_others {key : Nat} (h : key / 64 ≠ t) :
    rowFinal (getCore (drainDone m t rows n) m.iss.core) key = rowFinal (getCore m m.iss.core) key := by
  obtain ⟨ctxs, hcore⟩ := getCore_drainDone m t rows hn
  rw [hcore]
  exact rowFinal_drained_out _ _ _ _ _ _ _ fun r hr => by omega
end

/-! ### What a lane takes (spec/07 R136, R140) -/

/-- One lane of a drain that is not of an AXB tile: its code, and its DIR when it is flagged. -/
def drainLane (a : Nat) (sat : Bool) (x : Val) : Nat × Option Nat :=
  if a = 3 then arithLane bf16 sat x
  else if isFloatTile a && valIsNan x then (fpNan (floatOf a), none)
  else (laneConv a sat x, none)

/-- A list with a part put in place of as many of its own entries. -/
theorem getD_patch_out {α : Type} (d : α) {xs ys : List α} {lo j : Nat} (h : lo + ys.length ≤ xs.length)
    (hj : j < lo ∨ lo + ys.length ≤ j) : (xs.take lo ++ ys ++ xs.drop (lo + ys.length)).getD j d = xs.getD j d := by
  have htake : (xs.take lo).length = lo := by rw [List.length_take]; omega
  rcases hj with h' | h'
  · rw [List.append_assoc, List.getD_append _ _ _ _ (by omega), List.getD_eq_getElem?_getD, List.getElem?_take,
      if_pos h',
      List.getD_eq_getElem?_getD]
  · rw [List.getD_append_right _ _ _ _ (by rw [List.length_append]; omega), List.length_append, htake,
      List.getD_eq_getElem?_getD, List.getElem?_drop, Nat.add_sub_cancel' h', List.getD_eq_getElem?_getD]

theorem getD_patch {α : Type} (d : α) {xs ys : List α} {lo j : Nat} (h : lo ≤ xs.length) (hj : j < ys.length) :
    (xs.take lo ++ ys ++ xs.drop (lo + ys.length)).getD (lo + j) d = ys.getD j d := by
  have htake : (xs.take lo).length = lo := by rw [List.length_take]; omega
  rw [List.getD_append _ _ _ _ (by rw [List.length_append]; omega), List.getD_append_right _ _ _ _ (by omega), htake,
    Nat.add_sub_cancel_left]

/-- The place of a drained lane: the other half of a tile of 120 lanes stays. -/
def drainLo (hi : Bool) : Nat := if hi then 60 else 0

/-- The lanes that a drain writes. -/
def drainLanes (ty : Nat) (sat accd hi : Bool) (old : Row) (ts : List Val) : List (Nat × Option Nat) :=
  ts.zipIdx.map (fun e => drainLane ty sat (if accd then e.1 else valAdd (laneVal old ty (drainLo hi + e.2)) e.1))

theorem drainRow_eq {ty : Nat} (haxb : isAxb ty = false) (sat accd hi : Bool) (old : Row) (ts : List Val) :
    drainRow ty sat accd hi old ts =
      (⟨packRow ty ((laneCodes old ty).take (drainLo hi) ++ (drainLanes ty sat accd hi old ts).map (·.1) ++
          (laneCodes old ty).drop (drainLo hi + 60)), old.exps⟩,
        List.replicate (drainLo hi) none ++ (drainLanes ty sat accd hi old ts).map (·.2)) := by
  rw [drainRow, if_neg (by rw [haxb]; exact Bool.false_ne_true)]
  rfl

section
variable {ty : Nat} (haxb : isAxb ty = false) (sat accd : Bool) {hi : Bool} (old : Row) {ts : List Val}
  (hts : ts.length = 60) (hhi : hi = true → lanesOf ty = 120)

include hts in
theorem length_drainLanes : (drainLanes ty sat accd hi old ts).length = 60 := by simp [drainLanes, hts]

theorem getD_laneCodes {j : Nat} (hj : j < lanesOf ty) : (laneCodes old ty).getD j 0 = laneBits old ty j := by
  rw [laneCodes, getD_map_of_lt _ 0 0 (by simpa using hj)]
  congr 1
  simp [hj]

theorem lanesOf_cases (ty : Nat) : lanesOf ty = 60 ∨ lanesOf ty = 120 := by
  unfold lanesOf
  split <;> simp

include hhi in
theorem drainLo_le : drainLo hi + 60 ≤ lanesOf ty := by
  cases hi with
  | false => rcases lanesOf_cases ty with h | h <;> rw [h] <;> decide
  | true => rw [hhi rfl]; decide

include hts hhi in
theorem length_drained : ((laneCodes old ty).take (drainLo hi) ++ (drainLanes ty sat accd hi old ts).map (·.1) ++
    (laneCodes old ty).drop (drainLo hi + 60)).length = lanesOf ty := by
  have hlo := drainLo_le hhi
  have hlen : (laneCodes old ty).length = lanesOf ty := by simp [laneCodes]
  simp only [List.length_append, List.length_take, List.length_drop, List.length_map, length_drainLanes sat accd
      old hts, hlen]
  omega

include haxb hts hhi

/-- The lanes of the other half stay. -/
theorem laneBits_drainRow_out {j : Nat} (hj : j < lanesOf ty) (hout : j < drainLo hi ∨ drainLo hi + 60 ≤ j) :
    laneBits (drainRow ty sat accd hi old ts).1 ty j = laneBits old ty j ∧
    (drainRow ty sat accd hi old ts).2.getD j none = none := by
  have hlo := drainLo_le hhi
  have hlen : (laneCodes old ty).length = lanesOf ty := by simp [laneCodes]
  have hnew := length_drainLanes (ty := ty) (hi := hi) sat accd old hts
  have hbits : laneBits old ty j < 2 ^ laneW ty := laneBits_lt _ _ _
  rw [drainRow_eq haxb, laneBits_packRow _ (length_drained sat accd old hts hhi)]
  constructor
  · have e := getD_patch_out (0 : Nat) (xs := laneCodes old ty) (ys := (drainLanes ty sat accd hi old ts).map (·.1))
      (lo := drainLo hi) (j := j) (by rw [List.length_map, hnew, hlen]; exact hlo)
          (by rw [List.length_map, hnew]; exact hout)
    rw [List.length_map, hnew] at e
    rw [e, getD_laneCodes old hj, Nat.mod_eq_of_lt hbits]
  · rcases hout with h | h
    · rw [List.getD_append _ _ _ _ (by simpa using h), List.getD_replicate _ h]
    · exact List.getD_eq_default _ _ (by simp [hnew]; omega)

/-- A lane that the drain writes. -/
theorem laneBits_drainRow {j : Nat} {t : Val} (ht : ts[j]? = some t) :
    laneBits (drainRow ty sat accd hi old ts).1 ty (drainLo hi + j) =
      (drainLane ty sat (if accd then t else valAdd (laneVal old ty (drainLo hi + j)) t)).1 % 2 ^ laneW ty ∧
    (drainRow ty sat accd hi old ts).2.getD (drainLo hi + j) none =
      (drainLane ty sat (if accd then t else valAdd (laneVal old ty (drainLo hi + j)) t)).2 := by
  have hlo := drainLo_le hhi
  have hlen : (laneCodes old ty).length = lanesOf ty := by simp [laneCodes]
  have hnew := length_drainLanes (ty := ty) (hi := hi) sat accd old hts
  obtain ⟨hj, hget⟩ := List.getElem?_eq_some_iff.1 ht
  rw [hts] at hj
  have hlane : (drainLanes ty sat accd hi old ts)[j]? =
      some (drainLane ty sat (if accd then t else valAdd (laneVal old ty (drainLo hi + j)) t)) := by
    simp [drainLanes, ht]
  rw [drainRow_eq haxb, laneBits_packRow _ (length_drained sat accd old hts hhi)]
  constructor
  · have e := getD_patch (0 : Nat) (xs := laneCodes old ty) (ys := (drainLanes ty sat accd hi old ts).map (·.1))
      (lo := drainLo hi) (j := j) (by rw [hlen]; omega) (by rw [List.length_map, hnew]; exact hj)
    rw [List.length_map, hnew] at e
    rw [e, List.getD_eq_getElem?_getD, List.getElem?_map, hlane]
    rfl
  · rw [List.getD_append_right _ _ _ _ (by simp), List.length_replicate, Nat.add_sub_cancel_left,
      List.getD_eq_getElem?_getD, List.getElem?_map, hlane]
    rfl
end

section
variable {ty : Nat} (hty : ty ≤ 4) (haxb : isAxb ty = false) (sat : Bool) (x : Val)
include hty haxb

omit haxb in
theorem floatTile_eq_zero (hf : isFloatTile ty = true) (h3 : ty ≠ 3) : ty = 0 := by
  revert hf h3
  interval_cases ty <;> decide

theorem drainLane_int (hint : isIntTile ty = true) : drainLane ty sat x = (intConv (laneW ty) sat x, none) := by
  have h3 : ty ≠ 3 := by rintro rfl; exact absurd hint (by decide)
  have hf : isFloatTile ty = false := by
    clear h3
    revert hint
    interval_cases ty <;> decide
  rw [drainLane, if_neg h3, hf, Bool.false_and, if_neg Bool.false_ne_true, laneConv, hf, if_neg Bool.false_ne_true]

end

theorem intConv_lt (w : Nat) (sat : Bool) (x : Val) : intConv w sat x < 2 ^ w := by
  have code (v : Int) : (v % 2 ^ w).toNat < 2 ^ w := by
    have hpos : (0 : Int) < 2 ^ w := by positivity
    have := Int.emod_lt_of_pos v hpos
    zify
    rw [Int.toNat_of_nonneg (Int.emod_nonneg v hpos.ne')]
    exact this
  cases x with
  | nan => exact Nat.two_pow_pos w
  | inf s => exact code _
  | num s p q e =>
    simp only [intConv]
    split <;> exact code _

/-- Is a value in the subnormal range of an A16F tile, and is it then wrapped and flagged (spec/07 R140)? -/
def DrainSub (ty : Nat) (x : Val) : Prop :=
  ty = 3 ∧ valIsZero x = false ∧ valLt (valAbs x) (.num false 1 1 (-126)) = true

def DrainFlagged (ty : Nat) (x : Val) : Prop := DrainSub ty x ∧ valLt (.num false 1 1 (-134)) (valAbs x) = true

theorem drainFlagged_iff (x : Val) : DrainFlagged 3 x ↔ IsFlagged bf16 x := by
  unfold DrainFlagged DrainSub IsFlagged IsSubnormal
  rw [if_neg (by decide)]
  simp

theorem drainSub_iff (x : Val) : DrainSub 3 x ↔ IsSubnormal x := by simp [DrainSub, IsSubnormal]

/-- What a lane of a drain takes, by the type of its tile. -/
theorem drainLane_spec {ty : Nat} (hty : ty ≤ 4) (haxb : isAxb ty = false) (sat : Bool) (x : Val) :
    let got := (drainLane ty sat x).1 % 2 ^ laneW ty
    let conv (y : Val) : Nat := fpConv (floatOf ty) sat y % 2 ^ laneW ty
    (isIntTile ty = true → got = intConv (laneW ty) sat x) ∧
    (isFloatTile ty = true → (valIsNan x = true → got = fpNan (floatOf ty)) ∧
      (valIsNan x = false → ¬DrainSub ty x → got = conv x)) ∧
    (DrainFlagged ty x → got = conv (valScale x 192)) ∧
    (DrainSub ty x → ¬DrainFlagged ty x → got = if valNeg x then 0x8000 else 0) ∧
    ((∃ y, (drainLane ty sat x).2 = some y) ↔ DrainFlagged ty x) := by
  intro got conv
  by_cases h3 : ty = 3
  · subst h3
    rw [drainFlagged_iff, drainSub_iff]
    refine ⟨fun h => absurd h (by decide), fun _ => ⟨fun hn => ?_, fun hn hs => ?_⟩, fun hf => ?_, fun hs hf => ?_,
      arithLane_dir_iff bf16 sat x⟩
    · show (arithLane bf16 sat x).1 % 2 ^ 16 = fpNan bf16
      rw [arithLane_nan bf16 sat hn]
      decide
    · show (arithLane bf16 sat x).1 % 2 ^ 16 = fpConv bf16 sat x % 2 ^ 16
      rw [arithLane_normal bf16 sat hn hs]
    · show (arithLane bf16 sat x).1 % 2 ^ 16 = fpConv bf16 sat (valScale x 192) % 2 ^ 16
      rw [(arithLane_flagged bf16 sat hf).1]
    · show (arithLane bf16 sat x).1 % 2 ^ 16 = _
      rw [arithLane_tiny bf16 sat hs hf]
      cases valNeg x <;> decide
  · have hsub : ¬DrainSub ty x := fun h => h3 h.1
    have hflag : ¬DrainFlagged ty x := fun h => hsub h.1
    have hlane : drainLane ty sat x =
        (if isFloatTile ty && valIsNan x then fpNan (floatOf ty) else laneConv ty sat x, none) := by
      rw [drainLane, if_neg h3]
      split <;> rfl
    refine ⟨fun hint => ?_, fun hf => ⟨fun hn => ?_, fun hn _ => ?_⟩, fun h => absurd h hflag, fun h => absurd h
        hsub, ?_⟩
    · show (drainLane ty sat x).1 % _ = _
      rw [drainLane_int hty haxb sat x hint, Nat.mod_eq_of_lt (intConv_lt _ _ _)]
    · show (drainLane ty sat x).1 % _ = _
      rw [hlane, hf, hn]
      obtain rfl := floatTile_eq_zero hty hf h3
      rw [if_pos (by decide)]
      decide
    · show (drainLane ty sat x).1 % _ = _
      rw [hlane, hn, Bool.and_false, if_neg Bool.false_ne_true, laneConv, if_pos hf]
    · rw [hlane]
      exact ⟨fun ⟨y, hy⟩ => absurd hy (by simp), fun h => absurd h hflag⟩

/-! ### AXB groups (spec/07 R137) -/

/-- The growth of a group is the first at which it fits, or the last. -/
theorem axbGrow_eq {g : Int} {es : List (Int × Val)} {fuel k d : Nat}
    (hbefore : ∀ d' < d, axbFits g (k + d') es = false)
    (hat : d = fuel ∨ d < fuel ∧ axbFits g (k + d) es = true) : axbGrow g es fuel k = k + d := by
  induction fuel generalizing k d with
  | zero =>
    have hd : d = 0 := by omega
    rw [axbGrow, hd, Nat.add_zero]
  | succ fuel ih =>
    rw [axbGrow]
    cases d with
    | zero =>
      have hfits : axbFits g k es = true := by simpa using hat
      rw [if_pos hfits, Nat.add_zero]
    | succ d =>
      have hno : axbFits g k es = false := hbefore 0 (Nat.succ_pos d)
      have shift (d' : Nat) : k + 1 + d' = k + (d' + 1) := by omega
      rw [if_neg (by rw [hno]; exact Bool.false_ne_true)]
      refine (ih (k := k + 1) (d := d) (fun d' hd' => ?_) (hat.imp Nat.succ.inj fun h =>
        ⟨Nat.lt_of_succ_lt_succ h.1, ?_⟩)).trans (shift d)
      · rw [shift]
        exact hbefore (d' + 1) (by omega)
      · rw [shift]
        exact h.2

/-- A NaN writes 0. -/
def nanZero (e : Int × Val) : Int × Val := match e.2 with | .nan _ _ => (e.1, valOfInt 0 0) | _ => e

theorem axbGroup_eq (g : Int) (es : List (Int × Val)) : axbGroup g es =
    (g + axbGrow g (es.map nanZero) (127 - g).toNat 0, (es.map nanZero).map (fun e =>
      axbClamp e (axbLane g (axbGrow g (es.map nanZero) (127 - g).toNat 0) e))) := rfl

/-- Finite values that are written to the lanes of a group. -/
def groupLanes (was : Nat → Int) (xs : Nat → Val) : List (Int × Val) := (List.range 15).map (fun i => (was i, xs i))

/-- What lane `i` of a group becomes at growth `k`. -/
def grownLane (g : Int) (was : Nat → Int) (xs : Nat → Val) (k i : Nat) : Int :=
  valRne (valOfInt (was i) (-(k : Int))) + valRne (valScale (xs i) (-(g + k)))

section
variable {g : Int} {was : Nat → Int} {xs : Nat → Val} (hxs : ∀ i < 15, ∃ s p q e, xs i = .num s p q e)
include hxs

theorem axbFits_iff (k : Nat) : axbFits g k (groupLanes was xs) = true ↔
    ∀ i < 15, (grownLane g was xs k i).natAbs ≤ 2 ^ 31 - 1 := by
  have hfin (i : Nat) (hi : i < 15) : isInfVal (xs i) = false := by
    obtain ⟨s, p, q, e, h⟩ := hxs i hi
    rw [h]
    rfl
  rw [axbFits, groupLanes, List.all_map, List.all_eq_true]
  refine forall_congr' fun i => ?_
  rw [List.mem_range]
  refine imp_congr_right fun hi => ?_
  rw [Function.comp_apply, hfin i hi, Bool.not_false, Bool.true_and, decide_eq_true_eq]
  exact Iff.rfl

theorem axbGroup_grown {k : Nat} (hk : axbGrow g (groupLanes was xs) (127 - g).toNat 0 = k) :
    axbGroup g (groupLanes was xs) =
      (g + k, (List.range 15).map (fun i => max (-(2 ^ 31 - 1)) (min (2 ^ 31 - 1) (grownLane g was xs k i)))) := by
  have hnan : (groupLanes was xs).map nanZero = groupLanes was xs := by
    conv_rhs => rw [← List.map_id (groupLanes was xs)]
    refine List.map_congr_left fun e he => ?_
    obtain ⟨i, hi, rfl⟩ := List.mem_map.1 he
    obtain ⟨s, p, q, e, h⟩ := hxs i (List.mem_range.1 hi)
    simp only [nanZero, h, id]
  rw [axbGroup_eq, hnan, hk]
  refine Prod.ext rfl ?_
  dsimp only
  rw [groupLanes, List.map_map]
  refine List.map_congr_left fun i hi => ?_
  obtain ⟨s, p, q, e, h⟩ := hxs i (List.mem_range.1 hi)
  rw [Function.comp_apply, axbClamp]
  dsimp only
  rw [h]
  dsimp only
  rw [← h]
  rfl

/-- The first growth at which a group fits is the one it takes, and its lanes are then not clamped. -/
theorem axbGroup_fits {k : Nat} (hk : g + k ≤ 127) (hfits : ∀ i < 15, (grownLane g was xs k i).natAbs ≤ 2 ^ 31 - 1)
    (hleast : ∀ k' < k, ¬∀ i < 15, (grownLane g was xs k' i).natAbs ≤ 2 ^ 31 - 1) :
    axbGroup g (groupLanes was xs) = (g + k, (List.range 15).map (grownLane g was xs k)) := by
  have hgrow : axbGrow g (groupLanes was xs) (127 - g).toNat 0 = k := by
    have e := axbGrow_eq (g := g) (es := groupLanes was xs) (fuel := (127 - g).toNat) (k := 0) (d := k)
        (fun d' hd' => ?_) ?_
    · rw [e, Nat.zero_add]
    · rw [Nat.zero_add, Bool.eq_false_iff, ne_eq, axbFits_iff hxs]
      exact hleast d' hd'
    · rw [Nat.zero_add, axbFits_iff hxs]
      have : k ≤ (127 - g).toNat := by omega
      rcases Nat.eq_or_lt_of_le this with h | h
      · exact .inl h
      · exact .inr ⟨h, hfits⟩
  rw [axbGroup_grown hxs hgrow]
  refine Prod.ext rfl (List.map_congr_left fun i hi => ?_)
  have := hfits i (List.mem_range.1 hi)
  omega

/-- A group that fits at no growth takes the exponent 127, its lanes clamped. -/
theorem axbGroup_clamped (hg : g ≤ 127)
    (hno : ∀ k : Nat, g + k ≤ 127 → ¬∀ i < 15, (grownLane g was xs k i).natAbs ≤ 2 ^ 31 - 1) :
    axbGroup g (groupLanes was xs) = (127, (List.range 15).map (fun i =>
      max (-(2 ^ 31 - 1)) (min (2 ^ 31 - 1) (grownLane g was xs (127 - g).toNat i)))) := by
  have hgrow : axbGrow g (groupLanes was xs) (127 - g).toNat 0 = (127 - g).toNat := by
    rw [axbGrow_eq (d := (127 - g).toNat) (fun d' hd' => ?_) (.inl rfl), Nat.zero_add]
    rw [Nat.zero_add, Bool.eq_false_iff, ne_eq, axbFits_iff hxs]
    exact hno d' (by omega)
  rw [axbGroup_grown hxs hgrow]
  exact Prod.ext (by dsimp only; omega) rfl
end

/-! ### The groups of a drained row -/

theorem sextInt_bounds (x w : Nat) : -(2 ^ (w - 1)) ≤ sextInt x w ∧ sextInt x w < 2 ^ (w - 1) := by
  rw [sextInt_eq_toInt_ofNat]
  exact ⟨BitVec.le_toInt _, BitVec.toInt_lt⟩

section
variable {groups : Nat → Int × List Int} {j : Nat} (hj : j < 4)
include hj

theorem groupExp_axbPack_range (hg : -128 ≤ (groups j).1 ∧ (groups j).1 ≤ 127) :
    groupExp (axbPack ((List.range 4).map groups)) j = (groups j).1 := by
  rw [groupExp_axbPack (by simp), List.map_map, getD_map_of_lt _ 0 0 (by simpa using hj)]
  have e : (List.range 4).getD j 0 = j := by simp [hj]
  rw [e, Function.comp_apply, show (256 : Int) = 2 ^ 8 from rfl, sextInt_emod_toNat]
  rw [Int.bmod_eq_of_le (by omega) (by omega)]

theorem sextInt_laneBits_axbPack_range (hlanes : ∀ j, (groups j).2.length = 15) {i : Nat} (hi : i < 15) {v : Int}
    (hv : (groups j).2.getD i 0 = v)
    (hfits : v.natAbs ≤ 2 ^ 31 - 1) :
    sextInt (laneBits (axbPack ((List.range 4).map groups)) 2 (15 * j + i)) 32 = v := by
  have e : (List.range 4).getD j 0 = j := by simp [hj]
  rw [laneBits_axbPack (by simp) (fun x hx => ?_) hi, sextInt_mod, List.map_map, getD_map_of_lt _ 0 []
      (by simpa using hj), e,
    Function.comp_apply, getD_map_of_lt _ 0 0 (by rw [hlanes]; exact hi), hv, sextInt_emod_toNat]
  · rw [Int.bmod_eq_of_le (by omega) (by omega)]
  · obtain ⟨j', -, rfl⟩ := List.mem_map.1 hx
    exact hlanes j'
end

theorem length_axbGroup (g : Int) (es : List (Int × Val)) : (axbGroup g es).2.length = es.length := by
  simp [axbGroup]

/-- The lanes of a group of a drained AXB row. -/
theorem drainRow_axb (sat accd hi : Bool) (old : Row) {ts : List Val} (hts : ts.length = 60) :
    (drainRow 2 sat accd hi old ts).1 = axbPack
        ((List.range 4).map (fun j => axbGroup (if accd then -128 else groupExp old j)
      (groupLanes (fun i => if accd then 0 else sextInt (laneBits old 2 (15 * j + i)) 32)
        (fun i => ts.getD (15 * j + i) (.inf false))))) := by
  have hgroup (j : Nat) (hj : j < 4) : ((ts.drop (15 * j)).take 15).zipIdx.map (fun e =>
      (if accd then (0 : Int) else sextInt (laneBits old 2 (15 * j + e.2)) 32, e.1)) =
      groupLanes (fun i => if accd then 0 else sextInt (laneBits old 2 (15 * j + i)) 32)
        (fun i => ts.getD (15 * j + i) (.inf false)) := by
    refine List.ext_getElem (by simp [groupLanes, hts]; omega) fun i h1 h2 => ?_
    have hi : i < 15 := by simpa [groupLanes] using h2
    have hlt : 15 * j + i < ts.length := by omega
    simp [groupLanes, List.getD_eq_getElem?_getD, hlt]
  rw [drainRow, if_pos (show isAxb 2 = true from rfl)]
  dsimp only
  rw [axbRow, List.map_map]
  refine congrArg axbPack (List.map_congr_left fun j hj => ?_)
  exact congrArg (axbGroup _) (hgroup j (List.mem_range.1 hj))

end Sys2Proof.Machine

open Sys2Proof Sys2Proof.Machine

/-- Settles O24: the rows of a drain go one by one, each lane takes the sum in its format, and an AXB group grows. -/
theorem drainRows : Obligations.DrainRows := by
  unfold Obligations.DrainRows
  refine ⟨fun s h t neg accd hi hg hours ht => ?_, fun ty sat accd hi old ts hts hty haxb hhi => ?_,
    fun sat accd hi old ts hts hnum j hj => ?_⟩
  · intro k p set terms row
    have word := exec_mDrain_ours (neg := neg) (accd := accd) (hi := hi) hg hours ht
    refine ⟨fun hh hl => word.trans (next_congr (if_pos ⟨hh, hl⟩)), fun hok =>
        ⟨_, word.trans (next_congr (if_neg ?_)), ?_⟩⟩
    · rintro ⟨hh, hl⟩
      rcases hok with h | h
      · exact absurd (hh.symm.trans h) (by decide)
      · exact absurd (hl.symm.trans h) (by decide)
    · have harr := arrOf_drainDone s.m t.toNat (rowsOfDrain s.m t.toNat neg accd hi) (n := 64) le_rfl
      exact ⟨mem_drainDone _ _ _ _, fun r hr => drainDone_sends s.m t.toNat _ le_rfl hr,
        fun hfree r hr => drainDone_final s.m t.toNat _ le_rfl hfree hr, fun f hf => drainDone_keeps s.m t.toNat _
            le_rfl hf,
        fun key hkey => drainDone_others s.m t.toNat _ le_rfl hkey, (congrArg Arr.sets harr :),
            (congrArg Arr.holder harr :),
        (congrArg Arr.slots harr :), (congrArg Arr.active harr :), due_drainDone s.m t.toNat _ le_rfl⟩
  · intro lo r fl
    refine ⟨?_, fun j hj hout => laneBits_drainRow_out haxb sat accd old hts hhi hj hout, fun j t htj => ?_⟩
    · exact congrArg (fun x => x.1.exps) (drainRow_eq haxb sat accd hi old ts)
    · obtain ⟨hbits, hfl⟩ := laneBits_drainRow haxb sat accd old hts hhi htj
      have spec := drainLane_spec hty haxb sat (if accd then t else valAdd (laneVal old ty (drainLo hi + j)) t)
      dsimp only at spec
      rw [← hbits, ← hfl] at spec
      exact spec
  · intro r g was new fits now
    have hxs (i : Nat) (hi : i < 15) : ∃ s p q e, ts.getD (15 * j + i) (.inf false) = .num s p q e := by
      rw [List.getD_eq_getElem _ _ (by omega)]
      exact hnum _ (List.getElem_mem _)
    have hg : -128 ≤ g ∧ g ≤ 127 := by
      have := sextInt_bounds (old.exps.toNat / 256 ^ j) 8
      change -128 ≤ (if accd then -128 else groupExp old j) ∧ (if accd then -128 else groupExp old j) ≤ 127
      rw [groupExp]
      split <;> omega
    have hrow : r = axbPack _ := drainRow_axb sat accd hi old hts
    have hlanes (j : Nat) := (length_axbGroup (if accd then -128 else groupExp old j)
      (groupLanes (fun i => if accd then 0 else sextInt (laneBits old 2 (15 * j + i)) 32)
        (fun i => ts.getD (15 * j + i) (.inf false)))).trans (by simp [groupLanes] : _ = 15)
    refine ⟨fun k hk hfits hleast => ?_, fun hno => ?_⟩
    · have hgroup := axbGroup_fits hxs hk hfits hleast
      refine ⟨?_, fun i hi => ?_⟩
      · rw [hrow, groupExp_axbPack_range hj (by rw [hgroup]; constructor <;> dsimp only <;> omega), hgroup]
      · change sextInt (laneBits r 2 (15 * j + i)) 32 = _
        rw [hrow]
        exact sextInt_laneBits_axbPack_range hj hlanes hi (by rw [hgroup]; simp [hi]; rfl) (hfits i hi)
    · have hgroup := axbGroup_clamped hxs hg.2 hno
      refine ⟨?_, fun i hi => ?_⟩
      · rw [hrow, groupExp_axbPack_range hj (by rw [hgroup]; constructor <;> dsimp only <;> omega), hgroup]
      · change sextInt (laneBits r 2 (15 * j + i)) 32 = _
        rw [hrow]
        exact sextInt_laneBits_axbPack_range hj hlanes hi (by rw [hgroup]; simp [hi]; rfl) (by omega)

end

section
/-!
PROOFS. What a store of the hive changes
    (memory, the histories, views, marks and keys of granules, and the stores that a page
holds), and the events of a gang launch.
-/
namespace Sys2Proof.Machine

/-! ### What the stores of the hive change -/

/-- Two machines that differ at most in what a store by an address value changes. -/
def OnlyStored (m m' : Mach) : Prop :=
  ∃ step mem hist agents poisoned keyed recDue,
    m' = { m with step, mem, hist, agents, poisoned, keyed, recDue }

theorem OnlyStored.refl (m : Mach) : OnlyStored m m := ⟨_, _, _, _, _, _, _, rfl⟩

theorem OnlyStored.trans {m m1 m2 : Mach} (h : OnlyStored m m1) (h' : OnlyStored m1 m2) : OnlyStored m m2 := by
  obtain ⟨_, _, _, _, _, _, _, rfl⟩ := h
  obtain ⟨_, _, _, _, _, _, _, rfl⟩ := h'
  exact ⟨_, _, _, _, _, _, _, rfl⟩

/-- A field that no store changes. -/
theorem OnlyStored.keeps {α : Type} {m m' : Mach} (h : OnlyStored m m') (f : Mach → α)
    (hf : ∀ (m : Mach) step mem hist agents poisoned keyed recDue,
      f { m with step, mem, hist, agents, poisoned, keyed, recDue } = f m) : f m' = f m := by
  obtain ⟨_, _, _, _, _, _, _, rfl⟩ := h
  exact hf ..

theorem onlyStored_commitWrite (m : Mach) (a g : Nat) (mask : BitVec 16) (data : Gran) :
    OnlyStored m (commitWrite m a g mask data) := ⟨_, _, _, _, _, _, _, rfl⟩

theorem onlyStored_commitKeyed (m : Mach) (a : Nat) (key : Option Nat) (g : Nat) (mask : BitVec 16) (data : Gran) :
    OnlyStored m (commitKeyed m a key g mask data) := by
  have hkey : ∀ m1 : Mach, OnlyStored m m1 → OnlyStored m (match key with
      | some k => if g < 0x8000000000 then { m1 with keyed := smPut 0 m1.keyed g k } else m1
      | none => m1) := by
    intro m1 h1
    cases key with
    | none => exact h1
    | some k =>
      dsimp only
      split
      · exact h1.trans ⟨_, _, _, _, _, _, _, rfl⟩
      · exact h1
  refine hkey _ ?_
  split
  · exact onlyStored_commitWrite ..
  · exact onlyStored_commitWrite ..

theorem onlyStored_vaWrite (a : Nat) (w : Who) (fuel : Nat) : ∀ {m m' : Mach} {va : Word} {x n : Nat},
    vaWrite m a w va x fuel n = .ok m' → OnlyStored m m' := by
  induction fuel with
  | zero =>
    intro m m' va x n h
    cases h
    exact .refl m
  | succ fuel ih =>
    intro m m' va x n h
    rw [vaWrite] at h
    split at h
    · cases h
      exact .refl m
    · dsimp only at h
      split at h
      · split at h
        · cases h
        · exact (onlyStored_commitKeyed ..).trans (ih h)
      · cases h
      · cases h

theorem onlyStored_putBytes (m : Mach) (w : Who) (va : Word) (n x : Nat) : OnlyStored m (putBytes m w va n x) := by
  unfold putBytes
  split
  · exact ⟨_, _, _, _, _, _, _, rfl⟩
  · split
    next m' h => exact onlyStored_vaWrite _ _ _ h
    next => exact .refl m

theorem onlyStored_writeRec (m : Mach) (i : Nat) : OnlyStored m (writeRec m i) := onlyStored_putBytes ..

/-! ### Nodes and gangs -/

theorem getNode_setNode_same (m : Mach) (i : Nat) (n : Node) : getNode (setNode m i n) i = n := smGet_put_same ..

theorem getGang_setGang (m : Mach) (k : Nat) (g : Gang) : getGang (setGang m k g) k = g := smGet_put_same ..

theorem getNode_modNode (m : Mach) (i : Nat) (f : Node → Node) : getNode (modNode m i f) i = f (getNode m i) :=
  smGet_put_same ..

/-- What joining a launch queue leaves: the new node's fields, and no message. -/
theorem enqueueLaunch_facts (m : Mach) (owner x : Nat) (parent : Option Nat) (views : SMap Nat) :
    (enqueueLaunch m owner x parent views).2 = m.nodeSeq ∧
    (enqueueLaunch m owner x parent views).1.out = m.out ∧
    (getNode (enqueueLaunch m owner x parent views).1 m.nodeSeq).lpb = lpbOf x ∧
    (getNode (enqueueLaunch m owner x parent views).1 m.nodeSeq).owner = owner := by
  unfold enqueueLaunch
  extract_lets l i total dead n m1 q m2
  have hjoined : getNode m1 i = n := getNode_setNode_same ..
  have hnode : getNode m2 i = n ∧ m2.out = m.out := by
    unfold m2
    split
    · exact ⟨hjoined, rfl⟩
    · exact ⟨hjoined, rfl⟩
  have hstored := onlyStored_writeRec m2 i
  have hsame : getNode (writeRec m2 i) i = n :=
    (hstored.keeps (getNode · i) fun _ _ _ _ _ _ _ _ => rfl).trans hnode.1
  refine ⟨rfl, (hstored.keeps (·.out) fun _ _ _ _ _ _ _ _ => rfl).trans hnode.2, ?_, ?_⟩
  · exact congrArg Node.lpb hsame
  · exact congrArg Node.owner hsame

/-! ### The events of a gang launch -/

theorem exec_arm_live {s : State} {src k : Nat} {lpb : List Byte} (hrun : s.m.phase = .running)
    (hlive : (getGang s.m (memberKey src k)).live = true) : exec (.arm src k lpb) s = .next s := by
  rw [exec_arm, execArm, whenRunning, onMach]
  exact next_congr ((if_pos hrun).trans (if_pos hlive))

theorem lpbTaken_iff (m : Mach) (o x : Nat) :
    ¬(lpbBad m o x = true ∨ (!(recAddrOk m (whoOwner m o) (lpbOf x).crec)) = true ∨
    (!(queueTakes (getQueue m (lpbOf x).qid) o)) = true) ↔
    lpbBad m o x = false ∧ recAddrOk m (whoOwner m o) (lpbOf x).crec = true ∧
      queueTakes (getQueue m (lpbOf x).qid) o = true := by
  simp [not_or]

theorem exec_arm_refused {s : State} {src k : Nat} {lpb : List Byte} (hrun : s.m.phase = .running)
    (hlive : (getGang s.m (memberKey src k)).live = false)
    (hbad : ¬(lpbBad s.m (getQueue s.m (lpbOf (natOfBytes lpb)).qid).owner (natOfBytes lpb) = false ∧
      recAddrOk s.m (whoOwner s.m (getQueue s.m (lpbOf (natOfBytes lpb)).qid).owner) (lpbOf (natOfBytes lpb)).crec
          = true ∧
      queueTakes (getQueue s.m (lpbOf (natOfBytes lpb)).qid) (getQueue s.m (lpbOf (natOfBytes lpb)).qid).owner =
          true)) :
    exec (.arm src k lpb) s = .next { s with m := { s.m with out := s.m.out ++ [.refuse src k] } } := by
  rw [exec_arm, execArm, whenRunning, onMach]
  refine next_congr ((if_pos hrun).trans ((if_neg (Bool.eq_false_iff.1 hlive)).trans (if_pos ?_)))
  exact not_not.1 fun h => hbad ((lpbTaken_iff ..).1 h)

/-- A member's launch that has just joined its queue, armed for a gang. -/
def memberArmed (e : Mach × Nat) (src k : Nat) : Mach :=
  let m := modNode e.1 e.2 (fun n => { n with gang := some (memberKey src k), placeable := false })
  sendMsg (setGang m (memberKey src k) { live := true, src := src, launch := e.2, members := [src], since := m.nowt })
    (.armed src k)

theorem exec_arm_takes {s : State} {src k : Nat} {lpb : List Byte} (hrun : s.m.phase = .running)
    (hlive : (getGang s.m (memberKey src k)).live = false)
    (hok : lpbBad s.m (getQueue s.m (lpbOf (natOfBytes lpb)).qid).owner (natOfBytes lpb) = false ∧
      recAddrOk s.m (whoOwner s.m (getQueue s.m (lpbOf (natOfBytes lpb)).qid).owner) (lpbOf (natOfBytes lpb)).crec
          = true ∧
      queueTakes (getQueue s.m (lpbOf (natOfBytes lpb)).qid) (getQueue s.m (lpbOf (natOfBytes lpb)).qid).owner =
          true) :
    exec (.arm src k lpb) s = .next { s with
      m := memberArmed (enqueueLaunch s.m (getQueue s.m (lpbOf (natOfBytes lpb)).qid).owner (natOfBytes lpb) none
          []) src k } := by
  rw [exec_arm, execArm, whenRunning, onMach]
  exact next_congr ((if_pos hrun).trans
      ((if_neg (Bool.eq_false_iff.1 hlive)).trans (if_neg ((lpbTaken_iff ..).2 hok))))

theorem memberArmed_facts (e : Mach × Nat) (src k : Nat) :
    (memberArmed e src k).out = e.1.out ++ [.armed src k] ∧
    (getGang (memberArmed e src k) (memberKey src k)).live = true ∧
    (getGang (memberArmed e src k) (memberKey src k)).launch = e.2 ∧
    (getGang (memberArmed e src k) (memberKey src k)).coordinator = false ∧
    (getNode (memberArmed e src k) e.2).placeable = false ∧
    (getNode (memberArmed e src k) e.2).lpb = (getNode e.1 e.2).lpb ∧
    (getNode (memberArmed e src k) e.2).owner = (getNode e.1 e.2).owner := by
  have hgang : getGang (memberArmed e src k) (memberKey src k) =
      { live := true, src := src, launch := e.2, members := [src], since := e.1.nowt } := by
    simp only [memberArmed, sendMsg, setGang, getGang, modNode, setNode, smGet_put_same]
  have hnode : getNode (memberArmed e src k) e.2 =
      { getNode e.1 e.2 with gang := some (memberKey src k), placeable := false } := smGet_put_same ..
  rw [hgang, hnode]
  exact ⟨rfl, rfl, rfl, rfl, rfl, rfl, rfl⟩

theorem exec_commit_dead {s : State} {src k : Nat} (hrun : s.m.phase = .running)
    (hlive : (getGang s.m (memberKey src k)).live = false) : exec (.commit src k) s = .next s := by
  rw [exec_commit, execCommit, whenRunning, onMach]
  exact next_congr ((if_pos hrun).trans (if_pos (by simp [hlive])))

/-- A member's launch that the coordinator has committed. -/
def memberCommitted (m : Mach) (src k : Nat) : Mach :=
  sendMsg (modNode (modGang m (memberKey src k) (fun g => { g with sentCommit := true }))
      (getGang m (memberKey src k)).launch
    (fun n => { n with placeable := true })) (.committed src k)

theorem exec_commit_live {s : State} {src k : Nat} (hrun : s.m.phase = .running)
    (hlive : (getGang s.m (memberKey src k)).live = true) :
    exec (.commit src k) s = .next { s with m := memberCommitted s.m src k } := by
  rw [exec_commit, execCommit, whenRunning, onMach]
  exact next_congr ((if_pos hrun).trans (if_neg (by simp [hlive])))

theorem memberCommitted_placeable (m : Mach) (src k : Nat) :
    (getNode (memberCommitted m src k) (getGang m (memberKey src k)).launch).placeable = true := by
  have h : getNode (memberCommitted m src k) (getGang m (memberKey src k)).launch =
      { getNode m (getGang m (memberKey src k)).launch with placeable := true } := smGet_put_same ..
  rw [h]

theorem exec_gangCancel_member {s : State} {src c k : Nat} (hrun : s.m.phase = .running) (hc : c ≠ s.m.number) :
    exec (.gangCancelMessage src ⟨c, k⟩) s = .next { s with
      m := if (getGang s.m (memberKey c k)).live = true ∧ src = c then cancelNode s.m
          (getGang s.m (memberKey c k)).launch
        else s.m } := by
  rw [exec_gangCancelMessage, execGangCancelMessage, whenRunning, onMach]
  refine next_congr ((if_pos hrun).trans ?_)
  dsimp only
  rw [if_neg hc, if_neg hc]
  exact if_congr (and_congr_right fun _ => beq_iff_eq) rfl rfl

theorem exec_gangCancel_coordinator {s : State} {src k : Nat} (hrun : s.m.phase = .running) :
    exec (.gangCancelMessage src ⟨s.m.number, k⟩) s = .next { s with
      m := if (getGang s.m k).live = true ∧ (getGang s.m k).coordinator = true ∧ src ∈ (getGang s.m k).members then
          cancelNode s.m (getGang s.m k).launch
        else s.m } := by
  rw [exec_gangCancelMessage, execGangCancelMessage, whenRunning, onMach]
  refine next_congr ((if_pos hrun).trans ?_)
  dsimp only
  rw [if_pos rfl, if_pos rfl]
  exact if_congr (and_congr_right fun _ => by rw [Bool.and_eq_true, List.contains_iff_mem]) rfl rfl

/-- Is a gang this package's own, with a package among its members? -/
abbrev OwnGang (g : Gang) (p : Nat) : Prop := g.live = true ∧ g.coordinator = true ∧ p ∈ g.members

theorem not_ownGang {g : Gang} {p : Nat} (h : g.live = false ∨ g.coordinator = false ∨ p ∉ g.members) : ¬OwnGang g
    p := by
  rintro ⟨hl, hc, hp⟩
  rcases h with h | h | h
  · exact absurd hl (by simp [h])
  · exact absurd hc (by simp [h])
  · exact h hp

theorem exec_armed_skip {s : State} {p k : Nat} (hrun : s.m.phase = .running)
    (h : ¬OwnGang (getGang s.m k) p ∨ (getGang s.m k).sentCommit = true ∨
      (getGang s.m k).since + (getGang s.m k).limit ≤ s.m.nowt) : exec (.armed p k) s = .next s := by
  rw [exec_armed, execArmed, whenRunning, onMach]
  refine next_congr ((if_pos hrun).trans (if_pos ?_))
  rw [OwnGang, not_and_or, not_and_or] at h
  simpa [or_assoc, or_left_comm] using h

theorem exec_armed_late {s : State} {p k : Nat} (hrun : s.m.phase = .running) (hown : OwnGang (getGang s.m k) p)
    (hsent : (getGang s.m k).sentCommit = false) (hin : s.m.nowt < (getGang s.m k).since + (getGang s.m k).limit)
    (hmiss : ∃ d ∈ (getGang s.m k).members, d ∉ (getGang s.m k).armed ∧ d ≠ p) (hnew : p ∉ (getGang s.m k).armed) :
    exec (.armed p k) s = .next { s with
      m := setGang s.m k { getGang s.m k with armed := (getGang s.m k).armed ++ [p] } } := by
  obtain ⟨hl, hc, hp⟩ := hown
  obtain ⟨d, hd, hda, hdp⟩ := hmiss
  rw [exec_armed, execArmed, whenRunning, onMach]
  refine next_congr ((if_pos hrun).trans ((if_neg (by simp [hl, hc, hp, hsent, hin])).trans ?_))
  dsimp only
  rw [if_neg (by simp [hnew] : ¬(getGang s.m k).armed.contains p = true)]
  refine if_neg fun hall => ?_
  have := List.all_eq_true.1 hall d hd
  simp [hda, hdp] at this

/-- The members that have armed, with one more. -/
def armedWith (g : Gang) (p : Nat) : List Nat := if g.armed.contains p then g.armed else g.armed ++ [p]

/-- A gang whose members have all armed, committed by its coordinator. -/
def gangCommitted (m : Mach) (k : Nat) (armed : List Nat) : Mach :=
  let g := getGang m k
  let m := setGang m k { g with armed := armed, sentCommit := true, since := m.nowt }
  let m := modNode m g.launch (fun n => { n with placeable := true })
  { m with out := m.out ++ g.members.map (fun d => Msg.commit d (k % 2 ^ 32)) }

theorem exec_armed_last {s : State} {p k : Nat} (hrun : s.m.phase = .running) (hown : OwnGang (getGang s.m k) p)
    (hsent : (getGang s.m k).sentCommit = false) (hin : s.m.nowt < (getGang s.m k).since + (getGang s.m k).limit)
    (hall : ∀ d ∈ (getGang s.m k).members, d ∈ (getGang s.m k).armed ∨ d = p) :
    exec (.armed p k) s = .next { s with m := gangCommitted s.m k (armedWith (getGang s.m k) p) } := by
  obtain ⟨hl, hc, hp⟩ := hown
  rw [exec_armed, execArmed, whenRunning, onMach]
  refine next_congr ((if_pos hrun).trans ((if_neg (by simp [hl, hc, hp, hsent, hin])).trans (if_pos ?_)))
  refine List.all_eq_true.2 fun d hd => List.contains_iff_mem.2 ?_
  split
  next h =>
    rcases hall d hd with h' | rfl
    · exact h'
    · exact List.contains_iff_mem.1 h
  next => simpa using hall d hd

theorem gangCommitted_facts (m : Mach) (k : Nat) (armed : List Nat) :
    (gangCommitted m k armed).out = m.out ++ (getGang m k).members.map (fun d => Msg.commit d (k % 2 ^ 32)) ∧
    (getGang (gangCommitted m k armed) k).sentCommit = true ∧ (getGang (gangCommitted m k armed) k).since = m.nowt ∧
    (getNode (gangCommitted m k armed) (getGang m k).launch).placeable = true := by
  have hgang : getGang (gangCommitted m k armed) k =
      { getGang m k with armed := armed, sentCommit := true, since := m.nowt } := smGet_put_same ..
  have hnode : getNode (gangCommitted m k armed) (getGang m k).launch =
      { getNode m (getGang m k).launch with placeable := true } := smGet_put_same ..
  rw [hgang, hnode]
  exact ⟨rfl, rfl, rfl, rfl⟩

theorem exec_committed_eq {s : State} (p k : Nat) (hrun : s.m.phase = .running) :
    exec (.committed p k) s = .next { s with
      m := if OwnGang (getGang s.m k) p ∧ (getGang s.m k).sentCommit = true ∧
          s.m.nowt < (getGang s.m k).since + (getGang s.m k).limit ∧ p ∉ (getGang s.m k).committed then
          setGang s.m k { getGang s.m k with committed := (getGang s.m k).committed ++ [p] }
        else s.m } := by
  rw [exec_committed, execCommitted, whenRunning, onMach]
  refine next_congr ((if_pos hrun).trans (if_congr ?_ rfl rfl))
  simp only [OwnGang, List.contains_iff_mem, Bool.not_eq_true', Bool.eq_false_iff, ne_eq]
  tauto

theorem exec_refuse_eq {s : State} (p k : Nat) (hrun : s.m.phase = .running) :
    exec (.refuse p k) s = .next { s with m := if OwnGang (getGang s.m k) p then cancelGangJob s.m k 5 else s.m }
        := by
  rw [exec_refuse, execRefuse, whenRunning, onMach]
  refine next_congr ((if_pos hrun).trans (if_congr ?_ rfl rfl))
  rw [OwnGang, List.contains_iff_mem]

/-- Does a member of a gang owe an answer to ARM or COMMIT? -/
def GangSilent (g : Gang) : Prop :=
  if g.sentCommit then ∃ d ∈ g.members, d ∉ g.committed else ∃ d ∈ g.members, d ∉ g.armed

theorem gangWaiting_iff (g : Gang) : (if g.sentCommit = true then !(g.members.all g.committed.contains)
    else !(g.members.all g.armed.contains)) = true ↔ GangSilent g := by
  unfold GangSilent
  split <;> simp

theorem exec_gangtoExpiry_eq {s : State} (k : Nat) (hrun : s.m.phase = .running) :
    exec (.gangtoExpiry k) s = .next { s with
      m := if (getGang s.m k).live = true ∧ (getGang s.m k).coordinator = true ∧
          (if (getGang s.m k).sentCommit = true then !((getGang s.m k).members.all (getGang s.m k).committed.contains)
            else !((getGang s.m k).members.all (getGang s.m k).armed.contains)) = true ∧
          (getGang s.m k).since + (getGang s.m k).limit ≤ s.m.nowt then cancelGangJob s.m k 5 else s.m } := by
  rw [exec_gangtoExpiry, execGangtoExpiry, whenRunning, onMach]
  exact next_congr (if_pos hrun)

end Sys2Proof.Machine

open Sys2Proof Sys2Proof.Machine

/-- Settles O54: each message of a gang launch, event by event; the launch that a member queues is followed through
    the store of
its record. -/
theorem gangLaunches : Obligations.GangLaunches := by
  unfold Obligations.GangLaunches
  refine ⟨fun s src k lpb hrun => ⟨exec_arm_live hrun, exec_arm_refused hrun, fun hlive hok => ?_⟩,
    fun s src k hrun => ⟨exec_commit_dead hrun, fun hlive => ⟨_, exec_commit_live hrun hlive, rfl,
      memberCommitted_placeable .., rfl⟩, fun c hc => ⟨fun hlive hsrc => ?_, fun h => ?_⟩, fun h => ?_, fun h => ?_⟩,
    fun m k kind => ⟨fun h => if_pos h, fun h => if_neg (Bool.eq_false_iff.1 h)⟩,
    fun s p k hrun => ⟨fun hl hc hp => ⟨fun hsent hin hall => ?_, fun hsent hin hmiss hnew =>
      exec_armed_late hrun ⟨hl, hc, hp⟩ hsent hin hmiss hnew, fun h => exec_armed_skip hrun (.inr h),
      fun hsent hin hnew => ?_, fun h => ?_, ?_⟩, fun h => ⟨exec_armed_skip hrun (.inl (not_ownGang h)), ?_, ?_⟩,
      fun hl hc hs hend => ?_, fun h => ?_⟩⟩
  · obtain ⟨hi, hout, hlpb, howner⟩ :=
      enqueueLaunch_facts s.m (getQueue s.m (lpbOf (natOfBytes lpb)).qid).owner (natOfBytes lpb) none []
    obtain ⟨hout', hlive', hlaunch, hcoord, hplace, hlpb', howner'⟩ := memberArmed_facts
      (enqueueLaunch s.m (getQueue s.m (lpbOf (natOfBytes lpb)).qid).owner (natOfBytes lpb) none []) src k
    rw [hi] at hlaunch hplace hlpb' howner'
    exact ⟨_, exec_arm_takes hrun hlive hok, hout'.trans (congrArg (· ++ [Msg.armed src k]) hout), hlive', hlaunch,
        hcoord,
      hplace, hlpb'.trans hlpb, howner'.trans howner⟩
  · exact (exec_gangCancel_member hrun hc).trans (next_congr (if_pos ⟨hlive, hsrc⟩))
  · refine (exec_gangCancel_member hrun hc).trans (next_congr (if_neg fun hboth => ?_))
    rcases h with h | h
    · simp [h] at hboth
    · exact h hboth.2
  · exact (exec_gangCancel_coordinator hrun).trans (next_congr (if_pos h))
  · exact (exec_gangCancel_coordinator hrun).trans (next_congr (if_neg h))
  · exact ⟨_, exec_armed_last hrun ⟨hl, hc, hp⟩ hsent hin hall, gangCommitted_facts ..⟩
  · exact (exec_committed_eq p k hrun).trans (next_congr (if_pos ⟨⟨hl, hc, hp⟩, hsent, hin, hnew⟩))
  · refine (exec_committed_eq p k hrun).trans (next_congr (if_neg ?_))
    rintro ⟨-, hsent, hin, hnew⟩
    rcases h with h | h | h
    · simp [h] at hsent
    · omega
    · exact hnew h
  · exact (exec_refuse_eq p k hrun).trans (next_congr (if_pos ⟨hl, hc, hp⟩))
  · exact (exec_committed_eq p k hrun).trans (next_congr (if_neg fun h' => not_ownGang h h'.1))
  · exact (exec_refuse_eq p k hrun).trans (next_congr (if_neg (not_ownGang h)))
  · exact (exec_gangtoExpiry_eq k hrun).trans (next_congr (if_pos ⟨hl, hc, (gangWaiting_iff _).2 hs, hend⟩))
  · refine (exec_gangtoExpiry_eq k hrun).trans (next_congr (if_neg ?_))
    rintro ⟨-, -, hs, hend⟩
    rcases h with h | h
    · omega
    · exact h ((gangWaiting_iff _).1 hs)
end

section
/-!
PROOFS. Changes of a partition: its root, record area and owner, the zeroing of its cores, and image keys.
-/
namespace Sys2Proof.Machine

/-- A fold keeps what each of its steps keeps. -/
theorem foldl_keeps {α β γ : Type} (f : β → γ) {g : β → α → β} (hg : ∀ b x, f (g b x) = f b) (l : List α) (b : β) :
    f (l.foldl g b) = f b := by
  induction l generalizing b with
  | nil => rfl
  | cons x l ih => exact (ih _).trans (hg b x)

theorem onlyStored_foldl {α : Type} {g : Mach → α → Mach} (hg : ∀ m x, OnlyStored m (g m x)) (l : List α) (m : Mach) :
    OnlyStored m (l.foldl g m) := by
  induction l generalizing m with
  | nil => exact .refl m
  | cons x l ih => exact (hg m x).trans (ih _)

theorem onlyStored_commitNat (m : Mach) (a pa n x : Nat) : OnlyStored m (commitNat m a pa n x) :=
  onlyStored_foldl (fun _ _ => onlyStored_commitWrite ..) _ _

theorem onlyStored_zeroFrame (m : Mach) (pa size : Nat) : OnlyStored m (zeroFrame m pa size) := by
  unfold zeroFrame
  extract_lets inside hs ms gs m1
  have h : OnlyStored m m1 := onlyStored_foldl (fun _ _ => onlyStored_commitWrite ..) _ _
  exact h.trans ⟨_, _, _, _, _, _, _, rfl⟩

theorem onlyStored_passPages (m : Mach) (p old : Nat) (new : Option Nat) : OnlyStored m (passPages m p old new) := by
  refine onlyStored_foldl (fun m e => ?_) _ _
  obtain ⟨pte, raw, level⟩ := e
  dsimp only
  split
  · exact .refl m
  · exact (onlyStored_zeroFrame ..).trans (onlyStored_commitNat ..)

/-! ### Zeroing a core -/

/-- Leaving out keys of a map: a key that stays reads as before, one left out reads the default. -/
theorem smGet_filter {α : Type} (d : α) (p : Nat → Bool) (l : SMap α) (k : Nat) :
    smGet d (l.filter fun e => p e.1) k = if p k then smGet d l k else d := by
  induction l with
  | nil => simp [smGet]
  | cons e l ih =>
    by_cases he : e.1 = k
    · subst he
      cases hp : p e.1
      · simpa [hp] using ih
      · simp [hp, smGet]
    · cases hp : p e.1
      · simp [hp, ih, smGet, he]
      · simp [hp, ih, smGet, he]

/-- The bytes of a core's pool, or of a control core's local memory. -/
def poolSize (core : Nat) : Nat := if isControl core then 2 ^ 20 else 2 ^ 22

theorem readByte_clearCore (m : Mach) (core a : Nat) : readByte (clearCore m core).mem a =
    if poolPa core 0 ≤ a ∧ a < poolPa core 0 + poolSize core then 0 else readByte m.mem a := by
  have h : readByte (clearCore m core).mem a =
      if !(decide (poolPa core 0 ≤ a) && decide (a < poolPa core 0 + poolSize core)) then smGet 0 m.mem a else 0 :=
    smGet_filter 0 (fun k => !(decide (poolPa core 0 ≤ k) && decide (k < poolPa core 0 + poolSize core))) m.mem a
  rw [h]
  by_cases hin : poolPa core 0 ≤ a ∧ a < poolPa core 0 + poolSize core
  · simp [hin]
  · rw [if_neg hin, if_pos (by simp; omega), readByte]

theorem poolPa_add (core : Nat) {off : Nat} (h : off < poolSize core) : poolPa core off = poolPa core 0 + off := by
  unfold poolSize at h
  unfold poolPa
  split
  next hc =>
    rw [if_pos hc] at h
    omega
  next => omega

/-- What SET_OWNER does to each core of its partition. -/
def passCore (m : Mach) (c : Nat) : Mach := clearCore (dropNotices m c) c

/-- A core with nothing of a former owner in it. -/
def CoreCleared (k : Core) : Prop := k.tiles = [] ∧ k.alloc = [] ∧ k.bars = [] ∧ k.notices = [] ∧ k.spilled = []

theorem getCore_modCore (m : Mach) (c : Nat) (f : Core → Core) : getCore (modCore m c f) c = f (getCore m c) :=
  getCore_setCore ..

theorem coreCleared_passCore (m : Mach) (c : Nat) : CoreCleared (getCore (passCore m c) c) := by
  have h : getCore (passCore m c) c = { getCore m c with
      tiles := [], exps := [], rowFlight := [], zeroTick := m.nowt, renews := [], notices := [], spilled := []
      ctxs := [], hctx := 0, hset := none, alloc := [], arr := {}, bars := [], barWrites := [] } := by
    have h1 : getCore (dropNotices m c) c = { getCore m c with notices := [], spilled := [] } := getCore_modCore ..
    have h2 : getCore (zeroPool (dropNotices m c) c) c = { getCore (dropNotices m c) c with
        tiles := [], exps := [], rowFlight := [], zeroTick := m.nowt, renews := [] } :=
      getCore_modCore (dropNotices m c) c fun k => { k with
        tiles := [], exps := [], rowFlight := [], zeroTick := m.nowt, renews := [] }
    rw [passCore, clearCore, getCore_modCore, h2, h1]
  rw [h]
  exact ⟨rfl, rfl, rfl, rfl, rfl⟩

theorem getCore_passCore_ne (m : Mach) {c d : Nat} (h : d ≠ c) : getCore (passCore m c) d = getCore m d := by
  have h1 : getCore (dropNotices m c) d = getCore m d := getCore_setCore_ne _ h _
  have h2 : getCore (zeroPool (dropNotices m c) c) d = getCore (dropNotices m c) d := getCore_setCore_ne
      (dropNotices m c) h _
  exact (getCore_setCore_ne _ h _).trans (h2.trans h1)

theorem coreCleared_foldl (l : List Nat) (m : Mach) {d : Nat} (h : d ∈ l ∨ CoreCleared (getCore m d)) :
    CoreCleared (getCore (l.foldl passCore m) d) := by
  induction l generalizing m with
  | nil => exact h.resolve_left (List.not_mem_nil)
  | cons c l ih =>
    refine ih _ ?_
    by_cases hd : d = c
    · exact .inr (hd ▸ coreCleared_passCore m d)
    · rw [getCore_passCore_ne m hd]
      exact h.imp_left fun h => (List.mem_cons.1 h).resolve_left hd

/-! ### SET_OWNER -/

theorem getPart_modPart (m : Mach) (p : Nat) (f : Part → Part) : getPart (modPart m p f) p = f (getPart m p) :=
  getPart_setPart ..

theorem getPart_setPart_ne (m : Mach) {p k : Nat} (h : k ≠ p) (x : Part) : getPart (setPart m p x) k = getPart m k :=
  smGet_put_ne _ _ h _

/-- The machine once the cores of a partition are cleared and its pages have passed to the new owner. -/
def passed (m : Mach) (p : Nat) (new : Option Nat) : Mach :=
  match (getPart m p).owner with
  | some old => passPages ((partCores p).foldl passCore m) p old new
  | none => (partCores p).foldl passCore m

theorem onlyStored_passed (m : Mach) (p : Nat) (new : Option Nat) :
    OnlyStored ((partCores p).foldl passCore m) (passed m p new) := by
  unfold passed
  split
  · exact onlyStored_passPages ..
  · exact .refl _

theorem passCore_parts (m : Mach) (c : Nat) : (passCore m c).parts = m.parts := by
  simp [passCore, clearCore, zeroPool, dropNotices]

theorem passCore_invals (m : Mach) (c : Nat) : (passCore m c).invals = m.invals := by
  simp [passCore, clearCore, zeroPool, dropNotices]

theorem passed_parts (m : Mach) (p : Nat) (new : Option Nat) : (passed m p new).parts = m.parts := by
  have hclear : ((partCores p).foldl passCore m).parts = m.parts :=
    foldl_keeps Mach.parts passCore_parts (partCores p) m
  rw [← hclear]
  exact (onlyStored_passed m p new).keeps Mach.parts fun _ _ _ _ _ _ _ _ => rfl

theorem passed_invals (m : Mach) (p : Nat) (new : Option Nat) : (passed m p new).invals = m.invals := by
  have hclear : ((partCores p).foldl passCore m).invals = m.invals :=
    foldl_keeps Mach.invals passCore_invals (partCores p) m
  rw [← hclear]
  exact (onlyStored_passed m p new).keeps Mach.invals fun _ _ _ _ _ _ _ _ => rfl

theorem coreCleared_passed (m : Mach) (p : Nat) (new : Option Nat) {c : Nat} (hc : c ∈ partCores p) :
    CoreCleared (getCore (passed m p new) c) := by
  rw [(onlyStored_passed m p new).keeps (getCore · c) fun _ _ _ _ _ _ _ _ => rfl]
  exact coreCleared_foldl _ _ (.inl hc)

/-- A partition of which nothing of its owner is left. -/
def PartFree (m : Mach) (p : Nat) : Prop := partBusy m p = false ∧ ownerQueued m (getPart m p).owner = false ∧
  ∀ c ∈ partCores p, ∀ e ∈ (getCore m c).alloc, e.2.used = false

theorem partFree_iff (m : Mach) (p : Nat) : PartFree m p ↔ ¬(partBusy m p = true ∨
    ownerQueued m (getPart m p).owner = true ∨
    ((partCores p).any fun c => (getCore m c).alloc.any fun e => e.2.used) = true) := by
  rw [PartFree, not_or, not_or, Bool.not_eq_true, Bool.not_eq_true, Bool.not_eq_true, List.any_eq_false]
  refine and_congr_right fun _ => and_congr_right fun _ => forall₂_congr fun c _ => ?_
  rw [Bool.not_eq_true, List.any_eq_false]
  exact forall₂_congr fun e _ => by rw [Bool.not_eq_true]

/-- The state after SET_OWNER of a partition that is free. -/
def ownerSet (s : State) (p : Nat) (owner : Option Byte) : State :=
  { m := { invalAll (modPart (passed s.m p (owner.map (·.toNat))) p fun q => { q with
            owner := owner.map (·.toNat), actions := [], lendto := 0, lent := false, recallAt := none, catching :=
                false }) p with
          memGen := (renewKey s.trust p).memKeys }
    trust := renewKey s.trust p }

theorem getPart_invalAll (m : Mach) (p : Nat) (gen : SMap Nat) (k : Nat) :
    getPart { invalAll m p with memGen := gen } k = getPart m k := rfl

theorem getPart_ownerSet (s : State) (p : Nat) (owner : Option Byte) :
    getPart (ownerSet s p owner).m p = { getPart s.m p with
      owner := owner.map (·.toNat), actions := [], lendto := 0, lent := false, recallAt := none, catching := false
          } := by
  rw [ownerSet, getPart_invalAll, getPart_modPart, getPart, passed_parts, ← getPart]

theorem getPart_ownerSet_ne (s : State) {p k : Nat} (owner : Option Byte) (hk : k ≠ p) :
    getPart (ownerSet s p owner).m k = getPart s.m k := by
  rw [ownerSet, getPart_invalAll, modPart, getPart_setPart_ne _ hk, getPart, passed_parts, ← getPart]

theorem ownerSet_facts (s : State) (p : Nat) (owner : Option Byte) :
    ((getPart (ownerSet s p owner).m p).owner = owner.map (·.toNat) ∧ (getPart (ownerSet s p owner).m p).actions =
        [] ∧
      (getPart (ownerSet s p owner).m p).lendto = 0 ∧ (getPart (ownerSet s p owner).m p).lent = false ∧
      (getPart (ownerSet s p owner).m p).recallAt = none) ∧
    (∀ k, k ≠ p → getPart (ownerSet s p owner).m k = getPart s.m k) ∧
    (∀ c ∈ partCores p, CoreCleared (getCore (ownerSet s p owner).m c)) ∧
    (ownerSet s p owner).m.memGen = (ownerSet s p owner).trust.memKeys ∧
    (ownerSet s p owner).trust =
      { s.trust with memKeys := smPut 0 s.trust.memKeys p (s.trust.keySeq + 1), keySeq := s.trust.keySeq + 1 } ∧
    (ownerSet s p owner).m.invals = s.m.invals ++ [⟨p, false, 0, true, 0⟩] := by
  refine ⟨?_, fun k => getPart_ownerSet_ne s owner, fun c => coreCleared_passed s.m p _, rfl, rfl, ?_⟩
  · rw [getPart_ownerSet]
    exact ⟨rfl, rfl, rfl, rfl, rfl⟩
  · exact congrArg (· ++ [(⟨p, false, 0, true, 0⟩ : Inval)]) (passed_invals s.m p _)

section
variable {s : State} {p : Nat} {owner : Option Byte} (hrun : s.m.phase = .running) (hp : p < 64)
  (hnew : owner.map (·.toNat) ≠ (getPart s.m p).owner)
include hrun hp hnew

theorem setOwner_acts : ¬(s.m.phase ≠ .running ∨ 64 ≤ p ∨ owner.map (·.toNat) = (getPart s.m p).owner) := by
  rintro (h | h | h)
  · exact h hrun
  · omega
  · exact hnew h

theorem exec_setOwner_busy (h : ¬PartFree s.m p) :
    exec (.setOwner p owner) s = .next { s with m := pf0Event s.m 4 p 0 } := by
  rw [exec_setOwner, execSetOwner]
  exact congrArg Host.Outcome.next ((if_neg (setOwner_acts hrun hp hnew)).trans
    (if_pos (not_not.1 fun h' => h ((partFree_iff ..).2 h'))))

theorem exec_setOwner_free (h : PartFree s.m p) : exec (.setOwner p owner) s = .next (ownerSet s p owner) := by
  rw [exec_setOwner, execSetOwner]
  exact congrArg Host.Outcome.next ((if_neg (setOwner_acts hrun hp hnew)).trans (if_neg ((partFree_iff ..).1 h)))

end

/-! ### SET_ROOT and SET_RECAREA -/

theorem exec_setRoot_eq {s : State} (p : Nat) (pa : Word) (hrun : s.m.phase = .running) :
    exec (.setRoot p pa) s = .next { s with m := if 64 ≤ p ∨ pa.toNat % 32768 ≠ 0 then s.m else
      { setPart s.m p { getPart s.m p with root := pa.toNat } with invals := s.m.invals ++ [⟨p, false, 0, true, 0⟩]
          } } := by
  rw [exec_setRoot, execSetRoot, whenRunning, onMach]
  exact next_congr (if_pos hrun)

theorem exec_setRecarea_eq {s : State} {p : Nat} (va : Word) (imgs recs : Nat) (hrun : s.m.phase = .running)
    (hp : p < 64) :
    exec (.setRecarea p va imgs recs) s = .next { s with
      m := if (partBusy s.m p || ownerQueued s.m (getPart s.m p).owner || va.toNat % 65536 != 0 ||
          decide (14 ≤ va.toNat / 2 ^ 60) || decide (imgs < 288) || decide (4096 < imgs) || decide (recs < 1024) ||
          decide (2 ^ 20 < recs)) = true then pf0Event s.m 4 p 0
        else setPart s.m p { getPart s.m p with recarea := some va, imgcnt := imgs, reccnt := recs } } := by
  rw [exec_setRecarea, execSetRecarea, whenRunning, onMach]
  exact next_congr ((if_pos hrun).trans (if_neg (by omega)))

theorem recareaFits_iff (busy queued : Bool) (va : Word) (imgs recs : Nat) :
    (busy || queued || va.toNat % 65536 != 0 || decide (14 ≤ va.toNat / 2 ^ 60) || decide (imgs < 288) ||
      decide (4096 < imgs) || decide (recs < 1024) || decide (2 ^ 20 < recs)) = false ↔
    (busy = false ∧ queued = false) ∧ va.toNat % 65536 = 0 ∧ va.toNat < 14 * 2 ^ 60 ∧ 288 ≤ imgs ∧ imgs ≤ 4096 ∧
      1024 ≤ recs ∧ recs ≤ 2 ^ 20 := by
  simp only [Bool.or_eq_false_iff, bne_eq_false_iff_eq, decide_eq_false_iff_not, not_le, not_lt, and_assoc,
    Nat.div_lt_iff_lt_mul (show 0 < 2 ^ 60 by norm_num)]

/-! ### Image keys -/

theorem exec_keyInstall_eq {s : State} (owner slot : Nat) (id : Word) (key : Nat) : exec
    (.keyInstall owner slot id key) s =
    .next (if s.m.phase ≠ .running ∨ 256 ≤ owner ∨ 4 ≤ slot then s else ⟨s.m, { s.trust with
      imageKeys := smPut none s.trust.imageKeys (4 * owner + slot) (some ⟨id, key⟩) }⟩) := by
  rw [exec_keyInstall, execKeyInstall]

end Sys2Proof.Machine

open Sys2Proof Sys2Proof.Machine

/-- Settles O44: each management register's two cases; the pages and cores that SET_OWNER zeroes change no
    partition. -/
theorem partitionsChange : Obligations.PartitionsChange := by
  unfold Obligations.PartitionsChange
  refine ⟨fun s p pa hrun => ⟨fun hp hpa => ?_, fun h => ?_⟩, fun s p va imgs recs hrun hp =>
      ⟨fun hfree hfits => ?_, fun h => ?_⟩,
    fun s p owner hrun hp hnew => ⟨exec_setOwner_busy hrun hp hnew, fun hfree => ⟨ownerSet s p owner,
      exec_setOwner_free hrun hp hnew hfree, ?_⟩⟩,
    fun m core => ⟨fun off hoff => ?_, fun a ha => ?_⟩, fun s owner slot id key hrun =>
        ⟨fun ho hs => ?_, fun h => ?_⟩⟩
  · exact (exec_setRoot_eq p pa hrun).trans (next_congr (if_neg (by omega)))
  · exact (exec_setRoot_eq p pa hrun).trans (next_congr (if_pos h))
  · exact (exec_setRecarea_eq va imgs recs hrun hp).trans (next_congr (if_neg (Bool.eq_false_iff.1
      ((recareaFits_iff ..).2 ⟨hfree, hfits⟩))))
  · refine (exec_setRecarea_eq va imgs recs hrun hp).trans (next_congr (if_pos ?_))
    refine (Bool.not_eq_false _).mp fun h' => ?_
    obtain ⟨hfree, hfits⟩ := (recareaFits_iff ..).1 h'
    exact h.elim (fun h => h hfree) fun h => h hfits
  · exact ownerSet_facts s p owner
  · have hlt : off < poolSize core := hoff
    rw [readByte_clearCore, poolPa_add core hlt]
    exact if_pos ⟨Nat.le_add_right _ _, Nat.add_lt_add_left hlt _⟩
  · rw [readByte_clearCore]
    refine if_neg fun h => ?_
    rcases ha with ha | ha
    · omega
    · exact absurd h.2 (not_lt.2 ha)
  · rw [exec_keyInstall_eq, if_neg (by simp [hrun]; omega)]
  · rw [exec_keyInstall_eq, if_pos (.inr h)]
end

section
/-!
PROOFS. Writes of the host's registers.
-/
namespace Sys2Proof.Machine

/-! ### Events of a virtual function that is bound -/

/-- A virtual function of the part that is bound to an owner, while the part is running. -/
structure BoundVf (s : State) (vf o : Nat) : Prop where
  run : s.m.phase = .running
  low : 1 ≤ vf
  high : vf ≤ 192
  owner : (getVf s.m vf).owner = some o

theorem BoundVf.notOut {s : State} {vf o : Nat} (h : BoundVf s vf o) : ¬(vf = 0 ∨ 193 ≤ vf) := by
  have := h.low
  have := h.high
  omega

theorem withVf_bound {s : State} {vf o : Nat} (h : BoundVf s vf o) (f : Mach → Nat → Mach) :
    withVf s vf f = .next { s with m := f s.m o } := by
  rw [withVf, whenRunning, onMach]
  refine next_congr ((if_pos h.run).trans ((if_neg h.notOut).trans ?_))
  rw [h.owner]

theorem withSubmission_bound {s : State} {vf o : Nat} (h : BoundVf s vf o) (f : Mach → Nat → Mach) :
    withSubmission s vf f = .next { s with m := f s.m o } := by
  rw [withSubmission, onMach]
  refine next_congr ((if_neg ?_).trans ?_)
  · have := h.low
    have := h.high
    simp [isVf, *]
  · rw [h.run, h.owner]

/-! ### Register writes -/

theorem exec_registerWrite_eq {s : State} {r : HostReg} (v : Word) (hrun : s.m.phase = .running)
    (hr : tailVf r = none) :
    exec (.registerWrite r v) s = .next { s with m := writeReg s.m r v } := by
  rw [exec_registerWrite, execRegisterWrite, hr]
  exact next_congr (if_pos hrun)

/-- A register that takes a value in its range and ignores the others. -/
theorem registerWrite_sets {s : State} {r : HostReg} {v : Word} {ok : Prop} {b : Bool} {m' : Mach}
    (hrun : s.m.phase = .running) (hr : tailVf r = none) (hok : ok ↔ b = true)
    (hw : writeReg s.m r v = if b = true then m' else s.m) :
    (ok → exec (.registerWrite r v) s = .next { s with m := m' }) ∧
    (¬ok → exec (.registerWrite r v) s = .next s) := by
  refine ⟨fun h => ?_, fun h => ?_⟩
  · exact (exec_registerWrite_eq v hrun hr).trans (next_congr (hw.trans (if_pos (hok.1 h))))
  · exact (exec_registerWrite_eq v hrun hr).trans (next_congr (hw.trans (if_neg fun hb => h (hok.2 hb))))

/-- A register that takes every value. -/
theorem registerWrite_always {s : State} {r : HostReg} {v : Word} {m' : Mach} (hrun : s.m.phase = .running)
    (hr : tailVf r = none) (hw : writeReg s.m r v = m') :
    (True → exec (.registerWrite r v) s = .next { s with m := m' }) ∧
    (¬True → exec (.registerWrite r v) s = .next s) :=
  ⟨fun _ => (exec_registerWrite_eq v hrun hr).trans (next_congr hw), fun h => absurd trivial h⟩

/-- A setting of a partition, whose range is a Boolean of the value. -/
theorem setting_sets {s : State} {p : Nat} {x : Setting} {v : Word} {ok : Prop} {b : Bool} {q' : Part}
    (hrun : s.m.phase = .running) (hp : p < 64) (hok : ok ↔ b = true)
    (hw : writeReg s.m (.part p x) v = if (b && decide (p < 64)) = true then setPart s.m p q' else s.m) :
    (ok → exec (.registerWrite (.part p x) v) s = .next { s with m := setPart s.m p q' }) ∧
    (¬ok → exec (.registerWrite (.part p x) v) s = .next s) :=
  registerWrite_sets hrun rfl (hok.trans (by simp [hp])) hw

/-! ### LENDTO -/

/-- Replacing 64 bits of a number. -/
theorem testBit_replace (x y : Nat) (i : Nat) (hy : y < 2 ^ 64) (j : Nat) :
    (x - x / 2 ^ (64 * i) % 2 ^ 64 * 2 ^ (64 * i) + y * 2 ^ (64 * i)).testBit j =
      if j / 64 = i then y.testBit (j % 64) else x.testBit j := by
  have hlow : x % 2 ^ (64 * i) < 2 ^ (64 * i) := Nat.mod_lt _ (by positivity)
  have hx : x = 2 ^ (64 * i) * (2 ^ 64 * (x / 2 ^ (64 * i) / 2 ^ 64) + x / 2 ^ (64 * i) % 2 ^ 64) + x % 2 ^
      (64 * i) := by
    rw [Nat.div_add_mod, Nat.div_add_mod]
  have hmid : x / 2 ^ (64 * i) % 2 ^ 64 < 2 ^ 64 := Nat.mod_lt _ (by norm_num)
  generalize x % 2 ^ (64 * i) = lo at *
  generalize x / 2 ^ (64 * i) % 2 ^ 64 = mid at *
  generalize x / 2 ^ (64 * i) / 2 ^ 64 = hi at *
  have hnew : x - mid * 2 ^ (64 * i) + y * 2 ^ (64 * i) = 2 ^ (64 * i) * (2 ^ 64 * hi + y) + lo := by
    rw [hx, Nat.mul_add, Nat.mul_add, Nat.mul_comm mid, Nat.mul_comm y]
    omega
  rw [hnew, hx, Nat.testBit_two_pow_mul_add _ hlow, Nat.testBit_two_pow_mul_add _ hlow, Nat.testBit_two_pow_mul_add
      _ hy,
    Nat.testBit_two_pow_mul_add _ hmid]
  by_cases h1 : j < 64 * i
  · rw [if_pos h1, if_pos h1, if_neg (by omega)]
  · rw [if_neg h1, if_neg h1]
    by_cases h2 : j - 64 * i < 64
    · rw [if_pos h2, if_pos h2, if_pos (by omega), show j - 64 * i = j % 64 by omega]
    · rw [if_neg h2, if_neg h2, if_neg (by omega)]

/-- A loan's mask with 64 of its bits written. -/
def lendMask (old : BitVec 256) (i : Nat) (v : Word) : BitVec 256 :=
  BitVec.ofNat 256 (old.toNat - old.toNat / 2 ^ (64 * i) % 2 ^ 64 * 2 ^ (64 * i) + v.toNat * 2 ^ (64 * i))

theorem getLsbD_lendMask (old : BitVec 256) (i : Nat) (v : Word) {j : Nat} (hj : j < 256) :
    (lendMask old i v).getLsbD j = if j / 64 = i then v.getLsbD (j % 64) else old.getLsbD j := by
  rw [lendMask, BitVec.getLsbD_ofNat, decide_eq_true hj, Bool.true_and, testBit_replace _ _ _ v.isLt]
  rfl

theorem writeReg_lendto {m : Mach} {p i : Nat} (v : Word) (hp : p < 64) (hi : i < 4) : writeReg m (.lendto p i) v =
    if (getPart m p).recallAt.isSome = true then m
    else if (getPart m p).lent = true ∧ lendMask (getPart m p).lendto i v = 0 then startRecall m p
    else setPart m p { getPart m p with lendto := lendMask (getPart m p).lendto i v } :=
  if_congr ⟨fun h => by simpa [not_le.2 hp, not_le.2 hi] using h, fun h => .inr (.inr h)⟩ rfl rfl

/-! ### The register block of a virtual function -/

theorem writeReg_vf {s : State} {vf o : Nat} (h : BoundVf s vf o) (off : Nat) (v : Word) :
    writeReg s.m (.vf vf off) v = writeVf s.m vf o off v := by
  refine (if_neg h.notOut).trans ?_
  rw [h.owner]

theorem writeVf_ring (m : Mach) (vf o : Nat) {k d : Nat} (hk : k < 16) (hd : d < 32) (v : Word) :
    writeVf m vf o (0x100 + d + 32 * k) v = match (generalizing := false) d with
      | 0 => writeRing m vf k o (setBase v)
      | 8 => writeRing m vf k o (setSize v.toNat)
      | 12 => writeTail m vf k o v.toNat
      | _ => m := by
  refine (if_pos (by omega)).trans ?_
  rw [show (0x100 + d + 32 * k - 0x100) / 32 = k by omega, show (0x100 + d + 32 * k) % 32 = d by omega] <;> rfl

theorem writeVf_bp (m : Mach) (vf o : Nat) {k : Nat} (hk : k < 8) (v : Word) : writeVf m vf o (0x800 + 8 * k) v =
    setVf m vf { getVf m vf with bp := smPut 0 (getVf m vf).bp k (v &&& 0x33FFFFFFFFF) } := by
  refine (if_neg (by omega)).trans ((if_pos (by omega)).trans ?_)
  rw [show (0x800 + 8 * k - 0x800) / 8 = k by omega]

theorem tailVf_none {vf off : Nat} (h : ¬(0x100 ≤ off ∧ off < 0x300 ∧ off % 32 = 12)) : tailVf (.vf vf off) = none :=
  if_neg h

theorem vfRegister_always {s : State} {vf o : Nat} (h : BoundVf s vf o) {off : Nat} {v : Word} {m' : Mach}
    (hoff : ¬(0x100 ≤ off ∧ off < 0x300 ∧ off % 32 = 12)) (hw : writeVf s.m vf o off v = m') :
    (True → exec (.registerWrite (.vf vf off) v) s = .next { s with m := m' }) ∧
    (¬True → exec (.registerWrite (.vf vf off) v) s = .next s) :=
  registerWrite_always h.run (tailVf_none hoff) ((writeReg_vf h off v).trans hw)

section
variable {s : State} {vf o : Nat} (h : BoundVf s vf o) (v : Word)
include h

theorem exec_releaseRegister : exec (.registerWrite (.vf vf 0x850) v) s = exec (.release vf v) s := by
  rw [exec_registerWrite_eq v h.run (tailVf_none (by decide)), writeReg_vf h, exec_release, execRelease,
      withVf_bound h]
  rfl

theorem exec_catchRegister :
    exec (.registerWrite (.vf vf 0x858) v) s = .next { s with m := writeGo (writeCatch s.m vf o v) o v } := by
  rw [exec_registerWrite_eq v h.run (tailVf_none (by decide)), writeReg_vf h]
  rfl

variable {k : Nat} (hk : k < 16)
include hk

theorem exec_ringBaseRegister :
    exec (.registerWrite (.vf vf (0x100 + 32 * k)) v) s = exec (.rbaseWrite vf k v) s := by
  rw [exec_registerWrite_eq v h.run (tailVf_none (by omega)), writeReg_vf h, exec_rbaseWrite, execRbaseWrite,
      withVf_bound h]
  exact next_congr (writeVf_ring s.m vf o (d := 0) hk (by omega) v)

theorem exec_ringSizeRegister :
    exec (.registerWrite (.vf vf (0x108 + 32 * k)) v) s = exec (.rsizeWrite vf k (v.setWidth 32)) s := by
  rw [exec_registerWrite_eq v h.run (tailVf_none (by omega)), writeReg_vf h, exec_rsizeWrite, execRsizeWrite,
      withVf_bound h]
  have hsize : setSize (v.setWidth 32).toNat = setSize v.toNat := by
    funext r
    rw [setSize, setSize, BitVec.toNat_setWidth, Nat.mod_mod_of_dvd _ (by norm_num)]
  rw [hsize]
  exact next_congr (writeVf_ring s.m vf o (d := 8) hk (by omega) v)

theorem exec_tailRegister :
    exec (.registerWrite (.vf vf (0x10C + 32 * k)) v) s = exec (.tailWrite vf k (v.setWidth 32)) s := by
  have htail : tailVf (.vf vf (0x10C + 32 * k)) = some vf := if_pos (by omega)
  rw [exec_registerWrite, execRegisterWrite, htail, exec_tailWrite, execTailWrite, withSubmission_bound h]
  refine (withSubmission_bound h _).trans (next_congr ?_)
  have hval : (v.setWidth 32).toNat % 65536 = v.toNat % 65536 := by
    rw [BitVec.toNat_setWidth, Nat.mod_mod_of_dvd _ (by norm_num)]
  refine (writeReg_vf h _ v).trans ((writeVf_ring s.m vf o (d := 12) hk (by omega) v).trans ?_)
  simp only [writeTail, hval]

end

end Sys2Proof.Machine

open Sys2Proof Sys2Proof.Machine

/-- Settles O43: each register by its own equation of `writeReg`; the mask of LENDTO bit by bit. -/
theorem hostRegisters : Obligations.HostRegisters := by
  unfold Obligations.HostRegisters
  intro s v hrun
  refine ⟨fun p hp => ⟨setting_sets hrun hp (by simp) rfl, setting_sets hrun hp (by simp) rfl,
      setting_sets hrun hp (by simp [and_assoc]) rfl, setting_sets hrun hp (by simp) rfl,
      setting_sets hrun hp (by simp) rfl, setting_sets hrun hp (by simp) rfl, setting_sets hrun hp (by simp) rfl,
      setting_sets hrun hp (by simp) rfl, setting_sets hrun hp (by simp) rfl, setting_sets hrun hp (by simp) rfl,
      fun c hc => registerWrite_always hrun rfl (if_pos ⟨hp, hc⟩),
      fun i hi => ⟨lendMask (getPart s.m p).lendto i v, fun j => getLsbD_lendMask _ i v, fun h => ?_, fun h hl hm
          => ?_,
        fun h hlm => ?_⟩⟩,
    fun o => ⟨registerWrite_sets (b := decide (o < 256 ∧ v.toNat < 256)) hrun rfl (by simp) (by simp [writeReg]),
      registerWrite_sets (b := decide (o < 256 ∧ v.toNat < 4)) hrun rfl (by simp) (by simp [writeReg])⟩,
    fun vf => ?_, registerWrite_always hrun rfl rfl,
    fun i => ⟨registerWrite_sets (b := decide (i < 8)) hrun rfl (by simp) (by simp [writeReg]),
      registerWrite_sets (b := decide (i < 8)) hrun rfl (by simp) (by simp [writeReg]),
      registerWrite_sets (b := decide (i < 8 ∧ v.toNat < 256)) hrun rfl (by simp) (by simp [writeReg])⟩,
    fun vf o hlow hhigh ho => ?_⟩
  · exact (exec_registerWrite_eq v hrun rfl).trans (next_congr ((writeReg_lendto v hp hi).trans (if_pos h)))
  · exact (exec_registerWrite_eq v hrun rfl).trans (next_congr ((writeReg_lendto v hp hi).trans
      ((if_neg (by simp [h])).trans (if_pos ⟨hl, hm⟩))))
  · refine (exec_registerWrite_eq v hrun rfl).trans (next_congr ((writeReg_lendto v hp hi).trans
      ((if_neg (by simp [h])).trans (if_neg fun h' => ?_))))
    rcases hlm with hl | hm
    · simp [hl] at h'
    · exact hm h'.2
  · exact registerWrite_sets (b := decide (1 ≤ vf ∧ vf ≤ 192 ∧ v.toNat ≤ 256)) hrun rfl (by simp)
      ((if_congr (by rw [decide_eq_true_iff]; omega) rfl rfl).trans (ite_not ..))
  · have h : BoundVf s vf o := ⟨hrun, hlow, hhigh, ho⟩
    exact ⟨vfRegister_always h (by decide) rfl, vfRegister_always h (by decide) rfl, vfRegister_always h
        (by decide) rfl,
      exec_releaseRegister h v, exec_catchRegister h v,
      fun k hk => vfRegister_always h (by omega) (writeVf_bp s.m vf o hk v),
      fun k hk => ⟨exec_ringBaseRegister h v hk, exec_ringSizeRegister h v hk, exec_tailRegister h v hk⟩⟩
end

section
/-!
PROOFS. The debug interface of a virtual function.
-/
namespace Sys2Proof.Machine

/-! ### DCTL -/

/-- The core that a word for DCTL names. -/
theorem mod_2048_eq (x : W32) : x.toNat % 2048 = (x.setWidth 11).toNat := (BitVec.toNat_setWidth 11 x).symm

/-- A write of the step mask's bits of DCTL names the core of the value written. -/
theorem dctlCore_step (old v : W32) : (old &&& 0x08000000 ||| v &&& 0x07FFFFFF).toNat % 2048 = v.toNat % 2048 := by
  rw [mod_2048_eq, mod_2048_eq, BitVec.setWidth_or, BitVec.setWidth_and, BitVec.setWidth_and,
    show (0x08000000 : W32).setWidth 11 = 0 from rfl, show (0x07FFFFFF : W32).setWidth 11 = BitVec.allOnes 11 from
        rfl,
    BitVec.and_allOnes]
  simp

/-- So does a write of its freeze bit. -/
theorem dctlCore_freeze (old v : W32) : (old &&& 0x07FFF800 ||| v &&& 0x080007FF).toNat % 2048 = v.toNat % 2048 := by
  rw [mod_2048_eq, mod_2048_eq, BitVec.setWidth_or, BitVec.setWidth_and, BitVec.setWidth_and,
    show (0x07FFF800 : W32).setWidth 11 = 0 from rfl, show (0x080007FF : W32).setWidth 11 = BitVec.allOnes 11 from
        rfl,
    BitVec.and_allOnes]
  simp

/-- A write of DCTL: the register takes a value, and the core that it names changes if it is one of the owner's. -/
def dctlWritten (m : Mach) (vf o : Nat) (val : W32) (c : Nat) (f : Core → Core) : Mach :=
  let m1 := setVf m vf { getVf m vf with dctl := val }
  if coreOfOwner m1 c o then modCore m1 c f else m1

theorem dctlWritten_facts (m : Mach) (vf o : Nat) (val : W32) (c : Nat) (f : Core → Core) :
    (dctlWritten m vf o val c f).mem = m.mem ∧ (getVf (dctlWritten m vf o val c f) vf).dctl = val ∧
    (coreOfOwner m c o = true → getCore (dctlWritten m vf o val c f) c = f (getCore m c)) ∧
    ∀ k, (k ≠ c ∨ coreOfOwner m c o = false) → getCore (dctlWritten m vf o val c f) k = getCore m k := by
  have hvf : getVf (setVf m vf { getVf m vf with dctl := val }) vf = { getVf m vf with dctl := val } := getVf_setVf ..
  have hown : coreOfOwner (setVf m vf { getVf m vf with dctl := val }) c o = coreOfOwner m c o := rfl
  unfold dctlWritten
  dsimp only
  rw [hown]
  cases hc : coreOfOwner m c o with
  | false => exact ⟨rfl, congrArg Vf.dctl hvf, fun h => absurd h Bool.false_ne_true, fun _ _ => rfl⟩
  | true =>
    refine ⟨rfl, congrArg Vf.dctl hvf, fun _ => getCore_modCore .., fun k hk => ?_⟩
    exact getCore_setCore_ne (setVf m vf { getVf m vf with dctl := val }) (hk.resolve_right (by simp)) _

theorem setStep_eq (m : Mach) (vf o : Nat) (val : W32) : setStep m vf o val =
    dctlWritten m vf o ((getVf m vf).dctl &&& 0x08000000 ||| val &&& 0x07FFFFFF) (val.toNat % 2048)
      fun k => { k with stepMask := BitVec.ofNat 16 (val.toNat / 2 ^ 11) } := by
  unfold setStep dctlWritten dctlCore
  dsimp only
  rw [dctlCore_step]

theorem setFreeze_eq (m : Mach) (vf o : Nat) (val : W32) : setFreeze m vf o val =
    dctlWritten m vf o ((getVf m vf).dctl &&& 0x07FFF800 ||| val &&& 0x080007FF) (val.toNat % 2048)
      fun k => { k with freeze := val.getLsbD 27 } := by
  unfold setFreeze dctlWritten dctlCore
  dsimp only
  rw [dctlCore_freeze]

/-! ### DPOST -/

/-- The core that DCTL names, when DPOST has been written. -/
theorem dctlCore_dpost (m : Mach) (vf : Nat) (v : Word) :
    dctlCore (getVf (setVf m vf { getVf m vf with dpost := v }) vf) = (getVf m vf).dctl.toNat % 2048 := by
  rw [getVf_setVf, dctlCore]

section
variable {m : Mach} {vf o : Nat} {v : Word}

theorem writeDpost_foreign (now : Bool) (h : coreOfOwner m ((getVf m vf).dctl.toNat % 2048) o = false) :
    writeDpost m vf o v now = setVf m vf { getVf m vf with dpost := v } := by
  unfold writeDpost
  dsimp only
  rw [dctlCore_dpost]
  refine if_pos ?_
  rw [show coreOfOwner (setVf m vf { getVf m vf with dpost := v }) ((getVf m vf).dctl.toNat % 2048) o = false from h]
  rfl

variable (h : coreOfOwner m ((getVf m vf).dctl.toNat % 2048) o = true)
include h

theorem writeDpost_own (now : Bool) : writeDpost m vf o v now =
    let m1 := setVf m vf { getVf m vf with dpost := v }
    let core := (getVf m vf).dctl.toNat % 2048
    let i := v.toNat % 16
    if now then (if v.getLsbD 4 then postedEnd m1 core i else m1)
    else if !(v.getLsbD 5) then m1
    else if 1 ≤ pclassOf (getCtx m core i) then report m1 vf o 4 0 0 0
    else if (getCtx m core i).unit.isNone then m1
    else modCtx m1 core i (fun c => { c with posted := some (v.toNat / 64 % 4, v.toNat / 65536) }) := by
  unfold writeDpost
  dsimp only
  rw [dctlCore_dpost]
  refine if_neg ?_
  rw [show coreOfOwner (setVf m vf { getVf m vf with dpost := v }) ((getVf m vf).dctl.toNat % 2048) o = true from h]
  exact Bool.false_ne_true

theorem writeDpost_now (hnow : v.getLsbD 4 = true) : writeDpost m vf o v true =
    postedEnd (setVf m vf { getVf m vf with dpost := v }) ((getVf m vf).dctl.toNat % 2048) (v.toNat % 16) :=
  (writeDpost_own h true).trans ((if_pos rfl).trans (if_pos hnow))

theorem writeDpost_refused (hat : v.getLsbD 5 = true)
    (hclass : 1 ≤ pclassOf (getCtx m ((getVf m vf).dctl.toNat % 2048) (v.toNat % 16))) : writeDpost m vf o v false =
    report (setVf m vf { getVf m vf with dpost := v }) vf o 4 0 0 0 :=
  (writeDpost_own h false).trans ((if_neg Bool.false_ne_true).trans ((if_neg (by simp [hat])).trans (if_pos hclass)))

theorem writeDpost_posts (hat : v.getLsbD 5 = true)
    (hunit : (getCtx m ((getVf m vf).dctl.toNat % 2048) (v.toNat % 16)).unit.isSome = true)
    (hclass : pclassOf (getCtx m ((getVf m vf).dctl.toNat % 2048) (v.toNat % 16)) = 0) : writeDpost m vf o v false =
    modCtx (setVf m vf { getVf m vf with dpost := v }) ((getVf m vf).dctl.toNat % 2048) (v.toNat % 16)
      (fun c => { c with posted := some (v.toNat / 64 % 4, v.toNat / 65536) }) :=
  (writeDpost_own h false).trans ((if_neg Bool.false_ne_true).trans ((if_neg (by simp [hat])).trans
    ((if_neg (by omega)).trans (if_neg (by rw [Option.isNone_iff_eq_none]; intro hn; simp [hn] at hunit)))))

end

/-! ### RELEASE -/

section
variable {m : Mach} {vf o : Nat} {v : Word}

/-- The machine once RELEASE has taken the address. -/
def releaseWritten (m : Mach) (vf : Nat) (v : Word) : Mach := setVf m vf { getVf m vf with release := v &&& ~~~63 }

section
variable {core i : Nat} {rest : List (Nat × Nat)}
    (hheld : holders (releaseWritten m vf v) o (v &&& ~~~63) = (core, i) :: rest)
include hheld

theorem writeRelease_held : writeRelease m vf o v =
    let m1 := releaseWritten m vf v
    if (getCtx m1 core i).pre.isSome then
      readyParked m1 (v &&& ~~~63) (releaserHost m1 vf o core (whoOf m1 core i).part) (fun _ _ x => x == o)
    else
      (match releaseFrame m1 hostAgent { whoOf m1 core i with owner := o } core i (v &&& ~~~63) (afterEpc core i) with
       | .ok m => m
       | .error _ => report m1 vf o 4 0 0 (v &&& ~~~63).toNat) := by
  unfold writeRelease
  dsimp only
  unfold releaseWritten at hheld
  rw [hheld]
  rfl

theorem writeRelease_parked (hpre : (getCtx (releaseWritten m vf v) core i).pre.isSome = true) : writeRelease m vf
    o v =
    readyParked (releaseWritten m vf v) (v &&& ~~~63)
      (releaserHost (releaseWritten m vf v) vf o core (whoOf (releaseWritten m vf v) core i).part)
          (fun _ _ x => x == o) :=
  (writeRelease_held hheld).trans (if_pos hpre)

theorem writeRelease_goesOn {m2 : Mach} (hpre : (getCtx (releaseWritten m vf v) core i).pre = none)
    (hok : releaseFrame (releaseWritten m vf v) hostAgent { whoOf (releaseWritten m vf v) core i with owner := o }
        core i
      (v &&& ~~~63) (afterEpc core i) = .ok m2) : writeRelease m vf o v = m2 := by
  refine (writeRelease_held hheld).trans ((if_neg (by simp [hpre])).trans ?_)
  rw [hok]

theorem writeRelease_fails {e : Byte × Word} (hpre : (getCtx (releaseWritten m vf v) core i).pre = none)
    (herr : releaseFrame (releaseWritten m vf v) hostAgent { whoOf (releaseWritten m vf v) core i with owner := o }
        core i
      (v &&& ~~~63) (afterEpc core i) = .error e) :
    writeRelease m vf o v = report (releaseWritten m vf v) vf o 4 0 0 (v &&& ~~~63).toNat := by
  refine (writeRelease_held hheld).trans ((if_neg (by simp [hpre])).trans ?_)
  rw [herr]

end

section
variable (hfree : holders (releaseWritten m vf v) o (v &&& ~~~63) = [])
include hfree

theorem writeRelease_record {r : Record} (hr : m.records.find?
      (fun r => r.frame == some (v &&& ~~~63) && r.unit.owner == o && r.ready.isNone) = some r) : writeRelease m vf
          o v =
    readyParked (releaseWritten m vf v) (v &&& ~~~63) (releaserHost (releaseWritten m vf v) vf o r.home r.part)
      (fun _ _ x => x == o) := by
  unfold writeRelease
  dsimp only
  unfold releaseWritten at hfree
  rw [hfree]
  simp only [setVf_records]
  rw [hr]
  rfl

theorem writeRelease_none
    (hr : ∀ r ∈ m.records, r.frame = some (v &&& ~~~63) → r.unit.owner = o → r.ready.isSome = true) :
    writeRelease m vf o v = report (releaseWritten m vf v) vf o 4 0 0 (v &&& ~~~63).toNat := by
  have hnone : m.records.find? (fun r => r.frame == some (v &&& ~~~63) && r.unit.owner == o && r.ready.isNone) =
      none := by
    refine List.find?_eq_none.2 fun r hmem hall => ?_
    simp only [Bool.and_eq_true, beq_iff_eq] at hall
    obtain ⟨⟨hf, ho⟩, hn⟩ := hall
    have := hr r hmem hf ho
    simp [Option.isNone_iff_eq_none.1 hn] at this
  unfold writeRelease
  dsimp only
  unfold releaseWritten at hfree
  rw [hfree]
  simp only [setVf_records]
  rw [hnone]
  rfl

end

end

/-! ### Saved images of withheld records -/

theorem savedImage_withheld {m : Mach} {o : Nat} {r : Record} (hr : r ∈ m.records) (hw : r.withheld = true)
    (ho : r.unit.owner = o) : savedImage m o r.id = imageOf m r.id :=
  if_pos (List.any_eq_true.2 ⟨r, hr, by simp [hw, ho]⟩)

theorem savedImage_none {m : Mach} {o id : Nat}
    (h : ∀ r ∈ m.records, r.id = id → r.withheld = false ∨ r.unit.owner ≠ o) : savedImage m o id = none := by
  refine if_neg fun hany => ?_
  obtain ⟨r, hr, hall⟩ := List.any_eq_true.1 hany
  simp only [Bool.and_eq_true, beq_iff_eq] at hall
  obtain ⟨⟨hid, hw⟩, ho⟩ := hall
  rcases h r hr hid with h | h
  · simp [h] at hw
  · exact h ho

end Sys2Proof.Machine

open Sys2Proof Sys2Proof.Machine

/-- Settles O42: each register of the debug interface by the case that its value names. -/
theorem debugInterface : Obligations.DebugInterface := by
  unfold Obligations.DebugInterface
  intro s vf o val v hrun hlow hhigh ho
  have h : BoundVf s vf o := ⟨hrun, hlow, hhigh, ho⟩
  have hnow (v : Word) : exec (.postSliceEndNow vf v) s = .next { s with m := writeDpost s.m vf o v true } := by
    rw [exec_postSliceEndNow, execPostSliceEndNow, withVf_bound h]
  have hat (v : Word) : exec (.postSliceEndAtEiss vf v) s = .next { s with m := writeDpost s.m vf o v false } := by
    rw [exec_postSliceEndAtEiss, execPostSliceEndAtEiss, withVf_bound h]
  have hrelease : exec (.release vf v) s = .next { s with m := writeRelease s.m vf o v } := by
    rw [exec_release, execRelease, withVf_bound h]
  refine ⟨⟨setStep s.m vf o val, ?_, ?_⟩, ⟨setFreeze s.m vf o val, ?_, ?_⟩, ⟨fun hc => ⟨?_, ?_⟩, fun hc hb => ?_,
    fun hc hb hclass => ?_, fun hc hb hunit hclass => ?_⟩,
        ⟨fun core i rest hheld => ⟨fun hpre => ?_, fun m2 hpre hok => ?_,
    fun e hpre herr => ?_⟩, fun r hfree hr => ?_, fun hfree hr => ?_⟩, ⟨fun hp => ?_, fun hp => ?_⟩, fun hgo => ?_,
    fun hgo => ?_, fun r im hr hw hown him => ?_, fun id hid => ?_⟩
  · rw [exec_singleStep, execSingleStep, withVf_bound h]
  · rw [setStep_eq]
    exact dctlWritten_facts ..
  · rw [exec_engineFreeze, execEngineFreeze, withVf_bound h]
  · rw [setFreeze_eq]
    exact dctlWritten_facts ..
  · exact (hnow v).trans (next_congr (writeDpost_foreign true hc))
  · exact (hat v).trans (next_congr (writeDpost_foreign false hc))
  · exact (hnow v).trans (next_congr (writeDpost_now hc hb))
  · exact (hat v).trans (next_congr (writeDpost_refused hc hb hclass))
  · exact (hat v).trans (next_congr (writeDpost_posts hc hb hunit hclass))
  · exact hrelease.trans (next_congr (writeRelease_parked hheld hpre))
  · exact hrelease.trans (next_congr (writeRelease_goesOn hheld hpre hok))
  · exact hrelease.trans (next_congr (writeRelease_fails hheld hpre herr))
  · exact hrelease.trans (next_congr (writeRelease_record hfree hr))
  · exact hrelease.trans (next_congr (writeRelease_none hfree hr))
  · rw [exec_catchRecords, execCatchRecords, withVf_bound h]
    exact next_congr (if_pos hp)
  · rw [exec_catchRecords, execCatchRecords, withVf_bound h]
    exact next_congr (if_neg hp)
  · rw [exec_go, execGo, withVf_bound h]
    exact next_congr (if_pos hgo)
  · rw [exec_go, execGo, withVf_bound h]
    exact next_congr (if_neg (Bool.eq_false_iff.1 hgo))
  · have himage : savedImage s.m o r.id = some im := (savedImage_withheld hr hw hown).trans him
    unfold savedScalar savedLoop savedRow
    rw [himage]
    exact ⟨fun k hk => congrArg some (if_neg hk), rfl, rfl, fun k => rfl⟩
  · unfold savedScalar savedLoop savedRow
    rw [savedImage_none hid]
    exact ⟨rfl, fun k => ⟨rfl, rfl⟩⟩
end

section
/-!
PROOFS. A store of some bytes of one granule, and the host's reads and writes of memory.
-/
namespace Sys2Proof.Machine

/-! ### A store of some bytes of one granule -/

/-- The bytes that a mask of consecutive bytes names. -/
theorem byteMask_names {lo n i : Nat} (hi : i < 16) :
    (byteMask lo n).toNat / 2 ^ i % 2 = 1 ↔ lo ≤ i ∧ i < lo + n := by
  have hbit : (byteMask lo n).toNat / 2 ^ i % 2 = 1 ↔ (byteMask lo n).getLsbD i = true := by
    rw [BitVec.getLsbD, Nat.testBit_eq_decide_div_mod_eq, decide_eq_true_iff]
  rw [hbit, byteMask, BitVec.getLsbD_ofNat, decide_eq_true hi, Bool.true_and, Nat.testBit_mul_two_pow,
    Nat.testBit_two_pow_sub_one, Bool.and_eq_true, decide_eq_true_iff, decide_eq_true_iff]
  omega

/-- Byte `lo + j` of a number put at byte `lo` of a granule is byte `j` of the number. -/
theorem byte_shifted {x lo n j : Nat} (hx : x < 256 ^ n) (hn : lo + n ≤ 16) :
    BitVec.ofNat 8 ((BitVec.ofNat 128 (x * 256 ^ lo)).toNat / 256 ^ (lo + j)) = BitVec.ofNat 8 (x / 256 ^ j) := by
  have hlt : x * 256 ^ lo < 2 ^ 128 := by
    calc x * 256 ^ lo < 256 ^ n * 256 ^ lo := Nat.mul_lt_mul_of_pos_right hx (by positivity)
      _ = 256 ^ (lo + n) := by rw [Nat.add_comm, pow_add]
      _ ≤ 256 ^ 16 := Nat.pow_le_pow_right (by norm_num) hn
      _ = 2 ^ 128 := by norm_num
  rw [BitVec.toNat_ofNat, Nat.mod_eq_of_lt hlt, pow_add, ← Nat.div_div_eq_div_mul, Nat.mul_div_cancel _
      (by positivity)]

/-- A store of `n` bytes within one granule: its bytes. -/
theorem readByte_commitPart_in (m : Mach) (a pa n x : Nat) {j : Nat} (hx : x < 256 ^ n) (hn : pa % 16 + n ≤ 16)
    (hj : j < n) :
    readByte (commitWrite m a (pa - pa % 16) (byteMask (pa % 16) n) (BitVec.ofNat 128 (x * 256 ^ (pa % 16)))).mem
        (pa + j) =
      BitVec.ofNat 8 (x / 256 ^ j) := by
  have hle : pa % 16 ≤ pa := Nat.mod_le _ _
  rw [show pa + j = (pa - pa % 16) + (pa % 16 + j) by omega, readByte_commitWrite_in _ _ _ _ _ _ (by omega),
    if_pos ((byteMask_names (by omega)).2 (by omega)), byte_shifted hx hn]

/-- A store of `n` bytes within one granule leaves every other byte. -/
theorem readByte_commitPart_out (m : Mach) (a pa n : Nat) (data : Gran) {b : Nat}
    (hb : b < pa ∨ pa + n ≤ b) :
    readByte (commitWrite m a (pa - pa % 16) (byteMask (pa % 16) n) data).mem b = readByte m.mem b := by
  have hle : pa % 16 ≤ pa := Nat.mod_le _ _
  by_cases hin : b < pa - pa % 16 ∨ pa - pa % 16 + 16 ≤ b
  · exact readByte_commitWrite_out _ _ _ _ _ _ hin
  · obtain ⟨i, rfl⟩ : ∃ i, b = (pa - pa % 16) + i := ⟨b - (pa - pa % 16), by omega⟩
    rw [readByte_commitWrite_in _ _ _ _ _ _ (by omega), if_neg fun h => ?_]
    have := (byteMask_names (by omega)).1 h
    omega

/-- A write that lies in one granule is one commit. -/
theorem commitNat_part (m : Mach) (a pa n x : Nat) (h0 : 0 < n) (hn : pa % 16 + n ≤ 16) : commitNat m a pa n x =
    commitWrite m a (pa - pa % 16) (byteMask (pa % 16) n) (BitVec.ofNat 128 (x % 256 ^ n * 256 ^ (pa % 16))) := by
  have hparts : granParts pa n x (n + 1) =
      [(pa - pa % 16, byteMask (pa % 16) n, BitVec.ofNat 128 (x % 256 ^ n * 256 ^ (pa % 16)))] := by
    obtain ⟨k, rfl⟩ : ∃ k, n = k + 1 := ⟨n - 1, by omega⟩
    rw [granParts, if_neg (by omega)]
    dsimp only
    rw [Nat.min_eq_left (by omega), Nat.sub_self, granParts, if_pos rfl]
  rw [commitNat, hparts]
  rfl

/-- An aligned access of at most 16 bytes lies in one granule. -/
theorem aligned_in_granule {pa size : Nat} (hsize : size ∈ [1, 2, 4, 8, 16]) (ha : pa % size = 0) :
    0 < size ∧ pa % 16 + size ≤ 16 := by
  simp only [List.mem_cons, List.not_mem_nil, or_false] at hsize
  rcases hsize with rfl | rfl | rfl | rfl | rfl <;> omega

/-! ### Host accesses -/

/-- An access of a size and an alignment that the host makes, while the part is running. -/
structure HostAccess (s : State) (pa size : Nat) : Prop where
  run : s.m.phase = .running
  sizeIn : size ∈ [1, 2, 4, 8, 16]
  aligned : pa % size = 0

theorem HostAccess.sized {s : State} {pa size : Nat} (h : HostAccess s pa size) : ¬(!(hostSize pa size)) = true := by
  rw [hostSize, List.contains_iff_mem.2 h.sizeIn, h.aligned]
  decide

section
variable {s : State} {h pa size pos : Nat} (ha : HostAccess s pa size)
include ha

theorem exec_hostMemRead_eq : exec (.hostMemRead h pa size pos) s = .next ⟨if poolBase ≤ pa then
      if (!((poolOf s.m pa).all fun c => (getCore s.m c).port.isEmpty)) = true then s.m
      else if hostReadsPool s.m h pa size = true then
        sendMsg s.m (.host true false (BitVec.ofNat 128 (readNow s.m pa size)))
      else sendMsg s.m (.host false false 0)
    else if (!(hostReaches s.m h pa size)) = true then sendMsg s.m (.host false false 0)
    else if granBad s.m (pa / 16 * 16) = true then sendMsg s.m (.host true true 0)
    else if (!(posOk s.m hostAgent (pa / 16 * 16) pos)) = true then s.m
    else sendMsg (raiseView s.m hostAgent (pa / 16 * 16) pos)
      (.host true false (BitVec.ofNat 128 (granBytes (contentAt s.m (pa / 16 * 16) pos) (pa % 16) size))), s.trust⟩
          := by
  rw [exec_hostMemRead, execHostMemRead, whenRunning, onMach]
  exact next_congr ((if_pos ha.run).trans (if_neg ha.sized))

theorem exec_hostMemWrite_eq (data : Gran) : exec (.hostMemWrite h pa size data) s = .next
    ⟨if (!(hostReaches s.m h pa size)) = true then sendMsg s.m (.host false false 0)
    else if frozenPa s.m pa size = true then s.m
    else sendMsg (commitNat s.m hostAgent pa size (data.toNat % 256 ^ size)) (.host true false 0), s.trust⟩ := by
  rw [exec_hostMemWrite, execHostMemWrite, whenRunning, onMach]
  exact next_congr ((if_pos ha.run).trans (if_neg ha.sized))

end

/-- What the host reaches lies in HBM, below the pools. -/
theorem hostReaches_lt {m : Mach} {h pa size : Nat} (hr : hostReaches m h pa size = true) : ¬poolBase ≤ pa := by
  simp only [hostReaches, Bool.and_eq_true, decide_eq_true_iff] at hr
  obtain ⟨⟨-, hend⟩, -⟩ := hr
  unfold poolBase
  omega

theorem posOk_host {m : Mach} {g pos : Nat} (hlow : viewOf m hostAgent g ≤ pos) (hhigh : pos ≤ newestPos m g) :
    posOk m hostAgent g pos = true := by
  have hreal : realAgent m hostAgent = hostAgent := if_neg (by decide)
  rw [posOk, hreal, decide_eq_true hlow, decide_eq_true hhigh]
  rfl

end Sys2Proof.Machine

open Sys2Proof Sys2Proof.Machine

/-- Settles O45: the cases of a host access; an aligned write of at most 16 bytes is one commit within one granule. -/
theorem hostMemory : Obligations.HostMemory := by
  unfold Obligations.HostMemory
  intro s h pa size pos data hrun hsize haligned
  have ha : HostAccess s pa size := ⟨hrun, hsize, haligned⟩
  obtain ⟨hpos, hin⟩ := aligned_in_granule hsize haligned
  refine ⟨fun hr => ⟨fun hpa => ?_, ?_⟩, fun hpa => ⟨fun hq => ?_, fun hq hp => ?_, fun hq hp => ?_⟩,
    fun hr => ⟨fun hb => ?_, fun hb hlow hhigh => ?_, fun hf => ?_, fun hf =>
        ⟨sendMsg (commitNat s.m hostAgent pa size (data.toNat % 256 ^ size)) (.host true false 0),
            (exec_hostMemWrite_eq ha data).trans
      (next_congr ((if_neg (by simp [hr])).trans (if_neg (Bool.eq_false_iff.1 hf)))), ?_, ?_, fun j hj => ?_, fun a
          hout => ?_⟩⟩⟩
  · exact (exec_hostMemRead_eq ha).trans (next_congr ((if_neg (not_le.2 hpa)).trans (if_pos (by simp [hr]))))
  · exact (exec_hostMemWrite_eq ha data).trans (next_congr (if_pos (by simp [hr])))
  · exact (exec_hostMemRead_eq ha).trans (next_congr ((if_pos hpa).trans (if_pos (by rw [hq]; rfl))))
  · exact (exec_hostMemRead_eq ha).trans (next_congr ((if_pos hpa).trans
      ((if_neg (by rw [hq]; exact Bool.false_ne_true)).trans (if_pos hp))))
  · exact (exec_hostMemRead_eq ha).trans (next_congr ((if_pos hpa).trans
      ((if_neg (by rw [hq]; exact Bool.false_ne_true)).trans (if_neg (Bool.eq_false_iff.1 hp)))))
  · exact (exec_hostMemRead_eq ha).trans (next_congr ((if_neg (hostReaches_lt hr)).trans
      ((if_neg (by simp [hr])).trans (if_pos hb))))
  · exact (exec_hostMemRead_eq ha).trans (next_congr ((if_neg (hostReaches_lt hr)).trans
      ((if_neg (by simp [hr])).trans
          ((if_neg (Bool.eq_false_iff.1 hb)).trans (if_neg (by simp [posOk_host hlow hhigh]))))))
  · exact (exec_hostMemWrite_eq ha data).trans (next_congr ((if_neg (by simp [hr])).trans (if_pos hf)))
  · exact congrArg (· ++ [Msg.host true false 0])
      ((onlyStored_commitNat s.m hostAgent pa size _).keeps Mach.out fun _ _ _ _ _ _ _ _ => rfl)
  · rw [commitNat_part s.m hostAgent pa size _ hpos hin]
    rfl
  · rw [commitNat_part s.m hostAgent pa size _ hpos hin, Nat.mod_mod]
    refine (readByte_commitPart_in s.m hostAgent pa size _ (Nat.mod_lt _ (by positivity)) hin hj).trans ?_
    refine BitVec.eq_of_toNat_eq ?_
    rw [BitVec.toNat_ofNat, BitVec.toNat_ofNat]
    obtain ⟨d, rfl⟩ : ∃ d, size = j + 1 + d := ⟨size - (j + 1), by omega⟩
    rw [show 2 ^ 8 = 256 by norm_num, show (256 : Nat) ^ (j + 1 + d) = 256 ^ j * (256 * 256 ^ d) by ring,
      Nat.mod_mul_right_div_self, Nat.mod_mul_right_mod]
  · rw [commitNat_part s.m hostAgent pa size _ hpos hin]
    exact readByte_commitPart_out s.m hostAgent pa size _ hout
end

section
/-!
PROOFS. Package reset and loss of power.
-/
namespace Sys2Proof.Machine

/-! ### Maps that a list of keys spells out -/

theorem smGet_map_key {α : Type} (d : α) (f : Nat → α) (l : List Nat) (k : Nat) :
    smGet d (l.map fun c => (c, f c)) k = if k ∈ l then f k else d := by
  induction l with
  | nil => simp [smGet]
  | cons c l ih =>
    by_cases hc : c = k
    · subst hc
      simp [smGet]
    · simp [smGet, hc, ih, Ne.symm hc]

/-! ### The dies that pass -/

theorem getLsbD_diesOk (t : Trust) {d : Nat} (hd : d < 5) : (diesOk t).getLsbD d = dieChecks t d := by
  have hsum : (List.range 5).foldl (fun a d => if dieChecks t d then a + 2 ^ d else a) 0 = bitSum (dieChecks t) 5
      := rfl
  rw [diesOk, hsum, BitVec.getLsbD_ofNat, decide_eq_true hd, Bool.true_and, testBit_bitSum]
  simp [hd]

/-! ### The keys of the partitions -/

/-- What `n` renewed keys leave of the trust die's store. -/
theorem renewKeys_eq (t : Trust) (n : Nat) : ∃ keys : SMap Nat, (List.range n).foldl renewKey t =
    { t with memKeys := keys, keySeq := t.keySeq + n } ∧ ∀ p < n, smGet 0 keys p = t.keySeq + p + 1 := by
  induction n with
  | zero => exact ⟨t.memKeys, rfl, fun p hp => absurd hp (Nat.not_lt_zero p)⟩
  | succ n ih =>
    obtain ⟨keys, hfold, hkeys⟩ := ih
    refine ⟨smPut 0 keys n (t.keySeq + n + 1), ?_, fun p hp => ?_⟩
    · rw [List.range_succ, List.foldl_append, hfold]
      rfl
    · by_cases hpn : p = n
      · rw [hpn, smGet_put_same]
      · rw [smGet_put_ne _ _ hpn]
        exact hkeys p (by omega)

theorem memKey_of_get {t : Trust} {p n : Nat} (h : smGet 0 t.memKeys p = n + 1) :
    memKey t p = some (Config.freshKey (n + 1)) := by
  rw [memKey, h]
  rfl

/-! ### The machine after bring-up -/

theorem getCore_broughtUp (m : Mach) (t : Trust) (c : Nat) :
    getCore (broughtUp m t) c = if c < 1152 then coreUp t c else {} := by
  simp only [getCore, broughtUp, smGet_map_key, List.mem_range]

theorem getCtx_broughtUp (m : Mach) (t : Trust) (c i : Nat) : getCtx (broughtUp m t) c i = {} := by
  rw [getCtx, getCore_broughtUp]
  split <;> rfl

theorem getLink_broughtUp (m : Mach) (t : Trust) {p : Nat} (hp : p < 64) :
    (getLink (broughtUp m t) p).down = t.portFails.getLsbD p := by
  have h : getLink (broughtUp m t) p =
      if p ∈ (List.range 64).filter (fun p => t.portFails.getLsbD p) then { down := true } else {} :=
    smGet_map_key ({} : Link) (fun _ => { down := true })
      ((List.range 64).filter fun p => t.portFails.getLsbD p) p
  rw [h]
  cases hf : t.portFails.getLsbD p with
  | true => rw [if_pos (List.mem_filter.2 ⟨List.mem_range.2 hp, hf⟩)]
  | false =>
    rw [if_neg fun hmem => ?_]
    simp [hf] at hmem

theorem getCluster_broughtUp (m : Mach) (t : Trust) {c : Nat} (hc : c < 64) :
    (getCluster (broughtUp m t) c).scanStart = some 0 := by
  have h : getCluster (broughtUp m t) c = if c ∈ List.range 64 then { scanStart := some 0 } else {} :=
    smGet_map_key ({} : Cluster) (fun _ => { scanStart := some 0 }) (List.range 64) c
  rw [h, if_pos (List.mem_range.2 hc)]

/-! ### Package reset -/

/-- What the check of the dies leaves of the trust die's store. -/
def checkedTrust (t : Trust) : Trust :=
  { t with alarm := none, spdm := 0, session := false, responses := [], dieOk := diesOk t }

theorem exec_packageReset_pass {s : State} (h : diesOk s.trust = 31) : exec .packageReset s =
    .next ⟨broughtUp s.m ((List.range 64).foldl renewKey
        { checkedTrust s.trust with released := true, reports := [] }),
      (List.range 64).foldl renewKey { checkedTrust s.trust with released := true, reports := [] }⟩ := by
  rw [exec_packageReset, execPackageReset]
  exact congrArg Host.Outcome.next (if_pos h)

/-- The dies that fail their check. -/
def badDies (t : Trust) : List Nat := (List.range 5).filter fun d => !((diesOk t).getLsbD d)

theorem exec_packageReset_fail {s : State} (h : diesOk s.trust ≠ 31) : exec .packageReset s =
    .next ⟨{ outOfService s.m with
        phase := .failed, trims := s.trust.trims, mailbox := (badDies s.trust).map fun d => (0, d) },
      { checkedTrust s.trust with released := false, reports := badDies s.trust }⟩ := by
  rw [exec_packageReset, execPackageReset]
  exact congrArg Host.Outcome.next (if_neg h)

theorem mem_badDies (t : Trust) (d : Nat) : d ∈ badDies t ↔ d < 5 ∧ (diesOk t).getLsbD d = false := by
  rw [badDies, List.mem_filter, List.mem_range, Bool.not_eq_true']

end Sys2Proof.Machine

open Sys2Proof Sys2Proof.Machine

/-- Settles O46: the two outcomes of the check; after bring-up the parts of the machine are read from the lists
    that spell them
out, and the keys follow by induction on the partitions. -/
theorem resetState : Obligations.ResetState := by
  unfold Obligations.ResetState
  refine ⟨⟨fun s => ?_, fun t d hd => ?_, fun s =>
      ⟨_, rfl, rfl, rfl, rfl, rfl, rfl, rfl, rfl, rfl, rfl, rfl, rfl, rfl, rfl, rfl⟩⟩,
    rfl, rfl, fun p => ⟨rfl, rfl, rfl, rfl, rfl, rfl, rfl⟩, fun c i => ⟨rfl, rfl, rfl, rfl, rfl, rfl, rfl, rfl⟩, rfl⟩
  · by_cases h : diesOk s.trust = 31
    · obtain ⟨keys, hfold, hkeys⟩ := renewKeys_eq { checkedTrust s.trust with released := true, reports := [] } 64
      have hexec := exec_packageReset_pass h
      rw [hfold] at hexec
      refine ⟨_, hexec, rfl, rfl, rfl, rfl, rfl, rfl, rfl, rfl, rfl, rfl, rfl, rfl, ?_⟩
      rw [if_pos h]
      exact ⟨rfl, rfl, rfl, fun p hp => ⟨hkeys p hp, memKey_of_get (hkeys p hp)⟩, rfl, fun p hp =>
          getLink_broughtUp _ _ hp,
        fun c hc => getCluster_broughtUp _ _ hc, fun c hc => (getCore_broughtUp _ _ c).trans (if_pos hc),
        fun c i => getCtx_broughtUp _ _ c i, fun p => rfl⟩
    · refine ⟨_, exec_packageReset_fail h, rfl, rfl, rfl, rfl, rfl, rfl, rfl, rfl, rfl, rfl, rfl, rfl, ?_⟩
      rw [if_neg h]
      exact ⟨rfl, rfl, rfl, fun c => rfl, mem_badDies s.trust, rfl⟩
  · rw [getLsbD_diesOk t hd, dieChecks, Bool.and_eq_true, beq_iff_eq]
end

section
/-!
PROOFS. What counting in the work tree and reporting to the host change, and the rotation scan and retirements.
-/
namespace Sys2Proof.Machine

/-! ### What counting and reporting change of the machine -/

/-- Two machines that differ at most in nodes, virtual functions and what a store changes. -/
def OnlyCounted (m m' : Mach) : Prop :=
  ∃ nodes vfs step mem hist agents poisoned keyed recDue,
    m' = { m with nodes, vfs, step, mem, hist, agents, poisoned, keyed, recDue }

theorem OnlyCounted.refl (m : Mach) : OnlyCounted m m := ⟨_, _, _, _, _, _, _, _, _, rfl⟩

theorem OnlyCounted.trans {m m1 m2 : Mach} (h : OnlyCounted m m1) (h' : OnlyCounted m1 m2) : OnlyCounted m m2 := by
  obtain ⟨_, _, _, _, _, _, _, _, _, rfl⟩ := h
  obtain ⟨_, _, _, _, _, _, _, _, _, rfl⟩ := h'
  exact ⟨_, _, _, _, _, _, _, _, _, rfl⟩

/-- A field that counting does not change. -/
theorem OnlyCounted.keeps {α : Type} {m m' : Mach} (h : OnlyCounted m m') (f : Mach → α)
    (hf : ∀ (m : Mach) nodes vfs step mem hist agents poisoned keyed recDue,
      f { m with nodes, vfs, step, mem, hist, agents, poisoned, keyed, recDue } = f m) : f m' = f m := by
  obtain ⟨_, _, _, _, _, _, _, _, _, rfl⟩ := h
  exact hf ..

theorem OnlyCounted.cores {m m' : Mach} (h : OnlyCounted m m') : m'.cores = m.cores :=
  h.keeps Mach.cores fun _ _ _ _ _ _ _ _ _ _ => rfl

theorem OnlyCounted.records {m m' : Mach} (h : OnlyCounted m m') : m'.records = m.records :=
  h.keeps Mach.records fun _ _ _ _ _ _ _ _ _ _ => rfl

theorem OnlyStored.counted {m m' : Mach} (h : OnlyStored m m') : OnlyCounted m m' := by
  obtain ⟨_, _, _, _, _, _, _, rfl⟩ := h
  exact ⟨_, _, _, _, _, _, _, _, _, rfl⟩

theorem onlyCounted_foldl {α : Type} {g : Mach → α → Mach} (hg : ∀ m x, OnlyCounted m (g m x)) (l : List α)
    (m : Mach) :
    OnlyCounted m (l.foldl g m) := by
  induction l generalizing m with
  | nil => exact .refl m
  | cons x l ih => exact (hg m x).trans (ih _)

theorem onlyCounted_modNode (m : Mach) (i : Nat) (f : Node → Node) : OnlyCounted m (modNode m i f) :=
  ⟨_, _, _, _, _, _, _, _, _, rfl⟩

theorem onlyCounted_bumpNode (m : Mach) (i : Nat) (f : Node → Node) : OnlyCounted m (bumpNode m i f) :=
  (onlyCounted_modNode m i f).trans (onlyStored_writeRec ..).counted

theorem onlyCounted_setVf (m : Mach) (v : Nat) (f : Vf) : OnlyCounted m (setVf m v f) :=
    ⟨_, _, _, _, _, _, _, _, _, rfl⟩

theorem onlyCounted_putEvent (m : Mach) (v x : Nat) : OnlyCounted m (putEvent m v x) := by
  unfold putEvent
  dsimp only
  split
  · exact onlyCounted_setVf ..
  · split
    · exact onlyCounted_setVf ..
    · split
      next m' h => exact (onlyStored_vaWrite _ _ _ h).counted.trans (onlyCounted_setVf ..)
      next => exact onlyCounted_setVf ..

theorem onlyCounted_hostEvent (m : Mach) (o kind cause part id va1 : Nat) :
    OnlyCounted m (hostEvent m o kind cause part id va1) := by
  unfold hostEvent
  split
  · exact onlyCounted_putEvent ..
  · exact .refl m

/-- A node whose children have all ended, with its terminal state. -/
def endedNode (n : Node) : Node :=
  { n with st := endState n, final := n.level == 1 && !n.tainted && n.ran.all (fun r => r.cleared) }

theorem settleNode_succ (m : Mach) (i fuel : Nat) : settleNode m i (fuel + 1) =
    if !(getNode m i).live || nodeTerminal (getNode m i) || (getNode m i).ended < (getNode m i).total then m
    else
      let m1 := bumpNode m i endedNode
      match (getNode m1 i).parent with
      | some p =>
        if (getNode m1 i).level = 3 then m1
        else settleNode (bumpNode m1 p fun q => countChild q ((getNode m1 i).st == .failed) (getNode m1 i).cause) p
            fuel
      | none => m1 := rfl

theorem onlyCounted_settleNode (fuel : Nat) : ∀ (m : Mach) (i : Nat), OnlyCounted m (settleNode m i fuel) := by
  induction fuel with
  | zero => exact fun m i => .refl m
  | succ fuel ih =>
    intro m i
    rw [settleNode_succ]
    split
    · exact .refl m
    · refine (onlyCounted_bumpNode m i endedNode).trans ?_
      dsimp only
      split
      · split
        · exact .refl _
        · exact (onlyCounted_bumpNode ..).trans (ih ..)
      · exact .refl _

theorem onlyCounted_countUnit (m : Mach) (i : Nat) (failed : Bool) (cause : Byte) : OnlyCounted m
    (countUnit m i failed cause) :=
  (onlyCounted_bumpNode ..).trans (onlyCounted_settleNode ..)

theorem onlyCounted_countOwed (m : Mach) : OnlyCounted m (countOwed m) :=
  onlyCounted_foldl (fun m _ => (onlyCounted_modNode m _ _).trans
    (onlyCounted_foldl (fun _ _ => onlyCounted_countUnit ..) _ _)) _ _

/-! ### What counting changes of a node -/

/-- A node but for what counting its children changes. -/
def uncounted (n : Node) : Node :=
  { n with ended := 0, st := .pending, final := false, cause := 0, childFailed := false, owed := [] }

/-- Every node but for its counts is the same. -/
structure SameNodes (m m' : Mach) : Prop where
  same : ∀ i, uncounted (getNode m' i) = uncounted (getNode m i)

theorem SameNodes.refl (m : Mach) : SameNodes m m := ⟨fun _ => rfl⟩

theorem SameNodes.trans {m m1 m2 : Mach} (h : SameNodes m m1) (h' : SameNodes m1 m2) : SameNodes m m2 :=
  ⟨fun i => (h'.same i).trans (h.same i)⟩

theorem sameNodes_foldl {α : Type} {g : Mach → α → Mach} (hg : ∀ m x, SameNodes m (g m x)) (l : List α) (m : Mach) :
    SameNodes m (l.foldl g m) := by
  induction l generalizing m with
  | nil => exact .refl m
  | cons x l ih => exact (hg m x).trans (ih _)

theorem SameNodes.tainted {m m' : Mach} (h : SameNodes m m') (i : Nat) : (getNode m' i).tainted =
    (getNode m i).tainted :=
  show (uncounted (getNode m' i)).tainted = (uncounted (getNode m i)).tainted from congrArg _ (h.same i)

theorem SameNodes.ran {m m' : Mach} (h : SameNodes m m') (i : Nat) : (getNode m' i).ran = (getNode m i).ran :=
  show (uncounted (getNode m' i)).ran = (uncounted (getNode m i)).ran from congrArg _ (h.same i)

theorem getNode_modNode_ne (m : Mach) {i j : Nat} (h : j ≠ i) (f : Node → Node) : getNode (modNode m i f) j =
    getNode m j :=
  smGet_put_ne _ _ h _

theorem getNode_onlyStored {m m' : Mach} (h : OnlyStored m m') (i : Nat) : getNode m' i = getNode m i :=
  h.keeps (getNode · i) fun _ _ _ _ _ _ _ _ => rfl

theorem getNode_bumpNode (m : Mach) (i : Nat) (f : Node → Node) : getNode (bumpNode m i f) i = f (getNode m i) :=
  (getNode_onlyStored (onlyStored_writeRec ..) i).trans (getNode_modNode m i f)

theorem getNode_bumpNode_ne (m : Mach) {i j : Nat} (h : j ≠ i) (f : Node → Node) : getNode (bumpNode m i f) j =
    getNode m j :=
  (getNode_onlyStored (onlyStored_writeRec ..) j).trans (getNode_modNode_ne m h f)

/-- A field of the nodes that a change of one node keeps. -/
theorem modNode_keeps {α : Type} (g : Node → α) (m : Mach) (i : Nat) {f : Node → Node} (hf : ∀ n, g (f n) = g n)
    (j : Nat) :
    g (getNode (modNode m i f) j) = g (getNode m j) := by
  by_cases hj : j = i
  · rw [hj, getNode_modNode, hf]
  · rw [getNode_modNode_ne m hj]

theorem bumpNode_keeps {α : Type} (g : Node → α) (m : Mach) (i : Nat) {f : Node → Node} (hf : ∀ n, g (f n) = g n)
    (j : Nat) :
    g (getNode (bumpNode m i f) j) = g (getNode m j) := by
  rw [bumpNode, getNode_onlyStored (onlyStored_writeRec ..) j]
  exact modNode_keeps g m i hf j

theorem sameNodes_endedNode (m : Mach) (i : Nat) : SameNodes m (bumpNode m i endedNode) :=
  ⟨bumpNode_keeps uncounted m i (f := endedNode) fun _ => rfl⟩

theorem sameNodes_countChild (m : Mach) (i : Nat) (failed : Bool) (cause : Byte) :
    SameNodes m (bumpNode m i fun n => countChild n failed cause) :=
  ⟨bumpNode_keeps uncounted m i (f := fun n => countChild n failed cause) fun _ => rfl⟩

theorem sameNodes_settleNode (fuel : Nat) : ∀ (m : Mach) (i : Nat), SameNodes m (settleNode m i fuel) := by
  induction fuel with
  | zero => exact fun m i => .refl m
  | succ fuel ih =>
    intro m i
    rw [settleNode_succ]
    split
    · exact .refl m
    · refine (sameNodes_endedNode m i).trans ?_
      dsimp only
      split
      · split
        · exact .refl _
        · exact (sameNodes_countChild ..).trans (ih ..)
      · exact .refl _

theorem sameNodes_countUnit (m : Mach) (i : Nat) (failed : Bool) (cause : Byte) : SameNodes m
    (countUnit m i failed cause) :=
  (sameNodes_countChild ..).trans (sameNodes_settleNode ..)

theorem sameNodes_countOwed (m : Mach) : SameNodes m (countOwed m) :=
  sameNodes_foldl (fun m _ => SameNodes.trans ⟨modNode_keeps uncounted m _ (f := fun n => { n with
    owed := n.owed.filter fun o => !(o.orphans.all (orphanDone m)) }) fun _ => rfl⟩
    (sameNodes_foldl (fun _ _ => sameNodes_countUnit ..) _ _)) _ _

theorem getNode_putEvent (m : Mach) (v x : Nat) (i : Nat) : getNode (putEvent m v x) i = getNode m i := by
  unfold putEvent
  dsimp only
  split
  · rfl
  · split
    · rfl
    · split
      next m' h => exact getNode_onlyStored (onlyStored_vaWrite _ _ _ h) i
      next => rfl

theorem getNode_hostEvent (m : Mach) (o kind cause part id va1 : Nat) (i : Nat) :
    getNode (hostEvent m o kind cause part id va1) i = getNode m i := by
  unfold hostEvent
  split
  · exact getNode_putEvent ..
  · rfl

/-! ### The end of a record -/

/-- A field of the cores that a change of one core keeps. -/
theorem modCore_keeps {α : Type} (g : Core → α) (m : Mach) (c : Nat) {f : Core → Core} (hf : ∀ k, g (f k) = g k)
    (d : Nat) :
    g (getCore (modCore m c f) d) = g (getCore m d) := by
  by_cases hd : d = c
  · rw [hd, getCore_modCore, hf]
  · rw [modCore, getCore_setCore_ne m hd]

/-- What a record's end keeps of the cores, and which records stay. -/
structure RecordEnds (r : Record) (m m' : Mach) : Prop where
  scan : ∀ c, (getCore m' c).scan = (getCore m c).scan
  records : m'.records = m.records.filter fun x => x.id != r.id
  nodes : SameNodes m m'

theorem stopCmds_scan (m : Mach) (core i : Nat) (cancel : Bool) (c : Nat) :
    (getCore (stopCmds m core i cancel) c).scan = (getCore m c).scan := by
  unfold stopCmds
  refine modCore_keeps Core.scan m core (fun _ => ?_) c
  rfl

theorem stopOrphans_scan (m : Mach) (os : List (Nat × Nat)) (c : Nat) :
    (getCore (stopOrphans m os) c).scan = (getCore m c).scan :=
  foldl_keeps (fun m => (getCore m c).scan) (g := fun m (x : Nat × Nat) => stopCmds m x.1 x.2 true)
    (fun m x => stopCmds_scan m x.1 x.2 true c) os m

theorem stopOrphans_records (m : Mach) (os : List (Nat × Nat)) : (stopOrphans m os).records = m.records :=
  foldl_keeps Mach.records (g := fun m (x : Nat × Nat) => stopCmds m x.1 x.2 true) (fun _ _ => modCore_records ..)
      os m

theorem stopOrphans_nodes (m : Mach) (os : List (Nat × Nat)) : (stopOrphans m os).nodes = m.nodes :=
  foldl_keeps Mach.nodes (g := fun m (x : Nat × Nat) => stopCmds m x.1 x.2 true) (fun _ _ => modCore_nodes ..) os m

theorem freePins_scan (m : Mach) (r : Record) (c : Nat) : (getCore (freePins m r) c).scan = (getCore m c).scan := by
  unfold freePins
  refine modCore_keeps Core.scan m r.home (fun k => ?_) c
  dsimp only
  generalize (orphanCmds m r.home _ || restOpen m r.home _) = b
  cases b
  · rfl
  · rfl

theorem freePins_records (m : Mach) (r : Record) : (freePins m r).records = m.records := modCore_records ..

theorem freePins_nodes (m : Mach) (r : Record) : (freePins m r).nodes = m.nodes := modCore_nodes ..

theorem cancelRest_eq (m : Mach) (r : Record) : ∃ due, cancelRest m r = { m with restDue := due } := by
  unfold cancelRest
  split
  · exact ⟨_, rfl⟩
  · exact ⟨m.restDue, rfl⟩

theorem discardRecord_ends (m : Mach) (r : Record) : RecordEnds r m (discardRecord m r) := by
  obtain ⟨due, hrest⟩ := cancelRest_eq m r
  have hscan := freePins_scan { m with restDue := due } r
  have hrecs := freePins_records { m with restDue := due } r
  have hnodes := freePins_nodes { m with restDue := due } r
  rw [discardRecord, hrest]
  exact ⟨hscan, congrArg (List.filter fun x : Record => x.id != r.id) hrecs,
    ⟨fun i => congrArg (fun ns => uncounted (smGet {} ns i)) hnodes⟩⟩

theorem endRecord_ends (m : Mach) (r : Record) (failed : Bool) (cause : Byte) : RecordEnds r m
    (endRecord m r failed cause) := by
  have hd := discardRecord_ends (stopOrphans { m with exclDue := m.exclDue ++ [(r.part, r.home)] } r.unit.orphans) r
  have hsame : SameNodes m (stopOrphans { m with exclDue := m.exclDue ++ [(r.part, r.home)] } r.unit.orphans) :=
    ⟨fun i => congrArg (fun ns => uncounted (smGet {} ns i)) (stopOrphans_nodes ..)⟩
  refine ⟨fun c => (hd.scan c).trans (stopOrphans_scan ..), ?_, (hsame.trans hd.nodes).trans ?_⟩
  · rw [← stopOrphans_records { m with exclDue := m.exclDue ++ [(r.part, r.home)] } r.unit.orphans]
    exact hd.records
  · exact ⟨modNode_keeps uncounted _ _ (f := fun n => { n with
      owed := n.owed ++ [{ orphans := r.unit.orphans, failed := failed, cause := cause }] }) fun _ => rfl⟩

/-- The ends of several records. -/
theorem endRecords_facts (failed : Bool) (cause : Byte) (rs : List Record) (m : Mach) :
    (∀ c, (getCore (rs.foldl (fun m r => endRecord m r failed cause) m) c).scan = (getCore m c).scan) ∧
    (∀ x ∈ (rs.foldl (fun m r => endRecord m r failed cause) m).records, x ∈ m.records ∧ ∀ r ∈ rs, x.id ≠ r.id) ∧
    SameNodes m (rs.foldl (fun m r => endRecord m r failed cause) m) := by
  induction rs generalizing m with
  | nil => exact ⟨fun _ => rfl, fun x hx => ⟨hx, by simp⟩, .refl m⟩
  | cons r rs ih =>
    obtain ⟨hscan, hrecs, hnodes⟩ := ih (endRecord m r failed cause)
    have h := endRecord_ends m r failed cause
    refine ⟨fun c => (hscan c).trans (h.scan c), fun x hx => ?_, h.nodes.trans hnodes⟩
    obtain ⟨hx, hne⟩ := hrecs x hx
    rw [h.records, List.mem_filter, bne_iff_ne] at hx
    exact ⟨hx.1, List.forall_mem_cons.2 ⟨hx.2, hne⟩⟩

/-! ### The start of a scan pass -/

/-- Have fewer than 40,000 ticks passed since the last pass of a cluster started? -/
def scanEarly (m : Mach) (cl : Nat) : Bool :=
  match (getCluster m cl).scanStart with
  | some t => decide (m.nowt < t + 40000)
  | none => false

section
variable {s : State} {cl t : Nat} (hstart : (getCluster s.m cl).scanStart = some t)
include hstart

theorem exec_scanPassStart_early (hrun : s.m.phase = .running) (hearly : s.m.nowt < t + 40000) : exec
    (.scanPassStart cl) s = .next s := by
  rw [exec_scanPassStart, execScanPassStart, whenRunning, onMach]
  refine next_congr ((if_pos hrun).trans (if_pos (.inr (.inl ?_))))
  rw [hstart]
  exact decide_eq_true hearly

theorem scanPassStart_due (hcl : cl < 64) (hlate : t + 40000 ≤ s.m.nowt)
    (hdrain : ∀ c ∈ clusterCores cl, (getCore s.m c).scan.draining = false) :
    ¬(64 ≤ cl ∨ scanEarly s.m cl = true ∨
      ((clusterCores cl).any fun c => (getCore s.m c).scan.draining) = true) := by
  rw [scanEarly, hstart]
  rintro (h | h | h)
  · omega
  · exact absurd (of_decide_eq_true h) (by omega)
  · obtain ⟨c, hc, hd⟩ := List.any_eq_true.1 h
    rw [hdrain c hc] at hd
    exact Bool.false_ne_true hd

theorem exec_scanPassStart_none (hrun : s.m.phase = .running) (hcl : cl < 64) (hlate : t + 40000 ≤ s.m.nowt)
    (hdrain : ∀ c ∈ clusterCores cl, (getCore s.m c).scan.draining = false) (htarget : scanTarget s.m cl = none) :
    exec (.scanPassStart cl) s = .next s := by
  rw [exec_scanPassStart, execScanPassStart, whenRunning, onMach]
  refine next_congr ((if_pos hrun).trans ((if_neg (scanPassStart_due hstart hcl hlate hdrain)).trans ?_))
  rw [htarget]

/-- What a scan pass that starts sets at its core. -/
def scanStarted (m : Mach) (k : Core) : Core :=
  if holdsClass2 k then { k with scan := { k.scan with due := true } }
  else { k with scan := { k.scan with draining := true, began := m.nowt, beganStep := m.fresh } }

/-- What a scan pass that starts sets at its cluster. -/
def scanTaken (m : Mach) (cl c : Nat) : Cluster :=
  { getCluster m cl with
    scanStart := some m.nowt
    scanNext := if scanTurn m cl = some c then (c % 18 + 1) % 18 else (getCluster m cl).scanNext }

theorem exec_scanPassStart_some (hrun : s.m.phase = .running) (hcl : cl < 64) (hlate : t + 40000 ≤ s.m.nowt)
    (hdrain : ∀ c ∈ clusterCores cl, (getCore s.m c).scan.draining = false) {c : Nat}
        (htarget : scanTarget s.m cl = some c) :
    exec (.scanPassStart cl) s =
      .next { s with m := modCore (setCluster s.m cl (scanTaken s.m cl c)) c (scanStarted s.m) } := by
  rw [exec_scanPassStart, execScanPassStart, whenRunning, onMach]
  refine next_congr ((if_pos hrun).trans ((if_neg (scanPassStart_due hstart hcl hlate hdrain)).trans ?_))
  rw [htarget]
  dsimp only
  have hcore : getCore (setCluster s.m cl (scanTaken s.m cl c)) c = getCore s.m c := rfl
  by_cases h2 : holdsClass2 (getCore s.m c) = true
  · refine (if_pos h2).trans (congrArg (setCore _ c) ?_)
    exact (if_pos h2).symm
  · refine (if_neg h2).trans (congrArg (setCore _ c) ?_)
    exact (if_neg h2).symm

end

/-! ### The end of a scan pass -/

/-- Marks of the units that ended on a core before a pass began: the pass covers them. -/
def coverRan (core step : Nat) (n : Node) : Node :=
  { n with ran := n.ran.map fun r => if r.core = core ∧ r.step < step then { r with cleared := true } else r }

/-- Does a pass cover what a node's launch ran on a core? -/
structure Covered (core step : Nat) (n : Node) : Prop where
  cleared : ∀ r ∈ n.ran, r.core = core → r.step < step → r.cleared = true

theorem covered_coverRan (core step : Nat) (n : Node) : Covered core step (coverRan core step n) := by
  refine ⟨fun r hr hcore hstep => ?_⟩
  obtain ⟨r0, -, rfl⟩ := List.mem_map.1 hr
  split at hcore
  next h => rw [if_pos h]
  next h =>
    rw [if_neg h] at hstep
    exact absurd ⟨hcore, hstep⟩ h

theorem covered_foldl (core step : Nat) (ids : List Nat) (m : Mach) {i : Nat}
    (h : i ∈ ids ∨ Covered core step (getNode m i)) :
    Covered core step (getNode (ids.foldl (fun m i => modNode m i (coverRan core step)) m) i) := by
  induction ids generalizing m with
  | nil => exact h.resolve_left List.not_mem_nil
  | cons j ids ih =>
    refine ih _ ?_
    by_cases hj : i = j
    · subst hj
      rw [getNode_modNode]
      exact .inr (covered_coverRan ..)
    · rw [getNode_modNode_ne m hj]
      exact h.imp_left fun h => (List.mem_cons.1 h).resolve_left hj

theorem sameNodes_finalize (m : Mach) (i : Nat) : SameNodes m (finalize m i) := by
  unfold finalize
  dsimp only
  split
  · exact ⟨bumpNode_keeps uncounted m i (f := fun n => { n with final := true }) fun _ => rfl⟩
  · exact .refl m

theorem onlyCounted_finalize (m : Mach) (i : Nat) : OnlyCounted m (finalize m i) := by
  unfold finalize
  dsimp only
  split
  · exact onlyCounted_bumpNode ..
  · exact .refl m

/-- A value that a map gives, other than the one of unlisted keys, is listed in it. -/
theorem mem_of_smGet_ne {α : Type} {d : α} {m : SMap α} {k : Nat} (h : smGet d m k ≠ d) : (k, smGet d m k) ∈ m := by
  induction m with
  | nil => exact absurd rfl h
  | cons e m ih =>
    rw [smGet] at h ⊢
    split
    next hk => exact List.mem_cons.2 (.inl (by rw [← hk]))
    next hk =>
      rw [if_neg hk] at h
      exact List.mem_cons_of_mem _ (ih h)

theorem mem_ranThere {m : Mach} {core i : Nat} (hlive : (getNode m i).live = true) (hlevel : (getNode m i).level = 1)
    (hfinal : (getNode m i).final = false) (hran : ∃ r ∈ (getNode m i).ran, r.core = core ∧ r.cleared = false) :
    i ∈ ranThere m core := by
  have hlisted : (i, getNode m i) ∈ m.nodes := by
    refine mem_of_smGet_ne (d := ({} : Node)) fun h => ?_
    rw [show getNode m i = {} from h] at hlive
    exact Bool.false_ne_true hlive
  refine List.mem_map.2 ⟨(i, getNode m i), List.mem_filter.2 ⟨hlisted, ?_⟩, rfl⟩
  obtain ⟨r, hr, hcore, hcl⟩ := hran
  have hany : ((getNode m i).ran.any fun r => r.core == core && !r.cleared) = true :=
    List.any_eq_true.2 ⟨r, hr, by simp [hcore, hcl]⟩
  simp [hlive, hlevel, hfinal, hany]

/-- A core whose scan pass has passed. -/
def scanPassed (m : Mach) (core : Nat) : Mach :=
  setCore m core { getCore m core with
    scan := { lastBegan := (getCore m core).scan.began }
    scanPasses := (getCore m core).scanPasses + 1, scanTick := m.nowt }

theorem passPassed_eq (m : Mach) (core : Nat) : passPassed m core =
    (ranThere m core).foldl finalize ((ranThere m core).foldl
      (fun m1 i => modNode m1 i (coverRan core (getCore m core).scan.beganStep)) (scanPassed m core)) := rfl

theorem exec_scanPassEnd_busy {s : State} {core : Nat} {pass : Bool}
    (h : (getCore s.m core).scan.draining = false ∨ coreIdle (getCore s.m core) = false) :
    exec (.scanPassEnd core pass) s = .next s := by
  rw [exec_scanPassEnd, execScanPassEnd]
  exact congrArg Host.Outcome.next (if_pos (.inr (h.imp (fun h => by rw [h]; rfl) fun h => by rw [h]; rfl)))

section
variable {s : State} {core : Nat} (hrun : s.m.phase = .running) (hdrain : (getCore s.m core).scan.draining = true)
  (hidle : coreIdle (getCore s.m core) = true)
include hrun hdrain hidle

theorem exec_scanPassEnd_pass : exec (.scanPassEnd core true) s = .next { s with m := passPassed s.m core } := by
  rw [exec_scanPassEnd, execScanPassEnd]
  exact congrArg Host.Outcome.next ((if_neg (by simp [hrun, hdrain, hidle])).trans (if_pos rfl))

theorem exec_scanPassEnd_fail :
    exec (.scanPassEnd core false) s = .next (retireCore { s with m := passFailed s.m core } core) := by
  rw [exec_scanPassEnd, execScanPassEnd]
  exact congrArg Host.Outcome.next ((if_neg (by simp [hrun, hdrain, hidle])).trans (if_neg Bool.false_ne_true))

end

theorem passPassed_core (m : Mach) (core : Nat) : getCore (passPassed m core) core = { getCore m core with
    scan := { lastBegan := (getCore m core).scan.began }
    scanPasses := (getCore m core).scanPasses + 1, scanTick := m.nowt } := by
  have hc : OnlyCounted (scanPassed m core) (passPassed m core) :=
    (onlyCounted_foldl (fun m1 i => onlyCounted_modNode m1 i _) _ _).trans
        (onlyCounted_foldl onlyCounted_finalize _ _)
  rw [getCore, hc.cores]
  exact getCore_setCore ..

theorem covered_passPassed (m : Mach) (core : Nat) {i : Nat} (hlive : (getNode m i).live = true)
    (hlevel : (getNode m i).level = 1) (hfinal : (getNode m i).final = false) :
    Covered core (getCore m core).scan.beganStep (getNode (passPassed m core) i) := by
  have hfold : Covered core (getCore m core).scan.beganStep (getNode ((ranThere m core).foldl
      (fun m1 i => modNode m1 i (coverRan core (getCore m core).scan.beganStep)) (scanPassed m core)) i) := by
    refine covered_foldl _ _ _ (scanPassed m core) ?_
    refine or_iff_not_imp_left.2 fun hout => ⟨fun r hr hcore _ => ?_⟩
    refine (Bool.not_eq_false _).mp fun hcl => hout ?_
    exact mem_ranThere hlive hlevel hfinal ⟨r, hr, hcore, hcl⟩
  have hsame := sameNodes_foldl sameNodes_finalize (ranThere m core) ((ranThere m core).foldl
      (fun m1 i => modNode m1 i (coverRan core (getCore m core).scan.beganStep)) (scanPassed m core))
  rw [passPassed_eq]
  exact ⟨fun r hr => hfold.cleared r (hsame.ran i ▸ hr)⟩

/-! ### A pass that fails -/

/-- A launch that a failed pass does not cover is tainted, and reported. -/
def taint (core : Nat) (m : Mach) (i : Nat) : Mach :=
  let m := bumpNode m i (fun n => { n with tainted := true })
  let n := getNode m i
  hostEvent m n.owner 8 0 (clusterOf core) 0 n.recVa.toNat

/-- A core whose scan pass has failed. -/
def scanFailed (m : Mach) (core : Nat) : Mach :=
  modCore m core fun k => { k with scan := { k.scan with draining := false, due := false } }

/-- The records that end with a core: those that have it as their home core. -/
def homeRecords (m : Mach) (core : Nat) : List Record := m.records.filter fun r => r.home == core && r.image.isSome

theorem passFailed_eq (m : Mach) (core : Nat) : passFailed m core =
    countOwed ((homeRecords ((ranThere m core).foldl (taint core) (scanFailed m core)) core).foldl
      (fun m r => endRecord m r true 0x19) ((ranThere m core).foldl (taint core) (scanFailed m core))) := rfl

theorem onlyCounted_taint (core : Nat) (m : Mach) (i : Nat) : OnlyCounted m (taint core m i) :=
  (onlyCounted_bumpNode ..).trans (onlyCounted_hostEvent ..)

theorem taint_tainted (core : Nat) (m : Mach) {i j : Nat} (h : i = j ∨ (getNode m i).tainted = true) :
    (getNode (taint core m j) i).tainted = true := by
  rw [taint, getNode_hostEvent]
  by_cases hij : i = j
  · rw [hij, getNode_bumpNode]
  · rw [getNode_bumpNode_ne m hij]
    exact h.resolve_left hij

theorem taint_foldl (core : Nat) (ids : List Nat) (m : Mach) {i : Nat} (h : i ∈ ids ∨ (getNode m i).tainted = true) :
    (getNode (ids.foldl (taint core) m) i).tainted = true := by
  induction ids generalizing m with
  | nil => exact h.resolve_left List.not_mem_nil
  | cons j ids ih =>
    refine ih _ ?_
    rcases h with h | h
    · exact (List.mem_cons.1 h).symm.imp_right fun h => taint_tainted core m (.inl h)
    · exact .inr (taint_tainted core m (.inr h))

theorem passFailed_facts (m : Mach) (core : Nat) : (getCore (passFailed m core) core).scan.draining = false ∧
    (∀ i ∈ ranThere m core, (getNode (passFailed m core) i).tainted = true) ∧
    ∀ r ∈ (passFailed m core).records, r.home = core → r.image = none := by
  have htaint : OnlyCounted (scanFailed m core) ((ranThere m core).foldl (taint core) (scanFailed m core)) :=
    onlyCounted_foldl (onlyCounted_taint core) _ _
  have hset := fun i hi => taint_foldl core (ranThere m core) (scanFailed m core) (i := i) (.inl hi)
  rw [passFailed_eq]
  generalize (ranThere m core).foldl (taint core) (scanFailed m core) = m1 at htaint hset ⊢
  obtain ⟨hscan, hrecs, hnodes⟩ := endRecords_facts true 0x19 (homeRecords m1 core) m1
  generalize (homeRecords m1 core).foldl (fun m r => endRecord m r true 0x19) m1 = m2 at hscan hrecs hnodes ⊢
  have howed := onlyCounted_countOwed m2
  refine ⟨?_, fun i hi => ?_, fun r hr hhome => ?_⟩
  · have hfailed : (getCore (scanFailed m core) core).scan =
        { (getCore m core).scan with draining := false, due := false } :=
      congrArg Core.scan (getCore_modCore m core fun k =>
          { k with scan := { k.scan with draining := false, due := false } })
    rw [getCore, howed.cores, ← getCore, hscan, getCore, htaint.cores, ← getCore, hfailed]
  · rw [(sameNodes_countOwed m2).tainted, hnodes.tainted]
    exact hset i hi
  · rw [howed.records] at hr
    obtain ⟨hr1, hne⟩ := hrecs r hr
    refine Option.not_isSome_iff_eq_none.1 fun himage => ?_
    exact hne r (List.mem_filter.2 ⟨hr1, by simp [hhome, himage]⟩) rfl

/-! ### Retirement -/

/-- A compute core in service that holds no running context. -/
structure CoreWorks (m : Mach) (c : Nat) : Prop where
  compute : c < 1152
  idle : coreIdle (getCore m c) = true
  kept : smGet false m.retired c = false

theorem CoreWorks.control {m : Mach} {c : Nat} (h : CoreWorks m c) : isControl c = false :=
  decide_eq_false (not_le.2 h.compute)

theorem coreWorks_of (m : Mach) (c : Nat) (hc : isControl c = false) (hr : smGet false m.retired c = false)
    (hi : coreIdle (getCore m c) = true) : CoreWorks m c :=
  ⟨not_le.1 (of_decide_eq_false hc), hi, hr⟩

theorem exec_retireCore_eq {s : State} (c : Nat) (hrun : s.m.phase = .running) : exec (.retirement (.core c)) s =
    .next
    (if isControl c = true ∨ smGet false s.m.retired c = true ∨ (!(getCore s.m c).retireDue) = true ∨
        (!(coreIdle (getCore s.m c))) = true then s else retireCore s c) := by
  rw [exec_retirement, execRetirement]
  exact congrArg Host.Outcome.next (if_neg (by simp [hrun]))

/-- A core with a spare bank in use in place of one of its banks. -/
def bankReplaced (s : State) (c b : Nat) : State :=
  ⟨setCore s.m c { getCore s.m c with
      spareBanks := (getCore s.m c).spareBanks + 1, bankErrs := smDel (getCore s.m c).bankErrs b
      banksDue := (getCore s.m c).banksDue.filter (· != b) },
    { s.trust with retirements := s.trust.retirements ++ [.bank c b] }⟩

theorem exec_retireBank_eq {s : State} (c b : Nat) (hrun : s.m.phase = .running) :
    exec (.retirement (.bank c b)) s = .next
      (if isControl c = true ∨ smGet false s.m.retired c = true ∨ (!((getCore s.m c).banksDue.contains b)) = true ∨
          (!(coreIdle (getCore s.m c))) = true then s
        else if 2 ≤ (getCore s.m c).spareBanks then retireCore s c else bankReplaced s c b) := by
  rw [exec_retirement, execRetirement]
  exact congrArg Host.Outcome.next (if_neg (by simp [hrun]))

theorem exec_retirePort_eq {s : State} (p : Nat) (hrun : s.m.phase = .running) :
    exec (.retirement (.port p)) s = .next
      (if 64 ≤ p ∨ s.trust.retirements.contains (.port p) = true ∨
          ((!(getLink s.m p).retireDue) = true ∧ (!(getLink s.m p).down) = true) ∨ (!(replayEmpty (getLink s.m p)))
              = true then s
        else ⟨if (getLink s.m p).down = true then { s.m with portsDown := smPut false s.m.portsDown p true }
          else pf0Event { s.m with portsDown := smPut false s.m.portsDown p true } 6 0 0,
          { s.trust with retirements := s.trust.retirements ++ [.port p] }⟩) := by
  rw [exec_retirement, execRetirement]
  exact congrArg Host.Outcome.next (if_neg (by simp [hrun]))

end Sys2Proof.Machine

open Sys2Proof Sys2Proof.Machine

/-- Settles O48: the start of a pass by its target; its end by what covers a launch (passed), or by the launches
    and records it
ends (failed), each followed through the counting that comes after; retirements by their conditions. -/
theorem scanAndRetirement : Obligations.ScanAndRetirement := by
  unfold Obligations.ScanAndRetirement
  refine ⟨fun s cl t hrun hcl hstart => ⟨exec_scanPassStart_early hstart hrun, fun hlate hdrain => ⟨fun c htarget =>
      ⟨_, exec_scanPassStart_some hstart hrun hcl hlate hdrain htarget, ?_, ?_, ?_, rfl⟩,
      exec_scanPassStart_none hstart hrun hcl hlate hdrain⟩⟩,
    fun s core pass hrun => ⟨exec_scanPassEnd_busy, fun hdrain hidle => ⟨fun hpass => ?_, fun hpass => ?_⟩⟩,
    fun s c b p hrun => ⟨fun hw hdue => ?_, fun h => ?_, fun hw hb => ⟨fun h2 => ?_, fun h2 => ?_⟩, fun h => ?_,
      fun hp hnew h => ?_, fun h => ?_⟩⟩
  · exact congrArg Cluster.scanStart (smGet_put_same {} s.m.clusters cl (scanTaken s.m cl c))
  · exact congrArg Cluster.scanNext (smGet_put_same {} s.m.clusters cl (scanTaken s.m cl c))
  · have hcore : getCore (modCore (setCluster s.m cl (scanTaken s.m cl c)) c (scanStarted s.m)) c =
        scanStarted s.m (getCore s.m c) := getCore_modCore ..
    rw [hcore, scanStarted]
    exact apply_ite Core.scan ..
  · subst hpass
    have hcore := passPassed_core s.m core
    refine ⟨_, exec_scanPassEnd_pass hrun hdrain hidle, ?_, ?_, fun i hlive hlevel hfinal =>
      (covered_passPassed s.m core hlive hlevel hfinal).cleared⟩
    · rw [hcore]
    · rw [hcore]
  · subst hpass
    obtain ⟨hscan, htaint, hrecs⟩ := passFailed_facts s.m core
    exact ⟨_, exec_scanPassEnd_fail hrun hdrain hidle,
      smGet_put_same false (passFailed s.m core).retired core true, rfl, hscan, htaint, hrecs⟩
  · have hw : CoreWorks s.m c := ⟨hw.1, hw.2.1, hw.2.2⟩
    rw [exec_retireCore_eq c hrun, if_neg (by simp [hw.control, hw.kept, hw.idle, hdue])]
    rfl
  · rw [exec_retireCore_eq c hrun, if_pos ?_]
    by_contra hno
    simp only [not_or, Bool.not_eq_true', Bool.not_eq_true, Bool.not_eq_false] at hno
    obtain ⟨hctl, hret, hdue, hidle⟩ := hno
    have hw := coreWorks_of s.m c hctl hret hidle
    rcases h with h | h
    · exact h ⟨hw.compute, hw.idle, hw.kept⟩
    · simp [h] at hdue
  · have hw : CoreWorks s.m c := ⟨hw.1, hw.2.1, hw.2.2⟩
    rw [exec_retireBank_eq c b hrun, if_neg (by simp [hw.control, hw.kept, hw.idle, hb]), if_pos h2]
    rfl
  · have hw : CoreWorks s.m c := ⟨hw.1, hw.2.1, hw.2.2⟩
    rw [exec_retireBank_eq c b hrun, if_neg (by simp [hw.control, hw.kept, hw.idle, hb]), if_neg (not_le.2 h2)]
    rfl
  · rw [exec_retireBank_eq c b hrun, if_pos ?_]
    by_contra hno
    simp only [not_or, Bool.not_eq_true', Bool.not_eq_true, Bool.not_eq_false] at hno
    obtain ⟨hctl, hret, hdue, hidle⟩ := hno
    have hw := coreWorks_of s.m c hctl hret hidle
    rcases h with h | h
    · exact h ⟨hw.compute, hw.idle, hw.kept⟩
    · exact h (List.contains_iff_mem.1 hdue)
  · rw [exec_retirePort_eq p hrun, if_neg ?_]
    rintro (h' | h' | h' | h')
    · omega
    · rw [hnew] at h'
      exact Bool.false_ne_true h'
    · rcases h with h | h <;> simp [h] at h'
    · rcases h with h | h <;> simp [h, replayEmpty] at h'
  · rw [exec_retirePort_eq p hrun, if_pos ?_]
    rcases h with h | ⟨hd, h | h⟩
    · exact .inl h
    · exact .inr (.inr (.inl (by simp [hd, h])))
    · exact .inr (.inr (.inr (by simp [hd, h, replayEmpty])))
end

section
/-!
PROOFS. Requests to pre-empt, slice ends and posted slice ends.
-/
namespace Sys2Proof.Machine

/-- The context of a request once it has been made: its loop clamped, the request in it. -/
theorem getCtx_requestPre (m : Mach) (core i : Nat) (src : PreSrc) (slot : Option (Nat × Nat)) :
    getCtx (requestPre m core i src slot) core i = { clampLoop (getCtx m core i) with
      pre := some { src := src, stopped := none, acks := 0, saved := false, slot := slot } } :=
  getCtx_modCtx ..

theorem getCtx_requestPre_ne (m : Mach) {core i k j : Nat} (h : k ≠ core ∨ j ≠ i) (src : PreSrc)
    (slot : Option (Nat × Nat)) :
    getCtx (requestPre m core i src slot) k j = getCtx m k j := getCtx_modCtx_ne m _ h

theorem canPreempt_not {m : Mach} {core i : Nat} (h : canPreempt (getCtx m core i) = true) :
    ¬(!(canPreempt (getCtx m core i))) = true := by
  rw [h]
  exact Bool.false_ne_true

section
variable {s : State} {core i : Nat} (hrun : s.m.phase = .running)
include hrun

theorem exec_preemptRequest_unable (src : PreSrc) (h : canPreempt (getCtx s.m core i) = false) :
    exec (.preemptRequest core i src) s = .next s := by
  rw [exec_preemptRequest, execPreemptRequest, whenRunning, onMach]
  exact next_congr ((if_pos hrun).trans (if_pos (by rw [h]; rfl)))

section
variable (h : canPreempt (getCtx s.m core i) = true)
include h

theorem exec_preemptRequest_host :
    exec (.preemptRequest core i .host) s = .next { s with m := requestPre s.m core i .host none } := by
  rw [exec_preemptRequest, execPreemptRequest, whenRunning, onMach]
  exact next_congr ((if_pos hrun).trans (if_neg (canPreempt_not h)))

theorem exec_preemptRequest_recall (hr : recallStops s.m core (getCtx s.m core i) = true) :
    exec (.preemptRequest core i .recall) s = .next { s with m := requestPre s.m core i .recall none } := by
  rw [exec_preemptRequest, execPreemptRequest, whenRunning, onMach]
  exact next_congr ((if_pos hrun).trans ((if_neg (canPreempt_not h)).trans (if_pos hr)))

theorem exec_preemptRequest_scan (hd : (getCore s.m core).scan.draining = true)
    (hc : pclassOf (getCtx s.m core i) ≤ 1) :
    exec (.preemptRequest core i .scan) s = .next { s with m := requestPre s.m core i .scan none } := by
  rw [exec_preemptRequest, execPreemptRequest, whenRunning, onMach]
  exact next_congr ((if_pos hrun).trans ((if_neg (canPreempt_not h)).trans (if_pos ⟨hd, hc⟩)))

theorem exec_preemptRequest_park {x : Hold} (hx : (getCtx s.m core i).hold = some x) :
    exec (.preemptRequest core i .park) s =
      .next { s with m := if x.park then requestPre s.m core i .park none else s.m } := by
  rw [exec_preemptRequest, execPreemptRequest, whenRunning, onMach]
  refine next_congr ((if_pos hrun).trans ((if_neg (canPreempt_not h)).trans ?_))
  dsimp only
  rw [hx]

end

theorem exec_sliceEnd_eq : exec (.sliceEnd core i) s = .next { s with m := sliceEnds s.m core i } := by
  rw [exec_sliceEnd, execSliceEnd, whenRunning, onMach]
  exact next_congr (if_pos hrun)

theorem exec_preemptRequest_slice (h : canPreempt (getCtx s.m core i) = true) :
    exec (.preemptRequest core i .slice) s = exec (.sliceEnd core i) s := by
  rw [exec_preemptRequest, execPreemptRequest, whenRunning, onMach, exec_sliceEnd_eq hrun]
  exact next_congr ((if_pos hrun).trans (if_neg (canPreempt_not h)))

end

/-! ### Slice ends -/

section
variable {m : Mach} {core i : Nat}

theorem sliceRequest_some {x : Nat × Nat} (hx : freeSlots m (getCtx m core i).area = some x) : sliceRequest m core i =
    requestPre (takeSlots m (getCtx m core i).area x) core i .slice (some x) := by
  unfold sliceRequest
  dsimp only
  rw [hx]

theorem sliceRequest_none (hx : freeSlots m (getCtx m core i).area = none) : sliceRequest m core i =
    modCtx m core i (fun c => { c with sliceStart := m.cycle }) := by
  unfold sliceRequest
  dsimp only
  rw [hx]

theorem sliceEnds_early (h : m.cycle < (getCtx m core i).sliceStart + (getCtx m core i).slice.toNat % 2 ^ 32) :
    sliceEnds m core i = m := if_pos (.inr h)

section
variable (hcan : canPreempt (getCtx m core i) = true)
  (hlate : (getCtx m core i).sliceStart + (getCtx m core i).slice.toNat % 2 ^ 32 ≤ m.cycle)
include hcan hlate

theorem sliceEnds_due : ¬((!(canPreempt (getCtx m core i))) = true ∨
    m.cycle < (getCtx m core i).sliceStart + (getCtx m core i).slice.toNat % 2 ^ 32) := by
  rw [hcan]
  rintro (h | h)
  · exact Bool.false_ne_true h
  · omega

theorem sliceEnds_request (hclass : pclassOf (getCtx m core i) = 0) (hwait : unitWaits m core = true) :
    sliceEnds m core i = sliceRequest m core i :=
  (if_neg (sliceEnds_due hcan hlate)).trans (if_pos ⟨hclass, hwait⟩)

theorem sliceEnds_renew (h : pclassOf (getCtx m core i) ≠ 0 ∨ unitWaits m core = false) :
    sliceEnds m core i = modCtx m core i (fun c => { c with sliceStart := m.cycle }) := by
  refine (if_neg (sliceEnds_due hcan hlate)).trans (if_neg fun ⟨hclass, hwait⟩ => ?_)
  rcases h with h | h
  · exact h hclass
  · rw [h] at hwait
    exact Bool.false_ne_true hwait

end

/-! ### Posted slice ends -/

theorem postedEnd_refused (h : 1 ≤ pclassOf (getCtx m core i)) :
    postedEnd m core i = hostEvent m (ctxOwner (getCtx m core i)) 4 0 (getCtx m core i).area 0 0 := if_pos h

theorem postedEnd_unable (h : pclassOf (getCtx m core i) = 0) (hcan : canPreempt (getCtx m core i) = false) :
    postedEnd m core i = m := (if_neg (by omega)).trans (if_neg (Bool.eq_false_iff.1 hcan))

theorem postedEnd_request (h : pclassOf (getCtx m core i) = 0) (hcan : canPreempt (getCtx m core i) = true) :
    postedEnd m core i = sliceRequest m core i := (if_neg (by omega)).trans (if_pos hcan)

end

section
variable {s : State} {core i : Nat} (hrun : s.m.phase = .running)
include hrun

theorem exec_postedTrigger_none (hp : (getCtx s.m core i).posted = none) :
    exec (.postedSliceEndTrigger core i) s = .next s := by
  rw [exec_postedSliceEndTrigger, execPostedSliceEndTrigger, whenRunning, onMach]
  refine next_congr ((if_pos hrun).trans ?_)
  rw [hp]

theorem exec_postedTrigger_some {e v : Nat} (hp : (getCtx s.m core i).posted = some (e, v)) :
    exec (.postedSliceEndTrigger core i) s = .next ⟨if smGet 0 (getCore s.m core).eiss e < v then s.m
      else postedEnd (modCtx s.m core i (fun c => { c with posted := none })) core i, s.trust⟩ := by
  rw [exec_postedSliceEndTrigger, execPostedSliceEndTrigger, whenRunning, onMach]
  refine next_congr ((if_pos hrun).trans ?_)
  rw [hp]

end

end Sys2Proof.Machine

open Sys2Proof Sys2Proof.Machine

/-- Settles O35: the request at its context; each source of a request, each case of a slice end and of a posted
    one. -/
theorem preemptionRequests : Obligations.PreemptionRequests := by
  unfold Obligations.PreemptionRequests
  refine ⟨fun m core i src slot =>
      ⟨rfl, fun k j h => getCtx_requestPre_ne m h src slot, fun hloop => ?_, fun hloop => ?_⟩,
    fun s core i hrun => ⟨fun h src => exec_preemptRequest_unable hrun src h, fun h =>
        ⟨exec_preemptRequest_host hrun h,
      exec_preemptRequest_recall hrun h, exec_preemptRequest_scan hrun h, fun x => exec_preemptRequest_park hrun h,
      exec_preemptRequest_slice hrun h⟩, fun hearly => (exec_sliceEnd_eq hrun).trans
          (next_congr (sliceEnds_early hearly)),
      fun hcan hlate => ⟨fun x hclass hwait hx => (exec_sliceEnd_eq hrun).trans (next_congr
        ((sliceEnds_request hcan hlate hclass hwait).trans (sliceRequest_some hx))),
        fun h => (exec_sliceEnd_eq hrun).trans (next_congr (sliceEnds_renew hcan hlate h))⟩,
      fun e v hp => ⟨fun h => (exec_postedTrigger_some hrun hp).trans (next_congr (if_pos h)),
        fun h => (exec_postedTrigger_some hrun hp).trans (next_congr (if_neg (not_lt.2 h)))⟩,
            exec_postedTrigger_none hrun⟩,
    fun m core i => ⟨postedEnd_refused, postedEnd_unable, fun h hcan => ⟨fun x hx =>
      (postedEnd_request h hcan).trans (sliceRequest_some hx), fun hx => (postedEnd_request h hcan).trans
          (sliceRequest_none hx)⟩⟩⟩
  · rw [getCtx_requestPre]
    have hclamp : clampLoop (getCtx m core i) = { getCtx m core i with
        lrem := if (getCtx m core i).lc = 0 then 0 else (getCtx m core i).lc - 1, lc := 1
        lepi := (getCtx m core i).lepi ||| BitVec.ofNat 64 (2 ^ 62) } := if_pos hloop
    rw [hclamp]
  · rw [getCtx_requestPre]
    have hclamp : clampLoop (getCtx m core i) = getCtx m core i := if_neg (Bool.eq_false_iff.1 hloop)
    rw [hclamp]
end

section
/-!
PROOFS. The weir: stop points, engine acknowledgements, saved images and the record of a pre-empted unit.
-/
namespace Sys2Proof.Machine

theorem getCtx_modCore (m : Mach) (core i : Nat) {f : Core → Core} (hf : ∀ k, (f k).ctxs = k.ctxs) (c : Nat) :
    getCtx (modCore m core f) c i = getCtx m c i :=
  congrArg (fun l : SMap Ctx => smGet ({} : Ctx) l i) (modCore_keeps Core.ctxs m core hf c)

/-! ### Stop points -/

/-- Is a number of a command pending that is still in its context's issue queue? -/
def QueuedPend (m : Mach) (core i : Nat) (q : Pend) : Prop :=
  ∃ a ∈ (getAgent m (ctxAgent core i)).iq, a.tag = q.tag ∧ isCmd a.kind = true

/-- Has a context a row result on its way? -/
def RowDue (m : Mach) (core i : Nat) : Prop := ∃ f ∈ (getCore m core).rowFlight, f.ctx = i ∧ m.cycle < f.landAt

theorem lt_foldl_max {α : Type} (f : α → Nat) (l : List α) (a n : Nat) :
    n < l.foldl (fun a x => max a (f x)) a ↔ n < a ∨ ∃ x ∈ l, n < f x := by
  induction l generalizing a with
  | nil => simp
  | cons x l ih => simp [ih, or_assoc]

theorem rowDue_iff (m : Mach) (core i : Nat) : m.cycle < rowsLandBy (getCore m core) i ↔ RowDue m core i := by
  rw [rowsLandBy, lt_foldl_max]
  simp [RowDue, and_assoc]

theorem all_queued_iff (m : Mach) (core i : Nat) :
    (getCtx m core i).pend.all (queuedNumbers m core i).contains = true ↔
      ∀ q ∈ (getCtx m core i).pend, QueuedPend m core i q := by
  rw [List.all_eq_true]
  refine forall₂_congr fun q hq => ?_
  rw [List.contains_iff_mem, queuedNumbers, List.mem_filter, List.any_eq_true]
  simp [hq, QueuedPend]

section
variable {s : State} {core i : Nat} (hrun : s.m.phase = .running)
include hrun

theorem exec_stopPoint_not (h : atStop (getCtx s.m core i) = false) : exec (.stopPointReached core i) s = .next s
    := by
  rw [exec_stopPointReached, execStopPointReached, whenRunning, onMach]
  exact next_congr ((if_pos hrun).trans (if_pos (by rw [h]; rfl)))

theorem exec_stopPoint_cancelled (h : atStop (getCtx s.m core i) = true) (hcan : (getCtx s.m core i).cancelled = true)
    (hpre : ∀ p, (getCtx s.m core i).pre = some p → p.stopped = none) :
    exec (.stopPointReached core i) s = .next { s with m := beginEnd s.m core i .cancelled } := by
  rw [exec_stopPointReached, execStopPointReached, whenRunning, onMach]
  refine next_congr ((if_pos hrun).trans ((if_neg (by simp [h])).trans (if_pos ?_)))
  rw [hcan, Bool.true_and]
  cases hp : (getCtx s.m core i).pre with
  | none => rfl
  | some p =>
    dsimp only
    rw [hpre p hp]
    rfl

theorem exec_stopPoint_request {p : PreEmpt} (h : atStop (getCtx s.m core i) = true)
    (hcan : (getCtx s.m core i).cancelled = false) (hp : (getCtx s.m core i).pre = some p)
        (hstop : p.stopped = none) :
    exec (.stopPointReached core i) s = .next { s with
      m := if s.m.cycle < rowsLandBy (getCore s.m core) i ∨
          (!((getCtx s.m core i).pend.all (queuedNumbers s.m core i).contains)) = true then s.m
        else ackContext s.m core i p } := by
  rw [exec_stopPointReached, execStopPointReached, whenRunning, onMach]
  refine next_congr ((if_pos hrun).trans ((if_neg (by simp [h])).trans ((if_neg (by simp [hcan])).trans ?_)))
  rw [hp]
  exact if_congr (by simp [hstop]) rfl rfl

end

/-- What the weir records when a context has acknowledged. -/
def acked (m : Mach) (core i : Nat) (p : PreEmpt) (x : Nat × Nat) : PreEmpt :=
  let c := getCtx m core i
  let queue : Option Nat := match c.wait with
    | some (.queue q) => if (getQueue m q).waiters.contains (core, i) then some q else none
    | _ => none
  { p with
    slot := some x, stopped := some m.cycle, recId := m.recSeq + 1
    wkind := if c.hold.isSome then 5 else if queue.isSome then 4 else 0
    wobj := match c.hold with | some h => h.cause.toNat | none => queue.getD 0 }

/-- The machine once a context has acknowledged, with its slots taken. -/
def ackedMach (m : Mach) (core i : Nat) (p : PreEmpt) (x : Nat × Nat) : Mach :=
  let m1 := leaveQueues (settle { m with recSeq := m.recSeq + 1 } core i) core i
  stopCmds (modCtx m1 core i fun c =>
    { c with pre := some (acked m core i p x), wait := if c.hold.isSome then some .held else none }) core i false

section
variable {m : Mach} {core i : Nat} {p : PreEmpt} (hpend : (getCtx m core i).pend = [])
include hpend

theorem queuedNumbers_nil : queuedNumbers m core i = [] := by
  rw [queuedNumbers, hpend]
  rfl

theorem ackContext_slot {x : Nat × Nat} (hslot : p.slot = some x) : ackContext m core i p = ackedMach m core i p x
    := by
  unfold ackContext
  rw [queuedNumbers_nil hpend, List.foldl_nil]
  dsimp only
  rw [hslot]
  rfl

theorem ackContext_free {x : Nat × Nat} (hslot : p.slot = none)
    (hfree : freeSlots m (getCtx m core i).area = some x) :
    ackContext m core i p = ackedMach (takeSlots m (getCtx m core i).area x) core i p x := by
  unfold ackContext
  rw [queuedNumbers_nil hpend, List.foldl_nil]
  dsimp only
  rw [hslot, hfree]
  rfl

theorem ackContext_full (hslot : p.slot = none) (hfree : freeSlots m (getCtx m core i).area = none) :
    ackContext m core i p = areaRefused m core i 0x11 0 := by
  unfold ackContext
  rw [queuedNumbers_nil hpend, List.foldl_nil]
  dsimp only
  rw [hslot, hfree]
  rfl

end

theorem stopCmds_ctx (m : Mach) (core i : Nat) (cancel : Bool) (c j : Nat) :
    getCtx (stopCmds m core i cancel) c j = getCtx m c j := by
  unfold stopCmds
  refine getCtx_modCore m core j (fun _ => ?_) c
  rfl

theorem getCtx_leaveQueues (m : Mach) (core i c j : Nat) : getCtx (leaveQueues m core i) c j = getCtx m c j := rfl

theorem getCtx_recSeq (m : Mach) (n c j : Nat) : getCtx { m with recSeq := n } c j = getCtx m c j := rfl

theorem getCore_recSeq (m : Mach) (n c : Nat) : getCore { m with recSeq := n } c = getCore m c := rfl

theorem getCtx_ackedMach (m : Mach) (core i : Nat) (p : PreEmpt) (x : Nat × Nat) :
    getCtx (ackedMach m core i p x) core i = { landAll (getCtx m core i) with
      landBy := rowsLandBy (getCore m core) i, pre := some (acked m core i p x)
      wait := if (landAll (getCtx m core i)).hold.isSome then some .held else none } := by
  unfold ackedMach
  dsimp only
  rw [stopCmds_ctx, getCtx_modCtx, getCtx_leaveQueues, getCtx_settle, getCtx_recSeq, getCore_recSeq]

theorem ackedMach_facts (m : Mach) (core i : Nat) (p : PreEmpt) (x : Nat × Nat) : (ackedMach m core i p x).mem =
    m.mem ∧
    (∃ p', (getCtx (ackedMach m core i p x) core i).pre = some p' ∧ p'.stopped = some m.cycle ∧ p'.slot = some x ∧
      p'.recId = m.recSeq + 1) ∧
    (getCtx (ackedMach m core i p x) core i).flight = [] ∧
    (getCtx (ackedMach m core i p x) core i).sregs = (landAll (getCtx m core i)).sregs := by
  rw [getCtx_ackedMach]
  refine ⟨?_, ⟨acked m core i p x, rfl, rfl, rfl, rfl⟩, landAll_flight _, rfl⟩
  simp [ackedMach, stopCmds, settle, leaveQueues]

/-! ### Engine acknowledgements -/

/-- The machine once an engine context has acknowledged. -/
def engineAcked (m : Mach) (core i e : Nat) (p : PreEmpt) : Mach :=
  let nums := (stoppable m core i e).map (·.num)
  let m1 := modCore m core fun k => { k with
    cmds := smPut [] k.cmds e ((smGet [] k.cmds e).filter fun c => !(nums.contains c.num)) }
  let m2 := modCtx m1 core i fun c => { c with pre := some { p with
    acks := p.acks ||| BitVec.ofNat 4 (2 ^ e), rest := p.rest ++ (stoppable m core i e).map fun c =>
        (e, remainder c) } }
  wakeCore (advance m2 core e) core

theorem exec_engineStopAck_acks {s : State} {core i e : Nat} {p : PreEmpt} (hrun : s.m.phase = .running)
    (hp : (getCtx s.m core i).pre = some p) (hstop : p.stopped.isSome = true) (he : e < 4)
        (hack : p.acks.getLsbD e = false)
    (hidle : ∀ x ∈ stoppable s.m core i e,
      cmdIdle s.m core e x = true ∧ x.cwSent = false ∧ cmdResult s.m core e x = none) :
    exec (.engineStopAck core i e) s = .next { s with m := engineAcked s.m core i e p } := by
  rw [exec_engineStopAck, execEngineStopAck, whenRunning, onMach]
  refine next_congr ((if_pos hrun).trans ?_)
  rw [hp]
  refine if_neg ?_
  rintro (h | h | h | h | h)
  · rw [Option.isNone_iff_eq_none] at h
    rw [h] at hstop
    exact Bool.false_ne_true hstop
  · omega
  · rw [hack] at h
    exact Bool.false_ne_true h
  · rw [List.all_eq_true.2 fun x hx => (hidle x hx).1] at h
    exact Bool.false_ne_true h
  · obtain ⟨x, hx, hbad⟩ := List.any_eq_true.1 h
    obtain ⟨-, hcw, hres⟩ := hidle x hx
    rw [hcw, hres] at hbad
    exact Bool.false_ne_true hbad

theorem wakeCore_pre (m : Mach) (core c i : Nat) : (getCtx (wakeCore m core) c i).pre = (getCtx m c i).pre := by
  by_cases hc : c = core
  · subst hc
    unfold getCtx wakeCore
    rw [getCore_modCore]
    refine rel_smGet_map (R := fun x y : Ctx => y.pre = x.pre)
      (f := fun e => if e.2.st = .stalled then { e.2 with retry := true } else e.2) {} rfl (fun e => ?_) _ i
    split
    · rfl
    · rfl
  · unfold getCtx wakeCore modCore
    rw [getCore_setCore_ne m hc]

/-- Waking the contexts of a core changes no other part of a core. -/
theorem wakeCore_keeps {α : Type} (g : Core → α) (hg : ∀ (k : Core) x, g { k with ctxs := x } = g k) (m : Mach)
    (core c : Nat) :
    g (getCore (wakeCore m core) c) = g (getCore m c) := by
  unfold wakeCore
  refine modCore_keeps g m core (fun k => ?_) c
  exact hg k _

/-- What the advance of a timeline leaves of a core. -/
theorem getCore_advance (m : Mach) (core e : Nat) : ∃ n, getCore (advance m core e) core = { getCore m core with
    etl := smPut 0 (getCore m core).etl e n
    cmds := smPut [] (getCore m core).cmds e ((smGet [] (getCore m core).cmds e).filter fun c => !c.ended) } :=
  ⟨_, getCore_setCore ..⟩

theorem engineAcked_facts (m : Mach) (core i e : Nat) (p : PreEmpt) : (engineAcked m core i e p).mem = m.mem ∧
    (getCtx (engineAcked m core i e p) core i).pre = some { p with
      acks := p.acks ||| BitVec.ofNat 4 (2 ^ e), rest := p.rest ++ (stoppable m core i e).map fun c =>
          (e, remainder c) } ∧
    ∀ x ∈ smGet [] (getCore (engineAcked m core i e p) core).cmds e, ∀ y ∈ stoppable m core i e, x.num ≠ y.num := by
  unfold engineAcked
  extract_lets nums m1 m2
  obtain ⟨n, hadv⟩ := getCore_advance m2 core e
  have hcmds : (getCore m2 core).cmds =
      smPut [] (getCore m core).cmds e ((smGet [] (getCore m core).cmds e).filter fun c => !(nums.contains c.num))
          := by
    have h2 : (getCore m2 core).cmds = (getCore m1 core).cmds := by
      unfold m2 modCtx setCtx
      refine modCore_keeps Core.cmds m1 core (fun _ => ?_) core
      rfl
    rw [h2]
    exact congrArg Core.cmds (getCore_modCore m core _)
  refine ⟨?_, ?_, fun x hx y hy hxy => ?_⟩
  · simp [m2, m1, wakeCore, advance]
  · rw [wakeCore_pre, getCtx, hadv]
    exact congrArg Ctx.pre (getCtx_modCtx m1 core i _)
  · rw [wakeCore_keeps Core.cmds (fun _ _ => rfl), hadv] at hx
    dsimp only at hx
    rw [smGet_put_same, List.mem_filter, hcmds, smGet_put_same, List.mem_filter] at hx
    obtain ⟨⟨-, hnot⟩, -⟩ := hx
    rw [Bool.not_eq_true', ← Bool.not_eq_true, List.contains_iff_mem] at hnot
    exact hnot (List.mem_map.2 ⟨y, hy, hxy.symm⟩)

/-! ### Remote loads are abandoned -/

/-- Gives up the requests of a command that are not answered. -/
def abandonReqs (c : Cmd) : Cmd := { c with reqs := c.reqs.filter (·.answered), next := 0 }

/-- Gives back the slot of a request. -/
def freeSlot (core : Nat) (m : Mach) (q : Req) : Mach :=
  modCore m core (fun k => { k with rqUsed := smPut 0 k.rqUsed q.pkg (smGet 0 k.rqUsed q.pkg - 1) })

/-- A remote load abandons what it has outstanding. -/
def abandon (core : Nat) (m : Mach) (c : Cmd) : Mach :=
  if c.kind ≠ 2 then m
  else
    let m := (c.reqs.filter (fun q => !q.answered && q.slot)).foldl (freeSlot core) m
    if c.reqs.any (fun q => !q.answered) then wakeCore (modCmd m core 3 c.num abandonReqs) core
    else m

theorem exec_collectiveStop_eq {s : State} {core i t : Nat} {p : PreEmpt} (hrun : s.m.phase = .running)
    (hp : (getCtx s.m core i).pre = some p) (hstop : p.stopped = some t) :
    exec (.collectiveStopExpiry core i) s = .next { s with
      m := if s.m.cycle < t + 10000 then s.m else (stoppable s.m core i 3).foldl (abandon core) s.m } := by
  rw [exec_collectiveStopExpiry, execCollectiveStopExpiry, whenRunning, onMach]
  refine next_congr ((if_pos hrun).trans ?_)
  rw [hp, Option.bind_some, hstop]
  rfl

/-- The commands of the collective engine of a core. -/
def collCmds (m : Mach) (core : Nat) : List Cmd := smGet [] (getCore m core).cmds 3

theorem collCmds_freeSlot (core : Nat) (m : Mach) (q : Req) : collCmds (freeSlot core m q) core = collCmds m core
    := by
  unfold freeSlot
  refine modCore_keeps (fun k => smGet [] k.cmds 3) m core (fun _ => ?_) core
  rfl

theorem collCmds_freed (core : Nat) (qs : List Req) (m : Mach) :
    collCmds (qs.foldl (freeSlot core) m) core = collCmds m core :=
  foldl_keeps (collCmds · core) (fun m q => collCmds_freeSlot core m q) qs m

theorem collCmds_modCmd (m : Mach) (core num : Nat) (f : Cmd → Cmd) : collCmds (modCmd m core 3 num f) core =
    (collCmds m core).map fun x => if x.num = num then f x else x := by
  unfold collCmds modCmd
  rw [getCore_modCore]
  exact smGet_put_same ..

/-- One step leaves the commands, or abandons what those of its number have outstanding. -/
theorem collCmds_abandon (core : Nat) (m : Mach) (c : Cmd) : collCmds (abandon core m c) core =
    if c.kind = 2 ∧ c.reqs.any (fun q => !q.answered) = true then
      (collCmds m core).map fun x => if x.num = c.num then abandonReqs x else x
    else collCmds m core := by
  unfold abandon
  by_cases hk : c.kind = 2
  · rw [if_neg (not_not.2 hk)]
    dsimp only
    by_cases hany : c.reqs.any (fun q => !q.answered) = true
    · rw [if_pos hany, if_pos ⟨hk, hany⟩]
      refine (wakeCore_keeps (fun k => smGet [] k.cmds 3) (fun _ _ => rfl) _ core core).trans ?_
      refine (collCmds_modCmd ..).trans ?_
      rw [collCmds_freed]
    · rw [if_neg hany, if_neg fun h => hany h.2]
      exact collCmds_freed core _ m
  · rw [if_pos hk, if_neg fun h => hk h.1]

/-- A command, perhaps with requests given up. -/
structure Abandoned (x0 x : Cmd) : Prop where
  num : x.num = x0.num
  kind : x.kind = x0.kind
  ctx : x.ctx = x0.ctx
  ended : x.ended = x0.ended
  opt : x.opt = x0.opt
  reqs : ∀ q ∈ x.reqs, q ∈ x0.reqs

theorem Abandoned.refl (x : Cmd) : Abandoned x x := ⟨rfl, rfl, rfl, rfl, rfl, fun _ h => h⟩

theorem Abandoned.trans {x y z : Cmd} (h : Abandoned x y) (h' : Abandoned y z) : Abandoned x z :=
  ⟨h'.num.trans h.num, h'.kind.trans h.kind, h'.ctx.trans h.ctx, h'.ended.trans h.ended, h'.opt.trans h.opt,
    fun q hq => h.reqs q (h'.reqs q hq)⟩

theorem abandoned_abandonReqs (x : Cmd) : Abandoned x (abandonReqs x) :=
  ⟨rfl, rfl, rfl, rfl, rfl, fun _ hq => List.mem_of_mem_filter hq⟩

theorem Abandoned.stoppable {x0 x : Cmd} (h : Abandoned x0 x) (i : Nat) :
    (x.ctx == i && !x.ended && !(optIsGroup x)) = (x0.ctx == i && !x0.ended && !(optIsGroup x0)) := by
  rw [optIsGroup, optIsGroup, h.ctx, h.ended, h.kind, h.opt]

/-- What the commands of an engine become where those of a list abandon what they have outstanding. -/
theorem collCmds_abandons (core : Nat) (cs : List Cmd) (m : Mach) {x : Cmd}
    (hx : x ∈ collCmds (cs.foldl (abandon core) m) core) : ∃ x0 ∈ collCmds m core, Abandoned x0 x ∧
      ∀ c ∈ cs, c.num = x0.num → c.kind = 2 → c.reqs.any (fun q => !q.answered) = true → ∀ q ∈ x.reqs, q.answered =
          true := by
  induction cs generalizing m with
  | nil => exact ⟨x, hx, .refl x, by simp⟩
  | cons c cs ih =>
    obtain ⟨y, hy, hyx, hcs⟩ := ih (abandon core m c) hx
    rw [collCmds_abandon] at hy
    split at hy
    next hc =>
      obtain ⟨x0, hx0, rfl⟩ := List.mem_map.1 hy
      by_cases hnum : x0.num = c.num
      · rw [if_pos hnum] at hyx hcs
        refine ⟨x0, hx0, (abandoned_abandonReqs x0).trans hyx, List.forall_mem_cons.2 ⟨fun _ _ _ q hq => ?_, hcs⟩⟩
        exact (List.mem_filter.1 (hyx.reqs q hq)).2
      · rw [if_neg hnum] at hyx hcs
        exact ⟨x0, hx0, hyx, List.forall_mem_cons.2 ⟨fun h => absurd h.symm hnum, hcs⟩⟩
    next hc => exact ⟨y, hy, hyx, List.forall_mem_cons.2 ⟨fun _ hk hany => absurd ⟨hk, hany⟩ hc, hcs⟩⟩

theorem answered_abandons (m : Mach) (core i : Nat) :
    ∀ x ∈ stoppable ((stoppable m core i 3).foldl (abandon core) m) core i 3, x.kind = 2 → ∀ q ∈ x.reqs, q.answered
        = true := by
  intro x hx hkind q hq
  obtain ⟨hx, hstop⟩ := List.mem_filter.1 hx
  obtain ⟨x0, hx0, habd, hall⟩ := collCmds_abandons core _ m hx
  have hmem : x0 ∈ stoppable m core i 3 := List.mem_filter.2 ⟨hx0, by rw [← habd.stoppable i]; exact hstop⟩
  by_cases hany : x0.reqs.any (fun q => !q.answered) = true
  · exact hall x0 hmem rfl (habd.kind ▸ hkind) hany q hq
  · refine (Bool.not_eq_false _).mp fun hno => hany (List.any_eq_true.2 ⟨q, habd.reqs q hq, by rw [hno]; rfl⟩)

theorem abandon_mem (core : Nat) (m : Mach) (c : Cmd) : (abandon core m c).mem = m.mem := by
  have hfree (qs : List Req) (m : Mach) : (qs.foldl (freeSlot core) m).mem = m.mem :=
    foldl_mem (fun m q => modCore_mem ..) qs m
  unfold abandon
  dsimp only
  split
  · rfl
  · split
    · rw [wakeCore, modCore_mem, modCmd, modCore_mem, hfree]
    · exact hfree _ m

/-! ### The saved image -/

/-- The image that the weir saves of a context. -/
def savedOf (m : Mach) (core i : Nat) : Image :=
  let k := getCore m core
  let c := getCtx m core i
  { ctx := { c with pre := none, wait := none, posted := none, unit := none }
    rows := markedRows (landRowsDue k m.cycle) c
    arr := if k.arr.holder = some i then some (emptyStages { k.arr with holder := none }) else none }

/-- The machine once the image of a context has been saved, unless the area refuses it. -/
def saveImage (m : Mach) (core i : Nat) (p : PreEmpt) (x : Nat × Nat) : Mach :=
  let c := getCtx m core i
  match imageRefused m (whoOf m core i) (imageVa m c.area x.1) with
  | some (cause, a) => areaRefused m core i cause a
  | none =>
    { writeImage (setCtx m core i { c with pre := some { p with saved := true } }) (whoOf m core i)
        (imageVa m c.area x.1) ((imageSize (savedOf m core i) + 15) / 16) with
      images := smPut none m.images p.recId (some (savedOf m core i)) }

theorem exec_saveImage_eq {s : State} {core i : Nat} {p : PreEmpt} {x : Nat × Nat} (hrun : s.m.phase = .running)
    (hp : (getCtx s.m core i).pre = some p) (hslot : p.slot = some x) (hstop : p.stopped.isSome = true)
    (hsaved : p.saved = false) : exec (.saveImageWritten core i) s = .next { s with
      m := if imageHeld s.m (whoOf s.m core i) (imageVa s.m (getCtx s.m core i).area x.1) = true then s.m
        else saveImage s.m core i p x } := by
  rw [exec_saveImageWritten, execSaveImageWritten, whenRunning, onMach]
  refine next_congr ((if_pos hrun).trans ?_)
  dsimp only
  rw [hp]
  cases p
  subst hslot
  refine if_congr ⟨fun h => ?_, fun h => .inr (.inr h)⟩ rfl rfl
  rcases h with h | h | h
  · rw [Option.isNone_iff_eq_none] at h
    rw [h] at hstop
    exact absurd hstop Bool.false_ne_true
  · rw [hsaved] at h
    exact absurd h Bool.false_ne_true
  · exact h

theorem mem_markedRows (k : Core) (c : Ctx) {r : Nat} (hr : r < 256) (hmark : c.rowMark.getLsbD r = true) :
    (r, smGet 0 k.tiles r, smGet 0 k.exps r) ∈ markedRows k c :=
  List.mem_map.2 ⟨r, List.mem_filter.2 ⟨List.mem_range.2 hr, hmark⟩, rfl⟩

theorem saveImage_ok {m : Mach} {core i : Nat} {p : PreEmpt} {x : Nat × Nat}
    (hok : imageRefused m (whoOf m core i) (imageVa m (getCtx m core i).area x.1) = none) : saveImage m core i p x =
    { writeImage (setCtx m core i { getCtx m core i with pre := some { p with saved := true } }) (whoOf m core i)
        (imageVa m (getCtx m core i).area x.1) ((imageSize (savedOf m core i) + 15) / 16) with
      images := smPut none m.images p.recId (some (savedOf m core i)) } := by
  unfold saveImage
  dsimp only
  rw [hok]

theorem saveImage_refused {m : Mach} {core i : Nat} {p : PreEmpt} {x : Nat × Nat} {e : Byte} {a : Word}
    (hno : imageRefused m (whoOf m core i) (imageVa m (getCtx m core i).area x.1) = some (e, a)) :
    saveImage m core i p x = areaRefused m core i e a := by
  unfold saveImage
  dsimp only
  rw [hno]

theorem savedOf_arr {m : Mach} {core i : Nat} (h : (getCore m core).arr.holder = some i) :
    (savedOf m core i).arr.isSome = true := by
  unfold savedOf
  dsimp only
  rw [if_pos h]
  rfl

/-! ### The record of a pre-empted unit -/

theorem exec_weirComplete_eq {s : State} {core i : Nat} {p : PreEmpt} {u : UnitInfo} {x : Nat × Nat} {im : Image}
    (hrun : s.m.phase = .running) (hp : (getCtx s.m core i).pre = some p) (hu : (getCtx s.m core i).unit = some u)
    (hslot : p.slot = some x) (him : imageOf s.m p.recId = some im) : exec (.weirComplete core i) s = .next ⟨
      if p.stopped.isNone = true ∨ (!p.saved) = true ∨ p.acks ≠ 15 then s.m
      else if (getCtx s.m core i).cancelled = true then beginEnd s.m core i .cancelled
      else if heldWrite s.m (whoOf s.m core i) (recordVa s.m (getCtx s.m core i).area x.2) 64 = true then s.m
      else writePreRecord s.m core i (getCtx s.m core i) u p x im, s.trust⟩ := by
  rw [exec_weirComplete, execWeirComplete, whenRunning, onMach]
  refine next_congr ((if_pos hrun).trans ?_)
  dsimp only
  rw [hp, hu]
  dsimp only
  rw [hslot, him]

theorem weir_complete {p : PreEmpt} (hstop : p.stopped.isSome = true) (hsaved : p.saved = true)
    (hacks : p.acks = 15) :
    ¬(p.stopped.isNone = true ∨ (!p.saved) = true ∨ p.acks ≠ 15) := by
  rintro (h | h | h)
  · rw [Option.isNone_iff_eq_none] at h
    rw [h] at hstop
    exact Bool.false_ne_true hstop
  · rw [hsaved] at h
    exact Bool.false_ne_true h
  · exact h hacks

end Sys2Proof.Machine

open Sys2Proof Sys2Proof.Machine

/-- Settles O36: the weir's events, each by the state of the request; of remote loads that are abandoned, every
    command is
followed through the fold by its number. -/
theorem weirEvents : Obligations.WeirEvents := by
  unfold Obligations.WeirEvents
  intro s core i hrun
  refine ⟨exec_stopPoint_not hrun, exec_stopPoint_cancelled hrun, fun p h hcan hp hstop => ⟨fun hwait => ?_,
      fun hq hrow => ?_⟩, fun p hp hpend => ⟨fun x hx => ?_, ackContext_full hpend⟩, fun p e hp hstop he hack hidle =>
      ⟨_, exec_engineStopAck_acks hrun hp hstop he hack hidle, engineAcked_facts ..⟩,
    fun p t hp hstop => ⟨fun h => ?_, fun h => ⟨_, (exec_collectiveStop_eq hrun hp hstop).trans
      (next_congr (if_neg (not_lt.2 h))), foldl_mem (abandon_mem core) _ _, answered_abandons s.m core i⟩⟩,
    fun p x hp hslot hstop hsaved => ⟨fun hheld => ?_, fun hheld => ⟨fun hok => ⟨_, savedOf s.m core i, ?_,
      saveImage_ok hok, rfl, rfl, rfl, rfl, rfl, fun r hr hmark => mem_markedRows _ _ hr hmark, savedOf_arr⟩,
      fun e a hno => ?_⟩⟩,
    fun p u x im hp hu hslot him => ⟨fun h => ?_, fun hstop hsaved hacks => ⟨fun hcan => ?_, fun hcan hheld => ?_,
      fun hcan hheld => ?_⟩⟩⟩
  · refine (exec_stopPoint_request hrun h hcan hp hstop).trans (next_congr (if_pos ?_))
    rcases hwait with ⟨q, hq, hno⟩ | hrow
    · refine .inr ?_
      rw [Bool.not_eq_true', ← Bool.not_eq_true, all_queued_iff]
      exact fun hall => hno (hall q hq)
    · exact .inl ((rowDue_iff ..).2 hrow)
  · refine (exec_stopPoint_request hrun h hcan hp hstop).trans (next_congr (if_neg ?_))
    rw [not_or, Bool.not_eq_true', Bool.not_eq_false]
    exact ⟨fun h => hrow ((rowDue_iff ..).1 h), (all_queued_iff ..).2 hq⟩
  · rcases hx with hslot | ⟨hslot, hfree⟩
    · exact ⟨_, ackContext_slot hpend hslot, ackedMach_facts ..⟩
    · exact ⟨_, ackContext_free hpend hslot hfree, ackedMach_facts ..⟩
  · exact (exec_collectiveStop_eq hrun hp hstop).trans (next_congr (if_pos h))
  · exact (exec_saveImage_eq hrun hp hslot hstop hsaved).trans (next_congr (if_pos hheld))
  · exact (exec_saveImage_eq hrun hp hslot hstop hsaved).trans (next_congr (if_neg (Bool.eq_false_iff.1 hheld)))
  · exact (exec_saveImage_eq hrun hp hslot hstop hsaved).trans
      (next_congr ((if_neg (Bool.eq_false_iff.1 hheld)).trans (saveImage_refused hno)))
  · refine (exec_weirComplete_eq hrun hp hu hslot him).trans (next_congr (if_pos ?_))
    rcases h with h | h | h
    · exact .inl (by rw [h]; rfl)
    · exact .inr (.inl (by rw [h]; rfl))
    · exact .inr (.inr h)
  · exact (exec_weirComplete_eq hrun hp hu hslot him).trans (next_congr
      ((if_neg (weir_complete hstop hsaved hacks)).trans (if_pos hcan)))
  · exact (exec_weirComplete_eq hrun hp hu hslot him).trans
      (next_congr ((if_neg (weir_complete hstop hsaved hacks)).trans
      ((if_neg (Bool.eq_false_iff.1 hcan)).trans (if_pos hheld))))
  · exact (exec_weirComplete_eq hrun hp hu hslot him).trans
      (next_congr ((if_neg (weir_complete hstop hsaved hacks)).trans
      ((if_neg (Bool.eq_false_iff.1 hcan)).trans (if_neg (Bool.eq_false_iff.1 hheld)))))
end

section
/-!
PROOFS. Replays, handler starts, the ends of restores, sweeps, and the end of zeroing.
-/
namespace Sys2Proof.Machine

/-! ### Replays -/

/-- May a replay begin? -/
def ReplayGoes (m : Mach) (core i : Nat) : Prop :=
  (getCtx m core i).replayAt ≤ m.cycle ∧ (getCtx m core i).cancelled = false ∧ (getCtx m core i).pre = none

theorem exec_trapReplay_goes {s : State} {core i : Nat} (hrun : s.m.phase = .running)
    (hst : (getCtx s.m core i).st = .waiting)
    (hw : (getCtx s.m core i).wait = some .replay) (h : ReplayGoes s.m core i) : exec (.trapReplay core i) s =
    .next { s with m := setCtx s.m core i { getCtx s.m core i with st := .ready, wait := none } } := by
  obtain ⟨hat, hcan, hpre⟩ := h
  rw [exec_trapReplay, execTrapReplay, whenRunning, onMach]
  exact next_congr ((if_pos hrun).trans (if_pos ⟨hst, hw, hat, by rw [hcan]; rfl, by rw [hpre]; rfl⟩))

theorem exec_trapReplay_waits {s : State} {core i : Nat} (hrun : s.m.phase = .running) (h : ¬ReplayGoes s.m core i) :
    exec (.trapReplay core i) s = .next s := by
  rw [exec_trapReplay, execTrapReplay, whenRunning, onMach]
  refine next_congr ((if_pos hrun).trans (if_neg fun ⟨_, _, hat, hcan, hpre⟩ => h ⟨hat, ?_, ?_⟩))
  · rwa [Bool.not_eq_true'] at hcan
  · exact Option.isNone_iff_eq_none.1 hpre

/-! ### Views alone -/

/-- Two machines that differ at most in their agents. -/
def OnlyAgents (m m' : Mach) : Prop := ∃ agents, m' = { m with agents }

theorem OnlyAgents.refl (m : Mach) : OnlyAgents m m := ⟨_, rfl⟩

theorem OnlyAgents.trans {m m1 m2 : Mach} (h : OnlyAgents m m1) (h' : OnlyAgents m1 m2) : OnlyAgents m m2 := by
  obtain ⟨_, rfl⟩ := h
  obtain ⟨_, rfl⟩ := h'
  exact ⟨_, rfl⟩

theorem onlyAgents_raiseViews (a : Nat) (ps : List (Nat × Nat)) (m : Mach) : OnlyAgents m (raiseViews m a ps) := by
  induction ps generalizing m with
  | nil => exact .refl m
  | cons e ps ih => exact OnlyAgents.trans ⟨_, rfl⟩ (ih (raiseView m a e.1 e.2))

theorem onlyAgents_vaViews (a : Nat) (w : Who) (fuel : Nat) : ∀ (m : Mach) (va : Word) (n : Nat),
    OnlyAgents m (vaViews m a w va fuel n) := by
  induction fuel with
  | zero => exact fun m va n => .refl m
  | succ fuel ih =>
    intro m va n
    rw [vaViews]
    split
    · exact .refl m
    · dsimp only
      split
      · exact OnlyAgents.trans ⟨_, rfl⟩ (ih (raiseView m a _ _) _ _)
      · exact .refl m

/-! ### Handler starts -/

section
variable {s : State} {core i : Nat} {n : Notice} {rest : List Notice} (hrun : s.m.phase = .running)

/-- The context that a notice starts. -/
def startedCtx (m : Mach) (core i : Nat) (n : Notice) : Ctx :=
  { handlerCtx m core n with rowsKnown := (smGet {} (getCore m core).ctxs i).rowsKnown }

/-- The machine once a notice has started a context, where no notice is spilled. -/
def handlerStarted (m : Mach) (core i : Nat) (n : Notice) (rest : List Notice) : Mach :=
  raiseViews (setCore m core (setCtxOf { getCore m core with notices := rest } i (startedCtx m core i n)))
    (ctxAgent core i) n.payload

theorem refill_none (k : Core) (h : k.spilled = []) (fuel : Nat) : refill k fuel = k := by
  cases fuel with
  | zero => rfl
  | succ fuel => rw [refill, h]

include hrun in
theorem exec_handlerStart_starts (hn : (getCore s.m core).notices = n :: rest) (hs : (getCore s.m core).spilled = [])
    (hi : dormantCtx (getCore s.m core) (isControl core) = some i)
    (hgo : isControl core = true ∨
      (getCore s.m core).scan.draining = false ∧ (getPart s.m (clusterOf core)).recallAt = none) :
    exec (.handlerStart core) s = .next { s with m := handlerStarted s.m core i n rest } := by
  rw [exec_handlerStart, execHandlerStart, whenRunning, onMach]
  refine next_congr ((if_pos hrun).trans ?_)
  dsimp only
  rw [hn, hi]
  refine (if_neg ?_).trans ?_
  · rcases hgo with h | ⟨hd, hr⟩
    · rw [h]
      exact Bool.false_ne_true
    · rw [hd, hr, Option.isSome_none, Bool.or_self, Bool.and_false]
      exact Bool.false_ne_true
  · exact congrArg (fun k => raiseViews (setCore s.m core k) (ctxAgent core i) n.payload)
      (refill_none (setCtxOf { getCore s.m core with notices := rest } i (startedCtx s.m core i n)) hs 32)

end

theorem exec_handlerStart_stopped {s : State} {core : Nat} (hctl : isControl core = false)
    (h : (getCore s.m core).scan.draining = true ∨ (getPart s.m (clusterOf core)).recallAt ≠ none) :
    exec (.handlerStart core) s = .next s := by
  have hstop : (!isControl core &&
      ((getCore s.m core).scan.draining || (getPart s.m (clusterOf core)).recallAt.isSome)) = true := by
    rw [hctl, Bool.not_false, Bool.true_and, Bool.or_eq_true]
    exact h.imp_right Option.isSome_iff_ne_none.2
  rw [exec_handlerStart, execHandlerStart, whenRunning, onMach]
  refine next_congr ?_
  split
  · dsimp only
    rw [hstop]
    cases (getCore s.m core).notices with
    | nil => rfl
    | cons n rest =>
      cases dormantCtx (getCore s.m core) (isControl core) with
      | none => rfl
      | some i => rfl
  · rfl

theorem ctxs_setCtxOf (k : Core) (i : Nat) (x : Ctx) : smGet ({} : Ctx) (setCtxOf k i x).ctxs i = x :=
    smGet_put_same ..

theorem handlerStarted_facts (m : Mach) (core i : Nat) (n : Notice) (rest : List Notice) :
    (handlerStarted m core i n rest).mem = m.mem ∧ (getCore (handlerStarted m core i n rest) core).notices = rest ∧
    (∀ k, k ≠ core → getCore (handlerStarted m core i n rest) k = getCore m k) ∧
    getCtx (handlerStarted m core i n rest) core i = startedCtx m core i n := by
  obtain ⟨agents, hviews⟩ := onlyAgents_raiseViews (ctxAgent core i) n.payload
    (setCore m core (setCtxOf { getCore m core with notices := rest } i (startedCtx m core i n)))
  have hcore : getCore (setCore m core
      (setCtxOf { getCore m core with notices := rest } i (startedCtx m core i n))) core =
      setCtxOf { getCore m core with notices := rest } i (startedCtx m core i n) := getCore_setCore ..
  rw [handlerStarted, hviews]
  refine ⟨rfl, congrArg Core.notices hcore, fun k hk => getCore_setCore_ne m hk _, ?_⟩
  refine (congrArg (fun k : Core => smGet ({} : Ctx) k.ctxs i) hcore).trans ?_
  exact ctxs_setCtxOf ..

theorem handlerCtx_facts (m : Mach) (core : Nat) {n : Notice} (hn : n.fwd = none) :
    let area := if isControl core then clusterOf core
      else servingPart m core ((getCore m core).hset.getD ⟨0, 0, 0, 0, 0, 0⟩).owner
    let c := handlerCtx m core n
    c.st = .ready ∧ c.arr = true ∧ c.unit = none ∧ smGet {} c.sregs 1 = { val := n.paddr } ∧
    smGet {} c.sregs 2 = { val := BitVec.ofNat 64 n.len } ∧ smGet {} c.sregs 3 = { val := BitVec.ofNat 64 n.src } ∧
    c.csb = (handlerPlace m area n.haddr).1 ∧ c.pc = BitVec.ofNat 32 (handlerPlace m area n.haddr).2 ∧ c.wpos = 0
        := by
  have hregs : (handlerCtx m core n).sregs = smPut {} (smPut {} (smPut {} [] 1 { val := n.paddr }) 2
      { val := BitVec.ofNat 64 n.len }) 3 { val := BitVec.ofNat 64 n.src } := by
    unfold handlerCtx
    rw [hn]
  have hplace : (handlerCtx m core n).csb = (handlerPlace m (if isControl core then clusterOf core
      else servingPart m core ((getCore m core).hset.getD ⟨0, 0, 0, 0, 0, 0⟩).owner) n.haddr).1 ∧
      (handlerCtx m core n).pc = BitVec.ofNat 32 (handlerPlace m (if isControl core then clusterOf core
        else servingPart m core ((getCore m core).hset.getD ⟨0, 0, 0, 0, 0, 0⟩).owner) n.haddr).2 := by
    unfold handlerCtx
    cases isControl core with
    | true => exact ⟨rfl, rfl⟩
    | false => exact ⟨rfl, rfl⟩
  refine ⟨rfl, rfl, rfl, ?_, ?_, ?_, hplace.1, hplace.2, rfl⟩
  · rw [hregs, smGet_put_ne _ _ (by decide), smGet_put_ne _ _ (by decide), smGet_put_same]
  · rw [hregs, smGet_put_ne _ _ (by decide), smGet_put_same]
  · rw [hregs, smGet_put_same]

/-! ### The end of a restore -/

/-- A step after which an image that was gone is still gone, and a context is still no longer restored. -/
structure StaysRestored (core i id : Nat) (m m' : Mach) : Prop where
  image : imageOf m id = none → imageOf m' id = none
  restoring : (getCtx m' core i).restoring = (getCtx m core i).restoring

section
variable {core i id : Nat}

theorem StaysRestored.refl (m : Mach) : StaysRestored core i id m m := ⟨fun h => h, rfl⟩

theorem StaysRestored.trans {m m1 m2 : Mach} (h : StaysRestored core i id m m1) (h' : StaysRestored core i id m1 m2) :
    StaysRestored core i id m m2 :=
  ⟨fun hm => h'.image (h.image hm), h'.restoring.trans h.restoring⟩

theorem OnlyAgents.restored {m m' : Mach} (h : OnlyAgents m m') : StaysRestored core i id m m' := by
  obtain ⟨_, rfl⟩ := h
  exact ⟨fun h => h, rfl⟩

theorem OnlyCounted.restored {m m' : Mach} (h : OnlyCounted m m') : StaysRestored core i id m m' := by
  obtain ⟨_, _, _, _, _, _, _, _, _, rfl⟩ := h
  exact ⟨fun h => h, rfl⟩

theorem restored_modCtx (m : Mach) {f : Ctx → Ctx} (hf : ∀ c, (f c).restoring = c.restoring) :
    StaysRestored core i id m (modCtx m core i f) :=
  ⟨fun h => h, by rw [getCtx_modCtx, hf]⟩

theorem restored_dropPre (m : Mach) (area : Nat) (pre : Option PreEmpt) : StaysRestored core i id m
    (dropPre m area pre) := by
  unfold dropPre
  split
  · refine ⟨fun h => ?_, rfl⟩
    by_cases hid : id = (pre.map (·.recId)).getD 0
    · exact (congrArg (smGet none _) hid).trans (smGet_del_same ..)
    · exact (smGet_del_ne _ _ hid).trans h
  · exact .refl m

theorem restored_beginEnd (m : Mach) (e : Ending) : StaysRestored core i id m (beginEnd m core i e) := by
  refine (restored_dropPre m (getCtx m core i).area (getCtx m core i).pre).trans ?_
  refine StaysRestored.trans (m1 := dueRest (dropPre m (getCtx m core i).area (getCtx m core i).pre) core i
    (((getCtx m core i).pre.map (·.rest)).getD [])) ⟨fun h => h, rfl⟩ ?_
  unfold beginEnd
  refine restored_modCtx _ (fun _ => ?_)
  rfl

theorem restored_stopCmds (m : Mach) (cancel : Bool) : StaysRestored core i id m (stopCmds m core i cancel) :=
  ⟨fun h => h, by rw [stopCmds_ctx]⟩

theorem landRowsDue_ctxs (k : Core) (now : Nat) : (landRowsDue k now).ctxs = k.ctxs :=
  foldl_keeps Core.ctxs (g := landRow) (fun _ _ => rfl) _ _

theorem restored_patchLane (m : Mach) (x : Nat) : StaysRestored core i id m (patchLane m core i x).1 := by
  unfold patchLane
  dsimp only
  split
  · exact .refl m
  · refine ⟨fun h => h, ?_⟩
    dsimp only
    unfold getCtx
    rw [getCore_setCore]
    refine (rel_smGet_map (R := fun x y : Ctx => y.restoring = x.restoring) {} rfl
      (f := fun e => { e.2 with
        rowsKnown := e.2.rowsKnown ||| _, rowMark := if e.1 = i then e.2.rowMark ||| _ else e.2.rowMark })
      (fun _ => rfl) _ i).trans ?_
    exact congrArg (fun l : SMap Ctx => (smGet ({} : Ctx) l i).restoring) (landRowsDue_ctxs ..)

theorem restored_patchAll (n : Nat) : ∀ (m : Mach) (x : Nat), StaysRestored core i id m (patchAll m core i x n).1
    := by
  induction n with
  | zero => exact fun m x => .refl m
  | succ n ih =>
    intro m x
    have h := restored_patchLane (core := core) (i := i) (id := id) m (x % 2 ^ 64)
    rw [patchAll]
    generalize patchLane m core i (x % 2 ^ 64) = e at h ⊢
    obtain ⟨m1, b⟩ := e
    cases b with
    | true => exact h.trans (ih m1 _)
    | false => exact h

theorem restored_of_patchAll {m m1 : Mach} {x n : Nat} {b : Bool} (h : patchAll m core i x n = (m1, b)) :
    StaysRestored core i id m m1 := by
  have hp := restored_patchAll (core := core) (i := i) (id := id) n m x
  rwa [h] at hp

theorem restored_resumeSel (m : Mach) (rsel rpkt : Nat) (after : Nat × Nat) :
    StaysRestored core i id m (resumeSel m core i rsel rpkt after) := by
  have h : StaysRestored core i id m (modCtx (dropPre m (getCtx m core i).area (getCtx m core i).pre) core i fun c =>
      { c with st := .ready, wait := none, hold := none, pre := none, since := m.step, skipBp := false, stallCycles
          := 0 }) :=
    (restored_dropPre ..).trans (restored_modCtx _ fun _ => rfl)
  unfold resumeSel
  dsimp only
  split
  · exact h.trans (restored_modCtx _ fun _ => rfl)
  · exact h.trans (restored_modCtx _ fun _ => rfl)
  · exact h.trans (restored_modCtx _ fun _ => rfl)
  · exact h.trans (restored_beginEnd ..)

theorem reloadFrame_restoring (c : Ctx) (x : Nat) : (reloadFrame c x).restoring = c.restoring := by
  unfold reloadFrame
  rfl

theorem restored_reload (m : Mach) (ag : Nat) (w : Who) (va plist : Word) (n1 n2 n3 n4 x : Nat) :
    StaysRestored core i id m
      (modCtx (vaViews (vaViews m ag w va n1 n2) ag w plist n3 n4) core i fun c => reloadFrame c x) :=
  ((onlyAgents_vaViews ..).trans (onlyAgents_vaViews ..)).restored.trans
    (restored_modCtx _ fun c => reloadFrame_restoring c x)

theorem restored_releaseFrame {m m' : Mach} {ag : Nat} {w : Who} {va : Word} {after : Mach → Nat × Nat}
    (h : releaseFrame m ag w core i va after = .ok m') : StaysRestored core i id m m' := by
  unfold releaseFrame at h
  split at h
  · cases h
  · dsimp only at h
    split at h
    · cases h
    next ps =>
      split at h
      · cases h
      · split at h
        next m1 hpatch =>
          injection h with h
          subst h
          refine ((restored_reload ..).trans (restored_of_patchAll hpatch)).trans ?_
          exact (restored_modCtx m1 (f := fun c => { c with hold := none }) fun _ => rfl).trans (restored_beginEnd ..)
        next m1 hpatch =>
          injection h with h
          subst h
          exact ((restored_reload ..).trans (restored_of_patchAll hpatch)).trans (restored_resumeSel ..)

theorem restored_stayHeld (m : Mach) (va : Word) (h : Option Hold) : StaysRestored core i id m
    (stayHeld m core i va h) := by
  unfold stayHeld
  exact restored_modCtx _ fun _ => rfl

theorem restored_applyRelease (m : Mach) (va : Word) (z : Releaser) (h : Option Hold) :
    StaysRestored core i id m (applyRelease m core i va z h) := by
  unfold applyRelease
  dsimp only
  split
  next m1 hok =>
    have hagent : StaysRestored core i id m (setAgent m releaserAgent { view := z.view }) := OnlyAgents.restored
        ⟨_, rfl⟩
    exact (hagent.trans (restored_releaseFrame hok)).trans (OnlyAgents.restored ⟨_, rfl⟩)
  next =>
    split
    · exact (restored_stayHeld ..).trans (onlyCounted_putEvent ..).restored
    · exact restored_stayHeld ..

end

/-- Issuing commands again changes their numbers and lists alone. -/
theorem reissue_keeps {α : Type} (g : Core → α) (hg : ∀ (k : Core) eiss cmds, g { k with eiss, cmds } = g k)
    (core i : Nat)
    (rest : List (Nat × Cmd)) (m : Mach) (c : Nat) : g (getCore (reissue m core i rest) c) = g (getCore m c) := by
  unfold reissue
  refine foldl_keeps (fun m => g (getCore m c)) (fun m e => ?_) rest m
  exact modCore_keeps g m core (fun k => hg k _ _) c

theorem renumber_keeps {α : Type} (g : Core → α) (hg : ∀ (k : Core) eiss, g { k with eiss } = g k) (as : List Act)
    (k : Core) :
    g (renumber k as).1 = g k := by
  induction as generalizing k with
  | nil => rfl
  | cons a as ih =>
    rw [renumber]
    split
    · exact (ih _).trans (hg k _)
    · exact ih k

theorem renumberActs_keeps {α : Type} (g : Core → α) (hg : ∀ (k : Core) eiss, g { k with eiss } = g k) (m : Mach)
    (core i c : Nat) :
    g (getCore (renumberActs m core i) c) = g (getCore m c) := by
  have h : getCore (renumberActs m core i) c =
      getCore (setCore m core (renumber (getCore m core) (getAgent m (ctxAgent core i)).iq).1) c := rfl
  rw [h]
  by_cases hc : c = core
  · rw [hc, getCore_setCore, renumber_keeps g hg]
  · rw [getCore_setCore_ne m hc]

theorem reissue_images (core i : Nat) (rest : List (Nat × Cmd)) (m : Mach) : (reissue m core i rest).images =
    m.images :=
  foldl_keeps Mach.images (fun _ _ => modCore_images ..) rest m

theorem reissue_mem (core i : Nat) (rest : List (Nat × Cmd)) (m : Mach) : (reissue m core i rest).mem = m.mem :=
  foldl_keeps Mach.mem (fun _ _ => modCore_mem ..) rest m

/-- The machine with the array of an image back, held by the context. -/
def arrBack (m : Mach) (core i : Nat) (im : Image) : Mach :=
  match im.arr with
  | some a => setCore m core { getCore m core with arr := { a with holder := some i } }
  | none => m

/-- The machine with the array and the commands of an image back, and the image gone. -/
def cmdsBack (m : Mach) (core i id : Nat) (im : Image) : Mach :=
  renumberActs (reissue { arrBack m core i im with images := smDel (arrBack m core i im).images id } core i
      im.rest) core i

/-- The newest number of each engine context of a core. -/
def issuedMap (m : Mach) (core : Nat) : SMap Nat :=
  (List.range 4).foldl (fun h e => smPut 0 h e (smGet 0 (getCore m core).eiss e)) []

/-- The machine with a context restored, but for its frame. -/
def ctxBack (m : Mach) (core i id : Nat) (im : Image) : Mach :=
  modCtx (cmdsBack m core i id im) core i fun c => { c with
    st := .ready, restoring := none, sliceStart := (cmdsBack m core i id im).cycle, since :=
        (cmdsBack m core i id im).step
    mapE0 := im.ctx.lastCmd
    mapH := issuedMap (cmdsBack m core i id im) core }

theorem arrBack_keeps {α : Type} (g : Core → α) (hg : ∀ (k : Core) arr, g { k with arr } = g k) (m : Mach)
    (core i : Nat)
    (im : Image) (c : Nat) : g (getCore (arrBack m core i im) c) = g (getCore m c) := by
  unfold arrBack
  split
  next a _ =>
    by_cases hc : c = core
    · rw [hc, getCore_setCore, hg]
    · rw [getCore_setCore_ne m hc]
  next => rfl

theorem getCtx_cmdsBack (m : Mach) (core i id : Nat) (im : Image) (j : Nat) :
    getCtx (cmdsBack m core i id im) core j = getCtx m core j := by
  refine congrArg (fun l : SMap Ctx => smGet ({} : Ctx) l j) ?_
  refine (renumberActs_keeps Core.ctxs (fun _ _ => rfl) _ core i core).trans ?_
  refine (reissue_keeps Core.ctxs (fun _ _ _ => rfl) core i im.rest _ core).trans ?_
  exact arrBack_keeps Core.ctxs (fun _ _ => rfl) m core i im core

theorem arrBack_some {m : Mach} {core i : Nat} {im : Image} {a : Arr} (ha : im.arr = some a) :
    (getCore (arrBack m core i im) core).arr = { a with holder := some i } := by
  unfold arrBack
  rw [ha]
  exact congrArg Core.arr (getCore_setCore ..)

theorem cmdsBack_arr (m : Mach) (core i id : Nat) (im : Image) :
    (getCore (cmdsBack m core i id im) core).arr = (getCore (arrBack m core i im) core).arr :=
  (renumberActs_keeps Core.arr (fun _ _ => rfl) _ core i core).trans
    (reissue_keeps Core.arr (fun _ _ _ => rfl) core i im.rest _ core)

theorem imageOf_cmdsBack (m : Mach) (core i id : Nat) (im : Image) : imageOf (cmdsBack m core i id im) id = none := by
  have h : (cmdsBack m core i id im).images = smDel (arrBack m core i im).images id :=
    reissue_images core i im.rest { arrBack m core i im with images := smDel (arrBack m core i im).images id }
  rw [imageOf, h]
  exact smGet_del_same ..

theorem ctxBack_mem (m : Mach) (core i id : Nat) (im : Image) : (ctxBack m core i id im).mem = m.mem := by
  have harr : (arrBack m core i im).mem = m.mem := by
    unfold arrBack
    split
    · rfl
    · rfl
  have hcmds := reissue_mem core i im.rest
      { arrBack m core i im with images := smDel (arrBack m core i im).images id }
  rw [ctxBack, modCtx_mem]
  exact hcmds.trans harr

/-- A context that is restored, but for its frame. -/
theorem getCtx_ctxBack (m : Mach) (core i id : Nat) (im : Image) : getCtx (ctxBack m core i id im) core i =
    { getCtx m core i with
      st := .ready, restoring := none, sliceStart := (cmdsBack m core i id im).cycle, since :=
          (cmdsBack m core i id im).step
      mapE0 := im.ctx.lastCmd, mapH := issuedMap (cmdsBack m core i id im) core } := by
  unfold ctxBack
  rw [getCtx_modCtx, getCtx_cmdsBack]

theorem ctxBack_arr {m : Mach} {core i id : Nat} {im : Image} {a : Arr} (ha : im.arr = some a) :
    (getCore (ctxBack m core i id im) core).arr = { a with holder := some i } := by
  have h : (getCore (ctxBack m core i id im) core).arr = (getCore (cmdsBack m core i id im) core).arr := by
    unfold ctxBack modCtx setCtx
    refine modCore_keeps Core.arr (cmdsBack m core i id im) core (fun _ => ?_) core
    rfl
  rw [h, cmdsBack_arr, arrBack_some ha]

/-- The machine at the end of a restore. -/
def restoreEnd (m : Mach) (core i id : Nat) (fr : Option Word) (im : Image) : Mach :=
  let m1 := ctxBack m core i id im
  if (getCtx m core i).cancelled then beginEnd (stopCmds m1 core i true) core i .cancelled
  else
    match fr with
    | some va => applyRelease m1 core i va (im.rel.getD (releaserCtx m1 core i)) im.ctx.hold
    | none => m1

/-- May a restore end? -/
def RestoreMay (m : Mach) (core i : Nat) (im : Image) : Prop :=
  (im.arr = none ∨ (getCore m core).arr.holder = none) ∧
    restFits (getCore m core) im.rest (getAgent m (ctxAgent core i)).iq = true

theorem exec_restoreComplete_eq {s : State} {core i id : Nat} {fr : Option Word} {im : Image}
    (hrun : s.m.phase = .running)
    (hre : (getCtx s.m core i).restoring = some (id, fr)) (him : imageOf s.m id = some im) :
    exec (.restoreComplete core i) s = .next { s with
      m := if im.arr.isSome = true ∧ (getCore s.m core).arr.holder.isSome = true ∨
          (!(restFits (getCore s.m core) im.rest (getAgent s.m (ctxAgent core i)).iq)) = true then s.m
        else restoreEnd s.m core i id fr im } := by
  rw [exec_restoreComplete, execRestoreComplete, whenRunning, onMach]
  refine next_congr ((if_pos hrun).trans ?_)
  dsimp only
  rw [hre]
  dsimp only
  rw [him]
  rfl

theorem restoreMay_iff (m : Mach) (core i : Nat) (im : Image) : RestoreMay m core i im ↔
    ¬(im.arr.isSome = true ∧ (getCore m core).arr.holder.isSome = true ∨
      (!(restFits (getCore m core) im.rest (getAgent m (ctxAgent core i)).iq)) = true) := by
  rw [RestoreMay, not_or, not_and_or, Option.not_isSome_iff_eq_none, Option.not_isSome_iff_eq_none, Bool.not_eq_true',
    Bool.not_eq_false]

theorem restoreEnd_facts (m : Mach) (core i id : Nat) (fr : Option Word) (im : Image) :
    imageOf (restoreEnd m core i id fr im) id = none ∧ (getCtx (restoreEnd m core i id fr im) core i).restoring =
        none := by
  have hctx := getCtx_ctxBack m core i id im
  have himage : imageOf (ctxBack m core i id im) id = none := imageOf_cmdsBack m core i id im
  have hre : (getCtx (ctxBack m core i id im) core i).restoring = none := congrArg Ctx.restoring hctx
  have h : StaysRestored core i id (ctxBack m core i id im) (restoreEnd m core i id fr im) := by
    unfold restoreEnd
    dsimp only
    split
    · exact (restored_stopCmds ..).trans (restored_beginEnd ..)
    · split
      · exact restored_applyRelease ..
      · exact .refl _
  exact ⟨h.image himage, h.restoring.trans hre⟩

/-! ### Sweeps and zeroing -/

section
variable {s : State} {core : Nat} (hrun : s.m.phase = .running)
include hrun

theorem exec_pinRenewal_early (h : s.m.nowt < (getCore s.m core).pinTick + tretOf s.m core / 2) :
    exec (.pinRenewal core) s = .next s := by
  rw [exec_pinRenewal, execPinRenewal, whenRunning, onMach]
  exact next_congr ((if_pos hrun).trans (if_pos (.inr h)))

theorem exec_pinRenewal_due (hpin : ∃ e ∈ (getCore s.m core).alloc, e.2.pinned.isSome = true)
    (h : (getCore s.m core).pinTick + tretOf s.m core / 2 ≤ s.m.nowt) : exec (.pinRenewal core) s =
    .next { s with m := setCore s.m core { getCore s.m core with
      pinTick := s.m.nowt
      renews := (getCore s.m core).renews ++
          (((getCore s.m core).alloc.map (·.2)).filter (fun a => a.pinned.isSome)).map
        (fun a => (a.base, 64 * a.nblk, s.m.nowt)) } } := by
  rw [exec_pinRenewal, execPinRenewal, whenRunning, onMach]
  refine next_congr ((if_pos hrun).trans (if_neg ?_))
  rw [List.any_eq_true.2 hpin, not_or, not_lt]
  exact ⟨Bool.false_ne_true, h⟩

theorem exec_rillSweep_skip (h : (getCore s.m core).zeroUntil.isSome = true ∨
    s.m.nowt < (getCore s.m core).rillTick + tretOf s.m core / 2) : exec (.rillSweep core) s = .next s := by
  rw [exec_rillSweep, execRillSweep, whenRunning, onMach]
  exact next_congr ((if_pos hrun).trans (if_pos (h.imp_right .inr)))

theorem exec_rillSweep_due (hz : (getCore s.m core).zeroUntil = none) (hctl : isControl core = false)
    (h : (getCore s.m core).rillTick + tretOf s.m core / 2 ≤ s.m.nowt) : exec (.rillSweep core) s =
    .next ⟨setCore s.m core { getCore s.m core with
      rillTick := s.m.nowt
      renews := (getCore s.m core).renews ++ [(0, spbase (getCore s.m core).partw, s.m.nowt)] }, s.trust⟩ := by
  rw [exec_rillSweep, execRillSweep, whenRunning, onMach]
  refine next_congr ((if_pos hrun).trans (if_neg ?_))
  rw [hz, hctl, not_or, not_or, not_lt]
  exact ⟨Bool.false_ne_true, Bool.false_ne_true, h⟩

/-- A core whose zeroing has ended. -/
def zeroed (m : Mach) (core : Nat) : Mach :=
  wakeCore (modCore (zeroPool m core) core (fun k => { k with zeroUntil := none })) core

theorem exec_zeroingComplete_eq {t : Nat} (hz : (getCore s.m core).zeroUntil = some t) :
    exec (.zeroingComplete core) s = .next { s with m := if s.m.cycle < t then s.m else zeroed s.m core } := by
  rw [exec_zeroingComplete, execZeroingComplete, whenRunning, onMach]
  refine next_congr ((if_pos hrun).trans ?_)
  rw [hz]
  rfl

end

theorem readByte_zeroed (m : Mach) (core a : Nat) : readByte (zeroed m core).mem a =
    if poolPa core 0 ≤ a ∧ a < poolPa core 0 + poolSize core then 0 else readByte m.mem a :=
  readByte_clearCore m core a

theorem zeroed_keeps {α : Type} (g : Core → α) (hg : ∀ (k : Core) x, g { k with ctxs := x } = g k) (m : Mach)
    (core : Nat) :
    g (getCore (zeroed m core) core) = g { getCore m core with
      tiles := [], exps := [], rowFlight := [], zeroTick := m.nowt, renews := [], zeroUntil := none } := by
  have hpool : getCore (zeroPool m core) core = { getCore m core with
      tiles := [], exps := [], rowFlight := [], zeroTick := m.nowt, renews := [] } :=
    getCore_modCore m core fun k =>
        { k with tiles := [], exps := [], rowFlight := [], zeroTick := m.nowt, renews := [] }
  refine (wakeCore_keeps g hg _ core core).trans ?_
  rw [getCore_modCore, hpool]

theorem getCore_zeroed_ne (m : Mach) {core k : Nat} (h : k ≠ core) : getCore (zeroed m core) k = getCore m k := by
  have hpool : getCore (zeroPool m core) k = getCore m k := getCore_setCore_ne m h _
  unfold zeroed wakeCore modCore
  rw [getCore_setCore_ne _ h, getCore_setCore_ne _ h, hpool]

end Sys2Proof.Machine

open Sys2Proof Sys2Proof.Machine

/-- Settles O34: the events one by one; what comes after the array and the commands of an image are back keeps the
    context
restored and its image gone, step by step. -/
theorem handlersAndRestores : Obligations.HandlersAndRestores := by
  unfold Obligations.HandlersAndRestores
  refine ⟨⟨fun s core i hrun hst hw => ⟨exec_trapReplay_goes hrun hst hw, exec_trapReplay_waits hrun⟩,
      fun s core i n rest hrun hn hs hi hfwd hgo => ⟨_, exec_handlerStart_starts hrun hn hs hi hgo, ?_⟩,
      fun s core hctl h => exec_handlerStart_stopped hctl h⟩,
    fun s core i id fr im hrun hre him => ⟨fun hno => ?_, fun hmay => ⟨_, (exec_restoreComplete_eq hrun hre him).trans
      (next_congr (if_neg ((restoreMay_iff ..).1 hmay))), restoreEnd_facts ..⟩, fun hcan hfr hmay =>
          ⟨restoreEnd s.m core i id fr im,
      (exec_restoreComplete_eq hrun hre him).trans (next_congr (if_neg ((restoreMay_iff ..).1 hmay))), ?_⟩⟩,
    fun s core hrun => ⟨exec_pinRenewal_due hrun, exec_pinRenewal_early hrun, exec_rillSweep_due hrun,
        exec_rillSweep_skip hrun⟩,
    fun s core t hrun hcore hz => ⟨fun h => (exec_zeroingComplete_eq hrun hz).trans (next_congr (if_pos h)), fun h =>
      ⟨zeroed s.m core, (exec_zeroingComplete_eq hrun hz).trans (next_congr (if_neg (not_lt.2 h))),
      zeroed_keeps Core.zeroUntil (fun _ _ => rfl) s.m core, zeroed_keeps Core.zeroTick (fun _ _ => rfl) s.m core,
      fun off hoff => ?_, fun a ha => ?_, fun r => ⟨?_, ?_⟩, fun k hk => getCore_zeroed_ne s.m hk⟩⟩⟩
  · obtain ⟨hmem, hnotices, hcores, hctx⟩ := handlerStarted_facts s.m core i n rest
    refine ⟨hmem, hnotices, hcores, ?_⟩
    rw [hctx]
    exact handlerCtx_facts s.m core hfwd
  · refine (exec_restoreComplete_eq hrun hre him).trans (next_congr (if_pos ?_))
    exact not_not.1 fun h => hno ((restoreMay_iff ..).2 h)
  · subst hfr
    have hend : restoreEnd s.m core i id none im = ctxBack s.m core i id im := if_neg (Bool.eq_false_iff.1 hcan)
    rw [hend, getCtx_ctxBack]
    exact ⟨ctxBack_mem .., rfl, rfl, rfl, fun a ha => ctxBack_arr ha⟩
  · have hsize : poolSize core = 2 ^ 22 := if_neg (by rw [isControl, decide_eq_true_iff]; omega)
    rw [readByte_zeroed, hsize, poolPa_add core (off := off) (by rw [hsize]; exact hoff)]
    exact if_pos ⟨Nat.le_add_right _ _, Nat.add_lt_add_left hoff _⟩
  · have hsize : poolSize core = 2 ^ 22 := if_neg (by rw [isControl, decide_eq_true_iff]; omega)
    rw [readByte_zeroed, hsize]
    exact if_neg (by omega)
  · rw [zeroed_keeps Core.tiles (fun _ _ => rfl)]
    rfl
  · rw [zeroed_keeps Core.exps (fun _ _ => rfl)]
    rfl
end

section
/-!
PROOFS. The owner service, the placement of fresh units, and the start of records that b.susp wrote.
-/
namespace Sys2Proof.Machine

/-! ### The order of an owner's units -/

theorem keyLt_iff (a b : Nat × Nat × Nat × Nat) : keyLt a b = true ↔
    a.1 < b.1 ∨ a.1 = b.1 ∧ (a.2.1 < b.2.1 ∨ a.2.1 = b.2.1 ∧
      (a.2.2.1 < b.2.2.1 ∨ a.2.2.1 = b.2.2.1 ∧ a.2.2.2 < b.2.2.2)) := by
  simp only [keyLt, Bool.or_eq_true, Bool.and_eq_true, decide_eq_true_eq, beq_iff_eq]

theorem keyLt_trans {a b c : Nat × Nat × Nat × Nat} (h : keyLt a b = true) (h' : keyLt b c = true) :
    keyLt a c = true := by
  rw [keyLt_iff] at *
  omega

theorem foldl_min_le {l : List Nat} {i : Nat} (h : i ∈ l) (a : Nat) : l.foldl min a ≤ i := by
  have low : ∀ (l : List Nat) (a : Nat), l.foldl min a ≤ a := by
    intro l
    induction l with
    | nil => exact fun a => Nat.le_refl a
    | cons x l ih => exact fun a => (ih (min a x)).trans (Nat.min_le_left a x)
  induction l generalizing a with
  | nil => cases h
  | cons x l ih =>
    rcases List.mem_cons.1 h with rfl | hi
    · exact (low l _).trans (Nat.min_le_right a i)
    · exact ih hi _

theorem goesBefore_fresh (m : Mach) (xs : List Item) {i j : Nat} (h : i < j) :
    goesBefore m (freshOf xs) (.fresh i) (.fresh j) = true := (keyLt_iff _ _).2 (.inl h)

theorem mem_freshOf {xs : List Item} {i : Nat} (h : .fresh i ∈ xs) : i ∈ freshOf xs :=
  List.mem_filterMap.2 ⟨.fresh i, h, rfl⟩

theorem recordBefore_le {m : Mach} {fresh : List Nat} {i prio : Nat} (h : i ∈ fresh)
    (hp : (getNode m i).lpb.prio ≤ prio) : recordBefore m fresh prio ≤ i :=
  foldl_min_le (List.mem_filter.2 ⟨h, decide_eq_true hp⟩) _

theorem goesBefore_resumed {m : Mach} {xs : List Item} {i : Nat} (r : Record) (h : .fresh i ∈ xs)
    (hp : (getNode m i).lpb.prio ≤ itemPrio m (.resumed r)) :
    goesBefore m (freshOf xs) (.resumed r) (.fresh i) = true := by
  have hle : recordBefore m (freshOf xs) (itemPrio m (.resumed r)) ≤ i := recordBefore_le (mem_freshOf h) hp
  rcases hle.lt_or_eq with hlt | heq
  · exact (keyLt_iff _ _).2 (.inl hlt)
  · exact (keyLt_iff _ _).2 (.inr ⟨heq, .inl Nat.zero_lt_one⟩)

/-! ### The unit that comes next -/

/-- The place of an item. -/
def placeOf (m : Mach) (x : Item) : Option (Nat × Bool) := pickCore m (itemLpb m x) (coresOf m x)

/-- What the search for the next item has found among the items that it has seen. -/
def BestSoFar (m : Mach) (fresh : List Nat) (seen : List Item) : Option (Item × Nat × Bool) → Prop
  | some (x, p) => x ∈ seen ∧ placeOf m x = some p ∧
      ∀ y ∈ seen, goesBefore m fresh y x = true → placeOf m y = none
  | none => ∀ y ∈ seen, placeOf m y = none

/-- One step of the search. -/
def better (m : Mach) (fresh : List Nat) (best : Option (Item × Nat × Bool)) (x : Item) :
    Option (Item × Nat × Bool) :=
  if (match best with | some (y, _) => goesBefore m fresh x y | none => true) then
    match pickCore m (itemLpb m x) (coresOf m x) with
    | some p => some (x, p)
    | none => best
  else best

theorem bestSoFar_unplaced {m : Mach} {fresh : List Nat} {seen : List Item} {best : Option (Item × Nat × Bool)}
    {x : Item} (h : BestSoFar m fresh seen best) (hx : placeOf m x = none) : BestSoFar m fresh (seen ++ [x]) best
        := by
  match best, h with
  | none, h =>
    intro y hy
    rcases List.mem_append.1 hy with hy | hy
    · exact h y hy
    · rwa [List.mem_singleton.1 hy]
  | some (y, p), ⟨hy, hp, hno⟩ =>
    refine ⟨List.mem_append_left _ hy, hp, fun z hz hzy => ?_⟩
    rcases List.mem_append.1 hz with hz | hz
    · exact hno z hz hzy
    · rwa [List.mem_singleton.1 hz]

theorem bestSoFar_behind {m : Mach} {fresh : List Nat} {seen : List Item} {x y : Item} {p : Nat × Bool}
    (h : BestSoFar m fresh seen (some (y, p))) (hx : ¬goesBefore m fresh x y = true) :
    BestSoFar m fresh (seen ++ [x]) (some (y, p)) := by
  obtain ⟨hy, hp, hno⟩ := h
  refine ⟨List.mem_append_left _ hy, hp, fun z hz hzy => ?_⟩
  rcases List.mem_append.1 hz with hz | hz
  · exact hno z hz hzy
  · exact absurd (List.mem_singleton.1 hz ▸ hzy) hx

theorem bestSoFar_first {m : Mach} {fresh : List Nat} {seen : List Item} {x : Item} {p : Nat × Bool}
    (h : BestSoFar m fresh seen none) (hx : placeOf m x = some p) (hself : ¬goesBefore m fresh x x = true) :
    BestSoFar m fresh (seen ++ [x]) (some (x, p)) := by
  refine ⟨List.mem_append_right _ (List.mem_singleton.2 rfl), hx, fun z hz hzx => ?_⟩
  rcases List.mem_append.1 hz with hz | hz
  · exact h z hz
  · exact absurd (List.mem_singleton.1 hz ▸ hzx) hself

theorem bestSoFar_replaced {m : Mach} {fresh : List Nat} {seen : List Item} {x y : Item} {p q : Nat × Bool}
    (h : BestSoFar m fresh seen (some (y, q))) (hx : placeOf m x = some p) (hxy : goesBefore m fresh x y = true)
    (hself : ¬goesBefore m fresh x x = true) : BestSoFar m fresh (seen ++ [x]) (some (x, p)) := by
  obtain ⟨_, _, hno⟩ := h
  refine ⟨List.mem_append_right _ (List.mem_singleton.2 rfl), hx, fun z hz hzx => ?_⟩
  rcases List.mem_append.1 hz with hz | hz
  · exact hno z hz (keyLt_trans hzx hxy)
  · exact absurd (List.mem_singleton.1 hz ▸ hzx) hself

theorem goesBefore_irrefl (m : Mach) (fresh : List Nat) (x : Item) : ¬goesBefore m fresh x x = true := by
  rw [goesBefore, keyLt_iff]
  omega

theorem bestSoFar_better {m : Mach} {fresh : List Nat} {seen : List Item} {best : Option (Item × Nat × Bool)}
    (h : BestSoFar m fresh seen best) (x : Item) : BestSoFar m fresh (seen ++ [x]) (better m fresh best x) := by
  have hself := goesBefore_irrefl m fresh x
  unfold better
  cases hx : pickCore m (itemLpb m x) (coresOf m x) with
  | none => simpa using bestSoFar_unplaced h hx
  | some p =>
    match best, h with
    | none, h => exact bestSoFar_first h hx hself
    | some (y, q), h =>
      dsimp only
      split
      next hxy => exact bestSoFar_replaced h hx hxy hself
      next hxy => exact bestSoFar_behind h hxy

theorem bestSoFar_foldl (m : Mach) (fresh : List Nat) (l : List Item) {seen : List Item}
    {best : Option (Item × Nat × Bool)} (h : BestSoFar m fresh seen best) :
    BestSoFar m fresh (seen ++ l) (l.foldl (better m fresh) best) := by
  induction l generalizing seen best with
  | nil => simpa using h
  | cons x l ih =>
    have hx := ih (bestSoFar_better h x)
    rwa [List.append_assoc, List.singleton_append] at hx

theorem nextItem_best (m : Mach) (o : Nat) : BestSoFar m (freshOf (items m o)) (items m o) (nextItem m o) :=
  bestSoFar_foldl m (freshOf (items m o)) (items m o) (seen := []) (best := none) (fun _ h => nomatch h)

/-- A visit gives an item only where its owner has work, and no other item than the next; a fresh one is covered. -/
theorem visitItem_some {m : Mach} {o : Nat} {x : Item} {p : Nat × Bool} (h : visitItem m o = some (x, p)) :
    o ∈ workers m ∧ nextItem m o = some (x, p) ∧ ∀ i, x = .fresh i → unitCost (getNode m i).lpb ≤
        (getOwner m o).deficit := by
  unfold visitItem at h
  split at h
  · cases h
  next hw =>
    refine ⟨by simpa using hw, ?_⟩
    split at h
    next i q hi =>
      split at h
      · cases h
      next hd =>
        cases h
        exact ⟨hi, fun j hj => by cases hj; exact Nat.not_lt.1 hd⟩
    next hx => exact ⟨h, fun i hi => absurd h (hi ▸ hx i p)⟩

/-- The machine with its ready records, in which an owner without work has no credit. -/
def sweptOwners (m : Mach) : Mach :=
  { readyRecords m with owners := (readyRecords m).owners.map (fun e =>
      (e.1, if (items (readyRecords m) e.1).isEmpty then { e.2 with deficit := 0 } else e.2)) }

/-- The machine in which an owner is visited, with the credit of its visit. -/
def visited (m : Mach) (o : Nat) : Mach :=
  setOwnerOf { m with wdrr := o } o
      { getOwner m o with deficit := (getOwner m o).deficit + 65536 * (getOwner m o).weight }

/-- The unit that the visit in force places next, or else the visit to the next owner. -/
def servedFrom (m : Mach) : Mach × Option (Item × Nat × Bool) :=
  match visitItem m m.wdrr with
  | some x => (m, some x)
  | none =>
    match nextOwner m m.wdrr with
    | none => (m, none)
    | some o => (visited m o, visitItem (visited m o) o)

theorem serve_eq (m : Mach) : serve m = servedFrom (sweptOwners m) := rfl

theorem serve_visit {m : Mach} {x : Item × Nat × Bool} (h : visitItem (sweptOwners m) (sweptOwners m).wdrr = some x) :
    serve m = (sweptOwners m, some x) := by
  rw [serve_eq, servedFrom, h]

theorem serve_idle {m : Mach} (h : visitItem (sweptOwners m) (sweptOwners m).wdrr = none)
    (hn : nextOwner (sweptOwners m) (sweptOwners m).wdrr = none) : serve m = (sweptOwners m, none) := by
  rw [serve_eq, servedFrom, h, hn]

theorem serve_next {m : Mach} {o : Nat} (h : visitItem (sweptOwners m) (sweptOwners m).wdrr = none)
    (hn : nextOwner (sweptOwners m) (sweptOwners m).wdrr = some o) :
    serve m = (visited (sweptOwners m) o, visitItem (visited (sweptOwners m) o) o) := by
  rw [serve_eq, servedFrom, h, hn]

/-! ### Placement -/

theorem sameCores_startNode (fuel : Nat) (m : Mach) (i : Nat) : (startNode m i fuel).cores = m.cores := by
  induction fuel generalizing m i with
  | zero => rfl
  | succ fuel ih =>
    unfold startNode
    dsimp only
    split
    · split
      · exact (ih ..).trans (onlyCounted_bumpNode ..).cores
      · exact (onlyCounted_bumpNode ..).cores
    · rfl

theorem startNode_keeps {α : Type} (g : Node → α) (hg : ∀ n : Node, g { n with st := .running } = g n) (fuel : Nat)
    (m : Mach)
    (i j : Nat) : g (getNode (startNode m i fuel) j) = g (getNode m j) := by
  induction fuel generalizing m i with
  | zero => rfl
  | succ fuel ih =>
    unfold startNode
    dsimp only
    split
    · split
      · exact (ih ..).trans (bumpNode_keeps g m i hg j)
      · exact bumpNode_keeps g m i hg j
    · rfl

theorem getCtx_of_cores {m m' : Mach} (h : m'.cores = m.cores) (core i : Nat) : getCtx m' core i = getCtx m core i
    := by
  rw [getCtx, getCtx, getCore, getCore, h]

theorem nodes_prepareCore (m : Mach) (core : Nat) (repart : Bool) (l : Lpb) (owner : Nat) :
    (prepareCore m core repart l owner).1.nodes = m.nodes := by
  unfold prepareCore
  dsimp only
  split <;> rfl

/-- The machine in which a fresh unit has its context. -/
def freshPlaced (m : Mach) (i core : Nat) (repart : Bool) : Mach :=
  let n := getNode m i
  let m1 := (prepareCore m core repart n.lpb n.owner).1
  let c := (prepareCore m core repart n.lpb n.owner).2
  joinViews (setCtx m1 core c (freshCtx m1 core (unitInfo m1 core i n.nextU))) core c n.views

/-- That machine with the unit counted in its launch. -/
def freshCounted (m : Mach) (i core : Nat) (repart : Bool) : Mach :=
  startNode (modNode (freshPlaced m i core repart) i (fun n => { n with nextU := n.nextU + 1 })) i 5

theorem placeFresh_eq (m : Mach) (i core : Nat) (repart : Bool) : placeFresh m i core repart =
    if (getNode m i).nextU + 1 < (getNode m i).total then freshCounted m i core repart
    else setQueue (freshCounted m i core repart) (getNode m i).lpb.qid
      { getQueue (freshCounted m i core repart) (getNode m i).lpb.qid with
        entries := (getQueue (freshCounted m i core repart) (getNode m i).lpb.qid).entries.filter
          (fun w => w.toNat != i) } := rfl

theorem cores_placeFresh (m : Mach) (i core : Nat) (repart : Bool) :
    (placeFresh m i core repart).cores = (freshPlaced m i core repart).cores := by
  have h : (freshCounted m i core repart).cores = (freshPlaced m i core repart).cores := sameCores_startNode ..
  rw [placeFresh_eq]
  split <;> exact h

theorem getNode_placeFresh (m : Mach) (i core : Nat) (repart : Bool) :
    (getNode (placeFresh m i core repart) i).nextU = (getNode m i).nextU + 1 := by
  have hk : getNode (freshPlaced m i core repart) i = getNode m i :=
    congrArg (fun l : SMap Node => smGet ({} : Node) l i)
      (nodes_prepareCore m core repart (getNode m i).lpb (getNode m i).owner)
  have h : (getNode (freshCounted m i core repart) i).nextU = (getNode m i).nextU + 1 := by
    refine (startNode_keeps Node.nextU (fun _ => rfl) 5 _ i i).trans ?_
    rw [getNode_modNode, hk]
  rw [placeFresh_eq]
  split <;> exact h

/-- The context that a fresh unit has when it is placed. -/
theorem getCtx_placeFresh (m : Mach) (i core : Nat) (repart : Bool) :
    let n := getNode m i
    let m1 := (prepareCore m core repart n.lpb n.owner).1
    getCtx (placeFresh m i core repart) core (prepareCore m core repart n.lpb n.owner).2 =
      freshCtx m1 core (unitInfo m1 core i n.nextU) :=
  (getCtx_of_cores (cores_placeFresh m i core repart) ..).trans (getCtx_setCtx ..)

theorem smGet_two (a b : Nat) (x y : Scalar) (h : a ≠ b) : smGet {} (smPut {} (smPut {} [] a x) b y) a = x ∧
    smGet {} (smPut {} (smPut {} [] a x) b y) b = y ∧
    ∀ r, r ≠ a → r ≠ b → smGet {} (smPut {} (smPut {} [] a x) b y) r = {} :=
  ⟨(smGet_put_ne _ _ h _).trans (smGet_put_same ..), smGet_put_same ..,
    fun _ ha hb => (smGet_put_ne _ _ hb _).trans ((smGet_put_ne _ _ ha _).trans rfl)⟩

theorem ofNat_mod_word (x : Nat) : BitVec.ofNat 64 (x % 256 ^ 8) = BitVec.ofNat 64 x := by
  apply BitVec.eq_of_toNat_eq
  rw [BitVec.toNat_ofNat, BitVec.toNat_ofNat]
  exact Nat.mod_mod _ _

/-! ### The owner service's events -/

/-- What the owner service does with what it found. -/
def afterServe : Mach × Option (Item × Nat × Bool) → Mach
  | (m, some (.fresh i, core, repart)) =>
    placeFresh (setOwnerOf m (getNode m i).owner { getOwner m (getNode m i).owner with
      deficit := (getOwner m (getNode m i).owner).deficit - unitCost (getNode m i).lpb }) i core repart
  | (m, _) => m

/-- A record that is taken up, after what its read gave. -/
def takenUp (m : Mach) (r : Record) (core : Nat) (repart : Bool) : Except (Byte × Word) Nat → Mach
  | .error _ => failRecord m r
  | .ok x => if x ≠ r.bytes ∨ recordBad m r.launch x then failRecord m r else resumeRecord m r x core repart

/-- What the take-up of a record does with what the owner service found. -/
def afterTakeUp (m0 : Mach) : Mach × Option (Item × Nat × Bool) → Mach
  | (m, some (.resumed r, core, repart)) =>
    takenUp m r core repart (readVa m { core := 18 * r.part, part := r.part, owner := r.unit.owner } r.va 64)
  | _ => m0

theorem serveOwners_eq (m : Mach) : serveOwners m = if m.noPlace then m else afterServe (serve m) := rfl

theorem exec_unitPlace_eq {s : State} (hrun : s.m.phase = .running) :
    exec .unitPlace s = .next { s with m := if s.m.noPlace then s.m else afterServe (serve s.m) } := by
  rw [exec_unitPlace, execUnitPlace, whenRunning, onMach]
  exact next_congr (if_pos hrun)

theorem exec_recordTakeUp_eq {s : State} (hrun : s.m.phase = .running) :
    exec .recordTakeUp s = .next { s with m := if s.m.noPlace then s.m else afterTakeUp s.m (serve s.m) } := by
  rw [exec_recordTakeUp, execRecordTakeUp, whenRunning, onMach]
  refine next_congr ((if_pos hrun).trans ?_)
  rcases serve s.m with ⟨m1, _ | ⟨_ | r, core, repart⟩⟩ <;> rfl

theorem owners_halted {s : State} (h : s.m.noPlace = true) :
    exec .unitPlace s = .next s ∧ exec .recordTakeUp s = .next s := by
  by_cases hrun : s.m.phase = .running
  · rw [exec_unitPlace_eq hrun, exec_recordTakeUp_eq hrun, if_pos h, if_pos h]
    exact ⟨rfl, rfl⟩
  · rw [exec_unitPlace, execUnitPlace, exec_recordTakeUp, execRecordTakeUp]
    exact ⟨whenRunning_of_not hrun _, whenRunning_of_not hrun _⟩

section
variable {s : State} {m1 : Mach} {x : Option (Item × Nat × Bool)}
  (hrun : s.m.phase = .running) (hno : s.m.noPlace = false) (hs : serve s.m = (m1, x))
include hrun hno hs

theorem exec_unitPlace_serve : exec .unitPlace s = .next { s with m := afterServe (m1, x) } := by
  rw [exec_unitPlace_eq hrun, hs]
  exact next_congr (if_neg (Bool.eq_false_iff.1 hno))

theorem exec_recordTakeUp_serve : exec .recordTakeUp s = .next { s with m := afterTakeUp s.m (m1, x) } := by
  rw [exec_recordTakeUp_eq hrun, hs]
  exact next_congr (if_neg (Bool.eq_false_iff.1 hno))

end

end Sys2Proof.Machine

open Sys2Proof Sys2Proof.Machine

/-- Settles O37: the next unit is the first in its owner's order that has a place, as the search keeps at every
    item; a fresh
unit's context is the one that the placement sets. -/
theorem unitsArePlaced : Obligations.UnitsArePlaced := by
  unfold Obligations.UnitsArePlaced
  refine ⟨⟨fun s h => owners_halted h, ?served, ?first, ?order, ?events, ?fresh⟩, ?susp⟩
  case served =>
    intro m m0 m1
    exact ⟨fun x h => serve_visit h, fun h hn => serve_idle h hn, fun o h hn => serve_next h hn⟩
  case first =>
    intro m o x p h
    obtain ⟨hw, hn, hcost⟩ := visitItem_some h
    have hb := nextItem_best m o
    rw [hn] at hb
    obtain ⟨hx, hp, hno⟩ := hb
    exact ⟨hx, hw, hp, hno, hcost⟩
  case order => exact fun m xs => ⟨fun i j h => goesBefore_fresh m xs h, fun r i h hp => goesBefore_resumed r h hp⟩
  case events =>
    intro s m1 hrun hno
    refine ⟨fun i core repart hs => ⟨exec_unitPlace_serve hrun hno hs, exec_recordTakeUp_serve hrun hno hs⟩,
      fun hs => ⟨exec_unitPlace_serve hrun hno hs, exec_recordTakeUp_serve hrun hno hs⟩,
      fun r core repart hs =>
          ⟨exec_unitPlace_serve hrun hno hs, fun x hx hb hr => ?_, fun x hx hb => ?_, fun e he => ?_⟩⟩ <;>
      refine (exec_recordTakeUp_serve hrun hno hs).trans (next_congr ?_) <;> rw [afterTakeUp]
    · rw [hx]
      exact if_neg fun h => h.elim (fun h => h hb) fun h => Bool.eq_false_iff.1 hr h
    · rw [hx]
      exact if_pos hb
    · rw [he]
      rfl
  case fresh =>
    intro m i core repart n slot m' c
    have hc := getCtx_placeFresh m i core repart
    have hl : getNode (prepareCore m core repart n.lpb n.owner).1 i = n :=
      congrArg (fun l : SMap Node => smGet ({} : Node) l i) (nodes_prepareCore m core repart n.lpb n.owner)
    have hu : (getNode m' i).nextU = n.nextU + 1 := getNode_placeFresh m i core repart
    obtain ⟨h1, h2, ho⟩ := smGet_two 1 2 { val := n.lpb.argp } { val := BitVec.ofNat 64 n.nextU } (by decide)
    have hf : c = freshCtx (prepareCore m core repart n.lpb n.owner).1 core
        (unitInfo (prepareCore m core repart n.lpb n.owner).1 core i n.nextU) := hc
    generalize (prepareCore m core repart n.lpb n.owner).1 = m1 at hf hl
    rw [hf, freshCtx, unitStart, unitInfo]
    rw [hl]
    exact ⟨rfl, rfl, rfl, rfl, rfl, rfl, rfl, h1, h2, ho, rfl, rfl, rfl, rfl, rfl, rfl, rfl, rfl, rfl, rfl, hu⟩
  case susp =>
    intro m x core u c l
    obtain ⟨h1, h63, ho⟩ := smGet_two 1 63 { val := BitVec.ofNat 64 (x / 256 ^ 48 % 256 ^ 8) }
      { val := BitVec.ofNat 64 (x / 256 ^ 8 % 256 ^ 8) } (by decide)
    refine ⟨rfl, rfl, ?_, rfl, h1.trans ?_, h63.trans ?_, ho, rfl, rfl⟩
    · show BitVec.ofNat 32 ((BitVec.ofNat 64 (x / 256 ^ 0 % 256 ^ 8) - l.csb).toNat / 12) = _
      rw [Nat.pow_zero, Nat.div_one]
      rfl
    · rw [ofNat_mod_word]
    · rw [ofNat_mod_word]
end

section
/-!
PROOFS. The end of units, and the status of a node whose children have all ended.
-/
namespace Sys2Proof.Machine

/-! ### What an end leaves of the machine -/

theorem cores_setRound (m : Mach) (k : Nat) (x : Round) : (setRound m k x).cores = m.cores := rfl

theorem cores_freshCounts (m : Mach) (k : Nat) : (freshCounts m k).cores = m.cores := by
  simp only [freshCounts, apply_ite Mach.cores, cores_setRound, ite_self]

theorem cores_excludeRank (m : Mach) (k rank : Nat) (down : Bool) : (excludeRank m k rank down).cores = m.cores := by
  unfold excludeRank
  split
  · rfl
  · simp only [apply_ite Mach.cores, cores_setRound, bumpRank, cores_freshCounts, ite_self]

theorem cores_excludeAll (m : Mach) (k : Nat) (e : BitVec 512) (rank : Nat) (report down : Bool) :
    (excludeAll m k e rank report down).cores = m.cores := by
  refine foldl_keeps Mach.cores (fun m a => ?_) _ m
  split
  · rfl
  · split
    · split
      · exact cores_excludeRank ..
      · rfl
    · split <;> rfl

theorem cores_excludeUnit (m : Mach) (part core : Nat) : (excludeUnit m part core).cores = m.cores := by
  refine foldl_keeps Mach.cores (fun m g => ?_) _ m
  split
  · exact cores_excludeAll ..
  · rfl

/-- Waking the contexts of a core changes nothing of a context but that it may try again. -/
theorem wakeCore_ctx {α : Type} (g : Ctx → α) (hg : ∀ c : Ctx, g { c with retry := true } = g c) (m : Mach)
    (core i : Nat) : g (getCtx (wakeCore m core) core i) = g (getCtx m core i) := by
  unfold getCtx wakeCore
  rw [getCore_modCore]
  refine rel_smGet_map (R := fun x y : Ctx => g y = g x)
    (f := fun e => if e.2.st = .stalled then { e.2 with retry := true } else e.2) {} rfl (fun e => ?_) _ i
  split
  · exact hg _
  · rfl

/-- The core of a context that leaves it. -/
def leftCore (k : Core) (i : Nat) (discard : Bool) : Core := { disownRows k i with arr := releaseArr k.arr i discard }

theorem freeCtx_eq (m : Mach) (core i : Nat) (discard : Bool) : freeCtx m core i discard =
    wakeCore (modCtx (modCore (leaveQueues m core i) core fun k => leftCore k i discard) core i idleCtx) core := rfl

theorem freeCtx_st (m : Mach) (core i : Nat) (discard : Bool) :
    (getCtx (freeCtx m core i discard) core i).st = if (getCtx m core i).arr then .dormant else .free := by
  refine (wakeCore_ctx Ctx.st (fun _ => rfl) _ core i).trans ?_
  rw [getCtx_modCtx, idleCtx]
  exact congrArg (fun c : Ctx => if c.arr then CtxState.dormant else CtxState.free)
    (getCtx_modCore (leaveQueues m core i) core i (f := fun k => leftCore k i discard) (fun _ => rfl) core)

theorem freeCtx_unit (m : Mach) (core i : Nat) (discard : Bool) :
    (getCtx (freeCtx m core i discard) core i).unit = none := by
  refine (wakeCore_ctx Ctx.unit (fun _ => rfl) _ core i).trans ?_
  rw [getCtx_modCtx]
  rfl

theorem freeCtx_alloc (m : Mach) (core i : Nat) (discard : Bool) :
    (getCore (freeCtx m core i discard) core).alloc = (getCore m core).alloc := by
  rw [freeCtx_eq]
  refine (wakeCore_keeps Core.alloc (fun _ _ => rfl) _ core core).trans ?_
  rw [modCtx, setCtx, getCore_modCore, setCtxOf, getCore_modCore]
  simp only [leftCore, disownRows]
  rfl

theorem freeCtx_mem (m : Mach) (core i : Nat) (discard : Bool) : (freeCtx m core i discard).mem = m.mem := by
  simp [freeCtx_eq, wakeCore, modCtx, setCtx, leaveQueues]

/-! ### The end of a unit -/

/-- Does an allocation stay when the unit or handler of a context ends? -/
def allocStays (m : Mach) (core i : Nat) (a : Alloc) : Bool :=
  (a.freeing && namedByCmd m core a.base (allocSpan a.nblk)) || !(a.ctx == i && a.pinned.isNone)

/-- The core with those allocations of a context. -/
def endAllocs (m : Mach) (core i : Nat) (k : Core) : Core :=
  { k with alloc := k.alloc.filter (fun a => allocStays m core i a.2) }

/-- The machine with a context's allocations and the context itself freed. -/
def endFreed (m : Mach) (core i : Nat) : Mach :=
  freeCtx (modCore m core (endAllocs m core i)) core i false

/-- That machine once the end has been reported to the reduction groups. -/
def endReported (m : Mach) (core i : Nat) (e : Ending) : Mach :=
  if (getCtx m core i).unit.isSome ∧ !(getCtx m core i).arr ∧ e ≠ .ok then
    excludeUnit (endFreed m core i) (getCtx m core i).area core
  else endFreed m core i

theorem finishEnd_eq (m : Mach) (core i : Nat) (e : Ending) : finishEnd m core i e =
    match (getCtx m core i).unit with
    | some u => if (getCtx m core i).arr then endReported m core i e
        else countUnit (markRan (endReported m core i e) u.launch core) u.launch (endedStatus e).1 (endedStatus e).2
    | none => endReported m core i e := rfl

theorem finishEnd_unit {m : Mach} {core i : Nat} (e : Ending) {u : UnitInfo} (hu : (getCtx m core i).unit = some u)
    (ha : (getCtx m core i).arr = false) : finishEnd m core i e =
    countUnit (markRan (endReported m core i e) u.launch core) u.launch (endedStatus e).1 (endedStatus e).2 := by
  rw [finishEnd_eq, hu]
  exact if_neg (Bool.eq_false_iff.1 ha)

theorem finishEnd_other {m : Mach} {core i : Nat} (e : Ending)
    (h : (getCtx m core i).unit = none ∨ (getCtx m core i).arr = true) : finishEnd m core i e = endReported m core
        i e := by
  rw [finishEnd_eq]
  split
  next u hu => exact if_pos (h.resolve_left fun hn => by rw [hn] at hu; cases hu)
  next => rfl

theorem cores_endReported (m : Mach) (core i : Nat) (e : Ending) :
    (endReported m core i e).cores = (endFreed m core i).cores := by
  unfold endReported
  split
  · exact cores_excludeUnit ..
  · rfl

theorem endFreed_st (m : Mach) (core i : Nat) :
    (getCtx (endFreed m core i) core i).st = if (getCtx m core i).arr then .dormant else .free := by
  rw [endFreed, freeCtx_st, getCtx_modCore _ core i (f := endAllocs m core i) (fun _ => rfl) core]

theorem mem_alloc_endFreed {m : Mach} {core i : Nat} {a : Nat × Alloc}
    (h : a ∈ (getCore (endFreed m core i) core).alloc)
    (hi : a.2.ctx = i) :
    a.2.pinned.isSome = true ∨ a.2.freeing = true ∧ namedByCmd m core a.2.base (allocSpan a.2.nblk) = true := by
  rw [endFreed, freeCtx_alloc, getCore_modCore] at h
  have hs := (List.mem_filter.1 h).2
  rw [allocStays, hi] at hs
  rcases hp : a.2.pinned with _ | p
  · right
    simpa [hp] using hs
  · exact .inl rfl

theorem endReported_mem (m : Mach) (core i : Nat) (e : Ending) (h : (getCtx m core i).arr = true) :
    (endReported m core i e).mem = m.mem := by
  unfold endReported
  rw [if_neg fun hh => by rw [h] at hh; exact absurd hh.2.1 (by decide)]
  rw [endFreed, freeCtx_mem, modCore_mem]

/-- The cores after the count are those of a machine in which the context is freed. -/
theorem cores_finishEnd (m : Mach) (core i : Nat) (e : Ending) :
    (finishEnd m core i e).cores = (endFreed m core i).cores := by
  rw [← cores_endReported m core i e, finishEnd_eq]
  split
  · split
    · rfl
    · exact (onlyCounted_countUnit ..).cores
  · rfl

/-! ### The event of an end -/

/-- What a unit left behind when it was suspended or pre-empted. -/
def leftBehind (c : Ctx) : List (Nat × Nat) := (c.unit.map (·.orphans)).getD []

/-- Are the steps of an end yet to be done? -/
def EndOpen (m : Mach) (core i : Nat) : Prop :=
  ctxQuiet m core i m.tag = false ∨ ctxCmds (getCore m core) i = true ∨ restOpen m core i = true ∨
    ∃ x ∈ leftBehind (getCtx m core i), orphanDone m x = false

theorem endOpen_iff (m : Mach) (core i : Nat) : EndOpen m core i ↔
    !(ctxQuiet m core i m.tag) ∨ ctxCmds (getCore m core) i ∨ restOpen m core i ∨
      !((leftBehind (getCtx m core i)).all (orphanDone m)) := by
  simp only [EndOpen, Bool.not_eq_true', List.all_eq_false, Bool.not_eq_true]

section
variable {s : State} {core i : Nat} (hrun : s.m.phase = .running) (hst : (getCtx s.m core i).st = .waiting)
include hrun hst

theorem exec_unitEnd_ending {e : Ending} (hw : (getCtx s.m core i).wait = some .ending)
    (he : (getCtx s.m core i).ending = some e) [Decidable (EndOpen s.m core i)] : exec (.unitEnd core i) s =
    .next { s with m := if EndOpen s.m core i then s.m else finishEnd s.m core i e } := by
  rw [exec_unitEnd, execUnitEnd, whenRunning, onMach]
  refine next_congr ((if_pos hrun).trans ((if_neg (not_not_intro hst)).trans ?_))
  rw [hw, he]
  exact if_congr (endOpen_iff s.m core i).symm rfl rfl

theorem exec_unitEnd_susp {z : Susp} {u : UnitInfo} (hw : (getCtx s.m core i).wait = some .susp)
    (hz : (getCtx s.m core i).susp = some z) (hu : (getCtx s.m core i).unit = some u) : exec (.unitEnd core i) s =
    .next { s with m := if suspQuiet s.m core i s.m.tag = false then s.m
      else if (getCtx s.m core i).cancelled then beginEnd s.m core i .cancelled
      else finishSusp s.m core i (getCtx s.m core i) u z } := by
  rw [exec_unitEnd, execUnitEnd, whenRunning, onMach]
  refine next_congr ((if_pos hrun).trans ((if_neg (not_not_intro hst)).trans ?_))
  rw [hw, hz, hu]
  exact if_congr (by rw [Bool.not_eq_true']) rfl rfl

end

/-! ### The status of a node -/

theorem settleNode_open {m : Mach} {i : Nat} (fuel : Nat)
    (h : (getNode m i).live = false ∨ nodeTerminal (getNode m i) = true ∨
    (getNode m i).ended < (getNode m i).total) : settleNode m i (fuel + 1) = m := by
  rw [settleNode_succ]
  refine if_pos ?_
  rcases h with h | h | h <;> simp [h]

theorem settleNode_root {m : Mach} {i : Nat} (fuel : Nat) (hl : (getNode m i).live = true)
    (ht : nodeTerminal (getNode m i) = false) (he : (getNode m i).total ≤ (getNode m i).ended)
    (hp : (getNode m i).parent = none) : settleNode m i (fuel + 1) = bumpNode m i endedNode := by
  rw [settleNode_succ, if_neg (by simp [hl, ht, he])]
  dsimp only
  rw [getNode_bumpNode, show (endedNode (getNode m i)).parent = none from hp]

end Sys2Proof.Machine

open Sys2Proof Sys2Proof.Machine

/-- Settles O38: the machine before the count has the context freed and of its allocations those that stay; the
    count leaves
the cores as they are. -/
theorem unitsEnd : Obligations.UnitsEnd := by
  unfold Obligations.UnitsEnd
  refine ⟨fun s core i hrun hst =>
      ⟨fun e hw he => ⟨fun h => ?open_, fun hq hc hr hl => ?done⟩, fun z u hw hz hu => ?susp⟩,
    fun m i fuel => ⟨settleNode_open fuel, fun hl ht he hp => ?_⟩⟩
  case open_ =>
    classical
    exact (exec_unitEnd_ending hrun hst hw he).trans (next_congr (if_pos h))
  case done =>
    classical
    have hopen : ¬EndOpen s.m core i := by
      rintro (h | h | h | ⟨x, hx, h⟩)
      · exact Bool.false_ne_true (h.symm.trans hq)
      · exact Bool.false_ne_true (hc.symm.trans h)
      · exact Bool.false_ne_true (hr.symm.trans h)
      · exact Bool.false_ne_true (h.symm.trans (hl x hx))
    have hcores := cores_endReported s.m core i e
    have hfreed : (if (getCtx s.m core i).unit = none ∨ (getCtx s.m core i).arr = true then endReported s.m core i e
        else markRan (endReported s.m core i e) (((getCtx s.m core i).unit.map (·.launch)).getD 0) core).cores =
          (endFreed s.m core i).cores := by
      rw [apply_ite Mach.cores]
      exact (ite_self _).trans hcores
    refine ⟨if (getCtx s.m core i).unit = none ∨ (getCtx s.m core i).arr = true then endReported s.m core i e
        else markRan (endReported s.m core i e) (((getCtx s.m core i).unit.map (·.launch)).getD 0) core,
      finishEnd s.m core i e, (exec_unitEnd_ending hrun hst hw he).trans (next_congr (if_neg hopen)), ?_, ?_, ?_,
          ?_, ?_, ?_⟩
    · rw [getCtx_of_cores (cores_finishEnd ..), endFreed_st]
    · rw [getCtx_of_cores (cores_finishEnd ..)]
      exact freeCtx_unit ..
    · intro a ha
      refine mem_alloc_endFreed ?_
      have hk : ∀ m : Mach, m.cores = (endFreed s.m core i).cores → getCore m core = getCore (endFreed s.m core i)
          core :=
        fun m h => congrArg (fun l : SMap Core => smGet ({} : Core) l core) h
      rw [← hk _ hfreed]
      exact ha
    · intro u hu ha
      rw [if_neg (by simp [hu, ha]), finishEnd_unit e hu ha, hu]
      cases e <;> rfl
    · intro h
      rw [if_pos h, finishEnd_other e h]
    · intro h
      rw [finishEnd_other e (.inr h), endReported_mem s.m core i e h]
  case susp =>
    have hex := exec_unitEnd_susp hrun hst hw hz hu
    refine ⟨fun h => hex.trans (next_congr (if_pos (Bool.not_eq_true _ ▸ h))), fun h hcan => hex.trans
        (next_congr ?_),
      fun h hcan => hex.trans (next_congr ?_)⟩
    · exact (if_neg (by simp [h])).trans (if_pos hcan)
    · exact (if_neg (by simp [h])).trans (if_neg (by simp [hcan]))
  · rw [settleNode_root fuel hl ht he hp, getNode_bumpNode]
    rfl
end

section
/-!
PROOFS. Evaluations of phases, nodes of graphs and their conditions, and the counts of use.
-/
namespace Sys2Proof.Machine

/-! ### Phases -/

/-- The machine after the evaluation that follows an ended phase: the phase counts in its job. -/
def afterPhase (m : Mach) (job : Nat) (j : JobInfo) (p : Node) : Mach :=
  let m1 := modNode m job (fun n => { n with job := some { j with cur := none } })
  settleNode (bumpNode (if p.childFailed then m1 else evaluate m1 job) job
    (fun n => countChild n (p.st == .failed) p.cause)) job 5

section
variable {s : State} {job ph : Nat} {j : JobInfo} (hrun : s.m.phase = .running) (hj : (getNode s.m job).job = some j)
  (hc : j.cur = some ph)
include hrun hj hc

theorem exec_phaseEvaluation_open (h : nodeTerminal (getNode s.m ph) = false) :
    exec (.phaseEvaluation job) s = .next s := by
  rw [exec_phaseEvaluation, execPhaseEvaluation, whenRunning, onMach]
  refine next_congr ((if_pos hrun).trans ?_)
  dsimp only
  rw [hj]
  dsimp only
  rw [hc]
  exact if_pos (.inr (.inr (by rw [h]; rfl)))

theorem exec_phaseEvaluation_ended (hl : (getNode s.m job).live = true) (ht : nodeTerminal (getNode s.m job) = false)
    (h : nodeTerminal (getNode s.m ph) = true) :
    exec (.phaseEvaluation job) s = .next { s with m := afterPhase s.m job j (getNode s.m ph) } := by
  rw [exec_phaseEvaluation, execPhaseEvaluation, whenRunning, onMach]
  refine next_congr ((if_pos hrun).trans ?_)
  dsimp only
  rw [hj]
  dsimp only
  rw [hc]
  exact if_neg (by simp [hl, ht, h])

end

/-! ### Nodes of a graph -/

/-- The entry of a node of a graph. -/
def nodeEntry (m : Mach) (graph node : Nat) (g : GraphInfo) : Nat :=
  entry32 m (whoOwner m (getNode m graph).owner) (nodeEntryVa g node)

/-- What became of a node's predecessors. -/
def nodeEnds (m : Mach) (graph node : Nat) (g : GraphInfo) : List (Option Bool) :=
  ((List.range node).filter (fun i => nodeEntry m graph node g / 256 ^ 8 / 2 ^ i % 2 == 1)).map (graphNodeDone m g)

/-- The result words that a node's condition speaks of. -/
def nodeResults (m : Mach) (graph : Nat) : List Nat :=
  (((jobOf m graph 5).bind (fun j => (getNode m j).job)).map
    (resultWords m (whoOwner m (getNode m graph).owner))).getD []

/-- A node counted as considered, with its launch. -/
def markNode (m : Mach) (graph node i : Nat) : Mach :=
  modNode m graph (fun n => { n with graph := n.graph.map (fun g => { g with
    considered := g.considered ||| BitVec.ofNat 32 (2 ^ node), nodes := smPut 0 g.nodes node i }) })

/-- The machine after the submission of a node's launch: a refused one is reported and counts as a failed node. -/
def nodeSubmitted (m0 : Mach) (graph node : Nat) (g : GraphInfo) : Mach × Submitted → Mach
  | (m, .id i) => markNode m graph node i
  | (m, .refused c) =>
    settleNode (bumpNode (markNode (hostEvent m (getNode m0 graph).owner 1 c.toNat
      (whoOwner m0 (getNode m0 graph).owner).part 0 (nodeEntry m0 graph node g % 2 ^ 64)) graph node 0) graph
      (fun n => countChild n true c)) graph 5

/-- The machine after a node is considered: its launch is submitted or it is skipped. -/
def afterConsider (m : Mach) (graph node : Nat) (g : GraphInfo) : Mach :=
  if (nodeEnds m graph node g).all (· == some true) && condHolds (nodeResults m graph)
      (nodeEntry m graph node g / 256 ^ 16 % 2 ^ 64) then
    nodeSubmitted m graph node g (submitLaunch m (whoOwner m (getNode m graph).owner)
      (BitVec.ofNat 64 (nodeEntry m graph node g % 2 ^ 64)) (some graph) false [])
  else settleNode (skipGraphNode m graph node) graph 5

section
variable {s : State} {graph node : Nat} {g : GraphInfo} (hrun : s.m.phase = .running)
  (hg : (getNode s.m graph).graph = some g) 
include hrun hg

theorem exec_nodeConsider_blocked (h : g.considered.getLsbD node = true ∨ none ∈ nodeEnds s.m graph node g) :
    exec (.nodeConsider graph node) s = .next s := by
  rw [exec_nodeConsider, execNodeConsider, whenRunning, onMach]
  refine next_congr ((if_pos hrun).trans ?_)
  dsimp only
  rw [hg]
  refine if_pos (.inr (.inr (.inr (h.imp id fun h => ?_))))
  exact List.contains_iff_mem.2 h

variable (hl : (getNode s.m graph).live = true)
  (ht : nodeTerminal (getNode s.m graph) = false) (hn : node < g.nn) (hcon : g.considered.getLsbD node = false)
include hl ht hn hcon

theorem exec_nodeConsider_eq (hends : none ∉ nodeEnds s.m graph node g) :
    exec (.nodeConsider graph node) s = .next { s with m := afterConsider s.m graph node g } := by
  have hres : (match (jobOf s.m graph 5).bind (fun j => (getNode s.m j).job) with
      | some j => resultWords s.m (whoOwner s.m (getNode s.m graph).owner) j
      | none => []) = nodeResults s.m graph := by
    rw [nodeResults]
    cases (jobOf s.m graph 5).bind (fun j => (getNode s.m j).job) <;> rfl
  have hopen : ¬(!(getNode s.m graph).live ∨ nodeTerminal (getNode s.m graph) ∨ g.nn ≤ node ∨ g.considered.getLsbD
      node ∨
      (nodeEnds s.m graph node g).contains none) := by
    simp [hl, ht, hn, hcon, hends]
  rw [exec_nodeConsider, execNodeConsider, whenRunning, onMach]
  refine next_congr ((if_pos hrun).trans ?_)
  dsimp only
  rw [hg]
  refine (if_neg hopen).trans ?_
  refine if_congr (iff_of_eq (congrArg (fun r => ((nodeEnds s.m graph node g).all (· == some true) &&
    condHolds r (nodeEntry s.m graph node g / 256 ^ 16 % 2 ^ 64)) = true) hres)) ?_ rfl
  rfl

end

/-! ### Conditions -/

theorem not_slt_iff (w v : Word) : (!(BitVec.slt w v)) = true ↔ v.toInt ≤ w.toInt := by
  rw [Bool.not_eq_true', Bool.eq_false_iff, ne_eq, BitVec.slt_iff_toInt_lt, Int.not_lt]

/-! ### Counts of use -/

/-- A count with what an owner has used added. -/
def addUsage (u : Usage) (a : Owner) : Usage :=
  { cycles := u.cycles + a.cycles, beats := u.beats + a.beats, lentIn := u.lentIn + a.lentIn, lentOut := u.lentOut
      + a.lentOut }

theorem addUsage_none (u : Usage) : addUsage u {} = u := rfl

/-- One owner's counts forwarded. -/
def forward (t : SMap Usage) (e : Nat × Owner) : SMap Usage := smPut {} t e.1
    (addUsage (smGet ({} : Usage) t e.1) e.2)

/-- An owner without its counts. -/
def zeroUsage (a : Owner) : Owner := { a with cycles := 0, beats := 0, lentIn := 0, lentOut := 0 }

theorem smGet_of_lt {α : Type} (d : α) {l : SMap α} {k : Nat} (h : ∀ e ∈ l, k < e.1) : smGet d l k = d := by
  induction l with
  | nil => rfl
  | cons e l ih =>
    rw [smGet, if_neg (Nat.ne_of_gt (h e List.mem_cons_self))]
    exact ih fun f hf => h f (List.mem_cons_of_mem _ hf)

/-- Forwarding adds each owner's counts to its own, where no owner is listed twice. -/
theorem smGet_forward {l : SMap Owner} (h : l.Pairwise (fun e f => e.1 < f.1)) (t : SMap Usage) (o : Nat) :
    smGet {} (l.foldl forward t) o = addUsage (smGet {} t o) (smGet {} l o) := by
  induction l generalizing t with
  | nil => exact (addUsage_none _).symm
  | cons e l ih =>
    obtain ⟨hlt, hl⟩ := List.pairwise_cons.1 h
    rw [List.foldl_cons, ih hl, forward, smGet]
    by_cases he : e.1 = o
    · subst he
      rw [smGet_put_same, smGet_of_lt {} hlt, addUsage_none, if_pos rfl]
    · rw [smGet_put_ne _ _ (Ne.symm he), if_neg he]

theorem smGet_zeroUsage (l : SMap Owner) (o : Nat) :
    smGet {} (l.map fun e => (e.1, zeroUsage e.2)) o = zeroUsage (smGet {} l o) := by
  induction l with
  | nil => rfl
  | cons e l ih =>
    rw [List.map_cons, smGet, smGet]
    split
    · rfl
    · exact ih

theorem exec_usageForward_eq {s : State} (hrun : s.m.phase = .running) : exec .usageForward s = .next
    { s with
      m := { s.m with owners := s.m.owners.map (fun e => (e.1, zeroUsage e.2)) }
      trust := { s.trust with usage := s.m.owners.foldl forward s.trust.usage } } := by
  rw [exec_usageForward, execUsageForward]
  exact congrArg Host.Outcome.next (if_neg (not_not_intro hrun))

end Sys2Proof.Machine

open Sys2Proof Sys2Proof.Machine

/-- Settles O39: each event's guards decide its case; the counts go owner by owner, none listed twice. -/
theorem graphsAndUsage : Obligations.GraphsAndUsage := by
  unfold Obligations.GraphsAndUsage
  refine ⟨fun s job ph j hrun hj hc => ⟨exec_phaseEvaluation_open hrun hj hc, exec_phaseEvaluation_ended hrun hj hc⟩,
    ?node, ?cond, fun s hrun hwf =>
        ⟨_, exec_usageForward_eq hrun, fun o => ⟨smGet_forward ((smWf_iff _ _).1 hwf).2 _ o,
      smGet_zeroUsage s.m.owners o⟩, rfl⟩⟩
  case node =>
    intro s graph node g hrun hg hl ht hn o w x ends res holds marked
    refine ⟨fun h => exec_nodeConsider_blocked hrun hg (.inl h), fun h => exec_nodeConsider_blocked hrun hg (.inr h),
      fun hcon hends h => (exec_nodeConsider_eq hrun hg hl ht hn hcon hends).trans (next_congr (if_neg ?_)),
      fun hcon hall hh => ?_⟩
    · intro hall
      obtain ⟨ha, hc⟩ := Bool.and_eq_true_iff.1 hall
      rcases h with h | h
      · exact absurd (List.all_eq_true.1 ha _ h) (by decide)
      · exact Bool.false_ne_true (h.symm.trans hc)
    · have hends : none ∉ nodeEnds s.m graph node g := fun h => nomatch hall _ h
      have hgo : ((nodeEnds s.m graph node g).all (· == some true) && condHolds (nodeResults s.m graph)
          (nodeEntry s.m graph node g / 256 ^ 16 % 2 ^ 64)) = true :=
        Bool.and_eq_true_iff.2 ⟨List.all_eq_true.2 fun e he => beq_iff_eq.2 (hall e he), hh⟩
      have hex := (exec_nodeConsider_eq hrun hg hl ht hn hcon hends).trans (next_congr (if_pos hgo))
      refine ⟨fun m1 i hs => hex.trans (next_congr ?_), fun m1 c hs => hex.trans (next_congr ?_)⟩
      · exact congrArg (nodeSubmitted s.m graph node g) hs
      · exact congrArg (nodeSubmitted s.m graph node g) hs
  case cond =>
    intro res x w v
    refine ⟨fun h => ?_, fun h => ?_, fun h => ?_, fun h => ?_, fun h => ?_, fun h => ?_, fun h => ?_, fun h => ?_⟩
        <;>
      unfold condHolds <;> rw [h] <;> dsimp only
    · rfl
    · exact beq_iff_eq
    · exact bne_iff_ne
    · exact BitVec.slt_iff_toInt_lt
    · exact not_slt_iff _ _
    · exact bne_iff_ne
    · exact beq_iff_eq
    · rfl
end

section
/-!
PROOFS. Lending a partition, its recall, and the return of its cluster.
-/
namespace Sys2Proof.Machine

/-! ### Loans -/

section
variable {s : State} {vf o p : Nat} {mask : BitVec 256} (h : BoundVf s vf o)
include h

theorem exec_recallLend_eq : exec (.recallLend vf p) s = .next
    ⟨if (getPart s.m p).owner = some o ∧ (getPart s.m p).lent ∧ (getPart s.m p).recallAt.isNone then startRecall s.m p
      else s.m, s.trust⟩ := by
  rw [exec_recallLend, execRecallLend, withVf_bound h]

theorem exec_lend_other (ho : (getPart s.m p).owner ≠ some o) : exec (.lend vf p mask) s = .next s := by
  rw [exec_lend, execLend, withVf_bound h]
  exact next_congr (if_pos ho)

theorem exec_lend_zero (ho : (getPart s.m p).owner = some o) (hm : mask = 0) :
    exec (.lend vf p mask) s = exec (.recallLend vf p) s := by
  rw [exec_recallLend_eq h, exec_lend, execLend, withVf_bound h]
  refine next_congr ((if_neg (not_not_intro ho)).trans ((if_pos hm).trans ?_))
  exact if_congr (by rw [and_iff_right ho]) rfl rfl

theorem exec_lend_refused (ho : (getPart s.m p).owner = some o) (hm : mask ≠ 0)
    (hb : (getPart s.m p).recallAt ≠ none ∨ runsUnitOf s.m p o = true) :
    exec (.lend vf p mask) s = .next { s with m := report s.m vf o 4 0 0 0 } := by
  rw [exec_lend, execLend, withVf_bound h]
  refine next_congr ((if_neg (not_not_intro ho)).trans ((if_neg hm).trans (if_pos (hb.imp_left fun hr => ?_))))
  exact Option.isSome_iff_ne_none.2 hr

theorem exec_lend_lends (ho : (getPart s.m p).owner = some o) (hm : mask ≠ 0) (hr : (getPart s.m p).recallAt = none)
    (hu : runsUnitOf s.m p o = false) : exec (.lend vf p mask) s =
      .next { s with m := setPart s.m p { getPart s.m p with lendto := mask, lent := true } } := by
  rw [exec_lend, execLend, withVf_bound h]
  exact next_congr ((if_neg (not_not_intro ho)).trans ((if_neg hm).trans (if_neg (by simp [hr, hu]))))

end

/-! ### Notices of borrowers -/

theorem getCore_dropNotices_ne (m : Mach) {c core : Nat} (h : core ≠ c) :
    getCore (dropNotices m c) core = getCore m core := getCore_setCore_ne m h _

/-- What the discard of the notices of some cores leaves of a core. -/
theorem getCore_foldl_dropNotices (l : List Nat) (m : Mach) (k : Nat) : getCore (l.foldl dropNotices m) k =
    if k ∈ l then { getCore m k with notices := [], spilled := [] } else getCore m k := by
  induction l generalizing m with
  | nil => rfl
  | cons c l ih =>
    rw [List.foldl_cons, ih]
    by_cases hk : k = c
    · subst hk
      rw [dropNotices, getCore_modCore, if_pos List.mem_cons_self]
      split <;> rfl
    · rw [getCore_dropNotices_ne m hk]
      exact if_congr (by simp [hk]) rfl rfl

theorem getCore_dropBorrowed {m : Mach} {p k : Nat} (hk : k ∈ clusterCores p) : getCore (dropBorrowed m p) k =
    if borrowed m k then { getCore m k with notices := [], spilled := [] } else getCore m k := by
  rw [dropBorrowed, getCore_foldl_dropNotices]
  exact if_congr (by simp [hk]) rfl rfl

/-- The notices that a cluster's core has after a borrower's have been discarded. -/
def NoticesDropped (m m' : Mach) (k : Nat) : Prop :=
  (borrowed m k = true → (getCore m' k).notices = [] ∧ (getCore m' k).spilled = []) ∧
  (borrowed m k = false → (getCore m' k).notices = (getCore m k).notices ∧ (getCore m' k).spilled =
      (getCore m k).spilled)

theorem noticesDropped {m m' : Mach} {p k : Nat} (hk : k ∈ clusterCores p)
    (hn : (getCore m' k).notices = (getCore (dropBorrowed m p) k).notices)
    (hs : (getCore m' k).spilled = (getCore (dropBorrowed m p) k).spilled) : NoticesDropped m m' k := by
  rw [getCore_dropBorrowed hk] at hn hs
  refine ⟨fun h => ?_, fun h => ?_⟩
  · rw [if_pos h] at hn hs
    exact ⟨hn, hs⟩
  · rw [if_neg (Bool.eq_false_iff.1 h)] at hn hs
    exact ⟨hn, hs⟩

/-! ### Handlers that a recall kills -/

theorem cores_dropPre (m : Mach) (area : Nat) (pre : Option PreEmpt) : (dropPre m area pre).cores = m.cores := by
  unfold dropPre
  split <;> rfl

theorem beginEnd_keeps {α : Type} (g : Core → α) (hg : ∀ (k : Core) x, g { k with ctxs := x } = g k) (m : Mach)
    (core i : Nat) (e : Ending) (c : Nat) : g (getCore (beginEnd m core i e) c) = g (getCore m c) := by
  unfold beginEnd
  dsimp only
  refine (modCore_keeps g _ core (fun k => hg k _) c).trans ?_
  exact congrArg (fun l : SMap Core => g (smGet ({} : Core) l c)) (cores_dropPre ..)

/-- The machine after a recall has killed a borrower's handler. -/
def handlerKilled (m : Mach) (core i : Nat) : Mach :=
  beginEnd (stopCmds (hostEvent (dropBorrowed m (clusterOf core)) (ctxOwner (getCtx m core i)) 3 0x28 (clusterOf core)
    (getCtx m core i).pc.toNat 0) core i true) core i (.failed 0x28)

theorem handlerKilled_keeps {α : Type} (g : Core → α) (hg : ∀ (k : Core) x, g { k with ctxs := x } = g k)
    (hc : ∀ (k : Core) x, g { k with cmds := x } = g k) (m : Mach) (core i k : Nat) :
    g (getCore (handlerKilled m core i) k) = g (getCore (dropBorrowed m (clusterOf core)) k) := by
  refine (beginEnd_keeps g hg _ core i _ k).trans ((modCore_keeps g _ core (fun k => hc k _) k).trans ?_)
  exact congrArg (fun l : SMap Core => g (smGet ({} : Core) l k)) (onlyCounted_hostEvent ..).cores

section
variable {s : State} {core i t : Nat} (hrun : s.m.phase = .running) (hctl : isControl core = false)
  (harr : (getCtx s.m core i).arr = true) (hend : ctxEnded (getCtx s.m core i) = false)
  (ht : (getPart s.m (clusterOf core)).recallAt = some t)
include hrun hctl harr hend ht

theorem exec_recallHandlerKill_eq : exec (.recallHandlerKill core i) s = .next
    ⟨if borrowed s.m core = false ∨ s.m.cycle < t + (2500 * (getPart s.m (clusterOf core)).recallTmo - 18192) then s.m
      else handlerKilled s.m core i, s.trust⟩ := by
  rw [exec_recallHandlerKill, execRecallHandlerKill, whenRunning, onMach]
  refine next_congr ((if_pos hrun).trans ?_)
  dsimp only
  rw [ht]
  exact if_congr (by simp [hctl, harr, hend, recallCycles]) rfl rfl

end

/-! ### The return of a cluster -/

/-- A core with nothing of its last user's in it. -/
def clearedCore (k : Core) (now : Nat) : Core :=
  { k with
    tiles := [], exps := [], rowFlight := [], zeroTick := now, renews := [], ctxs := [], hctx := 0, hset := none
    alloc := [], arr := {}, bars := [], barWrites := [] }

theorem getCore_clearCore (m : Mach) (core : Nat) :
    getCore (clearCore m core) core = clearedCore (getCore m core) m.nowt := by
  have h : getCore (zeroPool m core) core =
      { getCore m core with tiles := [], exps := [], rowFlight := [], zeroTick := m.nowt, renews := [] } :=
    getCore_modCore m core fun k =>
        { k with tiles := [], exps := [], rowFlight := [], zeroTick := m.nowt, renews := [] }
  rw [clearCore, getCore_modCore, h, clearedCore]

theorem getCore_clearCore_ne (m : Mach) {core k : Nat} (h : k ≠ core) : getCore (clearCore m core) k = getCore m k :=
  (getCore_setCore_ne _ h _).trans (getCore_setCore_ne m h _)

/-- A core without what a user left in it. -/
def CoreReturned (k : Core) : Prop := k.alloc = [] ∧ k.tiles = [] ∧ k.hctx = 0

theorem coreReturned_clearCore (m : Mach) (c k : Nat) (h : c = k ∨ CoreReturned (getCore m k)) :
    CoreReturned (getCore (clearCore m c) k) := by
  by_cases hk : k = c
  · rw [hk, getCore_clearCore]
    exact ⟨rfl, rfl, rfl⟩
  · rw [getCore_clearCore_ne m hk]
    exact h.resolve_left fun h => hk h.symm

theorem coreReturned_foldl (l : List Nat) (m : Mach) (k : Nat) (h : k ∈ l ∨ CoreReturned (getCore m k)) :
    CoreReturned (getCore (l.foldl clearCore m) k) := by
  induction l generalizing m with
  | nil => exact h.resolve_left (List.not_mem_nil)
  | cons c l ih =>
    refine ih _ ?_
    rcases h with h | h
    · rcases List.mem_cons.1 h with rfl | h
      · exact .inr (coreReturned_clearCore m k k (.inl rfl))
      · exact .inl h
    · exact .inr (coreReturned_clearCore m c k (.inr h))

theorem clearCores_keeps {α : Type} (g : Core → α)
    (hg : ∀ m core, g (getCore (clearCore m core) core) = g (getCore m core))
    (l : List Nat) (m : Mach) (k : Nat) : g (getCore (l.foldl clearCore m) k) = g (getCore m k) :=
  foldl_keeps (fun m => g (getCore m k)) (fun m c => by
    by_cases hk : k = c
    · exact hk ▸ hg m k
    · exact congrArg g (getCore_clearCore_ne m hk)) l m

/-- Is a recalled cluster free of what ran there? -/
def ClusterDone (m : Mach) (p : Nat) : Prop :=
  ∀ c ∈ clusterCores p, coreIdle (getCore m c) = true ∧ (∀ e ∈ (getCore m c).cmds, e.2 = []) ∧
    (∀ x ∈ m.restDue, x.1 ≠ c) ∧
    ∀ g ∈ m.agents, agentIsOrphan g.1 = true → agentCore g.1 = c → ∀ a ∈ g.2.iq, isCmd a.kind = false

/-- The model's test of one core. -/
def coreDone (m : Mach) (c : Nat) : Bool :=
  coreIdle (getCore m c) && (getCore m c).cmds.all (fun e => e.2.isEmpty) && !(m.restDue.any (fun x => x.1 == c))
    && !(m.agents.any (fun g => agentIsOrphan g.1 && agentCore g.1 == c && g.2.iq.any (fun a => isCmd a.kind)))

theorem clusterDone_iff (m : Mach) (p : Nat) : ClusterDone m p ↔ (clusterCores p).all (coreDone m) = true := by
  simp only [ClusterDone, coreDone, List.all_eq_true, Bool.and_eq_true, Bool.not_eq_true', List.any_eq_false,
    List.isEmpty_iff, beq_iff_eq, List.any_eq_true, and_assoc, not_and, not_exists, Bool.not_eq_true]

/-- The machine after the return of a cluster: the notice to its owner comes last. -/
def clusterReturned (m : Mach) (p : Nat) : Mach :=
  let m := modPart ((clusterCores p).foldl clearCore (dropBorrowed m p)) p (fun q =>
    { q with lent := false, recallAt := none, lendto := 0 })
  match (getPart m p).owner with
  | some o => hostEvent m o 7 0 p 0 0
  | none => m

theorem parts_clearCores (l : List Nat) (m : Mach) : (l.foldl clearCore m).parts = m.parts :=
  foldl_keeps Mach.parts (g := clearCore) (fun _ _ => rfl) l m

theorem parts_dropBorrowed (m : Mach) (p : Nat) : (dropBorrowed m p).parts = m.parts :=
  foldl_keeps Mach.parts (g := dropNotices) (fun _ _ => rfl) _ m

/-- The partition of a cluster that has returned. -/
theorem getPart_returned (m : Mach) (p : Nat) :
    getPart (modPart ((clusterCores p).foldl clearCore (dropBorrowed m p)) p fun q =>
      { q with lent := false, recallAt := none, lendto := 0 }) p =
        { getPart m p with lent := false, recallAt := none, lendto := 0 } := by
  have h : getPart ((clusterCores p).foldl clearCore (dropBorrowed m p)) p = getPart m p :=
    congrArg (fun l : SMap Part => smGet ({} : Part) l p) ((parts_clearCores ..).trans (parts_dropBorrowed m p))
  rw [getPart_modPart, h]

theorem exec_recallReturn_eq {s : State} {p : Nat} (hrun : s.m.phase = .running)
    (hr : (getPart s.m p).recallAt.isSome = true) : exec (.recallReturn p) s =
      .next ⟨if (clusterCores p).all (coreDone s.m) then clusterReturned s.m p else s.m, s.trust⟩ := by
  rw [exec_recallReturn, execRecallReturn, whenRunning, onMach]
  refine next_congr ((if_pos hrun).trans ?_)
  have hn : (getPart s.m p).recallAt.isNone = false := by
    rw [← Option.not_isSome, hr]
    rfl
  by_cases hall : (clusterCores p).all (coreDone s.m) = true
  · rw [if_pos hall, clusterReturned, getPart_returned]
    refine if_neg fun h => h.elim (fun h => Bool.false_ne_true (hn.symm.trans h)) fun h => ?_
    exact Bool.eq_false_iff.1 ((Bool.not_eq_true' _).mp h) hall
  · rw [if_neg hall]
    refine if_pos (.inr ?_)
    rw [Bool.not_eq_true']
    exact Bool.eq_false_iff.2 hall

theorem getPart_clusterReturned (m : Mach) (p : Nat) :
    getPart (clusterReturned m p) p = { getPart m p with lent := false, recallAt := none, lendto := 0 } := by
  unfold clusterReturned
  dsimp only
  split
  · exact ((onlyCounted_hostEvent ..).keeps (getPart · p) fun _ _ _ _ _ _ _ _ _ _ => rfl).trans (getPart_returned m p)
  · exact getPart_returned m p

theorem getCore_clusterReturned (m : Mach) (p k : Nat) : getCore (clusterReturned m p) k =
    getCore ((clusterCores p).foldl clearCore (dropBorrowed m p)) k := by
  have hk : getCore (modPart ((clusterCores p).foldl clearCore (dropBorrowed m p)) p fun q =>
      { q with lent := false, recallAt := none, lendto := 0 }) k =
        getCore ((clusterCores p).foldl clearCore (dropBorrowed m p)) k := by
    rw [getCore, getCore, modPart_cores]
  unfold clusterReturned
  dsimp only
  split
  · exact ((onlyCounted_hostEvent ..).keeps (getCore · k) fun _ _ _ _ _ _ _ _ _ _ => rfl).trans hk
  · exact hk

end Sys2Proof.Machine

open Sys2Proof Sys2Proof.Machine

/-- Settles O40: what is cleared is said core by core; the notices dropped are those of the cores whose handlers are a
borrower's when the event comes. -/
theorem lendingAndRecall : Obligations.LendingAndRecall := by
  unfold Obligations.LendingAndRecall
  refine ⟨fun s vf o p mask hrun hlow hhigh ho => ?lend, fun s core i t hrun hctl harr hend ht => ?kill, fun s p
      hrun hr => ?ret⟩
  case lend =>
    have h : BoundVf s vf o := ⟨hrun, hlow, hhigh, ho⟩
    refine ⟨fun hq => ⟨exec_lend_other h hq, (exec_recallLend_eq h).trans (next_congr (if_neg fun hh => hq hh.1))⟩,
      fun hq => ⟨exec_lend_lends h hq, exec_lend_zero h hq, exec_lend_refused h hq, fun hl hn => ?_, fun hb => ?_⟩⟩
    · exact (exec_recallLend_eq h).trans (next_congr (if_pos ⟨hq, hl, by rw [hn]; rfl⟩))
    · refine (exec_recallLend_eq h).trans (next_congr (if_neg fun hh => ?_))
      obtain ⟨-, hl, hn⟩ := hh
      rcases hb with hb | hb
      · exact Bool.false_ne_true (hb.symm.trans hl)
      · exact hb (Option.isNone_iff_eq_none.1 hn)
  case kill =>
    have hex := exec_recallHandlerKill_eq hrun hctl harr hend ht
    refine ⟨fun h => hex.trans (next_congr (if_pos h.symm)), fun hc hb => ⟨handlerKilled s.m core i,
      hex.trans (next_congr (if_neg ?_)), ?_, ?_, fun k hk => ?_⟩⟩
    · rintro (h | h)
      · exact Bool.false_ne_true (h.symm.trans hb)
      · exact Nat.not_lt.2 hc h
    · rw [handlerKilled, getCtx_beginEnd]
      rfl
    · rw [handlerKilled, getCtx_beginEnd]
      rfl
    · exact noticesDropped hk (handlerKilled_keeps Core.notices (fun _ _ => rfl) (fun _ _ => rfl) s.m core i k)
        (handlerKilled_keeps Core.spilled (fun _ _ => rfl) (fun _ _ => rfl) s.m core i k)
  case ret =>
    have hex := exec_recallReturn_eq hrun hr
    have hpart := getPart_clusterReturned s.m p
    refine ⟨fun hd => hex.trans (next_congr (if_neg fun h => hd ((clusterDone_iff s.m p).2 h))), fun hd =>
      ⟨clusterReturned s.m p, hex.trans (next_congr (if_pos ((clusterDone_iff s.m p).1 hd))), ?_, ?_, ?_, ?_, fun c
          hc => ?_⟩⟩
    · rw [hpart]
    · rw [hpart]
    · rw [hpart]
    · rw [hpart]
    · have hcore := getCore_clusterReturned s.m p c
      have hcl := coreReturned_foldl (clusterCores p) (dropBorrowed s.m p) c (.inl hc)
      rw [← hcore] at hcl
      obtain ⟨halloc, htiles, hhctx⟩ := hcl
      refine ⟨halloc, htiles, hhctx, noticesDropped hc ?_ ?_⟩
      · rw [hcore]
        exact clearCores_keeps Core.notices (fun m core => by rw [getCore_clearCore]; rfl) _ _ c
      · rw [hcore]
        exact clearCores_keeps Core.spilled (fun m core => by rw [getCore_clearCore]; rfl) _ _ c
end

section
/-!
PROOFS. The rings of virtual functions: their registers and their entries.
-/
namespace Sys2Proof.Machine

/-! ### Ring registers -/

section
variable {s : State} {vf o : Nat} (h : BoundVf s vf o) {i : Nat} (hi : i < 16)
include h

theorem exec_eqlostRead_eq : exec (.eqlostRead vf) s = .next ⟨{ setVf s.m vf { getVf s.m vf with eqlost := 0 } with
    out := s.m.out ++ [.host true false ((getVf s.m vf).eqlost.setWidth 128)] }, s.trust⟩ := by
  rw [exec_eqlostRead, execEqlostRead, withVf_bound h]
  have hx : ((getVf s.m vf).eqlost.setWidth 64).setWidth 128 = (getVf s.m vf).eqlost.setWidth 128 :=
    by
    apply BitVec.eq_of_toNat_eq
    have := (getVf s.m vf).eqlost.isLt
    rw [BitVec.toNat_setWidth, BitVec.toNat_setWidth, BitVec.toNat_setWidth]
    omega
  rw [← hx]
  rfl

include hi

theorem exec_tailWrite_eq (val : W32) : exec (.tailWrite vf i val) s = .next
    ⟨if !(ringOk (getRing s.m vf i)) || 2 ^ (getRing s.m vf i).size ≤ val.toNat % 65536 ||
        pending { getRing s.m vf i with tail := val.toNat % 65536 } < pending (getRing s.m vf i) then
        report s.m vf o 4 0 i 0
      else setRing s.m vf i { getRing s.m vf i with tail := val.toNat % 65536 }, s.trust⟩ := by
  rw [exec_tailWrite, execTailWrite, withSubmission_bound h]
  exact next_congr (if_neg (Nat.not_le.2 hi))

theorem exec_rbaseWrite_eq (base : Word) : exec (.rbaseWrite vf i base) s = .next
    ⟨if (getRing s.m vf i).head = (getRing s.m vf i).tail then setRing s.m vf i (setBase base (getRing s.m vf i))
      else report s.m vf o 4 0 i 0, s.trust⟩ := by
  rw [exec_rbaseWrite, execRbaseWrite, withVf_bound h]
  exact next_congr (if_neg (Nat.not_le.2 hi))

theorem exec_rsizeWrite_eq (val : W32) : exec (.rsizeWrite vf i val) s = .next
    ⟨if (getRing s.m vf i).head = (getRing s.m vf i).tail then setRing s.m vf i (setSize val.toNat (getRing s.m vf i))
      else report s.m vf o 4 0 i 0, s.trust⟩ := by
  rw [exec_rsizeWrite, execRsizeWrite, withVf_bound h]
  exact next_congr (if_neg (Nat.not_le.2 hi))

end

/-! ### Functions that are not bound -/

theorem withVf_unbound {s : State} {vf : Nat} (f : Mach → Nat → Mach)
    (h : vf = 0 ∨ 193 ≤ vf ∨ s.m.phase ≠ .running ∨ (getVf s.m vf).owner = none) : withVf s vf f = .next s := by
  rw [withVf, whenRunning, onMach]
  refine next_congr ?_
  by_cases hrun : s.m.phase = .running
  · rw [if_pos hrun]
    by_cases hvf : vf = 0 ∨ 193 ≤ vf
    · exact if_pos hvf
    · rw [if_neg hvf]
      rcases h with h | h | h | h
      · exact absurd (.inl h) hvf
      · exact absurd (.inr h) hvf
      · exact absurd hrun h
      · rw [h]
  · exact if_neg hrun

theorem withSubmission_out {s : State} {vf : Nat} (f : Mach → Nat → Mach) (h : vf = 0 ∨ 193 ≤ vf) :
    withSubmission s vf f = .next s := by
  rw [withSubmission, onMach]
  refine next_congr (if_pos ?_)
  have hn : ¬(1 ≤ vf ∧ vf ≤ 192) := by omega
  simp only [isVf, Bool.not_eq_true', Bool.and_eq_false_iff, decide_eq_false_iff_not]
  omega

theorem withSubmission_unbound {s : State} {vf : Nat} (f : Mach → Nat → Mach) (hlow : 1 ≤ vf) (hhigh : vf ≤ 192)
    (h : s.m.phase ≠ .running ∨ (getVf s.m vf).owner = none) :
    withSubmission s vf f = .next ⟨{ s.m with mailbox := s.m.mailbox ++ [(1, vf)] }, s.trust⟩ := by
  rw [withSubmission, onMach]
  refine next_congr ((if_neg (by simp [isVf, hlow, hhigh])).trans ?_)
  split
  next o hrun ho => exact absurd ho (by rw [h.resolve_left (not_not_intro hrun)]; exact nofun)
  next => rfl

/-- The events that submit are submissions. -/
theorem submits {s : State} {vf i : Nat} {val : W32} {x : Instr}
    (hx : x ∈ [Instr.tailWrite vf i val, .launch vf i, .job vf i,
    .push vf i, .close vf i, .post vf i, .cancel vf i]) : ∃ f, exec x s = withSubmission s vf f := by
  simp only [List.mem_cons, List.not_mem_nil, or_false] at hx
  rcases hx with rfl | rfl | rfl | rfl | rfl | rfl | rfl
  · exact ⟨_, exec_tailWrite ..⟩
  · rw [exec_launch, execLaunch, consume, consumeUnless]
    exact ⟨_, rfl⟩
  · rw [exec_job, execJob, consume, consumeUnless]
    exact ⟨_, rfl⟩
  · rw [exec_push, execPush, consume, consumeUnless]
    exact ⟨_, rfl⟩
  · rw [exec_close, execClose, consume, consumeUnless]
    exact ⟨_, rfl⟩
  · rw [exec_post, execPost, consumeUnless]
    exact ⟨_, rfl⟩
  · rw [exec_cancel, execCancel, consume, consumeUnless]
    exact ⟨_, rfl⟩

/-! ### The fields of an entry -/

/-- An entry with its fields in their places and zeros elsewhere. -/
structure EntryOf (x opc arg qid a b : Nat) : Prop where
  eq : x = opc + arg * 256 + qid * 65536 + a * 2 ^ 64 + b * 2 ^ 128
  opc_lt : opc < 256
  arg_lt : arg < 256
  qid_lt : qid < 65536
  a_lt : a < 2 ^ 64
  b_lt : b < 2 ^ 64

section
variable {x opc arg qid a b : Nat} (h : EntryOf x opc arg qid a b)
include h

theorem EntryOf.eOpc_eq : eOpc x = opc := by
  obtain ⟨rfl, h1, h2, h3, h4, h5⟩ := h
  unfold eOpc
  omega

theorem EntryOf.eArg_eq : eArg x = arg := by
  obtain ⟨rfl, h1, h2, h3, h4, h5⟩ := h
  unfold eArg
  omega

theorem EntryOf.eQid_eq : eQid x = qid := by
  obtain ⟨rfl, h1, h2, h3, h4, h5⟩ := h
  unfold eQid
  omega

theorem EntryOf.eA_eq : eA x = BitVec.ofNat 64 a := by
  obtain ⟨rfl, h1, h2, h3, h4, h5⟩ := h
  apply BitVec.eq_of_toNat_eq
  rw [eA, BitVec.toNat_ofNat, BitVec.toNat_ofNat]
  omega

theorem EntryOf.eB_eq : eB x = BitVec.ofNat 64 b := by
  obtain ⟨rfl, h1, h2, h3, h4, h5⟩ := h
  apply BitVec.eq_of_toNat_eq
  rw [eB, BitVec.toNat_ofNat, BitVec.toNat_ofNat]
  omega

theorem EntryOf.zeros : x / 2 ^ 32 % 2 ^ 32 = 0 ∧ x / 2 ^ 192 = 0 := by
  obtain ⟨rfl, h1, h2, h3, h4, h5⟩ := h
  omega

/-- Such an entry is good where its OPC takes the fields that are not zero. -/
theorem EntryOf.good (hopc : 1 ≤ opc ∧ opc ≤ 6)
    (harg : (opc = 5 ∧ arg < 64) ∨ (opc = 6 ∧ 1 ≤ arg ∧ arg ≤ 4) ∨ (opc ≠ 5 ∧ opc ≠ 6 ∧ arg = 0))
    (hqid : ((opc = 3 ∨ opc = 4) ∧ qid < 4096) ∨ qid = 0) (hb : opc = 5 ∨ b = 0) : entryBad x = false := by
  obtain ⟨hz, hz'⟩ := h.zeros
  have hbz : opc = 5 ∨ eB x = 0 := hb.imp id fun hb => by rw [h.eB_eq, hb]; rfl
  unfold entryBad
  dsimp only
  rw [h.eOpc_eq, h.eArg_eq, h.eQid_eq, hz, hz']
  simp only [Bool.or_eq_false_iff]
  refine ⟨⟨⟨⟨⟨⟨beq_eq_false_iff_ne.2 (by omega), decide_eq_false (by omega)⟩, ?_⟩, ?_⟩, rfl⟩, ?_⟩, rfl⟩
  · rcases harg with ⟨rfl, ha⟩ | ⟨rfl, ha, ha'⟩ | ⟨h5, h6, rfl⟩
    · exact decide_eq_false (by omega)
    · exact Bool.or_eq_false_iff.2 ⟨beq_eq_false_iff_ne.2 (by omega), decide_eq_false (by omega)⟩
    · split
      · exact absurd rfl h5
      · exact absurd rfl h6
      · rfl
  · split
    next h34 =>
      refine decide_eq_false ?_
      rcases hqid with ⟨-, hq⟩ | hq <;> omega
    next h34 =>
      simp only [Bool.or_eq_true, beq_iff_eq] at h34
      rw [hqid.resolve_left fun hh => h34 hh.1]
      rfl
  · rcases hbz with hb | hb
    · simp [hb]
    · simp [hb]

end

/-! ### The entry at the head of a ring -/

/-- A ring of a bound function, with an entry in it. -/
structure HasEntry (s : State) (vf i o : Nat) : Prop where
  bound : BoundVf s vf o
  ring : i < 16
  low : 4 ≤ (getRing s.m vf i).size
  high : (getRing s.m vf i).size ≤ 16
  some : pending (getRing s.m vf i) ≠ 0

/-- The machine in which the entry at the head of a ring `r` is consumed. -/
def consumed (vf i : Nat) (r : Ring) (m : Mach) : Mach :=
  setRing m vf i { getRing m vf i with head := (r.head + 1) % 2 ^ r.size }

/-- The machine in which the entry is refused: it is reported with its address, and consumed. -/
def entryRefused (vf i o : Nat) (r : Ring) (m : Mach) (cause : Nat) : Mach :=
  consumed vf i r (report m vf o 1 cause i (entryVa r).toNat)

section
variable {s : State} {vf i o : Nat} (h : HasEntry s vf i o) {opcs : List Nat} {held : Mach → Nat → Nat → Bool}
  {f : Mach → Nat → Nat → Except Nat Mach}
include h

theorem HasEntry.notEmpty : ¬(16 ≤ i ∨ !(ringOk (getRing s.m vf i)) ∨ pending (getRing s.m vf i) = 0) := by
  have h1 := h.ring
  have h2 := h.low
  have h3 := h.high
  have h4 := h.some
  simp [ringOk, h2, h3, h4, h1]

theorem consume_unread {c : Byte} {a : Word} (hops : opcs.contains 1 = true)
    (hr : readVa s.m (whoOwner s.m o) (entryVa (getRing s.m vf i)) 32 = .error (c, a)) :
    consumeUnless s vf i opcs held f =
      .next { s with m := entryRefused vf i o (getRing s.m vf i) s.m c.toNat } := by
  rw [consumeUnless, withSubmission_bound h.bound]
  refine next_congr ((if_neg h.notEmpty).trans ?_)
  dsimp only
  rw [hr]
  exact if_pos hops

theorem consume_refused {x : Nat} (hr : readVa s.m (whoOwner s.m o) (entryVa (getRing s.m vf i)) 32 = .ok x)
    (hops : opcs.contains 1 = true) (hx : eOpc x = 0 ∨ 7 ≤ eOpc x) : consumeUnless s vf i opcs held f =
      .next { s with m := entryRefused vf i o (getRing s.m vf i) s.m 0 } := by
  have hbad : entryBad x = true := by
    unfold entryBad
    dsimp only
    rcases hx with hx | hx <;> simp [hx]
  rw [consumeUnless, withSubmission_bound h.bound]
  refine next_congr ((if_neg h.notEmpty).trans ?_)
  dsimp only
  rw [hr]
  refine (if_neg ?_).trans (if_pos hbad)
  have h1 : 1 ∈ opcs := List.contains_iff_mem.1 hops
  rcases hx with hx | hx <;> simp [hx, h1]

variable {x : Nat} (hr : readVa s.m (whoOwner s.m o) (entryVa (getRing s.m vf i)) 32 = .ok x)
  (hops : opcs.contains (eOpc x) = true) (hgood : entryBad x = false)
include hr hops hgood

theorem consume_held (hh : held s.m o x = true) : consumeUnless s vf i opcs held f = .next s := by
  rw [consumeUnless, withSubmission_bound h.bound]
  refine next_congr ((if_neg h.notEmpty).trans ?_)
  dsimp only
  rw [hr]
  exact (if_neg (by rw [hops]; exact Bool.false_ne_true)).trans
      ((if_neg (Bool.eq_false_iff.1 hgood)).trans (if_pos hh))

variable (hh : held s.m o x = false)
include hh

theorem consume_ok {m1 : Mach} (hf : f s.m o x = .ok m1) :
    consumeUnless s vf i opcs held f = .next { s with m := consumed vf i (getRing s.m vf i) m1 } := by
  rw [consumeUnless, withSubmission_bound h.bound]
  refine next_congr ((if_neg h.notEmpty).trans ?_)
  dsimp only
  rw [hr]
  refine (if_neg (by rw [hops]; exact Bool.false_ne_true)).trans ((if_neg (Bool.eq_false_iff.1 hgood)).trans
    ((if_neg (Bool.eq_false_iff.1 hh)).trans ?_))
  rw [hf]
  rfl

theorem consume_error {c : Nat} (hf : f s.m o x = .error c) : consumeUnless s vf i opcs held f =
    .next { s with m := entryRefused vf i o (getRing s.m vf i) s.m c } := by
  rw [consumeUnless, withSubmission_bound h.bound]
  refine next_congr ((if_neg h.notEmpty).trans ?_)
  dsimp only
  rw [hr]
  refine (if_neg (by rw [hops]; exact Bool.false_ne_true)).trans ((if_neg (Bool.eq_false_iff.1 hgood)).trans
    ((if_neg (Bool.eq_false_iff.1 hh)).trans ?_))
  rw [hf]
  rfl

end

/-! ### What entries do -/

theorem getRing_onlyStored {m m' : Mach} (h : OnlyStored m m') (vf i : Nat) : getRing m' vf i = getRing m vf i :=
  h.keeps (getRing · vf i) fun _ _ _ _ _ _ _ _ => rfl

theorem onlyStored_refuseRec (m : Mach) (w : Who) (va : Word) (cause : Byte) : OnlyStored m
    (refuseRec m w va cause) := by
  unfold refuseRec
  split
  · exact onlyStored_putBytes ..
  · exact .refl m

/-- A refused submission writes a completion record at most. -/
theorem submitLaunch_refused {m m1 : Mach} {w : Who} {va : Word} {parent : Option Nat} {child : Bool}
    {views : SMap Nat}
    {c : Byte} (h : submitLaunch m w va parent child views = (m1, .refused c)) : OnlyStored m m1 := by
  unfold submitLaunch at h
  split at h
  · cases h
    exact .refl m
  · dsimp only at h
    split at h
    · cases h
      exact onlyStored_refuseRec ..
    · split at h
      · cases h
        exact .refl m
      · split at h
        · cases h
          exact onlyStored_refuseRec ..
        · cases h

/-- The job that a descriptor describes. -/
def jobInfoOf (d : Nat) : JobInfo :=
  ⟨BitVec.ofNat 64 d, BitVec.ofNat 64 (d / 256 ^ 8), BitVec.ofNat 64 (d / 256 ^ 16),
    d / 256 ^ 24 % 65536, d / 256 ^ 28 % 2 ^ 32, BitVec.ofNat 64 (d / 256 ^ 32), 0, none⟩

/-- The machine with a job started. -/
def jobStarted (m : Mach) (o d : Nat) : Mach :=
  let n := m.nodeSeq
  let m1 := setNode { m with nodeSeq := n + 1 } n
    { live := true, level := 4, owner := o, recVa := BitVec.ofNat 64 d, job := some (jobInfoOf d) }
  settleNode (evaluate (writeRec m1 n) n) n 5

/-- What a CANCEL entry does. -/
def cancelNamed (m : Mach) (o l : Nat) (va : Word) : Except Nat Mach :=
  match ((nodesAt m o va).filter (fun i => (getNode m i).level == l)).find? (fun i => !(nodeTerminal (getNode m i))),
    pendingNode m o va with
  | some i, _ => .ok (cancelNode m i)
  | none, some (g, n) => .ok (cancelPending m g n)
  | none, none =>
    match ((nodesAt m o va).filter (fun i => (getNode m i).level == l)).head?.or (nodesAt m o va).head? with
    | some i => .ok (cancelNode m i)
    | none => .error 0

section
variable {s : State} {vf i o : Nat} (h : HasEntry s vf i o) {x : Nat}
  (hr : readVa s.m (whoOwner s.m o) (entryVa (getRing s.m vf i)) 32 = .ok x)
include h hr

section
variable {a : Word} (hx : x = 1 + a.toNat * 2 ^ 64)
include hx

omit h hr in
theorem entryOf_launch : EntryOf x 1 0 0 a.toNat 0 :=
  ⟨by rw [hx]; omega, by decide, by decide, by decide, a.isLt, by decide⟩

theorem exec_launch_submits {m1 : Mach} {n : Nat} (hs : submitLaunch s.m (whoOwner s.m o) a none false
    (getAgent s.m hostAgent).own = (m1, .id n)) :
    exec (.launch vf i) s = .next { s with m := consumed vf i (getRing s.m vf i) m1 } := by
  have he := entryOf_launch hx
  rw [exec_launch, execLaunch, consume]
  refine consume_ok h hr (by rw [he.eOpc_eq]; rfl)
      (he.good (by decide) (.inr (.inr (by decide))) (.inr rfl) (.inr rfl)) rfl ?_
  rw [he.eA_eq, BitVec.ofNat_toNat, BitVec.setWidth_eq, hs]

theorem exec_launch_refused {m1 : Mach} {c : Byte} (hs : submitLaunch s.m (whoOwner s.m o) a none false
    (getAgent s.m hostAgent).own = (m1, .refused c)) : exec (.launch vf i) s =
    .next { s with m := entryRefused vf i o (getRing s.m vf i) m1 c.toNat } := by
  have he := entryOf_launch hx
  rw [exec_launch, execLaunch, consume]
  refine consume_ok h hr (by rw [he.eOpc_eq]; rfl)
      (he.good (by decide) (.inr (.inr (by decide))) (.inr rfl) (.inr rfl)) rfl ?_
  rw [he.eA_eq, BitVec.ofNat_toNat, BitVec.setWidth_eq, hs]
  dsimp only
  rw [getRing_onlyStored (submitLaunch_refused hs) vf i]

end

section
variable {a : Word} {d : Nat} (hx : x = 2 + a.toNat * 2 ^ 64) (hd : readVa s.m (whoOwner s.m o) a 64 = .ok d)
include hx

omit h hr in
theorem entryOf_job : EntryOf x 2 0 0 a.toNat 0 :=
  ⟨by rw [hx]; omega, by decide, by decide, by decide, a.isLt, by decide⟩

include hd

theorem exec_job_refused (hb : jobBad s.m (whoOwner s.m o) a d = true) : exec (.job vf i) s = .next
    ⟨entryRefused vf i o (getRing s.m vf i) (refuseRec s.m (whoOwner s.m o) (BitVec.ofNat 64 d) 0x01) 1, s.trust⟩
        := by
  have he := entryOf_job hx
  rw [exec_job, execJob, consume]
  refine consume_ok h hr (by rw [he.eOpc_eq]; rfl)
      (he.good (by decide) (.inr (.inr (by decide))) (.inr rfl) (.inr rfl)) rfl ?_
  dsimp only
  rw [he.eA_eq, BitVec.ofNat_toNat, BitVec.setWidth_eq, hd]
  dsimp only
  rw [if_pos hb, Nat.pow_zero, Nat.div_one, ofNat_mod_word]

theorem exec_job_starts (hb : jobBad s.m (whoOwner s.m o) a d = false) : exec (.job vf i) s =
    .next { s with m := consumed vf i (getRing s.m vf i) (jobStarted s.m o d) } := by
  have he := entryOf_job hx
  rw [exec_job, execJob, consume]
  refine consume_ok h hr (by rw [he.eOpc_eq]; rfl)
      (he.good (by decide) (.inr (.inr (by decide))) (.inr rfl) (.inr rfl)) rfl ?_
  dsimp only
  rw [he.eA_eq, BitVec.ofNat_toNat, BitVec.setWidth_eq, hd]
  dsimp only
  rw [if_neg (Bool.eq_false_iff.1 hb), Nat.pow_zero, Nat.div_one]
  simp only [ofNat_mod_word]
  rfl

end

omit h hr in
theorem queueFull_iff (k : Queue) :
    (k.closed = true ∨ k.depth ≤ k.entries.length) ↔ ¬(k.closed = false ∧ k.entries.length < k.depth) := by
  rw [not_and_or, Bool.not_eq_false, Nat.not_lt]

section
variable {q : BitVec 12} {v : Word}

omit h hr in
/-- What an owner's push or close does to a work queue. -/
theorem hostPush_ours {m : Mach} {opc : Nat} (he : EntryOf x opc 0 q.toNat v.toNat 0)
    (hq : (getQueue m q.toNat).declared = true ∧
    (getQueue m q.toNat).work = true ∧ (getQueue m q.toNat).owner = o) (close : Bool) : hostPush m o x close =
      .ok (if (getQueue m q.toNat).closed ∨ (getQueue m q.toNat).depth ≤ (getQueue m q.toNat).entries.length then m
        else setQueue m q.toNat (if close then { getQueue m q.toNat with closed := true }
          else { getQueue m q.toNat with entries := (getQueue m q.toNat).entries ++ [v] })) := by
  have hlt := q.isLt
  have hid : (BitVec.ofNat 64 q.toNat).toNat = q.toNat := by
    rw [BitVec.toNat_ofNat]
    omega
  have hbad : queueBad m o (BitVec.ofNat 64 q.toNat) = false := by
    rw [queueBad_eq_false_iff, hid, Nat.mod_eq_of_lt hlt]
    exact ⟨hlt, hq⟩
  rw [hostPush, he.eQid_eq, he.eA_eq, if_neg (Bool.eq_false_iff.1 hbad), BitVec.ofNat_toNat, BitVec.setWidth_eq]
  dsimp only
  split <;> rfl

omit h hr in
theorem hostPush_other {m : Mach} {opc : Nat} (he : EntryOf x opc 0 q.toNat v.toNat 0)
    (hq : ¬((getQueue m q.toNat).declared = true ∧ (getQueue m q.toNat).work = true ∧ (getQueue m q.toNat).owner = o))
    (close : Bool) : hostPush m o x close = .error 0x39 := by
  have hlt := q.isLt
  have hid : (BitVec.ofNat 64 q.toNat).toNat = q.toNat := by
    rw [BitVec.toNat_ofNat]
    omega
  rw [hostPush, he.eQid_eq, if_pos]
  by_contra hb
  rw [Bool.not_eq_true, queueBad_eq_false_iff, hid, Nat.mod_eq_of_lt hlt] at hb
  exact hq hb.2

omit h hr in
theorem entryOf_push {opc : Nat} (hopc : opc = 3 ∨ opc = 4) (hx : x = opc + q.toNat * 65536 + v.toNat * 2 ^ 64) :
    EntryOf x opc 0 q.toNat v.toNat 0 := by
  have hlt := q.isLt
  exact ⟨by rw [hx]; omega, by omega, by decide, by omega, v.isLt, by decide⟩

omit h hr in
theorem good_push {opc : Nat} (hopc : opc = 3 ∨ opc = 4) (he : EntryOf x opc 0 q.toNat v.toNat 0) : entryBad x =
    false :=
  he.good (by omega) (.inr (.inr (by omega))) (.inl ⟨hopc, q.isLt⟩) (.inr rfl)

theorem exec_push_eq (hx : x = 3 + q.toNat * 65536 + v.toNat * 2 ^ 64) :
    (∀ m1, hostPush s.m o x false = .ok m1 →
      exec (.push vf i) s = .next { s with m := consumed vf i (getRing s.m vf i) m1 }) ∧
    ∀ c, hostPush s.m o x false = .error c →
      exec (.push vf i) s = .next { s with m := entryRefused vf i o (getRing s.m vf i) s.m c } := by
  have he := entryOf_push (.inl rfl) hx
  have hgood := good_push (.inl rfl) he
  rw [exec_push, execPush, consume]
  exact ⟨fun m1 hf => consume_ok h hr (by rw [he.eOpc_eq]; rfl) hgood rfl hf,
    fun c hf => consume_error h hr (by rw [he.eOpc_eq]; rfl) hgood rfl hf⟩

theorem exec_close_eq (hx : x = 4 + q.toNat * 65536 + v.toNat * 2 ^ 64) :
    (∀ m1, hostPush s.m o x true = .ok m1 →
      exec (.close vf i) s = .next { s with m := consumed vf i (getRing s.m vf i) m1 }) ∧
    ∀ c, hostPush s.m o x true = .error c →
      exec (.close vf i) s = .next { s with m := entryRefused vf i o (getRing s.m vf i) s.m c } := by
  have he := entryOf_push (.inr rfl) hx
  have hgood := good_push (.inr rfl) he
  rw [exec_close, execClose, consume]
  exact ⟨fun m1 hf => consume_ok h hr (by rw [he.eOpc_eq]; rfl) hgood rfl hf,
    fun c hf => consume_error h hr (by rw [he.eOpc_eq]; rfl) hgood rfl hf⟩

end

section
variable {arg : BitVec 6} {v va : Word} (hx : x = 5 + arg.toNat * 256 + v.toNat * 2 ^ 64 + va.toNat * 2 ^ 128)
include hx

omit h hr in
theorem entryOf_post : EntryOf x 5 arg.toNat 0 v.toNat va.toNat := by
  have hlt := arg.isLt
  exact ⟨by rw [hx]; omega, by decide, by omega, by decide, v.isLt, va.isLt⟩

omit h hr in
theorem postJob_entry (m : Mach) :
    postJob m o x = (nodesAt m o va).find? (fun n => (getNode m n).job.isSome) := by
  rw [postJob, (entryOf_post hx).eB_eq, BitVec.ofNat_toNat, BitVec.setWidth_eq]

theorem exec_post_held {j : Nat} (hj : (nodesAt s.m o va).find? (fun n => (getNode s.m n).job.isSome) = some j)
    (hp : postHeld s.m j (arg.toNat % 16) = true) : exec (.post vf i) s = .next s := by
  have he := entryOf_post hx
  rw [exec_post, execPost]
  refine consume_held h hr (by rw [he.eOpc_eq]; rfl)
      (he.good (by decide) (.inl ⟨rfl, arg.isLt⟩) (.inr rfl) (.inl rfl)) ?_
  rw [postJob_entry hx, hj, he.eArg_eq]
  exact hp

theorem exec_post_applies {j : Nat} (hj : (nodesAt s.m o va).find? (fun n => (getNode s.m n).job.isSome) = some j)
    (hp : postHeld s.m j (arg.toNat % 16) = false) : exec (.post vf i) s = .next
      ⟨consumed vf i (getRing s.m vf i) (applyPost s.m j (arg.toNat % 16) (arg.toNat / 16) v), s.trust⟩ := by
  have he := entryOf_post hx
  have hlt : arg.toNat / 16 % 4 = arg.toNat / 16 := by
    have := arg.isLt
    omega
  rw [exec_post, execPost]
  refine consume_ok h hr (by rw [he.eOpc_eq]; rfl)
      (he.good (by decide) (.inl ⟨rfl, arg.isLt⟩) (.inr rfl) (.inl rfl)) ?_ ?_ <;>
    rw [postJob_entry hx, hj, he.eArg_eq]
  · exact hp
  · rw [he.eA_eq, BitVec.ofNat_toNat, BitVec.setWidth_eq, hlt]

theorem exec_post_refused (hj : ∀ n ∈ nodesAt s.m o va, (getNode s.m n).job = none) : exec (.post vf i) s =
    .next { s with m := entryRefused vf i o (getRing s.m vf i) s.m 0 } := by
  have he := entryOf_post hx
  have hn : (nodesAt s.m o va).find? (fun n => (getNode s.m n).job.isSome) = none :=
    List.find?_eq_none.2 fun n hn => by rw [hj n hn]; exact Bool.false_ne_true
  rw [exec_post, execPost]
  refine consume_error h hr (by rw [he.eOpc_eq]; rfl)
      (he.good (by decide) (.inl ⟨rfl, arg.isLt⟩) (.inr rfl) (.inl rfl)) ?_ ?_ <;>
    rw [postJob_entry hx, hn]

end

section
variable {l : Nat} {va : Word} (h1 : 1 ≤ l) (h4 : l ≤ 4) (hx : x = 6 + l * 256 + va.toNat * 2 ^ 64)
include h1 h4 hx

omit h hr in
theorem entryOf_cancel : EntryOf x 6 l 0 va.toNat 0 :=
  ⟨by rw [hx]; omega, by decide, by omega, by decide, va.isLt, by decide⟩

theorem exec_cancel_eq :
    (∀ m1, cancelNamed s.m o l va = .ok m1 →
      exec (.cancel vf i) s = .next { s with m := consumed vf i (getRing s.m vf i) m1 }) ∧
    ∀ c, cancelNamed s.m o l va = .error c →
      exec (.cancel vf i) s = .next { s with m := entryRefused vf i o (getRing s.m vf i) s.m c } := by
  have he := entryOf_cancel h1 h4 hx
  have hgood : entryBad x = false := he.good (by decide) (.inr (.inl ⟨rfl, h1, h4⟩)) (.inr rfl) (.inr rfl)
  have hf : cancelNamed s.m o (eArg x) (eA x) = cancelNamed s.m o l va := by
    rw [he.eArg_eq, he.eA_eq, BitVec.ofNat_toNat, BitVec.setWidth_eq]
  rw [exec_cancel, execCancel, consume]
  exact ⟨fun m1 hc => consume_ok h hr (by rw [he.eOpc_eq]; rfl) hgood rfl (hf.trans hc),
    fun c hc => consume_error h hr (by rw [he.eOpc_eq]; rfl) hgood rfl (hf.trans hc)⟩

end

end

/-! ### The node that a CANCEL entry names -/

section
variable {m : Mach} {o l : Nat} {va : Word}

/-- The newest node at an address that is of a level and not terminal. -/
def liveAt (m : Mach) (o l : Nat) (va : Word) : Option Nat :=
  (nodesAt m o va).find? (fun n => (getNode m n).level == l && !(nodeTerminal (getNode m n)))

theorem find_named : ((nodesAt m o va).filter (fun i => (getNode m i).level == l)).find?
    (fun i => !(nodeTerminal (getNode m i))) = liveAt m o l va := by
  rw [List.find?_filter, liveAt]
  congr 1
  funext n
  rw [Bool.decide_and, Bool.decide_eq_true, Bool.decide_eq_true]

theorem cancelNamed_live {n : Nat} (h : liveAt m o l va = some n) : cancelNamed m o l va = .ok (cancelNode m n) := by
  rw [cancelNamed, find_named, h]

theorem cancelNamed_pending {g k : Nat} (h : liveAt m o l va = none) (hp : pendingNode m o va = some (g, k)) :
    cancelNamed m o l va = .ok (cancelPending m g k) := by
  rw [cancelNamed, find_named, h, hp]

theorem cancelNamed_ended {n : Nat} (h : liveAt m o l va = none) (hp : pendingNode m o va = none)
    (hn : (nodesAt m o va).find? (fun n => (getNode m n).level == l) = some n) :
    cancelNamed m o l va = .ok (cancelNode m n) := by
  rw [cancelNamed, find_named, h, hp]
  dsimp only
  rw [List.head?_filter, hn]
  rfl

theorem cancelNamed_none (h : liveAt m o l va = none) (hp : pendingNode m o va = none) (hn : nodesAt m o va = []) :
    cancelNamed m o l va = .error 0 := by
  rw [cancelNamed, find_named, h, hp, hn]
  rfl

end

end Sys2Proof.Machine

open Sys2Proof Sys2Proof.Machine

/-- Settles O41: an entry's fields are read back from the number it is; its event consumes it, with what its OPC
    does. -/
theorem hostRings : Obligations.HostRings := by
  unfold Obligations.HostRings
  refine ⟨⟨fun s vf i o val base hrun hlow hhigh ho hi => ?regs, fun s vf i val base =>
      ⟨fun h => ?_, fun h x hx => ?_,
    fun hlow hhigh h x hx => ?_⟩⟩, fun s vf i o hrun hlow hhigh ho hi => ?entries⟩
  case regs =>
    have h : BoundVf s vf o := ⟨hrun, hlow, hhigh, ho⟩
    refine ⟨fun hok hn hh => (exec_tailWrite_eq h hi val).trans (next_congr (if_neg ?_)),
      fun hbad => (exec_tailWrite_eq h hi val).trans (next_congr (if_pos ?_)), fun he => ⟨?_, ?_⟩, fun hne =>
          ⟨?_, ?_⟩,
      exec_eqlostRead_eq h⟩
    · simp [ringOk, hok, hn, Nat.not_lt.2 hh, pending]
    · rw [Bool.or_eq_true, Bool.or_eq_true, or_assoc]
      refine hbad.imp (fun hno => ?_) (Or.imp decide_eq_true decide_eq_true)
      rw [Bool.not_eq_true', ringOk, Bool.and_eq_false_iff, decide_eq_false_iff_not, decide_eq_false_iff_not]
      exact not_and_or.1 hno
    · exact (exec_rbaseWrite_eq h hi base).trans (next_congr (if_pos he))
    · exact (exec_rsizeWrite_eq h hi val).trans (next_congr (if_pos he))
    · exact (exec_rbaseWrite_eq h hi base).trans (next_congr (if_neg hne))
    · exact (exec_rsizeWrite_eq h hi val).trans (next_congr (if_neg hne))
  · rw [exec_rbaseWrite, execRbaseWrite, exec_rsizeWrite, execRsizeWrite, exec_eqlostRead, execEqlostRead]
    exact ⟨withVf_unbound _ h, withVf_unbound _ h, withVf_unbound _ h⟩
  · obtain ⟨f, hf⟩ := submits (s := s) hx
    exact hf.trans (withSubmission_out f h)
  · obtain ⟨f, hf⟩ := submits (s := s) hx
    exact hf.trans (withSubmission_unbound f hlow hhigh h)
  case entries =>
    intro r hl hh hp at_ w done refused
    have h : HasEntry s vf i o := ⟨⟨hrun, hlow, hhigh, ho⟩, hi, hl, hh, hp⟩
    refine ⟨fun c a hr => ?unread, fun x hr =>
        ⟨fun hx => ?bad, fun a hx => ⟨fun m1 n hs => exec_launch_submits h hr hx hs,
      fun m1 c hs => exec_launch_refused h hr hx hs⟩, fun a d hx hd => ⟨exec_job_refused h hr hx hd,
      exec_job_starts h hr hx hd⟩, fun q v => ?queue, fun arg v va hx =>
      ⟨fun j hj hp => exec_post_held h hr hx hj hp, fun j hj hp => exec_post_applies h hr hx hj hp,
          exec_post_refused h hr hx⟩,
      fun l va h1 h4 hx => ?cancel⟩⟩
    case unread =>
      rw [exec_launch, execLaunch, consume]
      exact consume_unread h rfl hr
    case bad =>
      rw [exec_launch, execLaunch, consume]
      exact consume_refused h hr rfl hx
    case queue =>
      intro k ours open_
      refine ⟨fun hx => ?_, fun hx => ?_⟩
      · obtain ⟨hok, herr⟩ := exec_push_eq h hr hx
        have he := entryOf_push (.inl rfl) hx
        refine ⟨fun ho hopen => hok _ ((hostPush_ours he ho false).trans ?_),
          fun ho hopen => hok _ ((hostPush_ours he ho false).trans ?_), fun ho => herr _ (hostPush_other he ho false)⟩
        · exact congrArg _ (if_neg fun hf => (queueFull_iff k).1 hf hopen)
        · exact congrArg _ (if_pos ((queueFull_iff k).2 hopen))
      · obtain ⟨hok, herr⟩ := exec_close_eq h hr hx
        have he := entryOf_push (.inr rfl) hx
        refine ⟨fun ho hopen => hok _ ((hostPush_ours he ho true).trans ?_),
          fun ho hopen => hok _ ((hostPush_ours he ho true).trans ?_), fun ho => herr _ (hostPush_other he ho true)⟩
        · exact congrArg _ (if_neg fun hf => (queueFull_iff k).1 hf hopen)
        · exact congrArg _ (if_pos ((queueFull_iff k).2 hopen))
    case cancel =>
      obtain ⟨hok, herr⟩ := exec_cancel_eq h hr h1 h4 hx
      exact ⟨fun n hn => hok _ (cancelNamed_live hn), fun g k hn hp => hok _ (cancelNamed_pending hn hp),
        fun hn hp => ⟨fun n hf => hok _ (cancelNamed_ended hn hp hf), fun hf => herr _ (cancelNamed_none hn hp hf)⟩⟩
end

section
/-!
PROOFS. Alarms, wear, corrected errors, scrubbing, spares, and the replays of links.
-/
namespace Sys2Proof.Machine

/-! ### Alarms, wear, errors and scrubbing -/

section
variable {s : State} (hrun : s.m.phase = .running)
include hrun

theorem exec_securityAlarm_first {c : AlarmCause} (h : s.trust.alarm = none) : exec (.securityAlarm c) s = .next
    ⟨{ s.m with
      erased := true, noPlace := true, mailbox := s.m.mailbox ++ [(0, 0)] },
          { s.trust with alarm := some c, memKeys := [] }⟩ := by
  rw [exec_securityAlarm, execSecurityAlarm]
  exact congrArg Host.Outcome.next (if_neg (by simp [hrun, h]))

omit hrun in
theorem exec_securityAlarm_latched {c : AlarmCause} (h : s.trust.alarm ≠ none) : exec (.securityAlarm c) s = .next
    s := by
  rw [exec_securityAlarm, execSecurityAlarm]
  exact congrArg Host.Outcome.next (if_pos (.inr (Option.isSome_iff_ne_none.2 h)))

theorem exec_wearWarning_eq {d : Nat} (hours : W32) (hd : d < 6) : exec (.wearWarning d hours) s = .next
    ⟨if decide (hours.toNat < 10000) && !(smGet false s.trust.wearSent d) then pf0Event s.m 10 0 d else s.m,
      { s.trust with
        life := smPut none s.trust.life d (some hours)
        wearSent := smPut false s.trust.wearSent d (decide (hours.toNat < 10000)) }⟩ := by
  rw [exec_wearWarning, execWearWarning]
  exact congrArg Host.Outcome.next (if_neg (by simp [hrun, hd]))

/-- The core after a corrected error of a bank. -/
def bankErred (now b : Nat) (k : Core) : Core :=
  let ts := marked now dayTicks (smGet [] k.bankErrs b)
  { k with
    bankErrs := smPut [] k.bankErrs b ts
    banksDue := if 16 ≤ ts.length ∧ !(k.banksDue.contains b) then k.banksDue ++ [b] else k.banksDue }

theorem exec_correctedError_bank (c b : Nat) :
    exec (.correctedError (.bank c b)) s = .next { s with m := modCore s.m c (bankErred s.m.nowt b) } := by
  rw [exec_correctedError, execCorrectedError, whenRunning, onMach]
  exact next_congr (if_pos hrun)

theorem exec_scrubGranule_eq {pa : Nat} (bad : Bool) (hpa : pa < 0x8000000000) : exec (.scrubGranule pa bad) s =
    .next ⟨{ s.m with
      scrubPos := pa / 16 * 16
      poisoned := if bad && !(s.m.poisoned.contains (pa / 16 * 16)) then s.m.poisoned ++ [pa / 16 * 16] else
          s.m.poisoned },
    s.trust⟩ := by
  rw [exec_scrubGranule, execScrubGranule, whenRunning, onMach]
  exact next_congr ((if_pos hrun).trans (if_neg (Nat.not_le.2 hpa)))

end

theorem bankErrs_bankErred (now b : Nat) (k : Core) :
    smGet [] (bankErred now b k).bankErrs b = marked now dayTicks (smGet [] k.bankErrs b) :=
  smGet_put_same [] k.bankErrs b (marked now dayTicks (smGet [] k.bankErrs b))

theorem mem_banksDue (now b x : Nat) (k : Core) : x ∈ (bankErred now b k).banksDue ↔
    x ∈ k.banksDue ∨ x = b ∧ 16 ≤ (marked now dayTicks (smGet [] k.bankErrs b)).length := by
  unfold bankErred
  dsimp only
  split
  next h =>
    rw [List.mem_append, List.mem_singleton, and_iff_left h.1]
  next h =>
    refine ⟨.inl, fun hx => hx.elim id fun ⟨hb, hl⟩ => ?_⟩
    have hc : k.banksDue.contains b = true := by simpa [hl] using h
    exact hb ▸ List.contains_iff_mem.1 hc

/-- An element added to a list where it is not there yet. -/
theorem mem_added {l : List Nat} {g : Nat} (add : Bool) (x : Nat) :
    x ∈ (if add && !(l.contains g) then l ++ [g] else l) ↔ x ∈ l ∨ add = true ∧ x = g := by
  split
  next h =>
    rw [List.mem_append, List.mem_singleton, and_iff_right (Bool.and_eq_true_iff.1 h).1]
  next h =>
    refine ⟨.inl, fun hx => hx.elim id fun ⟨ha, hg⟩ => ?_⟩
    have hc : l.contains g = true := by simpa [ha] using h
    exact hg ▸ List.contains_iff_mem.1 hc

/-! ### Fills of spares -/

theorem getGang_setGang_ne (m : Mach) {j k : Nat} (h : j ≠ k) (g : Gang) : getGang (setGang m k g) j = getGang m j :=
  smGet_put_ne _ _ h _

/-- An entry of a fill: it starts again from the other method where its source is a mirror whose package is down. -/
def refilled (down : List Nat) (f : SpareFill) : SpareFill :=
  if !f.filled && !f.tried && f.method == 0 && down.contains f.src then { f with method := 1, tried := true } else f

theorem refilled_filled (down : List Nat) (f : SpareFill) : (refilled down f).filled = f.filled := by
  unfold refilled
  split <;> rfl

theorem refilled_twice (down : List Nat) (f : SpareFill) : refilled down (refilled down f) = refilled down f := by
  by_cases h : (!f.filled && !f.tried && f.method == 0 && down.contains f.src) = true
  · have he : refilled down f = { f with method := 1, tried := true } := if_pos h
    rw [he]
    exact if_neg (by simp)
  · have he : refilled down f = f := if_neg h
    rw [he, he]

theorem refilled_same {down : List Nat} {f : SpareFill}
    (h : f.filled = true ∨ f.tried = true ∨ f.method ≠ 0 ∨ f.src ∉ down) : refilled down f = f := by
  refine if_neg ?_
  rcases h with h | h | h | h <;> simp [h]

/-- A fresh entry starts again where its source is a mirror that is down. -/
theorem refilled_new {down : List Nat} {f : SpareFill} {p : Prop} [Decidable p] (h1 : f.filled = false)
    (h2 : f.tried = false)
    (hp : f.src ∈ down ↔ p) :
    refilled down f = if f.method = 0 ∧ p then { f with method := 1, tried := true } else f := by
  refine if_congr ?_ rfl rfl
  rw [h1, h2, ← hp]
  simp

theorem mapM_of_some {α β : Type} {f : α → Option β} {g : α → β} {l : List α} (h : ∀ x ∈ l, f x = some (g x)) :
    l.mapM f = some (l.map g) := by
  induction l with
  | nil => rfl
  | cons x l ih =>
    rw [List.mapM_cons, h x List.mem_cons_self, ih fun y hy => h y (List.mem_cons_of_mem _ hy)]
    rfl

/-- No entry is without a source where only those that have not been tried start again. -/
theorem mapM_refilled (down : List Nat) (l : List SpareFill) :
    l.mapM (fun f => if !f.filled && !f.tried && f.method == 0 && down.contains f.src then otherMethod f else some
        f) =
      some (l.map (refilled down)) := by
  refine mapM_of_some fun f _ => ?_
  unfold refilled
  split
  next h =>
    simp only [Bool.and_eq_true, Bool.not_eq_true', beq_iff_eq] at h
    obtain ⟨⟨⟨hf, ht⟩, hm⟩, -⟩ := h
    rw [otherMethod, if_neg (Bool.eq_false_iff.1 ht), hm, ← hf]
  next => rfl

/-- A gang with its fills as they stand. -/
def gangRefilled (down : List Nat) (g : Gang) : Gang := { g with fills := g.fills.map (refilled down) }

/-- Is an entry of a gang's fills still to be filled? -/
def FillOpen (g : Gang) : Prop := ∃ f ∈ g.fills, f.filled = false

section
variable {m : Mach} {k pkg : Nat}

theorem fillStands_free (h : (getGang m k).hold = none) : fillStands m k = m := by
  rw [fillStands]
  dsimp only
  rw [h]

theorem fillStands_done (hold : (getGang m k).hold = some pkg) (h : ∀ f ∈ (getGang m k).fills, f.filled = true) :
    fillStands m k =
      { setGang m k { getGang m k with hold := none, fills := [], alsoDown := [] } with
        downPkgs := m.downPkgs.filter (fun d => d != pkg && !((getGang m k).alsoDown.contains d)) } := by
  rw [fillStands]
  dsimp only
  rw [hold]
  dsimp only
  rw [mapM_refilled]
  refine if_pos (List.all_eq_true.2 fun f hf => ?_)
  obtain ⟨x, hx, rfl⟩ := List.mem_map.1 hf
  exact (refilled_filled ..).trans (h x hx)

theorem fillStands_open (hold : (getGang m k).hold = some pkg) (h : FillOpen (getGang m k)) :
    fillStands m k = setGang m k (gangRefilled m.downPkgs (getGang m k)) := by
  obtain ⟨f, hf, ho⟩ := h
  rw [fillStands]
  dsimp only
  rw [hold]
  dsimp only
  rw [mapM_refilled]
  refine if_neg fun hall => Bool.false_ne_true ?_
  rw [← ho, ← refilled_filled m.downPkgs f]
  exact List.all_eq_true.1 hall _ (List.mem_map.2 ⟨f, hf, rfl⟩)

theorem gangRefilled_same {down : List Nat} {g : Gang}
    (h : ∀ f ∈ g.fills, f.filled = true ∨ f.tried = true ∨ f.method ≠ 0 ∨ f.src ∉ down) : gangRefilled down g = g
        := by
  have hm : g.fills.map (refilled down) = g.fills := by
    rw [List.map_congr_left fun f hf => refilled_same (h f hf), List.map_id']
  rw [gangRefilled, hm]

theorem gangRefilled_twice (down : List Nat) (g : Gang) : gangRefilled down (gangRefilled down g) = gangRefilled
    down g := by
  have hm : (g.fills.map (refilled down)).map (refilled down) = g.fills.map (refilled down) := by
    rw [List.map_map]
    exact List.map_congr_left fun f _ => refilled_twice down f
  rw [gangRefilled, gangRefilled, hm]

theorem fillOpen_gangRefilled {down : List Nat} {g : Gang} (h : FillOpen g) : FillOpen (gangRefilled down g) := by
  obtain ⟨f, hf, ho⟩ := h
  exact ⟨_, List.mem_map.2 ⟨f, hf, rfl⟩, (refilled_filled ..).trans ho⟩

end

/-- What the state of one gang's fills leaves as it is: the other gangs. -/
theorem getGang_fillStands_ne (m : Mach) {j k : Nat} (h : j ≠ k) : getGang (fillStands m k) j = getGang m j := by
  unfold fillStands
  dsimp only
  split
  · rfl
  · split
    · rfl
    · split
      · exact getGang_setGang_ne m h _
      · exact getGang_setGang_ne m h _

/-! ### A member that goes down -/

/-- A machine without what it has of the rounds of reduction groups. -/
def dropRounds (m : Mach) : Mach := { m with rounds := [], counts := [], exclNext := [] }

theorem dropRounds_setRound (m : Mach) (k : Nat) (x : Round) : dropRounds (setRound m k x) = dropRounds m := rfl

theorem dropRounds_counted (m : Mach) (x : SMap Nat) (y : SMap (BitVec 64)) :
    dropRounds { m with counts := x, exclNext := y } = dropRounds m := rfl

theorem dropRounds_freshCounts (m : Mach) (k : Nat) : dropRounds (freshCounts m k) = dropRounds m := by
  unfold freshCounts
  dsimp only
  split
  · rfl
  · simp only [dropRounds_setRound]
    rfl

theorem dropRounds_excludeRank (m : Mach) (k rank : Nat) (down : Bool) :
    dropRounds (excludeRank m k rank down) = dropRounds m := by
  unfold excludeRank
  split
  · rfl
  · dsimp only
    split
    · rfl
    · split
      · simp only [dropRounds_setRound, apply_ite dropRounds, dropRounds_counted, bumpRank, dropRounds_freshCounts,
          ite_self]
      · split <;> split <;> simp only [dropRounds_setRound, dropRounds_counted, bumpRank, dropRounds_freshCounts]

theorem dropRounds_excludeAll (m : Mach) (k : Nat) (e : BitVec 512) (rank : Nat) (down : Bool) :
    dropRounds (excludeAll m k e rank false down) = dropRounds m := by
  refine foldl_keeps dropRounds (fun m a => ?_) _ m
  split
  · rfl
  · simp only [apply_ite dropRounds, dropRounds_excludeRank, ite_self, Bool.false_eq_true, if_false]

theorem dropRounds_excludePackage (m : Mach) (pkg : Nat) : dropRounds (excludePackage m pkg) = dropRounds m :=
  foldl_keeps dropRounds (fun m (_ : Nat × Part) => foldl_keeps dropRounds (fun m (g : Nat × BitVec 512) =>
    foldl_keeps dropRounds (g := fun m (x : (Nat × Nat) × Nat) => excludeAll m g.1 g.2 x.2 false true) (fun m x =>
      dropRounds_excludeAll m g.1 g.2 x.2 true) _ m) _ m) _ m

/-- Does a gang begin to wait for a member's spare, or wait for it too? -/
def gangLoses (pkg : Nat) (g : Gang) : Bool :=
  g.live && g.coordinator && g.members.contains pkg && g.hold != some pkg && !(g.alsoDown.contains pkg)

/-- The gang as it waits for the spare. -/
def gangHeld (pkg : Nat) (table : List SpareFill) (g : Gang) : Gang :=
  if g.hold.isNone then { g with hold := some pkg, fills := table }
  else { g with alsoDown := g.alsoDown ++ [pkg], fills := g.fills ++ table }

/-- The machine in which a member is down and its ranks are excluded. -/
def memberLost (m : Mach) (pkg : Nat) : Mach :=
  excludePackage { m with downPkgs := if m.downPkgs.contains pkg then m.downPkgs else m.downPkgs ++ [pkg] } pkg

/-- The machine in which the gangs that lose the member wait for its spare. -/
def gangsHeld (m : Mach) (pkg : Nat) : Mach :=
  (m.gangs.filter (fun e => gangLoses pkg e.2)).foldl (fun m e => modGang m e.1 (gangHeld pkg m.fillTable)) m

theorem exec_memberDown_eq {s : State} (hrun : s.m.phase = .running) (pkg : Nat) : exec (.memberDown pkg) s =
    .next ⟨((gangsHeld (memberLost s.m pkg) pkg).gangs.map (·.1)).foldl fillStands
        (gangsHeld (memberLost s.m pkg) pkg),
      s.trust⟩ := by
  rw [exec_memberDown, execMemberDown, whenRunning, onMach]
  exact next_congr (if_pos hrun)

section
variable (m : Mach) (pkg : Nat)

theorem memberLost_facts : (memberLost m pkg).gangs = m.gangs ∧ (memberLost m pkg).mem = m.mem ∧
    (memberLost m pkg).fillTable = m.fillTable ∧
    (memberLost m pkg).downPkgs = if m.downPkgs.contains pkg then m.downPkgs else m.downPkgs ++ [pkg] := by
  have h := dropRounds_excludePackage { m with
    downPkgs := if m.downPkgs.contains pkg then m.downPkgs else m.downPkgs ++ [pkg] } pkg
  exact ⟨(congrArg Mach.gangs h :), (congrArg Mach.mem h :), (congrArg Mach.fillTable h :),
      (congrArg Mach.downPkgs h :)⟩

theorem mem_memberLost_down (d : Nat) : d ∈ (memberLost m pkg).downPkgs ↔ d = pkg ∨ d ∈ m.downPkgs := by
  rw [(memberLost_facts m pkg).2.2.2]
  split
  next h => exact ⟨.inr, fun hd => hd.elim (fun hd => hd ▸ List.contains_iff_mem.1 h) id⟩
  next h => rw [List.mem_append, List.mem_singleton, or_comm]

end

/-- Each listed gang is changed once where no key is listed twice. -/
theorem getGang_foldl_modGang (f : List SpareFill → Gang → Gang) (l : List (Nat × Gang))
    (h : l.Pairwise (fun e f => e.1 < f.1))
    (m : Mach) (k : Nat) :
    getGang (l.foldl (fun m e => modGang m e.1 (f m.fillTable)) m) k =
      if k ∈ l.map (·.1) then f m.fillTable (getGang m k) else getGang m k := by
  induction l generalizing m with
  | nil => rfl
  | cons e l ih =>
    obtain ⟨hlt, hl⟩ := List.pairwise_cons.1 h
    rw [List.foldl_cons, ih hl]
    have ht : (modGang m e.1 (f m.fillTable)).fillTable = m.fillTable := rfl
    rw [ht]
    by_cases hk : k = e.1
    · subst hk
      have hn : e.1 ∉ l.map (·.1) := fun hm => by
        obtain ⟨x, hx, he⟩ := List.mem_map.1 hm
        exact absurd (hlt x hx) (by omega)
      rw [if_neg hn, if_pos (List.mem_map_of_mem List.mem_cons_self), modGang, getGang_setGang]
    · have hg : getGang (modGang m e.1 (f m.fillTable)) k = getGang m k := getGang_setGang_ne m hk _
      rw [hg]
      exact if_congr (by simp [hk]) rfl rfl

/-- The value of a listed key in a canonical map. -/
theorem smGet_of_mem {α : Type} [DecidableEq α] {d : α} {l : SMap α} (h : smWf d l = true) {e : Nat × α}
    (he : e ∈ l) :
    smGet d l e.1 = e.2 := by
  have hp := ((smWf_iff d l).1 h).2
  clear h
  induction l with
  | nil => cases he
  | cons x l ih =>
    obtain ⟨hlt, hl⟩ := List.pairwise_cons.1 hp
    rw [smGet]
    rcases List.mem_cons.1 he with rfl | he
    · exact if_pos rfl
    · rw [if_neg (Nat.ne_of_lt (hlt e he))]
      exact ih he hl

theorem getGang_gangsHeld {m : Mach} (pkg : Nat) (hwf : smWf {} m.gangs = true) (k : Nat) : getGang
    (gangsHeld m pkg) k =
    if gangLoses pkg (getGang m k) then gangHeld pkg m.fillTable (getGang m k) else getGang m k := by
  have hp := ((smWf_iff _ _).1 hwf).2
  refine (getGang_foldl_modGang (gangHeld pkg) _ (hp.filter _) m k).trans
      (if_congr ⟨fun h => ?_, fun h => ?_⟩ rfl rfl)
  · obtain ⟨e, he, rfl⟩ := List.mem_map.1 h
    obtain ⟨hm, hl⟩ := List.mem_filter.1 he
    rw [getGang, smGet_of_mem hwf hm]
    exact hl
  · have hne : smGet ({} : Gang) m.gangs k ≠ {} := fun he => by
      rw [getGang, he] at h
      exact absurd h Bool.false_ne_true
    exact List.mem_map.2 ⟨_, List.mem_filter.2 ⟨mem_of_smGet_ne hne, h⟩, rfl⟩

/-- What holds of every listed gang and of none holds of every number's. -/
theorem gangs_idle {m : Mach} (h : ∀ e ∈ m.gangs, e.2.hold = none ∧ e.2.alsoDown = []) (k : Nat) :
    (getGang m k).hold = none ∧ (getGang m k).alsoDown = [] := by
  by_cases hk : smGet ({} : Gang) m.gangs k = {}
  · rw [getGang, hk]
    exact ⟨rfl, rfl⟩
  · exact h _ (mem_of_smGet_ne hk)

theorem gangsHeld_facts (m : Mach) (pkg : Nat) : (gangsHeld m pkg).mem = m.mem ∧ (gangsHeld m pkg).downPkgs =
    m.downPkgs :=
  
  ⟨foldl_keeps Mach.mem (g := fun m (e : Nat × Gang) => modGang m e.1 (gangHeld pkg m.fillTable)) (fun _ _ => rfl)
      _ m,
    foldl_keeps Mach.downPkgs (g := fun m (e : Nat × Gang) => modGang m e.1 (gangHeld pkg m.fillTable))
        (fun _ _ => rfl) _ m⟩

/-- Where every gang that waits has an entry to be filled, the fills stand as they are, but for the entries that
    start again
from the other method. -/
theorem foldl_fillStands {m : Mach} (hopen : ∀ j, (getGang m j).hold ≠ none → FillOpen (getGang m j)) (l : List Nat) :
    (l.foldl fillStands m).mem = m.mem ∧ (l.foldl fillStands m).downPkgs = m.downPkgs ∧
    ∀ k, getGang (l.foldl fillStands m) k =
      if k ∈ l ∧ (getGang m k).hold ≠ none then gangRefilled m.downPkgs (getGang m k) else getGang m k := by
  induction l generalizing m with
  | nil => exact ⟨rfl, rfl, fun k => (if_neg (by simp)).symm⟩
  | cons c l ih =>
    rw [List.foldl_cons]
    by_cases hc : (getGang m c).hold = none
    · rw [fillStands_free hc]
      obtain ⟨hm, hd, hg⟩ := ih hopen
      refine ⟨hm, hd, fun k => (hg k).trans (if_congr ?_ rfl rfl)⟩
      refine and_congr_left fun hk => ?_
      rw [List.mem_cons, or_iff_right fun (h : k = c) => hk (by rw [h, hc])]
    · obtain ⟨pkg, hp⟩ := Option.ne_none_iff_exists'.1 hc
      have hs := fillStands_open hp (hopen c hc)
      have hgc : getGang (fillStands m c) c = gangRefilled m.downPkgs (getGang m c) := by rw [hs, getGang_setGang]
      have hopen' : ∀ j, (getGang (fillStands m c) j).hold ≠ none → FillOpen (getGang (fillStands m c) j) := by
        intro j hj
        by_cases h : j = c
        · rw [h, hgc]
          exact fillOpen_gangRefilled (hopen c hc)
        · rw [getGang_fillStands_ne m h] at hj ⊢
          exact hopen j hj
      obtain ⟨hm, hd, hg⟩ := ih hopen'
      have hd' : (fillStands m c).downPkgs = m.downPkgs := by rw [hs]; rfl
      refine ⟨hm.trans (by rw [hs]; rfl), hd.trans hd', fun k => (hg k).trans ?_⟩
      rw [hd']
      by_cases h : k = c
      · rw [h, hgc, if_pos (⟨List.mem_cons_self, hc⟩ : c ∈ c :: l ∧ _), gangRefilled_twice]
        exact ite_self _
      · rw [getGang_fillStands_ne m h]
        exact if_congr (by simp [h]) rfl rfl

/-- A gang that waits, none of whose open entries starts again, stays as it is. -/
theorem getGang_foldl_fillStands {m : Mach} {k pkg : Nat} (hold : (getGang m k).hold = some pkg)
    (ho : FillOpen (getGang m k))
    (hsrc : ∀ f ∈ (getGang m k).fills, f.method ≠ 0) (l : List Nat) : getGang (l.foldl fillStands m) k = getGang m
        k := by
  induction l generalizing m with
  | nil => rfl
  | cons c l ih =>
    have hc : getGang (fillStands m c) k = getGang m k := by
      by_cases h : k = c
      · subst h
        rw [fillStands_open hold ho, getGang_setGang, gangRefilled_same fun f hf => .inr (.inr (.inl (hsrc f hf)))]
      · exact getGang_fillStands_ne m h
    rw [List.foldl_cons, ih (by rw [hc]; exact hold) (by rw [hc]; exact ho) (by rw [hc]; exact hsrc), hc]

/-! ### The end of one entry's fill -/

/-- What the report on an entry does, after its gang's hold and the entry. -/
def fillReported (m : Mach) (k entry : Nat) (failed : Bool) : Option Nat → Option SpareFill → Mach
  | some _, some f =>
    if !failed then fillStands
        (modGang m k (fun g => { g with fills := g.fills.set entry { f with filled := true } })) k
    else
      match otherMethod f with
      | some f => modGang m k (fun g => { g with fills := g.fills.set entry f })
      | none => cancelGangJob (modGang m k (fun g => { g with hold := none, fills := [], alsoDown := [] })) k 9
  | _, _ => m

theorem fillReported_none (m : Mach) (k entry : Nat) (failed : Bool) {h : Option Nat} {f : Option SpareFill}
    (hn : h = none ∨ f = none) : fillReported m k entry failed h f = m := by
  rcases hn with rfl | rfl
  · rfl
  · cases h <;> rfl

theorem exec_spareFillDone_eq {s : State} (hrun : s.m.phase = .running) (k entry : Nat) (failed : Bool) :
    exec (.spareFillDone ⟨k, entry, failed⟩) s =
      .next ⟨fillReported s.m k entry failed (getGang s.m k).hold (getGang s.m k).fills[entry]?, s.trust⟩ := by
  rw [exec_spareFillDone, execSpareFillDone, whenRunning, onMach]
  exact next_congr ((if_pos hrun).trans rfl)

section
variable {s : State} {k entry : Nat} (hrun : s.m.phase = .running) {pkg : Nat} {f : SpareFill}
  (hold : (getGang s.m k).hold = some pkg) (hf : (getGang s.m k).fills[entry]? = some f)
include hrun hold hf

theorem exec_spareFillDone_filled : exec (.spareFillDone ⟨k, entry, false⟩) s = .next
    ⟨fillStands (setGang s.m k
        { getGang s.m k with fills := (getGang s.m k).fills.set entry { f with filled := true } }) k,
      s.trust⟩ :=
  (exec_spareFillDone_eq hrun k entry false).trans (next_congr (congrArg₂ (fillReported s.m k entry false) hold hf))

theorem exec_spareFillDone_tried {m1 : Mach} (h : fillReported s.m k entry true (some pkg) (some f) = m1) :
    exec (.spareFillDone ⟨k, entry, true⟩) s = .next { s with m := m1 } :=
  (exec_spareFillDone_eq hrun k entry true).trans
      (next_congr ((congrArg₂ (fillReported s.m k entry true) hold hf).trans h))

theorem exec_spareFillDone_other (ht : f.tried = false) : exec (.spareFillDone ⟨k, entry, true⟩) s = .next
    ⟨setGang s.m k { getGang s.m k with
      fills := (getGang s.m k).fills.set entry { f with method := 1 - f.method, tried := true, filled := false } },
      s.trust⟩ := by
  refine exec_spareFillDone_tried hrun hold hf ?_
  rw [fillReported, otherMethod, if_neg (Bool.eq_false_iff.1 ht)]
  rfl

theorem exec_spareFillDone_failed (ht : f.tried = true) : exec (.spareFillDone ⟨k, entry, true⟩) s = .next
    ⟨cancelGangJob (setGang s.m k { getGang s.m k with hold := none, fills := [], alsoDown := [] }) k 9, s.trust⟩
        := by
  refine exec_spareFillDone_tried hrun hold hf ?_
  rw [fillReported, otherMethod, if_pos ht]
  rfl

end

/-! ### Replays of links -/

/-- A link with one more replay noted, after `n` in a row that failed. -/
def replayNoted (now : Nat) (l : Link) (n : Nat) : Link :=
  { l with
    replays := now :: l.replays.filter (fun t => now < t + 56250000000)
    retireDue := l.retireDue || 10000 ≤ (now :: l.replays.filter (fun t => now < t + 56250000000)).length
    down := l.down || 16 ≤ n }

theorem getLink_setLink (m : Mach) (p : Nat) (l : Link) : getLink (setLink m p l) p = l := smGet_put_same ..

/-- What noting a replay leaves: PF0 learns of a link that goes down, and of nothing else. -/
theorem noteReplay_facts (m : Mach) (port : Nat) (l : Link) (n : Nat) :
    getLink (noteReplay m port l n) port = replayNoted m.nowt l n ∧ (noteReplay m port l n).out = m.out ∧
    (16 ≤ n → smGet false (noteReplay m port l n).portsDown port = true ∧
      (noteReplay m port l n).mailbox = m.mailbox ++ [(6, 0)]) ∧
    (n < 16 → (noteReplay m port l n).portsDown = m.portsDown ∧ (noteReplay m port l n).mailbox = m.mailbox ∧
      (noteReplay m port l n).mem = m.mem) := by
  unfold noteReplay
  dsimp only
  split
  next hn =>
    rw [pf0Event]
    have h := onlyCounted_hostEvent { setLink m port (replayNoted m.nowt l n) with
      portsDown := smPut false m.portsDown port true, mailbox := m.mailbox ++ [(6, 0)] } 0 6 0 0 0 0
    refine ⟨(h.keeps (getLink · port) fun _ _ _ _ _ _ _ _ _ _ => rfl).trans (getLink_setLink ..),
      h.keeps Mach.out fun _ _ _ _ _ _ _ _ _ _ => rfl, fun _ => ⟨?_, ?_⟩, fun hlt => absurd hlt (Nat.not_lt.2 hn)⟩
    · exact (h.keeps (fun m => smGet false m.portsDown port) fun _ _ _ _ _ _ _ _ _ _ => rfl).trans
        (smGet_put_same false m.portsDown port true)
    · exact h.keeps Mach.mailbox fun _ _ _ _ _ _ _ _ _ _ => rfl
  next hn => exact ⟨getLink_setLink .., rfl, fun h => absurd h hn, fun _ => ⟨rfl, rfl, rfl⟩⟩

theorem link_up {m : Mach} {port : Nat} (h : linkOff m port = false) : (getLink m port).down = false := by
  simp only [linkOff, Bool.or_eq_false_iff] at h
  exact h.1.2

/-- A link that is up goes down with the sixteenth replay that failed. -/
theorem replayNoted_up (now : Nat) {l : Link} (h : l.down = false) (n : Nat) : replayNoted now l n = { l with
    replays := now :: l.replays.filter (fun t => now < t + 56250000000)
    retireDue := l.retireDue || 10000 ≤ (now :: l.replays.filter (fun t => now < t + 56250000000)).length
    down := decide (16 ≤ n) } := by
  rw [replayNoted, h, Bool.false_or]

/-- What asking for a flit again leaves. -/
theorem askAgain_facts (m : Mach) (port q : Nat) {l : Link} (h : l.down = false) (n : Nat) :
    getLink (askAgain m port q l n) port = { l with
      replays := m.nowt :: l.replays.filter (fun t => m.nowt < t + 56250000000)
      retireDue := l.retireDue || 10000 ≤ (m.nowt :: l.replays.filter (fun t => m.nowt < t + 56250000000)).length
      down := decide (16 ≤ n), asked := if l.asked.contains q then l.asked else l.asked ++ [q], rxFails := n } ∧
    (askAgain m port q l n).out = m.out ++ [.askReplay port q] ∧
    (16 ≤ n → smGet false (askAgain m port q l n).portsDown port = true ∧
      (askAgain m port q l n).mailbox = m.mailbox ++ [(6, 0)]) ∧
    (n < 16 → (askAgain m port q l n).portsDown = m.portsDown ∧ (askAgain m port q l n).mailbox = m.mailbox ∧
      (askAgain m port q l n).mem = m.mem) := by
  obtain ⟨hl, hout, hc⟩ := noteReplay_facts m port { l with
    asked := if l.asked.contains q then l.asked else l.asked ++ [q], rxFails := n } n
  exact ⟨hl.trans (replayNoted_up m.nowt (l := { l with
    asked := if l.asked.contains q then l.asked else l.asked ++ [q], rxFails := n }) h n), congrArg
        (· ++ [Msg.askReplay port q]) hout, hc⟩

/-- The flits that a replay sends. -/
def againFrom (seq k : Nat) : List Nat := (List.range (k + 1)).map (seq + ·)

/-- A link with those flits in its replay buffer. -/
def linkResent (l : Link) (seq k n : Nat) : Link :=
  { l with
    resent := (l.resent ++ againFrom seq k).eraseDups
    buffer := (l.buffer ++ againFrom seq k).eraseDups
    txFails := n }

/-- The machine with those flits sent again. -/
def replaySent (m : Mach) (port seq k n : Nat) : Mach :=
  { noteReplay m port (linkResent (getLink m port) seq k n) n with
    out := (noteReplay m port (linkResent (getLink m port) seq k n) n).out ++ (againFrom seq k).map (Msg.flit port) }

section
variable {s : State} {port seq : Nat} (hrun : s.m.phase = .running)
include hrun

theorem exec_flitReceive_dropped (b : Bool) (h : linkOff s.m port = true ∨ seq < (getLink s.m port).rxSeq) :
    exec (.flitReceive port seq b) s = .next s := by
  rw [exec_flitReceive, execFlitReceive, whenRunning, onMach]
  exact next_congr ((if_pos hrun).trans (if_pos h))

theorem exec_replayRequest_off (h : linkOff s.m port = true) : exec (.replayRequest port seq) s = .next s := by
  rw [exec_replayRequest, execReplayRequest, whenRunning, onMach]
  exact next_congr ((if_pos hrun).trans (if_pos h))

variable (hon : linkOff s.m port = false)
include hon

theorem exec_replayRequest_on : exec (.replayRequest port seq) s =
    .next ⟨replaySent s.m port seq (Config.freeIndex (s.m.fresh * 65536 + 61437))
      (if (getLink s.m port).resent.contains seq then (getLink s.m port).txFails + 1 else (getLink s.m port).txFails),
      s.trust⟩ := by
  rw [exec_replayRequest, execReplayRequest, whenRunning, onMach]
  exact next_congr ((if_pos hrun).trans ((if_neg (Bool.eq_false_iff.1 hon)).trans rfl))

theorem exec_flitReceive_failed (hseq : (getLink s.m port).rxSeq ≤ seq) : exec (.flitReceive port seq false) s =
    .next { s with m := askAgain s.m port seq (getLink s.m port) (if (getLink s.m port).asked.contains seq
      then (getLink s.m port).rxFails + 1 else (getLink s.m port).rxFails) } := by
  rw [exec_flitReceive, execFlitReceive, whenRunning, onMach]
  exact next_congr ((if_pos hrun).trans ((if_neg (by simp [hon, hseq])).trans rfl))

theorem exec_flitReceive_due (hseq : seq = (getLink s.m port).rxSeq) : exec (.flitReceive port seq true) s =
    .next ⟨setLink s.m port (flitCame (getLink s.m port) (Config.freeIndex (s.m.fresh * 65536 + 61438))), s.trust⟩ := by
  rw [exec_flitReceive, execFlitReceive, whenRunning, onMach]
  exact next_congr ((if_pos hrun).trans
      ((if_neg (by simp [hon, hseq])).trans ((if_neg (by decide)).trans (if_pos hseq))))

theorem exec_flitReceive_asked (hseq : (getLink s.m port).rxSeq < seq)
    (ha : (getLink s.m port).rxSeq ∈ (getLink s.m port).asked) : exec (.flitReceive port seq true) s = .next s := by
  rw [exec_flitReceive, execFlitReceive, whenRunning, onMach]
  exact next_congr ((if_pos hrun).trans ((if_neg (by simp [hon]; omega)).trans ((if_neg (by decide)).trans
    ((if_neg (by omega)).trans (if_pos (List.contains_iff_mem.2 ha))))))

theorem exec_flitReceive_behind (hseq : (getLink s.m port).rxSeq < seq)
    (ha : (getLink s.m port).rxSeq ∉ (getLink s.m port).asked) : exec (.flitReceive port seq true) s = .next
      ⟨askAgain s.m port (getLink s.m port).rxSeq (getLink s.m port) (getLink s.m port).rxFails, s.trust⟩ := by
  rw [exec_flitReceive, execFlitReceive, whenRunning, onMach]
  exact next_congr ((if_pos hrun).trans ((if_neg (by simp [hon]; omega)).trans ((if_neg (by decide)).trans
    ((if_neg (by omega)).trans (if_neg fun h => ha (List.contains_iff_mem.1 h))))))

end

end Sys2Proof.Machine

open Sys2Proof Sys2Proof.Machine

/-- Settles O47: the fills of every gang that waits stand as they are until the last entry is filled, and a link's
    state after
a replay is the same whichever event noted it. -/
theorem guardsOfThePart : Obligations.GuardsOfThePart := by
  unfold Obligations.GuardsOfThePart
  refine ⟨⟨fun s c hrun => ⟨exec_securityAlarm_first hrun, exec_securityAlarm_latched⟩, fun s on hrun => ?thermal,
    fun s d hours hrun hd => ?wear, fun s c b p hrun => ?errors, fun s pa bad hrun hpa => ?scrub⟩,
    fun s pkg hrun hwf hidle hne htable => ?down, fun s k pkg p0 hrun hwf => ?second, fun s k entry failed hrun =>
        ?filled,
    fun m k pkg => ?stands, fun s port seq hrun hport => ?link⟩
  case thermal =>
    rw [exec_thermalThrottle, execThermalThrottle, whenRunning, onMach]
    exact next_congr (if_pos hrun)
  case wear =>
    refine ⟨_, exec_wearWarning_eq hrun hours hd, smGet_put_same none s.trust.life d (some hours),
      fun e he => smGet_put_ne none s.trust.life he (some hours), fun hl hs => ?_, fun h => ?_,
      smGet_put_same false s.trust.wearSent d _⟩
    · exact if_pos (by simp [hl, hs])
    · refine if_neg ?_
      rcases h with h | h
      · simp [Nat.not_lt.2 h]
      · simp [h]
  case errors =>
    refine ⟨?_, ⟨_, exec_correctedError_bank hrun c b, ?_, fun x => ?_, rfl⟩, ?_⟩
    · rw [exec_correctedError, execCorrectedError, whenRunning, onMach]
      exact next_congr (if_pos hrun)
    · rw [getCore_modCore]
      exact bankErrs_bankErred ..
    · rw [getCore_modCore]
      exact mem_banksDue ..
    · rw [exec_correctedError, execCorrectedError, whenRunning, onMach]
      exact next_congr (if_pos hrun)
  case scrub =>
    exact ⟨_, exec_scrubGranule_eq hrun bad hpa, rfl, rfl, fun g => mem_added bad g⟩
  case down =>
    obtain ⟨hgangs, hmem, htab, -⟩ := memberLost_facts s.m pkg
    have hwf' : smWf {} (memberLost s.m pkg).gangs = true := hgangs ▸ hwf
    have hgang : ∀ k, getGang (memberLost s.m pkg) k = getGang s.m k := fun k => by rw [getGang, getGang, hgangs]
    have hheld : ∀ k, getGang (gangsHeld (memberLost s.m pkg) pkg) k = if gangLoses pkg (getGang s.m k) then
        { getGang s.m k with hold := some pkg, fills := s.m.fillTable } else getGang s.m k := by
      intro k
      rw [getGang_gangsHeld pkg hwf', hgang, htab]
      exact if_congr Iff.rfl (if_pos (by rw [(gangs_idle hidle k).1]; rfl)) rfl
    have hopen : ∀ j, (getGang (gangsHeld (memberLost s.m pkg) pkg) j).hold ≠ none →
        FillOpen (getGang (gangsHeld (memberLost s.m pkg) pkg) j) := by
      intro j hj
      rw [hheld] at hj ⊢
      split at hj
      next hl =>
        obtain ⟨f, hf⟩ := List.exists_mem_of_ne_nil _ hne
        rw [if_pos hl]
        exact ⟨f, hf, (htable f hf).1⟩
      next => exact absurd (gangs_idle hidle j).1 hj
    obtain ⟨hm, hd, hg⟩ := foldl_fillStands hopen ((gangsHeld (memberLost s.m pkg) pkg).gangs.map (·.1))
    obtain ⟨hm', hd'⟩ := gangsHeld_facts (memberLost s.m pkg) pkg
    refine ⟨_, exec_memberDown_eq hrun pkg, hm.trans (hm'.trans hmem), ?_, fun k => (hg k).trans ?_⟩
    · rw [hd, hd']
      exact (mem_memberLost_down s.m pkg pkg).2 (.inl rfl)
    · have hfree := gangs_idle hidle k
      have hlose : gangLoses pkg (getGang s.m k) = true ↔ (getGang s.m k).live ∧ (getGang s.m k).coordinator ∧
          pkg ∈ (getGang s.m k).members := by
        simp [gangLoses, hfree, and_assoc]
      rw [hheld, hd']
      by_cases hl : gangLoses pkg (getGang s.m k) = true
      · have hkey : k ∈ (gangsHeld (memberLost s.m pkg) pkg).gangs.map (·.1) := by
          refine mem_keys_of_smGet_ne (d := {}) fun he => ?_
          have hk := hheld k
          rw [if_pos hl, getGang, he] at hk
          exact absurd (congrArg Gang.hold hk) nofun
        rw [if_pos hl, if_pos ⟨hkey, nofun⟩, if_pos (hlose.1 hl), gangRefilled]
        refine congrArg (fun fs => { getGang s.m k with hold := some pkg, fills := fs })
            (List.map_congr_left fun f hf => ?_)
        obtain ⟨h1, h2⟩ := htable f hf
        exact refilled_new h1 h2 (mem_memberLost_down s.m pkg f.src)
      · rw [if_neg hl, if_neg (fun h => h.2 hfree.1), if_neg (fun h => hl (hlose.2 h))]
  case second =>
    intro g hlive hco hmem hold hp0 hnot hopen hsrc
    obtain ⟨hgangs, -, htab, -⟩ := memberLost_facts s.m pkg
    have hwf' : smWf {} (memberLost s.m pkg).gangs = true := hgangs ▸ hwf
    have hgang : getGang (memberLost s.m pkg) k = g := by rw [getGang, hgangs]; rfl
    have hloses : gangLoses pkg g = true := by
      simp only [gangLoses, Bool.and_eq_true, hlive, hco, List.contains_iff_mem.2 hmem, hold, true_and]
      exact ⟨by simpa using hp0, by simpa using hnot⟩
    have hheld : getGang (gangsHeld (memberLost s.m pkg) pkg) k =
        { g with alsoDown := g.alsoDown ++ [pkg], fills := g.fills ++ s.m.fillTable } := by
      rw [getGang_gangsHeld pkg hwf', hgang, htab, if_pos hloses]
      exact if_neg (by rw [hold]; exact Bool.false_ne_true)
    refine ⟨_, exec_memberDown_eq hrun pkg, (getGang_foldl_fillStands (pkg := p0) ?_ ?_ ?_ _).trans hheld⟩ <;> rw
        [hheld]
    · exact hold
    · obtain ⟨f, hf, ho⟩ := hopen
      exact ⟨f, List.mem_append_right _ hf, ho⟩
    · exact hsrc
  case filled =>
    exact ⟨fun h => (exec_spareFillDone_eq hrun k entry failed).trans (next_congr (fillReported_none _ _ _ _
      (h.imp_right List.getElem?_eq_none))), fun pkg f hold hf => ⟨exec_spareFillDone_filled hrun hold hf,
      exec_spareFillDone_other hrun hold hf, exec_spareFillDone_failed hrun hold hf⟩⟩
  case stands =>
    intro g hold
    refine ⟨fillStands_done hold, fun ho h => (fillStands_open hold ho).trans ?_⟩
    rw [gangRefilled_same h]
  case link =>
    intro l
    refine ⟨fun hoff b => ⟨exec_flitReceive_dropped hrun b (.inl hoff), exec_replayRequest_off hrun hoff⟩, fun hon
        => ?_⟩
    have hdown : l.down = false := link_up hon
    intro ts l' counts asks
    have hasks : ∀ (ok : Bool) (q n : Nat), exec (.flitReceive port seq ok) s = .next
        ⟨askAgain s.m port q l n, s.trust⟩ →
        asks ok q n := by
      intro ok q n hex
      obtain ⟨hl, hout, hc⟩ := askAgain_facts s.m port q hdown n
      exact ⟨_, hex, hl, hout, hc⟩
    refine ⟨fun hlt b => exec_flitReceive_dropped hrun b (.inr hlt), fun he =>
        ⟨Config.freeIndex (s.m.fresh * 65536 + 61438),
      (exec_flitReceive_due hrun hon he).trans (next_congr ?_)⟩, exec_flitReceive_asked hrun hon, fun hlt ha =>
          hasks _ _ _ (exec_flitReceive_behind hrun hon hlt ha),
      fun hle => hasks _ _ _ (exec_flitReceive_failed hrun hon hle), ?_⟩
    · rw [flitCame, he]
    · intro n
      obtain ⟨hl, hout, hc⟩ := noteReplay_facts s.m port
          (linkResent l seq (Config.freeIndex (s.m.fresh * 65536 + 61437)) n) n
      refine ⟨_, _, exec_replayRequest_on hrun hon, ?_, congrArg (· ++ _) hout, hc⟩
      exact hl.trans (replayNoted_up _ (l := linkResent l seq _ n) hdown n)
end

section
/-!
PROOFS. Stores that leave and commit, what a committed write changes, and what a load binds.
-/
namespace Sys2Proof.Machine

/-! ### Bytes of a merged granule -/

/-- The number that the first bytes of a sequence make. -/
def byteSum (b : Nat → Nat) : Nat → Nat
  | 0 => 0
  | n + 1 => byteSum b n + b n * 256 ^ n

theorem foldr_byteSum (b : Nat → Nat) (n acc : Nat) :
    (List.range n).foldr (fun i acc => b i * 256 ^ i + acc) acc = byteSum b n + acc := by
  induction n generalizing acc with
  | zero => exact (Nat.zero_add acc).symm
  | succ n ih =>
    rw [List.range_succ, List.foldr_append, ih, byteSum, List.foldr_cons, List.foldr_nil]
    omega

theorem byteSum_lt {b : Nat → Nat} (hb : ∀ i, b i < 256) (n : Nat) : byteSum b n < 256 ^ n := by
  induction n with
  | zero => exact Nat.one_pos
  | succ n ih =>
    have h : b n * 256 ^ n ≤ 255 * 256 ^ n := Nat.mul_le_mul_right _ (Nat.le_of_lt_succ (hb n))
    rw [byteSum, pow_succ]
    omega

theorem byteSum_digit {b : Nat → Nat} (hb : ∀ i, b i < 256) {j n : Nat} (h : j < n) : byteSum b n / 256 ^ j % 256 =
    b j := by
  induction n with
  | zero => cases h
  | succ n ih =>
    rw [byteSum]
    rcases Nat.lt_succ_iff_lt_or_eq.1 h with hj | rfl
    · have hsplit : b n * 256 ^ n = 256 ^ j * (256 * (b n * 256 ^ (n - j - 1))) := by
        rw [show 256 ^ n = 256 ^ j * (256 * 256 ^ (n - j - 1)) by rw [← pow_succ', ← pow_add]; congr 1; omega]
        ring
      rw [hsplit, Nat.add_mul_div_left _ _ (by positivity), Nat.add_mul_mod_self_left]
      exact ih hj
    · rw [Nat.add_mul_div_right _ _ (by positivity), Nat.div_eq_of_lt (byteSum_lt hb j), Nat.zero_add]
      exact Nat.mod_eq_of_lt (hb j)

theorem pow_byte : 256 ^ 16 = 2 ^ 128 := by norm_num

/-- A byte that the mask names is the new granule's, any other the old one's. -/
theorem mergeGran_byte (old new : Gran) (mask : BitVec 16) {j : Nat} (hj : j < 16) :
    BitVec.ofNat 8 ((mergeGran old new mask).toNat / 256 ^ j) =
      BitVec.ofNat 8 ((if mask.getLsbD j then new.toNat else old.toNat) / 256 ^ j) := by
  have hb : ∀ i, (if mask.getLsbD i then new.toNat else old.toNat) / 256 ^ i % 256 < 256 := fun i => Nat.mod_lt _
      (by decide)
  have hm : (mergeGran old new mask).toNat =
      byteSum (fun i => (if mask.getLsbD i then new.toNat else old.toNat) / 256 ^ i % 256) 16 := by
    rw [mergeGran, BitVec.toNat_ofNat, foldr_byteSum
        (fun i => (if mask.getLsbD i then new.toNat else old.toNat) / 256 ^ i % 256),
      Nat.add_zero]
    exact Nat.mod_eq_of_lt ((byteSum_lt hb 16).trans_eq pow_byte)
  apply BitVec.eq_of_toNat_eq
  rw [hm, BitVec.toNat_ofNat, BitVec.toNat_ofNat, show (2 : Nat) ^ 8 = 256 from rfl]
  exact byteSum_digit hb hj

theorem testBit_iff_div (x : BitVec 16) (j : Nat) : x.toNat / 2 ^ j % 2 = 1 ↔ x.getLsbD j = true := by
  rw [BitVec.getLsbD, Nat.testBit_eq_decide_div_mod_eq, decide_eq_true_eq]

/-! ### A committed write -/

section
variable (m : Mach) (a g : Nat) (mask : BitVec 16) (data : Gran)

/-- The machine with a write in memory and in the history, no view moved yet. -/
def written : Mach :=
  { m with
    step := m.step + 1
    hist := smPut [] m.hist g
        ({ step := m.step + 1, tick := m.nowt, mask := mask, before := readGran m.mem g } :: histOf m g)
    mem := writeNat m.mem g 16 mask.toNat data.toNat
    poisoned := if mask = 0xFFFF then m.poisoned.filter (· != g) else m.poisoned
    keyed := if mask = 0xFFFF then smDel m.keyed g else m.keyed }

theorem commitWrite_eq : commitWrite m a g mask data =
    modAgent (raiseView (written m g mask data) a g (newestPos (written m g mask data) g)) a (fun x =>
      { x with own := smPut 0 x.own g (newestPos (written m g mask data) g) }) := rfl

theorem hist_commitWrite : (commitWrite m a g mask data).hist = smPut [] m.hist g
    ({ step := m.step + 1, tick := m.nowt, mask := mask, before := readGran m.mem g } :: histOf m g) := rfl

theorem histOf_commitWrite : histOf (commitWrite m a g mask data) g =
    { step := m.step + 1, tick := m.nowt, mask := mask, before := readGran m.mem g } :: histOf m g := by
  rw [histOf, hist_commitWrite, smGet_put_same]

theorem histOf_commitWrite_ne {h : Nat} (hg : h ≠ g) : histOf (commitWrite m a g mask data) h = histOf m h := by
  rw [histOf, hist_commitWrite, smGet_put_ne _ _ hg, histOf]

theorem newestPos_commitWrite : newestPos (commitWrite m a g mask data) g = newestPos m g + 1 := by
  rw [newestPos, histOf_commitWrite, List.length_cons, newestPos]

theorem viewOf_commitWrite (b h : Nat) : viewOf (commitWrite m a g mask data) b h =
    viewOf (raiseView (written m g mask data) a g (newestPos (written m g mask data) g)) b h := by
  rw [commitWrite_eq]
  by_cases hb : b = a
  · rw [hb, viewOf, getAgent_modAgent, viewOf]
  · rw [viewOf, getAgent_modAgent_ne _ _ hb, viewOf]

theorem viewOf_written (b h : Nat) : viewOf (written m g mask data) b h = viewOf m b h := rfl

theorem newestPos_written : newestPos (written m g mask data) g = newestPos (commitWrite m a g mask data) g := rfl

theorem readByte_commitWrite_mask {j : Nat} (hj : j < 16) : readByte (commitWrite m a g mask data).mem (g + j) =
    if mask.getLsbD j then BitVec.ofNat 8 (data.toNat / 256 ^ j) else readByte m.mem (g + j) :=
  (readByte_commitWrite_in m a g mask data j hj).trans (if_congr (testBit_iff_div mask j) rfl rfl)

theorem poisoned_commitWrite {m : Mach} {g : Nat} (hg : g ∈ m.poisoned) :
    g ∈ (commitWrite m a g mask data).poisoned ↔ mask ≠ 0xFFFF := by
  show g ∈ (if mask = 0xFFFF then m.poisoned.filter (· != g) else m.poisoned) ↔ _
  split
  next h => simp [h]
  next h => exact ⟨fun _ => h, fun _ => hg⟩

theorem commitWrite_rest : { commitWrite m a g mask data with
    mem := m.mem, hist := m.hist, agents := m.agents, step := m.step, poisoned := m.poisoned, keyed := m.keyed } =
        m := rfl

end

/-! ### A write that goes through a page -/

section
variable (m : Mach) (a : Nat) (key : Option Nat) (g : Nat) (mask : BitVec 16) (data : Gran)

/-- The write as it is committed, before its key is noted. -/
def keyedWrite : Mach :=
  if keyDiffers m key g && mask != 0xFFFF then
    commitWrite m a g 0xFFFF (mergeGran (Config.freeGran (m.fresh * 2 ^ 64 + 2 ^ 63 + g)) data mask)
  else commitWrite m a g mask data

theorem commitKeyed_eq : commitKeyed m a key g mask data = { keyedWrite m a key g mask data with keyed :=
    match key with
    | some k => if g < 0x8000000000 then smPut 0 (keyedWrite m a key g mask data).keyed g k
        else (keyedWrite m a key g mask data).keyed
    | none => (keyedWrite m a key g mask data).keyed } := by
  unfold commitKeyed
  cases key with
  | none => rfl
  | some k =>
    dsimp only
    split <;> rfl

theorem mem_commitKeyed_eq : (commitKeyed m a key g mask data).mem = (keyedWrite m a key g mask data).mem := by
  rw [commitKeyed_eq]

theorem readByte_commitKeyed_in {j : Nat} (hj : j < 16) (hm : mask.getLsbD j = true) :
    readByte (commitKeyed m a key g mask data).mem (g + j) = BitVec.ofNat 8 (data.toNat / 256 ^ j) := by
  rw [mem_commitKeyed_eq, keyedWrite]
  split
  · have hall : (0xFFFF : BitVec 16).getLsbD j = true := by
      interval_cases j <;> rfl
    rw [readByte_commitWrite_mask _ _ _ _ _ hj, if_pos hall, mergeGran_byte _ _ _ hj, if_pos hm]
  · rw [readByte_commitWrite_mask _ _ _ _ _ hj, if_pos hm]

theorem keyed_commitKeyed {k : Nat} (hk : key = some k) (hg : g < 0x8000000000) :
    smGet 0 (commitKeyed m a key g mask data).keyed g = k := by
  subst hk
  rw [commitKeyed_eq]
  dsimp only
  rw [if_pos hg, smGet_put_same]

theorem keyed_keyedWrite {h : Nat} (hg : h ≠ g) :
    smGet 0 (keyedWrite m a key g mask data).keyed h = smGet 0 m.keyed h := by
  have hw : ∀ mask data, smGet 0 (commitWrite m a g mask data).keyed h = smGet 0 m.keyed h := by
    intro mask data
    show smGet 0 (if mask = 0xFFFF then smDel m.keyed g else m.keyed) h = _
    split
    · exact smGet_del_ne _ _ hg
    · rfl
  rw [keyedWrite]
  split <;> exact hw _ _

theorem keyed_commitKeyed_ne {h : Nat} (hg : h ≠ g) :
    smGet 0 (commitKeyed m a key g mask data).keyed h = smGet 0 m.keyed h := by
  rw [commitKeyed_eq, ← keyed_keyedWrite m a key g mask data hg]
  cases key with
  | none => rfl
  | some k =>
    dsimp only
    split
    · exact smGet_put_ne _ _ hg _
    · rfl

theorem commitKeyed_plain (h : keyDiffers m key g = false ∨ mask = 0xFFFF) :
    { commitKeyed m a key g mask data with keyed := m.keyed } =
        { commitWrite m a g mask data with keyed := m.keyed } := by
  have hw : keyedWrite m a key g mask data = commitWrite m a g mask data := by
    refine if_neg ?_
    rcases h with h | h <;> simp [h]
  rw [commitKeyed_eq, hw]

end

/-! ### Stores that leave -/

section
variable {s : State} {agent idx : Nat} {a : Act} (hrun : s.m.phase = .running)
    (hiq : (getAgent s.m agent).iq[idx]? = some a)
  (hst : a.kind = .st) (hgo : canLeave s.m agent (getAgent s.m agent).iq idx = true)
include hrun hiq hst hgo

theorem exec_issueQueueLeave_none (ht : targetOf s.m a.gran = .none) : exec (.issueQueueLeave agent idx) s =
    .next { s with m := refuseAct (leaves s.m agent idx) agent a 0x09 (finfoT 7 3) } := by
  rw [exec_issueQueueLeave, execIssueQueueLeave, whenRunning, onMach]
  refine next_congr ((if_pos hrun).trans ?_)
  rw [leaveAct, hiq]
  refine (if_neg (by rw [hgo]; exact Bool.false_ne_true)).trans (if_pos ?_)
  rw [hst, ht]
  rfl

theorem exec_issueQueueLeave_some (ht : targetOf s.m a.gran ≠ .none) : exec (.issueQueueLeave agent idx) s =
    .next { s with m := match targetOf s.m a.gran with
      | .pool p => modCore (leaves s.m agent idx) p (fun k => { k with port := k.port ++ [(agent, a)] })
      | _ => modAgent (leaves s.m agent idx) agent (fun x => { x with pend := x.pend ++ [a] }) } := by
  rw [exec_issueQueueLeave, execIssueQueueLeave, whenRunning, onMach]
  refine next_congr ((if_pos hrun).trans ?_)
  rw [leaveAct, hiq]
  refine (if_neg (by rw [hgo]; exact Bool.false_ne_true)).trans ((if_neg (by simp [ht])).trans ?_)
  rw [hst]
  cases targetOf s.m a.gran <;> rfl

end

/-! ### Pending writes and the port of a pool -/

theorem noteMirror_none {a : Act} (h : a.mir = false) (m : Mach) (agent i : Nat) : noteMirror m agent i a = m :=
  if_neg (Bool.eq_false_iff.1 h)

theorem realAgent_own {agent : Nat} (h : agentIsLanding agent = false) (m : Mach) : realAgent m agent = agent :=
  if_neg (Bool.eq_false_iff.1 h)

/-- A context's or host's store that is not mirrored commits, and no more. -/
theorem commitAct_plain {m : Mach} {agent : Nat} {a : Act} (hland : agentIsLanding agent = false)
    (heng : agentIsEngine agent = false) (hmir : a.mir = false) :
    commitAct m agent a = commitKeyed m agent (actKey m a) a.gran a.mask a.data := by
  rw [commitAct, realAgent_own hland]
  refine (if_neg (Bool.eq_false_iff.1 hland)).trans ?_
  rw [noteMirror_none hmir]
  exact if_neg (Bool.eq_false_iff.1 heng)

/-- Is a pending write the first of its granule? -/
def FirstOfGranule (m : Mach) (agent idx : Nat) (a : Act) : Prop :=
  (∀ x ∈ (getAgent m agent).pend.take idx, x.gran ≠ a.gran) ∧ ∀ x ∈ adderActs m agent,
      ¬(x.tag < a.tag ∧ sameGran x a = true)

theorem firstOfGranule_iff (m : Mach) (agent idx : Nat) (a : Act) : FirstOfGranule m agent idx a ↔
    ¬((((getAgent m agent).pend.take idx).any (fun x => x.gran == a.gran)
      || (adderActs m agent).any (fun x => x.tag < a.tag && sameGran x a)) = true) := by
  simp only [FirstOfGranule, Bool.not_eq_true, Bool.or_eq_false_iff, List.any_eq_false, beq_iff_eq, Bool.and_eq_true,
    decide_eq_true_eq, ne_eq]

section
variable {s : State} {agent idx : Nat} {a : Act} (hrun : s.m.phase = .running)
  (hp : (getAgent s.m agent).pend[idx]? = some a)
include hrun hp

theorem exec_pendingCommit_waits (h : ¬FirstOfGranule s.m agent idx a) : exec (.pendingCommit agent idx) s = .next
    s := by
  rw [exec_pendingCommit, execPendingCommit, whenRunning, onMach]
  refine next_congr ((if_pos hrun).trans ?_)
  dsimp only
  rw [hp]
  exact if_pos (not_not.1 fun hn => h ((firstOfGranule_iff ..).2 hn))

variable (h : FirstOfGranule s.m agent idx a)
include h

theorem exec_pendingCommit_first : exec (.pendingCommit agent idx) s = .next
    ⟨if granBad s.m a.gran && a.mask != 0xFFFF then
        refuseAct (modAgent s.m agent (fun x => { x with pend := x.pend.eraseIdx idx })) agent a 0x19 a.finfo
      else commitAct (modAgent s.m agent (fun x => { x with pend := x.pend.eraseIdx idx })) agent a, s.trust⟩ := by
  rw [exec_pendingCommit, execPendingCommit, whenRunning, onMach]
  refine next_congr ((if_pos hrun).trans ?_)
  dsimp only
  rw [hp]
  exact if_neg ((firstOfGranule_iff ..).1 h)

end

theorem agentIsCtx_iff (a : Nat) : agentIsCtx a = true ↔ a < 40000 ∧ a % 32 < 16 := by
  simp [agentIsCtx]

theorem notLanding_of_ctx {a : Nat} (h : agentIsCtx a = true) : agentIsLanding a = false := by
  have := (agentIsCtx_iff a).1 h
  rw [agentIsLanding, Bool.and_eq_false_iff, decide_eq_false_iff_not]
  omega

theorem notEngine_of_ctx {a : Nat} (h : agentIsCtx a = true) : agentIsEngine a = false := by
  have := (agentIsCtx_iff a).1 h
  rw [agentIsEngine, Bool.and_eq_false_iff, decide_eq_false_iff_not, decide_eq_false_iff_not]
  omega

section
variable {s : State} {pool agent : Nat} {a : Act} {rest : List (Nat × Act)} (hrun : s.m.phase = .running)
  (hport : (getCore s.m pool).port = (agent, a) :: rest) (hctx : agentIsCtx agent = true)
      (hcore : agentCore agent = pool)
  (ht : targetOf s.m a.gran ≠ .none)
include hrun hport hctx hcore ht

theorem exec_portApply_own (hk : (isRead a.kind || isWrite a.kind) = true) : exec (.portApply pool) s = .next
    ⟨match a.kind with
      | .ld => bindTo (setCore s.m pool { getCore s.m pool with port := rest }) agent a
          (granNow (setCore s.m pool { getCore s.m pool with port := rest }) a.gran)
      | .st => commitAct (setCore s.m pool { getCore s.m pool with port := rest }) agent a
      | _ => applyPort (setCore s.m pool { getCore s.m pool with port := rest }) pool agent a, s.trust⟩ := by
  have ht' : targetOf (setCore s.m pool { getCore s.m pool with port := rest }) a.gran ≠ .none := ht
  rw [exec_portApply, execPortApply, whenRunning, onMach]
  refine next_congr ((if_pos hrun).trans ?_)
  dsimp only
  rw [hport]
  dsimp only
  generalize setCore s.m pool { getCore s.m pool with port := rest } = m1 at ht'
  have hown : ((agentIsCtx agent || agentIsOrphan agent) && agentCore agent == pool) = true := by simp [hctx, hcore]
  have hc : (if !(isRead a.kind || isWrite a.kind) then none
      else if targetOf m1 a.gran = .none then some causePerm
      else if (agentIsCtx agent || agentIsOrphan agent) && agentCore agent == pool then none
      else allocCheck m1 pool (poolOff a.gran + actLo a) (actLen a) (isRead a.kind) : Option Byte) = none := by
    rw [if_neg (by simp [hk]), if_neg ht', if_pos hown]
  cases hkind : a.kind with
  | ld =>
    unfold applyPort
    dsimp only
    rw [hc, hkind]
  | st =>
    unfold applyPort
    dsimp only
    rw [hc, hkind]
  | _ => rfl

end

/-! ### What a load binds -/

section
variable {s : State} {agent idx pos : Nat} {a : Act} (hrun : s.m.phase = .running)
  (hiq : (getAgent s.m agent).iq[idx]? = some a) (hk : a.kind = .ld) (ht : targetOf s.m a.gran = .hbm)
  (hgo : canLeave s.m agent (getAgent s.m agent).iq idx = true) (hland : agentIsLanding agent = false)
include hrun hiq hk ht hgo hland

theorem exec_loadBind_eq : exec (.loadBind agent idx pos) s = .next
    ⟨if viewOf s.m agent a.gran ≤ pos ∧ pos ≤ newestPos s.m a.gran then
        if granBad s.m a.gran then refuseAct (leaves s.m agent idx) agent a 0x19 a.finfo
        else bindTo (raiseView (leaves s.m agent idx) agent a.gran pos) agent a
          (overPending (getAgent s.m agent) a.gran (seenGran s.m (actKey s.m a) a.gran (contentAt s.m a.gran pos)))
      else s.m, s.trust⟩ := by
  rw [exec_loadBind, execLoadBind, whenRunning, onMach]
  refine next_congr ((if_pos hrun).trans ?_)
  dsimp only
  rw [hiq]
  dsimp only
  rw [realAgent_own hland]
  by_cases hpos : viewOf s.m agent a.gran ≤ pos ∧ pos ≤ newestPos s.m a.gran
  · rw [if_pos hpos]
    refine if_neg ?_
    simp [posOk, realAgent_own hland, hpos, hk, isLoad, ht, hgo]
  · rw [if_neg hpos]
    refine if_pos (.inr (.inr (.inr ?_)))
    rw [posOk, realAgent_own hland, Bool.not_eq_true', Bool.and_eq_false_iff, decide_eq_false_iff_not,
        decide_eq_false_iff_not]
    exact not_and_or.1 hpos

end

/-- A pending load that takes its granule: its register gets the bytes that it asked for. -/
theorem bindTo_load {m : Mach} {agent : Nat} {a : Act} {g : Gran} {p : Pend} {lo n : Nat} {r : BitVec 6} (hn : n ≤ 8)
    (hland : agentIsLanding agent = false) (hp : p ∈ (getCtx m (agentCore agent) (agentSub agent)).pend)
    (htag : p.tag = a.tag) (huse : p.use = .load lo n) (hdst : p.dst = [.s r]) :
    ∃ q ∈ (getCtx (bindTo m agent a g) (agentCore agent) (agentSub agent)).pend, q.tag = p.tag ∧ q.known = true ∧
      q.vals = [{ val := BitVec.ofNat 64 (g.toNat / 256 ^ lo % 256 ^ n) }] := by
  refine ⟨{ p with got := smIns p.got a.part g, vals := loadVals g lo n p.dst, known := true }, ?_, rfl, rfl, ?_⟩
  · rw [bindTo, if_neg (Bool.eq_false_iff.1 hland), getCtx_modCtx]
    refine List.mem_map.2 ⟨p, hp, ?_⟩
    rw [if_pos htag, huse]
  · rw [hdst, loadVals]
    dsimp only [List.map]
    rw [if_neg (by omega), granBytes]

end Sys2Proof.Machine

open Sys2Proof Sys2Proof.Machine

/-- Settles O30: a store that leaves and a pending write go through the same commit, whose effect on memory,
    history and views
is said once; a load binds what its view lets it read. -/
theorem writesAndLoads : Obligations.WritesAndLoads := by
  unfold Obligations.WritesAndLoads
  refine ⟨⟨fun s agent idx a hrun hiq hst hgo => ?leave, fun s agent idx a hrun hp => ?commit,
    fun s pool agent a rest hrun hport hctx hcore hmir ht => ?port⟩, fun m a g mask data => ?write,
    fun m a key g mask data => ?keyed, fun m key g x h => if_neg (Bool.eq_false_iff.1 h),
    fun s agent idx pos a hrun hiq hk ht hgo hland => ?bind, contentAt_newest,
    fun m agent a g p lo n r hn _ hland hp htag huse hdst => bindTo_load hn hland hp htag huse hdst⟩
  case leave =>
    refine ⟨fun ht => (exec_issueQueueLeave_some hrun hiq hst hgo ?_).trans (next_congr ?_),
      fun p ht => (exec_issueQueueLeave_some hrun hiq hst hgo ?_).trans (next_congr ?_),
      exec_issueQueueLeave_none hrun hiq hst hgo⟩ <;> rw [ht]
    · exact nofun
    · exact nofun
  case commit =>
    refine ⟨exec_pendingCommit_waits hrun hp, fun h heng hland hmir =>
      ⟨fun hg => (exec_pendingCommit_first hrun hp h).trans
          (next_congr ((if_neg ?_).trans (commitAct_plain hland heng hmir))),
        fun hg hm => (exec_pendingCommit_first hrun hp h).trans (next_congr (if_pos ?_))⟩⟩
    · rcases hg with hg | hg <;> simp [hg]
    · rw [hg, Bool.true_and, bne_iff_ne]
      exact hm
  case port =>
    have hex := fun hk => exec_portApply_own hrun hport hctx hcore ht hk
    refine ⟨fun hk => (hex (by rw [hk]; rfl)).trans (next_congr ?_), fun hk => (hex (by rw [hk]; rfl)).trans
        (next_congr ?_)⟩ <;>
      rw [hk]
    exact commitAct_plain (notLanding_of_ctx hctx) (notEngine_of_ctx hctx) hmir
  case write =>
    refine ⟨fun j hj => readByte_commitWrite_mask m a g mask data hj, fun b hb => readByte_commitWrite_out m a g
        mask data b hb,
      rfl, newestPos_commitWrite m a g mask data, fun h hg => histOf_commitWrite_ne m a g mask data hg, ?_, fun b h
          hb => ?_,
      poisoned_commitWrite a mask data, commitWrite_rest m a g mask data⟩
    · rw [viewOf_commitWrite, viewOf_raiseView, viewOf_written, newestPos_written m a]
    · rw [viewOf_commitWrite, viewOf_raiseView_ne _ _ _ _ (.inl hb), viewOf_written]
  case keyed =>
    exact ⟨fun j hj hm => readByte_commitKeyed_in m a key g mask data hj hm,
      fun b hb => readByte_commitKeyed_out m a key g mask data b hb, fun k hk hg => keyed_commitKeyed m a key g
          mask data hk hg,
      fun h hg => keyed_commitKeyed_ne m a key g mask data hg, commitKeyed_plain m a key g mask data⟩
  case bind =>
    have hex := exec_loadBind_eq (pos := pos) hrun hiq hk ht hgo hland
    exact ⟨fun hpos hg => hex.trans (next_congr ((if_pos hpos).trans (if_neg (Bool.eq_false_iff.1 hg)))),
      fun hpos hg => hex.trans (next_congr ((if_pos hpos).trans (if_pos hg))), fun hpos => hex.trans
          (next_congr (if_neg hpos))⟩
end


section
/-!
PROOFS. Acknowledgements of invalidations (spec/08 R161).
-/

namespace Sys2Proof.Machine

/-- Where the accesses that used the translations named have not all reached their ordering point, the switch die
    does not
acknowledge yet. -/
theorem exec_invalidationAck_waits {s : State} {v : Inval} (hrun : s.m.phase = .running)
    (hv : s.m.invals.find? (fun x => !(x.acks.getLsbD 4)) = some v) (hbusy : dieQuiet s.m 4 v = false) :
    exec (.invalidationAck 4) s = .next s := by
  rw [exec_invalidationAck, execInvalidationAck, whenRunning, onMach]
  refine next_congr ((if_pos hrun).trans ?_)
  dsimp only
  rw [if_neg (by decide), hv]
  dsimp only
  rw [if_neg (by decide : ¬ (4 < 4)), hbusy]
  rfl

/-- An invalidation that no destination has acknowledged. -/
def openInval : Inval := { part := 0, win := false, page := 0, all := true, acks := 0 }

/-- A running package with two invalidations in its list, of which the second has all five acknowledgements, while a
remote load of the partition is under way. -/
def ackMach : Mach :=
  { phase := .running, invals := [openInval, { openInval with acks := 31 }],
    agents := [(landAgent 0, { iq := [{ tag := 0, kind := .ld }] })] }

end Sys2Proof.Machine

open Sys2Proof Sys2Proof.Machine

/-- Refutes O31, by the clause of the acknowledgements: for the switch die it does not ask that the accesses be
    over, and
in `ackMach` one is not. The model then acknowledges nothing and drops nothing, and the list keeps the entry with
    all five
acknowledgements that it held; no reachable state holds such an entry. -/
theorem not_landingAndTranslation : ¬ Obligations.LandingAndTranslation := by
  unfold Obligations.LandingAndTranslation
  rintro ⟨-, -, -, ack, -⟩
  have first : ackMach.invals.find? (fun x => !(x.acks.getLsbD 4)) = some openInval := by decide +kernel
  obtain ⟨m', he, -, none31, -⟩ := ack ⟨ackMach, {}⟩ 4 openInval rfl (by decide) first (.inl rfl)
  have model := exec_invalidationAck_waits (s := ⟨ackMach, {}⟩) rfl first (by decide +kernel)
  injection model.symm.trans he with same
  have kept : ackMach = m' := congrArg (·.m) same
  exact none31 { openInval with acks := 31 } (kept ▸ by decide +kernel) rfl

end


section
/-!
PROOFS. Engine commands (spec/12 R203 to R213).
-/

namespace Sys2Proof.Machine

/-- While the part runs, an event does what its function of the machine says. -/
theorem whenRunning_run {s : State} (hrun : s.m.phase = .running) (f : Mach → Mach) :
    whenRunning s f = .next { s with m := f s.m } := by
  rw [whenRunning, onMach]
  exact next_congr (if_pos hrun)

theorem num_of_cmdOf {m : Mach} {core e num : Nat} {c : Cmd} (h : cmdOf m core e num = some c) : c.num = num := by
  have := List.find?_some h
  simpa using this

/-- The command of a number after a change that keeps numbers. -/
theorem cmdOf_modCmd {m : Mach} {core e num : Nat} {c : Cmd} (h : cmdOf m core e num = some c) (f : Cmd → Cmd)
    (hf : ∀ x : Cmd, x.num = num → (f x).num = num) : cmdOf (modCmd m core e num f) core e num = some (f c) := by
  have hn := num_of_cmdOf h
  unfold cmdOf modCmd
  rw [getCore_modCore]
  dsimp only
  rw [smGet_put_same, List.find?_map]
  have same : ((fun x : Cmd => x.num == num) ∘ fun x => if x.num = num then f x else x) = fun x => x.num == num := by
    funext x
    by_cases hx : x.num = num
    · simp [hx, hf x hx]
    · simp [hx]
  rw [same]
  change Option.map _ (cmdOf m core e num) = _
  rw [h, Option.map_some, if_pos hn]

theorem modCmd_mem (m : Mach) (core e num : Nat) (f : Cmd → Cmd) : (modCmd m core e num f).mem = m.mem := modCore_mem ..

theorem modCmd_out (m : Mach) (core e num : Nat) (f : Cmd → Cmd) : (modCmd m core e num f).out = m.out := rfl

/-- The machine after a start that found this. -/
def startedAs (m : Mach) (core e num : Nat) (r : Except (Nat × Cmd) (Mach × Cmd)) : Mach :=
  match r with
  | .ok (m, c) => modCmd m core e num (fun _ => { c with started := true })
  | .error (x, c) => modCmd m core e num (fun _ => { c with started := true, bad := some (statusOf x, x) })

/-- A command that may start does what its work at the start finds (R203). -/
theorem exec_engineCommandStart_starts {s : State} {core e num : Nat} {c : Cmd} (hrun : s.m.phase = .running)
    (hc : cmdOf s.m core e num = some c) (hst : c.started = false) (hen : c.ended = false)
    (hstop : c.stop = false ∨ optIsGroup c = true) (hnum : e < 3 → smGet 0 (getCore s.m core).etl e + 1 = num)
    (hport : c.kind ≤ 1 → ∀ v ∈ c.cw.toList ++ [c.b], portBusy s.m (engWho s.m core c) v = false) :
    exec (.engineCommandStart core e num) s =
      .next { s with m := startedAs s.m core e num (startWork s.m core e c) } := by
  rw [exec_engineCommandStart, execEngineCommandStart, whenRunning_run hrun]
  refine next_congr ?_
  rw [hc]
  refine if_neg ?_
  rintro (h | h | ⟨h, hg⟩ | ⟨h, hn⟩ | ⟨h, hb⟩)
  · rw [hst] at h
    exact Bool.false_ne_true h
  · rw [hen] at h
    exact Bool.false_ne_true h
  · rcases hstop with hs | hs
    · rw [hs] at h
      exact Bool.false_ne_true h
    · rw [hs] at hg
      exact Bool.false_ne_true hg
  · exact hn (hnum h)
  · obtain ⟨v, hv, hbusy⟩ := List.any_eq_true.1 hb
    rw [hport h v hv] at hbusy
    exact Bool.false_ne_true hbusy

/-- A copy at aligned addresses, without a renewal, starts with its count and direction (R208). -/
theorem startWork_copy {m : Mach} {core e : Nat} {c : Cmd} (hk : c.kind = 0) (ha : c.a.toNat % 64 = 0)
    (hb : c.b.toNat % 64 = 0) (hr : optRnf 0 c.opt.toNat = false) : startWork m core e c = .ok (m, { c with
      total := c.opt.toNat % 65536 + 1
      down := decide (c.b < c.a) && decide (c.a.toNat < c.b.toNat + 64 * (c.opt.toNat % 65536 + 1)) }) := by
  unfold startWork
  rw [hk]
  dsimp only
  rw [if_neg (not_or.2 ⟨not_not.2 ha, not_not.2 hb⟩), hr]
  rfl

theorem startWork_copy_misaligned {m : Mach} {core e : Nat} {c : Cmd} (hk : c.kind = 0)
    (h : c.a.toNat % 64 ≠ 0 ∨ c.b.toNat % 64 ≠ 0) :
    startWork m core e c = .error (0x0A, { c with total := c.opt.toNat % 65536 + 1 }) := by
  unfold startWork
  rw [hk]
  exact if_pos h

theorem startWork_store {m : Mach} {core e : Nat} {c : Cmd} (hk : c.kind = 3) (ha : c.a.toNat % 64 = 0)
    (hb : c.b.toNat % 64 = 0)
    (hr : remoteStart m (engWho m core c) { c with total := c.opt.toNat % 256 + 1 } c.a 64 = none) :
    startWork m core e c = .ok (m, { c with total := c.opt.toNat % 256 + 1 }) := by
  rw [hk] at hr
  unfold startWork
  rw [hk]
  refine (if_neg (not_or.2 ⟨not_not.2 ha, not_not.2 hb⟩)).trans ?_
  have reached : remoteStart m (engWho m core c) { c with kind := 3, total := optNblk 3 c.opt.toNat } c.a 64 = none := hr
  rw [reached]
  rfl

theorem startWork_gather_misaligned {m : Mach} {core e : Nat} {c : Cmd} (hk : c.kind = 1)
    (h : c.a.toNat % 64 ≠ 0 ∨ c.b.toNat % 32 ≠ 0) : startWork m core e c = .error (0x0A, c) := by
  unfold startWork
  rw [hk]
  exact if_pos h

/-! ### Blocks of a copy -/

/-- The work of a copy that has blocks left: the next one. -/
theorem nextWork_copy {m : Mach} {core : Nat} {c : Cmd} (hk : c.kind = 0) (h : c.next < c.total) :
    nextWork m core c = .read [c.b + BitVec.ofNat 64 (64 * copyIndex c)] := by
  unfold nextWork
  rw [hk]
  exact if_neg (by omega)

theorem readGrans_one {c : Cmd} (h : c.cut = none) : readGrans c 1 = 4 := by
  simp only [readGrans, cutAt, h, Nat.mul_one]

/-- The machine after a step that read granule `k` with this result. -/
def granuleAs (m : Mach) (core e num k : Nat) : GranRes → Mach
  | .none => m
  | .ok m g => modCmd m core e num (fun c => { c with buf := smIns c.buf k g })
  | .bad x => cmdFail m core e num x

/-- A step that reads: the granule named, where it is none that the buffer holds and its port is free (R207). -/
theorem exec_engineBlockApply_reads {s : State} {core e num : Nat} {c : Cmd} {src : Word} {pos : List Nat}
    (hrun : s.m.phase = .running) (hc : cmdOf s.m core e num = some c) (hgo : cmdGoes s.m core e c = true)
    (hwork : nextWork s.m core c = .read [src]) (hcut : c.cut = none) (hk : pos.headD 0 < 4)
    (hbuf : ∀ x ∈ c.buf, x.1 ≠ pos.headD 0) (hport : portBusy s.m (engWho s.m core c) src = false) :
    exec (.engineBlockApply core e num pos) s = .next ⟨granuleAs s.m core e num (pos.headD 0)
      (engGran s.m core e (engWho s.m core c) src (pos.headD 0) ((pos.drop 1).headD 0)), s.trust⟩ := by
  have absent : c.buf.any (fun x => x.1 == pos.headD 0) = false := by
    rw [List.any_eq_false]
    intro x hx
    simpa using hbuf x hx
  rw [exec_engineBlockApply, execEngineBlockApply, whenRunning_run hrun]
  refine next_congr ?_
  rw [hc]
  dsimp only
  rw [hgo, hwork]
  simp only [Bool.not_true, Bool.false_eq_true, if_false, List.length_singleton, readGrans_one hcut]
  rw [if_neg fun h => by
    have := List.all_eq_true.1 h _ (List.mem_range.2 hk)
    rw [absent] at this
    exact Bool.false_ne_true this]
  have block : [src].getD (pos.headD 0 / 4) 0 = src := by
    rw [show pos.headD 0 / 4 = 0 by omega]
    rfl
  rw [block, absent, hport, show pos.headD 0 % 4 = pos.headD 0 by omega, show pos.headD 0 / 4 = 0 by omega,
    if_neg (fun h => h.elim (fun h => by omega) fun h => h.elim Bool.false_ne_true Bool.false_ne_true)]
  rfl

theorem engGran_pool {m : Mach} {core e : Nat} {w : Who} {src : Word} {k q pa p : Nat} {mir tensor : Bool}
    (hx : xlateNow m w src 64 accRead = .ok pa mir tensor) (ht : targetOf m pa = .pool p) :
    (allocCheck m p (poolOff pa) 64 true = none → engGran m core e w src k q = .ok m (granNow m (pa + 16 * k))) ∧
    ∀ c, allocCheck m p (poolOff pa) 64 true = some c → engGran m core e w src k q = .bad c.toNat := by
  unfold engGran
  rw [hx]
  dsimp only
  rw [ht]
  dsimp only
  exact ⟨fun h => by rw [h], fun c h => by rw [h]⟩

theorem engGran_hbm {m : Mach} {core e : Nat} {w : Who} {src : Word} {k q pa : Nat} {mir tensor : Bool}
    (hx : xlateNow m w src 64 accRead = .ok pa mir tensor) (ht : targetOf m pa = .hbm)
    (hb : granBad m (pa + 16 * k) = false) (hl : agentIsLanding (engAgent core e) = false)
    (hq : viewOf m (engAgent core e) (pa + 16 * k) ≤ q ∧ q ≤ newestPos m (pa + 16 * k)) :
    engGran m core e w src k q = .ok (raiseView m (engAgent core e) (pa + 16 * k) q)
      (overPending (getAgent m (engAgent core e)) (pa + 16 * k)
        (seenGran m (pageKey m w.part src) (pa + 16 * k) (contentAt m (pa + 16 * k) q))) := by
  have may : posOk m (engAgent core e) (pa + 16 * k) q = true := by
    rw [posOk, realAgent, hl, if_neg Bool.false_ne_true]
    simpa using hq
  unfold engGran
  rw [hx]
  dsimp only
  rw [ht]
  dsimp only
  rw [hb, if_neg Bool.false_ne_true, may, if_pos rfl]

/-- With the four granules of its block in the buffer a copy hands the block on (R207). -/
theorem exec_engineBlockApply_writes {s : State} {core e num pa : Nat} {c : Cmd} {pos : List Nat} {mir tensor : Bool}
    (hrun : s.m.phase = .running) (hc : cmdOf s.m core e num = some c) (hk : c.kind = 0)
    (hgo : cmdGoes s.m core e c = true) (hnext : c.next < c.total) (hcut : c.cut = none)
    (hbuf : ∀ k < 4, ∃ x ∈ c.buf, x.1 = k)
    (hchk : checksBlock s.m core c (c.b + BitVec.ofNat 64 (64 * copyIndex c)) = false)
    (hx : xlateNow s.m (engWho s.m core c) (c.a + BitVec.ofNat 64 (64 * copyIndex c)) 64 accWrite = .ok pa mir tensor) :
    exec (.engineBlockApply core e num pos) s = .next ⟨modCmd
      (putBlock s.m core e c c.next pa mir (c.a + BitVec.ofNat 64 (64 * copyIndex c))
        (blockOf ((List.range 4).map (fun k => smGet 0 c.buf k)))) core e num
      (fun x => { x with next := x.next + 1, buf := [], cut := none, laterBad := none }), s.trust⟩ := by
  have whole : (List.range 4).all (fun k => c.buf.any (fun x => x.1 == k)) = true := by
    rw [List.all_eq_true]
    intro k hk
    obtain ⟨x, hx, e⟩ := hbuf k (List.mem_range.1 hk)
    exact List.any_eq_true.2 ⟨x, hx, by simpa using e⟩
  have blocks : bufBlocks c 1 = [blockOf ((List.range 4).map (fun k => smGet 0 c.buf k))] := by
    simp [bufBlocks]
  rw [exec_engineBlockApply, execEngineBlockApply, whenRunning_run hrun]
  refine next_congr ?_
  rw [hc]
  dsimp only
  rw [hgo, nextWork_copy hk hnext]
  simp only [Bool.not_true, Bool.false_eq_true, if_false, List.length_singleton, readGrans_one hcut]
  rw [if_pos whole, useBlocks, hk]
  simp only [List.length_singleton, cutAt, hcut, blocks, List.headD_cons, hchk, Bool.false_eq_true, if_false, if_true]
  rw [engWrite, hx]
  simp only [usedBlocks, num_of_cmdOf hc, hcut, Option.map_none, id]

/-! ### The end of a command (R206) -/

/-- The write of a command's completion word. -/
def cwAct (c : Cmd) (va : Word) (pa word : Nat) : Act :=
  { tag := c.tag, kind := .st, gran := pa / 16 * 16, mask := byteMask (pa % 16) 8,
    data := BitVec.ofNat 128 (word * 256 ^ (pa % 16)), va := va, cmd := c.num, area := c.area, finfo := c.finfo,
    part := c.ctx, aux := 1 }

/-- The machine after the write of a completion word with this result. -/
def endedAs (m : Mach) (core e num : Nat) : CwRes → Mach
  | .held => m
  | .sent m => modCmd m core e num (fun c => { c with cwSent := true })
  | .done m => endCmd m core e num

/-- The machine from which a completion word is written: what a whole command renews is renewed, another ends short. -/
def beforeCw (m : Mach) (core e num st : Nat) (c : Cmd) : Mach :=
  if st = 0 ∨ st = 8 then renewOnFill m core e c else modCmd m core e num (fun c => { c with short := true })

/-- A command whose result is known writes its completion word, and ends once that is written (R206). -/
theorem exec_engineCommandEnd_writes {s : State} {core e num st cause : Nat} {c : Cmd} (hrun : s.m.phase = .running)
    (hc : cmdOf s.m core e num = some c) (hs : c.cwSent = false) (hres : cmdResult s.m core e c = some (st, cause)) :
    exec (.engineCommandEnd core e num) s = .next ⟨endedAs s.m core e num
      (writeCw (beforeCw s.m core e num st c) core e c (cmdDone c % 2 ^ 48 + cause * 2 ^ 48 + st * 2 ^ 56)), s.trust⟩ := by
  rw [exec_engineCommandEnd, execEngineCommandEnd, whenRunning_run hrun]
  refine next_congr ?_
  rw [hc]
  dsimp only
  rw [hs, if_neg Bool.false_ne_true, hres]
  rfl

theorem writeCw_none {m : Mach} {core e x : Nat} {c : Cmd} (h : c.cw = none) : writeCw m core e c x = .done m := by
  rw [writeCw, h]

theorem writeCw_moving {m : Mach} {core e x : Nat} {c : Cmd} {va : Word} (h : c.cw = some va)
    (hx : xlateNow m (engWho m core c) va 8 accWrite = .moving) : writeCw m core e c x = .held := by
  rw [writeCw, h]
  dsimp only
  rw [hx]

section
variable {m : Mach} {core e x pa : Nat} {c : Cmd} {va : Word} {mir tensor : Bool} (h : c.cw = some va)
  (hx : xlateNow m (engWho m core c) va 8 accWrite = .ok pa mir tensor)
include h hx

theorem writeCw_pool {p : Nat} (ht : targetOf m pa = .pool p) : writeCw m core e c x =
    .sent (modAgent m (engAgent core e) (fun y => { y with iq := y.iq ++ [cwAct c va pa x] })) := by
  rw [writeCw, h]
  dsimp only
  rw [hx]
  dsimp only
  rw [ht]
  rfl

theorem writeCw_hbm (ht : targetOf m pa = .hbm) (hb : granBad m (pa / 16 * 16) = false) : writeCw m core e c x =
    .done (engWrote (commitKeyed m (engAgent core e) (pageKey m c.area va) (pa / 16 * 16) (cwAct c va pa x).mask
      (cwAct c va pa x).data) core e (cwAct c va pa x)) := by
  rw [writeCw, h]
  dsimp only
  rw [hx]
  dsimp only
  rw [ht]
  dsimp only
  rw [hb]
  rfl

theorem writeCw_bad (ht : targetOf m pa = .hbm) (hb : granBad m (pa / 16 * 16) = true) : writeCw m core e c x =
    .done (raiseLater m core c.ctx c.area 0x19 va c.finfo) := by
  rw [writeCw, h]
  dsimp only
  rw [hx]
  dsimp only
  rw [ht]
  dsimp only
  rw [hb]
  rfl

end

/-- A command whose completion word is at a port ends once it has landed (spec/11 R187). -/
theorem exec_engineCommandEnd_sent {s : State} {core e num : Nat} {c : Cmd} (hrun : s.m.phase = .running)
    (hc : cmdOf s.m core e num = some c) (hs : c.cwSent = true) :
    exec (.engineCommandEnd core e num) s =
      .next { s with m := if partsLanded s.m core e c && !c.ended then endCmd s.m core e num else s.m } := by
  rw [exec_engineCommandEnd, execEngineCommandEnd, whenRunning_run hrun]
  refine next_congr ?_
  rw [hc]
  dsimp only
  rw [hs, if_pos rfl]

theorem endCmd_of_cmdOf {m : Mach} {core e num : Nat} {c : Cmd} (hc : cmdOf m core e num = some c) :
    endCmd m core e num = countOwed (wakeCore (sweepAllocs (advance (modCmd (if c.short then shortBarrier m core e c else m)
      core e num (fun c => { c with ended := true })) core e) core) core) := by
  rw [endCmd, hc]

/-! ### Residual blocks (spec/14 R232) -/

/-- What a step does that writes a residual block. -/
theorem exec_engineBlockApply_residual {s : State} {core e num : Nat} {c : Cmd} (pos : List Nat)
    (hrun : s.m.phase = .running) (hc : cmdOf s.m core e num = some c) (hk : c.kind = 4)
    (hgo : cmdGoes s.m core e c = true) (hr : residNext c = true) :
    exec (.engineBlockApply core e num pos) s = .next { s with m := writeResidual s.m core e c } := by
  have work : nextWork s.m core c = .resid := by
    unfold nextWork
    rw [hk]
    exact if_pos hr
  rw [exec_engineBlockApply, execEngineBlockApply, whenRunning_run hrun]
  refine next_congr ?_
  rw [hc]
  dsimp only
  rw [hgo, work]
  rfl

/-- The change that a written residual block makes to its command. -/
def residualWritten (bs : List Block) (gs : List (List Block)) (c : Cmd) : Cmd :=
  { c with resid := if bs.isEmpty then gs else bs :: gs, residAt := c.residAt + 1 }

/-- A refused residual block: the command meets its failure. -/
theorem writeResidual_fault {m : Mach} {core e : Nat} {c : Cmd} {b : Block} {bs : List Block} {gs : List (List Block)}
    {x : Byte} {f : Word} (hr : c.resid = (b :: bs) :: gs)
    (hx : xlateNow m (engWho m core c) (c.b + BitVec.ofNat 64 (64 * c.residAt)) 64 accWrite = .fault x f) :
    writeResidual m core e c = modCmd (cmdFail m core e c.num x.toNat) core e c.num (residualWritten bs gs) := by
  rw [writeResidual, hr]
  dsimp only
  rw [engWrite, hx]
  rfl

/-- A command with a failure goes no further. -/
theorem cmdGoes_of_bad (m : Mach) (core e : Nat) {c : Cmd} (h : c.bad.isSome = true) : cmdGoes m core e c = false := by
  have hb : c.bad.isNone = false := by
    rw [Option.isNone_eq_false_iff]
    exact h
  simp [cmdGoes, hb]

theorem bad_of_cmdGoes {m : Mach} {core e : Nat} {c : Cmd} (h : cmdGoes m core e c = true) : c.bad = none := by
  simp only [cmdGoes, Bool.and_eq_true] at h
  simpa using h.1.1.1.1.1.2

/-! ### The engine timeline (R204) -/

/-- The number that ETL takes: up to it all commands are complete, and never below what it was. -/
theorem etl_advance (m : Mach) (core e : Nat) : smGet 0 (getCore (advance m core e) core).etl e =
    max (match openNums m core e with
      | [] => smGet 0 (getCore m core).eiss e
      | x :: xs => xs.foldl min x - 1) (smGet 0 (getCore m core).etl e) := by
  unfold advance
  dsimp only
  rw [getCore_setCore]
  exact smGet_put_same ..

/-- ETL stays below every number that is not complete. -/
theorem etl_advance_lt {m : Mach} {core e n : Nat} (hn : n ∈ openNums m core e)
    (hlt : smGet 0 (getCore m core).etl e < n) : smGet 0 (getCore (advance m core e) core).etl e < n := by
  rw [etl_advance]
  cases ho : openNums m core e with
  | nil => simp [ho] at hn
  | cons x xs =>
    have low : xs.foldl min x ≤ n := by
      rcases List.mem_cons.1 (ho ▸ hn) with rfl | h
      · exact (foldl_min_le (l := n :: xs) (.head _) n).trans' (by rw [List.foldl_cons, Nat.min_self])
      · exact foldl_min_le h x
    have low' : xs.foldl min x - 1 < n := by omega
    exact Nat.max_lt.2 ⟨low', hlt⟩

theorem etl_advance_of_nil {m : Mach} {core e : Nat} (h : openNums m core e = []) :
    smGet 0 (getCore (advance m core e) core).etl e =
      max (smGet 0 (getCore m core).eiss e) (smGet 0 (getCore m core).etl e) := by
  rw [etl_advance, h]

end Sys2Proof.Machine

open Sys2Proof Sys2Proof.Machine

/-- Settles O32: commands start by what their work at the start finds, a copy reads four granules of a block and hands the
block on, an end writes the completion word, and ETL takes the least number that is not complete, less one. -/
theorem engineCommands : Obligations.EngineCommands := by
  unfold Obligations.EngineCommands
  refine ⟨?start, ?blocks, ?ends, ?sent, fun m core e num c hc => endCmd_of_cmdOf hc, ?resid, ?etl⟩
  case start =>
    intro s core e num c hrun hc hst hen hstop hnum hport opt begins
    have go := exec_engineCommandStart_starts hrun hc hst hen hstop hnum hport
    refine ⟨fun hk ha hb hr => ?_, fun hk h => ?_, fun hk ha hb hr => ?_, fun hk h => ?_, fun m1 c1 h => ?_,
      fun x c1 h => ?_⟩
    · exact go.trans (by rw [startWork_copy hk ha hb hr]; rfl)
    · exact go.trans (by rw [startWork_copy_misaligned hk h]; rfl)
    · exact go.trans (by rw [startWork_store hk ha hb hr]; rfl)
    · exact go.trans (by rw [startWork_gather_misaligned hk h]; rfl)
    · exact go.trans (by rw [h]; rfl)
    · exact go.trans (by rw [h]; rfl)
  case blocks =>
    intro s core e num c pos hrun hc hk hgo hnext hcut i src dst
    refine ⟨?reads, fun pa mir tensor hbuf hchk hx =>
      exec_engineBlockApply_writes hrun hc hk hgo hnext hcut hbuf hchk hx⟩
    rintro pa mir tensor k rfl hk4 hbuf hx hport takes
    have go := exec_engineBlockApply_reads (pos := pos) hrun hc hgo (nextWork_copy hk hnext) hcut hk4 hbuf hport
    have go_of {r : GranRes} (h : engGran s.m core e (engWho s.m core c) src (pos.headD 0) ((pos.drop 1).headD 0) = r) :
        exec (.engineBlockApply core e num pos) s = .next ⟨granuleAs s.m core e num (pos.headD 0) r, s.trust⟩ := h ▸ go
    exact ⟨fun p ht ha => go_of ((engGran_pool hx ht).1 ha), fun p x ht ha => go_of ((engGran_pool hx ht).2 x ha),
      fun ht hb hl hq => go_of (engGran_hbm hx ht hb hl hq)⟩
  case ends =>
    intro s core e num c st cause hrun hc hs hres m1 word ended
    have go := exec_engineCommandEnd_writes hrun hc hs hres
    have ends_of {r : CwRes} (h : writeCw (beforeCw s.m core e num st c) core e c word = r) :
        exec (.engineCommandEnd core e num) s = .next { s with m := endedAs s.m core e num r } := h ▸ go
    refine ⟨fun hcw => ends_of (writeCw_none hcw), ?_, fun va hcw hx => ends_of (writeCw_moving hcw hx)⟩
    intro va pa mir tensor hcw hx g ends
    refine ⟨cwAct c va pa word, rfl, rfl, rfl, rfl, rfl, num_of_cmdOf hc, rfl, fun ht hb => ?_, fun ht hb => ?_,
      fun p ht => ?_⟩
    · exact ends_of (writeCw_hbm hcw hx ht hb)
    · exact ends_of (writeCw_bad hcw hx ht hb)
    · exact ends_of (writeCw_pool hcw hx ht)
  case sent =>
    intro s core e num c hrun hc hs
    have go := exec_engineCommandEnd_sent hrun hc hs
    refine ⟨fun hp he => go.trans (by rw [hp, he]; rfl), fun hp => go.trans (by rw [hp]; rfl)⟩
  case resid =>
    intro s core e num c pos b bs gs hrun hc hk hgo hr hn x f hx
    have num := num_of_cmdOf hc
    refine ⟨_, (exec_engineBlockApply_residual pos hrun hc hk hgo hn).trans
      (next_congr (writeResidual_fault hr hx)), ?_⟩
    have failed := cmdOf_modCmd hc (fun c => if c.bad.isSome then c
      else { c with bad := some (statusOf x.toNat, x.toNat) }) fun y hy => by split <;> exact hy
    have after := cmdOf_modCmd failed (residualWritten bs gs) fun y hy => hy
    rw [bad_of_cmdGoes hgo] at after
    subst num
    exact ⟨rfl, (modCmd_mem ..).trans (modCmd_mem ..), _, after, rfl, cmdGoes_of_bad _ _ _ rfl⟩
  case etl =>
    intro m core e m'
    exact ⟨by rw [etl_advance]; exact Nat.le_max_right .., fun n hn => etl_advance_lt hn, etl_advance_of_nil, rfl⟩

end


section
/-!
PROOFS. The commit of a part of a remote write (spec/11 R190, spec/14 R223).
-/

namespace Sys2Proof.Machine

theorem landingOf_modLanding {m : Mach} {id : Nat} {l : Landing} (h : landingOf m id = some l) (f : Landing → Landing)
    (hf : ∀ x : Landing, x.id = id → (f x).id = id) : landingOf (modLanding m id f) id = some (f l) := by
  have hid : l.id = id := by simpa using List.find?_some h
  unfold landingOf modLanding
  dsimp only
  rw [List.find?_map]
  have same : ((fun x : Landing => x.id == id) ∘ fun x => if x.id = id then f x else x) = fun x => x.id == id := by
    funext x
    by_cases hx : x.id = id
    · simp [hx, hf x hx]
    · simp [hx]
  rw [same]
  change Option.map _ (landingOf m id) = _
  rw [h, Option.map_some, if_pos hid]

/-- A landing after one of its parts has been applied. -/
def partDone (m : Mach) (a : Act) (g : Option Gran) (l : Landing) : Landing :=
  { l with
    left := l.left - 1
    bytes := match g with | some x => smIns l.bytes a.part x | none => l.bytes
    grans := if g.isSome ∨ a.cmd ≠ 0 then l.grans else l.grans ++ [(a.gran, newestPos m a.gran)] }

/-- The machine with the landing's part counted, and the write noted for the command that sent it. -/
def partNoted (m : Mach) (id : Nat) (a : Act) (g : Option Gran) : Mach :=
  match (landingOf (modLanding m id (partDone m a g)) id).bind landReq, g with
  | some r, none => noteRemote (modLanding m id (partDone m a g)) r [a.gran]
  | _, _ => modLanding m id (partDone m a g)

theorem landedPart_eq (m : Mach) (id : Nat) (a : Act) (g : Option Gran) : landedPart m (landAgent id) a g =
    match landingOf (partNoted m id a g) id with
    | some l => if l.left = 0 ∧ l.cause = 0 then
        remoteBarrier (partNoted m id a g) (landBlock l).1 (landBlock l).2.1 (landBlock l).2.2 else partNoted m id a g
    | none => partNoted m id a g := by
  have hid : landAgent id - landAgent 0 = id := by
    unfold landAgent
    omega
  unfold landedPart
  rw [hid]
  rfl

/-- The changes that only touch cores. -/
def OnlyCores (m m' : Mach) : Prop := ∃ cores, m' = { m with cores := cores }

theorem onlyCores_noteRemote (m : Mach) (r : RemoteReq) (gs : List Nat) : OnlyCores m (noteRemote m r gs) := by
  unfold noteRemote
  split
  · split
    · exact ⟨_, rfl⟩
    · exact ⟨_, rfl⟩
  · exact ⟨_, rfl⟩

theorem onlyCores_remoteBarrier (m : Mach) (rbarf pa len : Nat) : OnlyCores m (remoteBarrier m rbarf pa len) := by
  unfold remoteBarrier
  split
  · split
    · exact ⟨_, rfl⟩
    · exact ⟨_, rfl⟩
  · exact ⟨_, rfl⟩

theorem onlyCores_partNoted (m : Mach) (id : Nat) (a : Act) (g : Option Gran) :
    OnlyCores (modLanding m id (partDone m a g)) (partNoted m id a g) := by
  unfold partNoted
  split
  · exact onlyCores_noteRemote ..
  · exact ⟨_, rfl⟩

theorem onlyCores_landedPart (m : Mach) (id : Nat) (a : Act) (g : Option Gran) :
    OnlyCores (modLanding m id (partDone m a g)) (landedPart m (landAgent id) a g) := by
  obtain ⟨cores, noted⟩ := onlyCores_partNoted m id a g
  rw [landedPart_eq]
  split
  · split
    · obtain ⟨cores', h⟩ := onlyCores_remoteBarrier (partNoted m id a g) _ _ _
      rw [h, noted]
      exact ⟨_, rfl⟩
    · exact ⟨_, noted⟩
  · exact ⟨_, noted⟩

theorem OnlyCores.landingOf {m m' : Mach} (h : OnlyCores m m') (id : Nat) :
    Machine.landingOf m' id = Machine.landingOf m id := by
  obtain ⟨_, rfl⟩ := h
  rfl

theorem landingOf_landedPart {m : Mach} {id : Nat} {l : Landing} (h : landingOf m id = some l) (a : Act) (g : Option Gran) :
    landingOf (landedPart m (landAgent id) a g) id = some (partDone m a g l) :=
  ((onlyCores_landedPart m id a g).landingOf id).trans (landingOf_modLanding h _ fun _ hx => hx)

/-- The commit of a landing's part: its bytes are in memory, and it is counted. -/
theorem commitAct_landing {m : Mach} {id : Nat} {a : Act} (h : agentIsLanding (landAgent id) = true) :
    commitAct m (landAgent id) a = landedPart (commitKeyed m (realAgent m (landAgent id)) (actKey m a) a.gran a.mask a.data)
      (landAgent id) a none := by
  unfold commitAct
  exact if_pos h

theorem landings_commitKeyed (m : Mach) (a : Nat) (key : Option Nat) (g : Nat) (mask : BitVec 16) (data : Gran) :
    (commitKeyed m a key g mask data).landings = m.landings :=
  (onlyStored_commitKeyed m a key g mask data).keeps (·.landings) fun _ _ _ _ _ _ _ _ => rfl

/-- The commit of a part leaves the cause of its landing as it was. -/
theorem exec_pendingCommit_landing {s : State} {idx id : Nat} {a : Act} {l : Landing} (hrun : s.m.phase = .running)
    (hland : agentIsLanding (landAgent id) = true) (hp : (getAgent s.m (landAgent id)).pend[idx]? = some a)
    (hfirst : FirstOfGranule s.m (landAgent id) idx a) (hbad : granBad s.m a.gran = false) (hl : landingOf s.m id = some l) :
    ∃ m' : Mach, exec (.pendingCommit (landAgent id) idx) s = .next { s with m := m' } ∧
      ∀ l', landingOf m' id = some l' → l'.cause = l.cause := by
  have go := exec_pendingCommit_first hrun hp hfirst
  rw [hbad, Bool.false_and, if_neg Bool.false_ne_true, commitAct_landing hland] at go
  refine ⟨_, go, fun l' h => ?_⟩
  rw [landingOf_landedPart (l := l) (by rw [landingOf, landings_commitKeyed]; exact hl)] at h
  injection h with h
  rw [← h]
  rfl

/-- A write of the first granule of HBM, as the part of a remote store. -/
def landedAct : Act := { tag := 0, kind := .st, mask := 0xFFFF }

/-- A remote store of that granule. -/
def landedReq : RemoteReq :=
  { src := 0, srcCore := 0, id := 0, pa := 0, len := 16, data := [], rbarf := 0, hnd := false, hidx := 0, tpart := 0,
    kind := 1, mirror := false }

/-- The landing of that store, numbered 1, nothing of it refused. -/
def landedLanding : Landing := { id := 1, msg := .store 0 landedReq, agent := engAgent 0 3, left := 1 }

/-- A running package in which that write is pending. -/
def landedMach : Mach :=
  { phase := .running, landings := [landedLanding], agents := [(landAgent 1, { pend := [landedAct] })] }

end Sys2Proof.Machine

open Sys2Proof Sys2Proof.Machine

/-- Refutes O51, by the clause of a part's commit: there the name `id` is the landing's number, read as a constant
function, so that the clause asks that the landing's cause become that number; the model leaves the cause as it was, 0 in
the landing of number 1. -/
theorem not_remoteRequests : ¬ Obligations.RemoteRequests := by
  unfold Obligations.RemoteRequests
  rintro ⟨-, -, -, commit, -⟩
  have hl : landingOf landedMach 1 = some landedLanding := by decide +kernel
  have hp : (getAgent landedMach (landAgent 1)).pend[0]? = some landedAct := by decide +kernel
  have good : granBad landedMach landedAct.gran = false := by decide +kernel
  have noAdds : adderActs landedMach (landAgent 1) = [] := by decide +kernel
  obtain ⟨lands, -⟩ := commit ⟨landedMach, {}⟩ 0 1 landedAct rfl (by decide +kernel) hp (by simp) noAdds
  obtain ⟨m', he, -, stated⟩ := lands (.inl good)
  obtain ⟨m1, model, kept⟩ := exec_pendingCommit_landing (s := ⟨landedMach, {}⟩) rfl (by decide +kernel) hp
    ⟨by simp, by rw [noAdds]; simp⟩ good hl
  injection model.symm.trans he with same
  have hm : m1 = m' := congrArg (·.m) same
  obtain ⟨l', hl', -, hc⟩ := stated landedLanding hl
  have zero := kept l' (hm ▸ hl')
  rw [zero] at hc
  exact absurd hc (by decide)

end


section
/-!
PROOFS. Answers to the requests of a core, and mirrored writes (spec/14 R219, R220, R226, R234).
-/

namespace Sys2Proof.Machine

/-! ### Answers that no request waits for -/

section
variable {s : State} {core id : Nat} (hrun : s.m.phase = .running)
include hrun

section
variable (h : reqOwner s.m core id = none)
include h

theorem exec_loadResponse_late (cause : Nat) (data : List Byte) : exec (.loadResponse core id cause data) s =
    .next { s with m := dropMsg s.m (.loadResp s.m.number core id cause data) } := by
  rw [exec_loadResponse, execLoadResponse, whenRunning_run hrun]
  refine next_congr ?_
  dsimp only
  rw [h]

theorem exec_acknowledgement_late (cause wrote : Nat) : exec (.acknowledgement core id ⟨cause, wrote⟩) s =
    .next ⟨answerMirror (dropMsg s.m (.ack s.m.number core id cause wrote)) core id cause, s.trust⟩ := by
  rw [exec_acknowledgement, execAcknowledgement, whenRunning_run hrun]
  refine next_congr ?_
  dsimp only
  rw [h]

theorem exec_requestTimeout_late : exec (.requestTimeout core id) s = .next s := by
  rw [exec_requestTimeout, execRequestTimeout, whenRunning_run hrun]
  refine next_congr (m' := s.m) ?_
  rw [h]

theorem exec_movedNack_unknown (hm : (getCore s.m core).mirrorsOut.find? (fun x => x.1 == id) = none) :
    exec (.movedNack core id) s = .next { s with m := dropMsg s.m (.moved s.m.number core id) } := by
  rw [exec_movedNack, execMovedNack, whenRunning_run hrun]
  refine next_congr ?_
  dsimp only
  rw [h]
  dsimp only
  rw [hm]

/-- The machine without the mirror that a MOVED NACK answers. -/
def mirrorTaken (m : Mach) (core id : Nat) : Mach :=
  setCore (dropMsg m (.moved m.number core id)) core
    { getCore m core with mirrorsOut := (getCore m core).mirrorsOut.filter (fun x => x.1 != id) }

theorem exec_movedNack_mirror {n i : Nat} {a : Act} {again : Bool}
    (hm : (getCore s.m core).mirrorsOut.find? (fun x => x.1 == id) = some (n, i, a, again)) :
    exec (.movedNack core id) s = .next ⟨if again then
        countOwed (raiseLater (mirrorTaken s.m core id) core i a.area causePerm a.va a.finfo)
      else modCore (mirrorTaken s.m core id) core (fun k => { k with mirrors := (i, { a with aux := 1 }) :: k.mirrors }),
      s.trust⟩ := by
  rw [exec_movedNack, execMovedNack, whenRunning_run hrun]
  refine next_congr ?_
  dsimp only
  rw [h]
  dsimp only
  rw [hm]
  rfl

end

/-! ### Answers to a request -/

section
variable {c : Cmd} {q : Req} (h : reqOwner s.m core id = some (c, q))
include h

theorem exec_loadResponse_taken (cause : Nat) (data : List Byte) : exec (.loadResponse core id cause data) s =
    .next ⟨modCmd (answerReq (dropMsg s.m (.loadResp s.m.number core id cause data)) core c.num id cause 0) core 3 c.num
      (fun c => { c with fetched := some data, next := 0, laterBad := if cause = 0 then none else some cause }),
      s.trust⟩ := by
  rw [exec_loadResponse, execLoadResponse, whenRunning_run hrun]
  refine next_congr ?_
  dsimp only
  rw [h]

/-- The machine with an acknowledged request of a command. -/
def ackedReq (m : Mach) (core id cause wrote : Nat) (c : Cmd) : Mach :=
  answerReq (dropMsg m (.ack m.number core id cause wrote)) core c.num id cause wrote

theorem exec_acknowledgement_group (hg : optIsGroup c = true) (cause wrote : Nat) :
    exec (.acknowledgement core id ⟨cause, wrote⟩) s = .next ⟨if cause = 0 then ackedReq s.m core id cause wrote c
      else modCmd (ackedReq s.m core id cause wrote c) core 3 c.num (fun c => { c with
        closed := true, gstat := if cause = 0x1A then 2 else 5, gcause := cause }), s.trust⟩ := by
  rw [exec_acknowledgement, execAcknowledgement, whenRunning_run hrun]
  refine next_congr ?_
  dsimp only
  rw [h]
  exact if_pos hg

/-- The machine with the blocks of an acknowledged request counted. -/
def ackCounted (m : Mach) (core id cause wrote : Nat) (c : Cmd) (q : Req) : Mach :=
  modCmd (ackedReq m core id cause wrote c) core 3 c.num (fun x =>
    { x with doneBytes := x.doneBytes + ackBytes c q wrote })

theorem exec_acknowledgement_counts (hg : optIsGroup c = false) (cause wrote : Nat) :
    exec (.acknowledgement core id ⟨cause, wrote⟩) s = .next ⟨if cause = 0 then ackCounted s.m core id cause wrote c q
      else cmdFail (ackCounted s.m core id cause wrote c q) core 3 c.num cause, s.trust⟩ := by
  rw [exec_acknowledgement, execAcknowledgement, whenRunning_run hrun]
  refine next_congr ?_
  dsimp only
  rw [h]
  exact if_neg (Bool.eq_false_iff.1 hg)

theorem exec_requestTimeout_waits (ht : s.m.cycle < q.sentAt + 2500000) : exec (.requestTimeout core id) s = .next s := by
  rw [exec_requestTimeout, execRequestTimeout, whenRunning_run hrun]
  refine next_congr (m' := s.m) ?_
  rw [h]
  exact if_pos (.inr ht)

theorem exec_requestTimeout_ends (hg : optIsGroup c = false) (ht : q.sentAt + 2500000 ≤ s.m.cycle) :
    exec (.requestTimeout core id) s =
      .next ⟨cmdFail (answerReq s.m core c.num id 0x31 0) core 3 c.num 0x31, s.trust⟩ := by
  rw [exec_requestTimeout, execRequestTimeout, whenRunning_run hrun]
  refine next_congr ?_
  rw [h]
  refine if_neg ?_
  rintro (g | g)
  · exact Bool.eq_false_iff.1 hg g
  · omega

/-! ### Requests that a moved frame refused -/

/-- A request that ends its command with a cause. -/
def nackFails (m : Mach) (core id x : Nat) (c : Cmd) : Mach :=
  cmdFail (answerReq (dropMsg m (.moved m.number core id)) core c.num id x 0) core 3 c.num x

theorem exec_movedNack_again (ha : q.again = true) :
    exec (.movedNack core id) s = .next ⟨nackFails s.m core id 0x30 c, s.trust⟩ := by
  rw [exec_movedNack, execMovedNack, whenRunning_run hrun]
  refine next_congr ?_
  dsimp only
  rw [h]
  exact if_pos ha

theorem exec_movedNack_fault (ha : q.again = false) {x : Byte} {f : Word}
    (hx : xlateNow s.m (engWho s.m core c) q.va q.r.len (remoteAcc c) = .fault x f) :
    exec (.movedNack core id) s = .next ⟨nackFails s.m core id x.toNat c, s.trust⟩ := by
  rw [exec_movedNack, execMovedNack, whenRunning_run hrun]
  refine next_congr ?_
  dsimp only
  rw [h]
  refine (if_neg (Bool.eq_false_iff.1 ha)).trans ?_
  rw [hx]
  rfl

/-- A request as it is sent once more. -/
def sentAgain (m : Mach) (core : Nat) (q : Req) (pa kind tpart : Nat) : RemoteReq :=
  { q.r with id := (getCore m core).reqSeq + 1, pa := pa, kind := kind, tpart := tpart }

/-- The message of a request that is sent once more. -/
def msgAgain (q : Req) (pkg : Nat) (r : RemoteReq) : Msg :=
  match q.op with
  | some op => .direct pkg r op q.vals
  | none => if q.replica then .replica pkg r else .store pkg r

/-- The core of a request with the next number taken. -/
def nextNumber (k : Core) : Core := { k with reqSeq := k.reqSeq + 1 }

/-- The request in its command's list, once it is sent once more. -/
def againIn (id pkg now : Nat) (r : RemoteReq) (c : Cmd) : Cmd :=
  { c with reqs := c.reqs.map (fun x =>
      if x.r.id = id then { x with r := r, pkg := pkg, again := true, sentAt := now } else x) }

/-- The machine with a request sent once more. -/
def sentOnceMore (m : Mach) (core id num pkg : Nat) (r : RemoteReq) (x : Msg) : Mach :=
  sendMsg (modCmd (setCore (dropMsg m (.moved m.number core id)) core (nextNumber (getCore m core))) core 3 num
    (againIn id pkg m.cycle r)) x

omit hrun h in
theorem again_mem (m : Mach) (core id num pkg : Nat) (r : RemoteReq) (x : Msg) :
    (sentOnceMore m core id num pkg r x).mem = m.mem := by
  simp only [sentOnceMore, sendMsg, modCmd, dropMsg, modCore_mem, setCore_mem]

omit hrun h in
theorem again_out (m : Mach) (core id num pkg : Nat) (r : RemoteReq) (x : Msg) :
    (sentOnceMore m core id num pkg r x).out = m.out.erase (.moved m.number core id) ++ [x] := by
  simp only [sentOnceMore, sendMsg, modCmd, dropMsg, modCore_out, setCore_out]

theorem exec_movedNack_remote (ha : q.again = false) {pkg pa kind tp : Nat}
    (hx : xlateNow s.m (engWho s.m core c) q.va q.r.len (remoteAcc c) = .remote pkg pa kind tp) :
    exec (.movedNack core id) s = .next ⟨sentOnceMore s.m core id c.num pkg (sentAgain s.m core q pa kind tp)
      (msgAgain q pkg (sentAgain s.m core q pa kind tp)), s.trust⟩ := by
  rw [exec_movedNack, execMovedNack, whenRunning_run hrun]
  refine next_congr ?_
  dsimp only
  rw [h]
  refine (if_neg (Bool.eq_false_iff.1 ha)).trans ?_
  rw [hx]
  rfl

end

end

/-! ### Blocks of a response -/

section
variable {m : Mach} {core e : Nat} {c : Cmd} {data : List Byte} (hd : c.fetched = some data)

theorem placeBlock_moving
    (hx : xlateNow m (engWho m core c) (c.a + BitVec.ofNat 64 (64 * c.next)) 64 accWrite = .moving) :
    placeBlock m core e c = m := by
  unfold placeBlock
  dsimp only
  rw [hx]

theorem placeBlock_fault {y : Byte} {f : Word}
    (hx : xlateNow m (engWho m core c) (c.a + BitVec.ofNat 64 (64 * c.next)) 64 accWrite = .fault y f) :
    placeBlock m core e c = cmdFail m core e c.num y.toNat := by
  unfold placeBlock
  dsimp only
  rw [hx]

include hd

theorem placeBlock_ok {pa : Nat} {mir tensor : Bool}
    (hx : xlateNow m (engWho m core c) (c.a + BitVec.ofNat 64 (64 * c.next)) 64 accWrite = .ok pa mir tensor)
    (ht : targetOf m pa = .hbm ∨ targetOf m pa = .pool core) : placeBlock m core e c = modCmd
      (putBlock m core e c c.next pa mir (c.a + BitVec.ofNat 64 (64 * c.next))
        (BitVec.ofNat 512 (natOfBytes ((data.drop (64 * c.next)).take 64)))) core e c.num
      (fun c => { c with next := c.next + 1 }) := by
  unfold placeBlock
  dsimp only
  rw [hx]
  refine (if_pos ht).trans ?_
  rw [hd]
  rfl

end

/-! ### Mirrored writes (R234) -/

/-- The first address and the length that a mirror writes at its distance. -/
def mirrorRange (a : Act) : Nat × Nat :=
  match a.kind with | .radd _ => (a.gran, 64) | _ => (a.gran + actLo a, actLen a)

/-- The flag of a window that a mirror needs: RED for an l.radd, else WR. -/
def mirrorFlag (a : Act) : Nat := match a.kind with | .radd _ => 3 | _ => 2

/-- The request of a mirror. -/
def mirrorReq (m : Mach) (core : Nat) (a : Act) (raw : Nat) : RemoteReq :=
  { src := m.number, srcCore := core, id := (getCore m core).reqSeq + 1,
    pa := winTbase raw + ((mirrorRange a).1 - a.mbase), len := (mirrorRange a).2,
    data := match a.kind with | .radd _ => [] | _ => actBytes a
    rbarf := 0, hnd := false, hidx := 0, tpart := winTpart raw, kind := 1, mirror := true }

/-- The message of a mirror. -/
def mirrorMsg (a : Act) (pkg : Nat) (r : RemoteReq) : Msg :=
  match a.kind with
  | .radd lanes => .direct pkg r 0 ((List.range 15).map (fun j => BitVec.ofNat 32 (lanes.toNat / 2 ^ (32 * j))))
  | _ => .store pkg r

theorem mirrorReq_data {m : Mach} {core raw : Nat} {a : Act} (no : ∀ v, a.kind ≠ .radd v) :
    (mirrorReq m core a raw).data = actBytes a := by
  unfold mirrorReq
  cases hk : a.kind with
  | radd v => exact absurd hk (no v)
  | _ => rfl

theorem mirrorMsg_store {a : Act} {pkg : Nat} {r : RemoteReq} (no : ∀ v, a.kind ≠ .radd v) :
    mirrorMsg a pkg r = .store pkg r := by
  unfold mirrorMsg
  cases hk : a.kind with
  | radd v => exact absurd hk (no v)
  | _ => rfl

theorem mirrorMsg_radd {a : Act} {pkg : Nat} {r : RemoteReq} {v : BitVec 480} (h : a.kind = .radd v) : mirrorMsg a pkg r =
    .direct pkg r 0 ((List.range 15).map (fun j => BitVec.ofNat 32 (v.toNat / 2 ^ (32 * j)))) := by
  rw [mirrorMsg, h]

/-- A mirror goes where no freeze and no earlier one to its granule holds it. -/
theorem mirror_goes {k : Core} {a : Act} (hf : engFrozen k = false)
    (hs : ¬∃ x ∈ k.mirrorsOut, sameGran x.2.2.1 a = true) :
    ¬(engFrozen k || k.mirrorsOut.any (fun x => sameGran x.2.2.1 a)) = true := by
  rw [Bool.or_eq_true, List.any_eq_true, hf]
  rintro (g | g)
  · exact Bool.false_ne_true g
  · exact hs g

/-- A mirror's window takes it: an entry in use, of KIND 1, with its flag, that holds its range. -/
theorem mirror_allowed {ok : Bool} {raw pa len base flag : Nat} (hok : ok = true) (hinv : winInvalid raw = false)
    (hkind : winKind raw = 1) (hlo : base ≤ pa) (hhi : pa + len ≤ base + winSize raw) (hflag : winFlag raw flag = true) :
    ¬((!ok) = true ∨ winInvalid raw = true ∨ winKind raw ≠ 1 ∨ pa < base ∨ base + winSize raw < pa + len ∨
      (!winFlag raw flag) = true) := by
  rw [hok, hinv, hflag]
  simp only [Bool.not_true, Bool.false_eq_true, false_or, or_false, not_or, not_not, Nat.not_lt]
  exact ⟨hkind, hlo, hhi⟩

section
variable {s : State} {core i : Nat} {a : Act} {rest : List (Nat × Act)}

theorem exec_mirrorWrite_none (h : (getCore s.m core).mirrors = []) : exec (.mirrorWrite core) s = .next s := by
  rw [exec_mirrorWrite, execMirrorWrite, whenRunning, onMach]
  refine next_congr (m' := s.m) ?_
  split
  · dsimp only
    rw [h]
  · rfl

variable (hrun : s.m.phase = .running) (h : (getCore s.m core).mirrors = (i, a) :: rest)
include hrun h

theorem exec_mirrorWrite_waits
    (hw : engFrozen (getCore s.m core) = true ∨ ∃ x ∈ (getCore s.m core).mirrorsOut, sameGran x.2.2.1 a = true) :
    exec (.mirrorWrite core) s = .next s := by
  rw [exec_mirrorWrite, execMirrorWrite, whenRunning_run hrun]
  refine next_congr (m' := s.m) ?_
  dsimp only
  rw [h]
  refine if_pos ?_
  rw [Bool.or_eq_true, List.any_eq_true]
  exact hw

variable (hf : engFrozen (getCore s.m core) = false)
  (hs : ¬∃ x ∈ (getCore s.m core).mirrorsOut, sameGran x.2.2.1 a = true)
include hf hs

/-- The machine with the mirror taken off the list. -/
def mirrorOff (m : Mach) (core : Nat) (rest : List (Nat × Act)) : Mach :=
  setCore m core { getCore m core with mirrors := rest }

theorem exec_mirrorWrite_unmapped (hm : a.mirw = none) : exec (.mirrorWrite core) s =
    .next ⟨countOwed (raiseLater (mirrorOff s.m core rest) core i a.area causePerm a.va (finfoT 7 2)), s.trust⟩ := by
  have go := mirror_goes hf hs
  rw [exec_mirrorWrite, execMirrorWrite, whenRunning_run hrun]
  refine next_congr ?_
  dsimp only
  rw [h]
  refine (if_neg go).trans ?_
  rw [hm]
  rfl

/-- The core with a mirror on its way. -/
def mirrorSent (id i : Nat) (a : Act) (k : Core) : Core :=
  { k with reqSeq := id, mirrorsOut := k.mirrorsOut ++ [(id, i, a, a.aux == 1)] }

omit hrun h hf hs in
/-- What sending a mirror leaves and changes. -/
theorem mirror_sent_facts (m : Mach) (core : Nat) (rest : List (Nat × Act)) (id i : Nat) (a : Act) (x : Msg) :
    let m' := sendMsg (modCore (mirrorOff m core rest) core (mirrorSent id i a)) x
    m'.mem = m.mem ∧ (getCore m' core).mirrors = rest ∧ m'.out = m.out ++ [x] := by
  refine ⟨by simp only [sendMsg, mirrorOff, modCore_mem, setCore_mem], ?_, by
    simp only [sendMsg, mirrorOff, modCore_out, setCore_out]⟩
  have same : getCore (sendMsg (modCore (mirrorOff m core rest) core (mirrorSent id i a)) x) core =
      getCore (modCore (mirrorOff m core rest) core (mirrorSent id i a)) core := rfl
  rw [same, getCore_modCore, mirrorSent, mirrorOff, getCore_setCore]

theorem exec_mirrorWrite_sends {w raw : Nat} {m1 : Mach}
    (hm1 : mirrorOff s.m core rest = m1) (hm : a.mirw = some w)
    (hraw : (walkWindow m1 a.area w).raw = raw)
    (hok : (walkWindow m1 a.area w).ok = true)
    (hchk : (walkWindow m1 a.area w).chk = false) (hinv : winInvalid raw = false)
    (hkind : winKind raw = 1) (hlo : a.mbase ≤ (mirrorRange a).1)
    (hhi : (mirrorRange a).1 + (mirrorRange a).2 ≤ a.mbase + winSize raw) (hflag : winFlag raw (mirrorFlag a) = true) :
    exec (.mirrorWrite core) s = .next ⟨sendMsg (modCore (mirrorOff s.m core rest) core
      (mirrorSent ((getCore s.m core).reqSeq + 1) i a)) (mirrorMsg a (winPkg raw) (mirrorReq s.m core a raw)),
      s.trust⟩ := by
  have go := mirror_goes hf hs
  subst hraw hm1
  rw [exec_mirrorWrite, execMirrorWrite, whenRunning_run hrun]
  refine next_congr ?_
  dsimp only
  rw [h]
  refine (if_neg go).trans ?_
  rw [hm]
  dsimp only
  refine (if_neg (Bool.eq_false_iff.1 hchk)).trans ?_
  unfold mirrorMsg mirrorReq
  unfold mirrorRange at hlo hhi ⊢
  unfold mirrorFlag at hflag
  generalize a.kind = kind at hlo hhi hflag ⊢
  cases kind with
  | radd lanes =>
    refine (if_neg ?_).trans rfl
    exact mirror_allowed hok hinv hkind hlo hhi hflag
  | _ =>
    refine (if_neg ?_).trans rfl
    exact mirror_allowed hok hinv hkind hlo hhi hflag

omit hrun h hf hs in
theorem mirrorRange_eq {pa len : Nat} (hradd : ∀ v, a.kind = .radd v → pa = a.gran ∧ len = 64)
    (hplain : (∀ v, a.kind ≠ .radd v) → pa = a.gran + actLo a ∧ len = actLen a) : mirrorRange a = (pa, len) := by
  unfold mirrorRange
  cases hk : a.kind with
  | radd v => rw [(hradd v hk).1, (hradd v hk).2]
  | _ =>
    have no (v : BitVec 480) : a.kind ≠ .radd v := by rw [hk]; exact ActKind.noConfusion
    rw [(hplain no).1, (hplain no).2]

omit hrun h hf hs in
theorem mirrorFlag_set {raw : Nat} (hfr : ∀ v, a.kind = .radd v → winFlag raw 3 = true)
    (hfw : (∀ v, a.kind ≠ .radd v) → winFlag raw 2 = true) : winFlag raw (mirrorFlag a) = true := by
  unfold mirrorFlag
  cases hk : a.kind with
  | radd v => exact hfr v hk
  | _ => exact hfw fun v => by rw [hk]; exact ActKind.noConfusion

/-- What stands at the end of sending a mirror: the list without it, and one request at its distance in the window. -/
theorem mirror_sent {w raw pa len : Nat} {m1 : Mach} (hm1 : mirrorOff s.m core rest = m1) (hm : a.mirw = some w)
    (hraw : (walkWindow m1 a.area w).raw = raw) (hok : (walkWindow m1 a.area w).ok = true)
    (hchk : (walkWindow m1 a.area w).chk = false) (hinv : winInvalid raw = false) (hkind : winKind raw = 1)
    (hradd : ∀ v, a.kind = .radd v → pa = a.gran ∧ len = 64)
    (hplain : (∀ v, a.kind ≠ .radd v) → pa = a.gran + actLo a ∧ len = actLen a)
    (hlo : a.mbase ≤ pa) (hhi : pa + len ≤ a.mbase + winSize raw) (hfr : ∀ v, a.kind = .radd v → winFlag raw 3 = true)
    (hfw : (∀ v, a.kind ≠ .radd v) → winFlag raw 2 = true) : ∃ m' : Mach,
    exec (.mirrorWrite core) s = .next { s with m := m' } ∧ m'.mem = s.m.mem ∧ (getCore m' core).mirrors = rest ∧
    ∃ r : RemoteReq, r.pa = winTbase raw + (pa - a.mbase) ∧ r.len = len ∧ r.mirror = true ∧ r.kind = 1 ∧
      r.src = s.m.number ∧ r.srcCore = core ∧
      ((∀ v, a.kind ≠ .radd v) → r.data = actBytes a ∧ m'.out = s.m.out ++ [.store (winPkg raw) r]) ∧
      (∀ v, a.kind = .radd v → m'.out = s.m.out ++ [.direct (winPkg raw) r 0
        ((List.range 15).map (fun j => BitVec.ofNat 32 (v.toNat / 2 ^ (32 * j))))]) := by
  have range := mirrorRange_eq hradd hplain
  have go := exec_mirrorWrite_sends hrun h hf hs hm1 hm hraw hok hchk hinv hkind
    (by rw [range]; exact hlo) (by rw [range]; exact hhi) (mirrorFlag_set hfr hfw)
  obtain ⟨hmem, hmirrors, hout⟩ := mirror_sent_facts s.m core rest ((getCore s.m core).reqSeq + 1) i a
    (mirrorMsg a (winPkg raw) (mirrorReq s.m core a raw))
  refine ⟨_, go, hmem, hmirrors, mirrorReq s.m core a raw, ?_, ?_, rfl, rfl, rfl, rfl, fun no => ?_, fun v hv => ?_⟩
  · rw [mirrorReq, range]
  · rw [mirrorReq, range]
  · exact ⟨mirrorReq_data no, hout.trans (by rw [mirrorMsg_store no])⟩
  · exact hout.trans (by rw [mirrorMsg_radd hv])

end

end Sys2Proof.Machine

open Sys2Proof Sys2Proof.Machine

/-- Settles O52: each answer by whether a request waits for it and by its cause, a block of a response by what its address
names, and a mirror by what its window takes. -/
theorem answersToRequests : Obligations.AnswersToRequests := by
  unfold Obligations.AnswersToRequests
  refine ⟨?late, ?request, ?place, ?mirror, fun s core h => exec_mirrorWrite_none h⟩
  case late =>
    intro s core id cause wrote data hrun h
    refine ⟨exec_loadResponse_late hrun h cause data, exec_acknowledgement_late hrun h cause wrote,
      exec_requestTimeout_late hrun h, ?_⟩
    intro mv k less
    refine ⟨fun hm => exec_movedNack_unknown hrun h ?_, fun n i a hm => (exec_movedNack_mirror hrun h hm).trans rfl,
      fun n i a hm => (exec_movedNack_mirror hrun h hm).trans rfl⟩
    rw [List.find?_eq_none]
    intro x hx
    simpa using hm x hx
  case request =>
    intro s core id cause wrote data c q hrun h lr ak mv
    refine ⟨exec_loadResponse_taken hrun h cause data, fun hg => ?_, fun hq => ?_, fun hg hc => ?_, fun hg hc => ?_,
      fun ha => exec_movedNack_again hrun h ha, fun pkg pa kind tp ha hx => ?_, fun x f ha hx =>
        exec_movedNack_fault hrun h ha hx, fun ht => exec_requestTimeout_waits hrun h ht,
      fun hg ht => exec_requestTimeout_ends hrun h hg ht⟩
    · have go := exec_acknowledgement_counts hrun h hg cause wrote
      exact ⟨fun hc => go.trans (by rw [if_pos hc]; rfl), fun hc => go.trans (by rw [if_neg hc]; rfl)⟩
    · unfold ackBytes
      exact if_neg (Bool.eq_false_iff.1 hq)
    · subst hc
      exact exec_acknowledgement_group hrun h hg 0 wrote
    · exact (exec_acknowledgement_group hrun h hg cause wrote).trans (by rw [if_neg hc]; rfl)
    · refine ⟨_, exec_movedNack_remote hrun h ha hx, again_mem .., ?_⟩
      · intro r
        refine ⟨msgAgain q pkg r, again_out .., fun ho hr => ?_, fun ho hr => ?_, fun op ho => ?_⟩
        · rw [msgAgain, ho, hr]
          rfl
        · rw [msgAgain, ho, hr]
          rfl
        · rw [msgAgain, ho]
  case place =>
    intro m core e c data hd va x
    exact ⟨placeBlock_moving, fun pa mir tensor hx ht => placeBlock_ok hd hx ht, fun y f hx => placeBlock_fault hx⟩
  case mirror =>
    intro s core i a rest hrun h
    dsimp only
    refine ⟨exec_mirrorWrite_waits hrun h, fun hf hs hm => exec_mirrorWrite_unmapped hrun h hf hs hm, ?_⟩
    exact fun w pa len hf hs hm hradd hplain hok hchk hinv hkind hlo hhi hfr hfw =>
      mirror_sent hrun h hf hs rfl hm rfl hok hchk hinv hkind hradd hplain hlo hhi hfr hfw

end


section
/-!
PROOFS. Contributions to reduction groups (spec/14 R227 to R229).
-/

namespace Sys2Proof.Machine

/-! ### What the steps of a round change -/

/-- Two machines that differ at most in the rounds, the counts of ranks and the exclusions of rounds to come. -/
def OnlyRounds (m m' : Mach) : Prop := ∃ rounds counts exclNext, m' = { m with rounds, counts, exclNext }

theorem OnlyRounds.refl (m : Mach) : OnlyRounds m m := ⟨_, _, _, rfl⟩

theorem OnlyRounds.trans {m m1 m2 : Mach} (h : OnlyRounds m m1) (h' : OnlyRounds m1 m2) : OnlyRounds m m2 := by
  obtain ⟨_, _, _, rfl⟩ := h
  obtain ⟨_, _, _, rfl⟩ := h'
  exact ⟨_, _, _, rfl⟩

theorem OnlyRounds.keeps {α : Type} {m m' : Mach} (h : OnlyRounds m m') (f : Mach → α)
    (hf : ∀ (m : Mach) rounds counts exclNext, f { m with rounds, counts, exclNext } = f m) : f m' = f m := by
  obtain ⟨_, _, _, rfl⟩ := h
  exact hf ..

section
variable (m : Mach) (out : List Msg) (rounds : SMap Round) (counts : SMap Nat) (exclNext : SMap Word)

theorem walkPage_of_rounds (part x : Nat) :
    walkPage { m with out, rounds, counts, exclNext } part x = walkPage m part x := rfl

theorem walkWindow_of_rounds (part i : Nat) :
    walkWindow { m with out, rounds, counts, exclNext } part i = walkWindow m part i := rfl

theorem poolAccess_of_rounds (core x : Nat) (acc : Acc) :
    poolAccess { m with out, rounds, counts, exclNext } core x acc = poolAccess m core x acc := rfl

theorem winDecide_of_rounds (t : Tr) (f n : Nat) (acc : Acc) :
    winDecide { m with out, rounds, counts, exclNext } t f n acc = winDecide m t f n acc := rfl

theorem keyForeign_of_rounds (raw owner : Nat) :
    keyForeign { m with out, rounds, counts, exclNext } raw owner = keyForeign m raw owner := rfl

theorem targetOf_of_rounds (pa : Nat) : targetOf { m with out, rounds, counts, exclNext } pa = targetOf m pa := rfl

theorem pageDecide_of_rounds (t : Tr) (x owner : Nat) (acc : Acc) :
    pageDecide { m with out, rounds, counts, exclNext } t x owner acc = pageDecide m t x owner acc := by
  unfold pageDecide
  dsimp only
  rw [keyForeign_of_rounds, targetOf_of_rounds]

theorem invalNames_of_rounds (part x level : Nat) :
    invalNames { m with out, rounds, counts, exclNext } part x level = invalNames m part x level := rfl

theorem xlateNow_of_rounds (w : Who) (va : Word) (n : Nat) (acc : Acc) :
    xlateNow { m with out, rounds, counts, exclNext } w va n acc = xlateNow m w va n acc := by
  unfold xlateNow
  dsimp only
  by_cases hpool : va.toNat / 2 ^ 60 = 15
  · rw [if_pos hpool, if_pos hpool]
    exact poolAccess_of_rounds ..
  rw [if_neg hpool, if_neg hpool]
  by_cases hwin : va.toNat / 2 ^ 60 = 14
  · rw [if_pos hwin, if_pos hwin, walkWindow_of_rounds]
    exact winDecide_of_rounds ..
  rw [if_neg hwin, if_neg hwin, walkPage_of_rounds, pageDecide_of_rounds]
  cases pageDecide m (walkPage m w.part va.toNat) va.toNat w.owner acc with
  | fault c f => rfl
  | _ =>
    dsimp only
    rw [invalNames_of_rounds]

theorem readAs_of_rounds (ag key : Option Nat) (pa n ix : Nat) :
    readAs { m with out, rounds, counts, exclNext } ag key pa n ix = readAs m ag key pa n ix := rfl

theorem vaRead_of_rounds (ag : Option Nat) (w : Who) (fuel : Nat) :
    ∀ (va : Word) (n : Nat), vaRead { m with out, rounds, counts, exclNext } ag w va fuel n = vaRead m ag w va fuel n := by
  induction fuel with
  | zero => exact fun va n => rfl
  | succ fuel ih =>
    intro va n
    simp only [vaRead, ih, xlateNow_of_rounds, readAs_of_rounds]
    rfl

end

theorem groupRanks_of_rounds (m : Mach) (out rounds counts exclNext) (part : Nat) (e : BitVec 512) :
    groupRanks { m with out, rounds, counts, exclNext } part e = groupRanks m part e := by
  simp only [groupRanks, readVa, vaRead_of_rounds]
  rfl

theorem OnlyRounds.groupRanks {m m' : Mach} (h : OnlyRounds m m') (part : Nat) (e : BitVec 512) :
    groupRanks m' part e = Machine.groupRanks m part e :=
  h.keeps (Machine.groupRanks · part e) fun m r c x => groupRanks_of_rounds m m.out r c x part e

theorem onlyRounds_setRound (m : Mach) (k : Nat) (x : Round) : OnlyRounds m (setRound m k x) := ⟨_, _, _, rfl⟩

theorem onlyRounds_bumpRank (m : Mach) (k rank : Nat) : OnlyRounds m (bumpRank m k rank) := ⟨_, _, _, rfl⟩

theorem onlyRounds_freshCounts (m : Mach) (k : Nat) : OnlyRounds m (freshCounts m k) := by
  unfold freshCounts
  dsimp only
  split
  · exact .refl m
  · exact ⟨_, _, _, rfl⟩

theorem getRound_setRound (m : Mach) (k : Nat) (x : Round) : getRound (setRound m k x) k = x := smGet_put_same ..

theorem rankCount_bumpRank (m : Mach) (k rank : Nat) : rankCount (bumpRank m k rank) k rank = rankCount m k rank + 1 :=
  smGet_put_same 0 m.counts (64 * k + rank) (rankCount m k rank + 1)

theorem rankCount_bumpRank_ne (m : Mach) (k : Nat) {i rank : Nat} (h : i ≠ rank) :
    rankCount (bumpRank m k rank) k i = rankCount m k i := by
  have key : 64 * k + i ≠ 64 * k + rank := by omega
  exact smGet_put_ne 0 m.counts key (rankCount m k rank + 1)

/-- An open round keeps the counts. -/
theorem freshCounts_open {m : Mach} {k : Nat} (h : (getRound m k).isOpen = true) : freshCounts m k = m := by
  unfold freshCounts
  exact if_pos (.inl h)

/-- Fresh counts open no round. -/
theorem isOpen_freshCounts (m : Mach) (k : Nat) : (getRound (freshCounts m k) k).isOpen = (getRound m k).isOpen := by
  by_cases h : (getRound m k).isOpen = true
  · rw [freshCounts_open h]
  · unfold freshCounts
    dsimp only
    split
    · rfl
    · rw [getRound_setRound]
      exact (Bool.eq_false_iff.2 h).symm

/-! ### Refusals of contributions -/

/-- The refusals that a contribution, or every contribution of a term, is sent. -/
def answersOf (x : Contribution) (c : Nat) : List Msg :=
  if x.mask = 0 then [.ack x.src x.srcCore x.id c 0] else x.parts.map (fun p => .ack p.1 p.2.1 p.2.2 c 0)

theorem foldl_sendMsg {α : Type} (f : α → Msg) (l : List α) (m : Mach) :
    l.foldl (fun m p => sendMsg m (f p)) m = { m with out := m.out ++ l.map f } := by
  induction l generalizing m with
  | nil => simp
  | cons a l ih =>
    rw [List.foldl_cons, ih, List.map_cons]
    simp [sendMsg]

/-- The machine with a contribution refused. -/
def nackAll (m : Mach) (x : Contribution) (c : Nat) : Mach :=
  if x.mask = 0 then sendMsg m (.ack x.src x.srcCore x.id c 0)
  else x.parts.foldl (fun m p => sendMsg m (.ack p.1 p.2.1 p.2.2 c 0)) m

theorem nackAll_eq (m : Mach) (x : Contribution) (c : Nat) : nackAll m x c = { m with out := m.out ++ answersOf x c } := by
  unfold nackAll answersOf
  split
  · rfl
  · exact foldl_sendMsg (fun p : Nat × Nat × Nat => Msg.ack p.1 p.2.1 p.2.2 c 0) x.parts m

/-! ### The steps of a contribution -/

/-- The number of a contribution of a rank, or the round of a term. -/
def contribNumber (m : Mach) (k rank : Nat) (x : Contribution) : Nat :=
  if x.mask = 0 then rankCount m k rank + 1 else x.id

/-- The counts of the ranks of a term, set to its round. -/
def termCounts (c : SMap Nat) (k n : Nat) (mask : BitVec 64) : SMap Nat :=
  ((List.range 64).filter (fun i => mask.getLsbD i)).foldl (fun c i => smPut 0 c (64 * k + i) n) c

/-- The machine with a contribution, or those combined into a term, counted. -/
def contribCounted (m : Mach) (k rank : Nat) (x : Contribution) : Mach :=
  if x.mask = 0 then bumpRank m k rank else { m with counts := termCounts m.counts k (contribNumber m k rank x) x.mask }

/-- The round that a contribution joins: the one that is open, or one that opens with it. -/
def roundFor (m : Mach) (k : Nat) (e : BitVec 512) (x : Contribution) (cur : Nat) : Mach × Round :=
  if (getRound m k).isOpen then (m, getRound m k) else openRound m k e x cur

/-- The machine with a contribution in its round. -/
def contribJoined (p : Mach × Round) (k rank cur : Nat) (x : Contribution) : Mach :=
  { setRound p.1 k { p.2 with got := smPut none p.2.got rank (some x), order := p.2.order ++ [rank] } with
    exclNext := smDel p.1.exclNext (2 ^ 32 * k + cur) }

/-- What a contribution of a rank of the group does, its round found: `m0` is the machine with fresh counts. -/
def contribRanked (m m0 : Mach) (k rank : Nat) (e : BitVec 512) (x : Contribution) : Mach :=
  if roundNumber m0 k < contribNumber m0 k rank x then m
  else if contribNumber m0 k rank x < roundNumber m0 k then nackAll (contribCounted m0 k rank x) x 0x30
  else if x.nblk ≠ entNBLK e ∨ x.cmp ≠ (roundFor (contribCounted m0 k rank x) k e x (roundNumber m0 k)).2.cmp then
    nackAll (contribCounted m0 k rank x) x 0x30
  else if x.fmt ≠ (roundFor (contribCounted m0 k rank x) k e x (roundNumber m0 k)).2.fmt ∨ x.fmt = 0xFF then
    nackAll (contribCounted m0 k rank x) x 0x18
  else contribJoined (roundFor (contribCounted m0 k rank x) k e x (roundNumber m0 k)) k rank (roundNumber m0 k) x

section
variable {s : State} {x : Contribution} (hrun : s.m.phase = .running)
include hrun

theorem exec_groupContribution_waits (hl : mayLand s.m (.contrib s.m.number x) x.src = false) :
    exec (.groupContribution x) s = .next s := by
  rw [exec_groupContribution, execGroupContribution, whenRunning_run hrun]
  refine next_congr (m' := s.m) ?_
  dsimp only
  rw [hl]
  rfl

variable (hl : mayLand s.m (.contrib s.m.number x) x.src = true)
include hl

theorem exec_groupContribution_unplaced {c : Nat} (hp : contribPlace s.m x = .error c) :
    exec (.groupContribution x) s = .next ⟨nackAll (dropMsg s.m (.contrib s.m.number x)) x c, s.trust⟩ := by
  rw [exec_groupContribution, execGroupContribution, whenRunning_run hrun]
  refine next_congr ?_
  dsimp only
  rw [hl, hp]
  rfl

variable {k : Nat} {e : BitVec 512} (hp : contribPlace s.m x = .ok (k, e))
include hp

theorem exec_groupContribution_malformed (he : entRefused s.m x.part e = true) :
    exec (.groupContribution x) s = .next ⟨nackAll (dropMsg s.m (.contrib s.m.number x)) x 0x1A, s.trust⟩ := by
  rw [exec_groupContribution, execGroupContribution, whenRunning_run hrun]
  refine next_congr ?_
  dsimp only
  rw [hl, hp]
  exact if_pos he

variable (he : entRefused s.m x.part e = false)
include he

theorem exec_groupContribution_foreign (hr : rankOf (groupRanks s.m x.part e) x = none) :
    exec (.groupContribution x) s = .next ⟨nackAll (dropMsg s.m (.contrib s.m.number x)) x 0x30, s.trust⟩ := by
  rw [exec_groupContribution, execGroupContribution, whenRunning_run hrun]
  refine next_congr ?_
  dsimp only
  rw [hl, hp]
  refine (if_neg (Bool.eq_false_iff.1 he)).trans ?_
  rw [hr]
  rfl

theorem exec_groupContribution_ranked {rank : Nat} (hr : rankOf (groupRanks s.m x.part e) x = some rank) :
    exec (.groupContribution x) s = .next ⟨contribRanked s.m (freshCounts (dropMsg s.m (.contrib s.m.number x)) k)
      k rank e x, s.trust⟩ := by
  rw [exec_groupContribution, execGroupContribution, whenRunning_run hrun]
  refine next_congr ?_
  dsimp only
  rw [hl, hp]
  refine (if_neg (Bool.eq_false_iff.1 he)).trans ?_
  rw [hr]
  rfl

end

/-! ### The round that a contribution joins -/

theorem onlyRounds_contribCounted (m : Mach) (k rank : Nat) (x : Contribution) :
    OnlyRounds m (contribCounted m k rank x) := by
  unfold contribCounted
  split
  · exact onlyRounds_bumpRank ..
  · exact ⟨_, _, _, rfl⟩

/-- Counting leaves the rounds and their exclusions. -/
theorem contribCounted_keeps (m : Mach) (k rank : Nat) (x : Contribution) :
    (∀ j, getRound (contribCounted m k rank x) j = getRound m j) ∧ (contribCounted m k rank x).exclNext = m.exclNext := by
  unfold contribCounted
  split
  · exact ⟨fun _ => rfl, rfl⟩
  · exact ⟨fun _ => rfl, rfl⟩

theorem rankCount_contribCounted {m : Mach} {k rank : Nat} {x : Contribution} (h : x.mask = 0) :
    rankCount (contribCounted m k rank x) k rank = contribNumber m k rank x := by
  rw [contribCounted, if_pos h, rankCount_bumpRank, contribNumber, if_pos h]

/-- The ranks of packages that are down, which a round that opens records missing. -/
def downRanks (m : Mach) (k : Nat) (e : BitVec 512) (part cur : Nat) : List Nat :=
  (siteRanks k e).filter (fun i => m.downPkgs.contains ((groupRanks m part e).getD i (m.number, 0)).1 &&
    decide (rankCount m k i < cur))

/-- The round that opens with a contribution. -/
def openedRound (m : Mach) (k : Nat) (e : BitVec 512) (x : Contribution) (cur : Nat) : Round :=
  { isOpen := true, round := cur, entry := e, entPos := (getRound m k).entPos, began := m.nowt, cmp := x.cmp, fmt := x.fmt,
    excl := (downRanks m k e x.part cur).foldl (fun a i => a ||| BitVec.ofNat 64 (2 ^ i))
      (smGet 0 m.exclNext (2 ^ 32 * k + cur)) }

theorem openRound_eq (m : Mach) (k : Nat) (e : BitVec 512) (x : Contribution) (cur : Nat) : openRound m k e x cur =
    ({ m with counts := (downRanks m k e x.part cur).foldl (fun c i => smPut 0 c (64 * k + i) cur) m.counts },
      openedRound m k e x cur) := rfl

theorem onlyRounds_roundFor (m : Mach) (k : Nat) (e : BitVec 512) (x : Contribution) (cur : Nat) :
    OnlyRounds m (roundFor m k e x cur).1 := by
  unfold roundFor
  split
  · exact .refl m
  · exact ⟨_, _, _, rfl⟩

theorem onlyRounds_contribJoined (p : Mach × Round) (k rank cur : Nat) (x : Contribution) :
    OnlyRounds p.1 (contribJoined p k rank cur x) := ⟨_, _, _, rfl⟩

theorem rankCount_contribJoined (p : Mach × Round) (k rank cur : Nat) (x : Contribution) (j i : Nat) :
    rankCount (contribJoined p k rank cur x) j i = rankCount p.1 j i := rfl

theorem getRound_contribJoined (p : Mach × Round) (k rank cur : Nat) (x : Contribution) :
    getRound (contribJoined p k rank cur x) k =
      { p.2 with got := smPut none p.2.got rank (some x), order := p.2.order ++ [rank] } := smGet_put_same ..

/-- A fold that sets a count to one value leaves it at that value. -/
theorem foldl_counts {k rank cur : Nat} (l : List Nat) {c : SMap Nat} (h : smGet 0 c (64 * k + rank) = cur) :
    smGet 0 (l.foldl (fun c i => smPut 0 c (64 * k + i) cur) c) (64 * k + rank) = cur := by
  induction l generalizing c with
  | nil => exact h
  | cons i l ih =>
    refine ih ?_
    by_cases hi : rank = i
    · rw [hi, smGet_put_same]
    · rw [smGet_put_ne _ _ (by omega), h]

theorem rankCount_roundFor {m : Mach} {k rank cur : Nat} {e : BitVec 512} {x : Contribution}
    (h : rankCount m k rank = cur) : rankCount (roundFor m k e x cur).1 k rank = cur := by
  unfold roundFor
  split
  · exact h
  · exact foldl_counts _ h

/-- The bits of a fold of exclusions. -/
theorem getLsbD_foldl_or (l : List Nat) (a : BitVec 64) {i : Nat} (hi : i < 64) :
    (l.foldl (fun a i => a ||| BitVec.ofNat 64 (2 ^ i)) a).getLsbD i = true ↔ a.getLsbD i = true ∨ i ∈ l := by
  induction l generalizing a with
  | nil => simp
  | cons j l ih =>
    have bit : (BitVec.ofNat 64 (2 ^ j)).getLsbD i = true ↔ i = j := by
      rw [BitVec.getLsbD_ofNat, Nat.testBit_two_pow, decide_eq_true hi, Bool.true_and, decide_eq_true_eq]
      exact eq_comm
    rw [List.foldl_cons, ih, BitVec.getLsbD_or, Bool.or_eq_true, bit, List.mem_cons, or_assoc]

/-! ### What a contribution leaves -/

/-- A refused contribution: its answers, and its count. -/
theorem nackAll_facts {m m0 : Mach} {k rank : Nat} {x : Contribution} (c : Nat) (h : OnlyRounds m m0) :
    let m' := nackAll (contribCounted m0 k rank x) x c
    m'.out = m.out ++ answersOf x c ∧ m'.mem = m.mem ∧ (x.mask = 0 → rankCount m' k rank = contribNumber m0 k rank x) ∧
      getRound m' k = getRound m0 k := by
  have only := h.trans (onlyRounds_contribCounted m0 k rank x)
  have count : x.mask = 0 → rankCount (contribCounted m0 k rank x) k rank = contribNumber m0 k rank x :=
    rankCount_contribCounted
  have rounds := (contribCounted_keeps m0 k rank x).1 k
  have hout := only.keeps (·.out) fun _ _ _ _ => rfl
  have hmem := only.keeps (·.mem) fun _ _ _ _ => rfl
  rw [nackAll_eq]
  generalize contribCounted m0 k rank x = m1 at count rounds hout hmem
  exact ⟨congrArg (· ++ answersOf x c) hout, hmem, count, rounds⟩

/-- An accepted contribution: the machine otherwise as it was, and its count. -/
theorem contribJoined_facts {m m0 : Mach} {k rank : Nat} {e : BitVec 512} {x : Contribution} (h : OnlyRounds m m0)
    (hn : contribNumber m0 k rank x = roundNumber m0 k) :
    let m' := contribJoined (roundFor (contribCounted m0 k rank x) k e x (roundNumber m0 k)) k rank (roundNumber m0 k) x
    m'.mem = m.mem ∧ m'.out = m.out ∧ (x.mask = 0 → rankCount m' k rank = roundNumber m0 k) := by
  have only := ((h.trans (onlyRounds_contribCounted m0 k rank x)).trans
    (onlyRounds_roundFor _ k e x (roundNumber m0 k))).trans (onlyRounds_contribJoined _ k rank (roundNumber m0 k) x)
  refine ⟨only.keeps (·.mem) fun _ _ _ _ => rfl, only.keeps (·.out) fun _ _ _ _ => rfl, fun hm => ?_⟩
  have count := (rankCount_contribCounted hm).trans hn
  exact (rankCount_contribJoined ..).trans (rankCount_roundFor count)

/-- The round of a contribution that joins an open one. -/
theorem roundFor_open {m m0 : Mach} {k rank cur : Nat} {e : BitVec 512} {x : Contribution}
    (h : (getRound m k).isOpen = true) (h0 : m0 = freshCounts m k) :
    (roundFor (contribCounted m0 k rank x) k e x cur).2 = getRound m k := by
  have same : getRound (contribCounted m0 k rank x) k = getRound m k := by
    rw [(contribCounted_keeps m0 k rank x).1 k, h0, freshCounts_open h]
  unfold roundFor
  rw [same, if_pos h]

/-- The round of a contribution that opens one. -/
theorem roundFor_closed {m m0 : Mach} {k rank cur : Nat} {e : BitVec 512} {x : Contribution}
    (h : (getRound m k).isOpen = false) (h0 : m0 = freshCounts m k) :
    (roundFor (contribCounted m0 k rank x) k e x cur).2 = openedRound (contribCounted m0 k rank x) k e x cur := by
  have closed : (getRound (contribCounted m0 k rank x) k).isOpen = false := by
    rw [(contribCounted_keeps m0 k rank x).1 k, h0, isOpen_freshCounts, h]
  unfold roundFor
  rw [if_neg (Bool.eq_false_iff.1 closed), openRound_eq]

/-- The ranks that a round which opens records missing: those excluded from it before, and those of packages that are down
which had not come as far. -/
theorem excl_openedRound {m m0 : Mach} {k rank cur : Nat} {e : BitVec 512} {x : Contribution} (h : OnlyRounds m m0)
    {i : Nat} (hi : i < 64) :
    let was := (smGet 0 m0.exclNext (2 ^ 32 * k + cur)).getLsbD i
    let down : Prop := i ∈ siteRanks k e ∧ m.downPkgs.contains ((groupRanks m x.part e).getD i (m.number, 0)).1 = true
    let r := openedRound (contribCounted m0 k rank x) k e x cur
    (was = true → r.excl.getLsbD i = true) ∧ (r.excl.getLsbD i = true → was = true ∨ down) ∧
      (down → x.mask = 0 → i ≠ rank → rankCount m0 k i < cur → r.excl.getLsbD i = true) := by
  intro was down r
  have only := h.trans (onlyRounds_contribCounted m0 k rank x)
  have hdown := only.keeps (·.downPkgs) fun _ _ _ _ => rfl
  have hnumber := only.keeps (·.number) fun _ _ _ _ => rfl
  have hranks := only.groupRanks x.part e
  have bits : r.excl.getLsbD i = true ↔ was = true ∨ i ∈ downRanks (contribCounted m0 k rank x) k e x.part cur := by
    refine (getLsbD_foldl_or _ _ hi).trans ?_
    rw [(contribCounted_keeps m0 k rank x).2]
  have listed : i ∈ downRanks (contribCounted m0 k rank x) k e x.part cur ↔
      down ∧ rankCount (contribCounted m0 k rank x) k i < cur := by
    rw [downRanks, List.mem_filter, Bool.and_eq_true, decide_eq_true_eq, hdown, hnumber, hranks, ← and_assoc]
  refine ⟨fun hw => bits.2 (.inl hw), fun hb => (bits.1 hb).imp_right fun hd => (listed.1 hd).1, fun hd hm hne hc =>
    bits.2 (.inr (listed.2 ⟨hd, ?_⟩))⟩
  rwa [contribCounted, if_pos hm, rankCount_bumpRank_ne m0 k hne]

end Sys2Proof.Machine
end


section
/-!
PROOFS. The close of a round, exclusions, and results of reduction groups (spec/14 R229 to R231).
-/

namespace Sys2Proof.Machine

/-! ### The close of a round -/

theorem exec_roundClose_full {s : State} {k : Nat} (hrun : s.m.phase = .running)
    (h : roundFull k (getRound s.m k) = true) : exec (.roundClose k) s = .next { s with m := closeRound s.m k } := by
  rw [exec_roundClose, execRoundClose, whenRunning_run hrun]
  exact next_congr (if_pos h)

theorem exec_roundClose_waits {s : State} {k : Nat} (hrun : s.m.phase = .running)
    (h : ¬roundFull k (getRound s.m k) = true) : exec (.roundClose k) s = .next s := by
  rw [exec_roundClose, execRoundClose, whenRunning_run hrun]
  exact next_congr (m' := s.m) (if_neg h)

theorem exec_roundTimeout_closes {s : State} {k : Nat} (hrun : s.m.phase = .running) (ho : (getRound s.m k).isOpen = true)
    (ht : (getRound s.m k).began + entTMO (getRound s.m k).entry ≤ s.m.nowt) :
    exec (.roundTimeout k) s = .next { s with m := closeRound s.m k } := by
  rw [exec_roundTimeout, execRoundTimeout, whenRunning_run hrun]
  exact next_congr (if_pos ⟨ho, ht⟩)

theorem exec_roundTimeout_waits {s : State} {k : Nat} (hrun : s.m.phase = .running)
    (h : (getRound s.m k).isOpen = false ∨ s.m.nowt < (getRound s.m k).began + entTMO (getRound s.m k).entry) :
    exec (.roundTimeout k) s = .next s := by
  rw [exec_roundTimeout, execRoundTimeout, whenRunning_run hrun]
  refine next_congr (m' := s.m) (if_neg ?_)
  rintro ⟨ho, ht⟩
  rcases h with h | h
  · rw [h] at ho
    exact Bool.false_ne_true ho
  · omega

theorem roundFull_iff (k : Nat) (r : Round) : roundFull k r = true ↔
    r.isOpen = true ∧ ∀ i ∈ siteRanks k r.entry, (roundMask r).getLsbD i = true ∨ r.excl.getLsbD i = true := by
  simp only [roundFull, Bool.and_eq_true, List.all_eq_true, Bool.or_eq_true]

/-- What is left of a round once it has closed. -/
def roundOver (r : Round) : Round := { round := r.round, entPos := r.entPos }

/-- The term that a combine unit below the root sends on. -/
def termOf (m : Mach) (k : Nat) (r : Round) : Contribution :=
  { part := k % 65536 / 1024, group := k % 1024, src := m.number, srcCore := k / 65536, id := r.round, fmt := r.fmt,
    nblk := entNBLK r.entry, cmp := r.cmp, vals := roundVals k r, mask := roundMask r,
    parts := (r.got.filterMap (·.2)).flatMap (fun y => if y.mask = 0 then [(y.src, y.srcCore, y.id)] else y.parts) }

/-- The package of the site above. -/
def pkgAbove (m : Mach) (k : Nat) (r : Round) : Nat :=
  ((groupRanks m (k % 65536 / 1024) r.entry)[siteAbove r.entry (k / 65536) true]?.map (·.1)).getD m.number

theorem closeRound_below (m : Mach) {k : Nat} (h : 65536 ≤ k) : closeRound m k =
    sendMsg (setRound m k (roundOver (getRound m k)))
      (.contrib (pkgAbove m k (getRound m k)) (termOf m k (getRound m k))) := by
  have site : k / 65536 ≠ 0 := by omega
  have ranks (part : Nat) (e : BitVec 512) : groupRanks (setRound m k (roundOver (getRound m k))) part e =
      groupRanks m part e := (onlyRounds_setRound ..).groupRanks part e
  unfold closeRound
  rw [if_pos site]
  unfold forwardTerm pkgAbove
  dsimp only
  rw [show ({ round := (getRound m k).round, entPos := (getRound m k).entPos } : Round) = roundOver (getRound m k) from rfl,
    ranks]
  rfl

/-- The ranks of a round whose contributions it has. -/
def ranksIn (r : Round) : List Nat := (List.range (entNC r.entry)).filter (fun i => (roundMask r).getLsbD i)

/-- Package and core of each contributor. -/
def contributors (m : Mach) (k : Nat) (r : Round) : List (Nat × Nat) :=
  (ranksIn r).map (fun i => (groupRanks m (k % 65536 / 1024) r.entry).getD i (0, 0))

/-- The status of a round: OK with every rank, else PARTIAL. -/
def roundStatus (r : Round) : Nat := if (ranksIn r).length = entNC r.entry then 0 else 7

/-- The result of a round. -/
def resultOf (m : Mach) (k : Nat) (r : Round) : RoundResult :=
  { root := m.number, round := r.round, status := roundStatus r, mask := roundMask r, raddr := entRADDR r.entry,
    rrec := entRREC r.entry, hnd := entHND r.entry, hidx := entHIDX r.entry, blocks := resultBlocks r.entry (roundVals k r) }

/-- What the root keeps of a round. -/
def roundKept (r : Round) : Closed :=
  { round := r.round, status := roundStatus r, mask := roundMask r, order := if entORD r.entry then [] else r.order }

/-- The cores of a package among contributors. -/
def coresOn (cs : List (Nat × Nat)) (p : Nat) : List Nat := (cs.filter (fun y => y.1 == p)).map (·.2)

/-- The root with its record kept. -/
def rootKept (m : Mach) (k : Nat) (r : Round) : Mach :=
  { setRound m k (roundOver r) with closedRounds := smPut {} m.closedRounds k (roundKept r) }

theorem closeRound_root (m : Mach) {k : Nat} (h : k < 65536) : closeRound m k =
    { rootKept m k (getRound m k) with out := m.out ++
        (((contributors m k (getRound m k)).map (·.1)).eraseDups).map (fun p =>
          Msg.result p ((coresOn (contributors m k (getRound m k)) p).headD 0) k
            { resultOf m k (getRound m k) with cores := coresOn (contributors m k (getRound m k)) p }) } := by
  have site : ¬k / 65536 ≠ 0 := by omega
  have part : k / 1024 = k % 65536 / 1024 := by omega
  unfold closeRound
  rw [if_neg site]
  dsimp only
  rw [part]
  exact foldl_sendMsg (fun p => Msg.result p ((coresOn (contributors m k (getRound m k)) p).headD 0) k
    { resultOf m k (getRound m k) with cores := coresOn (contributors m k (getRound m k)) p }) _
    (rootKept m k (getRound m k))

/-! ### Exclusions -/

section
variable {s : State} {k rank : Nat} (hrun : s.m.phase = .running)
include hrun

theorem exec_rankExclusion_error {c : Nat} (h : roundEntry s.m k = .error c) :
    exec (.rankExclusion k rank) s = .next s := by
  rw [exec_rankExclusion, execRankExclusion, whenRunning_run hrun]
  refine next_congr (m' := s.m) ?_
  rw [h]

variable {e : BitVec 512} (h : roundEntry s.m k = .ok e)
include h

theorem exec_rankExclusion_none (hr : (groupRanks s.m (k % 65536 / 1024) e)[rank]? = none) :
    exec (.rankExclusion k rank) s = .next s := by
  rw [exec_rankExclusion, execRankExclusion, whenRunning_run hrun]
  refine next_congr (m' := s.m) ?_
  rw [h]
  dsimp only
  rw [hr]

theorem exec_rankExclusion_some {p c : Nat} (hr : (groupRanks s.m (k % 65536 / 1024) e)[rank]? = some (p, c)) :
    exec (.rankExclusion k rank) s = .next
      ⟨if p = s.m.number ∨ s.m.downPkgs.contains p = true then s.m else excludeRank s.m k rank false, s.trust⟩ := by
  rw [exec_rankExclusion, execRankExclusion, whenRunning_run hrun]
  refine next_congr ?_
  rw [h]
  dsimp only
  rw [hr]

end

/-- Does the exclusion of a rank of a package that is down count in the round that is open, though the rank had not come
as far? -/
def isLate (m : Mach) (k rank : Nat) (down : Bool) : Bool :=
  down && (getRound m k).isOpen && decide (rankCount m k rank + 1 < (getRound m k).round)

/-- The machine with the exclusion counted as the rank's contribution. -/
def exclCounted (m : Mach) (k rank : Nat) (down : Bool) : Mach :=
  if isLate m k rank down then { m with counts := smPut 0 m.counts (64 * k + rank) (getRound m k).round }
  else bumpRank m k rank

/-- The exclusions of a round to come, with a rank more. -/
def exclWith (m : Mach) (k n rank : Nat) : Word := smGet 0 m.exclNext (2 ^ 32 * k + n) ||| BitVec.ofNat 64 (2 ^ rank)

/-- The exclusion of a rank of the site, from fresh counts. -/
def exclDone (m : Mach) (k rank : Nat) (e : BitVec 512) (down : Bool) : Mach :=
  let m1 := exclCounted m k rank down
  let r := getRound m k
  let n := rankCount m k rank + 1
  if r.isOpen ∧ (r.round = n ∨ isLate m k rank down = true) then
    setRound m1 k { r with excl := r.excl ||| BitVec.ofNat 64 (2 ^ rank) }
  else if !r.isOpen ∧ n = roundNumber m1 k ∧ (siteRanks k e).all (fun i => (exclWith m1 k n rank).getLsbD i) then
    setRound { m1 with exclNext := smDel m1.exclNext (2 ^ 32 * k + n) } k { r with round := n }
  else { m1 with exclNext := smPut 0 m1.exclNext (2 ^ 32 * k + n) (exclWith m1 k n rank) }

section
variable {m : Mach} {k rank : Nat} {e : BitVec 512} {down : Bool} (h : roundEntry m k = .ok e)
include h

theorem excludeRank_foreign (hr : rank ∉ siteRanks k e ∨ entBad e = true) : excludeRank m k rank down = m := by
  unfold excludeRank
  rw [h]
  refine if_pos ?_
  rcases hr with hr | hr
  · left
    simpa using hr
  · exact .inr hr

theorem excludeRank_of_site (hr : rank ∈ siteRanks k e) (he : entBad e = false) :
    excludeRank m k rank down = exclDone (freshCounts m k) k rank e down := by
  unfold excludeRank
  rw [h]
  refine (if_neg ?_).trans rfl
  rintro (g | g)
  · simp [hr] at g
  · rw [he] at g
    exact Bool.false_ne_true g

end

theorem onlyRounds_exclCounted (m : Mach) (k rank : Nat) (down : Bool) : OnlyRounds m (exclCounted m k rank down) := by
  unfold exclCounted
  split
  · exact ⟨_, _, _, rfl⟩
  · exact onlyRounds_bumpRank ..

theorem onlyRounds_exclDone (m : Mach) (k rank : Nat) (e : BitVec 512) (down : Bool) :
    OnlyRounds m (exclDone m k rank e down) := by
  have counted := onlyRounds_exclCounted m k rank down
  unfold exclDone
  dsimp only
  split
  · exact counted.trans (onlyRounds_setRound ..)
  · split
    · exact counted.trans (OnlyRounds.trans ⟨_, _, _, rfl⟩ (onlyRounds_setRound ..))
    · exact counted.trans ⟨_, _, _, rfl⟩

/-- The number that the exclusion takes. -/
def exclNumber (m : Mach) (k rank : Nat) (down : Bool) : Nat :=
  if down = true ∧ (getRound m k).isOpen = true then max (rankCount m k rank + 1) (getRound m k).round
  else rankCount m k rank + 1

theorem isLate_iff (m : Mach) (k rank : Nat) (down : Bool) : isLate m k rank down = true ↔
    (down = true ∧ (getRound m k).isOpen = true) ∧ rankCount m k rank + 1 < (getRound m k).round := by
  simp only [isLate, Bool.and_eq_true, decide_eq_true_eq]

theorem rankCount_exclCounted (m : Mach) (k rank : Nat) (down : Bool) :
    rankCount (exclCounted m k rank down) k rank = exclNumber m k rank down := by
  unfold exclCounted exclNumber
  by_cases hl : isLate m k rank down = true
  · obtain ⟨hd, hlt⟩ := (isLate_iff ..).1 hl
    rw [if_pos hl, if_pos hd, Nat.max_eq_right hlt.le]
    exact smGet_put_same 0 m.counts (64 * k + rank) (getRound m k).round
  · rw [if_neg hl, rankCount_bumpRank]
    split
    · next hd =>
      have : ¬rankCount m k rank + 1 < (getRound m k).round := fun hlt => hl ((isLate_iff ..).2 ⟨hd, hlt⟩)
      omega
    · rfl

theorem exclCounted_keeps (m : Mach) (k rank : Nat) (down : Bool) :
    (∀ j, getRound (exclCounted m k rank down) j = getRound m j) ∧ (exclCounted m k rank down).exclNext = m.exclNext := by
  unfold exclCounted
  split
  · exact ⟨fun _ => rfl, rfl⟩
  · exact ⟨fun _ => rfl, rfl⟩

theorem rankCount_exclDone (m : Mach) (k rank : Nat) (e : BitVec 512) (down : Bool) :
    rankCount (exclDone m k rank e down) k rank = exclNumber m k rank down := by
  rw [← rankCount_exclCounted]
  unfold exclDone
  dsimp only
  split
  · rfl
  · split
    · rfl
    · rfl

/-- An exclusion counts in the round that is open just where its number is that round's. -/
theorem counts_iff (m : Mach) (k rank : Nat) (down : Bool) :
    ((getRound m k).round = rankCount m k rank + 1 ∨ isLate m k rank down = true) ↔
      (getRound m k).round = exclNumber m k rank down := by
  rw [isLate_iff, exclNumber]
  split
  · next hd =>
    have hd' : down = true ∧ (getRound m k).isOpen = true := hd
    constructor
    · rintro (h | ⟨-, h⟩)
      · omega
      · omega
    · intro h
      by_cases hlt : rankCount m k rank + 1 < (getRound m k).round
      · exact .inr ⟨hd', hlt⟩
      · exact .inl (by omega)
  · next hd => exact ⟨fun h => h.resolve_right fun g => hd g.1, .inl⟩

theorem getRound_exclDone_in {m : Mach} {k rank : Nat} {e : BitVec 512} {down : Bool} (ho : (getRound m k).isOpen = true)
    (hn : (getRound m k).round = exclNumber m k rank down) : getRound (exclDone m k rank e down) k =
      { getRound m k with excl := (getRound m k).excl ||| BitVec.ofNat 64 (2 ^ rank) } := by
  have go : exclDone m k rank e down = setRound (exclCounted m k rank down) k
      { getRound m k with excl := (getRound m k).excl ||| BitVec.ofNat 64 (2 ^ rank) } :=
    if_pos ⟨ho, (counts_iff ..).2 hn⟩
  rw [go, getRound_setRound]

theorem exclDone_ahead {m : Mach} {k rank : Nat} {e : BitVec 512} {down : Bool} (ho : (getRound m k).isOpen = true)
    (hn : (getRound m k).round ≠ exclNumber m k rank down) :
    getRound (exclDone m k rank e down) k = getRound m k ∧
    smGet 0 (exclDone m k rank e down).exclNext (2 ^ 32 * k + exclNumber m k rank down) =
      smGet 0 m.exclNext (2 ^ 32 * k + exclNumber m k rank down) ||| BitVec.ofNat 64 (2 ^ rank) := by
  have other : ¬((getRound m k).round = rankCount m k rank + 1 ∨ isLate m k rank down = true) := fun g =>
    hn ((counts_iff ..).1 g)
  have number : exclNumber m k rank down = rankCount m k rank + 1 := by
    rw [← rankCount_exclCounted, exclCounted, if_neg fun g => other (.inr g), rankCount_bumpRank]
  have go : exclDone m k rank e down = { exclCounted m k rank down with
      exclNext := smPut 0 (exclCounted m k rank down).exclNext (2 ^ 32 * k + (rankCount m k rank + 1))
        (exclWith (exclCounted m k rank down) k (rankCount m k rank + 1) rank) } := by
    unfold exclDone
    dsimp only
    rw [if_neg fun g => other g.2, if_neg fun g => by simp [ho] at g]
  obtain ⟨rounds, exclNext⟩ := exclCounted_keeps m k rank down
  rw [go, number]
  refine ⟨rounds k, ?_⟩
  dsimp only
  rw [smGet_put_same, exclWith, exclNext]

theorem isOpen_exclDone {m : Mach} {k rank : Nat} {e : BitVec 512} {down : Bool} (ho : (getRound m k).isOpen = false) :
    (getRound (exclDone m k rank e down) k).isOpen = false := by
  have rounds := (exclCounted_keeps m k rank down).1 k
  unfold exclDone
  dsimp only
  rw [if_neg fun g => by simp [ho] at g]
  split
  · rw [getRound_setRound]
    exact ho
  · exact (congrArg Round.isOpen rounds).trans ho

end Sys2Proof.Machine
end


section
/-!
PROOFS. Results of reduction groups, and the commands that wait for them (spec/14 R230, R231).
-/

namespace Sys2Proof.Machine

/-! ### The steps of a contribution, case by case -/

section
variable {m m0 : Mach} {k rank : Nat} {e : BitVec 512} {x : Contribution}

/-- The round that a contribution joins: the one that is open, or the one that it opens. -/
def joinedRound (m0 : Mach) (k rank : Nat) (e : BitVec 512) (x : Contribution) : Round :=
  (roundFor (contribCounted m0 k rank x) k e x (roundNumber m0 k)).2

theorem contribRanked_early (h : roundNumber m0 k < contribNumber m0 k rank x) : contribRanked m m0 k rank e x = m :=
  if_pos h

theorem contribRanked_late (h : contribNumber m0 k rank x < roundNumber m0 k) :
    contribRanked m m0 k rank e x = nackAll (contribCounted m0 k rank x) x 0x30 := by
  unfold contribRanked
  rw [if_neg (by omega), if_pos h]

variable (h : contribNumber m0 k rank x = roundNumber m0 k)
include h

theorem contribRanked_unlike (hc : x.nblk ≠ entNBLK e ∨ x.cmp ≠ (joinedRound m0 k rank e x).cmp) :
    contribRanked m m0 k rank e x = nackAll (contribCounted m0 k rank x) x 0x30 := by
  unfold contribRanked
  rw [if_neg (by omega), if_neg (by omega)]
  exact if_pos hc

variable (hc : x.nblk = entNBLK e ∧ x.cmp = (joinedRound m0 k rank e x).cmp)
include hc

theorem contribRanked_format (hf : x.fmt ≠ (joinedRound m0 k rank e x).fmt ∨ x.fmt = 0xFF) :
    contribRanked m m0 k rank e x = nackAll (contribCounted m0 k rank x) x 0x18 := by
  unfold contribRanked
  rw [if_neg (by omega), if_neg (by omega)]
  exact (if_neg (not_or.2 ⟨not_not.2 hc.1, not_not.2 hc.2⟩)).trans (if_pos hf)

theorem contribRanked_joins (hf : x.fmt = (joinedRound m0 k rank e x).fmt ∧ x.fmt ≠ 0xFF) :
    contribRanked m m0 k rank e x =
      contribJoined (roundFor (contribCounted m0 k rank x) k e x (roundNumber m0 k)) k rank (roundNumber m0 k) x := by
  unfold contribRanked
  rw [if_neg (by omega), if_neg (by omega)]
  exact (if_neg (not_or.2 ⟨not_not.2 hc.1, not_not.2 hc.2⟩)).trans (if_neg (not_or.2 ⟨not_not.2 hf.1, hf.2⟩))

end

/-! ### Results -/

section
variable {s : State} {k core : Nat} {r : RoundResult} (hrun : s.m.phase = .running)
include hrun

theorem exec_resultWrite_waits (h : landingFor s.m (.result s.m.number core k r) = none)
    (hl : mayLand s.m (.result s.m.number core k r) r.root = false) : exec (.resultWrite k core r) s = .next s := by
  rw [exec_resultWrite, execResultWrite, whenRunning_run hrun]
  refine next_congr (m' := s.m) ?_
  dsimp only
  rw [h, hl]
  rfl

theorem exec_resultWrite_taken (h : landingFor s.m (.result s.m.number core k r) = none)
    (hl : mayLand s.m (.result s.m.number core k r) r.root = true) : exec (.resultWrite k core r) s = .next
      ⟨resultNext (startLanding s.m (.result s.m.number core k r) combineAgent).1
        (startLanding s.m (.result s.m.number core k r) combineAgent).2 k core r, s.trust⟩ := by
  rw [exec_resultWrite, execResultWrite, whenRunning_run hrun]
  refine next_congr ?_
  dsimp only
  rw [h, hl]
  rfl

theorem exec_resultWrite_next {l : Landing} (h : landingFor s.m (.result s.m.number core k r) = some l) :
    exec (.resultWrite k core r) s = .next ⟨resultNext s.m l k core r, s.trust⟩ := by
  rw [exec_resultWrite, execResultWrite, whenRunning_run hrun]
  refine next_congr ?_
  dsimp only
  rw [h]

end

/-- A result's landing with one more write counted. -/
def resultCounted (m : Mach) (l : Landing) (f : Landing → Landing) : Mach :=
  modLanding m l.id (fun l => f { l with blk := l.blk + 1 })

/-- A landing that a cause has reached. -/
def causedBy (c : Nat) (l : Landing) : Landing := { l with cause := if l.cause = 0 then c else l.cause }

/-- One write of a result: held by a frozen page, refused, or handed out. -/
def resultPut (m : Mach) (l : Landing) (core : Nat) (va : Word) (size data mark : Nat) : Mach :=
  match combinePlace m core va size size with
  | none => m
  | some (.error c) => resultCounted m l (causedBy c)
  | some (.ok pa) => landParts (resultCounted m l id) l .st (pa / 16 * 16) pa size data mark (clusterOf core) va

theorem resultPut_cases (m : Mach) (l : Landing) (core : Nat) (va : Word) (size data mark : Nat) :
    (combinePlace m core va size size = none → resultPut m l core va size data mark = m) ∧
    (∀ c, combinePlace m core va size size = some (.error c) → resultPut m l core va size data mark =
      resultCounted m l (causedBy c)) ∧
    (∀ pa, combinePlace m core va size size = some (.ok pa) → resultPut m l core va size data mark =
      landParts (resultCounted m l id) l .st (pa / 16 * 16) pa size data mark (clusterOf core) va) := by
  unfold resultPut
  exact ⟨fun h => by rw [h], fun c h => by rw [h], fun pa h => by rw [h]⟩

theorem pow_four : (256 : Nat) ^ 4 = 2 ^ 32 := by norm_num

theorem pow_eight : (256 : Nat) ^ 8 = 2 ^ 64 := by norm_num

theorem fields_three (a b c : Nat) : fields [(0, a), (4, b), (8, c)] = 0 + a * 256 ^ 0 + b * 256 ^ 4 + c * 256 ^ 8 := by
  unfold fields
  rw [List.foldl_cons, List.foldl_cons, List.foldl_cons, List.foldl_nil]

/-- The bytes of a round's record. -/
theorem fields_record (a b c : Nat) : fields [(0, a), (4, b), (8, c)] = a + b * 2 ^ 32 + c * 2 ^ 64 := by
  rw [fields_three, pow_four, pow_eight, pow_zero, Nat.mul_one, Nat.zero_add]

section
variable {m : Mach} {l : Landing} {k core : Nat} {r : RoundResult}

theorem resultNext_waits (h : l.left ≠ 0) : resultNext m l k core r = m := if_pos h

theorem resultNext_block (h : l.left = 0) (hb : l.blk < r.blocks.length) : resultNext m l k core r =
    resultPut m l core (r.raddr + BitVec.ofNat 64 (64 * l.blk)) 64 (r.blocks.getD l.blk 0).toNat 0 :=
  (if_neg (not_not.2 h)).trans (if_pos hb)

theorem resultNext_record (h : l.left = 0) (hb : l.blk = r.blocks.length) : resultNext m l k core r =
    resultPut m l core r.rrec 16 (r.round % 2 ^ 32 + r.status * 2 ^ 32 + r.mask.toNat * 2 ^ 64) 1 := by
  have past : ¬l.blk < r.blocks.length := by omega
  unfold resultNext
  dsimp only
  rw [if_neg (not_not.2 h), if_neg past, if_pos hb, fields_record]
  rfl

/-- The machine with a result's landing over, and its notice appended. -/
def resultNoticed (m : Mach) (l : Landing) (core : Nat) (r : RoundResult) : Mach :=
  if r.hnd = true ∧ l.cause = 0 then
    notifyHandler (endLanding m l) core (clusterOf core) r.hidx (r.root * 65536 + 0xFFFF) r.raddr
      (64 * r.blocks.length) l.grans
  else endLanding m l

theorem resultNext_ends (h : l.left = 0) (hb : r.blocks.length < l.blk) : resultNext m l k core r =
    (if r.cores.isEmpty then [core] else r.cores).foldl (fun m c => endContrib m k l.cause r.status c)
      (resultNoticed m l core r) := by
  unfold resultNext
  refine (if_neg (not_not.2 h)).trans ((if_neg (by omega)).trans ((if_neg (by omega)).trans ?_))
  unfold resultNoticed
  simp only [Bool.and_eq_true, beq_iff_eq]

end

/-! ### The end of a contribution -/

/-- A machine that has the commands of a core's collective engine, perhaps with requests answered. -/
structure SameCommands (core : Nat) (m m' : Mach) : Prop where
  mem : m'.mem = m.mem
  out : m'.out = m.out
  cmds : ∀ c ∈ collCmds m core, ∃ reqs, { c with reqs := reqs } ∈ collCmds m' core

theorem SameCommands.refl (core : Nat) (m : Mach) : SameCommands core m m := ⟨rfl, rfl, fun c hc => ⟨c.reqs, hc⟩⟩

theorem SameCommands.trans {core : Nat} {m m1 m2 : Mach} (h : SameCommands core m m1) (h' : SameCommands core m1 m2) :
    SameCommands core m m2 := by
  refine ⟨h'.mem.trans h.mem, h'.out.trans h.out, fun c hc => ?_⟩
  obtain ⟨reqs, h1⟩ := h.cmds c hc
  obtain ⟨reqs', h2⟩ := h'.cmds _ h1
  exact ⟨reqs', h2⟩

theorem sameCommands_wakeCore (m : Mach) (core : Nat) : SameCommands core m (wakeCore m core) := by
  refine ⟨modCore_mem .., modCore_out .., fun c hc => ⟨c.reqs, ?_⟩⟩
  have same : collCmds (wakeCore m core) core = collCmds m core :=
    wakeCore_keeps (fun k => smGet [] k.cmds 3) (fun _ _ => rfl) m core core
  rw [same]
  exact hc

/-- The machine with a request's slot free. -/
def slotFreed (m : Mach) (core id : Nat) : Mach :=
  match reqOwner m core id with
  | some (_, q) =>
    if q.slot then modCore m core (fun k => { k with rqUsed := smPut 0 k.rqUsed q.pkg (smGet 0 k.rqUsed q.pkg - 1) }) else m
  | none => m

/-- A command with a request answered. -/
def answeredIn (id cause wrote : Nat) (c : Cmd) : Cmd :=
  { c with reqs := c.reqs.map (fun q =>
      if q.r.id = id then { q with answered := true, cause := cause, wrote := wrote } else q) }

theorem answerReq_eq (m : Mach) (core num id cause wrote : Nat) : answerReq m core num id cause wrote =
    wakeCore (modCmd (slotFreed m core id) core 3 num (answeredIn id cause wrote)) core := rfl

theorem sameCommands_slotFreed (m : Mach) (core id : Nat) : SameCommands core m (slotFreed m core id) := by
  unfold slotFreed
  split
  · split
    · refine ⟨modCore_mem .., modCore_out .., fun c hc => ⟨c.reqs, ?_⟩⟩
      unfold collCmds
      rw [getCore_modCore]
      exact hc
    · exact .refl core m
  · exact .refl core m

theorem sameCommands_answerReq (m : Mach) (core num id cause wrote : Nat) :
    SameCommands core m (answerReq m core num id cause wrote) := by
  rw [answerReq_eq]
  refine (sameCommands_slotFreed m core id).trans (SameCommands.trans ?_ (sameCommands_wakeCore ..))
  refine ⟨modCmd_mem .., modCmd_out .., fun c hc => ?_⟩
  rw [collCmds_modCmd]
  by_cases hn : c.num = num
  · exact ⟨_, List.mem_map.2 ⟨c, hc, if_pos hn⟩⟩
  · exact ⟨c.reqs, List.mem_map.2 ⟨c, hc, if_neg hn⟩⟩

theorem sameCommands_answerAll (core num : Nat) (qs : List Req) (m : Mach) :
    SameCommands core m (qs.foldl (fun m q => answerReq m core num q.r.id 0 0) m) := by
  induction qs generalizing m with
  | nil => exact .refl core m
  | cons q qs ih => exact (sameCommands_answerReq ..).trans (ih _)

/-- A command whose round has closed. -/
def contribOver (bad status : Nat) (c : Cmd) : Cmd :=
  { c with
    closed := true
    doneBytes := 64 * c.total
    gstat := if bad ≠ 0 then 4 else if status = 7 then 7 else 0
    gcause := if bad ≠ 0 then bad else if status = 7 then 0x32 else 0 }

theorem endContrib_none {m : Mach} {k bad status core : Nat} (h : waitingGroup m core k = none) :
    endContrib m k bad status core = m := by
  rw [endContrib, h]

theorem endContrib_some {m : Mach} {k bad status core : Nat} {c : Cmd} (h : waitingGroup m core k = some c) :
    endContrib m k bad status core = modCmd (c.reqs.foldl (fun m q => answerReq m core c.num q.r.id 0 0) m) core 3 c.num
      (contribOver bad status) := by
  rw [endContrib, h]
  rfl

theorem endContrib_facts {m : Mach} {k bad status core : Nat} {c : Cmd} (h : waitingGroup m core k = some c) :
    let m' := endContrib m k bad status core
    m'.mem = m.mem ∧ m'.out = m.out ∧ ∃ reqs, contribOver bad status { c with reqs := reqs } ∈ collCmds m' core := by
  have same := sameCommands_answerAll core c.num c.reqs m
  obtain ⟨reqs, listed⟩ := same.cmds c (List.mem_of_find?_eq_some h)
  intro m'
  have e : m' = _ := endContrib_some h
  rw [e]
  refine ⟨(modCmd_mem ..).trans same.mem, (modCmd_out ..).trans same.out, reqs, ?_⟩
  rw [collCmds_modCmd]
  exact List.mem_map.2 ⟨_, listed, if_pos rfl⟩

end Sys2Proof.Machine

open Sys2Proof Sys2Proof.Machine

/-- Settles O53: a contribution by its number against the round of its site, the close of a round at the root and below it,
exclusions by the number that they take, a result write by write, and the end of a contributor's command. -/
theorem reductionRounds : Obligations.ReductionRounds := by
  unfold Obligations.ReductionRounds
  refine ⟨?contribution, ?close, ?closed, ?exclusion, ?excluded, ?result, ?writes, ?ends⟩
  case contribution =>
    intro s x hrun msg got answers nack
    have nacked {m : Mach} {c : Nat} (go : exec (.groupContribution x) s = .next ⟨nackAll m x c, s.trust⟩) :
        exec (.groupContribution x) s = .next { s with m := nack m c } := go.trans (next_congr (nackAll_eq m x c))
    refine ⟨exec_groupContribution_waits hrun, fun c hl hp => nacked (exec_groupContribution_unplaced hrun hl hp),
      fun k e hl hp => ⟨fun he => nacked (exec_groupContribution_malformed hrun hl hp he),
        fun he hr => nacked (exec_groupContribution_foreign hrun hl hp he hr), ?_⟩⟩
    intro rank he hr m0 n cur r refused
    have go := exec_groupContribution_ranked hrun hl hp he hr
    have fresh : OnlyRounds got m0 := onlyRounds_freshCounts got k
    have opened : (getRound m0 k).isOpen = r.isOpen := isOpen_freshCounts got k
    have refuses {c : Nat} (h : contribRanked s.m m0 k rank e x = nackAll (contribCounted m0 k rank x) x c) :
        refused c := by
      refine ⟨_, go.trans (next_congr h), ?_⟩
      obtain ⟨hout, hmem, hcount, hround⟩ := nackAll_facts (rank := rank) (k := k) (x := x) c fresh
      exact ⟨hout, hmem, hcount, hround⟩
    have ofOpen (ho : r.isOpen = true) : joinedRound m0 k rank e x = r := roundFor_open (m := got) ho rfl
    have ofClosed (ho : r.isOpen = false) : joinedRound m0 k rank e x =
        openedRound (contribCounted m0 k rank x) k e x cur := roundFor_closed (m := got) ho rfl
    have modeAs (ho : r.isOpen = false) :
        (joinedRound m0 k rank e x).cmp = x.cmp ∧ (joinedRound m0 k rank e x).fmt = x.fmt := by
      rw [ofClosed ho]
      exact ⟨rfl, rfl⟩
    have modes (h : r.isOpen = true → x.cmp = r.cmp) : x.cmp = (joinedRound m0 k rank e x).cmp := by
      by_cases ho : r.isOpen = true
      · rw [ofOpen ho, h ho]
      · rw [(modeAs (Bool.eq_false_iff.2 ho)).1]
    refine ⟨fun h => go.trans (next_congr (contribRanked_early h)), fun h => refuses (contribRanked_late h),
      fun h hbad => refuses (contribRanked_unlike h (hbad.imp_right fun g => ?_)),
      fun h hn hm hf => refuses (contribRanked_format h ⟨hn, modes hm⟩ ?_), fun h hn hff hm => ?_⟩
    · rw [ofOpen g.1]
      exact g.2
    · rcases hf with hf | ⟨ho, hf⟩
      · exact .inr hf
      · rw [ofOpen ho]
        exact .inl hf
    · have format : x.fmt = (joinedRound m0 k rank e x).fmt ∧ x.fmt ≠ 0xFF := by
        refine ⟨?_, hff⟩
        by_cases ho : r.isOpen = true
        · rw [ofOpen ho, (hm ho).2]
        · rw [(modeAs (Bool.eq_false_iff.2 ho)).2]
      have joins := contribRanked_joins (m := s.m) h ⟨hn, modes fun ho => (hm ho).1⟩ format
      obtain ⟨hmem, hout, hcount⟩ := contribJoined_facts (rank := rank) (k := k) (x := x) (e := e) fresh h
      refine ⟨_, go.trans (next_congr joins), hmem, hout, fun hz => (hcount hz).trans h.symm, ?_⟩
      have round := getRound_contribJoined (roundFor (contribCounted m0 k rank x) k e x (roundNumber m0 k)) k rank
        (roundNumber m0 k) x
      intro r'
      have joined : r' = { joinedRound m0 k rank e x with
        got := smPut none (joinedRound m0 k rank e x).got rank (some x),
        order := (joinedRound m0 k rank e x).order ++ [rank] } := round
      by_cases ho : r.isOpen = true
      · have number : r.round = n := by
          have same : m0 = got := freshCounts_open (m := got) ho
          have current : cur = r.round := by
            change roundNumber m0 k = r.round
            rw [same]
            exact if_pos ho
          omega
        rw [ofOpen ho] at joined
        rw [joined, if_pos ho]
        exact ⟨ho, number, smGet_put_same none r.got rank (some x), rfl,
          fun _ => ⟨rfl, rfl, rfl, fun i hi => smGet_put_ne none r.got hi (some x)⟩,
          fun hc => absurd ho (Bool.eq_false_iff.1 hc)⟩
      · have hc : r.isOpen = false := Bool.eq_false_iff.2 ho
        rw [ofClosed hc] at joined
        rw [joined, if_neg ho]
        refine ⟨rfl, h.symm, smGet_put_same none ([] : SMap (Option Contribution)) rank (some x), rfl,
          fun g => absurd g ho, fun _ => ⟨rfl, ?_, rfl, rfl, fun i hi => ?_,
          fun i hi => ?_⟩⟩
        · exact (fresh.trans (onlyRounds_contribCounted m0 k rank x)).keeps (·.nowt) fun _ _ _ _ => rfl
        · exact smGet_put_ne none ([] : SMap (Option Contribution)) hi (some x)
        · have excl := excl_openedRound (k := k) (rank := rank) (e := e) (x := x) (cur := cur) fresh hi
          have ranks : groupRanks got x.part e = groupRanks s.m x.part e :=
            groupRanks_of_rounds s.m got.out s.m.rounds s.m.counts s.m.exclNext x.part e
          rw [ranks] at excl
          rw [show n = cur from h]
          exact excl
  case close =>
    intro s k hrun r full
    exact ⟨fun h => exec_roundClose_full hrun ((roundFull_iff k r).2 h),
      fun h => exec_roundClose_waits hrun fun g => h ((roundFull_iff k r).1 g),
      fun ho ht => exec_roundTimeout_closes hrun ho ht, fun h => exec_roundTimeout_waits hrun h⟩
  case closed =>
    intro m k r e m' got ranks from_ status
    by_cases hk : k < 65536
    · have go : m' = _ := closeRound_root m hk
      refine ⟨?_, ?_, fun _ => ?_, fun h => absurd h (by omega)⟩
      · rw [go]
        exact smGet_put_same ..
      · rw [go]
        rfl
      · have kept : smGet {} m'.closedRounds k = roundKept r := by
          rw [go]
          exact smGet_put_same ..
        rw [kept]
        refine ⟨rfl, rfl, rfl, fun ho => if_neg (Bool.eq_false_iff.1 ho), kept, resultOf m k r, rfl, rfl, rfl, rfl, rfl, rfl,
          rfl, rfl, rfl, ?_⟩
        rw [go]
        rfl
    · have go : m' = _ := closeRound_below m (Nat.not_lt.1 hk)
      refine ⟨?_, ?_, fun h => absurd h hk, fun _ => ⟨termOf m k r, rfl, rfl, rfl, rfl, rfl, rfl, rfl, rfl, ?_⟩⟩
      · rw [go]
        exact smGet_put_same ..
      · rw [go]
        rfl
      · rw [go]
        rfl
  case exclusion =>
    intro s k rank hrun
    exact ⟨fun c h => exec_rankExclusion_error hrun h, fun e h => ⟨fun hr => exec_rankExclusion_none hrun h hr,
      fun p c hr => exec_rankExclusion_some hrun h hr⟩⟩
  case excluded =>
    intro m k rank e down h m' r next n
    have fresh : OnlyRounds m (freshCounts m k) := onlyRounds_freshCounts m k
    have number : n = exclNumber (freshCounts m k) k rank down := by
      by_cases ho : (getRound m k).isOpen = true
      · have same : exclNumber (freshCounts m k) k rank down = if down = true ∧ r.isOpen = true then max next r.round
            else next := by
          unfold exclNumber
          rw [show getRound (freshCounts m k) k = r by rw [freshCounts_open ho]]
        exact same.symm
      · unfold exclNumber
        rw [isOpen_freshCounts, if_neg fun g => ho g.2]
        exact if_neg fun g => ho g.2
    refine ⟨excludeRank_foreign h, fun hr he => ?_⟩
    have go : m' = exclDone (freshCounts m k) k rank e down := excludeRank_of_site h hr he
    have only : OnlyRounds m m' := go ▸ fresh.trans (onlyRounds_exclDone ..)
    refine ⟨only.keeps (·.mem) fun _ _ _ _ => rfl, only.keeps (·.out) fun _ _ _ _ => rfl, ?_, fun ho hn => ?_,
      fun ho hn => ?_, fun ho => ?_⟩
    · rw [go, number]
      exact rankCount_exclDone ..
    · rw [number, freshCounts_open ho] at hn
      rw [go, freshCounts_open ho]
      exact getRound_exclDone_in ho hn
    · rw [number, freshCounts_open ho] at hn
      rw [go, number, freshCounts_open ho]
      exact exclDone_ahead ho hn
    · rw [go]
      exact isOpen_exclDone ((isOpen_freshCounts m k).trans ho)
  case result =>
    intro s k core r hrun x l0
    exact ⟨exec_resultWrite_waits hrun, exec_resultWrite_taken hrun, fun l h => exec_resultWrite_next hrun h⟩
  case writes =>
    intro m l k core r m' n counted puts
    refine ⟨resultNext_waits, fun h hb => ?_, fun h hb => ?_, fun h hb => resultNext_ends h hb⟩
    · have put := resultPut_cases m l core (r.raddr + BitVec.ofNat 64 (64 * l.blk)) 64 (r.blocks.getD l.blk 0).toNat 0
      rw [← resultNext_block (k := k) h hb] at put
      exact put
    · have put := resultPut_cases m l core r.rrec 16 (r.round % 2 ^ 32 + r.status * 2 ^ 32 + r.mask.toNat * 2 ^ 64) 1
      rw [← resultNext_record (k := k) h hb] at put
      exact put
  case ends =>
    intro m k bad status core m'
    refine ⟨endContrib_none, fun c h => ?_⟩
    obtain ⟨hmem, hout, reqs, listed⟩ := endContrib_facts (bad := bad) (status := status) h
    exact ⟨hmem, hout, _, listed, rfl, rfl, rfl, rfl, rfl⟩

end

section
/-!
PROOFS. What each function of the model does to the canonical form of memory (spec/08, log 3):
the parts that every agent shares.
A function that writes no memory leaves it (`f_mem`); one that writes keeps the form (`memWf_f`), and so does every state
that an event goes on to (`outWf_f`).
-/

namespace Sys2Proof.Machine

/-- The memory of every state that an outcome goes on to is in its canonical form. -/
def OutWf (o : Out) : Prop := ∀ t, o = .next t → memWf t.m.mem = true

/-- Two machines have the same memory. As a relation of the machines themselves it lets the kernel compare a step with its
`let`s unfolded without evaluating the step. -/
def SameMem (m m' : Mach) : Prop := m'.mem = m.mem

theorem memWf_of_mem {m m' : Mach} (h : m'.mem = m.mem) (hm : memWf m.mem = true) : memWf m'.mem = true := h ▸ hm

/-- A fold of steps that each keep the canonical form keeps it. -/
theorem memWf_foldl {α : Type} {g : Mach → α → Mach} {m : Mach}
    (hg : ∀ m x, memWf m.mem = true → memWf (g m x).mem = true) (l : List α) (hm : memWf m.mem = true) :
    memWf (l.foldl g m).mem = true := by
  induction l generalizing m with
  | nil => exact hm
  | cons x l ih => exact ih (hg m x hm)

theorem mem_of_foldl {α : Type} {g : Mach → α → Mach} (hg : ∀ m x, SameMem m (g m x)) (l : List α) (m : Mach) :
    (l.foldl g m).mem = m.mem := foldl_mem hg l m

/-- Memory in its canonical form, as a predicate of the machine: like `SameMem`, it keeps the kernel from evaluating. -/
def Formed (m : Mach) : Prop := memWf m.mem = true

theorem formed_commitNat {m : Mach} {a pa n x : Nat} (hm : Formed m) : Formed (commitNat m a pa n x) :=
  memWf_commitNat _ _ _ _ _ hm

theorem formed_foldl {α : Type} {g : Mach → α → Mach} {m : Mach} (hg : ∀ m x, Formed m → Formed (g m x)) (l : List α)
    (hm : Formed m) : Formed (l.foldl g m) :=
  memWf_foldl hg l hm

theorem formed_invals {m : Mach} {l : List Inval} (hm : Formed m) : Formed { m with invals := l } := hm

theorem formed_migration {m : Mach} {g : Option Migration} (hm : Formed m) : Formed { m with migration := g } := hm

@[simp] theorem mem_beginEnd (m : Mach) (core i : Nat) (e : Ending) : (beginEnd m core i e).mem = m.mem :=
  beginEnd_mem m core i e

theorem outWf_next {s : State} (hm : memWf s.m.mem = true) : OutWf (.next s) := fun _ e => by cases e; exact hm


/-! ### Translation (Sys2Proof/Machine/Xlat) -/

@[simp] theorem fillTr_mem (m : Mach) (c : Nat) (t : Tr) : (fillTr m c t).mem = m.mem := rfl

/-! ### Events, notices, frames and traps (Sys2Proof/Machine/Ops) -/

@[simp] theorem settle_mem (m : Mach) (core i : Nat) : (settle m core i).mem = m.mem := rfl

@[simp] theorem vaViews_mem (m : Mach) (a : Nat) (w : Who) (va : Word) (fuel n : Nat) :
    (vaViews m a w va fuel n).mem = m.mem := by
  induction fuel generalizing m va n with
  | zero => rfl
  | succ fuel ih =>
    unfold vaViews
    extract_lets k
    split
    · rfl
    · split
      · exact (ih ..).trans (mem_raiseView ..)
      · rfl

@[simp] theorem memWf_putEvent {m : Mach} {v x : Nat} (hm : memWf m.mem = true) :
    memWf (putEvent m v x).mem = true := by
  unfold putEvent
  grind [memWf_writeVa, setVf_mem]

@[simp] theorem memWf_eventVf {m : Mach} {v kind cause part id va1 : Nat} (hm : memWf m.mem = true) :
    memWf (eventVf m v kind cause part id va1).mem = true := by
  unfold eventVf
  simp [hm]

@[simp] theorem memWf_report {m : Mach} {vf owner kind cause id va : Nat} (hm : memWf m.mem = true) :
    memWf (report m vf owner kind cause id va).mem = true := by
  unfold report
  simp [hm]

@[simp] theorem memWf_payEvents {m : Mach} {v : Nat} (hm : memWf m.mem = true) : memWf (payEvents m v).mem = true :=
  memWf_foldl (fun _ _ h => memWf_putEvent h) _ hm

@[simp] theorem memWf_hostEvent {m : Mach} {o kind cause part id va1 : Nat} (hm : memWf m.mem = true) :
    memWf (hostEvent m o kind cause part id va1).mem = true := by
  unfold hostEvent
  (repeat' split) <;> simp [hm]

@[simp] theorem memWf_pf0Event {m : Mach} {kind part id : Nat} (hm : memWf m.mem = true) :
    memWf (pf0Event m kind part id).mem = true := by
  unfold pf0Event
  simp [hm]

@[simp] theorem dueRest_mem (m : Mach) (core j : Nat) (rest : List (Nat × Cmd)) :
    (dueRest m core j rest).mem = m.mem :=
  rfl

theorem memWf_writeFrame {m : Mach} {core i : Nat} {va : Word} {tile : Option Nat} {m' : Mach}
    (hm : memWf m.mem = true) (e : writeFrame m core i va tile = .ok m') : memWf m'.mem = true := by
  unfold writeFrame at e
  grind [→ memWf_writeVa]

@[simp] theorem memWf_pushNotice {m : Mach} {core : Nat} {n : Notice} (hm : memWf m.mem = true) :
    memWf (pushNotice m core n).1.mem = true := by
  unfold pushNotice
  dsimp only
  (repeat' split) <;> grind [memWf_writeVa, setCore_mem, modCore_mem]

@[simp] theorem memWf_asyncTrap {m : Mach} {part owner cl : Nat} {cause : Byte} {src : Nat}
    (hm : memWf m.mem = true) : memWf (asyncTrap m part owner cl cause src).mem = true := by
  unfold asyncTrap
  grind [memWf_hostEvent, memWf_pushNotice]

@[simp] theorem memWf_notifyControl {m : Mach} {core : Nat} {n : Notice} (hm : memWf m.mem = true) :
    memWf (notifyControl m core n).mem = true := by
  unfold notifyControl
  grind [memWf_asyncTrap, memWf_pushNotice]

@[simp] theorem memWf_notifyTarget {m : Mach} {core i : Nat} {cc : Bool} {va : Word} {cause : Byte}
    (hm : memWf m.mem = true) : memWf (notifyTarget m core i cc va cause).mem = true := by
  unfold notifyTarget
  (repeat' split) <;> simp [hm]

@[simp] theorem memWf_areaRefused {m : Mach} {core i : Nat} {cause : Byte} {va : Word} (hm : memWf m.mem = true) :
    memWf (areaRefused m core i cause va).mem = true := by
  unfold areaRefused
  simp [hm]

@[simp] theorem memWf_payFrame {m : Mach} {core i : Nat} (hm : memWf m.mem = true) :
    memWf (payFrame m core i).mem = true := by
  unfold payFrame
  grind [memWf_writeFrame, modCtx_mem, memWf_notifyTarget, memWf_areaRefused]

@[simp] theorem leaveQueues_mem (m : Mach) (core i : Nat) : (leaveQueues m core i).mem = m.mem := rfl

@[simp] theorem memWf_holdCtx {m : Mach} {core i : Nat} {cause : Byte} {cc park : Bool} {tile : Option Nat}
    (hm : memWf m.mem = true) : memWf (holdCtx m core i cause cc park tile).mem = true := by
  unfold holdCtx
  grind [memWf_payFrame, modCtx_mem, memWf_notifyTarget, beginEnd_mem]

@[simp] theorem forwardOwn_mem (m : Mach) (core i : Nat) (cause : Byte) :
    (forwardOwn m core i cause).mem = m.mem := by
  unfold forwardOwn
  grind [modCtx_mem, beginEnd_mem]

@[simp] theorem memWf_trapEnter {m : Mach} {core i : Nat} {cause : Byte} {faddr finfo : Word} {pkt pos : Nat}
    {tile : Option Nat} (hm : memWf m.mem = true) :
    memWf (trapEnter m core i cause faddr finfo pkt pos tile).mem = true := by
  unfold trapEnter
  grind [leaveQueues_mem, modCtx_mem, settle_mem, forwardOwn_mem, beginEnd_mem, memWf_holdCtx]

@[simp] theorem memWf_trapAt {m : Mach} {cause : Byte} {faddr finfo : Word} {tile : Option Nat}
    (hm : memWf m.mem = true) : memWf (trapAt m cause faddr finfo tile).mem = true := by
  unfold trapAt
  simp [hm]

/-- A word's quiet answer keeps the canonical form: memory as it was, or a trap taken there. -/
theorem memWf_of_quiet {mem : List Host.Cell} {m : Mach} (hmem : memWf mem = true) (h : Quiet mem m) :
    memWf m.mem = true := by
  obtain h | ⟨m₀, c, a, i, t, h, rfl⟩ := h
  · exact h ▸ hmem
  · exact memWf_trapAt (h ▸ hmem)

@[simp] theorem memWf_trapW {m : Mach} {cause : Byte} (hm : memWf m.mem = true) :
    memWf (trapW m cause).mem = true := by
  unfold trapW
  simp [hm]

@[simp] theorem patchLane_mem (m : Mach) (core i x : Nat) : (patchLane m core i x).1.mem = m.mem := by
  unfold patchLane
  grind [setCore_mem]

@[simp] theorem patchAll_mem (m : Mach) (core i x n : Nat) : (patchAll m core i x n).1.mem = m.mem := by
  induction n generalizing m x with
  | zero => rfl
  | succ n ih =>
    have h := patchLane_mem m core i (x % 2 ^ 64)
    unfold patchAll
    split
    · next he => rw [he] at h; exact (ih _ _).trans h
    · next he => rw [he] at h; exact h

@[simp] theorem resumeSel_mem (m : Mach) (core i rsel rpkt : Nat) (after : Nat × Nat) :
    (resumeSel m core i rsel rpkt after).mem = m.mem := by
  unfold resumeSel
  (repeat' split) <;> simp

theorem releaseFrame_mem {m m' : Mach} {ag : Nat} {w : Who} {core i : Nat} {va : Word} {after : Mach → Nat × Nat}
    (e : releaseFrame m ag w core i va after = .ok m') : m'.mem = m.mem := by
  unfold releaseFrame at e
  grind [vaViews_mem, modCtx_mem, patchAll_mem, resumeSel_mem, beginEnd_mem]

/-! ### What a step answers (Sys2Proof/Machine/Operands) -/

theorem outWf_onMach {s : State} {f : Mach → Mach} (hf : memWf (f s.m).mem = true) : OutWf (onMach s f) :=
  fun _ e => by cases e; exact hf

/-- What a word does under its guard keeps the canonical form where its effect does. -/
theorem outWf_runWord {s : State} {h : Hd} {f : Mach → Mach} (hm : memWf s.m.mem = true)
    (hf : memWf (f s.m).mem = true) : OutWf (runWord s h f) := by
  refine outWf_onMach ?_
  split
  · exact hf
  · exact hm

/-! ### The work tree (Sys2Proof/Machine/Tree) -/

@[simp] theorem wakeCore_mem (m : Mach) (core : Nat) : (wakeCore m core).mem = m.mem := rfl

@[simp] theorem wakeCluster_mem (m : Mach) (cl : Nat) : (wakeCluster m cl).mem = m.mem := by
  refine foldl_mem (fun m c => ?_) _ m
  split
  · exact wakeCore_mem m c
  · rfl

@[simp] theorem memWf_putBytes {m : Mach} {w : Who} {va : Word} {n x : Nat} (hm : memWf m.mem = true) :
    memWf (putBytes m w va n x).mem = true := by
  unfold putBytes
  grind [memWf_writeVa]

@[simp] theorem memWf_putRec {m : Mach} {w : Who} {va : Word} {x : Nat} (hm : memWf m.mem = true) :
    memWf (putRec m w va x).mem = true := by
  unfold putRec
  simp [hm]

@[simp] theorem memWf_payRecs {m : Mach} (hm : memWf m.mem = true) : memWf (payRecs m).mem = true :=
  memWf_foldl (fun _ _ h => memWf_putBytes h) _ hm

@[simp] theorem memWf_writeRec {m : Mach} {i : Nat} (hm : memWf m.mem = true) : memWf (writeRec m i).mem = true := by
  unfold writeRec
  simp [hm]

@[simp] theorem memWf_bumpNode {m : Mach} {i : Nat} {f : Node → Node} (hm : memWf m.mem = true) :
    memWf (bumpNode m i f).mem = true := by
  unfold bumpNode
  simp [hm]

@[simp] theorem memWf_settleNode {m : Mach} {i fuel : Nat} (hm : memWf m.mem = true) :
    memWf (settleNode m i fuel).mem = true := by
  induction fuel generalizing m i with
  | zero => simpa [settleNode] using hm
  | succ fuel ih =>
    unfold settleNode
    dsimp only
    split
    · exact hm
    · split
      · split
        · simp [hm]
        · refine ih ?_
          simp [hm]
      · simp [hm]

@[simp] theorem memWf_startNode {m : Mach} {i fuel : Nat} (hm : memWf m.mem = true) :
    memWf (startNode m i fuel).mem = true := by
  induction fuel generalizing m i with
  | zero => simpa [startNode] using hm
  | succ fuel ih =>
    unfold startNode
    dsimp only
    split
    · split
      · refine ih ?_
        simp [hm]
      · simp [hm]
    · exact hm

@[simp] theorem memWf_countUnit {m : Mach} {launch : Nat} {failed : Bool} {cause : Byte} (hm : memWf m.mem = true) :
    memWf (countUnit m launch failed cause).mem = true := by
  unfold countUnit
  simp [hm]

@[simp] theorem memWf_countOwed {m : Mach} (hm : memWf m.mem = true) : memWf (countOwed m).mem = true := by
  refine memWf_foldl (fun m e h => ?_) _ hm
  refine memWf_foldl (fun _ _ h => memWf_countUnit h) _ ?_
  exact h

@[simp] theorem freePins_mem (m : Mach) (r : Record) : (freePins m r).mem = m.mem := rfl

@[simp] theorem dropRecord_mem (m : Mach) (r : Record) : (dropRecord m r).mem = m.mem := rfl

@[simp] theorem cancelRest_mem (m : Mach) (r : Record) : (cancelRest m r).mem = m.mem := by
  unfold cancelRest
  (repeat' split) <;> simp

@[simp] theorem discardRecord_mem (m : Mach) (r : Record) : (discardRecord m r).mem = m.mem := by
  unfold discardRecord
  simp

@[simp] theorem stopCmds_mem (m : Mach) (core i : Nat) (cancel : Bool) : (stopCmds m core i cancel).mem = m.mem := rfl

@[simp] theorem stopOrphans_mem (m : Mach) (os : List (Nat × Nat)) : (stopOrphans m os).mem = m.mem :=
  foldl_mem (fun m _ => stopCmds_mem m _ _ _) _ m

@[simp] theorem endRecord_mem (m : Mach) (r : Record) (failed : Bool) (cause : Byte) :
    (endRecord m r failed cause).mem = m.mem := by
  unfold endRecord
  simp

@[simp] theorem cancelCtx_mem (m : Mach) (core i : Nat) : (cancelCtx m core i).mem = m.mem := by
  unfold cancelCtx
  grind [modCtx_mem, stopCmds_mem, stopOrphans_mem, beginEnd_mem]

@[simp] theorem memWf_cancelLaunch {m : Mach} {i : Nat} (hm : memWf m.mem = true) :
    memWf (cancelLaunch m i).mem = true := by
  have hr := (foldl_mem (fun m r => endRecord_mem m r false 0) (m.records.filter (fun r => r.launch == i)) m)
  have hc := (foldl_mem (fun m (e : Nat × Nat) => cancelCtx_mem m e.1 e.2)
    (ctxsOf ((m.records.filter (fun r => r.launch == i)).foldl (fun m r => endRecord m r false 0) m) i) _).trans hr
  unfold cancelLaunch
  refine memWf_countOwed (memWf_writeRec ?_)
  dsimp only
  split <;> exact hc ▸ hm

@[simp] theorem memWf_skipGraphNode {m : Mach} {gi n : Nat} (hm : memWf m.mem = true) :
    memWf (skipGraphNode m gi n).mem = true := by
  unfold skipGraphNode
  grind [memWf_putRec, memWf_bumpNode]

@[simp] theorem memWf_cancelNode {m : Mach} {a : Nat} (hm : memWf m.mem = true) :
    memWf (cancelNode m a).mem = true := by
  unfold cancelNode
  split
  · exact hm
  · refine memWf_foldl (fun _ _ hm => memWf_foldl (fun _ _ hm => memWf_settleNode hm) _ hm) _ ?_
    refine memWf_foldl (fun m d hm => ?_) _ ?_
    · split
      · exact memWf_foldl (fun _ _ hm => memWf_skipGraphNode hm) _ hm
      · exact hm
    refine memWf_foldl (fun _ _ hm => memWf_cancelLaunch hm) _ ?_
    exact memWf_of_mem (foldl_mem (fun m d => modNode_mem m d _) _ _) hm

@[simp] theorem memWf_refuseRec {m : Mach} {w : Who} {va : Word} {cause : Byte} (hm : memWf m.mem = true) :
    memWf (refuseRec m w va cause).mem = true := by
  unfold refuseRec
  (repeat' split) <;> simp [hm]

@[simp] theorem armGang_mem (m : Mach) (launch owner x : Nat) : (armGang m launch owner x).mem = m.mem := by
  unfold armGang
  (repeat' split) <;> simp

@[simp] theorem memWf_enqueueLaunch {m : Mach} {owner x : Nat} {parent : Option Nat} {views : SMap Nat}
    (hm : memWf m.mem = true) : memWf (enqueueLaunch m owner x parent views).1.mem = true := by
  unfold enqueueLaunch
  grind [setQueue_mem, memWf_writeRec, setNode_mem]

@[simp] theorem memWf_submitLaunch {m : Mach} {w : Who} {va : Word} {parent : Option Nat} {child : Bool}
    {views : SMap Nat} (hm : memWf m.mem = true) : memWf (submitLaunch m w va parent child views).1.mem = true := by
  unfold submitLaunch
  grind [memWf_enqueueLaunch, memWf_refuseRec, memWf_settleNode, armGang_mem, memWf_bumpNode]

/-! ### The words of the B pipe that reach memory (Sys2Proof/Machine/BWords) -/

@[simp] theorem memWf_notArrival {m : Mach} {f : Mach → Mach} (hm : memWf m.mem = true) (hf : memWf (f m).mem = true)
    :
    memWf (notArrival m f).mem = true := by
  unfold notArrival
  grind [memWf_trapW]

theorem outWf_execBCancel {h : Hd} {l : BitVec 3} {s : State} (hm : memWf s.m.mem = true) :
    OutWf (execBCancel h l s) := by
  refine outWf_runWord hm (memWf_notArrival hm ?_)
  dsimp only
  rw [markEnd_mem]
  split
  · split
    · simp [hm]
    · exact memWf_cancelNode hm
  · exact hm

@[simp] theorem readyParked_mem (m : Mach) (va : Word) (z : Releaser) (mine : Nat → Nat → Nat → Bool) :
    (readyParked m va z mine).mem = m.mem :=
  rfl

theorem frameRelease_mem {m : Mach} {core i : Nat} {va : Word} {hc hi : Nat} {m' : Mach}
    (e : frameRelease m core i va hc hi = .ok m') : m'.mem = m.mem := by
  unfold frameRelease at e
  grind [readyParked_mem, releaseFrame_mem]

/-! ### Accesses leave, commit and land (Sys2Proof/Machine/Order) -/

theorem outWf_whenRunning {s : State} {f : Mach → Mach} (hm : memWf s.m.mem = true) (hf : memWf (f s.m).mem = true) :
    OutWf (whenRunning s f) := by
  refine outWf_onMach ?_
  split
  · exact hf
  · exact hm

@[simp] theorem leaves_mem (m : Mach) (agent idx : Nat) : (leaves m agent idx).mem = m.mem := rfl

@[simp] theorem modLanding_mem (m : Mach) (id : Nat) (f : Landing → Landing) : (modLanding m id f).mem = m.mem := rfl

@[simp] theorem remoteBarrier_mem (m : Mach) (rbarf pa len : Nat) : (remoteBarrier m rbarf pa len).mem = m.mem := by
  unfold remoteBarrier
  (repeat' split) <;> simp

@[simp] theorem noteRemote_mem (m : Mach) (r : RemoteReq) (gs : List Nat) : (noteRemote m r gs).mem = m.mem := by
  unfold noteRemote
  (repeat' split) <;> simp

@[simp] theorem landedPart_mem (m : Mach) (agent : Nat) (a : Act) (g : Option Gran) :
    (landedPart m agent a g).mem = m.mem := by
  unfold landedPart
  grind [modLanding_mem, remoteBarrier_mem, noteRemote_mem]

@[simp] theorem refusedPart_mem (m : Mach) (agent cause : Nat) : (refusedPart m agent cause).mem = m.mem := rfl

@[simp] theorem memWf_raiseLater {m : Mach} {core i area : Nat} {cause : Byte} {faddr finfo : Word}
    (hm : memWf m.mem = true) : memWf (raiseLater m core i area cause faddr finfo).mem = true := by
  unfold raiseLater
  dsimp only
  (repeat' split) <;> simp [hm]

@[simp] theorem cmdFail_mem (m : Mach) (core e num cause : Nat) : (cmdFail m core e num cause).mem = m.mem := rfl

@[simp] theorem clearMore_mem (m : Mach) (core i tag : Nat) : (clearMore m core i tag).mem = m.mem := rfl

@[simp] theorem dropPend_mem (m : Mach) (core i tag : Nat) : (dropPend m core i tag).mem = m.mem := rfl

@[simp] theorem memWf_refuseAct {m : Mach} {agent : Nat} {a : Act} {cause : Byte} {finfo : Word}
    (hm : memWf m.mem = true) : memWf (refuseAct m agent a cause finfo).mem = true := by
  unfold refuseAct
  dsimp only
  (repeat' split) <;> simp [hm]

@[simp] theorem bindTo_mem (m : Mach) (agent : Nat) (a : Act) (g : Gran) : (bindTo m agent a g).mem = m.mem := by
  unfold bindTo
  (repeat' split) <;> simp

@[simp] theorem noteMirror_mem (m : Mach) (agent i : Nat) (a : Act) : (noteMirror m agent i a).mem = m.mem := by
  unfold noteMirror
  (repeat' split) <;> simp

@[simp] theorem applyRenew_mem (m : Mach) (core base life exp : Nat) :
    (applyRenew m core base life exp).mem = m.mem :=
  rfl

@[simp] theorem renewOnFill_mem (m : Mach) (core e : Nat) (c : Cmd) : (renewOnFill m core e c).mem = m.mem := by
  unfold renewOnFill
  grind [applyRenew_mem, modCmd_mem]

@[simp] theorem engWrote_mem (m : Mach) (core e : Nat) (a : Act) : (engWrote m core e a).mem = m.mem := by
  unfold engWrote
  grind [renewOnFill_mem, modCmd_mem, modCore_mem]

@[simp] theorem memWf_commitAct {m : Mach} {agent : Nat} {a : Act} (hm : memWf m.mem = true) :
    memWf (commitAct m agent a).mem = true := by
  unfold commitAct
  grind [landedPart_mem, noteMirror_mem, memWf_commitKeyed, engWrote_mem]

@[simp] theorem memWf_applyAtomic {m : Mach} {agent : Nat} {a : Act} (hm : memWf m.mem = true) :
    memWf (applyAtomic m agent a).mem = true := by
  unfold applyAtomic
  grind [noteMirror_mem, bindTo_mem, memWf_commitKeyed, mem_raiseView]

@[simp] theorem setVals_mem (m : Mach) (core i tag : Nat) (vs : List Scalar) :
    (setVals m core i tag vs).mem = m.mem :=
  rfl

@[simp] theorem leaveCmd_mem (m : Mach) (agent e : Nat) (a : Act) (x y : Word) (cw : Option Word) (opt : BitVec 25)
    (kind : Nat) : (leaveCmd m agent e a x y cw opt kind).mem = m.mem :=
  rfl

@[simp] theorem memWf_applyPost {m : Mach} {job slot kind : Nat} {v : Word} (hm : memWf m.mem = true) :
    memWf (applyPost m job slot kind v).mem = true := by
  unfold applyPost
  grind [memWf_writeVa]

@[simp] theorem memWf_leaveLaunch {m : Mach} {agent : Nat} {a : Act} {lpb : Word} (hm : memWf m.mem = true) :
    memWf (leaveLaunch m agent a lpb).mem = true := by
  unfold leaveLaunch
  grind [memWf_hostEvent, memWf_submitLaunch, setVals_mem, modNode_mem]

@[simp] theorem memWf_leaveAct {m : Mach} {agent idx : Nat} (hm : memWf m.mem = true) :
    memWf (leaveAct m agent idx).mem = true := by
  unfold leaveAct
  extract_lets ag core left
  have hleft : memWf left.mem = true := memWf_of_mem (leaves_mem ..) hm
  split
  · exact hm
  · next a _ =>
    extract_lets toPort
    have hport (pool : Nat) : memWf (toPort pool).mem = true := memWf_of_mem (modCore_mem ..) hleft
    clear_value left toPort
    split
    · exact hm
    · split
      · exact memWf_refuseAct hleft
      · generalize a.kind = kind, targetOf m a.gran = target
        cases kind <;> cases target <;> dsimp only <;> (repeat' split) <;> simp [hm, hleft, hport]

theorem outWf_execIssueQueueLeave {agent idx : Nat} {s : State} (hm : memWf s.m.mem = true) :
    OutWf (execIssueQueueLeave agent idx s) := by
  unfold execIssueQueueLeave
  refine outWf_whenRunning hm ?_
  simp [hm]

theorem outWf_execPendingCommit {agent idx : Nat} {s : State} (hm : memWf s.m.mem = true) :
    OutWf (execPendingCommit agent idx s) := by
  unfold execPendingCommit
  refine outWf_whenRunning hm ?_
  dsimp only
  (repeat' split) <;> simp [hm]

theorem outWf_execLoadBind {agent idx pos : Nat} {s : State} (hm : memWf s.m.mem = true) :
    OutWf (execLoadBind agent idx pos s) := by
  unfold execLoadBind
  refine outWf_whenRunning hm ?_
  dsimp only
  (repeat' split) <;> simp [hm]

theorem outWf_execAtomicApply {agent idx : Nat} {s : State} (hm : memWf s.m.mem = true) :
    OutWf (execAtomicApply agent idx s) := by
  unfold execAtomicApply
  refine outWf_whenRunning hm ?_
  dsimp only
  (repeat' split) <;> simp [hm]

@[simp] theorem applyAlloc_mem (m : Mach) (core i tag n sw life : Nat) :
    (applyAlloc m core i tag n sw life).mem = m.mem := by
  unfold applyAlloc
  grind [setVals_mem, setCore_mem]

@[simp] theorem applyFree_mem (m : Mach) (core base : Nat) : (applyFree m core base).mem = m.mem := rfl

@[simp] theorem memWf_applyPort {m : Mach} {pool agent : Nat} {a : Act} (hm : memWf m.mem = true) :
    memWf (applyPort m pool agent a).mem = true := by
  unfold applyPort
  dsimp only
  (repeat' split) <;> simp [hm]

theorem outWf_execPortApply {pool : Nat} {s : State} (hm : memWf s.m.mem = true) : OutWf (execPortApply pool s) := by
  unfold execPortApply
  refine outWf_whenRunning hm ?_
  dsimp only
  (repeat' split) <;> simp [hm]

@[simp] theorem memWf_commitBlock {m : Mach} {agent : Nat} {key : Option Nat} {g : Nat} {b : Block}
    (hm : memWf m.mem = true) : memWf (commitBlock m agent key g b).mem = true :=
  memWf_foldl (fun _ _ h => memWf_commitKeyed _ _ _ _ _ _ h) _ hm

theorem outWf_execRaddBlockApply {die idx : Nat} {s : State} (hm : memWf s.m.mem = true) :
    OutWf (execRaddBlockApply die idx s) := by
  unfold execRaddBlockApply
  refine outWf_whenRunning hm ?_
  dsimp only
  (repeat' split) <;> simp [hm]

@[simp] theorem raiseCovered_mem (m : Mach) (agent core scope : Nat) :
    (raiseCovered m agent core scope).mem = m.mem :=
  foldl_mem (fun m g => mem_raiseView m agent g _) _ m

theorem outWf_execFenceComplete {agent idx : Nat} {s : State} (hm : memWf s.m.mem = true) :
    OutWf (execFenceComplete agent idx s) := by
  unfold execFenceComplete
  refine outWf_whenRunning hm ?_
  dsimp only
  (repeat' split) <;> simp [hm]

theorem outWf_execShutCommit {agent idx : Nat} {s : State} (hm : memWf s.m.mem = true) :
    OutWf (execShutCommit agent idx s) := by
  unfold execShutCommit
  refine outWf_whenRunning hm ?_
  dsimp only
  (repeat' split) <;> simp [hm]

@[simp] theorem landPend_mem (m : Mach) (core i : Nat) (p : Pend) : (landPend m core i p).mem = m.mem := rfl

@[simp] theorem memWf_vldMore {m : Mach} {core i : Nat} {p : Pend} {n : Nat} (hm : memWf m.mem = true) :
    memWf (vldMore m core i p n).mem = true := by
  unfold vldMore
  dsimp only
  (repeat' split) <;> simp [hm]

@[simp] theorem memWf_landVld {m : Mach} {core i row : Nat} {p : Pend} (hm : memWf m.mem = true) :
    memWf (landVld m core i row p).mem = true := by
  unfold landVld
  dsimp only
  (repeat' split) <;> simp [hm]

@[simp] theorem memWf_landWin {m : Mach} {core i idx : Nat} {sent : Bool} {p : Pend} (hm : memWf m.mem = true) :
    memWf (landWin m core i idx sent p).mem = true := by
  change Formed _
  unfold landWin
  extract_lets part raw m1 m2
  have h1 : Formed m1 := formed_commitNat hm
  have h2 : Formed m2 := memWf_of_mem (modCtx_mem ..) h1
  split
  · split
    · exact hm
    · exact memWf_of_mem (landPend_mem ..) hm
  · split
    · exact hm
    · split
      · exact memWf_of_mem (landPend_mem ..) hm
      · split
        · exact memWf_raiseLater (memWf_of_mem (dropPend_mem ..) hm)
        · exact formed_invals h2

theorem outWf_execScoreboardLand {core ctx tag : Nat} {s : State} (hm : memWf s.m.mem = true) :
    OutWf (execScoreboardLand core ctx tag s) := by
  unfold execScoreboardLand
  refine outWf_whenRunning hm ?_
  (repeat' split) <;> simp [hm]

theorem outWf_execResultLand {core ctx : Nat} {s : State} (hm : memWf s.m.mem = true) :
    OutWf (execResultLand core ctx s) := by
  unfold execResultLand
  refine outWf_whenRunning hm ?_
  simp [hm]

theorem outWf_execOperandFillDone {core ctx : Nat} {s : State} (hm : memWf s.m.mem = true) :
    OutWf (execOperandFillDone core ctx s) := by
  unfold execOperandFillDone
  refine outWf_whenRunning hm ?_
  simp [hm]

theorem outWf_execWaitSatisfied {core ctx : Nat} {s : State} (hm : memWf s.m.mem = true) :
    OutWf (execWaitSatisfied core ctx s) := by
  unfold execWaitSatisfied
  refine outWf_whenRunning hm ?_
  dsimp only
  (repeat' split) <;> simp [hm]

theorem outWf_execPageWalk {cluster idx : Nat} {s : State} (hm : memWf s.m.mem = true) :
    OutWf (execPageWalk cluster idx s) := by
  unfold execPageWalk
  refine outWf_whenRunning hm ?_
  dsimp only
  (repeat' split) <;> simp [hm]

@[simp] theorem discardTr_mem (m : Mach) (d : Nat) (v : Inval) : (discardTr m d v).mem = m.mem := rfl

theorem outWf_execInvalidation {part : Nat} {page : Word} {s : State} (hm : memWf s.m.mem = true) :
    OutWf (execInvalidation part page s) := by
  unfold execInvalidation
  refine outWf_whenRunning hm ?_
  simp [hm]

theorem outWf_execInvalidationAck {dest : Nat} {s : State} (hm : memWf s.m.mem = true) :
    OutWf (execInvalidationAck dest s) := by
  unfold execInvalidationAck
  refine outWf_whenRunning hm ?_
  dsimp only
  (repeat' split) <;> simp [hm]

@[simp] theorem memWf_copyPage {m : Mach} {src dst n : Nat} (hm : memWf m.mem = true) :
    memWf (copyPage m src dst n).mem = true := by
  induction n generalizing m src dst with
  | zero => simpa [copyPage] using hm
  | succ n ih =>
    unfold copyPage
    refine ih ?_
    exact memWf_commitWrite m hiveAgent dst 0xFFFF (readGran m.mem src) hm

theorem formed_copyPage {m : Mach} {src dst n : Nat} (hm : Formed m) : Formed (copyPage m src dst n) :=
  memWf_copyPage hm

/-- The step of a migration at a window keeps the form. -/
theorem migrate_window {m : Mach} {part oldPa newPa i : Nat} (hm : Formed m) : Formed
    (let raw := readNat m.mem (winAddr m part i) 32
     let m := commitNat m hiveAgent (winAddr m part i) 8 (winTbase raw - oldPa + newPa)
     { m with invals := m.invals ++ [{ part := part, win := true, page := i, all := false, acks := 0 }] }) :=
  formed_invals (formed_commitNat hm)

@[simp] theorem memWf_migrate {m : Mach} {part va newPa : Nat} (hm : memWf m.mem = true) :
    memWf (migrate m part va newPa).mem = true := by
  change Formed _
  unfold migrate
  extract_lets inval wins busy
  split
  · split
    · exact hm
    · split
      · exact hm
      · extract_lets raw m1
        split
        · exact hm
        · exact formed_invals (formed_migration (formed_commitNat hm))
  · split
    · exact hm
    · split
      · split
        · exact hm
        · extract_lets m1 raw new m2 ws m3
          have h1 : Formed m1 := formed_copyPage hm
          have h2 : Formed m2 := formed_commitNat h1
          have h3 : Formed m3 := formed_foldl (fun _ _ hm => migrate_window hm) ws h2
          exact formed_invals (formed_migration h3)
      · split <;> exact hm

theorem outWf_execPageMigration {part : Nat} {va newPa : Word} {s : State} (hm : memWf s.m.mem = true) :
    OutWf (execPageMigration part va newPa s) := by
  unfold execPageMigration
  refine outWf_whenRunning hm ?_
  simp [hm]

end Sys2Proof.Machine
end

section
/-!
PROOFS. What each function of the model does to the canonical form of memory (spec/08, log 3):
engines and fabric.
A function that writes no memory leaves it (`f_mem`); one that writes keeps the form (`memWf_f`), and so does every state
that an event goes on to (`outWf_f`).
-/

namespace Sys2Proof.Machine

@[simp] theorem mem_modCmd (m : Mach) (core e num : Nat) (f : Cmd → Cmd) : (modCmd m core e num f).mem = m.mem :=
  modCmd_mem m core e num f

/-! ### Engine commands (Sys2Proof/Machine/Engine) -/

theorem engRead_mem {m : Mach} {core e : Nat} {w : Who} {va : Word} {n ix : Nat} {r}
    (e : engRead m core e w va n ix = .ok r) : r.1.mem = m.mem := by
  unfold engRead at e
  grind [mem_raiseView]

theorem rnfStart_mem {m : Mach} {core e : Nat} {c : Cmd} {n : Nat} {r} (e : rnfStart m core e c n = .ok r) :
    r.1.mem = m.mem := by
  unfold rnfStart at e
  grind [engRead_mem]

@[simp] theorem setRound_mem (m : Mach) (k : Nat) (x : Round) : (setRound m k x).mem = m.mem := rfl

theorem startWork_mem {m : Mach} {core e : Nat} {c : Cmd} {r} (e : startWork m core e c = .ok r) :
    r.1.mem = m.mem := by
  unfold startWork at e
  grind [→ rnfStart_mem, → engRead_mem]

theorem outWf_execEngineCommandStart {core e num : Nat} {s : State} (hm : memWf s.m.mem = true) :
    OutWf (execEngineCommandStart core e num s) := by
  refine outWf_whenRunning hm ?_
  split
  · exact hm
  · split
    · exact hm
    · split
      · next he => exact memWf_of_mem ((modCmd_mem ..).trans (startWork_mem he)) hm
      · exact memWf_of_mem (modCmd_mem ..) hm

@[simp] theorem putBlock_mem (m : Mach) (core e : Nat) (c : Cmd) (blk pa : Nat) (mir : Bool) (va : Word) (b : Block) :
    (putBlock m core e c blk pa mir va b).mem = m.mem := by
  unfold putBlock
  grind [modAgent_mem, modCmd_mem]

theorem engWrite_mem {m : Mach} {core e : Nat} {c : Cmd} {blk : Nat} {va : Word} {b : Block} {m' : Mach}
    (e : engWrite m core e c blk va b = some m') : m'.mem = m.mem := by
  unfold engWrite at e
  grind [putBlock_mem, cmdFail_mem]

@[simp] theorem sendReq_mem (m : Mach) (core e num : Nat) (q : Req) (msg : RemoteReq → Msg) :
    (sendReq m core e num q msg).mem = m.mem :=
  rfl

@[simp] theorem sendRld_mem (m : Mach) (core e : Nat) (c : Cmd) : (sendRld m core e c).mem = m.mem := by
  unfold sendRld
  (repeat' split) <;> simp

@[simp] theorem placeBlock_mem (m : Mach) (core e : Nat) (c : Cmd) : (placeBlock m core e c).mem = m.mem := by
  unfold placeBlock
  grind [modCmd_mem, putBlock_mem, cmdFail_mem]

@[simp] theorem sendDirect_mem (m : Mach) (core e : Nat) (c : Cmd) : (sendDirect m core e c).mem = m.mem := by
  unfold sendDirect
  grind [sendReq_mem, modCmd_mem, cmdFail_mem]

@[simp] theorem writeResidual_mem (m : Mach) (core e : Nat) (c : Cmd) : (writeResidual m core e c).mem = m.mem := by
  unfold writeResidual
  grind [engWrite_mem, modCmd_mem]

@[simp] theorem contribute_mem (m : Mach) (core e : Nat) (c : Cmd) : (contribute m core e c).mem = m.mem := by
  unfold contribute
  (repeat' split) <;> simp

@[simp] theorem sendLater_mem (m : Mach) (core e : Nat) (c : Cmd) : (sendLater m core e c).mem = m.mem := by
  unfold sendLater
  (repeat' split) <;> simp

@[simp] theorem usedBlocks_mem (m : Mach) (core e : Nat) (c : Cmd) (n : Nat) (f : Cmd → Cmd) :
    (usedBlocks m core e c n f).mem = m.mem :=
  rfl

@[simp] theorem useRred_mem (m : Mach) (core e : Nat) (c : Cmd) (bs : List Block) :
    (useRred m core e c bs).mem = m.mem := by
  unfold useRred
  grind [usedBlocks_mem, cmdFail_mem]

@[simp] theorem useBlocks_mem (m : Mach) (core e : Nat) (c : Cmd) (vas : List Word) :
    (useBlocks m core e c vas).mem = m.mem := by
  unfold useBlocks
  extract_lets n bs next data va src b i
  have hnext (m' : Mach) : (next m').mem = m'.mem := usedBlocks_mem ..
  clear_value next data va src b i
  split
  · split
    · exact (sendReq_mem ..).trans (hnext m)
    · exact cmdFail_mem ..
    · exact cmdFail_mem ..
  · exact useRred_mem ..
  · refine (mem_of_foldl (fun m' j => ?_) _ _).trans (hnext m)
    extract_lets va
    clear_value va
    split
    · exact sendReq_mem ..
    · exact cmdFail_mem ..
    · exact cmdFail_mem ..
  · split
    · exact cmdFail_mem ..
    · split
      · next he => exact (hnext _).trans (engWrite_mem he)
      · rfl

@[simp] theorem cutBlock_mem (m : Mach) (core e num j cause : Nat) : (cutBlock m core e num j cause).mem = m.mem := by
  unfold cutBlock
  (repeat' split) <;> simp

theorem engGran_ok_mem {m m' : Mach} {core e : Nat} {w : Who} {blk : Word} {k p : Nat} {g : Gran}
    (h : engGran m core e w blk k p = .ok m' g) : m'.mem = m.mem := by
  unfold engGran at h
  split at h
  · extract_lets g' ag at h
    split at h
    · split at h <;> cases h
      rfl
    · split at h
      · cases h
      · split at h <;> cases h
        exact mem_raiseView ..
  · cases h
  · cases h

theorem outWf_execEngineBlockApply {core e num : Nat} {pos : List Nat} {s : State} (hm : memWf s.m.mem = true) :
    OutWf (execEngineBlockApply core e num pos s) := by
  refine outWf_whenRunning hm ?_
  split
  · exact hm
  · split
    · exact hm
    · split
      · exact hm
      · exact hm
      · simp [hm]
      · simp [hm]
      · simp [hm]
      · simp [hm]
      · simp [hm]
      · split
        · exact hm
        · split
          · next he => rw [modCmd_mem, engRead_mem he]; exact hm
          · simp [hm]
      · split
        · simp [hm]
        · extract_lets k p va
          split
          · exact hm
          · split
            · exact hm
            · next he => rw [modCmd_mem, engGran_ok_mem he]; exact hm
            · simp [hm]

@[simp] theorem advance_mem (m : Mach) (core e : Nat) : (advance m core e).mem = m.mem := rfl

@[simp] theorem sweepAllocs_mem (m : Mach) (core : Nat) : (sweepAllocs m core).mem = m.mem := rfl

@[simp] theorem shortBarrier_mem (m : Mach) (core e : Nat) (c : Cmd) : (shortBarrier m core e c).mem = m.mem := by
  unfold shortBarrier
  grind [modCore_mem]

theorem writeCw_sent_mem {m m' : Mach} {core e : Nat} {c : Cmd} {x : Nat} (h : writeCw m core e c x = .sent m') :
    m'.mem = m.mem := by
  unfold writeCw at h
  split at h
  · cases h
  · extract_lets drop at h
    split at h
    · cases h
    · extract_lets g a at h
      split at h
      · cases h; exact modAgent_mem ..
      · split at h <;> cases h
    all_goals cases h

theorem memWf_writeCw_done {m m' : Mach} {core e : Nat} {c : Cmd} {x : Nat} (hm : memWf m.mem = true)
    (h : writeCw m core e c x = .done m') : memWf m'.mem = true := by
  unfold writeCw at h
  split at h
  · cases h; exact hm
  · next va _ =>
    extract_lets drop at h
    have hdrop (cause : Byte) (f : Word) (e : drop cause f = .done m') : memWf m'.mem = true := by
      cases e; exact memWf_raiseLater hm
    clear_value drop
    split at h
    · cases h
    · extract_lets g a at h
      split at h
      · cases h
      · split at h
        · exact hdrop _ _ h
        · cases h
          exact memWf_of_mem (engWrote_mem ..) (memWf_commitKeyed _ _ _ _ _ _ hm)
    all_goals exact hdrop _ _ h

@[simp] theorem memWf_endCmd {m : Mach} {core e num : Nat} (hm : memWf m.mem = true) :
    memWf (endCmd m core e num).mem = true := by
  unfold endCmd
  grind [advance_mem, sweepAllocs_mem, wakeCore_mem, memWf_countOwed, modCmd_mem, shortBarrier_mem]

theorem outWf_execEngineCommandEnd {core e num : Nat} {s : State} (hm : memWf s.m.mem = true) :
    OutWf (execEngineCommandEnd core e num s) := by
  refine outWf_whenRunning hm ?_
  split
  · exact hm
  · split
    · split
      · exact memWf_endCmd hm
      · exact hm
    · split
      · exact hm
      · extract_lets whole m1
        have h1 : m1.mem = s.m.mem := by
          unfold m1
          split
          · exact renewOnFill_mem ..
          · exact modCmd_mem ..
        clear_value m1
        split
        · exact hm
        · next he => exact memWf_of_mem ((modCmd_mem ..).trans ((writeCw_sent_mem he).trans h1)) hm
        · next he => exact memWf_endCmd (memWf_writeCw_done (memWf_of_mem h1 hm) he)

@[simp] theorem memWf_endRest {m : Mach} {x : Nat × Nat × Cmd} (hm : memWf m.mem = true) :
    memWf (endRest m x).mem = true := by
  unfold endRest
  dsimp only
  split
  · split
    · exact (shortBarrier_mem ..).symm ▸ hm
    · exact hm
  · split
    · exact hm
    · next he => exact (writeCw_sent_mem he).symm ▸ hm
    · next he => exact (shortBarrier_mem ..).symm ▸ memWf_writeCw_done hm he

@[simp] theorem memWf_endRests {m : Mach} (hm : memWf m.mem = true) : memWf (endRests m).mem = true := by
  unfold endRests
  rw [foldl_mem (fun m c => sweepAllocs_mem m c)]
  exact memWf_foldl (fun _ _ h => memWf_endRest h) _ hm

/-! ### The fabric (Sys2Proof/Machine/Fabric) -/

@[simp] theorem setLink_mem (m : Mach) (p : Nat) (x : Link) : (setLink m p x).mem = m.mem := rfl

@[simp] theorem memWf_noteReplay {m : Mach} {port : Nat} {l : Link} {fails : Nat} (hm : memWf m.mem = true) :
    memWf (noteReplay m port l fails).mem = true := by
  unfold noteReplay
  (repeat' split) <;> simp [hm]

@[simp] theorem memWf_askAgain {m : Mach} {port seq : Nat} {l : Link} {fails : Nat} (hm : memWf m.mem = true) :
    memWf (askAgain m port seq l fails).mem = true := by
  unfold askAgain
  simp [hm]

theorem outWf_execFlitReceive {port seq : Nat} {crcOk : Bool} {s : State} (hm : memWf s.m.mem = true) :
    OutWf (execFlitReceive port seq crcOk s) := by
  unfold execFlitReceive
  refine outWf_whenRunning hm ?_
  dsimp only
  (repeat' split) <;> simp [hm]

theorem outWf_execReplayRequest {port seq : Nat} {s : State} (hm : memWf s.m.mem = true) :
    OutWf (execReplayRequest port seq s) := by
  unfold execReplayRequest
  refine outWf_whenRunning hm ?_
  (repeat' split) <;> simp [hm]

@[simp] theorem dropMsg_mem (m : Mach) (x : Msg) : (dropMsg m x).mem = m.mem := rfl

@[simp] theorem sendMsg_mem (m : Mach) (x : Msg) : (sendMsg m x).mem = m.mem := rfl

@[simp] theorem nackMoved_mem (m : Mach) (r : RemoteReq) : (nackMoved m r).mem = m.mem := rfl

@[simp] theorem startLanding_mem (m : Mach) (x : Msg) (agent : Nat) : (startLanding m x agent).1.mem = m.mem := rfl

@[simp] theorem endLanding_mem (m : Mach) (l : Landing) : (endLanding m l).mem = m.mem := rfl

@[simp] theorem landParts_mem (m : Mach) (l : Landing) (kind : ActKind) (base pa n data mark area : Nat) (va : Word) :
    (landParts m l kind base pa n data mark area va).mem = m.mem := by
  unfold landParts
  (repeat' split) <;> simp

@[simp] theorem landBlockAt_mem (m : Mach) (l : Landing) (r : RemoteReq) (kind : ActKind) (i : Nat) :
    (landBlockAt m l r kind i).mem = m.mem := by
  unfold landBlockAt
  simp

@[simp] theorem memWf_landNext {m : Mach} {l : Landing} {r : RemoteReq} {kind : ActKind} {finish : Mach → Landing →
    Nat → Mach}
    (hm : memWf m.mem = true) (hf : ∀ m l n, memWf m.mem = true → memWf (finish m l n).mem = true) :
    memWf (landNext m l r kind finish).mem = true := by
  unfold landNext
  grind [landBlockAt_mem, endLanding_mem]

theorem outWf_execRemoteLoadRequest {r : RemoteReq} {blk : Nat} {s : State} (hm : memWf s.m.mem = true) :
    OutWf (execRemoteLoadRequest r blk s) := by
  refine outWf_whenRunning hm ?_
  extract_lets x
  split
  · split
    · exact hm
    · split
      · simp [hm]
      · exact memWf_of_mem ((landBlockAt_mem ..).trans (startLanding_mem ..)) hm
  · split
    · exact hm
    · exact memWf_landNext hm fun m l n hm => memWf_of_mem (sendMsg_mem ..) hm

@[simp] theorem memWf_notifyHandler {m : Mach} {core part hidx src : Nat} {s1 : Word} {len : Nat}
    {payload : List (Nat × Nat)} (hm : memWf m.mem = true) :
    memWf (notifyHandler m core part hidx src s1 len payload).mem = true := by
  unfold notifyHandler
  grind [memWf_asyncTrap, memWf_pushNotice]

@[simp] theorem memWf_landNotice {m : Mach} {l : Landing} {r : RemoteReq} {src : Nat} (hm : memWf m.mem = true) :
    memWf (landNotice m l r src).mem = true := by
  unfold landNotice
  (repeat' split) <;> simp [hm]

@[simp] theorem memWf_landWrite {m : Mach} {x : Msg} {agent : Nat} {r : RemoteReq} {src : Nat}
    (hm : memWf m.mem = true) : memWf (landWrite m x agent r src).mem = true := by
  unfold landWrite
  grind [startLanding_mem, sendMsg_mem, memWf_landNext, dropMsg_mem, nackMoved_mem, memWf_landNotice, landBlockAt_mem]

theorem outWf_execRemoteStoreRequest {r : RemoteReq} {s : State} (hm : memWf s.m.mem = true) :
    OutWf (execRemoteStoreRequest r s) := by
  unfold execRemoteStoreRequest
  refine outWf_whenRunning hm ?_
  simp [hm]

theorem outWf_execMulticastReplica {r : RemoteReq} {s : State} (hm : memWf s.m.mem = true) :
    OutWf (execMulticastReplica r s) := by
  unfold execMulticastReplica
  refine outWf_whenRunning hm ?_
  simp [hm]

@[simp] theorem memWf_directNext {m : Mach} {l : Landing} {r : RemoteReq} {op : Nat} {vals : List W32}
    (hm : memWf m.mem = true) : memWf (directNext m l r op vals).mem = true := by
  unfold directNext
  dsimp only
  (repeat' split) <;> simp [hm]

theorem outWf_execDirectReductionRequest {r : RemoteReq} {op : Nat} {vals : List W32} {s : State}
    (hm : memWf s.m.mem = true) : OutWf (execDirectReductionRequest r op vals s) := by
  unfold execDirectReductionRequest
  refine outWf_whenRunning hm ?_
  dsimp only
  (repeat' split) <;> simp [hm]

@[simp] theorem answerReq_mem (m : Mach) (core num id cause wrote : Nat) :
    (answerReq m core num id cause wrote).mem = m.mem := by
  unfold answerReq
  (repeat' split) <;> simp

theorem outWf_execLoadResponse {core id cause : Nat} {data : List Byte} {s : State} (hm : memWf s.m.mem = true) :
    OutWf (execLoadResponse core id cause data s) := by
  unfold execLoadResponse
  refine outWf_whenRunning hm ?_
  grind [answerReq_mem, dropMsg_mem, modCmd_mem, outWf_whenRunning]

@[simp] theorem memWf_answerMirror {m : Mach} {core id cause : Nat} (hm : memWf m.mem = true) :
    memWf (answerMirror m core id cause).mem = true := by
  unfold answerMirror
  (repeat' split) <;> simp [hm]

theorem outWf_execAcknowledgement {core id : Nat} {answer : Answer} {s : State} (hm : memWf s.m.mem = true) :
    OutWf (execAcknowledgement core id answer s) := by
  unfold execAcknowledgement
  refine outWf_whenRunning hm ?_
  grind [answerReq_mem, memWf_answerMirror, dropMsg_mem, modCmd_mem, outWf_whenRunning, cmdFail_mem]

theorem outWf_execMovedNack {core id : Nat} {s : State} (hm : memWf s.m.mem = true) :
    OutWf (execMovedNack core id s) := by
  unfold execMovedNack
  refine outWf_whenRunning hm ?_
  grind [memWf_raiseLater, answerReq_mem, sendMsg_mem, dropMsg_mem, setCore_mem, memWf_countOwed, modCmd_mem,
      outWf_whenRunning, modCore_mem, cmdFail_mem]

theorem outWf_execRequestTimeout {core id : Nat} {s : State} (hm : memWf s.m.mem = true) :
    OutWf (execRequestTimeout core id s) := by
  unfold execRequestTimeout
  refine outWf_whenRunning hm ?_
  (repeat' split) <;> simp [hm]

@[simp] theorem bumpRank_mem (m : Mach) (k rank : Nat) : (bumpRank m k rank).mem = m.mem := rfl

@[simp] theorem freshCounts_mem (m : Mach) (k : Nat) : (freshCounts m k).mem = m.mem := by
  unfold freshCounts
  grind [setRound_mem]

@[simp] theorem forwardTerm_mem (m : Mach) (k : Nat) : (forwardTerm m k).mem = m.mem := rfl

@[simp] theorem closeRound_mem (m : Mach) (k : Nat) : (closeRound m k).mem = m.mem := by
  unfold closeRound
  split
  · exact forwardTerm_mem m k
  · exact foldl_mem (fun m _ => sendMsg_mem m _) _ _

@[simp] theorem openRound_mem (m : Mach) (k : Nat) (e : BitVec 512) (x : Contribution) (cur : Nat) :
    (openRound m k e x cur).1.mem = m.mem :=
  rfl

theorem outWf_execGroupContribution {x : Contribution} {s : State} (hm : memWf s.m.mem = true) :
    OutWf (execGroupContribution x s) := by
  refine outWf_whenRunning hm ?_
  extract_lets msg m0 nack
  have hnack (m : Mach) (c : Nat) : (nack m c).mem = m.mem := by
    unfold nack
    split
    · exact sendMsg_mem ..
    · exact foldl_mem (fun m (p : Nat × Nat × Nat) => sendMsg_mem m _) _ m
  have h0 : m0.mem = s.m.mem := dropMsg_mem ..
  clear_value nack m0
  split
  · exact hm
  · split
    · rw [hnack, h0]; exact hm
    · next k e _ =>
      split
      · rw [hnack, h0]; exact hm
      · split
        · rw [hnack, h0]; exact hm
        · next rank _ =>
          extract_lets m1 n cur m2
          have h1 : m1.mem = s.m.mem := (freshCounts_mem m0 k).trans h0
          have h2 : m2.mem = s.m.mem := by
            unfold m2
            split
            · exact (bumpRank_mem ..).trans h1
            · exact h1
          clear_value m1 m2
          split
          · exact hm
          · split
            · rw [hnack, h2]; exact hm
            · split
              next m3 r he =>
              have h3 : m3.mem = m2.mem := by
                split at he
                · cases he; rfl
                · exact (congrArg (·.1.mem) he).symm.trans (openRound_mem ..)
              split
              · rw [hnack, h2]; exact hm
              · split
                · rw [hnack, h2]; exact hm
                · extract_lets m4
                  exact memWf_of_mem ((setRound_mem ..).trans (h3.trans h2) : m4.mem = s.m.mem) hm

@[simp] theorem excludeRank_mem (m : Mach) (k rank : Nat) (down : Bool) :
    (excludeRank m k rank down).mem = m.mem := by
  unfold excludeRank
  grind [bumpRank_mem, setRound_mem, freshCounts_mem]

@[simp] theorem excludeAll_mem (m : Mach) (k : Nat) (e : BitVec 512) (rank : Nat) (report down : Bool) :
    (excludeAll m k e rank report down).mem = m.mem := by
  refine foldl_mem (fun m a => ?_) _ m
  (repeat' split) <;> simp

@[simp] theorem excludeUnit_mem (m : Mach) (part core : Nat) : (excludeUnit m part core).mem = m.mem := by
  refine foldl_mem (fun m g => ?_) _ m
  split <;> simp

@[simp] theorem excludePackage_mem (m : Mach) (pkg : Nat) : (excludePackage m pkg).mem = m.mem := by
  refine foldl_mem (fun m p => foldl_mem (fun m g => foldl_mem (fun m x => ?_) _ m) _ m) _ m
  exact excludeAll_mem ..

theorem outWf_execRankExclusion {group rank : Nat} {s : State} (hm : memWf s.m.mem = true) :
    OutWf (execRankExclusion group rank s) := by
  unfold execRankExclusion
  refine outWf_whenRunning hm ?_
  (repeat' split) <;> simp [hm]

theorem outWf_execRoundClose {group : Nat} {s : State} (hm : memWf s.m.mem = true) :
    OutWf (execRoundClose group s) := by
  unfold execRoundClose
  refine outWf_whenRunning hm ?_
  (repeat' split) <;> simp [hm]

theorem outWf_execRoundTimeout {group : Nat} {s : State} (hm : memWf s.m.mem = true) :
    OutWf (execRoundTimeout group s) := by
  unfold execRoundTimeout
  refine outWf_whenRunning hm ?_
  dsimp only
  (repeat' split) <;> simp [hm]

@[simp] theorem endContrib_mem (m : Mach) (k bad status core : Nat) :
    (endContrib m k bad status core).mem = m.mem := by
  unfold endContrib
  split
  · rfl
  · next cm _ =>
    rw [mem_modCmd]
    exact foldl_mem (fun m (q : Req) => answerReq_mem m core cm.num q.r.id 0 0) cm.reqs m

@[simp] theorem memWf_resultNext {m : Mach} {l : Landing} {group core : Nat} {r : RoundResult}
    (hm : memWf m.mem = true) : memWf (resultNext m l group core r).mem = true := by
  unfold resultNext
  extract_lets n on put m1 m2
  have hput (va : Word) (align size data mark : Nat) : (put va align size data mark).mem = m.mem := by
    unfold put
    split
    · rfl
    · exact modLanding_mem ..
    · exact (landParts_mem ..).trans (modLanding_mem ..)
  have h1 : memWf m1.mem = true := memWf_of_mem (endLanding_mem ..) hm
  have h2 : memWf m2.mem = true := by
    unfold m2
    split
    · exact memWf_notifyHandler h1
    · exact h1
  clear_value put m1 m2
  split
  · exact hm
  · split
    · exact memWf_of_mem (hput ..) hm
    · split
      · exact memWf_of_mem (hput ..) hm
      · exact memWf_of_mem (foldl_mem (fun m c => endContrib_mem m group l.cause r.status c) _ _) h2

theorem outWf_execResultWrite {group core : Nat} {r : RoundResult} {s : State} (hm : memWf s.m.mem = true) :
    OutWf (execResultWrite group core r s) := by
  unfold execResultWrite
  refine outWf_whenRunning hm ?_
  dsimp only
  (repeat' split) <;> simp [hm]

theorem outWf_execMirrorWrite {core : Nat} {s : State} (hm : memWf s.m.mem = true) :
    OutWf (execMirrorWrite core s) := by
  unfold execMirrorWrite
  refine outWf_whenRunning hm ?_
  dsimp only
  (repeat' split) <;> simp [hm]

@[simp] theorem setGang_mem (m : Mach) (k : Nat) (g : Gang) : (setGang m k g).mem = m.mem := rfl

@[simp] theorem modGang_mem (m : Mach) (k : Nat) (f : Gang → Gang) : (modGang m k f).mem = m.mem := rfl

@[simp] theorem memWf_cancelGangJob {m : Mach} {gang kind : Nat} (hm : memWf m.mem = true) :
    memWf (cancelGangJob m gang kind).mem = true := by
  unfold cancelGangJob
  dsimp only
  (repeat' split) <;> simp [hm]

theorem outWf_execArm {src gang : Nat} {lpb : List Byte} {s : State} (hm : memWf s.m.mem = true) :
    OutWf (execArm src gang lpb s) := by
  unfold execArm
  refine outWf_whenRunning hm ?_
  dsimp only
  (repeat' split) <;> simp [hm]

theorem outWf_execArmed {pkg gang : Nat} {s : State} (hm : memWf s.m.mem = true) : OutWf (execArmed pkg gang s) := by
  unfold execArmed
  refine outWf_whenRunning hm ?_
  dsimp only
  (repeat' split) <;> simp [hm]

theorem outWf_execRefuse {pkg gang : Nat} {s : State} (hm : memWf s.m.mem = true) :
    OutWf (execRefuse pkg gang s) := by
  unfold execRefuse
  refine outWf_whenRunning hm ?_
  dsimp only
  (repeat' split) <;> simp [hm]

theorem outWf_execCommit {src gang : Nat} {s : State} (hm : memWf s.m.mem = true) :
    OutWf (execCommit src gang s) := by
  unfold execCommit
  refine outWf_whenRunning hm ?_
  dsimp only
  (repeat' split) <;> simp [hm]

theorem outWf_execCommitted {pkg gang : Nat} {s : State} (hm : memWf s.m.mem = true) :
    OutWf (execCommitted pkg gang s) := by
  unfold execCommitted
  refine outWf_whenRunning hm ?_
  dsimp only
  (repeat' split) <;> simp [hm]

theorem outWf_execGangtoExpiry {gang : Nat} {s : State} (hm : memWf s.m.mem = true) :
    OutWf (execGangtoExpiry gang s) := by
  unfold execGangtoExpiry
  refine outWf_whenRunning hm ?_
  dsimp only
  (repeat' split) <;> simp [hm]

theorem outWf_execGangCancelMessage {src : Nat} {gang : GangName} {s : State} (hm : memWf s.m.mem = true) :
    OutWf (execGangCancelMessage src gang s) := by
  unfold execGangCancelMessage
  refine outWf_whenRunning hm ?_
  dsimp only
  (repeat' split) <;> simp [hm]

end Sys2Proof.Machine
end

section
/-!
PROOFS. What each function of the model does to the canonical form of memory (spec/08, log 3):
hive, host and trust die.
A function that writes no memory leaves it (`f_mem`); one that writes keeps the form (`memWf_f`), and so does every state
that an event goes on to (`outWf_f`).
-/

namespace Sys2Proof.Machine

/-! ### The hive (Sys2Proof/Machine/Hive) -/

@[simp] theorem setPartw_mem (m : Mach) (core pw : Nat) : (setPartw m core pw).mem = m.mem := rfl

@[simp] theorem prepareCore_mem (m : Mach) (core : Nat) (repart : Bool) (l : Lpb) (owner : Nat) :
    (prepareCore m core repart l owner).1.mem = m.mem := by
  unfold prepareCore
  (repeat' split) <;> simp

@[simp] theorem joinOwn_mem (m : Mach) (core i : Nat) (v : SMap Nat) : (joinOwn m core i v).mem = m.mem := rfl

@[simp] theorem joinViews_mem (m : Mach) (core i : Nat) (v : SMap Nat) : (joinViews m core i v).mem = m.mem := rfl

@[simp] theorem memWf_placeFresh {m : Mach} {i core : Nat} {repart : Bool} (hm : memWf m.mem = true) :
    memWf (placeFresh m i core repart).mem = true := by
  unfold placeFresh
  dsimp only
  (repeat' split) <;> simp [hm]

@[simp] theorem readyRecords_mem (m : Mach) : (readyRecords m).mem = m.mem := by
  refine foldl_mem (fun m r => ?_) _ m
  split <;> rfl

@[simp] theorem serve_mem (m : Mach) : (serve m).1.mem = m.mem := by
  unfold serve
  dsimp only
  (repeat' split) <;> simp

@[simp] theorem memWf_serveOwners {m : Mach} (hm : memWf m.mem = true) : memWf (serveOwners m).mem = true := by
  unfold serveOwners
  grind [memWf_placeFresh, setOwnerOf_mem, serve_mem]

theorem outWf_execUnitPlace {s : State} (hm : memWf s.m.mem = true) : OutWf (execUnitPlace s) := by
  unfold execUnitPlace
  refine outWf_whenRunning hm ?_
  simp [hm]

@[simp] theorem memWf_zeroPool {m : Mach} {core : Nat} (hm : memWf m.mem = true) :
    memWf (zeroPool m core).mem = true :=
  smWf_filter _ _ _ hm

theorem outWf_execZeroingComplete {core : Nat} {s : State} (hm : memWf s.m.mem = true) :
    OutWf (execZeroingComplete core s) := by
  unfold execZeroingComplete
  refine outWf_whenRunning hm ?_
  (repeat' split) <;> simp [hm]

@[simp] theorem requestPre_mem (m : Mach) (core i : Nat) (src : PreSrc) (slot : Option (Nat × Nat)) :
    (requestPre m core i src slot).mem = m.mem :=
  rfl

@[simp] theorem takeSlots_mem (m : Mach) (p : Nat) (x : Nat × Nat) : (takeSlots m p x).mem = m.mem := rfl

@[simp] theorem sliceRequest_mem (m : Mach) (core i : Nat) : (sliceRequest m core i).mem = m.mem := by
  unfold sliceRequest
  grind [requestPre_mem, modCtx_mem, takeSlots_mem]

@[simp] theorem sliceEnds_mem (m : Mach) (core i : Nat) : (sliceEnds m core i).mem = m.mem := by
  unfold sliceEnds
  grind [modCtx_mem, sliceRequest_mem]

theorem outWf_execSliceEnd {core ctx : Nat} {s : State} (hm : memWf s.m.mem = true) :
    OutWf (execSliceEnd core ctx s) := by
  unfold execSliceEnd
  refine outWf_whenRunning hm ?_
  simp [hm]

theorem outWf_execPreemptRequest {core ctx : Nat} {src : PreSrc} {s : State} (hm : memWf s.m.mem = true) :
    OutWf (execPreemptRequest core ctx src s) := by
  unfold execPreemptRequest
  refine outWf_whenRunning hm ?_
  dsimp only
  (repeat' split) <;> simp [hm]

@[simp] theorem memWf_postedEnd {m : Mach} {core i : Nat} (hm : memWf m.mem = true) :
    memWf (postedEnd m core i).mem = true := by
  unfold postedEnd
  grind [memWf_hostEvent, sliceRequest_mem]

theorem outWf_execPostedSliceEndTrigger {core ctx : Nat} {s : State} (hm : memWf s.m.mem = true) :
    OutWf (execPostedSliceEndTrigger core ctx s) := by
  unfold execPostedSliceEndTrigger
  refine outWf_whenRunning hm ?_
  (repeat' split) <;> simp [hm]

@[simp] theorem memWf_noSlot {m : Mach} {core i : Nat} (hm : memWf m.mem = true) :
    memWf (noSlot m core i).mem = true := by
  unfold noSlot
  simp [hm]

@[simp] theorem memWf_ackContext {m : Mach} {core i : Nat} {p : PreEmpt} (hm : memWf m.mem = true) :
    memWf (ackContext m core i p).mem = true := by
  unfold ackContext
  extract_lets m1 c
  have h1 : m1.mem = m.mem := foldl_mem (fun m p => landPend_mem m core i p) _ m
  clear_value m1
  split
  · exact memWf_noSlot (memWf_of_mem h1 hm)
  · next m2 x he =>
    have h2 : m2.mem = m1.mem := by
      split at he
      · cases he; rfl
      · obtain ⟨y, -, hy⟩ := Option.map_eq_some_iff.1 he
        cases hy; exact takeSlots_mem ..
    extract_lets queue kind obj p' m3 m4
    rw [stopCmds_mem, modCtx_mem, leaveQueues_mem, settle_mem]
    exact memWf_of_mem (h2.trans h1) hm

theorem outWf_execStopPointReached {core ctx : Nat} {s : State} (hm : memWf s.m.mem = true) :
    OutWf (execStopPointReached core ctx s) := by
  unfold execStopPointReached
  refine outWf_whenRunning hm ?_
  grind [memWf_ackContext, outWf_whenRunning, beginEnd_mem]

theorem outWf_execEngineStopAck {core ctx e : Nat} {s : State} (hm : memWf s.m.mem = true) :
    OutWf (execEngineStopAck core ctx e s) := by
  unfold execEngineStopAck
  refine outWf_whenRunning hm ?_
  dsimp only
  (repeat' split) <;> simp [hm]

theorem outWf_execCollectiveStopExpiry {core ctx : Nat} {s : State} (hm : memWf s.m.mem = true) :
    OutWf (execCollectiveStopExpiry core ctx s) := by
  refine outWf_whenRunning hm ?_
  dsimp only
  split
  · exact hm
  · split
    · exact hm
    · refine memWf_of_mem (foldl_mem (fun m c => ?_) _ _) hm
      have hslots := foldl_mem (fun m (q : Req) => modCore_mem m core
        (fun k => { k with rqUsed := smPut 0 k.rqUsed q.pkg (smGet 0 k.rqUsed q.pkg - 1) }))
        (c.reqs.filter (fun q => !q.answered && q.slot)) m
      split
      · rfl
      · split
        · exact hslots
        · exact hslots

@[simp] theorem memWf_writeImage {m : Mach} {w : Who} {va : Word} {n : Nat} (hm : memWf m.mem = true) :
    memWf (writeImage m w va n).mem = true := by
  induction n generalizing m va with
  | zero => exact hm
  | succ n ih =>
    unfold writeImage
    dsimp only
    split
    · exact ih (memWf_commitWrite _ _ _ _ _ hm)
    · exact ih hm

theorem outWf_execSaveImageWritten {core ctx : Nat} {s : State} (hm : memWf s.m.mem = true) :
    OutWf (execSaveImageWritten core ctx s) := by
  refine outWf_whenRunning hm ?_
  change Formed _
  extract_lets c k arr im
  split
  · exact hm
  · split
    · exact hm
    · split
      · exact hm
      · split
        · exact memWf_areaRefused hm
        · extract_lets m1
          have h1 : memWf m1.mem = true := memWf_writeImage (memWf_of_mem (setCtx_mem ..) hm)
          clear_value m1
          exact h1

@[simp] theorem markRan_mem (m : Mach) (launch core : Nat) : (markRan m launch core).mem = m.mem := rfl

@[simp] theorem renameActs_mem (m : Mach) (a b : Nat) : (renameActs m a b).mem = m.mem := rfl

@[simp] theorem unpinRecord_mem (m : Mach) (r : Record) : (unpinRecord m r).mem = m.mem := by
  unfold unpinRecord
  (repeat' split) <;> simp

@[simp] theorem memWf_writePreRecord {m : Mach} {core i : Nat} {c : Ctx} {u : UnitInfo} {p : PreEmpt} {x : Nat × Nat}
    {im : Image} (hm : memWf m.mem = true) : memWf (writePreRecord m core i c u p x im).mem = true := by
  unfold writePreRecord
  extract_lets n resume loop va bytes
  split
  · exact memWf_areaRefused hm
  · next he =>
    have h1 := memWf_writeVa _ _ _ _ _ _ _ hm he
    extract_lets j m2 m3 u' k armed im' r m4 m5 m6 m7
    have h6 : m6.mem = m5.mem := by
      unfold m6
      split
      · exact unpinRecord_mem ..
      · rfl
    have h7 : memWf m7.mem = true := by
      rw [sweepAllocs_mem, foldl_mem (fun m e => advance_mem m core e), h6, freeCtx_mem]
      exact memWf_of_mem (by simp [m4, m3, m2]) h1
    split <;> exact h7

theorem outWf_execWeirComplete {core ctx : Nat} {s : State} (hm : memWf s.m.mem = true) :
    OutWf (execWeirComplete core ctx s) := by
  unfold execWeirComplete
  refine outWf_whenRunning hm ?_
  grind [outWf_whenRunning, beginEnd_mem, memWf_writePreRecord]

@[simp] theorem memWf_failRecord {m : Mach} {r : Record} (hm : memWf m.mem = true) :
    memWf (failRecord m r).mem = true := by
  unfold failRecord
  grind [memWf_hostEvent, memWf_cancelNode, endRecord_mem, memWf_countOwed, modNode_mem, memWf_settleNode]

@[simp] theorem renumberActs_mem (m : Mach) (core i : Nat) : (renumberActs m core i).mem = m.mem := rfl

@[simp] theorem restoreImage_mem (m : Mach) (r : Record) (x core i : Nat) (info : UnitInfo) (im : Image) :
    (restoreImage m r x core i info im).mem = m.mem := by
  unfold restoreImage
  (repeat' split) <;> simp

@[simp] theorem resumeRecord_mem (m : Mach) (r : Record) (x core : Nat) (repart : Bool) :
    (resumeRecord m r x core repart).mem = m.mem := by
  unfold resumeRecord
  dsimp only
  split
  · dsimp only
    rw [restoreImage_mem]
    simp
  · rw [setCtx_mem, foldl_mem (fun m x => joinOwn_mem m core _ _)]
    simp

theorem outWf_execRecordTakeUp {s : State} (hm : memWf s.m.mem = true) : OutWf (execRecordTakeUp s) := by
  unfold execRecordTakeUp
  refine outWf_whenRunning hm ?_
  grind [resumeRecord_mem, memWf_failRecord, serve_mem, outWf_whenRunning]

@[simp] theorem stayHeld_mem (m : Mach) (core i : Nat) (va : Word) (h : Option Hold) :
    (stayHeld m core i va h).mem = m.mem :=
  rfl

@[simp] theorem memWf_applyRelease {m : Mach} {core i : Nat} {va : Word} {z : Releaser} {h : Option Hold}
    (hm : memWf m.mem = true) : memWf (applyRelease m core i va z h).mem = true := by
  unfold applyRelease
  grind [memWf_report, stayHeld_mem, setAgent_mem, releaseFrame_mem]

theorem outWf_execRestoreComplete {core ctx : Nat} {s : State} (hm : memWf s.m.mem = true) :
    OutWf (execRestoreComplete core ctx s) := by
  unfold execRestoreComplete
  refine outWf_whenRunning hm ?_
  dsimp only
  (repeat' split) <;> grind [reissue_mem, modCtx_mem, stopCmds_mem, renumberActs_mem, setCore_mem, outWf_whenRunning,
      memWf_applyRelease, beginEnd_mem]

@[simp] theorem memWf_finishEnd {m : Mach} {core i : Nat} {e : Ending} (hm : memWf m.mem = true) :
    memWf (finishEnd m core i e).mem = true := by
  unfold finishEnd
  grind [memWf_countUnit, excludeUnit_mem, freeCtx_mem, markRan_mem, modCore_mem]

@[simp] theorem memWf_finishSusp {m : Mach} {core i : Nat} {c : Ctx} {u : UnitInfo} {z : Susp}
    (hm : memWf m.mem = true) : memWf (finishSusp m core i c u z).mem = true := by
  unfold finishSusp
  grind [modPart_mem, sweepAllocs_mem, memWf_writeVa, renameActs_mem, freeCtx_mem, memWf_areaRefused, markRan_mem,
      modCore_mem]

theorem outWf_execUnitEnd {core ctx : Nat} {s : State} (hm : memWf s.m.mem = true) :
    OutWf (execUnitEnd core ctx s) := by
  unfold execUnitEnd
  refine outWf_whenRunning hm ?_
  grind [memWf_finishEnd, memWf_finishSusp, outWf_whenRunning, beginEnd_mem]

@[simp] theorem memWf_resetNodeRec {m : Mach} {w : Who} {va : Word} (hm : memWf m.mem = true) :
    memWf (resetNodeRec m w va).mem = true := by
  unfold resetNodeRec
  (repeat' split) <;> simp [hm]

@[simp] theorem memWf_createGraph {m : Mach} {w : Who} {owner phase x : Nat} (hm : memWf m.mem = true) :
    memWf (createGraph m w owner phase x).mem = true :=
  memWf_foldl (fun _ _ hm => memWf_resetNodeRec hm) _ (memWf_writeRec hm)

@[simp] theorem memWf_evaluate {m : Mach} {job : Nat} (hm : memWf m.mem = true) :
    memWf (evaluate m job).mem = true := by
  unfold evaluate
  dsimp only
  split
  · exact hm
  · split
    · exact hm
    · refine memWf_foldl (fun _ _ hm => memWf_createGraph hm) _ (memWf_writeRec ?_)
      exact memWf_bumpNode hm

theorem outWf_execPhaseEvaluation {job : Nat} {s : State} (hm : memWf s.m.mem = true) :
    OutWf (execPhaseEvaluation job s) := by
  unfold execPhaseEvaluation
  refine outWf_whenRunning hm ?_
  grind [modNode_mem, memWf_settleNode, outWf_whenRunning, memWf_evaluate, memWf_bumpNode]

theorem outWf_execNodeConsider {graph node : Nat} {s : State} (hm : memWf s.m.mem = true) :
    OutWf (execNodeConsider graph node s) := by
  unfold execNodeConsider
  refine outWf_whenRunning hm ?_
  grind [memWf_hostEvent, memWf_submitLaunch, memWf_skipGraphNode, modNode_mem, memWf_settleNode, outWf_whenRunning,
      memWf_bumpNode]

theorem outWf_execHandlerStart {core : Nat} {s : State} (hm : memWf s.m.mem = true) :
    OutWf (execHandlerStart core s) := by
  unfold execHandlerStart
  refine outWf_whenRunning hm ?_
  dsimp only
  (repeat' split) <;> simp [hm]

theorem outWf_execTrapReplay {core ctx : Nat} {s : State} (hm : memWf s.m.mem = true) :
    OutWf (execTrapReplay core ctx s) := by
  unfold execTrapReplay
  refine outWf_whenRunning hm ?_
  dsimp only
  (repeat' split) <;> simp [hm]

@[simp] theorem dropNotices_mem (m : Mach) (core : Nat) : (dropNotices m core).mem = m.mem := rfl

@[simp] theorem dropBorrowed_mem (m : Mach) (p : Nat) : (dropBorrowed m p).mem = m.mem :=
  foldl_mem (fun m c => dropNotices_mem m c) _ m

theorem outWf_execRecallHandlerKill {core ctx : Nat} {s : State} (hm : memWf s.m.mem = true) :
    OutWf (execRecallHandlerKill core ctx s) := by
  unfold execRecallHandlerKill
  refine outWf_whenRunning hm ?_
  grind [memWf_hostEvent, stopCmds_mem, dropBorrowed_mem, outWf_whenRunning, beginEnd_mem]

@[simp] theorem memWf_clearCore {m : Mach} {core : Nat} (hm : memWf m.mem = true) :
    memWf (clearCore m core).mem = true := by
  unfold clearCore
  simp [hm]

theorem outWf_execRecallReturn {part : Nat} {s : State} (hm : memWf s.m.mem = true) :
    OutWf (execRecallReturn part s) := by
  refine outWf_whenRunning hm ?_
  dsimp only
  split
  · exact hm
  · have hc : memWf ((clusterCores part).foldl clearCore (dropBorrowed s.m part)).mem = true :=
      memWf_foldl (fun _ _ hm => memWf_clearCore hm) _ (memWf_of_mem (dropBorrowed_mem ..) hm)
    split
    · exact memWf_hostEvent (memWf_of_mem (modPart_mem ..) hc)
    · exact memWf_of_mem (modPart_mem ..) hc

theorem outWf_execUsageForward {s : State} (hm : memWf s.m.mem = true) : OutWf (execUsageForward s) := by
  refine outWf_next ?_
  split <;> exact hm

theorem outWf_execPinRenewal {core : Nat} {s : State} (hm : memWf s.m.mem = true) :
    OutWf (execPinRenewal core s) := by
  unfold execPinRenewal
  refine outWf_whenRunning hm ?_
  dsimp only
  (repeat' split) <;> simp [hm]

theorem outWf_execRillSweep {core : Nat} {s : State} (hm : memWf s.m.mem = true) : OutWf (execRillSweep core s) := by
  unfold execRillSweep
  refine outWf_whenRunning hm ?_
  dsimp only
  (repeat' split) <;> simp [hm]

/-! ### The host (Sys2Proof/Machine/HostIf) -/

@[simp] theorem setRing_mem (m : Mach) (vf i : Nat) (r : Ring) : (setRing m vf i r).mem = m.mem := rfl

theorem outWf_withVf {s : State} {vf : Nat} {f : Mach → Nat → Mach} (hm : memWf s.m.mem = true)
    (hf : ∀ o, memWf (f s.m o).mem = true) : OutWf (withVf s vf f) := by
  unfold withVf
  refine outWf_whenRunning hm ?_
  grind [outWf_whenRunning]

theorem outWf_withSubmission {s : State} {vf : Nat} {f : Mach → Nat → Mach} (hm : memWf s.m.mem = true)
    (hf : ∀ o, memWf (f s.m o).mem = true) : OutWf (withSubmission s vf f) := by
  refine outWf_onMach ?_
  split
  · exact hm
  · split
    · exact hf _
    · exact hm

@[simp] theorem memWf_writeTail {m : Mach} {vf i owner val : Nat} (hm : memWf m.mem = true) :
    memWf (writeTail m vf i owner val).mem = true := by
  unfold writeTail
  grind [memWf_report, setRing_mem]

theorem outWf_execTailWrite {vf ring : Nat} {val : W32} {s : State} (hm : memWf s.m.mem = true) :
    OutWf (execTailWrite vf ring val s) := by
  unfold execTailWrite
  refine outWf_withSubmission hm fun o => ?_
  simp [hm]

@[simp] theorem memWf_writeRing {m : Mach} {vf i owner : Nat} {f : Ring → Ring} (hm : memWf m.mem = true) :
    memWf (writeRing m vf i owner f).mem = true := by
  unfold writeRing
  grind [memWf_report, setRing_mem]

theorem outWf_execRbaseWrite {vf ring : Nat} {val : Word} {s : State} (hm : memWf s.m.mem = true) :
    OutWf (execRbaseWrite vf ring val s) := by
  unfold execRbaseWrite
  refine outWf_withVf hm fun o => ?_
  simp [hm]

theorem outWf_execRsizeWrite {vf ring : Nat} {val : W32} {s : State} (hm : memWf s.m.mem = true) :
    OutWf (execRsizeWrite vf ring val s) := by
  unfold execRsizeWrite
  refine outWf_withVf hm fun o => ?_
  simp [hm]

@[simp] theorem readVf_mem (m : Mach) (vf owner off : Nat) : (readVf m vf owner off).2.mem = m.mem := by
  unfold readVf
  (repeat' split) <;> simp

theorem outWf_execEqlostRead {vf : Nat} {s : State} (hm : memWf s.m.mem = true) : OutWf (execEqlostRead vf s) := by
  unfold execEqlostRead
  refine outWf_withVf hm fun o => ?_
  simp [hm]

theorem outWf_consumeUnless {s : State} {vf ring : Nat} {opcs : List Nat} {held : Mach → Nat → Nat → Bool}
    {f : Mach → Nat → Nat → Except Nat Mach} (hm : memWf s.m.mem = true)
    (hf : ∀ o x m', f s.m o x = .ok m' → memWf m'.mem = true) : OutWf (consumeUnless s vf ring opcs held f) := by
  unfold consumeUnless
  refine outWf_withSubmission hm fun o => ?_
  grind [memWf_report, outWf_withSubmission, setRing_mem]

theorem outWf_consume {s : State} {vf ring : Nat} {opcs : List Nat} {f : Mach → Nat → Nat → Except Nat Mach}
    (hm : memWf s.m.mem = true) (hf : ∀ o x m', f s.m o x = .ok m' → memWf m'.mem = true) :
    OutWf (consume s vf ring opcs f) :=
  outWf_consumeUnless hm hf

theorem outWf_execLaunch {vf ring : Nat} {s : State} (hm : memWf s.m.mem = true) : OutWf (execLaunch vf ring s) := by
  refine outWf_consume hm fun o x m' e => ?_
  have h := memWf_submitLaunch (w := whoOwner s.m o) (va := eA x) (parent := none) (child := false)
    (views := (getAgent s.m hostAgent).own) hm
  split at e
  · next he => rw [he] at h; cases e; exact h
  · next he => rw [he] at h; cases e; exact memWf_report h

theorem outWf_execJob {vf ring : Nat} {s : State} (hm : memWf s.m.mem = true) : OutWf (execJob vf ring s) := by
  refine outWf_consume hm fun o x m' e => ?_
  dsimp only at e
  split at e
  · cases e
  · split at e
    · rw [← Except.ok.inj e]
      exact memWf_report (memWf_refuseRec hm)
    · rw [← Except.ok.inj e]
      refine memWf_settleNode (memWf_evaluate (memWf_writeRec ?_))
      exact hm

theorem hostPush_mem {m : Mach} {o x : Nat} {close : Bool} {m' : Mach} (e : hostPush m o x close = .ok m') :
    m'.mem = m.mem := by
  unfold hostPush at e
  grind [setQueue_mem]

theorem outWf_execPush {vf ring : Nat} {s : State} (hm : memWf s.m.mem = true) : OutWf (execPush vf ring s) :=
  outWf_consume hm fun _ _ _ e => (hostPush_mem e).symm ▸ hm

theorem outWf_execClose {vf ring : Nat} {s : State} (hm : memWf s.m.mem = true) : OutWf (execClose vf ring s) :=
  outWf_consume hm fun _ _ _ e => (hostPush_mem e).symm ▸ hm

theorem outWf_execPost {vf ring : Nat} {s : State} (hm : memWf s.m.mem = true) : OutWf (execPost vf ring s) := by
  refine outWf_consumeUnless hm fun o x m' e => ?_
  split at e <;> cases e
  exact memWf_applyPost hm

@[simp] theorem memWf_cancelPending {m : Mach} {graph n : Nat} (hm : memWf m.mem = true) :
    memWf (cancelPending m graph n).mem = true := by
  unfold cancelPending
  simp [hm]

theorem outWf_execCancel {vf ring : Nat} {s : State} (hm : memWf s.m.mem = true) : OutWf (execCancel vf ring s) := by
  refine outWf_consume hm fun o x m' e => ?_
  dsimp only at e
  split at e
  · cases e; exact memWf_cancelNode hm
  · cases e; exact memWf_cancelPending hm
  · split at e <;> cases e
    exact memWf_cancelNode hm

@[simp] theorem setStep_mem (m : Mach) (vf o : Nat) (val : W32) : (setStep m vf o val).mem = m.mem := by
  unfold setStep
  grind [setVf_mem, modCore_mem]

theorem outWf_execSingleStep {vf : Nat} {val : W32} {s : State} (hm : memWf s.m.mem = true) :
    OutWf (execSingleStep vf val s) := by
  unfold execSingleStep
  refine outWf_withVf hm fun o => ?_
  simp [hm]

@[simp] theorem setFreeze_mem (m : Mach) (vf o : Nat) (val : W32) : (setFreeze m vf o val).mem = m.mem := by
  unfold setFreeze
  grind [setVf_mem, modCore_mem]

theorem outWf_execEngineFreeze {vf : Nat} {val : W32} {s : State} (hm : memWf s.m.mem = true) :
    OutWf (execEngineFreeze vf val s) := by
  unfold execEngineFreeze
  refine outWf_withVf hm fun o => ?_
  simp [hm]

@[simp] theorem memWf_writeDpost {m : Mach} {vf o : Nat} {val : Word} {now : Bool} (hm : memWf m.mem = true) :
    memWf (writeDpost m vf o val now).mem = true := by
  unfold writeDpost
  grind [memWf_report, memWf_postedEnd, modCtx_mem, setVf_mem]

theorem outWf_execPostSliceEndNow {vf : Nat} {val : Word} {s : State} (hm : memWf s.m.mem = true) :
    OutWf (execPostSliceEndNow vf val s) := by
  unfold execPostSliceEndNow
  refine outWf_withVf hm fun o => ?_
  simp [hm]

theorem outWf_execPostSliceEndAtEiss {vf : Nat} {val : Word} {s : State} (hm : memWf s.m.mem = true) :
    OutWf (execPostSliceEndAtEiss vf val s) := by
  unfold execPostSliceEndAtEiss
  refine outWf_withVf hm fun o => ?_
  simp [hm]

@[simp] theorem memWf_writeRelease {m : Mach} {vf o : Nat} {val : Word} (hm : memWf m.mem = true) :
    memWf (writeRelease m vf o val).mem = true := by
  unfold writeRelease
  grind [memWf_report, readyParked_mem, setVf_mem, releaseFrame_mem]

theorem outWf_execRelease {vf : Nat} {va : Word} {s : State} (hm : memWf s.m.mem = true) :
    OutWf (execRelease vf va s) := by
  unfold execRelease
  refine outWf_withVf hm fun o => ?_
  simp [hm]

@[simp] theorem writeCatch_mem (m : Mach) (vf o : Nat) (val : Word) : (writeCatch m vf o val).mem = m.mem := by
  unfold writeCatch
  grind [modPart_mem, setVf_mem]

@[simp] theorem writeGo_mem (m : Mach) (o : Nat) (val : Word) : (writeGo m o val).mem = m.mem := by
  unfold writeGo
  (repeat' split) <;> simp

theorem outWf_execCatchRecords {vf : Nat} {val : Word} {s : State} (hm : memWf s.m.mem = true) :
    OutWf (execCatchRecords vf val s) := by
  unfold execCatchRecords
  refine outWf_withVf hm fun o => ?_
  simp [hm]

theorem outWf_execGo {vf : Nat} {val : Word} {s : State} (hm : memWf s.m.mem = true) : OutWf (execGo vf val s) := by
  unfold execGo
  refine outWf_withVf hm fun o => ?_
  simp [hm]

@[simp] theorem memWf_writeVf {m : Mach} {vf o off : Nat} {val : Word} (hm : memWf m.mem = true) :
    memWf (writeVf m vf o off val).mem = true := by
  unfold writeVf
  (repeat' split) <;> simp [hm]

@[simp] theorem startRecall_mem (m : Mach) (part : Nat) : (startRecall m part).mem = m.mem :=
  (foldl_mem (fun m r => unpinRecord_mem m r) _ _).trans (modPart_mem ..)

@[simp] theorem writeLendto_mem (m : Mach) (p i : Nat) (val : Word) : (writeLendto m p i val).mem = m.mem := by
  unfold writeLendto
  dsimp only
  (repeat' split) <;> simp

@[simp] theorem writeSetting_mem (m : Mach) (p : Nat) (x : Setting) (val : Word) :
    (writeSetting m p x val).mem = m.mem := by
  unfold writeSetting
  grind [setPart_mem]

@[simp] theorem memWf_writeReg {m : Mach} {r : HostReg} {val : Word} (hm : memWf m.mem = true) :
    memWf (writeReg m r val).mem = true := by
  unfold writeReg
  dsimp only
  (repeat' split) <;> simp [hm]

theorem outWf_execRegisterWrite {r : HostReg} {val : Word} {s : State} (hm : memWf s.m.mem = true) :
    OutWf (execRegisterWrite r val s) := by
  unfold execRegisterWrite
  split
  · exact outWf_withSubmission hm fun _ => memWf_writeReg hm
  · exact outWf_whenRunning hm (memWf_writeReg hm)

@[simp] theorem invalAll_mem (m : Mach) (part : Nat) : (invalAll m part).mem = m.mem := rfl

theorem outWf_execSetRoot {part : Nat} {pa : Word} {s : State} (hm : memWf s.m.mem = true) :
    OutWf (execSetRoot part pa s) := by
  unfold execSetRoot
  refine outWf_whenRunning hm ?_
  (repeat' split) <;> simp [hm]

@[simp] theorem memWf_zeroFrame {m : Mach} {pa size : Nat} (hm : memWf m.mem = true) :
    memWf (zeroFrame m pa size).mem = true :=
  memWf_foldl (fun _ _ h => memWf_commitWrite _ _ _ _ _ h) _ hm

@[simp] theorem memWf_passPages {m : Mach} {p old : Nat} {new : Option Nat} (hm : memWf m.mem = true) :
    memWf (passPages m p old new).mem = true := by
  refine memWf_foldl (fun m e hm => ?_) _ hm
  dsimp only
  split
  · exact hm
  · exact memWf_commitNat _ _ _ _ _ (memWf_zeroFrame hm)

theorem outWf_execSetOwner {part : Nat} {owner : Option Byte} {s : State} (hm : memWf s.m.mem = true) :
    OutWf (execSetOwner part owner s) := by
  refine outWf_next ?_
  dsimp only
  split
  · exact hm
  · split
    · exact memWf_pf0Event hm
    · have hc : memWf ((partCores part).foldl (fun m c => clearCore (dropNotices m c) c) s.m).mem = true :=
        memWf_foldl (fun m c hm => memWf_clearCore (memWf_of_mem (dropNotices_mem m c) hm)) _ hm
      dsimp only
      rw [invalAll_mem, modPart_mem]
      split
      · exact memWf_passPages hc
      · exact hc

theorem outWf_execSetRecarea {part : Nat} {va : Word} {imgcnt reccnt : Nat} {s : State} (hm : memWf s.m.mem = true) :
    OutWf (execSetRecarea part va imgcnt reccnt s) := by
  unfold execSetRecarea
  refine outWf_whenRunning hm ?_
  (repeat' split) <;> simp [hm]

theorem outWf_execRecallLend {vf part : Nat} {s : State} (hm : memWf s.m.mem = true) :
    OutWf (execRecallLend vf part s) := by
  unfold execRecallLend
  refine outWf_withVf hm fun o => ?_
  dsimp only
  (repeat' split) <;> simp [hm]

theorem outWf_execLend {vf part : Nat} {mask : BitVec 256} {s : State} (hm : memWf s.m.mem = true) :
    OutWf (execLend vf part mask s) := by
  unfold execLend
  refine outWf_withVf hm fun o => ?_
  dsimp only
  (repeat' split) <;> simp [hm]

theorem outWf_execHostMemRead {hdm pa size pos : Nat} {s : State} (hm : memWf s.m.mem = true) :
    OutWf (execHostMemRead hdm pa size pos s) := by
  unfold execHostMemRead
  refine outWf_whenRunning hm ?_
  dsimp only
  (repeat' split) <;> simp [hm]

theorem outWf_execHostMemWrite {hdm pa size : Nat} {data : Gran} {s : State} (hm : memWf s.m.mem = true) :
    OutWf (execHostMemWrite hdm pa size data s) := by
  unfold execHostMemWrite
  refine outWf_whenRunning hm ?_
  grind [sendMsg_mem, outWf_whenRunning, memWf_commitNat]

/-! ### Reset, scan, wear and alarms (Sys2Proof/Machine/Trust) -/

@[simp] theorem memWf_broughtUp (m : Mach) (t : Trust) : memWf (broughtUp m t).mem = true := rfl

@[simp] theorem memWf_outOfService (m : Mach) : memWf (outOfService m).mem = true := rfl

theorem outWf_execPackageReset {s : State} : OutWf (execPackageReset s) := by
  refine outWf_next ?_
  extract_lets t
  split
  · exact memWf_broughtUp _ _
  · exact memWf_outOfService s.m

theorem outWf_execPowerLoss {s : State} : OutWf (execPowerLoss s) := outWf_next (memWf_outOfService s.m)

theorem outWf_execKeyInstall {owner slot : Nat} {id : Word} {key : Nat} {s : State} (hm : memWf s.m.mem = true) :
    OutWf (execKeyInstall owner slot id key s) := by
  refine outWf_next ?_
  split <;> exact hm

theorem outWf_spdmAnswer {s : State} {need reach code : Nat} {body : List Nat} (hm : memWf s.m.mem = true) :
    OutWf (spdmAnswer s need reach code body) := by
  refine outWf_next ?_
  extract_lets t
  split <;> exact hm

theorem outWf_execGetVersion {s : State} (hm : memWf s.m.mem = true) : OutWf (execGetVersion s) := outWf_next hm

theorem outWf_execGetCapabilities {s : State} (hm : memWf s.m.mem = true) : OutWf (execGetCapabilities s) :=
  outWf_spdmAnswer hm

theorem outWf_execNegotiateAlgorithms {offered : Bool} {s : State} (hm : memWf s.m.mem = true) :
    OutWf (execNegotiateAlgorithms offered s) := by
  unfold execNegotiateAlgorithms
  split <;> exact outWf_spdmAnswer hm

theorem outWf_execGetDigests {s : State} (hm : memWf s.m.mem = true) : OutWf (execGetDigests s) := outWf_spdmAnswer hm

theorem outWf_execGetCertificate {slot : Nat} {s : State} (hm : memWf s.m.mem = true) :
    OutWf (execGetCertificate slot s) :=
  outWf_spdmAnswer hm

theorem outWf_execChallenge {nonce : Nat} {s : State} (hm : memWf s.m.mem = true) : OutWf (execChallenge nonce s) :=
  outWf_spdmAnswer hm

theorem outWf_execGetMeasurements {index nonce : Nat} {s : State} (hm : memWf s.m.mem = true) :
    OutWf (execGetMeasurements index nonce s) := by
  unfold execGetMeasurements
  split <;> exact outWf_spdmAnswer hm

theorem outWf_execKeyExchange {data : Nat} {s : State} (hm : memWf s.m.mem = true) : OutWf (execKeyExchange data s) :=
  outWf_spdmAnswer hm

theorem outWf_execFinish {data : Nat} {s : State} (hm : memWf s.m.mem = true) : OutWf (execFinish data s) := by
  unfold execFinish
  split
  · exact outWf_spdmAnswer hm
  · exact outWf_next hm

theorem outWf_execScanPassStart {cluster : Nat} {s : State} (hm : memWf s.m.mem = true) :
    OutWf (execScanPassStart cluster s) := by
  unfold execScanPassStart
  refine outWf_whenRunning hm ?_
  dsimp only
  (repeat' split) <;> simp [hm]

@[simp] theorem memWf_finalize {m : Mach} {i : Nat} (hm : memWf m.mem = true) : memWf (finalize m i).mem = true := by
  unfold finalize
  grind [memWf_bumpNode]

@[simp] theorem retireCore_mem (s : State) (core : Nat) : (retireCore s core).m.mem = s.m.mem := rfl

@[simp] theorem memWf_passPassed {m : Mach} {core : Nat} (hm : memWf m.mem = true) :
    memWf (passPassed m core).mem = true :=
  memWf_foldl (fun _ _ hm => memWf_finalize hm) _
    (memWf_of_mem (foldl_mem (fun m i => modNode_mem m i _) _ _) hm)

@[simp] theorem memWf_passFailed {m : Mach} {core : Nat} (hm : memWf m.mem = true) :
    memWf (passFailed m core).mem = true := by
  refine memWf_countOwed (memWf_of_mem (foldl_mem (fun m r => endRecord_mem m r true 0x19) _ _) ?_)
  refine memWf_foldl (fun _ _ hm => memWf_hostEvent (memWf_bumpNode hm)) _ ?_
  exact hm

theorem outWf_execScanPassEnd {core : Nat} {pass : Bool} {s : State} (hm : memWf s.m.mem = true) :
    OutWf (execScanPassEnd core pass s) := by
  refine outWf_next ?_
  cases pass
  · dsimp only
    split
    · exact hm
    · exact memWf_of_mem (retireCore_mem _ _) (memWf_passFailed hm)
  · dsimp only
    split
    · exact hm
    · exact memWf_passPassed hm

theorem outWf_execCorrectedError {site : ErrSite} {s : State} (hm : memWf s.m.mem = true) :
    OutWf (execCorrectedError site s) := by
  unfold execCorrectedError
  refine outWf_whenRunning hm ?_
  (repeat' split) <;> simp [hm]

theorem outWf_execRetirement {site : ErrSite} {s : State} (hm : memWf s.m.mem = true) :
    OutWf (execRetirement site s) := by
  refine outWf_next ?_
  dsimp only
  (repeat' split) <;> simp [hm]

theorem outWf_execWearWarning {die : Nat} {hours : W32} {s : State} (hm : memWf s.m.mem = true) :
    OutWf (execWearWarning die hours s) := by
  refine outWf_next ?_
  split
  · exact hm
  · dsimp only
    split
    · exact memWf_pf0Event hm
    · exact hm

theorem outWf_execScrubGranule {pa : Nat} {bad : Bool} {s : State} (hm : memWf s.m.mem = true) :
    OutWf (execScrubGranule pa bad s) := by
  unfold execScrubGranule
  refine outWf_whenRunning hm ?_
  (repeat' split) <;> simp [hm]

@[simp] theorem fillStands_mem (m : Mach) (gang : Nat) : (fillStands m gang).mem = m.mem := by
  unfold fillStands
  grind [modGang_mem]

theorem outWf_execMemberDown {pkg : Nat} {s : State} (hm : memWf s.m.mem = true) : OutWf (execMemberDown pkg s) := by
  refine outWf_whenRunning hm ?_
  refine memWf_of_mem (foldl_mem (fun m gang => fillStands_mem m gang) _ _) ?_
  refine memWf_of_mem (foldl_mem (fun m (e : Nat × Gang) => modGang_mem m e.1 _) _ _) ?_
  exact memWf_of_mem (excludePackage_mem _ _) hm

theorem outWf_execSpareFillDone {fill : FillReport} {s : State} (hm : memWf s.m.mem = true) :
    OutWf (execSpareFillDone fill s) := by
  unfold execSpareFillDone
  refine outWf_whenRunning hm ?_
  dsimp only
  (repeat' split) <;> simp [hm]

theorem outWf_execSecurityAlarm {cause : AlarmCause} {s : State} (hm : memWf s.m.mem = true) :
    OutWf (execSecurityAlarm cause s) := by
  refine outWf_next ?_
  split <;> exact hm

theorem outWf_execThermalThrottle {on : Bool} {s : State} (hm : memWf s.m.mem = true) :
    OutWf (execThermalThrottle on s) := by
  unfold execThermalThrottle
  refine outWf_whenRunning hm ?_
  simp [hm]

end Sys2Proof.Machine
end

section
/-!
PROOFS. What each function of the model does to the canonical form of memory (spec/08, log 3):
the step.
A function that writes no memory leaves it (`f_mem`); one that writes keeps the form (`memWf_f`), and so does every state
that an event goes on to (`outWf_f`).
-/

namespace Sys2Proof.Machine

/-! ### Every instruction (Sys2Proof/Machine/Dispatch) -/

theorem outWf_event {i : Instr} {s : State} (hev : isWord i = false) (hm : memWf s.m.mem = true) :
    OutWf (exec i s) := by
  unfold exec
  cases i with
  | packageReset => exact outWf_execPackageReset
  | tailWrite => exact outWf_execTailWrite hm
  | launch => exact outWf_execLaunch hm
  | job => exact outWf_execJob hm
  | push => exact outWf_execPush hm
  | close => exact outWf_execClose hm
  | post => exact outWf_execPost hm
  | cancel => exact outWf_execCancel hm
  | rbaseWrite => exact outWf_execRbaseWrite hm
  | rsizeWrite => exact outWf_execRsizeWrite hm
  | eqlostRead => exact outWf_execEqlostRead hm
  | postSliceEndNow => exact outWf_execPostSliceEndNow hm
  | postSliceEndAtEiss => exact outWf_execPostSliceEndAtEiss hm
  | postedSliceEndTrigger => exact outWf_execPostedSliceEndTrigger hm
  | release => exact outWf_execRelease hm
  | catchRecords => exact outWf_execCatchRecords hm
  | go => exact outWf_execGo hm
  | singleStep => exact outWf_execSingleStep hm
  | engineFreeze => exact outWf_execEngineFreeze hm
  | registerWrite => exact outWf_execRegisterWrite hm
  | setRoot => exact outWf_execSetRoot hm
  | setOwner => exact outWf_execSetOwner hm
  | lend => exact outWf_execLend hm
  | recallLend => exact outWf_execRecallLend hm
  | setRecarea => exact outWf_execSetRecarea hm
  | keyInstall => exact outWf_execKeyInstall hm
  | getVersion => exact outWf_execGetVersion hm
  | getCapabilities => exact outWf_execGetCapabilities hm
  | negotiateAlgorithms => exact outWf_execNegotiateAlgorithms hm
  | getDigests => exact outWf_execGetDigests hm
  | getCertificate => exact outWf_execGetCertificate hm
  | challenge => exact outWf_execChallenge hm
  | getMeasurements => exact outWf_execGetMeasurements hm
  | keyExchange => exact outWf_execKeyExchange hm
  | finish => exact outWf_execFinish hm
  | hostMemRead => exact outWf_execHostMemRead hm
  | hostMemWrite => exact outWf_execHostMemWrite hm
  | unitPlace => exact outWf_execUnitPlace hm
  | zeroingComplete => exact outWf_execZeroingComplete hm
  | sliceEnd => exact outWf_execSliceEnd hm
  | recordTakeUp => exact outWf_execRecordTakeUp hm
  | phaseEvaluation => exact outWf_execPhaseEvaluation hm
  | nodeConsider => exact outWf_execNodeConsider hm
  | unitEnd => exact outWf_execUnitEnd hm
  | recallHandlerKill => exact outWf_execRecallHandlerKill hm
  | recallReturn => exact outWf_execRecallReturn hm
  | usageForward => exact outWf_execUsageForward hm
  | scanPassStart => exact outWf_execScanPassStart hm
  | scanPassEnd => exact outWf_execScanPassEnd hm
  | correctedError => exact outWf_execCorrectedError hm
  | retirement => exact outWf_execRetirement hm
  | wearWarning => exact outWf_execWearWarning hm
  | scrubGranule => exact outWf_execScrubGranule hm
  | memberDown => exact outWf_execMemberDown hm
  | spareFillDone => exact outWf_execSpareFillDone hm
  | securityAlarm => exact outWf_execSecurityAlarm hm
  | thermalThrottle => exact outWf_execThermalThrottle hm
  | powerLoss => exact outWf_execPowerLoss
  | arm => exact outWf_execArm hm
  | armed => exact outWf_execArmed hm
  | refuse => exact outWf_execRefuse hm
  | commit => exact outWf_execCommit hm
  | committed => exact outWf_execCommitted hm
  | gangtoExpiry => exact outWf_execGangtoExpiry hm
  | flitReceive => exact outWf_execFlitReceive hm
  | replayRequest => exact outWf_execReplayRequest hm
  | remoteLoadRequest => exact outWf_execRemoteLoadRequest hm
  | remoteStoreRequest => exact outWf_execRemoteStoreRequest hm
  | directReductionRequest => exact outWf_execDirectReductionRequest hm
  | groupContribution => exact outWf_execGroupContribution hm
  | mirrorWrite => exact outWf_execMirrorWrite hm
  | loadResponse => exact outWf_execLoadResponse hm
  | acknowledgement => exact outWf_execAcknowledgement hm
  | movedNack => exact outWf_execMovedNack hm
  | requestTimeout => exact outWf_execRequestTimeout hm
  | rankExclusion => exact outWf_execRankExclusion hm
  | roundClose => exact outWf_execRoundClose hm
  | roundTimeout => exact outWf_execRoundTimeout hm
  | resultWrite => exact outWf_execResultWrite hm
  | multicastReplica => exact outWf_execMulticastReplica hm
  | handlerStart => exact outWf_execHandlerStart hm
  | waitSatisfied => exact outWf_execWaitSatisfied hm
  | scoreboardLand => exact outWf_execScoreboardLand hm
  | resultLand => exact outWf_execResultLand hm
  | trapReplay => exact outWf_execTrapReplay hm
  | preemptRequest => exact outWf_execPreemptRequest hm
  | stopPointReached => exact outWf_execStopPointReached hm
  | engineStopAck => exact outWf_execEngineStopAck hm
  | collectiveStopExpiry => exact outWf_execCollectiveStopExpiry hm
  | weirComplete => exact outWf_execWeirComplete hm
  | pinRenewal => exact outWf_execPinRenewal hm
  | rillSweep => exact outWf_execRillSweep hm
  | issueQueueLeave => exact outWf_execIssueQueueLeave hm
  | pendingCommit => exact outWf_execPendingCommit hm
  | portApply => exact outWf_execPortApply hm
  | loadBind => exact outWf_execLoadBind hm
  | atomicApply => exact outWf_execAtomicApply hm
  | raddBlockApply => exact outWf_execRaddBlockApply hm
  | fenceComplete => exact outWf_execFenceComplete hm
  | shutCommit => exact outWf_execShutCommit hm
  | pageWalk => exact outWf_execPageWalk hm
  | invalidation => exact outWf_execInvalidation hm
  | invalidationAck => exact outWf_execInvalidationAck hm
  | pageMigration => exact outWf_execPageMigration hm
  | engineCommandStart => exact outWf_execEngineCommandStart hm
  | engineBlockApply => exact outWf_execEngineBlockApply hm
  | engineCommandEnd => exact outWf_execEngineCommandEnd hm
  | operandFillDone => exact outWf_execOperandFillDone hm
  | saveImageWritten => exact outWf_execSaveImageWritten hm
  | restoreComplete => exact outWf_execRestoreComplete hm
  | gangCancelMessage => exact outWf_execGangCancelMessage hm
  | _ => cases hev

theorem outWf_exec {i : Instr} {s : State} (hm : memWf s.m.mem = true) : OutWf (exec i s) := by
  by_cases hw : isWord i = true
  · by_cases hc : ∃ h l, i = .bCancel h l
    · obtain ⟨h, l, rfl⟩ := hc
      exact outWf_execBCancel hm
    · exact fun t e => memWf_of_quiet hm (quiet_exec hw (fun h l e => hc ⟨h, l, e⟩) e).1
  · exact outWf_event (Bool.not_eq_true _ ▸ hw) hm

/-! ### Issue (Sys2Proof/Machine/Issue) -/

@[simp] theorem memWf_runOne {s : State} {idx : Nat} {w : FWord} (hm : memWf s.m.mem = true) :
    memWf (runOne s idx w).m.mem = true := by
  unfold runOne
  split
  · exact hm
  · dsimp only
    split
    · next he =>
      have ht := outWf_exec (by exact hm) _ he
      split <;> exact ht
    · exact hm

@[simp] theorem memWf_runGroup {s : State} {g : Group} (hm : memWf s.m.mem = true) :
    memWf (runGroup s g).m.mem = true := by
  unfold runGroup
  induction g generalizing s with
  | nil => exact hm
  | cons e g ih =>
    refine ih ?_
    dsimp only
    split
    · exact hm
    · exact memWf_runOne hm

@[simp] theorem memWf_runWords {s : State} {gs : List Group} (hm : memWf s.m.mem = true) :
    memWf (runWords s gs).m.mem = true := by
  have hgroup (g : Group) : memWf (runGroup s g).m.mem = true := memWf_runGroup hm
  have hall (gs : List Group) : memWf ((gs.foldl runGroup s).m).mem = true := by
    induction gs generalizing s with
    | nil => exact hm
    | cons g gs ih => exact ih (memWf_runGroup hm) fun g => memWf_runGroup (memWf_runGroup hm)
  unfold runWords
  dsimp only
  split
  · split
    · next t _ _ he =>
      obtain ⟨g, -, rfl⟩ := List.mem_map.1 (List.mem_of_find?_eq_some he)
      exact hgroup g
    · next t _ _ he =>
      obtain ⟨g, -, rfl⟩ := List.mem_map.1 (List.mem_of_find?_eq_some he)
      exact hgroup g
    · exact hall _
  · exact hall _

@[simp] theorem traceBundle_mem (m : Mach) (core i : Nat) (c : Ctx) (pkt pos : Nat) :
    (traceBundle m core i c pkt pos).mem = m.mem := by
  unfold traceBundle
  (repeat' split) <;> simp

@[simp] theorem finishEnded_mem (m : Mach) (core i : Nat) : (finishEnded m core i).mem = m.mem := by
  unfold finishEnded
  grind [modCtx_mem, dropPre_mem]

@[simp] theorem memWf_finishRelease {m : Mach} {core i : Nat} {va : Word} {hc hi : Nat} (hm : memWf m.mem = true) :
    memWf (finishRelease m core i va hc hi).mem = true := by
  unfold finishRelease
  grind [frameRelease_mem, memWf_trapEnter, freeCtx_mem]

@[simp] theorem memWf_finishBundle {m : Mach} {last : FWord} (hm : memWf m.mem = true) :
    memWf (finishBundle m last).mem = true := by
  unfold finishBundle
  grind [modCtx_mem, finishEnded_mem, memWf_trapEnter, traceBundle_mem, memWf_finishRelease, beginEnd_mem, setCtx_mem]

@[simp] theorem memWf_raiseDue {m : Mach} {core i : Nat} {d : Due} (hm : memWf m.mem = true) :
    memWf (raiseDue m core i d).mem = true := by
  unfold raiseDue
  grind [memWf_trapEnter, memWf_writeVa, beginEnd_mem, memWf_areaRefused, setCtx_mem]

@[simp] theorem stallCtx_mem (m : Mach) (core i : Nat) : (stallCtx m core i).mem = m.mem := rfl

@[simp] theorem memWf_trapHere {m : Mach} {core i : Nat} {cause : Byte} {faddr finfo : Word}
    (hm : memWf m.mem = true) : memWf (trapHere m core i cause faddr finfo).mem = true := by
  unfold trapHere
  simp [hm]

@[simp] theorem memWf_issueWords {s : State} {core i : Nat} {ws : List FWord} (hm : memWf s.m.mem = true) :
    memWf (issueWords s core i ws).m.mem = true := by
  unfold issueWords
  dsimp only
  (repeat' split) <;> simp [hm]

@[simp] theorem memWf_issueCtx {s : State} {core i : Nat} (hm : memWf s.m.mem = true) :
    memWf (issueCtx s core i).m.mem = true := by
  have hmet (ts : List Tr) (m : Mach) : (ts.foldl (fun m t => metTr m core (some t)) m).mem = m.mem :=
    foldl_mem (fun m t => metTr_mem m core (some t)) ts m
  unfold issueCtx
  dsimp only
  split
  · simp [hm]
  · split
    · split <;> simp [hm]
    · split
      · simp [hm]
      · split
        · exact memWf_trapHere (by rw [hmet]; exact hm)
        · rw [stallCtx_mem, enterMiss_mem, hmet]; exact hm
        · exact memWf_issueWords (by dsimp only; rw [hmet]; exact hm)

@[simp] theorem memWf_issueCore {s : State} {core : Nat} (hm : memWf s.m.mem = true) :
    memWf (issueCore s core).m.mem = true := by
  unfold issueCore
  dsimp only
  (repeat' split) <;> simp [hm]

/-! ### The clock (Sys2Proof/Machine/Clock) -/

@[simp] theorem chargeCycle_mem (m : Mach) (core o : Nat) (lent : Bool) :
    (chargeCycle m core o lent).mem = m.mem := by
  unfold chargeCycle
  grind [setOwnerOf_mem]

@[simp] theorem meterCycle_mem (m : Mach) : (meterCycle m).mem = m.mem := by
  unfold meterCycle
  refine foldl_mem (fun m e => foldl_mem (fun m x => ?_) _ m) _ m
  exact chargeCycle_mem m e.1 x.1 x.2

@[simp] theorem tickNow_mem (m : Mach) : (tickNow m).mem = m.mem := rfl

@[simp] theorem memWf_settleEnded {m : Mach} (hm : memWf m.mem = true) : memWf (settleEnded m).mem = true :=
  memWf_countOwed (memWf_endRests (by
    rw [foldl_mem (fun m (x : Nat × Nat) => excludeUnit_mem m x.1 x.2)]
    exact hm))

@[simp] theorem memWf_payHeld {m : Mach} (hm : memWf m.mem = true) : memWf (payHeld m).mem = true :=
  memWf_foldl (fun _ _ hm => memWf_payEvents hm) _
    (memWf_foldl (fun _ _ hm => memWf_payFrame hm) _ (memWf_payRecs hm))

@[simp] theorem memWf_tick {m : Mach} (hm : memWf m.mem = true) : memWf (tick m).mem = true := by
  unfold tick
  (repeat' split) <;> simp [hm]

/-! ### Images (Sys2Proof/Machine/Object) -/

theorem memWf_mapPages {m m' : Mach} {part owner flags x pa n : Nat} (hm : memWf m.mem = true)
    (e : mapPages m part owner flags x pa n = .ok m') : memWf m'.mem = true := by
  induction n generalizing m x pa with
  | zero => cases e; exact hm
  | succ n ih =>
    unfold mapPages at e
    split at e
    · cases e
    · split at e
      · cases e
      · exact ih (memWf_commitNat _ _ _ _ _ hm) e

theorem memWf_placeSections {file : List Byte} {ss : List RocSection} {part owner csb : Nat}
    {parts : List (Nat × RocSection × Nat)} {m : Mach} {m' : Mach} (hm : memWf m.mem = true)
    (e : placeSections file ss part owner csb parts m = .ok m') : memWf m'.mem = true := by
  induction parts generalizing m with
  | nil => cases e; exact hm
  | cons x rest ih =>
    obtain ⟨i, s, frame⟩ := x
    unfold placeSections at e
    split at e
    · exact ih hm e
    · split at e
      · cases e
      · split at e
        · cases e
        · next hp => exact ih (memWf_commitBytes _ _ _ _ _ (memWf_mapPages hm hp)) e

@[simp] theorem installRegion_mem (part owner : Nat) (file : List Byte) (m : Mach) (o : Nat) :
    (installRegion part owner file m o).mem = m.mem := by
  unfold installRegion
  grind [setQueue_mem, modPart_mem]

@[simp] theorem memWf_installWindows {part : Nat} {file : List Byte} {ts : List (Nat × Nat)} {m : Mach}
    (hm : memWf m.mem = true) : memWf (installWindows part file ts m).mem = true := by
  induction ts generalizing m with
  | nil => exact hm
  | cons x rest ih =>
    unfold installWindows
    dsimp only
    split
    · exact ih hm
    · exact ih (memWf_commitNat _ _ _ _ _ hm)

theorem memWf_loadImage {s : State} {part : Nat} {frames : List Nat} {file : List Byte} {t : State}
    (hm : memWf s.m.mem = true) (e : loadImage s part frames file = .ok t) : memWf t.m.mem = true := by
  unfold loadImage at e
  dsimp only at e
  (repeat' split at e) <;> cases e
  next hp =>
  refine memWf_installWindows (memWf_of_mem (foldl_mem (fun m o => installRegion_mem part _ file m o) _ _) ?_)
  exact memWf_placeSections hm hp

/-! ### Moves (Sys2Proof/Machine/Sched) -/

@[simp] theorem memWf_issueMove {s : State} {core : Nat} (hm : memWf s.m.mem = true) :
    memWf (issueMove s core).m.mem = true := by
  unfold issueMove
  (repeat' split) <;> simp [hm]

theorem outWf_runMove {s : State} {v : Move} (hm : memWf s.m.mem = true) : OutWf (runMove s v) := by
  unfold runMove
  split
  · split
    · exact fun _ e => by cases e
    · exact outWf_exec hm
  · exact outWf_next (memWf_issueMove hm)
  · exact outWf_next (memWf_tick (memWf_serveOwners hm))
  · next p frames file =>
    refine outWf_next ?_
    split
    · cases hl : loadImage s p frames file with
      | error _ => exact hm
      | ok t => exact memWf_loadImage hm hl
    · exact hm

/-! ### The step (Sys2Proof/Machine/Step) -/

@[simp] theorem freshen_mem (s : State) : (State.freshen s).m.mem = s.m.mem := rfl

@[simp] theorem popMove_mem (s : State) : (State.popMove s).m.mem = s.m.mem := rfl

theorem outWf_step {s : State} (hm : memWf s.m.mem = true) : OutWf (step s) := by
  unfold step
  split
  · exact outWf_runMove (by rw [popMove_mem, freshen_mem]; exact hm)
  · exact outWf_runMove (by rw [freshen_mem]; exact hm)

end Sys2Proof.Machine
open Sys2Proof Sys2Proof.Machine

/-- Settles O59: the form is kept by every move of the step: an event or a word (`outWf_exec`), the issue of a bundle, the
clock, the loading of an image; memory is written in its canonical form alone (`memWf_writeNat`), or bytes are taken from
it (`smWf_filter`). -/
theorem memoryKeepsItsForm : Obligations.MemoryKeepsItsForm := by
  unfold Obligations.MemoryKeepsItsForm
  exact fun s t hs he => outWf_step hs t he
end
